-- ==== Sys2Proof/Word.lean ====
section
/-! DEFINITION. The word types of the model and their plainest arithmetic. -/

namespace Sys2Proof

/-- A byte of memory or of a message. -/
abbrev Byte := BitVec 8
/-- A 32-bit register or data word (R471). -/
abbrev Word := BitVec 32
/-- A 64-bit word. -/
abbrev DWord := BitVec 64

/-- An unsigned number read as a two's complement number of `w` bits. -/
def toSigned (w n : Nat) : Int :=
  if n % 2 ^ w < 2 ^ (w - 1) then (n % 2 ^ w : Nat) else ((n % 2 ^ w : Nat) : Int) - (2 ^ w : Nat)

/-- The `w`-bit two's complement code of an integer. -/
def ofSigned (w : Nat) (i : Int) : Nat := (i % ((2 ^ w : Nat) : Int)).toNat

/-- Bits `hi` down to `lo` of a number. -/
def bits (n hi lo : Nat) : Nat := (n >>> lo) % 2 ^ (hi + 1 - lo)

/-- An integer held within bounds. -/
def clampI (lo hi x : Int) : Int := max lo (min hi x)

/-- Division of integers truncated towards zero (R240). -/
def tdivI (a b : Int) : Int := Int.tdiv a b

end Sys2Proof
end

