-- ==== Sys2Proof/Syntax.lean ====
section
/-! DEFINITION. The commands of the block: one constructor of `Instr` for each row of the table, and the types of
their operands. A command is a host access, a message or edge at a pin, or one step of an engine of the device. -/

namespace Sys2Proof

/-- What the CSI-2 header protection finds (R35, R38). -/
inductive HdrCheck where
  | good | corrected | bad
deriving DecidableEq, Repr

/-- One CSI-2 packet as it leaves the line (R35 to R38). Data types below 0x10 are short packets. -/
structure CsiPacket where
  hdr     : HdrCheck
  vc      : BitVec 5
  dt      : BitVec 6
  payload : List Byte
  crcOk   : Bool
deriving DecidableEq, Repr

/-- A CAN frame (R67). -/
structure CanFrame where
  ident : BitVec 29
  ide   : Bool
  rtr   : Bool
  fd    : Bool
  data  : List Byte
deriving DecidableEq, Repr

/-- The consumers of loop values (R18): the buffer a value is written into. -/
inductive LoopTarget where
  | fendRate (hub : Fin 2)
  | gridPose
  | trkPose
  | engHints
  | fendRoi (sensor : Fin 16)
  | fendShed (hub : Fin 2)
deriving DecidableEq, Repr

/-- An error that an upset has left in stored data (R337). -/
inductive Upset where
  | none | single | double | address
deriving DecidableEq, Repr

/-- What a block's own checks have found (R390, R497): its page, the fault bit, or 0x80 for a corrected error, 0x82 and 0x83 for a NoC
transfer, and the core, the router plus 1,024, the port or the ring that it concerns. -/
structure HwFault where
  page : Fin 64
  bit  : BitVec 8
  inst : Nat
deriving DecidableEq, Repr

/-- Operand formats of a layer (R165). -/
inductive NumFmt where
  | int4 | int8 | int32 | e4m3 | e5m2 | bf16 | fp32
deriving DecidableEq, Repr

/-- One layer of a model image (R193, section LAYER), as decoded fields. -/
structure LayerDesc where
  wfmt    : NumFmt
  afmt    : NumFmt
  ofmt    : NumFmt
  sparse  : Bool
  radius  : Nat
  stride  : Nat
  hashH   : Nat
  listCap : Nat
  mode    : Nat
  q       : Nat
  texp    : Int
  tol     : Option Word
  tolAbs  : Option Word
  margin  : Bool
  relu    : Bool
  hinted  : Bool
  bias    : List Int
  mult    : List Int
  shift   : List Nat
deriving DecidableEq, Repr

/-- One task of a model image (R194): its entry's fields with its dependency list, and the bound buffer that it writes, as its operand
descriptor names it. -/
structure TaskDesc where
  layer   : Nat
  deps    : List Nat
  depCnt  : Nat
  depOff  : Nat
  readsIn : Bool
  writesOut : Bool
  m       : Nat
  kb      : Nat
  nm1     : Nat
  engMask : Nat
  passes  : Nat
  waddr   : Nat
  oaddr   : Nat
  out     : Option Nat
deriving DecidableEq, Repr

/-- A model's trigger (R198): source 0 BIN, 1 SITES, 2 FRAME, 3 POINTS, 4 EPOCH, 5 PERIOD. -/
structure TrigDesc where
  source : Nat
  param  : Nat
  count  : Nat
deriving DecidableEq, Repr

/-- A consumer of an output binding (R193, section BIND). -/
inductive Consumer where
  | grid (source : Fin 16)
  | trk
  | stream
deriving DecidableEq, Repr

/-- An output binding: the buffer it names and its consumer. -/
structure BindDesc where
  addr : Nat
  consumer : Consumer
deriving DecidableEq, Repr

/-- A buffer of the buffer table, or a pinned weight block (its `mask` names the engines). -/
structure SpanDesc where
  base : Nat
  size : Nat
  mask : Nat
deriving DecidableEq, Repr

/-- A model image as the checks of R195 meet it: the header's fields, the directory as sections with their offset and length, and the
sections TRIG, LAYER, BUF, PIN, BIND and SIG. The spec lays out no bytes of these, so they are given as decoded fields; TASK and DEPS are
read from memory (R194). `outs` names the bound buffer that a task's operand descriptor gives. -/
structure ImageView where
  magic    : Nat
  version  : Nat
  taskCount : Nat
  layerCount : Nat
  prio     : Nat
  dirOff   : Nat
  sections : List (Nat × Nat × Nat)
  layers   : List LayerDesc
  outs     : List (Nat × Nat)
  trig     : TrigDesc
  bufs     : List SpanDesc
  pins     : List SpanDesc
  binds    : List BindDesc
  sig      : Option (List Byte)
  length   : Nat
  digest   : List Byte
deriving DecidableEq, Repr

/-- A resident model: its image with the tasks that were read. -/
structure ModelImage extends ImageView where
  tasks    : List TaskDesc
deriving DecidableEq, Repr

/-- The operands a tile reads from the engine store, as its operand descriptor names them: weight rows, the stored checksum column of each
row, the activation rows of a dense tile, and the layer's output channel that its first column computes (R167 to R169). Floating-point
operands are given as their codes. -/
structure TileOperands where
  weights : List (List Int)
  wchk    : List Int
  acts    : List (List Int)
  chan    : Nat
deriving DecidableEq, Repr

/-- A site of a list that an earlier layer wrote, with the codes of its feature row (R170). -/
structure SiteRow where
  cx   : Nat
  cy   : Nat
  row  : List Int
deriving DecidableEq, Repr

/-- The site lists of a sparse tile's layer that no rule lays out: the input sites of an earlier layer's list, and the output sites. -/
structure SiteLists where
  ins  : List SiteRow
  outs : List (Nat × Nat)
deriving DecidableEq, Repr

/-- What a fault in the array or its output stage changes in a tile: accumulators (row, column, difference), the
results of the output compare and of the gather signature, an uncorrectable error of the engine store, and the near-misses that the
timing canaries count (R187). -/
structure TileFault where
  acc       : List (Nat × Nat × Int)
  outCmp    : Bool
  gatherSig : Bool
  ecc       : Bool
  nearMiss  : Nat
deriving DecidableEq, Repr

/-- A Sync with its Follow_Up, as the port hands it to TIME (R310, R312). -/
structure SyncMsg where
  domain     : Nat
  originNs   : Nat
  correction : Int
  logInterval : Int
deriving DecidableEq, Repr

/-- An Announce (R310, R315): the grandmaster's priority1, class, accuracy, variance and priority2, in that order, its identity, the steps
removed, the sender's port identity, and logMessageInterval. -/
structure AnnMsg where
  rank   : List Nat
  gm     : DWord
  steps  : Nat
  source : Nat
  logInterval : Int
deriving DecidableEq, Repr

/-- What moves the peer-delay mechanism (R310): the base initiates an exchange; the peer's answer arrives, with its receive and send times
t2 and t3 and the answer's receive stamp t4, in ns; a request of the peer arrives, with its sequence number and port identity. -/
inductive PdelayMsg where
  | initiate
  | answer (t2 t3 t4 : Nat)
  | request (seq peer : Nat)
deriving DecidableEq, Repr

/-- One access of a master to the Commons in one NOC cycle (R342 to R344): a line address and, for a write, the bytes
enabled. -/
structure CommonsReq where
  master : Fin 16
  line   : Nat
  write  : Option (List (Nat × Byte))
  upset  : Upset
deriving DecidableEq, Repr

/-- How a block's answer to a Roll Call round fails (R392): nothing else is a failure. -/
inductive RcFail where
  | noAnswer | signature | status
deriving DecidableEq, Repr

/-- The block of fuse values that CMD_PROVISION takes (R443). -/
structure ProvBlock where
  fKeys : List (List Byte)
  mKeys : List (List Byte)
  debugKey : List Byte
  mlDsa65 : Bool
deriving DecidableEq, Repr

/-- The requests that reach the SPDM responder (R441). -/
inductive SpdmReq where
  | getVersion | getCapabilities | negotiateAlgorithms | getDigests | getCertificate
  | challenge | getMeasurements | other
deriving DecidableEq, Repr

/-- The strap values at the rise of PORST_N (R488). -/
structure Straps where
  hostRole : BitVec 2
  bootSrc  : BitVec 1
  quayAddr : BitVec 3
deriving DecidableEq, Repr

/-- Why the commit of a Stop entry fails (R409), or that it is acknowledged. -/
inductive CommitResult where
  | acknowledged | recordFailed | noSelfRefresh
deriving DecidableEq, Repr

/-- The tamper detectors (R445). -/
inductive Detector where
  | voltage | clock | temperature
deriving DecidableEq, Repr

/-- The commands. `h` is the host port that makes an access: 0 PCIA, 1 PCIB. -/
inductive Instr where
  | csiPacket (p : Fin 16) (pkt : CsiPacket)
  | csiDecodePacket (p : Fin 16)
  | frameStart (p : Fin 16)
  | frameLine (p : Fin 16)
  | frameEnd (p : Fin 16)
  | csiTmapCommit (h : Fin 2) (p : Fin 16) (v : Word)
  | ethFrameRx (p : Fin 8) (frame : List Byte) (fcsOk : Bool)
  | pointBatch (p : Fin 8)
  | ethTmapCommit (h : Fin 2) (p : Fin 8) (v : Word)
  | drdyEdge (s : Fin 8) (rising : Bool)
  | spiTransfer (s : Fin 8) (miso : List Byte)
  | spiTransferDone (s : Fin 8)
  | silent (s : Fin 8)
  | wheelEdge (w : Fin 8) (rising : Bool)
  | wheelSample (w : Fin 8)
  | canFrameRx (c : Fin 4) (f : CanFrame)
  | canSlotSample (k : Fin 8)
  | canFrameTx (c : Fin 4)
  | busOff (c : Fin 4)
  | busOffRecovery (c : Fin 4)
  | cmdSend (h : Fin 2) (c : Fin 4) (f : CanFrame)
  | cmdRecover (h : Fin 2) (c : Fin 4)
  | fendEvent (p : Fin 16)
  | fendOutStall (hub : Fin 2) (cycles : Nat)
  | clearing (k : Fin 16)
  | sweep (hub : Fin 2)
  | surfWarm (k : Fin 16)
  | fendStepOpen (hub : Fin 2)
  | loopValueWrite (t : LoopTarget)
  | loopStale (t : LoopTarget)
  | windowClose
  | edgeRecord (hub : Fin 2)
  | edgeInject (e : Fin 64)
  | stepOpen
  | routerCopy (r : Fin 1024) (turned : BitVec 72)
  | corePacket (c : Fin 1024) (u : Upset)
  | coreGate (c : Fin 1024)
  | reductionRound
  | coreStepClose (c : Fin 1024) (residueBad : Bool)
  | bellAccounting
  | countMismatch
  | tickRecord
  | fabStopping
  | binRecord (hub : Fin 2)
  | binClose (k : Fin 16)
  | gatherBuild (e : Fin 6) (lists : SiteLists)
  | tileStart (e : Fin 6) (ops : TileOperands)
  | tileComplete (e : Fin 6) (f : TileFault)
  | cmdMarginEnter (h : Fin 2)
  | cmdMarginExit (h : Fin 2)
  | railSettled
  | engStatsModel (h : Fin 2) (e : Fin 6) (v : Word)
  | cmdLoad (h : Fin 2)
  | loadDone (img : ImageView)
  | cmdUnload (h : Fin 2)
  | cmdActivate (h : Fin 2)
  | cmdDeactivate (h : Fin 2)
  | cmdSwap (h : Fin 2)
  | cmdUnfence (h : Fin 2)
  | triggerFire (m : Fin 8) (buf : Nat)
  | inputRewrite (m : Fin 8)
  | taskIssue
  | taskCompletion
  | tileTimeout (e : Fin 6)
  | gridListDeliver
  | gridListPlace
  | epochBoundary
  | epochPublish
  | cmdCalCommit (h : Fin 2)
  | cmdRelock (h : Fin 2)
  | cmdEvidClear (h : Fin 2)
  | gridConflictClr (h : Fin 2) (v : Word)
  | alignPair (src : Fin 16)
  | alignTimeout (src : Fin 16)
  | trkListDeliver
  | trackerCycle (badPairs : List (Fin 64))
  | cmdDelete (h : Fin 2)
  | cmdSetClass (h : Fin 2)
  | cmdEnrol (h : Fin 2)
  | cmdClear (h : Fin 2)
  | chainSample
  | chainStale (c : Fin 64)
  | firRound
  | cmdCoefLoad (h : Fin 2)
  | egoUpdate
  | egoGap
  | cmdRestart (h : Fin 2)
  | stepPose
  | sync (b : Fin 2) (m : SyncMsg)
  | announce (b : Fin 2) (domain : Nat) (m : AnnMsg)
  | pdelay (b : Fin 2) (domain : Nat) (m : PdelayMsg)
  | holdover (b : Fin 2)
  | timeAcceptJump (h : Fin 2)
  | timeFusSource (h : Fin 2)
  | timeFusStep (h : Fin 2)
  | timeFusReanchor (h : Fin 2)
  | fusStepped
  | ethCmdSend (h : Fin 2) (p : Fin 8)
  | launch (p : Fin 8)
  | trigFire (t : Fin 16)
  | memRead (m : Fin 16) (addr len : Nat) (u : Upset)
  | memWrite (m : Fin 16) (addr : Nat) (data : List Byte) (u : Upset)
  | patrolScrub (u : Upset)
  | memInject (h : Fin 2) (v : Word)
  | commonsAccess (reqs : List CommonsReq)
  | commonsConflictClr (h : Fin 2) (v : Word)
  | wipe (cause : BitVec 4)
  | wiped
  | commonsInit
  | cmdUnknown (h : Fin 2) (page : Fin 64) (code : Byte)
  | blkDismiss (h : Fin 2) (page : Fin 64) (v : Word)
  | sysDismiss (h : Fin 2) (v : Word)
  | dismissDone (page : Fin 64)
  | blkEnable (h : Fin 2) (page : Fin 64)
  | blkDisable (h : Fin 2) (page : Fin 64)
  | blkHalt (h : Fin 2) (page : Fin 64) (on : Bool)
  | blkTest (h : Fin 2) (page : Fin 64)
  | testEnd (page : Fin 64) (passed : Bool)
  | blkEventsClear (h : Fin 2) (page : Fin 64) (faults : Bool) (v : Word)
  | registerWrite (h : Fin 2) (off : Nat) (data : List Byte)
  | latchingRead (h : Fin 2) (off len : Nat)
  | bar2Access (h : Fin 2) (off len : Nat) (wr : Option (List Byte)) (u : Upset)
  | ringEnable (h : Fin 2) (ring : Fin 5) (v : Word)
  | streamRecord
  | ringWrite (h : Fin 2)
  | tapBlockClose
  | resultWindow (w : Fin 8)
  | linkDown (h : Fin 2)
  | linkUp (h : Fin 2) (width rate : BitVec 4)
  | perstN (h : Fin 2) (high : Bool)
  | functionLevelReset (h : Fin 2)
  | rollCall
  | rollCallDeadline (fails : List (Fin 64 × RcFail × Nat))
  | watchdog (page : Fin 64) (unit : Nat) (router : Bool)
  | faultClassify (found : Option HwFault := none)
  | clockMonitor (khz : List (Option Nat))
  | railTrip (n : Fin 14) (above : Bool)
  | tempSample (pairs : List (Int × Int))
  | healthyRefreshLost (h : Fin 2)
  | cmdClearFirst (h : Fin 2)
  | cmdInject (h : Fin 2)
  | cmdUnfenceFab (h : Fin 2)
  | cmdStop (h : Fin 2)
  | cmdCancel (h : Fin 2)
  | stopEntry
  | quiesceReady
  | quiesceTimeout (page : Fin 64)
  | stopRefused
  | drainEnd
  | stopCommit (r : CommitResult)
  | quayMatch
  | qcmd (v : Byte)
  | wakePhaseDone
  | wakeDone
  | wakeFail (cause : Byte)
  | padRelease (h : Fin 2) (v : Word)
  | coolantLost
  | coolantTimeout
  | throttleEval
  | railPg (n : Fin 14)
  | porstN (straps : Straps)
  | linkRetrain (hub : Fin 2) (ok : Bool)
  | flitReplay (hub : Fin 2)
  | boot (image : List Byte)
  | cmdBoot (h : Fin 2)
  | cmdProvision (h : Fin 2) (blk : ProvBlock)
  | cmdLifecycle (h : Fin 2)
  | fuseProgrammed
  | cmdRevoke (h : Fin 2)
  | cmdSvnCommit (h : Fin 2)
  | cmdExtend (h : Fin 2)
  | spdmRequest (h : Fin 2) (r : SpdmReq)
  | tamper (d : Detector)
  | cmdUnlock (h : Fin 2)
  | cmdNonce (h : Fin 2)
  | unlockExpiry
  | dbgToken (token : Option (List Byte))
  | dbgAccess (off : Nat) (wr : Option Word)
  | extest (drive : Option DWord)
  | samplePreload (v : DWord)
  | idcode
  | bypass
  | dbgHaltThimum (h : Fin 2) (on : Bool)
  | dbgHaltAll (h : Fin 2) (on : Bool)
  | dbgCmdRelock (h : Fin 2)
  | coolantOk
  | lockLoss (d : Fin 22)
  | linkFatal (h : Fin 2)
  | clearDone (k : Fin 16)
  | fusionSlewEnd
deriving DecidableEq, Repr

end Sys2Proof
end

