-- ==== Sys2Proof/Decode.lean ====
section
/-! DEFINITION. The command that a word of the table spells. The table gives no row any bits, because the spec encodes no
command as a word, so no word spells one. -/

namespace Sys2Proof

/-- The command that `w` spells in `nbits` bits. -/
def decodeTableWord (nbits w : Nat) : Option Instr :=
  match nbits, w with
  | _, _ => none

end Sys2Proof
end

