-- ==== Sys2Proof/Config.lean ====
section
/-! DEFINITION. What an implementation fixes, and the free values: opaque constants with no body, so that nothing can
be proved of the value they have. -/

namespace Sys2Proof.Config

/-- A fresh unstated 32-bit value; the state's `freeCtr` counts the draws (log 3). -/
opaque freeWord : Nat → BitVec 32

/-- sin, cos, atan2 and exp in FP32: the spec uses the functions and states no rounding for them (log 4). -/
opaque sinFp32 : BitVec 32 → BitVec 32
opaque cosFp32 : BitVec 32 → BitVec 32
opaque atan2Fp32 : BitVec 32 → BitVec 32 → BitVec 32
opaque expFp32 : BitVec 32 → BitVec 32

/-- Coefficient h[i] of the built-in preset `set` (0 to 3), for i before its centre: the spec gives the length, the symmetry and the DC gain
(R286) and no value (log 5). -/
opaque presetCoef : Nat → Nat → BitVec 32

/-- What R293 leaves open in EGO's propagation (log 6). The angular acceleration at the IMU, which no input measures: from the estimate's
words and the inertial inputs. -/
opaque egoAngAcc : List (BitVec 32) → List (BitVec 32) → List (BitVec 32)
/-- The share of an update's change of velocity that counts in its change of position (R293; log 6). -/
opaque egoWeight : BitVec 32
/-- Entry (i, j) of the error transition beyond its first order in the time step: the estimate's words, the inputs, the step (R293; log 6). -/
opaque egoHigher : List (BitVec 32) → List (BitVec 32) → BitVec 32 → Nat → Nat → BitVec 32
/-- Process noise of error state i over a time step, for the states whose noise no register sets: position and the biases (R293; log 6). -/
opaque egoDrift : Nat → BitVec 32 → BitVec 32
/-- The variance with which error state i starts, for position, velocity and attitude (R296; log 6). -/
opaque egoStart : Nat → BitVec 32

/-- Whether an ML-DSA signature verifies (R432): parameter set, public key, context string, message, signature (log 8). -/
opaque mlDsaVerify : Bool → List (BitVec 8) → List (BitVec 8) → List (BitVec 8) → List (BitVec 8) → Bool

/-- The ECDSA P-384 signature and certificate bytes of an SPDM response (R441; log 8). -/
opaque spdmBody : Nat → List (BitVec 8) → List (BitVec 8)

/-- The device secret that SEC derives from the fuses and the lifecycle state (R442; log 8). -/
opaque deviceKey : Nat → List (BitVec 8)

/-- A fresh 32-byte nonce, by draw (R447; log 3). -/
opaque nonce : Nat → List (BitVec 8)

/-- The 64-bit signature over an output row of a tile (R179): the spec gives the width and no function (log 9). -/
opaque rowHash : BitVec 64 → List Int → BitVec 64

/-- The low ten check bits of the SECDED code of a granule (R336): the spec gives the width and no matrix (log 10). -/
opaque secded : List (BitVec 8) → Nat → BitVec 10

/-- The fields of a model image's 64-byte signed header (R438): magic, algorithm, key slot, image length, digest. The spec lists
the fields and lays out no bytes (log 8). -/
opaque modelHeader : List (BitVec 8) → Nat × Nat × Nat × Nat × List (BitVec 8)

/-- The fields of a token's 128-byte body (R447): magic, device identifier, nonce, scope, validity. The spec lays out no bytes
(log 8). -/
opaque tokenBody : List (BitVec 8) → Nat × List (BitVec 8) × List (BitVec 8) × Nat × Nat

/-- The frame at the address that CMD_SEND names (R77): identifier, extended, remote, FD, data. The spec lays out no bytes (log 8). -/
opaque canFrame : List (BitVec 8) → BitVec 29 × Bool × Bool × Bool × List (BitVec 8)

/-- The block that CMD_PROVISION reads (R443): firmware key hashes, model key hashes, debug key hash, ML-DSA-65 chosen (log 8). -/
opaque provBlock : List (BitVec 8) → List (List (BitVec 8)) × List (List (BitVec 8)) × List (BitVec 8) × Bool

/-- The format versions of a model image that TT knows, and the sections that it requires: the spec states neither (log 32). -/
opaque modelVersion : Nat
opaque sectionRequired : Nat → Bool

end Sys2Proof.Config
end

