-- ==== Sys2Proof/Machine/Fp.lean ====
section
/-! DEFINITION. Binary floating point: FP32, FP64, FP16, BF16 and the two FP8 formats. Every operation computes its exact result on
integers and rounds once, to nearest with ties to even; the spec names the formats and states no rounding for its FP32
arithmetic (log 11: PRESUMED, IEEE 754). A NaN result is the quiet NaN. -/

namespace Sys2Proof.Machine

/-- A format: exponent bits, fraction bits, and whether the top exponent holds infinities. -/
structure FpFmt where
  ebits : Nat
  mbits : Nat
  ieee  : Bool := true
deriving DecidableEq, Repr

def fmt32 : FpFmt := { ebits := 8, mbits := 23 }
def fmt64 : FpFmt := { ebits := 11, mbits := 52 }
def fmt16 : FpFmt := { ebits := 5, mbits := 10 }
def fmtBf16 : FpFmt := { ebits := 8, mbits := 7 }
def fmtE5m2 : FpFmt := { ebits := 5, mbits := 2 }
/-- E4M3 has no infinities; its only NaN is the all-ones code. -/
def fmtE4m3 : FpFmt := { ebits := 4, mbits := 3, ieee := false }

/-- A value: a finite one is `(-1)^neg · m · 2^e`. -/
inductive FpVal where
  | nan
  | inf (neg : Bool)
  | fin (neg : Bool) (m : Nat) (e : Int)
deriving DecidableEq, Repr

def FpFmt.bias (f : FpFmt) : Nat := 2 ^ (f.ebits - 1) - 1
/-- The exponent of the last place of a subnormal. -/
def FpFmt.emin (f : FpFmt) : Int := 1 - (f.bias : Int) - f.mbits

/-- The value of a code. -/
def FpFmt.decode (f : FpFmt) (c : Nat) : FpVal :=
  let m := c % 2 ^ f.mbits
  let x := c / 2 ^ f.mbits % 2 ^ f.ebits
  let neg := decide (c / 2 ^ (f.mbits + f.ebits) % 2 = 1)
  let top := 2 ^ f.ebits - 1
  if x = top && f.ieee then (if m = 0 then .inf neg else .nan)
  else if x = top && m = 2 ^ f.mbits - 1 then .nan
  else if x = 0 then .fin neg m f.emin
  else .fin neg (m + 2 ^ f.mbits) (f.emin + (x - 1 : Nat))

/-- The quiet NaN of a format. -/
def FpFmt.qnan (f : FpFmt) : Nat :=
  if f.ieee then (2 ^ f.ebits - 1) * 2 ^ f.mbits + 2 ^ (f.mbits - 1) else 2 ^ (f.ebits + f.mbits) - 1

def FpFmt.signBit (f : FpFmt) (neg : Bool) : Nat := if neg then 2 ^ (f.ebits + f.mbits) else 0

/-- The largest finite code without its sign. -/
def FpFmt.maxCode (f : FpFmt) : Nat :=
  if f.ieee then (2 ^ f.ebits - 1) * 2 ^ f.mbits - 1 else 2 ^ (f.ebits + f.mbits) - 2

/-- What stands for an overflow or an infinity: the largest finite value where `sat`; else infinity, or NaN in a format that has none, as the
non-saturating conversion of OCP gives it (R165; log 11). -/
def FpFmt.over (f : FpFmt) (sat : Bool) : Nat :=
  if sat then f.maxCode else if f.ieee then (2 ^ f.ebits - 1) * 2 ^ f.mbits else f.qnan

/-- `m · 2^e`, plus a remainder below one unit of `m` where `sticky`, rounded to nearest even. -/
def FpFmt.round (f : FpFmt) (sat : Bool) (neg : Bool) (m : Nat) (e : Int) (sticky : Bool) : Nat :=
  if m = 0 then f.signBit neg
  else
    let len : Int := (Nat.log2 m + 1 : Nat)
    let el := max f.emin (e + len - (f.mbits + 1))
    let sh := el - e
    let q :=
      if sh ≤ 0 then m <<< (-sh).toNat
      else
        let k := sh.toNat
        let q0 := m >>> k
        let rem := m % 2 ^ k
        let half := 2 ^ (k - 1)
        if rem > half || (rem = half && (sticky || q0 % 2 = 1)) then q0 + 1 else q0
    let code := if q < 2 ^ f.mbits then (q : Int) else (el - f.emin + 1) * (2 ^ f.mbits : Nat) + ((q : Int) - (2 ^ f.mbits : Nat))
    f.signBit neg + (if code > f.maxCode then f.over sat else code.toNat)

/-- The code of a value. -/
def FpFmt.encode (f : FpFmt) (sat : Bool) : FpVal → Nat
  | .nan => f.qnan
  | .inf neg => f.signBit neg + f.over sat
  | .fin neg m e => f.round sat neg m e false

/-- A finite value as a signed mantissa at exponent `e0`, which is no larger than its own. -/
def fpAlign (neg : Bool) (m : Nat) (e e0 : Int) : Int :=
  let x : Int := (m <<< (e - e0).toNat : Nat)
  if neg then -x else x

def FpVal.neg : FpVal → FpVal
  | .nan => .nan
  | .inf n => .inf (!n)
  | .fin n m e => .fin (!n) m e

/-- The exact sum; an exact zero is +0 unless both terms are negative zeros. -/
def FpVal.add : FpVal → FpVal → FpVal
  | .nan, _ => .nan
  | _, .nan => .nan
  | .inf a, .inf b => if a = b then .inf a else .nan
  | .inf a, _ => .inf a
  | _, .inf b => .inf b
  | .fin a m e, .fin b n g =>
    let e0 := min e g
    let x := fpAlign a m e e0 + fpAlign b n g e0
    if x = 0 then .fin (a && b && m = 0 && n = 0) 0 e0 else .fin (decide (x < 0)) x.natAbs e0

/-- The exact product. -/
def FpVal.mul : FpVal → FpVal → FpVal
  | .nan, _ => .nan
  | _, .nan => .nan
  | .inf a, .inf b => .inf (a != b)
  | .inf a, .fin b n _ => if n = 0 then .nan else .inf (a != b)
  | .fin a m _, .inf b => if m = 0 then .nan else .inf (a != b)
  | .fin a m e, .fin b n g => .fin (a != b) (m * n) (e + g)

/-- A quotient rounded into a format. -/
def FpFmt.div (f : FpFmt) : FpVal → FpVal → Nat
  | .nan, _ => f.qnan
  | _, .nan => f.qnan
  | .inf _, .inf _ => f.qnan
  | .inf a, .fin b _ _ => f.encode false (.inf (a != b))
  | .fin a _ _, .inf b => f.signBit (a != b)
  | .fin a m e, .fin b n g =>
    if n = 0 then (if m = 0 then f.qnan else f.encode false (.inf (a != b)))
    else
      let k := f.mbits + 3 + Nat.log2 n
      let x := m <<< k
      f.round false (a != b) (x / n) (e - g - k) (decide (x % n ≠ 0))

/-- The integer square root, by bits from `k` downwards. -/
def isqrtFrom : Nat → Nat → Nat → Nat
  | 0, _, r => r
  | k + 1, x, r => let c := r + 2 ^ k
    if c * c ≤ x then isqrtFrom k x c else isqrtFrom k x r

/-- The integer square root. -/
def isqrt (x : Nat) : Nat := isqrtFrom (Nat.log2 x / 2 + 1) x 0

/-- A square root rounded into a format. -/
def FpFmt.sqrt (f : FpFmt) : FpVal → Nat
  | .nan => f.qnan
  | .inf neg => if neg then f.qnan else f.encode false (.inf false)
  | .fin neg m e =>
    if m = 0 then f.signBit neg
    else if neg then f.qnan
    else
      let k := 2 * f.mbits + 6 + (if e % 2 = 0 then 0 else 1)
      let x := m <<< k
      let r := isqrt x
      f.round false false r ((e - k) / 2) (decide (r * r ≠ x))

/-- Comparison of two values; none where either is a NaN. -/
def FpVal.cmp (a b : FpVal) : Option Ordering :=
  match a.add b.neg with
  | .nan => match a, b with
    | .inf x, .inf y => if x = y then some .eq else none
    | _, _ => none
  | .inf neg => some (if neg then .lt else .gt)
  | .fin neg m _ => some (if m = 0 then .eq else if neg then .lt else .gt)

def fval (a : Word) : FpVal := fmt32.decode a.toNat
def fcode (n : Nat) : Word := BitVec.ofNat 32 n
def fof (v : FpVal) : Word := fcode (fmt32.encode false v)

/-! FP32 arithmetic. -/
def fadd (a b : Word) : Word := fof ((fval a).add (fval b))
def fsub (a b : Word) : Word := fof ((fval a).add (fval b).neg)
def fmul (a b : Word) : Word := fof ((fval a).mul (fval b))
def fdiv (a b : Word) : Word := fcode (fmt32.div (fval a) (fval b))
def fsqrt (a : Word) : Word := fcode (fmt32.sqrt (fval a))
def fneg (a : Word) : Word := fof (fval a).neg
def flt (a b : Word) : Bool := (fval a).cmp (fval b) == some .lt
def fle (a b : Word) : Bool := (fval a).cmp (fval b) == some .lt || (fval a).cmp (fval b) == some .eq
def fisNan (a : Word) : Bool := fval a == .nan
/-- Finite: neither an infinity nor a NaN. -/
def ffinite (a : Word) : Bool := bits a.toNat 30 23 != 255
def fabs (a : Word) : Word := a &&& 0x7FFFFFFF

/-- An integer times a power of two, as FP32. -/
def fofInt (i : Int) (e : Int := 0) : Word := fcode (fmt32.round false (decide (i < 0)) i.natAbs e false)

/-- The quotient of two integers, as FP32. -/
def fofRat (a b : Int) : Word :=
  fcode (fmt32.div (.fin (decide (a < 0)) a.natAbs 0) (.fin (decide (b < 0)) b.natAbs 0))

/-- The greatest integer not above the value times `2^k`; none for a NaN or an infinity. -/
def ffloor (a : Word) (k : Int := 0) : Option Int :=
  match fval a with
  | .fin neg m e =>
    let x := e + k
    let i : Int := if neg then -(m : Int) else m
    some (if 0 ≤ x then i * (2 ^ x.toNat : Nat) else Int.fdiv i (2 ^ (-x).toNat : Nat))
  | _ => none

/-- The nearest integer to the value times `2^k`, ties away from zero; none for a NaN or an infinity. -/
def fround (a : Word) (k : Int := 0) : Option Int :=
  match fval a with
  | .fin neg m e =>
    let x := e + k
    let i : Nat := if 0 ≤ x then m * 2 ^ x.toNat else (m * 2 + 2 ^ (-x).toNat) / (2 * 2 ^ (-x).toNat)
    some (if neg then -(i : Int) else i)
  | _ => none

/-- 1.0 and the quiet NaN. -/
def fone : Word := 0x3F800000
def fnan : Word := 0x7FC00000

def fmaxW (a b : Word) : Word := if flt a b then b else a
def fminW (a b : Word) : Word := if flt b a then b else a

/-- A half-precision code as FP32, and the reverse. -/
def f16to32 (c : Nat) : Word := fof (fmt16.decode c)
def f32to16 (a : Word) : Nat := fmt16.encode false (fval a)
/-- FP64 and FP32. -/
def f64to32 (d : DWord) : Word := fof (fmt64.decode d.toNat)
def f32to64 (a : Word) : DWord := BitVec.ofNat 64 (fmt64.encode false (fval a))
def dval (a : DWord) : FpVal := fmt64.decode a.toNat
def dof (v : FpVal) : DWord := BitVec.ofNat 64 (fmt64.encode false v)
def dadd (a b : DWord) : DWord := dof ((dval a).add (dval b))
def dsub (a b : DWord) : DWord := dof ((dval a).add (dval b).neg)
def dmul (a b : DWord) : DWord := dof ((dval a).mul (dval b))
def ddiv (a b : DWord) : DWord := BitVec.ofNat 64 (fmt64.div (dval a) (dval b))

/-- The greatest integer not above an FP64 value. -/
def dfloor (a : DWord) : Option Int :=
  match dval a with
  | .fin neg m e =>
    let i : Int := if neg then -(m : Int) else m
    some (if 0 ≤ e then i * (2 ^ e.toNat : Nat) else Int.fdiv i (2 ^ (-e).toNat : Nat))
  | _ => none

/-- Sums and products of lists, in list order from zero. -/
def fsum (l : List Word) : Word := l.foldl fadd 0
def fdot (a b : List Word) : Word := fsum (List.zipWith fmul a b)

/-- A matrix of FP32 values by rows. -/
abbrev FMat := List (List Word)
def fmatVec (a : FMat) (x : List Word) : List Word := a.map (fun r => fdot r x)
def ftranspose (a : FMat) : FMat := (List.range ((a.head?.getD []).length)).map (fun j => a.map (fun r => r.getD j 0))
def fmatMul (a b : FMat) : FMat := a.map (fun r => (ftranspose b).map (fdot r))
def fmatAdd (a b : FMat) : FMat := List.zipWith (List.zipWith fadd) a b
def fmatSub (a b : FMat) : FMat := List.zipWith (List.zipWith fsub) a b
def fident (n : Nat) : FMat := (List.range n).map (fun i => (List.range n).map (fun j => if i = j then fone else 0))

/-- One elimination step of Gauss and Jordan on column `c`, with no exchange of rows. -/
def fpivot (n c : Nat) (a : FMat) : FMat :=
  let p := a.getD c []
  let d := p.getD c 0
  let p' := p.map (fun x => fdiv x d)
  (List.range n).map (fun i =>
    let r := a.getD i []
    if i = c then p' else
      let k := r.getD c 0
      List.zipWith (fun x y => fsub x (fmul k y)) r p')

/-- The inverse of an `n` by `n` matrix. -/
def finverse (n : Nat) (a : FMat) : FMat :=
  let aug := List.zipWith (· ++ ·) a (fident n)
  ((List.range n).foldl (fun m c => fpivot n c m) aug).map (fun r => r.drop n)

end Sys2Proof.Machine
end

