-- ==== Sys2Proof/Machine/Sparse.lean ====
section
/-! DEFINITION. Sparse maps by number, in one canonical form: keys strictly rising, no entry equal to what an unlisted key
reads as. The device memory, the register file and every numbered array of the state are held in this form. -/

namespace Sys2Proof.Machine

/-- Entries by key. -/
abbrev SMap (α : Type) := List (Nat × α)

/-- The value at a key: that of its first entry; `d` gives what an unlisted key reads as. -/
def SMap.get {α : Type} (d : Nat → α) : SMap α → Nat → α
  | [], k => d k
  | (j, v) :: m, k => if j = k then v else SMap.get d m k

/-- Removes every entry of a key. -/
def SMap.erase {α : Type} : SMap α → Nat → SMap α
  | [], _ => []
  | (j, w) :: m, k => if j = k then SMap.erase m k else (j, w) :: SMap.erase m k

/-- Puts an entry before the first one with a greater key. -/
def SMap.insert {α : Type} : SMap α → Nat → α → SMap α
  | [], k, v => [(k, v)]
  | (j, w) :: m, k, v => if k < j then (k, v) :: (j, w) :: m else (j, w) :: SMap.insert m k v

/-- Writes a value at a key; a value that an unlisted key reads as is not listed. -/
def SMap.set {α : Type} [DecidableEq α] (d : Nat → α) (m : SMap α) (k : Nat) (v : α) : SMap α :=
  if v = d k then SMap.erase m k else SMap.insert (SMap.erase m k) k v

/-- Returns every key of `[lo, hi)` to what an unlisted key reads as. -/
def SMap.clear {α : Type} (m : SMap α) (lo hi : Nat) : SMap α :=
  m.filter (fun e => !(lo ≤ e.1 && e.1 < hi))

/-- Writes a list of values at consecutive keys. -/
def SMap.setMany {α : Type} [DecidableEq α] (d : Nat → α) : SMap α → Nat → List α → SMap α
  | m, _, [] => m
  | m, k, v :: vs => SMap.setMany d (SMap.set d m k v) (k + 1) vs

/-- Every key of a map lies above a bound, keys rise, and no entry equals the unlisted value. -/
def SMap.okFrom {α : Type} [DecidableEq α] (d : Nat → α) : Nat → SMap α → Bool
  | _, [] => true
  | lo, (j, v) :: m => decide (lo ≤ j) && decide (v ≠ d j) && SMap.okFrom d (j + 1) m

/-- The canonical form. -/
def SMap.wf {α : Type} [DecidableEq α] (d : Nat → α) (m : SMap α) : Bool := SMap.okFrom d 0 m

end Sys2Proof.Machine
end

