-- ==== Sys2Proof/Machine/RegTable.lean ====
section
/-! DEFINITION. The register pages (R470 to R482): where each register lies, which bits a host can store, what it holds at
reset and when it takes a write. A register that no host can write and that resets to 0 needs no row. -/

namespace Sys2Proof.Machine

/-- The blocks that have a page (R482). -/
inductive PageKind where
  | sys | clk | pwr | safe | sec | time | quay | dbg | pci | mem | commons | tt | grid | trk | chain | ego | fab
  | eng0 | eng | eng4 | hub | fend | csi | eth | imu | wheel | can | trig | stream
deriving DecidableEq, Repr

/-- The block of a page; pages 0x1C to 0x1F and those from 0x40 are reserved (R482). -/
def pageKind (p : Nat) : Option PageKind :=
  if p < 0x10 then
    [some .sys, some .clk, some .pwr, some .safe, some .sec, some .time, some .quay, some .dbg, some .pci, some .pci,
     some .mem, some .commons, some .tt, some .grid, some .trk, some .chain].getD p none
  else if p = 0x10 then some .ego
  else if p = 0x11 then some .fab
  else if p = 0x12 then some .eng0
  else if p = 0x16 then some .eng4
  else if p < 0x18 then some .eng
  else if p < 0x1A then some .hub
  else if p < 0x1C then some .fend
  else if p < 0x20 then none
  else if p < 0x30 then some .csi
  else if p < 0x38 then some .eth
  else if p = 0x38 then some .imu
  else if p = 0x39 then some .wheel
  else if p < 0x3E then some .can
  else if p = 0x3E then some .trig
  else if p = 0x3F then some .stream
  else none

/-- When a register takes a write. -/
inductive WriteCond where
  | always
  | idleOnly
  | idle
  | disabled (enOff : Nat)
deriving DecidableEq, Repr

/-- A register, or `n` registers `st` apart, each of `n2` registers `st2` apart: offset, the bits a host can store, the
reset value, and when it takes a write. -/
structure RegRow where
  off   : Nat
  mask  : Nat
  reset : Nat := 0
  cond  : WriteCond := .always
  n     : Nat := 1
  st    : Nat := 4
  n2    : Nat := 1
  st2   : Nat := 4
deriving DecidableEq, Repr

/-- The index of the block an offset falls in, where a row covers it. -/
def RegRow.index (r : RegRow) (o : Nat) : Option Nat :=
  if o < r.off then none
  else
    let d := o - r.off
    let i := d / r.st
    let e := d % r.st
    if i < r.n && e % r.st2 = 0 && e / r.st2 < r.n2 then some i else none

/-- The first row that covers an offset, with its block index. -/
def findRow : List RegRow → Nat → Option (RegRow × Nat)
  | [], _ => none
  | r :: rs, o => match r.index o with
    | some i => some (r, i)
    | none => findRow rs o

/-- All 32 bits. -/
def m32 : Nat := 0xFFFFFFFF

/-- CLK (R430), PWR (R427), SAFE (R400), SEC (R449), TIME (R329, R330), QUAY (R431) and DBG (R451). -/
def rowsCore : PageKind → List RegRow
  | .clk => [{ off := 0x108, mask := 0, reset := 0x10 }]
  | .pwr => [{ off := 0x100, mask := 0xD, reset := 0x8 }, { off := 0x110, mask := 0x3FF, reset := 0x32 },
      { off := 0x114, mask := 0x3FFF, reset := 0xC8 }]
  | .safe => [{ off := 0x100, mask := 0x7 }, { off := 0x108, mask := 0, reset := 0x24 }]
  | .sec => [{ off := 0x104, mask := 0x1 }, { off := 0x118, mask := m32 }, { off := 0x11C, mask := m32 },
      { off := 0x128, mask := 0x1FF }]
  | .time => [{ off := 0x100, mask := 0xFFFFFF, reset := 0x2710 }, { off := 0x104, mask := 1 },
      { off := 0x108, mask := 0xFFFFFF, reset := 0x2710 },
      { off := 0x200, mask := 0xFFF3F, cond := .idleOnly, n := 2, st := 0x80 },
      { off := 0x204, mask := m32, reset := 0x4CCDB333, n := 2, st := 0x80 },
      { off := 0x208, mask := 0xFFFFFF, reset := 0x000803E8, n := 2, st := 0x80 }]
  | .quay => [{ off := 0x100, mask := 0xF, reset := 0x6 }]
  | .dbg => [{ off := 0x104, mask := 3 }]
  | _ => []

/-- The ports (R380, R381), STREAM (R382), MEM (R350) and COMMONS (R352). -/
def rowsHost : PageKind → List RegRow
  | .pci => [{ off := 0x100, mask := 1 }, { off := 0x108, mask := 0xC0000000 }, { off := 0x10C, mask := 0xFFFF },
      { off := 0x200, mask := 0x3F3F3F3F, n := 16 },
      { off := 0x300, mask := 0xFFFF3F01, n := 5, st := 0x40 },
      { off := 0x304, mask := 0x1F, reset := 0x10, cond := .disabled 0x300, n := 5, st := 0x40 },
      { off := 0x308, mask := m32, cond := .disabled 0x300, n := 5, st := 0x40, n2 := 4 }]
  | .stream => [{ off := 0x100, mask := 0x18 }, { off := 0x104, mask := 0xFFFFFF, reset := 0x00010000 },
      { off := 0x108, mask := 3 }, { off := 0x110, mask := m32, cond := .idleOnly, n := 4 },
      { off := 0x120, mask := 0x3F }]
  | .mem => [{ off := 0x100, mask := 0xFF01, reset := 0x1401 }, { off := 0x104, mask := 0xFF, reset := 0x18 },
      { off := 0x148, mask := 3 }, { off := 0x14C, mask := m32 }, { off := 0x150, mask := 0xFFFF }]
  | .commons => [{ off := 0x104, mask := 0, reset := 0x80008000 }]
  | _ => []

/-- TT (R214, R215), GRID (R247, R248) and TRK (R276, R277). -/
def rowsScene : PageKind → List RegRow
  | .tt => [{ off := 0x100, mask := 1, reset := 1 }, { off := 0x104, mask := 0x7FFFFF, reset := 0x005A03E8, cond := .idleOnly },
      { off := 0x108, mask := 0xFFFF000F, reset := 0x03E80002, cond := .idleOnly },
      { off := 0x10C, mask := 0x7F, reset := 6, cond := .idleOnly },
      { off := 0x120, mask := 0, reset := 0x80008000, n := 6 }, { off := 0x138, mask := 0, reset := 0x8000 },
      { off := 0x204, mask := 7, n := 8, st := 0x40 }]
  | .grid => [{ off := 0x100, mask := 0x13F, reset := 0xA, cond := .idleOnly },
      { off := 0x104, mask := 0x1FFFF, reset := 0x3E8, cond := .idleOnly }, { off := 0x108, mask := m32, reset := 0xC0200200 },
      { off := 0x10C, mask := 0xFFFFFF, reset := 0x00404800 }, { off := 0x110, mask := 0xFF, reset := 0x14 },
      { off := 0x120, mask := m32, cond := .idleOnly, n := 4 },
      { off := 0x130, mask := 0x1FFFFF, reset := 0x00040000, cond := .idleOnly },
      { off := 0x134, mask := 0xFFFF, reset := 0x4E20 }, { off := 0x140, mask := 0xFF0F, reset := 0x100 },
      { off := 0x144, mask := 0x03FF03FF, reset := 0x03FF0000, n := 2 },
      { off := 0x150, mask := 0xFFFF, reset := 0x3E8, cond := .idleOnly },
      { off := 0x200, mask := 0xFF03, cond := .idleOnly, n := 16, st := 0x80 },
      { off := 0x204, mask := 0xFF7, cond := .idleOnly, n := 16, st := 0x80 },
      { off := 0x208, mask := 0xFFFF, reset := 0x1F4, cond := .idleOnly, n := 16, st := 0x80 },
      { off := 0x20C, mask := 0xFFFFF, cond := .idleOnly, n := 16, st := 0x80 },
      { off := 0x220, mask := 0xFFFF, n := 16, st := 0x80 }, { off := 0x228, mask := 0x03FF03FF, n := 16, st := 0x80 },
      { off := 0x230, mask := m32, n := 16, st := 0x80, n2 := 3 }, { off := 0x240, mask := m32, n := 16, st := 0x80, n2 := 16 }]
  | .trk => [{ off := 0x100, mask := 0xF, reset := 0xD }, { off := 0x104, mask := 0x3FFF, reset := 0x64, cond := .idleOnly },
      { off := 0x108, mask := 0xFFFF0FFF, reset := 0x00100840 }, { off := 0x10C, mask := m32, reset := 0x12781044 },
      { off := 0x110, mask := m32, reset := 0x18521675 }, { off := 0x114, mask := m32, reset := 0x0CCDCCCD },
      { off := 0x118, mask := m32, reset := 0xFFBE3333 }, { off := 0x11C, mask := m32, reset := 0x00320A42, cond := .idleOnly },
      { off := 0x120, mask := 0xFF, reset := 0x80 }, { off := 0x124, mask := 0xFFFF, reset := 0x4E20 },
      { off := 0x128, mask := 0xF, reset := 0xF, cond := .idleOnly }, { off := 0x180, mask := 0xF0FFF, reset := 0x00020100 },
      { off := 0x184, mask := m32, cond := .idleOnly, n := 2 }, { off := 0x18C, mask := 0xFFFF, reset := 0x3E8 },
      { off := 0x190, mask := 0xFFFF00FF, reset := 0x00640008 }, { off := 0x1C0, mask := 0xF1, n := 16 },
      { off := 0x200, mask := 0xFFFF000F, reset := 0x999A0008, cond := .idleOnly, n := 16, st := 0x20 },
      { off := 0x204, mask := m32, reset := 0x3D4CCCCD, cond := .idleOnly, n := 16, st := 0x20 },
      { off := 0x208, mask := m32, reset := 0x3F800000, cond := .idleOnly, n := 16, st := 0x20 },
      { off := 0x20C, mask := m32, reset := 0x3DCCCCCD, cond := .idleOnly, n := 16, st := 0x20 },
      { off := 0x210, mask := m32, reset := 0x41C80000, cond := .idleOnly, n := 16, st := 0x20 },
      { off := 0x214, mask := m32, reset := 0x3C003C00, cond := .idleOnly, n := 16, st := 0x20 },
      { off := 0x218, mask := 0xFFFF, reset := 0x00003C00, cond := .idleOnly, n := 16, st := 0x20 }]
  | _ => []

/-- CHAIN (R303, R304) and EGO (R306). -/
def rowsMotion : PageKind → List RegRow
  | .chain => [{ off := 0x100, mask := 0x7F, reset := 8, cond := .idleOnly }, { off := 0x104, mask := 0, reset := 1 },
      { off := 0x108, mask := m32, n := 2 },
      { off := 0x200, mask := 0xF377, reset := 0x8010, cond := .idleOnly, n := 64, st := 0x20 },
      { off := 0x204, mask := m32, reset := 0x3F800000, cond := .idleOnly, n := 64, st := 0x20 },
      { off := 0x208, mask := m32, cond := .idleOnly, n := 64, st := 0x20 },
      { off := 0x20C, mask := m32, n := 64, st := 0x20 }]
  | .ego => [{ off := 0x100, mask := 0x7FF7F, reset := 6, cond := .idleOnly },
      { off := 0x104, mask := 0xFFFFFF, reset := 0x00543210, cond := .idleOnly },
      { off := 0x108, mask := m32, reset := 0x3F800000, cond := .idleOnly, n := 3, st := 0x10 },
      { off := 0x10C, mask := m32, cond := .idleOnly, n := 2, st := 0x10, n2 := 3 },
      { off := 0x12C, mask := m32, cond := .idleOnly, n := 3 },
      { off := 0x138, mask := m32, reset := 0x411CE80A, cond := .idleOnly },
      { off := 0x140, mask := m32, cond := .idleOnly, n := 4 }, { off := 0x150, mask := m32, reset := 0x001400C8 },
      { off := 0x154, mask := m32, reset := 0x00C807D0 }, { off := 0x158, mask := 0x3FF, reset := 0x64 }]
  | _ => []

/-- FAB (R160, R161), the engines (R189, R190, R192) and the front ends (R103, R104). -/
def rowsFabric : PageKind → List RegRow
  | .fab => [{ off := 0x100, mask := 0xFFFF3F, reset := 0x3200, cond := .idleOnly },
      { off := 0x104, mask := 0x3F01FF, reset := 0x108 }, { off := 0x108, mask := 0xFFFF, reset := 0x960 },
      { off := 0x140, mask := 0x80FF777F, cond := .idleOnly, n := 16 },
      { off := 0x180, mask := m32, cond := .idleOnly, n := 8, st := 16, n2 := 2 },
      { off := 0x188, mask := 3, cond := .idleOnly, n := 8, st := 16 },
      { off := 0x18C, mask := m32, cond := .idleOnly, n := 8, st := 16 },
      { off := 0x200, mask := m32, cond := .idleOnly, n := 16 }]
  | .eng => rowsEng
  | .eng4 => rowsEng ++ [{ off := 0x12C, mask := 0x1F, reset := 0x10, cond := .idleOnly }]
  | .eng0 => rowsEng ++ [{ off := 0x200, mask := 0x03FF000F, n := 16, st := 16 },
      { off := 0x204, mask := m32, cond := .disabled 0x200, n := 16, st := 16, n2 := 2 },
      { off := 0x20C, mask := 0x7FFFF, cond := .disabled 0x200, n := 16, st := 16 },
      { off := 0x300, mask := 0xFF, reset := 2 }]
  | .fend => [{ off := 0x100, mask := 0x73F, n := 8, st := 0x80 },
      { off := 0x104, mask := 0x0FFF0FFF, cond := .disabled 0x100, n := 8, st := 0x80 },
      { off := 0x108, mask := 0xF3FFF, reset := 0x000E0000, cond := .disabled 0x100, n := 8, st := 0x80 },
      { off := 0x10C, mask := 0xFFFF7FFF, reset := 0x06481388, cond := .disabled 0x100, n := 8, st := 0x80 },
      { off := 0x110, mask := 0x3FFF, cond := .disabled 0x100, n := 8, st := 0x80, n2 := 3 },
      { off := 0x11C, mask := 0x3FF, reset := 0x3E8, cond := .disabled 0x100, n := 8, st := 0x80 },
      { off := 0x120, mask := m32, cond := .disabled 0x100, n := 8, st := 0x80, n2 := 13 }]
  | _ => []
where
  /-- The rows that every engine page has. -/
  rowsEng : List RegRow := [{ off := 0x100, mask := 0x1F, reset := 0x10, cond := .idleOnly },
    { off := 0x104, mask := 3, cond := .idleOnly }, { off := 0x108, mask := 0xFFFF0F0F }, { off := 0x124, mask := 7 }]

/-- The sensor ports (R71 to R77), the Ethernet time registers (R332) and TRIG (R333). -/
def rowsPorts : PageKind → List RegRow
  | .csi => [{ off := 0x100, mask := 0x00FFF311, cond := .idleOnly }, { off := 0x104, mask := 0x00FFFF0F, cond := .idleOnly },
      { off := 0x108, mask := 3, reset := 1, cond := .idleOnly }, { off := 0x10C, mask := 0xF, reset := 1, cond := .idleOnly },
      { off := 0x110, mask := 0x01FFFFFF, cond := .idleOnly }, { off := 0x114, mask := 0xFFFF, reset := 0x3E8, cond := .idleOnly },
      { off := 0x118, mask := 0x3F3F, cond := .idleOnly, n := 8 }, { off := 0x140, mask := m32, cond := .idle, n := 4 },
      { off := 0x150, mask := m32, reset := 0x10000000, cond := .idle }, { off := 0x160, mask := m32, cond := .idleOnly, n := 2 },
      { off := 0x168, mask := 0xFFFF0007, reset := 2, cond := .idleOnly }, { off := 0x16C, mask := 0x0FFF1FFF, cond := .idleOnly }]
  | .eth => [{ off := 0x100, mask := 0x173, reset := 0x100, cond := .idleOnly }, { off := 0x104, mask := m32, cond := .idleOnly },
      { off := 0x108, mask := 0xFFFF, cond := .idleOnly }, { off := 0x10C, mask := 3 },
      { off := 0x110, mask := 0xFFFF, cond := .idleOnly, n := 2 }, { off := 0x118, mask := 1 },
      { off := 0x120, mask := 0xF07, cond := .idleOnly }, { off := 0x124, mask := 0xFFFF, cond := .idleOnly },
      { off := 0x128, mask := m32, cond := .idleOnly, n := 5 }, { off := 0x13C, mask := 0x8001FFFF, cond := .idleOnly, n := 10 },
      { off := 0x164, mask := m32, cond := .idleOnly, n := 2 }, { off := 0x170, mask := m32, cond := .idleOnly, n := 3 },
      { off := 0x180, mask := m32, n := 3 }, { off := 0x190, mask := m32, n := 4 }, { off := 0x1A0, mask := m32, reset := 0x10000000 },
      { off := 0x400, mask := m32, cond := .idleOnly, n := 256 }]
  | .imu => [{ off := 0x100, mask := 0x31FF7, cond := .idleOnly, n := 8, st := 0x40 },
      { off := 0x104, mask := m32, cond := .idleOnly, n := 8, st := 0x40 },
      { off := 0x108, mask := 0xFFFF00FF, cond := .idleOnly, n := 8, st := 0x40 },
      { off := 0x10C, mask := 0x8001FFFF, cond := .idleOnly, n := 8, st := 0x40, n2 := 6 }]
  | .wheel => [{ off := 0x100, mask := 0x737, cond := .idleOnly, n := 8, st := 0x20 }, { off := 0x104, mask := 0xFFFF, n := 8, st := 0x20 },
      { off := 0x108, mask := m32, n := 8, st := 0x20 }, { off := 0x10C, mask := m32, reset := 0x1F4, n := 8, st := 0x20 }]
  | .can => [{ off := 0x100, mask := 0x3F, reset := 0x30, cond := .idleOnly }, { off := 0x104, mask := m32, cond := .idleOnly },
      { off := 0x108, mask := 0x0F0F1F1F, cond := .idleOnly }, { off := 0x10C, mask := 0x7F01, cond := .idleOnly },
      { off := 0x114, mask := m32, n := 3 }, { off := 0x200, mask := 0x5FFFFFFF, n := 64, st := 8 },
      { off := 0x204, mask := 0xDFFFFFFF, n := 64, st := 8 }]
  | .trig => [{ off := 0x100, mask := 0xF, n := 16, st := 0x20 },
      { off := 0x104, mask := m32, cond := .disabled 0x100, n := 16, st := 0x20, n2 := 3 },
      { off := 0x110, mask := 0xFFFFFF, cond := .disabled 0x100, n := 16, st := 0x20 }]
  | _ => []

/-- CAN0 alone holds the signal slots (R77). -/
def rowsSlots : List RegRow := [{ off := 0x400, mask := m32, n := 64 }]

/-- All rows of a page. -/
def rowsOf (p : Nat) : List RegRow :=
  match pageKind p with
  | none => []
  | some k => rowsCore k ++ rowsHost k ++ rowsScene k ++ rowsMotion k ++ rowsFabric k ++ rowsPorts k ++
      (if p = 0x3A then rowsSlots else [])

/-- The page of a block's first instance (R474). -/
def firstPage : PageKind → Nat → Nat
  | .pci, _ => 0x08
  | .eng0, _ => 0x12
  | .eng, _ => 0x12
  | .eng4, _ => 0x12
  | .hub, _ => 0x18
  | .fend, _ => 0x1A
  | .csi, _ => 0x20
  | .eth, _ => 0x30
  | .can, _ => 0x3A
  | _, p => p

/-- Common counters in use on a page (R474). -/
def pageCounters : PageKind → Nat
  | .sys => 1 | .hub => 2 | .clk => 2 | .quay => 3 | .dbg => 2 | .sec => 5 | .stream => 6 | .can => 5 | .ego => 7 | .chain => 7
  | .imu => 0 | .wheel => 0 | .trig => 0
  | _ => 8

/-- Blocks with a self-test (R498). -/
def pageTest : PageKind → Bool
  | .time | .mem | .tt | .grid | .trk | .chain | .ego | .fab | .eng0 | .eng | .eng4 | .fend | .csi | .eth | .imu | .wheel
  | .can | .trig => true
  | _ => false

/-- Blocks that define commands (R216, R249, R274, R303, R306, R331, R77, R189, R332, R403, R429, R450, R452). -/
def pageCommands : PageKind → Bool
  | .tt | .grid | .trk | .chain | .ego | .time | .can | .eng4 | .eth | .safe | .pwr | .sec | .dbg => true
  | _ => false

/-- Blocks whose chapter defines HALT (R157, R188, R212, R245, R275, R301, R302, R328, R349, R379). -/
def pageHalt : PageKind → Bool
  | .fab | .eng0 | .eng | .eng4 | .tt | .grid | .trk | .chain | .ego | .time | .mem | .pci | .stream => true
  | _ => false

/-- How many bits of BLK_EVENTS and of BLK_FAULTS a page defines, from bit 0 up; the others are reserved (R103, R160, R189, R214, R247,
R276, R303, R306, R329, R333, R350, R352, R380, R382, R400, R427, R430, R431, R449, R451, R481, R495). -/
def eventBits : PageKind → Nat
  | .sys => 0 | .clk => 3 | .pwr => 7 | .safe => 8 | .sec => 5 | .time => 12 | .quay => 2 | .dbg => 4 | .pci => 5 | .mem => 3
  | .commons => 5 | .tt => 10 | .grid => 11 | .trk => 11 | .chain => 7 | .ego => 10 | .fab => 11 | .eng0 => 6 | .eng => 6 | .eng4 => 6
  | .hub => 2 | .fend => 9 | .csi => 3 | .eth => 3 | .imu => 3 | .wheel => 2 | .can => 3 | .trig => 3 | .stream => 2
def faultBits : PageKind → Nat
  | .safe => 3 | .pwr => 1 | .sec => 2 | .time => 2 | .pci => 2 | .mem => 4 | .commons => 1 | .tt => 3 | .grid => 1 | .trk => 2
  | .chain => 2 | .ego => 2 | .fab => 5 | .eng0 => 6 | .eng => 6 | .eng4 => 6 | .hub => 1 | .stream => 1
  | _ => 0

/-- The reset values of the common header (R473, R474) and of the page's own registers. -/
def pageReset (p o : Nat) : Nat :=
  match pageKind p with
  | none => 0
  | some k =>
    if o = 0 then firstPage k p * 65536 + (p - firstPage k p) * 256 + 1
    else if o = 4 then 0x00010000
    else if o = 8 then
      pageCounters k * 256 + (if pageTest k then 4 else 0) + (if pageCommands k then 2 else 0) + (if pageHalt k then 1 else 0)
    else if o < 0x100 then 0
    else match findRow (rowsOf p) o with
      | some (r, _) => r.reset
      | none => 0

/-- The reset value of a register by its key: page × 0x1000 + offset; keys from 0x40000 on (per-port copies, latches, core and
router registers) reset to 0. -/
def regReset (k : Nat) : BitVec 32 :=
  if k < 0x40000 then BitVec.ofNat 32 (pageReset (k / 0x1000) (k % 0x1000)) else 0

end Sys2Proof.Machine
end

