-- ==== Sys2Proof/Machine/State.lean ====
section
/-! DEFINITION. The state of the device as plain data. Registers stand in one sparse map by page and offset (`regs`), bytes of
device memory in another (`mem`); what the spec names and no register shows stands in the structures below, one per block. -/

namespace Sys2Proof.Machine

/-! ### Sensor ports -/

/-- A packet in a CSI entry queue, with the stamps of its header (R34, R50). -/
structure CsiQueued where
  pkt : CsiPacket
  tb0 : Nat
  fus : Nat
deriving DecidableEq, Repr

/-- An alignment triple (R45, R59): A, B and K as the conversion reads them. -/
structure Triple where
  a : Int := 0
  b : Int := 0
  k : Nat := 0x10000000
deriving DecidableEq, Repr

/-- The frame a CSI port is receiving (R40). -/
structure OpenFrame where
  number   : Nat
  buffer   : Nat
  startTb0 : Nat
  startFus : Nat
  lines    : Nat
  crcError : Bool
  overflow : Bool
deriving DecidableEq, Repr

/-- A CSI-2 receive port (R34 to R53). `out` holds decoded words that the front end has not taken; `offers` the pairs
that the alignment unit has not used: the sensor time, where there is one, and the stamp (R46, R239). -/
structure CsiPort where
  queue    : List CsiQueued := []
  out      : List DWord := []
  offers   : List (Option Nat × Nat) := []
  triple   : Triple := {}
  prevThi  : Option Nat := none
  wraps    : Nat := 0
  row      : Option (Nat × Bool × Nat) := none
  frameNo  : Nat := 0
  nextBuf  : Nat := 0
  frame    : Option OpenFrame := none
  ovfMark  : Bool := false
  kNom     : Nat := 0x10000000
deriving DecidableEq, Repr

/-- A received frame waiting for the point parser, with its stamps (R56). -/
structure PpFrame where
  udp : List Byte
  tb0 : Nat
  fus : Nat
  len : Nat
deriving DecidableEq, Repr

/-- A frame waiting to be sent (R325): its descriptor, address, length, base and launch time, and whether it reached the head of the
queue in time (R326). -/
structure TxFrame where
  desc : Nat
  addr : Nat
  len  : Nat
  base : Nat
  time : Nat
  ready : Bool := true
deriving DecidableEq, Repr

/-- A Pdelay frame of TIME that waits to be sent (R311): its message type, base, sequence number, the peer's port identity, and the time it
carries (the receive time of the request, or the send time of the answer). -/
structure PtpOut where
  kind : Nat
  base : Nat
  seq  : Nat
  peer : Nat := 0
  time : Nat := 0
deriving DecidableEq, Repr

/-- An Ethernet port (R54 to R60, R323 to R326). `macFree` is the TB0 time at which the MAC is free again. -/
structure EthPort where
  ppQueue  : List PpFrame := []
  offers   : List (Option Nat × Nat) := []
  triple   : Triple := {}
  kNom     : Nat := 0x10000000
  batchSeq : Nat := 0
  ringOff  : Nat := 0
  batches  : Nat := 0
  txQueue  : List TxFrame := []
  macFree  : Nat := 0
  sent     : List (List Byte) := []
  own      : List PtpOut := []
deriving DecidableEq, Repr

/-- A port's stamp of a sample, in FUSION and in TB0 (R34). -/
structure Stamp where
  fus : Nat
  tb0 : Nat
deriving DecidableEq, Repr

/-- An edge that awaits its transfer: its stamp, the TB0 time before which the transfer does not start, and whether it was pending
while another transfer ran (R62, R63). -/
structure SpiWait where
  stamp  : Stamp
  due    : Nat
  pended : Bool := false
deriving DecidableEq, Repr

/-- An SPI port (R62, R63): the edge awaiting its transfer, the transfer in progress, the pending edge, the TB0 time from which silence
is counted, that of the last edge since the enable, and the command bytes last sent. -/
structure SpiPort where
  waiting  : Option SpiWait := none
  active   : Option (Stamp × List Byte) := none
  pendEdge : Option Stamp := none
  lastEdge : Option Nat := none
  rateFrom : Option Nat := none
  mosi     : List Byte := []
deriving DecidableEq, Repr

/-- A wheel input (R50, R65, R66): the TB0 time of the last accepted edge, the entry queue of accepted edges that the speed unit has not
taken; the TB0 time of the edge it took last, the last edge period, the speed, and the number of the last sample's instant. -/
structure WheelIn where
  last    : Option Nat := none
  queue   : List Stamp := []
  edge    : Option Nat := none
  period  : Option Nat := none
  speed   : Word := 0
  sampled : Option Nat := none
deriving DecidableEq, Repr

/-- A CAN FD controller (R50, R67 to R70): its entry queue, frames to send, frames sent, its position in the receive ring. -/
structure CanCtl where
  inq      : List (CanFrame × Stamp) := []
  tx       : List CanFrame := []
  sent     : List CanFrame := []
  ringOff  : Nat := 0
deriving DecidableEq, Repr

/-- The newest value of a CAN signal slot with its source frame's FUSION stamp, and the number of its last sample's instant (R69). -/
structure CanSlot where
  value : Word := 0
  stamp : Option Nat := none
  sampled : Option Nat := none
deriving DecidableEq, Repr

/-! ### Front ends and loop values -/

/-- A front end (R51, R78 to R105): the local number of the decoder being served and the words taken from it; records waiting at the ingest edges and at the binner, shed counts by step and those reported, the next window to adopt at, the TB0 end of a clear by local sensor, and the FUSION end of the sweeper's pass. -/
structure FendHub where
  turn : Nat := 0
  taken : Nat := 0
  edgeQ : List (BitVec 128) := []
  binQ  : List (BitVec 128) := []
  shed  : SMap Nat := []
  reported : SMap Nat := []
  window : Nat := 0
  clearEnd : SMap Nat := []
  sweepAt : Nat := 0
deriving DecidableEq, Repr

/-- A loop value: the FUSION time it was produced and its content as words (R20). -/
structure LoopVal where
  stamp : Nat
  words : List Word
deriving DecidableEq, Repr

/-- A consumer's two buffers of a loop value (R19), what is on its way to it, and whether the adopted value is in use: not
stale, and not awaited. -/
structure LoopBuf where
  flight  : List LoopVal := []
  waiting : Option LoopVal := none
  adopted : Option LoopVal := none
  fresh   : Bool := false
deriving DecidableEq, Repr

/-! ### Fabric -/

/-- A deferral cursor (R112, R114): word address, g, due step and, for a list, its current delay. -/
structure Cursor where
  waddr : Nat
  g     : Int
  due   : Nat
  delay : Nat
deriving DecidableEq, Repr

/-- A neuro-core's working state (R108 to R128); its tables are bytes of device memory. `sums` lists the neurons that
received input in the open step, `outq` the packets that the router has not taken; `updated` marks the step's update as done. -/
structure Core where
  inq       : List DWord := []
  sums      : SMap (Option Int) := []
  cursors   : List Cursor := []
  outq      : List DWord := []
  updated   : Bool := false
  closed    : Bool := false
  idleSince : Nat := 0
deriving DecidableEq, Repr

/-- A router (R137 to R142): copies waiting at its inputs with the input (0 N, 1 E, 2 S, 3 W, 4 core, 5 edge), its moorings
oldest first, releases that the core port has not taken, and its accounts for the open step in phases D and M. -/
structure Router where
  inbox    : List (Nat × DWord) := []
  moor     : List DWord := []
  rel      : List DWord := []
  createdD : Nat := 0
  retiredD : Nat := 0
  createdM : Nat := 0
  retiredM : Nat := 0
deriving DecidableEq, Repr

/-- An ingest edge (R144 to R146): packets formed with their steps, counts by step, packets of the open step injected. -/
structure Edge where
  queue    : List (Nat × DWord) := []
  formed   : SMap Nat := []
  injected : Nat := 0
deriving DecidableEq, Repr

/-- What a reduction round sampled (R148). -/
structure Round where
  createdD : Nat
  retiredD : Nat
  createdM : Nat
  retiredM : Nat
  edgesDone : Bool
  released  : Bool
  closed    : Nat
  allClosed : Bool
  busy      : Bool
deriving DecidableEq, Repr

/-- A closed step's accounts, kept for its TICK record (R151, R154). -/
structure StepRec where
  step    : Nat
  endFus  : Nat
  overrun : Nat
  lag     : Nat
  shed0   : Nat
  shed1   : Nat
  outs    : List Nat
  forced  : Bool
deriving DecidableEq, Repr

/-- The Bell unit and the step sequence of FAB (R21 to R26, R148 to R153). Times are FUSION units; the Bell's time keeps
FUSION's fraction. `sample` is the round in progress, `prev` the one delivered before it, `lags` the lags of the last
256 Bells, newest first, `adopt0` and `adopt1` the step and level of each hub's last report, `slid` what FUSION has stepped by while the
step is open (R26). -/
structure BellUnit where
  started   : Bool := false
  stepOpen  : Bool := false
  step      : Nat := 0
  nextStep  : Nat := 0
  endFus    : Nat := 0
  slid      : Nat := 0
  nextEnd   : Nat := 0
  firstWin  : Nat := 0
  phaseM    : Bool := false
  rang      : Bool := false
  forced    : Bool := false
  bellTime  : Nat := 0
  cycles    : Nat := 0
  sample    : Option Round := none
  prev      : Option Round := none
  quiet     : Nat := 0
  winStep   : Nat := 0
  lags      : List Nat := []
  adopt0    : Option (Nat × Nat) := none
  adopt1    : Option (Nat × Nat) := none
  outs      : SMap Nat := []
  siteCount : SMap Nat := []
  siteOvf   : SMap Bool := []
  ticks     : List StepRec := []
  resume    : Bool := false
deriving DecidableEq, Repr

/-! ### Engines and Timetable -/

/-- A tile on an engine: the issue it belongs to, its layer, its dimensions and, once started, its cycles and operands
(R168, R205). -/
structure Tile where
  entry : Nat
  model : Nat
  tag   : Nat
  gen   : Nat
  layerIdx : Nat
  layer : LayerDesc
  m     : Nat := 0
  n     : Nat := 0
  kb    : Nat
  passes : Nat
  waddr : Nat := 0
  oaddr : Nat := 0
  boxes : Option (List (Nat × Nat × Nat × Nat)) := none
  readyAt : Nat
  startAt : Nat := 0
  cycles  : Nat := 0
  mode  : Nat := 0
  q     : Nat := 0
  ops   : TileOperands := { weights := [], wchk := [], acts := [], chan := 0 }
deriving DecidableEq, Repr

/-- How a tile ends (R206). -/
inductive TileStatus where
  | ok | chkFail | pairFail | dismissed | wchk
deriving DecidableEq, Repr

/-- A completion on its way to TT (R205, R206): the target's lower engine, the output-row signatures of the target's engines, for
each engine that ran the tile its expected and actual duration, the engines whose checksums failed, the engines with a fault
that fails them and its cause (R209), whether the output is UNCHECKED (R201), and whether the target is a pair, whose comparator has then
reported (R204). -/
structure Completion where
  engine : Nat
  entry  : Nat
  model  : Nat
  tag    : Nat
  gen    : Nat
  status : TileStatus
  sig    : DWord
  sig2   : DWord
  ran    : List (Nat × Nat × Nat)
  bad    : List Nat
  fatal  : List (Nat × Nat)
  unchecked : Bool
  pair   : Bool := false
deriving DecidableEq, Repr

/-- A hash table that the gather unit keeps (R170): the model and the trigger time of the invocation whose sites it holds, H, and the list
that it was built from, which gives its slots. -/
structure HashTable where
  model : Nat
  time  : Nat
  h     : Nat
  sites : List (Nat × Nat)
deriving DecidableEq, Repr

/-- An engine's work (R164 to R188). `tables` are the hash tables that it keeps, the newest first; `gathered` the activation rows of
the next tile, once they are built; `pairSeen` its half of a pair's result; until `rest` throttle level 3 lets no tile start (R424). Times are in TB0. -/
structure Engine where
  running : Option Tile := none
  staged  : Option Tile := none
  tables  : List HashTable := []
  gathered : Option (List (List Int)) := none
  lastRows : List (List Int) := []
  lastEnd : Option (Nat × Nat × Nat) := none
  pairSeen : Option Completion := none
  stats   : SMap (Nat × Nat) := []
  rest    : Nat := 0
deriving DecidableEq, Repr

/-- One site of an open bin (R173, R174). -/
structure BinSite where
  cx : Nat
  cy : Nat
  count : Nat
  pos : Nat
  neg : Nat
  posT : Option Nat
  negT : Option Nat
  corner : Nat
  sumX : Int
  sumY : Int
  flows : Nat
deriving DecidableEq, Repr

/-- A bin of the event binner, with the sites beyond BIN_CAP that it has dropped. -/
structure Bin where
  index : Nat
  sites : List BinSite
  ovf   : Bool
  dropped : List (Nat × Nat) := []
deriving DecidableEq, Repr

/-- A sensor's binner: open bins, and the first bin that is not closed. -/
structure BinUnit where
  bins   : List Bin := []
  closedTo : Nat := 0
deriving DecidableEq, Repr

/-- A firing of a model's trigger (R198): the slot, its moment in TB0, the input buffer's address, and the ranges that the input
occupies. -/
structure Firing where
  model : Nat
  at_   : Nat
  buf   : Nat
  span  : List (Nat × Nat)
deriving DecidableEq, Repr

/-- A model's invocation in flight (R199 to R202); the trigger's moment is in TB0. -/
structure Invocation where
  trigTime : Nat
  buf      : Nat
  span     : List (Nat × Nat) := []
  admitted : Nat
  done     : List Nat
  unchecked : List Nat
deriving DecidableEq, Repr

/-- A model slot (R196). Its state code stands in its register; `swapTo` is an armed swap's other slot and `armedAt` the TB0 time of the
arming, `swapOut` marks a slot whose service a swap has taken. `batches` are the ring ranges written since a POINTS trigger last fired, and
`perAt` the multiple at which a PERIOD trigger last fired. -/
structure Slot where
  image   : Option ModelImage := none
  inv     : Option Invocation := none
  pend    : Option Firing := none
  swapTo  : Option Nat := none
  armedAt : Nat := 0
  swapOut : Bool := false
  batches : List (List (Nat × Nat)) := []
  perAt   : Nat := 0
deriving DecidableEq, Repr

/-- A scoreboard entry (R202): its target while issued is an engine, or the lower engine of a pair. `again` marks a re-issue,
`avoid` the engines to be left out, `force` a target to be used, `arbiter` the pair and its two signatures (R206, R209). -/
structure SbEntry where
  entry  : Nat
  model  : Nat
  tag    : Nat
  count  : Nat
  readyAt : Nat
  issued : Option (Nat × Bool) := none
  gen    : Nat := 0
  again  : Bool := false
  pairFails : Nat := 0
  avoid  : List Nat := []
  force  : Option (Nat × Bool) := none
  arbiter : Option (Nat × DWord × DWord) := none
deriving DecidableEq, Repr

/-- What TT keeps per engine (R208 to R210): the open window's tiles and durations, tiles completed in all, the strikes by that
count, whether a window has ended, and whether a self-test has passed since the fence. -/
structure TargetWin where
  tiles    : Nat := 0
  expSum   : Nat := 0
  actSum   : Nat := 0
  total    : Nat := 0
  strikes  : List Nat := []
  testedSince : Bool := false
  hasRatio : Bool := false
deriving DecidableEq, Repr

/-- A delivery of an output binding (R201): buffer, consumer, mark. -/
structure Delivery where
  addr : Nat
  consumer : Consumer
  unchecked : Bool
deriving DecidableEq, Repr

/-- The Timetable: slots, scoreboard, generations by entry, what it keeps per engine, completions not yet handled, the load in
progress (slot and address), deliveries not yet taken, the engines whose fence degraded a model, the firings not yet handled, the
invocations (slot and trigger time) whose input a source has begun to rewrite, and the slot that CMD_DEACTIVATE waits for. -/
structure Timetable where
  slots   : SMap Slot := []
  board   : List SbEntry := []
  gens    : SMap Nat := []
  wins    : SMap TargetWin := []
  comps   : List Completion := []
  loading : Option (Nat × Nat) := none
  deliver : List Delivery := []
  degraded : List Nat := []
  fired   : List Firing := []
  rewritten : List (Nat × Nat) := []
  deact   : Option Nat := none
deriving DecidableEq, Repr

/-! ### Grid -/

/-- A list queued at GRID (R222). -/
structure GridList where
  addr : Nat
  source : Nat
  unchecked : Bool
deriving DecidableEq, Repr

/-- A calibration set in use (R223): words of the registers, the bank of its ray table, its version. -/
structure CalSet where
  ext  : List Word := List.replicate 16 0
  gnd  : List Word := List.replicate 3 0
  dim  : Word := 0
  ver  : Nat := 0
  bank : Nat := 0
deriving DecidableEq, Repr

/-- A port's alignment unit (R239 to R241): the offset estimate, the sensor time of the pair used last, consecutive good pairs,
whether its sources are ALIGNED, whether the next mode 1 pair steps the triple, the FUSION time of the last use and of the last exit
from UNALIGNED, the period (mode 1) or the fire as its register shows it (mode 2) whose pair has been used, and a fire that a FUSION
step has moved, with the step (R235). -/
structure AlignUnit where
  off      : Int := 0
  sprev    : Option Nat := none
  good     : Nat := 0
  aligned  : Bool := true
  step     : Bool := false
  lastUse  : Nat := 0
  lastExit : Nat := 0
  period   : Option Nat := none
  moved    : Option (Nat × Nat) := none
deriving DecidableEq, Repr

/-- The accumulating or closing epoch (R232 to R237): with the calibration versions and the CONF_MIN of its opening, and GRID_EVID and
GRID_EVID2 as they stood when its close began (R229). -/
structure Epoch where
  buffer : Nat := 0
  open_  : Nat := 0
  shut   : Nat := 0
  oi : Int := 0
  oj : Int := 0
  di : Int := 0
  dj : Int := 0
  xref : DWord := 0
  yref : DWord := 0
  heading : Word := 0
  noPose : Bool := false
  long   : Bool := false
  torn   : Bool := false
  timeStep : Bool := false
  listOvf : Bool := false
  priorUnknown : Bool := false
  placedBy : Nat := 0
  unaligned : Nat := 0
  uncheckedBy : Nat := 0
  placed : Nat := 0
  dropped : Nat := 0
  active : Nat := 0
  vers : List Nat := []
  confMin : Nat := 192
  evid : Nat := 0
  evid2 : Nat := 0
deriving DecidableEq, Repr

/-- A pose record of EGO (R298). -/
structure Pose where
  dtime : Nat
  pos   : List DWord
  vel   : List Word
  quat  : List Word
  omega : List Word
  flags : Nat
  seq   : Nat
deriving DecidableEq, Repr

/-- GRID: queued lists, the accumulating, the closing and the last published epoch with its header, the last 2,048 poses, CURRENT
calibration sets by source, the source whose commit waits, alignment units by port (an Ethernet port by 16 + its number), the
FUSION time of the next boundary, a boundary that a FUSION step has moved, and by buffer the bitmap of touched cells (R228). -/
structure Grid where
  lists   : List GridList := []
  acc     : Option Epoch := none
  closing : Option Epoch := none
  last    : Option Epoch := none
  lastHdr : List Byte := []
  poses   : List Pose := []
  cal     : SMap CalSet := []
  commit  : Option Nat := none
  align   : SMap AlignUnit := []
  evidClear : Bool := false
  evidCmd : Bool := false
  firstAfter : Bool := true
  cellChanged : Bool := true
  clearing : Bool := false
  warm    : Nat := 0
  warmed  : Bool := false
  nextAt  : Nat := 0
  stepAt  : Option Nat := none
  marks   : SMap (List Nat) := []
deriving DecidableEq, Repr

/-! ### Tracking -/

/-- A live track (R253, R264, R270). -/
structure Track where
  gen    : Nat
  cls    : Nat
  model  : Nat
  ext    : Bool
  conf   : Bool
  x      : List Word
  cov    : List Word
  time   : Nat
  p      : Word
  hits   : Nat
  misses : Nat
  since  : Nat
  unchk  : Bool
  heading : Word
  birth  : Nat
deriving DecidableEq, Repr

/-- A detection list queued at TRK (R256). -/
structure DetList where
  addr : Nat
  unchecked : Bool
deriving DecidableEq, Repr

/-- A detection (R255) in the odometry frame (R257): its fields, the place and heading, l, w and h, the three variances, σxy, σψ² and
σe² as FP32, the list's mark and reference time, and whether the list could be placed. -/
structure Detection where
  link : Nat
  cls  : Nat
  mask : Nat
  conf : Nat
  src  : Nat
  pos  : List Word
  head : Word
  ext  : List Word
  var  : List Word
  cxy  : Word
  vhead : Word
  vext : Word
  unchk : Bool
  ref  : Nat
deriving DecidableEq, Repr

/-- TRK. Slots never used since reset run from `freshFrom` upwards and stand before `freed` in the free list (R251). `table` holds the
TRACK entry of each slot as last committed (R278), `nextAt` the FUSION time of the next cycle, `command` the waiting command with its
two arguments, `lastUnchk` the UNCHECKED flag of the newest batch. -/
structure Tracker where
  tracks  : SMap (Option Track) := []
  gens    : SMap Nat := []
  freshFrom : Nat := 0
  freed   : List Nat := []
  lists   : List DetList := []
  listOvf : Bool := false
  poses   : List Pose := []
  nextAt  : Nat := 0
  hintBuf : Nat := 0
  batchSeq : Nat := 0
  command : Option (Nat × Nat × Nat) := none
  termNext : Bool := false
  gone    : List (Nat × Track) := []
  touched : List Nat := []
  lastUnchk : Bool := false
  table   : SMap (List Byte) := []
deriving DecidableEq, Repr

/-! ### Inertial chain and ego motion -/

/-- A sample in a channel's history (R280). -/
structure Samp where
  stamp : Nat
  value : Word
  filled : Bool
  still : Bool
  stale : Bool
deriving DecidableEq, Repr

/-- A sample on its way to the chain: channel, FUSION stamp, raw (an SPI axis as an integer) or FP32 value, flags, the TB0 stamp of its
edge or instant (R34), and the age of a CAN sample's source frame in FUSION units (R69). -/
structure ChainIn where
  chan  : Nat
  stamp : Nat
  raw   : Option Int
  value : Word
  still : Bool
  stale : Bool
  tb0   : Nat := 0
  age   : Option Nat := none
deriving DecidableEq, Repr

/-- A channel's output computation in progress (R284). -/
structure FirJob where
  tau : Nat
  start : Nat
  left : Nat
  taken : List Samp
  stale : Bool
  settling : Bool
deriving DecidableEq, Repr

/-- An output word of the chain (R288). -/
structure ChainOut where
  value : Word
  stamp : Nat
  tau   : Nat
  dtime : Nat
  stale : Bool
  settling : Bool
  filled : Bool
  srcStill : Bool
  srcStale : Bool
deriving DecidableEq, Repr

/-- A channel: its history newest first, the stamp and the converted value of the newest real sample, samples until it has settled, the
computation in progress, the next output instant, outputs newest first. -/
structure Channel where
  hist    : List Samp := []
  lastReal : Option Nat := none
  lastValue : Word := 0
  settle  : Nat := 0
  job     : Option FirJob := none
  nextTau : Nat := 0
  out     : List ChainOut := []
deriving DecidableEq, Repr

/-- A custom coefficient set (R291). -/
structure CoefSet where
  dec   : Nat
  delay : Word
  coefs : List Word
deriving DecidableEq, Repr

/-- CHAIN: samples that have arrived and are not yet taken, the number of the next FIR round (of 0.8 µs of FUSION), channels, custom
sets by set number, the load in progress (slot, image address). -/
structure Chain where
  inq   : List ChainIn := []
  round : Nat := 0
  chans : SMap Channel := []
  sets  : SMap (Option CoefSet) := []
  loading : Option (Nat × Nat) := none
deriving DecidableEq, Repr

/-- EGO's estimate: position in FP64; velocity, attitude, biases in FP32; the covariance of the 15
error states as an upper triangle, row by row. -/
structure EgoEst where
  pos  : List DWord := []
  vel  : List Word := []
  quat : List Word := []
  bg   : List Word := []
  ba   : List Word := []
  cov  : List Word := []
deriving DecidableEq, Repr

/-- A step pose (R299): the pose at E(n), the same record's pose at E(n) − P, and whether the increment is NaN. -/
structure StepPose where
  step : Nat
  endF : Nat
  pos  : List DWord
  quat : List Word
  backF : Nat
  backPos : List DWord
  backQuat : List Word
  nan  : Bool
deriving DecidableEq, Repr

/-- EGO: the estimate and its data time, none before the first update after a restart; whether the next record is the first after one
and whether a restart keeps the pose; the last record and whether it was published since EGO entered RUNNING; the next instant; the
FUSION time of the last record; that of the last update or restart; since when the vehicle has been still, and STILL, in data time; the
step poses by step mod 4,096 and the next step. -/
structure Ego where
  est     : Option (EgoEst × Nat) := none
  first   : Bool := true
  keep    : Bool := false
  last    : Option Pose := none
  published : Bool := false
  lastRec : Nat := 0
  nextTau : Nat := 0
  lastUpdate : Nat := 0
  quietSince : Option Nat := none
  stillSince : Option Nat := none
  poses   : SMap (Option StepPose) := []
  nextStep : Nat := 0
deriving DecidableEq, Repr

/-! ### Time -/

/-- The states of a network base (R313). -/
inductive BaseState where
  | free | acquiring | locked | holdover | jumpRefused
deriving DecidableEq, Repr

/-- A network base (R308 to R317): its value in units of 2⁻⁴⁰ ns, rates in units of 2⁻⁴⁰, times in TB0 ns, mean link delay in units of
2⁻¹⁶ ns, the neighbour rate ratio as a fraction with the last exchange it was measured from (t3, t4); the grandmaster in use, and the
Announce that the best master clock algorithm holds with its time (R310); from when the next Pdelay_Req is due, the sequence number of the
last, and the send time of the one that has had no answer. -/
structure NetBase where
  value   : Int := 0
  y       : Int := 0
  yi      : Int := 0
  state   : BaseState := .free
  slewing : Bool := false
  yHold   : Int := 0
  judge   : Bool := false
  lastApplied : Nat := 0
  lastRecv : Nat := 0
  interval : Int := 0
  outliers : Nat := 0
  inLimit : Nat := 0
  lockRun : Nat := 0
  accept  : Bool := false
  delay   : Int := 0
  ratioNum : Int := 1
  ratioDen : Int := 1
  lastPd  : Option (Nat × Nat) := none
  gm      : Option DWord := none
  best    : Option (AnnMsg × Nat) := none
  reqAt   : Nat := 0
  reqSeq  : Nat := 0
  pdReq   : Option Nat := none
deriving DecidableEq, Repr

/-- A TRIG output (R327): the next fire, and the TB0 time at which an active pulse ends. -/
structure TrigOut where
  next : Nat := 0
  ends : Nat := 0
deriving DecidableEq, Repr

/-- The four bases (R308, R318). FUSION and the anchor Q are held in units of 2⁻⁴⁰ of 1/16 µs. STEP_PENDING; an accepted step J or change
of Q with its boundary; a source change with its boundary; whether the TIME domain is off, and the ns that AON has counted since. -/
structure Time where
  tb0  : Nat := 0
  net  : SMap NetBase := []
  fus  : Nat := 0
  q    : Int := 0
  source : Nat := 0
  pending : Bool := false
  accStep : Option Nat := none
  accAnchor : Bool := false
  accAt : Nat := 0
  srcNext : Option Nat := none
  srcAt : Nat := 0
  off  : Bool := false
  offNs : Nat := 0
  trig : SMap TrigOut := []
deriving DecidableEq, Repr

/-! ### Host ports and streams -/

/-- A staged record (R371): its sequence number and its bytes. -/
structure Staged where
  seq   : Nat
  bytes : List Byte
  fus   : Nat
deriving DecidableEq, Repr

/-- A ring's staged records, oldest first, its write position, and the records since its last message, by ring number (R366 to
R371). -/
structure Ring where
  staged : List Staged := []
  off    : Nat := 0
  since  : Nat := 0
deriving DecidableEq, Repr

/-- How a host access completes (R31, R347, R471). -/
inductive Access where
  | done | ur | ca
deriving DecidableEq, Repr

/-- An MSI-X message a port has sent (R376): the vector, and the address and data of its entry in the MSI-X table. -/
structure MsixMsg where
  vec  : Nat
  addr : Nat
  data : Nat
deriving DecidableEq, Repr

/-- A host port (R354 to R382): what it has written into host memory, its MSI-X table by 32-bit word (R358), the vectors whose
pending bit is set, in the order they fell due, the messages sent, and the completion of its last access. -/
structure HostPort where
  link    : Bool := false
  inReset : Bool := true
  hostMem : SMap Byte := []
  rings   : SMap Ring := []
  msixTbl  : SMap Nat := []
  msixPend : List Nat := []
  msixSent : List MsixMsg := []
  resp    : Access := .done
  data    : List Byte := []
  aerLog  : Nat := 0
deriving DecidableEq, Repr

/-- An item a block offers to STREAM (R366): ring, content and marks. -/
structure Offer where
  ring  : Nat
  bytes : List Byte
  fus   : Nat
  unchecked : Bool
  warm  : Bool
deriving DecidableEq, Repr

/-- STREAM: items offered and not yet produced; the open TAP block with the FUSION time its first record arrived; by sensor, one more
than the records since the last copied one, 0 before the first; result-window updates that are due, each window's SEQ, and the
µs of FUSION up to which window 4 is up to date. -/
structure Stream where
  offers  : List Offer := []
  tap     : List (BitVec 128) := []
  tapFus  : Nat := 0
  tapSeen : SMap Nat := []
  winQ    : List (Nat × List Byte) := []
  winSeq  : SMap Nat := []
  w4At    : Nat := 0
deriving DecidableEq, Repr

/-! ### Guarantee, power, trust -/

/-- A fault as SAFE receives it (R388, R497): source, page, bit or reason, instance, the FUSION time of detection, the step then open,
and the page of the block that received the error response of a memory's fault (R391). -/
structure FaultIn where
  source : Nat
  page   : Nat
  bit    : Nat
  inst   : Nat
  fus    : Nat
  step   : Nat
  rcv    : Option Nat := none
deriving DecidableEq, Repr

/-- An outstanding CONTAINED fault (R387): its page, whether its scope is FUNCTION, the port it is confined to, the step of a fault of
FAB, and whether its block has been dismissed since. -/
structure Outstanding where
  page   : Nat
  func   : Bool
  port   : Option Nat
  step   : Option Nat
  dis    : Bool := false
deriving DecidableEq, Repr

/-- SAFE: faults not yet classified; outstanding CONTAINED faults; the highest class in the TICK interval that is open; the number of the
round in progress or next, whether it is open and its TB0 start; whether the last round passed; by port, the round from which a pass lifts
its HEALTHY; the pages of the round's CORRECTED faults; an injected answer (page, kind) for the next round, and the fault (page, reason)
that completes CMD_INJECT; by domain, the consecutive windows outside the limit; by pair, the samples in disagreement, and the pairs found
so; the hottest reading; the windows of the clock monitors and the instants of the temperature samples that have been, in 2 µs and in 5 µs;
whether FAB has passed its self-test since the last fence; whether Thimum is held in reset. -/
structure Safe where
  inbox    : List FaultIn := []
  out      : List Outstanding := []
  tickMax  : Nat := 0
  round    : Nat := 0
  roundOpen : Bool := false
  roundAt  : Nat := 0
  lastPass : Bool := false
  clean    : SMap (Option Nat) := []
  corrected : List Nat := []
  inject   : Option (Nat × Nat) := none
  injWait  : Option (Nat × Nat) := none
  clkRun   : SMap Nat := []
  tempRun  : SMap Nat := []
  tempBad  : List Nat := []
  hot      : Int := 0
  clkAt    : Nat := 0
  tempAt   : Nat := 0
  fabTested : Bool := false
  thimumHeld : Bool := false
deriving DecidableEq, Repr

/-- The steps of a Stop entry and of a wake (R407, R412). -/
inductive PwrStage where
  | idle | quiesce | drain | commit | stopped
  | rails | plls | train | links | restore | firmware | config | images | enable
  | awaitCoolant | awaitRef | railUp (n : Nat)
deriving DecidableEq, Repr

/-- The configuration record (R455): registers, bytes of the tables, custom coefficient sets, model slots, strikes and ratio windows,
CURRENT calibration sets. -/
structure ConfigRecord where
  regs : SMap Word
  mem  : SMap Byte
  sets : SMap (Option CoefSet)
  slots : SMap Slot
  wins : SMap TargetWin
  cal  : SMap CalSet
deriving DecidableEq, Repr

/-- A Stop request: depth, cause (R428) and TWAKE. -/
structure StopReq where
  depth : Nat
  cause : Nat
  twake : Nat
deriving DecidableEq, Repr

/-- PWR, QUAY and the AON store. The slot's contents and the state stand in PWR_STATE. `request` is the Stop whose entry starts next,
`pend` the Stop in the pending slot, `twake` that of the entry in progress; `wasRunning` what the wake re-enables, `heldRun` what
PAD_RELEASE does, `relWait` a release that waits for EXTEST; `refusedBy` a refuser with its code and whether it aborts; `full` marks a wake as
from Off. Times are those of TB0, with AON's count while the TIME domain is off. -/
structure Power where
  stage    : PwrStage := .idle
  stageAt  : Nat := 0
  full     : Bool := false
  request  : Option StopReq := none
  pend     : Option StopReq := none
  twake    : Nat := 0
  wasRunning : List Nat := []
  heldRun  : List Nat := []
  relWait  : Bool := false
  refusedBy : Option (Nat × Nat × Bool) := none
  entryAt  : Nat := 0
  drainAt  : Nat := 0
  wakeAt   : Nat := 0
  coolantLostAt : Option Nat := none
  coolantTimer : Bool := false
  below    : Nat := 0
  evalAt   : Nat := 0
  aonCause : Nat := 0
  attempts : Nat := 0
  coolRefused : Bool := false
  wakeFailed : Bool := false
  wakeFails : Nat := 0
  record   : Option ConfigRecord := none
deriving DecidableEq, Repr

/-- The fuses (R433, R442). -/
structure Fuses where
  lifecycle : Nat := 2
  mlDsa65 : Bool := false
  fKeys   : List (List Byte) := [[], [], [], []]
  mKeys   : List (List Byte) := [[], [], [], []]
  fRevoked : Nat := 0
  mRevoked : Nat := 0
  debugKey : List Byte := []
  debugRevoked : Bool := false
  mfgKey   : List Byte := []
  rollback : Nat := 0
  deviceId : List Byte := List.replicate 16 0
deriving DecidableEq, Repr

/-- A lifecycle command whose fuses are being programmed (R444). -/
inductive FuseJob where
  | lifecycle (target : Nat)
  | provision (blk : ProvBlock)
  | revoke (slot : Nat)
deriving DecidableEq, Repr

/-- SEC and DBG (R432 to R452): fuses; measurements and their log; the fuse job and when it began; the running firmware's key slot and
image; whether Thimum runs; nonces drawn; whether derived secrets stand; an unlock's scope and end in TB0; pages that DBG_HALT.ALL alone
halts; the JTAG data register last shifted out, the boundary register, EXTEST; a tamper response; SPDM answers and connection states. -/
structure Trust where
  fuses    : Fuses := {}
  measures : SMap (List Byte) := []
  log      : List (List Byte) := []
  job      : Option FuseJob := none
  jobAt    : Nat := 0
  fwSlot   : Option Nat := none
  fwImage  : List Byte := []
  running  : Bool := false
  nonces   : Nat := 0
  secrets  : Bool := true
  unlock   : Option (Nat × Nat) := none
  haltedByDbg : List Nat := []
  tdr      : List Byte := []
  boundary : DWord := 0
  extest   : Bool := false
  tamperResp : Bool := false
  spdmOut  : List (List Byte) := []
  spdmConn : SMap Nat := []
deriving DecidableEq, Repr

/-- Memory subsystems (R337 to R351): granules whose stored check word is wrong, the armed injection, patrol's position,
when the wipe in progress was triggered, the master that each port of each bank served last, the last completion of an internal access by master. -/
structure MemCtl where
  bad     : SMap Upset := []
  patrol  : Nat := 0
  scrubNs : Int := 0
  scrubHours : Nat := 24
  wipeAt  : Option Nat := none
  turn    : SMap Nat := []
  commonsBad : SMap Upset := []
  resp    : SMap (Access × List Byte) := []
  lost    : List Nat := []
deriving DecidableEq, Repr

/-- The state of the device. -/
structure State where
  pending : List Instr
  regs    : SMap Word
  mem     : SMap Byte
  gridMem : SMap Byte
  planes  : List Nat
  freeCtr : Nat
  time    : Time
  csi     : SMap CsiPort
  eth     : SMap EthPort
  spi     : SMap SpiPort
  wheel   : SMap WheelIn
  can     : SMap CanCtl
  slots   : SMap CanSlot
  fend    : SMap FendHub
  surfT0  : SMap (Option Nat)
  loops   : SMap LoopBuf
  cores   : SMap Core
  routers : SMap Router
  edges   : SMap Edge
  bell    : BellUnit
  engines : SMap Engine
  bins    : SMap BinUnit
  tt      : Timetable
  grid    : Grid
  trk     : Tracker
  chain   : Chain
  ego     : Ego
  memc    : MemCtl
  ports   : SMap HostPort
  stream  : Stream
  safe    : Safe
  pwr     : Power
  sec     : Trust
deriving DecidableEq, Repr

/-- The device right after PORST_N has risen: every register at its reset value (an empty sparse map), every queue empty. -/
def State.reset : State where
  pending := []
  regs := []
  mem := []
  gridMem := []
  planes := []
  freeCtr := 0
  time := {}
  csi := []
  eth := []
  spi := []
  wheel := []
  can := []
  slots := []
  fend := []
  surfT0 := []
  loops := []
  cores := []
  routers := []
  edges := []
  bell := {}
  engines := []
  bins := []
  tt := {}
  grid := {}
  trk := {}
  chain := {}
  ego := {}
  memc := {}
  ports := []
  stream := {}
  safe := {}
  pwr := { stage := .awaitCoolant, full := true }
  sec := {}

/-- Why the device stops. The spec gives every command an effect, so no command raises a fault and there is none. -/
inductive Fault
deriving DecidableEq, Repr

/-- Why a command has no meaning. -/
inductive Refusal where
  /-- The command is not modelled yet. Raised by a dispatch arm alone; safe: nothing can be proved of the command. -/
  | notModelled (mnemonic : String)
deriving DecidableEq, Repr

end Sys2Proof.Machine
end

