-- ==== Sys2Proof/Machine/Ops.lean ====
section
/-! DEFINITION. The named operations every meaning uses: registers and counters, event and fault bits with their interrupts and
LOG entries, block states, the command slot, and the device memory with its ECC. -/

namespace Sys2Proof.Machine

/-! ### Registers -/

/-- The key of a register of a page. -/
def rk (p o : Nat) : Nat := p * 0x1000 + o
/-- The key of port `h`'s own copy of a register (R356). -/
def copyKey (h p o : Nat) : Nat := 0x100000 * (h + 1) + rk p o
/-- The key of port `h`'s latch of a register (R356, R479). -/
def latchKey (h k : Nat) : Nat := 0x4000000 * (h + 1) + k
/-- The keys of the registers of core `c` (R133) and of router `r` (R162). -/
def coreKey (c o : Nat) : Nat := 0x1000000 + c * 0x100 + o
def rtrKey (r o : Nat) : Nat := 0x2000000 + r * 0x100 + o

def State.rd (s : State) (k : Nat) : Word := SMap.get regReset s.regs k
def State.rdN (s : State) (k : Nat) : Nat := (s.rd k).toNat
def State.wr (s : State) (k : Nat) (v : Word) : State := { s with regs := SMap.set regReset s.regs k v }
def State.wrN (s : State) (k v : Nat) : State := s.wr k (BitVec.ofNat 32 v)

/-- Bits `hi` to `lo` of a register. -/
def State.fld (s : State) (k hi lo : Nat) : Nat := bits (s.rdN k) hi lo
/-- A number with bits `hi` to `lo` replaced. -/
def putBits (n hi lo v : Nat) : Nat :=
  n - bits n hi lo * 2 ^ lo + v % 2 ^ (hi + 1 - lo) * 2 ^ lo
def State.setFld (s : State) (k hi lo v : Nat) : State := s.wrN k (putBits (s.rdN k) hi lo v)
def State.bit (s : State) (k b : Nat) : Bool := (s.rdN k).testBit b
def State.setBit (s : State) (k b : Nat) (v : Bool) : State := s.setFld k b b (if v then 1 else 0)

/-- A 64-bit LO/HI pair. -/
def State.rd64 (s : State) (k : Nat) : Nat := s.rdN k + s.rdN (k + 4) * 2 ^ 32
def State.wr64 (s : State) (k v : Nat) : State := (s.wrN k v).wrN (k + 4) (v / 2 ^ 32)
/-- Counts on a 64-bit counter, which wraps (R479). -/
def State.bump (s : State) (k : Nat) (n : Nat := 1) : State := s.wr64 k (s.rd64 k + n)
/-- Counts on a 32-bit counter, which saturates. -/
def State.sat (s : State) (k : Nat) (n : Nat := 1) : State := s.wrN k (min (s.rdN k + n) 0xFFFFFFFF)
/-- A number held to 32 bits, saturating. -/
def sat32 (n : Nat) : Nat := min n 0xFFFFFFFF
/-- Raises the peak kept in a field. -/
def State.peak (s : State) (k hi lo v : Nat) : State := if s.fld k hi lo < v then s.setFld k hi lo v else s

/-! ### Parts of the state -/

def State.csiAt (s : State) (p : Nat) : CsiPort := SMap.get (fun _ => {}) s.csi p
def State.setCsi (s : State) (p : Nat) (v : CsiPort) : State := { s with csi := SMap.set (fun _ => {}) s.csi p v }
def State.ethAt (s : State) (p : Nat) : EthPort := SMap.get (fun _ => {}) s.eth p
def State.setEth (s : State) (p : Nat) (v : EthPort) : State := { s with eth := SMap.set (fun _ => {}) s.eth p v }
def State.spiAt (s : State) (p : Nat) : SpiPort := SMap.get (fun _ => {}) s.spi p
def State.setSpi (s : State) (p : Nat) (v : SpiPort) : State := { s with spi := SMap.set (fun _ => {}) s.spi p v }
def State.wheelAt (s : State) (p : Nat) : WheelIn := SMap.get (fun _ => {}) s.wheel p
def State.setWheel (s : State) (p : Nat) (v : WheelIn) : State := { s with wheel := SMap.set (fun _ => {}) s.wheel p v }
def State.canAt (s : State) (p : Nat) : CanCtl := SMap.get (fun _ => {}) s.can p
def State.setCan (s : State) (p : Nat) (v : CanCtl) : State := { s with can := SMap.set (fun _ => {}) s.can p v }
def State.slotAt (s : State) (p : Nat) : CanSlot := SMap.get (fun _ => {}) s.slots p
def State.setSlot (s : State) (p : Nat) (v : CanSlot) : State := { s with slots := SMap.set (fun _ => {}) s.slots p v }
def State.fendAt (s : State) (p : Nat) : FendHub := SMap.get (fun _ => {}) s.fend p
def State.setFend (s : State) (p : Nat) (v : FendHub) : State := { s with fend := SMap.set (fun _ => {}) s.fend p v }
def State.t0At (s : State) (p : Nat) : Option Nat := SMap.get (fun _ => none) s.surfT0 p
def State.setT0 (s : State) (p : Nat) (v : Option Nat) : State := { s with surfT0 := SMap.set (fun _ => none) s.surfT0 p v }
def State.loopAt (s : State) (p : Nat) : LoopBuf := SMap.get (fun _ => {}) s.loops p
def State.setLoop (s : State) (p : Nat) (v : LoopBuf) : State := { s with loops := SMap.set (fun _ => {}) s.loops p v }
def State.coreAt (s : State) (p : Nat) : Core := SMap.get (fun _ => {}) s.cores p
def State.setCore (s : State) (p : Nat) (v : Core) : State := { s with cores := SMap.set (fun _ => {}) s.cores p v }
def State.rtrAt (s : State) (p : Nat) : Router := SMap.get (fun _ => {}) s.routers p
def State.setRtr (s : State) (p : Nat) (v : Router) : State := { s with routers := SMap.set (fun _ => {}) s.routers p v }
def State.edgeAt (s : State) (p : Nat) : Edge := SMap.get (fun _ => {}) s.edges p
def State.setEdge (s : State) (p : Nat) (v : Edge) : State := { s with edges := SMap.set (fun _ => {}) s.edges p v }
def State.engAt (s : State) (p : Nat) : Engine := SMap.get (fun _ => {}) s.engines p
def State.setEng (s : State) (p : Nat) (v : Engine) : State := { s with engines := SMap.set (fun _ => {}) s.engines p v }
def State.binAt (s : State) (p : Nat) : BinUnit := SMap.get (fun _ => {}) s.bins p
def State.setBin (s : State) (p : Nat) (v : BinUnit) : State := { s with bins := SMap.set (fun _ => {}) s.bins p v }
def State.portAt (s : State) (p : Nat) : HostPort := SMap.get (fun _ => {}) s.ports p
def State.setPort (s : State) (p : Nat) (v : HostPort) : State := { s with ports := SMap.set (fun _ => {}) s.ports p v }
def State.netAt (s : State) (b : Nat) : NetBase := SMap.get (fun _ => {}) s.time.net b
def State.setNet (s : State) (b : Nat) (v : NetBase) : State :=
  { s with time := { s.time with net := SMap.set (fun _ => {}) s.time.net b v } }

/-- FUSION, integer part, in 1/16 µs (R308). -/
def State.now (s : State) : Nat := s.time.fus / 2 ^ 40

/-- A fresh unstated word. -/
def State.draw (s : State) : Word × State := (Config.freeWord s.freeCtr, { s with freeCtr := s.freeCtr + 1 })

/-- `k` fresh unstated words. -/
def State.drawWords (s : State) : Nat → State × List Word
  | 0 => (s, [])
  | k + 1 =>
    let (w, s) := s.draw
    let (s, ws) := s.drawWords k
    (s, w :: ws)

/-! ### Pages -/

def pgSys : Nat := 0x00
def pgClk : Nat := 0x01
def pgPwr : Nat := 0x02
def pgSafe : Nat := 0x03
def pgSec : Nat := 0x04
def pgTime : Nat := 0x05
def pgQuay : Nat := 0x06
def pgDbg : Nat := 0x07
def pgMem : Nat := 0x0A
def pgCommons : Nat := 0x0B
def pgTT : Nat := 0x0C
def pgGrid : Nat := 0x0D
def pgTrk : Nat := 0x0E
def pgChain : Nat := 0x0F
def pgEgo : Nat := 0x10
def pgFab : Nat := 0x11
def pgEng (e : Nat) : Nat := 0x12 + e
def pgHub (h : Nat) : Nat := 0x18 + h
def pgFend (h : Nat) : Nat := 0x1A + h
def pgCsi (p : Nat) : Nat := 0x20 + p
def pgEth (p : Nat) : Nat := 0x30 + p
def pgImu : Nat := 0x38
def pgWheel : Nat := 0x39
def pgCan (c : Nat) : Nat := 0x3A + c
def pgTrig : Nat := 0x3E
def pgStream : Nat := 0x3F
def pgPort (h : Nat) : Nat := 0x08 + h

/-- Every page with a block (R482). -/
def allPages : List Nat := (List.range 0x40).filter (fun p => (pageKind p).isSome)
/-- The blocks that R365 leaves running. -/
def keptPages : List Nat := [pgSafe, pgSec, pgPwr, pgClk, pgQuay, pgDbg]

/-- BLK_STATE codes (R476). -/
def stOff : Nat := 0
def stIdle : Nat := 1
def stRunning : Nat := 2
def stStopping : Nat := 3
def stDismissing : Nat := 4
def stFaulted : Nat := 5
def stTesting : Nat := 6

/-- SYS_STATE (R480). -/
def State.sysState (s : State) : Nat :=
  if s.fld (rk pgSys 0x100) 3 0 = stDismissing then stDismissing
  else if allPages.any (fun p => p != pgSys && !keptPages.contains p && p != pgMem && p != pgCommons &&
      s.fld (rk p 0x10) 3 0 == stRunning) then stRunning
  else stIdle

/-- A block's BLK_STATE; SYS mirrors SYS_STATE. -/
def State.blk (s : State) (p : Nat) : Nat := if p = pgSys then s.sysState else s.fld (rk p 0x10) 3 0
def State.running (s : State) (p : Nat) : Bool := s.blk p == stRunning
def State.enabled (s : State) (p : Nat) : Bool := s.bit (rk p 0x0C) 0
def State.halted (s : State) (p : Nat) : Bool := s.bit (rk p 0x0C) 1

/-! ### Roles -/

/-- The role of a port: 0 owner, 1 observer, 2 single host, 3 off (R354). -/
def State.role (s : State) (h : Nat) : Nat :=
  match s.fld (rk pgSys 0x104) 1 0 with
  | 0 => if h = 0 then 0 else 1
  | 1 => if h = 0 then 1 else 0
  | 2 => if h = 0 then 2 else 3
  | _ => if h = 0 then 3 else 2
def State.isOwner (s : State) (h : Nat) : Bool := s.role h == 0 || s.role h == 2
/-- The port that owns the device. -/
def State.ownerPort (s : State) : Nat := if s.isOwner 0 then 0 else 1

/-! ### Bytes -/

/-- The bytes of a number, least significant first. -/
def leBytes : Nat → Nat → List Byte
  | 0, _ => []
  | k + 1, n => BitVec.ofNat 8 n :: leBytes k (n / 256)
/-- The number that bytes spell, least significant first. -/
def leNat : List Byte → Nat
  | [] => 0
  | b :: bs => b.toNat + 256 * leNat bs
/-- The bytes of a number, most significant first. -/
def beNat (bs : List Byte) : Nat := leNat bs.reverse
def leInt (k : Nat) (i : Int) : List Byte := leBytes k (ofSigned (8 * k) i)
def zeros (k : Nat) : List Byte := List.replicate k 0
/-- `k` bytes from an offset of a list, as a number. -/
def fieldLE (bs : List Byte) (o k : Nat) : Nat := leNat ((bs.drop o).take k)
def roundUp (n k : Nat) : Nat := (n + k - 1) / k * k

/-! ### Interrupts, LOG entries, event and fault bits -/

/-- The vector of a page (R380). -/
def State.vec (s : State) (h p : Nat) : Nat :=
  bits (s.rdN (rk (pgPort h) (0x200 + p / 4 * 4))) (8 * (p % 4) + 5) (8 * (p % 4))

/-- A word of a fresh MSI-X table: every vector is masked, as PCI Express has it (R376; log 78). -/
def msixReset (k : Nat) : Nat := if k % 4 = 3 then 1 else 0

/-- Word `i` of a vector's MSI-X entry: address low and high, data, vector control (R358, R376; log 78). -/
def HostPort.entry (q : HostPort) (v i : Nat) : Nat := SMap.get msixReset q.msixTbl (4 * v + i)

/-- A vector is masked by bit 0 of its vector control. -/
def HostPort.masked (q : HostPort) (v : Nat) : Bool := (q.entry v 3).testBit 0

/-- The message of a vector, as its entry stands. -/
def HostPort.message (q : HostPort) (v : Nat) : MsixMsg :=
  { vec := v, addr := q.entry v 0 + q.entry v 1 * 2 ^ 32, data := q.entry v 2 }

/-- The held messages of the vectors that are not masked are sent, and their pending bits clear (R376). -/
def HostPort.flushMsix (q : HostPort) : HostPort :=
  { q with
    msixSent := q.msixSent ++ (q.msixPend.filter (fun v => !q.masked v)).map q.message
    msixPend := q.msixPend.filter q.masked }

/-- Sends an MSI-X message; while the link is down or the vector is masked, its pending bit is set instead (R376). -/
def State.msix (s : State) (h v : Nat) : State :=
  let q := s.portAt h
  if q.inReset then s
  else if q.link && !q.masked v then s.setPort h { q with msixSent := q.msixSent ++ [q.message v] }
  else if q.msixPend.contains v then s
  else s.setPort h { q with msixPend := q.msixPend ++ [v] }

/-- The message of a page to a port whose enable copy has the bit (R376, R478). -/
def State.signal (s : State) (p en b : Nat) : State :=
  [0, 1].foldl (fun s h => if s.bit (copyKey h p en) b then s.msix h (s.vec h p) else s) s

/-- An item offered to STREAM: not produced unless STREAM is RUNNING (R366). -/
def State.offer (s : State) (o : Offer) : State :=
  if s.running pgStream then { s with stream := { s.stream with offers := s.stream.offers ++ [o] } } else s

/-- An update of a result window falls due with its content (R374). -/
def State.window (s : State) (w : Nat) (d : List Byte) : State :=
  if s.running pgStream && s.bit (rk pgStream 0x120) w then
    { s with stream := { s.stream with winQ := s.stream.winQ ++ [(w, d)] } }
  else s

/-- The item that the open TAP block makes: its time is the T of its first record, extended (R369). -/
def State.tapItem (s : State) : Option Offer :=
  match s.stream.tap with
  | [] => none
  | r :: _ =>
    let f := s.stream.tapFus
    let back := (f + 2 ^ 32 - r.toNat % 2 ^ 32) % 2 ^ 32
    some {
      ring := 3
      bytes := s.stream.tap.flatMap (fun r => leBytes 16 r.toNat)
      fus := f - back
      unchecked := false
      warm := false }
/-- The open TAP block closes (R369). -/
def State.tapClose (s : State) : State :=
  match s.tapItem with
  | none => s
  | some o => ({ s with stream := { s.stream with tap := [] } }).offer o

/-- A record of sensor `k` reaches the NOC: of each sensor in STREAM_TAP_SENS the first is copied, then every DEC-th (R369). -/
def State.tapTake (s : State) (k : Nat) (r : BitVec 128) : State :=
  let sel := s.rdN (rk pgStream 0x104)
  if !s.running pgStream || !s.bit (rk pgStream 0x100) 3 || !sel.testBit k then s
  else
    let v := SMap.get (fun _ => 0) s.stream.tapSeen k
    let seen (s : State) (n : Nat) : State :=
      { s with stream := { s.stream with tapSeen := SMap.set (fun _ => 0) s.stream.tapSeen k n } }
    if v = 0 || max 1 (bits sel 23 16) ≤ v then
      let s := seen (if 256 ≤ s.stream.tap.length then s.tapClose else s) 1
      let t := s.stream
      { s with stream := { t with tap := t.tap ++ [r], tapFus := if t.tap.isEmpty then s.now else t.tapFus } }
    else seen s (v + 1)

/-- A LOG entry (R369, R494), written at LOG levels from `lvl` up. -/
def State.logAt (s : State) (lvl p cls code : Nat) (args : List Nat) (fus : Nat) : State :=
  if lvl ≤ s.fld (rk pgStream 0x108) 1 0 && s.bit (rk pgStream 0x100) 4 then
    s.offer {
      ring := 4
      bytes := leBytes 1 p ++ leBytes 1 cls ++ leBytes 2 code ++ zeros 4 ++ leBytes 8 fus ++
        leBytes 4 (args.getD 0 0) ++ leBytes 4 (args.getD 1 0) ++ leBytes 4 (args.getD 2 0) ++ leBytes 4 (args.getD 3 0)
      fus := fus
      unchecked := false
      warm := false }
  else s
def State.log (s : State) (lvl p cls code : Nat) (args : List Nat) : State := s.logAt lvl p cls code args s.now

/-- Sets a bit of BLK_EVENTS. -/
def State.event (s : State) (p b : Nat) : State :=
  if s.bit (rk p 0x14) b then s else (s.setBit (rk p 0x14) b true).signal p 0x18 b
/-- CFG_IGNORED, bit 0 of every page that has events (R33). -/
def State.cfgIgnored (s : State) (p : Nat) : State := s.event p 0

/-- The ns since PORST_N, which TB0 counts in the TIME domain and AON while that is off (R322). -/
def State.nsNow (s : State) : Nat := s.time.tb0 + s.time.offNs

/-- Hands SAFE a fault (R388, R497). -/
def State.toSafe (s : State) (src p b inst : Nat) : State :=
  { s with safe := { s.safe with inbox := s.safe.inbox ++
    [{ source := src, page := p, bit := b, inst := inst, fus := s.now, step := s.bell.step }] } }
/-- Sets a bit of BLK_FAULTS; SAFE receives it each time the device sets it. -/
def State.fault (s : State) (p b : Nat) (inst : Nat := 0) : State :=
  let s' := if s.bit (rk p 0x1C) b then s else (s.setBit (rk p 0x1C) b true).signal p 0x20 b
  s'.toSafe 0 p b inst

/-- The faults of a page whose scope is a record end with the record that reports them (R387). -/
def State.recordDone (s : State) (p : Nat) : State :=
  { s with safe := { s.safe with out := s.safe.out.filter (fun o => o.page != p || o.func) } }

/-- Sets BLK_STATE with the LOG entry of a state change; entering OFF, IDLE or FAULTED returns ENABLE to 0 (R475). -/
def State.setBlk (s : State) (p st : Nat) : State :=
  let old := s.blk p
  if old = st then s
  else
    let s1 := s.setFld (rk p 0x10) 3 0 st
    let s2 := if st = stIdle || st = stOff || st = stFaulted then s1.setBit (rk p 0x0C) 0 false else s1
    s2.log 1 p 0 (0x1000 + old * 16 + st) [s2.fld (rk p 0x10) 5 4]

/-! ### The command slot (R361 to R363) -/

def resDone : Nat := 0
def resRefused : Nat := 1
def resBusy : Nat := 2
def resUnknown : Nat := 3
def resRole : Nat := 4
def resDismissed : Nat := 5

def State.busy (s : State) (p : Nat) : Bool := s.bit (rk p 0x2C) 0

/-- A command completes: RESULT, BUSY, the LOG entry of kind 2 with the block's error code, and the issuer's message. -/
def State.cmdDone (s : State) (p res : Nat) (err : Nat := 0) : State :=
  if s.busy p then
    let st := s.rdN (rk p 0x2C)
    let s1 := s.wrN (rk p 0x2C) (putBits (putBits st 23 16 res) 0 0 0)
    let iss := bits st 4 4
    let s2 := s1.log 2 p 0 (0x2000 + bits st 15 8) [res, bits st 31 24, iss, err]
    if s2.bit (rk (pgPort iss) 0x100) 0 then s2.msix iss (s2.vec iss p) else s2
  else s

/-- A command the slot takes: SEQ, CODE, ISSUER and BUSY. -/
def State.cmdAccept (s : State) (h p code : Nat) : State :=
  let seq := (s.fld (rk p 0x2C) 31 24 + 1) % 256
  s.wrN (rk p 0x2C) (seq * 2 ^ 24 + code * 2 ^ 8 + h * 16 + 1)

/-- A write of BLK_CMD by port `h`: the code is kept, and the slot refuses it, completes it at once or runs it (R362).
`role` says that the observer may issue it (R355); a code the
observer may not issue completes with REFUSED_ROLE whether or not it is known (log 66). -/
def State.command (s : State) (h p code : Nat) (role : Bool) (run : Option (State → State)) : State :=
  let s0 := s.wrN (rk p 0x28) code
  if s0.busy p || [stOff, stDismissing, stTesting].contains (s0.blk p) then
    (s0.setBit (rk p 0x2C) 5 true).bump (rk (pgPort h) 0x68)
  else
    let s1 := s0.cmdAccept h p code
    if !s1.isOwner h && !role then s1.cmdDone p resRole
    else match run with
      | none => s1.cmdDone p resUnknown
      | some f => f s1

/-- Argument `i` of the command in the slot: the issuer's copy (R356). -/
def State.arg (s : State) (p i : Nat) : Nat := s.rdN (copyKey (s.fld (rk p 0x2C) 4 4) p (0x30 + 4 * i))
/-- Arguments `i` and `i + 1` as a device address. -/
def State.argAddr (s : State) (p i : Nat) : Nat := (s.arg p i + s.arg p (i + 1) * 2 ^ 32) % 2 ^ 48

/-! ### Host accesses -/

/-- The completion of a host's access, and its data. -/
def State.reply (s : State) (h : Nat) (r : Access) (d : List Byte := []) : State :=
  s.setPort h { s.portAt h with resp := r, data := d }

/-- An access that completes as an Unsupported Request (R31, R471). -/
def State.replyUr (s : State) (h : Nat) : State := (s.reply h .ur).bump (rk (pgPort h) 0x50)
/-- An access that completes as a Completer Abort (R347, R391). -/
def State.replyCa (s : State) (h : Nat) : State := (s.reply h .ca).bump (rk (pgPort h) 0x58)
/-- A write discarded for the port's role (R355). -/
def State.denied (s : State) (h : Nat) : State := s.bump (rk (pgPort h) 0x60)

/-- A host access reaches the device only over a link that is up; in STOP and WAKING it completes as an Unsupported
Request (R354, R408). -/
def State.hostAccess (s : State) (h : Nat) (f : State → State) : State :=
  if (s.portAt h).link && !(s.portAt h).inReset && s.role h != 3 then
    if 2 ≤ s.fld (rk pgPwr 0x104) 1 0 then s.replyUr h else f s
  else s

/-- A host write: served and counted. -/
def State.hostWrite (s : State) (h : Nat) (f : State → State) : State :=
  s.hostAccess h (fun s => (f (s.reply h .done)).bump (rk (pgPort h) 0x48))

/-- A write to a field only the owner may write: the other port's page is denied to both, and the observer is denied, which counts
where the owner's write would have taken effect (`takes`). A reserved page takes no write (R31, R355). -/
def State.ownerWrite (s : State) (h p : Nat) (takes : Bool) (f : State → State) : State :=
  if p = pgPort (1 - h) then s.denied h
  else if (pageKind p).isNone then s
  else if p = pgPort h || s.isOwner h then f s
  else if takes then s.denied h
  else s

/-- A write of BLK_CMD through BAR0 (R355, R362). -/
def State.hostCmd (s : State) (h p code : Nat) (role : Bool) (run : Option (State → State)) : State :=
  s.hostWrite h (fun s =>
    if p = pgPort (1 - h) then s.denied h else if (pageKind p).isNone then s else s.command h p code role run)

/-! ### Device memory (R30) -/

def lpddrEnd : Nat := 0x1E00000000
def commonsBase : Nat := 0x010000000000
def secBase : Nat := 0x010003F00000
def commonsEnd : Nat := 0x010004000000
def engBase (e : Nat) : Nat := 0x011000000000 + e * 0x02000000
def surfBase (h : Nat) : Nat := 0x012000000000 + h * 0x04000000
def surfSize : Nat := 0x03000000
def pagesBase : Nat := 0x013000000000
def winBase : Nat := 0x014000000000
def synBase (c : Nat) : Nat := winBase + c * 0x40000
def rtrBase (r : Nat) : Nat := winBase + 0x10000000 + r * 0x8000

def inLpddr (a n : Nat) : Bool := decide (a + n ≤ lpddrEnd)
def inCommons (a n : Nat) : Bool := decide (commonsBase ≤ a) && decide (a + n ≤ commonsEnd)
/-- In the Commons and clear of bank 63. -/
def inOpenCommons (a n : Nat) : Bool := decide (commonsBase ≤ a) && decide (a + n ≤ secBase)
def touchesSec (a n : Nat) : Bool := decide (a < commonsEnd) && decide (secBase < a + n)
def inEngStore (a n : Nat) : Bool := decide (engBase 0 ≤ a) && decide (a + n ≤ engBase 6)
def inSurf (h a n : Nat) : Bool := decide (surfBase h ≤ a) && decide (a + n ≤ surfBase h + surfSize)
/-- Memory that internal masters reach as bytes. -/
def inStore (a n : Nat) : Bool := inLpddr a n || inCommons a n || inEngStore a n || inSurf 0 a n || inSurf 1 a n

/-- What a byte of memory that nothing has written reads as (log 12). -/
def memDefault (_ : Nat) : Byte := 0
/-- A byte of an evidence plane whose word says: L 0, UNKNOWN, AGE 255 (R229). -/
def planeDefault (a : Nat) : Byte := if a % 4 = 2 then 0xF0 else if a % 4 = 3 then 0x0F else 0
/-- Whether an address lies in an evidence plane that a close has written. -/
def State.inPlane (s : State) (a : Nat) : Bool := s.planes.any (fun b => decide (b ≤ a) && decide (a < b + 0x400000))

def State.byte (s : State) (a : Nat) : Byte :=
  if s.inPlane a then SMap.get planeDefault s.gridMem a else SMap.get memDefault s.mem a
def State.setByte (s : State) (a : Nat) (v : Byte) : State :=
  if s.inPlane a then { s with gridMem := SMap.set planeDefault s.gridMem a v }
  else { s with mem := SMap.set memDefault s.mem a v }
def State.setBytes : State → Nat → List Byte → State
  | s, _, [] => s
  | s, a, b :: bs => State.setBytes (s.setByte a b) (a + 1) bs
def State.bytes (s : State) (a n : Nat) : List Byte := (List.range n).map (fun i => s.byte (a + i))
def State.getLE (s : State) (a n : Nat) : Nat := leNat (s.bytes a n)
def State.putLE (s : State) (a n v : Nat) : State := s.setBytes a (leBytes n v)
/-- Returns a range of plain memory to zeros. -/
def State.zeroMem (s : State) (a n : Nat) : State := { s with mem := SMap.clear s.mem a (a + n) }

/-- The 64-byte lines a range meets. -/
def linesOf (a n : Nat) : Nat := if n = 0 then 0 else (a + n - 1) / 64 - a / 64 + 1

/-- Records the granule of an ECC error, with VALID and its flags (R337). -/
def State.eccLast (s : State) (k g flags : Nat) : State :=
  (s.wrN (rk pgMem k) (g * 32)).wrN (rk pgMem (k + 4)) (g * 32 / 2 ^ 32 + flags + 0x80000000)

/-- Sets the error of a granule. -/
def State.setBad (s : State) (g : Nat) (u : Upset) : State :=
  { s with memc := { s.memc with bad := SMap.set (fun _ => Upset.none) s.memc.bad g u } }

/-- Checks one LPDDR5X granule under R337; the answer says whether it can be used. -/
def State.checkGranule (s : State) (g : Nat) (patrol : Bool := false) : State × Bool :=
  match SMap.get (fun _ => Upset.none) s.memc.bad g with
  | .none => (s, true)
  | .single => ((((s.setBad g .none).eccLast 0x114 g 0).bump (rk pgMem 0x58)).fault pgMem 0, true)
  | .double => (((s.eccLast 0x11C g (if patrol then 0x40000000 else 0)).bump (rk pgMem 0x60)).fault pgMem 1, false)
  | .address =>
    ((((s.eccLast 0x11C g (0x20000000 + if patrol then 0x40000000 else 0)).bump (rk pgMem 0x60)).bump (rk pgMem 0x68)).fault
      pgMem 2, false)

/-- Whether patrol works: MEM is RUNNING and not halted, SCRUB_EN is set, and PWR is in RUN (R339, R340). -/
def State.patrolling (s : State) : Bool :=
  s.running pgMem && !s.halted pgMem && s.bit (rk pgMem 0x100) 0 && s.fld (rk pgPwr 0x104) 1 0 == 0
/-- Granules of 128 GiB raw: 64 to a block of 2,048 bytes, 2²³ blocks to each of 8 subsystems (R335, R339). -/
def rawGranules : Nat := 2 ^ 32
/-- The period of patrol's pass in ns (R339, R350). -/
def State.scrubPeriod (s : State) : Nat := s.memc.scrubHours * 3600 * 10 ^ 9
/-- Granule `i` of a pass is due once its share of the period has gone by, pauses apart (R339, R340). -/
def State.scrubDue (s : State) : Bool := decide ((s.memc.patrol * s.scrubPeriod : Nat) ≤ s.memc.scrubNs * rawGranules)
/-- Patrol trails its pace by more than 1 % (R338; log 80). -/
def State.scrubBehind (s : State) : Bool :=
  s.patrolling && decide ((100 * (s.memc.patrol * s.scrubPeriod) : Nat) < 99 * (s.memc.scrubNs * rawGranules - s.scrubPeriod))

/-- Checks granules in order; the answer says whether all can be used. -/
def State.checkGranules (s : State) (gs : List Nat) : State × Bool :=
  gs.foldl (fun r g => let c := r.1.checkGranule g; (c.1, r.2 && c.2)) (s, true)

/-- Checks every granule with an error that a range meets. -/
def State.checkRange (s : State) (a n : Nat) : State × Bool :=
  s.checkGranules ((s.memc.bad.filter (fun e => a / 32 ≤ e.1 && e.1 * 32 < a + n)).map Prod.fst)

/-- Whole granules that a write covers, and those it has checked, hold good check words again. -/
def State.clearBad (s : State) (a n : Nat) : State :=
  { s with memc := { s.memc with bad := SMap.clear s.memc.bad (a / 32) ((a + n + 31) / 32) } }
def State.clearCommonsBad (s : State) (a n : Nat) : State :=
  { s with memc := { s.memc with commonsBad := SMap.clear s.memc.commonsBad (a / 8) ((a + n + 7) / 8) } }
/-- Sets the error of a word of the Commons. -/
def State.setCommonsBad (s : State) (w : Nat) (u : Upset) : State :=
  { s with memc := { s.memc with commonsBad := SMap.set (fun _ => Upset.none) s.memc.commonsBad w u } }

/-- Checks a word of the Commons whose stored error is `u` (R341). -/
def State.checkCommonsWord (s : State) (w : Nat) (u : Upset) : State × Bool :=
  if u = .single then (((s.setCommonsBad w .none).bump (rk pgCommons 0x68)).toSafe 0 pgCommons 0x80 0, true)
  else ((s.wrN (rk pgCommons 0x118) (0x80000000 + w % 0x800000 * 8)).fault pgCommons 0, false)

/-- Checks the Commons words with an error that a range meets (R341). -/
def State.checkCommons (s : State) (a n : Nat) : State × Bool :=
  (s.memc.commonsBad.filter (fun e => a / 8 ≤ e.1 && e.1 * 8 < a + n)).foldl
    (fun r e => let c := r.1.checkCommonsWord e.1 e.2; (c.1, r.2 && c.2)) (s, true)

/-- Whether a master may reach bank 63 (R347, R348, R353). -/
def State.secGranted (s : State) (m : Nat) (write : Bool) : Bool :=
  !s.bit (rk pgCommons 0x100) 1 && s.bit (rk pgCommons 0x104) (if write then 16 + m else m)

/-- A denied access to bank 63 (R347). -/
def State.secDeny (s : State) (m a : Nat) (write : Bool) : State :=
  let s := s.bump (rk pgCommons 0x70)
  let s := s.wrN (rk pgCommons 0x110) ((a - secBase) / 8 * 8)
  let s := s.wrN (rk pgCommons 0x114) (0x80000000 + (if write then 0x100 else 0) + m)
  s.event pgCommons 2

/-- An access of an internal master to a reserved device address (R31, R480). -/
def State.reservedAccess (s : State) (m a : Nat) : State :=
  let s := s.bump (rk pgSys 0x40)
  let s := s.wrN (rk pgSys 0x108) a
  s.wrN (rk pgSys 0x10C) (0x80000000 + m % 16 * 0x10000 + a / 2 ^ 32 % 0x10000)

/-- Masters 0 to 7 use port A of the Commons (R342). -/
def commonsCtr (m : Nat) (write : Bool) : Nat := 0x40 + (if 8 ≤ m then 0x10 else 0) + (if write then 8 else 0)

/-- The page of a master (R342): BIN's registers lie on ENG0's page, and of the masters that share a number CHAIN and TRK read. The hubs
have none (log 112). -/
def masterPage (m : Nat) : Option Nat :=
  if m < 6 then some (pgEng m)
  else match m with
    | 6 => some pgFab
    | 7 => some (pgEng 0)
    | 8 => some pgTT
    | 9 => some pgTrk
    | 10 => some pgChain
    | 11 => some pgStream
    | 12 => some 8
    | 13 => some 9
    | 14 => some pgDbg
    | 15 => some pgSec
    | _ => none

/-- Whether a fault is an uncorrectable error of LPDDR5X or of the Commons, which gives an error response. -/
def FaultIn.memory (f : FaultIn) : Bool := (f.page == pgMem && (f.bit == 1 || f.bit == 2)) || (f.page == pgCommons && f.bit == 0)
/-- The page a fault is charged to (R391). -/
def FaultIn.charged (f : FaultIn) : Nat := f.rcv.getD f.page
/-- Charges the memories' faults after the first `n` received to the page of the block that got the error response (R391). -/
def State.chargeTo (s : State) (n : Nat) (p : Option Nat) : State :=
  let charge (f : FaultIn) : FaultIn := if f.memory then { f with rcv := p } else f
  { s with safe := { s.safe with inbox := s.safe.inbox.take n ++ (s.safe.inbox.drop n).map charge } }

/-- A read by master `m` for the block of a page: the data, or none for an error response. -/
def State.loadFor (s : State) (p : Option Nat) (m a n : Nat) : State × Option (List Byte) :=
  if inLpddr a n then
    let r := (s.bump (rk pgMem 0x40) (linesOf a n)).checkRange a n
    if r.2 then (r.1, some (r.1.bytes a n)) else (r.1.chargeTo s.safe.inbox.length p, none)
  else if inCommons a n then
    if touchesSec a n && !s.secGranted m false then (s.secDeny m (max a secBase) false, none)
    else
      let r := (s.bump (rk pgCommons (commonsCtr m false)) (linesOf a n)).checkCommons a n
      if r.2 then (r.1, some (r.1.bytes a n)) else (r.1.chargeTo s.safe.inbox.length p, none)
  else if inStore a n then (s, some (s.bytes a n))
  else (s.reservedAccess m a, none)
/-- A read by master `m`. -/
def State.load (s : State) (m a n : Nat) : State × Option (List Byte) := s.loadFor (masterPage m) m a n

/-- An armed injection corrupts the next write to its granule (R351). -/
def State.injectOn (s : State) (a n : Nat) : State :=
  let g := (s.rdN (rk pgMem 0x14C) + s.rdN (rk pgMem 0x150) * 2 ^ 32) / 32
  if a / 32 ≤ g && g * 32 < a + n && s.rdN (rk pgMem 0x148) % 4 ≠ 0 then
    let dbl := s.bit (rk pgMem 0x148) 1
    (s.setBad g (if dbl then .double else .single)).setBit (rk pgMem 0x148) (if dbl then 1 else 0) false
  else s

/-- The granules a range writes in part. -/
def partialGranules (a n : Nat) : List Nat :=
  if n = 0 then []
  else
    let l := a / 32
    let h := (a + n - 1) / 32
    (if a % 32 ≠ 0 || (l = h && n < 32) then [l] else []) ++
      (if h ≠ l && (a + n) % 32 ≠ 0 then [h] else [])

/-- The words of the Commons with an error that a range writes in part. -/
def State.partialWords (s : State) (a n : Nat) : List (Nat × Upset) :=
  s.memc.commonsBad.filter (fun e => decide (a < e.1 * 8 + 8) && decide (e.1 * 8 < a + n) && (decide (e.1 * 8 < a) || decide (a + n < e.1 * 8 + 8)))

/-- Checks those words, into which the bytes merge (R341; log 111). -/
def State.checkPartial (s : State) (a n : Nat) : State × Bool :=
  (s.partialWords a n).foldl (fun r e => let c := r.1.checkCommonsWord e.1 e.2; (c.1, r.2 && c.2)) (s, true)

/-- A write by master `m`; the answer says whether it was applied. A partial write of a granule reads it first (R337). -/
def State.store (s : State) (m a : Nat) (bs : List Byte) : State × Bool :=
  let n := bs.length
  if inLpddr a n then
    let parts := partialGranules a n
    let r := ((s.bump (rk pgMem 0x48) (linesOf a n)).bump (rk pgMem 0x50) parts.length).checkGranules parts
    if r.2 then (((r.1.clearBad a n).setBytes a bs).injectOn a n, true) else (r.1.chargeTo s.safe.inbox.length (masterPage m), false)
  else if inCommons a n then
    if touchesSec a n && !s.secGranted m true then (s.secDeny m (max a secBase) true, false)
    else
      let r := (s.bump (rk pgCommons (commonsCtr m true)) (linesOf a n)).checkPartial a n
      if r.2 then ((r.1.clearCommonsBad a n).setBytes a bs, true) else (r.1.chargeTo s.safe.inbox.length (masterPage m), false)
  else if inStore a n then (s.setBytes a bs, true)
  else (s.reservedAccess m a, false)

/-- A write whose error response changes nothing in the writer. -/
def State.put (s : State) (m a : Nat) (bs : List Byte) : State := (s.store m a bs).1

/-! ### Triggers (R198, R200) -/

/-- Whether two ranges, each a start and a length, share a byte. -/
def spansMeet (a b : Nat × Nat) : Bool := decide (a.1 < b.1 + b.2) && decide (b.1 < a.1 + a.2)

/-- The slots whose model has a trigger source; EPOCH has no parameter. -/
def State.listeners (s : State) (source param : Nat) : List (Nat × Slot) :=
  ((List.range 8).map (fun m => (m, SMap.get (fun _ => {}) s.tt.slots m))).filter (fun q => match q.2.image with
    | some i => i.trig.source == source && (source == 4 || i.trig.param == param)
    | none => false)

/-- A trigger source fires with its input buffer. -/
def State.sourceFires (s : State) (source param buf : Nat) : State :=
  { s with tt := { s.tt with fired := s.tt.fired ++
    (s.listeners source param).map (fun q => { model := q.1, at_ := s.time.tb0, buf := buf, span := [(buf, 1)] }) } }

/-- A trigger source begins to write ranges: the invocations whose input they meet are noted. -/
def State.sourceRewrites (s : State) (source param : Nat) (span : List (Nat × Nat)) : State :=
  { s with tt := { s.tt with rewritten := s.tt.rewritten ++ (s.listeners source param).filterMap (fun q => match q.2.inv with
    | some i => if i.span.any (fun a => span.any (fun b => spansMeet a b)) then some (q.1, i.trigTime) else none
    | none => none) } }

/-- A point batch has been written: a model's POINTS trigger fires with the span of its N batches since the last firing. -/
def State.batchWritten (s : State) (p : Nat) (span : List (Nat × Nat)) : State :=
  (s.listeners 3 p).foldl (fun s q =>
    let bs := q.2.batches ++ [span]
    let n := (q.2.image.map (fun i => i.trig.count)).getD 1
    let fire := decide (n ≤ bs.length)
    let all := bs.flatten
    let f : Firing := { model := q.1, at_ := s.time.tb0, buf := ((all.head?).map (·.1)).getD 0, span := all }
    { s with tt := { s.tt with
        slots := SMap.set (fun _ => {}) s.tt.slots q.1 { q.2 with batches := if fire then [] else bs }
        fired := if fire then s.tt.fired ++ [f] else s.tt.fired } }) s

/-- Master numbers (R342). -/
def mFab : Nat := 6
def mBin : Nat := 7
def mTT : Nat := 8
def mTrk : Nat := 9
def mEgo : Nat := 10
def mStream : Nat := 11
def mMgmt : Nat := 14
def mSec : Nat := 15
/-- The hubs' writes of lines, points and frames reach LPDDR5X alone and have no Commons number; they are charged to none
of R342's masters that a grant could name (log 13). -/
def mHub : Nat := 16

end Sys2Proof.Machine
end

