-- ==== Sys2Proof/Machine/Operands.lean ====
section
/-! DEFINITION. Operand forms: the field locators of the event decoder and of the point parser, and how a raw field becomes a
number. -/

namespace Sys2Proof.Machine

/-- What a command answers. -/
abbrev Out := Host.Outcome State Fault Refusal

/-- A field of an event word: offset and width; width 0 is an absent field, which reads 0 (R47). -/
structure Loc where
  off : Nat := 0
  w   : Nat := 0
deriving DecidableEq, Repr

def Loc.get (l : Loc) (word : Nat) : Nat := word / 2 ^ l.off % 2 ^ l.w
/-- The locator that a register holds (R47). -/
def Loc.ofReg (n : Nat) : Loc := { off := bits n 5 0, w := bits n 13 8 }

/-- The word types of the event decoder (R43). -/
inductive WordType where
  | event | timeHi | row | vector | trigger
deriving DecidableEq, Repr

/-- A format descriptor (R42, R47, R49). -/
structure Desc where
  wb     : Nat := 4
  swap   : Bool := false
  polInv : Bool := false
  type   : Loc
  codes  : List (Nat × WordType)
  x      : Loc := {}
  y      : Loc := {}
  pol    : Loc := {}
  tlo    : Loc := {}
  thi    : Loc := {}
  xb     : Loc := {}
  bitmap : Loc := {}
deriving DecidableEq, Repr

def descDirect : Desc := {
  type := ⟨0, 3⟩, codes := [(1, .event), (6, .timeHi), (3, .trigger)], x := ⟨3, 11⟩, y := ⟨14, 11⟩, pol := ⟨25, 1⟩,
  tlo := ⟨26, 6⟩, thi := ⟨3, 29⟩ }
def descRow : Desc := {
  type := ⟨0, 3⟩, codes := [(4, .row), (2, .vector), (6, .timeHi), (3, .trigger)], y := ⟨3, 11⟩, pol := ⟨14, 1⟩,
  tlo := ⟨15, 6⟩, thi := ⟨3, 29⟩, xb := ⟨3, 11⟩, bitmap := ⟨14, 16⟩ }
def descCasren : Desc := {
  type := ⟨30, 2⟩, codes := [(0, .event), (1, .timeHi), (2, .trigger)], x := ⟨10, 10⟩, y := ⟨20, 10⟩, pol := ⟨9, 1⟩,
  tlo := ⟨0, 9⟩, thi := ⟨0, 30⟩ }

/-- The types that CSI_DESC_CODES enables, with their codes. -/
def descCodes (n : Nat) : List (Nat × WordType) :=
  [(0, WordType.event), (1, .timeHi), (2, .row), (3, .vector), (4, .trigger)].filterMap (fun e =>
    if n.testBit (20 + e.1) then some (bits n (4 * e.1 + 3) (4 * e.1), e.2) else none)

def distinctCodes : List (Nat × WordType) → Bool
  | [] => true
  | e :: es => !(es.any (fun f => f.1 == e.1)) && distinctCodes es

/-- The custom descriptor of a port, where it is valid (R48). -/
def State.customDesc (s : State) (p : Nat) : Option Desc :=
  let pg := pgCsi p
  let word := s.rdN (rk pg 0x10C)
  let loc (i : Nat) := Loc.ofReg (s.rdN (rk pg (0x118 + 4 * i)))
  let wbits := 16 * 2 ^ bits word 1 0
  let codes := descCodes (s.rdN (rk pg 0x110))
  if bits word 1 0 = 3 || (List.range 8).any (fun i => (loc i).w ≠ 0 && (32 < (loc i).w || wbits < (loc i).off + (loc i).w)) ||
      12 < (loc 1).w || 12 < (loc 2).w || 12 < (loc 6).w || s.rdN (rk pg 0x114) % 65536 = 0 || !distinctCodes codes then none
  else some {
    wb := wbits / 8, swap := word.testBit 2, polInv := word.testBit 3, type := loc 0, codes := codes, x := loc 1, y := loc 2,
    pol := loc 3, tlo := loc 4, thi := loc 5, xb := loc 6, bitmap := loc 7 }

/-- The descriptor that CSI_DESC_SEL selects (R42). -/
def State.csiDesc (s : State) (p : Nat) : Option Desc :=
  match s.fld (rk (pgCsi p) 0x108) 1 0 with
  | 1 => some descDirect
  | 2 => some descRow
  | 3 => some descCasren
  | _ => s.customDesc p

/-- A point locator (R57). -/
structure PLoc where
  en   : Bool
  be   : Bool
  fmt  : Nat
  boff : Nat
deriving DecidableEq, Repr

def PLoc.ofReg (n : Nat) : PLoc := { en := n.testBit 31, be := n.testBit 16, fmt := bits n 15 12, boff := bits n 11 0 }
/-- The bytes of a field: formats 6 to 15 are reserved and taken as four bytes (log 14). -/
def PLoc.size (l : PLoc) : Nat := if l.fmt = 0 then 1 else if l.fmt = 1 || l.fmt = 3 then 2 else 4

/-- The raw code of a field, where its bytes lie within the data. -/
def PLoc.code (l : PLoc) (d : List Byte) : Option Nat :=
  if l.en && l.boff + l.size ≤ d.length then
    let bs := (d.drop l.boff).take l.size
    some (if l.be then beNat bs else leNat bs)
  else none

/-- The raw value of a field as an integer; an FP32 field by its floor, 0 where it has none. An absent field reads 0. -/
def PLoc.int (l : PLoc) (d : List Byte) : Int :=
  match l.code d with
  | none => 0
  | some c =>
    if l.fmt = 3 then toSigned 16 c
    else if l.fmt = 4 then toSigned 32 c
    else if l.fmt = 5 then (ffloor (BitVec.ofNat 32 c)).getD 0
    else c

/-- The raw value of a field as FP32. -/
def PLoc.fp (l : PLoc) (d : List Byte) : Word :=
  match l.code d with
  | none => 0
  | some c => if l.fmt = 5 then BitVec.ofNat 32 c else fofInt (l.int d)

/-- The ranges that `n` bytes take in a ring of `size` bytes from an offset on, past its end from its start. -/
def ringSpan (base size off n : Nat) : List (Nat × Nat) :=
  if size = 0 then []
  else if off % size + n ≤ size then [(base + off % size, n)]
  else [(base + off % size, size - off % size), (base, min size (off % size + n - size))]
/-- Writes bytes into a ring of `size` bytes at an offset, going on at the ring's start past its end; the answer holds the
next offset. -/
def State.ringPut (s : State) (base size off : Nat) (bs : List Byte) : State × Nat :=
  if size = 0 then (s, 0)
  else
    let a := off % size
    let first := bs.take (size - a)
    let rest := bs.drop (size - a)
    let s1 := s.put mHub (base + a) first
    (if rest.isEmpty then s1 else s1.put mHub base (rest.take size), (a + bs.length) % size)

end Sys2Proof.Machine
end

