-- ==== Sys2Proof/Machine/Fend.lean ====
section
/-! DEFINITION. The event front ends (R78 to R105): the pipeline of one event, the surface store's clear and sweep, and
readiness. -/

namespace Sys2Proof.Machine

/-- A register of local sensor `k` of front end `h` (R104). -/
def fk (h k o : Nat) : Nat := rk (pgFend h) (0x100 + k * 0x80 + o)

def State.sensW (s : State) (h k : Nat) : Nat := s.fld (fk h k 4) 11 0 + 1
def State.sensH (s : State) (h k : Nat) : Nat := s.fld (fk h k 4) 27 16 + 1
def State.sensEn (s : State) (h k : Nat) : Bool := s.bit (fk h k 0) 0
/-- RUNNING in FEND_SENS_STATUS. -/
def State.sensLive (s : State) (h k : Nat) : Bool := s.bit (fk h k 0x54) 0
def State.sensClearing (s : State) (h k : Nat) : Bool := s.bit (fk h k 0x54) 1

/-- Addresses of a sensor's SURF, RECT and STATE entries (R81). -/
def State.surfAddr (s : State) (h k p x y : Nat) : Nat :=
  surfBase h + s.fld (fk h k 0x10) 13 0 * 4096 + ((p * s.sensH h k + y) * s.sensW h k + x) * 2
def State.rectAddr (s : State) (h k x y : Nat) : Nat :=
  surfBase h + s.fld (fk h k 0x14) 13 0 * 4096 + (y * s.sensW h k + x) * 4
def State.stateAddr (s : State) (h k x y : Nat) : Nat :=
  surfBase h + s.fld (fk h k 0x18) 13 0 * 4096 + (y * s.sensW h k + x)

/-- The needed regions of a sensor as start and size within the store (R81). -/
def State.sensRegions (s : State) (h k : Nat) : List (Nat × Nat) :=
  let wh := s.sensW h k * s.sensH h k
  [(s.fld (fk h k 0x10) 13 0 * 4096, 4 * wh), (s.fld (fk h k 0x18) 13 0 * 4096, wh)] ++
    (if s.bit (fk h k 0) 1 then [(s.fld (fk h k 0x14) 13 0 * 4096, 4 * wh)] else [])

/-- Whether any two entries of a list overlap. -/
def anyMeet : List (Nat × Nat) → Bool
  | [] => false
  | a :: as => as.any (spansMeet a) || anyMeet as

/-- Whether the enable of a sensor is refused (R81, R104). -/
def State.sensRefused (s : State) (h k : Nat) : Bool :=
  let rs := s.sensRegions h k
  let tau := s.fld (fk h k 8) 19 16
  let fmin := s.fld (fk h k 0xC) 19 16
  let win := s.fld (fk h k 0x1C) 9 0
  let derot := s.bit (fk h k 0) 2
  decide (tau < 10) || s.fld (fk h k 0xC) 14 0 == 0 || decide (fmin < 3) || win == 0 || decide (1000 < win) ||
    (derot && (!s.bit (fk h k 0) 1 || fle (fabs (s.rd (fk h k 0x20))) 0 || fle (fabs (s.rd (fk h k 0x24))) 0)) ||
    rs.any (fun r => decide (surfSize < r.1 + r.2)) || anyMeet rs ||
    (List.range 8).any (fun j => j != k && s.sensEn h j && rs.any (fun a => (s.sensRegions h j).any (spansMeet a)))

/-! ### The warm conditions (R268, R269) -/

/-- TERM is the regime in force. -/
def State.inTerm (s : State) : Bool := s.bit (rk pgTrk 0x12C) 0
/-- Whether the warm conditions other than the regime hold, as TRK_WARM_REQ requires them (R268). -/
def State.warmHolds (s : State) : Bool :=
  let req (b : Nat) : Bool := s.bit (rk pgTrk 0x128) b
  (!req 0 || s.bit (rk pgEgo 0x15C) 0) &&
    (!req 1 || [0, 1].all (fun h => (List.range 8).all (fun k => !s.bit (fk h k 0) 0 || s.bit (fk h k 0x54) 2))) &&
    (!req 2 || s.bit (rk pgGrid 0x114) 3)
/-- The WARM flag as it stands (R269). -/
def State.warmFlag (s : State) : Bool := !(s.warmHolds && (!s.bit (rk pgTrk 0x128) 3 || s.inTerm))
/-- TRK_STATUS.WARM, which follows the conditions while TRK is RUNNING, with WARM_SET and WARM_CLEAR (log 76). -/
def State.warmShow (s : State) : State :=
  let w := s.warmFlag
  if !s.running pgTrk || w == s.bit (rk pgTrk 0x12C) 1 then s
  else (s.setBit (rk pgTrk 0x12C) 1 w).event pgTrk (if w then 4 else 5)

/-! ### A sensor's enable and clear -/

/-- An enable is judged: on refusal EN reads back 0 (R81). -/
def State.sensJudge (s : State) (h k : Nat) : State :=
  if s.sensRefused h k then (((s.setBit (fk h k 0) 0 false).setBit (fk h k 0x54) 5 true).event (pgFend h) 1)
  else (s.setBit (fk h k 0x54) 5 false).warmShow

/-- A sensor stops running: RUNNING, CLEARING, SURF_WARM and DEROT_ACTIVE clear (R101). -/
def State.sensStop (s : State) (h k : Nat) : State :=
  let f := s.fendAt h
  (((s.setFld (fk h k 0x54) 3 0 0).setT0 (8 * h + k) none).setFend h
    { f with clearEnd := SMap.set (fun _ => 0) f.clearEnd k 0 }).warmShow

/-- The clear of a sensor's regions starts: one sensor after the other, 64 bytes per HUB cycle of 1 ns (R83). -/
def State.clearing (s : State) (sensor : Nat) : State :=
  let h := sensor / 8
  let k := sensor % 8
  if !s.sensEn h k || !s.running (pgFend h) || s.sensLive h k || s.sensClearing h k then s
  else
    let s := s.sensJudge h k
    if !s.sensEn h k then s
    else
      let f := s.fendAt h
      let start := (f.clearEnd.map (·.2)).foldl max s.time.tb0
      let n := (5 * s.sensW h k * s.sensH h k + 63) / 64
      ((s.setFld (fk h k 0x54) 3 1 1).setT0 sensor none).setFend h
        { f with clearEnd := SMap.set (fun _ => 0) f.clearEnd k (start + n) }

/-- Every SURF entry becomes 0xFFFF; every STATE byte keeps STATIC alone (R83). -/
def State.clearRegions (s : State) (h k : Nat) : State :=
  let wh := s.sensW h k * s.sensH h k
  let s := s.setBytes (s.surfAddr h k 0 0 0) (List.replicate (4 * wh) 0xFF)
  let a := s.stateAddr h k 0 0
  (List.range wh).foldl (fun s i => s.setByte (a + i) (s.byte (a + i) &&& 0x80)) s

/-- The clear ends and the sensor runs (R83); it has used no angular rate yet (R92). -/
def State.clearDone (s : State) (sensor : Nat) : State :=
  let h := sensor / 8
  let k := sensor % 8
  let f := s.fendAt h
  if !s.sensClearing h k || s.time.tb0 < SMap.get (fun _ => 0) f.clearEnd k then s
  else
    ((s.clearRegions h k).setFld (fk h k 0x54) 3 0 1).setFend h { f with clearEnd := SMap.set (fun _ => 0) f.clearEnd k 0 }

/-! ### Time surfaces -/

/-- The whole µs of a T field that a SURF entry keeps (R87). -/
def surfNow (t : Nat) : Nat := t / 16 % 65536
def surfStored (now : Nat) : Nat := if now = 0xFFFF then 0xFFFE else now

/-- How a SURF entry reads at a time: none where stale, else the age (R87). -/
def surfAge (now v : Nat) : Option Nat :=
  let d := (now + 65536 - v) % 65536
  if v = 0xFFFF then none
  else if d ≤ 32767 then some d
  else if d ≤ 61439 then none
  else some 0
/-- Whether an entry reads as newer than the event (R89). -/
def surfNewer (now v : Nat) : Bool := v != 0xFFFF && decide (61440 ≤ (now + 65536 - v) % 65536)

/-- The ages at an offset of the event's pixel; none outside the sensor (R93). -/
def State.patchAge (s : State) (h k p x y now : Nat) (dx dy : Int) : Option Nat :=
  let xx := (x : Int) + dx
  let yy := (y : Int) + dy
  if xx < 0 || yy < 0 || (s.sensW h k : Int) ≤ xx || (s.sensH h k : Int) ≤ yy then none
  else surfAge now (s.getLE (s.surfAddr h k p xx.toNat yy.toNat) 2)

/-- The offsets from `-n` to `n`. -/
def offsets (n : Nat) : List Int := (List.range (2 * n + 1)).map (fun (i : Nat) => (i : Int) - n)

/-! ### Corner score and flow -/

/-- R93, step 1. -/
def recency (tau : Nat) : Option Nat → Nat
  | none => 0
  | some a => if a < 2 ^ tau then min 255 ((2 ^ tau - a) / 2 ^ (tau - 8)) else 0

/-- R93, step 5. -/
def cornerCode (hv : Int) : Nat :=
  if hv ≤ 0 then 0
  else
    let n := hv.toNat
    let e := Nat.log2 n
    4 * e + (4 * n / 2 ^ e - 4) + 1

/-- The corner score of a patch of recencies (R93). -/
def cornerScore (a : Int → Int → Int) : Nat :=
  let g := (offsets 3).flatMap (fun j => (offsets 3).map (fun i =>
    ((a (i + 1) (j - 1) + 2 * a (i + 1) j + a (i + 1) (j + 1)) - (a (i - 1) (j - 1) + 2 * a (i - 1) j + a (i - 1) (j + 1)),
     (a (i - 1) (j + 1) + 2 * a i (j + 1) + a (i + 1) (j + 1)) - (a (i - 1) (j - 1) + 2 * a i (j - 1) + a (i + 1) (j - 1)))))
  let sxx := (g.map (fun d => d.1 * d.1)).sum
  let syy := (g.map (fun d => d.2 * d.2)).sum
  let sxy := (g.map (fun d => d.1 * d.2)).sum
  cornerCode (sxx * syy - sxy * sxy - Int.fdiv ((sxx + syy) * (sxx + syy)) 16)

/-- The plane fit of R94 over positions (dx, dy, age): the sums are exact, the rest is FP32 by Cramer's rule on the centred normal
equations (log 22). -/
def flowFit (fmin resid : Nat) (pts : List (Int × Int × Nat)) : Option (Nat × Nat) :=
  let n : Int := pts.length
  let sum (f : Int × Int × Nat → Int) : Int := (pts.map f).sum
  let sx := sum (·.1)
  let sy := sum (·.2.1)
  let st := sum (fun q => -(q.2.2 : Int))
  let sxt := sum (fun q => -(q.1 * q.2.2))
  let syt := sum (fun q => -(q.2.1 * q.2.2))
  let uxx := n * sum (fun q => q.1 * q.1) - sx * sx
  let uyy := n * sum (fun q => q.2.1 * q.2.1) - sy * sy
  let uxy := n * sum (fun q => q.1 * q.2.1) - sx * sy
  let det := uxx * uyy - uxy * uxy
  if pts.length < fmin || det = 0 then none
  else
    let uxt := fsub (fmul (fofInt n) (fofInt sxt)) (fmul (fofInt sx) (fofInt st))
    let uyt := fsub (fmul (fofInt n) (fofInt syt)) (fmul (fofInt sy) (fofInt st))
    let a := fdiv (fsub (fmul uxt (fofInt uyy)) (fmul uyt (fofInt uxy))) (fofInt det)
    let b := fdiv (fsub (fmul uyt (fofInt uxx)) (fmul uxt (fofInt uxy))) (fofInt det)
    let c := fdiv (fsub (fsub (fofInt st) (fmul a (fofInt sx))) (fmul b (fofInt sy))) (fofInt n)
    let g2 := fadd (fmul a a) (fmul b b)
    let code (v : Word) : Option Int := (fround (fdiv (fmul (fofInt 1000) v) g2) 6)
    let err (q : Int × Int × Nat) : Word :=
      fsub (fofInt (-(q.2.2 : Int))) (fadd (fadd (fmul a (fofInt q.1)) (fmul b (fofInt q.2.1))) c)
    let rms := fsqrt (fdiv (pts.foldl (fun t q => fadd t (fmul (err q) (err q))) 0) (fofInt n))
    match code a, code b with
    | some cx, some cy =>
      if fle g2 0 || cx < -2047 || 2047 < cx || cy < -2047 || 2047 < cy || (resid != 0 && !fle rms (fofInt resid)) then none
      else some (ofSigned 12 cx, ofSigned 12 cy)
    | _, _ => none

/-! ### De-rotation -/

/-- R91: codes of RX and RY after the warp; none where a result lies outside the coordinate range. The products are FP32 in the
order of the formulas; the window times are exact (log 23). -/
def derotate (rx ry tf win : Nat) (w rcv : List Word) (fx fy cx cy : Word) : Option (Nat × Nat) :=
  let row (r : Nat) : Word :=
    fadd (fadd (fmul (rcv.getD (3 * r) 0) (w.getD 0 0)) (fmul (rcv.getD (3 * r + 1) 0) (w.getD 1 0)))
      (fmul (rcv.getD (3 * r + 2) 0) (w.getD 2 0))
  let x := fdiv (fsub (fofInt rx (-4)) cx) fx
  let y := fdiv (fsub (fofInt ry (-4)) cy) fy
  let xy := fmul x y
  let u := fmul fx (fadd (fsub (fmul xy (row 0)) (fmul (fadd fone (fmul x x)) (row 1))) (fmul y (row 2)))
  let v := fmul fy (fsub (fsub (fmul (fadd fone (fmul y y)) (row 0)) (fmul xy (row 1))) (fmul x (row 2)))
  let dt := fofInt ((tf / (16 * win) + 1) * (16 * win) - tf) (-4)
  match fround (fadd (fofInt rx (-4)) (fmul u dt)) 4, fround (fadd (fofInt ry (-4)) (fmul v dt)) 4 with
  | some nx, some ny => if nx < 0 || ny < 0 || 65535 < nx || 65535 < ny then none else some (nx.toNat, ny.toNat)
  | _, _ => none

/-! ### Shedding -/

/-- The step period in FUSION units. -/
def State.stepP (s : State) : Nat := 16 * (s.fld (rk pgFab 0x100) 5 0 + 1)
/-- The nominal end of a step (R21, R26): the step that is open or was last, or a later one. -/
def State.stepEnd (s : State) (n : Nat) : Nat :=
  if n < s.bell.nextStep then s.bell.endFus else s.bell.nextEnd + (n - s.bell.nextStep) * s.stepP

/-- The step whose ingest window contains a FUSION time: [E(n) − 2P, E(n) − P) (R21); no window that has been closed is taken,
and none lies before the first step's. -/
def State.windowAt (s : State) (t : Nat) : Option Nat :=
  if !s.bell.started || t < s.bell.firstWin then none
  else
    let n : Int := (s.bell.nextStep : Int) + Int.fdiv ((t : Int) - ((s.bell.nextEnd : Int) - 2 * s.stepP)) s.stepP
    some (max n.toNat s.bell.winStep)

/-- The shed class of an event (R97); while the regions are stale it lies outside all of them (R98). -/
def State.shedClass (s : State) (h k rx ry : Nat) : Nat :=
  let inside := (s.loopAt (5 + 8 * h + k)).fresh && (List.range 32).any (fun r =>
    let a := s.rdN (rk (pgFend h) (0x800 + k * 0x100 + 8 * r))
    let b := s.rdN (rk (pgFend h) (0x800 + k * 0x100 + 8 * r + 4))
    bits a 15 0 ≤ rx / 16 && rx / 16 ≤ bits a 31 16 && bits b 15 0 ≤ ry / 16 && ry / 16 ≤ bits b 31 16)
  2 * s.fld (fk h k 0) 10 8 + (if inside then 1 else 0)

/-- A shed event is counted (R99). -/
def State.fendShed (s : State) (h k : Nat) : State :=
  let s := (s.bump (rk (pgFend h) 0x70)).bump (fk h k 0x68)
  match s.windowAt s.now with
  | none => s
  | some n =>
    let f := s.fendAt h
    s.setFend h { f with shed := SMap.set (fun _ => 0) f.shed n (SMap.get (fun _ => 0) f.shed n + 1) }

/-- The ZF128 record (R96). -/
def zf128 (w : DWord) (rx ry corner fx fy : Nat) : BitVec 128 :=
  BitVec.ofNat 128 (rx % 65536 * 2 ^ 112 + ry % 65536 * 2 ^ 96 + corner % 256 * 2 ^ 88 + fx % 4096 * 2 ^ 76 + fy % 4096 * 2 ^ 64 +
    w.toNat)

/-- Stage 10: the record goes to the fabric's edges, the binner and the TAP selection. -/
def State.fendEmit (s : State) (h k : Nat) (r : BitVec 128) : State :=
  let f := s.fendAt h
  (((s.setFend h { f with edgeQ := f.edgeQ ++ [r], binQ := f.binQ ++ [r] }).tapTake (8 * h + k) r).bump (rk (pgFend h) 0x78)).bump
    (fk h k 0x60)

/-! ### The pipeline of one event -/

/-- Stage 3: the pixel's count and masks; the answer says whether the event goes on (R85). -/
def State.fendPixel (s : State) (h k x y : Nat) : State × Bool :=
  let a := s.stateAddr h k x y
  let b := (s.byte a).toNat
  let lim := s.fld (fk h k 8) 13 8
  let c := min (b % 64 + 1) 63
  let auto := b.testBit 6 || (lim != 0 && decide (lim < c))
  let s := s.setByte a (BitVec.ofNat 8 (b / 128 * 128 + (if auto then 64 else 0) + c))
  (s, !(auto || (b.testBit 7 && s.bit (fk h k 0) 5)))

/-- Stage 4: whether the pixel fired too recently, in either polarity (R88). -/
def State.fendTooSoon (s : State) (h k x y now : Nat) : Bool :=
  let r := s.fld (fk h k 8) 7 0
  [0, 1].any (fun p => match surfAge now (s.getLE (s.surfAddr h k p x y) 2) with
    | some a => decide (a < r)
    | none => false)

/-- Stage 5: the rectified position (R90). -/
def State.fendRect (s : State) (h k x y : Nat) : Option (Nat × Nat) :=
  if s.bit (fk h k 0) 1 then
    let e := s.getLE (s.rectAddr h k x y) 4
    if e = 0xFFFFFFFF then none else some (e / 65536, e % 65536)
  else some (x * 16, y * 16)

/-- Stage 6: the warp, or the position unchanged and counted while no fresh rate is in use (R91, R92). -/
def State.fendDerot (s : State) (h k tf rx ry : Nat) : State × Option (Nat × Nat) :=
  if !s.bit (fk h k 0) 2 then (s, some (rx, ry))
  else if s.bit (fk h k 0x54) 3 then
    (s, derotate rx ry tf (s.fld (fk h k 0x1C) 9 0) (((s.loopAt h).adopted.map (·.words)).getD [])
      ((List.range 9).map (fun i => s.rd (fk h k (0x30 + 4 * i)))) (s.rd (fk h k 0x20)) (s.rd (fk h k 0x24))
      (s.rd (fk h k 0x28)) (s.rd (fk h k 0x2C)))
  else (s.sat (fk h k 0x74), some (rx, ry))

/-- Stage 7: the surface write, and the first event after a clear (R89, R101). -/
def State.fendSurface (s : State) (h k p x y now tf : Nat) : State :=
  let a := s.surfAddr h k p x y
  let s := if surfNewer now (s.getLE a 2) then s.sat (fk h k 0x78) else s.putLE a 2 (surfStored now)
  if (s.t0At (8 * h + k)).isNone then s.setT0 (8 * h + k) (some tf) else s

/-- Stage 8, corner: 0 with CORNER_EN = 0 (R93). -/
def State.fendCorner (s : State) (h k p x y now : Nat) : Nat :=
  if s.bit (fk h k 0) 3 then
    cornerScore (fun i j => (recency (s.fld (fk h k 8) 19 16) (s.patchAge h k p x y now i j) : Int))
  else 0

/-- Stage 8, flow: the codes and whether the event has an invalid flow that counts (R94). -/
def State.fendFlow (s : State) (h k p x y now : Nat) : Nat × Nat × Bool :=
  if s.bit (fk h k 0) 4 then
    let tau := s.fld (fk h k 0xC) 14 0
    let pts := (offsets 2).flatMap (fun dy => (offsets 2).filterMap (fun dx =>
      match s.patchAge h k p x y now dx dy with
      | some a => if a < tau || (dx = 0 && dy = 0) then some (dx, dy, a) else none
      | none => if dx = 0 && dy = 0 then some (dx, dy, 0) else none))
    match flowFit (s.fld (fk h k 0xC) 19 16) (s.fld (fk h k 0xC) 31 20) pts with
    | some (a, b) => (a, b, false)
    | none => (0x800, 0x800, true)
  else (0x800, 0x800, false)

/-- Stages 7 to 10 of an event with its position. -/
def State.fendFinish (s : State) (h k : Nat) (w : DWord) (p x y now tf rx ry : Nat) : State :=
  let s := s.fendSurface h k p x y now tf
  let corner := s.fendCorner h k p x y now
  let (fx, fy, bad) := s.fendFlow h k p x y now
  let s := if bad then s.sat (fk h k 0x70) else s
  if s.shedClass h k rx ry < s.fld (rk (pgFend h) 0x500) 4 0 then s.fendShed h k
  else s.fendEmit h k (zf128 w rx ry corner fx fy)

/-- Stages 2 to 10 of a KIND 0 event (R78). -/
def State.fendKind0 (s : State) (h k : Nat) (w : DWord) : State :=
  let pg := pgFend h
  let x := bits w.toNat 59 48
  let y := bits w.toNat 47 36
  let p := bits w.toNat 35 35
  let t := bits w.toNat 31 0
  let now := surfNow t
  let tf := s.now - (s.now + 2 ^ 32 - t) % 2 ^ 32
  if s.sensW h k ≤ x || s.sensH h k ≤ y then s.bump (rk pg 0x50)
  else
    let (s, pass) := s.fendPixel h k x y
    if !pass then s.bump (rk pg 0x58)
    else if s.fendTooSoon h k x y now then s.bump (rk pg 0x60)
    else
      match s.fendRect h k x y with
      | none => s.bump (rk pg 0x68)
      | some (rx, ry) =>
        match s.fendDerot h k tf rx ry with
        | (s, none) => s.bump (rk pg 0x68)
        | (s, some (rx, ry)) => s.fendFinish h k w p x y now tf rx ry

/-! ### Intake (R51, R100) -/

/-- FAB takes records while it is RUNNING or STOPPING. -/
def State.fabTakes (s : State) : Bool := s.running pgFab || s.blk pgFab == stStopping
/-- The ingest edge of a record (R144). -/
def edgeOf (sensor x y : Nat) : Nat := (if sensor < 8 then 4 * sensor else 32 + 4 * (sensor - 8)) + (x ^^^ y) % 4
/-- The edge that the first record on a hub's link waits for, where it is one that an edge takes. -/
def State.linkEdge (s : State) (h : Nat) : Option Nat :=
  match (s.fendAt h).edgeQ with
  | [] => none
  | r :: _ =>
    let n := r.toNat
    if !s.fabTakes || bits n 34 32 ≠ 0 || !s.bit (rk pgFab (0x140 + 4 * bits n 63 60)) 31 || (s.windowAt s.now).isNone then none
    else some (edgeOf (bits n 63 60) (bits n 59 48) (bits n 47 36))
/-- The link takes no output: its first record waits for an edge whose queue is full (R100, R138). -/
def State.linkFull (s : State) (h : Nat) : Bool :=
  match s.linkEdge h with
  | some e => decide (32768 ≤ (s.edgeAt e).queue.length)
  | none => false

/-- The decoder whose word the front end takes next: the one in turn while it has words and has given fewer than two, else the next that
has some, in circular order (R51; log 91). -/
def State.fendTurn (s : State) (h : Nat) : Option Nat :=
  let f := s.fendAt h
  let has (k : Nat) : Bool := !(s.csiAt (8 * h + k)).out.isEmpty
  if has f.turn && f.taken < 2 then some f.turn
  else ((List.range 8).map (fun i => (f.turn + 1 + i) % 8)).find? has
/-- Decoder `k` gives a word. -/
def FendHub.served (f : FendHub) (k : Nat) : FendHub :=
  { f with turn := k, taken := if k = f.turn && f.taken < 2 then f.taken + 1 else 1 }

/-- The front end takes one word of a port, when the port is in turn and the link takes its output (R51, R78, R79, R100). -/
def State.fendEvent (s : State) (p : Nat) : State :=
  let h := p / 8
  let k := p % 8
  let c := s.csiAt p
  match c.out with
  | [] => s
  | w :: rest =>
    if s.fendTurn h ≠ some k || s.linkFull h then s
    else
    let s := ((s.setFend h ((s.fendAt h).served k)).setCsi p { c with out := rest }).bump (rk (pgFend h) 0x40)
    if !s.running (pgFend h) || !s.sensLive h k then s.bump (rk (pgFend h) 0x48)
    else if bits w.toNat 34 32 ≠ 0 then s.fendEmit h k (zf128 w 0 0 0 0x800 0x800)
    else s.fendKind0 h k w

/-- The link cannot take the output: the cycles are counted and no word is taken (R100). -/
def State.fendOutStall (s : State) (h cycles : Nat) : State := s.sat (rk (pgFend h) 0x50C) cycles

/-! ### Sweeper and readiness -/

/-- One sensor's share of a pass: stale SURF entries retire, AUTO is released, COUNT restarts (R86). -/
def State.sweepSensor (s : State) (h k : Nat) : State :=
  let wh := s.sensW h k * s.sensH h k
  let now := surfNow s.now
  let a := s.surfAddr h k 0 0 0
  let s := (List.range (2 * wh)).foldl (fun s i =>
    if (surfAge now (s.getLE (a + 2 * i) 2)).isNone then s.putLE (a + 2 * i) 2 0xFFFF else s) s
  let b := s.stateAddr h k 0 0
  let lim := s.fld (fk h k 8) 13 8
  let s := (List.range wh).foldl (fun s i =>
    let v := (s.byte (b + i)).toNat
    let auto := v.testBit 6 && decide (lim / 2 < v % 64)
    s.setByte (b + i) (BitVec.ofNat 8 (v / 128 * 128 + (if auto then 64 else 0)))) s
  s.wrN (fk h k 0x58) (((List.range wh).filter (fun i => (s.byte (b + i)).getLsbD 6)).length)

/-- A pass of 16.384 ms ends (R86); passes are counted from the entry to RUNNING (log 24). -/
def State.sweep (s : State) (h : Nat) : State :=
  let f := s.fendAt h
  if !s.running (pgFend h) || s.now < f.sweepAt then s
  else
    let s := (List.range 8).foldl (fun s k => if s.sensLive h k then s.sweepSensor h k else s) s
    (s.wrN (rk (pgFend h) 0x508) (s.rdN (rk (pgFend h) 0x508) + 1)).setFend h { s.fendAt h with sweepAt := f.sweepAt + 262144 }

/-- SURF_WARM 50 ms after the first event since the clear (R101). -/
def State.surfWarm (s : State) (sensor : Nat) : State :=
  match s.t0At sensor with
  | some t =>
    if s.sensLive (sensor / 8) (sensor % 8) && decide (t + 800000 ≤ s.now) then
      (s.setBit (fk (sensor / 8) (sensor % 8) 0x54) 2 true).warmShow
    else s
  | none => s

/-- FEND enters RUNNING. -/
def State.fendStart (s : State) (h : Nat) : State := s.setFend h { s.fendAt h with sweepAt := s.now + 262144 }
/-- FEND leaves RUNNING: every sensor stops and a clear is abandoned (R83, R101). -/
def State.fendStop (s : State) (h : Nat) : State := (List.range 8).foldl (fun s k => s.sensStop h k) s

/-- DISMISS of FEND: no event stands between the stages of an atomic pipeline, and the loop values are discarded (R102). -/
def State.fendDropLoop (s : State) (h key ev : Nat) : State :=
  let b := s.loopAt key
  let s := s.setLoop key { b with waiting := none, adopted := none, fresh := false }
  if b.fresh then s.event (pgFend h) ev else s
def State.fendDismiss (s : State) (h : Nat) : State :=
  let s := (s.fendStop h).fendDropLoop h h 3
  (List.range 8).foldl (fun s k => (s.fendDropLoop h (5 + 8 * h + k) 5).setBit (fk h k 0x54) 4 false) s

def execFendEvent (p : Fin 16) (s : State) : Out := .next (s.fendEvent p)
def execFendOutStall (h : Fin 2) (cycles : Nat) (s : State) : Out := .next (s.fendOutStall h cycles)
def execClearing (k : Fin 16) (s : State) : Out := .next (s.clearing k)
def execClearDone (k : Fin 16) (s : State) : Out := .next (s.clearDone k)
def execSweep (h : Fin 2) (s : State) : Out := .next (s.sweep h)
def execSurfWarm (k : Fin 16) (s : State) : Out := .next (s.surfWarm k)

end Sys2Proof.Machine
end

