-- ==== Sys2Proof/Machine/Binner.lean ====
section
/-! DEFINITION. The event binner (R173, R174, R192). -/

namespace Sys2Proof.Machine

/-- A register of the binner control block of sensor `k` on the ENG0 page (R192). -/
def binKey (k o : Nat) : Nat := rk (pgEng 0) (0x200 + k * 0x10 + o)
def State.binEn (s : State) (k : Nat) : Bool := s.bit (binKey k 0) 0
/-- B: BIN_PER step periods, in FUSION units. -/
def State.binLen (s : State) (k : Nat) : Nat := s.fld (binKey k 0) 25 16 * s.stepP
def State.binCap (s : State) (k : Nat) : Nat := s.rdN (binKey k 0xC)

/-- The offset of the feature rows in a buffer, and a buffer's length (R173). -/
def binRows (cap : Nat) : Nat := roundUp (16 + 4 * cap) 64
def binSize (cap : Nat) : Nat := binRows cap + 8 * cap
/-- The buffer of bin `j`. -/
def State.binBuf (s : State) (k j : Nat) : Nat :=
  let base := s.rd64 (binKey k 4)
  if j % 2 = 0 then base else roundUp (base + binSize (s.binCap k)) 0x1000

/-- Whether the values of a control block refuse EN (R192). -/
def State.binRefused (s : State) (k ctrl : Nat) : Bool :=
  let cap := s.binCap k
  let base := s.rd64 (binKey k 4)
  bits ctrl 3 1 == 7 || bits ctrl 25 16 == 0 || decide (1000 < bits ctrl 25 16) || cap == 0 || decide (262144 < cap) ||
    base % 64 != 0 || !inOpenCommons base (binSize cap)

/-- EN is set: the bins start with the one that FUSION stands in. -/
def State.binStart (s : State) (k : Nat) : State := s.setBin k { closedTo := s.now / s.binLen k }

/-- A signed 12-bit flow code (R95). -/
def flowCode (n : Nat) : Int := toSigned 12 n

/-- A site's features with one more record (R174); flows count where both codes are valid. -/
def BinSite.add (b : BinSite) (r t : Nat) : BinSite :=
  let pol := bits r 35 35
  let fx := bits r 87 76
  let fy := bits r 75 64
  let ok := fx != 0x800 && fy != 0x800
  { b with
    count := b.count + 1
    pos := b.pos + pol
    neg := b.neg + (1 - pol)
    posT := if pol = 1 then some (max t (b.posT.getD t)) else b.posT
    negT := if pol = 0 then some (max t (b.negT.getD t)) else b.negT
    corner := max b.corner (bits r 95 88)
    sumX := if ok then b.sumX + flowCode fx else b.sumX
    sumY := if ok then b.sumY + flowCode fy else b.sumY
    flows := if ok then b.flows + 1 else b.flows }

def siteNew (cx cy : Nat) : BinSite :=
  { cx := cx, cy := cy, count := 0, pos := 0, neg := 0, posT := none, negT := none, corner := 0, sumX := 0, sumY := 0, flows := 0 }

/-- Places a record in a bin's site list; the answer is false for the first record of a site that the bin drops. -/
def Bin.place (b : Bin) (cap cx cy r t : Nat) : Bin × Bool :=
  if b.sites.any (fun q => q.cx == cx && q.cy == cy) then
    ({ b with sites := b.sites.map (fun q => if q.cx == cx && q.cy == cy then q.add r t else q) }, true)
  else if cap ≤ b.sites.length then
    (if b.dropped.contains (cx, cy) then (b, true) else ({ b with ovf := true, dropped := (cx, cy) :: b.dropped }, false))
  else ({ b with sites := b.sites ++ [(siteNew cx cy).add r t] }, true)

/-- Replaces bin `j`, or appends it. -/
def BinUnit.put (u : BinUnit) (b : Bin) : BinUnit :=
  if u.bins.any (fun q => q.index == b.index) then { u with bins := u.bins.map (fun q => if q.index == b.index then b else q) }
  else { u with bins := u.bins ++ [b] }
def BinUnit.bin (u : BinUnit) (j : Nat) : Bin := (u.bins.find? (fun q => q.index == j)).getD { index := j, sites := [], ovf := false }

/-- The binner takes a record (R173). -/
def State.binRecord (s : State) (h : Nat) : State :=
  let f := s.fendAt h
  match f.binQ with
  | [] => s
  | rec_ :: rest =>
    let s := s.setFend h { f with binQ := rest }
    let r := rec_.toNat
    let k := bits r 63 60
    if bits r 34 32 ≠ 0 || !s.binEn k then s
    else
      let t := s.now - (s.now + 2 ^ 32 - bits r 31 0) % 2 ^ 32
      let j := t / s.binLen k
      let u := s.binAt k
      let lg := s.fld (binKey k 0) 3 1
      if j < u.closedTo then s.sat (rk (pgEng 0) 0x304)
      else
        let (b, ok) := (u.bin j).place (s.binCap k) (bits r 127 112 / 16 / 2 ^ lg) (bits r 111 96 / 16 / 2 ^ lg) r t
        let s := s.setBin k (u.put b)
        if ok then s else s.sat (rk (pgEng 0) 0x308)

/-- The eight channels of a feature row (R174); `e` is the bin's end, `len` its length. -/
def BinSite.row (b : BinSite) (e len : Nat) : List Byte :=
  let rec_ (t : Option Nat) : Int := match t with
    | some t => (127 * (len - (e - t)) / len : Nat)
    | none => 0
  let mean (sum : Int) : Int := if b.flows = 0 then 0 else clampI (-127) 127 (tdivI (sum * 4) (b.flows * 64 : Nat))
  leInt 1 (min 127 b.pos : Nat) ++ leInt 1 (min 127 b.neg : Nat) ++ leInt 1 (rec_ b.posT) ++ leInt 1 (rec_ b.negT) ++
    leInt 1 (b.corner / 2 : Nat) ++ leInt 1 (mean b.sumX) ++ leInt 1 (mean b.sumY) ++ leInt 1 (min 127 b.flows : Nat)

/-- A site's entry (R173). -/
def BinSite.entry (b : BinSite) : List Byte := leBytes 4 (b.cy * 2 ^ 20 + b.cx % 2 ^ 12 * 2 ^ 8 + min 255 b.count)

/-- The binner closes a bin: entries and rows, then the header that makes the tensor ready. A write that meets an error response sets
OVF (R173, R391). The tensor is the input of the models with a BIN trigger of the sensor (R198). -/
def State.binClose (s : State) (k : Nat) : State :=
  let u := s.binAt k
  let len := s.binLen k
  let j := u.closedTo
  let e := (j + 1) * len
  if !s.binEn k || s.now < e + 16 * s.fld (rk (pgEng 0) 0x300) 7 0 then s
  else
    let b := u.bin j
    let a := s.binBuf k j
    let s := s.sourceRewrites 0 k [(a, 1)]
    let (s, ok1) := if b.sites.isEmpty then (s, true) else s.store mBin (a + 16) (b.sites.flatMap (·.entry))
    let (s, ok2) := if b.sites.isEmpty then (s, true)
      else s.store mBin (a + binRows (s.binCap k)) (b.sites.flatMap (fun q => q.row e len))
    let s := s.put mBin a (leBytes 8 j ++ leBytes 4 b.sites.length ++ leBytes 4 (if b.ovf || !ok1 || !ok2 then 1 else 0))
    (s.setBin k { bins := u.bins.filter (fun q => q.index != j), closedTo := j + 1 }).sourceFires 0 k a

def execBinRecord (h : Fin 2) (s : State) : Out := .next (s.binRecord h)
def execBinClose (k : Fin 16) (s : State) : Out := .next (s.binClose k)

end Sys2Proof.Machine
end

