-- ==== Sys2Proof/Machine/Hash.lean ====
section
/-! DEFINITION. SHA3-256 (R432, FIPS 202): the Keccak permutation on 25 lanes of 64 bits, held as numbers; CRC-32C (R367); and the
mesh links' CRC-8 (R137). -/

namespace Sys2Proof.Machine

/-- A lane rotated left. -/
def rotl64 (x n : Nat) : Nat := if n = 0 then x else (x * 2 ^ n) % 2 ^ 64 + x / 2 ^ (64 - n)

/-- The lane offsets of the rho step, by lane x + 5y. -/
def keccakRho : List Nat :=
  [0, 1, 62, 28, 27, 36, 44, 6, 55, 20, 3, 10, 43, 25, 39, 41, 45, 15, 21, 8, 18, 2, 61, 56, 14]

/-- The round constants of the iota step. -/
def keccakRc : List Nat :=
  [0x0000000000000001, 0x0000000000008082, 0x800000000000808A, 0x8000000080008000, 0x000000000000808B, 0x0000000080000001,
   0x8000000080008081, 0x8000000000008009, 0x000000000000008A, 0x0000000000000088, 0x0000000080008009, 0x000000008000000A] ++
  [0x000000008000808B, 0x800000000000008B, 0x8000000000008089, 0x8000000000008003, 0x8000000000008002, 0x8000000000000080,
   0x000000000000800A, 0x800000008000000A, 0x8000000080008081, 0x8000000000008080, 0x0000000080000001, 0x8000000080008008]

/-- One round. -/
def keccakRound (a : List Nat) (rc : Nat) : List Nat :=
  let at_ (l : List Nat) (x y : Nat) : Nat := l.getD (x % 5 + 5 * (y % 5)) 0
  let c := (List.range 5).map (fun x => at_ a x 0 ^^^ at_ a x 1 ^^^ at_ a x 2 ^^^ at_ a x 3 ^^^ at_ a x 4)
  let d := (List.range 5).map (fun x => c.getD ((x + 4) % 5) 0 ^^^ rotl64 (c.getD ((x + 1) % 5) 0) 1)
  let b := (List.range 25).map (fun i => rotl64 (a.getD i 0 ^^^ d.getD (i % 5) 0) (keccakRho.getD i 0))
  -- pi: lane (x, y) comes from lane ((x + 3y) mod 5, x)
  let p := (List.range 25).map (fun i => at_ b (i % 5 + 3 * (i / 5)) (i % 5))
  let e := (List.range 25).map (fun i =>
    at_ p (i % 5) (i / 5) ^^^ ((2 ^ 64 - 1 - at_ p (i % 5 + 1) (i / 5)) &&& at_ p (i % 5 + 2) (i / 5)))
  match e with
  | x :: rest => (x ^^^ rc) :: rest
  | [] => []

def keccakF (a : List Nat) : List Nat := keccakRc.foldl keccakRound a

/-- The lanes of a block of 136 bytes. -/
def blockLanes (bs : List Byte) : List Nat :=
  (List.range 17).map (fun i => ((bs.drop (8 * i)).take 8).foldr (fun b n => b.toNat + 256 * n) 0)

/-- Absorbs whole blocks of 136 bytes. -/
def sha3Absorb : Nat → List Byte → List Nat → List Nat
  | 0, _, st => st
  | k + 1, bs, st =>
    let l := blockLanes (bs.take 136)
    sha3Absorb k (bs.drop 136) (keccakF ((List.range 25).map (fun i => st.getD i 0 ^^^ l.getD i 0)))

/-- SHA3-256. -/
def sha3 (m : List Byte) : List Byte :=
  let q := 136 - m.length % 136
  let pad : List Byte := if q = 1 then [0x86] else 0x06 :: (List.replicate (q - 2) 0 ++ [0x80])
  let st := sha3Absorb ((m.length + q) / 136) (m ++ pad) (List.replicate 25 0)
  (List.range 32).map (fun i => BitVec.ofNat 8 (st.getD (i / 8) 0 / 256 ^ (i % 8)))

/-- One bit of the reflected CRC-32C: 0x1EDC6F41 read from its other end. -/
def crcBit (c : Nat) : Nat := if c % 2 = 1 then (c / 2) ^^^ 0x82F63B78 else c / 2
def crcByte (c : Nat) (b : Byte) : Nat :=
  crcBit (crcBit (crcBit (crcBit (crcBit (crcBit (crcBit (crcBit (c ^^^ b.toNat))))))))
/-- CRC-32C (R367). -/
def crc32c (bs : List Byte) : Nat := (bs.foldl crcByte 0xFFFFFFFF) ^^^ 0xFFFFFFFF

/-- The CRC-8 of a packet: polynomial x⁸ + x² + x + 1 over its 64 bits, from bit 63 down, starting at 0 (R137; log 94). -/
def crc8 (p : DWord) : Nat :=
  (List.range 64).foldl (fun c i =>
    let out := decide (128 ≤ c) != p.getLsbD (63 - i)
    (c * 2 % 256) ^^^ (if out then 7 else 0)) 0

end Sys2Proof.Machine
end

