-- ==== Sys2Proof/Machine/Poses.lean ====
section
/-! DEFINITION. Pose records (R298): their bytes, and the pose at a time by interpolation or extrapolation (R226, R299). -/

namespace Sys2Proof.Machine

/-- The 32-bit words of bytes, least significant first. -/
def toWords (k : Nat) (bs : List Byte) : List Word := (List.range k).map (fun i => BitVec.ofNat 32 (fieldLE bs (4 * i) 4))
def ofWords (ws : List Word) : List Byte := ws.flatMap (fun w => leBytes 4 w.toNat)

/-- The 80 bytes of a pose record (R298). -/
def Pose.bytes (p : Pose) : List Byte :=
  leBytes 8 p.dtime ++ p.pos.flatMap (fun d => leBytes 8 d.toNat) ++ ofWords p.vel ++ ofWords p.quat ++ ofWords p.omega ++
    leBytes 4 p.flags ++ leBytes 4 p.seq
/-- A record from its words. -/
def Pose.ofLoop (ws : List Word) : Pose :=
  let bs := ofWords ws
  { dtime := fieldLE bs 0 8
    pos := (List.range 3).map (fun i => BitVec.ofNat 64 (fieldLE bs (8 + 8 * i) 8))
    vel := (ws.drop 8).take 3
    quat := (ws.drop 11).take 4
    omega := (ws.drop 15).take 3
    flags := (ws.getD 18 0).toNat
    seq := (ws.getD 19 0).toNat }

/-! ### Quaternions (w, x, y, z), FP32 -/

def qAt (q : List Word) (i : Nat) : Word := q.getD i 0

/-- The Hamilton product. -/
def quatMul (a b : List Word) : List Word :=
  let m (i j : Nat) : Word := fmul (qAt a i) (qAt b j)
  [fsub (fsub (fsub (m 0 0) (m 1 1)) (m 2 2)) (m 3 3),
   fsub (fadd (fadd (m 0 1) (m 1 0)) (m 2 3)) (m 3 2),
   fadd (fadd (fsub (m 0 2) (m 1 3)) (m 2 0)) (m 3 1),
   fadd (fsub (fadd (m 0 3) (m 1 2)) (m 2 1)) (m 3 0)]

/-- Scaled to unit length. -/
def quatNorm (q : List Word) : List Word :=
  let n := fsqrt (fdot q q)
  q.map (fun x => fdiv x n)
def quatConj (q : List Word) : List Word := [qAt q 0, fneg (qAt q 1), fneg (qAt q 2), fneg (qAt q 3)]

/-- The rotation matrix of a unit quaternion, by rows. -/
def quatMat (q : List Word) : FMat :=
  let w := qAt q 0
  let x := qAt q 1
  let y := qAt q 2
  let z := qAt q 3
  let two (a : Word) : Word := fmul 0x40000000 a
  let d (a b : Word) : Word := fsub fone (two (fadd (fmul a a) (fmul b b)))
  [[d y z, two (fsub (fmul x y) (fmul w z)), two (fadd (fmul x z) (fmul w y))],
   [two (fadd (fmul x y) (fmul w z)), d x z, two (fsub (fmul y z) (fmul w x))],
   [two (fsub (fmul x z) (fmul w y)), two (fadd (fmul y z) (fmul w x)), d x y]]

/-- The rotation by an angular rate over a time, in rad/s and s (log 4). -/
def quatOfRate (omega : List Word) (dt : Word) : List Word :=
  let n := fsqrt (fdot omega omega)
  let half := fmul 0x3F000000 (fmul n dt)
  if fle n 0 then [fone, 0, 0, 0]
  else
    let k := fdiv (Config.sinFp32 half) n
    Config.cosFp32 half :: omega.map (fun x => fmul k x)

/-- Heading: the yaw of an attitude (log 4). -/
def quatYaw (q : List Word) : Word :=
  let w := qAt q 0
  let x := qAt q 1
  let y := qAt q 2
  let z := qAt q 3
  Config.atan2Fp32 (fmul 0x40000000 (fadd (fmul w z) (fmul x y)))
    (fsub fone (fmul 0x40000000 (fadd (fmul y y) (fmul z z))))

/-! ### The pose at a time -/

/-- A difference of FUSION times in seconds. -/
def secOf (d : Int) : Word := fofRat d 16000000

/-- Position and attitude extrapolated by velocity and angular rate (R226, R299). -/
def Pose.extrapolate (p : Pose) (t : Nat) : List DWord × List Word :=
  let dt := secOf ((t : Int) - p.dtime)
  (List.zipWith (fun x v => dadd x (dmul (f32to64 v) (f32to64 dt))) p.pos p.vel,
   quatNorm (quatMul p.quat (quatOfRate p.omega dt)))

/-- Position and attitude between two records. -/
def Pose.between (a b : Pose) (t : Nat) : List DWord × List Word :=
  let f := fofRat ((t : Int) - a.dtime) ((b.dtime : Int) - a.dtime)
  (List.zipWith (fun x y => dadd x (dmul (dsub y x) (f32to64 f))) a.pos b.pos,
   quatNorm (List.zipWith (fun x y => fadd x (fmul f (fsub y x))) a.quat b.quat))

/-- The pose at a time from a history, newest record first; none for a time before the oldest held (R226). -/
def poseAt (newest : Option Pose) : List Pose → Nat → Option (List DWord × List Word)
  | [], _ => none
  | p :: ps, t =>
    if p.dtime ≤ t then
      match newest with
      | none => some (p.extrapolate t)
      | some n => if t = p.dtime then some (p.pos, quatNorm p.quat) else some (p.between n t)
    else poseAt (some p) ps t

end Sys2Proof.Machine
end

