-- ==== Sys2Proof/Machine/Loops.lean ====
section
/-! DEFINITION. The loop values (R18 to R20): their buffers, adoption at the front ends' step openings, and staleness. -/

namespace Sys2Proof.Machine

/-- The buffer of a consumer. -/
def loopKey : LoopTarget → Nat
  | .fendRate h => h.val
  | .gridPose => 2
  | .trkPose => 3
  | .engHints => 4
  | .fendRoi k => 5 + k.val
  | .fendShed h => 21 + h.val

/-- A producer sends a value towards a consumer, behind what it has sent before; no two values are ready in one cycle (R16, log 92). -/
def State.sendLoop (s : State) (key : Nat) (v : LoopVal) : State :=
  let b := s.loopAt key
  s.setLoop key { b with flight := b.flight ++ [v] }

/-- A value's write into the consumer's buffer completes; a newer one that waits is kept (R19). -/
def LoopBuf.write (b : LoopBuf) : LoopBuf :=
  match b.flight with
  | [] => b
  | v :: rest =>
    { b with flight := rest, waiting := match b.waiting with
      | some w => if v.stamp < w.stamp then some w else some v
      | none => some v }

/-- The adoption: the waiting value unless it is older than the adopted one (R19). -/
def LoopBuf.adopt (b : LoopBuf) : LoopBuf :=
  match b.waiting, b.adopted with
  | some w, some a => { b with waiting := none, adopted := if w.stamp < a.stamp then some a else some w }
  | some w, none => { b with waiting := none, adopted := some w }
  | none, _ => b

/-- The newest value that has arrived. -/
def LoopBuf.newest (b : LoopBuf) : Option LoopVal := b.waiting.orElse (fun _ => b.adopted)

/-! ### Periods -/

/-- A register of chain channel `c` (R304). -/
def chanKey (c o : Nat) : Nat := rk pgChain (0x200 + c * 0x20 + o)
/-- The input period in FUSION units (R279). -/
def State.chanTin (s : State) (c : Nat) : Nat := 2000 / 2 ^ s.fld (chanKey c 0) 2 1
/-- DEC of a channel's set (R286, R291); an empty custom slot counts as 1. -/
def State.chanDec (s : State) (c : Nat) : Nat :=
  let k := s.fld (chanKey c 0) 6 4
  if k < 4 then 2 ^ (k + 1) else ((SMap.get (fun _ => none) s.chain.sets k).map (·.dec)).getD 1
/-- The output period (R284). -/
def State.chanTout (s : State) (c : Nat) : Nat := s.chanDec c * s.chanTin c
/-- The channel of EGO's inertial input `i`: gx, gy, gz, ax, ay, az (R292). -/
def State.egoChan (s : State) (i : Nat) : Nat :=
  6 * s.fld (rk pgEgo 0x100) 18 16 + s.fld (rk pgEgo 0x104) (4 * i + 2) (4 * i)
/-- EGO's output period T_E: T_out, or twice it below 31.25 µs (R292). -/
def State.egoPeriod (s : State) : Nat :=
  let t := s.chanTout (s.egoChan 0)
  if t < 500 then 2 * t else t
/-- The tracker cycle TC (R258). -/
def State.trkPeriod (s : State) : Nat := 16 * s.fld (rk pgTrk 0x104) 13 0

/-- The period of a loop value's producer (R18); the shed level has none. -/
def State.loopPeriod (s : State) : LoopTarget → Option Nat
  | .fendRate _ => some s.egoPeriod
  | .gridPose => some s.egoPeriod
  | .trkPose => some s.egoPeriod
  | .engHints => some s.trkPeriod
  | .fendRoi _ => some s.trkPeriod
  | .fendShed _ => none

/-- Whether a value is within 4 periods of its stamp (R18, R20). -/
def State.isFresh (s : State) (t : LoopTarget) : Option LoopVal → Bool
  | none => false
  | some v => match s.loopPeriod t with
    | some p => decide (s.now < v.stamp + 4 * p)
    | none => true

/-! ### Arrival and staleness -/

/-- FEND_SHED_NEXT shows the level that waits, or the adopted one where none does (R103). -/
def State.shedNext (s : State) (h : Nat) : State :=
  let v := match (s.loopAt (21 + h)).waiting with
    | some w => (w.words.getD 0 0).toNat
    | none => s.fld (rk (pgFend h) 0x500) 4 0
  s.wrN (rk (pgFend h) 0x504) v

/-- The pose that a value arriving at a loop buffer carries. -/
def LoopBuf.incoming (b : LoopBuf) : List Pose := (b.flight.take 1).map (fun v => Pose.ofLoop v.words)

/-- A value arrives at its consumer (R19); GRID and TRK keep the last 2,048 poses, newest first (R226, R257). -/
def State.loopValueWrite (s : State) (t : LoopTarget) : State :=
  let b := s.loopAt (loopKey t)
  let s := s.setLoop (loopKey t) b.write
  match t with
  | .fendShed h => s.shedNext h
  | .gridPose => { s with grid := { s.grid with poses := (b.incoming ++ s.grid.poses).take 2048 } }
  | .trkPose => { s with trk := { s.trk with poses := (b.incoming ++ s.trk.poses).take 2048 } }
  | _ => s

/-- A consumer's value goes stale (R18, R20): the entry is recorded. De-rotation ends at the next step opening (R18); the regions
count as outside at once (R98); GRID marks the epoch NO_POSE (R226); TRK shows POSE_STALE (R257). -/
def State.loopStale (s : State) (t : LoopTarget) : State :=
  let b := s.loopAt (loopKey t)
  if !b.fresh || s.isFresh t b.newest then s
  else
    let s := s.setLoop (loopKey t) { b with fresh := false }
    match t with
    | .fendRate h => s.event (pgFend h) 3
    | .gridPose =>
      { (s.event pgGrid 4).setBit (rk pgGrid 0x114) 2 s.grid.acc.isSome with
        grid := { s.grid with acc := s.grid.acc.map (fun e => { e with noPose := true }) } }
    | .trkPose => (s.event pgTrk 6).setBit (rk pgTrk 0x12C) 2 true
    | .engHints => s
    | .fendRoi k => (s.event (pgFend (k.val / 8)) 5).setBit (fk (k.val / 8) (k.val % 8) 0x54) 4 false
    | .fendShed _ => s

/-! ### The front ends' step openings -/

/-- The rate is adopted; DEROT_ACTIVE follows (R92). -/
def State.adoptRate (s : State) (h : Nat) : State :=
  let b := s.loopAt h
  let b' := b.adopt
  let fresh := s.isFresh (.fendRate (if h = 0 then 0 else 1)) b'.adopted
  let s := s.setLoop h { b' with fresh := fresh }
  let s := if b.fresh && !fresh then s.event (pgFend h) 3 else if fresh && !b.fresh then s.event (pgFend h) 4 else s
  (List.range 8).foldl (fun s k =>
    if !fresh then s.setBit (fk h k 0x54) 3 false
    else if b.waiting.isSome && s.sensLive h k && s.bit (fk h k 0) 2 then s.setBit (fk h k 0x54) 3 true
    else s) s

/-- A sensor's regions are adopted and shown in FEND_ROI (R98, R103). -/
def State.adoptRoi (s : State) (h k : Nat) : State :=
  let key := 5 + 8 * h + k
  let b := s.loopAt key
  let b' := b.adopt
  let fresh := s.isFresh (.fendRoi (Fin.ofNat 16 (8 * h + k))) b'.adopted
  let s := s.setLoop key { b' with fresh := fresh }
  let s := if b.fresh && !fresh then s.event (pgFend h) 5 else if fresh && !b.fresh then s.event (pgFend h) 6 else s
  let s := s.setBit (fk h k 0x54) 4 fresh
  match b.waiting, b'.adopted with
  | some _, some v =>
    (List.range 64).foldl (fun s i => s.wr (rk (pgFend h) (0x800 + k * 0x100 + 4 * i)) (v.words.getD i 0)) s
  | _, _ => s

/-- The shed level is adopted and the step of the adoption reported to FAB (R153). -/
def State.adoptShed (s : State) (h w : Nat) : State :=
  let b := s.loopAt (21 + h)
  match b.waiting with
  | none => s
  | some v =>
    let lvl := (v.words.getD 0 0).toNat
    let old := s.fld (rk (pgFend h) 0x500) 4 0
    let s := (s.setLoop (21 + h) { b.adopt with fresh := true }).wrN (rk (pgFend h) 0x500) lvl
    let s := if old = 0 && lvl ≠ 0 then s.event (pgFend h) 7 else if old ≠ 0 && lvl = 0 then s.event (pgFend h) 8 else s
    let bell := if h = 0 then { s.bell with adopt0 := some (w, lvl) } else { s.bell with adopt1 := some (w, lvl) }
    let m := max ((bell.adopt0.map (·.1)).getD 0) ((bell.adopt1.map (·.1)).getD 0)
    (({ s with bell := bell }).setFld (rk pgFab 0x124) 4 0 lvl).wr64 (rk pgFab 0x128) m

/-- At E(n) − 2P a front end adopts what waits for the opening of window n (R147). -/
def State.fendStepOpen (s : State) (h : Nat) : State :=
  let f := s.fendAt h
  if !s.bell.started || s.now + 2 * s.stepP < s.stepEnd f.window then s
  else
    let s := (s.adoptShed h f.window).adoptRate h
    let s := ((List.range 8).foldl (fun s k => s.adoptRoi h k) s).shedNext h
    s.setFend h { s.fendAt h with window := f.window + 1 }

def execLoopValueWrite (t : LoopTarget) (s : State) : Out := .next (s.loopValueWrite t)
def execLoopStale (t : LoopTarget) (s : State) : Out := .next (s.loopStale t)
def execFendStepOpen (h : Fin 2) (s : State) : Out := .next (s.fendStepOpen h)

end Sys2Proof.Machine
end

