-- ==== Sys2Proof/Machine/SpiCan.lean ====
section
/-! DEFINITION. SPI ports for inertial units (R61 to R64), wheel inputs (R65, R66) and CAN FD controllers (R67 to R70). -/

namespace Sys2Proof.Machine

/-- Hands the chain a sample (R64, R66, R69). -/
def State.toChain (s : State) (c : ChainIn) : State := { s with chain := { s.chain with inq := s.chain.inq ++ [c] } }

/-- The stamp of a sample taken now (R34). -/
def State.stampNow (s : State) : Stamp := { fus := s.now, tb0 := s.time.tb0 }

/-! ### SPI -/

def imuKey (sp o : Nat) : Nat := rk pgImu (0x100 + sp * 0x40 + o)
def State.spiOn (s : State) (sp : Nat) : Bool := s.running pgImu && s.bit (imuKey sp 0) 0

/-- Samples lost at a port count in IMU_MISSED (R50, R63, R75). -/
def State.imuMissed (s : State) (sp n : Nat) : State := s.wrN (imuKey sp 0x2C) (s.rdN (imuKey sp 0x2C) + n)

/-- IMU_XFER.DELAY in ns. -/
def State.spiDelay (s : State) (sp : Nat) : Nat := s.fld (imuKey sp 8) 31 16
/-- Two SCLK periods in ns, for which CS_N stays deasserted between transfers: SCLK is 1 GHz by N (R61, R62). -/
def State.spiRest (s : State) (sp : Nat) : Nat := 4 * s.fld (imuKey sp 0) 12 4

/-- IMU_RATE: the rate of the last two edges since the enable, in whole Hz (R75; log 20). -/
def State.spiRate (s : State) (sp : Nat) : State :=
  let q := s.spiAt sp
  let s := match q.rateFrom with
    | some t => if t < s.time.tb0 then s.wrN (imuKey sp 0x24) (10 ^ 9 / (s.time.tb0 - t)) else s
    | none => s
  s.setSpi sp { q with rateFrom := some s.time.tb0, lastEdge := some s.time.tb0 }

/-- An active data-ready edge is stamped and starts a transfer after the delay, or becomes pending (R62, R63). An edge that
comes while the delay runs counts as coming during the transfer (log 20). -/
def State.drdyEdge (s : State) (sp : Nat) (rising : Bool) : State :=
  if !s.spiOn sp || s.bit (imuKey sp 0) 2 == rising then s
  else
    let s := (s.spiRate sp).setBit (imuKey sp 0x28) 0 false
    let q := s.spiAt sp
    let st := s.stampNow
    let pend (s : State) : State := (s.setSpi sp { q with pendEdge := some st }).setBit (imuKey sp 0x28) 2 true
    match q.waiting with
    | some w =>
      if w.pended then
        (s.imuMissed sp 1).setSpi sp { q with waiting := some { w with stamp := st, due := max w.due (st.tb0 + s.spiDelay sp) } }
      else pend (if q.pendEdge.isSome then s.imuMissed sp 1 else s)
    | none =>
      if q.active.isSome then pend (if q.pendEdge.isSome then s.imuMissed sp 1 else s)
      else s.setSpi sp { q with waiting := some { stamp := st, due := st.tb0 + s.spiDelay sp } }

/-- When the delay has run out the port sends the command bytes and reads (R62). Read lengths above 32 act as 32 (log 20). -/
def State.spiTransfer (s : State) (sp : Nat) (miso : List Byte) : State :=
  let q := s.spiAt sp
  match q.waiting with
  | some w =>
    if !s.spiOn sp || s.time.tb0 < w.due then s
    else
      let n := min (s.fld (imuKey sp 8) 7 2 + 1) 32
      let cmd := (leBytes 4 (s.rdN (imuKey sp 4))).take (s.fld (imuKey sp 8) 1 0 + 1)
      ((s.setSpi sp { q with waiting := none, active := some (w.stamp, (miso ++ zeros n).take n), mosi := cmd }).setBit
        (imuKey sp 0x28) 1 true).setBit (imuKey sp 0x28) 2 q.pendEdge.isSome
  | none => s

/-- The samples of a port that the chain has not taken, by their TB0 stamps. -/
def State.spiHeld (s : State) (sp : Nat) : List Nat :=
  ((s.chain.inq.filter (fun c => 6 * sp ≤ c.chan && c.chan < 6 * sp + 6)).map (·.tb0)).eraseDups

/-- The sample's axes go to chain channels 6s + a under the edge's stamp (R50, R64). An axis with a FMT outside 1 to 4 is read as R57
reads it, and one that lies outside the read bytes gives 0 (log 20). -/
def State.spiSample (s : State) (sp : Nat) (st : Stamp) (d : List Byte) : State :=
  if 64 ≤ (s.spiHeld sp).length then s.imuMissed sp 1
  else (List.range 6).foldl (fun s a =>
    let l := PLoc.ofReg (s.rdN (imuKey sp (0xC + 4 * a)))
    if l.en then s.toChain {
        chan := 6 * sp + a, stamp := st.fus, raw := some (l.int d), value := 0, still := false, stale := false, tb0 := st.tb0 }
    else s) s

/-- The transfer ends with its sample; the pending edge awaits its own transfer, DELAY after the edge and two SCLK periods after this
one (R62, R63; log 20). -/
def State.spiTransferDone (s : State) (sp : Nat) : State :=
  let q := s.spiAt sp
  match q.active with
  | some (st, d) =>
    let next (e : Stamp) : SpiWait :=
      { stamp := e, due := max (e.tb0 + s.spiDelay sp) (s.time.tb0 + s.spiRest sp), pended := true }
    ((s.spiSample sp st d).setBit (imuKey sp 0x28) 1 false).setSpi sp
      { q with active := none, waiting := q.pendEdge.map next, pendEdge := none }
  | none => s

/-- The nominal data-ready period in ns (R61). -/
def State.spiPeriod (s : State) (sp : Nat) : Nat := 125000 / 2 ^ s.fld (imuKey sp 0) 17 16

/-- No edge for 4 nominal periods (R63). -/
def State.spiSilent (s : State) (sp : Nat) : State :=
  match (s.spiAt sp).lastEdge with
  | some t =>
    if s.spiOn sp && decide (t + 4 * s.spiPeriod sp ≤ s.time.tb0) && !s.bit (imuKey sp 0x28) 0 then
      (s.setBit (imuKey sp 0x28) 0 true).event pgImu 1
    else s
  | none => s

/-- The silence of a port is counted from its enable (log 20). -/
def State.imuStart (s : State) : State :=
  (List.range 8).foldl (fun s sp => s.setSpi sp { s.spiAt sp with lastEdge := some s.time.tb0, rateFrom := none }) s

/-- What a port has read and the chain has not taken is discarded. -/
def State.spiDrop (s : State) (sp : Nat) : State :=
  { s with chain := { s.chain with inq := s.chain.inq.filter (fun c => !(6 * sp ≤ c.chan && c.chan < 6 * sp + 6)) } }

/-- Leaving RUNNING: the edges that wait and the entry queues are discarded and counted (R50, R53). -/
def State.imuStop (s : State) : State :=
  (List.range 8).foldl (fun s sp =>
    let q := s.spiAt sp
    let n := (if q.waiting.isSome then 1 else 0) + (if q.pendEdge.isSome then 1 else 0) + (if q.active.isSome then 1 else 0)
    (((s.imuMissed sp (n + (s.spiHeld sp).length)).spiDrop sp).setFld (imuKey sp 0x28) 2 1 0).setSpi sp
      { q with waiting := none, active := none, pendEdge := none }) s

/-! ### Wheels -/

def wheelKey (w o : Nat) : Nat := rk pgWheel (0x100 + w * 0x20 + o)
def State.wheelOn (s : State) (w : Nat) : Bool := s.running pgWheel && s.bit (wheelKey w 0) 0

/-- The sign of a wheel's speed: forward, reverse, or that of a CAN slot (R65). DIR 3, to which the spec gives no meaning, acts as
forward (log 84). -/
def State.wheelSigned (s : State) (w : Nat) (v : Word) : Word :=
  match s.fld (wheelKey w 0) 5 4 with
  | 1 => fneg v
  | 2 => if flt (s.slotAt (s.fld (wheelKey w 0) 10 8)).value 0 then fneg v else v
  | _ => v

/-- WHEEL_DIST over a time in ns. -/
def State.wheelRate (s : State) (w ns : Nat) : Word := s.wheelSigned w (fdiv (s.rd (wheelKey w 8)) (fofRat ns (10 ^ 9 : Nat)))

/-- Edges rejected or discarded (R76). -/
def State.wheelReject (s : State) (w n : Nat) : State := s.wrN (wheelKey w 0x18) (s.rdN (wheelKey w 0x18) + n)

/-- An edge on a wheel input: one too soon after the last accepted one is rejected, one that finds 16 waiting is discarded, any other is
stamped and waits for the speed unit (R34, R50, R65). Edge code 3, to which the spec gives no meaning, acts as both edges (log 84). -/
def State.wheelEdge (s : State) (w : Nat) (rising : Bool) : State :=
  let sel := s.fld (wheelKey w 0) 2 1
  if !s.wheelOn w || (sel = 0 && !rising) || (sel = 1 && rising) then s
  else
    let q := s.wheelAt w
    let soon := match q.last with
      | some t => decide (s.time.tb0 - t < 2 * s.fld (wheelKey w 4) 15 0)
      | none => false
    if soon || 16 ≤ q.queue.length then s.wheelReject w 1
    else (s.setWheel w { q with last := some s.time.tb0, queue := q.queue ++ [s.stampNow] }).wrN (wheelKey w 0x14)
      (s.rdN (wheelKey w 0x14) + 1)

/-- The speed unit takes one edge: its speed is that of the period it ends (R65). The unit takes what waits at its next sample (log 84). -/
def State.wheelTake (s : State) (w : Nat) (q : WheelIn) (e : Stamp) : WheelIn :=
  match q.edge with
  | none => { q with edge := some e.tb0 }
  | some t => { q with edge := some e.tb0, period := some (e.tb0 - t), speed := s.wheelRate w (e.tb0 - t) }

/-- The number of the sample instant of a channel that has come: samples stand on FUSION multiples of T_in (R279). -/
def State.sampleNo (s : State) (c : Nat) : Nat := s.now / s.chanTin c

/-- The speed unit's sample at the instant of the channel's rate that has come and has had none (R66, R279). -/
def State.wheelSample (s : State) (w : Nat) : State :=
  let n := s.sampleNo (48 + w)
  if !s.wheelOn w || (s.wheelAt w).sampled == some n then s
  else
    let q := (s.wheelAt w).queue.foldl (s.wheelTake w) (s.wheelAt w)
    let s := s.setWheel w { q with queue := [], sampled := some n }
    let (v, still) := match q.edge, q.period with
      | some t, some p =>
        let e := s.time.tb0 - t
        if s.rdN (wheelKey w 0xC) * 10 ^ 6 < e then (0, true)
        else if e ≤ p then (q.speed, false)
        else (s.wheelRate w e, false)
      | _, _ => (0, true)
    (s.wr (wheelKey w 0x10) v).toChain {
      chan := 48 + w, stamp := n * s.chanTin (48 + w), raw := none, value := v, still := still, stale := false, tb0 := s.time.tb0 }

/-- The first edge after an enable gives no speed, and samples stand on the instants after it (R66). -/
def State.wheelStart (s : State) : State :=
  (List.range 8).foldl (fun s w => s.setWheel w { sampled := some (s.sampleNo (48 + w)) }) s
/-- Leaving RUNNING: the entry queues are discarded and counted (R50, R53). -/
def State.wheelStop (s : State) : State :=
  (List.range 8).foldl (fun s w => (s.wheelReject w (s.wheelAt w).queue.length).setWheel w { s.wheelAt w with queue := [] }) s

/-! ### CAN FD -/

def canKey (c o : Nat) : Nat := rk (pgCan c) o
def State.canOn (s : State) (c : Nat) : Bool := s.running (pgCan c) && s.bit (canKey c 0x100) 0
def State.canBusOff (s : State) (c : Nat) : Bool := s.fld (canKey c 0x110) 17 16 == 2

/-- Whether filter `k` matches a frame (R68). An 11-bit identifier stands in the low bits of ID (log 21). -/
def State.canMatches (s : State) (c k : Nat) (f : CanFrame) : Bool :=
  let id := s.rd (canKey c (0x200 + 8 * k))
  let mask := (s.rd (canKey c (0x204 + 8 * k))).extractLsb' 0 29
  decide (f.ident &&& mask = id.extractLsb' 0 29 &&& mask) && id.getLsbD 30 == f.ide

/-- The record of the receive ring: TB0, FUSION, identifier with IDE [29] and RTR [30], length with FD [8], 64 data bytes, and
zeros to 96 bytes; the spec gives no layout, nor the unit of the ring's size, taken as 4 KiB (log 21). -/
def State.canRecord (s : State) (c : Nat) (f : CanFrame) (st : Stamp) : List Byte :=
  leBytes 8 st.tb0 ++ leBytes 8 (if s.bit (canKey c 0x100) 5 then st.fus else 0) ++
    leBytes 4 (f.ident.toNat + (if f.ide then 2 ^ 29 else 0) + (if f.rtr then 2 ^ 30 else 0)) ++
    leBytes 4 (f.data.length + (if f.fd then 256 else 0)) ++ (f.data ++ zeros 64).take 64 ++ zeros 8

def State.canToRing (s : State) (c : Nat) (f : CanFrame) (st : Stamp) : State :=
  let size := s.rdN (canKey c 0x11C) * 4096
  if size = 0 then s.bump (canKey c 0x48)
  else
    let (s, off) := s.ringPut (s.rd64 (canKey c 0x114)) size (s.canAt c).ringOff (s.canRecord c f st)
    s.setCan c { s.canAt c with ringOff := off }

def slotKey (k o : Nat) : Nat := rk (pgCan 0) (0x400 + k * 0x20 + o)

/-- A signal's raw code: little-endian from its least significant bit, or big-endian from its most significant bit in the
descending bit numbering of each byte (R69; log 21). -/
def canRaw (d : List Byte) (start w : Nat) (big : Bool) : Nat :=
  let bitAt (i : Nat) : Nat := if (d.getD (i / 8) 0).getLsbD (i % 8) then 1 else 0
  if big then
    let pos0 := start / 8 * 8 + (7 - start % 8)
    (List.range w).foldl (fun a i => let q := pos0 + i; a * 2 + bitAt (q / 8 * 8 + (7 - q % 8))) 0
  else (List.range w).foldl (fun a i => a + bitAt (start + i) * 2 ^ i) 0

/-- A frame reaches the slots that name its controller and filter (R69). The fields of a slot's words are placed by log 21. -/
def State.canToSlots (s : State) (c k : Nat) (f : CanFrame) (st : Stamp) : State :=
  (List.range 8).foldl (fun s j =>
    let a := s.rdN (slotKey j 0)
    let b := s.rdN (slotKey j 4)
    let o := s.rdN (slotKey j 8)
    let w := bits b 21 16
    if w = 0 || 32 < w || bits a 1 0 ≠ c || bits a 13 8 ≠ k then s
    else
      let raw := canRaw f.data (bits b 8 0) w (o.testBit 0)
      let v := fofInt (if o.testBit 1 then toSigned w raw else raw)
      s.setSlot j { s.slotAt j with value := fadd (fmul (s.rd (slotKey j 0xC)) v) (s.rd (slotKey j 0x10)), stamp := some st.fus }) s

/-- A frame leaves the entry queue: the lowest-numbered matching filter decides (R68). -/
def State.canDeliver (s : State) (c : Nat) (f : CanFrame) (st : Stamp) : State :=
  match (List.range 64).find? (fun k => s.canMatches c k f) with
  | none => s.bump (canKey c 0x50)
  | some k =>
    match s.fld (canKey c (0x204 + 8 * k)) 31 30 with
    | 0 => s.canToRing c f st
    | 1 => s.canToSlots c k f st
    | 2 => (s.canToRing c f st).canToSlots c k f st
    | _ => s

/-- The frames that wait leave the entry queue while MEM serves accesses (R349): what an idle MEM delays waits here (log 21). -/
def State.canServe (s : State) (c : Nat) : State :=
  if s.running pgMem then
    ((s.canAt c).inq.foldl (fun s e => s.canDeliver c e.1 e.2) (s.setCan c { s.canAt c with inq := [] }))
  else s

/-- The error counts and the state that follows from them: error passive above 127 (R77). -/
def State.setCanErr (s : State) (c tec rec : Nat) : State :=
  s.setFld (canKey c 0x110) 17 0 (tec % 256 + rec % 256 * 256 + (if 127 < tec % 256 || 127 < rec % 256 then 65536 else 0))

/-- An error count after a frame without an error, from what the errors of the bus before it left: ISO 11898-1 takes 1 off, and sets a
receive count above 127 to a value from 119 to 127 (R67). No row of the table is an error on the bus, so that count is a free value
(log 87). -/
def errAfter (n : Nat) (back : Nat) : Nat := if n = 0 then 0 else if n ≤ 127 then n - 1 else back
def State.canErrRx (s : State) (c : Nat) : State :=
  let (w, s) := s.draw
  let n := w.toNat
  s.setCanErr c (n % 256) (errAfter (n / 2 ^ 8 % 256) (119 + n / 2 ^ 16 % 9))
def State.canErrTx (s : State) (c : Nat) : State :=
  let (w, s) := s.draw
  let n := w.toNat
  s.setCanErr c (errAfter (n % 256) (n % 256 - 1)) (n / 2 ^ 8 % 256)

/-- A received frame is stamped and joins the entry queue, or is discarded from 32 that wait (R34, R50, R67). An FD frame is ignored and
counts nowhere while FD frames are not enabled (log 86). -/
def State.canFrameRx (s : State) (c : Nat) (f : CanFrame) : State :=
  if !s.canOn c || s.canBusOff c || (f.fd && !s.bit (canKey c 0x100) 3) then s
  else
    let s := s.canErrRx c
    let q := s.canAt c
    if 32 ≤ q.inq.length then (s.bump (canKey c 0x48)).canServe c
    else ((s.bump (canKey c 0x40)).setCan c { q with inq := q.inq ++ [(f, s.stampNow)] }).canServe c

/-- A slot's sample at the instant of its channel's rate that has come and has had none, with the age of its source frame; SLOT_TIMEOUT
counts ms (R69, R279; log 21). -/
def State.canSlotSample (s : State) (k : Nat) : State :=
  let n := s.sampleNo (56 + k)
  let q := s.slotAt k
  if s.fld (slotKey k 4) 21 16 = 0 || q.sampled == some n then s
  else
    let at_ := n * s.chanTin (56 + k)
    let stale := match q.stamp with
      | some t => decide (t + s.rdN (slotKey k 0x14) * 16000 < at_)
      | none => true
    (s.setSlot k { q with sampled := some n }).toChain {
      chan := 56 + k, stamp := at_, raw := none, value := q.value, still := false, stale := stale, tb0 := s.time.tb0,
      age := q.stamp.map (fun t => at_ - t) }

/-- The pending frame with the lowest identifier, the oldest among equals (R70). Identifiers of 11 and of 29 bits are compared as the
numbers that stand in their fields (log 21). -/
def canNext : List CanFrame → Option CanFrame
  | [] => none
  | f :: fs => match canNext fs with
    | some g => if g.ident.toNat < f.ident.toNat then some g else some f
    | none => some f

/-- A frame is sent in normal operation (R67, R70), an FD frame also while FD frames are not enabled (log 86). -/
def State.canFrameTx (s : State) (c : Nat) : State :=
  match canNext (s.canAt c).tx with
  | none => s
  | some f =>
    if !s.canOn c || s.canBusOff c || s.fld (canKey c 0x100) 2 1 ≠ 0 then s
    else
      let q := s.canAt c
      ((s.setCan c { q with tx := q.tx.erase f, sent := q.sent ++ [f] }).bump (canKey c 0x58)).canErrTx c

/-- The controller enters bus-off, its transmit error count past the 255 that the field can show (R70, R77, R495; log 87). -/
def State.busOff (s : State) (c : Nat) : State :=
  if !s.canOn c || s.canBusOff c then s
  else (((s.setFld (canKey c 0x110) 17 16 2).setFld (canKey c 0x110) 7 0 255).bump (canKey c 0x60)).event (pgCan c) 1

/-- The controller leaves bus-off error active, with both error counts 0. -/
def State.canRecover (s : State) (c : Nat) : State := if s.canBusOff c then s.wrN (canKey c 0x110) 0 else s

/-- Recovery after 128 occurrences of 11 recessive bits, with BUSOFF_AUTO (R70). -/
def State.busOffRecovery (s : State) (c : Nat) : State := if s.bit (canKey c 0x100) 4 then s.canRecover c else s

/-- CMD_SEND (R70, R77): refused busy with 8 pending. A remote frame is never sent (R67): the command completes REFUSED (log 86). -/
def State.canSend (s : State) (c : Nat) (f : CanFrame) : State :=
  let q := s.canAt c
  if 8 ≤ q.tx.length then s.cmdDone (pgCan c) resBusy
  else if f.rtr then s.cmdDone (pgCan c) resRefused
  else (s.setCan c { q with tx := q.tx ++ [f] }).cmdDone (pgCan c) resDone

/-- Leaving RUNNING: the entry queue is discarded and counted (R50, R53); frames to send stay (log 52). -/
def State.canStop (s : State) (c : Nat) : State :=
  (s.bump (canKey c 0x48) (s.canAt c).inq.length).setCan c { s.canAt c with inq := [] }

def execDrdyEdge (sp : Fin 8) (r : Bool) (s : State) : Out := .next (s.drdyEdge sp r)
def execSpiTransfer (sp : Fin 8) (m : List Byte) (s : State) : Out := .next (s.spiTransfer sp m)
def execSpiTransferDone (sp : Fin 8) (s : State) : Out := .next (s.spiTransferDone sp)
def execSilent (sp : Fin 8) (s : State) : Out := .next (s.spiSilent sp)
def execWheelEdge (w : Fin 8) (r : Bool) (s : State) : Out := .next (s.wheelEdge w r)
def execWheelSample (w : Fin 8) (s : State) : Out := .next (s.wheelSample w)
def execCanFrameRx (c : Fin 4) (f : CanFrame) (s : State) : Out := .next (s.canFrameRx c f)
def execCanSlotSample (k : Fin 8) (s : State) : Out := .next (s.canSlotSample k)
def execCanFrameTx (c : Fin 4) (s : State) : Out := .next (s.canFrameTx c)
def execBusOff (c : Fin 4) (s : State) : Out := .next (s.busOff c)
def execBusOffRecovery (c : Fin 4) (s : State) : Out := .next (s.busOffRecovery c)
def execCmdSend (h : Fin 2) (c : Fin 4) (f : CanFrame) (s : State) : Out :=
  .next (s.hostCmd h (pgCan c) 1 false (some (fun s => s.canSend c f)))
def execCmdRecover (h : Fin 2) (c : Fin 4) (s : State) : Out :=
  .next (s.hostCmd h (pgCan c) 2 false (some (fun s => (s.canRecover c).cmdDone (pgCan c) resDone)))

end Sys2Proof.Machine
end

