-- ==== Sys2Proof/Machine/Chain.lean ====
section
/-! DEFINITION. The inertial chain (R279 to R291, R301): samples, DC blocking, the FIR engine, coefficient sets. -/

namespace Sys2Proof.Machine

/-! ### Channels and sets -/

def State.chanAt (s : State) (c : Nat) : Channel := SMap.get (fun _ => {}) s.chain.chans c
def State.setChan (s : State) (c : Nat) (v : Channel) : State :=
  { s with chain := { s.chain with chans := SMap.set (fun _ => {}) s.chain.chans c v } }
def State.chanEn (s : State) (c : Nat) : Bool := s.bit (chanKey c 0) 0
/-- The set that a channel names, where it holds one: taps, DELAY. -/
def State.customSet (s : State) (k : Nat) : Option CoefSet := SMap.get (fun _ => none) s.chain.sets k
/-- Taps of a preset (R286). -/
def presetTaps (k : Nat) : Nat := [31, 127, 255, 511].getD k 0
/-- N of a set; 0 for an empty slot. -/
def State.setTaps (s : State) (k : Nat) : Nat := if k < 4 then presetTaps k else ((s.customSet k).map (fun c => c.coefs.length)).getD 0
def State.chanTaps (s : State) (c : Nat) : Nat := s.setTaps (s.fld (chanKey c 0) 6 4)
/-- R, the rounds of a computation. -/
def State.chanRounds (s : State) (c : Nat) : Nat := (s.chanTaps c + 31) / 32
/-- Coefficient i of a preset: symmetric about the centre, whose coefficient makes the DC gain 1.0 (R286; log 5). -/
def presetAt (k i : Nat) : Word :=
  let mid := presetTaps k / 2
  let j := min i (presetTaps k - 1 - i)
  if j < mid then Config.presetCoef k j
  else fsub fone (fmul 0x40000000 (fsum ((List.range mid).map (Config.presetCoef k))))
/-- Coefficient i of a set. -/
def State.coef (s : State) (k i : Nat) : Word :=
  if k < 4 then presetAt k i
  else ((s.customSet k).map (fun c => c.coefs.getD i 0)).getD 0
/-- DELAY × T_in in FUSION units, to the nearest (R286, R287). -/
def State.chanDelay (s : State) (c : Nat) : Nat :=
  let k := s.fld (chanKey c 0) 6 4
  if k < 4 then (presetTaps k / 2) * s.chanTin c
  else match s.customSet k with
    | some e => ((fround (fmul e.delay (fofInt (s.chanTin c)))).getD 0).toNat
    | none => 0

/-- CHAIN_STALE and CHAIN_SETTLE of a channel, shown also in its status, with the events of R281. -/
def State.chanStale (s : State) (c : Nat) : Bool := s.bit (rk pgChain (0x110 + c / 32 * 4)) (c % 32)
def State.setStale (s : State) (c : Nat) (v : Bool) : State :=
  if s.chanStale c == v then s
  else ((s.setBit (rk pgChain (0x110 + c / 32 * 4)) (c % 32) v).setBit (chanKey c 0x1C) 0 v).event pgChain (if v then 4 else 5)
def State.chanSettling (s : State) (c : Nat) : Bool := s.bit (rk pgChain (0x118 + c / 32 * 4)) (c % 32)
def State.setSettling (s : State) (c : Nat) (v : Bool) : State :=
  (s.setBit (rk pgChain (0x118 + c / 32 * 4)) (c % 32) v).setBit (chanKey c 0x1C) 1 v

/-- The samples a history keeps: the longest set, and those stamped during the longest GUARD. -/
def histDepth : Nat := 528

/-! ### Samples (R280 to R283) -/

/-- Whether a channel's DC stage is frozen (R283). -/
def State.chanFrozen (s : State) (c : Nat) : Bool :=
  s.bit (rk pgChain (0x108 + c / 32 * 4)) (c % 32) || (s.bit (chanKey c 0) 9 && !s.bit (rk pgEgo 0x15C) 1)

/-- One converted sample through the DC stage: the value placed in the history. -/
def State.dcStage (s : State) (c : Nat) (x : Word) : State × Word :=
  if !s.bit (chanKey c 0) 8 then (s, x)
  else
    let m := s.rd (chanKey c 0xC)
    let fz := s.chanFrozen c
    let alpha := fofInt 1 (-(8 + s.fld (chanKey c 0) 15 12 : Nat))
    let m' := if fz then m else fadd m (fmul alpha (fsub x m))
    ((s.wr (chanKey c 0xC) m').setBit (chanKey c 0x1C) 2 fz, fsub x m')

/-- The copies that precede a sample: round(gap / T_in) − 1, to at most 4, where the gap exceeds 1.5 T_in. -/
def fillCount (gap tin : Nat) : Nat := if 2 * gap ≤ 3 * tin then 0 else min 4 ((2 * gap + tin) / (2 * tin) - 1)

/-- A fill copy: the previous sample again, through the DC stage (R280, R282). -/
def State.chanFill (s : State) (c : Nat) (x : Word) : Nat → State
  | 0 => s
  | k + 1 =>
    let q := s.chanAt c
    match q.hist with
    | [] => s
    | p :: _ =>
      let (s, y) := s.dcStage c x
      let n := s.fld (chanKey c 0x1C) 31 16
      let s := (s.bump (rk pgChain 0x50)).setFld (chanKey c 0x1C) 31 16 (min 65535 (n + 1))
      let q := s.chanAt c
      (s.setChan c { q with hist := ({ p with value := y, filled := true } :: q.hist).take histDepth }).chanFill c x k

/-- A sample reaches its channel. A sample for a channel that is not enabled, or while CHAIN does not run, is not taken. -/
def State.chainTake (s : State) (i : ChainIn) : State :=
  let c := i.chan
  if !s.running pgChain || !s.chanEn c then s
  else
    let raw : Word := match i.raw with
      | some r => fofInt r
      | none => i.value
    let x := fadd (fmul raw (s.rd (chanKey c 4))) (s.rd (chanKey c 8))
    let s := s.bump (rk pgChain 0x40)
    let q := s.chanAt c
    let fresh := s.chanStale c || q.hist.isEmpty
    let fills := match q.lastReal with
      | some t => if fresh then 0 else fillCount (i.stamp - t) (s.chanTin c)
      | none => 0
    let s := s.chanFill c q.lastValue fills
    let (s, y) := s.dcStage c x
    let e : Samp := { stamp := i.stamp, value := y, filled := false, still := i.still, stale := i.stale }
    let q := s.chanAt c
    if fresh then
      let n := s.chanTaps c
      ((s.setChan c { q with hist := List.replicate histDepth e, lastReal := some i.stamp, lastValue := x, settle := n }).setStale
        c false).setSettling c (n != 0)
    else
      let n := q.settle - 1
      let s := s.setChan c { q with hist := (e :: q.hist).take histDepth, lastReal := some i.stamp, lastValue := x, settle := n }
      if n = 0 then s.setSettling c false else s

def State.chainSample (s : State) : State :=
  match s.chain.inq with
  | [] => s
  | i :: rest => ({ s with chain := { s.chain with inq := rest } }).chainTake i

/-- Whether the newest real sample is older than 4 T_in at an instant (R281). -/
def State.isOld (s : State) (c tau : Nat) : Bool :=
  match (s.chanAt c).lastReal with
  | some t => decide (t + 4 * s.chanTin c < tau)
  | none => true

/-- CHAIN_STALE, at an output instant of the channel. -/
def State.chanJudgeStale (s : State) (c : Nat) : State :=
  let t := max 1 (s.chanTout c)
  if !s.running pgChain || !s.chanEn c || !s.isOld c (s.now / t * t) then s
  else (s.setStale c true).setSettling c false

/-! ### The FIR engine (R284 to R288) -/

/-- Times in 1/80 µs, in which a round is 64 units and a slot 1. -/
def roundOf (t80 : Nat) : Nat := t80 / 64
/-- The round at whose boundary the computation for an instant starts. -/
def State.startRound (s : State) (tau : Nat) : Nat := (5 * (tau + 16 * s.fld (rk pgChain 0x100) 6 0) + 63) / 64

/-- A channel's computation starts: the N newest samples stamped no later than τ. -/
def State.firStart (s : State) (c : Nat) (tau r : Nat) : State :=
  let s := if s.isOld c tau then (s.setStale c true).setSettling c false else s
  let q := s.chanAt c
  let taken := (q.hist.filter (fun e => decide (e.stamp ≤ tau))).take (s.chanTaps c)
  let t := max 1 (s.chanTout c)
  s.setChan c { q with
    job := some { tau := tau, start := r, left := s.chanRounds c, taken := taken, stale := s.chanStale c, settling := s.chanSettling c }
    nextTau := (tau / t + 1) * t }

/-- A finished computation is released in its slot of round r: the value, S_k, DTIME and the flags. With no sample in the history the
value and the data time are free (log 45). -/
def State.firRelease (s : State) (c r : Nat) (j : FirJob) : State :=
  let k := s.fld (chanKey c 0) 6 4
  let stamp := (64 * r + c) / 5
  let (s, v, d) : State × Word × Nat := match j.taken with
    | [] => let (s, ws) := s.drawWords 2; (s, ws.getD 0 0, (ws.getD 1 0).toNat)
    | e :: _ => (s, fsum ((List.range j.taken.length).map (fun i => fmul (s.coef k i) ((j.taken.map (fun x => x.value)).getD i 0))),
        e.stamp - s.chanDelay c)
  let o : ChainOut := {
    value := v
    stamp := stamp
    tau := j.tau
    dtime := d
    stale := j.stale
    settling := j.settling
    filled := j.taken.any (fun e => e.filled)
    srcStill := (j.taken.head?.map (fun e => e.still)).getD false
    srcStale := (j.taken.head?.map (fun e => e.stale)).getD false }
  let q := s.chanAt c
  let s := s.setChan c { q with job := none, out := (o :: q.out).take 8 }
  let s := s.bump (rk pgChain 0x48)
  let s := if j.stale || j.settling then s.bump (rk pgChain 0x58) else s
  (s.wr (chanKey c 0x10) v).wr64 (chanKey c 0x14) stamp

/-- A channel's slot of round r. -/
def State.firSlot (s : State) (r c : Nat) : State :=
  if !s.chanEn c then s
  else
    let q := s.chanAt c
    let s := match q.job with
      | some j => if j.left = 0 then s.firRelease c r j else s.setChan c { q with job := some { j with left := j.left - 1 } }
      | none => s
    let q := s.chanAt c
    if q.job.isSome || s.halted pgChain || r < s.startRound q.nextTau then s
    else
      let s := s.firStart c q.nextTau r
      let q := s.chanAt c
      s.setChan c { q with job := q.job.map (fun j => { j with left := j.left - 1 }) }

/-- One round, at its boundary. -/
def State.firRound (s : State) : State :=
  let r := s.chain.round
  if !s.running pgChain || 5 * s.now < 64 * r then s
  else
    let s := { s with chain := { s.chain with round := r + 1 } }
    if s.halted pgChain && (List.range 64).all (fun c => (s.chanAt c).job.isNone) then s
    else ((List.range 64).foldl (fun s c => s.firSlot r c) s).bump (rk pgChain 0x60)

/-! ### Coefficient sets (R289 to R291) -/

/-- Whether an image lies where a load may read it. -/
def coefPlace (a n : Nat) : Bool := inLpddr a n || inOpenCommons a n

/-- The checks of R291 in their order: the set, or the first failing code. What cannot be read fails no check of content. -/
def coefCheck (slot : Nat) (hdr body : Option (List Byte)) : Except Nat CoefSet :=
  match hdr with
  | none => .error 7
  | some h =>
    let n := fieldLE h 0 2
    let dec := fieldLE h 2 1
    let delay : Word := BitVec.ofNat 32 (fieldLE h 4 4)
    if n = 0 || 512 < n then .error 2
    else if !([1, 2, 4, 8, 16].contains dec) then .error 3
    else if !(ffinite delay && fle 0 delay && fle delay (fofInt (n - 1))) then .error 4
    else match body with
      | none => .error 7
      | some b =>
        let cs := toWords n b
        if !cs.all ffinite then .error 5
        else if crc32c b ≠ fieldLE h 8 4 then .error 6
        else if 3 < slot then .error 8
        else .ok { dec := dec, delay := delay, coefs := cs }

/-- A load is refused with a code. -/
def State.coefRefuse (s : State) (slot e : Nat) : State :=
  (((s.wrN (rk pgChain 0x120) (e + slot % 4 * 256)).bump (rk pgChain 0x70)).event pgChain 3).cmdDone pgChain resRefused e

/-- A read for a load. -/
def State.coefRead (s : State) (a n : Nat) : State × Option (List Byte) :=
  if coefPlace a n then s.load mEgo a n else (s, none)

/-- The load in progress is done: the slot holds the set, or the load is refused. -/
def State.coefDone (s : State) (slot a : Nat) : State :=
  let s := { s with chain := { s.chain with loading := none } }
  let (s, h) := s.coefRead a 16
  let n := match h with | some b => fieldLE b 0 2 | none => 0
  let (s, b) : State × Option (List Byte) := if n = 0 || 512 < n then (s, none) else s.coefRead (a + 16) (4 * n)
  match coefCheck slot h b with
  | .error e => s.coefRefuse slot e
  | .ok e =>
    let s := { s with chain := { s.chain with sets := SMap.set (fun _ => none) s.chain.sets (4 + slot) (some e) } }
    ((s.bump (rk pgChain 0x68)).event pgChain 2).cmdDone pgChain resDone

/-- The load in progress goes on where the memory that holds its image serves accesses; a DISMISS of MEM or COMMONS makes it wait (R290,
R349; log 105). -/
def State.coefServe (s : State) : State :=
  match s.chain.loading with
  | none => s
  | some (slot, a) =>
    if (inLpddr a 16 && !s.running pgMem) || (inOpenCommons a 16 && !s.running pgCommons) then s else s.coefDone slot a

/-- CMD_COEF_LOAD. -/
def State.coefLoad (s : State) : State :=
  let slot := s.arg pgChain 0
  let a := s.argAddr pgChain 1
  if s.blk pgChain ≠ stOff && s.blk pgChain ≠ stIdle then s.coefRefuse slot 1
  else State.coefServe { s with chain := { s.chain with loading := some (slot, a) } }

/-! ### Enable and DISMISS -/

/-- Whether a channel's enable is refused (R279, R284, R289). -/
def State.chanRefused (s : State) (c : Nat) : Bool :=
  let k := s.fld (chanKey c 0) 6 4
  (4 ≤ k && (s.customSet k).isNone) ||
    (c < 48 && s.fld (chanKey c 0) 2 1 != s.fld (imuKey (c / 6) 0) 17 16) ||
    decide (5 * s.chanTout c < 80 * s.fld (rk pgChain 0x100) 6 0 + 64 * (s.chanRounds c + 2))

/-- A write of CHAIN_CH_CTRL that sets EN is judged. -/
def State.chanJudge (s : State) (c : Nat) : State :=
  if s.chanRefused c then (s.setBit (chanKey c 0) 0 false).event pgChain 1 else s

/-- Whether CHAIN's enable is refused: GUARD lies outside 1 to 100, a load is in progress (R290), or an enabled channel could not be enabled
now. -/
def State.chainRefused (s : State) : Bool :=
  let g := s.fld (rk pgChain 0x100) 6 0
  g == 0 || decide (100 < g) || s.chain.loading.isSome || (List.range 64).any (fun c => s.chanEn c && s.chanRefused c)

/-- Computations in progress are abandoned. -/
def State.chainAbandon (s : State) : State :=
  { s with chain := { s.chain with inq := [], chans := s.chain.chans.map (fun e => (e.1, { e.2 with job := none, out := [] })) } }

/-- CHAIN enters RUNNING: instants and rounds start afresh, and a channel with no history is STALE. -/
def State.chainStart (s : State) : State :=
  let s := s.chainAbandon
  let s := { s with chain := { s.chain with round := 5 * s.now / 64 + 1 } }
  ((List.range 64).filter (fun c => s.chanEn c)).foldl (fun s c =>
    let t := max 1 (s.chanTout c)
    let q := s.chanAt c
    let s := s.setChan c { q with nextTau := (s.now / t + 1) * t }
    if q.hist.isEmpty then s.setStale c true else s) s

/-- CHAIN leaves RUNNING. -/
def State.chainStop (s : State) : State := s.chainAbandon

/-- DISMISS of CHAIN (R290, R301): a load in progress is abandoned and leaves its slot empty; every history goes, so each channel is STALE
until its next sample. -/
def State.chainDismiss (s : State) : State :=
  let s := s.chainAbandon
  let sets := match s.chain.loading with
    | some (slot, _) => if slot < 4 then SMap.set (fun _ => none) s.chain.sets (4 + slot) none else s.chain.sets
    | none => s.chain.sets
  let s := { s with chain := { s.chain with loading := none, sets := sets } }
  let s := { s with chain := { s.chain with chans := [] } }
  ((List.range 64).filter (fun c => s.chanEn c)).foldl (fun s c => (s.setStale c true).setSettling c false) s

/-- A time moved by a step at the boundary `at_`. -/
def moveTau (at_ j t tau : Nat) : Nat := if tau ≤ at_ then tau + j else ((at_ + j) / t + 1) * t

/-- The FUSION stamps of a port's edges on their way to the chain move by J, so that the step opens no gap behind them (R300; log 106). -/
def SpiPort.fusStep (q : SpiPort) (j : Nat) : SpiPort :=
  let move (x : Stamp) : Stamp := { x with fus := x.fus + j }
  { q with
    waiting := q.waiting.map (fun w => { w with stamp := move w.stamp })
    active := q.active.map (fun a => (move a.1, a.2))
    pendEdge := q.pendEdge.map move }

/-- A forward FUSION step of J (R300): every stamp moves, those shown in the channel blocks too; an instant that has passed moves with
them, and the next is the first multiple of T_out after the step. -/
def State.chainFusStep (s : State) (at_ j : Nat) : State :=
  let samp (e : Samp) : Samp := { e with stamp := e.stamp + j }
  let job (x : FirJob) : FirJob := { x with tau := x.tau + j, taken := x.taken.map samp }
  let outp (o : ChainOut) : ChainOut := { o with stamp := o.stamp + j, tau := o.tau + j, dtime := o.dtime + j }
  let chan (e : Nat × Channel) : Nat × Channel := (e.1, { e.2 with
    hist := e.2.hist.map samp
    lastReal := e.2.lastReal.map (· + j)
    job := e.2.job.map job
    nextTau := moveTau at_ j (max 1 (s.chanTout e.1)) e.2.nextTau
    out := e.2.out.map outp })
  let s := (List.range 64).foldl (fun s c =>
    if s.rd64 (chanKey c 0x14) = 0 then s else s.wr64 (chanKey c 0x14) (s.rd64 (chanKey c 0x14) + j)) s
  let s := (List.range 8).foldl (fun s p => s.setSpi p ((s.spiAt p).fusStep j)) s
  { s with
    chain := { s.chain with
      inq := s.chain.inq.map (fun i => { i with stamp := i.stamp + j })
      round := 5 * (at_ + j) / 64 + 1
      chans := s.chain.chans.map chan } }

def execChainSample (s : State) : Out := .next s.chainSample
def execChainStale (c : Fin 64) (s : State) : Out := .next (s.chanJudgeStale c)
def execFirRound (s : State) : Out := .next s.firRound
def execCmdCoefLoad (h : Fin 2) (s : State) : Out := .next (s.hostCmd h pgChain 1 false (some (·.coefLoad)))

end Sys2Proof.Machine
end

