-- ==== Sys2Proof/Machine/Csi.lean ====
section
/-! DEFINITION. The CSI-2 receive ports (R35 to R53, R71 to R73): packets, frames and the event decoder. -/

namespace Sys2Proof.Machine

/-- The entry queue's capacity (R50) and the longest event packet (R38). -/
def csiQueueCap : Nat := 262144
def csiMaxEvent : Nat := 16384

def State.csiLevel (s : State) (p : Nat) : Nat := s.fld (rk (pgCsi p) 0x170) 18 0
/-- The bytes reserved for a packet: word count and CRC of a long one. -/
def csiNeed (k : CsiPacket) : Nat := if k.dt.toNat < 0x10 then 0 else k.payload.length + 2

/-- How a port takes a packet with a good header (R36, R37). -/
inductive CsiVerdict where
  | accept | ignore | filter | oversize
deriving DecidableEq, Repr

def State.csiVerdict (s : State) (p : Nat) (k : CsiPacket) : CsiVerdict :=
  let sel := s.rdN (rk (pgCsi p) 0x104)
  let dt := k.dt.toNat
  let onVc := decide (k.vc.toNat = bits sel 3 0)
  if s.bit (rk (pgCsi p) 0x100) 0 then
    if !onVc then .filter
    else if dt < 2 then .accept
    else if dt < 4 then .ignore
    else if dt < 0x10 then .filter
    else if dt = bits sel 23 16 && [0x2B, 0x2C, 0x24, 0x1E].contains dt then .accept
    else .filter
  else if dt < 0x10 then (if onVc then .ignore else .filter)
  else if !onVc || dt < 0x30 || 0x37 < dt || !sel.testBit (8 + (dt - 0x30)) then .filter
  else if csiMaxEvent < k.payload.length then .oversize
  else .accept

/-- OVERFLOW of the frame being received, or of the next one (R50). The spec does not say which frame's header shows it: the model marks the
frame that is open where the packets leave the queue, and with none open the next to open (log 16). -/
def CsiPort.markOverflow (c : CsiPort) : CsiPort :=
  match c.frame with
  | some f => { c with frame := some { f with overflow := true } }
  | none => { c with ovfMark := true }

/-- A packet shows that the lanes are locked and, on D-PHY, that the deskew before it is done (R35, R71; log 88). -/
def State.csiLocked (s : State) (p : Nat) : State :=
  s.setFld (rk (pgCsi p) 0x174) 1 0 (if s.bit (rk (pgCsi p) 0x100) 4 then 1 else 3)

/-- A packet is stamped, filtered and queued, or discarded (R34 to R38, R50). A port that is not RUNNING takes none (log 15). -/
def State.csiPacket (s : State) (p : Nat) (k : CsiPacket) : State :=
  let pg := pgCsi p
  if !s.running pg then s
  else
    let s := s.csiLocked p
    match k.hdr with
    | .bad => s.bump (rk pg 0x58)
    | h =>
      let s := if h = .corrected then s.bump (rk pg 0x50) else s
      match s.csiVerdict p k with
      | .ignore => s
      | .filter => s.bump (rk pg 0x68)
      | .oversize => s.bump (rk pg 0x58)
      | .accept =>
        let lvl := s.csiLevel p
        if csiQueueCap < lvl + (csiNeed k) then
          (s.bump (rk pg 0x48)).setCsi p (s.csiAt p).markOverflow
        else
          let c := s.csiAt p
          (s.setFld (rk pg 0x170) 18 0 (lvl + (csiNeed k))).setCsi p
            { c with queue := c.queue ++ [{ pkt := k, tb0 := s.time.tb0, fus := s.now }] }

/-- The ZE64 word (R95). -/
def ze64 (sensor x y : Nat) (pol : Bool) (kind t : Nat) : DWord :=
  BitVec.ofNat 64 (sensor * 2 ^ 60 + x % 4096 * 2 ^ 48 + y % 4096 * 2 ^ 36 + (if pol then 2 ^ 35 else 0) + kind * 2 ^ 32 + t % 2 ^ 32)

/-- R45: the FUSION value of a sensor time. -/
def Triple.map (t : Triple) (x : Int) : Int := t.a + Int.fdiv ((x - t.b) * t.k) (2 ^ 24 : Nat)

/-- R45 with its clamp to the packet's stamp. -/
def State.csiTime (s : State) (p stamp : Nat) (x : Nat) : State × Nat :=
  let t := (s.csiAt p).triple.map x
  if (stamp : Int) < t then (s.sat (rk (pgCsi p) 0x178), stamp) else (s, ofSigned 64 t)

/-- Emits one record (R43). -/
def State.csiEmit (s : State) (p : Nat) (w : DWord) : State :=
  let c := s.csiAt p
  (s.setCsi p { c with out := c.out ++ [w] }).bump (rk (pgCsi p) 0x70)

def State.csiBadWord (s : State) (p : Nat) : State := s.bump (rk (pgCsi p) 0x78)

/-- The sensor time of the last TIME_HI word with a low part, extended to 64 bits (R43). -/
def CsiPort.sensorTime (c : CsiPort) (d : Desc) (tlo : Nat) : Nat :=
  (c.wraps * 2 ^ (d.thi.w + d.tlo.w) + c.prevThi.getD 0 * 2 ^ d.tlo.w + tlo) % 2 ^ 64

/-- The type of a word. -/
def Desc.typeOf (d : Desc) (w : Nat) : Option WordType := (d.codes.find? (fun e => e.1 == d.type.get w)).map (fun e => e.2)

/-- One word (R43 to R46). A VECTOR word converts its time once, so a clamp counts once for the word, whatever records it makes
(log 85). -/
def State.csiWord (s : State) (p stamp : Nat) (d : Desc) (w : Nat) : State :=
  let c := s.csiAt p
  match d.typeOf w with
  | none => s.csiBadWord p
  | some .timeHi =>
    let thi := d.thi.get w
    let wraps := c.wraps + (match c.prevThi with | some q => if thi < q then 1 else 0 | none => 0)
    let c := { c with prevThi := some thi, wraps := wraps, row := none }
    let x := c.sensorTime d 0
    let s := (s.setCsi p { c with offers := c.offers ++ [(some x, stamp)] }).setBit (rk (pgCsi p) 0x174) 3 true
    let (s, t) := s.csiTime p stamp x
    s.csiEmit p (ze64 p 0 0 false 2 t)
  | some ty =>
    if c.prevThi.isNone then s.csiBadWord p
    else
      let pol := (d.pol.get w % 2 == 1) != d.polInv
      match ty with
      | .event =>
        let (s, t) := s.csiTime p stamp (c.sensorTime d (d.tlo.get w))
        s.csiEmit p (ze64 p (d.x.get w) (d.y.get w) pol 0 t)
      | .row => s.setCsi p { c with row := some (d.y.get w, pol, d.tlo.get w) }
      | .trigger =>
        let (s, t) := s.csiTime p stamp (c.sensorTime d (d.tlo.get w))
        s.csiEmit p (ze64 p 0 0 pol 1 t)
      | _ =>
        match c.row with
        | none => s.csiBadWord p
        | some (y, rpol, tlo) =>
          let xb := d.xb.get w
          let set := (List.range d.bitmap.w).filter (fun i => (d.bitmap.get w).testBit i)
          if set.isEmpty then s
          else
            let (s, t) := s.csiTime p stamp (c.sensorTime d tlo)
            let s := (set.filter (fun i => xb + i < 4096)).foldl (fun s i => s.csiEmit p (ze64 p (xb + i) y rpol 0 t)) s
            if set.any (fun i => 4096 ≤ xb + i) then s.csiBadWord p else s

/-- The whole words of a payload, in order. -/
def chunkWords (wb : Nat) (swap : Bool) (bs : List Byte) : List Nat :=
  (List.range (bs.length / wb)).map (fun i =>
    let b := (bs.drop (i * wb)).take wb
    if swap then beNat b else leNat b)

/-- The packet at the head of the entry queue leaves it. -/
def State.csiPop (s : State) (p : Nat) (q : CsiQueued) (rest : List CsiQueued) : State :=
  (s.setFld (rk (pgCsi p) 0x170) 18 0 (s.csiLevel p - csiNeed q.pkt)).setCsi p { s.csiAt p with queue := rest }

/-- The decoder takes the next event packet once the front end has taken its last words (R38, R43, R51). -/
def State.csiDecodePacket (s : State) (p : Nat) : State :=
  let pg := pgCsi p
  let c := s.csiAt p
  match c.queue with
  | [] => s
  | q :: rest =>
    if !s.running pg || s.bit (rk pg 0x100) 0 || !c.out.isEmpty then s
    else
      let s := s.csiPop p q rest
      if !q.pkt.crcOk then s.bump (rk pg 0x60)
      else
        let s := s.bump (rk pg 0x40)
        match s.csiDesc p with
        | none => s
        | some d =>
          let s := (chunkWords d.wb d.swap q.pkt.payload).foldl (fun s w => s.csiWord p q.fus d w) s
          if q.pkt.payload.length % d.wb ≠ 0 then s.csiBadWord p else s

/-! ### Frame mode -/

/-- The buffers of the ring: the field holds 2 to 7, 0 stands for 8, and 1, which R39 does not allow, acts as 2 (log 16). -/
def State.csiBuffers (s : State) (p : Nat) : Nat :=
  let n := s.fld (rk (pgCsi p) 0x168) 2 0
  if n = 0 then 8 else max n 2
def State.csiStride (s : State) (p : Nat) : Nat := s.fld (rk (pgCsi p) 0x168) 31 16 * 64
def State.csiHeight (s : State) (p : Nat) : Nat := s.fld (rk (pgCsi p) 0x16C) 27 16
/-- A frame buffer: a header of 64 bytes and the lines, in whole 4 KiB units (log 16). -/
def State.csiBufAddr (s : State) (p b : Nat) : Nat :=
  s.rd64 (rk (pgCsi p) 0x160) + b * roundUp (64 + s.csiHeight p * s.csiStride p) 4096

/-- Writes the header of a frame that closes (R40), its fields in the order R40 lists them. `ended` is the Frame End packet, whose stamps
are written; of a frame that is closed without one they are 0. COMPLETE is taken as a Frame End seen with at least the set height of lines,
and LINES_MISSING as its absence (log 16). The frame is the input of the models with a FRAME trigger of the port (R198). -/
def State.csiCloseFrame (s : State) (p : Nat) (f : OpenFrame) (ended : Option CsiQueued) : State :=
  let complete := ended.isSome && decide (s.csiHeight p ≤ f.lines)
  let status := (if complete then 1 else 2) + (if f.crcError then 4 else 0) + (if f.overflow then 8 else 0)
  let s := s.put mHub (s.csiBufAddr p f.buffer)
    (leBytes 8 f.number ++ leBytes 8 f.startTb0 ++ leBytes 8 f.startFus ++
      leBytes 8 ((ended.map (·.tb0)).getD 0) ++ leBytes 8 ((ended.map (·.fus)).getD 0) ++
      leBytes 4 f.lines ++ leBytes 1 status ++ zeros 19)
  ((s.setCsi p { s.csiAt p with frame := none }).setBit (rk (pgCsi p) 0x174) 2 false).sourceFires 2 p (s.csiBufAddr p f.buffer)

/-- The frame packet at the head of the queue, where it is of the kind asked for. -/
def State.csiFrameHead (s : State) (p : Nat) (want : Nat → Bool) : Option (CsiQueued × List CsiQueued) :=
  match (s.csiAt p).queue with
  | q :: rest => if s.running (pgCsi p) && s.bit (rk (pgCsi p) 0x100) 0 && want q.pkt.dt.toNat then some (q, rest) else none
  | [] => none

/-- A Frame Start opens the next buffer; an open frame is closed with LINES_MISSING (R39, R40). -/
def State.frameStart (s : State) (p : Nat) : State :=
  match s.csiFrameHead p (· == 0) with
  | none => s
  | some (q, rest) =>
    let s := s.csiPop p q rest
    let s := match (s.csiAt p).frame with
      | some f => s.csiCloseFrame p f none
      | none => s
    let c := s.csiAt p
    let f : OpenFrame := {
      number := c.frameNo, buffer := c.nextBuf % s.csiBuffers p, startTb0 := q.tb0, startFus := q.fus,
      lines := 0, crcError := false, overflow := c.ovfMark }
    let s := s.sourceRewrites 2 p [(s.csiBufAddr p f.buffer, 1)]
    (s.setCsi p { c with
      frame := some f
      frameNo := c.frameNo + 1
      nextBuf := (c.nextBuf + 1) % s.csiBuffers p
      ovfMark := false
      offers := c.offers ++ [(none, q.fus)] }).setBit (rk (pgCsi p) 0x174) 2 true

/-- A line is written at its stride; a failing CRC leaves it in place (R39, R40). Lines past the set height and bytes past
the stride are not written, and a line outside a frame is dropped (log 16). -/
def State.frameLine (s : State) (p : Nat) : State :=
  match s.csiFrameHead p (fun d => decide (0x10 ≤ d)) with
  | none => s
  | some (q, rest) =>
    let s := (s.csiPop p q rest).bump (rk (pgCsi p) 0x40)
    let s := if q.pkt.crcOk then s else s.bump (rk (pgCsi p) 0x60)
    match (s.csiAt p).frame with
    | none => s
    | some f =>
      let s := if f.lines < s.csiHeight p then
          s.put mHub (s.csiBufAddr p f.buffer + 64 + f.lines * s.csiStride p) (q.pkt.payload.take (s.csiStride p))
        else s
      s.setCsi p { s.csiAt p with frame := some { f with lines := f.lines + 1, crcError := f.crcError || !q.pkt.crcOk } }

/-- A Frame End closes the frame (R40). -/
def State.frameEnd (s : State) (p : Nat) : State :=
  match s.csiFrameHead p (· == 1) with
  | none => s
  | some (q, rest) =>
    let s := s.csiPop p q rest
    match (s.csiAt p).frame with
    | some f => s.csiCloseFrame p f (some q)
    | none => s

/-- The written triple becomes current as one (R45). -/
def State.csiCommit (s : State) (p v : Nat) : State :=
  if v.testBit 0 then
    let pg := pgCsi p
    let k := s.rdN (rk pg 0x150)
    s.setCsi p { s.csiAt p with
      triple := { a := s.rd64 (rk pg 0x140), b := s.rd64 (rk pg 0x148), k := k } }
  else s

/-- Whether the port's enable is refused (R48, R73). -/
def State.csiRefused (s : State) (p : Nat) : Bool :=
  let m := s.rdN (rk (pgCsi p) 0x100)
  let rate := bits m 23 12
  decide (rate < 8) || decide ((if m.testBit 4 then 600 else 450) < rate) || bits m 9 8 == 3 ||
    (m.testBit 0 && s.fld (rk (pgCsi p) 0x104) 23 16 == 0) || (s.csiDesc p).isNone

/-- The decoder starts afresh (R43, R44; log 17). -/
def State.csiStart (s : State) (p : Nat) : State :=
  let c := s.csiAt p
  (s.setCsi p { c with prevThi := none, wraps := 0, row := none, frame := none, ovfMark := false, offers := [] }).setFld
    (rk (pgCsi p) 0x174) 3 0 0

/-- Leaving RUNNING: the entry queue is discarded and its packets counted (R53); a receiver that is off is not locked (log 88). -/
def State.csiStop (s : State) (p : Nat) : State :=
  let c := s.csiAt p
  (((s.bump (rk (pgCsi p) 0x48) c.queue.length).setFld (rk (pgCsi p) 0x170) 18 0 0).setFld (rk (pgCsi p) 0x174) 1 0 0).setCsi p
    { c with queue := [] }

def execCsiPacket (p : Fin 16) (k : CsiPacket) (s : State) : Out := .next (s.csiPacket p k)
def execCsiDecodePacket (p : Fin 16) (s : State) : Out := .next (s.csiDecodePacket p)
def execFrameStart (p : Fin 16) (s : State) : Out := .next (s.frameStart p)
def execFrameLine (p : Fin 16) (s : State) : Out := .next (s.frameLine p)
def execFrameEnd (p : Fin 16) (s : State) : Out := .next (s.frameEnd p)
def execCsiTmapCommit (h : Fin 2) (p : Fin 16) (v : Word) (s : State) : Out :=
  .next (s.hostWrite h (fun s => s.ownerWrite h (pgCsi p) (v.getLsbD 0) (fun s => s.csiCommit p v.toNat)))

end Sys2Proof.Machine
end

