-- ==== Sys2Proof/Machine/Eth.lean ====
section
/-! DEFINITION. The Ethernet ports' receive side (R54 to R60, R323, R324): filtering, routing, the general receive ring and
the point parser. -/

namespace Sys2Proof.Machine

/-- Seconds and ns of a network base's value, which is held in units of 2⁻⁴⁰ ns (R308). -/
def NetBase.ns (b : NetBase) : Nat := (b.value / (2 ^ 40 : Nat)).toNat
def NetBase.secNs (b : NetBase) : Nat × Nat := (b.ns / 10 ^ 9, b.ns % 10 ^ 9)

/-- The EtherType of a frame and where its payload begins; one IEEE 802.1Q tag is passed over (R54). -/
def ethType (f : List Byte) : Nat × Nat :=
  let t := beNat ((f.drop 12).take 2)
  if t = 0x8100 then (beNat ((f.drop 16).take 2), 18) else (t, 14)

/-- A UDP datagram of a frame: source address words, destination port, payload. -/
structure Udp where
  src  : List Nat
  port : Nat
  data : List Byte
deriving DecidableEq, Repr

def beAt (f : List Byte) (o k : Nat) : Nat := beNat ((f.drop o).take k)

/-- The UDP header at an offset. -/
def udpAt (f : List Byte) (o : Nat) (src : List Nat) : Udp :=
  { src := src, port := beAt f (o + 2) 2, data := (f.drop (o + 8)).take (beAt f (o + 4) 2 - 8) }

/-- Where the UDP header of an IPv6 packet begins: from a header of type `nh` at an offset, past the extension headers of RFC 8200 (0
hop-by-hop, 43 routing, 44 fragment, 51 authentication, 60 destination). A fragment is no whole datagram (log 18). -/
def ip6Udp (f : List Byte) : Nat → Nat → Nat → Option Nat
  | 0, _, _ => none
  | k + 1, nh, o =>
    if nh = 17 then some o
    else if nh = 0 || nh = 43 || nh = 60 then ip6Udp f k (beAt f o 1) (o + 8 * (beAt f (o + 1) 1 + 1))
    else if nh = 51 then ip6Udp f k (beAt f o 1) (o + 4 * (beAt f (o + 1) 1 + 2))
    else if nh = 44 then (if beAt f (o + 2) 2 / 8 * 2 + beAt f (o + 2) 2 % 2 = 0 then ip6Udp f k (beAt f o 1) (o + 8) else none)
    else none

/-- The UDP datagram over IPv4 or IPv6 that a frame carries (R56). A fragment is no whole datagram (log 18). -/
def udpOf (f : List Byte) : Option Udp :=
  let (t, o) := ethType f
  if t = 0x0800 && beAt f (o + 9) 1 = 17 && beAt f (o + 6) 2 % 0x4000 = 0 then
    some (udpAt f (o + beAt f o 1 % 16 * 4) [beAt f (o + 12) 4])
  else if t = 0x86DD then
    (ip6Udp f f.length (beAt f (o + 6) 1) (o + 40)).map (fun u =>
      udpAt f u [beAt f (o + 8) 4, beAt f (o + 12) 4, beAt f (o + 16) 4, beAt f (o + 20) 4])
  else none

/-- Whether a datagram goes to the point parser (R56). The address registers hold the address big-endian, four bytes each. -/
def State.ppMatches (s : State) (p : Nat) (u : Udp) : Bool :=
  let pg := pgEth p
  s.bit (rk pg 0x120) 0 && u.port == s.fld (rk pg 0x124) 15 0 &&
    (!s.bit (rk pg 0x120) 2 || (List.range u.src.length).all (fun i => u.src.getD i 0 == s.rdN (rk pg (0x128 + 4 * i))))

/-- A base is enabled while its EN is 1 and TIME is RUNNING (R311). -/
def State.netEnabled (s : State) (b : Nat) : Bool := s.running pgTime && s.bit (rk pgTime (0x200 + b * 0x80)) 0
/-- The enabled base that names a port. -/
def State.netOfPort (s : State) (p : Nat) : Option Nat :=
  [0, 1].find? (fun b => s.netEnabled b && s.fld (rk pgTime (0x200 + b * 0x80)) 3 1 == p)

/-- FUSION some ns ago, in whole units: 125 ns are 2 units (R34). -/
def State.fusAgo (s : State) (ns : Nat) : Nat := (125 * s.time.fus - ns * 2 ^ 41) / (125 * 2 ^ 40)

/-- The stamp block of a received frame (R324). -/
def State.stampBlock (s : State) (p len : Nat) (copy : Bool) : List Byte :=
  let lat := s.fld (rk (pgEth p) 0x110) 15 0
  let fus := s.bit (rk (pgEth p) 0x100) 8
  let n0 := s.netAt 0
  let n1 := s.netAt 1
  let at0 := { n0 with value := n0.value - lat * (2 ^ 40 : Nat) }
  let at1 := { n1 with value := n1.value - lat * (2 ^ 40 : Nat) }
  leBytes 2 len ++
    leBytes 2 ((if n0.state ≠ .free then 1 else 0) + (if n1.state ≠ .free then 2 else 0) + (if fus then 4 else 0) +
      (if copy then 8 else 0)) ++
    zeros 4 ++ leBytes 8 (s.time.tb0 - lat) ++ leBytes 6 at0.secNs.1 ++ leBytes 4 at0.secNs.2 ++
    leBytes 6 at1.secNs.1 ++ leBytes 4 at1.secNs.2 ++ zeros 4 ++ leBytes 8 (if fus then s.fusAgo lat else 0)

/-- Writes a frame with its stamp block into the general receive ring and moves the head. Records follow one another, the
ring's size counts 4 KiB units as the point ring's does, and a frame with no ring set is discarded as an overflow (log 18). -/
def State.ethToRing (s : State) (p : Nat) (f : List Byte) (copy : Bool) : State :=
  let pg := pgEth p
  let size := s.rdN (rk pg 0x188) * 4096
  if size = 0 then s.bump (rk pg 0x48)
  else
    let (s, off) := s.ringPut (s.rd64 (rk pg 0x180)) size (s.ethAt p).ringOff (s.stampBlock p f.length copy ++ f)
    (s.setEth p { s.ethAt p with ringOff := off }).wrN (rk pg 0x18C) off

/-- The bytes of frames the point parser has not taken. -/
def EthPort.held (e : EthPort) : Nat := (e.ppQueue.map (·.len)).foldl (· + ·) 0

/-- gPTP messages TIME supports (R310): Sync, Pdelay_Req, Pdelay_Resp, Follow_Up, Pdelay_Resp_Follow_Up, Announce. -/
def ptpSupported (f : List Byte) (o : Nat) : Bool := [0, 2, 3, 8, 0xA, 0xB].contains (beAt f o 1 % 16)

/-- A gPTP frame reaches TIME, its message at offset `o`; the message acts by its own command (R311). -/
def State.ptpFrame (s : State) (p : Nat) (f : List Byte) (o : Nat) : State :=
  match s.netOfPort p with
  | none => s.bump (rk pgTime 0x78)
  | some b =>
    let s1 := if beAt f (o + 4) 1 = s.fld (rk pgTime (0x200 + b * 0x80)) 15 8 && ptpSupported f o then s else s.bump (rk pgTime 0x78)
    if s.bit (rk pgTime (0x200 + b * 0x80)) 4 then s1.ethToRing p f true else s1

/-- Whether the MAC takes a frame: its own address, a group address or every address; frames of more than 1,518 bytes only
with jumbo frames accepted (log 18). -/
def State.macAccepts (s : State) (p : Nat) (f : List Byte) : Bool :=
  let pg := pgEth p
  let dst := beAt f 0 6
  let own := s.rdN (rk pg 0x104) + s.rdN (rk pg 0x108) * 2 ^ 32
  (s.bit (rk pg 0x10C) 0 || dst == own || (dst / 2 ^ 40) % 2 == 1) && (s.bit (rk pg 0x10C) 1 || decide (f.length ≤ 1518))

/-- A received frame (R50, R54 to R56). -/
def State.ethFrameRx (s : State) (p : Nat) (f : List Byte) (fcsOk : Bool) : State :=
  let pg := pgEth p
  if !s.running pg then s
  else if 65536 < (s.ethAt p).held + f.length then s.bump (rk pg 0x48)
  else if !fcsOk then s.bump (rk pg 0x50)
  else
    let (t, o) := ethType f
    if t = 0x8808 && beAt f o 2 = 1 then s.bump (rk pg 0x58)
    else if !s.macAccepts p f then s
    else
      let s := s.bump (rk pg 0x40)
      if t = 0x88F7 then s.ptpFrame p f o
      else
        match udpOf f with
        | some u =>
          if s.ppMatches p u then
            let lat := s.fld (rk pg 0x110) 15 0
            let e := s.ethAt p
            (s.bump (rk pg 0x60)).setEth p { e with
              ppQueue := e.ppQueue ++ [{ udp := u.data, tb0 := s.time.tb0 - lat, fus := s.fusAgo lat, len := f.length }] }
          else s.ethToRing p f false
        | none => s.ethToRing p f false

/-! ### The point parser -/

/-- Locators of a port by register: R, AZ, EL, X, Y, Z, INT, CHAN, TIME, PTIME (R74). -/
def State.ppLoc (s : State) (p i : Nat) : PLoc := PLoc.ofReg (s.rdN (rk (pgEth p) (0x13C + 4 * i)))

def State.ppFirst (s : State) (p : Nat) : Nat := s.fld (rk (pgEth p) 0x138) 11 0
def State.ppStride (s : State) (p : Nat) : Nat := s.fld (rk (pgEth p) 0x138) 23 12
def State.ppCount (s : State) (p : Nat) : Nat := s.fld (rk (pgEth p) 0x138) 31 24

/-- The intensity as u8: the raw byte, or the top byte of a wider unsigned field; for signed and FP32 fields the spec states no
scale, and the value is free (log 3, log 19). -/
def State.ppIntensity (s : State) (l : PLoc) (d : List Byte) : State × Nat :=
  match l.code d with
  | none => (s, 0)
  | some c =>
    if l.fmt = 0 then (s, c)
    else if l.fmt = 1 then (s, c / 2 ^ 8)
    else if l.fmt = 2 then (s, c / 2 ^ 24)
    else let (w, s) := s.draw; (s, w.toNat % 256)

/-- The coordinates of a point in metres, and whether it is INVALID (R58). -/
def State.ppCoords (s : State) (p : Nat) (d : List Byte) : List Word × Bool :=
  let sr := s.rd (rk (pgEth p) 0x164)
  let sa := s.rd (rk (pgEth p) 0x168)
  let at_ (i : Nat) := (s.ppLoc p i).fp d
  if s.bit (rk (pgEth p) 0x120) 1 then ([fmul (at_ 3) sr, fmul (at_ 4) sr, fmul (at_ 5) sr], false)
  else
    let r := fmul (at_ 0) sr
    let az := fmul (at_ 1) sa
    let el := if (s.ppLoc p 2).en then fmul (at_ 2) sa
      else s.rd (rk (pgEth p) (0x400 + 4 * (((s.ppLoc p 7).int d) % 256).toNat))
    let rc := fmul r (Config.cosFp32 el)
    ([fmul rc (Config.cosFp32 az), fmul rc (Config.sinFp32 az), fmul r (Config.sinFp32 el)], (fval (at_ 0)).cmp (fval 0) == some .eq)

/-- One point of a batch: its 16 bytes, whether it is INVALID and whether its offset was cut (R59). -/
def State.ppPoint (s : State) (p : Nat) (d : List Byte) : State × List Byte × Bool × Bool :=
  let (xyz, bad) := s.ppCoords p d
  let (s, i) := s.ppIntensity (s.ppLoc p 6) d
  let off := (((s.ppLoc p 9).int d) * 2 / 125).toNat
  let b := (xyz.map (fun w => leBytes 4 w.toNat)).flatten ++ leBytes 1 i ++ leBytes 1 (if bad then 1 else 0) ++
    leBytes 2 (min off 0xFFFF)
  (s, b, bad, decide (0xFFFF < off))

/-- The batch reference of a packet and whether it comes from the packet (R59, R60). -/
def State.ppReference (s : State) (p : Nat) (f : PpFrame) : Nat × Option Nat :=
  let l := s.ppLoc p 8
  if (l.code f.udp).isSome then
    let v := l.int f.udp
    (ofSigned 64 ((s.ethAt p).triple.map v), some v.toNat)
  else (f.fus, none)

/-- One packet becomes one batch in the point ring (R58 to R60). A batch goes on at the ring's start past its end; the ring position and the
sequence number go on over an enable; a ring of size 0 takes no batch, whose points and sequence number count all the same (log 88). A batch
that is written counts towards the POINTS triggers of the port (R198). -/
def State.pointBatch (s : State) (p : Nat) : State :=
  let pg := pgEth p
  let e := s.ethAt p
  match e.ppQueue with
  | [] => s
  | f :: rest =>
    if !s.running pg then s
    else
      let s := s.setEth p { e with ppQueue := rest }
      let n := min (s.ppCount p) ((f.udp.length - s.ppFirst p) / max (s.ppStride p) 1)
      let missing := s.ppCount p - n
      let s := s.bump (rk pg 0x70) missing
      if n = 0 then s
      else
        let (ref, fromPkt) := s.ppReference p f
        let step := fun (a : State × List Byte × Nat × Bool) (i : Nat) =>
          let (s, b, bad, satd) := a.1.ppPoint p ((f.udp.drop (s.ppFirst p + i * s.ppStride p)).take (s.ppStride p))
          (s, a.2.1 ++ b, a.2.2.1 + (if bad then 1 else 0), a.2.2.2 || satd)
        let (s, body, bad, satd) := (List.range n).foldl step (s, [], 0, false)
        let e := s.ethAt p
        let hdr := leBytes 8 ref ++ leBytes 8 f.tb0 ++ leBytes 1 (s.fld (rk pg 0x120) 11 8) ++
          leBytes 1 ((if fromPkt.isSome then 1 else 0) + (if satd then 2 else 0) + (if missing ≠ 0 then 4 else 0)) ++
          leBytes 2 n ++ leBytes 8 e.batchSeq ++ zeros 4
        let s := (s.bump (rk pg 0x70) bad).bump (rk pg 0x68) n
        let span := ringSpan (s.rd64 (rk pg 0x170)) (s.rdN (rk pg 0x178) * 4096) e.batches (hdr ++ body).length
        let s := s.sourceRewrites 3 p span
        let (s, off) := s.ringPut (s.rd64 (rk pg 0x170)) (s.rdN (rk pg 0x178) * 4096) e.batches (hdr ++ body)
        let s := if span.isEmpty then s else s.batchWritten p span
        s.setEth p { s.ethAt p with
          batchSeq := e.batchSeq + 1
          batches := off
          offers := e.offers ++ [(fromPkt, f.fus)] }

/-- The written triple becomes current (R59, R74). -/
def State.ethCommit (s : State) (p v : Nat) : State :=
  if v.testBit 0 then
    let pg := pgEth p
    let k := s.rdN (rk pg 0x1A0)
    s.setEth p { s.ethAt p with triple := { a := s.rd64 (rk pg 0x190), b := s.rd64 (rk pg 0x198), k := k } }
  else s

/-- Whether the port's enable is refused (R60), whether or not the parser is enabled: the TIME locator counts from the payload start and is
no field of a point. -/
def State.ethRefused (s : State) (p : Nat) : Bool :=
  s.ppCount p == 0 || s.ppStride p == 0 ||
    [0, 1, 2, 3, 4, 5, 6, 7, 9].any (fun i => (s.ppLoc p i).en && decide (s.ppStride p < (s.ppLoc p i).boff + (s.ppLoc p i).size))

def State.ethStart (s : State) (p : Nat) : State := s.setEth p { s.ethAt p with offers := [] }

/-- Leaving RUNNING: frames that wait for the parser are discarded and counted (R53). -/
def State.ethStop (s : State) (p : Nat) : State :=
  let e := s.ethAt p
  (s.bump (rk (pgEth p) 0x48) e.ppQueue.length).setEth p { e with ppQueue := [] }

def execEthFrameRx (p : Fin 8) (f : List Byte) (ok : Bool) (s : State) : Out := .next (s.ethFrameRx p f ok)
def execPointBatch (p : Fin 8) (s : State) : Out := .next (s.pointBatch p)
def execEthTmapCommit (h : Fin 2) (p : Fin 8) (v : Word) (s : State) : Out :=
  .next (s.hostWrite h (fun s => s.ownerWrite h (pgEth p) (v.getLsbD 0) (fun s => s.ethCommit p v.toNat)))

end Sys2Proof.Machine
end

