-- ==== Sys2Proof/Machine/Engines.lean ====
section
/-! DEFINITION. The matrix engines (R164 to R191): the gather unit, the start and the completion of a tile with its checks, and
margin-scaled operation. -/

namespace Sys2Proof.Machine

/-! ### An engine's settings and status -/

/-- The other engine of a pair (R179). -/
def partner (e : Nat) : Nat := if e % 2 = 0 then e + 1 else e - 1
/-- CHECKED 0, PAIRED 1, UNCHECKED 2 (R178). -/
def State.engArr (s : State) (e : Nat) : Nat := s.fld (rk (pgEng e) 0x104) 1 0
/-- The rail state of ENG4/ENG5: 0 NOMINAL, 1 ENTERING, 2 MARGIN, 3 LEAVING (R191). -/
def State.margin (s : State) : Nat := s.fld (rk (pgEng 4) 0x128) 1 0
/-- The frequency in 100 MHz: ENG4 and ENG5 run at ENG_MARGIN_FREQ outside NOMINAL (R186), and none above CLK_ENG_CAP (R424). -/
def State.engFreq (s : State) (e : Nat) : Nat :=
  min (if 4 ≤ e && s.margin ≠ 0 then s.fld (rk (pgEng 4) 0x12C) 4 0 else s.fld (rk (pgEng e) 0x100) 4 0)
    (s.fld (rk pgClk 0x108) 4 0)
/-- ENG_STATUS bits: 1 FENCED, 2 SLOW, 3 PAIR_ACTIVE, 4 PAIR_LOST. -/
def State.engBit (s : State) (e b : Nat) : Bool := s.bit (rk (pgEng e) 0x10C) b
def State.setEngBit (s : State) (e b : Nat) (v : Bool) : State := s.setBit (rk (pgEng e) 0x10C) b v

/-- ENG_STATUS BUSY, MARGIN_TILE and HALTED, and ENG_TILE_CUR (R189). -/
def State.engShow (s : State) (e : Nat) : State :=
  let t := (s.engAt e).running
  let s := ((s.setEngBit e 0 t.isSome).setEngBit e 5 (match t with | some t => t.layer.margin | none => false)).setEngBit e 6
    (s.halted (pgEng e))
  s.wrN (rk (pgEng e) 0x110)
    (match t with | some t => 0x80000000 + t.gen % 256 * 65536 + t.tag % 65536 | none => 0)

/-- A duration of engine cycles, and one of ns, in a unit that both divide: 1/2184 ns. -/
def cycleUnits (freq cycles : Nat) : Nat := cycles * 21840 / freq
def nsUnits (ns : Nat) : Nat := ns * 2184

/-! ### Operands -/

def isFloat : NumFmt → Bool
  | .int4 | .int8 | .int32 => false
  | _ => true

/-- Reduction inputs per row and cycles per row of an operand pair (R165). -/
def operandPair : NumFmt → NumFmt → Option (Nat × Nat)
  | .int4, .int4 => some (512, 1)
  | .int4, .int8 => some (256, 1)
  | .int8, .int8 => some (256, 1)
  | .e4m3, .e4m3 => some (256, 1)
  | .e4m3, .e5m2 => some (256, 1)
  | .e5m2, .e4m3 => some (256, 1)
  | .e5m2, .e5m2 => some (256, 1)
  | .bf16, .bf16 => some (256, 4)
  | _, _ => none

/-- The passes of a tile (R168). -/
def tilePasses (kb m c : Nat) : Nat := kb * max (m * c) 256

/-- A floating-point code as FP32. -/
def codeToFp (f : NumFmt) (c : Int) : Word :=
  match f with
  | .e4m3 => fof (fmtE4m3.decode c.toNat)
  | .e5m2 => fof (fmtE5m2.decode c.toNat)
  | .bf16 => fof (fmtBf16.decode c.toNat)
  | _ => BitVec.ofInt 32 c

/-- T(q) of the integer formats, and whether an activation is skipped (R182). -/
def skips (f : NumFmt) (q : Nat) (texp a : Int) : Bool :=
  match f with
  | .int8 => decide (a.natAbs < q + 1)
  | .int4 => decide (a.natAbs < 1 + (q + 3) / 4)
  | .int32 => false
  | _ => flt (fabs (codeToFp f a)) (fofInt 1 ((q : Int) - 16 + texp))

/-- d(q) planes of a weight format (R183). -/
def truncPlanes (f : NumFmt) (q : Nat) : Nat :=
  let b := match f with
    | .int8 => 7
    | .int4 => 3
    | .e4m3 => 3
    | .e5m2 => 2
    | .bf16 => 7
    | _ => 0
  (q * b + 14) / 15

/-- A weight without its low planes (R183): an integer towards zero, a code with mantissa bits cleared. -/
def truncWeight (f : NumFmt) (q : Nat) (w : Int) : Int :=
  let p : Int := (2 ^ truncPlanes f q : Nat)
  if isFloat f then Int.fdiv w p * p
  else if 0 ≤ w then w / p * p
  else -((-w) / p * p)

/-- The weights that a tile computes with, and its activations with the skipped ones at zero (R181). -/
def Tile.weights (t : Tile) : List (List Int) :=
  if t.mode = 2 then t.ops.weights.map (List.map (truncWeight t.layer.wfmt t.q)) else t.ops.weights
def Tile.skipped (t : Tile) (a : Int) : Bool := t.mode == 1 && skips t.layer.afmt t.q t.layer.texp a
def Tile.acts (t : Tile) : List (List Int) := t.ops.acts.map (List.map (fun a => if t.skipped a then 0 else a))

/-- Whether |s − h| ≤ TOL × (|s| + |h|) + TOL_ABS (R176). -/
def tolOk (l : LayerDesc) (a b : Word) : Bool :=
  fle (fabs (fsub a b)) (fadd (fmul (l.tol.getD 0) (fadd (fabs a) (fabs b))) (l.tolAbs.getD 0))

/-- Two checksums of a layer agree: exactly modulo 2³², or within the tolerance. -/
def sumOk (l : LayerDesc) (a b : Int) : Bool :=
  if isFloat l.wfmt then tolOk l (BitVec.ofInt 32 a) (BitVec.ofInt 32 b) else (a - b) % (2 ^ 32 : Nat) == 0

/-- A sum of integers, or an FP32 sum of FP32 codes in list order. -/
def laneSum (float : Bool) (xs : List Int) : Int :=
  if float then ((xs.foldl (fun t x => fadd t (BitVec.ofInt 32 x)) (0 : Word)).toNat : Int) else xs.sum
def laneMul (float : Bool) (a b : Int) : Int :=
  if float then ((fmul (BitVec.ofInt 32 a) (BitVec.ofInt 32 b)).toNat : Int) else a * b
/-- Operands as the array takes them: integers, or FP32 codes. -/
def laneOf (f : NumFmt) (c : Int) : Int := if isFloat f then ((codeToFp f c).toNat : Int) else c

/-- Chunks of a row. -/
def chunksOf (n : Nat) : Nat → List Int → List (List Int)
  | 0, _ => []
  | k + 1, xs => if xs.isEmpty then [] else xs.take n :: chunksOf n k (xs.drop n)

/-- One product of a row with a column: cell order within the array, then chunk order (R166). -/
def dotLanes (float : Bool) (chunk : Nat) (a w : List Int) : Int :=
  let ps := List.zipWith (laneMul float) a w
  laneSum float ((chunksOf chunk ps.length ps).map (laneSum float))

/-- Column `n` of a matrix of rows. -/
def column (m : List (List Int)) (n : Nat) : List Int := m.map (fun r => r.getD n 0)

/-! ### Gather unit (R170 to R172) -/

/-- The slot of a site (R170). -/
def siteHash (h cx cy : Nat) : Nat := ((cx * 0x9E35) ^^^ (cy * 0x7F4B)) % 2 ^ h

/-- A hash table: slot to site and row. -/
abbrev SiteMap := SMap (Option (Nat × Nat × Nat))

/-- Linear probing from a slot: the slot where the site stands or may go, and the slots probed. -/
def probe (m : SiteMap) (size cx cy : Nat) : Nat → Nat → Nat → Option (Nat × Nat)
  | 0, _, _ => none
  | fuel + 1, slot, n =>
    match SMap.get (fun _ => none) m slot with
    | none => some (slot, n)
    | some (x, y, _) => if x = cx && y = cy then some (slot, n) else probe m size cx cy fuel ((slot + 1) % size) (n + 1)

/-- The slots that the table of a site list fills, the longest probe sequence, and the duplicates. -/
def buildHash (h : Nat) (sites : List (Nat × Nat)) : SiteMap × Nat × Nat :=
  let r := sites.foldl (fun (a : SiteMap × Nat × Nat × Nat) q =>
    let (m, row, longest, dup) := a
    match probe m (2 ^ h) q.1 q.2 (2 ^ h) (siteHash h q.1 q.2) 1 with
    | none => (m, row + 1, longest, dup)
    | some (slot, n) => match SMap.get (fun _ => none) m slot with
      | some _ => (m, row + 1, max longest n, dup + 1)
      | none => (SMap.set (fun _ => none) m slot (some (q.1, q.2, row)), row + 1, max longest n, dup)) ([], 0, 0, 0)
  (r.1, r.2.2.1, r.2.2.2)

/-- The row of a site in a table. -/
def siteRow (m : SiteMap) (h : Nat) (x y : Int) : Option Nat :=
  if x < 0 || y < 0 then none
  else match probe m (2 ^ h) x.toNat y.toNat (2 ^ h) (siteHash h x.toNat y.toNat) 1 with
    | none => none
    | some (slot, _) => (SMap.get (fun _ => none) m slot).map (·.2.2)

/-- A byte of a feature row as the code of an activation. -/
def byteCode (f : NumFmt) (b : Byte) : Int := if isFloat f then b.toNat else toSigned 8 b.toNat

/-- The sites of the list in an invocation's input buffer, with the header of R156, in list order: each with the VALUE of a fabric list's
entry, or the eight bytes of a tensor's row (R170, R173). None where a read meets an error response. -/
def State.inputSites (s : State) (e : Nat) (f : NumFmt) (trig : TrigDesc) (buf : Nat) : State × Option (List SiteRow) :=
  let (s, hdr) := s.load e buf 16
  let n := fieldLE (hdr.getD []) 8 4
  let (s, entries) := s.load e (buf + 16) (4 * n)
  let (s, rows) := if trig.source = 0 then s.load e (buf + binRows (s.binCap trig.param)) (8 * n) else (s, some [])
  match hdr, entries, rows with
  | some _, some es, some rs => (s, some ((List.range n).map (fun i =>
      let x := fieldLE es (4 * i) 4
      { cx := bits x 19 8, cy := bits x 31 20
        row := (if trig.source = 0 then (rs.drop (8 * i)).take 8 else [BitVec.ofNat 8 x]).map (byteCode f) })))
  | _, _, _ => (s, none)

/-- The rows a tile of `kb` chunks may have at most (R168). -/
def maxRows (kb c : Nat) : Nat := min 4096 (4096 / max 1 (kb * c))

/-- The part of `n` output sites that falls to tile `i`: they are divided as evenly as possible among the fewest tiles that R168 allows, and
earlier tiles take the extra site (R171). A tile past these has no site. -/
def tileShare (n most i : Nat) : Nat × Nat :=
  let tiles := (n + most - 1) / max 1 most
  if i < tiles then (i * (n / tiles) + min i (n % tiles), n / tiles + (if i < n % tiles then 1 else 0)) else (n, 0)

/-- Whether an output site lies inside a box of the region hints; without boxes every site does (R18, R272; log 99). -/
def inBoxes (boxes : Option (List (Nat × Nat × Nat × Nat))) (q : Nat × Nat) : Bool :=
  match boxes with
  | none => true
  | some l => l.any (fun b => decide (b.1 ≤ q.1) && decide (q.1 ≤ b.2.1) && decide (b.2.2.1 ≤ q.2) && decide (q.2 ≤ b.2.2.2))

/-- The table of a site list: the one that the engine keeps, or a new one, with its statistics. Layers of one model that share a list share
its table, which is built once (R170, R189); the engine store holds two. -/
def State.siteTable (s : State) (e : Nat) (t : Tile) (time : Nat) (sites : List (Nat × Nat)) : State × SiteMap :=
  let g := s.engAt e
  let (m, longest, dup) := buildHash t.layer.hashH sites
  let q : HashTable := { model := t.model, time := time, h := t.layer.hashH, sites := sites }
  if g.tables.contains q then (s, m)
  else
    let s := s.setEng e { g with tables := (q :: g.tables).take 2 }
    ((s.sat (rk (pgEng e) 0x120) dup).wrN (rk (pgEng e) 0x11C)
      (min 255 longest + m.length * 65536 / 2 ^ t.layer.hashH * 65536), m)

/-- The activation row of an output site: the feature rows of its kernel's input sites in raster order, zeros for a site that is not in the
table, padded with zeros to whole chunks (R171). -/
def gatherRow (l : LayerDesc) (m : SiteMap) (rows : List SiteRow) (width : Nat) (q : Nat × Nat) : List Int :=
  let cin := ((rows.head?).map (fun r => r.row.length)).getD 0
  let r := (offsets l.radius).flatMap (fun dy => (offsets l.radius).flatMap (fun dx =>
    match (siteRow m l.hashH (l.stride * q.1 + dx) (l.stride * q.2 + dy)).bind (fun i => rows[i]?) with
    | some f => f.row
    | none => List.replicate cin 0))
  (r ++ List.replicate (width - r.length) 0).take width

/-- The gather unit builds the activation rows of tile `i` of a layer, over the site list of its input (R170, R171). -/
def State.gather (s : State) (e : Nat) (t : Tile) (time i : Nat) (rows : List SiteRow) (out : List (Nat × Nat)) : State :=
  let l := t.layer
  let (chunk, c) := (operandPair l.wfmt l.afmt).getD (256, 1)
  let (s, m) := s.siteTable e t time (rows.map (fun r => (r.cx, r.cy)))
  let sites := out.filter (inBoxes t.boxes)
  let (start, len) := tileShare sites.length (maxRows t.kb c) i
  let acts := ((sites.drop start).take len).map (gatherRow l m rows (t.kb * chunk))
  (s.setEng e { s.engAt e with gathered := some acts }).bump (rk (pgEng e) 0x78) acts.length

/-! ### A tile starts (R168, R169) -/

/-- The approximation in force for a tile (R181, R190): the override of the lower engine governs an active pair (R179). -/
def State.approx (s : State) (e : Nat) (t : Tile) : Nat × Nat :=
  let g := if s.engBit e 3 then e / 2 * 2 else e
  let o := s.rdN (rk (pgEng g) 0x108)
  let mode := bits o 2 1
  let q := bits o 11 8
  if o.testBit 0 && mode ≠ 3 && (mode = 0 || q ≠ 0) && (bits o 31 16 == 0xFFFF || bits o 31 16 == t.layerIdx) &&
      (o.testBit 3 || s.fld (rk (pgEng g) 0x124) 2 0 == t.model) then (mode, q)
  else (t.layer.mode, t.layer.q)

/-- Whether an engine's checksums are on for a tile (R178, R185). -/
def State.checks (s : State) (e : Nat) (t : Tile) : Bool := s.engArr e != 2 && !t.layer.margin

/-- The sum of a weight row against its entry of the checksum column (R169). -/
def wchkOk (t : Tile) (ops : TileOperands) : Bool :=
  let f := t.layer.wfmt
  (List.zipWith (fun w c => sumOk t.layer (laneSum (isFloat f) (w.map (laneOf f))) c) ops.weights ops.wchk).all id

/-- The reduction inputs of a tile: its chunks times the chunk size (R165, R168). -/
def Tile.width (t : Tile) : Nat := t.kb * ((operandPair t.layer.wfmt t.layer.afmt).map (·.1)).getD 256

/-- The operands that a staged tile starts with: its weights and checksum column, and its gathered or dense activation rows. None while they
are not in the engine store in the tile's dimensions (R168). -/
def Tile.operands (t : Tile) (gathered : Option (List (List Int))) (ops : TileOperands) : Option TileOperands :=
  let acts := if t.layer.sparse then gathered else some ops.acts
  match acts with
  | none => none
  | some a =>
    if ops.weights.length == t.width && ops.wchk.length == t.width && ops.weights.all (fun r => r.length == t.n) &&
        a.all (fun r => r.length == t.width) && (t.layer.sparse || a.length == t.m) then some { ops with acts := a }
    else none

/-- The passes of a tile with its rows: of a sparse tile the rows are those that were gathered (R168, R171). -/
def Tile.rowPasses (t : Tile) (ops : TileOperands) : Nat :=
  if t.layer.sparse then tilePasses t.kb ops.acts.length (((operandPair t.layer.wfmt t.layer.afmt).map (·.2)).getD 1) else t.passes

/-- What a tile reports, before anything ran. -/
def Tile.report (t : Tile) (e : Nat) (status : TileStatus) (bad : List Nat) (pair : Bool := false) : Completion :=
  { engine := e, entry := t.entry, model := t.model, tag := t.tag, gen := t.gen, status := status, sig := 0, sig2 := 0, ran := []
    bad := bad, fatal := [], unchecked := false, pair := pair }

def State.pushComp (s : State) (c : Completion) : State := { s with tt := { s.tt with comps := s.tt.comps ++ [c] } }

/-- The joint result of a pair's two halves (R179, R204); the lower engine's half first. -/
def Completion.join (a b : Completion) : Completion :=
  let ran := a.ran ++ b.ran
  let bad := a.bad ++ b.bad
  let status := if a.status = .wchk || b.status = .wchk then TileStatus.wchk
    else if a.sig != b.sig then .pairFail
    else if bad.isEmpty then .ok
    else .chkFail
  { a with status := status, sig2 := b.sig, ran := ran, bad := bad, fatal := a.fatal ++ b.fatal, unchecked := a.unchecked || b.unchecked }

/-- An engine's result goes to TT; an active pair's halves are joined by the comparator, and differing signatures raise PAIR_FAIL in
both engines. -/
def State.engResult (s : State) (e : Nat) (c : Completion) : State :=
  let p := partner e
  if s.engBit e 3 then
    match (s.engAt p).pairSeen with
    | some d =>
      let s := s.setEng p { s.engAt p with pairSeen := none }
      let j := (if e < p then c.join d else d.join c)
      let j := { j with engine := min e p, pair := true }
      let s := if j.status = .pairFail then
          ((((s.fault (pgEng e) 1 e).bump (rk (pgEng e) 0x68)).fault (pgEng p) 1 p).bump (rk (pgEng p) 0x68))
        else s
      s.pushComp j
    | none => s.setEng e { s.engAt e with pairSeen := some c }
  else s.pushComp c

/-- Whether an engine may start a tile: in MARGIN a margin-scaled one alone (R186, R188). -/
def State.engStarts (s : State) (e : Nat) (t : Tile) : Bool :=
  s.running (pgEng e) && !s.halted (pgEng e) && !s.engBit e 1 && (e < 4 || s.margin = 0 || (s.margin = 2 && t.layer.margin))

/-- A staged tile starts once its operands are in the engine store: the settings that it keeps, its weight check, and its cycles. A tile that
its weight check keeps from starting counts as completed with the status WCHK (R168, R169, R181, R189). -/
def State.tileStart (s : State) (e : Nat) (ops : TileOperands) : State :=
  let g := s.engAt e
  match g.staged, g.running with
  | some t, none =>
    let level3 := s.fld (rk pgPwr 0x10C) 2 0 == 3
    match t.operands g.gathered ops with
    | none => s
    | some ops =>
    if !s.engStarts e t || (level3 && decide (s.time.tb0 < g.rest)) then s
    else
      let t := { t with readyAt := if level3 then max t.readyAt g.rest else t.readyAt }
      let (mode, q) := s.approx e t
      if s.checks e t && !wchkOk t ops then
        let s := ((s.setEng e { g with staged := none, gathered := none }).bump (rk (pgEng e) 0x40)).fault (pgEng e) 2 e
        s.engResult e (t.report e .wchk [e])
      else
        let joins := match g.lastEnd with
          | some (model, layer, at_) => model == t.model && layer == t.layerIdx && at_ == s.time.tb0
          | none => false
        let passes := t.rowPasses ops
        let t := { t with
          startAt := s.time.tb0, passes := passes, cycles := passes + (if joins then 256 else 512), mode := mode, q := q, ops := ops }
        (s.setEng e { g with staged := none, running := some t, gathered := none }).engShow e
  | _, _ => s

/-! ### A tile ends (R166, R167, R175 to R177) -/

/-- Adds a fault's differences to the accumulators; integer ones wrap modulo 2³². -/
def faulted (float : Bool) (f : TileFault) (row col : Nat) (x : Int) : Int :=
  let y := (f.acc.filter (fun d => d.1 == row && d.2.1 == col)).foldl (fun x d => x + d.2.2) x
  if float then (y % (2 ^ 32 : Nat)) else toSigned 32 (ofSigned 32 y)

/-- The accumulators of a tile, by row. -/
def Tile.accs (t : Tile) (f : TileFault) : List (List Int) :=
  let l := t.layer
  let fl := isFloat l.wfmt
  let chunk := ((operandPair l.wfmt l.afmt).map (·.1)).getD 256
  let ws := t.weights.map (List.map (laneOf l.wfmt))
  let n := (ws.head?.getD []).length
  (t.acts.zip (List.range t.acts.length)).map (fun (a, r) =>
    let al := a.map (laneOf l.afmt)
    (List.range n).map (fun c => faulted fl f r c (dotLanes fl chunk al (column ws c))))

/-- The column check of a row: the row times the weight checksums against the sum of its outputs (R175). -/
def Tile.rowFails (t : Tile) (acc : List (List Int)) : List Nat :=
  let l := t.layer
  let fl := isFloat l.wfmt
  let chunk := ((operandPair l.wfmt l.afmt).map (·.1)).getD 256
  let chk := t.weights.map (fun w => laneSum fl (w.map (laneOf l.wfmt)))
  (List.range acc.length).filter (fun r =>
    !sumOk l (laneSum fl (acc.getD r [])) (dotLanes fl chunk ((t.acts.getD r []).map (laneOf l.afmt)) chk))
/-- The row check of an output column: the sum of the rows times the weights against the column's sum (R175). -/
def Tile.colFails (t : Tile) (acc : List (List Int)) : List Nat :=
  let l := t.layer
  let fl := isFloat l.wfmt
  let chunk := ((operandPair l.wfmt l.afmt).map (·.1)).getD 256
  let ws := t.weights.map (List.map (laneOf l.wfmt))
  let k := (t.acts.head?.getD []).length
  let sums := (List.range k).map (fun i => laneSum fl ((column t.acts i).map (laneOf l.afmt)))
  (List.range (ws.head?.getD []).length).filter (fun c =>
    !sumOk l (laneSum fl (column acc c)) (dotLanes fl chunk sums (column ws c)))

/-- Division rounded with ties away from zero. -/
def roundAway (a : Int) (b : Nat) : Int := if 0 ≤ a then (2 * a + b) / (2 * b : Nat) else -((-2 * a + b) / (2 * b : Nat))

/-- The range of an integer output format. -/
def intRange : NumFmt → Int × Int
  | .int4 => (-8, 7)
  | .int8 => (-128, 127)
  | _ => (-(2 ^ 31), 2 ^ 31 - 1)

/-- The output stage for channel `c` of the layer (R167); a floating-point result is its code. The ReLU follows the conversion: it makes a
negative value +0 and leaves −0 and NaN as they are (log 97). -/
def outputStage (l : LayerDesc) (c : Nat) (acc : Int) : Int :=
  if isFloat l.wfmt then
    let y := fmul (fadd (BitVec.ofInt 32 acc) (BitVec.ofInt 32 (l.bias.getD c 0))) (BitVec.ofInt 32 (l.mult.getD c 0))
    let code : Int := match l.ofmt with
      | .e4m3 => (fmtE4m3.encode true (fval y) : Nat)
      | .e5m2 => (fmtE5m2.encode true (fval y) : Nat)
      | .bf16 => (fmtBf16.encode true (fval y) : Nat)
      | _ => (fmt32.encode true (fval y) : Nat)
    if l.relu && flt (codeToFp l.ofmt code) 0 then 0 else code
  else
    let (lo, hi) := intRange l.ofmt
    let y := clampI lo hi (roundAway ((acc + l.bias.getD c 0) * l.mult.getD c 0) (2 ^ l.shift.getD c 0))
    if l.relu && y < 0 then 0 else y

/-- ENG_CHK_LAST and ENG_CHK_LAYER (R177). -/
def State.chkRecord (s : State) (e : Nat) (t : Tile) (rows cols : List Nat) : State :=
  let v := 0x80000000 + (if cols.isEmpty then 0 else 2 ^ 20) + (if rows.isEmpty then 0 else 2 ^ 21) +
    (cols.head?.getD 0) % 256 * 2 ^ 12 + rows.head?.getD 0 % 4096
  (s.wrN (rk (pgEng e) 0x114) v).wrN (rk (pgEng e) 0x118) (0x80000000 + t.model % 8 * 65536 + t.layerIdx % 65536)

/-- CNT_ACT, CNT_SKIP and ENG_STATS of a SKIP tile (R184, R189). -/
def State.skipCount (s : State) (e : Nat) (t : Tile) : State :=
  if t.mode ≠ 1 then s
  else
    let a := t.ops.acts.flatten
    let n := a.length
    let k := (a.filter t.skipped).length
    let s := (s.bump (rk (pgEng e) 0x50) n).bump (rk (pgEng e) 0x58) k
    if t.layerIdx < 128 && t.model == s.fld (rk (pgEng e) 0x124) 2 0 then
      let g := s.engAt e
      let (x, y) := SMap.get (fun _ => (0, 0)) g.stats t.layerIdx
      s.setEng e { g with stats := SMap.set (fun _ => (0, 0)) g.stats t.layerIdx (x + n, y + k) }
    else s

/-- The timing canaries of ENG4 and ENG5 count near-misses on the ENG4 page, which alone has ENG_MARGIN_WARN, and set MARGIN_WARN on the
engine's own (R187, R189; log 98). -/
def State.canaries (s : State) (e n : Nat) : State :=
  if e < 4 || n = 0 then s
  else (s.wrN (rk (pgEng 4) 0x130) (min (s.rdN (rk (pgEng 4) 0x130) + n) 0xFFFFFFFF)).event (pgEng e) 4

/-- The faults of R167, R172 and R164 that an engine finds in a tile, with TT's cause for each (R209). -/
def State.tileFaults (s : State) (e : Nat) (f : TileFault) : State × List (Nat × Nat) :=
  let s := s.canaries e f.nearMiss
  let s := if f.ecc then s.fault (pgEng e) 5 e else s
  let s := if f.outCmp then s.fault (pgEng e) 3 e else s
  let s := if f.gatherSig then s.fault (pgEng e) 4 e else s
  (s, (if f.ecc then [(e, 2)] else []) ++ (if f.outCmp then [(e, 3)] else []) ++ (if f.gatherSig then [(e, 4)] else []))

/-- The running tile ends, not before its cycles have passed; CNT_CHK_FAIL counts each check that failed (R168, R177). -/
def State.tileComplete (s : State) (e : Nat) (f : TileFault) : State :=
  let g := s.engAt e
  match g.running with
  | none => s
  | some t =>
    let exp := cycleUnits (s.engFreq e) t.cycles
    if nsUnits (s.time.tb0 - t.startAt) < exp then s
    else
      let acc := t.accs f
      let on := s.checks e t
      let rows := if on then t.rowFails acc else []
      let cols := if on then t.colFails acc else []
      let bad := !rows.isEmpty || !cols.isEmpty
      let out := acc.map (fun r => (r.zip (List.range r.length)).map (fun (x, c) => outputStage t.layer (t.ops.chan + c) x))
      let (s, fatal) := s.tileFaults e f
      let s := ((s.bump (rk (pgEng e) 0x40)).bump (rk (pgEng e) 0x48) t.passes).skipCount e t
      let s := if bad then ((s.fault (pgEng e) 0 e).bump (rk (pgEng e) 0x60) (rows.length + cols.length)).chkRecord e t rows cols else s
      let g := s.engAt e
      let staged := g.staged.map (fun u => { u with readyAt := max u.readyAt s.time.tb0 })
      let s := (s.setEng e { g with
        running := none, staged := staged, lastRows := out
        lastEnd := some (t.model, t.layerIdx, s.time.tb0), rest := 2 * s.time.tb0 - t.startAt }).engShow e
      let c : Completion := {
        engine := e, entry := t.entry, model := t.model, tag := t.tag, gen := t.gen
        status := if bad then .chkFail else .ok
        sig := out.foldl Config.rowHash 0, sig2 := 0
        ran := [(e, exp, nsUnits (s.time.tb0 - t.readyAt))]
        bad := if bad then [e] else [], fatal := fatal
        unchecked := s.engArr e == 2 || t.layer.margin }
      s.engResult e c

/-! ### DISMISS, enable and pairs (R179, R180, R188) -/

/-- An engine's tiles are abandoned, and the gathered rows and a half result discarded; a tile in progress counts as completed. -/
def State.engDrop (s : State) (e : Nat) : State :=
  let g := s.engAt e
  let s := (s.setEng e { g with running := none, staged := none, gathered := none, pairSeen := none, lastEnd := none }).engShow e
  if g.running.isSome then s.bump (rk (pgEng e) 0x40) else s
/-- The tiles that an engine holds, the running one first. -/
def Engine.held (g : Engine) : List Tile := g.running.toList ++ g.staged.toList

/-- The tiles of one engine are abandoned and reported DISMISSED. -/
def State.engSolo (s : State) (e : Nat) : State :=
  let ts := (s.engAt e).held
  ts.foldl (fun s t => s.pushComp (t.report e .dismissed [])) (s.engDrop e)

/-- The tiles of an engine are abandoned and reported DISMISSED; those of an active pair on both engines, with one report for each (R188,
R204). -/
def State.engAbandon (s : State) (e : Nat) : State :=
  if s.engBit e 3 then
    let l := e / 2 * 2
    let a := (s.engAt l).held
    let b := (s.engAt (l + 1)).held.filter (fun t => !a.any (fun u => u.entry == t.entry && u.gen == t.gen))
    (a ++ b).foldl (fun s t => s.pushComp (t.report l .dismissed [] true)) ((s.engDrop l).engDrop (l + 1))
  else s.engSolo e

/-- An engine leaves RUNNING: a pair that was active is lost, and the partner runs alone (R180, R466). -/
def State.pairBreak (s : State) (e : Nat) : State :=
  let p := partner e
  let active := s.engBit e 3
  let s := (s.setEngBit e 3 false).setEngBit e 4 false
  if active then (s.setEngBit p 3 false).setEngBit p 4 true else s

/-- Whether an engine's enable is refused (R179, R189). -/
def State.engRefused (s : State) (e : Nat) : Bool :=
  let f := s.fld (rk (pgEng e) 0x100) 4 0
  let p := partner e
  decide (f < 12) || decide (16 < f) || s.engArr e == 3 ||
    (s.engArr e == 1 && (s.engArr p != 1 || s.fld (rk (pgEng p) 0x100) 4 0 != f || (decide (4 ≤ e) && s.margin != 0)))

/-- An engine enters RUNNING: a pair is active once both run, neither is fenced and neither runs alone (R179, R180; log 34). -/
def State.engStart (s : State) (e : Nat) : State :=
  let p := partner e
  if s.engArr e = 1 && s.running (pgEng p) && s.engArr p = 1 && !s.engBit e 1 && !s.engBit p 1 then
    if s.engBit p 4 then s.setEngBit e 4 true else (s.setEngBit e 3 true).setEngBit p 3 true
  else s

/-! ### Margin-scaled operation (R185 to R187, R191) -/

def State.setMargin (s : State) (st : Nat) : State := s.setFld (rk (pgEng 4) 0x128) 1 0 st

/-- CMD_MARGIN_ENTER: refused with its cause, or towards MARGIN; in MARGIN it is complete, outside NOMINAL and MARGIN it is refused
(log 31). -/
def State.marginEnter (s : State) : State :=
  let v := s.arg (pgEng 4) 0 % 32
  let no (s : State) (c : Nat) : State := (s.setFld (rk (pgEng 4) 0x128) 7 4 c).cmdDone (pgEng 4) resRefused c
  let down (e : Nat) : Bool := s.blk (pgEng e) = stTesting || s.blk (pgEng e) = stFaulted
  if s.margin = 2 then s.cmdDone (pgEng 4) resDone
  else if s.margin ≠ 0 then s.cmdDone (pgEng 4) resRefused
  else if s.engArr 4 = 1 || s.engArr 5 = 1 then no s 1
  else if down 4 || down 5 then no s 2
  else if 30 < v then no s 3
  else (s.setFld (rk (pgEng 4) 0x128) 15 8 v).setMargin 1

/-- CMD_MARGIN_EXIT: in NOMINAL it is complete (log 31). -/
def State.marginExit (s : State) : State :=
  if s.margin = 0 then s.cmdDone (pgEng 4) resDone
  else if s.margin = 2 then s.setMargin 3
  else s.cmdDone (pgEng 4) resRefused

/-- The rail settles, on entry after the last tile's completion (R186). -/
def State.marginSettled (s : State) : State :=
  if s.margin = 1 && (s.engAt 4).running.isNone && (s.engAt 5).running.isNone then
    ((s.setMargin 2).event (pgEng 4) 2).cmdDone (pgEng 4) resDone
  else if s.margin = 3 then
    (((s.setMargin 0).setFld (rk (pgEng 4) 0x128) 15 8 0).event (pgEng 4) 3).cmdDone (pgEng 4) resDone
  else s

/-- A write of ENG_STATS_MODEL (R189). -/
def State.engStatsModel (s : State) (e : Nat) (v : Word) : State :=
  (s.wrN (rk (pgEng e) 0x124) (v.toNat % 8)).setEng e { s.engAt e with stats := [] }

def execTileStart (e : Fin 6) (ops : TileOperands) (s : State) : Out := .next (s.tileStart e ops)
def execTileComplete (e : Fin 6) (f : TileFault) (s : State) : Out := .next (s.tileComplete e f)
def execCmdMarginEnter (h : Fin 2) (s : State) : Out := .next (s.hostCmd h (pgEng 4) 1 false (some (·.marginEnter)))
def execCmdMarginExit (h : Fin 2) (s : State) : Out := .next (s.hostCmd h (pgEng 4) 2 false (some (·.marginExit)))
def execEngStatsModel (h : Fin 2) (e : Fin 6) (v : Word) (s : State) : Out :=
  .next (s.hostWrite h (fun s => s.ownerWrite h (pgEng e) true (fun s => s.engStatsModel e v)))

end Sys2Proof.Machine
end

