-- ==== Sys2Proof/Machine/SecOps.lean ====
section
/-! DEFINITION. What SEC does for other blocks (R432, R433, R438 to R440): key slots, signatures, and the measurements with their
log. -/

namespace Sys2Proof.Machine

/-- A measurement register; zero at PORST_N (R439). -/
def State.measure (s : State) (i : Nat) : List Byte := SMap.get (fun _ => zeros 32) s.sec.measures i

/-- The log entry of an extend (R440). -/
def logEntry (i typ slot tb0 : Nat) (d : List Byte) : List Byte :=
  leBytes 1 i ++ leBytes 1 typ ++ leBytes 2 slot ++ zeros 4 ++ leBytes 8 tb0 ++ zeros 8 ++ d.take 32 ++ zeros (32 - d.length) ++ zeros 8

/-- Mi ← SHA3-256(Mi ‖ d), with its log entry while there is room (R439). -/
def State.extend (s : State) (i typ slot : Nat) (d : List Byte) : State :=
  let log := s.sec.log
  let full := decide (512 ≤ log.length)
  let log' := if full then log else log ++ [logEntry i typ slot s.time.tb0 d]
  let s : State := { s with sec := { s.sec with
    measures := SMap.set (fun _ => zeros 32) s.sec.measures i (sha3 (s.measure i ++ d))
    log := log' } }
  let s := (s.bump (rk pgSec 0x50)).setFld (rk pgSec 0x124) 9 0 log'.length
  if 512 ≤ log'.length && !s.bit (rk pgSec 0x124) 31 then (s.setBit (rk pgSec 0x124) 31 true).event pgSec 3 else s

/-- The lengths of public keys and signatures (R432). -/
def Fuses.pkLen (f : Fuses) : Nat := if f.mlDsa65 then 1952 else 1312
def Fuses.sigLen (f : Fuses) : Nat := if f.mlDsa65 then 3309 else 2420

/-- Whether a key's hash stands in a slot that is programmed and not revoked (R433). -/
def keyLive (hashes : List (List Byte)) (revoked slot : Nat) (key : List Byte) : Bool :=
  let h := hashes.getD slot []
  !h.isEmpty && !revoked.testBit slot && h == sha3 key

/-- "JRN-FW", "JRN-MDL" and "JRN-DBG" (R432). -/
def ctxFw : List Byte := [0x4A, 0x52, 0x4E, 0x2D, 0x46, 0x57]
def ctxMdl : List Byte := [0x4A, 0x52, 0x4E, 0x2D, 0x4D, 0x44, 0x4C]
def ctxDbg : List Byte := [0x4A, 0x52, 0x4E, 0x2D, 0x44, 0x42, 0x47]

/-- A signature check, counted. -/
def State.verified (s : State) (ok : Bool) : State := s.bump (rk pgSec (if ok then 0x40 else 0x48))

/-- Whether the signature over `body` with the key that follows it is good: key and signature stand after the body. -/
def State.sigGood (s : State) (ctx body rest : List Byte) : Bool :=
  let f := s.sec.fuses
  Config.mlDsaVerify f.mlDsa65 (rest.take f.pkLen) ctx body ((rest.drop f.pkLen).take f.sigLen)

/-- Whether a SIG section verifies for an image (R433, R438). -/
def State.modelSigGood (s : State) (img : ImageView) (sig : List Byte) : Bool :=
  let f := s.sec.fuses
  let hdr := sig.take 64
  let (magic, alg, slot, len, dig) := Config.modelHeader hdr
  magic == 0x5A574D53 && alg == (if f.mlDsa65 then 1 else 0) && decide (slot < 4) &&
    keyLive f.mKeys f.mRevoked slot ((sig.drop 64).take f.pkLen) && len == img.length && dig == img.digest &&
    s.sigGood ctxMdl hdr (sig.drop 64)

/-- The signature check of a load (R438, R442): whether it passes, and whether a signature was looked at. -/
def State.modelSig (s : State) (img : ImageView) : Bool × Bool :=
  let good : Bool := match img.sig with
    | none => false
    | some sig => s.modelSigGood img sig
  match s.sec.fuses.lifecycle with
  | 0 => (true, false)
  | 1 => if s.bit (rk pgSec 0x104) 0 then (good, img.sig.isSome) else (true, false)
  | 2 => (good, img.sig.isSome)
  | _ => (false, false)

/-- M3 takes the signed header's digest or, of an unsigned image, the image's (R439). -/
def State.extendModel (s : State) (slot : Nat) (img : ImageView) : State :=
  s.extend 3 3 slot (match img.sig with
    | some sig => sha3 (sig.take 64)
    | none => img.digest)

end Sys2Proof.Machine
end

