-- ==== Sys2Proof/Machine/Timetable.lean ====
section
/-! DEFINITION. The Timetable (R193 to R216): loading and its checks, invocations and triggers, the scoreboard, completions, slow
and failed engines, and swaps. -/

namespace Sys2Proof.Machine

/-! ### Slots -/

def State.slotOf (s : State) (m : Nat) : Slot := SMap.get (fun _ => {}) s.tt.slots m
def State.setSlotOf (s : State) (m : Nat) (v : Slot) : State :=
  { s with tt := { s.tt with slots := SMap.set (fun _ => {}) s.tt.slots m v } }
/-- A register of model slot `m` (R215). -/
def slotReg (m o : Nat) : Nat := rk pgTT (0x200 + m * 0x40 + o)
/-- Slot states (R196). -/
def msEmpty : Nat := 0
def msLoading : Nat := 1
def msReady : Nat := 2
def msActive : Nat := 3
def msDraining : Nat := 4
def msDegraded : Nat := 5
def State.mst (s : State) (m : Nat) : Nat := s.fld (slotReg m 0) 2 0
def State.setMst (s : State) (m v : Nat) : State := s.setFld (slotReg m 0) 2 0 v
/-- TT_MODEL_STATE's pending and armed bits. -/
def State.slotShow (s : State) (m : Nat) : State :=
  (s.setBit (slotReg m 0) 3 (s.slotOf m).pend.isSome).setBit (slotReg m 0) 4 (s.slotOf m).swapTo.isSome

/-- TT_LOAD_ERR, and the command completes refused. -/
def State.ttRefuse (s : State) (code slot idx : Nat) : State :=
  (s.wrN (rk pgTT 0x140) (idx % 65536 * 65536 + slot % 16 * 256 + code)).cmdDone pgTT resRefused code

/-- TT_STATUS's NO_TARGET: some model is DEGRADED. -/
def State.noTarget (s : State) : State :=
  s.setBit (rk pgTT 0x110) 17 ((List.range 8).any (fun m => s.mst m == msDegraded))

/-- No swap stays armed that takes service from slot `m` or gives it to it (R211; log 100). -/
def State.disarm (s : State) (m : Nat) : State :=
  (List.range 8).foldl (fun s k =>
    let q := s.slotOf k
    if q.swapTo.isSome && (k == m || q.swapTo == some m) then (s.setSlotOf k { q with swapTo := none }).slotShow k else s) s

/-- TT_SB_LEVEL. -/
def State.sbShow (s : State) : State :=
  let n := s.tt.board.length
  (s.setFld (rk pgTT 0x114) 12 0 n).peak (rk pgTT 0x114) 28 16 n

/-! ### The task entries (R193, R194) -/

/-- Where a section of an image at `addr` begins. -/
def sectionAt (v : ImageView) (addr id : Nat) : Option Nat :=
  ((v.sections.find? (fun q => q.1 == id)).map (fun q => addr + q.2.1))

/-- A 32-byte task entry and the bytes of its dependency list as a task; reserved bits are not read. -/
def taskEntry (v : ImageView) (i : Nat) (e deps : List Byte) : TaskDesc :=
  { layer := fieldLE e 0 2, depCnt := fieldLE e 2 1, depOff := fieldLE e 4 4
    deps := (List.range (deps.length / 2)).map (fun k => fieldLE deps (2 * k) 2)
    readsIn := (fieldLE e 3 1).testBit 0, writesOut := (fieldLE e 3 1).testBit 1
    m := fieldLE e 8 2, kb := fieldLE e 10 1, nm1 := fieldLE e 11 1, engMask := fieldLE e 12 1 % 64, passes := fieldLE e 14 2
    waddr := fieldLE e 16 8, oaddr := fieldLE e 24 8, out := (v.outs.find? (fun q => q.1 == i)).map (·.2) }

/-- TT reads each task entry once, with its dependency list. None where a section is absent or a read meets an error response (log 32). -/
def State.readTasks (s : State) (v : ImageView) (addr : Nat) : State × Option (List TaskDesc) :=
  match sectionAt v addr 3 with
  | none => (s, none)
  | some base => (List.range v.taskCount).foldl (fun (a : State × Option (List TaskDesc)) i =>
      match a.2 with
      | none => a
      | some ts => match a.1.load mTT (base + 32 * i) 32 with
        | (s, none) => (s, none)
        | (s, some e) =>
          let n := fieldLE e 2 1
          if n = 0 then (s, some (ts ++ [taskEntry v i e []]))
          else match sectionAt v addr 4 with
            | none => (s, none)
            | some deps => match s.load mTT (deps + 2 * fieldLE e 4 4) (2 * n) with
              | (s, none) => (s, none)
              | (s, some d) => (s, some (ts ++ [taskEntry v i e d]))) (s, some [])

/-! ### Load checks (R195) -/

/-- The first index of a list that fails a check. -/
def firstBad {α : Type} (p : α → Bool) : Nat → List α → Option Nat
  | _, [] => none
  | i, x :: xs => if p x then some i else firstBad p (i + 1) xs

/-- 0x05: a dependency on a later task, or more than 64. -/
def depsBad : Nat → List TaskDesc → Option Nat
  | _, [] => none
  | i, t :: ts => if t.deps.any (fun d => decide (i ≤ d)) || decide (64 < t.depCnt) then some i else depsBad (i + 1) ts

/-- 0x06: an invalid tile, or a wrong PASSES. -/
def tileBad (layers : List LayerDesc) (t : TaskDesc) : Bool :=
  match layers[t.layer]? with
  | none => true
  | some l => match operandPair l.wfmt l.afmt with
    | none => true
    | some (_, c) => t.m == 0 || decide (4096 < t.m) || t.kb == 0 || decide (16 < t.kb) || decide (255 < t.nm1) ||
        decide (4096 < tilePasses t.kb t.m c) || t.passes != tilePasses t.kb t.m c

/-- 0x07: a layer parameter out of range. -/
def layerBad (l : LayerDesc) : Bool :=
  decide (2 < l.mode) || (l.mode != 0 && (l.q == 0 || decide (15 < l.q))) || decide (l.hashH < 10) || decide (19 < l.hashH) ||
    decide (2 ^ l.hashH < 2 * l.listCap) || decide (2 < l.radius) || (l.stride != 1 && l.stride != 2) ||
    (isFloat l.wfmt && (l.tol.isNone || l.tolAbs.isNone))

/-- 0x08: an empty mask, or a margin-scaled task off ENG4 and ENG5. -/
def maskBad (layers : List LayerDesc) (t : TaskDesc) : Bool :=
  t.engMask % 64 == 0 || (((layers[t.layer]?).map (·.margin)).getD false && t.engMask % 16 != 0)

/-- The images that are resident in slots other than `m`. -/
def State.residents (s : State) (m : Nat) : List ModelImage :=
  (List.range 8).filterMap (fun k => if k = m then none else (s.slotOf k).image)

/-- 0x09: a buffer outside usable memory, in the secure bank, or over another resident model's. -/
def State.bufBad (s : State) (m : Nat) (b : SpanDesc) : Bool :=
  !(inLpddr b.base b.size || inOpenCommons b.base b.size) ||
    (s.residents m).any (fun i => i.bufs.any (fun c => spansMeet (b.base, b.size) (c.base, c.size)))

/-- 0x0A: more than 18 MiB of pinned weights on an engine in a pinned block's mask. -/
def State.pinsBad (s : State) (m : Nat) (img : ModelImage) : Bool :=
  let all := img.pins ++ (s.residents m).flatMap (·.pins)
  (List.range 6).any (fun e => img.pins.any (fun p => p.mask.testBit e) &&
    decide (18 * 2 ^ 20 < ((all.filter (fun p => p.mask.testBit e)).map (·.size)).sum))

/-- 0x0B: a trigger parameter out of range (R198). -/
def trigBad (t : TrigDesc) : Bool :=
  match t.source with
  | 0 => decide (15 < t.param)
  | 1 => decide (7 < t.param)
  | 2 => decide (15 < t.param)
  | 3 => decide (7 < t.param) || t.count == 0
  | 4 => false
  | 5 => t.count == 0 || decide (65535 < t.count)
  | _ => true

/-- The sections of R193, HDR apart. -/
def imageSections : List Nat := [1, 2, 3, 4, 5, 6, 7, 0x7F]

/-- The checks of an image's header and directory, before its tasks are read. -/
def headCheck (v : ImageView) : Option (Nat × Nat) :=
  if v.magic != 0x4C574D49 || v.version != Config.modelVersion ||
      imageSections.any (fun n => !v.sections.any (fun q => q.1 == n) && Config.sectionRequired n) then some (3, 0)
  else if v.taskCount == 0 || decide (65536 < v.taskCount) then some (4, 0)
  else none

/-- The first failing check of the tasks and what follows them, in the table's order: its code and the task or layer. -/
def State.bodyCheck (s : State) (m : Nat) (img : ModelImage) : Option (Nat × Nat) :=
  match depsBad 0 img.tasks with
  | some i => some (5, i)
  | none => match firstBad (tileBad img.layers) 0 img.tasks with
    | some i => some (6, i)
    | none => match firstBad layerBad 0 img.layers with
      | some i => some (7, i)
      | none => match firstBad (maskBad img.layers) 0 img.tasks with
        | some i => some (8, i)
        | none =>
          if img.bufs.any (s.bufBad m) then some (9, 0)
          else if s.pinsBad m img then some (10, 0)
          else if trigBad img.trig then some (11, 0)
          else none

/-- The first failing check after the signature's, and the image with the tasks that TT has read; an image whose tasks cannot be read lacks a
required section (log 32). -/
def State.loadCheck (s : State) (m addr : Nat) (v : ImageView) : State × (Nat × Nat) ⊕ State × ModelImage :=
  match headCheck v with
  | some e => .inl (s, e)
  | none => match s.readTasks v addr with
    | (s, none) => .inl (s, (3, 0))
    | (s, some ts) =>
      let img : ModelImage := { toImageView := v, tasks := ts }
      match s.bodyCheck m img with
      | some e => .inl (s, e)
      | none => .inr (s, img)

/-- CMD_LOAD (R195, R196). -/
def State.ttLoad (s : State) : State :=
  let m := s.arg pgTT 0 % 8
  if s.mst m ≠ msEmpty then (s.ttRefuse 1 m 0).event pgTT 6
  else
    let s := s.setMst m msLoading
    { s with tt := { s.tt with loading := some (m, s.argAddr pgTT 1) } }

/-- A load is refused: the slot is EMPTY again. -/
def State.loadRefused (s : State) (m code idx : Nat) : State :=
  let s := { s with tt := { s.tt with loading := none } }
  ((s.setMst m msEmpty).ttRefuse code m idx).event pgTT 6

/-- The image check ends (R195, R438, R439). -/
def State.loadDone (s : State) (v : ImageView) : State :=
  match s.tt.loading with
  | none => s
  | some (m, addr) =>
    let (ok, looked) := s.modelSig v
    let s := if looked then s.verified ok else s
    if !ok then s.loadRefused m 2 0
    else match s.loadCheck m addr v with
      | .inl (s, code, idx) => s.loadRefused m code idx
      | .inr (s, img) =>
        let s := s.setSlotOf m { image := some img, perAt := s.now / (16 * max 1 img.trig.count) }
        let s := ((s.setMst m msReady).slotShow m).wrN (slotReg m 4) (img.prio % 8)
        let s := ((s.wr64 (slotReg m 8) addr).wrN (slotReg m 0x10) img.taskCount).wrN (slotReg m 0x28) 0
        let s := (s.extendModel m v).event pgTT 5
        ({ s with tt := { s.tt with loading := none } }).cmdDone pgTT resDone

/-- CMD_UNLOAD. -/
def State.ttUnload (s : State) : State :=
  let m := s.arg pgTT 0 % 8
  if s.mst m ≠ msReady then s.ttRefuse 0x0F m 0
  else
    let s := s.disarm m
    let s := { s with tt := { s.tt with fired := s.tt.fired.filter (fun f => f.model != m) } }
    (((s.setSlotOf m {}).setMst m msEmpty).slotShow m).cmdDone pgTT resDone

/-! ### Invocations (R196 to R201) -/

/-- The consumer inputs that a model binds. -/
def inputsOf (img : ModelImage) : List Consumer := (img.binds.map (·.consumer)).filter (fun c => c != .stream)

/-- CMD_ACTIVATE (R197, R198). -/
def State.ttActivate (s : State) : State :=
  let m := s.arg pgTT 0 % 8
  match (s.slotOf m).image with
  | none => s.ttRefuse 0x0F m 0
  | some img =>
    let clash := (List.range 8).any (fun k => k != m && s.mst k == msActive &&
      (((s.slotOf k).image.map inputsOf).getD []).any (fun c => (inputsOf img).contains c))
    let off := (img.trig.source == 0 && !s.binEn (img.trig.param % 16)) ||
      (img.trig.source == 1 && s.fld (rk pgFab (0x188 + 16 * (img.trig.param % 8))) 1 0 != 3)
    if s.mst m ≠ msReady then s.ttRefuse 0x0F m 0
    else if off then s.ttRefuse 0x0B m 0
    else if clash then s.ttRefuse 0x0C m 0
    else ((s.disarm m).setMst m msActive).cmdDone pgTT resDone

/-- A trigger that starts no invocation is counted (R196, R199, R213). -/
def State.ttSkip (s : State) (m : Nat) : State := s.sat (slotReg m 0x1C)

/-- An invocation starts. -/
def State.invStart (s : State) (m : Nat) (t : Firing) : State :=
  (s.setSlotOf m { s.slotOf m with
    inv := some { trigTime := t.at_, buf := t.buf, span := t.span, admitted := 0, done := [], unchecked := [] } }).bump (rk pgTT 0x68)

/-- The pending trigger of an ACTIVE model without an invocation starts one. -/
def State.startPending (s : State) (m : Nat) : State :=
  let q := s.slotOf m
  match q.pend, q.inv with
  | some t, none =>
    if s.mst m = msActive && s.running pgTT && !s.halted pgTT then
      ((s.setSlotOf m { q with pend := none }).invStart m t).slotShow m
    else s
  | _, _ => s

/-- A slot reaches READY: the end of the CMD_DEACTIVATE that waits for it (R216), and SWAP_DONE where a swap took its service (R211). -/
def State.slotReady (s : State) (m : Nat) : State :=
  let q := s.slotOf m
  let s := (s.setMst m msReady).setSlotOf m { q with swapOut := false }
  let s := if q.swapOut then s.event pgTT 7 else s
  if s.tt.deact = some m then ({ s with tt := { s.tt with deact := none } }).cmdDone pgTT resDone else s

/-- What follows the end of an invocation: DRAINING reaches READY, an ACTIVE model goes on with its pending trigger. -/
def State.invEnded (s : State) (m : Nat) : State :=
  if s.mst m = msDraining then s.slotReady m else s.startPending m

/-- An invocation is abandoned (R200, R206): its entries are given up, its bindings are not delivered. -/
def State.invAbandon (s : State) (m : Nat) : State :=
  let q := s.slotOf m
  if q.inv.isNone then s
  else
    let s := (s.setSlotOf m { q with inv := none }).bump (rk pgTT 0x70)
    let s := (s.sat (slotReg m 0x20)).event pgTT 8
    ({ s with tt := { s.tt with board := s.tt.board.filter (fun b => b.model != m) } }).sbShow

/-- A model loses every target (R206). -/
def State.modelDegraded (s : State) (m : Nat) : State :=
  let s := (s.invAbandon m).disarm m
  let q := s.slotOf m
  let s := if q.pend.isSome then s.ttSkip m else s
  (((s.setSlotOf m { q with pend := none }).setMst m msDegraded).slotShow m).noTarget.event pgTT 4

/-- CMD_DEACTIVATE (R196). A slot that is EMPTY or LOADING has no model to take out of service (log 35). -/
def State.ttDeactivate (s : State) : State :=
  let m := s.arg pgTT 0 % 8
  let q := s.slotOf m
  let st := s.mst m
  if st = msEmpty || st = msLoading then s.ttRefuse 0x0F m 0
  else
    let s := (s.disarm m).setSlotOf m { (s.disarm m).slotOf m with pend := none }
    let s := ({ s with tt := { s.tt with deact := some m } }).slotShow m
    if st = msActive && q.inv.isSome then s.setMst m msDraining
    else if st = msDraining && q.inv.isSome then s
    else (s.slotReady m).noTarget

/-- CMD_SWAP (R211). Two models have the same output bindings where they bind the same consumer inputs in the same order: their buffers always
differ (R195; log 100). -/
def State.ttSwap (s : State) : State :=
  let a := s.arg pgTT 0 % 8
  let b := bits (s.arg pgTT 0) 6 4
  let armed (m : Nat) : Bool := (List.range 8).any (fun k => (s.slotOf k).swapTo.isSome && (k == m || (s.slotOf k).swapTo == some m))
  if s.mst a ≠ msActive || s.mst b ≠ msReady || a = b || armed a || armed b then s.ttRefuse 0x0F a 0
  else match (s.slotOf a).image, (s.slotOf b).image with
    | some x, some y =>
      if x.trig != y.trig || x.binds.map (·.consumer) != y.binds.map (·.consumer) then s.ttRefuse 0x0E a 0
      else ((s.setSlotOf a { s.slotOf a with swapTo := some b, armedAt := s.time.tb0 }).slotShow a).cmdDone pgTT resDone
    | _, _ => s.ttRefuse 0x0E a 0

/-- A trigger of an ACTIVE model (R199, R212). -/
def State.trigActive (s : State) (m : Nat) (t : Firing) : State :=
  let q := s.slotOf m
  if q.inv.isNone && q.pend.isNone && !s.halted pgTT then s.invStart m t
  else
    let s := if q.pend.isSome then s.ttSkip m else s
    (s.setSlotOf m { q with pend := some t }).slotShow m

/-- The next firing of a slot's trigger (R198): of a PERIOD trigger once FUSION has crossed the next multiple, else the oldest that its source
has made. -/
def State.nextFiring (s : State) (m : Nat) : Option (State × Firing) :=
  let q := s.slotOf m
  match q.image with
  | none => none
  | some img =>
    if img.trig.source = 5 then
      if q.perAt < s.now / (16 * max 1 img.trig.count) then
        some (s.setSlotOf m { q with perAt := q.perAt + 1 }, { model := m, at_ := s.time.tb0, buf := 0, span := [] })
      else none
    else (s.tt.fired.find? (fun f => f.model == m)).map (fun f => ({ s with tt := { s.tt with fired := s.tt.fired.erase f } }, f))

/-- A swap takes effect with the trigger `t` of slot `a` (R211): slot `b` is ACTIVE, takes the pending trigger and then this one, and goes on
with what `a` has counted towards the next; what its own source had fired up to then is the same service's and starts nothing. -/
def State.swapOver (s : State) (a b : Nat) (t : Firing) : State :=
  let q := s.slotOf a
  let s := { s with tt := { s.tt with fired := s.tt.fired.filter (fun f => f.model != b || decide (t.at_ < f.at_)) } }
  let s := (s.setMst b msActive).setSlotOf b { s.slotOf b with pend := q.pend, batches := q.batches, perAt := q.perAt }
  let s := (s.setSlotOf a { q with pend := none, swapTo := none, swapOut := true }).setMst a msDraining
  let s := if q.inv.isNone then s.slotReady a else s
  (((s.slotShow a).slotShow b).startPending b).trigActive b t

/-- A model's trigger fires with an input buffer (R198, R199, R211 to R213), which is its next firing's, or nothing happens. A trigger that fired
before a swap was armed still goes to its slot. -/
def State.triggerFire (s : State) (m buf : Nat) : State :=
  match s.nextFiring m with
  | none => s
  | some (s', t) =>
    if t.buf ≠ buf then s else
    let s := s'
    let q := s.slotOf m
    if !s.running pgTT then s.ttSkip m
    else if s.mst m ≠ msActive then s.ttSkip m
    else match q.swapTo with
      | some b => if q.armedAt < t.at_ && s.mst b == msReady then s.swapOver m b t else s.trigActive m t
      | none => s.trigActive m t

/-- A forward FUSION step of J leaves the multiples that a PERIOD trigger has still to fire for as many as they were (log 101). -/
def State.ttFusStep (s : State) (at_ j : Nat) : State :=
  (List.range 8).foldl (fun s m =>
    let q := s.slotOf m
    match q.image with
    | some img =>
      let u := 16 * max 1 img.trig.count
      s.setSlotOf m { q with perAt := (at_ + j) / u - (at_ / u - q.perAt) }
    | none => s) s

/-- The task of an image. -/
def State.taskOf (s : State) (m tag : Nat) : Option TaskDesc := (s.slotOf m).image.bind (fun i => i.tasks[tag]?)
def State.layerOf (s : State) (m tag : Nat) : Option LayerDesc :=
  (s.slotOf m).image.bind (fun i => (i.tasks[tag]?).bind (fun t => i.layers[t.layer]?))

/-- The source has begun to rewrite an invocation's input: it is abandoned while a task has still to read it (R200). -/
def State.inputRewrite (s : State) (m : Nat) : State :=
  match s.tt.rewritten.find? (fun r => r.1 == m) with
  | none => s
  | some r =>
    let s := { s with tt := { s.tt with rewritten := s.tt.rewritten.erase r } }
    match (s.slotOf m).inv, (s.slotOf m).image with
    | some inv, some img =>
      if inv.trigTime = r.2 &&
          ((img.tasks.zip (List.range img.tasks.length)).any (fun q => q.1.readsIn && !inv.done.contains q.2)) then
        (s.invAbandon m).invEnded m
      else s
    | _, _ => s

/-! ### Targets (R203, R204, R466) -/

/-- A target: an engine, or an active pair by its lower engine. -/
def State.targets (s : State) : List (Nat × Bool) :=
  [0, 2, 4].flatMap (fun p => if s.engBit p 3 then [(p, true)] else [(p, false), (p + 1, false)])
def enginesOf (t : Nat × Bool) : List Nat := if t.2 then [t.1, t.1 + 1] else [t.1]

/-- Whether an engine can take tiles at all. -/
def State.engUp (s : State) (e : Nat) : Bool := s.running (pgEng e) && !s.engBit e 1 && !s.halted (pgEng e)

/-- Whether an engine is eligible for some task: it can take tiles and its rail does not move (R186, R203). -/
def State.engOpen (s : State) (e : Nat) : Bool := s.engUp e && (e < 4 || s.margin == 0 || s.margin == 2)

/-- Whether a target is eligible for a task. -/
def State.eligible (s : State) (t : Nat × Bool) (mask : Nat) (margin : Bool) : Bool :=
  (enginesOf t).all (fun e => s.engOpen e && mask.testBit e && (e < 4 || s.margin == 0 || margin)) && !(t.2 && margin)

/-- The cycles that R168 gives the tiles a target holds. -/
def State.committed (s : State) (e : Nat) : Nat :=
  let g := s.engAt e
  (match g.running with | some t => t.cycles | none => 0) + (match g.staged with | some t => t.passes + 512 | none => 0)
/-- A target's weight, u1.15 (R208). -/
def State.weight (s : State) (e : Nat) : Nat := s.fld (rk pgTT (0x120 + 4 * e)) 31 16

/-- Whether `a` is expected to finish before `b`: committed cycles over frequency and weight. -/
def State.sooner (s : State) (a b : Nat) : Bool :=
  decide (s.committed a * (s.engFreq b * s.weight b) < s.committed b * (s.engFreq a * s.weight a))

/-- The target with the earliest expected finish; ties go to the lowest engine. -/
def State.earliest (s : State) : List (Nat × Bool) → Option (Nat × Bool)
  | [] => none
  | t :: ts => match s.earliest ts with
    | none => some t
    | some u => if s.sooner u.1 t.1 then some u else some t

/-- The targets that a scoreboard entry may go to (R206, R209): the forced one, the lowest that may be arbiter outside the pair, or any; of
these none that is to be avoided while another is eligible. -/
def State.entryTargets (s : State) (b : SbEntry) : List (Nat × Bool) :=
  let mask := ((s.taskOf b.model b.tag).map (·.engMask)).getD 0
  let margin := ((s.layerOf b.model b.tag).map (·.margin)).getD false
  let all := s.targets.filter (fun t => s.eligible t mask margin)
  let pick (all l : List (Nat × Bool)) : List (Nat × Bool) := if l.isEmpty then all else l
  let other (all : List (Nat × Bool)) : List (Nat × Bool) :=
    pick all (all.filter (fun t => (enginesOf t).all (fun e => !b.avoid.contains e)))
  match b.arbiter with
  | some (p, _, _) => (other (all.filter (fun t => t.1 / 2 != p / 2))).take 1
  | none => match b.force with
    | some p => pick (other all) (all.filter (fun t => t == p))
    | none => other all

/-! ### Scoreboard (R202, R203) -/

def State.setBoard (s : State) (f : SbEntry → SbEntry) (entry : Nat) : State :=
  { s with tt := { s.tt with board := s.tt.board.map (fun b => if b.entry == entry then f b else b) } }

/-- Entries issued, as a predicate selects them, wait for a re-issue. -/
def State.withdraw (s : State) (p : SbEntry → Nat × Bool → Bool) : State :=
  let f (b : SbEntry) : SbEntry := match b.issued with
    | some t => if p b t then { b with issued := none, again := true, readyAt := s.time.tb0 } else b
    | none => b
  { s with tt := { s.tt with board := s.tt.board.map f } }

/-- The most entries a model may hold (R202). -/
def State.sbCap (s : State) : Nat := 4096 / max 1 ((List.range 8).filter (fun m => s.mst m == msActive)).length

/-- Admits a model's next task. -/
def State.admitOne (s : State) (m : Nat) : State :=
  let q := s.slotOf m
  match q.inv with
  | none => s
  | some inv => match s.taskOf m inv.admitted with
    | none => s
    | some t =>
      let held := (s.tt.board.filter (fun b => b.model == m)).length
      match (List.range 4096).find? (fun i => !(s.tt.board.any (fun b => b.entry == i))) with
      | none => s
      | some i =>
        if s.sbCap ≤ held then s
        else
          let b : SbEntry := { entry := i, model := m, tag := inv.admitted, readyAt := s.time.tb0
                               count := (t.deps.filter (fun d => !inv.done.contains d)).length }
          let s := s.setSlotOf m { q with inv := some { inv with admitted := inv.admitted + 1 } }
          { s with tt := { s.tt with board := s.tt.board ++ [b] } }

/-- Admits up to `k` tasks of a model. -/
def State.admitAll : Nat → Nat → State → State
  | 0, _, s => s
  | k + 1, m, s => State.admitAll k m (s.admitOne m)

/-- Whether READY entry `a` goes before `b` (R203). -/
def State.before (s : State) (a b : SbEntry) : Bool :=
  let prio (x : SbEntry) : Nat := s.fld (slotReg x.model 4) 2 0
  let trig (x : SbEntry) : Nat := (((s.slotOf x.model).inv).map (·.trigTime)).getD 0
  if prio a ≠ prio b then decide (prio b < prio a)
  else if trig a ≠ trig b then decide (trig a < trig b)
  else decide (a.tag < b.tag)

/-- The READY entries in issue order. -/
def State.ordered (s : State) : List SbEntry → List SbEntry
  | [] => []
  | b :: bs =>
    let l := s.ordered bs
    l.filter (fun c => s.before c b) ++ [b] ++ l.filter (fun c => !s.before c b)

/-- Whether a target has a free issue slot: the slot of the tile being staged. -/
def State.slotFree (s : State) (t : Nat × Bool) : Bool := (enginesOf t).all (fun e => (s.engAt e).staged.isNone)

/-- Stages a tile on an engine. -/
def State.stage (s : State) (e : Nat) (t : Tile) : State := s.setEng e { s.engAt e with staged := some t }

/-- The dispatch of a hinted layer's tile adopts the region hints that wait (R18, R19). -/
def State.adoptHints (s : State) : State :=
  let b := s.loopAt 4
  let b' := b.adopt
  s.setLoop 4 { b' with fresh := s.isFresh .engHints b'.adopted }
/-- The boxes of the adopted hints (R272); none where they are stale, so that the layer runs over the whole grid. -/
def State.hintBoxes (s : State) : Option (List (Nat × Nat × Nat × Nat)) :=
  let b := s.loopAt 4
  match b.fresh, b.adopted with
  | true, some v => some ((List.range (v.words.getD 4 0).toNat).map (fun i =>
      let x := (v.words.getD (8 + 2 * i) 0).toNat
      let y := (v.words.getD (9 + 2 * i) 0).toNat
      (bits x 15 0, bits x 31 16, bits y 15 0, bits y 31 16)))
  | _, _ => none

/-- Issues an entry to a target with its next generation (R204, R205); a hinted layer's tile takes the boxes in force (log 99). -/
def State.issue (s : State) (b : SbEntry) (t : Nat × Bool) : State :=
  match (s.slotOf b.model).image, s.taskOf b.model b.tag, s.layerOf b.model b.tag with
  | some _, some task, some layer =>
    let s := if layer.hinted then s.adoptHints else s
    let gen := (SMap.get (fun _ => 0) s.tt.gens b.entry + 1) % 256
    let tile : Tile := { entry := b.entry, model := b.model, tag := b.tag, gen := gen, layerIdx := task.layer, layer := layer
                         m := task.m, n := task.nm1 + 1, kb := task.kb, passes := task.passes, waddr := task.waddr, oaddr := task.oaddr
                         boxes := if layer.hinted then s.hintBoxes else none, readyAt := s.time.tb0 }
    let s := { s with tt := { s.tt with gens := SMap.set (fun _ => 0) s.tt.gens b.entry gen } }
    let s := s.setBoard (fun b => { b with issued := some t, gen := gen, again := false }) b.entry
    let s := (enginesOf t).foldl (fun s e => s.stage e tile) s
    let s := (s.bump (rk pgTT 0x40)).wrN (rk pgTT 0x118) (sat32 (s.time.tb0 - b.readyAt))
    if b.again then s.bump (rk pgTT 0x50) else s
  | _, _, _ => s

/-- The first READY entry with a free eligible target. -/
def State.issueFirst (s : State) : List SbEntry → State
  | [] => s
  | b :: bs => match s.earliest ((s.entryTargets b).filter s.slotFree) with
    | some t => s.issue b t
    | none => s.issueFirst bs

/-- Whether a task has lost every target: one that waits for a re-issue has none eligible, one that was never issued has only fenced engines
in its ENG_MASK (R196, R206; log 102). -/
def State.entryLost (s : State) (b : SbEntry) : Bool :=
  let mask := ((s.taskOf b.model b.tag).map (·.engMask)).getD 0
  b.issued.isNone && (if b.again then (s.entryTargets b).isEmpty
    else b.count == 0 && (List.range 6).all (fun e => !mask.testBit e || s.engBit e 1))

/-- Models of which a task has lost every target degrade (R206); TT judges it while it issues (R212; log 102). -/
def State.lostTargets (s : State) : State :=
  if !s.running pgTT || s.halted pgTT then s
  else (List.range 8).foldl (fun s m =>
    if s.tt.board.any (fun b => b.model == m && s.entryLost b) then s.modelDegraded m else s) s

/-- TT admits what it may and issues the next READY task (R202, R203); a halted TT issues nothing (R212). -/
def State.taskIssue (s : State) : State :=
  if !s.running pgTT || s.halted pgTT then s
  else
    let s := (List.range 8).foldl (fun s m => s.startPending m) s
    let s := (List.range 8).foldl (fun s m => State.admitAll 4096 m s) s
    let s := s.lostTargets
    let ready := s.tt.board.filter (fun b => b.issued.isNone && b.count == 0)
    (s.issueFirst (s.ordered ready)).sbShow

/-! ### Failed engines (R206, R209) -/

def State.winOf (s : State) (e : Nat) : TargetWin := SMap.get (fun _ => {}) s.tt.wins e
def State.setWin (s : State) (e : Nat) (w : TargetWin) : State :=
  { s with tt := { s.tt with wins := SMap.set (fun _ => {}) s.tt.wins e w } }

/-- A tile is withdrawn from an engine without a report (R212). -/
def State.unstage (s : State) (e : Nat) : State := s.setEng e { s.engAt e with staged := none, gathered := none }

/-- The DISMISS that a fence issues to its engine: a test is abandoned, a command in progress dismissed (R188, R209, R364). -/
def State.fenceDismiss (s : State) (e : Nat) : State :=
  let p := pgEng e
  if s.blk p = stOff then s
  else
    let s := if s.blk p = stTesting then (s.setBit (rk p 0x0C) 2 false).setFld (rk p 0x10) 5 4 3 else s
    (s.setBlk p stDismissing).cmdDone p resDismissed

/-- The fence of a failed engine (R209): no more issues, its DISMISS, the re-issue of its tasks, of a pair's to the partner, the cause, and
the report. -/
def State.ttFence (s : State) (e cause : Nat) : State :=
  if s.engBit e 1 then s
  else
    let p := partner e
    let pair := s.engBit e 3
    let s := (s.setEngBit e 1 true).setBit (rk pgTT 0x110) e true
    let s := s.setWin e { s.winOf e with testedSince := false }
    -- the partner's half results and copies are abandoned, and it runs alone
    let s := if pair then s.engSolo p else s
    let s := ((s.engSolo e).pairBreak e).fenceDismiss e
    let mine (t : Nat × Bool) : Bool := (enginesOf t).contains e
    let s := if pair then { s with tt := { s.tt with board := s.tt.board.map (fun b =>
        if b.issued == some (e / 2 * 2, true) then { b with force := some (p, false) } else b) } } else s
    let s := s.withdraw (fun _ t => mine t)
    let s := s.wrN (rk pgTT 0x13C) (0x80000000 + cause * 16 + e)
    let s := (s.fault pgTT 0 e).event pgTT 3
    let before := (List.range 8).filter (fun m => s.mst m == msDegraded)
    let s := s.lostTargets
    if (List.range 8).any (fun m => s.mst m == msDegraded && !before.contains m) then
      { s with tt := { s.tt with degraded := s.tt.degraded ++ [e] } }
    else s

/-- A strike (R206, R209). -/
def State.strike (s : State) (e : Nat) : State :=
  let w := s.winOf e
  let win := s.fld (rk pgTT 0x108) 31 16
  let l := (w.strikes ++ [w.total]).filter (fun t => decide (w.total < t + win))
  let s := (s.setWin e { w with strikes := l }).bump (rk pgTT 0x78)
  if s.fld (rk pgTT 0x108) 3 0 ≤ l.length then s.ttFence e 1 else s

/-- CMD_UNFENCE (R210). -/
def State.ttUnfence (s : State) : State :=
  let e := s.arg pgTT 0 % 8
  if 6 ≤ e || !s.engBit e 1 || !(s.winOf e).testedSince || s.blk (pgEng e) ≠ stIdle then s.ttRefuse 0x0D 0 0
  else
    let s := (s.setEngBit e 1 false).setEngBit e 2 false
    let s := (s.setBit (rk pgTT 0x110) e false).setBit (rk pgTT 0x110) (8 + e) false
    (((s.setWin e {}).wrN (rk pgTT (0x120 + 4 * e)) 0x80008000)).cmdDone pgTT resDone

/-- A tile has not completed within TT_TILE_TIMEOUT of its start (R207). -/
def State.tileTimeout (s : State) (e : Nat) : State :=
  match (s.engAt e).running with
  | some t => if t.startAt + 1000 * s.fld (rk pgTT 0x10C) 6 0 < s.time.tb0 then s.ttFence e 5 else s
  | none => s

/-! ### Slow engines (R208) -/

/-- A target's ratio: of a pair the lower one. -/
def State.ratio (s : State) (t : Nat × Bool) : Nat :=
  ((enginesOf t).map (fun e => s.fld (rk pgTT (0x120 + 4 * e)) 15 0)).foldl min 0xFFFF

/-- With BIAS_EN = 0 every weight is 1.0. -/
def State.biasShow (s : State) : State :=
  if s.bit (rk pgTT 0x100) 0 then s
  else (List.range 6).foldl (fun s e => s.setFld (rk pgTT (0x120 + 4 * e)) 31 16 0x8000) s

/-- A list sorted with the largest first. -/
def insertDown (x : Nat) : List Nat → List Nat
  | [] => [x]
  | y :: ys => if y ≤ x then x :: y :: ys else y :: insertDown x ys
def sortDown (l : List Nat) : List Nat := l.foldr insertDown []
/-- The ⌈n/2⌉-th largest. -/
def median (l : List Nat) : Option Nat := (sortDown l)[(l.length + 1) / 2 - 1]?

/-- A target becomes SLOW or leaves it. -/
def State.setSlow (s : State) (t : Nat × Bool) (slow : Bool) (weight : Nat) : State :=
  let was := s.engBit t.1 2
  let s := (enginesOf t).foldl (fun s e => ((s.setEngBit e 2 slow).setBit (rk pgTT 0x110) (8 + e) slow).setFld
    (rk pgTT (0x120 + 4 * e)) 31 16 weight) s
  if slow && !was then s.event pgTT 1 else if was && !slow then s.event pgTT 2 else s

/-- A window ends (R208): ratios, median, SLOW and the weight. Ratios are compared as the u1.15 codes that are kept. -/
def State.slowWindow (s : State) (t : Nat × Bool) : State :=
  let s := (enginesOf t).foldl (fun s e =>
    let w := s.winOf e
    (s.setWin e { w with tiles := 0, expSum := 0, actSum := 0, hasRatio := true }).setFld (rk pgTT (0x120 + 4 * e)) 15 0
      (if w.actSum = 0 then 0x8000 else min 0xFFFF (w.expSum * 0x8000 / w.actSum))) s
  let live := s.targets.filter (fun u => (enginesOf u).all (fun e => s.engOpen e && (s.winOf e).hasRatio))
  match median (live.map s.ratio) with
  | none => s
  | some m =>
    let s := s.wrN (rk pgTT 0x138) m
    let e := s.ratio t
    if 100 * e < s.fld (rk pgTT 0x104) 22 16 * m then
      s.setSlow t true (if s.bit (rk pgTT 0x100) 0 && m ≠ 0 then e * 0x8000 / m else 0x8000)
    else s.setSlow t false 0x8000

/-- A completed tile is recorded in its target's window. -/
def State.recordTile (s : State) (t : Nat × Bool) (ran : List (Nat × Nat × Nat)) : State :=
  let s := ran.foldl (fun s r =>
    let w := s.winOf r.1
    s.setWin r.1 { w with tiles := w.tiles + 1, total := w.total + 1, expSum := w.expSum + r.2.1, actSum := w.actSum + r.2.2 }) s
  if !ran.isEmpty && s.fld (rk pgTT 0x104) 15 0 ≤ (s.winOf t.1).tiles then s.slowWindow t else s

/-! ### Completions (R201, R205, R206) -/

/-- Whether a bound buffer holds an UNCHECKED output: of a task that wrote it (R201; log 36). -/
def outUnchecked (img : ModelImage) (inv : Invocation) (buf : Nat) : Bool :=
  (img.tasks.zip (List.range img.tasks.length)).any (fun q => q.1.writesOut && q.1.out == some buf && inv.unchecked.contains q.2)

/-- The invocation completes: its bindings are delivered with their mark (R199, R201, R215). STREAM has no record of a model's output, so what
it consumes leaves no delivery (log 36). -/
def State.invDone (s : State) (m : Nat) (img : ModelImage) (inv : Invocation) : State :=
  let give (b : BindDesc) : Delivery := { addr := b.addr, consumer := b.consumer, unchecked := outUnchecked img inv b.addr }
  let out := (img.binds.filter (fun b => b.consumer != .stream)).map give
  let s := { s with tt := { s.tt with deliver := s.tt.deliver ++ out } }
  let ns := sat32 (s.time.tb0 - inv.trigTime)
  let s := ((s.bump (slotReg m 0x14)).wrN (slotReg m 0x24) ns).peak (slotReg m 0x28) 31 0 ns
  let s := s.setBit (slotReg m 0x2C) 0 (img.binds.any (fun b => outUnchecked img inv b.addr))
  (s.setSlotOf m { s.slotOf m with inv := none }).invEnded m

/-- A task is done: its bit, its dependants' counts, and its entry (R201, R202). -/
def State.taskDone (s : State) (b : SbEntry) (unchecked : Bool) : State :=
  let q := s.slotOf b.model
  match q.inv, q.image, s.taskOf b.model b.tag with
  | some inv, some img, some task =>
    let u := unchecked || task.deps.any (fun d => inv.unchecked.contains d)
    let inv := { inv with done := inv.done ++ [b.tag], unchecked := if u then inv.unchecked ++ [b.tag] else inv.unchecked }
    let board := (s.tt.board.filter (fun c => c.entry != b.entry)).map (fun c =>
      if c.model == b.model then
        let n := ((s.taskOf c.model c.tag).map (fun t => (t.deps.filter (fun d => d == b.tag)).length)).getD 0
        { c with count := c.count - n, readyAt := if c.count != 0 && c.count ≤ n then s.time.tb0 else c.readyAt }
      else c)
    let s := { s with tt := { s.tt with board := board } }
    let s := ((s.setSlotOf b.model { q with inv := some inv }).bump (rk pgTT 0x48)).sbShow
    if img.tasks.length ≤ inv.done.length then s.invDone b.model img inv else s
  | _, _, _ => s

/-- The entry waits for its re-issue. -/
def State.reissue (s : State) (b : SbEntry) (f : SbEntry → SbEntry) : State :=
  s.setBoard (fun c => f { c with issued := none, again := true, readyAt := s.time.tb0 }) b.entry

/-- A completion that is accepted (R206). -/
def State.acceptComp (s : State) (b : SbEntry) (t : Nat × Bool) (c : Completion) : State :=
  let failed (s : State) : State :=
    let s := s.reissue b (fun d => { d with avoid := d.avoid ++ c.bad, force := none })
    (c.bad.foldl (fun s e => s.strike e) s).lostTargets
  match c.status with
  | .ok =>
    let s := match b.arbiter with
      | some (p, g0, g1) =>
        let s := if g0 != c.sig then s.ttFence p 7 else s
        if g1 != c.sig then s.ttFence (p + 1) 7 else s
      | none => s
    s.taskDone b c.unchecked
  | .dismissed => (s.reissue b id).lostTargets
  | .pairFail =>
    if c.bad.isEmpty then
      let s := s.reissue b (fun d => { d with
        pairFails := d.pairFails + 1
        force := if d.pairFails = 0 then some t else none
        arbiter := if d.pairFails = 0 then none else some (t.1, c.sig, c.sig2) })
      s.lostTargets
    else failed s
  | .chkFail => failed s
  | .wchk => failed s

/-- TT takes the next completion: a fault that fails its engine fences it first; then the tile counts in its target's window, and the
completion is accepted or discarded (R205, R208, R209). -/
def State.taskCompletion (s : State) : State :=
  match s.tt.comps with
  | [] => s
  | c :: rest =>
    let s := { s with tt := { s.tt with comps := rest } }
    let s := c.fatal.foldl (fun s f => s.ttFence f.1 f.2) s
    let from_ : Nat × Bool := (c.engine, c.pair)
    if (enginesOf from_).any (fun e => s.engBit e 1) then s.bump (rk pgTT 0x60)
    else
      let s := s.recordTile from_ c.ran
      match s.tt.board.find? (fun b => b.entry == c.entry) with
      | some b => match b.issued with
        | some t =>
          if b.model == c.model && b.tag == c.tag && b.gen == c.gen && t == from_ then (s.acceptComp b t c).sbShow
          else s.bump (rk pgTT 0x58)
        | none => s.bump (rk pgTT 0x58)
      | none => s.bump (rk pgTT 0x58)

/-! ### Gather, halt and DISMISS -/

/-- An error response to an engine's or TT's read abandons the invocation of the tile that it serves (R391). -/
def State.ttReadError (s : State) (t : Tile) : State := (s.invAbandon t.model).invEnded t.model

/-- The gather unit builds the rows of the staged tile (R170 to R172). A task that reads the input of a BIN or SITES trigger takes its sites
from the input buffer, another those of an earlier layer's list; `out` is the output list of the whole layer. A tile is the part of its layer
that its task is among the layer's tasks (log 33). -/
def State.gatherBuild (s : State) (e : Nat) (given : List SiteRow) (out : List (Nat × Nat)) : State :=
  match (s.engAt e).staged with
  | none => s
  | some t => match (s.slotOf t.model).image, (s.slotOf t.model).inv, s.taskOf t.model t.tag with
    | some img, some inv, some task =>
      if !t.layer.sparse then s
      else
        let i := ((img.tasks.take t.tag).filter (fun u => u.layer == task.layer)).length
        let (s, rows) := if task.readsIn && img.trig.source < 2 then s.inputSites e t.layer.afmt img.trig inv.buf else (s, some given)
        match rows with
        | some rows => s.gather e t inv.trigTime i rows out
        | none => s.ttReadError t
    | _, _, _ => s

/-- An engine is halted: its staged tile is withdrawn and waits for another issue, with no strike (R212); of an active pair both
copies (R466). -/
def State.engHalted (s : State) (e : Nat) : State :=
  let es := if s.engBit e 3 then [e / 2 * 2, e / 2 * 2 + 1] else [e]
  let tiles := es.filterMap (fun k => (s.engAt k).staged)
  let s := es.foldl (fun s k => s.unstage k) s
  ((s.withdraw (fun b _ => tiles.any (fun t => t.entry == b.entry && t.gen == b.gen))).lostTargets).engShow e

/-- DISMISS of TT (R213). -/
def State.ttDismiss (s : State) : State :=
  let s := (List.range 8).foldl (fun s m =>
    let s := s.invAbandon m
    (s.setSlotOf m { s.slotOf m with pend := none }).slotShow m) s
  let gens := (List.range 4096).foldl (fun g i => SMap.set (fun _ => 0) g i ((SMap.get (fun _ => 0) s.tt.gens i + 1) % 256)) s.tt.gens
  let s := match s.tt.loading with
    | some (m, _) => s.setMst m msEmpty
    | none => s
  ({ s with tt := { s.tt with board := [], gens := gens, loading := none, deact := none } }).sbShow

def execGatherBuild (e : Fin 6) (l : SiteLists) (s : State) : Out := .next (s.gatherBuild e l.ins l.outs)
def execCmdLoad (h : Fin 2) (s : State) : Out := .next (s.hostCmd h pgTT 1 false (some (·.ttLoad)))
def execLoadDone (v : ImageView) (s : State) : Out := .next (s.loadDone v)
def execCmdUnload (h : Fin 2) (s : State) : Out := .next (s.hostCmd h pgTT 2 false (some (·.ttUnload)))
def execCmdActivate (h : Fin 2) (s : State) : Out := .next (s.hostCmd h pgTT 3 false (some (·.ttActivate)))
def execCmdDeactivate (h : Fin 2) (s : State) : Out := .next (s.hostCmd h pgTT 4 false (some (·.ttDeactivate)))
def execCmdSwap (h : Fin 2) (s : State) : Out := .next (s.hostCmd h pgTT 5 false (some (·.ttSwap)))
def execCmdUnfence (h : Fin 2) (s : State) : Out := .next (s.hostCmd h pgTT 6 false (some (·.ttUnfence)))
def execTriggerFire (m : Fin 8) (buf : Nat) (s : State) : Out := .next (s.triggerFire m buf)
def execInputRewrite (m : Fin 8) (s : State) : Out := .next (s.inputRewrite m)
def execTaskIssue (s : State) : Out := .next s.taskIssue
def execTaskCompletion (s : State) : Out := .next s.taskCompletion
def execTileTimeout (e : Fin 6) (s : State) : Out := .next (s.tileTimeout e)

end Sys2Proof.Machine
end

