-- ==== Sys2Proof/Machine/Grid.lean ====
section
/-! DEFINITION. The ground grid (R217 to R249): lists, calibration sets, placement, epochs with their evidence, sensor time
alignment, and the parts of the GRID stream. -/

namespace Sys2Proof.Machine

/-! ### Registers, buffers and status -/

/-- A register of source block `k` (R248). -/
def srcKey (k o : Nat) : Nat := rk pgGrid (0x200 + k * 0x80 + o)
def State.srcEn (s : State) (k : Nat) : Bool := s.bit (srcKey k 0) 0
/-- Buffer `b` and its parts (R219). -/
def State.gridBuf (s : State) (b : Nat) : Nat := s.rd64 (rk pgGrid 0x120) + b * 0x06400000
def State.featAddr (s : State) (b n : Nat) : Nat := s.gridBuf b + 0x01000000 + n * 64
def State.evidAddr (s : State) (b n : Nat) : Nat := s.gridBuf b + 0x05000000 + n * 4
def State.workAddr (s : State) (b n : Nat) : Nat := s.gridBuf b + 0x05400000 + n * 16
/-- Bank `b` of the ray table of source `k` (R223). -/
def State.rayBank (s : State) (k b : Nat) : Nat := s.rd64 (rk pgGrid 0x128) + (2 * k + b) * 0x00800000
def State.calOf (s : State) (k : Nat) : CalSet := SMap.get (fun _ => {}) s.grid.cal k
/-- EP in FUSION units. -/
def State.epochLen (s : State) : Nat := 16 * s.fld (rk pgGrid 0x104) 16 0

/-- The alignment unit of a source: its port, an Ethernet port as 16 + its number (R239, R248). -/
def State.srcUnit (s : State) (k : Nat) : Nat :=
  s.fld (srcKey k 4) 7 4 + (if s.bit (srcKey k 4) 2 then 16 else 0)
def State.srcMode (s : State) (k : Nat) : Nat := s.fld (srcKey k 4) 1 0
def State.unitAt (s : State) (u : Nat) : AlignUnit := SMap.get (fun _ => {}) s.grid.align u
def State.setUnit (s : State) (u : Nat) (v : AlignUnit) : State :=
  { s with grid := { s.grid with align := SMap.set (fun _ => {}) s.grid.align u v } }
/-- Whether an enabled source is ALIGNED; mode 0 always is. -/
def State.srcAligned (s : State) (k : Nat) : Bool := s.srcMode k == 0 || (s.unitAt (s.srcUnit k)).aligned
/-- The sources that are UNALIGNED now. -/
def State.unalignedMask (s : State) : Nat :=
  ((List.range 16).map (fun k => if s.srcEn k && !s.srcAligned k then 2 ^ k else 0)).sum

/-- GRID_STATUS and GRID_QUEUE (R247). -/
def State.gridShow (s : State) : State :=
  let g := s.grid
  let v := (if g.clearing then 1 else 0) + (if g.closing.isSome then 2 else 0) +
    (if (g.acc.map (·.noPose)).getD false then 4 else 0) + (if g.warmed then 8 else 0) +
    ((g.acc.map (·.buffer)).getD 0) * 16 + s.unalignedMask * 256 + min 255 g.warm * 2 ^ 24
  let n : Nat := g.lists.length
  ((s.wrN (rk pgGrid 0x114) v).setFld (rk pgGrid 0x13C) 6 0 n).peak (rk pgGrid 0x13C) 22 16 n

/-- Whole lists dropped: the list, and its observations at their source. -/
def State.listDrop (s : State) (src obs : Nat) : State := (s.bump (rk pgGrid 0x68)).sat (srcKey src 0x1C) obs

/-- Changes the accumulating epoch. -/
def State.onAcc (s : State) (f : Epoch → Epoch) : State := { s with grid := { s.grid with acc := s.grid.acc.map f } }

/-! ### Lists (R220 to R222, R242) -/

/-- The first delivery for GRID. -/
def takeGrid : List Delivery → Option (Delivery × Fin 16 × List Delivery)
  | [] => none
  | d :: ds => match d.consumer with
    | .grid k => some (d, k, ds)
    | _ => (takeGrid ds).map (fun r => (r.1, r.2.1, d :: r.2.2))

/-- A list is delivered: queued, or discarded whole. A list that arrives while GRID does not run is discarded (log 37). An UNCHECKED
list marks its source in the epoch that accumulates (R236). A list that finds the queue full counts in GRID_QUEUE's peak as the 65th
(log 89). -/
def State.gridDeliver (s : State) : State :=
  match takeGrid s.tt.deliver with
  | none => s
  | some (d, k, rest) =>
    let s := { s with tt := { s.tt with deliver := rest } }
    if !s.running pgGrid || !s.srcEn k then s.listDrop k (s.getLE (d.addr + 18) 2)
    else
    let s := if d.unchecked then s.onAcc (fun e => { e with uncheckedBy := e.uncheckedBy ||| 2 ^ k.val }) else s
    if 64 ≤ s.grid.lists.length then
      (((s.listDrop k (s.getLE (d.addr + 18) 2)).onAcc (fun e => { e with listOvf := true })).event pgGrid 8).peak
        (rk pgGrid 0x13C) 22 16 65
    else
      let l : GridList := { addr := d.addr, source := k, unchecked := d.unchecked }
      ({ s with grid := { s.grid with lists := s.grid.lists ++ [l] } }).gridShow

/-! ### Placement (R225 to R228) -/

/-- What becomes of an observation. -/
inductive Placed where
  | cell (n : Nat)
  | outside
  | drop
deriving DecidableEq, Repr

/-- The extrinsic's rotation and offset. -/
def CalSet.rot (c : CalSet) : FMat := [(c.ext.drop 0).take 3, (c.ext.drop 4).take 3, (c.ext.drop 8).take 3]
def CalSet.off (c : CalSet) : List Word := [c.ext.getD 3 0, c.ext.getD 7 0, c.ext.getD 11 0]

/-- The ray of a feature-map pixel in the vehicle frame: normalised, then rotated. -/
def State.rayDir (s : State) (k : Nat) (c : CalSet) (u v : Nat) : Option (List Word) :=
  let rw := bits c.dim.toNat 9 0 + 1
  let rh := bits c.dim.toNat 25 16 + 1
  if rw ≤ u || rh ≤ v then none
  else
    let a := s.rayBank k c.bank + (v * rw + u) * 8
    if s.getLE (a + 6) 2 % 2 = 0 then none
    else
      let r := (List.range 3).map (fun i => f16to32 (s.getLE (a + 2 * i) 2))
      let n := fsqrt (fdot r r)
      some (fmatVec c.rot (r.map (fun x => fdiv x n)))

/-- A point along a ray. -/
def along (o d : List Word) (t : Word) : List Word := List.zipWith (fun x y => fadd x (fmul t y)) o d

/-- The observation's point in the vehicle frame; none where it is dropped (R225). -/
def State.vehiclePoint (s : State) (k : Nat) (c : CalSet) (p0 p1 p2 : Word) : Option (List Word) :=
  if s.bit (srcKey k 0) 1 then some (List.zipWith fadd (fmatVec c.rot [p0, p1, p2]) c.off)
  else match ffloor p0, ffloor p1 with
    | some u, some v =>
      if u < 0 || v < 0 then none
      else match s.rayDir k c u.toNat v.toNat with
        | none => none
        | some d =>
          let o := c.off
          if flt 0 p2 then some (along o d p2)
          else if fle p2 0 && fle 0 p2 then
            let g (i : Nat) : Word := c.gnd.getD i 0
            let num := fsub (fadd (fadd (g 0) (fmul (g 1) (o.getD 0 0))) (fmul (g 2) (o.getD 1 0))) (o.getD 2 0)
            let den := fsub (fsub (d.getD 2 0) (fmul (g 1) (d.getD 0 0))) (fmul (g 2) (d.getD 1 0))
            let t := fdiv num den
            if fle den 0 && fle 0 den then none
            else if flt 0 t then some (along o d t)
            else none
          else none
    | _, _ => none

/-- The side of a cell in metres, FP32. -/
def State.cellFp (s : State) : Word := fofRat (s.fld (rk pgGrid 0x100) 5 0) 100

/-- Where an observation lands (R218, R225, R226). -/
def State.obsCell (s : State) (e : Epoch) (k : Nat) (c : CalSet) (p0 p1 p2 : Word) (t : Nat) : Placed :=
  if s.now < t || t + 16 * s.fld (rk pgGrid 0x134) 15 0 < s.now then .drop
  else match s.vehiclePoint k c p0 p1 p2 with
    | none => .drop
    | some p => match poseAt none s.grid.poses t with
      | none => .drop
      | some (pos, q) =>
        let w := List.zipWith fadd (fmatVec (quatMat q) p) (pos.map f64to32)
        if p.any fisNan || w.any fisNan then .drop
        else match ffloor (fdiv (w.getD 0 0) s.cellFp), ffloor (fdiv (w.getD 1 0) s.cellFp) with
          | some x, some y =>
            let i := x - e.oi
            let j := y - e.oj
            if i < 0 || j < 0 || 1023 < i || 1023 < j then .outside else .cell (j.toNat * 1024 + i.toNat)
          | _, _ => .outside

/-- A feature that is written: a NaN as 0 (R227). -/
def featOf (f : Byte) : Byte := if fmtE4m3.decode f.toNat = .nan then 0 else f
/-- The larger of two features; equal zeros leave +0 (R227). -/
def featMax (a b : Byte) : Byte :=
  match (fmtE4m3.decode a.toNat).cmp (fmtE4m3.decode b.toNat) with
  | some .lt => b
  | some .eq => if a.toNat % 128 = 0 then 0 else a
  | some .gt => a
  | none => if fmtE4m3.decode a.toNat = .nan then b else a

/-- The effect of an observation on its cell (R227, R228), under the epoch's CONF_MIN. -/
def State.placeObs (s : State) (buf k n ev conf confMin : Nat) (feats : List Byte) (unchk : Bool) : State :=
  let wa := s.workAddr buf n
  let w := s.getLE wa 16
  let cnt := bits w 63 48
  let fa := s.featAddr buf n
  let new := feats.map featOf
  let s := s.setBytes fa (if cnt = 0 then new else List.zipWith featMax (s.bytes fa 64) new)
  let big := decide (confMin < conf)
  let d : Int := (conf * s.fld (srcKey k 0) 15 8 / 256 : Nat)
  let dl := toSigned 32 (bits w 95 64) + (if ev = 2 then d else if ev = 1 then -d else 0)
  let contrib := bits w 15 0 ||| 2 ^ k
  let occ := bits w 31 16 ||| (if ev = 2 && big then 2 ^ k else 0)
  let fre := bits w 47 32 ||| (if ev = 1 && big then 2 ^ k else 0)
  let u := if unchk then 1 else bits w 96 96
  let s := s.putLE wa 16 (contrib + occ * 2 ^ 16 + fre * 2 ^ 32 + min 65535 (cnt + 1) * 2 ^ 48 + ofSigned 32 dl * 2 ^ 64 + u * 2 ^ 96)
  let m := SMap.get (fun _ => []) s.grid.marks buf
  if m.contains n then s
  else { s with grid := { s.grid with marks := SMap.set (fun _ => []) s.grid.marks buf (n :: m) } }

/-- One observation of a list: its 80 bytes (R221). -/
def State.gridObs (s : State) (k : Nat) (c : CalSet) (ref : Nat) (unchk : Bool) (ob : List Byte) : State :=
  match s.grid.acc with
  | none => s
  | some e =>
    let w (i : Nat) : Word := BitVec.ofNat 32 (fieldLE ob (4 * i) 4)
    match s.obsCell e k c (w 0) (w 1) (w 2) (ref + fieldLE ob 12 2) with
    | .drop => ((s.bump (rk pgGrid 0x60)).sat (srcKey k 0x1C)).onAcc (fun e => { e with dropped := e.dropped + 1 })
    | .outside => s.bump (rk pgGrid 0x58)
    | .cell n =>
      let s := s.placeObs e.buffer k n (fieldLE ob 14 1 % 4) (fieldLE ob 15 1) e.confMin ((ob.drop 16).take 64) unchk
      ((s.bump (rk pgGrid 0x50)).sat (srcKey k 0x18)).onAcc (fun e =>
        { e with placed := e.placed + 1, placedBy := e.placedBy ||| 2 ^ k })

/-- GRID takes the list at the head of its queue (R222, R226, R242). The header's sequence number is read again after the last
observation: a list that the placement itself has overwritten is TORN. No other master writes in between, since the list is placed as
one step (log 38). -/
def State.gridPlace (s : State) : State :=
  match s.grid.acc, s.grid.lists with
  | some e, l :: rest =>
    if !s.running pgGrid || s.halted pgGrid then s
    else
      let s := ({ s with grid := { s.grid with lists := rest } }).gridShow
      let (s, hdr) := s.loadFor (some pgGrid) mTrk l.addr 32
      match hdr with
      | none => s.listDrop l.source (s.getLE (l.addr + 18) 2)
      | some h =>
        let n := fieldLE h 18 2
        let ref := fieldLE h 0 8
        if n = 0 || 16384 < n || fieldLE h 16 1 ≠ l.source || e.noPose || !s.srcAligned l.source ||
            (s.srcMode l.source != 0 && decide (ref < (s.unitAt (s.srcUnit l.source)).lastExit)) then s.listDrop l.source n
        else
          let (s, body) := s.loadFor (some pgGrid) mTrk (l.addr + 32) (80 * n)
          match body with
          | none => s.listDrop l.source n
          | some bs =>
            let s := (List.range n).foldl (fun s i =>
              s.gridObs l.source (s.calOf l.source) ref l.unchecked ((bs.drop (80 * i)).take 80)) s
            if s.getLE (l.addr + 8) 8 = fieldLE h 8 8 then s.bump (rk pgGrid 0x48)
            else (s.onAcc (fun e => { e with torn := true })).bump (rk pgGrid 0x68)
  | _, _ => s

/-! ### Calibration (R223, R224) -/

/-- The cause of a refusal of a source's PENDING set: 1 last row, 2 column norm, 3 orthogonality. RW and RH always lie in range. -/
def State.calRefused (s : State) (k : Nat) : Option Nat :=
  let x (i : Nat) : Word := s.rd (srcKey k (0x40 + 4 * i))
  let col (j : Nat) : List Word := [x j, x (4 + j), x (8 + j)]
  let eps := fofRat 1 1000
  let is (a b : Word) : Bool := fle a b && fle b a
  if !(is (x 12) 0 && is (x 13) 0 && is (x 14) 0 && is (x 15) fone) then some 1
  else if (List.range 3).any (fun j => !fle (fabs (fsub (fsqrt (fdot (col j) (col j))) fone)) eps) then some 2
  else if [(0, 1), (0, 2), (1, 2)].any (fun q => !fle (fabs (fdot (col q.1) (col q.2))) eps) then some 3
  else none

/-- The switch of a source's sets: the PENDING one becomes CURRENT, and the old CURRENT one PENDING (R224). -/
def State.calSwitch (s : State) (k : Nat) : State :=
  let old := s.calOf k
  let new : CalSet := {
    ext := (List.range 16).map (fun i => s.rd (srcKey k (0x40 + 4 * i)))
    gnd := (List.range 3).map (fun i => s.rd (srcKey k (0x30 + 4 * i)))
    dim := s.rd (srcKey k 0x28)
    ver := s.fld (srcKey k 0x20) 15 0
    bank := 1 - old.bank }
  let s := (List.range 16).foldl (fun s i => s.wr (srcKey k (0x40 + 4 * i)) (old.ext.getD i 0)) s
  let s := (List.range 3).foldl (fun s i => s.wr (srcKey k (0x30 + 4 * i)) (old.gnd.getD i 0)) s
  let s := ((s.wr (srcKey k 0x28) old.dim).wrN (srcKey k 0x20) old.ver).setFld (srcKey k 0x24) 15 0 new.ver
  let s := (s.setBit (srcKey k 0x24) 16 false).event pgGrid 6
  { s with grid := { s.grid with cal := SMap.set (fun _ => {}) s.grid.cal k new, commit := none } }

/-- CMD_CAL_COMMIT. -/
def State.calCommit (s : State) : State :=
  let k := s.arg pgGrid 0 % 16
  match s.calRefused k with
  | some c => (s.setFld (srcKey k 0x24) 23 20 c).cmdDone pgGrid resRefused c
  | none =>
    if s.running pgGrid then
      { s.setBit (srcKey k 0x24) 16 true with grid := { s.grid with commit := some k } }
    else (s.calSwitch k).cmdDone pgGrid resDone

/-! ### Alignment (R239 to R241) -/

/-- The enabled sources that follow a unit. -/
def State.followers (s : State) (u : Nat) : List Nat :=
  (List.range 16).filter (fun k => s.srcEn k && s.srcMode k != 0 && s.srcUnit k == u)

/-- GRID_SRC_STATUS and GRID_SRC_OFFSET of a unit's sources (a source in mode 0 shows ALIGNED from GRID's start on). -/
def State.unitShow (s : State) (u : Nat) : State :=
  let v := s.unitAt u
  let o := ofSigned 32 (clampI (-(2 ^ 31)) (2 ^ 31 - 1) v.off)
  ((s.followers u).foldl (fun s k =>
    let s := (s.setBit (srcKey k 0x10) 0 v.aligned).setFld (srcKey k 0x10) 7 4 (min 15 v.good)
    (s.setFld (srcKey k 0x10) 31 16 (v.lastExit / 2 ^ 20)).wrN (srcKey k 0x14) o) s).gridShow

/-- A unit's sources become UNALIGNED. -/
def State.unalign (s : State) (u : Nat) : State :=
  let v := s.unitAt u
  let was := v.aligned
  let s := s.setUnit u { v with aligned := false, good := 0, step := true }
  let s := s.onAcc (fun e => { e with unaligned := e.unaligned ||| s.unalignedMask })
  let s := if was && !(s.followers u).isEmpty then s.event pgGrid 2 else s
  s.unitShow u

/-- A port or GRID enters RUNNING: the unit starts unaligned, and its rate term waits for a second pair (R240, R241). -/
def State.alignStart (s : State) (u : Nat) : State :=
  (s.setUnit u { s.unitAt u with sprev := none, lastUse := s.now }).unalign u

/-- LAT in FUSION units. -/
def State.srcLat (s : State) (k : Nat) : Int := (s.fld (srcKey k 0xC) 19 0 * 2 / 125 : Nat)
/-- A register of TRIG output `m` (R333). -/
def trigKey (m o : Nat) : Nat := rk pgTrig (0x100 + m * 0x20 + o)
/-- A TRIG output's period in FUSION units. -/
def State.trigPeriod (s : State) (m : Nat) : Nat := s.rdN (trigKey m 0xC) * 2 / 125
/-- A source's ALIGN_LIMIT, and the period that its timeout counts. -/
def State.alignLimit (s : State) (k : Nat) : Nat :=
  if s.srcMode k = 1 then 16 * s.fld (srcKey k 8) 15 0 else s.trigPeriod (s.fld (srcKey k 4) 11 8)
def State.alignPeriod (s : State) (k : Nat) : Nat :=
  if s.srcMode k = 1 then 16 * s.fld (rk pgGrid 0x150) 15 0 else s.trigPeriod (s.fld (srcKey k 4) 11 8)

/-- The triple of a unit's port, its K_NOM, and the pairs it offers. -/
def State.unitTriple (s : State) (u : Nat) : Triple := if u < 16 then (s.csiAt u).triple else (s.ethAt (u - 16)).triple
def State.unitKnom (s : State) (u : Nat) : Nat := if u < 16 then (s.csiAt u).kNom else (s.ethAt (u - 16)).kNom
/-- The unit commits a triple as one; the TMAP registers hold what the device sets (R45, R470). -/
def State.setUnitTriple (s : State) (u : Nat) (t : Triple) : State :=
  let r := if u < 16 then rk (pgCsi u) 0x140 else rk (pgEth (u - 16)) 0x190
  let s := ((s.wr64 r (ofSigned 64 t.a)).wr64 (r + 8) (ofSigned 64 t.b)).wrN (r + 16) t.k
  if u < 16 then s.setCsi u { s.csiAt u with triple := t } else s.setEth (u - 16) { s.ethAt (u - 16) with triple := t }
def State.unitOffers (s : State) (u : Nat) : List (Option Nat × Nat) := if u < 16 then (s.csiAt u).offers else (s.ethAt (u - 16)).offers
def State.dropOffer (s : State) (u : Nat) : State :=
  if u < 16 then s.setCsi u { s.csiAt u with offers := (s.csiAt u).offers.drop 1 }
  else s.setEth (u - 16) { s.ethAt (u - 16) with offers := (s.ethAt (u - 16)).offers.drop 1 }

/-- The pair's error decides good pairs and the state (R241). -/
def State.alignJudge (s : State) (k u : Nat) (e : Int) : State :=
  let v := s.unitAt u
  let lim : Int := s.alignLimit k
  let good := if 4 * (e.natAbs : Int) < lim then v.good + 1 else 0
  let s := s.setUnit u { v with good := good, lastUse := s.now }
  if lim < v.off.natAbs then (if v.aligned then s.unalign u else s.unitShow u)
  else if !v.aligned && 16 ≤ good then
    ((s.setUnit u { s.unitAt u with aligned := true, step := false, lastExit := s.now }).event pgGrid 3).unitShow u
  else s.unitShow u

/-- A K' has met its clamp: each port sees it in GRID_SRC_STATUS until its own next read of it (R240, R248). -/
def clampKey (h k : Nat) : Nat := copyKey h pgGrid (0x210 + k * 0x80)
def State.clampMark (s : State) (k : Nat) : State := (s.setBit (clampKey 0 k) 1 true).setBit (clampKey 1 k) 1 true

/-- A mode 1 pair (s, f) is used (R240, R241). -/
def State.alignSensor (s : State) (k u x f : Nat) : State :=
  let v := s.unitAt u
  let t := s.unitTriple u
  let ff : Int := (f : Int) - s.srcLat k
  if v.step then
    ((s.setUnitTriple u { t with a := ff, b := x }).setUnit u
      { v with step := false, off := 0, sprev := none, good := 0, lastUse := s.now }).unitShow u
  else
    let m := t.map x
    let e := ff - m
    let o := v.off + tdivI (e - v.off) 16
    let kn := s.unitKnom u
    let w := kn * 500 / 1000000
    let k1 : Int := match v.sprev with
      | some p => if p < x then t.k + tdivI (e * (2 ^ 21 : Nat)) ((x : Int) - p) else t.k
      | none => t.k
    let k2 := clampI ((kn : Int) - w) (kn + w) k1
    let rated := match v.sprev with
      | some p => decide (p < x)
      | none => false
    let k3 := if rated then k2 else t.k
    let s := if rated && k2 ≠ k1 then (s.followers u).foldl (fun s j => s.clampMark j) s else s
    let s := s.setUnitTriple u { a := m + tdivI e 4, b := x, k := (max 0 k3).toNat }
    (s.setUnit u { v with off := o, sprev := some x }).alignJudge k u e

/-- The last fire of TRIG output `m`, as its register shows it, and as a unit's reference: after a FUSION step the fire before it counts in
the new scale (R235). -/
def State.lastFire (s : State) (m : Nat) : Nat := s.rd64 (trigKey m 0x14)
def State.unitFire (s : State) (u m : Nat) : Nat :=
  match (s.unitAt u).moved with
  | some (r, j) => if r = s.lastFire m then r + j else s.lastFire m
  | none => s.lastFire m

/-- A mode 2 pair: the fire time and the first frame or batch after it within one period (R239, R240). Only the offset moves. -/
def State.alignTrigger (s : State) (k u f : Nat) : State :=
  let m := s.fld (srcKey k 4) 11 8
  let fire := s.unitFire u m
  let v := s.unitAt u
  if f < fire || fire + s.trigPeriod m ≤ f || v.period = some (s.lastFire m) then s
  else
    let e : Int := (f : Int) - s.srcLat k - fire
    (s.setUnit u { v with off := v.off + tdivI (e - v.off) 16, period := some (s.lastFire m) }).alignJudge k u e

/-- A unit takes the next pair that its port offers: in mode 1 the first of each ALIGN_PERIOD that carries a sensor time, in mode 2 a Frame
Start or a batch (R239). -/
def State.alignPair (s : State) (k : Nat) : State :=
  let u := s.srcUnit k
  match s.unitOffers u with
  | [] => s
  | (x, f) :: _ =>
    let s := s.dropOffer u
    let v := s.unitAt u
    if !s.srcEn k then s
    else if s.srcMode k = 1 then
      let p := s.now / max 1 (s.alignPeriod k)
      match x with
      | none => s
      | some x => if v.period = some p then s else (s.setUnit u { v with period := some p }).alignSensor k u x f
    else if s.srcMode k = 2 then if u < 16 && x.isSome then s else s.alignTrigger k u f
    else s

/-- No pair used for four periods (R241). -/
def State.alignTimeout (s : State) (k : Nat) : State :=
  let u := s.srcUnit k
  let v := s.unitAt u
  if s.srcEn k && s.srcMode k ≠ 0 && v.aligned && decide (v.lastUse + 4 * s.alignPeriod k ≤ s.now) then s.unalign u else s

/-- CMD_RELOCK; a source in mode 0 stays ALIGNED. -/
def State.gridRelock (s : State) : State :=
  let k := s.arg pgGrid 0 % 16
  (if s.srcMode k = 0 then s else s.unalign (s.srcUnit k)).cmdDone pgGrid resDone

/-! ### Epochs (R232 to R235) -/

/-- The origin of an epoch from its reference position: the floor of the cell index (R218), so the vehicle lies in cell (512, 512). -/
def State.originOf (s : State) (x : DWord) : Int := (ffloor (fdiv (f64to32 x) s.cellFp)).getD 0 - 512

/-- The epoch that opens at a time, after the one that ends (R218, R232, R234, R235). CONF_MIN is the one that the close which begins here
takes (R229; log 90). -/
def State.openEpoch (s : State) (at_ : Nat) (prev : Option Epoch) (fresh stepped : Bool) : Epoch :=
  let buffer := (prev.map (fun e => 1 - e.buffer)).getD 0
  let base : Epoch := {
    buffer := buffer, open_ := at_, unaligned := s.unalignedMask, timeStep := stepped
    vers := (List.range 16).map (fun k => (s.calOf k).ver), confMin := s.fld (rk pgGrid 0x108) 31 24 }
  let adopted := (s.loopAt 2).adopted
  match fresh, adopted with
  | true, some v =>
    let (pos, q) := (Pose.ofLoop v.words).extrapolate at_
    let x := pos.getD 0 0
    let y := pos.getD 1 0
    let oi := s.originOf x
    let oj := s.originOf y
    { base with
      oi := oi, oj := oj, xref := x, yref := y, heading := quatYaw q
      di := oi - (prev.map (·.oi)).getD oi, dj := oj - (prev.map (·.oj)).getD oj }
  | _, _ =>
    { base with
      noPose := true, oi := (prev.map (·.oi)).getD (-512), oj := (prev.map (·.oj)).getD (-512)
      xref := (prev.map (·.xref)).getD 0, yref := (prev.map (·.yref)).getD 0, heading := (prev.map (·.heading)).getD 0 }

/-- Whether the close that begins takes an all-UNKNOWN prior (R229, R244). -/
def State.priorUnknown (s : State) : Bool :=
  (s.grid.firstAfter && !s.bit (rk pgGrid 0x100) 8) || s.grid.cellChanged || s.grid.evidClear || s.grid.last.isNone

/-- The first multiple of EP that is at least EP after an opening. -/
def nextMultiple (ep t : Nat) : Nat := if ep = 0 then t else (t + 2 * ep - 1) / ep * ep

/-- The accumulating epoch ends and its close begins; its prior, GRID_EVID and GRID_EVID2 are fixed here (R229). -/
def State.endEpoch (s : State) (at_ : Nat) : State :=
  match s.grid.acc with
  | none => s
  | some e =>
    let e := { e with
      shut := at_, priorUnknown := s.priorUnknown, evid := s.rdN (rk pgGrid 0x108), evid2 := s.rdN (rk pgGrid 0x10C) }
    { s with grid := { s.grid with
        acc := none
        closing := some e
        evidCmd := s.grid.evidCmd || s.grid.evidClear
        evidClear := false
        firstAfter := false
        cellChanged := false } }

/-- A boundary: the epoch ends, a calibration switch applies, the reference pose is adopted, and the new epoch opens (R232). A
boundary during a close, or while GRID is halted, opens none (R233, R245). -/
def State.epochBoundary (s : State) : State :=
  if !s.running pgGrid || s.now < s.grid.nextAt then s
  else
    let at_ := s.grid.stepAt.getD s.grid.nextAt
    let stepped := s.grid.stepAt.isSome
    let next := if stepped then nextMultiple s.epochLen at_ else at_ + s.epochLen
    let s : State := { s with grid := { s.grid with nextAt := next, stepAt := none, clearing := false } }
    if s.grid.closing.isSome || s.halted pgGrid then
      (((s.onAcc (fun e => { e with long := true, timeStep := e.timeStep || stepped })).bump (rk pgGrid 0x78)).event pgGrid 7).gridShow
    else
      let s := s.endEpoch at_
      let s := match s.grid.commit with
        | some k => (s.calSwitch k).cmdDone pgGrid resDone
        | none => s
      let b := s.loopAt 2
      let b' := b.adopt
      let fresh := s.isFresh .gridPose b'.adopted
      let s := s.setLoop 2 { b' with fresh := fresh }
      let s := if b.fresh && !fresh then s.event pgGrid 4 else if fresh && !b.fresh then s.event pgGrid 5 else s
      let prev := s.grid.closing.orElse (fun _ => s.grid.last)
      ({ s with grid := { s.grid with acc := some (s.openEpoch at_ prev fresh stepped) } }).gridShow

/-! ### Evidence (R229 to R231) -/

/-- The evidence of a cell (R231). -/
structure Evid where
  l     : Int := 0
  age   : Nat := 255
  conf  : Bool := false
  hold  : Nat := 0
  u     : Bool := false
deriving DecidableEq, Repr

def Evid.ofWord (w : Nat) : Evid :=
  { l := toSigned 13 (bits w 12 0), age := bits w 27 20, conf := w.testBit 15, hold := bits w 19 16, u := w.testBit 28 }
/-- The word, with STATE under the thresholds. -/
def Evid.word (e : Evid) (lOcc lFree : Nat) : Nat :=
  let st := if (lOcc : Int) ≤ e.l then 2 else if e.l ≤ -(lFree : Int) then 1 else 0
  ofSigned 13 e.l + st * 2 ^ 13 + (if e.conf then 2 ^ 15 else 0) + e.hold * 2 ^ 16 + e.age * 2 ^ 20 + (if e.u then 2 ^ 28 else 0)

/-- Whether a work word shows a conflict (R229, R230). -/
def workConflict (occ fre : Nat) : Bool :=
  occ != 0 && fre != 0 && !(occ == fre && (List.range 16).any (fun i => occ == 2 ^ i))

/-- R229 for one cell: prior evidence and work word. -/
def evidClose (clamp : Int) (decay hold : Nat) (p : Evid) (w : Nat) : Evid :=
  let occ := bits w 31 16
  let fre := bits w 47 32
  let a : Evid :=
    if bits w 63 48 ≠ 0 then
      { p with u := w.testBit 96 || (p.u && p.l != 0), l := clampI (-clamp) clamp (p.l + toSigned 32 (bits w 95 64)), age := 0 }
    else
      let l := p.l - Int.sign p.l * (min p.l.natAbs decay : Nat)
      { p with l := l, age := min 255 (p.age + 1), u := p.u && l != 0 }
  if workConflict occ fre then { a with conf := true, hold := hold }
  else if p.hold ≠ 0 then { a with hold := p.hold - 1 }
  else { a with conf := false }

/-- The conflict matrix gains every ordered pair of a cell (R230). -/
def State.conflictAdd (s : State) (occ fre : Nat) : State :=
  (List.range 16).foldl (fun s a => if occ.testBit a then
    (List.range 16).foldl (fun s b => if fre.testBit b && a != b then s.sat (rk pgGrid (0xA00 + (a * 16 + b) * 4)) else s) s
    else s) s

/-- What a close has gathered: words of the plane, list entries, active cells, conflicts, and whether a cell has U. -/
structure Closing where
  words : List (Nat × Nat) := []
  list  : List Nat := []
  active : Nat := 0
  confl : Nat := 0
  unchk : Bool := false
deriving DecidableEq, Repr

/-- A set of numbers, in rising order. -/
def setAdd (m : SMap Bool) (n : Nat) : SMap Bool := SMap.set (fun _ => false) m n true

/-- The cell over which a word of the prior plane stands, where it is in the grid. -/
def scrolled (e : Epoch) (n : Nat) : Option Nat :=
  let i : Int := (n % 1024 : Nat) - e.di
  let j : Int := (n / 1024 : Nat) - e.dj
  if i < 0 || j < 0 || 1023 < i || 1023 < j then none else some (j.toNat * 1024 + i.toNat)

/-- The cells that a close must look at, in raster order: those with work and those over evidence that says something. All others
keep the word of an unknown cell, which an unlisted cell of a closed plane reads as. -/
def State.closeCells (s : State) (e : Epoch) (prior : Option Nat) : List Nat :=
  let worked : SMap Bool := (SMap.get (fun _ => []) s.grid.marks e.buffer).foldl setAdd []
  let held : List Nat := match prior with
    | none => []
    | some a => (s.gridMem.filter (fun q => a ≤ q.1 && q.1 < a + 0x400000)).filterMap (fun q => scrolled e ((q.1 - a) / 4))
  (held.foldl setAdd worked).map (fun q => q.1)

/-- The prior evidence of a cell: the same ground cell in the epoch before (R229). -/
def State.priorEvid (s : State) (e : Epoch) (prior : Option Nat) (n : Nat) : Evid :=
  match prior with
  | none => {}
  | some a =>
    let i : Int := (n % 1024 : Nat) + e.di
    let j : Int := (n / 1024 : Nat) + e.dj
    if i < 0 || j < 0 || 1023 < i || 1023 < j then {} else Evid.ofWord (s.getLE (a + 4 * (j.toNat * 1024 + i.toNat)) 4)

/-- The work word of a cell, where the bitmap marks it; no other is read (R228). -/
def State.workOf (s : State) (e : Epoch) (n : Nat) : Nat :=
  if (SMap.get (fun _ => []) s.grid.marks e.buffer).contains n then s.getLE (s.workAddr e.buffer n) 16 else 0

/-- One cell of a close. -/
def State.closeCell (s : State) (e : Epoch) (prior : Option Nat) (c : Closing) (n : Nat) : State × Closing :=
  let ev := e.evid
  let ev2 := e.evid2
  let w := s.workOf e n
  let r := evidClose (bits ev2 11 0) (bits ev2 19 12) (bits ev2 23 20) (s.priorEvid e prior n) w
  let cnt := bits w 63 48
  let bad := workConflict (bits w 31 16) (bits w 47 32)
  let s := if bad then (s.conflictAdd (bits w 31 16) (bits w 47 32)).bump (rk pgGrid 0x70) else s
  let ent := n / 1024 * 2 ^ 20 + n % 1024 * 2 ^ 8 + min 255 cnt
  (s, {
    words := c.words ++ [(n, r.word (bits ev 11 0) (bits ev 23 12))]
    list := if cnt ≠ 0 then c.list ++ [ent] else c.list
    active := if cnt ≠ 0 then c.active + 1 else c.active
    confl := if r.conf then c.confl + 1 else c.confl
    unchk := c.unchk || r.u })

/-- The epoch header (R236). -/
def State.epochHeader (s : State) (e : Epoch) (c : Closing) (number : Nat) (warmed : Bool) : List Byte :=
  let flags := (if e.noPose then 1 else 0) + (if e.long then 2 else 0) + (if c.unchk then 4 else 0) + (if e.torn then 8 else 0) +
    (if warmed then 16 else 0) + (if e.timeStep then 32 else 0) + (if e.priorUnknown then 64 else 0) + (if e.listOvf then 128 else 0)
  leBytes 8 number ++ leBytes 8 e.open_ ++ leBytes 8 e.shut ++ leInt 4 e.oi ++ leInt 4 e.oj ++ leInt 2 e.di ++ leInt 2 e.dj ++
    leBytes 2 (s.fld (rk pgGrid 0x100) 5 0) ++ leBytes 2 flags ++ leBytes 2 e.placedBy ++ leBytes 2 e.unaligned ++
    leBytes 2 e.uncheckedBy ++ zeros 2 ++ leBytes 4 c.active ++ leBytes 4 c.confl ++ zeros 8 ++
    (List.range 16).flatMap (fun k => leBytes 2 (e.vers.getD k 0)) ++ leBytes 8 e.xref.toNat ++ leBytes 8 e.yref.toNat ++
    leBytes 4 e.heading.toNat ++ leBytes 4 e.placed ++ leBytes 4 e.dropped ++ zeros 4

/-! ### The GRID stream (R243, R369) -/

/-- The cells of the stream's window, in raster order. -/
def State.streamCells (s : State) : List Nat :=
  let i0 := s.fld (rk pgGrid 0x144) 9 0
  let i1 := s.fld (rk pgGrid 0x144) 25 16
  let j0 := s.fld (rk pgGrid 0x148) 9 0
  let j1 := s.fld (rk pgGrid 0x148) 25 16
  (List.range (j1 + 1 - j0)).flatMap (fun j => (List.range (i1 + 1 - i0)).map (fun i => (j0 + j) * 1024 + i0 + i))

/-- Groups of at most `k` of a list, with the ordinal of each group's first. -/
def groups {α : Type} (k : Nat) : Nat → Nat → List α → List (Nat × List α)
  | 0, _, _ => []
  | fuel + 1, o, l => if l.isEmpty then [] else (o, l.take k) :: groups k fuel (o + k) (l.drop k)

/-- The parts of an epoch: kind, ordinal, count, content. -/
def State.gridParts (s : State) (e : Epoch) (hdr : List Byte) (list : List Nat) : List (Nat × Nat × Nat × List Byte) :=
  let c := s.rdN (rk pgGrid 0x140)
  let cells := if c.testBit 1 || c.testBit 2 then s.streamCells else []
  let part (kind : Nat) (f : Nat → List Byte) (g : Nat × List Nat) : Nat × Nat × Nat × List Byte :=
    (kind, g.1, g.2.length, g.2.flatMap f)
  [(0, 0, 0, hdr)] ++
    (if c.testBit 1 then (groups 16352 cells.length 0 cells).map (part 1 (fun n => s.bytes (s.evidAddr e.buffer n) 4)) else []) ++
    (if c.testBit 2 then (groups 1022 cells.length 0 cells).map (part 2 (fun n => s.bytes (s.featAddr e.buffer n) 64)) else []) ++
    (if c.testBit 3 then (groups 16352 list.length 0 list).map (part 3 (leBytes 4)) else [])

/-- The items of a published epoch, for every DEC-th one. -/
def State.gridStream (s : State) (e : Epoch) (number : Nat) (hdr : List Byte) (list : List Nat) (unchk : Bool) : State :=
  let c := s.rdN (rk pgGrid 0x140)
  if !c.testBit 0 || number % max 1 (bits c 15 8) ≠ 0 then s
  else
    let ps := s.gridParts e hdr list
    let item (p : Nat × Nat × Nat × List Byte) (i : Nat) : Offer := {
      ring := 2
      bytes := leBytes 8 number ++ leBytes 4 i ++ leBytes 1 p.1 ++ leBytes 1 (if i + 1 = ps.length then 1 else 0) ++ zeros 2 ++
        leBytes 4 p.2.1 ++ leBytes 4 p.2.2.1 ++ zeros 8 ++ p.2.2.2
      fus := e.shut
      unchecked := unchk
      warm := false }
    (List.zipWith item ps (List.range ps.length)).foldl (fun s o => s.offer o) s

/-! ### Publication (R232, R236 to R238) -/

/-- A closed plane: every cell that the close did not list reads as unknown. -/
def State.writePlane (s : State) (a : Nat) (words : List (Nat × Nat)) : State :=
  let s := s.zeroMem a 0x400000
  let s : State := { s with
    planes := if s.planes.contains a then s.planes else s.planes ++ [a]
    gridMem := SMap.clear s.gridMem a (a + 0x400000) }
  words.foldl (fun s q => s.putLE (a + 4 * q.1) 4 q.2) s

/-- The count of published epochs and WARMED (R238). -/
def State.warmCount (s : State) (noPose : Bool) : State :=
  let n := if noPose then 0 else s.grid.warm + 1
  let lim := s.rdN (rk pgGrid 0x110) % 256
  let was := s.grid.warmed
  let now := n != 0 && (was || decide (lim ≤ n))
  let s := { s with grid := { s.grid with warm := n, warmed := now } }
  if now && !was then s.event pgGrid 9 else s

/-- The close ends: evidence, the active-cell list, the header; then the epoch is published, and its buffer is the input of the models with an
EPOCH trigger (R198, R232). -/
def State.epochPublish (s : State) : State :=
  match s.grid.closing with
  | none => s
  | some e =>
    let plane := s.evidAddr e.buffer 0
    let s := s.sourceRewrites 4 0 [(s.gridBuf e.buffer, 1)]
    let pa := s.evidAddr (1 - e.buffer) 0
    let prior := if e.priorUnknown || !s.planes.contains pa then none else some pa
    let cells := s.closeCells e prior
    let (s, c) := cells.foldl (fun (a : State × Closing) n => a.1.closeCell e prior a.2 n) (s, {})
    let s := s.writePlane plane c.words
    let s := (SMap.get (fun _ => []) s.grid.marks e.buffer).foldl (fun s n => s.zeroMem (s.workAddr e.buffer n) 16) s
    let number := s.rd64 (rk pgGrid 0x40) + 1
    let cap := s.fld (rk pgGrid 0x130) 20 0
    let buf := s.gridBuf e.buffer
    let shown := c.list.take cap
    let s := s.put mTrk (buf + 0x1000) (leBytes 8 number ++ leBytes 4 shown.length ++
      leBytes 4 (if cap < c.list.length then 1 else 0) ++ shown.flatMap (leBytes 4))
    let hdr := s.epochHeader e c number s.grid.warmed
    let s := (s.put mTrk buf hdr).window 2 hdr
    let s := ((s.bump (rk pgGrid 0x40)).wr64 (rk pgGrid 0x118) number).wrN (rk pgGrid 0x138) (sat32 ((s.now - e.shut) * 125 / 2))
    let cmd := s.grid.evidCmd
    let s : State := { s with grid := { s.grid with
      closing := none
      last := some { e with active := c.active }
      lastHdr := hdr
      evidCmd := false
      marks := SMap.set (fun _ => []) s.grid.marks e.buffer [] } }
    let s := ((((s.warmCount e.noPose).gridShow).warmShow).recordDone pgGrid).sourceFires 4 0 buf
    let s := s.gridStream e number hdr shown c.unchk
    if cmd then s.cmdDone pgGrid resDone else s

/-! ### Commands, enable and DISMISS (R244 to R246) -/

/-- CMD_EVID_CLEAR. -/
def State.evidClear (s : State) : State := { s with grid := { s.grid with evidClear := true } }

/-- A write of GRID_CONFLICT_CLR (R230). -/
def State.conflictClr (s : State) (v : Word) : State :=
  if v.getLsbD 0 then { s with regs := SMap.clear s.regs (rk pgGrid 0xA00) (rk pgGrid 0xE00) } else s

/-- Whether an enable is refused (R239, R244, R248). -/
def State.gridRefused (s : State) : Bool :=
  let base := s.rd64 (rk pgGrid 0x120)
  let cal := s.rd64 (rk pgGrid 0x128)
  let on := (List.range 16).filter (fun k => s.srcEn k)
  spansMeet (base, 0x0C800000) (cal, 0x10000000) || !inLpddr base 0x0C800000 || !inLpddr cal 0x10000000 ||
    on.any (fun k => s.srcMode k == 3 ||
      (s.srcMode k == 2 && (!s.bit (trigKey (s.fld (srcKey k 4) 11 8) 0) 0 || s.trigPeriod (s.fld (srcKey k 4) 11 8) == 0)) ||
      on.any (fun j => s.srcUnit j == s.srcUnit k &&
        (s.rdN (srcKey j 4) != s.rdN (srcKey k 4) || (s.srcMode k == 1 && s.rdN (srcKey j 8) != s.rdN (srcKey k 8)) ||
          (s.srcMode k != 0 && s.rdN (srcKey j 0xC) != s.rdN (srcKey k 0xC)))))

/-- GRID enters RUNNING: marked WORK words return to zero, every source starts UNALIGNED but those in mode 0, and the first epoch opens at
the next boundary. -/
def State.gridStart (s : State) : State :=
  let s := [0, 1].foldl (fun s b =>
    (SMap.get (fun _ => []) s.grid.marks b).foldl (fun s n => s.zeroMem (s.workAddr b n) 16) s) s
  let ep := max 1 s.epochLen
  let s : State := { s with grid := { s.grid with
    marks := [], clearing := true, firstAfter := true, warm := 0, warmed := false, acc := none, closing := none, stepAt := none
    nextAt := (s.now / ep + 1) * ep } }
  let s := ((List.range 16).filter (fun k => s.srcEn k && s.srcMode k == 0)).foldl (fun s k => s.setBit (srcKey k 0x10) 0 true) s
  (((List.range 16).filter (fun k => s.srcEn k && s.srcMode k != 0)).foldl (fun s k => s.alignStart (s.srcUnit k)) s).gridShow.warmShow

/-- DISMISS of GRID (R246). -/
def State.gridDismiss (s : State) : State :=
  let s := s.grid.lists.foldl (fun s l => s.listDrop l.source (s.getLE (l.addr + 18) 2)) s
  let s := match s.grid.commit with
    | some k => s.setBit (srcKey k 0x24) 16 false
    | none => s
  ({ s with grid := { s.grid with
      lists := [], acc := none, closing := none, commit := none, evidClear := false, evidCmd := false, clearing := false } }).gridShow

/-- A forward FUSION step of J at the boundary `at_` of the old scale (R235, R300): old lists go, alignment terms, poses and the epoch
that opens there move. -/
def State.gridFusStep (s : State) (at_ j : Nat) : State :=
  let old := s.grid.lists.filter (fun l => decide (s.getLE l.addr 8 < at_))
  let s := old.foldl (fun s l => s.listDrop l.source (s.getLE (l.addr + 18) 2)) s
  let g := s.grid
  let opened := (g.acc.map (fun e => e.open_ == at_)).getD false
  let s := (List.range 24).foldl (fun s u =>
    if (s.followers u).isEmpty then s
    else
      let t := s.unitTriple u
      let v := s.unitAt u
      let m := s.fld (srcKey ((s.followers u).getD 0 0) 4) 11 8
      (s.setUnitTriple u { t with a := t.a + j }).setUnit u { v with
        lastUse := v.lastUse + j, moved := some (s.lastFire m, s.unitFire u m + j - s.lastFire m) }) s
  let mv (e : Epoch) : Epoch := { e with open_ := at_ + j, timeStep := true }
  State.gridShow { s with grid := { s.grid with
      lists := s.grid.lists.filter (fun l => !decide (s.getLE l.addr 8 < at_))
      poses := s.grid.poses.map (fun p => { p with dtime := p.dtime + j })
      acc := if opened then g.acc.map mv else g.acc
      stepAt := if opened then none else some (at_ + j)
      nextAt := if opened then nextMultiple s.epochLen (at_ + j) else at_ + j } }

def execGridListDeliver (s : State) : Out := .next s.gridDeliver
def execGridListPlace (s : State) : Out := .next s.gridPlace
def execEpochBoundary (s : State) : Out := .next s.epochBoundary
def execEpochPublish (s : State) : Out := .next s.epochPublish
def execCmdCalCommit (h : Fin 2) (s : State) : Out := .next (s.hostCmd h pgGrid 1 false (some (·.calCommit)))
def execCmdRelock (h : Fin 2) (s : State) : Out := .next (s.hostCmd h pgGrid 2 false (some (·.gridRelock)))
def execCmdEvidClear (h : Fin 2) (s : State) : Out := .next (s.hostCmd h pgGrid 3 false (some (·.evidClear)))
def execGridConflictClr (h : Fin 2) (v : Word) (s : State) : Out :=
  .next (s.hostWrite h (fun s => s.ownerWrite h pgGrid (v.getLsbD 0) (·.conflictClr v)))
def execAlignPair (k : Fin 16) (s : State) : Out := .next (s.alignPair k)
def execAlignTimeout (k : Fin 16) (s : State) : Out := .next (s.alignTimeout k)

end Sys2Proof.Machine
end

