-- ==== Sys2Proof/Machine/TrackFilter.lean ====
section
/-! DEFINITION. The filter lanes of TRK (R253, R254, R259 to R264): prediction, gate test, update and the auction, in FP32. -/

namespace Sys2Proof.Machine

/-! ### Matrices -/

/-- Where entry (i, j), i ≤ j, stands in the upper triangle of an n × n matrix, row by row (R278). -/
def triIndex (n i j : Nat) : Nat := i * n - i * (i - 1) / 2 + (j - i)
/-- The symmetric matrix of an upper triangle (R254). -/
def symMat (n : Nat) (u : List Word) : FMat :=
  (List.range n).map (fun i => (List.range n).map (fun j => u.getD (triIndex n (min i j) (max i j)) 0))
/-- The upper triangle of a matrix. -/
def upperOf (n : Nat) (m : FMat) : List Word :=
  (List.range n).flatMap (fun i => ((m.getD i []).take n).drop i)
/-- A matrix by its entries. -/
def matOf (n m : Nat) (f : Nat → Nat → Word) : FMat := (List.range n).map (fun i => (List.range m).map (f i))
def entry (m : FMat) (i j : Nat) : Word := (m.getD i []).getD j 0

/-! ### Models (R253) -/

/-- States of the motion of a model: CV 6, CTRV 6, CA 9. -/
def motionLen (model : Nat) : Nat := if model = 2 then 9 else 6
def Track.n (t : Track) : Nat := motionLen t.model + (if t.ext then 3 else 0)
def Track.at (t : Track) (i : Nat) : Word := t.x.getD i 0

/-- A time's power over a number, times a density: q dtᵏ / d. -/
def powOver (q dt : Word) : Nat → Nat → Word
  | 0, d => fdiv q (fofInt d)
  | k + 1, d => fmul dt (powOver q dt k d)

/-- Transition of CV and CA. -/
def linearF (model : Nat) (dt : Word) (i j : Nat) : Word :=
  if i = j then fone
  else if j = i + 3 && (i < 3 || (model = 2 && i < 6)) then dt
  else if model = 2 && j = i + 6 && i < 3 then powOver fone dt 2 2
  else 0

/-- Process noise: white-noise acceleration (CV), white-noise jerk (CA), Q on v and Q2 on ω (CTRV), Q2 on extents; the spec names
the processes, the matrices are their usual ones (log 42). -/
def processQ (model : Nat) (q q2 dt : Word) (i j : Nat) : Word :=
  let a := min i j
  let b := max i j
  if motionLen model ≤ a then (if a = b then fmul q2 dt else 0)
  else if motionLen model ≤ b then 0
  else if model = 0 then
    (if a % 3 ≠ b % 3 then 0 else match a / 3, b / 3 with
      | 0, 0 => powOver q dt 3 3
      | 0, _ => powOver q dt 2 2
      | _, _ => powOver q dt 1 1)
  else if model = 2 then
    (if a % 3 ≠ b % 3 then 0 else match a / 3, b / 3 with
      | 0, 0 => powOver q dt 5 20
      | 0, 1 => powOver q dt 4 8
      | 0, _ => powOver q dt 3 6
      | 1, 1 => powOver q dt 3 3
      | 1, _ => powOver q dt 2 2
      | _, _ => powOver q dt 1 1)
  else if a = 4 && b = 4 then fmul q dt
  else if a = 5 && b = 5 then fmul q2 dt
  else 0

/-- |ω| below 10⁻⁴ rad/s. -/
def straight (w : Word) : Bool := flt (fabs w) 0x38D1B717

/-- The motion of CTRV over dt (log 7). -/
def ctrvMove (x : List Word) (dt : Word) : List Word :=
  let g (i : Nat) : Word := x.getD i 0
  let psi := g 3
  let v := g 4
  let w := g 5
  let psi' := fadd psi (fmul w dt)
  let (dx, dy) :=
    if straight w then (fmul (fmul v dt) (Config.cosFp32 psi), fmul (fmul v dt) (Config.sinFp32 psi))
    else
      let r := fdiv v w
      (fmul r (fsub (Config.sinFp32 psi') (Config.sinFp32 psi)), fmul r (fsub (Config.cosFp32 psi) (Config.cosFp32 psi')))
  [fadd (g 0) dx, fadd (g 1) dy, g 2, psi', v, w] ++ x.drop 6

/-- The Jacobian of that motion; its column for ω is held at ω = 0 when |ω| < 10⁻⁴ rad/s. -/
def ctrvF (x : List Word) (dt : Word) (i j : Nat) : Word :=
  let g (k : Nat) : Word := x.getD k 0
  let psi := g 3
  let v := g 4
  let w := g 5
  let psi' := fadd psi (fmul w dt)
  let s0 := Config.sinFp32 psi
  let c0 := Config.cosFp32 psi
  let s1 := Config.sinFp32 psi'
  let c1 := Config.cosFp32 psi'
  let half := fmul 0x3F000000 (fmul v (fmul dt dt))
  if i = j then fone
  else if straight w then
    match i, j with
    | 0, 3 => fneg (fmul (fmul v dt) s0)
    | 1, 3 => fmul (fmul v dt) c0
    | 0, 4 => fmul dt c0
    | 1, 4 => fmul dt s0
    | 0, 5 => fneg (fmul half s0)
    | 1, 5 => fmul half c0
    | 3, 5 => dt
    | _, _ => 0
  else
    let r := fdiv v w
    match i, j with
    | 0, 3 => fmul r (fsub c1 c0)
    | 1, 3 => fmul r (fsub s1 s0)
    | 0, 4 => fdiv (fsub s1 s0) w
    | 1, 4 => fdiv (fsub c0 c1) w
    | 0, 5 => fsub (fmul r (fmul dt c1)) (fdiv (fmul r (fsub s1 s0)) w)
    | 1, 5 => fsub (fmul r (fmul dt s1)) (fdiv (fmul r (fsub c0 c1)) w)
    | 3, 5 => dt
    | _, _ => 0

/-- Prediction to a later time with the densities of the class (R253, R259). -/
def Track.predict (t : Track) (q q2 : Word) (time : Nat) : Track :=
  if time ≤ t.time then t
  else
    let n := t.n
    let dt := secOf ((time : Int) - t.time)
    let f := if t.model = 1 then matOf n n (ctrvF t.x dt) else matOf n n (linearF t.model dt)
    let x := if t.model = 1 then ctrvMove t.x dt else fmatVec f t.x
    let p := fmatAdd (fmatMul (fmatMul f (symMat n t.cov)) (ftranspose f)) (matOf n n (processQ t.model q q2 dt))
    { t with x := x, cov := upperOf n p, time := time }

/-! ### Gate and update (R255, R260, R261, R264) -/

/-- The state indexes that a detection measures on a track: the place, the heading on CTRV tracks, the extents. -/
def measIdx (t : Track) (clsExt : Bool) (d : Detection) : List Nat :=
  [0, 1, 2] ++ (if d.mask.testBit 0 && t.model = 1 then [3] else []) ++
    (if d.mask.testBit 1 && t.ext && clsExt then [motionLen t.model, motionLen t.model + 1, motionLen t.model + 2] else [])

/-- The measured value of a state index. -/
def measVal (t : Track) (d : Detection) (i : Nat) : Word :=
  if i < 3 then d.pos.getD i 0
  else if i = 3 && t.model = 1 then d.head
  else d.ext.getD (i - motionLen t.model) 0

/-- R between two state indexes. -/
def measR (t : Track) (d : Detection) (i j : Nat) : Word :=
  if i = j then (if i < 3 then d.var.getD i 0 else if i = 3 && t.model = 1 then d.vhead else d.vext)
  else if i + j = 1 then d.cxy
  else 0

/-- An angle brought to within half a turn of zero. -/
def wrapAngle (a : Word) : Word :=
  match fround (fdiv a 0x40C90FDB) with
  | some k => fsub a (fmul (fofInt k) 0x40C90FDB)
  | none => a

/-- The innovation, its covariance's inverse and the squared Mahalanobis distance. -/
def innovation (t : Track) (idx : List Nat) (d : Detection) : List Word × FMat × Word :=
  let p := symMat t.n t.cov
  let y := idx.map (fun i =>
    let e := fsub (measVal t d i) (t.at i)
    if i = 3 && t.model = 1 then wrapAngle e else e)
  let sm := idx.map (fun i => idx.map (fun j => fadd (entry p i j) (measR t d i j)))
  let si := finverse idx.length sm
  (y, si, fdot y (fmatVec si y))

/-- The update in the Joseph form. -/
def Track.update (t : Track) (idx : List Nat) (d : Detection) : Track :=
  let n := t.n
  let p := symMat n t.cov
  let (y, si, _) := innovation t idx d
  let ph := matOf n idx.length (fun i k => entry p i (idx.getD k 0))
  let k := fmatMul ph si
  let kh := matOf n n (fun i j => match idx.findIdx? (· == j) with | some c => entry k i c | none => 0)
  let a := fmatSub (fident n) kh
  let r := idx.map (fun i => idx.map (fun j => measR t d i j))
  let p' := fmatAdd (fmatMul (fmatMul a p) (ftranspose a)) (fmatMul (fmatMul k r) (ftranspose k))
  { t with x := List.zipWith fadd t.x (fmatVec k y), cov := upperOf n p' }

/-- The probability after a hit with d² (R264). -/
def hitP (pD lr0 d2 p : Word) : Word :=
  let lr := fdiv (fmul pD (Config.expFp32 (fneg (fmul 0x3F000000 d2)))) lr0
  fdiv (fmul p lr) (fsub (fadd (fmul p lr) fone) p)
/-- The probability after a miss. -/
def missP (pD p : Word) : Word := fdiv (fmul p (fsub fone pD)) (fsub fone (fmul p pD))

/-- Whether a track's predicted place lies in the 3 × 3 block of 4 m squares around a detection (R261). -/
def nearSquare (t : Track) (d : Detection) : Bool :=
  [0, 1].all (fun i => match ffloor (t.at i) (-2), ffloor (d.pos.getD i 0) (-2) with
    | some a, some b => decide ((a - b).natAbs ≤ 1)
    | _, _ => false)

/-! ### The auction (R262) -/

/-- Prices and holders by slot; a holder is a detection's index plus 1. -/
structure Bids where
  price : SMap Word := []
  owner : SMap Nat := []
deriving DecidableEq, Repr

def Bids.holds (b : Bids) (d : Nat) : Bool := b.owner.any (fun e => e.2 == d + 1)

/-- The best of the values; the first of equals, which is the lowest slot. -/
def bestValue : List (Nat × Word) → Option (Nat × Word)
  | [] => none
  | c :: cs => match bestValue cs with
    | some r => if flt c.2 r.2 then some r else some c
    | none => some c

/-- A detection bids. With a single candidate its second value counts as 0, or as the value itself where that is negative
(log 41). -/
def bid (eps : Word) (b : Bids) (d : Nat) (cands : List (Nat × Word)) : Bids :=
  let price (j : Nat) : Word := SMap.get (fun _ => 0) b.price j
  let vals := cands.map (fun c => (c.1, fsub c.2 (price c.1)))
  match bestValue vals with
  | none => b
  | some (j, v) =>
    let second := match bestValue (vals.filter (fun c => c.1 != j)) with
      | some r => r.2
      | none => fminW 0 v
    { price := SMap.set (fun _ => 0) b.price j (fadd (price j) (fadd (fsub v second) eps))
      owner := SMap.set (fun _ => 0) b.owner j (d + 1) }

/-- One round: every detection that holds nothing bids, in ascending index. -/
def bidRound (eps : Word) (ds : List (Nat × List (Nat × Word))) (b : Bids) : Bids :=
  ds.foldl (fun b d => if b.holds d.1 then b else bid eps b d.1 d.2) b

/-- The auction, to at most `k` rounds. A cluster whose detections all hold a track bids no more, so all clusters run together. -/
def auction (eps : Word) (ds : List (Nat × List (Nat × Word))) : Nat → Bids → Bids
  | 0, b => b
  | k + 1, b => if ds.all (fun d => b.holds d.1) then b else auction eps ds k (bidRound eps ds b)

end Sys2Proof.Machine
end

