-- ==== Sys2Proof/Machine/Ego.lean ====
section
/-! DEFINITION. Ego motion (R292 to R302, R306): updates, restarts, pose records, step poses and increments. -/

namespace Sys2Proof.Machine

/-! ### Inputs -/

/-- The speed channels EGO uses (R292). -/
def State.egoWheels (s : State) : List Nat :=
  ((List.range 8).filter (fun n => s.bit (rk pgEgo 0x100) (8 + n))).map (fun n => 48 + n)
def State.egoSpeeds (s : State) : List Nat :=
  s.egoWheels ++ (if s.bit (rk pgEgo 0x100) 3 then [56 + s.fld (rk pgEgo 0x100) 6 4] else [])
def State.egoInertial (s : State) : List Nat := (List.range 6).map (fun i => s.egoChan i)
/-- A channel's output for an instant. -/
def State.outFor (s : State) (c tau : Nat) : Option ChainOut := (s.chanAt c).out.find? (fun o => o.tau == tau)

def State.egoRiv (s : State) : FMat := (List.range 3).map (fun i => (List.range 3).map (fun j => s.rd (rk pgEgo (0x108 + 4 * (3 * i + j)))))

/-- Whether an enable is refused (R292). -/
def State.egoRefused (s : State) : Bool :=
  let used := s.egoInertial ++ s.egoSpeeds
  let col (j : Nat) : List Word := s.egoRiv.map (fun r => r.getD j 0)
  let eps := fofRat 1 1000
  used.any (fun c => !s.chanEn c || s.chanTout c != s.chanTout (s.egoChan 0)) || s.egoSpeeds.isEmpty ||
    (List.range 3).any (fun j => !fle (fabs (fsub (fsqrt (fdot (col j) (col j))) fone)) eps) ||
    [(0, 1), (0, 2), (1, 2)].any (fun q => !fle (fabs (fdot (col q.1) (col q.2))) eps) ||
    (List.range 4).any (fun i => !flt 0 (s.rd (rk pgEgo (0x140 + 4 * i)))) ||
    [3, 4, 5].any (fun i => s.bit (chanKey (s.egoChan i) 0) 8) ||
    [0, 1, 2].any (fun i => s.bit (chanKey (s.egoChan i) 0) 8 && !s.bit (chanKey (s.egoChan i) 0) 9)

/-- The six inertial inputs for an instant, in the IMU frame, where all are present, settled and not STALE (R293). -/
def State.egoInputs (s : State) (tau : Nat) : Option (List Word × Nat) :=
  let os := (List.range 6).filterMap (fun i => (s.outFor (s.egoChan i) tau).bind (fun o =>
    if o.stale || o.settling then none
    else some (if s.bit (rk pgEgo 0x104) (4 * i + 3) then fneg o.value else o.value)))
  match s.outFor (s.egoChan 0) tau with
  | some o => if os.length = 6 then some (os, o.dtime) else none
  | none => none

/-- The mean of the speed inputs that count (R294). -/
def State.egoSpeed (s : State) (tau : Nat) : Option Word :=
  let vs := s.egoSpeeds.filterMap (fun c => (s.outFor c tau).bind (fun o =>
    if o.stale || o.settling || o.srcStale then none else some o.value))
  if vs.isEmpty then none else some (fdiv (fsum vs) (fofInt vs.length))

/-! ### The estimator (R293 to R297) -/

/-- The estimate's FP32 words, which the free values of the estimator may depend on. -/
def EgoEst.words (e : EgoEst) : List Word := e.vel ++ e.quat ++ e.bg ++ e.ba ++ e.cov

/-- The cross product, and the matrix of one. -/
def cross3 (a b : List Word) : List Word :=
  let m (i j : Nat) : Word := fsub (fmul (a.getD i 0) (b.getD j 0)) (fmul (a.getD j 0) (b.getD i 0))
  [m 1 2, m 2 0, m 0 1]
def skew (v : List Word) : FMat :=
  let g (i : Nat) : Word := v.getD i 0
  [[0, fneg (g 2), g 1], [g 2, 0, fneg (g 0)], [fneg (g 1), g 0, 0]]
/-- The negative of a matrix. -/
def fmatNeg (a : FMat) : FMat := a.map (fun r => r.map fneg)
/-- A matrix of 3 × 3 blocks, an empty block being zero, by its entries. -/
def blocks (f : Nat → Nat → FMat) (i j : Nat) : Word := entry (f (i / 3) (j / 3)) (i % 3) (j % 3)
/-- A diagonal 15 × 15 matrix as an upper triangle. -/
def diagCov (v : Nat → Word) : List Word := upperOf 15 (matOf 15 15 (fun i j => if i = j then v i else 0))
/-- The trace of a covariance held as an upper triangle. -/
def covTrace (c : List Word) : Word := fsum ((List.range 15).map (fun i => c.getD (triIndex 15 i i) 0))

/-- The attitude with a heading and the roll and pitch at which a specific force in the vehicle frame points up (R296; log 6). -/
def levelQuat (yaw : Word) (acc : List Word) : List Word :=
  let x := acc.getD 0 0
  let y := acc.getD 1 0
  let z := acc.getD 2 0
  let half (a : Word) : Word := fmul 0x3F000000 a
  let roll := half (Config.atan2Fp32 y z)
  let pitch := half (Config.atan2Fp32 (fneg x) (fsqrt (fadd (fmul y y) (fmul z z))))
  let h := half yaw
  quatMul [Config.cosFp32 h, 0, 0, Config.sinFp32 h]
    (quatMul [Config.cosFp32 pitch, 0, Config.sinFp32 pitch, 0] [Config.cosFp32 roll, Config.sinFp32 roll, 0, 0])

/-- The initial state (R296): the biases start at 0 with σ of 0.01 rad/s and 0.1 m/s². -/
def State.egoInit (s : State) (u : List Word) (speed : Option Word) : EgoEst :=
  let kept := if s.ego.keep then s.ego.last else none
  let yaw := match kept with
    | some p => quatYaw p.quat
    | none => 0
  let v := speed.getD 0
  { pos := match kept with | some p => p.pos | none => [0, 0, 0]
    vel := [fmul v (Config.cosFp32 yaw), fmul v (Config.sinFp32 yaw), 0]
    quat := levelQuat yaw (fmatVec s.egoRiv (u.drop 3))
    bg := [0, 0, 0]
    ba := [0, 0, 0]
    cov := diagCov (fun i => if i < 9 then Config.egoStart i else if i < 12 then fofRat 1 10000 else fofRat 1 100) }

/-- The bias-corrected angular rate in the vehicle frame (R298). -/
def State.egoOmega (s : State) (e : EgoEst) (u : List Word) : List Word :=
  fmatVec s.egoRiv (List.zipWith fsub (u.take 3) e.bg)

/-- The bias-corrected specific force in the vehicle frame, at the vehicle's origin: what the IMU feels at EGO_LEVER beside it, turning, is
taken off (R293). -/
def State.egoForce (s : State) (e : EgoEst) (u omega : List Word) : List Word :=
  let lever := (List.range 3).map (fun i => s.rd (rk pgEgo (0x12C + 4 * i)))
  let f := fmatVec s.egoRiv (List.zipWith fsub (u.drop 3) e.ba)
  List.zipWith fsub (List.zipWith fsub f (cross3 omega (cross3 omega lever))) (cross3 (Config.egoAngAcc e.words u) lever)

/-- The error dynamics to first order (R293): position follows velocity; velocity follows the attitude through the specific force, and the
accelerometer bias; attitude follows the gyro bias. -/
def egoDynamics (r riv : FMat) (force : List Word) (a b : Nat) : FMat :=
  match a, b with
  | 0, 1 => fident 3
  | 1, 2 => fmatNeg (skew force)
  | 1, 4 => fmatNeg (fmatMul r riv)
  | 2, 3 => fmatNeg (fmatMul r riv)
  | _, _ => []

/-- Process noise over a time step: EGO_SIG_ACC on velocity, EGO_SIG_GYRO on attitude (R293, R306; log 6). -/
def State.egoNoise (s : State) (dt : Word) (i : Nat) : Word :=
  let sq (o : Nat) : Word := fmul (fmul (s.rd (rk pgEgo o)) (s.rd (rk pgEgo o))) dt
  if 3 ≤ i && i < 6 then sq 0x144 else if 6 ≤ i && i < 9 then sq 0x140 else Config.egoDrift i dt

/-- Propagation over dt seconds with the inertial inputs in the IMU frame (R293): attitude turns at the bias-corrected rate, velocity takes the
specific force in the odometry frame and gravity EGO_G along −z, position follows in FP64, and the covariance follows the error dynamics. -/
def State.egoPropagate (s : State) (e : EgoEst) (u : List Word) (dt : Word) : EgoEst :=
  let omega := s.egoOmega e u
  let r := quatMat e.quat
  let force := fmatVec r (s.egoForce e u omega)
  let vel := List.zipWith (fun v a => fadd v (fmul a dt)) e.vel (List.zipWith fsub force [0, 0, s.rd (rk pgEgo 0x138)])
  let mean := List.zipWith (fun v w => fadd v (fmul Config.egoWeight (fsub w v))) e.vel vel
  let phi := matOf 15 15 (fun i j =>
    let one : Word := if i = j then fone else 0
    fadd (fadd one (fmul (blocks (egoDynamics r s.egoRiv force) i j) dt)) (Config.egoHigher e.words u dt i j))
  let p := fmatAdd (fmatMul (fmatMul phi (symMat 15 e.cov)) (ftranspose phi))
    (matOf 15 15 (fun i j => if i = j then s.egoNoise dt i else 0))
  { e with
    pos := List.zipWith (fun x v => dadd x (dmul (f32to64 v) (f32to64 dt))) e.pos mean
    vel := vel
    quat := quatNorm (quatMul e.quat (quatOfRate omega dt))
    cov := upperOf 15 p }

/-- A measurement of the estimator (R294): its rows over the 15 error states, its residual, its variances. -/
structure EgoMeas where
  rows  : FMat
  resid : List Word
  vars  : List Word
deriving DecidableEq, Repr

/-- The 0.999 quantile of the chi-square distribution of a measurement's dimension, to three decimals. -/
def chi999 (m : Nat) : Word := fofRat (if m = 1 then 10828 else if m = 2 then 13816 else 22458) 1000

/-- The rows of components of the vehicle-frame velocity. -/
def egoVelRows (e : EgoEst) (ks : List Nat) : FMat :=
  let rt := ftranspose (quatMat e.quat)
  let att := fmatMul rt (skew e.vel)
  ks.map (fun k => (List.range 15).map (fun j =>
    if 3 ≤ j && j < 6 then entry rt k (j - 3) else if 6 ≤ j && j < 9 then entry att k (j - 6) else 0))
/-- Those components. -/
def egoVelAt (e : EgoEst) (ks : List Nat) : List Word :=
  let v := fmatVec (ftranspose (quatMat e.quat)) e.vel
  ks.map (fun k => v.getD k 0)

/-- Speed: the forward vehicle-frame velocity is the mean of the inputs. -/
def egoSpeedMeas (e : EgoEst) (v sig : Word) : EgoMeas :=
  { rows := egoVelRows e [0], resid := [fsub v ((egoVelAt e [0]).getD 0 0)], vars := [fmul sig sig] }
/-- The non-holonomic constraint: no lateral and no vertical vehicle-frame velocity. -/
def egoNhcMeas (e : EgoEst) (sig : Word) : EgoMeas :=
  { rows := egoVelRows e [1, 2], resid := (egoVelAt e [1, 2]).map fneg, vars := List.replicate 2 (fmul sig sig) }
/-- Zero velocity, and zero bias-corrected rate. -/
def State.egoZuptMeas (s : State) (e : EgoEst) (u : List Word) (sigV sigG : Word) : EgoMeas :=
  let riv := s.egoRiv
  let unit (i k : Nat) : Word := if i = k then fone else 0
  let rows := (List.range 3).map (fun i => (List.range 15).map (fun j => if 3 ≤ j && j < 6 then unit i (j - 3) else 0)) ++
    (List.range 3).map (fun i => (List.range 15).map (fun j => if 9 ≤ j && j < 12 then fneg (entry riv i (j - 9)) else 0))
  { rows := rows
    resid := e.vel.map fneg ++ (s.egoOmega e u).map fneg
    vars := List.replicate 3 (fmul sigV sigV) ++ List.replicate 3 (fmul sigG sigG) }

/-- An error added to the estimate; the attitude error turns in the odometry frame (R293). -/
def EgoEst.add (e : EgoEst) (d : List Word) : EgoEst :=
  let part (i : Nat) : List Word := (d.drop (3 * i)).take 3
  { e with
    pos := List.zipWith (fun x v => dadd x (f32to64 v)) e.pos (part 0)
    vel := List.zipWith fadd e.vel (part 1)
    quat := quatNorm (quatMul (quatOfRate (part 2) fone) e.quat)
    bg := List.zipWith fadd e.bg (part 3)
    ba := List.zipWith fadd e.ba (part 4) }

/-- A measurement applied to the estimate; none where its normalised innovation exceeds the 0.999 quantile for its dimension (R294). -/
def EgoEst.apply (e : EgoEst) (z : EgoMeas) : Option EgoEst :=
  let m := z.resid.length
  let p := symMat 15 e.cov
  let r := matOf m m (fun i j => if i = j then z.vars.getD i 0 else 0)
  let ph := fmatMul p (ftranspose z.rows)
  let si := finverse m (fmatAdd (fmatMul z.rows ph) r)
  if flt (chi999 m) (fdot z.resid (fmatVec si z.resid)) then none
  else
    let k := fmatMul ph si
    let a := fmatSub (fident 15) (fmatMul k z.rows)
    let p' := fmatAdd (fmatMul (fmatMul a p) (ftranspose a)) (fmatMul (fmatMul k r) (ftranspose k))
    some { e.add (fmatVec k z.resid) with cov := upperOf 15 p' }

/-- A measurement where it is on: applied, or rejected and counted (R294). -/
def State.egoApply (a : State × EgoEst) (on : Bool) (z : EgoEst → EgoMeas) : State × EgoEst :=
  if !on then a
  else match a.2.apply (z a.2) with
    | some e => (a.1, e)
    | none => (a.1.bump (rk pgEgo 0x50), a.2)

/-- A restart (R297): what the next start keeps of the pose is decided here. -/
def State.egoRestart (s : State) (entering : Bool) : State :=
  let s := (s.bump (rk pgEgo 0x58)).event pgEgo 6
  let s := if s.bit (rk pgEgo 0x15C) 0 then ((s.setBit (rk pgEgo 0x15C) 0 false).event pgEgo 3).warmShow else s
  let s := (s.setBit (rk pgEgo 0x15C) 2 false).wr (rk pgEgo 0x1C4) 0
  { s with ego := { s.ego with
      est := none
      first := true
      keep := !entering || s.bit (rk pgEgo 0x100) 0
      lastUpdate := s.now
      quietSince := none
      stillSince := none } }

/-- STILL (R295), with its events. -/
def State.egoStill (s : State) (quiet : Bool) (d : Nat) : State :=
  let since := if quiet then s.ego.quietSince.orElse (fun _ => some d) else none
  let still := match since with
    | some t => decide (t + 16000 * s.fld (rk pgEgo 0x150) 15 0 ≤ d)
    | none => false
  let was := s.bit (rk pgEgo 0x15C) 1
  let s := { s with ego := { s.ego with
    quietSince := since
    stillSince := if still then s.ego.stillSince.orElse (fun _ => some d) else none } }
  let s := s.setBit (rk pgEgo 0x15C) 1 still
  if still && !was then (s.event pgEgo 4).bump (rk pgEgo 0x70) else if was && !still then s.event pgEgo 5 else s

/-- ALIGNED (R296). -/
def State.egoAlign (s : State) (d : Nat) : State :=
  let long := match s.ego.stillSince with
    | some t => decide (t + 16000 * s.fld (rk pgEgo 0x154) 15 0 ≤ d)
    | none => false
  if s.bit (rk pgEgo 0x15C) 0 || !(long || fle (fofInt (s.fld (rk pgEgo 0x154) 31 16)) (s.rd (rk pgEgo 0x1C4))) then s
  else ((s.setBit (rk pgEgo 0x15C) 0 true).event pgEgo 2).warmShow

/-- A 64-bit word as two. -/
def halves (x : DWord) : List Word := [BitVec.ofNat 32 x.toNat, BitVec.ofNat 32 (x.toNat / 2 ^ 32)]

/-- A record is published (R298, R306): to the registers, and to GRID, TRK and the front ends as loop values. -/
def State.egoPublish (s : State) (e : EgoEst) (omega : List Word) (d : Nat) : State :=
  let s := s.bump (rk pgEgo 0x40)
  let flag (v : Bool) (k : Nat) : Nat := if v then 2 ^ k else 0
  let p : Pose := {
    dtime := d
    pos := e.pos
    vel := e.vel
    quat := e.quat
    omega := omega
    flags := flag (s.bit (rk pgEgo 0x15C) 0) 0 + flag (s.bit (rk pgEgo 0x15C) 1) 1 + flag s.ego.first 2
    seq := s.rdN (rk pgEgo 0x40) }
  let w (s : State) (o : Nat) (l : List Word) : State := (List.range l.length).foldl (fun s i => s.wr (rk pgEgo (o + 4 * i)) (l.getD i 0)) s
  let s := w (s.wr64 (rk pgEgo 0x164) d) 0x16C (e.pos.flatMap halves)
  let s := w (w (w (w (w s 0x184 e.vel) 0x190 e.quat) 0x1A0 omega) 0x1AC e.bg) 0x1B8 e.ba
  let (x, s) := s.draw
  let s := s.wrN (rk pgEgo 0x1C8) (x.toNat % 25001)
  let v : LoopVal := { stamp := s.now, words := toWords 20 p.bytes }
  let r : LoopVal := { stamp := s.now, words := omega.map (fun x => fdiv x (fofInt 1000000)) }
  let s := (((s.sendLoop 2 v).sendLoop 3 v).sendLoop 0 r).sendLoop 1 r
  let s := { s with ego := { s.ego with
    est := some (e, d)
    first := false
    last := some p
    published := true
    lastRec := s.now
    lastUpdate := s.now } }
  ((s.window 1 p.bytes).setBit (rk pgEgo 0x15C) 2 true).cmdDone pgEgo resDone

/-- The update for an instant whose inputs are present. STILL as it stands decides the zero-velocity measurement, and is decided again
from this update's inputs (log 46). -/
def State.egoRun (s : State) (tau : Nat) (u : List Word) (d : Nat) : State :=
  let speed := s.egoSpeed tau
  let sig (i : Nat) : Word := s.rd (rk pgEgo (0x140 + 4 * i))
  let (e, dt) : EgoEst × Word := match s.ego.est with
    | some (e, d0) =>
      let dt := secOf ((d : Int) - d0)
      (s.egoPropagate e u dt, dt)
    | none => (s.egoInit u speed, 0)
  let a := State.egoApply (s, e) speed.isSome (fun e => egoSpeedMeas e (speed.getD 0) (sig 2))
  let a := State.egoApply a (s.bit (rk pgEgo 0x100) 1) (fun e => egoNhcMeas e (sig 3))
  let a := State.egoApply a (s.bit (rk pgEgo 0x100) 2 && s.bit (rk pgEgo 0x15C) 1) (fun e => s.egoZuptMeas e u (sig 2) (sig 0))
  let s := a.1
  let e := a.2
  if e.words.any fisNan || e.pos.any (fun x => dval x == .nan) || flt (fofInt 1000000) (covTrace e.cov) then s.egoRestart false
  else
    let omega := s.egoOmega e u
    let quiet := s.egoWheels.all (fun c => ((s.outFor c tau).map (fun o => o.srcStill)).getD false) &&
      flt (fsqrt (fdot omega omega)) (fofRat (s.fld (rk pgEgo 0x150) 31 16) 1000)
    let s := s.egoStill quiet d
    let s := s.wr (rk pgEgo 0x1C4) (fadd (s.rd (rk pgEgo 0x1C4)) (fmul (fsqrt (fdot e.vel e.vel)) dt))
    (s.egoAlign d).egoPublish e omega d

/-- The instant after τ: T_E later, or the first multiple of T_out where τ is none (R300). -/
def State.egoNext (s : State) (tau : Nat) : Nat :=
  let t := max 1 (s.chanTout (s.egoChan 0))
  if tau % t = 0 then tau + max 1 s.egoPeriod else (tau / t + 1) * t

/-- EGO_UPDATE, at the instant after the one it is for. -/
def State.egoUpdate (s : State) : State :=
  let tau := s.ego.nextTau
  let next := s.egoNext tau
  if !s.running pgEgo || s.now < next then s
  else
    let s := { s with ego := { s.ego with nextTau := next } }
    if s.halted pgEgo then s
    else
      let was := s.bit (rk pgEgo 0x15C) 3
      match s.egoInputs tau with
      | none =>
        let s := s.bump (rk pgEgo 0x48)
        if was then s else (s.setBit (rk pgEgo 0x15C) 3 true).event pgEgo 7
      | some (u, d) =>
        let s := if was then (s.setBit (rk pgEgo 0x15C) 3 false).event pgEgo 8 else s
        s.egoRun tau u d

/-- EGO_GAP (R297, R302). -/
def State.egoGap (s : State) : State :=
  if !s.running pgEgo || s.now < s.ego.lastUpdate + 16000 * s.fld (rk pgEgo 0x158) 9 0 then s
  else s.egoRestart false

/-- CMD_RESTART: it completes at the restarted estimator's first record. -/
def State.egoCmdRestart (s : State) : State := s.egoRestart false

/-! ### Step poses (R299) -/

/-- Whether the EGO loop is stale at a time: the newest record was published 4 T_E or more before (R18, R20). -/
def State.egoStale (s : State) (t : Nat) : Bool := decide (s.ego.lastRec + 4 * s.egoPeriod ≤ t)

def State.stepPoseOf (s : State) (n : Nat) : Option StepPose :=
  (SMap.get (fun _ => none) s.ego.poses (n % 4096)).filter (fun p => p.step == n)

/-- The step pose at a nominal step end; none is formed before EGO has published a record since it entered RUNNING, so that the first
increment after is taken over the step itself (R299; log 107). -/
def State.stepPose (s : State) : State :=
  let n := max s.ego.nextStep s.bell.step
  let e := s.stepEnd n
  if !s.bell.started || s.now < e then s
  else
    let s := { s with ego := { s.ego with nextStep := n + 1 } }
    match s.running pgEgo && s.ego.published, s.ego.last with
    | true, some r =>
      let a := r.extrapolate e
      let b := r.extrapolate (e - s.stepP)
      let p : StepPose := { step := n, endF := e, pos := a.1, quat := a.2, backF := e - s.stepP, backPos := b.1, backQuat := b.2, nan := s.egoStale e }
      ({ s with ego := { s.ego with poses := SMap.set (fun _ => none) s.ego.poses (n % 4096) (some p) } }).bump (rk pgEgo 0x60)
    | _, _ => s

/-- The rotation vector of a unit quaternion (log 4). -/
def quatVec (q : List Word) : List Word :=
  let v := q.drop 1
  let n := fsqrt (fdot v v)
  if fle n 0 then [0, 0, 0]
  else
    let k := fdiv (fmul 0x40000000 (Config.atan2Fp32 n (qAt q 0))) n
    v.map (fun x => fmul k x)

/-- The increment from one pose to another. -/
def increment (pa : List DWord) (qa : List Word) (pb : List DWord) (qb : List Word) : List Word :=
  fmatVec (ftranspose (quatMat qa)) ((List.zipWith dsub pb pa).map f64to32) ++ quatVec (quatMul (quatConj qa) qb)

/-- The six words of step n's TICK record; NaN where R299 says so, counted in CNT_INC_NAN. -/
def State.stepIncrement (s : State) (n : Nat) : State × List Word :=
  match s.stepPoseOf n with
  | some p =>
    if p.nan then (s.bump (rk pgEgo 0x68), List.replicate 6 fnan)
    else match (if n = 0 then none else s.stepPoseOf (n - 1)) with
      | some a =>
        if a.endF = p.backF && !a.pos.isEmpty then (s, increment a.pos a.quat p.pos p.quat)
        else (s, increment p.backPos p.backQuat p.pos p.quat)
      | none => (s, increment p.backPos p.backQuat p.pos p.quat)
  | none => (s.bump (rk pgEgo 0x68), List.replicate 6 fnan)

/-! ### Enable, stop and DISMISS -/

/-- EGO enters RUNNING: it restarts, and its first instant is the first output instant after now. -/
def State.egoBegin (s : State) : State :=
  let t := max 1 (s.chanTout (s.egoChan 0))
  let s := (s.egoRestart true).wrN (rk pgEgo 0x160) (16000000 / max 1 s.egoPeriod)
  { s with ego := { s.ego with published := false, nextTau := (s.now / t + 1) * t } }

/-- DISMISS of EGO (R302): nothing beside the update in progress, which the model runs as one step; a waiting command is dismissed by
the common rule. -/
def State.egoDismiss (s : State) : State := s.setBit (rk pgEgo 0x15C) 2 false

/-- A loop value that carries a pose record: its data time moves by J. -/
def LoopVal.movePose (v : LoopVal) (j : Nat) : LoopVal :=
  let p := Pose.ofLoop v.words
  { v with words := toWords 20 { p with dtime := p.dtime + j }.bytes }

/-- A forward FUSION step of J (R300): the data times of the estimate and of every record held move, in EGO's registers and in the loops to
GRID and TRK too. -/
def State.egoFusStep (s : State) (at_ j : Nat) : State :=
  let s := if s.ego.last.isSome then s.wr64 (rk pgEgo 0x164) (s.rd64 (rk pgEgo 0x164) + j) else s
  let s := [2, 3].foldl (fun (s : State) k =>
    let b := s.loopAt k
    s.setLoop k { b with
      flight := b.flight.map (·.movePose j), waiting := b.waiting.map (·.movePose j), adopted := b.adopted.map (·.movePose j) }) s
  let g := s.ego
  { s with ego := { g with
      est := g.est.map (fun e => (e.1, e.2 + j))
      last := g.last.map (fun p => { p with dtime := p.dtime + j })
      lastUpdate := g.lastUpdate + j
      lastRec := g.lastRec + j
      quietSince := g.quietSince.map (· + j)
      stillSince := g.stillSince.map (· + j)
      nextTau := moveTau at_ j (max 1 (s.chanTout (s.egoChan 0))) g.nextTau } }

def execEgoUpdate (s : State) : Out := .next s.egoUpdate
def execEgoGap (s : State) : Out := .next s.egoGap
def execCmdRestart (h : Fin 2) (s : State) : Out := .next (s.hostCmd h pgEgo 1 false (some (·.egoCmdRestart)))
def execStepPose (s : State) : Out := .next s.stepPose

end Sys2Proof.Machine
end

