-- ==== Sys2Proof/Machine/Tracker.lean ====
section
/-! DEFINITION. The tracker (R250 to R278): lists, the tracker cycle, regimes, track records, hints and regions, commands. -/

namespace Sys2Proof.Machine

/-! ### Slots, classes and status -/

/-- A register of class block `c` (R277). -/
def clsKey (c o : Nat) : Nat := rk pgTrk (0x200 + c * 0x20 + o)
def State.clsModel (s : State) (c : Nat) : Nat := s.fld (clsKey c 0) 1 0
def State.clsExt (s : State) (c : Nat) : Bool := s.bit (clsKey c 0) 2
/-- A u0.16 register field as FP32. -/
def u016 (n : Nat) : Word := fofInt n (-16)

def State.trackAt (s : State) (j : Nat) : Option Track := SMap.get (fun _ => none) s.trk.tracks j
def State.setTrack (s : State) (j : Nat) (t : Option Track) : State :=
  { s with trk := { s.trk with tracks := SMap.set (fun _ => none) s.trk.tracks j t } }
/-- The live tracks in ascending slot order. -/
def State.live (s : State) : List (Nat × Track) := s.trk.tracks.filterMap (fun e => e.2.map (fun t => (e.1, t)))
/-- Changes every live track. -/
def State.mapTracks (s : State) (f : Nat → Track → Track) : State :=
  { s with trk := { s.trk with tracks := s.trk.tracks.map (fun e => (e.1, e.2.map (f e.1))) } }
/-- A track ID: generation and slot (R250). -/
def trackId (j gen : Nat) : Nat := gen * 16384 + j

/-- What a message that names a track meets (R252). -/
inductive IdCheck where
  | live (slot : Nat) (t : Track)
  | stale
  | free
deriving DecidableEq, Repr

def State.checkId (s : State) (id : Nat) : IdCheck :=
  match s.trackAt (id % 16384) with
  | some t => if t.gen = id / 16384 then .live (id % 16384) t else .stale
  | none => .free

/-- The rest of TRK_STATUS, and TRK_LIVE (R276). -/
def State.trkShow (s : State) : State :=
  let fenced := ((List.range 64).filter (fun i => (s.rd64 (rk pgTrk 0x144)).testBit i)).length
  let s := ((s.setFld (rk pgTrk 0x12C) 11 8 (s.rdN (rk pgTrk 0x128))).setFld (rk pgTrk 0x12C) 22 16 s.trk.lists.length).setFld
    (rk pgTrk 0x12C) 30 24 fenced
  s.wrN (rk pgTrk 0x138) (s.live.length + (s.live.filter (fun e => e.2.conf)).length * 65536)

/-- Entry into Enrolment (R268): a change to Term that has not applied yet is lost. -/
def State.enrol (s : State) : State :=
  let s := ((s.setBit (rk pgTrk 0x12C) 0 false).wrN (rk pgTrk 0x13C) 0).event pgTrk 2
  State.warmShow { s with trk := { s.trk with termNext := false } }

/-! ### Lists (R255, R256) -/

/-- The first delivery for TRK. -/
def takeTrk : List Delivery → Option (Delivery × List Delivery)
  | [] => none
  | d :: ds => match d.consumer with
    | .trk => some (d, ds)
    | _ => (takeTrk ds).map (fun r => (r.1, d :: r.2))

/-- A list is delivered: queued, or discarded whole. A list that arrives while TRK does not run is discarded (log 37). -/
def State.trkDeliver (s : State) : State :=
  match takeTrk s.tt.deliver with
  | none => s
  | some (d, rest) =>
    let s := { s with tt := { s.tt with deliver := rest } }
    if !s.running pgTrk then s.bump (rk pgTrk 0x78)
    else if 64 ≤ s.trk.lists.length then
      ({ s.bump (rk pgTrk 0x78) with trk := { s.trk with listOvf := true } }).event pgTrk 8
    else
      let l : DetList := { addr := d.addr, unchecked := d.unchecked }
      ({ s with trk := { s.trk with lists := s.trk.lists ++ [l] } }).trkShow

/-- A list put among lists that rise by reference time, behind those of the same time. -/
def insertRef (l : Nat × DetList) : List (Nat × DetList) → List (Nat × DetList)
  | [] => [l]
  | m :: ms => if l.1 < m.1 then l :: m :: ms else m :: insertRef l ms

/-- A detection in the odometry frame (R255, R257). A variance stays in the frame it is given in (log 40). -/
def detOf (pos : List DWord) (q : List Word) (ref : Nat) (unchk : Bool) (b : List Byte) : Detection :=
  let w (o : Nat) : Word := BitVec.ofNat 32 (fieldLE b o 4)
  { link := fieldLE b 0 4
    cls := fieldLE b 4 1 % 16
    mask := fieldLE b 5 1 % 4
    conf := fieldLE b 6 1
    src := fieldLE b 8 2
    pos := List.zipWith fadd (fmatVec (quatMat q) [w 16, w 20, w 24]) (pos.map f64to32)
    head := fadd (w 28) (quatYaw q)
    ext := [w 32, w 36, w 40]
    var := [w 44, w 48, w 52]
    cxy := w 56
    vhead := f16to32 (fieldLE b 60 2)
    vext := f16to32 (fieldLE b 62 2)
    unchk := unchk
    ref := ref }

/-- The pose for a list: by time, or the last adopted while the loop value is stale (R257). -/
def State.trkPose (s : State) (ref : Nat) : Option (List DWord × List Word) :=
  let b := s.loopAt 3
  if b.fresh then poseAt none s.trk.poses ref
  else b.adopted.map (fun v => let p := Pose.ofLoop v.words; (p.pos, quatNorm p.quat))

/-! ### A cycle's work -/

/-- What a cycle gathers: its time, lists processed, slots associated (2 where linked), detections left over, slots deleted with their
last state, slots changed or commanded, slots born, whether it entered Enrolment, and the tracks that commands deleted outside RUNNING
since the last batch, whose slots are free already. -/
structure Cycle where
  tk    : Nat
  lists : Nat := 0
  hits  : SMap Nat := []
  loose : List Detection := []
  dead  : List (Nat × Track) := []
  moved : List Nat := []
  born  : List Nat := []
  enrolled : Bool := false
  gone  : List (Nat × Track) := []
deriving DecidableEq, Repr

def Cycle.hit (c : Cycle) (j : Nat) : Nat := SMap.get (fun _ => 0) c.hits j

/-- A track is deleted in the cycle; its slot is freed at the commit. -/
def State.trkDelete (a : State × Cycle) (j : Nat) : State × Cycle :=
  match a.1.trackAt j with
  | some t => ((a.1.setTrack j none).bump (rk pgTrk 0x68), { a.2 with dead := a.2.dead ++ [(j, t)] })
  | none => a

/-- The waiting command is applied (R252, R274). -/
def State.trkApply (a : State × Cycle) : State × Cycle :=
  match a.1.trk.command with
  | none => a
  | some (code, id, cls) =>
    let s := { a.1 with trk := { a.1.trk with command := none } }
    let c := a.2
    let refuse (s : State) (e : Nat) : State := (s.setFld (rk pgTrk 0x14C) 7 0 e).cmdDone pgTrk resRefused e
    let done (r : State × Cycle) : State × Cycle := (r.1.cmdDone pgTrk resDone, r.2)
    if code = 3 then done (s.enrol, { c with enrolled := true })
    else if code = 4 then done (s.live.foldl (fun r e => State.trkDelete r e.1) (s, c))
    else match s.checkId id with
      | .stale => (refuse ((s.bump (rk pgTrk 0x70)).sat (rk pgTrk 0x158)) 1, c)
      | .free => (refuse (s.sat (rk pgTrk 0x15C)) 2, c)
      | .live j t =>
        if code = 1 then done (State.trkDelete (s, c) j)
        else if s.clsModel (cls % 16) ≠ t.model then (refuse s 3, c)
        else done (s.setTrack j (some { t with cls := cls % 16 }), { c with moved := c.moved ++ [j] })

/-- An association is dispatched for the track of that ID; its lane result is checked against the slot's state when it is applied (R252).
Applied, the track is updated, its odds rise, and it takes the list's mark (R264, R265). -/
def State.trkAssoc (a : State × Cycle) (id : Nat) (d : Detection) (linked : Bool) : State × Cycle :=
  match a.1.checkId id with
  | .stale => ((a.1.bump (rk pgTrk 0x70)).sat (rk pgTrk 0x154), a.2)
  | .free => (a.1.sat (rk pgTrk 0x15C), a.2)
  | .live j t =>
    let s := a.1
    let idx := measIdx t (s.clsExt t.cls) d
    let d2 := (innovation t idx d).2.2
    let u := t.update idx d
    let p := hitP (u016 (s.fld (clsKey t.cls 0) 31 16)) (s.rd (clsKey t.cls 4)) d2 t.p
    ((s.setTrack j (some { u with p := p, unchk := t.unchk || d.unchk })).bump (rk pgTrk 0x58),
      { a.2 with hits := SMap.set (fun _ => 0) a.2.hits j (if linked || a.2.hit j = 2 then 2 else 1) })

/-- G(m) (R261). -/
def State.gateOf (s : State) (m : Nat) : Word :=
  fofInt (if m = 3 then s.fld (rk pgTrk 0x10C) 15 0 else if m = 4 then s.fld (rk pgTrk 0x10C) 31 16
    else if m = 6 then s.fld (rk pgTrk 0x110) 15 0 else s.fld (rk pgTrk 0x110) 31 16) (-8)

/-- The gate: the benefit G(m) − d² of a pair that passes. -/
def State.gate (s : State) (t : Track) (d : Detection) : Option Word :=
  if t.cls ≠ d.cls || t.time ≠ d.ref || !nearSquare t d then none
  else
    let idx := measIdx t (s.clsExt t.cls) d
    let d2 := (innovation t idx d).2.2
    let g := s.gateOf idx.length
    if fle d2 g then some (fsub g d2) else none

/-- The links of a list (R252, R260): the detections left for the auction, with their indexes. -/
def State.trkLinks (a : State × Cycle) (taken : List Nat) (k : Nat) :
    List Detection → (State × Cycle) × List Nat × List (Nat × Detection)
  | [] => (a, taken, [])
  | d :: ds =>
    let keep (a : State × Cycle) : (State × Cycle) × List Nat × List (Nat × Detection) :=
      let r := State.trkLinks a taken (k + 1) ds
      (r.1, r.2.1, (k, d) :: r.2.2)
    if d.link = 0 then keep a
    else match a.1.checkId d.link with
      | .stale => keep ((a.1.bump (rk pgTrk 0x70)).sat (rk pgTrk 0x150), a.2)
      | .free => keep (a.1.sat (rk pgTrk 0x15C), a.2)
      | .live j t =>
        if taken.contains j then keep a
        else match a.1.gate t d with
          | none => keep a
          | some _ => State.trkLinks (State.trkAssoc a (trackId j t.gen) d true) (j :: taken) (k + 1) ds

/-- The auction of a list (R262): holders are associated, detections with candidates and no track are neither, the rest are left over. -/
def State.trkAuction (a : State × Cycle) (taken : List Nat) (ds : List (Nat × Detection)) : State × Cycle :=
  let s := a.1
  let live := s.live.filter (fun e => !taken.contains e.1)
  let cands := ds.map (fun d => (d.1, live.filterMap (fun e => (s.gate e.2 d.2).map (fun b => (e.1, b)))))
  let bidders := cands.filter (fun c => !c.2.isEmpty)
  let b := auction (fofInt (s.fld (rk pgTrk 0x108) 31 16) (-8)) bidders (s.fld (rk pgTrk 0x108) 7 0) {}
  let a := b.owner.foldl (fun a e => match s.trackAt e.1, ds.find? (fun d => d.1 + 1 == e.2) with
    | some t, some d => State.trkAssoc a (trackId e.1 t.gen) d.2 false
    | _, _ => a) a
  let lost := (bidders.filter (fun c => !b.holds c.1)).length
  let loose := (ds.filter (fun d => !bidders.any (fun c => c.1 == d.1))).map (fun d => d.2)
  ((a.1.sat (rk pgTrk 0x164) lost), { a.2 with loose := a.2.loose ++ loose })

/-- One list, whole (R256, R257, R259 to R262). The sequence number is read again after the copy (log 38). -/
def State.trkList (a : State × Cycle) (l : DetList) : State × Cycle :=
  let c := a.2
  let (s, hdr) := a.1.load mTrk l.addr 32
  match hdr with
  | none => (s.bump (rk pgTrk 0x78), c)
  | some h =>
    let ref := fieldLE h 0 8
    let n := fieldLE h 18 2
    if n = 0 || 16384 < n || ref + 16 * s.fld (rk pgTrk 0x124) 15 0 < c.tk then (s.bump (rk pgTrk 0x78), c)
    else
      let (s, body) := s.load mTrk (l.addr + 32) (64 * n)
      match body with
      | none => (s.bump (rk pgTrk 0x78), c)
      | some bs =>
        if s.getLE (l.addr + 8) 8 ≠ fieldLE h 8 8 then (s.bump (rk pgTrk 0x78), c) else
        let s := s.sat (rk pgTrk 0x160) (s.live.filter (fun e => ref < e.2.time)).length
        let s := s.mapTracks (fun _ t => t.predict (s.rd (clsKey t.cls 8)) (s.rd (clsKey t.cls 0xC)) ref)
        let s := (s.bump (rk pgTrk 0x48)).bump (rk pgTrk 0x50) n
        let ds := match s.trkPose ref with
          | some (pos, q) => (List.range n).map (fun i => detOf pos q ref l.unchecked ((bs.drop (64 * i)).take 64))
          | none => []
        let r := State.trkLinks (s, { c with lists := c.lists + 1 }) [] 0 ds
        State.trkAuction r.1 r.2.1 r.2.2

/-! ### Births (R263) -/

/-- The cell size of the published epoch, as its header gives it (R218, R236). -/
def State.lastCell (s : State) : Word := fofRat (fieldLE s.grid.lastHdr 36 2) 100

/-- The evidence word of the cell of the published epoch under a place. -/
def State.cellUnder (s : State) (e : Epoch) (pos : List Word) : Option Nat :=
  match ffloor (fdiv (pos.getD 0 0) s.lastCell), ffloor (fdiv (pos.getD 1 0) s.lastCell) with
  | some x, some y =>
    let i := x - e.oi
    let j := y - e.oj
    if i < 0 || j < 0 || 1023 < i || 1023 < j then none
    else some (s.getLE (s.evidAddr e.buffer (j.toNat * 1024 + i.toNat)) 4)
  | _, _ => none

/-- Why a leftover detection is no birth: the counter, or none for its class or CONF. -/
inductive Birth where
  | no
  | refused (counter : Nat)
  | yes (mark : Bool)
deriving DecidableEq, Repr

/-- The conditions in the order of R263; the first that fails counts (log 43). -/
def State.birthCheck (s : State) (d : Detection) : Birth :=
  let need := s.bit (rk pgTrk 0x100) 0
  let cell := s.grid.last.bind (fun e => s.cellUnder e d.pos)
  let un := if s.grid.last.isSome then fieldLE s.grid.lastHdr 42 2 else 0
  if !s.bit (clsKey d.cls 0) 3 || d.conf < s.fld (rk pgTrk 0x120) 7 0 then .no
  else if !(s.loopAt 3).fresh then .refused 0x170
  else if need && cell.isNone then .refused 0x174
  else if (cell.getD 0).testBit 15 then .refused 0x178
  else if d.src &&& un ≠ 0 then .refused 0x17C
  else if 16384 ≤ s.trk.freshFrom && s.trk.freed.isEmpty then .refused 0x168
  else .yes ((cell.getD 0).testBit 28)

/-- The head of the free list. -/
def State.takeSlot (s : State) : State × Nat :=
  if s.trk.freshFrom < 16384 then
    ({ s with trk := { s.trk with freshFrom := s.trk.freshFrom + 1 } }, s.trk.freshFrom)
  else match s.trk.freed with
    | j :: rest => ({ s with trk := { s.trk with freed := rest } }, j)
    | [] => (s, 0)

/-- A birth. A heading or extents that the detection does not give are free where the spec states none (log 44). -/
def State.born (s : State) (d : Detection) (mark : Bool) (tk : Nat) : State × Nat :=
  let (s, j) := s.takeSlot
  let gen := SMap.get (fun _ => 0) s.trk.gens j % 0x3FFFF + 1
  let s := { s with trk := { s.trk with gens := SMap.set (fun _ => 0) s.trk.gens j gen } }
  let model := s.clsModel d.cls
  let ext := s.clsExt d.cls
  let var0 := s.rd (clsKey d.cls 0x10)
  let (s, head) := if d.mask.testBit 0 then (s, [d.head, d.vhead]) else s.drawWords 2
  let (s, size) := if d.mask.testBit 1 || !ext then (s, d.ext ++ [d.vext]) else s.drawWords 4
  let n := motionLen model + (if ext then 3 else 0)
  let x := (List.range n).map (fun i =>
    if i < 3 then d.pos.getD i 0
    else if i = 3 && model = 1 then head.getD 0 0
    else if i < motionLen model then 0
    else size.getD (i - motionLen model) 0)
  let cov (i k : Nat) : Word :=
    if i = 0 && k = 1 then d.cxy
    else if i ≠ k then 0
    else if i < 3 then d.var.getD i 0
    else if i = 3 && model = 1 then head.getD 1 0
    else if i < motionLen model then var0
    else size.getD 3 0
  let t : Track := {
    gen := gen, cls := d.cls, model := model, ext := ext, conf := false
    x := x
    cov := (List.range n).flatMap (fun i => ((List.range n).drop i).map (cov i))
    time := d.ref
    p := u016 (s.fld (rk pgTrk 0x118) 15 0)
    hits := 1, misses := 0, since := 0
    unchk := d.unchk || mark
    heading := head.getD 0 0
    birth := tk }
  ((s.setTrack j (some t)).bump (rk pgTrk 0x60), j)

/-- A leftover detection. -/
def State.trkBirth (a : State × Cycle) (d : Detection) : State × Cycle :=
  match a.1.birthCheck d with
  | .no => a
  | .refused k => (a.1.sat (rk pgTrk k), a.2)
  | .yes mark =>
    let r := a.1.born d mark a.2.tk
    (r.1, { a.2 with born := a.2.born ++ [r.2] })

/-! ### Existence and regimes (R264 to R268) -/

/-- The bookkeeping of an observed cycle for a track that was live at its start. -/
def State.observe (s : State) (c : Cycle) (j : Nat) (t : Track) : Track :=
  if c.born.contains j then t
  else
    let h := (t.hits * 2 + (if c.hit j ≠ 0 then 1 else 0)) % 65536
    let t := { t with hits := h, since := min 65535 (t.since + 1) }
    if c.hit j ≠ 0 then { t with misses := 0 }
    else { t with misses := min 65535 (t.misses + 1), p := missP (u016 (s.fld (clsKey t.cls 0) 31 16)) t.p }

/-- Ones among the low `n` bits. -/
def onesIn (v n : Nat) : Nat := ((List.range n).filter (fun i => v.testBit i)).length

/-- N of the Enrolment rule. -/
def State.enrolN (s : State) : Nat := s.fld (rk pgTrk 0x11C) 7 4 + 1

/-- The confirm and delete rules on one track: deleted, or its new state. -/
def State.judge (s : State) (t : Track) : Option Track :=
  if s.inTerm then
    if flt t.p (u016 (s.fld (rk pgTrk 0x114) 31 16)) then none
    else some { t with conf := t.conf || fle (u016 (s.fld (rk pgTrk 0x114) 15 0)) t.p }
  else
    let conf := t.conf || decide (s.fld (rk pgTrk 0x11C) 3 0 + 1 ≤ onesIn t.hits s.enrolN)
    if s.fld (rk pgTrk 0x11C) 15 8 ≤ t.misses then none
    else if !conf && s.enrolN ≤ t.since then none
    else some { t with conf := conf }

/-- Step 6. -/
def State.trkJudge (a : State × Cycle) : State × Cycle :=
  let s := if a.2.lists ≠ 0 then a.1.mapTracks (a.1.observe a.2) else a.1
  s.live.foldl (fun a e => match a.1.judge e.2 with
    | none => State.trkDelete a e.1
    | some t => (a.1.setTrack e.1 (some t), if t.conf == e.2.conf then a.2 else { a.2 with moved := a.2.moved ++ [e.1] })) (s, a.2)

/-- The reported heading of CV and CA: held while the horizontal speed is below 0.1 m/s (R253). -/
def Track.turned (t : Track) : Track :=
  if t.model = 1 then { t with heading := t.at 3 }
  else
    let vx := t.at 3
    let vy := t.at 4
    if flt (fsqrt (fadd (fmul vx vx) (fmul vy vy))) 0x3DCCCCCD then t else { t with heading := Config.atan2Fp32 vy vx }

/-- Step 8: a cycle in Enrolment counts, and the regime may change to Term, which applies from the next cycle. In a cycle that entered
Enrolment the entry wins: the count is 0 (R268). -/
def State.trkRegime (s : State) (c : Cycle) : State :=
  if s.inTerm then s
  else
    let s := s.sat (rk pgTrk 0x13C)
    if s.fld (rk pgTrk 0x11C) 31 16 ≤ s.rdN (rk pgTrk 0x13C) && s.warmHolds then
      if c.enrolled then s.wrN (rk pgTrk 0x13C) 0
      else
        let pc := u016 (s.fld (rk pgTrk 0x114) 15 0)
        let s := s.mapTracks (fun _ t => if t.conf && flt t.p pc then { t with p := pc } else t)
        { s with trk := { s.trk with termNext := true } }
    else s

/-- A cycle starts: a change to Term made at step 8 of the last one applies, with TERM_ENTER (R268). -/
def State.trkTerm (s : State) : State :=
  if !s.trk.termNext then s
  else
    let s := (s.setBit (rk pgTrk 0x12C) 0 true).event pgTrk 3
    State.warmShow { s with trk := { s.trk with termNext := false } }

/-! ### Records (R270, R278) -/

/-- Velocities of a track. -/
def Track.velocity (t : Track) : List Word :=
  if t.model = 1 then [fmul (t.at 4) (Config.cosFp32 (t.at 3)), fmul (t.at 4) (Config.sinFp32 (t.at 3)), 0]
  else [t.at 3, t.at 4, t.at 5]

/-- l, w and h as FP16 codes. -/
def State.trackSize (s : State) (t : Track) : List Nat :=
  if t.ext then [0, 1, 2].map (fun i => f32to16 (t.at (motionLen t.model + i)))
  else [s.fld (clsKey t.cls 0x14) 15 0, s.fld (clsKey t.cls 0x14) 31 16, s.fld (clsKey t.cls 0x18) 15 0]

/-- A probability as u0.16. -/
def pCode (p : Word) : Nat := match ffloor p 16 with | some i => min 65535 i.toNat | none => 0

/-- The 64-byte entry of a track. -/
def State.trackEntry (s : State) (c : Cycle) (term warm dead : Bool) (j : Nat) (t : Track) : List Byte :=
  let b := c.born.contains j
  let flag (v : Bool) (k : Nat) : Nat := if v then 2 ^ k else 0
  let st := (if dead then 2 else if t.conf then 1 else 0) + flag term 2 + flag warm 3 + flag t.unchk 4 +
    flag (c.hit j = 0 && !b) 5 + flag b 6 + flag (c.hit j = 2) 7
  let p := symMat t.n t.cov
  let sig := fsqrt (fmul 0x3F000000 (fadd (entry p 0 0) (entry p 1 1)))
  leBytes 4 (trackId j t.gen) ++ leBytes 1 t.cls ++ leBytes 1 st ++ leBytes 1 (t.model + flag t.ext 2) ++
    leBytes 1 (onesIn t.hits s.enrolN) ++ leBytes 2 (pCode t.p) ++ leBytes 2 t.misses ++ zeros 4 ++ leBytes 8 t.time ++
    ofWords (t.x.take 3) ++ ofWords t.velocity ++ ofWords [t.heading, if t.model = 1 then t.at 5 else 0] ++
    (s.trackSize t).flatMap (leBytes 2) ++ leBytes 2 (f32to16 sig)

/-- A slot of the track table: its bytes that are not reserved. -/
def slotBytes (entry : List Byte) (t : Track) : List Byte :=
  entry ++ ofWords ((t.x ++ List.replicate 12 0).take 12) ++ ofWords ((t.cov ++ List.replicate 78 0).take 78) ++
    leBytes 2 t.hits ++ leBytes 2 t.since ++ leBytes 4 t.gen ++ leBytes 8 t.birth

/-- A slot number put among rising slot numbers, before an equal one. -/
def insertSlot (e : Nat × Track × Bool) : List (Nat × Track × Bool) → List (Nat × Track × Bool)
  | [] => [e]
  | m :: ms => if e.1 ≤ m.1 then e :: m :: ms else m :: insertSlot e ms

/-- The live tracks and the deleted ones of a cycle, in ascending slot order; a track is deleted where the mark is set. -/
def State.trkShown (s : State) (c : Cycle) : List (Nat × Track × Bool) :=
  (c.gone ++ c.dead).foldr (fun e l => insertSlot (e.1, e.2.turned, true) l) (s.live.map (fun e => (e.1, e.2, false)))

/-- Step 7, the commit: the track table takes every change, and the slots of the tracks deleted join the free list. -/
def State.trkCommit (a : State × Cycle) : State :=
  let s := a.1.mapTracks (fun _ t => t.turned)
  let c := a.2
  let table := (s.trkShown c).foldl (fun m e =>
    SMap.set (fun _ => []) m e.1 (slotBytes (s.trackEntry c s.inTerm s.warmFlag e.2.2 e.1 e.2.1) e.2.1)) s.trk.table
  let freed := (c.dead.foldr (fun e l => insertSlot (e.1, e.2, true) l) []).map (fun e => e.1)
  ({ s with trk := { s.trk with table := table, freed := s.trk.freed ++ freed } }).trkShow

/-- The entries of step 9: the changed tracks, or every live one, as they then stand. -/
def State.trkEntries (s : State) (c : Cycle) : List (List Byte) :=
  let shown := (s.trkShown c).filter (fun e =>
    s.bit (rk pgTrk 0x100) 1 || e.2.2 || c.born.contains e.1 || c.hit e.1 != 0 || c.moved.contains e.1)
  shown.map (fun e => s.trackEntry c s.inTerm s.warmFlag e.2.2 e.1 e.2.1)

/-- Step 9, the batch (R270). Where a CONTAINED fault of TRK was outstanding, handing the batch to STREAM is the recovery, which enters
Enrolment (R268, R387, R389; log 104). -/
def State.trkBatch (s : State) (c : Cycle) (long : Bool) : State :=
  let ents := s.trkEntries c
  let warm := s.warmFlag
  let unchk := ents.any (fun e => (fieldLE e 5 1).testBit 4)
  let flag (v : Bool) (k : Nat) : Nat := if v then 2 ^ k else 0
  let epoch := if s.grid.last.isSome then fieldLE s.grid.lastHdr 0 8 else 0
  let flags := flag s.inTerm 0 + flag warm 1 + flag unchk 2 + flag (!(s.loopAt 3).fresh) 3 + flag long 4 +
    flag s.grid.last.isNone 5 + flag s.trk.listOvf 6
  let o : Offer := {
    ring := 1
    bytes := leBytes 8 s.trk.batchSeq ++ leBytes 8 (s.rd64 (rk pgTrk 0x40)) ++ leBytes 8 c.tk ++ leBytes 4 ents.length ++
      leBytes 2 flags ++ leBytes 2 c.lists ++ leBytes 4 s.live.length ++ leBytes 4 (s.live.filter (fun e => e.2.conf)).length ++
      leBytes 8 epoch ++ zeros 16 ++ ents.flatten
    fus := c.tk
    unchecked := unchk
    warm := warm }
  let recovers := s.safe.out.any (fun f => f.page == pgTrk && !f.func)
  let s := ((s.offer o).window 3 (o.bytes.take 64)).recordDone pgTrk
  let s : State := { s with trk := { s.trk with batchSeq := s.trk.batchSeq + 1, lastUnchk := unchk, listOvf := false } }
  if recovers then s.enrol else s

/-! ### Hints and regions (R272) -/

/-- The footprint's corners at the state time and after TRK_HORIZON. -/
def State.footprint (s : State) (t : Track) : List (List Word) :=
  let half (k : Nat) : Word := fmul 0x3F000000 (f16to32 ((s.trackSize t).getD k 0))
  let c := Config.cosFp32 t.heading
  let n := Config.sinFp32 t.heading
  let dt := secOf ((16 * s.fld (rk pgTrk 0x18C) 15 0 : Nat))
  [(0 : Word), dt].flatMap (fun d =>
    let o := List.zipWith (fun x v => fadd x (fmul v d)) (t.x.take 3) t.velocity
    [(half 0, half 1), (half 0, fneg (half 1)), (fneg (half 0), half 1), (fneg (half 0), fneg (half 1))].map (fun e =>
      [fadd (o.getD 0 0) (fsub (fmul c e.1) (fmul n e.2)), fadd (o.getD 1 0) (fadd (fmul n e.1) (fmul c e.2)), o.getD 2 0]))

/-- Where the vehicle is: the adopted pose. -/
def State.vehicle (s : State) : List Word × List Word :=
  match (s.loopAt 3).adopted with
  | some v => let p := Pose.ofLoop v.words; (p.pos.map f64to32, quatNorm p.quat)
  | none => ([0, 0, 0], [fone, 0, 0, 0])

/-- A confirmed track put among those that rise by distance, behind those at the same distance. -/
def insertDist (e : Word × Track) : List (Word × Track) → List (Word × Track)
  | [] => [e]
  | m :: ms => if flt e.1 m.1 then e :: m :: ms else m :: insertDist e ms

/-- The confirmed tracks in ascending distance from the vehicle, ties to the lower slot. -/
def State.ranked (s : State) : List Track :=
  let o := s.vehicle.1
  let dist (t : Track) : Word := let d := List.zipWith fsub (t.x.take 3) o; fdot d d
  (((s.live.filter (fun e => e.2.conf)).map (fun e => (dist e.2, e.2))).foldl (fun l e => insertDist e l) []).map (fun e => e.2)

/-- The least and greatest of integers. -/
def spanOf : List Int → Option (Int × Int)
  | [] => none
  | i :: is => some (is.foldl min i, is.foldl max i)

/-- A span grown on both sides and clipped; none where nothing is left. -/
def clipSpan (margin hi : Nat) (p : Int × Int) : Option (Nat × Nat) :=
  let a := max 0 (p.1 - margin)
  let b := min (hi : Int) (p.2 + margin)
  if a ≤ b then some (a.toNat, b.toNat) else none

/-- A box of 64 bits: low and high of the first axis, then of the second. -/
def boxWord (i j : Nat × Nat) : Nat := i.1 + i.2 * 2 ^ 16 + j.1 * 2 ^ 32 + j.2 * 2 ^ 48

/-- A track's box in the cells of the published epoch. -/
def State.hintBox (s : State) (e : Epoch) (t : Track) : Option Nat :=
  let pts := s.footprint t
  let cells (k : Nat) (o : Int) : Option (Nat × Nat) :=
    (spanOf (pts.filterMap (fun p => (ffloor (fdiv (p.getD k 0) s.lastCell)).map (fun i => i - o)))).bind
      (clipSpan (s.fld (rk pgTrk 0x180) 19 16) 1023)
  match cells 0 e.oi, cells 1 e.oj with
  | some i, some j => some (boxWord i j)
  | _, _ => none

/-- The hint buffer is written, and is on its way to the engines. -/
def State.trkHints (s : State) : State :=
  if !s.bit (rk pgTrk 0x100) 2 then s
  else
    let boxes := match s.grid.last with
      | some e => (s.ranked.filterMap (s.hintBox e)).take (s.fld (rk pgTrk 0x180) 11 0)
      | none => []
    let epoch := if s.grid.last.isSome then fieldLE s.grid.lastHdr 0 8 else 0
    let bs := leBytes 8 (s.rd64 (rk pgTrk 0x40)) ++ leBytes 8 epoch ++ leBytes 4 boxes.length ++ zeros 12 ++ boxes.flatMap (leBytes 8)
    let s := s.put mTrk (s.rd64 (rk pgTrk 0x184) + s.trk.hintBuf * 0x8020) bs
    let s := { s with trk := { s.trk with hintBuf := 1 - s.trk.hintBuf } }
    s.sendLoop 4 { stamp := s.now, words := toWords (bs.length / 4) bs }

/-- A track's region on sensor `k`: the footprint through the inverse pose, the inverse extrinsic of a grid source, and the pinhole. -/
def State.roiBox (s : State) (k : Nat) (t : Track) : Option Nat :=
  let (o, q) := s.vehicle
  let cal := s.calOf (s.fld (rk pgTrk (0x1C0 + 4 * k)) 7 4)
  let h := k / 8
  let l := k % 8
  let zmin := fofRat (s.fld (rk pgTrk 0x190) 31 16) 1000
  let px := (s.footprint t).filterMap (fun p =>
    let v := fmatVec (ftranspose (quatMat q)) (List.zipWith fsub p o)
    let cam := fmatVec (ftranspose cal.rot) (List.zipWith fsub v cal.off)
    let z := cam.getD 2 0
    let pr (i f c : Nat) : Option Int := ffloor (fadd (fdiv (fmul (s.rd (fk h l f)) (cam.getD i 0)) z) (s.rd (fk h l c)))
    if fle zmin z then (match pr 0 0x20 0x28, pr 1 0x24 0x2C with
      | some x, some y => some (x, y)
      | _, _ => none) else none)
  let m := s.fld (rk pgTrk 0x190) 7 0
  match (spanOf (px.map (fun p => p.1))).bind (clipSpan m (s.sensW h l - 1)),
      (spanOf (px.map (fun p => p.2))).bind (clipSpan m (s.sensH h l - 1)) with
  | some x, some y => some (boxWord x y)
  | _, _ => none

/-- The regions of every sensor that has them go to its front end. -/
def State.trkRegions (s : State) : State :=
  if !s.bit (rk pgTrk 0x100) 3 then s
  else (List.range 16).foldl (fun s k =>
    if !s.bit (rk pgTrk (0x1C0 + 4 * k)) 0 then s
    else
      let rs := ((s.ranked.filterMap (s.roiBox k)) ++ List.replicate 32 1).take 32
      s.sendLoop (5 + k) { stamp := s.now, words := rs.flatMap (fun r => [BitVec.ofNat 32 r, BitVec.ofNat 32 (r / 2 ^ 32)]) }) s

/-! ### The cycle (R258, R271, R273) -/

/-- Step 2: the pose is adopted. -/
def State.trkAdopt (s : State) : State :=
  let b := s.loopAt 3
  let b' := b.adopt
  let fresh := s.isFresh .trkPose b'.adopted
  let was := s.bit (rk pgTrk 0x12C) 2
  let s := (s.setLoop 3 { b' with fresh := fresh }).setBit (rk pgTrk 0x12C) 2 (!fresh)
  if !was && !fresh then s.event pgTrk 6 else if was && fresh then s.event pgTrk 7 else s

/-- A lane pair whose lanes disagree is fenced (R273). -/
def State.lanePair (s : State) (i : Nat) : State :=
  let f := s.rd64 (rk pgTrk 0x144)
  if f.testBit i then s else ((s.wr64 (rk pgTrk 0x144) (f + 2 ^ i)).fault pgTrk 0 i).trkShow

/-- The lists a cycle takes, in order (R258). -/
def State.trkTake (s : State) : State × List DetList :=
  let q := s.trk.lists.foldl (fun l d => insertRef (s.getLE d.addr 8, d) l) []
  let n := s.fld (rk pgTrk 0x108) 11 8
  let taken := (q.take n).map (fun e => e.2)
  (({ s with trk := { s.trk with lists := taken.foldl (fun l d => l.erase d) s.trk.lists } }).trkShow, taken)

/-- What a cycle at `tk` starts with: the tracks that commands changed or deleted outside RUNNING since the last batch (log 103). -/
def State.trkOpen (s : State) (tk : Nat) : State × Cycle :=
  ({ s with trk := { s.trk with gone := [], touched := [] } }, { tk := tk, gone := s.trk.gone, moved := s.trk.touched })

/-- A cycle at time `tk`, its nine steps. -/
def State.trkRun (s : State) (tk : Nat) (late : Bool) (bad : List Nat) : State :=
  let s := s.trkTerm.bump (rk pgTrk 0x40)
  let s := s.wr64 (rk pgTrk 0x130) (s.rd64 (rk pgTrk 0x40))
  let (s, c) := State.trkApply (s.trkOpen tk)
  let s := s.trkAdopt.setBit (rk pgTrk 0x12C) 3 s.grid.last.isNone
  let surv := u016 (s.fld (rk pgTrk 0x118) 31 16)
  let s := s.mapTracks (fun _ t => { t with p := fmul t.p surv })
  let (s, lists) := s.trkTake
  let (s, c) := lists.foldl State.trkList (s, c)
  let s := bad.foldl State.lanePair s
  let (s, c) := c.loose.foldl State.trkBirth (s, c)
  let (s, c) := State.trkJudge (s, c)
  let s := (State.trkCommit (s, c)).trkRegime c
  let s := s.warmShow.trkBatch c late
  let s := s.wrN (rk pgTrk 0x140) (sat32 ((s.now - tk) * 125 / 2))
  s.trkHints.trkRegions

/-- A boundary is reached: the cycle runs. Boundaries that have passed since the one that was due make it LONG (log 39). -/
def State.trkCycle (s : State) (bad : List Nat) : State :=
  let tc := max 1 s.trkPeriod
  if !s.running pgTrk || s.now < s.trk.nextAt then s
  else
    let tk := s.now / tc * tc
    let late := decide (s.trk.nextAt < tk)
    let s := { s with trk := { s.trk with nextAt := tk + tc } }
    if s.halted pgTrk then s
    else
      let s := if late then (s.sat (rk pgTrk 0x16C)).event pgTrk 9 else s
      s.trkRun tk late bad

/-! ### Commands, enable and DISMISS (R268, R274 to R276) -/

/-- Applies the waiting command outside a cycle. A slot that it frees joins the free list at once; the track table stays as last
committed, and the next batch reports the tracks deleted or changed (R274, R278; log 103). -/
def State.trkApplyNow (s : State) : State :=
  let (s, c) := State.trkApply (s, { tk := s.now })
  let k := s.trk
  State.trkShow { s with trk := { k with
    gone := k.gone ++ c.dead
    touched := k.touched ++ c.moved
    freed := k.freed ++ c.dead.map (fun e => e.1) } }

/-- A command waits for the next cycle while TRK runs, and is applied at once otherwise. -/
def State.trkCommand (s : State) (code : Nat) : State :=
  let s := { s with trk := { s.trk with command := some (code, s.arg pgTrk 0, s.arg pgTrk 1) } }
  if s.running pgTrk then s else s.trkApplyNow

/-- Whether an enable is refused (R276). -/
def State.trkRefused (s : State) : Bool :=
  let tc := s.fld (rk pgTrk 0x104) 13 0
  let asc := s.rdN (rk pgTrk 0x108)
  let age := s.fld (rk pgTrk 0x124) 15 0
  let base := s.rd64 (rk pgTrk 0x184)
  tc < 50 || 10000 < tc || bits asc 7 0 == 0 || bits asc 11 8 == 0 || s.fld (rk pgTrk 0x11C) 15 8 == 0 || age == 0 || 50000 < age ||
    s.fld (rk pgTrk 0x180) 11 0 == 0 || decide (s.fld (rk pgTrk 0x11C) 7 4 < s.fld (rk pgTrk 0x11C) 3 0) ||
    (List.range 16).any (fun c => s.clsModel c == 3) ||
    (s.bit (rk pgTrk 0x100) 2 && (!inOpenCommons base 0x10040 || base % 64 != 0))

/-- TRK enters RUNNING. -/
def State.trkStart (s : State) : State :=
  let tc := max 1 s.trkPeriod
  ({ s with trk := { s.trk with nextAt := (s.now / tc + 1) * tc } }).enrol.trkShow

/-- TRK leaves RUNNING at an ENABLE of 0: a waiting command is applied at once. -/
def State.trkStop (s : State) : State := s.trkApplyNow

/-- TRK's self-test ends: Enrolment (R268), and the fences go if it passed (R273). -/
def State.trkTested (s : State) (passed : Bool) : State :=
  (if passed then s.wr64 (rk pgTrk 0x144) 0 else s).enrol.trkShow

/-- DISMISS of TRK (R275). -/
def State.trkDismiss (s : State) : State :=
  let s := s.bump (rk pgTrk 0x78) s.trk.lists.length
  ({ s with trk := { s.trk with lists := [], command := none } }).trkShow

/-- A forward FUSION step of J at the boundary `at_`: Enrolment, poses move (R268, R300), and the next cycle is at the next multiple of
TC on the new scale. -/
def State.trkFusStep (s : State) (at_ j : Nat) : State :=
  let tc := max 1 s.trkPeriod
  let s := if s.running pgTrk then s.enrol else s
  { s with trk := { s.trk with
      poses := s.trk.poses.map (fun p => { p with dtime := p.dtime + j })
      nextAt := roundUp (at_ + j) tc } }

def execTrkListDeliver (s : State) : Out := .next s.trkDeliver
def execTrackerCycle (bad : List (Fin 64)) (s : State) : Out := .next (s.trkCycle (bad.map (fun i => i.val)))
def execCmdDelete (h : Fin 2) (s : State) : Out := .next (s.hostCmd h pgTrk 1 false (some (·.trkCommand 1)))
def execCmdSetClass (h : Fin 2) (s : State) : Out := .next (s.hostCmd h pgTrk 2 false (some (·.trkCommand 2)))
def execCmdEnrol (h : Fin 2) (s : State) : Out := .next (s.hostCmd h pgTrk 3 false (some (·.trkCommand 3)))
def execCmdClear (h : Fin 2) (s : State) : Out := .next (s.hostCmd h pgTrk 4 false (some (·.trkCommand 4)))

end Sys2Proof.Machine
end

