-- ==== Sys2Proof/Machine/Time.lean ====
section
/-! DEFINITION. Time bases and network time (R308 to R322, R328 to R331): the TIME cycle, the servos, FUSION and its steps. -/

namespace Sys2Proof.Machine

/-! ### Units -/

/-- A quotient rounded to the nearest whole number, ties away from zero (R312). -/
def rndDiv (a : Int) (b : Nat) : Int :=
  let m : Nat := (2 * a.natAbs + b) / (2 * b)
  if a < 0 then -(m : Int) else m
/-- ±500 ppm and ±100 ppm in units of 2⁻⁴⁰. -/
def ppm500 : Int := 549755813
def ppm100 : Int := 109951162

/-- A register of network block `b` (R330). -/
def netKey (b o : Nat) : Nat := rk pgTime (0x200 + b * 0x80 + o)
/-- The source's value in units of 2⁻⁴⁰ of 1/16 µs, to the nearest (R318). -/
def State.srcValue (s : State) : Int :=
  if s.time.source = 0 then rndDiv ((s.time.tb0 * 2 ^ 41 : Nat) : Int) 125
  else rndDiv (2 * (s.netAt (s.time.source - 1)).value) 125
/-- FUSION's unslewed increment i (R308). -/
def State.fusInc (s : State) : Nat :=
  let y : Int := if s.time.source = 0 then 0 else (s.netAt (s.time.source - 1)).y
  (rndDiv (4 * ((2 ^ 40 : Nat) + y)) 125).toNat
/-- D in units of 2⁻⁴⁰ of 1/16 µs. -/
def State.fusD (s : State) : Int := s.srcValue - s.time.q - s.time.fus
/-- Whether |D| is within TIME_FUS_LIMIT. -/
def State.fusNear (s : State) : Bool := decide (s.fusD.natAbs * 125 ≤ s.fld (rk pgTime 0x108) 23 0 * 2 ^ 41)
/-- The correction of one TIME cycle (R319). -/
def State.fusCorr (s : State) : Int :=
  let d := s.fusD
  if s.fusNear then Int.sign d * (min d.natAbs (s.fusInc / 10000) : Nat) else 0
def State.fusSlewing (s : State) : Bool := s.fusNear && s.fusD != 0
/-- The next FUSION multiple of GRID_EPOCH (R319). -/
def State.nextBoundary (s : State) : Nat :=
  let ep := max 1 s.epochLen
  (s.now / ep + 1) * ep

/-! ### FUSION (R318, R319) -/

/-- A step of J = ⌊D⌋ is accepted, with D as it stands at the acceptance (log 110). -/
def State.acceptStep (s : State) : State :=
  { s with time := { s.time with pending := false, accStep := some (Int.fdiv s.fusD (2 ^ 40 : Nat)).toNat, accAt := s.nextBoundary } }
/-- A change of Q by D is accepted. -/
def State.acceptAnchor (s : State) : State :=
  { s with time := { s.time with pending := false, accAnchor := true, accAt := s.nextBoundary } }

/-- What a value of D calls for: STEP_PENDING, an acceptance, or nothing. -/
def State.fusJudge (s : State) : State :=
  if s.time.accStep.isSome || s.time.accAnchor then s
  else if s.fusNear then { s with time := { s.time with pending := false } }
  else if s.fusD < 0 then s.acceptAnchor
  else
    let s := if s.time.pending then s else ({ s with time := { s.time with pending := true } }).event pgTime 7
    if s.bit (rk pgTime 0x104) 0 && s.running pgTime then s.acceptStep else s

/-- One TIME cycle: every base advances (R308), and patrol's period counts while patrol works (R340). With the TIME domain off, AON counts
(R322). -/
def State.idleTick (s : State) : State :=
  if s.time.off then { s with time := { s.time with offNs := s.time.offNs + 2 } }
  else
    let f := (s.time.fus : Int) + s.fusInc + s.fusCorr
    let adv (s : State) (b : Nat) : State :=
      let n := s.netAt b
      s.setNet b { n with value := n.value + 2 * ((2 ^ 40 : Nat) + n.y) }
    let s := if s.patrolling then { s with memc := { s.memc with scrubNs := s.memc.scrubNs + 2 } } else s
    let s := { s with time := { s.time with tb0 := s.time.tb0 + 2, fus := f.toNat } }
    (adv (adv s 0) 1).fusJudge

/-- The TIME cycle that removes the last part of D. -/
def State.slewEnd (s : State) : State :=
  if s.fusSlewing && !s.time.off && decide (s.fusD.natAbs ≤ s.fusInc / 10000) then s.idleTick else s

/-- Whether the command slot of a page holds a command in progress with this code. -/
def State.cmdIs (s : State) (p code : Nat) : Bool := s.busy p && s.fld (rk p 0x2C) 15 8 == code

/-- The nominal ends after the boundary move by J; the open step keeps its end, and J is no lateness of it (R26). -/
def State.bellFusStep (s : State) (j : Nat) : State :=
  { s with bell := { s.bell with nextEnd := s.bell.nextEnd + j, slid := if s.bell.stepOpen then s.bell.slid + j else s.bell.slid } }

/-- A LOG entry of kind 3 (R494). -/
def State.logFus (s : State) (detail j at_ : Nat) : State :=
  let q := ofSigned 64 (Int.fdiv s.time.q (2 ^ 40 : Nat))
  s.logAt 0 pgTime 0 (0x3000 + detail) [j % 2 ^ 32, j / 2 ^ 32, q % 2 ^ 32, q / 2 ^ 32] at_

/-- The accepted step of J at its boundary, with its effects elsewhere (R26, R235, R268, R300, R319). -/
def State.fusStepDo (s : State) (j at_ : Nat) : State :=
  let s := { s with time := { s.time with fus := s.time.fus + j * 2 ^ 40, accStep := none } }
  let s := (s.event pgTime 8).logFus 0 j at_
  let s := if j = 0 then s
    else ((((((s.bellFusStep j).gridFusStep at_ j).trkFusStep at_ j).chainFusStep at_ j).egoFusStep at_ j).ttFusStep at_ j)
  if s.cmdIs pgTime 3 then s.cmdDone pgTime resDone else s

/-- The accepted change of Q at its boundary. -/
def State.anchorDo (s : State) (at_ : Nat) : State :=
  let s := { s with time := { s.time with q := s.time.q + s.fusD, accAnchor := false } }
  let s := (s.event pgTime 9).logFus 1 0 at_
  if s.cmdIs pgTime 4 then s.cmdDone pgTime resDone else s

/-- Q is re-chosen so that D is 0. -/
def State.reQ (s : State) : State := { s with time := { s.time with q := s.srcValue - s.time.fus } }

/-- The source change at its boundary (R320). -/
def State.sourceDo (s : State) (v : Nat) : State :=
  let s := ({ s with time := { s.time with source := v, srcNext := none } }).reQ
  let s := s.event pgTime 10
  let s := if s.running pgTrk then s.enrol else s
  if s.cmdIs pgTime 2 then s.cmdDone pgTime resDone else s

/-- FUS_STEPPED: what waits for a boundary that has come. -/
def State.fusBoundary (s : State) : State :=
  let now := s.now
  let at_ := s.time.accAt
  let due := decide (at_ ≤ now)
  let s := match s.time.accStep with
    | some j => if due then s.fusStepDo j at_ else s
    | none => s
  let s := if s.time.accAnchor && due then s.anchorDo at_ else s
  let s := match s.time.srcNext with
    | some v => if s.time.srcAt ≤ now then s.sourceDo v else s
    | none => s
  s.fusJudge

/-! ### Network bases (R312 to R317) -/

/-- T_s = 10⁹ × 2^log ns as a fraction. -/
def syncNum (log : Int) : Nat := 10 ^ 9 * 2 ^ log.toNat
def syncDen (log : Int) : Nat := 2 ^ (-log).toNat
/-- K × θ / T_s in units of 2⁻⁴⁰, with K in u0.16 and θ in units of 2⁻¹⁶ ns. -/
def servoTerm (k : Nat) (theta log : Int) : Int := rndDiv ((k * 2 ^ 8 * syncDen log : Nat) * theta) (syncNum log)
/-- 3 × T_s in ns, rounded up. -/
def threeSyncs (log : Int) : Nat := (3 * syncNum log + syncDen log - 1) / syncDen log

/-- A state is entered: TIME_NET_STATE and its event. -/
def State.netEnter (s : State) (b : Nat) (st : BaseState) : State :=
  let s := s.setNet b { s.netAt b with state := st }
  match st with
  | .locked => s.event pgTime (2 + b)
  | .holdover => s.event pgTime (4 + b)
  | .jumpRefused => s.event pgTime 6
  | _ => s

/-- The runs that LOCK_COUNT and R316 count begin again. -/
def NetBase.fresh (n : NetBase) : NetBase := { n with outliers := 0, inLimit := 0, lockRun := 0 }

/-- A Sync is applied: its count and the time from which R314 counts. -/
def State.syncApplied (s : State) (b : Nat) : State :=
  (s.setNet b { s.netAt b with lastApplied := s.time.tb0 }).bump (rk pgTime (0x40 + 8 * b))

/-- The base steps by θ. -/
def State.netStep (s : State) (b : Nat) (theta : Int) : State :=
  let n := s.netAt b
  s.setNet b { n.fresh with value := n.value + theta * (2 ^ 24 : Nat), slewing := false }

/-- The servo (R312), the end of a slew (R316) and lock (R313). -/
def State.servo (s : State) (b : Nat) (theta : Int) : State :=
  let n := s.netAt b
  let k := s.rdN (netKey b 4)
  let yi := clampI (-ppm500) ppm500 (n.yi + servoTerm (bits k 31 16) theta n.interval)
  let y := clampI (-ppm500) ppm500 (yi + servoTerm (bits k 15 0) theta n.interval)
  let y := if n.slewing then clampI (n.yHold - ppm100) (n.yHold + ppm100) y else y
  let good := decide (theta.natAbs < s.fld (netKey b 8) 15 0 * 65536)
  let run := if good then n.lockRun + 1 else 0
  let s := s.setNet b { n with yi := yi, y := y, slewing := n.slewing && !good, lockRun := run }
  let s := if n.state == .acquiring && good && decide (s.fld (netKey b 8) 23 16 ≤ run) then s.netEnter b .locked else s
  (s.syncApplied b).fusJudge

/-- The base enters ACQUIRING and slews (R315, R316). -/
def State.slewFrom (s : State) (b : Nat) (theta : Int) : State :=
  let s := s.netEnter b .acquiring
  let n := s.netAt b
  (s.setNet b { n.fresh with slewing := true, yHold := n.y }).servo b theta

/-- The offset is refused (R315). -/
def State.jumpRefuse (s : State) (b : Nat) : State :=
  let n := s.netAt b
  ((s.setNet b { n.fresh with slewing := false }).bump (rk pgTime 0x58)).netEnter b .jumpRefused

/-- The first offset after a master has changed or returned (R315). -/
def State.judgeReturn (s : State) (b : Nat) (theta : Int) (near : Bool) : State :=
  let s := s.setNet b { s.netAt b with judge := false }
  if near then s.slewFrom b theta else s.jumpRefuse b

/-- A Sync by the state of its base (R313 to R317). -/
def State.syncAct (s : State) (b : Nat) (theta : Int) : State :=
  let n := s.netAt b
  let near := decide (theta.natAbs ≤ s.fld (rk pgTime 0x100) 23 0 * 65536)
  if n.accept then
    let s := ((s.netStep b theta).setNet b { (s.netStep b theta).netAt b with accept := false, judge := false }).netEnter b .acquiring
    let s := (s.syncApplied b).fusJudge
    if s.cmdIs pgTime 1 then s.cmdDone pgTime resDone else s
  else match n.state with
    | .free =>
      let s := ((s.netStep b theta).netEnter b .acquiring).syncApplied b
      let s := s.setNet b { s.netAt b with judge := false }
      if s.time.source = b + 1 then s.reQ.fusJudge else s
    | .holdover => s.judgeReturn b theta near
    | .jumpRefused =>
      if n.judge then s.judgeReturn b theta near
      else if near then
        if 2 ≤ n.inLimit then s.slewFrom b theta else s.setNet b { n with inLimit := n.inLimit + 1 }
      else s.setNet b { n with inLimit := 0 }
    | _ =>
      if n.judge then s.judgeReturn b theta near
      else if near then (s.setNet b { n with outliers := 0 }).servo b theta
      else
        let run := if theta.natAbs < s.fld (netKey b 8) 15 0 * 65536 then n.lockRun else 0
        let s := (s.setNet b { n with outliers := n.outliers + 1, lockRun := run }).bump (rk pgTime 0x50)
        if 2 ≤ n.outliers then s.jumpRefuse b else s

/-- θ = M − B at the Sync's receive stamp, in units of 2⁻¹⁶ ns (R312, R323). -/
def State.syncTheta (s : State) (b : Nat) (m : SyncMsg) : Int :=
  let n := s.netAt b
  let lat := s.fld (rk (pgEth (s.fld (netKey b 0) 3 1)) 0x110) 15 0
  let mst := (m.originNs * 65536 : Nat) + m.correction + rndDiv (n.delay * n.ratioNum) n.ratioDen.natAbs
  mst - Int.fdiv (n.value - (lat * 2 ^ 40 : Nat)) (2 ^ 24 : Nat)

/-- A Sync (R311, R312). TIME halted measures it and nothing else (R328). -/
def State.syncRx (s : State) (b : Nat) (m : SyncMsg) : State :=
  if !s.netEnabled b || m.domain ≠ s.fld (netKey b 0) 15 8 then s.bump (rk pgTime 0x78)
  else
    let theta := s.syncTheta b m
    let s := s.wrN (netKey b 0x1C) (ofSigned 32 (clampI (-(2 ^ 31 : Nat)) ((2 ^ 31 : Nat) - 1) (Int.tdiv theta 65536)))
    if s.halted pgTime then s
    else
      let n := s.netAt b
      (s.setNet b { n with interval := m.logInterval, lastRecv := s.time.tb0 }).syncAct b theta

/-- Whether numbers come before others, compared one after the other. -/
def lexLe : List Nat → List Nat → Bool
  | x :: xs, y :: ys => decide (x < y) || (x == y && lexLe xs ys)
  | _, _ => true

/-- What the best master clock algorithm compares, most significant first. -/
def annVector (m : AnnMsg) : List Nat := (List.range 5).map (fun i => m.rank.getD i 0) ++ [m.gm.toNat, m.steps, m.source]

/-- Whether an Announce is the one in use from now on: any with the port fixed as SlavePort (EXTERNAL); else the first one, one of the same
sender, one that is no worse, or one after the sender in use has been silent for three of its intervals (R310; log 108). -/
def State.annTaken (s : State) (b : Nat) (m : AnnMsg) : Bool :=
  s.bit (netKey b 0) 5 || match (s.netAt b).best with
    | none => true
    | some (o, t) => o.source == m.source || lexLe (annVector m) (annVector o) || decide (t + threeSyncs o.logInterval ≤ s.time.tb0)

/-- An Announce (R310, R315). -/
def State.announceRx (s : State) (b domain : Nat) (m : AnnMsg) : State :=
  if !s.netEnabled b || domain ≠ s.fld (netKey b 0) 15 8 then s.bump (rk pgTime 0x78)
  else if !s.annTaken b m then s
  else
    let n := s.netAt b
    let s := s.wr64 (netKey b 0x28) m.gm.toNat
    s.setNet b { n with
      best := some (m, s.time.tb0)
      gm := some m.gm
      judge := n.judge || (n.gm.isSome && n.gm != some m.gm && n.state != .free) }

/-- An exchange is complete: the mean link delay and the neighbour rate ratio as IEEE 802.1AS forms them (R310; log 48). -/
def State.pdelayDone (s : State) (b t1 t2 t3 t4 : Nat) : State :=
  let n := s.netAt b
  let (rn, rd) : Int × Int := match n.lastPd with
    | some (p3, p4) => if (t4 : Int) - p4 = 0 then (n.ratioNum, n.ratioDen) else ((t3 : Int) - p3, (t4 : Int) - p4)
    | none => (n.ratioNum, n.ratioDen)
  let turn : Int := (t4 : Int) - t1
  let d := rndDiv (65536 * (rn * turn * Int.sign rd - (rd.natAbs : Int) * ((t3 : Int) - t2))) (2 * rd.natAbs)
  let s := s.wrN (netKey b 0x24) (ofSigned 32 (Int.fdiv d 65536))
  s.setNet b { n with delay := d, ratioNum := rn * Int.sign rd, ratioDen := rd.natAbs, lastPd := some (t3, t4), pdReq := none }

/-- HOLDOVER (R313, R314). -/
def State.holdoverAt (s : State) (b : Nat) : State :=
  let n := s.netAt b
  let from_ := if n.state == .jumpRefused then n.lastRecv else n.lastApplied
  if n.state == .free || n.state == .holdover || s.time.off || s.time.tb0 < from_ + threeSyncs n.interval then s
  else (s.setNet b { n.fresh with slewing := false }).netEnter b .holdover

/-! ### Commands (R317, R319, R320, R331) -/

def State.timeRefuse (s : State) (e : Nat) : State := (s.setFld (rk pgTime 0x130) 7 0 e).cmdDone pgTime resRefused e

def State.acceptJump (s : State) : State :=
  let b := s.arg pgTime 0 % 2
  if (s.netAt b).state == .jumpRefused then s.setNet b { s.netAt b with accept := true } else s.timeRefuse 1

def State.fusSource (s : State) : State :=
  let v := s.arg pgTime 0 % 4
  if v = s.time.source then s.cmdDone pgTime resDone
  else if v = 3 || (v ≠ 0 && !s.netEnabled (v - 1)) then s.timeRefuse 3
  else { s with time := { s.time with srcNext := some v, srcAt := s.nextBoundary } }

def State.fusStepCmd (s : State) : State := if s.time.pending then s.acceptStep else s.timeRefuse 2
def State.fusAnchorCmd (s : State) : State := if s.time.pending then s.acceptAnchor else s.timeRefuse 2

/-! ### State, enable and DISMISS (R313, R321, R328, R330) -/

/-- TIME_STATE (R321). -/
def State.timeState (s : State) : Nat :=
  if s.time.pending || s.time.accStep.isSome || s.time.accAnchor then 5
  else if s.time.source = 0 then 0
  else
    let b := s.time.source - 1
    let n := s.netAt b
    match n.state with
    | .jumpRefused => 4
    | .holdover => 3
    | .free => 2
    | .acquiring => 2
    | .locked =>
      if n.slewing || (s.fusSlewing && decide (s.fld (netKey b 8) 15 0 * 2 ^ 41 < s.fusD.natAbs * 125)) then 2 else 1

def BaseState.code : BaseState → Nat
  | .free => 0
  | .acquiring => 1
  | .locked => 2
  | .holdover => 3
  | .jumpRefused => 4

/-- TIME_FUS_STATUS (R329). -/
def State.fusStatus (s : State) : Nat :=
  s.time.source + (if s.time.srcNext.isSome then 4 else 0) + s.timeState * 8 + (if s.time.pending then 64 else 0) +
    (if s.time.accStep.isSome || s.time.accAnchor then 128 else 0) + (if s.fusSlewing then 256 else 0)
/-- TIME_NET_STATE (R330). -/
def State.netStatus (s : State) (b : Nat) : Nat :=
  let n := s.netAt b
  n.state.code + (if n.slewing then 8 else 0) + ofSigned 8 n.interval * 256

/-- A base starts FREE, at y = 0 (R313). -/
def State.netFree (s : State) (b : Nat) : State :=
  let n := s.netAt b
  s.setNet b { n.fresh with state := .free, y := 0, yi := 0, slewing := false, judge := false, accept := false }

def State.timeRefused (s : State) : Bool :=
  s.bit (netKey 0 0) 0 && s.bit (netKey 1 0) 0 && s.fld (netKey 0 0) 3 1 == s.fld (netKey 1 0) 3 1
/-- TIME enters RUNNING: its bases start FREE, and each may initiate a peer-delay exchange at once. -/
def State.timeStart (s : State) : State :=
  let s := [0, 1].foldl (fun s b => s.setNet b { s.netAt b with reqAt := s.time.tb0 }) s
  ((s.netFree 0).netFree 1).fusJudge

/-- Every pending send of a port is discarded with status 0x04 (R328). -/
def State.discardSends (s : State) (p : Nat) : State :=
  let q := s.ethAt p
  let s := q.txQueue.foldl (fun s f => s.put mHub (f.desc + 11) [4]) s
  let s := if q.txQueue.isEmpty then s else s.setFld (rk (pgEth p) 0x11C) 23 16 4
  (s.setEth p { q with txQueue := [] }).setFld (rk (pgEth p) 0x11C) 4 0 0

/-- A TRIG output is disarmed; an active pulse completes its width (R328). The owner arms it again by a write of EN (R460). -/
def State.trigDisarm (s : State) (t : Nat) : State :=
  (s.setBit (rk pgTrig (0x100 + t * 0x20)) 0 false).setBit (rk pgTrig (0x11C + t * 0x20)) 0 false

/-- DISMISS of TIME, and its quiesce at a Stop entry (R328, R460); no Pdelay frame is sent from then on (R311). -/
def State.timeDismiss (s : State) : State :=
  let s := (List.range 8).foldl (fun s p => s.discardSends p) s
  let s := (List.range 16).foldl (fun s t => s.trigDisarm t) s
  let s := [0, 1].foldl (fun s b => s.setNet b { s.netAt b with accept := false, pdReq := none }) s
  let s := (List.range 8).foldl (fun s p => s.setEth p { s.ethAt p with own := [] }) s
  ({ s with time := { s.time with accStep := none, accAnchor := false, srcNext := none } }).fusJudge

/-! ### Stop (R322, R460) -/

/-- TB0, FUSION and the network bases after the TIME domain has been off: advanced by whole AON periods, the bases FREE. A network base
has not counted meanwhile; while one is the source, D starts at 0 (log 110). -/
def State.timeWake (s : State) : State :=
  let n := s.time.offNs * 32768 / 10 ^ 9
  let s := { s with time := { s.time with
    tb0 := s.time.tb0 + n * 10 ^ 9 / 32768 / 2 * 2
    fus := s.time.fus + n * 16 * 10 ^ 6 * 2 ^ 40 / 32768
    off := false
    offNs := 0
    pending := false } }
  let s := (s.netFree 0).netFree 1
  if s.time.source = 0 then s else s.reQ
/-- The TIME domain goes off. -/
def State.timeOff (s : State) : State := { s with time := { s.time with off := true, offNs := 0 } }

def execSync (b : Fin 2) (m : SyncMsg) (s : State) : Out := .next (s.syncRx b m)
def execAnnounce (b : Fin 2) (domain : Nat) (m : AnnMsg) (s : State) : Out := .next (s.announceRx b domain m)
def execHoldover (b : Fin 2) (s : State) : Out := .next (s.holdoverAt b)
def execTimeAcceptJump (h : Fin 2) (s : State) : Out := .next (s.hostCmd h pgTime 1 false (some (·.acceptJump)))
def execTimeFusSource (h : Fin 2) (s : State) : Out := .next (s.hostCmd h pgTime 2 false (some (·.fusSource)))
def execTimeFusStep (h : Fin 2) (s : State) : Out := .next (s.hostCmd h pgTime 3 false (some (·.fusStepCmd)))
def execTimeFusReanchor (h : Fin 2) (s : State) : Out := .next (s.hostCmd h pgTime 4 false (some (·.fusAnchorCmd)))
def execFusStepped (s : State) : Out := .next s.fusBoundary
def execFusionSlewEnd (s : State) : Out := .next s.slewEnd

end Sys2Proof.Machine
end

