-- ==== Sys2Proof/Machine/Launch.lean ====
section
/-! DEFINITION. Launch at a given time (R325, R326) and the TRIG outputs (R327, R333). -/

namespace Sys2Proof.Machine

/-! ### Launch -/

/-- A base's value in ns: TB0, TB1 and TB2 modulo 2^64, or FUSION at 62.5 ns per unit (R325, R327). -/
def State.baseNs (s : State) (b : Nat) : Nat :=
  if b = 0 then s.time.tb0
  else if b = 3 then s.now * 125 / 2
  else (s.netAt (b - 1)).ns % 2 ^ 64

/-- What a descriptor or a frame may lie in (R325). -/
def sendPlace (a n : Nat) : Bool := inLpddr a n || inOpenCommons a n
/-- Time on the line after the delimiter, with FCS, gap and the next preamble, in tenths of ns per byte by ETH_MODE.speed. -/
def State.lineNs (s : State) (p len : Nat) : Nat :=
  ([8, 16, 32, 80, 800, 8000].getD (s.fld (rk (pgEth p) 0x100) 6 4) 8) * (len + 24) / 10

/-! ### TIME's own frames (R310, R311) -/

/-- The most significant byte first. -/
def beBytes (n v : Nat) : List Byte := (leBytes n v).reverse

/-- The device's port identity on a port: the MAC address with FFFE put in, and port number 1 (log 109). -/
def State.portIdent (s : State) (p : Nat) : Nat :=
  let mac := s.rdN (rk (pgEth p) 0x104) + s.rdN (rk (pgEth p) 0x108) % 2 ^ 16 * 2 ^ 32
  ((mac / 2 ^ 24 * 2 ^ 16 + 0xFFFE) * 2 ^ 24 + mac % 2 ^ 24) * 2 ^ 16 + 1

/-- Bytes of a Pdelay frame, FCS excluded: Ethernet's header and 54 bytes of message. -/
def ptpLen : Nat := 68

/-- A Pdelay frame, as IEEE 802.1AS lays it out (log 109). -/
def State.ptpBytes (s : State) (p : Nat) (f : PtpOut) : List Byte :=
  let mac := s.rdN (rk (pgEth p) 0x104) + s.rdN (rk (pgEth p) 0x108) % 2 ^ 16 * 2 ^ 32
  let log := s.fld (netKey f.base 0) 19 16
  beBytes 6 0x0180C200000E ++ beBytes 6 mac ++ beBytes 2 0x88F7 ++
    beBytes 1 (0x10 + f.kind) ++ beBytes 1 0x12 ++ beBytes 2 54 ++ beBytes 1 (s.fld (netKey f.base 0) 15 8) ++ zeros 1 ++
    beBytes 2 (if f.kind = 3 then 0x0208 else 0x0008) ++ zeros 8 ++ zeros 4 ++ beBytes 10 (s.portIdent p) ++ beBytes 2 f.seq ++
    beBytes 1 5 ++ beBytes 1 (if f.kind = 2 then (log + 253) % 256 else 0x7F) ++
    (if f.kind = 2 then zeros 20 else beBytes 6 (f.time / 10 ^ 9) ++ beBytes 4 (f.time % 10 ^ 9) ++ beBytes 10 f.peer)

/-- Whether the frame at the head of TIME's own queue may go: its transmission, plus 1 µs, ends before the target of the host frame at the
head; a host frame with no base goes first (R311). -/
def State.ptpFits (s : State) (p : Nat) : Bool :=
  match (s.ethAt p).txQueue with
  | [] => true
  | h :: _ => h.base != 3 && decide (s.baseNs h.base + s.lineNs p ptpLen + 1000 < h.time)

/-- Whether TIME's own queue of a port sends its head now. -/
def State.ptpReady (s : State) (p : Nat) : Bool :=
  s.running (pgEth p) && decide ((s.ethAt p).macFree ≤ s.time.tb0) && !(s.ethAt p).own.isEmpty && s.ptpFits p

/-- The head of TIME's own queue is sent, if it may be; a request then waits for its answer, and an answer is followed by its send time. -/
def State.ptpServe (s : State) (p : Nat) : State :=
  let q := s.ethAt p
  match q.own with
  | [] => s
  | f :: rest =>
    if !s.ptpReady p then s
    else
      let stamp := s.time.tb0 + s.fld (rk (pgEth p) 0x114) 15 0
      let own := if f.kind = 3 then { f with kind := 0xA, time := stamp } :: rest else rest
      let s := (s.setEth p { q with
        own := own, sent := q.sent ++ [s.ptpBytes p f], macFree := s.time.tb0 + s.lineNs p ptpLen }).bump (rk (pgEth p) 0x78)
      if f.kind = 2 then s.setNet f.base { s.netAt f.base with pdReq := some stamp } else s

/-- A Pdelay frame joins the queue of the base's port. -/
def State.ptpQueue (s : State) (f : PtpOut) : State :=
  let p := s.fld (netKey f.base 0) 3 1
  (s.setEth p { s.ethAt p with own := (s.ethAt p).own ++ [f] }).ptpServe p

/-- The base initiates an exchange, at most once in each interval of 2^logPdelayReqInterval s (R310, R330). -/
def State.pdelayInitiate (s : State) (b : Nat) : State :=
  let n := s.netAt b
  if !s.netEnabled b || s.time.tb0 < n.reqAt then s
  else
    let log : Int := s.fld (netKey b 0) 19 16 - 3
    let seq := (n.reqSeq + 1) % 65536
    (s.setNet b { n with reqAt := s.time.tb0 + syncNum log / syncDen log, reqSeq := seq }).ptpQueue { kind := 2, base := b, seq := seq }

/-- PDELAY (R310, R311): the base initiates; or the answer to its request arrives, an answer to no request being of no effect; or the peer's
request arrives, and is answered with the time at which it came. -/
def State.pdelayRx (s : State) (b domain : Nat) (m : PdelayMsg) : State :=
  match m with
  | .initiate => s.pdelayInitiate b
  | .answer t2 t3 t4 =>
    if !s.netEnabled b || domain ≠ s.fld (netKey b 0) 15 8 then s.bump (rk pgTime 0x78)
    else match (s.netAt b).pdReq with
      | some t1 => s.pdelayDone b t1 t2 t3 t4
      | none => s
  | .request seq peer =>
    if !s.netEnabled b || domain ≠ s.fld (netKey b 0) 15 8 then s.bump (rk pgTime 0x78)
    else
      let lat := s.fld (rk (pgEth (s.fld (netKey b 0) 3 1)) 0x110) 15 0
      s.ptpQueue { kind := 3, base := b, seq := seq, peer := peer, time := s.time.tb0 - lat }

/-! ### The launch queue -/

/-- Frames pending, in ETH_TX_STATUS. -/
def State.txShow (s : State) (p : Nat) : State := s.setFld (rk (pgEth p) 0x11C) 4 0 (s.ethAt p).txQueue.length

/-- Whether a frame that reaches the head at TB0 time `t` is in time: no later than 1 µs before L (R326). -/
def State.txInTime (s : State) (f : TxFrame) (t : Nat) : Bool :=
  f.base == 3 || decide (s.baseNs f.base + (t - s.time.tb0) + 1000 ≤ f.time)

/-- The frame at the head is judged, against the time at which the MAC is free. -/
def State.txHead (s : State) (p : Nat) : State :=
  let q := s.ethAt p
  match q.txQueue with
  | f :: rest => s.setEth p { q with txQueue := { f with ready := s.txInTime f (max s.time.tb0 q.macFree) } :: rest }
  | [] => s

/-- ETH CMD_SEND. -/
def State.ethSend (s : State) (p : Nat) : State :=
  let pg := pgEth p
  let a := s.argAddr pg 0
  let q := s.ethAt p
  if 16 ≤ q.txQueue.length then s.cmdDone pg resBusy
  else if !sendPlace a 32 then s.cmdDone pg resRefused
  else
    let (s, d) := s.loadFor (some pgTime) mHub a 32
    match d with
    | none => s.cmdDone pg resRefused
    | some b =>
      let fa := fieldLE b 0 8
      let len := fieldLE b 8 2
      let base := fieldLE b 10 1
      if len < 60 || 9216 < len || 3 < base || !sendPlace fa len then (s.put mHub (a + 11) [5]).cmdDone pg resRefused
      else
        let f : TxFrame := { desc := a, addr := fa, len := len, base := base, time := fieldLE b 16 8 }
        let s := s.put mHub (a + 11) [0]
        let s := (s.setEth p { q with txQueue := q.txQueue ++ [f] }).txShow p
        (if q.txQueue.isEmpty then s.txHead p else s).cmdDone pg resDone

/-- The head of the queue is done, with its status and transmit stamp. -/
def State.txDone (s : State) (p : Nat) (f : TxFrame) (status stamp : Nat) : State :=
  let q := s.ethAt p
  let s := s.put mHub (f.desc + 11) [BitVec.ofNat 8 status]
  let s := s.put mHub (f.desc + 24) (leBytes 8 stamp)
  (((s.setEth p { q with txQueue := q.txQueue.drop 1 }).txShow p).setFld (rk (pgEth p) 0x11C) 23 16 status).txHead p

/-- The frame is sent now; its stamp is corrected by ETH_LAT_TX (R323). -/
def State.txSend (s : State) (p : Nat) (f : TxFrame) (status ctr : Nat) : State :=
  let (s, d) := s.loadFor (some pgTime) mHub f.addr f.len
  match d with
  | none => s.txDone p f 5 0
  | some b =>
    let q := s.ethAt p
    let s := s.setEth p { q with sent := q.sent ++ [b], macFree := s.time.tb0 + s.lineNs p f.len }
    let s := (s.bump (rk (pgEth p) 0x78)).bump (rk pgTime ctr)
    s.txDone p f status (s.time.tb0 + s.fld (rk (pgEth p) 0x114) 15 0)

/-- A late frame, by LATE_POLICY. -/
def State.txLate (s : State) (p : Nat) (f : TxFrame) : State :=
  if s.bit (rk (pgEth p) 0x118) 0 then s.txSend p f 2 0x68
  else (s.bump (rk pgTime 0x70)).txDone p f 3 0

/-- LAUNCH: a frame of TIME's own goes where it makes no host frame late (R311); else the head of the queue is sent at its launch time,
within 20 ns, or is late. -/
def State.launch (s : State) (p : Nat) : State :=
  if s.ptpReady p then s.ptpServe p else
  let q := s.ethAt p
  match q.txQueue with
  | [] => s
  | f :: _ =>
    if !s.running (pgEth p) || s.time.tb0 < q.macFree then s
    else if f.base = 3 then s.txSend p f 1 0x60
    else
      let b := s.baseNs f.base + s.fld (rk (pgEth p) 0x114) 15 0
      if !f.ready then s.txLate p f
      else if b < f.time then s
      else if b ≤ f.time + 20 then s.txSend p f 1 0x60
      else s.txLate p f

/-! ### TRIG -/

def State.trigAt (s : State) (t : Nat) : TrigOut := SMap.get (fun _ => {}) s.time.trig t
def State.setTrig (s : State) (t : Nat) (v : TrigOut) : State :=
  { s with time := { s.time with trig := SMap.set (fun _ => {}) s.time.trig t v } }
def State.trigBase (s : State) (t : Nat) : Nat := s.baseNs (s.fld (trigKey t 0) 2 1)
/-- The time of fire k. -/
def State.trigTime (s : State) (t k : Nat) : Nat := s.rd64 (trigKey t 4) + k * s.rdN (trigKey t 0xC)

/-- The smallest fire, from `k` up, whose time is not past: at most the ±4 ns of R327 ago. -/
def State.trigNext (s : State) (t k : Nat) : Nat :=
  let b := s.trigBase t
  let per := s.rdN (trigKey t 0xC)
  let st := s.rd64 (trigKey t 4)
  if per = 0 then (if k = 0 && b ≤ st + 4 then 0 else max k 1)
  else if b ≤ s.trigTime t k + 4 then k
  else max k ((b - 4 - st + per - 1) / per)

/-- Whether an output's enable is refused (R327). -/
def State.trigRefused (s : State) (t : Nat) : Bool :=
  let per := s.rdN (trigKey t 0xC)
  let w := s.fld (trigKey t 0x10) 23 0
  (per != 0 && decide (per < 1000)) || w == 0 || (per != 0 && decide (per ≤ w))

/-- An output is armed: fires that are past already are no skips. -/
def State.trigArm (s : State) (t : Nat) : State :=
  (s.setTrig t { s.trigAt t with next := s.trigNext t 0 }).setBit (trigKey t 0x1C) 0 true

/-- A write that sets EN is judged (R333). -/
def State.trigJudge (s : State) (t : Nat) : State :=
  if s.trigRefused t then (s.setBit (trigKey t 0) 0 false).event pgTrig 1
  else if s.running pgTrig then s.trigArm t else s

/-- TRIG enters RUNNING: every enabled output is armed. -/
def State.trigStart (s : State) : State :=
  ((List.range 16).filter (fun t => s.bit (trigKey t 0) 0)).foldl (fun s t => s.trigArm t) s
/-- TRIG leaves RUNNING. -/
def State.trigStop (s : State) : State := (List.range 16).foldl (fun s t => s.setBit (trigKey t 0x1C) 0 false) s

/-- TRIG_FIRE. -/
def State.trigFire (s : State) (t : Nat) : State :=
  if !s.bit (trigKey t 0x1C) 0 then s
  else
    let u := s.trigAt t
    let k := s.trigNext t u.next
    let single := s.rdN (trigKey t 0xC) == 0
    let skipped := k - u.next
    let s := s.setFld (trigKey t 0x1C) 31 16 (min 65535 (s.fld (trigKey t 0x1C) 31 16 + skipped))
    if single && k != 0 then s.setBit (trigKey t 0x1C) 0 false
    else if s.trigBase t < s.trigTime t k then s.setTrig t { u with next := k }
    else
      let s := s.setTrig t { next := k + 1, ends := s.time.tb0 + s.fld (trigKey t 0x10) 23 0 }
      let s := s.wr64 (trigKey t 0x14) s.now
      if single then s.setBit (trigKey t 0x1C) 0 false else s

/-- TRIG_STATUS as it reads. -/
def State.trigStatus (s : State) (t : Nat) : Nat :=
  putBits (s.rdN (trigKey t 0x1C)) 1 1 (if s.time.tb0 < (s.trigAt t).ends then 1 else 0)

def execEthCmdSend (h : Fin 2) (p : Fin 8) (s : State) : Out := .next (s.hostCmd h (pgEth p) 1 false (some (·.ethSend p)))
def execPdelay (b : Fin 2) (d : Nat) (m : PdelayMsg) (s : State) : Out := .next (s.pdelayRx b d m)
def execLaunch (p : Fin 8) (s : State) : Out := .next (s.launch p)
def execTrigFire (t : Fin 16) (s : State) : Out := .next (s.trigFire t)

end Sys2Proof.Machine
end

