-- ==== Sys2Proof/Machine/Memory.lean ====
section
/-! DEFINITION. Device memory (R337 to R353): accesses of internal masters, patrol, injection, the Commons and its secure bank. -/

namespace Sys2Proof.Machine

/-! ### LPDDR5X -/

/-- An upset found in a granule. -/
def State.upset (s : State) (g : Nat) (u : Upset) : State :=
  if u == Upset.none then s
  else { s with memc := { s.memc with bad := SMap.set (fun _ => Upset.none) s.memc.bad g u } }

/-- The completion of a master's access. -/
def State.memResp (s : State) (m : Nat) (r : Access) (d : List Byte) : State :=
  { s with memc := { s.memc with resp := SMap.set (fun _ => (Access.done, [])) s.memc.resp m (r, d) } }

/-- The device granule at a place of patrol's order, which visits the subsystems in turn; none in a check area. -/
def patrolGranule (i : Nat) : Option Nat :=
  let p := i / 8
  if p % 64 < 4 then none else some ((p / 64 * 8 + i % 8) * 60 + (p % 64 - 4))

/-- Patrol reads one granule at its turn and, evenly over the period, not before its time (R339, R340). After the last granule the next pass
begins at the end of the period, with the period that the register then names (R350). -/
def State.patrol (s : State) (u : Upset) : State :=
  if !s.patrolling || !s.scrubDue then s
  else
    let i := s.memc.patrol
    let s := s.bump (rk pgMem 0x70)
    let s := match patrolGranule i with
      | none => s
      | some g =>
        let s := s.upset g u
        let single := SMap.get (fun _ => Upset.none) s.memc.bad g == Upset.single
        let s := (s.checkGranule g true).1
        if single then s.bump (rk pgMem 0x78) else s
    let n := (i + 1) % rawGranules
    let m := s.memc
    let s := { s with memc := { m with
      patrol := n
      scrubNs := if n = 0 then m.scrubNs - s.scrubPeriod else m.scrubNs
      scrubHours := if n = 0 then max 1 (s.fld (rk pgMem 0x104) 7 0) else m.scrubHours } }
    let s := s.wrN (rk pgMem 0x10C) (n / 512)
    if n = 0 then (s.sat (rk pgMem 0x110)).event pgMem 1 else s

/-- The lifecycle state DEVELOP (R442). -/
def State.develop (s : State) : Bool := s.sec.fuses.lifecycle == 1

/-- When MEM_INJECT takes writes (R351). -/
def State.injectMay (s : State) : Bool := s.develop || s.blk pgMem == stTesting
/-- A write of MEM_INJECT. -/
def State.memInject (s : State) (v : Word) : State :=
  if s.injectMay then s.setFld (rk pgMem 0x148) 1 0 (v.toNat % 4) else s.cfgIgnored pgMem

/-! ### The Commons (R341 to R345) -/

/-- The port and bank of a request. -/
def reqPort (r : CommonsReq) : Nat := if r.master.val < 8 then 0 else 1
def reqBank (r : CommonsReq) : Nat := (r.line - commonsBase) / 0x100000
/-- How far a master stands behind the one served last, in round-robin order. -/
def rrRank (last m : Nat) : Nat := (m + 15 - last) % 16

/-- Whether a request is served in this cycle: none of its port and bank stands before it. -/
def State.served (s : State) (rs : List CommonsReq) (r : CommonsReq) : Bool :=
  let last := SMap.get (fun _ => 15) s.memc.turn (reqPort r * 64 + reqBank r)
  rs.all (fun q => reqPort q != reqPort r || reqBank q != reqBank r || q == r || decide (rrRank last r.master.val < rrRank last q.master.val))

/-- Word `w` of a line under a write: the bytes it enables. -/
def wordBytes (w : Nat) (bs : List (Nat × Byte)) : List (Nat × Byte) := bs.filter (fun e => decide (e.1 / 8 = w) && decide (e.1 < 64))

/-- Whether two writes of one word differ in a byte that both enable (R344). -/
def wordClash (a b : List (Nat × Byte)) : Bool := a.any (fun e => b.any (fun f => e.1 == f.1 && e.2 != f.2))

/-- The bytes that a write enables in one word. A whole word has good check bits again; a part of a word merges into it, which an
uncorrectable error prevents, charged to the writer (R341, R391; log 111). -/
def State.commonsPutWord (s : State) (m line w : Nat) (bs : List (Nat × Byte)) : State :=
  let bw := wordBytes w bs
  let put (s : State) : State := bw.foldl (fun s e => s.setByte (line + e.1) e.2) s
  if bw.isEmpty then s
  else if (bw.map (fun e => e.1)).eraseDups.length = 8 then put (s.setCommonsBad (line / 8 + w) .none)
  else
    let r := s.checkCommons (line + 8 * w) 8
    if r.2 then put r.1 else r.1.chargeTo s.safe.inbox.length (masterPage m)

/-- The bytes of a line's write go to memory word by word. -/
def State.commonsPut (s : State) (m line : Nat) (bs : List (Nat × Byte)) : State :=
  (List.range 8).foldl (fun s w => s.commonsPutWord m line w bs) s

/-- Whether a part of a word with an uncorrectable error would be written. -/
def State.commonsPutBad (s : State) (line : Nat) (bs : List (Nat × Byte)) : Bool :=
  (List.range 8).any (fun w =>
    let n := ((wordBytes w bs).map (fun e => e.1)).eraseDups.length
    decide (0 < n) && decide (n < 8) && (match SMap.get (fun _ => Upset.none) s.memc.commonsBad (line / 8 + w) with
      | .none => false
      | .single => false
      | _ => true))

/-- A read is answered from the line as it stood at the start of the cycle. -/
def State.commonsRead (s : State) (s0 : State) (r : CommonsReq) : State :=
  let s := if r.upset == .none then s
    else { s with memc := { s.memc with commonsBad := SMap.set (fun _ => Upset.none) s.memc.commonsBad (r.line / 8) r.upset } }
  let n := s.safe.inbox.length
  let (s, ok) := (s.bump (rk pgCommons (commonsCtr r.master.val false))).checkCommons r.line 64
  (if ok then s else s.chargeTo n (masterPage r.master.val)).memResp r.master.val (if ok then .done else .ca) (if ok then s0.bytes r.line 64 else [])

/-- A write of port A against the writes that port B makes in the same cycle: the words that collide are dropped whole (R344). -/
def State.commonsWriteA (s : State) (rb : List CommonsReq) (r : CommonsReq) (bs : List (Nat × Byte)) : State :=
  let other (w : Nat) : Option (CommonsReq × List (Nat × Byte)) :=
    rb.findSome? (fun q => match q.write with
      | some b => if q.line = r.line && wordClash (wordBytes w bs) (wordBytes w b) then some (q, b) else none
      | none => none)
  let s := s.bump (rk pgCommons (commonsCtr r.master.val true))
  let s := s.memResp r.master.val (if s.commonsPutBad r.line bs then .ca else .done) []
  (List.range 8).foldl (fun s w => match other w with
    | some (q, _) =>
      let s := s.bump (rk pgCommons 0x60)
      let s := s.wrN (rk pgCommons 0x108) ((r.line - commonsBase) + 8 * w)
      let s := s.wrN (rk pgCommons 0x10C) (0x80000000 + q.master.val * 256 + r.master.val)
      let s := { s with memc := { s.memc with lost := r.master.val :: s.memc.lost } }
      s.event pgCommons 1
    | none => s.commonsPutWord r.master.val r.line w bs) s

/-- One request that its bank serves. -/
def State.commonsServe (s s0 : State) (granted : List CommonsReq) (r : CommonsReq) : State :=
  let m := r.master.val
  let wr := r.write.isSome
  let s := { s with memc := { s.memc with turn := SMap.set (fun _ => 15) s.memc.turn (reqPort r * 64 + reqBank r) m } }
  if touchesSec r.line 64 && !s.secGranted m wr then (s.secDeny m r.line wr).memResp m .ca []
  else match r.write with
    | none => s.commonsRead s0 r
    | some bs =>
      if m < 8 then s.commonsWriteA (granted.filter (fun q => 8 ≤ q.master.val && !(touchesSec q.line 64 && !s.secGranted q.master.val true))) r bs
      else ((s.bump (rk pgCommons (commonsCtr m true))).commonsPut m r.line bs).memResp m (if s.commonsPutBad r.line bs then .ca else .done) []

/-- The requests of one NOC cycle and, in the cycles after it, those that had to wait; a master that waits is charged a cycle (R343).
Reads see the words as they stood before the cycle, and port A's writes are applied before port B's (R344). -/
def State.commonsCycles (s : State) : Nat → List CommonsReq → State
  | 0, _ => s
  | k + 1, rs =>
    if rs.isEmpty then s
    else
      let now := rs.filter (fun r => s.served rs r)
      let wait := rs.filter (fun r => !s.served rs r)
      let rank (r : CommonsReq) : Nat := if r.write.isNone then 0 else if r.master.val < 8 then 1 else 2
      let order := [0, 1, 2].flatMap (fun k => now.filter (fun r => rank r == k))
      let s1 := order.foldl (fun t r => t.commonsServe s now r) s
      let s2 := wait.foldl (fun t r => t.sat (rk pgCommons (0x140 + 4 * r.master.val))) s1
      s2.commonsCycles k wait

/-- COMMONS_ACCESS: a line outside the Commons is a reserved address; a master makes one access in a cycle. -/
def State.commonsAccess (s : State) (rs : List CommonsReq) : State :=
  let s := { s with memc := { s.memc with lost := [] } }
  let bad := rs.filter (fun r => !inCommons r.line 64)
  let s := bad.foldl (fun s r => (s.reservedAccess r.master.val r.line).memResp r.master.val .ca []) s
  s.commonsCycles rs.length (rs.filter (fun r => inCommons r.line 64)).eraseDups

/-- COMMONS_CONFLICT_CLR. -/
def State.conflictsClr (s : State) (v : Word) : State :=
  if v.getLsbD 0 then (List.range 16).foldl (fun s n => s.wrN (rk pgCommons (0x140 + 4 * n)) 0) s else s

/-! ### The secure bank (R346 to R348) -/

/-- A wipe is triggered; during one, a later trigger is absorbed and gives the cause. -/
def State.wipeStart (s : State) (cause : Nat) : State :=
  if cause = 0 || 4 < cause then s
  else
    let s := s.wrN (rk pgCommons 0x120) cause
    if s.bit (rk pgCommons 0x100) 1 then s
    else
      let s := (s.wr (rk pgCommons 0x104) 0x80008000).setBit (rk pgCommons 0x100) 1 true
      { s with memc := { s.memc with wipeAt := some s.time.tb0 } }

/-- The bank is zeroed with valid check bits. -/
def State.zeroSec (s : State) : State :=
  let s := s.zeroMem secBase 0x100000
  { s with memc := { s.memc with commonsBad := SMap.clear s.memc.commonsBad (secBase / 8) (commonsEnd / 8) } }

/-- WIPED: the zeroing takes 8,192 NOC cycles, 4,096 ns. -/
def State.wipeEnd (s : State) : State :=
  match s.memc.wipeAt with
  | none => s
  | some t =>
    if s.time.tb0 < t + 4096 then s
    else
      let s := ((s.zeroSec.setBit (rk pgCommons 0x100) 1 false).bump (rk pgCommons 0x78)).event pgCommons 3
      let s := s.wrN (rk pgCommons 0x11C) (sat32 (s.time.tb0 - t))
      { s with memc := { s.memc with wipeAt := none } }

/-- Every bank is zeroed with valid check bits, which also wipes bank 63 (R346, R348). -/
def State.commonsZero (s : State) : State :=
  let s := s.zeroMem commonsBase 0x4000000
  let s := { s with memc := { s.memc with commonsBad := [], wipeAt := none } }
  (s.setFld (rk pgCommons 0x100) 1 0 0).wr (rk pgCommons 0x104) 0x80008000

/-- COMMONS_INIT: the Commons leaves OFF once its banks are zeroed; it needs the NOC domain, which runs when INIT shows. MEM and COMMONS
run from then on (R349; log 49). -/
def State.commonsInit (s : State) : State :=
  if s.bit (rk pgCommons 0x100) 0 then (s.commonsZero.setBlk pgCommons stRunning).setBit (rk pgCommons 0x0C) 0 true else s

def execPatrolScrub (u : Upset) (s : State) : Out := .next (s.patrol u)
def execMemInject (h : Fin 2) (v : Word) (s : State) : Out :=
  .next (s.hostWrite h (fun s => s.ownerWrite h pgMem s.injectMay (·.memInject v)))
def execCommonsAccess (rs : List CommonsReq) (s : State) : Out := .next (s.commonsAccess rs)
def execCommonsConflictClr (h : Fin 2) (v : Word) (s : State) : Out :=
  .next (s.hostWrite h (fun s => s.ownerWrite h pgCommons (v.getLsbD 0) (·.conflictsClr v)))
def execWipe (c : BitVec 4) (s : State) : Out := .next (s.wipeStart c.toNat)
def execWiped (s : State) : Out := .next s.wipeEnd
def execCommonsInit (s : State) : Out := .next s.commonsInit

end Sys2Proof.Machine
end

