-- ==== Sys2Proof/Machine/Neuro.lean ====
section
/-! DEFINITION. The neuro-cores (R106 to R134): integration of packets, deferral cursors, the step close, sleep and wake. A core's
tables are bytes of device memory at its part of the synapse-row window, its registers stand in the register file. -/

namespace Sys2Proof.Machine

/-! ### Packets -/

/-- The FP64 packet (R135). -/
def fp64 (key value delay step : Nat) : DWord :=
  BitVec.ofNat 64 (key % 2 ^ 32 * 2 ^ 32 + value % 256 * 2 ^ 24 + delay % 256 * 2 ^ 16 + step % 65536)
def pktKey (p : DWord) : Nat := bits p.toNat 63 32
def pktValue (p : DWord) : Nat := bits p.toNat 31 24
def pktDelay (p : DWord) : Nat := bits p.toNat 23 16
def pktStep (p : DWord) : Nat := bits p.toNat 15 0

/-- The step whose copies a router or core takes: the open one; between a Bell and the next opening only later steps are due (R136,
R152). -/
def State.openStep (s : State) : Nat := if s.bell.stepOpen then s.bell.step else s.bell.nextStep

/-- The full step number of a 16-bit STEP: 0 to 256 ahead of step `s`, else none, which is earlier (R136; log 25). -/
def fullStep (s st : Nat) : Option Nat :=
  let d := (st + 65536 - s % 65536) % 65536
  if d ≤ 256 then some (s + d) else none

/-! ### Tables and registers of a core -/

/-- A fence of core `c` or router `r` (SAFE_CORE_FENCE, SAFE_RTR_FENCE; R390). -/
def State.coreFenced (s : State) (c : Nat) : Bool := s.bit (rk pgSafe (0x200 + c / 32 * 4)) (c % 32)
def State.rtrFenced (s : State) (r : Nat) : Bool := s.bit (rk pgSafe (0x280 + r / 32 * 4)) (r % 32)
/-- Enabled and not fenced (R134, R390). -/
def State.coreOn (s : State) (c : Nat) : Bool := s.bit (coreKey c 0) 0 && !s.coreFenced c

def State.synWord (s : State) (c w : Nat) : Nat := s.getLE (synBase c + 8 * w) 8
def State.dirEntry (s : State) (c i : Nat) : Nat := s.getLE (synBase c + 0x30000 + 4 * i) 4
/-- A leak factor; entries above 0x8000 read as 0x8000 (R118). -/
def State.leak (s : State) (c t dt : Nat) : Nat := min (s.getLE (synBase c + 0x34000 + t * 0x200 + dt * 2) 2) 0x8000
def neuronAddr (c n : Nat) : Nat := synBase c + 0x38000 + 8 * n

/-- A neuron class (R132). -/
structure NClass where
  theta : Int
  vrest : Int
  outFixed : Nat
  nonLeaky : Bool
  table : Nat
  reset : Nat
  binary : Bool
  shift : Nat
deriving DecidableEq, Repr

def State.nclass (s : State) (c k : Nat) : NClass :=
  let a := synBase c + 0x36000 + 32 * k
  let w2 := s.getLE (a + 8) 4
  { theta := toSigned 24 (s.getLE a 3), vrest := toSigned 24 (s.getLE (a + 4) 3), outFixed := bits w2 22 16,
    nonLeaky := w2.testBit 12, table := bits w2 11 8, reset := bits w2 7 6, binary := w2.testBit 5, shift := bits w2 4 0 }

/-- Whether a class refuses FAB's enable (R119). -/
def NClass.bad (k : NClass) : Bool :=
  decide (k.theta ≤ 0) || decide (23 < k.shift) || k.reset == 3 || (k.binary && k.outFixed == 0)

/-- The number of synapse words (R129). -/
def synWords : Nat := 24576

/-- A core raises a fault of FAB and names itself if it is the first (R126, R160). -/
def State.coreFault (s : State) (c b : Nat) : State :=
  let s := if s.bit (rk pgFab 0x134) 31 then s else s.wrN (rk pgFab 0x134) (2 ^ 31 + c)
  s.fault pgFab b c

/-- The wake logic ungates a sleeping core and counts the wake (R125). -/
def State.coreWake (s : State) (c : Nat) : State :=
  if s.coreOn c && s.bit (coreKey c 8) 0 then (s.setBit (coreKey c 8) 0 false).sat (coreKey c 0x4C) else s

/-! ### Contributions -/

/-- Adds a contribution to a neuron's exact working sum and marks its input (R116). -/
def addSum (m : SMap (Option Int)) (n : Nat) (x : Int) : SMap (Option Int) :=
  SMap.set (fun _ => none) m n (some ((SMap.get (fun _ => none) m n).getD 0 + x))

/-- The contribution of a core: values added, in order. -/
def State.addSums (s : State) (c : Nat) (l : List (Nat × Int)) : State :=
  let k := s.coreAt c
  (s.setCore c { k with sums := l.foldl (fun m e => addSum m e.1 e.2) k.sums }).bump (coreKey c 0x18) l.length

/-- Shows the cursors held and their peak in CORE_DEFER_LEVEL, and DEFER_FULL (R133). -/
def State.deferLevel (s : State) (c : Nat) : State :=
  let n := (s.coreAt c).cursors.length
  ((s.setFld (coreKey c 0xC) 10 0 n).peak (coreKey c 0xC) 26 16 n).setBit (coreKey c 8) 2 (decide (1024 ≤ n))

/-- A cursor enters the deferral queue, or is discarded where it is full (R115). -/
def State.defer (s : State) (c : Nat) (q : Cursor) : State :=
  let k := s.coreAt c
  if 1024 ≤ k.cursors.length then (s.sat (coreKey c 0x3C)).event pgFab 2
  else (s.setCore c { k with cursors := k.cursors ++ [q] }).deferLevel c

/-- Weight `i` of a native row's stream (R110). -/
def rowWeight (width raw : Nat) : Int := if width = 1 then 1 - 2 * (raw : Int) else toSigned width raw

/-- A native row (R109 to R112): `fire` where a cursor applies it. -/
def State.coreRow (s : State) (c waddr step : Nat) (g : Int) (fire : Bool) : State :=
  let hdr := s.synWord c waddr
  let len := bits hdr 18 11 + 1
  let width := 2 ^ bits hdr 20 19
  let base := bits hdr 10 0
  let words := (len * width + 63) / 64
  if synWords ≤ waddr || 2047 < base + len - 1 || synWords < waddr + 1 + words then s.sat (coreKey c 0x34)
  else
    let s := if fire then s else s.bump (coreKey c 0x10)
    let delay := bits hdr 32 25
    if !fire && delay ≠ 0 then s.defer c { waddr := waddr, g := g, due := step + delay, delay := 0 }
    else
      let at_ (i : Nat) : Nat := s.synWord c (waddr + 1 + i * width / 64) / 2 ^ (i * width % 64) % 2 ^ width
      s.addSums c ((List.range len).map (fun i => (base + i, g * rowWeight width (at_ i) * (2 ^ bits hdr 24 21 : Nat))))

/-- What a walk over a list has gathered: contributions, entries read, out-of-order entries, clash cycles, the bank group of
four being read, and the cursor that it ends with. -/
structure Walk where
  adds  : List (Nat × Int) := []
  order : Nat := 0
  read  : Nat := 0
  stall : Nat := 0
  group : List Nat := []
  next  : Option (Nat × Nat) := none
  bad   : Bool := false
deriving DecidableEq, Repr

/-- Cycles lost to bank clashes among up to four targets (R124). -/
def clashes (g : List Nat) : Nat := g.length - g.eraseDups.length

/-- Entries of a compatibility list from index `i` with delay `d` (R114): applied, skipped, or ending at the next larger
delay, at LAST, or past the limit. -/
def listWalk (ent : Nat → Nat) (g : Int) (scale d : Nat) : Nat → Nat → Walk → Walk
  | 0, _, w => { w with bad := true, stall := w.stall + clashes w.group }
  | fuel + 1, i, w =>
    let e := ent i
    let dl := bits e 13 8
    if d < dl then { w with read := w.read + 1, next := some (i, dl), stall := w.stall + clashes w.group }
    else
      let t := bits e 24 14
      let w1 : Walk :=
        if dl = d then { w with adds := w.adds ++ [(t, g * toSigned 8 (bits e 7 0) * (2 ^ scale : Nat))], group := w.group ++ [t % 16] }
        else { w with order := w.order + 1 }
      let w2 := { w1 with read := w1.read + 1 }
      let w3 := if w2.read % 4 = 0 then { w2 with stall := w2.stall + clashes w2.group, group := [] } else w2
      if e.testBit 31 then { w3 with stall := w3.stall + clashes w3.group } else listWalk ent g scale d fuel (i + 1) w3

/-- A compatibility list from entry `i` (R113, R114): at integration the whole list is checked for its LAST entry first. -/
def State.coreList (s : State) (c waddr i d step : Nat) (g : Int) (fire : Bool) : State :=
  let ctrl := s.rdN (coreKey c 0)
  let lim := min (2 * (synWords - waddr)) 2048
  let ent (j : Nat) : Nat := s.getLE (synBase c + 8 * waddr + 4 * j) 4
  if !fire && !(List.range lim).any (fun j => (ent j).testBit 31) then s.sat (coreKey c 0x34)
  else
    let s := if fire then s else s.bump (coreKey c 0x10)
    let w := listWalk ent g (bits ctrl 5 2) d (lim - i) i {}
    let s := s.addSums c w.adds
    let s := ((s.sat (coreKey c 0x38) w.order).sat (coreKey c 0x48) w.stall).sat (coreKey c 0x34) (if w.bad then 1 else 0)
    match w.next with
    | some (j, dl) =>
      s.defer c { waddr := waddr * 2 + j, g := g, due := step + (dl - d) * 2 ^ bits ctrl 7 6, delay := dl }
    | none => s

/-- A due cursor applies its row, or its list's next entries (R112, R114). A list cursor's address counts entries from the start of
synapse memory; its list ends within 2,048 entries or at the memory's end. -/
def State.coreFire (s : State) (c step : Nat) (q : Cursor) : State :=
  if s.bit (coreKey c 0) 1 then s.coreList c (q.waddr / 2) (q.waddr % 2) q.delay step q.g true
  else s.coreRow c q.waddr step q.g true

/-- A packet is integrated or discarded (R108); one of a step that is not open, a stray after a forced Bell among them, is discarded (R136,
R152). An upset is found at the table read (R126). -/
def State.coreIntegrate (s : State) (c : Nat) (p : DWord) (u : Upset) : State :=
  let e := s.dirEntry c (pktKey p % 4096)
  if !s.coreOn c then s.sat (coreKey c 0x28)
  else if !s.bell.stepOpen || pktStep p ≠ s.bell.step % 65536 then (s.sat (coreKey c 0x2C)).coreFault c 0
  else if e % 2 = 0 then s.sat (coreKey c 0x30)
  else
    let go (s : State) : State :=
      let g := toSigned 8 (pktValue p)
      if s.bit (coreKey c 0) 1 then s.coreList c (bits e 15 1) 0 0 s.bell.step g false
      else s.coreRow c (bits e 15 1) s.bell.step g false
    match u with
    | .none => go s
    | .single => go ((s.sat (coreKey c 0x50)).toSafe 0 pgFab 0x80 0)
    | _ => s.coreFault c 2

/-- The copies of an input of a router. -/
def Router.held (r : Router) (inp : Nat) : Nat := (r.inbox.filter (fun c => c.1 == inp)).length

/-- Shows the moored copies, those that wait for their release among them, their peak, and MOOR_FULL (R162). -/
def State.moorLevel (s : State) (r : Nat) : State :=
  let n := (s.rtrAt r).moor.length + (s.rtrAt r).rel.length
  ((s.setFld (rtrKey r 4) 12 0 n).peak (rtrKey r 4) 28 16 n).setBit (rtrKey r 0) 0 (decide (4096 ≤ n))

/-- The core integrates the packet at the head of its queue; a release that waited for room takes its place (R108, R142). -/
def State.corePacket (s : State) (c : Nat) (u : Upset) : State :=
  let k := s.coreAt c
  match k.inq with
  | [] => s
  | p :: rest =>
    let r := s.rtrAt c
    let moved := r.rel.take 1
    let s := s.setCore c { k with inq := rest ++ moved, idleSince := s.time.tb0 }
    let s := if moved.isEmpty then s
      else ((s.setRtr c { r with rel := r.rel.drop 1, createdD := r.createdD + 1, retiredD := r.retiredD + 1 }).bump
        (rk pgFab 0x58)).moorLevel c
    (s.coreWake c).coreIntegrate c p u

/-! ### Step close -/

/-- Saturation to s7.16, counted (R117). -/
def State.sat24 (s : State) (c : Nat) (v : Int) : State × Int :=
  let w := clampI (-(2 ^ 23)) (2 ^ 23 - 1) v
  (if w = v then s else s.sat (coreKey c 0x44), w)

/-- The neuron's difference from rest after its leak (R117, R118). -/
def State.leaked (s : State) (c : Nat) (k : NClass) (d : Int) (dt : Nat) : Int :=
  if dt ≤ 255 then
    let f : Int := s.leak c k.table dt
    if 0 ≤ d then d * f / (2 ^ 15 : Nat) else -((-d) * f / (2 ^ 15 : Nat))
  else if k.nonLeaky then d
  else 0

/-- The output value of a neuron that fires (R117). -/
def NClass.output (k : NClass) (v : Int) : Nat :=
  if k.binary then k.outFixed else (clampI 1 127 ((v - k.theta) / (2 ^ k.shift : Nat))).toNat

/-- One neuron's update with its working sum (R116, R117): the answer holds the packets sent so far. -/
def State.neuronClose (s : State) (c step n : Nat) (sum : Int) : State × Option DWord :=
  let a := clampI (-(2 ^ 31)) (2 ^ 31 - 1) sum
  let s := if a = sum then s else s.sat (coreKey c 0x40)
  let w := s.getLE (neuronAddr c n) 8
  let k := s.nclass c (bits w 43 40)
  let dt := (step + 65536 - bits w 39 24) % 65536
  let d := s.leaked c k (toSigned 24 (bits w 23 0) - k.vrest) dt
  let (s, v) := s.sat24 c (k.vrest + d + a)
  if k.theta ≤ v then
    let o := k.output v
    let (s, v') :=
      if k.reset = 0 then (s, v - k.theta)
      else if k.reset = 1 then (s, 0)
      else s.sat24 c (v - (o * 2 ^ k.shift : Nat))
    (s.putLE (neuronAddr c n) 5 (step % 65536 * 2 ^ 24 + ofSigned 24 v'),
      some (fp64 (s.fld (coreKey c 4) 31 11 * 2048 + n) o 0 (step + 1)))
  else (s.putLE (neuronAddr c n) 5 (step % 65536 * 2 ^ 24 + ofSigned 24 v), none)

/-- The sweep of R122: neurons of the group that took no input and whose dt exceeds 255. -/
def State.lastSweep (s : State) (c step : Nat) (input : Nat → Bool) : State :=
  (List.range 64).foldl (fun s i =>
    let n := 64 * (step / 32 % 32) + i
    let w := s.getLE (neuronAddr c n) 8
    let k := s.nclass c (bits w 43 40)
    if input n || (step + 65536 - bits w 39 24) % 65536 ≤ 255 then s
    else s.putLE (neuronAddr c n) 5 (step % 65536 * 2 ^ 24 + (if k.nonLeaky then bits w 23 0 else ofSigned 24 k.vrest))) s

/-- Whether the core itself has work at the close: input in the step, packets to hand over, or the sweep. Others are closed by their wake logic
(R121). -/
def State.closeDuty (s : State) (c : Nat) : Bool :=
  s.coreOn c && (!(s.coreAt c).sums.isEmpty || !(s.coreAt c).inq.isEmpty || !(s.coreAt c).outq.isEmpty || s.bell.step % 32 == 0)

/-- A core hands a packet to its router (R120, R148). -/
def State.coreEmit (s : State) (c : Nat) (p : DWord) : State :=
  let r := s.rtrAt c
  let d := decide (pktStep p = s.bell.step % 65536)
  (s.setRtr c { r with
    inbox := r.inbox ++ [(4, p)]
    createdD := r.createdD + (if d then 1 else 0)
    createdM := r.createdM + (if d then 0 else 1) }).bump (coreKey c 0x20)

/-- A core hands over what its router's core port has slots for; it signals CLOSED when its update is done and all is handed over (R121,
R137). -/
def State.coreDrain (s : State) (c : Nat) : State :=
  let k := s.coreAt c
  let room := 8 - (s.rtrAt c).held 4
  let s := (k.outq.take room).foldl (fun s p => s.coreEmit c p) s
  s.setCore c { k with outq := k.outq.drop room, closed := k.closed || (k.updated && (k.outq.drop room).isEmpty) }

/-- The update at a step's close, and CLOSED(s); a core that finds a wrong residue leaves its neurons as they are (R121, R126; log 26). -/
def State.coreStepClose (s : State) (c : Nat) (residueBad : Bool) : State :=
  let k := s.coreAt c
  if !s.bell.stepOpen || !s.bell.phaseM || !s.closeDuty c || k.closed || k.updated || !k.inq.isEmpty then s
  else
    let s := s.coreWake c
    let done (s : State) (out : List DWord) : State :=
      (s.setCore c { k with sums := [], outq := k.outq ++ out, updated := true, idleSince := s.time.tb0 }).coreDrain c
    if residueBad then done (s.coreFault c 1) []
    else
      let step := s.bell.step
      let (s, out) := k.sums.foldl (fun (a : State × List DWord) e =>
        let (s, p) := a.1.neuronClose c step e.1 (e.2.getD 0)
        (s, a.2 ++ p.toList)) (s, [])
      let s := if step % 32 = 0 then s.lastSweep c step (fun n => (SMap.get (fun _ => none) k.sums n).isSome) else s
      done s out

/-- A core gates its clock 16 FAB cycles after its queue emptied with nothing due (R125). -/
def State.coreGate (s : State) (c : Nat) : State :=
  let k := s.coreAt c
  let due := s.bell.stepOpen && s.bell.phaseM && s.closeDuty c && !k.closed
  if s.bit (coreKey c 8) 0 || !k.inq.isEmpty || due || (s.time.tb0 - k.idleSince) * 6 < 16 * 5 then s
  else s.setBit (coreKey c 8) 0 true

/-- DISMISS inside a core (R128). -/
def State.coreDismiss (s : State) (c : Nat) : State :=
  let k := s.coreAt c
  (((s.sat (coreKey c 0x3C) k.cursors.length).setCore c { idleSince := k.idleSince }).setFld (coreKey c 0xC) 10 0 0).setBit
    (coreKey c 8) 2 false

def execCorePacket (c : Fin 1024) (u : Upset) (s : State) : Out := .next (s.corePacket c u)
def execCoreStepClose (c : Fin 1024) (bad : Bool) (s : State) : Out := .next (s.coreStepClose c bad)
def execCoreGate (c : Fin 1024) (s : State) : Out := .next (s.coreGate c)

end Sys2Proof.Machine
end

