-- ==== Sys2Proof/Machine/Fabric.lean ====
section
/-! DEFINITION. The ingest edges, the routers with their moorings, the reduction rounds, the Bell and the shed controller
(R21 to R26, R135 to R163). -/

namespace Sys2Proof.Machine

/-! ### Ingest edges -/

/-- The router that an edge sits on (R144). -/
def edgeRouter (e : Nat) : Nat := if e < 32 then 32 * e else 32 * (e - 32) + 31

/-- FAB_EDGE_LEVEL (R160). -/
def State.edgeLevel (s : State) (e : Nat) : State :=
  let n := (s.edgeAt e).queue.length
  (s.setFld (rk pgFab (0x400 + 4 * e)) 15 0 n).peak (rk pgFab (0x400 + 4 * e)) 31 16 n

/-- The packet that a record forms (R145). -/
def State.edgePacket (s : State) (r : BitVec 128) (step : Nat) : DWord :=
  let n := r.toNat
  let k := bits n 63 60
  let m := s.rdN (rk pgFab (0x140 + 4 * k))
  let cl := bits m 10 8
  let pol := if m.testBit 12 then bits n 35 35 else 0
  let key := bits m 6 0 * 2 ^ 25 + pol * 2 ^ 24 + bits n 111 100 / 2 ^ cl * 2 ^ 12 + bits n 127 116 / 2 ^ cl
  let value := if bits m 14 13 = 0 then bits m 23 16 else bits n 95 88 / 2
  fp64 key value 0 step

/-- A record reaches an edge: it joins the step whose window contains this time, or is discarded; a full edge leaves it on the
link (R21, R138, R144, R145). Records before the first window belong to no step (log 27). -/
def State.edgeRecord (s : State) (h : Nat) : State :=
  let f := s.fendAt h
  match f.edgeQ with
  | [] => s
  | r :: rest =>
    let n := r.toNat
    let took := s.setFend h { f with edgeQ := rest }
    let drop := took.bump (rk pgFab 0x78)
    if !s.fabTakes || bits n 34 32 ≠ 0 || !s.bit (rk pgFab (0x140 + 4 * bits n 63 60)) 31 then drop
    else
      match s.windowAt s.now with
      | none => drop
      | some step =>
        let e := edgeOf (bits n 63 60) (bits n 59 48) (bits n 47 36)
        let q := s.edgeAt e
        if 32768 ≤ q.queue.length then s
        else
          (took.setEdge e { q with
            queue := q.queue ++ [(step, s.edgePacket r step)]
            formed := SMap.set (fun _ => 0) q.formed step (SMap.get (fun _ => 0) q.formed step + 1) }).edgeLevel e

/-- An edge injects the first packet of the open step when its router's edge port has a free slot (R137, R144, R148). -/
def State.edgeInject (s : State) (e : Nat) : State :=
  let q := s.edgeAt e
  let r := edgeRouter e
  let t := s.rtrAt r
  match q.queue with
  | [] => s
  | (step, p) :: rest =>
    if !s.bell.stepOpen || step ≠ s.bell.step || 8 ≤ t.held 5 then s
    else
      let s := (s.setEdge e { q with queue := rest, injected := q.injected + 1 }).edgeLevel e
      (s.setRtr r { t with inbox := t.inbox ++ [(5, p)], createdD := t.createdD + 1 }).bump (rk pgFab 0x50)

/-! ### Routers -/

/-- The neighbour on a mesh port: 0 N, 1 E, 2 S, 3 W (R137). -/
def neighbour (r port : Nat) : Option Nat :=
  match port with
  | 0 => if r < 32 then none else some (r - 32)
  | 1 => if r % 32 = 31 then none else some (r + 1)
  | 2 => if 992 ≤ r then none else some (r + 32)
  | _ => if r % 32 = 0 then none else some (r - 1)
/-- The neighbour's input that a mesh port leads to. -/
def inputOf (port : Nat) : Nat := (port + 2) % 4

/-- Routing entry `i`: key, mask and route (R162). -/
def State.rtEntry (s : State) (r i : Nat) : Nat × Nat × Nat :=
  let a := rtrBase r + 16 * i
  (s.getLE a 4, s.getLE (a + 4) 4, s.getLE (a + 8) 4)

/-- The lowest-indexed valid entry that matches a key (R139). -/
def State.rtLookup (s : State) (r key : Nat) : Option Nat :=
  ((List.range 1024).find? (fun i =>
    let (k, m, rt) := s.rtEntry r i
    rt.testBit 31 && (key &&& m) == k)).map (fun i => (s.rtEntry r i).2.2)

/-- Counts a copy created or retired in phase D, or in phase M (R148). -/
def Router.created (r : Router) (d : Bool) (n : Nat) : Router :=
  if d then { r with createdD := r.createdD + n } else { r with createdM := r.createdM + n }
def Router.retired (r : Router) (d : Bool) : Router :=
  if d then { r with retiredD := r.retiredD + 1 } else { r with retiredM := r.retiredM + 1 }

/-- A router's fault; the first one names its router (R160). -/
def State.rtrFault (s : State) (r b : Nat) : State :=
  let s := if s.bit (rk pgFab 0x138) 31 then s else s.wrN (rk pgFab 0x138) (2 ^ 31 + r)
  s.fault pgFab b (1024 + r)

/-- A copy is discarded at a router and counted there, in FAB_DROPPED and as retired. -/
def State.rtrDrop (s : State) (r : Nat) (d : Bool) (ctr : Nat) : State :=
  ((s.setRtr r ((s.rtrAt r).retired d)).sat (rtrKey r ctr)).bump (rk pgFab 0x70)

/-- A copy of a later step is moored, or discarded where the moorings are full (R142). -/
def State.moorCopy (s : State) (r : Nat) (p : DWord) : State :=
  let t := s.rtrAt r
  if 4096 ≤ t.moor.length + t.rel.length then (s.rtrDrop r false 0x14).event pgFab 3
  else ((s.setRtr r ({ t with moor := t.moor ++ [p] }.retired false)).bump (rk pgFab 0x60)).moorLevel r

/-- A copy of the open step is accepted at the core port (R136); an off core discards it at once (R108, R134). -/
def State.coreAccept (s : State) (r : Nat) (p : DWord) : State :=
  let s := (s.setRtr r ((s.rtrAt r).retired true)).bump (rk pgFab 0x58)
  if s.coreOn r then
    let k := s.coreAt r
    (s.setCore r { k with inq := k.inq ++ [p] }).coreWake r
  else s.sat (coreKey r 0x28)

/-- The output map's class of a key (R155). -/
def State.outClass (s : State) (key : Nat) : Option Nat :=
  (List.range 8).find? (fun k =>
    s.bit (rk pgFab (0x188 + 16 * k)) 0 && (key &&& s.rdN (rk pgFab (0x184 + 16 * k))) == s.rdN (rk pgFab (0x180 + 16 * k)))

/-- A class's list buffer of a step: the odd steps' buffer stands at the next 64-byte boundary after the even one's header and
entries (R156; log 28). -/
def State.siteBuf (s : State) (k step : Nat) : Nat :=
  let cap := s.rdN (rk pgFab (0x18C + 16 * k))
  s.rd64 (rk pgFab (0x200 + 8 * k)) + step % 2 * roundUp (16 + 4 * cap) 64

/-- A site entry, or OVF (R156). -/
def State.siteAppend (s : State) (k : Nat) (p : DWord) : State :=
  let n := SMap.get (fun _ => 0) s.bell.siteCount k
  let ovf (s : State) : State := { s with bell := { s.bell with siteOvf := SMap.set (fun _ => false) s.bell.siteOvf k true } }
  if s.rdN (rk pgFab (0x18C + 16 * k)) ≤ n then (ovf s).event pgFab 9
  else
    let s := if n = 0 then s.sourceRewrites 1 k [(s.siteBuf k s.bell.step, 1)] else s
    let (s, ok) := s.store mFab (s.siteBuf k s.bell.step + 16 + 4 * n) (leBytes 4 (pktKey p % 2 ^ 24 * 256 + pktValue p))
    if ok then { s with bell := { s.bell with siteCount := SMap.set (fun _ => 0) s.bell.siteCount k (n + 1) } } else ovf s

/-- The output collector takes a copy (R155). -/
def State.outCopy (s : State) (r : Nat) (d : Bool) (p : DWord) : State :=
  let s := (s.setRtr r ((s.rtrAt r).retired d)).bump (rk pgFab 0x68)
  match s.outClass (pktKey p) with
  | none => s.sat (rk pgFab 0x260)
  | some k =>
    let s := { s with bell := { s.bell with outs := SMap.set (fun _ => 0) s.bell.outs k (SMap.get (fun _ => 0) s.bell.outs k + 1) } }
    if s.bit (rk pgFab (0x188 + 16 * k)) 1 then s.siteAppend k p else s

/-- Whether every port of a route can take a copy (R137, R138). -/
def State.portsFree (s : State) (r route : Nat) (now : Bool) : Bool :=
  (List.range 4).all (fun o => !route.testBit o || match neighbour r o with
    | some t => s.rtrFenced t || decide ((s.rtrAt t).held (inputOf o) < 8)
    | none => true) &&
  (!(route.testBit 4 && now) || !s.coreOn r || decide ((s.coreAt r).inq.length < 64))

/-- One copy out of a port: 4 is the core port, 5 the output collector. -/
def State.sendPort (s : State) (r : Nat) (now : Bool) (p : DWord) (o : Nat) : State :=
  if o = 4 then (if now then s.coreAccept r p else s.moorCopy r p)
  else if o = 5 then s.outCopy r now p
  else match neighbour r o with
    | some t =>
      let u := s.rtrAt t
      (s.setRtr t { u with inbox := u.inbox ++ [(inputOf o, p)] }).bump (rtrKey r 8)
    | none => s.setRtr r ((s.rtrAt r).retired now)

/-- What a router decides on a copy. -/
inductive Verdict where
  | sink
  | drop (ctr : Nat) (event fault : Option Nat)
  | send (route : Nat) (p : DWord) (moved : Bool)
deriving DecidableEq, Repr

/-- A copy as its router receives it: a mesh link carries the packet and the CRC-8 that the sender generates, and `e` says which of the 72
bits the link has turned (packet in bits 63 to 0, CRC in 71 to 64); none where the check fails (R137). -/
def received (inp : Nat) (p : DWord) (e : BitVec 72) : Option DWord :=
  if 4 ≤ inp then some p
  else
    let q := p ^^^ e.setWidth 64
    if crc8 q = crc8 p ^^^ bits e.toNat 71 64 then some q else none

/-- R136, R139, R140 and the fence of R390 on a copy as received. -/
def State.rtrVerdict (s : State) (r inp : Nat) (p : DWord) (e : BitVec 72) : Verdict :=
  if s.rtrFenced r then .sink
  else match received inp p e with
  | none => .drop 0x18 none (some 3)
  | some p => match fullStep s.openStep (pktStep p) with
    | none => .drop 0x1C none (some 0)
    | some full => match s.rtLookup r (pktKey p) with
      | none => .drop 0x10 (some 4) none
      | some route =>
        let dadj := bits route 15 8
        if 255 < pktDelay p + dadj then .drop 0x20 (some 5) none
        else if bits route 5 0 = 0 then .sink
        else .send route (fp64 (pktKey p) (pktValue p) (pktDelay p + dadj) (full + dadj)) (dadj ≠ 0)

/-- Whether a copy belongs to phase D. -/
def State.inD (s : State) (p : DWord) : Bool := s.bell.stepOpen && decide (pktStep p = s.bell.step % 65536)

/-- Whether the copy can move now. -/
def State.canMove (s : State) (r inp : Nat) (p : DWord) (e : BitVec 72) : Bool :=
  match s.rtrVerdict r inp p e with
  | .send route q _ => s.portsFree r route (s.inD q)
  | _ => true

/-- The first copy that heads its input and can move: its place in the inbox. -/
def State.nextCopy (s : State) (r : Nat) (e : BitVec 72) : List (Nat × DWord) → List Nat → Nat → Option Nat
  | [], _, _ => none
  | (inp, p) :: rest, seen, i =>
    if !seen.contains inp && s.canMove r inp p e then some i
    else s.nextCopy r e rest (inp :: seen) (i + 1)

/-- The copies that head their inputs. -/
def Router.heads (t : Router) : List (Nat × DWord) := (List.range 6).filterMap (fun i => t.inbox.find? (fun c => c.1 == i))
/-- Whether a copy at the head of an input, other than `but`, or a release, finds no credit (R138). -/
def State.creditStall (s : State) (r : Nat) (but : Option (Nat × DWord)) : Bool :=
  let t := s.rtrAt r
  !t.rel.isEmpty || t.heads.any (fun c => some c != but && !s.canMove r c.1 c.2 0)
/-- RTR_STALL_CYC and CREDIT_STALL of a cycle. -/
def State.stallShow (s : State) (r : Nat) (stall : Bool) : State :=
  (if stall then s.sat (rtrKey r 0x28) else s).setBit (rtrKey r 0) 1 stall

/-- A copy that a router has taken from input `inp`. One that DADJ moves to a later step leaves phase D and joins phase M (log 29). -/
def State.routeOne (s : State) (r inp : Nat) (p : DWord) (e : BitVec 72) : State :=
    match s.rtrVerdict r inp p e with
    | .sink => (s.setRtr r ((s.rtrAt r).retired (s.inD p))).sat (rtrKey r 0x24)
    | .drop ctr ev flt =>
      let s := s.rtrDrop r (s.inD p) ctr
      let s := match ev with | some b => s.event pgFab b | none => s
      match flt with | some b => s.rtrFault r b | none => s
    | .send route q moved =>
      let ports := (List.range 6).filter (fun o => route.testBit o)
      let now := s.inD q
      let u := s.rtrAt r
      let u := if moved && s.inD ((received inp p e).getD p) then (u.retired true).created false 1 else u
      let s := s.setRtr r (u.created now (ports.length - 1))
      ports.foldl (fun s o => s.sendPort r now q o) s

/-- A router handles one copy; the cycle counts where another at the head of its input, or a release, waits for a credit (R138 to R140,
R148). -/
def State.routerCopy (s : State) (r : Nat) (e : BitVec 72) : State :=
  let t := s.rtrAt r
  match s.nextCopy r e t.inbox [] 0 with
  | none => if t.inbox.isEmpty && t.rel.isEmpty then s else s.stallShow r true
  | some i =>
    let (inp, p) := t.inbox.getD i (0, 0)
    let s := s.stallShow r (s.creditStall r (some (inp, p)))
    let s := (s.setRtr r { t with inbox := t.inbox.eraseIdx i }).routeOne r inp p e
    if inp = 4 then s.coreDrain r else s

/-! ### Windows and the step's opening -/

/-- At E(n) − P the edges close window n and the front ends report their shed counts (R21, R99, R146). -/
def State.windowClose (s : State) : State :=
  let n := s.bell.winStep
  if !s.bell.started || s.now + s.stepP < s.stepEnd n then s
  else
    let report (s : State) (h : Nat) : State :=
      let f := s.fendAt h
      s.setFend h { f with
        shed := SMap.set (fun _ => 0) f.shed n 0
        reported := SMap.set (fun _ => 0) f.reported n (SMap.get (fun _ => 0) f.shed n) }
    let s := (report s 0) |> (report · 1)
    { s with bell := { s.bell with winStep := n + 1 } }

/-- Whether step `n` may open: at E(n − 1), with the Bell of the step before done, and no HALT (R21, R151, R157). -/
def State.canOpen (s : State) : Bool :=
  s.bell.started && s.running pgFab && !s.halted pgFab && !s.bell.stepOpen && !s.bell.rang &&
    decide ((if s.bell.lags.isEmpty then s.bell.nextEnd - s.stepP else s.bell.endFus) ≤ s.now)

/-- A router releases its moored copies of the step, as many as the core's queue takes; the rest follow as it empties
(R138, R142, R148). -/
def State.releaseMoored (s : State) (r step : Nat) : State :=
  let t := s.rtrAt r
  let due := t.moor.filter (fun p => pktStep p == step % 65536)
  if due.isEmpty then s
  else
    let room := if s.coreOn r then 64 - (s.coreAt r).inq.length else due.length
    let s := s.setRtr r { t with moor := t.moor.filter (fun p => pktStep p != step % 65536), rel := t.rel ++ due.drop room }
    let s := (due.take room).foldl (fun s p => (s.setRtr r ((s.rtrAt r).created true 1)).coreAccept r p) s
    s.moorLevel r

/-- A core's cursors due in the step leave the queue and are applied (R112, R115). -/
def State.fireCursors (s : State) (c step : Nat) : State :=
  let k := s.coreAt c
  let due := k.cursors.filter (fun q => decide (q.due ≤ step))
  if due.isEmpty || !s.coreOn c then s
  else
    let s := (s.setCore c { k with cursors := k.cursors.filter (fun q => decide (step < q.due)), idleSince := s.time.tb0 }).coreWake c
    (due.foldl (fun s q => s.coreFire c step q) s).deferLevel c

/-- What a round samples (R148). -/
def State.sampleRound (s : State) : Round :=
  let rs := s.routers.map (·.2)
  let duty := (List.range 1024).filter (fun c => s.closeDuty c)
  { createdD := (rs.map (·.createdD)).sum, retiredD := (rs.map (·.retiredD)).sum
    createdM := (rs.map (·.createdM)).sum, retiredM := (rs.map (·.retiredM)).sum
    edgesDone := decide (s.bell.step < s.bell.winStep) &&
      (s.edges.map (·.2)).all (fun q => decide (SMap.get (fun _ => 0) q.formed s.bell.step ≤ q.injected))
    released := rs.all (fun r => r.rel.isEmpty)
    closed := if s.bell.phaseM then 1024 - (duty.filter (fun c => !(s.coreAt c).closed)).length else 0
    allClosed := s.bell.phaseM && duty.all (fun c => (s.coreAt c).closed)
    busy := (s.cores.map (·.2)).any (fun k => !k.inq.isEmpty) || (s.bell.phaseM && duty.any (fun c => !(s.coreAt c).closed)) }

/-- What a step's opening clears in a router, an edge and a core (R148). -/
def Router.newStep (r : Router) : Router := { r with createdD := 0, retiredD := 0, createdM := 0, retiredM := 0 }
def Edge.newStep (e : Edge) (n : Nat) : Edge := { e with injected := 0, formed := e.formed.filter (fun f => decide (n ≤ f.1)) }
/-- Sums that a forced Bell has cut off do not join the next step's (R116; log 93). -/
def Core.newStep (c : Core) : Core := { c with closed := false, updated := false, sums := [] }

/-- Step n opens: accounts restart, the moorings release, due cursors fire, and the first round is sampled (R21, R148). -/
def State.stepOpen (s : State) : State :=
  if !s.canOpen then s
  else
    let n := s.bell.nextStep
    let e := s.bell.nextEnd
    let s : State := { s with
      bell := { s.bell with
        stepOpen := true, step := n, nextStep := n + 1, endFus := e, slid := 0, nextEnd := e + s.stepP, phaseM := false, forced := false
        cycles := 0, prev := none, sample := none, quiet := 0, outs := [], siteCount := [], siteOvf := [] }
      routers := s.routers.map (fun q => (q.1, q.2.newStep))
      edges := s.edges.map (fun q => (q.1, q.2.newStep n))
      cores := s.cores.map (fun q => (q.1, q.2.newStep)) }
    let s := s.wr64 (rk pgFab 0x110) n
    let s := (s.routers.map (·.1)).foldl (fun s r => s.releaseMoored r n) s
    let s := (s.cores.map (·.1)).foldl (fun s c => s.fireCursors c n) s
    { s with bell := { s.bell with sample := some s.sampleRound } }

/-! ### The Bell -/

/-- The Bell rings (R22, R150): the open step ends, and its accounting follows. -/
def State.ringBell (s : State) (forced : Bool) : State :=
  let s := (s.bump (rk pgFab 0x40)).wrN (rk pgFab 0x13C) (sat32 s.bell.cycles)
  { s with bell := { s.bell with stepOpen := false, rang := true, forced := forced, bellTime := s.time.fus } }

/-- The wake logic of the cores that have work at the close (R125). -/
def State.deliver (s : State) : State :=
  let s := { s with bell := { s.bell with phaseM := true } }
  (List.range 1024).foldl (fun s c => if s.closeDuty c then s.coreWake c else s) s

/-- Phase D of R149 over two successive rounds, and phase M of R150. -/
def phaseDDone (a b : Round) : Bool :=
  a.edgesDone && b.edgesDone && a.released && b.released && a.createdD == a.retiredD && b.createdD == b.retiredD &&
    a.createdD == b.createdD && a.retiredD == b.retiredD
def phaseMDone (a b : Round) : Bool :=
  a.allClosed && b.allClosed && a.createdM == a.retiredM && b.createdM == b.retiredM && a.createdM == b.createdM &&
    a.retiredM == b.retiredM

/-- A reduction round ends: its sums are delivered and the next one is sampled (R148 to R150, R152). -/
def State.reductionRound (s : State) : State :=
  if !s.bell.stepOpen then s
  else
    let cur := s.bell.sample.getD s.sampleRound
    let new := s.sampleRound
    let s' := { s with bell := { s.bell with
      cycles := s.bell.cycles + 16, prev := some cur, sample := some new
      quiet := if new = cur && !new.busy then s.bell.quiet + 16 else 0 } }
    match s.bell.prev with
    | none => s'
    | some a =>
      if s.bell.phaseM then (if phaseMDone a cur then s'.ringBell false else s')
      else if phaseDDone a cur then s'.deliver
      else s'

/-- Nothing has changed for FAB_RECON_STALL cycles with a phase incomplete (R152). -/
def State.countMismatch (s : State) : State :=
  if s.bell.stepOpen && decide (max 256 (s.fld (rk pgFab 0x108) 15 0) ≤ s.bell.quiet) then (s.fault pgFab 4).ringBell true else s

/-- The lag of the Bell of step `n`, where it is among the last 256 (R153). -/
def State.lagAt (s : State) (n : Nat) : Option Nat := if s.bell.step < n then none else s.bell.lags[s.bell.step - n]?

/-- The level that the controller asks for after a Bell (R153, R160). -/
def State.shedWanted (s : State) (lag : Nat) : Nat :=
  let c := s.rdN (rk pgFab 0x104)
  let limit := s.fld (rk pgFab 0x100) 23 8
  let lvl := s.fld (rk pgFab 0x124) 12 8
  if c.testBit 21 then min (bits c 20 16) 16
  else if !c.testBit 8 then 0
  else if lvl = 0 then (if limit < lag then 1 else 0)
  else if 2 * lag < limit then 0
  else match s.bell.adopt0, s.bell.adopt1 with
    | some (m0, l0), some (m1, l1) =>
      let m := max m0 m1
      match if m = 0 then none else s.lagAt (m - 1) with
      | some old =>
        if lvl ≤ 15 && l0 = lvl && l1 = lvl && m + max 1 (bits c 7 0) ≤ s.bell.step && old ≤ lag then lvl + 1 else lvl
      | none => lvl
    | _, _ => lvl

/-- Whether R153's rules set the level: neither FORCE nor SHED_EN = 0 does. -/
def State.shedRuled (s : State) : Bool := s.bit (rk pgFab 0x104) 8 && !s.bit (rk pgFab 0x104) 21

/-- A change of level is sent to both front ends (R153); rules 1 and 2 set SHED_START and SHED_STOP (R154). -/
def State.sendShed (s : State) (lvl : Nat) (ruled : Bool) : State :=
  let old := s.fld (rk pgFab 0x124) 12 8
  if old = lvl then s
  else
    let v : LoopVal := { stamp := s.now, words := [BitVec.ofNat 32 lvl] }
    let s := ((s.sendLoop 21 v).sendLoop 22 v).setFld (rk pgFab 0x124) 12 8 lvl
    if !ruled then s else if old = 0 then s.event pgFab 7 else if lvl = 0 then s.event pgFab 8 else s

/-- The site lists' headers at the Bell, which make each list the input of the models with a SITES trigger of its class (R156, R198). -/
def State.siteHeaders (s : State) : State :=
  (List.range 8).foldl (fun s k =>
    if s.fld (rk pgFab (0x188 + 16 * k)) 1 0 = 3 then
      let n := SMap.get (fun _ => 0) s.bell.siteCount k
      let s := if n = 0 then s.sourceRewrites 1 k [(s.siteBuf k s.bell.step, 1)] else s
      (s.put mFab (s.siteBuf k s.bell.step) (leBytes 8 s.bell.step ++ leBytes 4 n ++
        leBytes 4 (if SMap.get (fun _ => false) s.bell.siteOvf k then 1 else 0))).sourceFires 1 k (s.siteBuf k s.bell.step)
    else s) s

/-- The accounting after a Bell (R23, R151, R153, R154, R156). DESIGN CHOICE (log 83): the overrun is the lateness floored to whole ns, so a
Bell less than 1 ns late gives overrun 0 and no OVERRUN. What FUSION has stepped by while the step was open is no lateness (R26). -/
def State.bellAccounting (s : State) : State :=
  let b := s.bell
  if !b.rang then s
  else
    let late := b.bellTime - (b.endFus + b.slid) * 2 ^ 40
    let ns := late * 125 / 2 / 2 ^ 40
    let lag := late / (s.stepP * 2 ^ 40)
    let s := if ns = 0 then s else s.bump (rk pgFab 0x48)
    let s := ((s.wrN (rk pgFab 0x118) (sat32 lag)).wrN (rk pgFab 0x11C) (sat32 ns)).peak (rk pgFab 0x120) 31 0 (sat32 ns)
    let s := s.peak (rk pgFab 0x130) 31 0 (sat32 lag)
    let outs := (List.range 8).map (fun k => SMap.get (fun _ => 0) b.outs k)
    let s := (List.range 8).foldl (fun s k => s.wrN (rk pgFab (0x240 + 4 * k)) (outs.getD k 0)) s
    let s := s.siteHeaders
    let shed (h : Nat) : Nat := SMap.get (fun _ => 0) (s.fendAt h).reported b.step
    let rec_ : StepRec := {
      step := b.step, endFus := b.endFus, overrun := ns, lag := lag, shed0 := shed 0, shed1 := shed 1, outs := outs
      forced := b.forced }
    let s := [0, 1].foldl (fun s h =>
      let f := s.fendAt h
      s.setFend h { f with reported := SMap.set (fun _ => 0) f.reported b.step 0 }) s
    let s := { s with bell := { s.bell with rang := false, lags := (lag :: b.lags).take 256, ticks := b.ticks ++ [rec_] } }
    s.sendShed (s.shedWanted lag) s.shedRuled

/-! ### Enable, stop and DISMISS -/

/-- Whether a routing table has a bad entry (R141). -/
def State.rtBad (s : State) (r : Nat) : Bool :=
  s.mem.any (fun e => rtrBase r ≤ e.1 && e.1 < rtrBase r + 0x4000) &&
    (List.range 1024).any (fun i =>
      let (k, m, rt) := s.rtEntry r i
      rt.testBit 31 && (k &&& m != k || (List.range 4).any (fun o => rt.testBit o && (neighbour r o).isNone)))

/-- Whether an enabled core has a bad class, or COMPAT_DSHIFT 3 in compatibility format (R119, R134), shown as CLASS_BAD. -/
def State.classBad (s : State) (c : Nat) : Bool :=
  s.bit (coreKey c 0) 0 &&
    ((List.range 16).any (fun k => (s.nclass c k).bad) || (s.bit (coreKey c 0) 1 && s.fld (coreKey c 0) 7 6 == 3))

/-- The checks of an enable: CLASS_BAD, CORE_REFUSED and TABLE_REFUSED, each as its own rule says, and whether none refuses (R119, R134,
R141, R161). -/
def State.fabCheck (s : State) : State × Bool :=
  let on := (List.range 1024).filter (fun c => s.bit (coreKey c 0) 0)
  let bad := on.any (fun c => s.classBad c)
  let s' := on.foldl (fun s c => s.setBit (coreKey c 8) 3 (s.classBad c)) s
  let map := (List.range 16).any (fun k =>
    let m := s.rdN (rk pgFab (0x140 + 4 * k))
    2 ≤ bits m 14 13 || bits m 10 8 == 7)
  let table := map || (List.range 1024).any (fun r => s.rtBad r)
  let s' := if bad then s'.event pgFab 1 else s'
  (if table then s'.event pgFab 6 else s', !bad && !table)

/-- LAST of every neuron of an enabled core becomes the first step minus 1 (R122). -/
def State.setLast (s : State) (c first : Nat) : State :=
  (List.range 2048).foldl (fun s n => s.putLE (neuronAddr c n + 3) 2 ((first + 65535) % 65536)) s

/-- FAB enters RUNNING: steps start at 0, or one above the last before a Stop; the first nominal end is the second multiple of
P after the enable (R21, R26). Work that a core still holds is discarded, and the shed level starts at 0 (log 30). -/
def State.fabStart (s : State) : State :=
  let n := if s.bell.resume then s.bell.nextStep else 0
  let e := (s.now / s.stepP + 2) * s.stepP
  let s : State := { s with
    cores := s.cores.map (fun q => (q.1, { idleSince := q.2.idleSince : Core }))
    edges := []
    bell := { started := true, nextStep := n, nextEnd := e, endFus := e - s.stepP, firstWin := e - 2 * s.stepP, winStep := n
              step := n - 1, ticks := s.bell.ticks } }
  let s := [0, 1].foldl (fun s h => s.setFend h { s.fendAt h with window := n, shed := [], reported := [] }) s
  let s := (s.cores.map (·.1)).foldl (fun s c => s.deferLevel c) s
  let s := ((List.range 1024).filter (fun c => s.coreOn c)).foldl (fun s c => s.setLast c n) s
  (s.setFld (rk pgFab 0x124) 4 0 0).sendShed 0 false

/-- The moorings, the edge queues and the copies in the mesh are emptied and counted; FAB becomes IDLE (R158, R159). -/
def State.fabEmpty (s : State) : State :=
  let moored := (s.routers.map (fun q => q.2.moor.length + q.2.rel.length)).sum
  let mesh := (s.routers.map (fun q => q.2.inbox.length)).sum
  let edges := (s.edges.map (fun q => q.2.queue.length)).sum
  let s := ((s.sat (rk pgFab 0x264) moored).bump (rk pgFab 0x78) edges).bump (rk pgFab 0x70) mesh
  let rs := s.routers.map (·.1)
  let es := s.edges.map (·.1)
  let s := { s with routers := [], edges := [], bell := { s.bell with started := false, stepOpen := false, phaseM := false, lags := [] } }
  let s := rs.foldl (fun s r => (s.moorLevel r).setBit (rtrKey r 0) 1 false) s
  es.foldl (fun s e => s.edgeLevel e) s

/-- On a disable, after the open step's Bell (R158). -/
def State.fabStopping (s : State) : State :=
  if s.blk pgFab ≠ stStopping || s.bell.stepOpen || s.bell.rang then s else (s.fabEmpty).setBlk pgFab stIdle

/-- DISMISS of FAB: the Bell of the open step at once with its accounts, everything discarded, level 0 (R128, R159). -/
def State.fabDismiss (s : State) : State :=
  let s := if s.bell.stepOpen then s.ringBell false else s
  let s := s.bellAccounting
  let s := (s.cores.map (·.1)).foldl (fun s c => s.coreDismiss c) s
  (s.fabEmpty.sendShed 0 false).setFld (rk pgFab 0x124) 4 0 0

/-- R390: a fenced core's packets are discarded and counted, a fenced router's copies are consumed and counted. -/
def State.fenceCore (s : State) (c : Nat) : State :=
  if s.coreFenced c then s
  else
    let k := s.coreAt c
    (((s.setBit (rk pgSafe (0x200 + c / 32 * 4)) (c % 32) true).sat (coreKey c 0x28) k.inq.length).setCore c
      { idleSince := k.idleSince }).deferLevel c
def State.fenceRouter (s : State) (r : Nat) : State :=
  if s.rtrFenced r then s
  else
    let t := s.rtrAt r
    let s := (s.setBit (rk pgSafe (0x280 + r / 32 * 4)) (r % 32) true).sat (rtrKey r 0x24) t.inbox.length
    let t' := t.inbox.foldl (fun (u : Router) c => u.retired (s.inD c.2)) t
    ((s.setRtr r { t' with inbox := [], moor := [], rel := [] }).moorLevel r).fenceCore r

def execEdgeRecord (h : Fin 2) (s : State) : Out := .next (s.edgeRecord h)
def execEdgeInject (e : Fin 64) (s : State) : Out := .next (s.edgeInject e)
def execRouterCopy (r : Fin 1024) (e : BitVec 72) (s : State) : Out := .next (s.routerCopy r e)
def execWindowClose (s : State) : Out := .next s.windowClose
def execStepOpen (s : State) : Out := .next s.stepOpen
def execReductionRound (s : State) : Out := .next s.reductionRound
def execBellAccounting (s : State) : Out := .next s.bellAccounting
def execCountMismatch (s : State) : Out := .next s.countMismatch

end Sys2Proof.Machine
end

