-- ==== Sys2Proof/Machine/Stream.lean ====
section
/-! DEFINITION. Streams, rings and links: the records, their staging, the rings in host memory, the result windows, the TICK record,
and the resets of a port (R354 to R382, R496). -/

namespace Sys2Proof.Machine

/-! ### Records (R366 to R369) -/

/-- A register of ring block `r` (R381). -/
def ringKey (h r o : Nat) : Nat := rk (pgPort h) (0x300 + 0x40 * r + o)
/-- Staging sizes in bytes (R371). -/
def stageSize (r : Nat) : Nat := [1, 4, 64, 64, 1].getD r 0 * 0x100000
/-- The log2 of the least ring size (R366). -/
def leastSize (r : Nat) : Nat := [16, 22, 20, 20, 16].getD r 0

/-- A record that ends with its CRC (R367). -/
def withCrc (bs : List Byte) : List Byte := bs ++ leBytes 4 (crc32c bs)

/-- A framed record of `len` bytes (R368). -/
def frameBytes (len type flags seq fus : Nat) (payload : List Byte) : List Byte :=
  let hdr := leBytes 4 len ++ leBytes 2 type ++ leBytes 2 flags ++ leBytes 8 seq ++ leBytes 8 fus ++ zeros 8
  withCrc (hdr ++ payload ++ zeros (len - 36 - payload.length))

/-- The record of an item with sequence number `seq`. -/
def Offer.record (o : Offer) (seq : Nat) : List Byte :=
  if o.ring = 0 then withCrc (o.bytes ++ leBytes 8 seq ++ zeros 4)
  else frameBytes (roundUp (o.bytes.length + 36) 64) o.ring ((if o.unchecked then 1 else 0) + (if o.warm then 2 else 0)) seq o.fus o.bytes

def HostPort.ring (q : HostPort) (r : Nat) : Ring := SMap.get (fun _ => {}) q.rings r
def State.setRing (s : State) (h r : Nat) (g : Ring) : State :=
  let q := s.portAt h
  s.setPort h { q with rings := SMap.set (fun _ => {}) q.rings r g }
/-- Staged bytes. -/
def Ring.level (g : Ring) : Nat := (g.staged.map (fun d => d.bytes.length)).sum
/-- A ring's staging with its STAGE_LEVEL. -/
def State.setStage (s : State) (h r : Nat) (g : Ring) : State := (s.setRing h r g).wrN (ringKey h r 0x24) (g.level / 64)
/-- Records dropped, each with its sequence number consumed (R371). -/
def State.ringDrop (s : State) (h r n : Nat) : State :=
  if n = 0 then s else (s.sat (ringKey h r 0x20) n).event (pgPort h) 3

/-- A record is produced for a port whose ring is enabled, and staged or dropped whole. -/
def State.produceOn (s : State) (o : Offer) (h : Nat) : State :=
  if !s.bit (ringKey h o.ring 0) 0 then s
  else
    let seq := s.rd64 (ringKey h o.ring 0x18)
    let s := s.wr64 (ringKey h o.ring 0x18) (seq + 1)
    let g := (s.portAt h).ring o.ring
    let bs := o.record seq
    if stageSize o.ring < g.level + bs.length then s.ringDrop h o.ring 1
    else s.setStage h o.ring { g with staged := g.staged ++ [{ seq := seq, bytes := bs, fus := o.fus }] }

/-- An item is produced for both ports, and counted. -/
def State.produce (s : State) (o : Offer) : State :=
  [0, 1].foldl (fun s h => s.produceOn o h) (s.bump (rk pgStream (0x40 + 8 * o.ring)))

/-- STREAM_RECORD: the item offered first. -/
def State.streamRecord (s : State) : State :=
  match s.stream.offers with
  | [] => s
  | o :: os =>
    let s := { s with stream := { s.stream with offers := os } }
    if s.running pgStream then s.produce o else s

/-- Every item offered is produced. -/
def State.produceAll (s : State) : State :=
  s.stream.offers.foldl (fun s o => s.produce o) { s with stream := { s.stream with offers := [] } }

/-- A port's staged records are dropped (R379, R407, R496). -/
def State.dropStaged (s : State) (h : Nat) : State :=
  (List.range 5).foldl (fun s r =>
    let g := (s.portAt h).ring r
    if g.staged.isEmpty then s else (s.setStage h r { g with staged := [] }).ringDrop h r g.staged.length) s

/-! ### Rings in host memory (R368, R370) -/

/-- Bytes written into host memory. -/
def State.hostPut (s : State) (h a : Nat) (bs : List Byte) : State :=
  let q := s.portAt h
  s.setPort h { q with hostMem := SMap.setMany (fun _ => 0) q.hostMem a bs }

/-- Where a record goes: a TICK ring has one place per sequence number; another ring goes on at its offset, after a PAD record where the
record would cross the end. -/
def State.ringPlace (s : State) (h r : Nat) (d : Staged) : State × Nat :=
  let size := 2 ^ s.fld (ringKey h r 4) 4 0
  let base := s.rd64 (ringKey h r 8)
  let g := (s.portAt h).ring r
  if r = 0 then (s, d.seq % (size / 128) * 128)
  else if g.off + d.bytes.length ≤ size then (s, g.off)
  else ((s.hostPut h (base + g.off) (frameBytes (size - g.off) 0 0 d.seq d.fus [])).bump (rk (pgPort h) 0x70) ((size - g.off) / 64), 0)

/-- A record is written, then its head word; every IRQ_EVERY records the ring signals (R376). -/
def State.ringSend (s : State) (h r : Nat) (d : Staged) : State :=
  let size := 2 ^ s.fld (ringKey h r 4) 4 0
  let (s, off) := s.ringPlace h r d
  let s := s.hostPut h (s.rd64 (ringKey h r 8) + off) d.bytes
  let s := s.bump (rk (pgPort h) 0x70) (d.bytes.length / 64)
  let s := s.hostPut h (s.rd64 (ringKey h r 0x10)) (leBytes 8 d.seq ++ leBytes 4 off ++ zeros 4)
  let every := s.fld (ringKey h r 0) 31 16
  let g := (s.portAt h).ring r
  let s := s.setRing h r { g with off := (off + d.bytes.length) % size, since := if every ≤ g.since + 1 then 0 else g.since + 1 }
  if every ≠ 0 && every ≤ g.since + 1 then s.msix h (s.fld (ringKey h r 0) 13 8) else s

/-- Whether a port carries streams now (R371, R379). -/
def State.carries (s : State) (h : Nat) : Bool :=
  let q := s.portAt h
  q.link && !q.inReset && s.running pgStream && !s.halted pgStream && !s.halted (pgPort h) && s.blk (pgPort h) != stDismissing

/-- RING_WRITE: the first staged record in the order TICK, TRACK, LOG, GRID, TAP (R371). -/
def State.ringWrite (s : State) (h : Nat) : State :=
  if !s.carries h then s
  else match [0, 1, 4, 2, 3].find? (fun r => !((s.portAt h).ring r).staged.isEmpty) with
    | none => s
    | some r =>
      let g := (s.portAt h).ring r
      match g.staged with
      | [] => s
      | d :: ds =>
        let s := s.setStage h r { g with staged := ds }
        if s.bit (ringKey h r 0) 0 then s.ringSend h r d else s.ringDrop h r 1

/-! ### Ring registers (R381) -/

/-- Whether a ring's size, base and head address allow EN. -/
def State.ringOk (s : State) (h r : Nat) : Bool :=
  let k := s.fld (ringKey h r 4) 4 0
  decide (leastSize r ≤ k) && decide (k ≤ 30) && s.rd64 (ringKey h r 8) % 2 ^ k == 0 && s.rdN (ringKey h r 0x10) % 16 == 0

/-- A write of RING_CTRL: EN at any time, the other fields while EN is 0. -/
def State.ringCtrl (s : State) (h r : Nat) (v : Word) : State :=
  let k := ringKey h r 0
  let fields := v.toNat &&& 0xFFFF3F00
  if s.bit k 0 then
    let s := if fields = (s.rdN k) &&& 0xFFFF3F00 then s else s.cfgIgnored (pgPort h)
    s.setBit k 0 (v.getLsbD 0)
  else
    let s := s.wrN k fields
    if !v.getLsbD 0 then s
    else if s.ringOk h r then (s.setBit k 0 true).setRing h r { (s.portAt h).ring r with off := 0, since := 0 }
    else s.cfgIgnored (pgPort h)

/-! ### STREAM (R366, R369, R374, R375, R382) -/

def State.streamRefused (s : State) : Bool :=
  let stage := s.rd64 (rk pgStream 0x110)
  let res := s.rd64 (rk pgStream 0x118)
  !inLpddr stage 0x10C00000 || stage % 0x200000 != 0 || !inOpenCommons res 0x800 || res % 0x1000 != 0

/-- STREAM enters RUNNING. -/
def State.streamStart (s : State) : State :=
  { s with stream := { s.stream with offers := [], tap := [], tapSeen := [], winQ := [], w4At := s.now / 16 } }

/-- ENABLE = 0: what has been offered is produced; an open TAP block and updates that are due are discarded (log 50). -/
def State.streamStop (s : State) : State :=
  let s := s.produceAll
  { s with stream := { s.stream with tap := [], winQ := [] } }

/-- DISMISS of STREAM: what has been offered and the TAP block still filling are produced, and what is staged is dropped (R379). -/
def State.streamDismiss (s : State) : State :=
  let s := s.produceAll
  let s := match s.tapItem with
    | none => s
    | some o => ({ s with stream := { s.stream with tap := [] } }).produce o
  (s.dropStaged 0).dropStaged 1

/-- TAP_BLOCK_CLOSE: 256 records, or 2 µs of FUSION after the first. -/
def State.tapBlockClose (s : State) : State :=
  if !s.stream.tap.isEmpty && (decide (256 ≤ s.stream.tap.length) || decide (s.stream.tapFus + 32 ≤ s.now)) then s.tapClose else s

/-- A base of the network as seconds and ns (R374). -/
def State.netBytes (s : State) (b : Nat) : List Byte :=
  let ns := ((s.netAt b).value / (2 ^ 40 : Nat)).toNat
  leBytes 6 (ns / 10 ^ 9) ++ leBytes 4 (ns % 10 ^ 9)

/-- The content of window 4. -/
def State.window4 (s : State) : List Byte :=
  leBytes 8 s.time.tb0 ++ s.netBytes 0 ++ s.netBytes 1 ++ zeros 4 ++ leBytes 8 s.now

/-- The three writes of an update (R375). -/
def State.windowPut (s : State) (w : Nat) (d : List Byte) : State :=
  let a := s.rd64 (rk pgStream 0x118) + 0x100 * w
  let seq := SMap.get (fun _ => 0) s.stream.winSeq w
  let s := s.put mStream a (leBytes 8 (seq * 256))
  let s := s.put mStream (a + 8) (zeros 8 ++ (d ++ zeros 240).take 240)
  let s := s.put mStream a (leBytes 8 ((seq + 1) * 256 + 1))
  let s := { s with stream := { s.stream with winSeq := SMap.set (fun _ => 0) s.stream.winSeq w (seq + 1) } }
  s.bump (rk pgStream 0x68)

/-- RESULT_WINDOW: the update of a window that is due. -/
def State.resultWindow (s : State) (w : Nat) : State :=
  if !s.running pgStream then s
  else if w = 4 then
    if s.bit (rk pgStream 0x120) 4 && s.stream.w4At < s.now / 16 then
      ({ s with stream := { s.stream with w4At := s.stream.w4At + 1 } }).windowPut 4 s.window4
    else s
  else match s.stream.winQ.find? (fun e => e.1 == w) with
    | none => s
    | some e => ({ s with stream := { s.stream with winQ := s.stream.winQ.erase e } }).windowPut w e.2

/-- A write of STREAM_TAP_SENS: the first record of a sensor whose mask bit is set anew is copied. -/
def State.tapSens (s : State) (v : Word) : State :=
  let old := s.rdN (rk pgStream 0x104)
  let s := s.wrN (rk pgStream 0x104) (v.toNat &&& 0xFFFFFF)
  (List.range 16).foldl (fun s k =>
    if v.getLsbD k && !old.testBit k then
      { s with stream := { s.stream with tapSeen := SMap.set (fun _ => 0) s.stream.tapSeen k 0 } }
    else s) s

/-- A write of STREAM_RESULT_EN: updates due to a window that is cleared stop; window 4 starts with the next µs. -/
def State.resultEn (s : State) (v : Word) : State :=
  let rise := v.getLsbD 4 && !s.bit (rk pgStream 0x120) 4
  let s := s.wrN (rk pgStream 0x120) (v.toNat &&& 0x3F)
  { s with stream := { s.stream with
    winQ := s.stream.winQ.filter (fun e => v.getLsbD e.1)
    w4At := if rise then s.now / 16 else s.stream.w4At } }

/-! ### The TICK record (R24, R372, R373, R388) -/

/-- The highest class that is outstanding now (R387). -/
def State.classNow (s : State) : Nat :=
  if s.bit (rk pgSafe 0x104) 2 then 3 else if s.safe.out.isEmpty then 0 else 2

/-- The status word. A step whose Bell was forced carries COUNT_MISMATCH's class, CONTAINED, whenever SAFE classifies it (R152, R390). -/
def State.tickStatus (s : State) (t : StepRec) : Nat :=
  let b (v : Bool) (k : Nat) : Nat := if v then 2 ^ k else 0
  b (0 < t.overrun) 0 + b (0 < t.lag) 1 + b (0 < t.shed0 || 0 < t.shed1) 2 + b s.warmFlag 3 +
    b (s.trk.lastUnchk || (fieldLE s.grid.lastHdr 38 2).testBit 2) 4 + s.timeState * 32 + b s.inTerm 8 +
    max (if t.forced then 2 else 0) (max s.safe.tickMax s.classNow) * 512

/-- Bytes 0 to 111. -/
def State.tickBytes (s : State) (t : StepRec) (inc : List Word) : List Byte :=
  leBytes 8 t.step ++ leBytes 8 t.endFus ++ leBytes 4 (s.tickStatus t) ++ leBytes 4 (sat32 t.overrun) ++ leBytes 4 (sat32 t.lag) ++
    leBytes 4 t.shed0 ++ leBytes 4 t.shed1 ++ inc.flatMap (fun (w : Word) => leBytes 4 w.toNat) ++
    t.outs.flatMap (fun n => leBytes 4 n) ++ zeros 4 ++
    leBytes 8 (if s.trk.batchSeq = 0 then 2 ^ 64 - 1 else s.trk.batchSeq - 1) ++ zeros 8

/-- TICK_RECORD: the record of the oldest step whose Bell has been accounted; none while a HALT holds FAB (R157). -/
def State.tickRecord (s : State) : State :=
  match s.bell.ticks with
  | [] => s
  | t :: ts =>
    if s.running pgFab && s.halted pgFab then s
    else
      let (s, inc) := ({ s with bell := { s.bell with ticks := ts } }).stepIncrement t.step
      let d := s.tickBytes t inc
      let s := s.window 0 d
      let s := s.offer { ring := 0, bytes := d, fus := t.endFus, unchecked := false, warm := false }
      let s := { s with safe := { s.safe with
        out := s.safe.out.filter (fun o => o.page != pgFab || o.func || decide (t.step < o.step.getD 0)) } }
      { s with safe := { s.safe with tickMax := s.classNow } }

/-! ### Links and resets of a port (R371, R376, R496) -/

/-- PCIx_STATUS: role, LINK_UP, width, rate, in reset. -/
def State.portShow (s : State) (h : Nat) : State :=
  let q := s.portAt h
  let k := rk (pgPort h) 0x104
  ((s.setFld k 1 0 (s.role h)).setBit k 2 q.link).setBit k 11 q.inReset

/-- LINK_UP: once group 2 of the rails is in regulation and the port is out of reset (R491); held messages that no mask
holds are sent. -/
def State.linkUp (s : State) (h width rate : Nat) : State :=
  let q := s.portAt h
  if q.link || q.inReset || s.role h = 3 || !([6, 11, 12].all (fun n => s.bit (rk pgPwr 0x128) n)) then s
  else
    let s := s.setPort h { q.flushMsix with link := true }
    let s := (s.setFld (rk (pgPort h) 0x104) 6 3 width).setFld (rk (pgPort h) 0x104) 10 7 rate
    (s.portShow h).event (pgPort h) 1

/-- LINK_DOWN. -/
def State.linkDown (s : State) (h : Nat) : State :=
  let q := s.portAt h
  if !q.link then s
  else (((s.setPort h { q with link := false }).portShow h).bump (rk (pgPort h) 0x78)).event (pgPort h) 2

/-- What a PERST_N and a Function Level Reset return to reset (R496). -/
def State.portReset (s : State) (h : Nat) : State :=
  let s := s.dropStaged h
  let seqs := (List.range 5).map (fun r => s.rd64 (ringKey h r 0x18))
  let clr (s : State) (lo hi : Nat) : State := { s with regs := SMap.clear s.regs lo hi }
  let s := clr s (rk (pgPort h) 0x100) (rk (pgPort h) 0x104)
  let s := clr s (rk (pgPort h) 0x108) (rk (pgPort h) 0x500)
  let s := clr s (copyKey h 0 0) (copyKey (h + 1) 0 0)
  let s := clr s (latchKey h 0) (latchKey (h + 1) 0)
  let s := (List.range 5).foldl (fun s r => s.wr64 (ringKey h r 0x18) (seqs.getD r 0)) s
  s.setPort h { s.portAt h with rings := [], msixTbl := [], msixPend := [] }

/-- PERST_N: low takes the link down and resets the port; high lets it train. -/
def State.perst (s : State) (h : Nat) (high : Bool) : State :=
  if high then (s.setPort h { s.portAt h with inReset := false }).portShow h
  else
    let s := (s.linkDown h).portReset h
    (s.setPort h { s.portAt h with inReset := true }).portShow h

/-- FUNCTION_LEVEL_RESET, over a link that is up. -/
def State.functionReset (s : State) (h : Nat) : State := if (s.portAt h).link then s.portReset h else s

/-- LINK_FATAL: the port goes to FAULTED (R390). -/
def State.linkFatal (s : State) (h : Nat) : State :=
  let s := s.fault (pgPort h) 1 h
  if s.blk (pgPort h) = stOff then s else s.setBlk (pgPort h) stFaulted

def execTickRecord (s : State) : Out := .next s.tickRecord
def execRingEnable (h : Fin 2) (r : Fin 5) (v : Word) (s : State) : Out := .next (s.hostWrite h (·.ringCtrl h r v))
def execStreamRecord (s : State) : Out := .next s.streamRecord
def execRingWrite (h : Fin 2) (s : State) : Out := .next (s.ringWrite h)
def execTapBlockClose (s : State) : Out := .next s.tapBlockClose
def execResultWindow (w : Fin 8) (s : State) : Out := .next (s.resultWindow w)
def execLinkDown (h : Fin 2) (s : State) : Out := .next (s.linkDown h)
def execLinkUp (h : Fin 2) (width rate : BitVec 4) (s : State) : Out := .next (s.linkUp h width.toNat rate.toNat)
def execPerstN (h : Fin 2) (high : Bool) (s : State) : Out := .next (s.perst h high)
def execFunctionLevelReset (h : Fin 2) (s : State) : Out := .next (s.functionReset h)
def execLinkFatal (h : Fin 2) (s : State) : Out := .next (s.linkFatal h)

end Sys2Proof.Machine
end

