-- ==== Sys2Proof/Machine/Blocks.lean ====
section
/-! DEFINITION. What every block page can be told: enable, disable, halt, self-test, DISMISS (R364, R365, R456, R457, R475 to R477), with
the effects each block's chapter gives. -/

namespace Sys2Proof.Machine

/-- PWR_STATE.STATE (R428): 0 RUN, 1 ENTERING, 2 STOP, 3 WAKING. -/
def State.pwrState (s : State) : Nat := s.fld (rk pgPwr 0x104) 1 0
/-- Pages whose pads MOOR holds: TRIG, IMU and CAN (R416). -/
def heldPages : List Nat := [pgImu, pgCan 0, pgCan 1, pgCan 2, pgCan 3, pgTrig]
/-- Whether PWR holds a page in IDLE (R416, R463), or is between RUN and RUN (log 51). -/
def State.held (s : State) (p : Nat) : Bool :=
  (s.bit (rk pgPwr 0x104) 9 && heldPages.contains p) || s.pwrState != 0

/-- The DISMISSED bit of a page's BLK_EVENTS. -/
def dismissedBit (p : Nat) : Option Nat :=
  match pageKind p with
  | some .csi | some .eth | some .imu | some .can | some .trig | some .mem | some .clk => some 2
  | some .wheel | some .stream | some .quay => some 1
  | some .fab | some .grid | some .trk => some 10
  | some .eng0 | some .eng | some .eng4 => some 5
  | some .tt | some .ego => some 9
  | some .chain | some .pwr => some 6
  | some .time => some 11
  | some .commons | some .pci | some .sec => some 4
  | some .safe => some 7
  | some .dbg => some 3
  | _ => none

/-! ### Entering RUNNING -/

/-- Whether a block's chapter lets it run; a refusal sets its event. -/
def State.enableJudge (s : State) (p : Nat) : State × Bool :=
  let no (bad : Bool) (b : Nat) : State × Bool := if bad then (s.event p b, false) else (s, true)
  match pageKind p with
  | some .csi => no (s.csiRefused (p - 0x20)) 1
  | some .eth => no (s.ethRefused (p - 0x30)) 1
  | some .eng0 | some .eng | some .eng4 => no (s.engRefused (p - 0x12)) 1
  | some .grid => no s.gridRefused 1
  | some .trk => no s.trkRefused 1
  | some .chain => no s.chainRefused 1
  | some .ego => no s.egoRefused 1
  | some .time => no s.timeRefused 1
  | some .stream => no s.streamRefused 0
  | some .fab => s.fabCheck
  | _ => (s, true)

/-- A port's alignment unit starts when the port enters RUNNING, whether or not GRID runs (R241). -/
def State.portAlign (s : State) (u : Nat) : State := s.alignStart u

/-- What entering RUNNING does. -/
def State.startHook (s : State) (p : Nat) : State :=
  match pageKind p with
  | some .csi => (s.csiStart (p - 0x20)).portAlign (p - 0x20)
  | some .eth => (s.ethStart (p - 0x30)).portAlign (p - 0x20)
  | some .imu => s.imuStart
  | some .wheel => s.wheelStart
  | some .trig => s.trigStart
  | some .fend => s.fendStart (p - 0x1A)
  | some .fab => { s.fabStart with safe := { s.safe with tickMax := s.classNow } }
  | some .eng0 | some .eng | some .eng4 => s.engStart (p - 0x12)
  | some .grid => s.gridStart
  | some .trk => s.trkStart
  | some .chain => s.chainStart
  | some .ego => s.egoBegin
  | some .time => s.timeStart
  | some .stream => s.streamStart
  | some .mem => ((List.range 4).foldl (fun s c => s.canServe c) s).coefServe
  | some .commons => s.coefServe
  | _ => s

/-- A block enters RUNNING; a FUNCTION fault whose block has been dismissed ends (R387). -/
def State.enterRunning (s : State) (p : Nat) : State :=
  let s := (s.setBlk p stRunning).setBit (rk p 0x0C) 0 true
  let s := { s with safe := { s.safe with out := s.safe.out.filter (fun o => o.page != p || !o.dis) } }
  s.startHook p

/-- Writing ENABLE = 1 in IDLE (R475). -/
def State.enableWrite (s : State) (p : Nat) : State :=
  if s.held p then s.cfgIgnored p
  else match s.enableJudge p with
    | (s, true) => s.enterRunning p
    | (s, false) => s

/-! ### Leaving RUNNING and DISMISS -/

/-- The TICK records of every step whose Bell has been accounted. -/
def State.tickRecords (s : State) : State := s.bell.ticks.foldl (fun s _ => s.tickRecord) s

/-- DISMISS of an engine: of an active pair both engines are dismissed together (R188). -/
def State.engDismiss (s : State) (e : Nat) : State := ((s.engAbandon e).setEngBit e 3 false).setEngBit e 4 false

/-- The effects that a block's DISMISS rule gives. -/
def State.dismissHook (s : State) (p : Nat) : State :=
  match pageKind p with
  | some .csi => s.csiStop (p - 0x20)
  | some .eth => s.ethStop (p - 0x30)
  | some .imu => s.imuStop
  | some .wheel => s.wheelStop
  | some .can => s.canStop (p - 0x3A)
  | some .trig => s.trigStop
  | some .fend => s.fendDismiss (p - 0x1A)
  | some .fab => s.fabDismiss.tickRecords
  | some .eng0 | some .eng | some .eng4 => s.engDismiss (p - 0x12)
  | some .tt => s.ttDismiss
  | some .grid => s.gridDismiss
  | some .trk => s.trkDismiss
  | some .chain => s.chainDismiss
  | some .ego => s.egoDismiss
  | some .time => s.timeDismiss
  | some .pci => s.dropStaged (p - 8)
  | some .stream => s.streamDismiss
  | some .pwr => { s.setFld (rk pgPwr 0x104) 8 5 0 with pwr := { s.pwr with pend := none } }
  | _ => s

/-- What writing ENABLE = 0 does. A block whose chapter gives a disable no effect of its own leaves RUNNING with those of its DISMISS, and
a load in progress stays (log 52). -/
def State.stopHook (s : State) (p : Nat) : State :=
  match pageKind p with
  | some .fend => s.fendStop (p - 0x1A)
  | some .fab => s
  | some .eng0 | some .eng | some .eng4 => (s.engAbandon (p - 0x12)).pairBreak (p - 0x12)
  | some .tt =>
    let s' := ({ s with tt := { s.tt with loading := none } }).ttDismiss
    { s' with tt := { s'.tt with loading := s.tt.loading } }
  | some .trk => s.trkStop
  | some .chain => s.chainStop
  | some .pci => s
  | some .stream => s.streamStop
  | some .grid | some .ego | some .time => (s.dismissHook p).cmdDone p resDismissed
  | _ => s.dismissHook p

/-- Every block that masters LPDDR5X, other than SEC (R338, R477). -/
def memMasters : List Nat :=
  [8, 9, pgTT, pgGrid, pgTrk, pgChain, pgEgo] ++ (List.range 6).map pgEng ++ (List.range 24).map pgCsi ++ (List.range 4).map pgCan ++
    [pgStream]

/-- Writing ENABLE = 0 in RUNNING: STOPPING, then IDLE; FAB stays STOPPING until its open step has closed (R158). MEM takes it only while
no master of LPDDR5X works (R477). -/
def State.disableWrite (s : State) (p : Nat) : State :=
  if p = pgMem && memMasters.any (fun q => s.blk q != stOff && s.blk q != stIdle) then s.cfgIgnored p
  else
    let s := ((s.setBlk p stStopping).setBit (rk p 0x0C) 0 false).stopHook p
    if p = pgFab then s else s.setBlk p stIdle

/-- A FUNCTION fault of a block waits, after its DISMISS, for the block to run; a port's faults end with its DISMISS (R387, R389). -/
def State.faultsDismissed (s : State) (p : Nat) : State :=
  { s with safe := { s.safe with out :=
    (s.safe.out.filter (fun o => o.page != p || o.port.isNone)).map (fun o => if o.page = p then { o with dis := true } else o) } }

/-- A DISMISS of one block begins (R364): a test is abandoned, a command in progress is dismissed. -/
def State.dismissOne (s : State) (p : Nat) : State :=
  let s := if s.blk p = stTesting then (s.setBit (rk p 0x0C) 2 false).setFld (rk p 0x10) 5 4 3 else s
  let s := (s.setBlk p stDismissing).dismissHook p
  (s.cmdDone p resDismissed).faultsDismissed p

/-- A DISMISS completes: IDLE, or RUNNING for MEM and COMMONS (R349). -/
def State.dismissEnd (s : State) (p : Nat) : State :=
  let s := s.setBlk p stIdle
  let s := if p = pgMem || p = pgCommons then s.enterRunning p else s
  match dismissedBit p with
  | some b => s.event p b
  | none => s

/-- Whether a SYS DISMISS is in progress (R480). -/
def State.sysDismissing (s : State) : Bool := s.fld (rk pgSys 0x100) 3 0 == stDismissing

/-- SYS_DISMISS (R365, R415). -/
def State.sysDismiss (s : State) : State :=
  if s.sysDismissing || s.pwrState = 1 || s.pwrState = 3 then s
  else
    let ps := allPages.filter (fun p => p != pgSys && !keptPages.contains p && s.blk p != stOff)
    let s := s.setFld (rk pgSys 0x100) 3 0 (if ps.isEmpty then 0 else stDismissing)
    ps.foldl (fun s p => if s.blk p = stDismissing then s else s.dismissOne p) s

/-- BLK_DISMISS (R364, R415). -/
def State.blkDismiss (s : State) (p : Nat) : State :=
  if p = pgSys then s.sysDismiss
  else if (pageKind p).isNone || s.blk p = stOff || s.blk p = stDismissing || (s.sysDismissing && !keptPages.contains p) then s
  else if p = pgClk || p = pgQuay then (s.dismissOne p).dismissEnd p
  else if (s.pwrState = 1 || s.pwrState = 3) && p ≠ pgPwr then s
  else if 0x12 ≤ p && p < 0x18 && s.engBit (p - 0x12) 3 then
    let q := pgEng (partner (p - 0x12))
    (s.dismissOne p).dismissOne q
  else s.dismissOne p

/-- A write of BLK_DISMISS: any other value is ignored. -/
def State.dismissWrite (s : State) (h p : Nat) (v : Word) : State :=
  if p = pgPort (1 - h) then s.denied h
  else if v = 0x0D15 then s.blkDismiss p
  else s

/-- DISMISS_DONE: the block leaves DISMISSING; with the last of them a SYS DISMISS completes. -/
def State.dismissDone (s : State) (p : Nat) : State :=
  if p = pgSys || (pageKind p).isNone || s.blk p ≠ stDismissing then s
  else
    let s := s.dismissEnd p
    if s.sysDismissing && allPages.all (fun q => q == pgSys || keptPages.contains q || s.blk q != stDismissing) then
      s.setFld (rk pgSys 0x100) 3 0 0
    else s

/-! ### BLK_CTRL -/

/-- HALT is stored; DBG_HALT.ALL keeps every block halted, and what the owner halts directly stays halted after it (R448, R457). -/
def State.haltWrite (s : State) (p : Nat) (on : Bool) : State :=
  match pageKind p with
  | none => s
  | some k =>
    if !pageHalt k then s
    else
      let all := s.bit (rk pgDbg 0x104) 1
      let others := s.sec.haltedByDbg.filter (fun q => q != p)
      let s := if all then { s with sec := { s.sec with haltedByDbg := if on then others else others ++ [p] } } else s
      let rise := (on || all) && !s.halted p
      let s := s.setBit (rk p 0x0C) 1 (on || all)
      if rise && 0x12 ≤ p && p < 0x18 && s.running p then s.engHalted (p - 0x12) else s

/-- TEST written 1 (R456, R466, R477): a test discards working state as a DISMISS does. -/
def State.testWrite (s : State) (p : Nat) (en : Bool) : State :=
  let may := match pageKind p with
    | some k => pageTest k
    | none => false
  if may && s.blk p = stIdle && !s.enabled p && !en && !s.held p && !((p = pgEng 4 || p = pgEng 5) && s.margin ≠ 0) then
    (((s.setBlk p stTesting).setBit (rk p 0x0C) 2 true).dismissHook p).cmdDone p resDismissed
  else s.cfgIgnored p

/-- A write of BLK_CTRL (R475). -/
def State.ctrlWrite (s : State) (p : Nat) (v : Word) : State :=
  if p = pgSys || (pageKind p).isNone then s
  else
    let en := v.getLsbD 0
    let st := s.blk p
    let was := s.enabled p
    let s := s.haltWrite p (v.getLsbD 1)
    if st = stIdle && !was && en && v.getLsbD 2 then s.cfgIgnored p
    else
      let s := if v.getLsbD 2 then s.testWrite p en else s
      if en == was then s
      else if st = stIdle then s.enableWrite p
      else if st = stRunning then s.disableWrite p
      else s.cfgIgnored p

/-- TEST_END: TEST_RESULT, then IDLE, and what a result means to its block (R210, R268, R273, R403). -/
def State.testEnd (s : State) (p : Nat) (passed : Bool) : State :=
  if s.blk p ≠ stTesting then s
  else
    let s := ((s.setBit (rk p 0x0C) 2 false).setFld (rk p 0x10) 5 4 (if passed then 1 else 2)).setBlk p stIdle
    match pageKind p with
    | some .trk => s.trkTested passed
    | some .fab => if passed then { s with safe := { s.safe with fabTested := true } } else s
    | some .eng0 | some .eng | some .eng4 =>
      if passed then s.setWin (p - 0x12) { s.winOf (p - 0x12) with testedSince := true } else s
    | _ => s

/-- W1C bits of BLK_EVENTS or BLK_FAULTS (R470). -/
def State.eventsClear (s : State) (p : Nat) (faults : Bool) (v : Word) : State :=
  if (pageKind p).isNone then s
  else
    let k := rk p (if faults then 0x1C else 0x14)
    s.wr k (s.rd k &&& ~~~v)

/-- BLK_CTRL as a port writes it with one field changed. -/
def State.ctrlBits (s : State) (p : Nat) (en halt test : Bool) : State :=
  s.ctrlWrite p (BitVec.ofNat 32 ((if en then 1 else 0) + (if halt then 2 else 0) + (if test then 4 else 0)))

def execBlkDismiss (h : Fin 2) (p : Fin 64) (v : Word) (s : State) : Out := .next (s.hostWrite h (fun s => s.dismissWrite h p v))
def execSysDismiss (h : Fin 2) (v : Word) (s : State) : Out := .next (s.hostWrite h (fun s => s.dismissWrite h pgSys v))
def execDismissDone (p : Fin 64) (s : State) : Out := .next (s.dismissDone p)
def execBlkEnable (h : Fin 2) (p : Fin 64) (s : State) : Out :=
  .next (s.hostWrite h (fun s => s.ownerWrite h p (p != pgSys) (fun s => s.ctrlBits p true (s.halted p) false)))
def execBlkDisable (h : Fin 2) (p : Fin 64) (s : State) : Out :=
  .next (s.hostWrite h (fun s => s.ownerWrite h p (p != pgSys) (fun s => s.ctrlBits p false (s.halted p) false)))
def execBlkHalt (h : Fin 2) (p : Fin 64) (on : Bool) (s : State) : Out :=
  .next (s.hostWrite h (fun s => s.ownerWrite h p (p != pgSys) (fun s => s.ctrlBits p (s.enabled p) on false)))
def execBlkTest (h : Fin 2) (p : Fin 64) (s : State) : Out :=
  .next (s.hostWrite h (fun s => s.ownerWrite h p (p != pgSys) (fun s => s.ctrlBits p (s.enabled p) (s.halted p) true)))
def execTestEnd (p : Fin 64) (passed : Bool) (s : State) : Out := .next (s.testEnd p passed)
def execBlkEventsClear (h : Fin 2) (p : Fin 64) (faults : Bool) (v : Word) (s : State) : Out :=
  .next (s.hostWrite h (fun s => s.ownerWrite h p (v != 0) (fun s => s.eventsClear p faults v)))

end Sys2Proof.Machine
end

