-- ==== Sys2Proof/Machine/Safe.lean ====
section
/-! DEFINITION. SAFE: conditions, fault classes, classification, Roll Call, the clock and rail monitors and the HEALTHY pins
(R383 to R403, R497). -/

namespace Sys2Proof.Machine

/-! ### Conditions and limits (R6, R386, R400) -/

def State.lifecycleFails (s : State) : Bool := s.sec.fuses.lifecycle != 2 || s.sec.unlock.isSome
/-- Settings beyond their limits, by page. -/
def State.badSettings (s : State) : List Nat :=
  (if 16 < s.fld (rk pgTT 0x10C) 6 0 then [pgTT] else []) ++ (if 9600 < s.fld (rk pgFab 0x108) 15 0 then [pgFab] else [])

/-- SAFE_COND. DESIGN CHOICE (log 82): SUPPLY fails for as long as a tripped rail stands in SAFE_RAIL_FAIL, in range again or not. -/
def State.safeCond (s : State) : Nat :=
  let b (v : Bool) (k : Nat) : Nat := if v then 2 ^ k else 0
  b (s.rdN (rk pgSafe 0x148) != 0) 0 + b (!s.bit (rk pgPwr 0x130) 0) 1 + b (s.pwrState != 0 || s.pwr.stage != .idle) 2 +
    b s.lifecycleFails 3 + b (!s.badSettings.isEmpty) 4 + b (!s.bit (rk pgSafe 0x100) 0) 5

/-- Engines fenced (R214), cores and routers fenced, lane pairs fenced. -/
def popcount (n k : Nat) : Nat := ((List.range k).filter (fun i => n.testBit i)).length
def State.coreFences (s : State) : Nat := ((List.range 32).map (fun w => popcount (s.rdN (rk pgSafe (0x200 + 4 * w))) 32)).sum
def State.rtrFences (s : State) : Nat := ((List.range 32).map (fun w => popcount (s.rdN (rk pgSafe (0x280 + 4 * w))) 32)).sum
def State.laneFences (s : State) : Nat := popcount (s.rd64 (rk pgTrk 0x144)) 64
def State.engFences (s : State) : Nat := s.fld (rk pgTT 0x110) 5 0
/-- SAFE_FENCE_COUNT. -/
def State.fenceCount (s : State) : Nat := s.coreFences + s.rtrFences * 65536
/-- DEGRADED: some fence stands (R389). -/
def State.degraded (s : State) : Bool :=
  s.engFences != 0 || s.rd64 (rk pgTrk 0x144) != 0 || (List.range 64).any (fun w => s.rdN (rk pgSafe (0x200 + 4 * w)) != 0)

/-! ### HEALTHY (R396, R397) -/

/-- Whether nothing but the last round holds port `h`'s pin low. -/
def State.noCause (s : State) (h : Nat) : Bool :=
  let c := s.safeCond
  let c := if s.sec.fuses.lifecycle = 1 && s.bit (rk pgSafe 0x100) 1 then putBits c 3 3 0 else c
  c == 0 && !s.bit (rk pgSafe 0x104) 2 && s.safe.out.all (fun o => o.port != some h)

def State.setPin (s : State) (h : Nat) (v : Bool) : State :=
  if s.bit (rk pgSafe 0x104) h == v then s else (s.setBit (rk pgSafe 0x104) h v).event pgSafe (1 + h)

/-- A pin falls with a cause; once no cause is left, the next round to start may lift it. -/
def State.pinJudge (s : State) (h : Nat) : State :=
  let put (s : State) (v : Option Nat) : State := { s with safe := { s.safe with clean := SMap.set (fun _ => none) s.safe.clean h v } }
  if !s.noCause h then (put s none).setPin h false
  else match SMap.get (fun _ => none) s.safe.clean h with
    | some _ => s
    | none => put s (some (if s.safe.roundOpen then s.safe.round + 1 else s.safe.round))

/-- SAFE looks at its conditions again: SAFE_COND, SAFE_COND_PAGE, DEGRADED, the pins. -/
def State.safeShow (s : State) : State :=
  let c := s.safeCond
  let s := if c = s.rdN (rk pgSafe 0x108) then s else (s.wrN (rk pgSafe 0x108) c).event pgSafe 3
  let s := match s.badSettings with
    | [] => s.setBit (rk pgSafe 0x10C) 31 false
    | p :: _ => if s.bit (rk pgSafe 0x10C) 31 then s else s.wrN (rk pgSafe 0x10C) (0x80000000 + p)
  let d := s.degraded
  let s := if d && !s.bit (rk pgSafe 0x104) 3 then s.event pgSafe 6 else s
  let s := s.setBit (rk pgSafe 0x104) 3 d
  (s.pinJudge 0).pinJudge 1

/-- SAFE_OUT. -/
def State.safeOut (s : State) : Nat := (List.range 64).foldl (fun n p => if s.safe.out.any (fun o => o.page == p) then n + 2 ^ p else n) 0
/-- SAFE_STATUS as read. -/
def State.safeStatus (s : State) : Nat :=
  let n := putBits (s.rdN (rk pgSafe 0x104)) 3 3 (if s.degraded then 1 else 0)
  let n := putBits n 4 4 (if s.safe.out.isEmpty then 0 else 1)
  putBits n 5 5 (if s.safeCond = 0 then 1 else 0)

/-- A HEALTHY driver has had no refresh for 1 µs: the pin is low until a round that starts later passes. -/
def State.refreshLost (s : State) (h : Nat) : State :=
  ({ s with safe := { s.safe with clean := SMap.set (fun _ => none) s.safe.clean h none } }).setPin h false |>.pinJudge h

/-! ### Classes (R387, R390, R394, R395) -/

/-- A class: 1 CORRECTED, 2 CONTAINED, 3 DEVICE; FUNCTION scope; the port it is confined to. -/
structure FaultClass where
  cls  : Nat
  func : Bool := false
  port : Option Nat := none
deriving DecidableEq, Repr

def clsCorrected : FaultClass := { cls := 1 }
def clsRecord : FaultClass := { cls := 2 }
def clsFunction : FaultClass := { cls := 2, func := true }
def clsDevice : FaultClass := { cls := 3 }

/-- The class of a fault bit (R390). -/
def State.bitClass (s : State) (f : FaultIn) : FaultClass :=
  if 0x80 ≤ f.bit then (if f.bit = 0x83 then clsDevice else clsCorrected)
  else match pageKind f.page with
    | some .fab => if f.bit = 1 || f.bit = 2 then clsFunction else clsRecord
    | some .eng0 | some .eng | some .eng4 => clsCorrected
    | some .tt => if f.bit = 0 && !s.tt.degraded.contains f.inst then clsCorrected else clsFunction
    | some .trk => if f.bit = 0 then clsCorrected else clsRecord
    | some .grid | some .commons | some .stream => clsRecord
    | some .chain | some .ego => clsFunction
    | some .mem => if f.bit = 0 then clsCorrected else if f.bit = 3 then clsDevice else clsRecord
    | some .time => if f.bit = 1 then clsFunction else clsDevice
    | some .pci => { cls := 2, func := true, port := some (f.page - 8) }
    | _ => clsDevice

/-- The class of a Roll Call failure or stall (R394). Page 0x07 stands for MGMT (log 53). -/
def rcClass (f : FaultIn) : FaultClass :=
  match pageKind f.page with
  | some .eng0 | some .eng | some .eng4 => clsCorrected
  | some .fab => if f.bit = 4 then clsFunction else clsDevice
  | some .tt | some .chain | some .ego | some .dbg => clsFunction
  | some .pci => { cls := 2, func := true, port := some (f.page - 8) }
  | _ => clsDevice

/-- The class of a fault by its source (R497). -/
def State.faultClass (s : State) (f : FaultIn) : FaultClass :=
  match f.source with
  | 0 => s.bitClass f
  | 1 => rcClass f
  | 2 => match pageKind f.page with
    | some .clk => clsDevice
    | some .pci => { cls := 2, func := true, port := some (f.page - 8) }
    | _ => clsCorrected
  | 4 => clsCorrected
  | _ => clsDevice

/-! ### Responses (R390, R394) -/

/-- SAFE applies the effects of a DISMISS and leaves the block IDLE; the block's next entry into RUNNING recovers it (R387, R389). -/
def State.safeDismiss (s : State) (p : Nat) : State :=
  if s.blk p = stOff then s else (((s.dismissHook p).cmdDone p resDismissed).faultsDismissed p).setBlk p stIdle

/-- A core's or a router's fence. -/
def State.fence (s : State) (inst : Nat) : State :=
  let s := { s with safe := { s.safe with fabTested := false } }
  if 1024 ≤ inst then s.fenceRouter (inst % 1024) else s.fenceCore inst

/-- What SAFE does about a fault. -/
def State.respond (s : State) (f : FaultIn) (c : FaultClass) : State :=
  let engine := f.page - 0x12
  match pageKind f.page with
  | some .fab => if c.func then s.fence f.inst else s
  | some .eng0 | some .eng | some .eng4 => if f.source = 1 || f.source = 2 then s.ttFence engine 6 else s
  | some .tt => if c.func && !(f.source = 0 && f.bit = 0) then s.safeDismiss pgTT else s
  | some .chain | some .ego => if c.func then s.safeDismiss f.page else s
  | some .time => if c.func then s.discardSends f.inst else s
  | some .dbg => if f.source = 1 then { s with safe := { s.safe with thimumHeld := true } } else s
  | _ => s

/-- Whether a CONTAINED fault stays outstanding after its classification (R387). -/
def State.staysOut (s : State) (f : FaultIn) (c : FaultClass) : Bool :=
  c.func ||
    (f.charged == pgFab && (s.bell.stepOpen || s.bell.rang || s.bell.ticks.any (fun t => decide (f.step ≤ t.step)))) ||
    (f.charged == pgGrid && s.running pgGrid) || (f.charged == pgTrk && s.running pgTrk)

/-- INSTANCE: a router's number is its own. -/
def FaultIn.instance_ (f : FaultIn) : Nat := if f.page = pgFab then f.inst % 1024 else f.inst

/-- A fault record at an offset of the SAFE page (R401); an error response of a memory is the receiving block's (R391; log 112). -/
def State.putRecord (s : State) (o : Nat) (f : FaultIn) (c : FaultClass) : State :=
  let w := 0x80000000 + f.source % 16 * 2 ^ 24 + c.cls * 2 ^ 22 + (if c.func then 2 ^ 21 else 0) + (if c.port.isSome then 2 ^ 20 else 0) +
    f.bit % 256 * 256 + f.charged % 256
  ((s.wrN (rk pgSafe o) w).wrN (rk pgSafe (o + 4)) f.instance_).wr64 (rk pgSafe (o + 8)) f.fus

/-- Counts and flags of a classification. -/
def State.countFault (s : State) (cls : Nat) : State :=
  let s := s.bump (rk pgSafe (0x48 + 8 * cls))
  if cls = 1 then s.event pgSafe 4
  else if cls = 2 then s.event pgSafe 5
  else
    let s := s.setBit (rk pgSafe 0x104) 2 true
    if s.bit (rk pgSafe 0x1C) 2 then s else (s.setBit (rk pgSafe 0x1C) 2 true).signal pgSafe 0x20 2

/-- The LOG entry of a fault, or its place in the round's summary (R388). -/
def State.logFault (s : State) (f : FaultIn) (c : FaultClass) : State :=
  if c.cls = 1 && !s.bit (rk pgSafe 0x100) 2 then { s with safe := { s.safe with corrected := s.safe.corrected ++ [f.charged] } }
  else s.logAt 0 f.charged c.cls (f.source % 16 * 256 + f.bit % 256) [f.instance_] f.fus

/-- CMD_INJECT completes with the classification of its fault (R403). -/
def State.injectDone (s : State) (f : FaultIn) : State :=
  match s.safe.injWait with
  | some (p, r) =>
    if f.source = 1 && f.page = p && f.bit = r then
      ({ s with safe := { s.safe with injWait := none } }).cmdDone pgSafe resDone
    else s
  | none => s

/-- One fault is classified and acted on (R388). -/
def State.classify (s : State) (f : FaultIn) : State :=
  let c := s.faultClass f
  let s := s.countFault c.cls
  let s := s.putRecord 0x120 f c
  let s := if s.bit (rk pgSafe 0x110) 31 then s else s.putRecord 0x110 f c
  let s := s.logFault f c
  let out : List Outstanding := if c.cls = 2 && s.staysOut f c then
    [{ page := f.charged, func := c.func, port := c.port, step := if f.charged = pgFab && !c.func then some f.step else none }] else []
  let s := { s with safe := { s.safe with out := s.safe.out ++ out, tickMax := max s.safe.tickMax c.cls } }
  ((s.respond f c).injectDone f).safeShow

/-- The fault bits that a block's own checks set at a read or a compare that no command of its own stands for (R126, R142, R214, R247, R276,
R303, R306, R329, R380, R382, R390, R400, R427, R449). -/
def hwBit (k : PageKind) (b : Nat) : Bool :=
  match k with
  | .fab => b == 2
  | .tt => b == 1 || b == 2
  | .trk | .time => b == 1
  | .grid | .stream | .pwr | .pci => b == 0
  | .chain | .ego | .sec | .safe => decide (b < 2)
  | _ => false

/-- What goes with such a fault in its block: FAB names the core or router, a staged record of STREAM is dropped (R126, R142, R390; log 96). -/
def State.hwRaise (s : State) (p b inst : Nat) : State :=
  match pageKind p with
  | some .fab => if inst < 1024 then s.coreFault inst b else s.rtrFault (inst % 1024) b
  | some .stream =>
    let h := inst / 8 % 2
    let r := inst % 8 % 5
    let g := (s.portAt h).ring r
    let s := s.fault p b
    if g.staged.isEmpty then s else (s.setStage h r { g with staged := g.staged.drop 1 }).ringDrop h r 1
  | some .time => s.fault p b (inst % 2)
  | some .pci => s.fault p b (p - 8)
  | _ => s.fault p b

/-- A corrected error of a block's SRAM; a core and an engine count theirs (R126, R164, R390). -/
def State.hwCorrected (s : State) (p inst : Nat) : State :=
  let s := match pageKind p with
    | some .fab => if inst < 1024 then s.sat (coreKey inst 0x50) else s
    | some .eng0 | some .eng | some .eng4 => s.bump (rk p 0x70)
    | _ => s
  s.toSafe 0 p 0x80 0

/-- SAFE receives what the checks of a block that is not OFF have found (R388, R390, R497; log 114). -/
def State.hwFound (s : State) (f : HwFault) : State :=
  let p := f.page.val
  let b := f.bit.toNat
  match pageKind p with
  | none => s
  | some k =>
    if k = .sys then (if b = 0x82 || b = 0x83 then s.toSafe 0 p b 0 else s)
    else if s.blk p = stOff then s
    else if b = 0x80 then s.hwCorrected p f.inst
    else if hwBit k b then s.hwRaise p b f.inst
    else s

/-- FAULT_CLASSIFY: the fault received first, what a block's own checks have just found among those received. -/
def State.faultClassify (s : State) (found : Option HwFault) : State :=
  let s := match found with
    | some f => s.hwFound f
    | none => s
  match s.safe.inbox with
  | [] => s
  | f :: fs => ({ s with safe := { s.safe with inbox := fs } }).classify f

/-! ### Roll Call (R392 to R394, R402) -/

/-- Pages that take part in Roll Call. -/
def State.inRollCall (s : State) (p : Nat) : Bool :=
  (pageKind p).isSome && p != pgSafe && p != pgQuay && !((p == 8 || p == 9) && s.role (p - 8) == 3)

/-- SAFE runs once REF does; the request reaches no block in STOP and WAKING (log 54). -/
def State.roundsRun (s : State) : Bool :=
  s.pwrState < 2 && s.pwr.stage != .awaitCoolant && s.pwr.stage != .awaitRef

/-- ROLL_CALL: a round starts at each multiple of 10 µs. -/
def State.rollCall (s : State) : State :=
  let f := s.safe
  if !s.roundsRun || f.roundOpen || (f.round ≠ 0 && s.time.tb0 < f.roundAt + 10000) then s
  else { s with safe := { f with roundOpen := true, roundAt := s.time.tb0 / 10000 * 10000 } }

/-- A Roll Call failure or stall is counted, shown and received as a fault. -/
def State.rcFault (s : State) (p reason inst : Nat) : State :=
  let s := s.bump (rk pgSafe 0x48)
  let s := s.wrN (rk pgSafe 0x140) (0x80000000 + inst % 1024 * 65536 + reason * 256 + p)
  s.toSafe 1 p reason inst

/-- The reason codes of SAFE_RC_FAIL_LAST. -/
def rcCode : RcFail → Nat
  | .noAnswer => 1
  | .signature => 2
  | .status => 3

/-- One answer that fails. TIME's copies that disagree raise COPY_MISMATCH (R390; log 55). -/
def State.rcFail (s : State) (p : Nat) (r : RcFail) (unit : Nat) : State :=
  if p = pgTime && r = .status then (s.bump (rk pgSafe 0x48)).fault pgTime 0
  else s.rcFault p (rcCode r) (if p = pgFab then unit % 1024 else 0)

/-- Result window 5 (R402). -/
def State.window5 (s : State) : List Byte :=
  let r (o n : Nat) : List Byte := (List.range n).flatMap (fun i => leBytes 4 (s.rdN (rk pgSafe (o + 4 * i))))
  leBytes 4 s.safeStatus ++ leBytes 4 s.safeCond ++ r 0x138 2 ++ r 0x110 4 ++ r 0x120 4 ++ leBytes 8 s.safeOut ++ r 0x50 6 ++
    leBytes 4 s.fenceCount ++ leBytes 1 s.engFences ++ leBytes 1 s.laneFences

/-- The summary of the round's CORRECTED faults (R497). -/
def State.logSummary (s : State) : State :=
  match s.safe.corrected with
  | [] => s
  | p :: ps =>
    ({ s with safe := { s.safe with corrected := [] } }).log 0 pgSafe 1 0x600 [ps.length + 1, p, (p :: ps).getLast!]

/-- A pin rises at the end of a round that started after its last cause and has no DEVICE failure. -/
def State.pinLift (s : State) (r h : Nat) : State :=
  match SMap.get (fun _ => none) s.safe.clean h with
  | some c => if c ≤ r && s.safe.lastPass && s.noCause h then s.setPin h true else s
  | none => s

/-- ROLL_CALL_DEADLINE: 2 µs after a round's start. -/
def State.rollCallEnd (s : State) (fails : List (Nat × RcFail × Nat)) : State :=
  if !s.safe.roundOpen || s.time.tb0 < s.safe.roundAt + 2000 then s
  else
    let inj : List (Nat × RcFail × Nat) := match s.safe.inject with
      | some (p, k) => [(p, if k = 1 then RcFail.noAnswer else RcFail.signature, 0)]
      | none => []
    let fs := (fails ++ inj).filter (fun e => s.inRollCall e.1)
    let dev := fs.any (fun e => (rcClass { source := 1, page := e.1, bit := rcCode e.2.1, inst := 0, fus := 0, step := 0 }).cls == 3)
    let s := fs.foldl (fun s e => s.rcFail e.1 e.2.1 e.2.2) s
    let r := s.safe.round
    let s := { s with safe := { s.safe with inject := none, roundOpen := false, round := r + 1, lastPass := !dev } }
    let s := (s.bump (rk pgSafe 0x40)).wr64 (rk pgSafe 0x138) r
    let s := s.setBit (rk pgSafe 0x104) 6 fs.isEmpty
    let s := s.safeShow
    let s := (([0, 1].foldl (fun s h => if dev then s.setPin h false else s.pinLift r h) s)).logSummary
    s.window 5 s.window5

/-- WATCHDOG: the progress watchdog of a block, core or router. A halted block holds no work (R457). -/
def State.watchdogFire (s : State) (p unit : Nat) (router : Bool) : State :=
  if !s.inRollCall p || s.halted p then s
  else s.rcFault p 4 (if p = pgFab then unit % 1024 + (if router then 1024 else 0) else 0)

/-! ### Clock and rail monitors (R395) -/

/-- The frequency set for a domain, in kHz, in the order of SAFE_CLK_FAIL (R27, R186, R424). -/
def State.setKhz (s : State) (d : Nat) : Nat :=
  if 2 ≤ d && d < 8 then s.engFreq (d - 2) * 100000
  else [50000, 2000000, 0, 0, 0, 0, 0, 0, 1200000, 1200000, 400000, 1200000, 1000000, 1000000, 1000000, 1000000, 390625, 390625,
    500000, 800000, 400000, 2000000].getD d 0

/-- The page a domain's failure is charged to (R497). -/
def clkPage (d : Nat) : Nat := if 2 ≤ d && d < 8 then pgEng (d - 2) else if d = 12 || d = 13 then d - 4 else pgClk

/-- A domain is watched while it is clocked: REF always, the others with their PLL locked and their clock not gated (log 56). -/
def State.watched (s : State) (d : Nat) : Bool :=
  s.roundsRun && (d == 0 || s.bit (rk pgClk 0x100) d) && !s.bit (rk pgClk 0x104) d

/-- One domain's window: it fails in its second window beyond 5 %, or when it stops. -/
def State.clockWindow (s : State) (d : Nat) (khz : Option Nat) : State :=
  if !s.watched d then s
  else
    let f := khz.getD 0
    let set_ := s.setKhz d
    let s := s.wrN (rk pgClk (0x200 + 4 * d)) f
    let old := SMap.get (fun _ => 0) s.safe.clkRun d
    let far := decide (set_ < 20 * (f - set_)) || decide (set_ < 20 * (set_ - f))
    let run := if khz.isNone then 2 else if far then min 2 (old + 1) else 0
    let s := { s with safe := { s.safe with clkRun := SMap.set (fun _ => 0) s.safe.clkRun d run } }
    if run = 2 && old ≠ 2 then
      ((s.setBit (rk pgSafe 0x144) d true).bump (rk pgSafe 0x68)).toSafe 2 (clkPage d) (if khz.isNone then 2 else 1) d
    else s

/-- CLOCK_MONITOR: the measurements of a window of 2 µs, by domain; a window is measured once (R395, log 113). -/
def State.clockMonitor (s : State) (khz : List (Option Nat)) : State :=
  if s.nsNow / 2000 < s.safe.clkAt then s
  else
    (List.range 22).foldl (fun s d => match khz[d]? with
      | some k => s.clockWindow d k
      | none => s) { s with safe := { s.safe with clkAt := s.nsNow / 2000 + 1 } }

/-- RAIL_TRIP: a rail that is up; VDD_ENGB is not compared while it moves. -/
def State.railTrip (s : State) (n : Nat) (above : Bool) : State :=
  if !s.bit (rk pgPwr 0x128) n || (n = 2 && (s.margin = 1 || s.margin = 3)) then s
  else
    (((s.setBit (rk pgSafe 0x148) n true).bump (rk pgSafe 0x70)).toSafe 3 pgPwr (if above then 2 else 1) n).safeShow

/-! ### Commands (R403) -/

def State.safeRefuse (s : State) (c : Nat) : State := (s.wrN (rk pgSafe 0x154) c).cmdDone pgSafe resRefused c

/-- CMD_CLEAR_FIRST. -/
def State.clearFirst (s : State) : State :=
  ((List.range 4).foldl (fun s i => s.wrN (rk pgSafe (0x110 + 4 * i)) 0) s).cmdDone pgSafe resDone

/-- CMD_INJECT. -/
def State.injectCmd (s : State) : State :=
  let p := s.arg pgSafe 0 % 256
  let k := s.arg pgSafe 1 % 4
  let u := s.arg pgSafe 2
  if s.sec.fuses.lifecycle ≠ 1 then s.safeRefuse 1
  else if k = 0 || !s.inRollCall p then s.safeRefuse 3
  else
    let s := { s with safe := { s.safe with injWait := some (p, if k = 3 then 4 else k) } }
    if k = 3 then s.rcFault p 4 (if p = pgFab then u % 1024 + (if u.testBit 16 then 1024 else 0) else 0)
    else { s with safe := { s.safe with inject := some (p, k) } }

/-- CMD_UNFENCE_FAB. -/
def State.unfenceFab (s : State) : State :=
  if s.coreFences = 0 && s.rtrFences = 0 then s.cmdDone pgSafe resDone
  else if s.blk pgFab = stIdle && s.safe.fabTested then
    (({ s with regs := SMap.clear s.regs (rk pgSafe 0x200) (rk pgSafe 0x300) }).cmdDone pgSafe resDone).safeShow
  else s.safeRefuse 2

def execRollCall (s : State) : Out := .next s.rollCall
def execRollCallDeadline (fails : List (Fin 64 × RcFail × Nat)) (s : State) : Out :=
  .next (s.rollCallEnd (fails.map (fun e => (e.1.val, e.2))))
def execWatchdog (p : Fin 64) (unit : Nat) (router : Bool) (s : State) : Out := .next (s.watchdogFire p unit router)
def execFaultClassify (s : State) (found : Option HwFault := none) : Out := .next (s.faultClassify found)
def execClockMonitor (khz : List (Option Nat)) (s : State) : Out := .next (s.clockMonitor khz)
def execRailTrip (n : Fin 14) (above : Bool) (s : State) : Out := .next (s.railTrip n above)
def execHealthyRefreshLost (h : Fin 2) (s : State) : Out := .next (s.refreshLost h)
def execCmdClearFirst (h : Fin 2) (s : State) : Out := .next (s.hostCmd h pgSafe 1 false (some (·.clearFirst)))
def execCmdInject (h : Fin 2) (s : State) : Out := .next (s.hostCmd h pgSafe 2 false (some (·.injectCmd)))
def execCmdUnfenceFab (h : Fin 2) (s : State) : Out := .next (s.hostCmd h pgSafe 3 false (some (·.unfenceFab)))

end Sys2Proof.Machine
end

