-- ==== Sys2Proof/Machine/Trust.lean ====
section
/-! DEFINITION. SEC and DBG: boot, lifecycle, tamper, attestation, debug unlock, JTAG and debug halts (R432 to R452). -/

namespace Sys2Proof.Machine

/-! ### Firmware (R434 to R437) -/

/-- Whether the key that follows the header is live for the lifecycle state (R442): the manufacturing key in BLANK and RETURN, a firmware
slot in DEVELOP and PRODUCTION, none in SCRAPPED. -/
def Fuses.fwKey (f : Fuses) (slot : Nat) (key : List Byte) : Bool :=
  match f.lifecycle with
  | 0 | 3 => !f.mfgKey.isEmpty && f.mfgKey == sha3 key
  | 1 | 2 => decide (slot < 4) && keyLive f.fKeys f.fRevoked slot key
  | _ => false

/-- The body's length in an image's header. -/
def fwLength (img : List Byte) : Nat := fieldLE img 12 4
/-- Whether a length is a multiple of 64 from 64 to 16 MiB. -/
def fwLengthOk (n : Nat) : Bool := n % 64 == 0 && decide (64 ≤ n) && decide (n ≤ 0x1000000)

/-- The checks of R437 in their order: the state with the signature counted, and the first code, 0 where none. -/
def State.fwVerify (s : State) (img : List Byte) : State × Nat :=
  let f := s.sec.fuses
  let n := fwLength img
  if fieldLE img 0 4 ≠ 0x5A574657 || fieldLE img 4 2 ≠ 1 || fieldLE img 6 1 ≠ (if f.mlDsa65 then 1 else 0) || !fwLengthOk n then (s, 1)
  else if !f.fwKey (fieldLE img 7 1) ((img.drop 128).take f.pkLen) then (s, 2)
  else if fieldLE img 8 4 < f.rollback then (s, 3)
  else if !s.sigGood ctxFw (img.take 128) (img.drop 128) then (s.verified false, 4)
  else if sha3 ((img.drop 8192).take n) ≠ (img.drop 32).take 32 then (s.verified true, 5)
  else (s.verified true, 0)

/-- Thimum is released with a verified image. -/
def State.fwRelease (s : State) (img : List Byte) : State :=
  let slot := if s.sec.fuses.lifecycle = 0 || s.sec.fuses.lifecycle = 3 then none else some (fieldLE img 7 1)
  let s := { s with sec := { s.sec with fwSlot := slot, fwImage := img, running := true } }
  let s := s.wrN (rk pgSec 0x108) (1 + fieldLE img 8 4 % 256 * 65536)
  s.extend 1 1 (fieldLE img 7 1) (sha3 (img.take 128))

/-- A fresh nonce (R447). -/
def State.makeNonce (s : State) : State :=
  let n := (Config.nonce s.sec.nonces ++ zeros 32).take 32
  let s := { s with sec := { s.sec with nonces := s.sec.nonces + 1 } }
  (List.range 8).foldl (fun s i => s.wrN (rk pgDbg (0x120 + 4 * i)) (fieldLE n (4 * i) 4)) s
/-- The current nonce, zero once consumed. -/
def State.nonce (s : State) : List Byte := (List.range 8).flatMap (fun i => leBytes 4 (s.rdN (rk pgDbg (0x120 + 4 * i))))
def State.spendNonce (s : State) : State := (List.range 8).foldl (fun s i => s.wrN (rk pgDbg (0x120 + 4 * i)) 0) s

/-- A fuse job's effect (R443, R444, R450). -/
def FuseJob.apply (j : FuseJob) (f : Fuses) : Fuses :=
  match j with
  | .lifecycle t => { f with lifecycle := t }
  | .provision b => { f with
      lifecycle := 1, mlDsa65 := b.mlDsa65, fKeys := (b.fKeys ++ [[], [], [], []]).take 4, mKeys := (b.mKeys ++ [[], [], [], []]).take 4
      debugKey := b.debugKey }
  | .revoke k => if k < 4 then { f with fRevoked := f.fRevoked ||| 2 ^ k } else { f with mRevoked := f.mRevoked ||| 2 ^ (k - 4) }

/-- Programming ends: the fuses take the values, and a transition extends M5 and shows in SAFE_COND (R444). -/
def State.fuseEnd (s : State) (j : FuseJob) : State :=
  let old := s.sec.fuses.lifecycle
  let s := { s with sec := { s.sec with fuses := j.apply s.sec.fuses, job := none } }
  match j with
  | .revoke _ => s
  | _ =>
    let t := s.sec.fuses.lifecycle
    ((s.extend 5 5 t (sha3 (leBytes 1 old ++ leBytes 1 t))).event pgSec 1).safeShow

/-- What the fuses hold, as M0 takes it (log 8). -/
def Fuses.image (f : Fuses) : List Byte :=
  leBytes 1 f.lifecycle ++ leBytes 1 (if f.mlDsa65 then 1 else 0) ++
    ((f.fKeys ++ f.mKeys ++ [f.debugKey, f.mfgKey]).flatMap (fun k => (k ++ zeros 32).take 32)) ++
    leBytes 1 (f.fRevoked + 16 * f.mRevoked) ++ leBytes 1 (if f.debugRevoked then 1 else 0) ++ leBytes 1 f.rollback

/-- The ROM starts (R434, R439, R444): a transition that was cut off is completed, M0 and M2 are extended, a nonce is made. -/
def State.romStart (s : State) : State :=
  let s := match s.sec.job with
    | some j => s.fuseEnd j
    | none => s
  let s := { s with sec := { s.sec with running := false, secrets := true } }
  let s := s.setBlk pgSec stIdle
  let s := s.wrN (rk pgSec 0x108) 0
  let s := (s.extend 0 0 0 (sha3 s.sec.fuses.image)).extend 2 2 0 (sha3 (leBytes 4 (s.rdN (rk pgSys 0x104))))
  let s := s.makeNonce
  if s.bit (rk pgSys 0x104) 2 && s.sec.fuses.lifecycle ≠ 4 then s.setFld (rk pgSec 0x108) 1 0 2 else s

/-- Whether the ROM waits for an image. -/
def State.romWaits (s : State) : Bool := s.pwr.stage == .firmware && s.pwr.full && !s.sec.running && s.sec.fuses.lifecycle != 4

/-- BOOT: the image in the NOR; one that fails leaves the ROM waiting for the host. -/
def State.boot (s : State) (img : List Byte) : State :=
  if !s.romWaits || s.fld (rk pgSec 0x108) 1 0 ≠ 0 then s
  else match s.fwVerify img with
    | (s, 0) => s.fwRelease img
    | (s, c) => (s.setFld (rk pgSec 0x108) 15 8 c).setFld (rk pgSec 0x108) 1 0 2

/-! ### Commands of SEC (R443, R450) -/

/-- A tamper response is in progress (R348, R443). -/
def State.tampering (s : State) : Bool := s.sec.tamperResp && s.bit (rk pgCommons 0x100) 1

/-- The secure bank's wipe, by its cause. -/
def State.secWipe (s : State) (cause : Nat) : State :=
  let t := s.tampering || cause = 1
  { s.wipeStart cause with sec := { s.sec with tamperResp := t } }

def State.secRefuse (s : State) (c : Nat) : State := (s.wrN (rk pgSec 0x120) c).cmdDone pgSec resRefused c

/-- Every command is refused with code 5 outside RUN, and with code 6 during a tamper response. -/
def State.secCmd (s : State) (f : State → State) : State :=
  if s.pwrState ≠ 0 then s.secRefuse 5 else if s.tampering then s.secRefuse 6 else f s

/-- Bytes that SEC reads; an error response reads as none. -/
def State.secLoad (s : State) (a n : Nat) : State × List Byte :=
  match s.load mSec a n with
  | (s, some bs) => (s, bs)
  | (s, none) => (s, [])

/-- CMD_BOOT: the image at SEC_LOAD_BASE. -/
def State.bootCmd (s : State) : State :=
  if s.sec.fuses.lifecycle = 4 then (s.setFld (rk pgSec 0x108) 15 8 2).secRefuse 2
  else
    let a := s.rd64 (rk pgSec 0x118) / 0x1000 * 0x1000
    let (s, hdr) := s.secLoad a 8192
    let n := fwLength hdr
    let (s, body) := if fwLengthOk n then s.secLoad (a + 8192) n else (s, [])
    match s.fwVerify (hdr ++ body) with
    | (s, 0) => (s.fwRelease (hdr ++ body)).cmdDone pgSec resDone
    | (s, c) => (s.setFld (rk pgSec 0x108) 15 8 c).secRefuse c

/-- Fuse programming begins. -/
def State.fuseBegin (s : State) (j : FuseJob) : State := { s with sec := { s.sec with job := some j, jobAt := s.time.tb0 } }

/-- CMD_PROVISION. -/
def State.provision (s : State) (b : ProvBlock) : State :=
  if s.sec.fuses.lifecycle ≠ 0 then s.secRefuse 1 else (s.secWipe 2).fuseBegin (.provision b)

/-- What a token says and whether its signature is good (R447). -/
structure Token where
  magic : Nat
  device : List Byte
  nonce : List Byte
  scope : Nat
  validity : Nat
  key   : List Byte
  good  : Bool
deriving DecidableEq, Repr

/-- A token's bytes: body, public key, signature. -/
def State.token (s : State) (bs : List Byte) : Token :=
  let (m, d, n, sc, v) := Config.tokenBody (bs.take 128)
  { magic := m, device := d, nonce := n, scope := sc % 8, validity := v, key := (bs.drop 128).take s.sec.fuses.pkLen
    good := s.sigGood ctxDbg (bs.take 128) (bs.drop 128) }

def tokenLength (s : State) : Nat := 128 + s.sec.fuses.pkLen + s.sec.fuses.sigLen

/-- Whether a token names the current nonce, which is not spent. -/
def State.nonceGood (s : State) (t : Token) : Bool := t.nonce == s.nonce && s.nonce != zeros 32

/-- Whether a return token verifies (R443). -/
def State.returnGood (s : State) (t : Token) : Bool :=
  t.magic == 0x5A574454 && !s.sec.fuses.mfgKey.isEmpty && s.sec.fuses.mfgKey == sha3 t.key && t.good &&
    t.device == s.sec.fuses.deviceId && s.nonceGood t

/-- CMD_LIFECYCLE. -/
def State.lifecycleCmd (s : State) : State :=
  let f := s.sec.fuses
  let go (s : State) (t : Nat) : State := (s.secWipe 2).fuseBegin (.lifecycle t)
  match s.arg pgSec 0 % 8 with
  | 2 =>
    if f.lifecycle ≠ 1 then s.secRefuse 1
    else if f.fKeys.all (·.isEmpty) || f.mKeys.all (·.isEmpty) || f.debugKey.isEmpty then s.secRefuse 2
    else if s.sec.fwSlot.isNone then s.secRefuse 3
    else go s 2
  | 3 =>
    if f.lifecycle ≠ 2 then s.secRefuse 1
    else
      let (s, bs) := s.secLoad (s.argAddr pgSec 1) (tokenLength s)
      let t := s.token bs
      let s := s.verified t.good
      if s.returnGood t then go s 3 else s.secRefuse 4
  | 4 => if f.lifecycle ≠ 3 then s.secRefuse 1 else go s 4
  | _ => s.secRefuse 1

/-- FUSE_PROGRAMMED: 40 ms after the start. -/
def State.fuseProgrammed (s : State) : State :=
  match s.sec.job with
  | none => s
  | some j => if s.time.tb0 < s.sec.jobAt + 40000000 then s else (s.fuseEnd j).cmdDone pgSec resDone

/-- Firmware slots that are programmed and not revoked. -/
def Fuses.liveF (f : Fuses) : List Nat := (List.range 4).filter (fun k => !(f.fKeys.getD k []).isEmpty && !f.fRevoked.testBit k)

/-- CMD_REVOKE; a slot above 7 names nothing and is refused (log 57). -/
def State.revoke (s : State) : State :=
  let k := s.arg pgSec 0 % 16
  if 8 ≤ k then s.secRefuse 0
  else if s.sec.fuses.liveF = [k] then s.secRefuse 7
  else s.fuseBegin (.revoke k)

/-- CMD_SVN_COMMIT: the rollback count rises to the running SVN. -/
def State.svnCommit (s : State) : State :=
  let v := s.fld (rk pgSec 0x108) 23 16
  ({ s with sec := { s.sec with fuses := { s.sec.fuses with rollback := max s.sec.fuses.rollback v } } }).cmdDone pgSec resDone

/-- CMD_EXTEND. -/
def State.extendCmd (s : State) : State :=
  let i := 6 + s.arg pgSec 0 % 2
  match s.load mSec (s.argAddr pgSec 1) 32 with
  | (s, some d) => (s.extend i 7 0 d).cmdDone pgSec resDone
  | (s, none) => s.secRefuse 0

/-! ### Attestation (R441) -/

/-- What an answer is made from: the device key, the measurements, the lifecycle state and the rollback count. -/
def State.spdmData (s : State) : List Byte :=
  (if s.sec.secrets then Config.deviceKey s.sec.fuses.lifecycle else []) ++ (List.range 8).flatMap s.measure ++
    leBytes 1 s.sec.fuses.lifecycle ++ leBytes 1 s.sec.fuses.rollback

def spdmCode : SpdmReq → Nat
  | .getVersion => 0
  | .getCapabilities => 1
  | .negotiateAlgorithms => 2
  | .getDigests => 3
  | .getCertificate => 4
  | .challenge => 5
  | .getMeasurements => 6
  | .other => 7

/-- SPDM_REQUEST: an active port's request is answered; every other request is answered with ERROR UnsupportedRequest (log 58). -/
def State.spdm (s : State) (h : Nat) (r : SpdmReq) : State :=
  if !(s.portAt h).link || s.role h = 3 || s.blk pgSec = stOff || 2 ≤ s.pwrState then s
  else
    let c := SMap.get (fun _ => 0) s.sec.spdmConn h
    let c' := match r with
      | .getVersion => 1
      | .getCapabilities => if 1 ≤ c then max c 2 else c
      | .negotiateAlgorithms => if 2 ≤ c then 3 else c
      | _ => c
    let ans := if r = .other then [0x13, 0x7F, 0x07, 0x00] else Config.spdmBody (spdmCode r) s.spdmData
    ({ s with sec := { s.sec with
      spdmConn := SMap.set (fun _ => 0) s.sec.spdmConn h c', spdmOut := s.sec.spdmOut ++ [ans] } }).bump (rk pgSec 0x58)

/-! ### Tamper (R445) -/

def detectorCode : Detector → Nat
  | .voltage => 0
  | .clock => 1
  | .temperature => 2

/-- A trip is latched in SEC_TAMPER and in the AON store, counted, and wipes the bank. -/
def State.tamperLatch (s : State) (n : Nat) : State :=
  let s := (s.setBit (rk pgSec 0x114) n true).bump (rk pgSec 0x60)
  let p : Power := { s.pwr with aonCause := 0x70 + n }
  (({ s with pwr := p }).event pgSec 2).secWipe 1

/-- A lifecycle command or CMD_PROVISION is programming fuses; CMD_REVOKE is neither (R443, R445). -/
def State.transiting (s : State) : Bool :=
  match s.sec.job with
  | some (.lifecycle _) => true
  | some (.provision _) => true
  | _ => false

/-- The response to a trip; a transition in progress completes refused. -/
def State.tamperRespond (s : State) (n : Nat) : State :=
  let s := { s with sec := { s.sec with secrets := false } }
  let s := s.extend 5 6 n (sha3 (leBytes 1 n ++ leBytes 8 s.time.tb0))
  let s := if s.transiting then ({ s with sec := { s.sec with job := none } }).secRefuse 6 else s
  if s.sec.fuses.lifecycle = 2 then s.toSafe 5 pgSec (0x10 + n) 0 else s

/-- TAMPER: a trip during the response is latched and absorbed. -/
def State.tamper (s : State) (d : Detector) : State :=
  let n := detectorCode d
  if s.sec.fuses.lifecycle = 4 || s.blk pgSec = stOff then s
  else if s.tampering then s.tamperLatch n
  else (s.tamperLatch n).tamperRespond n

/-! ### Debug unlock (R447, R451, R452) -/

/-- The first check that a debug token fails; 0 where it is accepted. -/
def State.tokenError (s : State) (t : Token) : Nat :=
  if t.magic ≠ 0x5A574454 then 1
  else if s.sec.fuses.debugKey.isEmpty || s.sec.fuses.debugRevoked || s.sec.fuses.debugKey ≠ sha3 t.key then 2
  else if !t.good then 3
  else if t.device ≠ s.sec.fuses.deviceId then 4
  else if !s.nonceGood t then 5
  else if s.tampering then 6
  else if t.validity = 0 then 7
  else 0

/-- A token is tried, which spends the nonce; the answer says whether it is accepted, with its code. -/
def State.tryToken (s : State) (bs : List Byte) : State × Nat :=
  let t := s.token bs
  let e := s.tokenError t
  let s := if e = 1 || e = 2 then s else s.verified t.good
  let s := (s.spendNonce).wrN (rk pgDbg 0x108) e
  if e ≠ 0 then (s.bump (rk pgDbg 0x48), e)
  else
    let s := s.bump (rk pgDbg 0x40)
    if s.sec.fuses.lifecycle ≠ 2 then (s, 0)
    else
      let s := s.secWipe 3
      let s := { s with sec := { s.sec with unlock := some (t.scope, s.time.tb0 + t.validity * 1000000000) } }
      (((s.extend 4 4 0 (sha3 (bs.take 128))).event pgDbg 1).safeShow, 0)

/-- CMD_UNLOCK. -/
def State.unlockCmd (s : State) : State :=
  let (s, bs) := s.secLoad (s.argAddr pgDbg 0) (tokenLength s)
  match s.tryToken bs with
  | (s, 0) => s.cmdDone pgDbg resDone
  | (s, e) => s.cmdDone pgDbg resRefused e

/-- The unlock ends. -/
def State.relock (s : State) : State :=
  match s.sec.unlock with
  | none => s
  | some _ =>
    ((({ s with sec := { s.sec with unlock := none } }).extend 4 4 0 (sha3 [])).event pgDbg 2).safeShow

/-- UNLOCK_EXPIRY: at the end of the validity. -/
def State.unlockExpiry (s : State) : State :=
  match s.sec.unlock with
  | some (_, t) => if t ≤ s.time.tb0 then s.relock else s
  | none => s

/-- Debug access is open: BLANK, DEVELOP, RETURN. -/
def State.dbgOpen (s : State) : Bool := [0, 1, 3].contains s.sec.fuses.lifecycle
/-- A scope is open or unlocked (R446 to R448). -/
def State.scopeOk (s : State) (b : Nat) : Bool :=
  s.dbgOpen || (match s.sec.unlock with | some (sc, _) => sc.testBit b | none => false)

/-! ### JTAG (R446, R464) -/

/-- The TAP has power: not before the rails are up, and not in a Stop deeper than Gate. -/
def State.tapOn (s : State) : Bool :=
  s.bit (rk pgPwr 0x128) 0 && s.bit (rk pgPwr 0x128) 13 && !(2 ≤ s.pwrState && s.fld (rk pgPwr 0x104) 3 2 ≠ 0)

def State.shiftOut (s : State) (bs : List Byte) : State := { s with sec := { s.sec with tdr := bs } }
/-- BYPASS: the one-bit register captures 0. -/
def State.bypass (s : State) : State := if s.tapOn then s.shiftOut [0] else s
/-- IDCODE. -/
def State.idcode (s : State) : State := if s.tapOn then s.shiftOut (leBytes 4 0x19600F3B) else s

/-- SAMPLE/PRELOAD: the pins as they stand, which the model does not hold, come out; the boundary register is preloaded (log 59). -/
def State.samplePreload (s : State) (v : DWord) : State :=
  if !s.tapOn || !s.scopeOk 0 then s.bypass
  else
    let (s, ws) := s.drawWords 2
    let s := s.shiftOut (ws.flatMap (fun (w : Word) => leBytes 4 w.toNat))
    { s with sec := { s.sec with boundary := v } }

/-- DBG_TOKEN: reads the nonce, or tries a token. -/
def State.dbgToken (s : State) (token : Option (List Byte)) : State :=
  if !s.tapOn || s.sec.fuses.lifecycle = 4 then s.bypass
  else match token with
    | none => s.shiftOut s.nonce
    | some bs => (s.tryToken bs).1

/-! ### Debug halt (R448, R457) -/

/-- DBG_HALT.THIMUM. Without scope [2] in PRODUCTION the write is ignored (log 60). -/
def State.haltThimum (s : State) (on : Bool) : State :=
  if s.scopeOk 2 then s.setBit (rk pgDbg 0x104) 0 on else s.cfgIgnored pgDbg

/-- Every page whose chapter defines HALT. -/
def haltPages : List Nat := allPages.filter (fun p => match pageKind p with | some k => pageHalt k | none => false)

/-- DBG_HALT.ALL: halts every block that is not halted; cleared, it releases the blocks that it halted. -/
def State.haltAll (s : State) (on : Bool) : State :=
  if !s.scopeOk 2 then s.cfgIgnored pgDbg
  else if on then
    if s.bit (rk pgDbg 0x104) 1 then s
    else haltPages.foldl (fun s p => s.haltWrite p (s.halted p)) (s.setBit (rk pgDbg 0x104) 1 true)
  else
    let ps := s.sec.haltedByDbg
    let s := { s with sec := { s.sec with haltedByDbg := [] } }
    ps.foldl (fun s p => s.setBit (rk p 0x0C) 1 false) (s.setBit (rk pgDbg 0x104) 1 false)

def execBoot (img : List Byte) (s : State) : Out := .next (s.boot img)
def execCmdBoot (h : Fin 2) (s : State) : Out := .next (s.hostCmd h pgSec 1 false (some (·.secCmd (·.bootCmd))))
def execCmdProvision (h : Fin 2) (b : ProvBlock) (s : State) : Out :=
  .next (s.hostCmd h pgSec 2 false (some (·.secCmd (·.provision b))))
def execCmdLifecycle (h : Fin 2) (s : State) : Out := .next (s.hostCmd h pgSec 3 false (some (·.secCmd (·.lifecycleCmd))))
def execFuseProgrammed (s : State) : Out := .next s.fuseProgrammed
def execCmdRevoke (h : Fin 2) (s : State) : Out := .next (s.hostCmd h pgSec 4 false (some (·.secCmd (·.revoke))))
def execCmdSvnCommit (h : Fin 2) (s : State) : Out := .next (s.hostCmd h pgSec 5 false (some (·.secCmd (·.svnCommit))))
def execCmdExtend (h : Fin 2) (s : State) : Out := .next (s.hostCmd h pgSec 6 false (some (·.secCmd (·.extendCmd))))
def execSpdmRequest (h : Fin 2) (r : SpdmReq) (s : State) : Out := .next (s.spdm h r)
def execTamper (d : Detector) (s : State) : Out := .next (s.tamper d)
def execCmdUnlock (h : Fin 2) (s : State) : Out := .next (s.hostCmd h pgDbg 1 false (some (·.unlockCmd)))
def execDbgCmdRelock (h : Fin 2) (s : State) : Out :=
  .next (s.hostCmd h pgDbg 2 false (some (fun s => s.relock.cmdDone pgDbg resDone)))
def execCmdNonce (h : Fin 2) (s : State) : Out :=
  .next (s.hostCmd h pgDbg 3 false (some (fun s => s.makeNonce.cmdDone pgDbg resDone)))
def execUnlockExpiry (s : State) : Out := .next s.unlockExpiry
def execDbgToken (token : Option (List Byte)) (s : State) : Out := .next (s.dbgToken token)
def execSamplePreload (v : DWord) (s : State) : Out := .next (s.samplePreload v)
def execIdcode (s : State) : Out := .next s.idcode
def execBypass (s : State) : Out := .next s.bypass
def execDbgHaltThimum (h : Fin 2) (on : Bool) (s : State) : Out :=
  .next (s.hostWrite h (fun s => s.ownerWrite h pgDbg (s.scopeOk 2) (·.haltThimum on)))
def execDbgHaltAll (h : Fin 2) (on : Bool) (s : State) : Out :=
  .next (s.hostWrite h (fun s => s.ownerWrite h pgDbg (s.scopeOk 2) (·.haltAll on)))

end Sys2Proof.Machine
end

