-- ==== Sys2Proof/Machine/Power.lean ====
section
/-! DEFINITION. PWR, CLK, QUAY and the links between the dies: Stop entries and wakes, bring-up and reset, coolant and throttling
(R15, R404 to R431, R454 to R464, R491, R492). -/

namespace Sys2Proof.Machine

/-- PWR_STATUS: the state (R404) and the depth entered last. -/
def State.setPwr (s : State) (st : Nat) : State := s.setFld (rk pgPwr 0x104) 1 0 st
def State.depth (s : State) : Nat := s.fld (rk pgPwr 0x104) 3 2
/-- A phase of a wake or of an entry begins. -/
def State.toStage (s : State) (g : PwrStage) : State := { s with pwr := { s.pwr with stage := g, stageAt := s.nsNow } }
def State.coolantIn (s : State) : Bool := s.bit (rk pgPwr 0x130) 0

/-! ### The pending slot (R414, R429) -/

def State.pending? (s : State) : Bool := s.bit (rk pgPwr 0x104) 5
/-- The slot is emptied. -/
def State.pendClear (s : State) : State := { s.setFld (rk pgPwr 0x104) 8 5 0 with pwr := { s.pwr with pend := none } }
/-- A request takes the slot: a Stop, or a wake where none is given. -/
def State.pendPut (s : State) (r : Option StopReq) : State :=
  let s := if s.pending? then s.bump (rk pgPwr 0x78) else s
  let s := s.setFld (rk pgPwr 0x104) 8 5 (match r with | some q => 1 + 2 * q.depth | none => 9)
  { s with pwr := { s.pwr with pend := r } }
/-- A request starts an entry in RUN, and else takes the slot. -/
def State.requestStop (s : State) (r : StopReq) : State :=
  if s.pwrState = 0 then { s with pwr := { s.pwr with request := some r } } else s.pendPut (some r)

/-- The deepest depth that wakes within TWAKE (R405, R406). -/
def stopDepth (deepest twake : Nat) : Option Nat :=
  let fits (d : Nat) : Bool := d ≤ deepest && (if d = 3 then twake == 0xFFFFFFFF else decide ([50, 3000, 80000].getD d 0 ≤ twake))
  [3, 2, 1, 0].find? fits

/-- CMD_STOP. -/
def State.stopCmd (s : State) : State :=
  let t := s.arg pgPwr 0
  match stopDepth (s.fld (rk pgPwr 0x100) 3 2) t with
  | none => (s.wrN (rk pgPwr 0x134) 1).cmdDone pgPwr resRefused 1
  | some d => ((s.wrN (rk pgPwr 0x118) t).requestStop { depth := d, cause := 0, twake := t }).cmdDone pgPwr resDone

/-! ### An entry (R407, R409) -/

/-- The blocks that take a quiesce request. -/
def quiescePages : List Nat :=
  allPages.filter (fun p => !([pgSys, pgSafe, pgSec, pgPwr, pgClk, pgQuay, pgDbg, pgMem, pgCommons, pgStream, 8, 9].contains p))

/-- The code with which a block refuses. -/
def State.refusal (s : State) (p : Nat) : Option Nat :=
  if s.busy p then some 1
  else if s.blk p = stTesting then some 2
  else if p = pgEng 4 && (s.margin = 1 || s.margin = 3) then some 3
  else none

/-- Every refusal, in page order; SEC refuses during fuse programming (R444). -/
def State.refusals (s : State) : List (Nat × Nat) :=
  allPages.filterMap (fun p =>
    if p = pgSec then (if s.transiting then some (p, 1) else none)
    else if quiescePages.contains p then (s.refusal p).map (fun c => (p, c))
    else none)

/-- A RUNNING block leaves with the effects of its DISMISS rule; FAB leaves as R158 gives. -/
def State.quiesce (s : State) (p : Nat) : State :=
  if !s.running p || (s.refusal p).isSome then s
  else
    let s := { s with pwr := { s.pwr with wasRunning := s.pwr.wasRunning ++ [p] } }
    let s := s.setBlk p stStopping
    if p = pgFab then { s.setBit (rk p 0x0C) 0 false with bell := { s.bell with resume := true } }
    else (s.dismissHook p).setBlk p stIdle

/-- STOP_ENTRY. -/
def State.stopEntry (s : State) : State :=
  match s.pwr.request with
  | none => s
  | some r =>
    if s.pwrState ≠ 0 || s.pwr.stage ≠ .idle then s
    else
      let s := ((s.setPwr 1).setFld (rk pgPwr 0x104) 3 2 r.depth).setFld (rk pgPwr 0x104) 12 10 r.cause
      let bad := s.refusals
      let s := { s with pwr := { s.pwr with
        stage := .quiesce, request := none, twake := r.twake, entryAt := s.nsNow, wasRunning := []
        refusedBy := bad.head?.map (fun (e : Nat × Nat) => (e.1, e.2, false)) } }
      quiescePages.foldl (fun s p => s.quiesce p) s.safeShow

/-- Blocks that have not answered READY: FAB before its open step has closed, COMMONS during a wipe. -/
def State.notReady (s : State) (p : Nat) : Bool :=
  (quiescePages.contains p && s.blk p == stStopping) || (p == pgCommons && s.bit (rk pgCommons 0x100) 1)

/-- QUIESCE_READY. -/
def State.quiesceReady (s : State) : State :=
  if s.pwr.stage ≠ .quiesce || s.pwr.refusedBy.isSome || allPages.any (fun p => s.notReady p) then s
  else { s with pwr := { s.pwr with stage := .drain, drainAt := s.nsNow } }

/-- QUIESCE_TIMEOUT. -/
def State.quiesceTimeout (s : State) (p : Nat) : State :=
  if s.pwr.stage ≠ .quiesce || s.pwr.refusedBy.isSome || !s.notReady p ||
      s.nsNow < s.pwr.entryAt + s.fld (rk pgPwr 0x110) 9 0 * 1000 then s
  else { s with pwr := { s.pwr with refusedBy := some (p, 4, false) } }

/-- A block that the entry took out of RUNNING runs again; FAB waits until its step has closed. -/
def State.resumeBlock (s : State) (p : Nat) : State :=
  if p = pgFab && s.blk p = stStopping then s
  else
    let s := { s with pwr := { s.pwr with wasRunning := s.pwr.wasRunning.filter (fun q => q != p) } }
    s.enterRunning p

/-- In RUN a pending Stop starts its entry; a pending wake has nothing to do (R414). -/
def State.pendInRun (s : State) : State :=
  let r := s.pwr.pend
  let s := s.pendClear
  { s with pwr := { s.pwr with request := r } }

/-- STOP_REFUSED: a refusal or an abort (R410). -/
def State.stopRefused (s : State) : State :=
  match s.pwr.refusedBy with
  | none => s
  | some (p, c, abort) =>
    let s := { s with pwr := { s.pwr with refusedBy := none, stage := .idle } }
    let s := s.setPwr 0
    let s := s.pwr.wasRunning.foldl (fun s q => s.resumeBlock q) s
    let k := rk pgPwr (0x200 + p / 4 * 4)
    let n := s.fld k (8 * (p % 4) + 7) (8 * (p % 4))
    let s := s.setFld k (8 * (p % 4) + 7) (8 * (p % 4)) (min 255 (n + 1))
    let s := s.bump (rk pgPwr (if abort then 0x58 else 0x50))
    let s := s.wrN (rk pgPwr 0x124) (0x80000000 + (if abort then 0x10000 else 0) + c * 256 + p)
    let s := (s.event pgPwr 3).log 0 pgPwr 0 (0x4000 + c) [p, if abort then 1 else 0]
    s.pendInRun.safeShow

/-- FAB_STOPPING, and FAB's return to RUNNING where an entry was refused before its step had closed. -/
def State.fabLeaves (s : State) : State :=
  let s' := s.fabStopping
  if s'.blk pgFab = stIdle && s'.pwrState = 0 && s'.pwr.wasRunning.contains pgFab then s'.resumeBlock pgFab else s'

/-! ### The drain and the configuration record (R407, R409, R455) -/

def State.drained (s : State) : Bool :=
  s.stream.offers.isEmpty && [0, 1].all (fun h => (List.range 5).all (fun r => ((s.portAt h).ring r).staged.isEmpty))

/-- What a Cold entry records. -/
def State.makeRecord (s : State) : ConfigRecord where
  regs := s.regs
  mem := s.mem.filter (fun e => decide (winBase ≤ e.1))
  sets := s.chain.sets
  slots := s.tt.slots.map (fun e => (e.1, { e.2 with inv := none, pend := none }))
  wins := s.tt.wins
  cal := s.grid.cal

/-- Thimum cannot write the record (R462; log 53). -/
def State.thimumStopped (s : State) : Bool := s.bit (rk pgDbg 0x104) 0 || s.safe.thimumHeld

/-- DRAIN_END: what remains is dropped, the LOG entry of kind 5 is the last record, and Cold's record is written. -/
def State.drainEnd (s : State) : State :=
  if s.pwr.stage ≠ .drain || s.pwr.refusedBy.isSome ||
      !(s.drained || decide (s.pwr.drainAt + s.fld (rk pgPwr 0x114) 13 0 * 1000 ≤ s.nsNow)) then s
  else
    let s := ((s.tapClose.produceAll).dropStaged 0).dropStaged 1
    let s := (s.log 0 pgPwr 0 (0x5000 + s.depth) [s.pwr.twake, s.fld (rk pgPwr 0x104) 12 10]).produceAll
    let s := (((s.ringWrite 0).ringWrite 1).dropStaged 0).dropStaged 1
    if s.depth = 2 && s.thimumStopped then { s with pwr := { s.pwr with refusedBy := some (pgDbg, 5, true) } }
    else { s with pwr := { s.pwr with
      stage := .commit, record := if s.depth = 2 then some s.makeRecord else s.pwr.record } }

/-! ### Off (R405, R424, R492) -/

/-- What of a port lies outside the device: what it has written and sent, and the level of its PERST_N. -/
def State.outside (s : State) : SMap HostPort :=
  s.ports.map (fun e => (e.1, { hostMem := e.2.hostMem, msixSent := e.2.msixSent, inReset := e.2.inReset : HostPort }))

/-- The device with no power but AON's: QUAY address, strap latches, cause store and fuses stay. -/
def State.unpowered (s : State) : State :=
  let t : State := { State.reset with
    pending := s.pending, freeCtr := s.freeCtr, ports := s.outside
    sec := { fuses := s.sec.fuses, job := s.sec.job, nonces := s.sec.nonces }
    pwr := {
      stage := .stopped, aonCause := s.pwr.aonCause, attempts := s.pwr.attempts, wakeFails := s.pwr.wakeFails
      coolRefused := s.pwr.coolRefused } }
  (t.wrN (rk pgSys 0x104) (s.rdN (rk pgSys 0x104))).wrN (rk pgQuay 0x100) (s.rdN (rk pgQuay 0x100))

/-- Off. -/
def State.goOff (s : State) : State :=
  let cause := s.fld (rk pgPwr 0x104) 12 10
  let s := s.unpowered
  let s := { s with time := { s.time with off := true } }
  s.wrN (rk pgPwr 0x104) (2 + 3 * 4 + cause * 1024)

/-- Bring-up starts: COOLANT_OK is awaited (R421). -/
def State.powerUp (s : State) : State :=
  let t := s.unpowered
  { t with pwr := { t.pwr with stage := .awaitCoolant, full := true, attempts := 1 } }

/-- PORST_N: a reset, then its rise, which latches the straps (R488, R492). -/
def State.porst (s : State) (x : Straps) : State :=
  let t := s.powerUp
  let t := { t with pwr := { stage := .awaitCoolant, full := true, attempts := 1 } }
  let t := t.wrN (rk pgSys 0x104) (x.hostRole.toNat + x.bootSrc.toNat * 4 + x.quayAddr.toNat * 8)
  let t := { t with regs := SMap.set regReset t.regs (rk pgQuay 0x100) (regReset (rk pgQuay 0x100)) }
  (t.portShow 0).portShow 1

/-! ### Pads (R416, R464) -/

/-- The latches open, and the blocks they held run. -/
def State.release (s : State) : State :=
  let ps := s.pwr.heldRun
  let s := s.setBit (rk pgPwr 0x104) 9 false
  let s := { s with pwr := { s.pwr with heldRun := [], relWait := false } }
  if s.pwrState = 0 then ps.foldl (fun s p => s.enterRunning p) s
  else { s with pwr := { s.pwr with wasRunning := s.pwr.wasRunning ++ ps } }

/-- EXTEST ends; a PAD_RELEASE written meanwhile takes effect (R464). -/
def State.extestEnd (s : State) : State :=
  let s := { s with sec := { s.sec with extest := false } }
  if s.pwr.relWait then s.release else s

/-! ### The commit (R407, R416) -/

/-- What Cold loses: every page of the core and hub dies but those that the guarantee, power and trust rest on, every store outside
LPDDR5X, and all work. Tracks are a table of the window and stay (R455, R483). -/
def State.coldLoss (s : State) : State :=
  let run := [pgClk, pgPwr, pgSafe, pgSec, pgQuay, pgDbg, 8, 9, pgStream].filter (fun p => s.running p)
  let regs := SMap.clear (SMap.clear (SMap.clear s.regs (rk pgTime 0) (rk pgQuay 0)) (rk pgMem 0) (rk 0x40 0)) (coreKey 0 0) (latchKey 0 0)
  let s := { s with
    regs := regs, mem := SMap.clear s.mem commonsBase 0x1000000000000
    pwr := { s.pwr with wasRunning := s.pwr.wasRunning ++ run }
    csi := [], eth := [], spi := [], wheel := [], can := [], slots := [], fend := [], surfT0 := [], loops := []
    cores := [], routers := [], edges := []
    bell := { resume := s.bell.resume, nextStep := s.bell.nextStep : BellUnit }
    engines := s.engines.map (fun (e : Nat × Engine) => (e.1, { stats := e.2.stats : Engine })), bins := []
    tt := {}, grid := {}, chain := {}, ego := {}
    trk := { s.trk with lists := [], listOvf := false, poses := [], command := none }
    memc := { s.memc with commonsBad := [], wipeAt := none, resp := [] }
    stream := { winSeq := s.stream.winSeq : Stream } }
  let s := s.setBit (rk pgDbg 0x104) 0 false
  ([pgClk, pgPwr, pgSafe, pgSec, pgQuay, pgDbg, 8, 9].filter (fun p => s.blk p != stOff)).foldl (fun s p => s.setBlk p stOff) s

/-- The clocks and rails of a depth, and the TIME domain (R405, R419, R460). -/
def State.depthPower (s : State) (d : Nat) : State :=
  let s := s.wrN (rk pgClk 0x104) (if d = 0 then 0x3BFFFE else 0x3FFFFE)
  if d = 0 then s
  else
    let s := (s.wrN (rk pgClk 0x100) 0).setMargin 0
    let s := if s.time.off then s else s.timeOff
    if d = 2 then (((s.linkDown 0).linkDown 1).coldLoss).wrN (rk pgPwr 0x128) 0x2780 else s

/-- A deeper depth is taken from a shallower one without a wake (R414); the TAP loses its power (R464). -/
def State.moveDeeper (s : State) (d cause : Nat) : State :=
  if d = 3 then ((s.setFld (rk pgPwr 0x104) 12 10 cause).linkDown 0 |>.linkDown 1).goOff
  else if d = 2 && s.thimumStopped then s
  else
    let s := s.extestEnd
    let s := if d = 2 then { s with pwr := { s.pwr with record := some s.makeRecord } } else s
    ((s.setFld (rk pgPwr 0x104) 12 10 cause).setFld (rk pgPwr 0x104) 3 2 d).depthPower d

/-! ### Wakes (R411 to R417) -/

/-- The first phase of a wake. -/
def firstStage (full : Bool) (d : Nat) : PwrStage :=
  if full then .awaitRef else if d = 0 then .plls else if d = 1 then .rails else .railUp 4

/-- A wake starts, unless COOLANT_OK is deasserted (R423). From Off the device starts as from PORST_N. -/
def State.wakeStart (s : State) : State :=
  let d := s.depth
  if !s.coolantIn && d ≠ 3 then { s with pwr := { s.pwr with coolRefused := true, aonCause := 0x50 } }
  else if d = 3 then s.powerUp
  else
    let s := s.setPwr 3
    { s with pwr := { s.pwr with
      stage := firstStage false d, stageAt := s.nsNow, full := false, wakeAt := s.nsNow, attempts := 1, coolRefused := false } }

/-- An entry has completed: the pending request is taken (R414). -/
def State.pendInStop (s : State) : State :=
  if !s.pending? then s
  else match s.pwr.pend with
    | none => s.pendClear.wakeStart
    | some r =>
      if r.depth = s.depth then s.pendClear
      else if s.depth < r.depth then (s.pendClear).moveDeeper r.depth r.cause
      else s.wakeStart

/-- STOP_COMMIT: the pads, clocks and rails take their Stop state, and PWR enters STOP. -/
def State.commit (s : State) : State :=
  let d := s.depth
  let s := if d = 0 then s else s.extestEnd
  let s := { s with safe := { s.safe with roundOpen := false } }
  let s := s.bump (rk pgPwr 0x40)
  let s := s.wrN (rk pgPwr 0x11C) (sat32 (s.nsNow - s.pwr.entryAt))
  let s := (s.event pgPwr 1).setPwr 2
  let s := s.toStage .stopped
  if d = 3 then (((s.linkDown 0).linkDown 1).goOff).pendInStop
  else
    let s := s.setFld (rk pgMem 0x108) 15 8 0xFF
    let s := if s.bit (rk pgPwr 0x100) 0 then s else s.setBit (rk pgPwr 0x104) 9 true
    (s.depthPower d).pendInStop

def State.stopCommit (s : State) (r : CommitResult) : State :=
  if s.pwr.stage ≠ .commit || s.pwr.refusedBy.isSome then s
  else match r with
    | .acknowledged => s.commit
    | .recordFailed => if s.depth = 2 then { s with pwr := { s.pwr with refusedBy := some (pgDbg, 5, true) } } else s
    | .noSelfRefresh => if s.depth = 3 then s else { s with pwr := { s.pwr with refusedBy := some (pgMem, 6, true) } }

/-- QUAY_MATCH (R411). -/
def State.quayMatch (s : State) : State :=
  let s := s.bump (rk pgQuay 0x40)
  if s.pwrState = 2 && !s.pwr.wakeFailed then
    (if s.coolantIn || s.depth = 3 then s.bump (rk pgQuay 0x48) else s).wakeStart
  else if s.pwrState = 1 then (s.bump (rk pgQuay 0x48)).pendPut none
  else s

/-- QCMD (R426): 0xA5 in WAKE_FAIL starts the device as from Off. -/
def State.qcmd (s : State) (v : Byte) : State := if s.pwr.wakeFailed && v = 0xA5 then s.powerUp else s

/-- A byte register of QUAY (R426). -/
def State.quayByte (s : State) (ptr : Nat) : Nat :=
  let b (v : Bool) (k : Nat) : Nat := if v then 2 ^ k else 0
  match ptr with
  | 0 => 0x96
  | 1 => s.pwrState + s.depth * 4 + b s.pwr.wakeFailed 4 + b s.pwr.coolRefused 5 + b (s.bit (rk pgSafe 0x104) 0) 6 +
      b (s.bit (rk pgSafe 0x104) 1) 7
  | 2 => s.pwr.aonCause
  | 3 => s.pwr.attempts
  | _ => 0

/-- The rails of each step of R421. -/
def railGroup (n : Nat) : List Nat := [[10, 13], [8], [9], [7], [0, 1, 2, 3, 4, 5], [6, 11, 12]].getD n []

/-- RAIL_PG: a power-good of the step in progress; with the last of them the next step begins. -/
def State.railPg (s : State) (n : Nat) : State :=
  if s.nsNow < s.pwr.stageAt then s
  else match s.pwr.stage with
  | .railUp k =>
    if !(railGroup k).contains n then s
    else
      let s := s.setBit (rk pgPwr 0x128) n true
      if (railGroup k).all (fun m => s.bit (rk pgPwr 0x128) m) then s.toStage (if k < 5 then .railUp (k + 1) else .plls) else s
  | _ => s

/-- Every PLL is locked and no clock is gated. -/
def State.pllsLock (s : State) : State :=
  let n := popcount (s.rdN (rk pgClk 0x100)) 22
  let s := (s.bump (rk pgClk 0x40) (21 - n)).wrN (rk pgClk 0x100) 0x3FFFFE
  let s := s.wrN (rk pgClk 0x104) 0
  if s.time.off then s.timeWake else s

/-- The Commons is being zeroed (R346). -/
def State.commonsStart (s : State) : State := s.setBit (rk pgCommons 0x100) 0 true
/-- LPDDR5X is trained, and the Commons is ready. -/
def State.trained (s : State) : State :=
  let s := s.setFld (rk pgMem 0x108) 15 0 0xFF
  let s := if s.blk pgMem = stOff then s.enterRunning pgMem else s
  s.commonsInit
/-- The links between the dies are up, and the hubs' copies of TIME are loaded (R309). -/
def State.linksUp (s : State) : State := [0, 1].foldl (fun s h => s.wrN (rk (pgHub h) 0x100) 5) s

/-- Blocks leave OFF for IDLE; the page of a port whose role is Off stays (R354, R476). -/
def State.allIdle (s : State) : State :=
  (allPages.filter (fun p => p != pgSys && s.blk p == stOff && !((p == 8 || p == 9) && s.role (p - 8) == 3))).foldl
    (fun s p => s.setBlk p stIdle) s

/-- Bring-up is complete. -/
def State.broughtUp (s : State) : State :=
  let s := s.allIdle
  let s := s.bump (rk pgPwr 0x68) s.pwr.wakeFails
  let s : State := { s with pwr := { s.pwr with stage := .idle, full := false, wakeFails := 0 } }
  (if s.pwr.aonCause = 0 then s else s.wrN (rk pgPwr 0x12C) (s.pwr.aonCause + s.pwr.attempts * 256)).safeShow

/-- The record's digest, as M2 takes it (log 8). -/
def ConfigRecord.digest (r : ConfigRecord) (straps : Nat) : List Byte :=
  sha3 (leBytes 4 straps ++ r.regs.flatMap (fun e => leBytes 4 e.1 ++ leBytes 4 e.2.toNat))

/-- Thimum restores the configuration record (R455). -/
def State.restore (s : State) : State :=
  match s.pwr.record with
  | none => s
  | some r =>
    let back := r.regs.filter (fun e =>
      (rk pgTime 0 ≤ e.1 && e.1 < rk pgQuay 0) || (rk pgMem 0 ≤ e.1 && e.1 < rk 0x40 0) || (coreKey 0 0 ≤ e.1 && e.1 < latchKey 0 0))
    let keep := back.filter (fun e => !(e.1 % 0x1000 = 0x10 && e.1 < rk 0x40 0) && !(e.1 = rk pgMem 0x108) && !(e.1 = rk pgCommons 0x100) &&
      !(e.1 = rk (pgHub 0) 0x100) && !(e.1 = rk (pgHub 1) 0x100))
    let s := keep.foldl (fun s e =>
      if e.1 < rk 0x40 0 && e.1 % 0x1000 = 0x0C then s.wrN e.1 (putBits e.2.toNat 0 0 (if s.bit e.1 0 then 1 else 0)) else s.wr e.1 e.2) s
    let s := r.mem.foldl (fun s e => s.setByte e.1 e.2) s
    let s := { s with
      chain := { s.chain with sets := r.sets }, tt := { s.tt with slots := r.slots, wins := r.wins }
      grid := { s.grid with cal := r.cal } }
    let s := s.allIdle
    s.extend 2 2 0 (r.digest (s.rdN (rk pgSys 0x104)))

/-- Every resident image is checked again; one that fails leaves its slot EMPTY (R438; log 61). -/
def State.recheckImages (s : State) : State :=
  (List.range 8).foldl (fun s m => match (s.slotOf m).image with
    | some img => if (s.modelSig img.toImageView).1 then s else (s.setSlotOf m {}).setMst m msEmpty
    | none => s) s

/-- A wake ends in Off with WAKE_FAIL. -/
def State.wakeFailed (s : State) (cause : Nat) : State :=
  let s := { s with pwr := { s.pwr with aonCause := cause, wakeFails := s.pwr.wakeFails + 1 } }
  let s := ((s.linkDown 0).linkDown 1).goOff
  { s with pwr := { s.pwr with wakeFailed := true } }

/-- WAKE_PHASE_DONE (R412, R421); not before a retry's phase has begun (R417). -/
def State.wakePhaseDone (s : State) : State :=
  let full := s.pwr.full
  let d := s.depth
  if s.nsNow < s.pwr.stageAt then s
  else match s.pwr.stage with
  | .awaitRef => s.toStage (.railUp 0)
  | .rails => s.toStage .plls
  | .plls =>
    let s := s.pllsLock
    if full then (s.commonsStart.romStart).toStage .firmware
    else (if d = 2 then s.commonsStart else s).toStage .train
  | .train => (s.trained).toStage (if full || d ≠ 0 then .links else .enable)
  | .links =>
    let s := s.linksUp
    if full then s.broughtUp else s.toStage (if d = 1 then .restore else .firmware)
  | .restore => s.toStage .enable
  | .firmware =>
    if full then (if s.sec.running then s.toStage .train else s)
    else match s.fwVerify s.sec.fwImage with
      | (s, 0) => s.toStage .config
      | (s, _) => s.wakeFailed 0x40
  | .config => s.restore.toStage .images
  | .images => s.recheckImages.toStage .enable
  | _ => s

/-- A block is re-enabled at the end of a wake. In Gate the bases of TIME keep their states (R460). -/
def State.wakeBlock (s : State) (p : Nat) : State :=
  if p = pgTime && s.depth = 0 then (s.setBlk p stRunning).setBit (rk p 0x0C) 0 true
  else if s.blk p = stRunning then s
  else s.enterRunning p

/-- WAKE_DONE (R413, R414). -/
def State.wakeDone (s : State) : State :=
  if s.pwrState ≠ 3 || s.pwr.stage ≠ .enable then s
  else
    let on := allPages.filter (fun p => s.pwr.wasRunning.contains p)
    let moored : Nat → Bool := fun p => s.bit (rk pgPwr 0x104) 9 && heldPages.contains p
    let s := (on.filter (fun p => !moored p)).foldl (fun s p => s.wakeBlock p) s
    let s := { s with pwr := { s.pwr with
      stage := .idle, wasRunning := [], record := none, heldRun := s.pwr.heldRun ++ on.filter moored } }
    let s := (s.setPwr 0).bump (rk pgPwr 0x48)
    let s := s.wrN (rk pgPwr 0x120) (sat32 (s.nsNow - s.pwr.wakeAt))
    let s := s.bump (rk pgPwr 0x68) s.pwr.wakeFails
    let s : State := { s with pwr := { s.pwr with wakeFails := 0 } }
    let s := if s.pwr.aonCause = 0 then s else s.wrN (rk pgPwr 0x12C) (s.pwr.aonCause + s.pwr.attempts * 256)
    ((s.event pgPwr 2).pendInRun).safeShow

/-- Whether a cause of R417 belongs to a phase; a wake from Retain raises rails 0 to 4 (R419). -/
def causeFits (g : PwrStage) (c : Nat) : Bool :=
  match g with
  | .rails => decide (0x10 ≤ c) && decide (c < 0x15)
  | .railUp n => (railGroup n).any (fun r => 0x10 + r == c)
  | .awaitRef => c == 0x20
  | .train => decide (0x30 ≤ c) && decide (c < 0x38)
  | .links => c == 0x38 || c == 0x39
  | _ => false

/-- How long a phase has before a cause of R417 has come: 5 ms for a power-good, 10 ms for REF. -/
def failAfter (c : Nat) : Nat := if c < 0x20 then 5000000 else if c = 0x20 then 10000000 else 0

/-- WAKE_FAIL: the attempt's rails go down, and the next attempt starts 20 ms later; after the fourth the device is Off (R417). -/
def State.wakeFail (s : State) (cause : Nat) : State :=
  if !causeFits s.pwr.stage cause || s.nsNow < s.pwr.stageAt + failAfter cause then s
  else
    let s := if s.pwr.stage = .train then s.fault pgMem 3 else s
    if 4 ≤ s.pwr.attempts then s.wakeFailed cause
    else
      let full := s.pwr.full
      let s := { s with pwr := { s.pwr with
        aonCause := cause, attempts := s.pwr.attempts + 1, stage := firstStage full s.depth, stageAt := s.nsNow + 20000000 } }
      let s := s.bump (rk pgPwr 0x60)
      if full then s.wrN (rk pgPwr 0x128) 0 else if s.depth = 2 then s.wrN (rk pgPwr 0x128) 0x2780 else s

/-! ### Pads (R416, R464) -/

/-- PAD_RELEASE; during EXTEST it waits. -/
def State.padRelease (s : State) (v : Word) : State :=
  if !v.getLsbD 0 || !s.bit (rk pgPwr 0x104) 9 then s
  else if s.sec.extest then { s with pwr := { s.pwr with relWait := true } }
  else s.release

/-- EXTEST is available in Gate, and in the ENTERING and WAKING of a Gate round trip (R446, R464). -/
def State.extestOk (s : State) : Bool :=
  s.tapOn && s.scopeOk 0 && s.pwrState != 0 && s.depth == 0

/-- EXTEST with the values to drive, or its end; once in force it stays so until its end (log 59). -/
def State.extest (s : State) (drive : Option DWord) : State :=
  match drive with
  | some v =>
    if s.extestOk || s.sec.extest then { s with sec := { s.sec with extest := true, boundary := v } } else s.bypass
  | none => s.extestEnd

/-! ### Coolant, temperature and throttling (R422 to R424) -/

/-- The throttle level with its cause, the engine cap, and what a change counts. -/
def State.setThrottle (s : State) (l cause : Nat) : State :=
  let k := rk pgPwr 0x10C
  let old := s.fld k 2 0
  if l = old then s
  else
    let s := (s.setFld k 2 0 l).setFld k 9 8 (if l = 0 then 0 else if old < l then cause else s.fld k 9 8)
    let s := s.wrN (rk pgClk 0x108) ([16, 14, 12, 12].getD l 12)
    let s := if old < l then s.bump (rk pgPwr 0x70) (l - old) else s
    s.event pgPwr 4

/-- COOLANT_LOST: watched in RUN and about Gate, not in Retain, Cold or Off. -/
def State.coolantLost (s : State) : State :=
  if !s.coolantIn then s
  else
    let watch := s.pwrState < 2 || s.depth = 0
    let s := s.setBit (rk pgPwr 0x130) 0 false
    let s := { s with pwr := { s.pwr with coolantLostAt := some s.nsNow, coolantTimer := watch } }
    let s := if watch then s.event pgPwr 5 else s
    (if s.pwrState = 0 then s.setThrottle (max 1 (s.fld (rk pgPwr 0x10C) 2 0)) 2 else s).safeShow

/-- COOLANT_OK: power-up goes on, and the timer is cancelled. -/
def State.coolantOk (s : State) : State :=
  let s := s.setBit (rk pgPwr 0x130) 0 true
  let s := { s with pwr := { s.pwr with coolantLostAt := none, coolantTimer := false } }
  (if s.pwr.stage = .awaitCoolant then s.toStage .awaitRef else s).safeShow

/-- COOLANT_TIMEOUT: 1 s after the loss, a controlled Stop to Retain. -/
def State.coolantTimeout (s : State) : State :=
  match s.pwr.coolantLostAt with
  | none => s
  | some t =>
    if !s.pwr.coolantTimer || s.nsNow < t + 1000000000 then s
    else
      let s := { s with pwr := { s.pwr with coolantTimer := false } }
      if s.pwrState = 2 then (if s.depth = 0 then s.moveDeeper 1 2 else s)
      else s.requestStop { depth := 1, cause := 2, twake := 0 }

/-- The level that a loss of coolant asks for: 1 at once, and one more every 250 ms. -/
def State.coolantLevel (s : State) : Nat :=
  match s.pwr.coolantLostAt with
  | some t => if s.pwr.coolantTimer then min 3 (1 + (s.nsNow - t) / 250000000) else 0
  | none => 0

/-- The temperature at which a level is entered. -/
def throttleAt (l : Nat) : Int := [0, 95, 98, 101].getD l 104

/-- THROTTLE_EVAL, every 100 µs in RUN. -/
def State.throttleEval (s : State) : State :=
  if s.pwrState ≠ 0 || s.pwr.stage ≠ .idle || s.nsNow < s.pwr.evalAt + 100000 then s
  else
    let s := { s with pwr := { s.pwr with evalAt := s.nsNow } }
    let l := s.fld (rk pgPwr 0x10C) 2 0
    let hot := s.safe.hot
    let below := if 0 < l && hot < throttleAt l - 3 then s.pwr.below + 1 else 0
    let put (s : State) (n : Nat) : State := { s with pwr := { s.pwr with below := n } }
    let s := if 104 ≤ hot && s.pwr.request.isNone then s.requestStop { depth := 1, cause := 1, twake := 0 } else s
    if l < s.coolantLevel then (put s 0).setThrottle s.coolantLevel 2
    else if l < 3 && throttleAt (l + 1) ≤ hot then (put s 0).setThrottle (l + 1) 1
    else if 10 ≤ below && s.coolantLevel < l then (put s 0).setThrottle (l - 1) 0
    else put s below

/-- One pair's sample: more than 5 K apart in three consecutive samples is a disagreement (R395). -/
def State.tempPair (s : State) (i : Nat) (a b : Int) : State :=
  let n := if 5 < (a - b).natAbs then SMap.get (fun _ => 0) s.safe.tempRun i + 1 else 0
  let s := { s with safe := { s.safe with tempRun := SMap.set (fun _ => 0) s.safe.tempRun i n } }
  if n = 3 && !s.safe.tempBad.contains i then
    (({ s with safe := { s.safe with tempBad := s.safe.tempBad ++ [i] } }).bump (rk pgSafe 0x78)).toSafe 4 pgSafe 1 i
  else s

/-- A temperature in 8 bits. -/
def temp8 (t : Int) : Nat := ofSigned 8 (min 127 (max (-128) t))

/-- TEMP_SAMPLE: the readings of the pairs, once every 5 µs (R395, log 113). The hottest reading of a hub die is one that the sample does not tell apart (log 62); at 110 °C
every rail goes at once. -/
def State.tempSample (s : State) (pairs : List (Int × Int)) : State :=
  match pairs with
  | [] => s
  | p :: ps =>
    if (s.pwr.stage = .stopped && s.depth = 3) || s.nsNow / 5000 < s.safe.tempAt then s
    else
      let s := { s with safe := { s.safe with tempAt := s.nsNow / 5000 + 1 } }
      let hot := (p :: ps).foldl (fun m e => max m (max e.1 e.2)) p.1
      let diff := (p :: ps).foldl (fun m e => max m (e.1 - e.2).natAbs) 0
      let s := ((p :: ps).zip (List.range (ps.length + 1))).foldl (fun s e => s.tempPair e.2 e.1.1 e.1.2) s
      let s := { s with safe := { s.safe with hot := hot } }
      let s := s.wrN (rk pgSafe 0x14C) (temp8 hot + min 255 diff * 256 + s.safe.tempBad.length % 256 * 65536)
      let s := [0, 1].foldl (fun s h =>
        let (w, s) := s.draw
        s.wrN (rk (pgHub h) 0x104) (w.toNat % 256)) s
      if 110 ≤ hot then
        let s := { s with pwr := { s.pwr with aonCause := 0x60 } }
        ((s.linkDown 0).linkDown 1).goOff
      else s

/-! ### Clocks and links between the dies (R15, R430, R481) -/

/-- LOCK_LOSS. -/
def State.lockLoss (s : State) (d : Nat) : State :=
  if !s.bit (rk pgClk 0x100) d then s
  else ((s.setBit (rk pgClk 0x100) d false).bump (rk pgClk 0x48)).event pgClk 1

/-- LINK_RETRAIN: a link that has lost its lanes. -/
def State.linkRetrain (s : State) (h : Nat) (ok : Bool) : State :=
  if !s.bit (rk (pgHub h) 0x100) 0 then s
  else if ok then (s.bump (rk (pgHub h) 0x48)).event (pgHub h) 1
  else (s.setBit (rk (pgHub h) 0x100) 0 false).fault (pgHub h) 0

/-- FLIT_REPLAY. -/
def State.flitReplay (s : State) (h : Nat) : State :=
  if !s.bit (rk (pgHub h) 0x100) 0 then s
  else (s.bump (rk (pgHub h) 0x40)).toSafe 0 (pgHub h) 0x81 0

def execFabStopping (s : State) : Out := .next s.fabLeaves
def execRailSettled (s : State) : Out := .next s.marginSettled
def execCmdStop (h : Fin 2) (s : State) : Out := .next (s.hostCmd h pgPwr 1 true (some (·.stopCmd)))
def execCmdCancel (h : Fin 2) (s : State) : Out :=
  .next (s.hostCmd h pgPwr 2 false (some (fun s => s.pendClear.cmdDone pgPwr resDone)))
def execStopEntry (s : State) : Out := .next s.stopEntry
def execQuiesceReady (s : State) : Out := .next s.quiesceReady
def execQuiesceTimeout (p : Fin 64) (s : State) : Out := .next (s.quiesceTimeout p)
def execStopRefused (s : State) : Out := .next s.stopRefused
def execDrainEnd (s : State) : Out := .next s.drainEnd
def execStopCommit (r : CommitResult) (s : State) : Out := .next (s.stopCommit r)
def execQuayMatch (s : State) : Out := .next s.quayMatch
def execQcmd (v : Byte) (s : State) : Out := .next (s.qcmd v)
def execWakePhaseDone (s : State) : Out := .next s.wakePhaseDone
def execWakeDone (s : State) : Out := .next s.wakeDone
def execWakeFail (cause : Byte) (s : State) : Out := .next (s.wakeFail cause.toNat)
def execPadRelease (h : Fin 2) (v : Word) (s : State) : Out := .next (s.hostWrite h (·.padRelease v))
def execCoolantLost (s : State) : Out := .next s.coolantLost
def execCoolantOk (s : State) : Out := .next s.coolantOk
def execCoolantTimeout (s : State) : Out := .next s.coolantTimeout
def execThrottleEval (s : State) : Out := .next s.throttleEval
def execTempSample (pairs : List (Int × Int)) (s : State) : Out := .next (s.tempSample pairs)
def execRailPg (n : Fin 14) (s : State) : Out := .next (s.railPg n)
def execPorstN (x : Straps) (s : State) : Out := .next (s.porst x)
def execLinkRetrain (h : Fin 2) (ok : Bool) (s : State) : Out := .next (s.linkRetrain h ok)
def execFlitReplay (h : Fin 2) (s : State) : Out := .next (s.flitReplay h)
def execLockLoss (d : Fin 22) (s : State) : Out := .next (s.lockLoss d)
def execExtest (drive : Option DWord) (s : State) : Out := .next (s.extest drive)

end Sys2Proof.Machine
end

