-- ==== Sys2Proof/Machine/RegView.lean ====
section
/-! DEFINITION. Reads of the register pages and of the table window (R356, R357, R470 to R484): what a register shows to a port, what
a latching read captures, and the words of the window. -/

namespace Sys2Proof.Machine

/-! ### Registers whose value stands elsewhere in the state -/

def flag (v : Bool) (k : Nat) : Nat := if v then 2 ^ k else 0
/-- Word `i` of a list of bytes. -/
def wordAt (bs : List Byte) (i : Nat) : Nat := fieldLE bs (4 * i) 4
/-- A value as a signed 32-bit number, saturating. -/
def sat32s (v : Int) : Nat := ofSigned 32 (clampI (-(2 ^ 31 : Nat)) ((2 ^ 31 : Nat) - 1) v)
/-- Slots that hold a key, and slots that are revoked, as bits. -/
def keyBits (ks : List (List Byte)) : Nat := ((List.range 4).map (fun i => flag (!(ks.getD i []).isEmpty) i)).sum

/-- SEC (R449). -/
def State.secView (s : State) (o : Nat) : Option Nat :=
  let f := s.sec.fuses
  match o with
  | 0x100 => some (f.lifecycle + flag f.mlDsa65 3)
  | 0x10C => some (f.rollback % 64)
  | 0x110 => some (keyBits f.fKeys + f.fRevoked % 16 * 16 + keyBits f.mKeys * 256 + f.mRevoked % 16 * 4096 +
      flag (!f.debugKey.isEmpty) 16)
  | _ =>
    if 0x130 ≤ o && o < 0x140 then some (wordAt f.deviceId ((o - 0x130) / 4))
    else if 0x140 ≤ o && o < 0x180 then some (wordAt (s.sec.log.getD (s.fld (rk pgSec 0x128) 8 0) []) ((o - 0x140) / 4))
    else if 0x200 ≤ o && o < 0x300 then some (wordAt (s.measure ((o - 0x200) / 32)) ((o - 0x200) % 32 / 4))
    else none

/-- DBG_STATUS (R451): while open every scope is open (R447). -/
def State.dbgStatus (s : State) : Nat :=
  let left := match s.sec.unlock with
    | some u => min 65535 ((u.2 - s.time.tb0) / 1000000000)
    | none => 0
  let scope := if s.dbgOpen then 7 else (s.sec.unlock.map (fun u => u.1 % 8)).getD 0
  flag s.dbgOpen 0 + flag s.sec.unlock.isSome 1 + scope * 4 + left * 65536

/-- TIME and its network blocks (R329, R330). -/
def State.timeView (s : State) (o : Nat) : Option Nat :=
  let lo (v : Nat) : Option Nat := some (v % 2 ^ 32)
  let hi (v : Nat) : Option Nat := some (v / 2 ^ 32)
  let u : Int := (2 ^ 40 : Nat)
  let q := ofSigned 64 (s.time.q / u)
  match o with
  | 0x10C => some s.fusStatus
  | 0x110 => lo s.time.tb0
  | 0x114 => hi s.time.tb0
  | 0x118 => lo s.now
  | 0x11C => hi s.now
  | 0x120 => some (s.time.fus % 2 ^ 40 / 2 ^ 8)
  | 0x124 => lo q
  | 0x128 => hi q
  | 0x12C => some (sat32s (s.fusD / u))
  | _ =>
    if o < 0x200 || 0x300 ≤ o then none
    else
      let b := (o - 0x200) / 0x80
      let n := s.netAt b
      match (o - 0x200) % 0x80 with
      | 0x0C => some (s.netStatus b)
      | 0x10 => some n.secNs.2
      | 0x14 => lo n.secNs.1
      | 0x18 => some (n.secNs.1 / 2 ^ 32 % 65536)
      | 0x20 => some (ofSigned 32 n.y)
      | 0x24 => some (ofSigned 32 (n.delay / (65536 : Int)))
      | _ => none

/-- The sum over the fabric of a core counter: 64-bit counters wrap, others saturate (R133, R160). -/
def State.coreSum (s : State) (o : Nat) : Nat :=
  ((s.regs.filter (fun e => coreKey 0 0 ≤ e.1 && e.1 < coreKey 1024 0 && e.1 % 0x100 == o)).map (fun e => e.2.toNat)).sum
def State.fabSum (s : State) (o : Nat) : Nat :=
  let c := o - 0x300 + 0x10
  if c < 0x28 then
    let v := s.coreSum (c / 8 * 8) + s.coreSum (c / 8 * 8 + 4) * 2 ^ 32
    if c % 8 = 0 then v % 2 ^ 32 else v / 2 ^ 32 % 2 ^ 32
  else if c ≤ 0x50 then sat32 (s.coreSum c)
  else 0

/-- FAB (R160). -/
def State.fabView (s : State) (o : Nat) : Option Nat :=
  if o = 0x10C then
    some (flag (s.bell.stepOpen && s.bell.phaseM) 0 + flag (s.running pgFab && s.halted pgFab && !s.bell.stepOpen) 1 +
      flag (s.fld (rk pgFab 0x124) 4 0 != 0) 2 + flag (s.rdN (rk pgFab 0x118) != 0) 3)
  else if 0x300 ≤ o && o < 0x350 then some (s.fabSum o)
  else none

/-- An engine's HALTED and ENG_STATS (R189). -/
def State.engView (s : State) (e o : Nat) : Option Nat :=
  if o = 0x10C then some (putBits (s.rdN (rk (pgEng e) o)) 6 6 (flag (s.running (pgEng e) && s.halted (pgEng e)) 0))
  else if 0x800 ≤ o && o < 0xC00 then
    let v := SMap.get (fun _ => (0, 0)) (s.engAt e).stats ((o - 0x800) / 8)
    some (sat32 ((if o % 8 = 0 then v.1 else v.2) / 256))
  else none

/-- The HALTED bit of a status register. -/
def State.haltedIn (s : State) (p o b : Nat) : Nat := putBits (s.rdN (rk p o)) b b (flag (s.running p && s.halted p) 0)

/-- Registers of a page that are not stored as they read; none where the stored word is the register. -/
def State.special (s : State) (p o : Nat) : Option Nat :=
  match pageKind p with
  | some .sys => if o = 0x0C then some 0 else if o = 0x10 || o = 0x100 then some s.sysState else if o = 0x110 then some 1 else none
  | some .pwr =>
    if o = 0x130 then
      let ms := match s.pwr.coolantLostAt with
        | some t => min 65535 ((s.nsNow - t) / 1000000)
        | none => 0
      some (flag s.coolantIn 0 + ms * 65536)
    else none
  | some .safe =>
    if o = 0x104 then some s.safeStatus
    else if o = 0x130 then some (s.safeOut % 2 ^ 32)
    else if o = 0x134 then some (s.safeOut / 2 ^ 32)
    else if o = 0x150 then some s.fenceCount
    else none
  | some .sec => s.secView o
  | some .time => s.timeView o
  | some .quay =>
    if o = 0x104 then
      let straps := s.fld (rk pgSys 0x104) 5 3
      some (s.fld (rk pgQuay 0x100) 3 0 * 8 + straps + straps * 256)
    else if o = 0x108 then some (s.pwr.aonCause % 256 + s.pwr.attempts % 8 * 256)
    else none
  | some .dbg => if o = 0x100 then some s.dbgStatus else none
  | some .mem =>
    if o = 0x108 then some (putBits (putBits (s.haltedIn p o 17) 16 16 (flag s.patrolling 0)) 18 18 (flag s.scrubBehind 0)) else none
  | some .tt =>
    if o = 0x110 then
      let n := (s.targets.filter (fun t => (enginesOf t).all (fun e => s.engOpen e))).length
      some (putBits (s.haltedIn p o 16) 26 24 n)
    else none
  | some .chain => if o = 0x104 then some (flag (s.blk p = stOff || s.blk p = stIdle) 0 + flag s.chain.loading.isSome 1 +
      flag (s.running p && s.halted p) 2) else none
  | some .ego => if o = 0x15C then some (s.haltedIn p o 4) else none
  | some .fab => s.fabView o
  | some .eng0 | some .eng | some .eng4 => s.engView (p - 0x12) o
  | some .eth => if o = 0x11C then some (putBits (s.rdN (rk p o)) 8 8 (flag (s.time.tb0 < (s.ethAt (p - 0x30)).macFree) 0)) else none
  | some .trig => if 0x100 ≤ o && o < 0x300 && o % 0x20 = 0x1C then some (s.trigStatus ((o - 0x100) / 0x20)) else none
  | some .stream =>
    if o = 0x124 then some (flag (s.running p && s.halted p) 0 + flag (s.portAt 0).link 1 + flag (s.portAt 1).link 2) else none
  | _ => none

/-! ### Latching reads (R356, R479) -/

/-- The offsets that a read of offset `o` captures: the HI word of a counter pair, and what R304, R306, R329, R330 and R401 name. -/
def latches (p o : Nat) : List Nat :=
  if o < 0x100 then (if 0x40 ≤ o && o < 0x80 && o % 8 = 0 then [o + 4] else [])
  else match pageKind p with
    | some .fend => if o < 0x500 && ((o - 0x100) % 0x80 = 0x60 || (o - 0x100) % 0x80 = 0x68) then [o + 4] else []
    | some .fab => if o = 0x300 || o = 0x308 || o = 0x310 then [o + 4] else []
    | some .tt => if 0x200 ≤ o && o < 0x400 && (o - 0x200) % 0x40 = 0x14 then [o + 4] else []
    | some .pci => if 0x300 ≤ o && o < 0x440 && (o - 0x300) % 0x40 = 0x18 then [o + 4] else []
    | some .ego => if o = 0x164 then (List.range 25).map (fun i => 0x168 + 4 * i) else []
    | some .time => if o = 0x110 then (List.range 7).map (fun i => 0x114 + 4 * i) else if o = 0x210 || o = 0x290 then [o + 4, o + 8] else []
    | some .chain => if 0x200 ≤ o && o < 0xA00 && (o - 0x200) % 0x20 = 0x14 then [o + 4] else []
    | some .safe => if o = 0x118 || o = 0x128 then [o + 4] else []
    | _ => []
/-- Whether an offset reads from the port's latch. -/
def isLatched (p o : Nat) : Bool := [o - 4, o - 8, 0x110, 0x164].any (fun q => (latches p q).contains o)

/-- The registers that each port has for itself (R356). -/
def isCopy (o : Nat) : Bool := o == 0x18 || o == 0x20 || (decide (0x30 ≤ o) && decide (o < 0x40))

/-- A register's value now, latches apart. `h` is the reading port, 2 for no port. -/
def State.shown (s : State) (h p o : Nat) : Nat :=
  if isCopy o then s.rdN (copyKey h p o)
  else match s.special p o with
    | some v => v % 2 ^ 32
    | none => s.rdN (rk p o)

/-- The block of a GRID source status register. -/
def srcStatus (p o : Nat) : Option Nat :=
  if p = pgGrid && 0x200 ≤ o && o < 0xA00 && (o - 0x200) % 0x80 = 0x10 then some ((o - 0x200) / 0x80) else none

/-- What a register shows to a port: a port that is off shows 0 (R354). -/
def State.view (s : State) (h p o : Nat) : Nat :=
  if (pageKind p).isNone || (p = pgPort 0 && s.role 0 = 3) || (p = pgPort 1 && s.role 1 = 3) then 0
  else if h < 2 && isLatched p o then s.rdN (latchKey h (rk p o))
  else match srcStatus p o with
    | some k => putBits (s.shown h p o) 1 1 (if h < 2 then s.fld (clampKey h k) 1 1 else 0)
    | none => s.shown h p o

/-- A port's read of a register: its value before the capture, and the capture (R357, R472). -/
def State.readReg (s : State) (h p o : Nat) : State × Nat :=
  let v := s.view h p o
  if 2 ≤ h || (pageKind p).isNone then (s, v)
  else
    let t := (latches p o).foldl (fun t q => t.wrN (latchKey h (rk p q)) (s.shown h p q)) s
    match srcStatus p o with
    | some k => (t.setBit (clampKey h k) 1 false, v)
    | none => (t, v)

/-- Registers read in ascending order from an offset of BAR0. -/
def State.readRegs (s : State) (h : Nat) : Nat → Nat → State × List Byte
  | _, 0 => (s, [])
  | o, k + 1 =>
    let (s, v) := s.readReg h (o / 0x1000) (o % 0x1000)
    let (s, bs) := State.readRegs s h (o + 4) k
    (s, leBytes 4 v ++ bs)

/-- The sizes that R471 and R484 allow: 4 or 8 bytes, naturally aligned. -/
def sizeOk (o n : Nat) : Bool := (n == 4 || n == 8) && o % n == 0

/-- A host read through BAR0 (R471). -/
def State.barRead (s : State) (h o n : Nat) : State :=
  if sizeOk o n && o + n ≤ 0x100000 then
    let (s, d) := s.readRegs h o (n / 4)
    (s.reply h .done d).bump (rk (pgPort h) 0x40)
  else s.replyUr h

/-! ### The table window (R483, R484) -/

def winSize : Nat := 0x40000000
/-- Window offsets that R483 lists; the calibration tables lie from 0x2000_0000. -/
def winListed (o n : Nat) : Bool :=
  let sits (a b : Nat) : Bool := decide (a ≤ o) && decide (o + n ≤ b)
  sits 0 0x12000000 || sits 0x20000000 0x30000000 || sits 0x30000000 0x30800000 || sits 0x30800000 0x30808000
def isCal (o : Nat) : Bool := decide (0x20000000 ≤ o) && decide (o < 0x30000000)
/-- The device address of a calibration table's byte. -/
def State.calAddr (s : State) (o : Nat) : Nat := (s.rd64 (rk pgGrid 0x128) + (o - 0x20000000)) % 2 ^ 48

/-- The writable bits of a 32-bit word of the synapse and routing windows that lies in memory (R109, R130 to R132, R162, R163). -/
def tableMask (o : Nat) : Nat :=
  if o < 0x10000000 then
    let q := o % 0x40000
    if q < 0x30000 then 0xFFFFFFFF
    else if q < 0x34000 then 0xFFFF
    else if q < 0x36000 then 0xFFFFFFFF
    else if q < 0x36200 then [0xFFFFFF, 0xFFFFFF, 0x7F1FFF].getD (q % 32 / 4) 0
    else if 0x38000 ≤ q && q < 0x3C000 then (if q % 8 = 0 then 0xFFFFFFFF else 0xFFF)
    else 0
  else if o % 0x8000 < 0x4000 then [0xFFFFFFFF, 0xFFFFFFFF, 0x8000FF3F].getD (o % 16 / 4) 0
  else 0

/-- The register behind a word of those windows, where it is one. -/
def tableReg (o : Nat) : Option Nat :=
  if o < 0x10000000 then
    let q := o % 0x40000
    if 0x3F000 ≤ q && q < 0x3F100 then some (coreKey (o / 0x40000) (q - 0x3F000)) else none
  else if 0x4000 ≤ o % 0x8000 && o % 0x8000 < 0x4100 then some (rtrKey ((o - 0x10000000) / 0x8000) (o % 0x8000 - 0x4000))
  else none

/-- The image of a coefficient set (R286, R291). -/
def State.setImage (s : State) (k : Nat) : List Byte :=
  let img (dec : Nat) (delay : Word) (cs : List Word) : List Byte :=
    let body := cs.flatMap (fun (c : Word) => leBytes 4 c.toNat)
    leBytes 2 cs.length ++ leBytes 1 dec ++ zeros 1 ++ leBytes 4 delay.toNat ++ leBytes 4 (crc32c body) ++ zeros 4 ++ body
  if k < 4 then
    let n := presetTaps k
    img (2 ^ (k + 1)) (fofInt (n / 2 : Nat)) ((List.range n).map (fun i => s.coef k i))
  else match s.customSet k with
    | some e => img e.dec e.delay e.coefs
    | none => []

/-- A core or router register as it reads: CLOSING of CORE_STATUS stands from DELIVERED to the core's CLOSED (R121, R133). -/
def State.tableRegWord (s : State) (k : Nat) : Nat :=
  let c := (k - coreKey 0 0) / 0x100
  if coreKey 0 0 ≤ k && k < coreKey 1024 0 && (k - coreKey 0 0) % 0x100 == 8 then
    putBits (s.rdN k) 1 1 (flag (s.bell.stepOpen && s.bell.phaseM && s.closeDuty c && !(s.coreAt c).closed) 0)
  else s.rdN k

/-- The offsets of the LO words of a core and of a router, whose reads latch the HI word behind (R133, R162, R479). -/
def isTableLo (o : Nat) : Bool :=
  if o < 0x10000000 then [0x3F010, 0x3F018, 0x3F020].contains (o % 0x40000)
  else decide (o < 0x20000000) && o % 0x8000 == 0x4008

/-- A 32-bit word of the window outside the calibration tables, latches apart. -/
def State.winWord (s : State) (o : Nat) : Nat :=
  if o < 0x20000000 then
    match tableReg o with
    | some k => s.tableRegWord k
    | none => if tableMask o = 0 then 0 else s.getLE (winBase + o) 4
  else if o < 0x30800000 then
    wordAt (SMap.get (fun _ => []) s.trk.table ((o - 0x30000000) / 0x200)) (o % 0x200 / 4)
  else wordAt (s.setImage ((o - 0x30800000) / 0x1000)) (o % 0x1000 / 4)

/-- A host's access to a core's tables wakes the core, whose 16 idle cycles start again (R125; log 95). -/
def State.touchCore (s : State) (h o : Nat) : State :=
  let c := o / 0x40000
  if 2 ≤ h || 0x10000000 ≤ o || 0x3F000 ≤ o % 0x40000 || !s.coreOn c || !s.bit (coreKey c 8) 0 then s
  else (s.setCore c { s.coreAt c with idleSince := s.time.tb0 }).coreWake c

/-- A word that port `h` reads through the window: a HI word as the port has latched it, and the capture of a LO word (R356, R479). -/
def State.winRead (s : State) (h o : Nat) : State × Nat :=
  if h < 2 && isTableLo (o - 4) then (s, ((tableReg o).map (fun k => s.rdN (latchKey h k))).getD 0)
  else
    let v := s.winWord o
    let t := s.touchCore h o
    match tableReg (o + 4) with
    | some k => (if h < 2 && isTableLo o then t.wrN (latchKey h k) (s.rdN k) else t, v)
    | none => (t, v)

/-- Words of the window in ascending order. -/
def State.winReads (s : State) (h : Nat) : Nat → Nat → State × List Byte
  | _, 0 => (s, [])
  | o, k + 1 =>
    let (s, v) := s.winRead h o
    let (s, bs) := State.winReads s h (o + 4) k
    (s, leBytes 4 v ++ bs)

/-! ### Device reads -/

def inPages (a n : Nat) : Bool := decide (pagesBase ≤ a) && decide (a + n ≤ pagesBase + 0x100000)
def inWindow (a n : Nat) : Bool := decide (winBase ≤ a) && decide (a + n ≤ winBase + winSize)

/-- A read of `n` bytes at a device address by master `m`, through port `h` (2 for none). -/
def State.devRead (s : State) (m h a n : Nat) : State × Access × List Byte :=
  let plain (s : State) (a : Nat) : State × Access × List Byte :=
    match s.load m a n with
    | (s, some d) => (s, .done, d)
    | (s, none) => (s, .ca, [])
  if inPages a n then
    if sizeOk a n then
      let (s, d) := s.readRegs h (a - pagesBase) (n / 4)
      (s, .done, d)
    else (s, .ur, [])
  else if inWindow a n then
    let o := a - winBase
    if !sizeOk o n || !winListed o n then (s, .ur, [])
    else if isCal o then (if inStore (s.calAddr o) n then plain s (s.calAddr o) else (s, .ur, []))
    else
      let (s, d) := s.winReads h o (n / 4)
      (s, .done, d)
  else if inStore a n then plain s a
  else (s, .ur, [])

end Sys2Proof.Machine
end

