-- ==== Sys2Proof/Machine/Registers.lean ====
section
/-! DEFINITION. Writes of the register pages, the command slot's dispatch, BAR2, internal accesses and DBG_ACCESS (R33, R355, R359,
R362, R446, R470 to R484). -/

namespace Sys2Proof.Machine

/-! ### Commands by page and code -/

/-- CMD_SEND through BLK_CMD: the frame at the address in BLK_ARG0 and 1 (R77; log 8). -/
def State.canSendAt (s : State) (c : Nat) : State :=
  let (s, d) := s.loadFor (some (pgCan c)) mHub (s.argAddr (pgCan c) 0) 80
  let (i, ide, rtr, fd, bs) := Config.canFrame (d.getD [])
  s.canSend c { ident := i, ide := ide, rtr := rtr, fd := fd, data := bs }

/-- CMD_PROVISION through BLK_CMD: the block at the address in BLK_ARG0 and 1 (R443; log 8). -/
def State.provisionAt (s : State) : State :=
  let (s, d) := s.secLoad (s.argAddr pgSec 0) 512
  let (f, m, k, ml) := Config.provBlock d
  s.provision { fKeys := f, mKeys := m, debugKey := k, mlDsa65 := ml }

/-- A command that only acts, and completes DONE. -/
def thenDone (p : Nat) (f : State → State) (s : State) : State := (f s).cmdDone p resDone

/-- What a code does on a page; none for an unknown code (R77, R189, R216, R249, R274, R303, R306, R331, R332, R403, R429, R450,
R452). -/
def pageCommand (p code : Nat) : Option (State → State) :=
  match pageKind p, code with
  | some .tt, 1 => some (·.ttLoad)
  | some .tt, 2 => some (·.ttUnload)
  | some .tt, 3 => some (·.ttActivate)
  | some .tt, 4 => some (·.ttDeactivate)
  | some .tt, 5 => some (·.ttSwap)
  | some .tt, 6 => some (·.ttUnfence)
  | some .grid, 1 => some (·.calCommit)
  | some .grid, 2 => some (·.gridRelock)
  | some .grid, 3 => some (·.evidClear)
  | some .trk, 1 => some (·.trkCommand 1)
  | some .trk, 2 => some (·.trkCommand 2)
  | some .trk, 3 => some (·.trkCommand 3)
  | some .trk, 4 => some (·.trkCommand 4)
  | some .chain, 1 => some (·.coefLoad)
  | some .ego, 1 => some (·.egoCmdRestart)
  | some .time, 1 => some (·.acceptJump)
  | some .time, 2 => some (·.fusSource)
  | some .time, 3 => some (·.fusStepCmd)
  | some .time, 4 => some (·.fusAnchorCmd)
  | some .eng4, 1 => some (·.marginEnter)
  | some .eng4, 2 => some (·.marginExit)
  | some .eth, 1 => some (·.ethSend (p - 0x30))
  | some .can, 1 => some (·.canSendAt (p - 0x3A))
  | some .can, 2 => some (thenDone p (·.canRecover (p - 0x3A)))
  | some .safe, 1 => some (·.clearFirst)
  | some .safe, 2 => some (·.injectCmd)
  | some .safe, 3 => some (·.unfenceFab)
  | some .pwr, 1 => some (·.stopCmd)
  | some .pwr, 2 => some (thenDone p (·.pendClear))
  | some .sec, 1 => some (·.secCmd (·.bootCmd))
  | some .sec, 2 => some (·.secCmd (·.provisionAt))
  | some .sec, 3 => some (·.secCmd (·.lifecycleCmd))
  | some .sec, 4 => some (·.secCmd (·.revoke))
  | some .sec, 5 => some (·.secCmd (·.svnCommit))
  | some .sec, 6 => some (·.secCmd (·.extendCmd))
  | some .dbg, 1 => some (·.unlockCmd)
  | some .dbg, 2 => some (thenDone p (·.relock))
  | some .dbg, 3 => some (thenDone p (·.makeNonce))
  | _, _ => none

/-- Whether the observer may issue a code: CMD_STOP alone (R355). -/
def observerMay (p code : Nat) : Bool := p == pgPwr && code == 1

/-! ### When a register takes a write (R33, R470) -/

/-- Registers that are written to act (W1S). -/
def isW1s (p o : Nat) : Bool :=
  match pageKind p with
  | some .csi => o == 0x154
  | some .eth => o == 0x1A4
  | some .grid => o == 0x14C
  | some .commons => o == 0x124
  | _ => false

/-- Whether a register has bits that a write can change or act on. -/
def writable (p o : Nat) : Bool :=
  if o < 0x100 then (o == 0x0C && p != pgSys) || o == 0x14 || o == 0x1C
  else isW1s p o || (match findRow (rowsOf p) o with
    | some (r, _) => r.mask != 0
    | none => false)

/-- The condition of a register's row. -/
def State.condHolds (s : State) (p : Nat) (r : RegRow) (i : Nat) : Bool :=
  match r.cond with
  | .always => true
  | .idleOnly => s.blk p == stOff || s.blk p == stIdle
  | .idle => s.blk p == stIdle
  | .disabled e => !s.bit (rk p (e + i * r.st)) 0

/-- What a page asks beside the row's condition (R77, R82, R186, R215, R224, R282, R351, R431, R448, R449, R494). -/
def State.writeMay (s : State) (p o : Nat) (v : Word) : Bool :=
  match pageKind p with
  | some .grid =>
    if 0x200 ≤ o && o < 0xA00 && 0x20 ≤ (o - 0x200) % 0x80 then s.grid.commit != some ((o - 0x200) / 0x80) else true
  | some .tt => if 0x200 ≤ o then s.mst ((o - 0x200) / 0x40) == msReady else true
  | some .chain => if 0x200 ≤ o && (o - 0x200) % 0x20 = 0x0C then s.blk p == stOff || s.blk p == stIdle else true
  | some .mem => if o = 0x148 then s.injectMay else true
  | some .sec => if o = 0x104 then s.develop else true
  | some .dbg => if o = 0x104 then s.scopeOk 2 else true
  | some .stream => if o = 0x108 then v.toNat % 4 != 3 else true
  | some .quay => if o = 0x100 then v.toNat % 16 != 0 && v.toNat % 16 != 15 else true
  | some .eng | some .eng4 =>
    if o = 0x104 then !(0x16 ≤ p && v.toNat % 4 == 1 && s.margin != 0)
    else if o = 0x12C then [pgEng 4, pgEng 5].all (fun q => s.blk q == stOff || s.blk q == stIdle)
    else true
  | _ => true

def State.takesWrite (s : State) (p o : Nat) (v : Word) : Bool :=
  (match findRow (rowsOf p) o with
    | some (r, i) => s.condHolds p r i
    | none => true) && s.writeMay p o v

/-- Whether a write would have an effect at all: a W1C or W1S write of 0 has none (R470). -/
def acts (p o : Nat) (v : Word) : Bool := if o == 0x14 || o == 0x1C || isW1s p o then v != 0 else true

/-! ### Registers whose write does more than store -/

/-- A control register whose EN stands in bit 0: while EN is 1 its other fields stay, and a change of them sets CFG_IGNORED; with EN at
0 the fields are stored, and a set EN is then judged (R82, R192, R333). -/
def State.enCtrl (s : State) (p o mask : Nat) (v : Word) (judge stop : State → State) : State :=
  let k := rk p o
  let new := v.toNat &&& (mask - 1)
  if s.bit k 0 then
    let s := if new = s.rdN k &&& (mask - 1) then s else s.cfgIgnored p
    if v.getLsbD 0 then s else stop (s.setBit k 0 false)
  else
    let s := s.wrN k new
    if v.getLsbD 0 then judge (s.setBit k 0 true) else s

/-- An ENG_BIN_CTRL whose EN has been set is judged (R192). -/
def State.binJudge (s : State) (k : Nat) : State :=
  if s.binRefused k (s.rdN (binKey k 0)) then (s.setBit (binKey k 0) 0 false).event (pgEng 0) 1 else s.binStart k

/-- Whether GRID_STR_CTRL's selection exceeds 20 GB/s, which is 20,000 bytes in a µs (R243). -/
def State.strRefused (s : State) (v : Nat) : Bool :=
  let span (o : Nat) : Nat := s.fld (rk pgGrid o) 25 16 + 1 - s.fld (rk pgGrid o) 9 0
  let per := (if v.testBit 1 then 4 else 0) + (if v.testBit 2 then 64 else 0)
  let list := if v.testBit 3 then 16 + 4 * s.fld (rk pgGrid 0x130) 20 0 else 0
  decide (20000 * (bits v 15 8 * s.fld (rk pgGrid 0x104) 16 0) < 128 + span 0x144 * span 0x148 * per + list)

/-- The bits of a row are stored, and the others stay. -/
def State.storeRow (s : State) (p o : Nat) (v : Word) : State :=
  match findRow (rowsOf p) o with
  | some (r, _) =>
    let k := rk p o
    s.wr k ((s.rd k &&& ~~~(BitVec.ofNat 32 r.mask)) ||| (v &&& BitVec.ofNat 32 r.mask))
  | none => s

/-- A write to GRID's page. -/
def State.gridWrite (s : State) (o : Nat) (v : Word) : State :=
  if o = 0x14C then s.conflictClr v
  else
    let cell := s.fld (rk pgGrid 0x100) 5 0
    let s := s.storeRow pgGrid o v
    if o = 0x140 && v.getLsbD 0 && s.strRefused v.toNat then (s.setBit (rk pgGrid o) 0 false).event pgGrid 1
    else if o = 0x100 && s.fld (rk pgGrid 0x100) 5 0 ≠ cell then { s with grid := { s.grid with cellChanged := true } }
    else s

/-- A write to an engine's page. -/
def State.engWrite (s : State) (e o : Nat) (v : Word) : State :=
  if o = 0x124 then s.engStatsModel e v
  else if e = 0 && 0x200 ≤ o && o < 0x300 && o % 16 = 0 then
    s.enCtrl (pgEng 0) o 0x03FF000F v (fun s => s.binJudge ((o - 0x200) / 16)) id
  else s.storeRow (pgEng e) o v

/-- DBG_HALT (R448). -/
def State.dbgWrite (s : State) (v : Word) : State := (s.haltThimum (v.getLsbD 0)).haltAll (v.getLsbD 1)

/-- K_NOM of a port is the K that is written to its TMAP register while it is IDLE, the only time the register takes a write (R45, R240). -/
def State.kWrite (s : State) (p o v : Nat) : State :=
  if p < 0x30 then (if o = 0x150 then s.setCsi (p - 0x20) { s.csiAt (p - 0x20) with kNom := v } else s)
  else if o = 0x1A0 then s.setEth (p - 0x30) { s.ethAt (p - 0x30) with kNom := v } else s

/-- A write of page `p` that takes effect. -/
def State.regWrite (s : State) (p o : Nat) (v : Word) : State :=
  if o = 0x0C then s.ctrlWrite p v
  else if o = 0x14 then s.eventsClear p false v
  else if o = 0x1C then s.eventsClear p true v
  else match pageKind p with
    | some .csi => if o = 0x154 then s.csiCommit (p - 0x20) v.toNat else (s.storeRow p o v).kWrite p o v.toNat
    | some .eth => if o = 0x1A4 then s.ethCommit (p - 0x30) v.toNat else (s.storeRow p o v).kWrite p o v.toNat
    | some .commons => s.conflictsClr v
    | some .mem => if o = 0x148 then s.memInject v else s.storeRow p o v
    | some .grid => s.gridWrite o v
    | some .eng0 | some .eng | some .eng4 => s.engWrite (p - 0x12) o v
    | some .fend =>
      if o < 0x500 && o % 0x80 = 0 then
        s.enCtrl p o 0x73F v (fun s => s.sensJudge (p - 0x1A) ((o - 0x100) / 0x80)) (fun s => s.sensStop (p - 0x1A) ((o - 0x100) / 0x80))
      else s.storeRow p o v
    | some .trig =>
      if o % 0x20 = 0 then
        s.enCtrl p o 0xF v (fun s => s.trigJudge ((o - 0x100) / 0x20)) (fun s => s.trigDisarm ((o - 0x100) / 0x20))
      else s.storeRow p o v
    | some .chain =>
      let s := s.storeRow p o v
      if 0x200 ≤ o && (o - 0x200) % 0x20 = 0 && v.getLsbD 0 then s.chanJudge ((o - 0x200) / 0x20) else s
    | some .pci => if 0x300 ≤ o && (o - 0x300) % 0x40 = 0 then s.ringCtrl (p - 0x08) ((o - 0x300) / 0x40) v else s.storeRow p o v
    | some .stream => if o = 0x104 then s.tapSens v else if o = 0x120 then s.resultEn v else s.storeRow p o v
    | some .dbg => s.dbgWrite v
    | some .trk => if o = 0x128 then (s.storeRow p o v).trkShow.warmShow else s.storeRow p o v
    | some .tt => (s.storeRow p o v).biasShow.safeShow
    | some .safe | some .fab => (s.storeRow p o v).safeShow
    | _ => s.storeRow p o v

/-! ### A write by a port or an internal master -/

/-- A write of a register by port `h`, or by an internal master (`h` 2), whose writes act as the owner's except where a register
belongs to a port (log 63). `bar2` marks a write through BAR2, where the observer writes nothing (R359). -/
def State.writeReg (s : State) (h p o : Nat) (v : Word) (bar2 : Bool := false) : State :=
  let own : Bool := decide (2 ≤ h) || p == pgPort h || s.isOwner h
  let free : Bool := !bar2 || s.isOwner h
  let deny (takes : Bool) : State := if takes then s.denied h else s
  match pageKind p with
  | none => s
  | some k =>
    if h < 2 && p = pgPort (1 - h) then s.denied h
    else if isCopy o then
      let m := if o = 0x18 then 2 ^ eventBits k - 1 else if o = 0x20 then 2 ^ faultBits k - 1 else m32
      if 2 ≤ h then s else if free then s.wrN (copyKey h p o) (v.toNat &&& m) else deny true
    else if o = 0x24 then if 2 ≤ h || free then s.dismissWrite h p v else deny (v == 0x0D15)
    else if o = 0x28 then
      let c := v.toNat % 256
      if 2 ≤ h then s else if free then s.command h p c (observerMay p c) (pageCommand p c) else deny true
    else if p = pgPwr && o = 0x108 then if 2 ≤ h || free then s.padRelease v else deny (v.getLsbD 0)
    else if p = pgCommons && o = 0x104 then if own && free then s.cfgIgnored p else s
    else if !writable p o then s
    else if own && (2 ≤ h || free) then (if s.takesWrite p o v then s.regWrite p o v else s.cfgIgnored p)
    else deny (s.takesWrite p o v && acts p o v)

/-- Registers written in ascending order from an offset of BAR0. -/
def State.writeRegs (s : State) (h : Nat) (bar2 : Bool) : Nat → List Nat → State
  | _, [] => s
  | o, v :: vs => State.writeRegs (s.writeReg h (o / 0x1000) (o % 0x1000) (BitVec.ofNat 32 v) bar2) h bar2 (o + 4) vs

/-- The 32-bit words of bytes. -/
def wordsOf (bs : List Byte) : List Nat := (List.range (bs.length / 4)).map (wordAt bs)

/-- A host write through BAR0 (R471): accepted, and counted, whatever the registers make of it. -/
def State.barWrite (s : State) (h o : Nat) (bs : List Byte) : State :=
  if sizeOk o bs.length && o + bs.length ≤ 0x100000 then
    ((s.reply h .done).writeRegs h false o (wordsOf bs)).bump (rk (pgPort h) 0x48)
  else s.replyUr h

/-! ### Writes of the table window (R483, R484) -/

/-- Whether port `h` may write: an observer may not (R355). An internal master writes as the owner does (log 63). -/
def State.mayWrite (s : State) (h : Nat) : Bool := decide (2 ≤ h) || s.isOwner h

/-- A 32-bit word written to the synapse and routing windows: they take writes while FAB is OFF or IDLE (R127). -/
def State.winTable (s : State) (o v : Nat) : State :=
  if s.blk pgFab = stOff || s.blk pgFab = stIdle then
    match tableReg o with
    | some k =>
      if k < rtrKey 0 0 && k % 0x100 = 0 then s.wrN k (v &&& 0xFF)
      else if k < rtrKey 0 0 && k % 0x100 = 4 then s.wrN k (v &&& 0xFFFFF800)
      else s
    | none => if tableMask o = 0 then s else s.putLE (winBase + o) 4 (v &&& tableMask o)
  else
    match tableReg o with
    | some k => if k < rtrKey 0 0 && k % 0x100 < 8 then s.cfgIgnored pgFab else s
    | none => if tableMask o = 0 then s else s.cfgIgnored pgFab

/-- A calibration table's word: a PENDING bank whose source has no commit waiting takes it (R224). The answer is false for an error
response. -/
def State.winCal (s : State) (m o : Nat) (bs : List Byte) : State × Bool :=
  let r := o - 0x20000000
  let k := r / 0x1000000
  if r / 0x800000 % 2 = (s.calOf k).bank || s.grid.commit = some k then (s.cfgIgnored pgGrid, true)
  else s.store m (s.calAddr o) bs

/-- Words of the window outside the calibration tables, in ascending order. -/
def State.winWrite (s : State) (h : Nat) : Nat → List Nat → State
  | _, [] => s
  | o, v :: vs =>
    let s :=
      if o < 0x20000000 then (s.winTable o v).touchCore h o
      else if o < 0x30800000 then s.cfgIgnored pgTrk
      else s.cfgIgnored pgChain
    State.winWrite s h (o + 4) vs

/-- Words of 8 bytes of a calibration table, in ascending order. -/
def State.winCals (s : State) (m : Nat) : Nat → List (List Byte) → State × Bool
  | _, [] => (s, true)
  | o, b :: bs =>
    let (s, ok) := s.winCal m o b
    let (s, ok') := State.winCals s m (o + 8) bs
    (s, ok && ok')
def eights : Nat → List Byte → List (List Byte)
  | 0, _ => []
  | k + 1, bs => if bs.isEmpty then [] else bs.take 8 :: eights k (bs.drop 8)

/-- The sizes of a window write (R484). -/
def winSizeOk (o n : Nat) : Bool := (n == 4 && o % 4 == 0) || (n != 0 && n % 8 == 0 && o % 8 == 0)

/-! ### Device writes -/

/-- Whether a write meets a region of an enabled sensor (R82). -/
def State.surfLocked (s : State) (h a n : Nat) : Bool :=
  inSurf h a n && (List.range 8).any (fun k => s.sensEn h k &&
    (s.sensRegions h k).any (spansMeet (a - surfBase h, n)))

/-- A write to memory at a device address. -/
def State.plainWrite (s : State) (m a : Nat) (bs : List Byte) : State × Access :=
  match (List.range 2).find? (fun h => s.surfLocked h a bs.length) with
  | some h => (s.event (pgFend h) 2, .done)
  | none => match s.store m a bs with
    | (s, true) => (s, .done)
    | (s, false) => (s, .ca)

/-- A write of the window. -/
def State.windowWrite (s : State) (m h a : Nat) (bs : List Byte) : State × Access :=
  let o := a - winBase
  let n := bs.length
  if !winSizeOk o n || !winListed o n then (s, .ur)
  else if isCal o then
    if inStore (s.calAddr o) n then
      match s.winCals m o (eights n bs) with
      | (s, true) => (s, .done)
      | (s, false) => (s, .ca)
    else (s, .ur)
  else (s.winWrite h o (wordsOf bs), .done)

/-- A write at a device address by master `m`, through port `h` (2 for none). What a port has no right to write is discarded and
counted (R355; log 64). -/
def State.devWrite (s : State) (m h a : Nat) (bs : List Byte) : State × Access :=
  let n := bs.length
  if inPages a n then
    if sizeOk a n then (s.writeRegs h true (a - pagesBase) (wordsOf bs), .done) else (s, .ur)
  else if inWindow a n then
    if s.mayWrite h || !winSizeOk (a - winBase) n || !winListed (a - winBase) n then s.windowWrite m h a bs
    else if a - winBase < 0x30000000 then (s.denied h, .done)
    else (s, .done)
  else if !inStore a n then (s, .ur)
  else if s.mayWrite h || touchesSec a n && inCommons a n then s.plainWrite m a bs
  else (s.denied h, .done)

/-- An upset that an access meets in its first granule or word. -/
def State.upsetAt (s : State) (a n : Nat) (u : Upset) : State :=
  if inLpddr a n then s.upset (a / 32) u
  else if inCommons a n && !(u == Upset.none) then
    { s with memc := { s.memc with commonsBad := SMap.set (fun _ => Upset.none) s.memc.commonsBad (a / 8) u } }
  else s

/-- PCIA and PCIB as masters of the Commons (R342). -/
def portMaster (h : Nat) : Nat := 12 + h
/-- PCIx_BAR2_BASE (R380). -/
def State.bar2Base (s : State) (h : Nat) : Nat :=
  s.fld (rk (pgPort h) 0x108) 31 30 * 2 ^ 30 + s.fld (rk (pgPort h) 0x10C) 15 0 * 2 ^ 32

/-- A read through BAR2 (R359, R391). -/
def State.bar2Read (s : State) (h a n : Nat) (u : Upset) : State :=
  match (s.upsetAt a n u).devRead (portMaster h) h a n with
  | (s, .done, d) => (s.reply h .done d).bump (rk (pgPort h) 0x40)
  | (s, .ur, _) => s.replyUr h
  | (s, .ca, _) => s.replyCa h

/-- A posted write that a Completer Abort meets is logged by Advanced Error Reporting (R391). -/
def State.aer (s : State) (h : Nat) : State := s.setPort h { s.portAt h with aerLog := (s.portAt h).aerLog + 1 }

/-- A write through BAR2. -/
def State.bar2Write (s : State) (h a : Nat) (bs : List Byte) (u : Upset) : State :=
  match (s.upsetAt a bs.length u).devWrite (portMaster h) h a bs with
  | (s, .done) => (s.reply h .done).bump (rk (pgPort h) 0x48)
  | (s, .ur) => s.replyUr h
  | (s, .ca) => (s.replyCa h).aer h

/-- A word of BAR4 (R358): the MSI-X table from 0x000, the pending bits of the 64 vectors from 0x800; the rest reads as 0 (log 78). -/
def HostPort.bar4Word (q : HostPort) (o : Nat) : Nat :=
  if o < 0x400 then SMap.get msixReset q.msixTbl (o / 4)
  else if 0x800 ≤ o && o < 0x808 then
    ((List.range 32).map (fun b => if q.msixPend.contains (8 * (o - 0x800) + b) then 2 ^ b else 0)).sum
  else 0

/-- A write to a word of BAR4: the table alone takes it, and of a vector control its mask bit alone. -/
def HostPort.bar4Put (q : HostPort) (o v : Nat) : HostPort :=
  if o < 0x400 then
    { q with msixTbl := SMap.set msixReset q.msixTbl (o / 4) (if o / 4 % 4 = 3 then v % 2 else v % 2 ^ 32) }
  else q

/-- An access to BAR4 (R358, R376): aligned, of 4 or 8 bytes (log 78). A message that was held and that no mask holds any more is
sent. -/
def State.bar4 (s : State) (h o n : Nat) (wr : Option (List Byte)) : State :=
  let q := s.portAt h
  match wr with
  | some bs =>
    if !sizeOk o bs.length || 0x1000 < o + bs.length then s.replyUr h
    else
      let ws := (wordsOf bs).zipIdx
      ((s.setPort h (ws.foldl (fun q w => q.bar4Put (o + 4 * w.2) w.1) q).flushMsix).reply h .done).bump (rk (pgPort h) 0x48)
  | none =>
    if !sizeOk o n || 0x1000 < o + n then s.replyUr h
    else
      (s.reply h .done ((List.range (n / 4)).flatMap (fun i => leBytes 4 (q.bar4Word (o + 4 * i))))).bump (rk (pgPort h) 0x40)

/-- An access through BAR2 (R359); the command carries an access to BAR4 as one from offset 2^30 on (log 78). -/
def State.bar2 (s : State) (h o n : Nat) (wr : Option (List Byte)) (u : Upset) : State :=
  let len := match wr with
    | some bs => bs.length
    | none => n
  if winSize ≤ o then s.bar4 h (o - winSize) n wr
  else if len = 0 || winSize < o + len then s.replyUr h
  else match wr with
    | some bs => s.bar2Write h (s.bar2Base h + o) bs u
    | none => s.bar2Read h (s.bar2Base h + o) n u

/-! ### Internal masters (R31, R484) -/

/-- A read by an internal master; `u` is an upset in its first granule. A reserved address gives an error response that SYS counts. -/
def State.memRead (s : State) (m a n : Nat) (u : Upset) : State :=
  match (if inLpddr a n then s.upset (a / 32) u else s).devRead m 2 a n with
  | (s, .done, d) => s.memResp m .done d
  | (s, .ur, _) => (s.reservedAccess m a).memResp m .ca []
  | (s, .ca, _) => s.memResp m .ca []

/-- A write by an internal master. -/
def State.memWrite (s : State) (m a : Nat) (bs : List Byte) (u : Upset) : State :=
  match (if inLpddr a bs.length then s.upset (a / 32) u else s).devWrite m 2 a bs with
  | (s, .done) => s.memResp m .done []
  | (s, .ur) => (s.reservedAccess m a).memResp m .ca []
  | (s, .ca) => s.memResp m .ca []

/-! ### JTAG (R446) -/

/-- DBG_ACCESS: the DBG page, and beyond it Thimum, of whose answers the spec says nothing (log 65). -/
def State.dbgAccess (s : State) (o : Nat) (wr : Option Word) : State :=
  if !s.tapOn || !s.scopeOk 1 then s.bypass
  else if 0x1000 ≤ o || o % 4 ≠ 0 then
    match wr with
    | some _ => s
    | none =>
      let (s, ws) := s.drawWords 2
      s.shiftOut (ws.flatMap (fun (w : Word) => leBytes 4 w.toNat))
  else match wr with
    | some v => s.writeReg 2 pgDbg o v
    | none => s.shiftOut (leBytes 8 (s.view 2 pgDbg o))

/-! ### Commands -/

def execCmdUnknown (h : Fin 2) (p : Fin 64) (code : Byte) (s : State) : Out :=
  .next (s.hostCmd h p code.toNat (observerMay p code.toNat) (pageCommand p code.toNat))
def execRegisterWrite (h : Fin 2) (o : Nat) (bs : List Byte) (s : State) : Out := .next (s.hostAccess h (·.barWrite h o bs))
def execLatchingRead (h : Fin 2) (o n : Nat) (s : State) : Out := .next (s.hostAccess h (·.barRead h o n))
def execBar2Access (h : Fin 2) (o n : Nat) (wr : Option (List Byte)) (u : Upset) (s : State) : Out :=
  .next (s.hostAccess h (·.bar2 h o n wr u))
def execMemRead (m : Fin 16) (a n : Nat) (u : Upset) (s : State) : Out := .next (s.memRead m a n u)
def execMemWrite (m : Fin 16) (a : Nat) (bs : List Byte) (u : Upset) (s : State) : Out := .next (s.memWrite m a bs u)
def execDbgAccess (o : Nat) (wr : Option Word) (s : State) : Out := .next (s.dbgAccess o wr)

end Sys2Proof.Machine
end

