-- ==== Sys2Proof/Machine/Dispatch.lean ====
section
/-! DEFINITION. One arm per command. -/

namespace Sys2Proof.Machine

def exec (i : Instr) (s : State) : Host.Outcome State Fault Refusal :=
  match i with
  | .csiPacket p pkt => Sys2Proof.Machine.execCsiPacket p pkt s
  | .csiDecodePacket p => Sys2Proof.Machine.execCsiDecodePacket p s
  | .frameStart p => Sys2Proof.Machine.execFrameStart p s
  | .frameLine p => Sys2Proof.Machine.execFrameLine p s
  | .frameEnd p => Sys2Proof.Machine.execFrameEnd p s
  | .csiTmapCommit h p v => Sys2Proof.Machine.execCsiTmapCommit h p v s
  | .ethFrameRx p frame fcsOk => Sys2Proof.Machine.execEthFrameRx p frame fcsOk s
  | .pointBatch p => Sys2Proof.Machine.execPointBatch p s
  | .ethTmapCommit h p v => Sys2Proof.Machine.execEthTmapCommit h p v s
  | .drdyEdge x0 rising => Sys2Proof.Machine.execDrdyEdge x0 rising s
  | .spiTransfer x0 miso => Sys2Proof.Machine.execSpiTransfer x0 miso s
  | .spiTransferDone x0 => Sys2Proof.Machine.execSpiTransferDone x0 s
  | .silent x0 => Sys2Proof.Machine.execSilent x0 s
  | .wheelEdge w rising => Sys2Proof.Machine.execWheelEdge w rising s
  | .wheelSample w => Sys2Proof.Machine.execWheelSample w s
  | .canFrameRx c f => Sys2Proof.Machine.execCanFrameRx c f s
  | .canSlotSample k => Sys2Proof.Machine.execCanSlotSample k s
  | .canFrameTx c => Sys2Proof.Machine.execCanFrameTx c s
  | .busOff c => Sys2Proof.Machine.execBusOff c s
  | .busOffRecovery c => Sys2Proof.Machine.execBusOffRecovery c s
  | .cmdSend h c f => Sys2Proof.Machine.execCmdSend h c f s
  | .cmdRecover h c => Sys2Proof.Machine.execCmdRecover h c s
  | .fendEvent p => Sys2Proof.Machine.execFendEvent p s
  | .fendOutStall hub cycles => Sys2Proof.Machine.execFendOutStall hub cycles s
  | .clearing k => Sys2Proof.Machine.execClearing k s
  | .sweep hub => Sys2Proof.Machine.execSweep hub s
  | .surfWarm k => Sys2Proof.Machine.execSurfWarm k s
  | .fendStepOpen hub => Sys2Proof.Machine.execFendStepOpen hub s
  | .loopValueWrite t => Sys2Proof.Machine.execLoopValueWrite t s
  | .loopStale t => Sys2Proof.Machine.execLoopStale t s
  | .windowClose => Sys2Proof.Machine.execWindowClose s
  | .edgeRecord hub => Sys2Proof.Machine.execEdgeRecord hub s
  | .edgeInject e => Sys2Proof.Machine.execEdgeInject e s
  | .stepOpen => Sys2Proof.Machine.execStepOpen s
  | .routerCopy r turned => Sys2Proof.Machine.execRouterCopy r turned s
  | .corePacket c u => Sys2Proof.Machine.execCorePacket c u s
  | .coreGate c => Sys2Proof.Machine.execCoreGate c s
  | .reductionRound => Sys2Proof.Machine.execReductionRound s
  | .coreStepClose c residueBad => Sys2Proof.Machine.execCoreStepClose c residueBad s
  | .bellAccounting => Sys2Proof.Machine.execBellAccounting s
  | .countMismatch => Sys2Proof.Machine.execCountMismatch s
  | .tickRecord => Sys2Proof.Machine.execTickRecord s
  | .fabStopping => Sys2Proof.Machine.execFabStopping s
  | .binRecord hub => Sys2Proof.Machine.execBinRecord hub s
  | .binClose k => Sys2Proof.Machine.execBinClose k s
  | .gatherBuild e lists => Sys2Proof.Machine.execGatherBuild e lists s
  | .tileStart e ops => Sys2Proof.Machine.execTileStart e ops s
  | .tileComplete e f => Sys2Proof.Machine.execTileComplete e f s
  | .cmdMarginEnter h => Sys2Proof.Machine.execCmdMarginEnter h s
  | .cmdMarginExit h => Sys2Proof.Machine.execCmdMarginExit h s
  | .railSettled => Sys2Proof.Machine.execRailSettled s
  | .engStatsModel h e v => Sys2Proof.Machine.execEngStatsModel h e v s
  | .cmdLoad h => Sys2Proof.Machine.execCmdLoad h s
  | .loadDone img => Sys2Proof.Machine.execLoadDone img s
  | .cmdUnload h => Sys2Proof.Machine.execCmdUnload h s
  | .cmdActivate h => Sys2Proof.Machine.execCmdActivate h s
  | .cmdDeactivate h => Sys2Proof.Machine.execCmdDeactivate h s
  | .cmdSwap h => Sys2Proof.Machine.execCmdSwap h s
  | .cmdUnfence h => Sys2Proof.Machine.execCmdUnfence h s
  | .triggerFire m buf => Sys2Proof.Machine.execTriggerFire m buf s
  | .inputRewrite m => Sys2Proof.Machine.execInputRewrite m s
  | .taskIssue => Sys2Proof.Machine.execTaskIssue s
  | .taskCompletion => Sys2Proof.Machine.execTaskCompletion s
  | .tileTimeout e => Sys2Proof.Machine.execTileTimeout e s
  | .gridListDeliver => Sys2Proof.Machine.execGridListDeliver s
  | .gridListPlace => Sys2Proof.Machine.execGridListPlace s
  | .epochBoundary => Sys2Proof.Machine.execEpochBoundary s
  | .epochPublish => Sys2Proof.Machine.execEpochPublish s
  | .cmdCalCommit h => Sys2Proof.Machine.execCmdCalCommit h s
  | .cmdRelock h => Sys2Proof.Machine.execCmdRelock h s
  | .cmdEvidClear h => Sys2Proof.Machine.execCmdEvidClear h s
  | .gridConflictClr h v => Sys2Proof.Machine.execGridConflictClr h v s
  | .alignPair src => Sys2Proof.Machine.execAlignPair src s
  | .alignTimeout src => Sys2Proof.Machine.execAlignTimeout src s
  | .trkListDeliver => Sys2Proof.Machine.execTrkListDeliver s
  | .trackerCycle badPairs => Sys2Proof.Machine.execTrackerCycle badPairs s
  | .cmdDelete h => Sys2Proof.Machine.execCmdDelete h s
  | .cmdSetClass h => Sys2Proof.Machine.execCmdSetClass h s
  | .cmdEnrol h => Sys2Proof.Machine.execCmdEnrol h s
  | .cmdClear h => Sys2Proof.Machine.execCmdClear h s
  | .chainSample => Sys2Proof.Machine.execChainSample s
  | .chainStale c => Sys2Proof.Machine.execChainStale c s
  | .firRound => Sys2Proof.Machine.execFirRound s
  | .cmdCoefLoad h => Sys2Proof.Machine.execCmdCoefLoad h s
  | .egoUpdate => Sys2Proof.Machine.execEgoUpdate s
  | .egoGap => Sys2Proof.Machine.execEgoGap s
  | .cmdRestart h => Sys2Proof.Machine.execCmdRestart h s
  | .stepPose => Sys2Proof.Machine.execStepPose s
  | .sync b m => Sys2Proof.Machine.execSync b m s
  | .announce b domain m => Sys2Proof.Machine.execAnnounce b domain m s
  | .pdelay b domain m => Sys2Proof.Machine.execPdelay b domain m s
  | .holdover b => Sys2Proof.Machine.execHoldover b s
  | .timeAcceptJump h => Sys2Proof.Machine.execTimeAcceptJump h s
  | .timeFusSource h => Sys2Proof.Machine.execTimeFusSource h s
  | .timeFusStep h => Sys2Proof.Machine.execTimeFusStep h s
  | .timeFusReanchor h => Sys2Proof.Machine.execTimeFusReanchor h s
  | .fusStepped => Sys2Proof.Machine.execFusStepped s
  | .ethCmdSend h p => Sys2Proof.Machine.execEthCmdSend h p s
  | .launch p => Sys2Proof.Machine.execLaunch p s
  | .trigFire t => Sys2Proof.Machine.execTrigFire t s
  | .memRead m addr len u => Sys2Proof.Machine.execMemRead m addr len u s
  | .memWrite m addr data u => Sys2Proof.Machine.execMemWrite m addr data u s
  | .patrolScrub u => Sys2Proof.Machine.execPatrolScrub u s
  | .memInject h v => Sys2Proof.Machine.execMemInject h v s
  | .commonsAccess reqs => Sys2Proof.Machine.execCommonsAccess reqs s
  | .commonsConflictClr h v => Sys2Proof.Machine.execCommonsConflictClr h v s
  | .wipe cause => Sys2Proof.Machine.execWipe cause s
  | .wiped => Sys2Proof.Machine.execWiped s
  | .commonsInit => Sys2Proof.Machine.execCommonsInit s
  | .cmdUnknown h page code => Sys2Proof.Machine.execCmdUnknown h page code s
  | .blkDismiss h page v => Sys2Proof.Machine.execBlkDismiss h page v s
  | .sysDismiss h v => Sys2Proof.Machine.execSysDismiss h v s
  | .dismissDone page => Sys2Proof.Machine.execDismissDone page s
  | .blkEnable h page => Sys2Proof.Machine.execBlkEnable h page s
  | .blkDisable h page => Sys2Proof.Machine.execBlkDisable h page s
  | .blkHalt h page on => Sys2Proof.Machine.execBlkHalt h page on s
  | .blkTest h page => Sys2Proof.Machine.execBlkTest h page s
  | .testEnd page passed => Sys2Proof.Machine.execTestEnd page passed s
  | .blkEventsClear h page faults v => Sys2Proof.Machine.execBlkEventsClear h page faults v s
  | .registerWrite h off data => Sys2Proof.Machine.execRegisterWrite h off data s
  | .latchingRead h off len => Sys2Proof.Machine.execLatchingRead h off len s
  | .bar2Access h off len wr u => Sys2Proof.Machine.execBar2Access h off len wr u s
  | .ringEnable h ring v => Sys2Proof.Machine.execRingEnable h ring v s
  | .streamRecord => Sys2Proof.Machine.execStreamRecord s
  | .ringWrite h => Sys2Proof.Machine.execRingWrite h s
  | .tapBlockClose => Sys2Proof.Machine.execTapBlockClose s
  | .resultWindow w => Sys2Proof.Machine.execResultWindow w s
  | .linkDown h => Sys2Proof.Machine.execLinkDown h s
  | .linkUp h width rate => Sys2Proof.Machine.execLinkUp h width rate s
  | .perstN h high => Sys2Proof.Machine.execPerstN h high s
  | .functionLevelReset h => Sys2Proof.Machine.execFunctionLevelReset h s
  | .rollCall => Sys2Proof.Machine.execRollCall s
  | .rollCallDeadline fails => Sys2Proof.Machine.execRollCallDeadline fails s
  | .watchdog page unit router => Sys2Proof.Machine.execWatchdog page unit router s
  | .faultClassify found => Sys2Proof.Machine.execFaultClassify s found
  | .clockMonitor khz => Sys2Proof.Machine.execClockMonitor khz s
  | .railTrip n above => Sys2Proof.Machine.execRailTrip n above s
  | .tempSample pairs => Sys2Proof.Machine.execTempSample pairs s
  | .healthyRefreshLost h => Sys2Proof.Machine.execHealthyRefreshLost h s
  | .cmdClearFirst h => Sys2Proof.Machine.execCmdClearFirst h s
  | .cmdInject h => Sys2Proof.Machine.execCmdInject h s
  | .cmdUnfenceFab h => Sys2Proof.Machine.execCmdUnfenceFab h s
  | .cmdStop h => Sys2Proof.Machine.execCmdStop h s
  | .cmdCancel h => Sys2Proof.Machine.execCmdCancel h s
  | .stopEntry => Sys2Proof.Machine.execStopEntry s
  | .quiesceReady => Sys2Proof.Machine.execQuiesceReady s
  | .quiesceTimeout page => Sys2Proof.Machine.execQuiesceTimeout page s
  | .stopRefused => Sys2Proof.Machine.execStopRefused s
  | .drainEnd => Sys2Proof.Machine.execDrainEnd s
  | .stopCommit r => Sys2Proof.Machine.execStopCommit r s
  | .quayMatch => Sys2Proof.Machine.execQuayMatch s
  | .qcmd v => Sys2Proof.Machine.execQcmd v s
  | .wakePhaseDone => Sys2Proof.Machine.execWakePhaseDone s
  | .wakeDone => Sys2Proof.Machine.execWakeDone s
  | .wakeFail cause => Sys2Proof.Machine.execWakeFail cause s
  | .padRelease h v => Sys2Proof.Machine.execPadRelease h v s
  | .coolantLost => Sys2Proof.Machine.execCoolantLost s
  | .coolantTimeout => Sys2Proof.Machine.execCoolantTimeout s
  | .throttleEval => Sys2Proof.Machine.execThrottleEval s
  | .railPg n => Sys2Proof.Machine.execRailPg n s
  | .porstN straps => Sys2Proof.Machine.execPorstN straps s
  | .linkRetrain hub ok => Sys2Proof.Machine.execLinkRetrain hub ok s
  | .flitReplay hub => Sys2Proof.Machine.execFlitReplay hub s
  | .boot image => Sys2Proof.Machine.execBoot image s
  | .cmdBoot h => Sys2Proof.Machine.execCmdBoot h s
  | .cmdProvision h blk => Sys2Proof.Machine.execCmdProvision h blk s
  | .cmdLifecycle h => Sys2Proof.Machine.execCmdLifecycle h s
  | .fuseProgrammed => Sys2Proof.Machine.execFuseProgrammed s
  | .cmdRevoke h => Sys2Proof.Machine.execCmdRevoke h s
  | .cmdSvnCommit h => Sys2Proof.Machine.execCmdSvnCommit h s
  | .cmdExtend h => Sys2Proof.Machine.execCmdExtend h s
  | .spdmRequest h r => Sys2Proof.Machine.execSpdmRequest h r s
  | .tamper d => Sys2Proof.Machine.execTamper d s
  | .cmdUnlock h => Sys2Proof.Machine.execCmdUnlock h s
  | .cmdNonce h => Sys2Proof.Machine.execCmdNonce h s
  | .unlockExpiry => Sys2Proof.Machine.execUnlockExpiry s
  | .dbgToken token => Sys2Proof.Machine.execDbgToken token s
  | .dbgAccess off wr => Sys2Proof.Machine.execDbgAccess off wr s
  | .extest drive => Sys2Proof.Machine.execExtest drive s
  | .samplePreload v => Sys2Proof.Machine.execSamplePreload v s
  | .idcode => Sys2Proof.Machine.execIdcode s
  | .bypass => Sys2Proof.Machine.execBypass s
  | .dbgHaltThimum h on => Sys2Proof.Machine.execDbgHaltThimum h on s
  | .dbgHaltAll h on => Sys2Proof.Machine.execDbgHaltAll h on s
  | .dbgCmdRelock h => Sys2Proof.Machine.execDbgCmdRelock h s
  | .coolantOk => Sys2Proof.Machine.execCoolantOk s
  | .lockLoss d => Sys2Proof.Machine.execLockLoss d s
  | .linkFatal h => Sys2Proof.Machine.execLinkFatal h s
  | .clearDone k => Sys2Proof.Machine.execClearDone k s
  | .fusionSlewEnd => Sys2Proof.Machine.execFusionSlewEnd s

end Sys2Proof.Machine
end

