-- ==== Sys2Proof/Safety.lean ====
section
/-! DEFINITION. What a safe state of the device is, and the terms the statements use. -/

namespace Sys2Proof.Machine

/-- Registers, device memory, evidence planes and the track table are in their canonical form. -/
def State.canonical (s : State) : Bool :=
  SMap.wf regReset s.regs && SMap.wf memDefault s.mem && SMap.wf planeDefault s.gridMem &&
    SMap.wf (fun _ => none) s.trk.tracks

/-- Every byte of device memory reads as before. -/
def sameBytes (s t : State) : Prop := ∀ a, t.byte a = s.byte a

/-- Every byte of device memory outside a range reads as before. -/
def sameBytesBut (s t : State) (lo n : Nat) : Prop := ∀ a, ¬ (lo ≤ a ∧ a < lo + n) → t.byte a = s.byte a

/-- Every byte of device memory outside several ranges, given by start and length, reads as before. -/
def sameBytesOff (s t : State) (rs : List (Nat × Nat)) : Prop := ∀ a, (∀ r ∈ rs, ¬ (r.1 ≤ a ∧ a < r.1 + r.2)) → t.byte a = s.byte a

/-- Every register outside a list of keys reads as before. -/
def sameRegs (s t : State) (ks : List Nat) : Prop := ∀ k, k ∉ ks → t.rd k = s.rd k

/-- No granule of LPDDR5X holds an error, and no injection is armed (R351). -/
def State.memClean (s : State) : Bool := s.memc.bad.isEmpty && s.rdN (rk pgMem 0x148) % 4 == 0

/-- The two words of a 64-bit register. -/
def wide (k : Nat) : List Nat := [k, k + 4]

/-- A host access of a port reaches the device: the link is up and the function out of reset, the port is not off, and PWR is in
RUN or QUIESCE (R354, R408). -/
def State.reaches (s : State) (h : Nat) : Bool :=
  (s.portAt h).link && !(s.portAt h).inReset && decide (s.role h ≠ 3) && decide (s.fld (rk pgPwr 0x104) 1 0 < 2)

/-- The command slot of a page takes a command: it is not BUSY and the block is not OFF, DISMISSING or TESTING (R362). -/
def State.slotTakes (s : State) (p : Nat) : Bool := !s.busy p && !([stOff, stDismissing, stTesting].contains (s.blk p))

/-- A host port that owns the device writes BLK_CMD of a page whose slot takes it. -/
def State.issues (s : State) (h p : Nat) : Bool := s.reaches h && s.isOwner h && s.slotTakes p

/-- Argument `i` as the host port has written it into its own copy (R356). -/
def State.hostArg (s : State) (h p i : Nat) : Nat := s.rdN (copyKey h p (0x30 + 4 * i))

/-- RESULT of the last command of a page (R363). -/
def State.result (s : State) (p : Nat) : Nat := s.fld (rk p 0x2C) 23 16

/-- The registers that a command through BAR0 writes whatever it does: BLK_CMD, CMD_STATUS and the port's count of writes. -/
def slotKeys (h p : Nat) : List Nat := [rk p 0x28, rk p 0x2C] ++ wide (rk (pgPort h) 0x48)

/-- Bytes of a port's host memory, as the device has written them. -/
def State.hostBytes (s : State) (h a n : Nat) : List Byte :=
  (List.range n).map (fun i => SMap.get (fun _ => 0) (s.portAt h).hostMem (a + i))

end Sys2Proof.Machine
end

