-- ==== Sys2Proof/Certificates/Slice0/Obligations.lean ====
section
/-! DEFINITION. The statements. Each docstring names the rules of the spec that the statement follows, and the log entries of what is the
model's choice in it. Statements joined by ∧ are about commands of one shape. -/

open Sys2Proof Sys2Proof.Machine

/-- R35, R37, R50: a RUNNING port queues, with its stamps, a packet with a usable header that its mode accepts and that fits in its entry queue: in EVENT
mode a long packet on its CSI_SEL virtual channel of an enabled event data type, in FRAME mode Frame Start, Frame End and lines of its frame data
type. A corrected header counts. Nothing else changes but the queue's level and ACTIVITY. R36, R37, R38, R50: what a RUNNING port in EVENT mode does
with a packet that it does not queue: an uncorrectable header counts in CNT_HDR_BAD; a short packet on its channel counts nowhere; any other packet
but an enabled event packet counts in CNT_FILT; an event packet of more than 16,384 bytes counts in CNT_HDR_BAD; one with too little free space counts
in CNT_OVF. -/
def Obligations.PacketIsQueuedOrCounted : Prop :=
  (∀ (s : State) (p : Fin 16) (k : CsiPacket),
    let sel := rk (pgCsi p) 0x104
    let need := if k.dt.toNat < 0x10 then 0 else k.payload.length + 2
    s.running (pgCsi p) = true → k.hdr ≠ .bad → k.vc.toNat = s.fld sel 3 0 →
    (s.bit (rk (pgCsi p) 0x100) 0 = false ∧ 0x30 ≤ k.dt.toNat ∧ k.dt.toNat ≤ 0x37 ∧ s.bit sel (8 + (k.dt.toNat - 0x30)) = true ∧
        k.payload.length ≤ 16384 ∨
      s.bit (rk (pgCsi p) 0x100) 0 = true ∧ (k.dt.toNat < 2 ∨ k.dt.toNat = s.fld sel 23 16 ∧ k.dt.toNat ∈ [0x1E, 0x24, 0x2B, 0x2C])) →
    s.fld (rk (pgCsi p) 0x170) 18 0 + need ≤ 262144 →
    ∃ t, exec (.csiPacket p k) s = .next t ∧
      (t.csiAt p).queue = (s.csiAt p).queue ++ [{ pkt := k, tb0 := s.time.tb0, fus := s.now }] ∧
      t.fld (rk (pgCsi p) 0x170) 18 0 = s.fld (rk (pgCsi p) 0x170) 18 0 + need ∧
      (k.hdr = .corrected → t.rd64 (rk (pgCsi p) 0x50) = (s.rd64 (rk (pgCsi p) 0x50) + 1) % 2 ^ 64) ∧
      sameRegs s t ([rk (pgCsi p) 0x170, rk (pgCsi p) 0x174] ++ if k.hdr = .corrected then wide (rk (pgCsi p) 0x50) else []) ∧
      sameBytes s t) ∧
  (∀ (s : State) (p : Fin 16) (k : CsiPacket),
    s.running (pgCsi p) = true → s.bit (rk (pgCsi p) 0x100) 0 = false →
    let onVc := k.vc.toNat = s.fld (rk (pgCsi p) 0x104) 3 0
    let enabled := 0x30 ≤ k.dt.toNat ∧ k.dt.toNat ≤ 0x37 ∧ s.bit (rk (pgCsi p) 0x104) (8 + (k.dt.toNat - 0x30)) = true
    let full := 262144 < s.fld (rk (pgCsi p) 0x170) 18 0 + (k.payload.length + 2)
    let cor := if k.hdr = .corrected then wide (rk (pgCsi p) 0x50) else []
    let counted (t : State) (o : Nat) := t.rd64 (rk (pgCsi p) o) = (s.rd64 (rk (pgCsi p) o) + 1) % 2 ^ 64 ∧
      sameRegs s t (rk (pgCsi p) 0x174 :: wide (rk (pgCsi p) o) ++ cor)
    ∃ t, exec (.csiPacket p k) s = .next t ∧ sameBytes s t ∧
      (k.hdr = .bad → counted t 0x58 ∧ t.csi = s.csi) ∧
      (k.hdr ≠ .bad → k.dt.toNat < 0x10 → onVc → sameRegs s t (rk (pgCsi p) 0x174 :: cor) ∧ t.csi = s.csi) ∧
      (k.hdr ≠ .bad → ¬ (k.dt.toNat < 0x10 ∧ onVc) → ¬ (onVc ∧ enabled) → counted t 0x68 ∧ t.csi = s.csi) ∧
      (k.hdr ≠ .bad → onVc → enabled → 16384 < k.payload.length → counted t 0x58 ∧ t.csi = s.csi) ∧
      (k.hdr ≠ .bad → onVc → enabled → k.payload.length ≤ 16384 → full →
        counted t 0x48 ∧ (t.csiAt p).queue = (s.csiAt p).queue))

/-- R38, R43, R45: the decoder of a RUNNING port in EVENT mode takes the packet at the head of the entry queue once its last output is taken. One whose
CRC fails counts in CNT_CRC and gives nothing. One that holds a single EVENT word, after a TIME_HI word, gives one KIND 0 record with the word's X, Y
and polarity and the time T = A + ((s - B) * K) >> 24, held to the packet's FUSION stamp. -/
def Obligations.EventWordBecomesARecord : Prop :=
  ∀ (s : State) (p : Fin 16) (q : CsiQueued) (rest : List CsiQueued) (d : Desc) (thi : Nat),
    s.running (pgCsi p) = true → s.bit (rk (pgCsi p) 0x100) 0 = false → (s.csiAt p).out = [] →
    (s.csiAt p).queue = q :: rest → s.csiDesc p = some d → (s.csiAt p).prevThi = some thi →
    0 < d.wb → q.pkt.payload.length = d.wb →
    d.typeOf (if d.swap then beNat q.pkt.payload else leNat q.pkt.payload) = some .event →
    let w := if d.swap then beNat q.pkt.payload else leNat q.pkt.payload
    let x : Nat := ((s.csiAt p).wraps * 2 ^ (d.thi.w + d.tlo.w) + thi * 2 ^ d.tlo.w + d.tlo.get w) % 2 ^ 64
    let r := (s.csiAt p).triple
    let T : Int := r.a + Int.fdiv ((x - r.b) * r.k) 16777216
    let T' : Nat := if (q.fus : Int) < T then q.fus else ofSigned 64 T
    ∃ t, exec (.csiDecodePacket p) s = .next t ∧ (t.csiAt p).queue = rest ∧ sameBytes s t ∧
      (q.pkt.crcOk = false → t.rd64 (rk (pgCsi p) 0x60) = (s.rd64 (rk (pgCsi p) 0x60) + 1) % 2 ^ 64 ∧ (t.csiAt p).out = []) ∧
      (q.pkt.crcOk = true →
        (t.csiAt p).out = [ze64 p (d.x.get w) (d.y.get w) ((d.pol.get w % 2 == 1) != d.polInv) 0 T'] ∧
        t.rd64 (rk (pgCsi p) 0x40) = (s.rd64 (rk (pgCsi p) 0x40) + 1) % 2 ^ 64 ∧
        t.rd64 (rk (pgCsi p) 0x70) = (s.rd64 (rk (pgCsi p) 0x70) + 1) % 2 ^ 64 ∧
        ((q.fus : Int) < T → t.rdN (rk (pgCsi p) 0x178) = min (s.rdN (rk (pgCsi p) 0x178) + 1) 0xFFFFFFFF))

/-- R44: after a port is enabled, the decoder discards every word that is not TIME_HI, and counts it in CNT_WORD_BAD, until the first TIME_HI word; so
with each VECTOR word before any ROW word since the last TIME_HI. (Bytes that fill no word count once, R43.) -/
def Obligations.WordsBeforeTimeAreDiscarded : Prop :=
  ∀ (s : State) (p : Fin 16) (g : Fin 64) (h : Fin 2) (q : CsiQueued) (rest : List CsiQueued) (d : Desc),
    let ws := chunkWords d.wb d.swap q.pkt.payload
    let bad := ws.length + (if q.pkt.payload.length % d.wb ≠ 0 then 1 else 0)
    let early := (s.csiAt p).prevThi = none ∧ (∀ w ∈ ws, d.typeOf w ≠ some .timeHi)
    let rowless := (s.csiAt p).row = none ∧ (∀ w ∈ ws, d.typeOf w = some .vector)
    (s.running (pgCsi p) = true → s.bit (rk (pgCsi p) 0x100) 0 = false → (s.csiAt p).out = [] → (s.csiAt p).queue = q :: rest → s.csiDesc p = some d →
      q.pkt.crcOk = true → early ∨ rowless →
      ∃ t, exec (.csiDecodePacket p) s = .next t ∧ (t.csiAt p).out = [] ∧ (t.csiAt p).queue = rest ∧ (t.csiAt p).prevThi = (s.csiAt p).prevThi ∧
        (t.csiAt p).row = (s.csiAt p).row ∧ t.rd64 (rk (pgCsi p) 0x78) = (s.rd64 (rk (pgCsi p) 0x78) + bad) % 2 ^ 64 ∧ sameBytes s t) ∧
    (g.val = pgCsi p → s.reaches h = true → s.isOwner h = true → s.blk g = stIdle → s.enabled g = false → s.held g = false → (s.enableJudge g).2 = true →
      ∃ t, exec (.blkEnable h g) s = .next t ∧ t.running g = true ∧ (t.csiAt p).prevThi = none ∧ (t.csiAt p).row = none)

/-- R39, R40 (the places of the header's fields are the model's, log 16): in FRAME mode, at the head of the entry queue, a Frame Start opens the next
buffer of the ring; a line is written at its stride from the header's end, and one whose CRC fails stays and marks the frame; a Frame End closes the
frame and writes its number, its line count and the stamps of its Frame Start and Frame End packets into the header. The stores reach LPDDR5X alone, and no byte outside the line, or the header, changes. -/
def Obligations.FrameLandsInItsBuffer : Prop :=
  ∀ (s : State) (p : Fin 16) (q : CsiQueued) (rest : List CsiQueued) (f : OpenFrame),
    let at_ := s.csiBufAddr p f.buffer
    let line := q.pkt.payload.take (s.csiStride p)
    s.running (pgCsi p) = true → s.bit (rk (pgCsi p) 0x100) 0 = true → (s.csiAt p).queue = q :: rest →
    (q.pkt.dt.toNat = 0 → (s.csiAt p).frame = none →
      ∃ t, exec (.frameStart p) s = .next t ∧ (t.csiAt p).queue = rest ∧ sameBytes s t ∧
        (t.csiAt p).frame = some {
          number := (s.csiAt p).frameNo
          buffer := (s.csiAt p).nextBuf % s.csiBuffers p
          startTb0 := q.tb0
          startFus := q.fus
          lines := 0
          crcError := false
          overflow := (s.csiAt p).ovfMark } ∧
        (t.csiAt p).nextBuf = ((s.csiAt p).nextBuf + 1) % s.csiBuffers p) ∧
    ((s.csiAt p).frame = some f → s.memClean = true → s.planes = [] →
      (0x10 ≤ q.pkt.dt.toNat → f.lines < s.csiHeight p → at_ + 64 + f.lines * s.csiStride p + line.length ≤ lpddrEnd →
        ∃ t, exec (.frameLine p) s = .next t ∧ (t.csiAt p).queue = rest ∧
          (t.csiAt p).frame = some { f with lines := f.lines + 1, crcError := f.crcError || !q.pkt.crcOk } ∧
          t.bytes (at_ + 64 + f.lines * s.csiStride p) line.length = line ∧
          sameBytesBut s t (at_ + 64 + f.lines * s.csiStride p) line.length) ∧
      (q.pkt.dt.toNat = 1 → at_ + 64 ≤ lpddrEnd →
        ∃ t, exec (.frameEnd p) s = .next t ∧ (t.csiAt p).queue = rest ∧ (t.csiAt p).frame = none ∧
          t.getLE at_ 8 = f.number % 2 ^ 64 ∧ t.getLE (at_ + 8) 8 = f.startTb0 % 2 ^ 64 ∧ t.getLE (at_ + 16) 8 = f.startFus % 2 ^ 64 ∧
          t.getLE (at_ + 24) 8 = q.tb0 % 2 ^ 64 ∧ t.getLE (at_ + 32) 8 = q.fus % 2 ^ 64 ∧
          t.getLE (at_ + 40) 4 = f.lines % 2 ^ 32 ∧ sameBytesBut s t at_ 64))

/-- R45, R59: an owner's write of 1 to the commit bit makes the written A, B and K the port's triple at once; a write of 0, and an observer's write,
leave it. K_NOM stays what was written while the port was IDLE (R240), and nothing of device memory changes. R239, R240, R241: an alignment unit takes
the pairs that its port offers one by one. In mode 1 it uses the first pair of each period that carries a sensor time: it moves its offset estimate by
(e - o) / 16 and commits A' = map(s) + e / 4 and B' = s as one, with K' clamped to K_NOM ± 500 ppm, or left where there is no earlier pair to measure
from; after UNALIGNED it steps the triple to the pair instead and sets o to 0. In mode 2 only the offset moves, for a stamp within one TRIG period after
the fire. A pair that is not used changes nothing. No pair used for four periods makes an ALIGNED source UNALIGNED; before that, and for a source in
mode 0, nothing happens. -/
def Obligations.AlignmentIsMeasuredAndCommitted : Prop :=
  (∀ (s : State) (h : Fin 2) (v : Word), s.reaches h = true →
    (∀ p : Fin 16, ∃ t, exec (.csiTmapCommit h p v) s = .next t ∧ sameBytes s t ∧ (t.csiAt p).kNom = (s.csiAt p).kNom ∧
      (t.csiAt p).triple = (if s.isOwner h = true ∧ v.getLsbD 0 = true then
        { a := s.rd64 (rk (pgCsi p) 0x140), b := s.rd64 (rk (pgCsi p) 0x148), k := s.rdN (rk (pgCsi p) 0x150) } else (s.csiAt p).triple) ∧
      sameRegs s t (wide (rk (pgPort h) 0x48) ++ wide (rk (pgPort h) 0x60))) ∧
    (∀ p : Fin 8, ∃ t, exec (.ethTmapCommit h p v) s = .next t ∧ sameBytes s t ∧ (t.ethAt p).kNom = (s.ethAt p).kNom ∧
      (t.ethAt p).triple = (if s.isOwner h = true ∧ v.getLsbD 0 = true then
        { a := s.rd64 (rk (pgEth p) 0x190), b := s.rd64 (rk (pgEth p) 0x198), k := s.rdN (rk (pgEth p) 0x1A0) } else (s.ethAt p).triple) ∧
      sameRegs s t (wide (rk (pgPort h) 0x48) ++ wide (rk (pgPort h) 0x60)))) ∧
  (∀ (s : State) (k : Fin 16) (u : Fin 24) (x : Option Nat) (f : Nat) (rest : List (Option Nat × Nat)),
    let v := s.unitAt u
    let tr := s.unitTriple u
    let arrival : Int := (f : Int) - s.srcLat k
    let m := s.fld (srcKey k 4) 11 8
    let fire := s.unitFire u m
    let kn : Int := s.unitKnom u
    let span : Int := (s.unitKnom u * 500 / 1000000 : Nat)
    let fresh := v.period ≠ some (s.now / max 1 (s.alignPeriod k))
    let timely := fire ≤ f ∧ f < fire + s.trigPeriod m ∧ v.period ≠ some (s.lastFire m)
    let shown := [rk pgGrid 0x14, rk pgGrid 0x114, rk pgGrid 0x13C] ++ (List.range 16).flatMap (fun j => [srcKey j 0x10, srcKey j 0x14])
    let tmap := (List.range 5).map (fun i => if u.val < 16 then rk (pgCsi u) (0x140 + 4 * i) else rk (pgEth (u - 16)) (0x190 + 4 * i))
    let clamps := (List.range 16).flatMap (fun j => [clampKey 0 j, clampKey 1 j])
    s.srcUnit k = u →
    (s.unitOffers u = [] → exec (.alignPair k) s = .next s) ∧
    (s.unitOffers u = (x, f) :: rest →
      ∃ t, exec (.alignPair k) s = .next t ∧ sameBytes s t ∧ t.unitOffers u = rest ∧ sameRegs s t (shown ++ tmap ++ clamps) ∧
        (s.srcEn k = false ∨ s.srcMode k = 0 ∨ s.srcMode k = 3 ∨ (s.srcMode k = 1 ∧ (x = none ∨ ¬ fresh)) ∨
          (s.srcMode k = 2 ∧ (¬ timely ∨ (x.isSome = true ∧ u.val < 16))) → t = s.dropOffer u) ∧
        (s.srcEn k = true → s.srcMode k = 1 → fresh → ∀ y ∈ x,
          let e := arrival - tr.map y
          (t.unitAt u).lastUse = s.now ∧ (v.step = true → t.unitTriple u = { a := arrival, b := y, k := tr.k } ∧ (t.unitAt u).off = 0 ∧
            (t.unitAt u).step = false ∧ (t.unitAt u).sprev = none) ∧
          (v.step = false → (t.unitTriple u).a = tr.map y + tdivI e 4 ∧ (t.unitTriple u).b = y ∧
            (t.unitAt u).off = v.off + tdivI (e - v.off) 16 ∧ (t.unitAt u).sprev = some y ∧
            ((∀ z ∈ v.sprev, y ≤ z) → (t.unitTriple u).k = tr.k) ∧
            (∀ z ∈ v.sprev, z < y → ((t.unitTriple u).k : Int) = clampI (kn - span) (kn + span) (tr.k + tdivI (e * (2 ^ 21 : Nat)) ((y : Int) - z))))) ∧
        (s.srcEn k = true → s.srcMode k = 2 → timely → x = none ∨ 16 ≤ u.val → t.unitTriple u = tr ∧ sameRegs s t shown ∧
          (t.unitAt u).lastUse = s.now ∧ (t.unitAt u).off = v.off + tdivI (arrival - fire - v.off) 16))) ∧
  (∀ (s : State) (k : Fin 16),
    let u := s.srcUnit k
    let v := s.unitAt u
    let counts := s.srcEn k = true ∧ s.srcMode k ≠ 0 ∧ v.aligned = true ∧ v.lastUse + 4 * s.alignPeriod k ≤ s.now
    let shown := [rk pgGrid 0x14, rk pgGrid 0x114, rk pgGrid 0x13C] ++ (List.range 16).flatMap (fun j => [srcKey j 0x10, srcKey j 0x14])
    ∃ t, exec (.alignTimeout k) s = .next t ∧ (¬ counts → t = s) ∧
      (counts → sameBytes s t ∧ sameRegs s t shown ∧ t.unitTriple u = s.unitTriple u ∧ t.srcAligned k = false ∧ (t.unitAt u).step = true ∧
        t.bit (srcKey k 0x10) 0 = false ∧ t.bit (rk pgGrid 0x14) 2 = true))

/-- R50, R54, R55, R56: what a RUNNING Ethernet port does with a received frame: one that does not fit counts in CNT_OVF, one whose FCS fails in CNT_FCS,
a PAUSE frame in CNT_FILT, and nothing else happens; a UDP datagram that the point parser's rule matches goes to the point parser with its stamps; a
frame of no other rule goes, with its stamp block, to the general receive ring. R59, R60: the point parser makes of a packet of `n` whole points one
batch in the port's point ring, whose header holds the reference time, the TB0 stamp, the point count and the batch sequence number; with no TIME
locator the reference is the FUSION stamp of the frame. Each missing point counts in CNT_PT_BAD; a packet with no whole point writes no batch and
takes no sequence number. -/
def Obligations.EthernetFrameBecomesABatch : Prop :=
  (∀ (s : State) (p : Fin 8) (f : List Byte) (ok : Bool) (u : Udp),
    let pg := pgEth p
    let e := s.ethAt p
    let fits := e.held + f.length ≤ 65536
    let pause := (ethType f).1 = 0x8808 ∧ beAt f (ethType f).2 2 = 1
    let counted (t : State) (o : Nat) := t.rd64 (rk pg o) = (s.rd64 (rk pg o) + 1) % 2 ^ 64
    let lat := s.fld (rk pg 0x110) 15 0
    let base := s.rd64 (rk pg 0x180)
    let rec_ := s.stampBlock p f.length false ++ f
    s.running pg = true →
    ∃ t, exec (.ethFrameRx p f ok) s = .next t ∧
      (¬ fits → counted t 0x48 ∧ sameRegs s t (wide (rk pg 0x48)) ∧ sameBytes s t ∧ t.eth = s.eth) ∧
      (fits → ok = false → counted t 0x50 ∧ sameRegs s t (wide (rk pg 0x50)) ∧ sameBytes s t ∧ t.eth = s.eth) ∧
      (fits → ok = true → pause → counted t 0x58 ∧ sameRegs s t (wide (rk pg 0x58)) ∧ sameBytes s t ∧ t.eth = s.eth) ∧
      (fits → ok = true → ¬ pause → s.macAccepts p f = true → (ethType f).1 ≠ 0x88F7 → udpOf f = some u → s.ppMatches p u = true →
        (t.ethAt p).ppQueue = e.ppQueue ++ [{ udp := u.data, tb0 := s.time.tb0 - lat, fus := s.fusAgo lat, len := f.length }] ∧
        counted t 0x40 ∧ counted t 0x60 ∧ sameRegs s t (wide (rk pg 0x40) ++ wide (rk pg 0x60)) ∧ sameBytes s t) ∧
      (fits → ok = true → ¬ pause → s.macAccepts p f = true → (ethType f).1 ≠ 0x88F7 → udpOf f = none → s.memClean = true → s.planes = [] →
        e.ringOff + rec_.length < s.rdN (rk pg 0x188) * 4096 → base + e.ringOff + rec_.length ≤ lpddrEnd →
        t.bytes (base + e.ringOff) rec_.length = rec_ ∧ sameBytesBut s t (base + e.ringOff) rec_.length ∧
        t.rdN (rk pg 0x18C) = (e.ringOff + rec_.length) % 2 ^ 32 ∧ counted t 0x40 ∧ (t.ethAt p).ppQueue = e.ppQueue)) ∧
  (∀ (s : State) (p : Fin 8) (f : PpFrame) (rest : List PpFrame),
    let pg := pgEth p
    let e := s.ethAt p
    let count := s.fld (rk pg 0x138) 31 24
    let first := s.fld (rk pg 0x138) 11 0
    let stride := s.fld (rk pg 0x138) 23 12
    let n := min count ((f.udp.length - first) / stride)
    let at_ := s.rd64 (rk pg 0x170) + e.batches
    s.running pg = true → e.ppQueue = f :: rest → 0 < stride →
    ∃ t, exec (.pointBatch p) s = .next t ∧ (t.ethAt p).ppQueue = rest ∧
      (n = 0 → sameBytes s t ∧ (t.ethAt p).batchSeq = e.batchSeq ∧
        t.rd64 (rk pg 0x70) = (s.rd64 (rk pg 0x70) + count) % 2 ^ 64 ∧ sameRegs s t (wide (rk pg 0x70))) ∧
      (0 < n → (s.ppLoc p 8).en = false → s.memClean = true → s.planes = [] →
        e.batches + (32 + 16 * n) < s.rdN (rk pg 0x178) * 4096 → at_ + (32 + 16 * n) ≤ lpddrEnd →
        t.getLE at_ 8 = f.fus % 2 ^ 64 ∧ t.getLE (at_ + 8) 8 = f.tb0 % 2 ^ 64 ∧ t.getLE (at_ + 16) 1 = s.fld (rk pg 0x120) 11 8 ∧
        t.getLE (at_ + 18) 2 = n ∧ t.getLE (at_ + 20) 8 = e.batchSeq % 2 ^ 64 ∧ (t.ethAt p).batchSeq = e.batchSeq + 1 ∧
        sameBytesBut s t at_ (32 + 16 * n)))

/-- R62, R63, R64, R75: an SPI port that is on. An active DRDY edge is stamped and waits IMU_XFER.DELAY; one that comes during a transfer becomes
pending, and replaces a pending one that has not started, which counts in IMU_MISSED; an edge clears SILENT and measures the rate. A transfer reads its
bytes under the edge's stamp; when it ends, each enabled axis `a` of port `sp` becomes a sample of channel 6 sp + a under that stamp, and a pending edge
is next, after its own DELAY (log 20). After 4 nominal periods without an edge SILENT is set in IMU_STATUS and BLK_EVENTS. Device memory does not change.
R50, R65, R66: a wheel input that is on. An edge of the selected kind less than WHEEL_MIN_GAP after the previous accepted one, or one that finds 16
waiting, counts in WHEEL_REJECT; an accepted edge waits for the speed unit, which takes it at its next sample (log 84): its speed is WHEEL_DIST over the
period that the edge ends. The sample at an instant of the channel's rate goes to channel 48 + w, once: the speed while the time e since the last edge is
at most the last period, WHEEL_DIST / e after it, and 0 with STILL past WHEEL_TIMEOUT and before the second edge. -/
def Obligations.InertialPortsSample : Prop :=
  (∀ (s : State) (sp : Fin 8) (rising : Bool) (miso : List Byte) (w : SpiWait) (st : Stamp) (edge : Nat) (d : List Byte),
    let q := s.spiAt sp
    let n := min (s.fld (imuKey sp 8) 7 2 + 1) 32
    let axis (a : Nat) := PLoc.ofReg (s.rdN (imuKey sp (0xC + 4 * a)))
    let now : Stamp := { fus := s.now, tb0 := s.time.tb0 }
    let delay := s.fld (imuKey sp 8) 31 16
    let missed (t : State) := t.rdN (imuKey sp 0x2C) = (s.rdN (imuKey sp 0x2C) + 1) % 2 ^ 32
    s.running pgImu = true → s.bit (imuKey sp 0) 0 = true →
    (s.bit (imuKey sp 0) 2 ≠ rising →
      ∃ t, exec (.drdyEdge sp rising) s = .next t ∧ t.bit (imuKey sp 0x28) 0 = false ∧
        (q.waiting = none → q.active = none → (t.spiAt sp).waiting = some { stamp := now, due := s.time.tb0 + delay }) ∧
        (q.waiting = some w → w.pended = true → missed t ∧ (t.spiAt sp).pendEdge = q.pendEdge ∧
          (t.spiAt sp).waiting = some { w with stamp := now, due := max w.due (s.time.tb0 + delay) }) ∧
        (q.waiting = some w ∧ w.pended = false ∨ q.waiting = none ∧ q.active ≠ none →
          (t.spiAt sp).pendEdge = some now ∧ (t.spiAt sp).waiting = q.waiting ∧ (q.pendEdge ≠ none → missed t)) ∧
        (q.rateFrom = some edge → edge < s.time.tb0 → t.rdN (imuKey sp 0x24) = 10 ^ 9 / (s.time.tb0 - edge) % 2 ^ 32) ∧
        sameRegs s t [imuKey sp 0x24, imuKey sp 0x28, imuKey sp 0x2C] ∧ sameBytes s t) ∧
    (q.waiting = some w → w.due ≤ s.time.tb0 → n ≤ miso.length →
      ∃ t, exec (.spiTransfer sp miso) s = .next t ∧ (t.spiAt sp).active = some (w.stamp, miso.take n) ∧ (t.spiAt sp).waiting = none ∧
        sameRegs s t [imuKey sp 0x28] ∧ sameBytes s t) ∧
    (q.active = some (st, d) → (s.spiHeld sp).length < 64 →
      ∃ t, exec (.spiTransferDone sp) s = .next t ∧
        t.chain.inq = s.chain.inq ++ ((List.range 6).filter (fun a => (axis a).en)).map (fun a => {
          chan := 6 * sp + a
          stamp := st.fus
          raw := some ((axis a).int d)
          value := 0
          still := false
          stale := false
          tb0 := st.tb0 }) ∧
        (t.spiAt sp).active = none ∧ (t.spiAt sp).pendEdge = none ∧
        (t.spiAt sp).waiting = q.pendEdge.map (fun e => {
          stamp := e
          due := max (e.tb0 + delay) (s.time.tb0 + 4 * s.fld (imuKey sp 0) 12 4)
          pended := true }) ∧
        sameRegs s t [imuKey sp 0x28] ∧ sameBytes s t) ∧
    (q.lastEdge = some edge → edge + 4 * (125000 / 2 ^ s.fld (imuKey sp 0) 17 16) ≤ s.time.tb0 → s.bit (imuKey sp 0x28) 0 = false →
      ∃ t, exec (.silent sp) s = .next t ∧ t.bit (imuKey sp 0x28) 0 = true ∧ t.bit (rk pgImu 0x14) 1 = true ∧
        sameRegs s t [imuKey sp 0x28, rk pgImu 0x14] ∧ sameBytes s t)) ∧
  (∀ (s : State) (w : Fin 8) (rising : Bool) (last per : Nat) (st : Stamp),
    let q := s.wheelAt w
    let dist (ns : Nat) : Word := s.wheelSigned w (fdiv (s.rd (wheelKey w 8)) (fofRat ns (10 ^ 9 : Nat)))
    let gap := 2 * s.fld (wheelKey w 4) 15 0
    let now : Stamp := { fus := s.now, tb0 := s.time.tb0 }
    let n := s.now / s.chanTin (48 + w)
    let sample (v : Word) (still : Bool) : ChainIn := {
      chan := 48 + w
      stamp := n * s.chanTin (48 + w)
      raw := none
      value := v
      still := still
      stale := false
      tb0 := s.time.tb0 }
    s.running pgWheel = true → s.bit (wheelKey w 0) 0 = true →
    (s.fld (wheelKey w 0) 2 1 = (if rising then 0 else 1) ∨ 2 ≤ s.fld (wheelKey w 0) 2 1 →
      ∃ t, exec (.wheelEdge w rising) s = .next t ∧ sameBytes s t ∧
        (q.last = some last ∧ s.time.tb0 - last < gap ∨ 16 ≤ q.queue.length →
          t.wheel = s.wheel ∧ t.rdN (wheelKey w 0x18) = (s.rdN (wheelKey w 0x18) + 1) % 2 ^ 32 ∧ sameRegs s t [wheelKey w 0x18]) ∧
        (q.last = none ∨ q.last = some last ∧ gap ≤ s.time.tb0 - last → q.queue.length < 16 →
          t.wheelAt w = { q with last := some s.time.tb0, queue := q.queue ++ [now] } ∧
          t.rdN (wheelKey w 0x14) = (s.rdN (wheelKey w 0x14) + 1) % 2 ^ 32 ∧ sameRegs s t [wheelKey w 0x14])) ∧
    (q.sampled = some n → exec (.wheelSample w) s = .next s) ∧
    (q.sampled ≠ some n →
      let q' := q.queue.foldl (s.wheelTake w) q
      let e := s.time.tb0 - last
      ∃ t, exec (.wheelSample w) s = .next t ∧ sameBytes s t ∧ sameRegs s t [wheelKey w 0x10] ∧
        t.wheelAt w = { q' with queue := [], sampled := some n } ∧
        (q.queue = [] → q' = q) ∧
        (q.queue = [st] → q.edge = some last →
          q' = { q with edge := some st.tb0, period := some (st.tb0 - last), speed := dist (st.tb0 - last) }) ∧
        (q'.edge = none ∨ q'.period = none → t.chain.inq = s.chain.inq ++ [sample 0 true] ∧ t.rd (wheelKey w 0x10) = 0) ∧
        (q'.edge = some last → q'.period = some per → s.rdN (wheelKey w 0xC) * 1000000 < e →
          t.chain.inq = s.chain.inq ++ [sample 0 true] ∧ t.rd (wheelKey w 0x10) = 0) ∧
        (q'.edge = some last → q'.period = some per → e ≤ s.rdN (wheelKey w 0xC) * 1000000 → e ≤ per →
          t.chain.inq = s.chain.inq ++ [sample q'.speed false] ∧ t.rd (wheelKey w 0x10) = q'.speed) ∧
        (q'.edge = some last → q'.period = some per → e ≤ s.rdN (wheelKey w 0xC) * 1000000 → per < e →
          t.chain.inq = s.chain.inq ++ [sample (dist e) false] ∧ t.rd (wheelKey w 0x10) = dist e)))

/-- R50, R67 to R70: a CAN controller that is on and not bus-off. A received frame is stamped; while MEM serves accesses and no frame waits it is
delivered at once: one that no filter matches counts in CNT_FILT; the lowest-numbered matching filter decides: with action reject nothing more happens,
with action slot the slots that name this controller and filter take scale x raw + offset with the stamp, and the others keep theirs. While MEM does not,
the frame waits in the entry queue, and counts in CNT_OVF where 32 wait. The frame sent is one with the lowest pending identifier. The error state shown is
passive where an error count is above 127 (the counts are free, log 87). Bus-off is entered with BUS_OFF, and left where BUSOFF_AUTO is 1. R69, R70: slot
`k` delivers its newest value to channel 56 + k at an instant of that channel's rate, once, with the age of the source frame, STALE where the value is
older than SLOT_TIMEOUT (in ms, log 21). A controller in bus-off leaves it, error active, after the recessive bits where BUSOFF_AUTO is 1, and stays where
it is 0. CMD_SEND queues a frame behind those that wait, is BUSY with 8 pending and refuses a remote frame (log 86); CMD_RECOVER ends bus-off. -/
def Obligations.CanControllerWorks : Prop :=
  (∀ (s : State) (c : Fin 4) (f : CanFrame) (k : Fin 64) (j : Fin 8),
    let first := s.canMatches c k f = true ∧ ∀ i ∈ List.range k, s.canMatches c i f = false
    let names := 0 < s.fld (slotKey j 4) 21 16 ∧ s.fld (slotKey j 4) 21 16 ≤ 32 ∧ s.fld (slotKey j 0) 1 0 = c ∧ s.fld (slotKey j 0) 13 8 = k
    let raw := canRaw f.data (s.fld (slotKey j 4) 8 0) (s.fld (slotKey j 4) 21 16) (s.bit (slotKey j 8) 0)
    let num : Int := if s.bit (slotKey j 8) 1 then toSigned (s.fld (slotKey j 4) 21 16) raw else raw
    let now : Stamp := { fus := s.now, tb0 := s.time.tb0 }
    let counted (t : State) (o : Nat) := t.rd64 (canKey c o) = (s.rd64 (canKey c o) + 1) % 2 ^ 64
    let shown (t : State) := t.fld (canKey c 0x110) 17 16 =
      if 127 < t.fld (canKey c 0x110) 7 0 ∨ 127 < t.fld (canKey c 0x110) 15 8 then 1 else 0
    let rx := canKey c 0x110 :: wide (canKey c 0x40)
    s.running (pgCan c) = true → s.bit (canKey c 0x100) 0 = true → s.fld (canKey c 0x110) 17 16 ≠ 2 →
    ((f.fd = true → s.bit (canKey c 0x100) 3 = true) →
      ∃ t, exec (.canFrameRx c f) s = .next t ∧ shown t ∧
        (s.running pgMem = false → (s.canAt c).inq.length < 32 → (t.canAt c).inq = (s.canAt c).inq ++ [(f, now)] ∧ counted t 0x40 ∧
          sameRegs s t rx ∧ sameBytes s t ∧ t.slots = s.slots) ∧
        (s.running pgMem = false → 32 ≤ (s.canAt c).inq.length → t.can = s.can ∧ counted t 0x48 ∧
          sameRegs s t (canKey c 0x110 :: wide (canKey c 0x48)) ∧ sameBytes s t ∧ t.slots = s.slots) ∧
        (s.running pgMem = true → (s.canAt c).inq = [] → counted t 0x40 ∧ (t.canAt c).inq = [] ∧
          ((∀ i ∈ List.range 64, s.canMatches c i f = false) → counted t 0x50 ∧
            sameRegs s t (rx ++ wide (canKey c 0x50)) ∧ sameBytes s t ∧ t.slots = s.slots) ∧
          (first → s.fld (canKey c (0x204 + 8 * k)) 31 30 = 3 → sameRegs s t rx ∧ sameBytes s t ∧ t.slots = s.slots) ∧
          (first → s.fld (canKey c (0x204 + 8 * k)) 31 30 = 1 → sameRegs s t rx ∧ sameBytes s t ∧
            t.slotAt j = if names then
              { s.slotAt j with value := fadd (fmul (s.rd (slotKey j 0xC)) (fofInt num)) (s.rd (slotKey j 0x10)), stamp := some s.now }
            else s.slotAt j))) ∧
    (s.fld (canKey c 0x100) 2 1 = 0 → f ∈ (s.canAt c).tx →
      ∃ t, exec (.canFrameTx c) s = .next t ∧ (t.canAt c).sent.length = (s.canAt c).sent.length + 1 ∧ shown t ∧
        (∃ g ∈ (s.canAt c).tx, (t.canAt c).sent = (s.canAt c).sent ++ [g] ∧ (t.canAt c).tx = (s.canAt c).tx.erase g ∧
          g.ident.toNat ≤ f.ident.toNat) ∧
        counted t 0x58 ∧ sameRegs s t (canKey c 0x110 :: wide (canKey c 0x58)) ∧ sameBytes s t) ∧
    (∃ t, exec (.busOff c) s = .next t ∧ t.fld (canKey c 0x110) 17 16 = 2 ∧ t.bit (canKey c 0x14) 1 = true ∧
      counted t 0x60 ∧ sameRegs s t ([canKey c 0x110, canKey c 0x14] ++ wide (canKey c 0x60)) ∧ sameBytes s t)) ∧
  (∀ (s : State) (h : Fin 2) (c : Fin 4) (f : CanFrame) (k : Fin 8) (stamp : Nat),
    let pg := pgCan c
    let n := s.now / s.chanTin (56 + k)
    let at_ := n * s.chanTin (56 + k)
    (0 < s.fld (slotKey k 4) 21 16 → (s.slotAt k).sampled ≠ some n →
      ∃ t, exec (.canSlotSample k) s = .next t ∧ sameRegs s t [] ∧ sameBytes s t ∧ (t.slotAt k).sampled = some n ∧
        ((s.slotAt k).stamp = some stamp →
          t.chain.inq = s.chain.inq ++ [{
            chan := 56 + k
            stamp := at_
            raw := none
            value := (s.slotAt k).value
            still := false
            stale := decide (stamp + s.rdN (slotKey k 0x14) * 16000 < at_)
            tb0 := s.time.tb0
            age := some (at_ - stamp) }])) ∧
    ((s.slotAt k).sampled = some n → exec (.canSlotSample k) s = .next s) ∧
    (s.fld (canKey c 0x110) 17 16 = 2 →
      ∃ t, exec (.busOffRecovery c) s = .next t ∧ sameBytes s t ∧ sameRegs s t [canKey c 0x110] ∧
        t.rdN (canKey c 0x110) = if s.bit (canKey c 0x100) 4 then 0 else s.rdN (canKey c 0x110)) ∧
    (s.issues h pg = true →
      (∃ t, exec (.cmdSend h c f) s = .next t ∧ t.busy pg = false ∧ sameBytes s t ∧ sameRegs s t (slotKeys h pg) ∧
        (8 ≤ (s.canAt c).tx.length → t.result pg = resBusy ∧ t.can = s.can) ∧
        ((s.canAt c).tx.length < 8 → f.rtr = true → t.result pg = resRefused ∧ t.can = s.can) ∧
        ((s.canAt c).tx.length < 8 → f.rtr = false → t.result pg = resDone ∧ (t.canAt c).tx = (s.canAt c).tx ++ [f])) ∧
      (∃ t, exec (.cmdRecover h c) s = .next t ∧ t.busy pg = false ∧ t.result pg = resDone ∧ t.fld (canKey c 0x110) 17 16 ≠ 2 ∧
        sameBytes s t ∧ sameRegs s t (canKey c 0x110 :: slotKeys h pg))))

/-- R78, R79, R84, R85, R88: the front end takes the next word of a sensor whose turn it is and counts it (the turn is R51's, log 91); while the
link's first record waits for a full edge, or out of turn, nothing happens. One of a sensor that is not running counts in CNT_OFF; a KIND 1 or 2
record passes with zero fields and invalid flow; a KIND 0 event out of range counts in CNT_RANGE. One in range counts in its pixel's STATE byte; it is
dropped in CNT_HOT where AUTO is set or becomes set or the static mask applies, and in CNT_REFR where a polarity's entry is younger than REFRACT. No
other byte of memory changes. -/
def Obligations.EventPassesTheFirstStages : Prop :=
  ∀ (s : State) (p : Fin 16) (w : DWord) (rest : List DWord),
    let h := p.val / 8
    let k := p.val % 8
    let x := bits w.toNat 59 48
    let y := bits w.toNat 47 36
    let now := bits w.toNat 19 4
    let a := s.stateAddr h k x y
    let b := (s.byte a).toNat
    let c := min (b % 64 + 1) 63
    let auto := b.testBit 6 || (s.fld (fk h k 8) 13 8 != 0 && decide (s.fld (fk h k 8) 13 8 < c))
    let masked := auto || (b.testBit 7 && s.bit (fk h k 0) 5)
    let young (q : Nat) := ((surfAge now (s.getLE (s.surfAddr h k q x y) 2)).map (fun g => decide (g < s.fld (fk h k 8) 7 0))).getD false
    let apart (q : Nat) := a < s.surfAddr h k q x y ∨ s.surfAddr h k q x y + 1 < a
    let counted (t : State) (o : Nat) := t.rd64 (rk (pgFend h) o) = (s.rd64 (rk (pgFend h) o) + 1) % 2 ^ 64 ∧
      sameRegs s t (wide (rk (pgFend h) 0x40) ++ wide (rk (pgFend h) o)) ∧ (t.fendAt h).edgeQ = (s.fendAt h).edgeQ ∧ (t.fendAt h).binQ = (s.fendAt h).binQ
    let live := s.running (pgFend h) = true ∧ s.bit (fk h k 0x54) 0 = true
    let inside := x < s.fld (fk h k 4) 11 0 + 1 ∧ y < s.fld (fk h k 4) 27 16 + 1
    (s.csiAt p).out = w :: rest →
    (s.fendTurn h ≠ some k ∨ s.linkFull h = true → exec (.fendEvent p) s = .next s) ∧
    (s.fendTurn h = some k → s.linkFull h = false → ∃ t, exec (.fendEvent p) s = .next t ∧ (t.csiAt p).out = rest ∧
      t.rd64 (rk (pgFend h) 0x40) = (s.rd64 (rk (pgFend h) 0x40) + 1) % 2 ^ 64 ∧
      (¬ live → counted t 0x48 ∧ sameBytes s t) ∧
      (live → bits w.toNat 34 32 ≠ 0 → sameBytes s t ∧
        (t.fendAt h).edgeQ = (s.fendAt h).edgeQ ++ [BitVec.ofNat 128 (0x800 * 2 ^ 76 + 0x800 * 2 ^ 64 + w.toNat)] ∧
        (t.fendAt h).binQ = (s.fendAt h).binQ ++ [BitVec.ofNat 128 (0x800 * 2 ^ 76 + 0x800 * 2 ^ 64 + w.toNat)]) ∧
      (live → bits w.toNat 34 32 = 0 → ¬ inside → counted t 0x50 ∧ sameBytes s t) ∧
      (live → bits w.toNat 34 32 = 0 → inside → masked = true → counted t 0x58 ∧ sameBytesBut s t a 1 ∧
        (t.byte a).toNat = b / 128 * 128 + (if auto then 64 else 0) + c) ∧
      (live → bits w.toNat 34 32 = 0 → inside → masked = false →
        apart 0 → apart 1 → (young 0 || young 1) = true →
        counted t 0x60 ∧ sameBytesBut s t a 1))

/-- R78, R81, R87, R89, R93, R94, R96, R97: an event in its turn that no stage drops, of a sensor without rectification, de-rotation, corner score and
flow: its time is written into its pixel's entry of the surface of its polarity, unless that entry is newer, which counts in FEND_LATE; below the
adopted shed level it counts in CNT_SHED and gives no record; else one ZF128 record leaves, to the fabric and to the binner, with RX = 16 X, RY = 16
Y, corner 0 and invalid flow, and counts in CNT_OUT. No byte but those two changes. -/
def Obligations.EventUpdatesItsSurface : Prop :=
  ∀ (s : State) (p : Fin 16) (w : DWord) (rest : List DWord),
    let h := p.val / 8
    let k := p.val % 8
    let x := bits w.toNat 59 48
    let y := bits w.toNat 47 36
    let now := bits w.toNat 19 4
    let a := s.stateAddr h k x y
    let e := s.surfAddr h k (bits w.toNat 35 35) x y
    let newer := s.getLE e 2 ≠ 0xFFFF ∧ 61440 ≤ (now + 65536 - s.getLE e 2) % 65536
    let shed := s.shedClass h k (16 * x) (16 * y) < s.fld (rk (pgFend h) 0x500) 4 0
    let record : BitVec 128 := BitVec.ofNat 128 (16 * x % 65536 * 2 ^ 112 + 16 * y % 65536 * 2 ^ 96 + 0x800 * 2 ^ 76 + 0x800 * 2 ^ 64 + w.toNat)
    (s.csiAt p).out = w :: rest → s.fendTurn h = some k → s.linkFull h = false → s.running (pgFend h) = true → s.bit (fk h k 0x54) 0 = true → bits w.toNat 34 32 = 0 →
    x < s.fld (fk h k 4) 11 0 + 1 → y < s.fld (fk h k 4) 27 16 + 1 → s.byte a = 0 → s.fld (fk h k 8) 13 8 = 0 → s.fld (fk h k 8) 7 0 = 0 →
    s.fld (fk h k 0) 4 1 = 0 → a < e ∨ e + 1 < a →
    ∃ t, exec (.fendEvent p) s = .next t ∧ (t.byte a).toNat = 1 ∧
      (∀ z, z ≠ a → z ≠ e → z ≠ e + 1 → t.byte z = s.byte z) ∧
      (newer → t.getLE e 2 = s.getLE e 2 ∧ t.rdN (fk h k 0x78) = min (s.rdN (fk h k 0x78) + 1) 0xFFFFFFFF) ∧
      (¬ newer → t.getLE e 2 = if now = 0xFFFF then 0xFFFE else now) ∧
      (shed → t.rd64 (rk (pgFend h) 0x70) = (s.rd64 (rk (pgFend h) 0x70) + 1) % 2 ^ 64 ∧ (t.fendAt h).edgeQ = (s.fendAt h).edgeQ ∧
        (t.fendAt h).binQ = (s.fendAt h).binQ) ∧
      (¬ shed → t.rd64 (rk (pgFend h) 0x78) = (s.rd64 (rk (pgFend h) 0x78) + 1) % 2 ^ 64 ∧
        (t.fendAt h).edgeQ = (s.fendAt h).edgeQ ++ [record] ∧ (t.fendAt h).binQ = (s.fendAt h).binQ ++ [record])

/-- R81, R83, R100, R101: an enabled sensor of a RUNNING front end that is not yet running: a refused layout returns EN to 0 with REFUSED and
SENS_REFUSED; else CLEARING shows until the clear ends, at 64 bytes a HUB cycle; at its end every SURF entry is 0xFFFF, every STATE byte keeps STATIC
alone, no other byte has changed, and the sensor runs. SURF_WARM comes 50 ms after the first event. Stalled cycles count, saturating. R86, R87: a
sweeper's pass that is due counts in FEND_SWEEP. Where one sensor runs, every SURF entry that reads as stale becomes 0xFFFF and every other entry
stays; every STATE byte keeps STATIC, loses AUTO where COUNT is at most half of HOT_LIMIT, and has COUNT 0; no other byte changes. While TRK is
RUNNING its TRK_STATUS.WARM follows a change of SURF_WARM (log 76). -/
def Obligations.SurfacesAreClearedAndSwept : Prop :=
  (∀ (s : State) (j : Fin 16) (hub : Fin 2) (i cycles t0 : Nat),
    let h := j.val / 8
    let k := j.val % 8
    let wh := (s.fld (fk h k 4) 11 0 + 1) * (s.fld (fk h k 4) 27 16 + 1)
    let sf := surfBase h + s.fld (fk h k 0x10) 13 0 * 4096
    let st := surfBase h + s.fld (fk h k 0x18) 13 0 * 4096
    let warm := [rk pgTrk 0x14, rk pgTrk 0x12C]
    (s.bit (fk h k 0) 0 = true → s.running (pgFend h) = true → s.fld (fk h k 0x54) 1 0 = 0 →
      ∃ t, exec (.clearing j) s = .next t ∧ sameBytes s t ∧
        (s.sensRefused h k = true → t.bit (fk h k 0) 0 = false ∧ t.bit (fk h k 0x54) 5 = true ∧ t.bit (rk (pgFend h) 0x14) 1 = true ∧
          sameRegs s t [fk h k 0, fk h k 0x54, rk (pgFend h) 0x14]) ∧
        (s.sensRefused h k = false → t.fld (fk h k 0x54) 3 0 = 2 ∧ t.bit (fk h k 0x54) 5 = false ∧ t.t0At j = none ∧
          sameRegs s t ([fk h k 0x54] ++ warm))) ∧
    (s.bit (fk h k 0x54) 1 = true → SMap.get (fun _ => 0) (s.fendAt h).clearEnd k ≤ s.time.tb0 → st + wh ≤ sf ∨ sf + 4 * wh ≤ st →
      ∃ t, exec (.clearDone j) s = .next t ∧ t.fld (fk h k 0x54) 3 0 = 1 ∧ sameRegs s t [fk h k 0x54] ∧
        (i < 4 * wh → t.byte (sf + i) = 0xFF) ∧ (i < wh → t.byte (st + i) = s.byte (st + i) &&& 0x80) ∧
        (¬ (sf ≤ i ∧ i < sf + 4 * wh) → ¬ (st ≤ i ∧ i < st + wh) → t.byte i = s.byte i)) ∧
    (s.t0At j = some t0 → s.bit (fk h k 0x54) 0 = true →
      ∃ t, exec (.surfWarm j) s = .next t ∧ t.bit (fk h k 0x54) 2 = (decide (t0 + 800000 ≤ s.now) || s.bit (fk h k 0x54) 2) ∧
        (s.running pgTrk = true → t.bit (rk pgTrk 0x12C) 1 = t.warmFlag ∨ t0 + 800000 > s.now) ∧
        sameRegs s t ([fk h k 0x54] ++ warm) ∧ sameBytes s t) ∧
    (∃ t, exec (.fendOutStall hub cycles) s = .next t ∧ t.rdN (rk (pgFend hub) 0x50C) = min (s.rdN (rk (pgFend hub) 0x50C) + cycles) 0xFFFFFFFF ∧
      sameRegs s t [rk (pgFend hub) 0x50C] ∧ sameBytes s t)) ∧
  (∀ (s : State) (hub : Fin 2) (k : Fin 8) (i : Nat),
    let wh := (s.fld (fk hub k 4) 11 0 + 1) * (s.fld (fk hub k 4) 27 16 + 1)
    let sf := surfBase hub + s.fld (fk hub k 0x10) 13 0 * 4096
    let st := surfBase hub + s.fld (fk hub k 0x18) 13 0 * 4096
    let b := (s.byte (st + i)).toNat
    s.running (pgFend hub) = true → (s.fendAt hub).sweepAt ≤ s.now →
    (∀ j ∈ List.range 8, s.bit (fk hub j 0x54) 0 = decide (j = k)) → st + wh ≤ sf ∨ sf + 4 * wh ≤ st →
    ∃ t, exec (.sweep hub) s = .next t ∧
      t.rdN (rk (pgFend hub) 0x508) = (s.rdN (rk (pgFend hub) 0x508) + 1) % 2 ^ 32 ∧
      (i < 2 * wh → t.getLE (sf + 2 * i) 2 =
        if surfAge (s.now / 16 % 65536) (s.getLE (sf + 2 * i) 2) = none then 0xFFFF else s.getLE (sf + 2 * i) 2) ∧
      (i < wh → (t.byte (st + i)).toNat =
        b / 128 * 128 + if b.testBit 6 = true ∧ s.fld (fk hub k 8) 13 8 / 2 < b % 64 then 64 else 0) ∧
      (¬ (sf ≤ i ∧ i < sf + 4 * wh) → ¬ (st ≤ i ∧ i < st + wh) → t.byte i = s.byte i))

/-- R18, R19, R20, R147, R153: a loop value that arrives at its consumer waits unless a newer one already waits, and is adopted at the front end's
step opening unless the adopted one is newer; the opening adopts the waiting shed level and reports its step to FAB. A value that is older than 4
periods of its producer is recorded as stale once, and no longer used; for GRID's pose its status shows it while an epoch accumulates. -/
def Obligations.LoopValueIsAdopted : Prop :=
  ∀ (s : State) (t : LoopTarget) (hub : Fin 2) (v : LoopVal) (fl : List LoopVal),
    let b := s.loopAt (loopKey t)
    let f := s.loopAt hub
    let g := s.loopAt (21 + hub)
    (b.flight = v :: fl →
      ∃ u, exec (.loopValueWrite t) s = .next u ∧ sameBytes s u ∧
        u.loopAt (loopKey t) = { b with
          flight := fl
          waiting := some (match b.waiting with
            | some w => if v.stamp < w.stamp then w else v
            | none => v) } ∧
        ((∀ h, t ≠ .fendShed h) → sameRegs s u []) ∧
        (t = .fendShed hub → u.rdN (rk (pgFend hub) 0x504) = (((u.loopAt (21 + hub)).waiting.map (fun w => (w.words.getD 0 0).toNat)).getD 0))) ∧
    (b.fresh = true → s.isFresh t (b.waiting.orElse (fun _ => b.adopted)) = false →
      ∃ u, exec (.loopStale t) s = .next u ∧ u.loopAt (loopKey t) = { b with fresh := false } ∧ sameBytes s u ∧
        (t = .fendRate hub → u.bit (rk (pgFend hub) 0x14) 3 = true) ∧
        (t = .gridPose → u.bit (rk pgGrid 0x14) 4 = true ∧ u.bit (rk pgGrid 0x114) 2 = s.grid.acc.isSome) ∧
        (t = .trkPose → u.bit (rk pgTrk 0x14) 6 = true ∧ u.bit (rk pgTrk 0x12C) 2 = true)) ∧
    (s.bell.started = true → s.stepEnd (s.fendAt hub).window ≤ s.now + 2 * s.stepP →
      ∃ u, exec (.fendStepOpen hub) s = .next u ∧ (u.fendAt hub).window = (s.fendAt hub).window + 1 ∧ sameBytes s u ∧
        (f.waiting = some v → (u.loopAt hub).waiting = none ∧
          (u.loopAt hub).adopted = some (match f.adopted with
            | some a => if v.stamp < a.stamp then a else v
            | none => v)) ∧
        (g.waiting = some v → (v.words.getD 0 0).toNat < 32 →
          u.fld (rk (pgFend hub) 0x500) 4 0 = (v.words.getD 0 0).toNat ∧ u.fld (rk pgFab 0x124) 4 0 = (v.words.getD 0 0).toNat ∧
          (if hub = 0 then u.bell.adopt0 else u.bell.adopt1) = some ((s.fendAt hub).window, (v.words.getD 0 0).toNat)))

/-- R21, R138, R144, R145, R146, R148: a record of a mapped sensor that reaches an edge joins the step whose ingest window contains the time, as the
packet of R145, and counts for that step; with its edge full it waits on the link; a record of KIND 1 or 2, of an unmapped sensor, or reaching a FAB
that takes none is discarded and counted. An edge injects its first packet if it is one of the open step and its router has room. Device memory does
not change. R136 to R142, R148: what an unfenced router does with the only copy it holds. A copy from a neighbour that arrives with bits changed, so
that its CRC-8 (log 94) does not match, is discarded with a fault; one of an earlier step is discarded with STEP_BAD; one that matches no entry with
RT_MISS; one whose DELAY passes 255 with DELAY_OVF; a route with no port consumes it. A route to a mesh port moves it to the neighbour with DADJ
added; without a free slot there it waits and the cycle counts. The CORE port delivers a copy of the open step to the core's queue and moors one of a
later step, in 4,096 places that the released copies still in the router share (log 75). -/
def Obligations.RecordCrossesTheFabric : Prop :=
  (∀ (s : State) (hub : Fin 2) (r : BitVec 128) (rest : List (BitVec 128)) (step : Nat) (e : Fin 64) (p : DWord) (more : List (Nat × DWord)),
    let n := r.toNat
    let k := bits n 63 60
    let map := rk pgFab (0x140 + 4 * k)
    let ed := (if k < 8 then 4 * k else 32 + 4 * (k - 8)) + (bits n 59 48 ^^^ bits n 47 36) % 4
    let takes := s.blk pgFab = stRunning ∨ s.blk pgFab = stStopping
    let cx := bits n 127 112 / 16 / 2 ^ s.fld map 10 8
    let cy := bits n 111 96 / 16 / 2 ^ s.fld map 10 8
    let pol := if s.bit map 12 then bits n 35 35 else 0
    let value := if s.fld map 14 13 = 0 then s.fld map 23 16 else bits n 95 88 / 2
    let rtr := if e.val < 32 then 32 * e.val else 32 * (e.val - 32) + 31
    ((s.fendAt hub).edgeQ = r :: rest →
      ∃ t, exec (.edgeRecord hub) s = .next t ∧ sameBytes s t ∧
        (¬ takes ∨ bits n 34 32 ≠ 0 ∨ s.bit map 31 = false →
          (t.fendAt hub).edgeQ = rest ∧ t.rd64 (rk pgFab 0x78) = (s.rd64 (rk pgFab 0x78) + 1) % 2 ^ 64 ∧ t.edges = s.edges ∧
          sameRegs s t (wide (rk pgFab 0x78))) ∧
        (takes → bits n 34 32 = 0 → s.bit map 31 = true → s.windowAt s.now = some step → 32768 ≤ (s.edgeAt ed).queue.length →
          (t.fendAt hub).edgeQ = r :: rest ∧ t.edges = s.edges ∧ sameRegs s t []) ∧
        (takes → bits n 34 32 = 0 → s.bit map 31 = true → s.windowAt s.now = some step → (s.edgeAt ed).queue.length < 32768 →
          (t.fendAt hub).edgeQ = rest ∧
          (t.edgeAt ed).queue = (s.edgeAt ed).queue ++
            [(step, fp64 (s.fld map 6 0 * 2 ^ 25 + pol * 2 ^ 24 + cy * 2 ^ 12 + cx) value 0 step)] ∧
          SMap.get (fun _ => 0) (t.edgeAt ed).formed step = SMap.get (fun _ => 0) (s.edgeAt ed).formed step + 1 ∧
          sameRegs s t [rk pgFab (0x400 + 4 * ed)])) ∧
    ((s.edgeAt e).queue = (step, p) :: more → s.bell.stepOpen = true → s.bell.step = step →
      ((s.rtrAt rtr).inbox.filter (fun c => c.1 == 5)).length < 8 →
      ∃ t, exec (.edgeInject e) s = .next t ∧ (t.edgeAt e).queue = more ∧ (t.edgeAt e).injected = (s.edgeAt e).injected + 1 ∧
        (t.rtrAt rtr).inbox = (s.rtrAt rtr).inbox ++ [(5, p)] ∧ (t.rtrAt rtr).createdD = (s.rtrAt rtr).createdD + 1 ∧
        t.rd64 (rk pgFab 0x50) = (s.rd64 (rk pgFab 0x50) + 1) % 2 ^ 64 ∧
        sameRegs s t (rk pgFab (0x400 + 4 * e) :: wide (rk pgFab 0x50)) ∧ sameBytes s t)) ∧
  (∀ (s : State) (r : Fin 1024) (inp : Nat) (sent p : DWord) (e : BitVec 72) (full route : Nat) (o : Fin 4) (nb : Nat),
    let st := if s.bell.stepOpen then s.bell.step else s.bell.nextStep
    let dadj := bits route 15 8
    let q := fp64 (pktKey p) (pktValue p) (pktDelay p + dadj) (full + dadj)
    let openD (c : DWord) := s.bell.stepOpen && decide (pktStep c = s.bell.step % 65536)
    let delta := (pktStep p + 65536 - st % 65536) % 65536
    let arrived := sent ^^^ e.setWidth 64
    let passes := inp < 4 → crc8 arrived = crc8 sent ^^^ bits e.toNat 71 64
    let u := s.rtrAt r
    let counted (t : State) (o : Nat) := t.rdN (rtrKey r o) = min (s.rdN (rtrKey r o) + 1) 0xFFFFFFFF
    u.inbox = [(inp, sent)] → s.rtrFenced r = false → (inp = 4 → (s.coreAt r).outq = []) → p = (if inp < 4 then arrived else sent) →
    (¬ passes → ∃ t, exec (.routerCopy r e) s = .next t ∧ sameBytes s t ∧ (t.rtrAt r).inbox = [] ∧ counted t 0x18 ∧
      t.bit (rk pgFab 0x1C) 3 = true ∧ t.rd64 (rk pgFab 0x70) = (s.rd64 (rk pgFab 0x70) + 1) % 2 ^ 64) ∧
    (passes → ∃ t, exec (.routerCopy r e) s = .next t ∧ sameBytes s t ∧
      (256 < delta → (t.rtrAt r).inbox = [] ∧ counted t 0x1C ∧ t.bit (rk pgFab 0x1C) 0 = true) ∧
      (delta ≤ 256 → s.rtLookup r (pktKey p) = none → (t.rtrAt r).inbox = [] ∧ counted t 0x10 ∧ t.bit (rk pgFab 0x14) 4 = true) ∧
      (delta ≤ 256 → s.rtLookup r (pktKey p) = some route → 255 < pktDelay p + dadj →
        (t.rtrAt r).inbox = [] ∧ counted t 0x20 ∧ t.bit (rk pgFab 0x14) 5 = true) ∧
      (delta ≤ 256 → s.rtLookup r (pktKey p) = some route → pktDelay p + dadj ≤ 255 → bits route 5 0 = 0 →
        (t.rtrAt r).inbox = [] ∧ counted t 0x24) ∧
      (delta ≤ 256 → full = st + delta → s.rtLookup r (pktKey p) = some route → pktDelay p + dadj ≤ 255 →
        (bits route 5 0 = 2 ^ o.val → neighbour r o = some nb → s.rtrFenced nb = false →
          let there := (s.rtrAt nb).inbox.filter (fun c => c.1 == inputOf o)
          (there.length < 8 → (t.rtrAt r).inbox = [] ∧ (t.rtrAt nb).inbox = (s.rtrAt nb).inbox ++ [(inputOf o, q)]) ∧
          (8 ≤ there.length → t.routers = s.routers ∧ counted t 0x28)) ∧
        (bits route 5 0 = 16 → openD q = true → s.coreOn r = true → (s.coreAt r).inq.length < 64 →
          (t.rtrAt r).inbox = [] ∧ (t.coreAt r).inq = (s.coreAt r).inq ++ [q] ∧
          t.rd64 (rk pgFab 0x58) = (s.rd64 (rk pgFab 0x58) + 1) % 2 ^ 64) ∧
        (bits route 5 0 = 16 → openD q = false → u.moor.length + u.rel.length < 4096 →
          (t.rtrAt r).inbox = [] ∧ (t.rtrAt r).moor = u.moor ++ [q] ∧ t.rd64 (rk pgFab 0x60) = (s.rd64 (rk pgFab 0x60) + 1) % 2 ^ 64))))

/-- R108 to R112, R116, R126: an enabled native core that is awake takes the packet at the head of its queue. One of another step, or that comes while
no step is open, is discarded with STEP_BAD, and FAB_FAULT_CORE names the first such core; one without a valid directory entry counts in CORE_NOROW. A
valid row of DELAY 0 adds VALUE x weight x 2^EXP to each neuron of its span and to no other; a row with a delay becomes a deferral cursor due that
many steps later and adds nothing. No table byte changes. R116, R117, R120, R121, R125, R126: the close of a step in a core with one neuron that
received input. Its sum, saturated to int32, is added to the leaked potential; at or above THETA it sends one packet of the next step and resets as
its class says; where the router's input port holds 8 the packet waits in the core, which has then not closed; V and LAST are written and no other
byte. A wrong residue leaves the neuron and raises a fault. The core has then closed the step. It gates itself 16 FAB cycles after its queue emptied,
with nothing due. -/
def Obligations.CoreIntegratesAndCloses : Prop :=
  (∀ (s : State) (c : Fin 1024) (p : DWord) (rest : List DWord) (n : Fin 2048),
    let k := s.coreAt c
    let e := s.dirEntry c (pktKey p % 4096)
    let w := bits e 15 1
    let hdr := s.synWord c w
    let len := bits hdr 18 11 + 1
    let width := 2 ^ bits hdr 20 19
    let base := bits hdr 10 0
    let delay := bits hdr 32 25
    let g := toSigned 8 (pktValue p)
    let raw := s.synWord c (w + 1 + (n.val - base) * width / 64) / 2 ^ ((n.val - base) * width % 64) % 2 ^ width
    let weight : Int := if width = 1 then (if raw = 0 then 1 else -1) else toSigned width raw
    let live := s.bell.stepOpen = true ∧ pktStep p = s.bell.step % 65536
    let fits := w < 24576 ∧ base + len - 1 ≤ 2047 ∧ w + 1 + (len * width + 63) / 64 ≤ 24576
    k.inq = p :: rest → (s.rtrAt c).rel = [] → s.coreOn c = true → s.bit (coreKey c 8) 0 = false → s.bit (coreKey c 0) 1 = false →
    ∃ t, exec (.corePacket c .none) s = .next t ∧ (t.coreAt c).inq = rest ∧ sameBytes s t ∧
      (¬ live → t.bit (rk pgFab 0x1C) 0 = true ∧ (s.bit (rk pgFab 0x134) 31 = false → t.rdN (rk pgFab 0x134) = 2 ^ 31 + c.val) ∧ (t.coreAt c).sums = k.sums ∧
        t.rdN (coreKey c 0x2C) = min (s.rdN (coreKey c 0x2C) + 1) 0xFFFFFFFF) ∧
      (live → e % 2 = 0 → t.rdN (coreKey c 0x30) = min (s.rdN (coreKey c 0x30) + 1) 0xFFFFFFFF ∧
        (t.coreAt c).sums = k.sums ∧ sameRegs s t [coreKey c 0x30]) ∧
      (live → e % 2 = 1 → ¬ fits → t.rdN (coreKey c 0x34) = min (s.rdN (coreKey c 0x34) + 1) 0xFFFFFFFF ∧
        (t.coreAt c).sums = k.sums ∧ sameRegs s t [coreKey c 0x34]) ∧
      (live → e % 2 = 1 → fits → delay = 0 →
        SMap.get (fun _ => none) (t.coreAt c).sums n = (if base ≤ n.val ∧ n.val < base + len then
          some ((SMap.get (fun _ => none) k.sums n).getD 0 + g * weight * (2 ^ bits hdr 24 21 : Nat))
        else SMap.get (fun _ => none) k.sums n) ∧ (t.coreAt c).cursors = k.cursors) ∧
      (live → e % 2 = 1 → fits → delay ≠ 0 → k.cursors.length < 1024 →
        (t.coreAt c).cursors = k.cursors ++ [{ waddr := w, g := g, due := s.bell.step + delay, delay := 0 }] ∧ (t.coreAt c).sums = k.sums)) ∧
  (∀ (s : State) (c : Fin 1024) (n : Fin 2048) (sum : Int),
    let st := s.bell.step
    let w := s.getLE (neuronAddr c n) 8
    let k := s.nclass c (bits w 43 40)
    let a := max (-2147483648) (min 2147483647 sum)
    let dt := (st + 65536 - bits w 39 24) % 65536
    let d := toSigned 24 (bits w 23 0) - k.vrest
    let f : Int := s.leak c k.table dt
    let d' := if dt ≤ 255 then (if 0 ≤ d then d * f / 32768 else -(-d * f / 32768)) else if k.nonLeaky then d else 0
    let sat (v : Int) := max (-8388608) (min 8388607 v)
    let v := sat (k.vrest + d' + a)
    let out : Nat := if k.binary then k.outFixed else (max 1 (min 127 ((v - k.theta) / (2 ^ k.shift : Nat)))).toNat
    let v' := if k.theta ≤ v then
        (if k.reset = 0 then v - k.theta else if k.reset = 1 then 0 else sat (v - (out * 2 ^ k.shift : Nat))) else v
    let pkt := fp64 (s.fld (coreKey c 4) 31 11 * 2048 + n) out 0 (st + 1)
    ((s.coreAt c).sums = [(n.val, some sum)] → (s.coreAt c).inq = [] → (s.coreAt c).closed = false → (s.coreAt c).updated = false →
      (s.coreAt c).outq = [] → s.coreOn c = true → s.bell.stepOpen = true → s.bell.phaseM = true → st % 32 ≠ 0 → s.planes = [] →
      (8 ≤ ((s.rtrAt c).inbox.filter (fun q => q.1 == 4)).length → k.theta ≤ v → ∃ t, exec (.coreStepClose c false) s = .next t ∧
        (t.coreAt c).closed = false ∧ (t.coreAt c).outq = [pkt] ∧ t.routers = s.routers ∧ sameBytesBut s t (neuronAddr c n) 5) ∧
      (((s.rtrAt c).inbox.filter (fun q => q.1 == 4)).length < 8 → ∃ t, exec (.coreStepClose c false) s = .next t ∧ (t.coreAt c).closed = true ∧ (t.coreAt c).sums = [] ∧
        t.getLE (neuronAddr c n) 5 = st % 65536 * 2 ^ 24 + ofSigned 24 v' ∧ sameBytesBut s t (neuronAddr c n) 5 ∧
        (t.rtrAt c).inbox = (s.rtrAt c).inbox ++ if k.theta ≤ v then [(4, pkt)] else []) ∧
      (∃ t, exec (.coreStepClose c true) s = .next t ∧ (t.coreAt c).closed = true ∧ t.bit (rk pgFab 0x1C) 1 = true ∧ sameBytes s t ∧
        t.routers = s.routers)) ∧
    (s.bit (coreKey c 8) 0 = false → (s.coreAt c).inq = [] → s.bell.stepOpen = false →
      ∃ t, exec (.coreGate c) s = .next t ∧ t.bit (coreKey c 8) 0 = decide (80 ≤ (s.time.tb0 - (s.coreAt c).idleSince) * 6) ∧
        sameRegs s t [coreKey c 8] ∧ sameBytes s t))

/-- R21, R22, R23, R146, R148 to R152: the life of a step. Its window closes at E(n) - P; it opens at its predecessor's end or Bell, whichever is
later, and the next nominal end lies one P later; a round that completes phase D delivers the step, one that completes phase M rings the Bell, and any
other changes neither; with nothing changing for FAB_RECON_STALL cycles COUNT_MISMATCH is raised and the Bell rings at once; the accounting then gives
the step's overrun, in whole ns (log 83), and lag, a FUSION step meanwhile apart (R26), and its TICK account. -/
def Obligations.StepOpensClosesAndRings : Prop :=
  ∀ (s : State) (a b : Round),
    let B := s.bell
    let late := B.bellTime - (B.endFus + B.slid) * 2 ^ 40
    (B.started = true → s.stepEnd B.winStep ≤ s.now + s.stepP →
      ∃ t, exec .windowClose s = .next t ∧ t.bell = { B with winStep := B.winStep + 1 } ∧ sameRegs s t [] ∧ sameBytes s t ∧
        ∀ h : Fin 2, SMap.get (fun _ => 0) (t.fendAt h).reported B.winStep = SMap.get (fun _ => 0) (s.fendAt h).shed B.winStep) ∧
    (B.started = true → s.running pgFab = true → s.halted pgFab = false → B.stepOpen = false → B.rang = false →
      (if B.lags = [] then B.nextEnd - s.stepP else B.endFus) ≤ s.now →
      ∃ t, exec .stepOpen s = .next t ∧ t.bell.stepOpen = true ∧ t.bell.step = B.nextStep ∧ t.bell.nextStep = B.nextStep + 1 ∧
        t.bell.endFus = B.nextEnd ∧ t.bell.nextEnd = B.nextEnd + s.stepP ∧ t.bell.phaseM = false ∧
        t.rd64 (rk pgFab 0x110) = B.nextStep % 2 ^ 64 ∧ sameBytes s t) ∧
    (B.stepOpen = true → B.prev = some a → B.sample = some b →
      ∃ t, exec .reductionRound s = .next t ∧ sameBytes s t ∧ t.bell.prev = some b ∧ t.bell.sample = some s.sampleRound ∧
        (B.phaseM = false → t.bell.stepOpen = true ∧ (t.bell.phaseM = true ↔
          a.edgesDone = true ∧ b.edgesDone = true ∧ a.released = true ∧ b.released = true ∧ a.createdD = a.retiredD ∧ b.createdD = b.retiredD ∧
            a.createdD = b.createdD ∧ a.retiredD = b.retiredD)) ∧
        (B.phaseM = true → t.bell.phaseM = true ∧ (t.bell.stepOpen = false ↔
          a.allClosed = true ∧ b.allClosed = true ∧ a.createdM = a.retiredM ∧ b.createdM = b.retiredM ∧ a.createdM = b.createdM ∧
            a.retiredM = b.retiredM) ∧
          (t.bell.stepOpen = false → t.bell.rang = true ∧ t.bell.bellTime = s.time.fus ∧
            t.rd64 (rk pgFab 0x40) = (s.rd64 (rk pgFab 0x40) + 1) % 2 ^ 64))) ∧
    (B.stepOpen = true → max 256 (s.fld (rk pgFab 0x108) 15 0) ≤ B.quiet →
      ∃ t, exec .countMismatch s = .next t ∧ t.bit (rk pgFab 0x1C) 4 = true ∧ t.bell.stepOpen = false ∧ t.bell.rang = true ∧ t.bell.forced = true ∧
        t.rd64 (rk pgFab 0x40) = (s.rd64 (rk pgFab 0x40) + 1) % 2 ^ 64 ∧ sameBytes s t) ∧
    (B.rang = true →
      ∃ t, exec .bellAccounting s = .next t ∧ t.bell.rang = false ∧
        t.rdN (rk pgFab 0x118) = min (late / (s.stepP * 2 ^ 40)) 0xFFFFFFFF ∧ t.rdN (rk pgFab 0x11C) = min (late * 125 / 2 / 2 ^ 40) 0xFFFFFFFF ∧
        t.bell.lags = (late / (s.stepP * 2 ^ 40) :: B.lags).take 256 ∧
        t.bell.ticks.map (fun r => (r.step, r.endFus, r.overrun, r.lag)) =
          B.ticks.map (fun r => (r.step, r.endFus, r.overrun, r.lag)) ++
            [(B.step, B.endFus, late * 125 / 2 / 2 ^ 40, late / (s.stepP * 2 ^ 40))]) ∧
    (s.blk pgFab = stStopping → B.stepOpen = false → B.rang = false → pgFab ∉ s.pwr.wasRunning →
      ∃ t, exec .fabStopping s = .next t ∧ t.edges = [] ∧ t.routers = [] ∧ t.bell.started = false ∧ t.blk pgFab = stIdle ∧ sameBytes s t)

/-- R366, R367, R368, R371: the item offered first is produced by a RUNNING STREAM for each port whose ring is enabled: it takes the ring's next sequence
number, and is staged whole, or, with too little staging left, dropped whole and counted; a disabled ring takes no number. A framed record starts with
its length, type, sequence number and FUSION time, holds its payload from byte 32, and ends with the CRC-32C of all before it. R368, R370, R371, R381:
a port that carries streams writes the first staged record in the order TICK, TRACK, LOG, GRID, TAP: a TICK record at its place by sequence number, a
framed record at the ring's offset, or at offset 0, behind a PAD record, where it would cross the end; then the head word with its sequence number and
offset. Setting EN of a ring is accepted exactly with a size, base and head address as R381 asks, and otherwise leaves EN at 0 with CFG_IGNORED. -/
def Obligations.ItemReachesTheHost : Prop :=
  (∀ (s : State) (o : Offer) (os : List Offer) (h : Fin 2),
    let key (f : Nat) := ringKey h o.ring f
    let seq := s.rd64 (key 0x18)
    let g := (s.portAt h).ring o.ring
    let len := (o.record seq).length
    s.running pgStream = true → s.stream.offers = o :: os → o.ring < 5 →
    ∃ t, exec .streamRecord s = .next t ∧ t.stream.offers = os ∧ sameBytes s t ∧
      t.rd64 (rk pgStream (0x40 + 8 * o.ring)) = (s.rd64 (rk pgStream (0x40 + 8 * o.ring)) + 1) % 2 ^ 64 ∧
      (s.bit (key 0) 0 = false → t.rd64 (key 0x18) = seq ∧ ((t.portAt h).ring o.ring).staged = g.staged) ∧
      (s.bit (key 0) 0 = true → t.rd64 (key 0x18) = (seq + 1) % 2 ^ 64 ∧
        (stageSize o.ring < g.level + len → ((t.portAt h).ring o.ring).staged = g.staged ∧
          t.rdN (key 0x20) = min (s.rdN (key 0x20) + 1) 0xFFFFFFFF) ∧
        (g.level + len ≤ stageSize o.ring → ((t.portAt h).ring o.ring).staged =
          g.staged ++ [{ seq := seq, bytes := o.record seq, fus := o.fus }])) ∧
      (0 < o.ring → o.bytes.length < 2 ^ 31 → let b := o.record seq
        len = roundUp (o.bytes.length + 36) 64 ∧ fieldLE b 0 4 = len ∧ fieldLE b 4 2 = o.ring ∧ fieldLE b 8 8 = seq % 2 ^ 64 ∧
        fieldLE b 16 8 = o.fus % 2 ^ 64 ∧ (b.drop 32).take o.bytes.length = o.bytes ∧ b.drop (len - 4) = leBytes 4 (crc32c (b.take (len - 4))))) ∧
  (∀ (s : State) (h : Fin 2) (r : Fin 5) (d : Staged) (ds : List Staged) (v : Word),
    let size := 2 ^ s.fld (ringKey h r 4) 4 0
    let base := s.rd64 (ringKey h r 8)
    let head := s.rd64 (ringKey h r 0x10)
    let g := (s.portAt h).ring r
    let off := if r = 0 then d.seq % (size / 128) * 128 else if g.off + d.bytes.length ≤ size then g.off else 0
    (s.carries h = true → [0, 1, 4, 2, 3].find? (fun q => !((s.portAt h).ring q).staged.isEmpty) = some r.val →
      g.staged = d :: ds → s.bit (ringKey h r 0) 0 = true → head + 16 ≤ base ∨ base + size ≤ head → off + d.bytes.length ≤ size →
      ∃ t, exec (.ringWrite h) s = .next t ∧ ((t.portAt h).ring r).staged = ds ∧ sameBytes s t ∧
        t.hostBytes h (base + off) d.bytes.length = d.bytes ∧
        t.hostBytes h head 16 = leBytes 8 d.seq ++ leBytes 4 off ++ zeros 4 ∧ ((t.portAt h).ring r).off = (off + d.bytes.length) % size) ∧
    (s.reaches h = true → s.bit (ringKey h r 0) 0 = false → v.getLsbD 0 = true →
      ∃ t, exec (.ringEnable h r v) s = .next t ∧ sameBytes s t ∧
        sameRegs s t ([ringKey h r 0, rk (pgPort h) 0x14] ++ wide (rk (pgPort h) 0x48)) ∧
        (leastSize r ≤ s.fld (ringKey h r 4) 4 0 ∧ s.fld (ringKey h r 4) 4 0 ≤ 30 ∧ base % size = 0 ∧ s.rdN (ringKey h r 0x10) % 16 = 0 →
          t.bit (ringKey h r 0) 0 = true ∧ ((t.portAt h).ring r).off = 0) ∧
        (¬ (leastSize r ≤ s.fld (ringKey h r 4) 4 0 ∧ s.fld (ringKey h r 4) 4 0 ≤ 30 ∧ base % size = 0 ∧ s.rdN (ringKey h r 0x10) % 16 = 0) →
          t.bit (ringKey h r 0) 0 = false ∧ t.bit (rk (pgPort h) 0x14) 0 = true)))

/-- R24, R369, R372, R373, R374, R375: the oldest accounted step gives the next TICK item, with its number, its nominal end, its overrun, its lag and
its shed counts, and the status bits that say so; a TAP block of 256 records, or 2 us old, is offered; a window's update that is due writes, with no
error in the Commons, its content and then its control word with VALID and the next SEQ, and no byte outside the window. -/
def Obligations.StepIsReported : Prop :=
  ∀ (s : State) (a : StepRec) (as : List StepRec) (w : Fin 8) (c : List Byte) (rest : List (Nat × List Byte)),
    let at_ := s.rd64 (rk pgStream 0x118) + 0x100 * w.val
    let seq := SMap.get (fun _ => 0) s.stream.winSeq w
    s.running pgStream = true →
    (s.bell.ticks = a :: as → ¬ (s.running pgFab = true ∧ s.halted pgFab = true) →
      ∃ t, exec .tickRecord s = .next t ∧ t.bell.ticks = as ∧ sameBytes s t ∧ sameRegs s t (wide (rk pgEgo 0x68)) ∧
        t.stream.offers.take s.stream.offers.length = s.stream.offers ∧
        ∃ o ∈ t.stream.offers.drop s.stream.offers.length, o.ring = 0 ∧ o.fus = a.endFus ∧ fieldLE o.bytes 0 8 = a.step % 2 ^ 64 ∧
          fieldLE o.bytes 8 8 = a.endFus % 2 ^ 64 ∧ fieldLE o.bytes 20 4 = min a.overrun 0xFFFFFFFF ∧
          fieldLE o.bytes 24 4 = min a.lag 0xFFFFFFFF ∧ fieldLE o.bytes 28 4 = a.shed0 % 2 ^ 32 ∧ fieldLE o.bytes 32 4 = a.shed1 % 2 ^ 32 ∧
          (fieldLE o.bytes 16 4).testBit 0 = decide (0 < a.overrun) ∧ (fieldLE o.bytes 16 4).testBit 1 = decide (0 < a.lag) ∧
          (fieldLE o.bytes 16 4).testBit 2 = decide (0 < a.shed0 + a.shed1)) ∧
    (s.stream.tap ≠ [] → 256 ≤ s.stream.tap.length ∨ s.stream.tapFus + 32 ≤ s.now →
      ∃ t, exec .tapBlockClose s = .next t ∧ t.stream.tap = [] ∧ sameRegs s t [] ∧ sameBytes s t ∧
        t.stream.offers.map (fun o => (o.ring, o.bytes)) = s.stream.offers.map (fun o => (o.ring, o.bytes)) ++
          [(3, s.stream.tap.flatMap (fun r => leBytes 16 r.toNat))]) ∧
    (s.stream.winQ = (w.val, c) :: rest → w.val ≠ 4 → c.length ≤ 240 → s.planes = [] → s.memc.commonsBad = [] → commonsBase ≤ at_ → at_ + 256 ≤ secBase →
      ∃ t, exec (.resultWindow w) s = .next t ∧ t.stream.winQ = rest ∧ t.getLE at_ 8 = ((seq + 1) * 256 + 1) % 2 ^ 64 ∧
        t.bytes (at_ + 16) c.length = c ∧ sameBytesBut s t at_ 256 ∧
        t.rd64 (rk pgStream 0x68) = (s.rd64 (rk pgStream 0x68) + 1) % 2 ^ 64) ∧
    (w.val = 4 → s.bit (rk pgStream 0x120) 4 = true → s.stream.w4At < s.now / 16 → s.planes = [] → s.memc.commonsBad = [] → commonsBase ≤ at_ → at_ + 256 ≤ secBase →
      ∃ t, exec (.resultWindow w) s = .next t ∧ t.getLE at_ 8 = ((seq + 1) * 256 + 1) % 2 ^ 64 ∧
        t.getLE (at_ + 16) 8 = s.time.tb0 % 2 ^ 64 ∧ t.getLE (at_ + 48) 8 = s.now % 2 ^ 64 ∧ sameBytesBut s t at_ 256)

/-- R371, R376, R390, R491, R496: a link comes up on a port that is out of reset and not off, with group 2 of the rails in regulation, and sends what was
held and no mask holds; it goes down, counted, with its event. PERST_N low and a Function Level Reset return the port's own registers and its copies to reset, drop and
count what is staged, and keep SEQ_NEXT, the other port and device memory; a fatal error puts the port in FAULTED. A PERST_N and a Function Level Reset clear the pending bits and the MSI-X table (log 78). -/
def Obligations.PortComesAndGoes : Prop :=
  ∀ (s : State) (h : Fin 2) (g : Fin 2) (r : Fin 5) (w x : BitVec 4) (p : Fin 64) (i : Fin 4),
    let pg := pgPort h
    let q := s.portAt h
    let back (t : State) := sameBytes s t ∧ t.rd (rk pg 0x100) = regReset (rk pg 0x100) ∧ t.bit (ringKey h r 0) 0 = false ∧
      t.rd64 (ringKey h r 0x18) = s.rd64 (ringKey h r 0x18) ∧ t.rdN (copyKey h p (0x30 + 4 * i)) = 0 ∧ t.rdN (copyKey h p 0x18) = 0 ∧
      (t.portAt h).rings = [] ∧ (t.portAt h).msixPend = [] ∧ (t.portAt h).msixTbl = [] ∧ (g ≠ h → (t.portAt g).rings = (s.portAt g).rings ∧ (t.portAt g).link = (s.portAt g).link ∧ ∀ r : Fin 5, t.rd (ringKey g r 0) = s.rd (ringKey g r 0))
    (q.link = false → q.inReset = false → s.role h ≠ 3 → (∀ n ∈ ([6, 11, 12] : List Nat), s.bit (rk pgPwr 0x128) n = true) →
      ∃ t, exec (.linkUp h w x) s = .next t ∧ (t.portAt h).link = true ∧ t.bit (rk pg 0x104) 2 = true ∧ t.bit (rk pg 0x14) 1 = true ∧
        t.fld (rk pg 0x104) 6 3 = w.toNat ∧ t.fld (rk pg 0x104) 10 7 = x.toNat ∧ (t.portAt h).msixTbl = q.msixTbl ∧
        (∀ v : Fin 64, v.val ∈ (t.portAt h).msixPend ↔ v.val ∈ q.msixPend ∧ q.masked v = true) ∧
        (∀ m, m ∈ (t.portAt h).msixSent ↔ m ∈ q.msixSent ∨ ∃ v ∈ q.msixPend, q.masked v = false ∧ m = q.message v) ∧ sameRegs s t [rk pg 0x104, rk pg 0x14] ∧ sameBytes s t) ∧
    (q.link = true →
      ∃ t, exec (.linkDown h) s = .next t ∧ (t.portAt h).link = false ∧ t.bit (rk pg 0x104) 2 = false ∧ t.bit (rk pg 0x14) 2 = true ∧
        t.rd64 (rk pg 0x78) = (s.rd64 (rk pg 0x78) + 1) % 2 ^ 64 ∧ sameRegs s t ([rk pg 0x104, rk pg 0x14] ++ wide (rk pg 0x78)) ∧ sameBytes s t) ∧
    (∃ t, exec (.perstN h false) s = .next t ∧ back t ∧ (t.portAt h).link = false ∧ (t.portAt h).inReset = true) ∧
    (∃ t, exec (.perstN h true) s = .next t ∧ (t.portAt h).inReset = false ∧ sameRegs s t [rk pg 0x104] ∧ sameBytes s t) ∧
    (q.link = true → ∃ t, exec (.functionLevelReset h) s = .next t ∧ back t ∧ (t.portAt h).link = true) ∧
    (s.blk pg ≠ stOff → ∃ t, exec (.linkFatal h) s = .next t ∧ t.blk pg = stFaulted ∧ t.bit (rk pg 0x1C) 1 = true ∧ sameBytes s t)

/-- R173: the binner takes the next record. Of an enabled sensor, a KIND 0 record joins the bin of its extended time: its site counts one record more, or,
where the list is full and the site is new, is dropped with OVF, once in ENG_BIN_OVF; a record for a closed bin counts in ENG_BIN_LATE and joins none.
Any other record is passed over. No byte of memory changes. R156, R173, R174: an enabled binner whose open bin is over by BIN_GRACE writes it into its
buffer in the Commons: the header with the bin's number, its count of sites and OVF, the site entries, and the feature rows at the next 64-byte
boundary after BIN_CAP entries; nothing else of memory changes. R198: it then fires the triggers of the models whose source it is, each with that buffer. Before
that moment nothing happens. -/
def Obligations.RecordBecomesATensor : Prop :=
  (∀ (s : State) (hub : Fin 2) (w : BitVec 128) (rest : List (BitVec 128)),
    let r := w.toNat
    let k := bits r 63 60
    let j := (s.now - (s.now + 2 ^ 32 - bits r 31 0) % 2 ^ 32) / s.binLen k
    let lg := s.fld (binKey k 0) 3 1
    let cx := bits r 127 112 / 16 / 2 ^ lg
    let cy := bits r 111 96 / 16 / 2 ^ lg
    let count (b : Bin) := ((b.sites.find? (fun q => q.cx == cx && q.cy == cy)).map (·.count)).getD 0
    let old := (s.binAt k).bin j
    let fresh := old.sites.all (fun q => !(q.cx == cx && q.cy == cy)) = true
    let taken := bits r 34 32 = 0 ∧ s.binEn k = true
    (s.fendAt hub).binQ = w :: rest →
    ∃ t, exec (.binRecord hub) s = .next t ∧ (t.fendAt hub).binQ = rest ∧ sameBytes s t ∧
      (¬ taken → t.bins = s.bins ∧ sameRegs s t []) ∧
      (taken → j < (s.binAt k).closedTo → t.bins = s.bins ∧
        t.rdN (rk (pgEng 0) 0x304) = min (s.rdN (rk (pgEng 0) 0x304) + 1) 0xFFFFFFFF ∧ sameRegs s t [rk (pgEng 0) 0x304]) ∧
      (taken → (s.binAt k).closedTo ≤ j → ¬ (fresh ∧ s.binCap k ≤ old.sites.length) →
        count ((t.binAt k).bin j) = count old + 1 ∧ ((t.binAt k).bin j).ovf = old.ovf ∧ sameRegs s t []) ∧
      (taken → (s.binAt k).closedTo ≤ j → fresh → s.binCap k ≤ old.sites.length → (cx, cy) ∈ old.dropped →
        (t.binAt k).bin j = old ∧ sameRegs s t []) ∧
      (taken → (s.binAt k).closedTo ≤ j → fresh → s.binCap k ≤ old.sites.length → (cx, cy) ∉ old.dropped →
        ((t.binAt k).bin j).sites = old.sites ∧ ((t.binAt k).bin j).ovf = true ∧
        t.rdN (rk (pgEng 0) 0x308) = min (s.rdN (rk (pgEng 0) 0x308) + 1) 0xFFFFFFFF ∧ sameRegs s t [rk (pgEng 0) 0x308])) ∧
  (∀ (s : State) (k : Fin 16),
    let len := s.binLen k
    let j := (s.binAt k).closedTo
    let stop := (j + 1) * len
    let b := (s.binAt k).bin j
    let n := b.sites.length
    let a := s.binBuf k j
    let grace := 16 * s.fld (rk (pgEng 0) 0x300) 7 0
    (s.binEn k = true → stop + grace ≤ s.now → n ≤ s.binCap k → s.memc.commonsBad = [] → inOpenCommons a (binSize (s.binCap k)) = true →
      ∃ t, exec (.binClose k) s = .next t ∧ (t.binAt k).closedTo = j + 1 ∧
        t.getLE a 8 = j % 2 ^ 64 ∧ t.getLE (a + 8) 4 = n % 2 ^ 32 ∧ t.getLE (a + 12) 4 = (if b.ovf then 1 else 0) ∧
        t.bytes (a + 16) (4 * n) = b.sites.flatMap (·.entry) ∧
        t.bytes (a + binRows (s.binCap k)) (8 * n) = b.sites.flatMap (fun q => q.row stop len) ∧
        t.tt.fired.map (fun f => (f.model, f.at_, f.buf)) = s.tt.fired.map (fun f => (f.model, f.at_, f.buf)) ++
          (s.listeners 0 k).map (fun q => (q.1, s.time.tb0, a)) ∧
        sameBytesBut s t a (binSize (s.binCap k)) ∧ sameRegs s t (wide (rk pgCommons 0x48))) ∧
    (s.now < stop + grace → ∃ t, exec (.binClose k) s = .next t ∧ t = s))

/-- R168, R169, R178, R185, R186, R188, R189: a staged tile whose operands are in the store in its dimensions starts on an engine that runs none, is
RUNNING, not halted and not fenced, with its rails settled, in MARGIN only if it is margin-scaled: with the approximation then in force, from the
moment TB0 shows, for its passes and 512 cycles, 256 where the tile before it was of its layer and ended at that moment; BUSY shows. Where the checks
are on and a weight row differs from the checksum column, it does not start, WCHK is raised and it counts in CNT_TILES. Without its operands nothing
happens.
R164, R167, R168, R172, R175, R177, R184: the running tile of an engine ends once its cycles have passed: it counts in CNT_TILES, its passes in
CNT_PASSES, in SKIP its activations in CNT_ACT; a row or column check that failed raises CHK_FAIL, each counts and the first is recorded; an ECC error
of the store, an output disagreement and a gather signature that differs raise their faults; near-misses of the canaries of ENG4 and ENG5 count and
set MARGIN_WARN (R187). Of an engine outside an active pair the completion goes to the
Timetable with status OK, or CHK_FAIL. Before its cycles have passed nothing happens. R179: in an active pair, the half result that comes first waits
for the other; the second sends the tile's one completion, from the lower engine: PAIR_FAIL where the two output signatures differ, which raises
PAIR_FAIL in both engines and counts in both, else OK where neither engine failed a check, else CHK_FAIL. -/
def Obligations.TileRunsOnItsEngine : Prop :=
  (∀ (s : State) (e : Fin 6) (u : Tile) (ops : TileOperands),
    let g := s.engAt e
    let follows := g.lastEnd = some (u.model, u.layerIdx, s.time.tb0)
    g.staged = some u → g.running = none →
    (u.operands g.gathered ops = none → ∃ t, exec (.tileStart e ops) s = .next t ∧ t = s) ∧
    (s.running (pgEng e) = true → s.halted (pgEng e) = false → s.engBit e 1 = false →
    (e.val < 4 ∨ s.margin = 0 ∨ s.margin = 2 ∧ u.layer.margin = true) → s.fld (rk pgPwr 0x10C) 2 0 ≠ 3 → ∀ o ∈ u.operands g.gathered ops,
    let on := (s.engArr e ≠ 2 ∧ u.layer.margin = false) ∧ wchkOk u o = false
    ∃ t, exec (.tileStart e ops) s = .next t ∧ (t.engAt e).staged = none ∧ sameBytes s t ∧
      o.weights.length = u.width ∧ (∀ r ∈ o.acts, r.length = u.width) ∧ (u.layer.sparse = true → g.gathered = some o.acts) ∧
      (¬ on → (t.engAt e).running = some { u with
          startAt := s.time.tb0
          passes := u.rowPasses o
          cycles := u.rowPasses o + (if follows then 256 else 512)
          mode := (s.approx e u).1
          q := (s.approx e u).2
          ops := o } ∧
        t.engBit e 0 = true ∧ t.bit (rk (pgEng e) 0x110) 31 = true ∧
        sameRegs s t [rk (pgEng e) 0x10C, rk (pgEng e) 0x110]) ∧
      (on → (t.engAt e).running = none ∧ t.bit (rk (pgEng e) 0x1C) 2 = true ∧
        t.rd64 (rk (pgEng e) 0x40) = (s.rd64 (rk (pgEng e) 0x40) + 1) % 2 ^ 64 ∧
        (s.engBit e 3 = false → t.tt.comps = s.tt.comps ++ [u.report e .wchk [e]] ∧
          sameRegs s t (rk (pgEng e) 0x1C :: wide (rk (pgEng e) 0x40)))))) ∧
  (∀ (s : State) (e : Fin 6) (u : Tile) (f : TileFault),
    let pg := pgEng e
    let failed := (s.engArr e ≠ 2 ∧ u.layer.margin = false) ∧ (u.rowFails (u.accs f) ≠ [] ∨ u.colFails (u.accs f) ≠ [])
    let ended := cycleUnits (s.engFreq e) u.cycles ≤ nsUnits (s.time.tb0 - u.startAt)
    let warn := 4 ≤ e.val ∧ f.nearMiss ≠ 0
    let mine := [rk pg 0x10C, rk pg 0x110, rk pg 0x1C] ++ wide (rk pg 0x40) ++ wide (rk pg 0x48) ++
      (if u.mode = 1 then wide (rk pg 0x50) ++ wide (rk pg 0x58) else []) ++ if warn then [rk (pgEng 4) 0x130, rk pg 0x14] else []
    let brief (c : Completion) := (c.engine, c.entry, c.tag, c.gen, c.status)
    (s.engAt e).running = some u →
    (ended → ∃ t, exec (.tileComplete e f) s = .next t ∧ (t.engAt e).running = none ∧ t.engBit e 0 = false ∧ sameBytes s t ∧
      t.rd64 (rk pg 0x40) = (s.rd64 (rk pg 0x40) + 1) % 2 ^ 64 ∧
      t.rd64 (rk pg 0x48) = (s.rd64 (rk pg 0x48) + u.passes) % 2 ^ 64 ∧
      (u.mode = 1 → t.rd64 (rk pg 0x50) = (s.rd64 (rk pg 0x50) + u.ops.acts.flatten.length) % 2 ^ 64) ∧
      (f.ecc = true → t.bit (rk pg 0x1C) 5 = true) ∧ (f.outCmp = true → t.bit (rk pg 0x1C) 3 = true) ∧
      (f.gatherSig = true → t.bit (rk pg 0x1C) 4 = true) ∧
      (warn → t.rdN (rk (pgEng 4) 0x130) = min (s.rdN (rk (pgEng 4) 0x130) + f.nearMiss) 0xFFFFFFFF ∧ t.bit (rk pg 0x14) 4 = true) ∧
      (failed → t.bit (rk pg 0x1C) 0 = true ∧
        t.rd64 (rk pg 0x60) = (s.rd64 (rk pg 0x60) + ((u.rowFails (u.accs f)).length + (u.colFails (u.accs f)).length)) % 2 ^ 64 ∧
        t.bit (rk pg 0x114) 31 = true ∧ t.bit (rk pg 0x118) 31 = true) ∧
      (s.engBit e 3 = false → t.tt.comps.map brief = s.tt.comps.map brief ++ [(e.val, u.entry, u.tag, u.gen, if failed then .chkFail else .ok)] ∧
        sameRegs s t (mine ++ if failed then wide (rk pg 0x60) ++ [rk pg 0x114, rk pg 0x118] else []))) ∧
    (¬ ended → ∃ t, exec (.tileComplete e f) s = .next t ∧ t = s)) ∧
  (∀ (s : State) (e : Fin 6) (u : Tile) (f : TileFault) (d : Completion),
    let p := partner e
    let brief (c : Completion) := (c.engine, c.entry, c.tag, c.gen)
    (s.engAt e).running = some u → s.engBit e 3 = true → cycleUnits (s.engFreq e) u.cycles ≤ nsUnits (s.time.tb0 - u.startAt) →
    d.status = .ok ∨ d.status = .chkFail → (d.bad = [] ↔ d.status = .ok) → (d.engine, d.entry, d.tag, d.gen) = (p, u.entry, u.tag, u.gen) →
    ((s.engAt p).pairSeen = none →
      ∃ t, exec (.tileComplete e f) s = .next t ∧ sameBytes s t ∧ t.tt.comps = s.tt.comps ∧
        (t.engAt e).pairSeen.map brief = some (e.val, u.entry, u.tag, u.gen)) ∧
    ((s.engAt p).pairSeen = some d →
      ∃ t, exec (.tileComplete e f) s = .next t ∧ sameBytes s t ∧ (t.engAt p).pairSeen = none ∧
        ∃ c, t.tt.comps = s.tt.comps ++ [c] ∧ brief c = (min e.val p, u.entry, u.tag, u.gen) ∧
          (c.status = .pairFail ↔ c.sig ≠ c.sig2) ∧ (c.status = .ok ↔ c.sig = c.sig2 ∧ c.bad = []) ∧
          (c.status = .pairFail → t.bit (rk (pgEng e) 0x1C) 1 = true ∧ t.bit (rk (pgEng p) 0x1C) 1 = true ∧
            t.rd64 (rk (pgEng e) 0x68) = (s.rd64 (rk (pgEng e) 0x68) + 1) % 2 ^ 64 ∧
            t.rd64 (rk (pgEng p) 0x68) = (s.rd64 (rk (pgEng p) 0x68) + 1) % 2 ^ 64)))

/-- R166, R175, R177: the checksums of an integer tile locate every single fault: an accumulator that a fault has moved by an amount that is no multiple
of 2^32 fails the check of its row and of its column and no other, and a tile without a fault fails none. The operands are rectangular, as a tile's
are. -/
def Obligations.SingleFaultIsLocated : Prop :=
  ∀ (u : Tile) (r c : Nat) (d : Int),
    let clean : TileFault := { acc := [], outCmp := false, gatherSig := false, ecc := false, nearMiss := 0 }
    let fault : TileFault := { clean with acc := [(r, c, d)] }
    let n := (u.ops.weights.head?.getD []).length
    isFloat u.layer.wfmt = false → isFloat u.layer.afmt = false → u.ops.weights ≠ [] →
    (∀ w ∈ u.ops.weights, w.length = n) → (∀ a ∈ u.ops.acts, a.length = u.ops.weights.length) → r < u.ops.acts.length → c < n →
    u.rowFails (u.accs clean) = [] ∧ u.colFails (u.accs clean) = [] ∧
      (d % 2 ^ 32 ≠ 0 → u.rowFails (u.accs fault) = [r] ∧ u.colFails (u.accs fault) = [c])

/-- R170, R171, R172, R189: for a staged sparse tile of a task of an invocation, the gather unit takes the site list of the input buffer, where the task
reads it and the trigger is BIN or SITES, or an earlier layer's. Of the layer's output sites inside the tile's boxes it takes the part that falls to
the tile, and of a list at most half as long as the hash table it builds one row for each: for every kernel offset, dy outer and dx inner, the
feature row of the input site's first occurrence in the list, zeros where the list has no such site, and zeros up to whole chunks. The rows count in
CNT_SITES; no byte of memory changes. -/
def Obligations.GatherFindsEverySite : Prop :=
  ∀ (s : State) (e : Fin 6) (u : Tile) (img : ModelImage) (inv : Invocation) (task : TaskDesc) (given rows : List SiteRow) (out : List (Nat × Nat)),
    let l := u.layer
    let reads := task.readsIn = true ∧ img.trig.source < 2
    let found := s.inputSites e l.afmt img.trig inv.buf
    let n := s.getLE (inv.buf + 8) 4
    let entry (i : Nat) := s.getLE (inv.buf + 16 + 4 * i) 4
    let feature (i : Nat) := if img.trig.source = 0 then s.bytes (inv.buf + binRows (s.binCap img.trig.param) + 8 * i) 8
      else [BitVec.ofNat 8 (entry i)]
    let cin := ((rows.head?).map (fun r => r.row.length)).getD 0
    let at_ (x y : Int) := rows.find? (fun q => (q.cx : Int) == x && (q.cy : Int) == y)
    let kernel (o : Nat × Nat) := (offsets l.radius).flatMap (fun dy => (offsets l.radius).flatMap (fun dx =>
      match at_ (l.stride * o.1 + dx) (l.stride * o.2 + dy) with
      | some q => q.row
      | none => List.replicate cin 0))
    let sites := out.filter (inBoxes u.boxes)
    let share := tileShare sites.length (maxRows u.kb (((operandPair l.wfmt l.afmt).map (·.2)).getD 1))
      ((img.tasks.take u.tag).filter (fun v => v.layer == task.layer)).length
    let mine := wide (rk (pgEng e) 0x78) ++ [rk (pgEng e) 0x11C, rk (pgEng e) 0x120]
    (s.engAt e).staged = some u → l.sparse = true → (s.slotOf u.model).image = some img → (s.slotOf u.model).inv = some inv →
    s.taskOf u.model u.tag = some task → (reads → found.2 = some rows) → (¬ reads → rows = given) → 2 * rows.length ≤ 2 ^ l.hashH →
    ∃ t, exec (.gatherBuild e ⟨given, out⟩) s = .next t ∧ sameBytes s t ∧
      (reads → rows = (List.range n).map (fun i =>
        { cx := bits (entry i) 19 8, cy := bits (entry i) 31 20, row := (feature i).map (byteCode l.afmt) })) ∧
      (t.engAt e).gathered = some (((sites.drop share.1).take share.2).map (fun o =>
        (kernel o ++ List.replicate (u.width - (kernel o).length) 0).take u.width)) ∧
      t.rd64 (rk (pgEng e) 0x78) = (found.1.rd64 (rk (pgEng e) 0x78) + ((sites.drop share.1).take share.2).length) % 2 ^ 64 ∧
      sameRegs (if reads then found.1 else s) t mine ∧
      (s.memc.commonsBad = [] → inOpenCommons inv.buf (max (16 + 4 * n) (binRows (s.binCap img.trig.param) + 8 * n)) = true →
        sameRegs s t (mine ++ if reads then wide (rk pgCommons 0x40) else []))

/-- R186, R187, R189, R191: the owner's CMD_MARGIN_ENTER from NOMINAL is refused with its cause, or starts ENTERING with its VCODE and stays BUSY;
CMD_MARGIN_EXIT from MARGIN starts LEAVING. The rail settles into MARGIN, once no tile runs on the pair, or into NOMINAL with VCODE 0, with its event,
and the waiting command completes. A write of ENG_STATS_MODEL takes effect and clears ENG_STATS. -/
def Obligations.MarginIsEnteredAndLeft : Prop :=
  ∀ (s : State) (h : Fin 2) (e : Fin 6) (v : Word),
    let p := pgEng 4
    let st := rk p 0x128
    let code := s.hostArg h p 0 % 32
    let down (e : Nat) := s.blk (pgEng e) = stTesting ∨ s.blk (pgEng e) = stFaulted
    let cause := if s.engArr 4 = 1 ∨ s.engArr 5 = 1 then 1 else if down 4 ∨ down 5 then 2 else if 30 < code then 3 else 0
    (s.issues h p = true → s.margin = 0 →
      ∃ t, exec (.cmdMarginEnter h) s = .next t ∧ sameBytes s t ∧ sameRegs s t (st :: slotKeys h p) ∧
        (cause = 0 → t.margin = 1 ∧ t.fld st 15 8 = code ∧ t.busy p = true) ∧
        (cause ≠ 0 → t.margin = 0 ∧ t.fld st 7 4 = cause ∧ t.busy p = false ∧ t.result p = resRefused)) ∧
    (s.issues h p = true → s.margin = 2 →
      ∃ t, exec (.cmdMarginExit h) s = .next t ∧ t.margin = 3 ∧ t.busy p = true ∧ sameBytes s t ∧ sameRegs s t (st :: slotKeys h p)) ∧
    ((s.margin = 1 ∧ (s.engAt 4).running = none ∧ (s.engAt 5).running = none) ∨ s.margin = 3 →
      ∃ t, exec .railSettled s = .next t ∧ t.margin = (if s.margin = 1 then 2 else 0) ∧ (s.margin = 3 → t.fld st 15 8 = 0) ∧
        t.bit (rk p 0x14) (if s.margin = 1 then 2 else 3) = true ∧ t.busy p = false ∧ (s.busy p = true → t.result p = resDone) ∧
        sameBytes s t ∧ sameRegs s t [st, rk p 0x14, rk p 0x2C]) ∧
    (s.reaches h = true → s.isOwner h = true →
      ∃ t, exec (.engStatsModel h e v) s = .next t ∧ t.rdN (rk (pgEng e) 0x124) = v.toNat % 8 ∧ (t.engAt e).stats = [] ∧
        sameBytes s t ∧ sameRegs s t (rk (pgEng e) 0x124 :: wide (rk (pgPort h) 0x48)))

/-- R195, R196, R215, R216: CMD_LOAD into an EMPTY slot makes it LOADING and stays BUSY; into another slot it is refused with code 0x01. The image check
refuses a load with the first failing check's code in TT_LOAD_ERR and the slot EMPTY, code 0x02 for the signature, or makes the slot READY with the
image's priority, address and task count, each task as its 32-byte entry in memory and its dependency list give it (R194). CMD_UNLOAD empties a READY slot and is refused with code 0x0F on another. R196, R197, R198, R211, R216:
CMD_ACTIVATE of a READY slot makes it ACTIVE unless its BIN or SITES source is not enabled (0x0B) or an ACTIVE model binds one of its GRID or TRK
inputs (0x0C). CMD_DEACTIVATE discards the pending trigger, and the slot becomes READY, or DRAINING while an invocation is in flight. CMD_SWAP arms
slot a towards slot b, or is refused with 0x0F or 0x0E and changes no slot; that two models with the same trigger and the same consumer inputs in
order have the same output bindings is the model's choice (log 100). -/
def Obligations.ModelIsLoadedAndActivated : Prop :=
  (∀ (s : State) (h : Fin 2) (m : Fin 8) (a : Nat) (v : ImageView),
    let checked := if (s.modelSig v).2 then s.verified (s.modelSig v).1 else s
    let states := (List.range 8).map (fun k => slotReg k 0)
    let err := rk pgTT 0x140
    let event := rk pgTT 0x14
    let refused (t : State) (code : Nat) := t.fld err 7 0 = code ∧ t.fld err 11 8 = m.val ∧ t.busy pgTT = false
    let slot := (List.range 12).map (fun i => slotReg m (4 * i))
    (s.issues h pgTT = true → s.hostArg h pgTT 0 % 8 = m →
      (∃ t, exec (.cmdLoad h) s = .next t ∧ sameBytes s t ∧
        (s.mst m = msEmpty → t.mst m = msLoading ∧ t.busy pgTT = true ∧
          t.tt.loading = some (m.val, (s.hostArg h pgTT 1 + s.hostArg h pgTT 2 * 2 ^ 32) % 2 ^ 48) ∧
          sameRegs s t (slotReg m 0 :: slotKeys h pgTT)) ∧
        (s.mst m ≠ msEmpty → refused t 1 ∧ t.result pgTT = resRefused ∧ t.bit event 6 = true ∧ t.tt.slots = s.tt.slots ∧
          sameRegs s t ([err, event] ++ slotKeys h pgTT))) ∧
      (∃ t, exec (.cmdUnload h) s = .next t ∧ sameBytes s t ∧
        (s.mst m = msReady → t.mst m = msEmpty ∧ (t.slotOf m).image = none ∧ t.busy pgTT = false ∧ t.result pgTT = resDone ∧
          (∀ k ∈ List.range 8, (t.slotOf k).swapTo ≠ some m.val) ∧ sameRegs s t (states ++ slotKeys h pgTT)) ∧
        (s.mst m ≠ msReady → refused t 0x0F ∧ t.result pgTT = resRefused ∧ t.tt.slots = s.tt.slots ∧
          sameRegs s t (err :: slotKeys h pgTT)))) ∧
    (s.tt.loading = some (m.val, a) →
      ∃ t, exec (.loadDone v) s = .next t ∧ t.tt.loading = none ∧ t.busy pgTT = false ∧ sameBytes s t ∧
        ((s.modelSig v).1 = false → refused t 2 ∧ t.mst m = msEmpty ∧ t.bit event 6 = true ∧ t.tt.slots = s.tt.slots) ∧
        ((s.modelSig v).1 = true → ∀ (r : State) (e : Nat × Nat), checked.loadCheck m a v = .inl (r, e) →
          refused t e.1 ∧ t.fld err 31 16 = e.2 % 65536 ∧ t.mst m = msEmpty ∧ t.bit event 6 = true ∧ t.tt.slots = s.tt.slots) ∧
        ((s.modelSig v).1 = true → ∀ (r : State) (img : ModelImage), checked.loadCheck m a v = .inr (r, img) →
          t.mst m = msReady ∧ t.slotOf m = { image := some img, perAt := s.now / (16 * max 1 img.trig.count) } ∧
          img.toImageView = v ∧ img.tasks.length = v.taskCount ∧ 1 ≤ v.taskCount ∧ v.taskCount ≤ 65536 ∧
          (∀ (base i : Nat) (x : TaskDesc), sectionAt v a 3 = some base → img.tasks[i]? = some x →
            let e := base + 32 * i
            x.layer = s.getLE e 2 ∧ x.depCnt = s.getLE (e + 2) 1 ∧ x.readsIn = (s.getLE (e + 3) 1).testBit 0 ∧
              x.writesOut = (s.getLE (e + 3) 1).testBit 1 ∧ x.depOff = s.getLE (e + 4) 4 ∧ x.m = s.getLE (e + 8) 2 ∧
              x.kb = s.getLE (e + 10) 1 ∧ x.nm1 = s.getLE (e + 11) 1 ∧ x.engMask = s.getLE (e + 12) 1 % 64 ∧
              x.passes = s.getLE (e + 14) 2 ∧ x.waddr = s.getLE (e + 16) 8 ∧ x.oaddr = s.getLE (e + 24) 8 ∧
              ∀ d ∈ sectionAt v a 4, x.deps = (List.range x.depCnt).map (fun k => s.getLE (d + 2 * x.depOff + 2 * k) 2)) ∧
          t.rdN (slotReg m 4) = v.prio % 8 ∧ t.rd64 (slotReg m 8) = a % 2 ^ 64 ∧
          t.rdN (slotReg m 0x10) = v.taskCount ∧ t.bit event 5 = true ∧ (s.busy pgTT = true → t.result pgTT = resDone) ∧
          sameRegs r t (slot ++ [event, rk pgTT 0x2C, rk pgSec 0x14, rk pgSec 0x124] ++ wide (rk pgSec 0x50))))) ∧
  (∀ (s : State) (h : Fin 2) (m b : Fin 8) (img imgB : ModelImage),
    let err := rk pgTT 0x140
    let refused (t : State) (code : Nat) := t.fld err 7 0 = code ∧ t.result pgTT = resRefused ∧ t.busy pgTT = false ∧ t.tt.slots = s.tt.slots ∧
      sameRegs s t (err :: slotKeys h pgTT)
    let off := img.trig.source = 0 ∧ s.binEn (img.trig.param % 16) = false ∨
      img.trig.source = 1 ∧ s.fld (rk pgFab (0x188 + 16 * (img.trig.param % 8))) 1 0 ≠ 3
    let clash := (List.range 8).any (fun k => k != m && s.mst k == msActive &&
      (((s.slotOf k).image.map inputsOf).getD []).any (fun c => (inputsOf img).contains c)) = true
    let armed := (List.range 8).any (fun k => (s.slotOf k).swapTo.isSome && (k == m || k == b || (s.slotOf k).swapTo == some m.val ||
      (s.slotOf k).swapTo == some b.val)) = true
    let states := (List.range 8).map (fun k => slotReg k 0)
    let alike := img.trig = imgB.trig ∧ img.binds.map (·.consumer) = imgB.binds.map (·.consumer)
    let fit := s.mst m = msActive ∧ s.mst b = msReady ∧ m ≠ b ∧ ¬ armed
    s.issues h pgTT = true → (s.slotOf m).image = some img → (s.slotOf b).image = some imgB → s.hostArg h pgTT 0 = b.val * 16 + m.val →
    (∃ t, exec (.cmdActivate h) s = .next t ∧ sameBytes s t ∧
      (s.mst m ≠ msReady → refused t 0x0F) ∧ (s.mst m = msReady → off → refused t 0x0B) ∧
      (s.mst m = msReady → ¬ off → clash → refused t 0x0C) ∧
      (s.mst m = msReady → ¬ off → ¬ clash → t.mst m = msActive ∧ t.result pgTT = resDone ∧ t.busy pgTT = false ∧
        sameRegs s t (states ++ slotKeys h pgTT))) ∧
    ((s.mst m ∈ [msReady, msActive, msDraining, msDegraded]) → s.mst m = msDraining ∨ s.mst m = msActive ∨ (s.slotOf m).inv = none →
      ∃ t, exec (.cmdDeactivate h) s = .next t ∧ sameBytes s t ∧ (t.slotOf m).pend = none ∧ t.bit (slotReg m 0) 3 = false ∧
        (t.slotOf m).swapTo = none ∧
        ((s.slotOf m).inv ≠ none → t.mst m = msDraining ∧ t.busy pgTT = true ∧ t.tt.deact = some m.val) ∧
        ((s.slotOf m).inv = none → t.mst m = msReady ∧ t.busy pgTT = false ∧ t.result pgTT = resDone ∧
          ((s.slotOf m).swapOut = true → t.bit (rk pgTT 0x14) 7 = true)) ∧
        sameRegs s t (states ++ [rk pgTT 0x110] ++ slotKeys h pgTT ++ if (s.slotOf m).swapOut then [rk pgTT 0x14] else [])) ∧
    (∃ t, exec (.cmdSwap h) s = .next t ∧ sameBytes s t ∧
      (¬ fit → refused t 0x0F) ∧ (fit → ¬ alike → refused t 0x0E) ∧
      (fit → alike → t.slotOf m = { s.slotOf m with
          swapTo := some b.val
          armedAt := s.time.tb0 } ∧
        t.bit (slotReg m 0) 4 = true ∧ t.result pgTT = resDone ∧ t.busy pgTT = false ∧ sameRegs s t (slotReg m 0 :: slotKeys h pgTT))))

/-- R196, R198, R199, R200, R211, R212, R213: the oldest firing of a resident model's trigger source, or of a PERIOD trigger the next multiple that
FUSION has crossed, starts an invocation at once where the model is ACTIVE, has none and TT is neither halted nor out of RUNNING; becomes pending, in
place of one that then counts in TT_MODEL_SKIP, where it is ACTIVE otherwise; and counts in TT_MODEL_SKIP alone where it is not ACTIVE or TT is not
RUNNING. Without a firing, or where the command names another buffer than the firing's (log 101), nothing happens. With a swap armed before it fired,
it makes the other slot ACTIVE and goes there, here from a slot that holds neither invocation nor pending trigger, which becomes READY. A rewrite of
an invocation's input abandons it while a task that reads it is not done. R202, R203, R204, R205, R208: TT admits an invocation's tasks in image
order, each with the count of its unfinished dependencies, and issues the READY task that goes first to an eligible target with a free slot and the
earliest expected finish, with the entry's next generation; a hinted layer's tile adopts the region hints (R18, R19). Here the scoreboard is empty and
one ACTIVE model's invocation waits for its only task, which depends on none. A TT that is halted or not RUNNING does nothing. -/
def Obligations.InvocationIsStartedAndIssued : Prop :=
  (∀ (s : State) (m : Fin 8) (f : Firing) (img : ModelImage) (inv : Invocation) (r : Nat × Nat),
    let q := s.slotOf m
    let unit := 16 * max 1 img.trig.count
    let period := img.trig.source = 5
    let due := if period then q.perAt < s.now / unit ∧ f = { model := m, at_ := s.time.tb0, buf := 0, span := [] }
      else s.tt.fired.find? (fun g => g.model == m.val) = some f
    let q' := if period then { q with perAt := q.perAt + 1 } else q
    let fired := if period then s.tt.fired else s.tt.fired.erase f
    let now : Invocation := { trigTime := f.at_, buf := f.buf, span := f.span, admitted := 0, done := [], unchecked := [] }
    let live := s.running pgTT = true ∧ s.mst m = msActive
    let free := q.inv = none ∧ q.pend = none ∧ s.halted pgTT = false
    let skipped (t : State) := t.rdN (slotReg m 0x1C) = min (s.rdN (slotReg m 0x1C) + 1) 0xFFFFFFFF
    q.image = some img →
    (due → q.swapTo = none → ∃ t, exec (.triggerFire m f.buf) s = .next t ∧ sameBytes s t ∧ t.tt.fired = fired ∧
      (live → free → t.slotOf m = { q' with inv := some now } ∧ t.rd64 (rk pgTT 0x68) = (s.rd64 (rk pgTT 0x68) + 1) % 2 ^ 64 ∧
        sameRegs s t (wide (rk pgTT 0x68))) ∧
      (live → ¬ free → t.slotOf m = { q' with pend := some f } ∧ t.bit (slotReg m 0) 3 = true ∧
        (q.pend = none → sameRegs s t [slotReg m 0]) ∧ (q.pend ≠ none → skipped t ∧ sameRegs s t [slotReg m 0, slotReg m 0x1C])) ∧
      (¬ live → t.slotOf m = q' ∧ skipped t ∧ sameRegs s t [slotReg m 0x1C])) ∧
    ((if period then ¬ q.perAt < s.now / unit else s.tt.fired.find? (fun g => g.model == m.val) = none) →
      ∃ t, exec (.triggerFire m f.buf) s = .next t ∧ t = s) ∧
    (∀ buf, due → buf ≠ f.buf → exec (.triggerFire m buf) s = .next s) ∧
    (∀ b : Fin 8, due → live → free → q.swapTo = some b.val → m ≠ b → q.armedAt < f.at_ → s.mst b = msReady →
      (s.slotOf b).inv = none → (s.slotOf b).pend = none →
      ∃ t, exec (.triggerFire m f.buf) s = .next t ∧ sameBytes s t ∧ t.mst m = msReady ∧ t.mst b = msActive ∧ (t.slotOf b).inv = some now ∧
        (t.slotOf m).inv = none ∧ (t.slotOf m).swapTo = none ∧ t.bit (rk pgTT 0x14) 7 = true ∧
        sameRegs s t ([slotReg m 0, slotReg b 0, rk pgTT 0x14, rk pgTT 0x2C] ++ wide (rk pgTT 0x68))) ∧
    (s.tt.rewritten.find? (fun x => x.1 == m.val) = none → ∃ t, exec (.inputRewrite m) s = .next t ∧ t = s) ∧
    (s.tt.rewritten.find? (fun x => x.1 == m.val) = some r → q.inv = some inv → q.pend = none → s.mst m = msActive →
      let reads := r.2 = inv.trigTime ∧
        (img.tasks.zip (List.range img.tasks.length)).any (fun x => x.1.readsIn && !inv.done.contains x.2) = true
      ∃ t, exec (.inputRewrite m) s = .next t ∧ sameBytes s t ∧ t.tt.rewritten = s.tt.rewritten.erase r ∧
        (reads → (t.slotOf m).inv = none ∧ t.tt.deliver = s.tt.deliver ∧ t.rd64 (rk pgTT 0x70) = (s.rd64 (rk pgTT 0x70) + 1) % 2 ^ 64 ∧
          t.rdN (slotReg m 0x20) = min (s.rdN (slotReg m 0x20) + 1) 0xFFFFFFFF ∧ t.bit (rk pgTT 0x14) 8 = true ∧
          t.tt.board = s.tt.board.filter (fun b => b.model != m.val) ∧
          sameRegs s t (wide (rk pgTT 0x70) ++ [slotReg m 0x20, rk pgTT 0x14, rk pgTT 0x114])) ∧
        (¬ reads → t.slotOf m = q ∧ sameRegs s t []))) ∧
  (∀ (s : State) (m : Fin 8) (inv : Invocation) (img : ModelImage) (task : TaskDesc) (layer : LayerDesc) (g : Nat × Bool),
    let gen := (SMap.get (fun _ => 0) s.tt.gens 0 + 1) % 256
    let fits (u : Nat × Bool) := s.eligible u task.engMask layer.margin = true ∧ s.slotFree u = true
    let cost (u v : Nat × Bool) := s.committed u.1 * (s.engFreq v.1 * s.weight v.1)
    let entry : SbEntry := { entry := 0, model := m, tag := 0, count := 0, readyAt := s.time.tb0, issued := some g, gen := gen }
    let tile : Tile := {
      entry := 0
      model := m
      tag := 0
      gen := gen
      layerIdx := task.layer
      layer := layer
      m := task.m
      n := task.nm1 + 1
      kb := task.kb
      passes := task.passes
      waddr := task.waddr
      oaddr := task.oaddr
      boxes := if layer.hinted then s.adoptHints.hintBoxes else none
      readyAt := s.time.tb0 }
    (s.running pgTT = true → s.halted pgTT = false → s.tt.board = [] → s.mst m = msActive →
      s.slotOf m = { image := some img, inv := some inv } → inv.admitted = 0 → img.tasks = [task] → img.layers[task.layer]? = some layer →
      task.deps = [] → (∀ k ∈ List.range 8, k ≠ m.val → (s.slotOf k).inv = none ∧ (s.slotOf k).pend = none) → g ∈ s.targets → fits g →
      (∀ u ∈ s.targets, fits u → cost g u < cost u g ∨ cost g u = cost u g ∧ g.1 ≤ u.1) →
      (∀ u ∈ s.targets, ∀ v ∈ s.targets, fits u → fits v → 0 < s.engFreq u.1 * s.weight u.1) →
      ∃ t, exec .taskIssue s = .next t ∧ t.tt.board = [entry] ∧ (t.slotOf m).inv = some { inv with admitted := 1 } ∧ sameBytes s t ∧
        (∀ e ∈ List.range 6, (t.engAt e).staged = if e ∈ enginesOf g then some tile else (s.engAt e).staged) ∧
        t.loopAt 4 = (if layer.hinted then { (s.loopAt 4).adopt with fresh := s.isFresh .engHints (s.loopAt 4).adopt.adopted } else s.loopAt 4) ∧
        t.rd64 (rk pgTT 0x40) = (s.rd64 (rk pgTT 0x40) + 1) % 2 ^ 64 ∧ t.fld (rk pgTT 0x114) 12 0 = 1 ∧
        sameRegs s t (wide (rk pgTT 0x40) ++ [rk pgTT 0x118, rk pgTT 0x114])) ∧
    (s.running pgTT = false ∨ s.halted pgTT = true → ∃ t, exec .taskIssue s = .next t ∧ t = s))

/-- R202, R204, R205, R206, R208: TT takes the next completion, of an engine or, from the comparator, of a pair. One of a fenced engine counts in
CNT_FENCE_DROP. Any other tile counts in its engine's window; one that is not the latest issue of its entry to that target counts in CNT_STALE; neither
changes the scoreboard. Of the latest issue, inside a window of R208: OK frees the entry, sets the task's bit, lowers its
dependants' counts and counts in CNT_DONE; CHK_FAIL below the strike limit counts a strike and, where another target may take the task, makes the
entry wait for a re-issue elsewhere. R207, R209, R210, R188, R216: a tile that runs TT_TILE_TIMEOUT past its start fences its engine, here one outside
a pair whose issued tasks keep other targets: FENCED shows on both pages, the engine goes to DISMISSING, its tile is reported DISMISSED, its tasks
wait for a re-issue, and TT_FAIL_CAUSE, ENG_FAILED and FENCE say so. CMD_UNFENCE lifts a fence only once a self-test has passed since and the engine
is IDLE, with weight 1.0; else code 0x0D. -/
def Obligations.CompletionIsTakenOrEngineFenced : Prop :=
  (∀ (s : State) (c : Completion) (rest : List Completion) (b : SbEntry) (img : ModelImage) (inv : Invocation) (task : TaskDesc) (ex ac : Nat),
    let latest (b : SbEntry) := b.entry = c.entry ∧ b.model = c.model ∧ b.tag = c.tag ∧ b.gen = c.gen ∧ b.issued = some (c.engine, c.pair)
    let w := s.winOf c.engine
    let w' := { w with tiles := w.tiles + 1, total := w.total + 1, expSum := w.expSum + ex, actSum := w.actSum + ac }
    let dropped := (enginesOf (c.engine, c.pair)).any (fun e => s.engBit e 1) = true
    let count (x : SbEntry) := (((s.taskOf x.model x.tag).map (fun t => (t.deps.filter (fun d => d == b.tag)).length)).getD 0)
    s.tt.comps = c :: rest → c.fatal = [] →
    (dropped →
      ∃ t, exec .taskCompletion s = .next t ∧ t.tt = { s.tt with comps := rest } ∧ sameBytes s t ∧
        t.rd64 (rk pgTT 0x60) = (s.rd64 (rk pgTT 0x60) + 1) % 2 ^ 64 ∧ sameRegs s t (wide (rk pgTT 0x60))) ∧
    (¬ dropped → (∀ x ∈ s.tt.board.find? (fun x => x.entry == c.entry), ¬ latest x) → w.tiles + 1 < s.fld (rk pgTT 0x104) 15 0 →
      c.ran = [(c.engine, ex, ac)] →
      ∃ t, exec .taskCompletion s = .next t ∧ sameBytes s t ∧ t.winOf c.engine = w' ∧
        t.tt = { s.tt with comps := rest, wins := t.tt.wins } ∧
        t.rd64 (rk pgTT 0x58) = (s.rd64 (rk pgTT 0x58) + 1) % 2 ^ 64 ∧ sameRegs s t (wide (rk pgTT 0x58))) ∧
    (¬ dropped → s.tt.board.find? (fun x => x.entry == c.entry) = some b → latest b → w.tiles + 1 < s.fld (rk pgTT 0x104) 15 0 →
      (s.slotOf b.model).image = some img → (s.slotOf b.model).inv = some inv → img.tasks[b.tag]? = some task →
      c.ran = [(c.engine, ex, ac)] →
      (c.status = .ok → b.arbiter = none → inv.done.length + 1 < img.tasks.length →
        ∃ t, exec .taskCompletion s = .next t ∧ sameBytes s t ∧ t.tt.comps = rest ∧
          (t.slotOf b.model).inv.map (·.done) = some (inv.done ++ [b.tag]) ∧
          t.tt.board.map (fun x => (x.entry, x.count, x.issued)) = (s.tt.board.filter (fun x => x.entry != b.entry)).map (fun x =>
            (x.entry, if x.model = b.model then x.count - count x else x.count, x.issued)) ∧
          t.rd64 (rk pgTT 0x48) = (s.rd64 (rk pgTT 0x48) + 1) % 2 ^ 64 ∧ sameRegs s t (wide (rk pgTT 0x48) ++ [rk pgTT 0x114])) ∧
      (c.status = .chkFail → c.bad = [c.engine] → (w.strikes.length + 1 < s.fld (rk pgTT 0x108) 3 0) →
        (∀ x ∈ s.tt.board, x.entry ≠ b.entry → s.entryLost x = false) → b.arbiter = none →
        (s.targets.any (fun u => s.eligible u task.engMask (((s.layerOf b.model b.tag).map (·.margin)).getD false))) = true →
        ∃ t, exec .taskCompletion s = .next t ∧ sameBytes s t ∧ t.tt.comps = rest ∧ t.tt.slots = s.tt.slots ∧
          t.tt.board = s.tt.board.map (fun x => if x.entry = b.entry then { x with
            issued := none
            again := true
            readyAt := s.time.tb0
            avoid := x.avoid ++ [c.engine]
            force := none } else x) ∧
          t.rd64 (rk pgTT 0x78) = (s.rd64 (rk pgTT 0x78) + 1) % 2 ^ 64 ∧ sameRegs s t (wide (rk pgTT 0x78) ++ [rk pgTT 0x114])))) ∧
  (∀ (s : State) (h : Fin 2) (e : Fin 6) (u : Tile),
    let late := u.startAt + 1000 * s.fld (rk pgTT 0x10C) 6 0 < s.time.tb0
    let mine (b : SbEntry) := b.issued = some (e.val, false)
    let lifts := s.engBit e 1 = true ∧ (s.winOf e).testedSince = true ∧ s.blk (pgEng e) = stIdle
    ((s.engAt e).running = some u → s.running (pgEng e) = true →
      (late → s.engBit e 1 = false → s.engBit e 3 = false → (∀ b ∈ s.tt.board, b.issued ≠ some (e.val - 1, true) ∧ b.issued ≠ some (e.val, true)) →
        (∀ b ∈ s.tt.board, (mine b ∨ b.again = true) → b.arbiter = none ∧ (s.entryTargets { b with
            issued := none
            again := true
            readyAt := s.time.tb0 }).any (fun g => g.1 != e) = true) →
        (∀ b ∈ s.tt.board, b.issued = none → b.again = false → b.count = 0 → (List.range 6).any (fun k => k != e.val &&
          (((s.taskOf b.model b.tag).map (TaskDesc.engMask)).getD 0).testBit k && !s.engBit k 1) = true) →
        ∃ t, exec (.tileTimeout e) s = .next t ∧ sameBytes s t ∧ t.engBit e 1 = true ∧ t.bit (rk pgTT 0x110) e = true ∧
          t.blk (pgEng e) = stDismissing ∧ (t.engAt e).running = none ∧ (t.engAt e).staged = none ∧
          t.rdN (rk pgTT 0x13C) = 0x80000000 + 5 * 16 + e.val ∧ t.bit (rk pgTT 0x1C) 0 = true ∧ t.bit (rk pgTT 0x14) 3 = true ∧
          t.tt.board = s.tt.board.map (fun b => if mine b then { b with
            issued := none
            again := true
            readyAt := s.time.tb0 } else b) ∧
          sameRegs s t ([rk (pgEng e) 0x10C, rk (pgEng e) 0x110, rk (pgEng e) 0x10, rk (pgEng e) 0x2C, rk pgTT 0x110, rk pgTT 0x13C, rk pgTT 0x1C, rk pgTT 0x14] ++
            wide (rk (pgEng e) 0x40))) ∧
      (¬ late → ∃ t, exec (.tileTimeout e) s = .next t ∧ t = s)) ∧
    (s.issues h pgTT = true → s.hostArg h pgTT 0 % 8 = e →
      ∃ t, exec (.cmdUnfence h) s = .next t ∧ sameBytes s t ∧ t.busy pgTT = false ∧
        (lifts → t.result pgTT = resDone ∧ t.engBit e 1 = false ∧ t.engBit e 2 = false ∧ t.bit (rk pgTT 0x110) e = false ∧
          t.bit (rk pgTT 0x110) (8 + e) = false ∧ t.rdN (rk pgTT (0x120 + 4 * e)) = 0x80008000 ∧ t.winOf e = {} ∧
          sameRegs s t ([rk (pgEng e) 0x10C, rk pgTT 0x110, rk pgTT (0x120 + 4 * e)] ++ slotKeys h pgTT)) ∧
        (¬ lifts → t.result pgTT = resRefused ∧ t.fld (rk pgTT 0x140) 7 0 = 0x0D ∧ t.tt = s.tt ∧
          sameRegs s t (rk pgTT 0x140 :: slotKeys h pgTT))))

/-- R220, R222: the next list that a model delivers to GRID is queued behind those that wait; one for a source whose EN is 0, one that comes while GRID is
not RUNNING (log 37) and one that finds 64 waiting are discarded and counted in CNT_LIST_DROP, the last with LIST_OVF and as the 65th in GRID_QUEUE's
peak (log 89). R256: the next detection list
that a model delivers to TRK is queued behind those that wait; one that finds 64 waiting is discarded and counted in CNT_LIST_DROP with LIST_OVF, and
so is, without LIST_OVF, one that comes while TRK is not RUNNING (log 37). -/
def Obligations.DetectionListIsQueued : Prop :=
  (∀ (s : State) (d : Delivery) (rest : List Delivery) (k : Fin 16),
    let off := s.running pgGrid = false ∨ s.srcEn k = false
    let dropped (t : State) := t.grid.lists = s.grid.lists ∧ t.rd64 (rk pgGrid 0x68) = (s.rd64 (rk pgGrid 0x68) + 1) % 2 ^ 64
    s.tt.deliver = d :: rest → d.consumer = .grid k →
    ∃ t, exec .gridListDeliver s = .next t ∧ t.tt.deliver = rest ∧ sameBytes s t ∧
      (off → dropped t ∧ t.grid = s.grid ∧ sameRegs s t (wide (rk pgGrid 0x68) ++ [srcKey k 0x1C])) ∧
      (¬ off → d.unchecked = true → ∀ e ∈ t.grid.acc, e.uncheckedBy.testBit k = true) ∧
      (¬ off → 64 ≤ s.grid.lists.length → dropped t ∧ t.bit (rk pgGrid 0x14) 8 = true ∧ 65 ≤ t.fld (rk pgGrid 0x13C) 22 16 ∧
        sameRegs s t (wide (rk pgGrid 0x68) ++ [srcKey k 0x1C, rk pgGrid 0x14, rk pgGrid 0x13C])) ∧
      (¬ off → s.grid.lists.length < 64 → t.fld (rk pgGrid 0x13C) 6 0 = s.grid.lists.length + 1 ∧
        t.grid.lists = s.grid.lists ++ [{ addr := d.addr, source := k, unchecked := d.unchecked }] ∧
        sameRegs s t [rk pgGrid 0x114, rk pgGrid 0x13C])) ∧
  (∀ (s : State) (d : Delivery) (rest : List Delivery),
    let dropped (t : State) := t.trk.lists = s.trk.lists ∧ t.rd64 (rk pgTrk 0x78) = (s.rd64 (rk pgTrk 0x78) + 1) % 2 ^ 64
    s.tt.deliver = d :: rest → d.consumer = .trk →
    ∃ t, exec .trkListDeliver s = .next t ∧ t.tt.deliver = rest ∧ sameBytes s t ∧ t.trk.tracks = s.trk.tracks ∧
      (s.running pgTrk = false → dropped t ∧ sameRegs s t (wide (rk pgTrk 0x78))) ∧
      (s.running pgTrk = true → 64 ≤ s.trk.lists.length → dropped t ∧ t.trk.listOvf = true ∧ t.bit (rk pgTrk 0x14) 8 = true ∧
        sameRegs s t (wide (rk pgTrk 0x78) ++ [rk pgTrk 0x14])) ∧
      (s.running pgTrk = true → s.trk.lists.length < 64 → t.trk.lists = s.trk.lists ++ [{ addr := d.addr, unchecked := d.unchecked }] ∧
        t.fld (rk pgTrk 0x12C) 22 16 = s.trk.lists.length + 1 ∧ sameRegs s t [rk pgTrk 0x12C, rk pgTrk 0x138]))

/-- R222, R225, R226, R227, R228, R242: GRID takes the list at the head of its queue. A list with a wrong count or source byte, of an UNALIGNED source, or
of an epoch without a pose is discarded whole. Of a list of one observation, one that cannot be used counts as dropped, one outside the grid in
CNT_OBS_OUT with no trace; one in cell n is merged into the cell's features and work word, and no other byte of memory changes. A list whose sequence
number reads otherwise after its last observation is counted as dropped, and the epoch is TORN. R227: a cell's content
does not depend on the order in which observations reach it: two placements into a cell leave the same memory whichever comes first. -/
def Obligations.ListIsPlaced : Prop :=
  (∀ (s : State) (e : Epoch) (l : GridList) (rest : List GridList) (n : Fin 1048576),
    let k := l.source
    let count := s.getLE (l.addr + 18) 2
    let reference := s.getLE l.addr 8
    let ob := s.bytes (l.addr + 32) 80
    let word (i : Nat) : Word := BitVec.ofNat 32 (fieldLE ob (4 * i) 4)
    let where_ := s.obsCell e k (s.calOf k) (word 0) (word 1) (word 2) (reference + fieldLE ob 12 2)
    let ev := fieldLE ob 14 1 % 4
    let conf := fieldLE ob 15 1
    let step : Int := (conf * s.fld (srcKey k 0) 15 8 / 256 : Nat)
    let claims := e.confMin < conf
    let wa := s.workAddr e.buffer n
    let fa := s.featAddr e.buffer n
    let w := s.getLE wa 16
    let good := count = 1 ∧ s.getLE (l.addr + 16) 1 = k ∧ e.noPose = false ∧ s.srcAligned k = true ∧
      (s.srcMode k = 0 ∨ (s.unitAt (s.srcUnit k)).lastExit ≤ reference)
    let common := wide (rk pgMem 0x40) ++ [rk pgGrid 0x114, rk pgGrid 0x13C]
    let kept (t : State) : Bool := decide (t.getLE (l.addr + 8) 8 = s.getLE (l.addr + 8) 8)
    let plus (t : State) (o : Nat) := t.rd64 (rk pgGrid o) = (s.rd64 (rk pgGrid o) + 1) % 2 ^ 64
    s.grid.acc = some e → s.grid.lists = l :: rest → s.running pgGrid = true → s.halted pgGrid = false → k < 16 → l.addr + 112 ≤ lpddrEnd →
    s.memClean = true →
    ∃ t, exec .gridListPlace s = .next t ∧ t.grid.lists = rest ∧
      (count = 0 ∨ 16384 < count ∨ s.getLE (l.addr + 16) 1 ≠ k ∨ e.noPose = true ∨ s.srcAligned k = false →
        sameBytes s t ∧ plus t 0x68 ∧ sameRegs s t (common ++ wide (rk pgGrid 0x68) ++ [srcKey k 0x1C])) ∧
      (good → where_ = .drop → sameBytes s t ∧ plus t 0x48 ∧ plus t 0x60 ∧ t.grid.acc = some { e with dropped := e.dropped + 1 } ∧
        sameRegs s t (common ++ wide (rk pgGrid 0x48) ++ wide (rk pgGrid 0x60) ++ [srcKey k 0x1C])) ∧
      (good → where_ = .outside → sameBytes s t ∧ plus t 0x48 ∧ plus t 0x58 ∧ t.grid.acc = some e ∧
        sameRegs s t (common ++ wide (rk pgGrid 0x48) ++ wide (rk pgGrid 0x58))) ∧
      (good → where_ = .cell n → plus t 0x50 ∧ t.grid.acc.map (·.torn) = some (e.torn || !kept t) ∧
        (kept t = true → plus t 0x48 ∧ t.rd64 (rk pgGrid 0x68) = s.rd64 (rk pgGrid 0x68)) ∧
        (kept t = false → plus t 0x68 ∧ t.rd64 (rk pgGrid 0x48) = s.rd64 (rk pgGrid 0x48)) ∧
        sameRegs s t (common ++ wide (rk pgGrid 0x48) ++ wide (rk pgGrid 0x50) ++ wide (rk pgGrid 0x68) ++ [srcKey k 0x18]) ∧
        bits (t.getLE wa 16) 15 0 = (bits w 15 0 ||| 2 ^ k) ∧
        bits (t.getLE wa 16) 31 16 = (if ev = 2 ∧ claims then bits w 31 16 ||| 2 ^ k else bits w 31 16) ∧
        bits (t.getLE wa 16) 47 32 = (if ev = 1 ∧ claims then bits w 47 32 ||| 2 ^ k else bits w 47 32) ∧
        bits (t.getLE wa 16) 63 48 = min 65535 (bits w 63 48 + 1) ∧
        bits (t.getLE wa 16) 95 64 = ofSigned 32 (toSigned 32 (bits w 95 64) + if ev = 2 then step else if ev = 1 then -step else 0) ∧
        bits (t.getLE wa 16) 96 96 = (if l.unchecked then 1 else bits w 96 96) ∧
        t.bytes fa 64 = (if bits w 63 48 = 0 then ((ob.drop 16).take 64).map featOf
          else List.zipWith featMax (s.bytes fa 64) (((ob.drop 16).take 64).map featOf)) ∧
        sameBytesOff s t [(wa, 16), (fa, 64)])) ∧
  (∀ (s : State) (buf : Fin 2) (n : Fin 1048576) (k k' : Fin 16) (ev ev' conf conf' least : Nat) (f f' : List Byte) (u u' : Bool),
    f.length = 64 → f'.length = 64 →
    sameBytes ((s.placeObs buf k n ev conf least f u).placeObs buf k' n ev' conf' least f' u')
      ((s.placeObs buf k' n ev' conf' least f' u').placeObs buf k n ev conf least f u))

/-- R218, R224, R232, R233, R234, R235, R245: at a boundary that is due, the accumulating epoch begins its close, with GRID_EVID and GRID_EVID2 as
they then stand, and the next one opens with the calibration then in use, in the other buffer at that time, with NO_POSE, and the old origin, where
the pose is stale; a waiting calibration switch applies. During a close, or while GRID is halted, none opens: the epoch goes on, LONG, with
LATE_CLOSE. Before the boundary nothing happens. -/
def Obligations.EpochTurnsAtItsBoundary : Prop :=
  ∀ (s : State) (e : Epoch),
    let due := s.grid.nextAt ≤ s.now
    let at_ := s.grid.stepAt.getD s.grid.nextAt
    let b := (s.loopAt 2).adopt
    let fresh := s.isFresh .gridPose b.adopted
    let blocked := s.grid.closing ≠ none ∨ s.halted pgGrid = true
    let show_ := [rk pgGrid 0x114, rk pgGrid 0x13C, rk pgGrid 0x14]
    s.running pgGrid = true → s.grid.acc = some e →
    (¬ due → ∃ t, exec .epochBoundary s = .next t ∧ t = s) ∧
    (due → ∃ t, exec .epochBoundary s = .next t ∧ sameBytes s t ∧ t.grid.stepAt = none ∧
      t.grid.nextAt = (if s.grid.stepAt = none then at_ + s.epochLen else nextMultiple s.epochLen at_) ∧
      (blocked → t.grid.acc = some { e with long := true, timeStep := e.timeStep || s.grid.stepAt.isSome } ∧
        t.grid.closing = s.grid.closing ∧ t.rd64 (rk pgGrid 0x78) = (s.rd64 (rk pgGrid 0x78) + 1) % 2 ^ 64 ∧
        t.bit (rk pgGrid 0x14) 7 = true ∧ sameRegs s t (show_ ++ wide (rk pgGrid 0x78))) ∧
      (¬ blocked → s.grid.commit = none →
        t.grid.closing = some { e with
          shut := at_, priorUnknown := s.priorUnknown, evid := s.rdN (rk pgGrid 0x108), evid2 := s.rdN (rk pgGrid 0x10C) } ∧
        t.grid.acc.map (·.vers) = some ((List.range 16).map (fun k => (s.calOf k).ver)) ∧
        t.grid.acc.map (·.buffer) = some (1 - e.buffer) ∧ t.grid.acc.map (·.open_) = some at_ ∧
        t.grid.acc.map (·.noPose) = some (!fresh) ∧ t.grid.acc.map (·.placed) = some 0 ∧
        (fresh = false → t.grid.acc.map (fun a => (a.oi, a.oj)) = some (e.oi, e.oj)) ∧
        (fresh = true → t.grid.acc.map (fun a => (a.di, a.dj)) = t.grid.acc.map (fun a => (a.oi - e.oi, a.oj - e.oj)) ∧
          t.grid.acc.map (fun a => (a.oi, a.oj)) = t.grid.acc.map (fun a => (s.originOf a.xref, s.originOf a.yref))) ∧
        (t.loopAt 2).waiting = none ∧ (t.loopAt 2).adopted = b.adopted ∧ sameRegs s t show_))

/-- R228, R229, R231, R232, R236, R237: the close of an epoch gives every cell the evidence that R229 computes from its work word and from the prior
evidence of the same ground cell, returns the work words it has marked to zero, writes the header and the active-cell list, and publishes the epoch
under the next number. L_OCC, L_FREE, L_CLAMP, DECAY and CONFLICT_HOLD are those of the moment the close began; a work word that no placement has
marked counts as zero; the buffers hold no error. -/
def Obligations.EveryCellIsClosed : Prop :=
  ∀ (s : State) (e : Epoch) (n : Fin 1048576),
    let buf := s.gridBuf e.buffer
    let plane := s.evidAddr e.buffer 0
    let other := s.evidAddr (1 - e.buffer) 0
    let marks := SMap.get (fun _ => []) s.grid.marks e.buffer
    let i : Int := (n.val % 1024 : Nat) + e.di
    let j : Int := (n.val / 1024 : Nat) + e.dj
    let prior : Evid := if e.priorUnknown = true ∨ other ∉ s.planes ∨ i < 0 ∨ j < 0 ∨ 1023 < i ∨ 1023 < j then {}
      else Evid.ofWord (s.getLE (other + 4 * (j.toNat * 1024 + i.toNat)) 4)
    let ev := e.evid
    let ev2 := e.evid2
    let stored := s.getLE (s.workAddr e.buffer n) 16
    let w := if n.val ∈ marks then stored else 0
    let after := evidClose (bits ev2 11 0) (bits ev2 19 12) (bits ev2 23 20) prior w
    s.grid.closing = some e → e.buffer < 2 → s.rd64 (rk pgGrid 0x120) % 4096 = 0 → s.rd64 (rk pgGrid 0x120) + 0x0C800000 ≤ lpddrEnd →
    s.memClean = true → (∀ a ∈ s.planes, a = plane ∨ a = other) → (∀ m ∈ marks, m < 1048576) →
    ∃ t, exec .epochPublish s = .next t ∧ t.grid.closing = none ∧ t.getLE (plane + 4 * n) 4 = after.word (bits ev 11 0) (bits ev 23 12) ∧
      (n.val ∈ marks ∨ stored = 0 → t.getLE (s.workAddr e.buffer n) 16 = 0) ∧ t.rd64 (rk pgGrid 0x40) = (s.rd64 (rk pgGrid 0x40) + 1) % 2 ^ 64 ∧
      t.getLE buf 8 = (s.rd64 (rk pgGrid 0x40) + 1) % 2 ^ 64 ∧ t.getLE (buf + 16) 8 = e.shut % 2 ^ 64 ∧
      (e.noPose = true → t.grid.warm = 0) ∧ (e.noPose = false → t.grid.warm = s.grid.warm + 1) ∧
      sameBytesBut s t buf 0x06400000 ∧
      sameRegs s t ([0x14, 0x2C, 0x40, 0x44, 0x70, 0x74, 0x114, 0x118, 0x11C, 0x138, 0x13C].map (rk pgGrid) ++
        (List.range 256).map (fun c => rk pgGrid (0xA00 + c * 4)) ++ wide (rk pgMem 0x48) ++ wide (rk pgMem 0x50) ++
        [rk pgTrk 0x14, rk pgTrk 0x12C])

/-- R223, R224, R230, R241, R244, R249: CMD_CAL_COMMIT refuses a bad PENDING set with its cause, switches at once while GRID is not RUNNING, and else
waits, BUSY, for the boundary. CMD_RELOCK makes a source with an alignment mode UNALIGNED. CMD_EVID_CLEAR waits for the next close. GRID_CONFLICT_CLR
clears the conflict matrix. R252, R268, R274: while TRK is not RUNNING a host track command is applied at once. CMD_DELETE of a live ID frees its
slot; CMD_SET_CLASS gives the new class unless its model differs (code 3); an ID of another generation or of a free slot is refused with code 1 or 2
and counted; CMD_ENROL enters Enrolment; CMD_CLEAR deletes every track. The deleted tracks wait for the next batch, and the track table stays as
the last cycle committed it (log 103). While TRK is RUNNING the command waits, BUSY, for the next cycle. -/
def Obligations.GridAndTrackCommands : Prop :=
  (∀ (s : State) (h : Fin 2) (k : Fin 16) (v : Word) (a b : Fin 16),
    let pending : CalSet := {
      ext := (List.range 16).map (fun i => s.rd (srcKey k (0x40 + 4 * i)))
      gnd := (List.range 3).map (fun i => s.rd (srcKey k (0x30 + 4 * i)))
      dim := s.rd (srcKey k 0x28)
      ver := s.fld (srcKey k 0x20) 15 0
      bank := 1 - (s.calOf k).bank }
    let block := (List.range 32).map (fun i => srcKey k (4 * i))
    (s.issues h pgGrid = true → s.hostArg h pgGrid 0 % 16 = k →
      (∃ t, exec (.cmdCalCommit h) s = .next t ∧ sameBytes s t ∧
        (∀ c ∈ s.calRefused k, t.result pgGrid = resRefused ∧ t.busy pgGrid = false ∧ t.fld (srcKey k 0x24) 23 20 = c ∧ t.grid = s.grid ∧
          sameRegs s t (srcKey k 0x24 :: slotKeys h pgGrid)) ∧
        (s.calRefused k = none → s.running pgGrid = true → t.busy pgGrid = true ∧ t.grid.commit = some k.val ∧ t.bit (srcKey k 0x24) 16 = true ∧
          t.calOf k = s.calOf k ∧ sameRegs s t (srcKey k 0x24 :: slotKeys h pgGrid)) ∧
        (s.calRefused k = none → s.running pgGrid = false → t.busy pgGrid = false ∧ t.result pgGrid = resDone ∧ t.calOf k = pending ∧
          t.fld (srcKey k 0x24) 15 0 = pending.ver ∧ t.bit (rk pgGrid 0x14) 6 = true ∧
          sameRegs s t (rk pgGrid 0x14 :: block ++ slotKeys h pgGrid))) ∧
      (s.srcEn k = true → s.srcMode k ≠ 0 →
        ∃ t, exec (.cmdRelock h) s = .next t ∧ sameBytes s t ∧ t.srcAligned k = false ∧ (t.unitAt (s.srcUnit k)).step = true ∧
          t.bit (srcKey k 0x10) 0 = false ∧ t.busy pgGrid = false ∧ t.result pgGrid = resDone ∧
          (s.srcAligned k = true → t.bit (rk pgGrid 0x14) 2 = true) ∧
          sameRegs s t ([rk pgGrid 0x14, rk pgGrid 0x114, rk pgGrid 0x13C] ++ (List.range 16).flatMap (fun j => [srcKey j 0x10, srcKey j 0x14]) ++
            slotKeys h pgGrid))) ∧
    (s.issues h pgGrid = true →
      ∃ t, exec (.cmdEvidClear h) s = .next t ∧ t.grid = { s.grid with evidClear := true } ∧ t.busy pgGrid = true ∧ sameBytes s t ∧
        sameRegs s t (slotKeys h pgGrid)) ∧
    (s.reaches h = true → s.isOwner h = true → v.getLsbD 0 = true →
      ∃ t, exec (.gridConflictClr h v) s = .next t ∧ t.rd (rk pgGrid (0xA00 + (a.val * 16 + b.val) * 4)) = 0 ∧ sameBytes s t ∧
        (∀ r ∈ List.range 0x200, t.rd (rk pgGrid (4 * r)) = s.rd (rk pgGrid (4 * r))))) ∧
  (∀ (s : State) (h : Fin 2) (j i : Fin 16384) (u : Track),
    let id := s.hostArg h pgTrk 0
    let cls := s.hostArg h pgTrk 1 % 16
    let keys := [0x14, 0x68, 0x6C, 0x70, 0x74, 0x12C, 0x138, 0x13C, 0x14C, 0x158, 0x15C].map (rk pgTrk) ++ slotKeys h pgTrk
    let refused (t : State) (code : Nat) := t.result pgTrk = resRefused ∧ t.fld (rk pgTrk 0x14C) 7 0 = code
    let live := s.trackAt j = some u ∧ u.gen = id / 16384
    let waits (c : Instr) (code : Nat) := ∃ t, exec c s = .next t ∧ t.trk = { s.trk with command := some (code, id, s.hostArg h pgTrk 1) } ∧
      t.busy pgTrk = true ∧ sameBytes s t ∧ sameRegs s t (slotKeys h pgTrk)
    s.issues h pgTrk = true → SMap.wf (fun _ => none) s.trk.tracks = true → id % 16384 = j →
    (s.running pgTrk = true → waits (.cmdDelete h) 1 ∧ waits (.cmdSetClass h) 2 ∧ waits (.cmdEnrol h) 3 ∧ waits (.cmdClear h) 4) ∧
    (s.running pgTrk = false →
      (∃ t, exec (.cmdDelete h) s = .next t ∧ t.busy pgTrk = false ∧ sameBytes s t ∧ sameRegs s t keys ∧
        (i ≠ j → t.trackAt i = s.trackAt i) ∧ t.trk.table = s.trk.table ∧
        (live → t.result pgTrk = resDone ∧ t.trackAt j = none ∧ t.trk.freed = s.trk.freed ++ [j.val] ∧ t.trk.gone = s.trk.gone ++ [(j.val, u)] ∧
          t.rd64 (rk pgTrk 0x68) = (s.rd64 (rk pgTrk 0x68) + 1) % 2 ^ 64) ∧
        (s.trackAt j = some u → u.gen ≠ id / 16384 → refused t 1 ∧ t.trk.freed = s.trk.freed ∧
          t.rd64 (rk pgTrk 0x70) = (s.rd64 (rk pgTrk 0x70) + 1) % 2 ^ 64) ∧
        (s.trackAt j = none → refused t 2 ∧ t.trackAt j = none ∧ t.trk.freed = s.trk.freed)) ∧
      (live → ∃ t, exec (.cmdSetClass h) s = .next t ∧ t.busy pgTrk = false ∧ sameBytes s t ∧ sameRegs s t keys ∧
        (s.clsModel cls = u.model → t.result pgTrk = resDone ∧ t.trackAt j = some { u with cls := cls }) ∧
        (s.clsModel cls ≠ u.model → refused t 3 ∧ t.trackAt j = some u)) ∧
      (∃ t, exec (.cmdEnrol h) s = .next t ∧ t.busy pgTrk = false ∧ t.result pgTrk = resDone ∧ t.inTerm = false ∧
        t.rdN (rk pgTrk 0x13C) = 0 ∧ t.bit (rk pgTrk 0x14) 2 = true ∧ t.trackAt j = s.trackAt j ∧ t.trk.termNext = false ∧
        sameBytes s t ∧ sameRegs s t keys) ∧
      (∃ t, exec (.cmdClear h) s = .next t ∧ t.busy pgTrk = false ∧ t.result pgTrk = resDone ∧ t.trackAt j = none ∧
        t.trk.gone = s.trk.gone ++ s.live ∧ t.trk.table = s.trk.table ∧
        t.rd64 (rk pgTrk 0x68) = (s.rd64 (rk pgTrk 0x68) + s.live.length) % 2 ^ 64 ∧ sameBytes s t ∧ sameRegs s t keys)))

/-- R258, R264, R266, R267, R268, R269, R271, R273, R275: a tracker cycle that is due, with no list and no command waiting, multiplies every live track's
probability by P_SURV and leaves its counters; the regime's rules then delete it, confirm it or keep it. The cycle counts, a batch goes to STREAM, and
every pair whose lanes disagree is fenced. In Enrolment the cycle counts towards Term; a change to Term applies from the next cycle, with
TERM_ENTER, and TRK_STATUS.WARM follows; an outstanding CONTAINED fault of TRK ends with the batch, which enters Enrolment. A halted TRK runs none;
before the boundary nothing happens.
R250, R251, R263, R265: a leftover detection that meets every condition of R263 becomes a TENTATIVE track in the slot at the head of the free list,
with that slot's next generation, never 0, the detection's place, P_BIRTH, one hit, and its UNCHECKED mark; CNT_BIRTH counts. One that fails a
condition counts that condition alone. No other track, no generation of another slot and no byte of memory changes. R262: after any number of rounds
the auction is a matching along gated pairs: a slot has one holder, a detection holds at most one slot, and holds only a slot that is one of its
candidates. -/
def Obligations.TrackerCycleRuns : Prop :=
  (∀ (s : State) (bad : List (Fin 64)) (j : Fin 16384),
    let due := s.trk.nextAt ≤ s.now
    let tc := max 1 s.trkPeriod
    let survived (u : Track) : Track := { u with p := fmul u.p (u016 (s.fld (rk pgTrk 0x118) 31 16)) }
    let s1 := s.trkTerm
    let count := min (s.rdN (rk pgTrk 0x13C) + 1) 0xFFFFFFFF
    let recovers := s.safe.out.any (fun f => f.page == pgTrk && !f.func) = true
    s.running pgTrk = true → SMap.wf (fun _ => none) s.trk.tracks = true →
    (¬ due → ∃ t, exec (.trackerCycle bad) s = .next t ∧ t = s) ∧
    (due → s.halted pgTrk = true →
      ∃ t, exec (.trackerCycle bad) s = .next t ∧ t = { s with trk := { s.trk with nextAt := s.now / tc * tc + tc } }) ∧
    (due → s.halted pgTrk = false → s.trk.command = none → s.trk.lists = [] →
      ∃ t, exec (.trackerCycle bad) s = .next t ∧ t.trk.nextAt = s.now / tc * tc + tc ∧
        t.rd64 (rk pgTrk 0x40) = (s.rd64 (rk pgTrk 0x40) + 1) % 2 ^ 64 ∧
        t.rd64 (rk pgTrk 0x130) = (s.rd64 (rk pgTrk 0x40) + 1) % 2 ^ 64 ∧
        (s.trk.nextAt < s.now / tc * tc → t.bit (rk pgTrk 0x14) 9 = true ∧
          t.rdN (rk pgTrk 0x16C) = min (s.rdN (rk pgTrk 0x16C) + 1) 0xFFFFFFFF) ∧
        s1.inTerm = (s.inTerm || s.trk.termNext) ∧ t.trk.gone = [] ∧
        (s.trk.termNext = true → t.bit (rk pgTrk 0x14) 3 = true) ∧
        (s1.inTerm = true → t.trackAt j = ((s.trackAt j).bind (fun u => s1.judge (survived u))).map (·.turned)) ∧
        (s1.inTerm = false → (t.trackAt j).isSome = ((s.trackAt j).bind (fun u => s1.judge (survived u))).isSome) ∧
        (¬ recovers → t.inTerm = s1.inTerm ∧
          t.trk.termNext = (!s1.inTerm && decide (s.fld (rk pgTrk 0x11C) 31 16 ≤ count) && s.warmHolds) ∧
          (s1.inTerm = false → t.rdN (rk pgTrk 0x13C) = count)) ∧
        (recovers → t.inTerm = false ∧ t.trk.termNext = false ∧ t.rdN (rk pgTrk 0x13C) = 0 ∧ t.bit (rk pgTrk 0x14) 2 = true) ∧
        t.bit (rk pgTrk 0x12C) 1 = t.warmFlag ∧
        (s.running pgStream = true → t.stream.offers.any (fun o => o.ring == 1 && o.fus == s.now / tc * tc) = true) ∧
        (∀ i ∈ bad, (t.rd64 (rk pgTrk 0x144)).testBit i = true ∧ ((s.rd64 (rk pgTrk 0x144)).testBit i = false → t.bit (rk pgTrk 0x1C) 0 = true)) ∧
        (bad = [] → t.rd64 (rk pgTrk 0x144) = s.rd64 (rk pgTrk 0x144)) ∧
        (s.bit (rk pgTrk 0x100) 2 = false → sameBytes s t ∧
          sameRegs s t ([0x14, 0x1C, 0x40, 0x44, 0x68, 0x6C, 0x12C, 0x130, 0x134, 0x138, 0x13C, 0x140, 0x144, 0x148, 0x16C].map (rk pgTrk))))) ∧
  (∀ (s : State) (c : Cycle) (d : Detection) (j i : Nat) (m : Bool) (key : Nat),
    let t := (State.trkBirth (s, c) d).1
    let head := if s.trk.freshFrom < 16384 then some s.trk.freshFrom else s.trk.freed.head?
    let gen (u : State) (i : Nat) := SMap.get (fun _ => 0) u.trk.gens i
    let other := i ≠ j → t.trackAt i = s.trackAt i ∧ gen t i = gen s i
    sameBytes s t ∧
      (s.birthCheck d = .no → t = s) ∧
      (s.birthCheck d = .refused key → t.trk = s.trk ∧ t.rdN (rk pgTrk key) = min (s.rdN (rk pgTrk key) + 1) 0xFFFFFFFF ∧
        sameRegs s t [rk pgTrk key]) ∧
      (s.birthCheck d = .yes m → head = some j → other ∧
        gen t j = (if gen s j % 0x3FFFF = 0x3FFFE then 0x3FFFF else (gen s j + 1) % 0x3FFFF) ∧ 0 < gen t j ∧ gen t j < 2 ^ 18 ∧
        (t.trackAt j).map (fun u => (u.gen, u.cls, u.conf, u.hits, u.misses, u.since)) = some (gen t j, d.cls, false, 1, 0, 0) ∧
        (t.trackAt j).map (fun u => (u.p, u.unchk, u.time)) = some (u016 (s.fld (rk pgTrk 0x118) 15 0), d.unchk || m, d.ref) ∧
        (t.trackAt j).map (fun u => u.x.take 3) = some ((List.range 3).map (fun i => d.pos.getD i 0)) ∧
        t.rd64 (rk pgTrk 0x60) = (s.rd64 (rk pgTrk 0x60) + 1) % 2 ^ 64 ∧ sameRegs s t (wide (rk pgTrk 0x60)))) ∧
  (∀ (eps : Word) (ds : List (Nat × List (Nat × Word))) (rounds : Nat),
    let b := auction eps ds rounds {}
    (b.owner.map (·.1)).Nodup ∧ (b.owner.map (·.2)).Nodup ∧
      ∀ e ∈ b.owner, 0 < e.2 ∧ ∃ c ∈ ds, c.1 + 1 = e.2 ∧ e.1 ∈ c.2.map (·.1))

/-- R280, R281, R282, R283: a sample of an enabled channel of a RUNNING chain is scaled, passes the DC stage where that is on, and joins the channel's
history behind the copies that its gap calls for; the first one after STALE fills the history and starts SETTLING. Another sample is not taken. No
byte of memory changes. R281, R284, R285, R287, R288, R301: a round that is due takes the number of the next. The one enabled channel's computation
goes on, or, done, is released: the sum of its coefficients times the samples taken, the newest first, with S_k, the data time of R287 and its flags;
a free channel starts at the first boundary at or after its instant plus GUARD with the N newest samples stamped no later. An old channel goes STALE.
R290, R291, R303: CMD_COEF_LOAD while the chain is not STOPPED is refused with code 1. While it is, a set image in LPDDR5X whose header and
coefficients pass the checks of R291 fills the custom slot, with LOAD_DONE; else the first code that fails stands in CHAIN_LOAD_ERR, the sets stay,
and LOAD_REFUSED is set. While MEM serves no access the load is in progress (log 105): CHAIN cannot be enabled, and its DISMISS abandons the load and
leaves the slot empty. -/
def Obligations.ChainFiltersItsSamples : Prop :=
  (∀ (s : State) (i : ChainIn) (rest : List ChainIn),
    let c := i.chan
    let q := s.chanAt c
    let live := s.running pgChain = true ∧ s.chanEn c = true
    let fresh := s.chanStale c = true ∨ q.hist = []
    let raw : Word := (i.raw.map (fun r => fofInt r)).getD i.value
    let x := fadd (fmul raw (s.rd (chanKey c 4))) (s.rd (chanKey c 8))
    let dc := s.bit (chanKey c 0) 8
    let m := s.rd (chanKey c 0xC)
    let m' := if s.chanFrozen c then m else fadd m (fmul (fofInt 1 (-(8 + s.fld (chanKey c 0) 15 12 : Nat))) (fsub x m))
    let e : Samp := { stamp := i.stamp, value := if dc then fsub x m' else x, filled := false, still := i.still, stale := i.stale }
    let fills := (q.lastReal.map (fun r => fillCount (i.stamp - r) (s.chanTin c))).getD 0
    let copy (p : Samp) : Samp := { p with value := q.lastValue, filled := true }
    let mine := wide (rk pgChain 0x40) ++ [chanKey c 0xC, chanKey c 0x1C, rk pgChain (0x110 + c / 32 * 4), rk pgChain (0x118 + c / 32 * 4)]
    s.chain.inq = i :: rest → c < 64 →
    ∃ t, exec .chainSample s = .next t ∧ t.chain.inq = rest ∧ sameBytes s t ∧
      (¬ live → t.chain.chans = s.chain.chans ∧ sameRegs s t []) ∧
      (live → t.rd64 (rk pgChain 0x40) = (s.rd64 (rk pgChain 0x40) + 1) % 2 ^ 64 ∧ (t.chanAt c).lastReal = some i.stamp ∧
        (t.chanAt c).lastValue = x ∧
        (fresh ∨ fills = 0 → t.rd (chanKey c 0xC) = if dc then m' else m) ∧
        (fresh → (t.chanAt c).hist = List.replicate histDepth e ∧ t.chanStale c = false ∧ t.chanSettling c = (s.chanTaps c != 0) ∧
          sameRegs s t (rk pgChain 0x14 :: mine)) ∧
        (¬ fresh → fills = 0 → (t.chanAt c).hist = (e :: q.hist).take histDepth ∧ sameRegs s t mine) ∧
        (¬ fresh → dc = false → (t.chanAt c).hist = (e :: List.replicate fills (copy (q.hist.getD 0 e)) ++ q.hist).take histDepth ∧
          t.rd64 (rk pgChain 0x50) = (s.rd64 (rk pgChain 0x50) + fills) % 2 ^ 64 ∧ sameRegs s t (mine ++ wide (rk pgChain 0x50))))) ∧
  (∀ (s : State) (c : Fin 64) (j : FirJob) (e : Samp) (more : List Samp),
    let r := s.chain.round
    let q := s.chanAt c
    let tau := q.nextTau
    let taps (k : Nat) := s.coef (s.fld (chanKey c 0) 6 4) k
    let value := fsum ((List.range (more.length + 1)).map (fun i => fmul (taps i) (((e :: more).map (·.value)).getD i 0)))
    let ready := 64 * r ≥ 5 * (tau + 16 * s.fld (rk pgChain 0x100) 6 0)
    let newest := (q.hist.filter (fun x => decide (x.stamp ≤ tau))).take (s.chanTaps c)
    let late := (q.lastReal.map (fun x => decide (x + 4 * s.chanTin c < s.now / max 1 (s.chanTout c) * max 1 (s.chanTout c)))).getD true = true
    s.running pgChain = true → (∀ k ∈ List.range 64, s.chanEn k = decide (k = c.val)) →
    (5 * s.now < 64 * r → ∃ t, exec .firRound s = .next t ∧ t = s) ∧
    (64 * r ≤ 5 * s.now → s.halted pgChain = false →
      ∃ t, exec .firRound s = .next t ∧ t.chain.round = r + 1 ∧ t.rd64 (rk pgChain 0x60) = (s.rd64 (rk pgChain 0x60) + 1) % 2 ^ 64 ∧
        sameBytes s t ∧
        (q.job = some j → j.left ≠ 0 → (t.chanAt c).job = some { j with left := j.left - 1 } ∧ (t.chanAt c).out = q.out) ∧
        (q.job = some j → j.left = 0 → j.taken = e :: more →
          (t.chanAt c).out = ({
            value := value
            stamp := (64 * r + c) / 5
            tau := j.tau
            dtime := e.stamp - s.chanDelay c
            stale := j.stale
            settling := j.settling
            filled := (e :: more).any (fun x => x.filled)
            srcStill := e.still
            srcStale := e.stale } :: q.out).take 8 ∧
          t.rd (chanKey c 0x10) = value ∧ t.rd64 (rk pgChain 0x48) = (s.rd64 (rk pgChain 0x48) + 1) % 2 ^ 64) ∧
        (q.job = none → ¬ ready → t.chain.chans = s.chain.chans ∧ sameRegs s t (wide (rk pgChain 0x60))) ∧
        (q.job = none → ready → (t.chanAt c).job.map (fun x => (x.tau, x.start, x.taken)) = some (tau, r, newest) ∧
          (t.chanAt c).nextTau = (tau / max 1 (s.chanTout c) + 1) * max 1 (s.chanTout c))) ∧
    (∃ t, exec (.chainStale c) s = .next t ∧ sameBytes s t ∧ t.chain = s.chain ∧
      (late → t.chanStale c = true ∧ t.chanSettling c = false ∧ (s.chanStale c = false → t.bit (rk pgChain 0x14) 4 = true) ∧
        sameRegs s t [rk pgChain 0x14, chanKey c 0x1C, rk pgChain (0x110 + c / 32 * 4), rk pgChain (0x118 + c / 32 * 4)]) ∧
      (¬ late → t = s))) ∧
  (∀ (s : State) (h : Fin 2),
    let slot := s.hostArg h pgChain 0
    let a := (s.hostArg h pgChain 1 + s.hostArg h pgChain 2 * 2 ^ 32) % 2 ^ 48
    let hdr := s.bytes a 16
    let n := fieldLE hdr 0 2
    let body := s.bytes (a + 16) (4 * n)
    let dec := fieldLE hdr 2 1
    let delay : Word := BitVec.ofNat 32 (fieldLE hdr 4 4)
    let bad := if n = 0 ∨ 512 < n then 2 else if dec ∉ [1, 2, 4, 8, 16] then 3
      else if ¬ (ffinite delay = true ∧ fle 0 delay = true ∧ fle delay (fofInt (n - 1)) = true) then 4
      else if (toWords n body).all ffinite = false then 5 else if crc32c body ≠ fieldLE hdr 8 4 then 6 else if 3 < slot then 8 else 0
    let counted (t : State) (o : Nat) := t.rd64 (rk pgChain o) = (s.rd64 (rk pgChain o) + 1) % 2 ^ 64
    let refused (t : State) (code : Nat) := t.result pgChain = resRefused ∧ t.fld (rk pgChain 0x120) 7 0 = code ∧ counted t 0x70 ∧
      t.bit (rk pgChain 0x14) 3 = true ∧ t.chain.sets = s.chain.sets ∧ t.chain.chans = s.chain.chans
    s.issues h pgChain = true →
    (s.blk pgChain ≠ stIdle →
      ∃ t, exec (.cmdCoefLoad h) s = .next t ∧ t.busy pgChain = false ∧ refused t 1 ∧ sameBytes s t ∧
        sameRegs s t ([rk pgChain 0x14, rk pgChain 0x120] ++ wide (rk pgChain 0x70) ++ slotKeys h pgChain)) ∧
    (s.blk pgChain = stIdle → a + 2064 ≤ lpddrEnd → s.running pgMem = false →
      ∃ t, exec (.cmdCoefLoad h) s = .next t ∧ t.busy pgChain = true ∧ t.chain = { s.chain with loading := some (slot, a) } ∧
        t.chainRefused = true ∧ (t.chainDismiss.chain.loading = none ∧ (slot < 4 → t.chainDismiss.customSet (4 + slot) = none)) ∧
        sameBytes s t ∧ sameRegs s t (slotKeys h pgChain)) ∧
    (s.blk pgChain = stIdle → a + 2064 ≤ lpddrEnd → s.running pgMem = true → s.memClean = true →
      ∃ t, exec (.cmdCoefLoad h) s = .next t ∧ t.busy pgChain = false ∧ sameBytes s t ∧ (bad ≠ 0 → refused t bad) ∧
        (bad = 0 → t.result pgChain = resDone ∧ counted t 0x68 ∧ t.bit (rk pgChain 0x14) 2 = true ∧
          t.customSet (4 + slot) = some { dec := dec, delay := delay, coefs := toWords n body }) ∧
        sameRegs s t ([rk pgChain 0x14, rk pgChain 0x120] ++ wide (rk pgChain 0x68) ++ wide (rk pgChain 0x70) ++ wide (rk pgMem 0x40) ++
          slotKeys h pgChain)))

/-- R293, R297, R298, R302 (what the rules leave open in the equations is free, log 6): at the instant after the one it is for, EGO's update skips an instant without its
inputs, in CNT_SKIP; else it publishes one pose record, with its data time in the registers and the record on its way to GRID, TRK and the front ends,
and completes a waiting CMD_RESTART, or it restarts. A halted EGO updates nothing; before the instant nothing happens. No update for EGO_GAP, and
CMD_RESTART, restart the estimator. R299: once FUSION has reached the nominal end of the next step, EGO keeps the newest record extrapolated to it,
and to one step period before, as the step's pose; it says whether the loop is stale, which makes the step's increment NaN. Where EGO has published
nothing since it entered RUNNING no pose is formed, and the increment is NaN too. Before that nothing happens. -/
def Obligations.PoseIsPublished : Prop :=
  (∀ (s : State) (h : Fin 2) (u : List Word) (d : Nat),
    let tau := s.ego.nextTau
    let due := s.egoNext tau ≤ s.now
    let plus (t : State) (o : Nat) := t.rd64 (rk pgEgo o) = (s.rd64 (rk pgEgo o) + 1) % 2 ^ 64
    let gap := s.ego.lastUpdate + 16000 * s.fld (rk pgEgo 0x158) 9 0 ≤ s.now
    let restarted (t : State) := plus t 0x58 ∧ t.bit (rk pgEgo 0x14) 6 = true ∧ t.bit (rk pgEgo 0x15C) 0 = false ∧ t.ego.est = none ∧
      t.ego.first = true ∧ t.ego.keep = true ∧ t.ego.last = s.ego.last
    let keys := [rk pgEgo 0x14, rk pgEgo 0x15C, rk pgEgo 0x1C4, rk pgTrk 0x14, rk pgTrk 0x12C] ++ wide (rk pgEgo 0x58)
    s.running pgEgo = true →
    (¬ due → ∃ t, exec .egoUpdate s = .next t ∧ t = s) ∧
    (due → s.halted pgEgo = true → ∃ t, exec .egoUpdate s = .next t ∧ t = { s with ego := { s.ego with nextTau := s.egoNext tau } }) ∧
    (due → s.halted pgEgo = false →
      ∃ t, exec .egoUpdate s = .next t ∧ t.ego.nextTau = s.egoNext tau ∧ sameBytes s t ∧
        (s.egoInputs tau = none → plus t 0x48 ∧ t.bit (rk pgEgo 0x15C) 3 = true ∧ t.ego.last = s.ego.last ∧ t.loops = s.loops ∧
          sameRegs s t ([rk pgEgo 0x14, rk pgEgo 0x15C] ++ wide (rk pgEgo 0x48))) ∧
        (s.egoInputs tau = some (u, d) → restarted t ∧ t.loops = s.loops ∨
          plus t 0x40 ∧ t.ego.published = true ∧ t.ego.first = false ∧ t.busy pgEgo = false ∧ t.ego.last.map (·.dtime) = some d ∧
            t.rd64 (rk pgEgo 0x164) = d % 2 ^ 64 ∧ t.ego.last.map (·.flags % 8 / 4) = some (if s.ego.first then 1 else 0) ∧
            (∀ k ∈ [2, 3], (t.loopAt k).flight.map (·.words) =
              (s.loopAt k).flight.map (·.words) ++ (t.ego.last.map (fun p => toWords 20 p.bytes)).toList) ∧
            (∀ k ∈ [0, 1], (t.loopAt k).flight.length = (s.loopAt k).flight.length + 1))) ∧
    (∃ t, exec .egoGap s = .next t ∧ sameBytes s t ∧ (gap → restarted t ∧ sameRegs s t keys) ∧ (¬ gap → t = s)) ∧
    (s.issues h pgEgo = true → ∃ t, exec (.cmdRestart h) s = .next t ∧ restarted t ∧ t.busy pgEgo = true ∧ sameBytes s t ∧
      sameRegs s t (keys ++ slotKeys h pgEgo))) ∧
  (∀ (s : State) (p : Pose),
    let n := max s.ego.nextStep s.bell.step
    let stop := s.stepEnd n
    let stale := s.ego.lastRec + 4 * s.egoPeriod ≤ stop
    s.bell.started = true → s.running pgEgo = true → s.ego.last = some p →
    (s.now < stop → ∃ t, exec .stepPose s = .next t ∧ t = s) ∧
    (stop ≤ s.now → s.ego.published = false →
      ∃ t, exec .stepPose s = .next t ∧ t = { s with ego := { s.ego with nextStep := n + 1 } } ∧
        (s.stepPoseOf n = none → (t.stepIncrement n).2 = List.replicate 6 fnan)) ∧
    (stop ≤ s.now → s.ego.published = true → ∃ t, exec .stepPose s = .next t ∧ t.ego.nextStep = n + 1 ∧ sameBytes s t ∧
      t.rd64 (rk pgEgo 0x60) = (s.rd64 (rk pgEgo 0x60) + 1) % 2 ^ 64 ∧ sameRegs s t (wide (rk pgEgo 0x60)) ∧
      t.stepPoseOf n = some {
        step := n
        endF := stop
        pos := (p.extrapolate stop).1
        quat := (p.extrapolate stop).2
        backF := stop - s.stepP
        backPos := (p.extrapolate (stop - s.stepP)).1
        backQuat := (p.extrapolate (stop - s.stepP)).2
        nan := decide stale } ∧
      (stale → (t.stepIncrement n).2 = List.replicate 6 fnan)))

/-- R311, R312, R313, R315, R316, R317, R328: a Sync for no enabled base is counted and dropped. Another writes its offset θ to TIME_NET_OFFSET, and a
halted TIME does no more. Else an accepted jump or a FREE base steps by θ and enters ACQUIRING; an ACQUIRING or LOCKED base within TIME_JUMP_LIMIT
runs the servo, locking after LOCK_COUNT Syncs below LOCK_LIMIT; beyond it the Sync is an outlier, and the third one in a row is refused. A HOLDOVER
base judges the Sync. R310, R311, R313, R314, R315 (the delay by log 48, the algorithm by log 108, the frames by log 109): an Announce that the best
master clock algorithm takes writes the grandmaster in use, and a change of it lets the next Sync be judged. A base initiates peer-delay exchanges at its
interval and answers the peer's, with frames of its own queue that are sent where no host frame is made late; an answer measures the mean link delay
with the neighbour rate ratio. A message for no enabled base is dropped and counted. A base that has had no Sync for three intervals enters HOLDOVER at its last rate. -/
def Obligations.BaseIsDisciplined : Prop :=
  (∀ (s : State) (b : Fin 2) (m : SyncMsg),
    let n := s.netAt b
    let serves := s.netEnabled b = true ∧ m.domain = s.fld (netKey b 0) 15 8
    let theta := s.syncTheta b m
    let near := theta.natAbs ≤ s.fld (rk pgTime 0x100) 23 0 * 65536
    let good := theta.natAbs < s.fld (netKey b 8) 15 0 * 65536
    let k := s.rdN (netKey b 4)
    let yi := clampI (-ppm500) ppm500 (n.yi + servoTerm (bits k 31 16) theta m.logInterval)
    let y := clampI (-ppm500) ppm500 (yi + servoTerm (bits k 15 0) theta m.logInterval)
    let plus (t : State) (o : Nat) := t.rd64 (rk pgTime o) = (s.rd64 (rk pgTime o) + 1) % 2 ^ 64
    let stepped (t : State) := (t.netAt b).value = n.value + theta * 2 ^ 24 ∧ (t.netAt b).state = .acquiring ∧ plus t (0x40 + 8 * b)
    let slews (t : State) := (t.netAt b).state = .acquiring ∧ (t.netAt b).slewing = (! decide good) ∧ (t.netAt b).yHold = n.y ∧
      (t.netAt b).value = n.value ∧ plus t (0x40 + 8 * b)
    let refused (t : State) := (t.netAt b).state = .jumpRefused ∧ (t.netAt b).y = n.y ∧ (t.netAt b).value = n.value ∧ plus t 0x58 ∧
      t.bit (rk pgTime 0x14) 6 = true
    let mine := [rk pgTime 0x14, rk pgTime 0x2C, netKey b 0x1C] ++ wide (rk pgTime (0x40 + 8 * b)) ++ wide (rk pgTime 0x50) ++ wide (rk pgTime 0x58)
    ∃ t, exec (.sync b m) s = .next t ∧ sameBytes s t ∧
      (¬ serves → plus t 0x78 ∧ t.time = s.time ∧ sameRegs s t (wide (rk pgTime 0x78))) ∧
      (serves → sameRegs s t mine ∧
        t.rdN (netKey b 0x1C) = ofSigned 32 (clampI (-(2 ^ 31)) (2 ^ 31 - 1) (Int.tdiv theta 65536))) ∧
      (serves → s.halted pgTime = true → t.time = s.time ∧ sameRegs s t [netKey b 0x1C]) ∧
      (serves → s.halted pgTime = false → (t.netAt b).lastRecv = s.time.tb0 ∧ (t.netAt b).interval = m.logInterval ∧
        t.netAt (1 - b) = s.netAt (1 - b) ∧
        (n.accept = true ∨ n.state = .free → stepped t) ∧
        (n.accept = false → n.state = .holdover → (near → slews t) ∧ (¬ near → refused t)) ∧
        (n.accept = false → n.state = .jumpRefused → n.judge = false → near → 2 ≤ n.inLimit → slews t) ∧
        (n.accept = false → n.state = .jumpRefused → n.judge = false → ¬ (near ∧ 2 ≤ n.inLimit) → (t.netAt b).state = .jumpRefused ∧
          (t.netAt b).inLimit = (if near then n.inLimit + 1 else 0) ∧ (t.netAt b).y = n.y ∧ (t.netAt b).value = n.value) ∧
        (n.accept = false → n.state = .acquiring ∨ n.state = .locked → n.judge = false →
          (near → (t.netAt b).yi = yi ∧ (n.slewing = false → (t.netAt b).y = y) ∧
            (n.slewing = true → (t.netAt b).y = clampI (n.yHold - ppm100) (n.yHold + ppm100) y) ∧ (t.netAt b).value = n.value ∧
            plus t (0x40 + 8 * b) ∧
            (t.netAt b).state = (if good ∧ s.fld (netKey b 8) 23 16 ≤ n.lockRun + 1 then .locked else n.state)) ∧
          (¬ near → plus t 0x50 ∧ (2 ≤ n.outliers → refused t) ∧
            (n.outliers < 2 → (t.netAt b).state = n.state ∧ (t.netAt b).y = n.y ∧ (t.netAt b).value = n.value))))) ∧
  (∀ (s : State) (b : Fin 2) (d : Nat) (m : AnnMsg) (t1 t2 t3 t4 p3 p4 seq peer : Nat),
    let n := s.netAt b
    let port := s.fld (netKey b 0) 3 1
    let q := s.ethAt port
    let serves := s.netEnabled b = true ∧ d = s.fld (netKey b 0) 15 8
    let dropped (t : State) := t.rd64 (rk pgTime 0x78) = (s.rd64 (rk pgTime 0x78) + 1) % 2 ^ 64 ∧ t.time = s.time ∧ sameRegs s t (wide (rk pgTime 0x78))
    let mean := rndDiv (65536 * (((t3 : Int) - p3) * ((t4 : Int) - t1) - ((t4 : Int) - p4) * ((t3 : Int) - t2))) (2 * (t4 - p4))
    let since := if n.state = .jumpRefused then n.lastRecv else n.lastApplied
    let out := n.state ∈ [.acquiring, .locked, .jumpRefused] ∧ s.time.off = false ∧ since + threeSyncs n.interval ≤ s.time.tb0
    (∃ t, exec (.announce b d m) s = .next t ∧ sameBytes s t ∧
      (¬ serves → dropped t) ∧ (serves → s.annTaken b m = false → t = s) ∧
      (serves → s.annTaken b m = true →
        t.rd64 (netKey b 0x28) = m.gm.toNat ∧ sameRegs s t (wide (netKey b 0x28)) ∧
        t.netAt b = { n with
          best := some (m, s.time.tb0)
          gm := some m.gm
          judge := n.judge || (n.gm.isSome && n.gm != some m.gm && n.state != .free) })) ∧
    (∃ t, exec (.pdelay b d (.request seq peer)) s = .next t ∧ sameBytes s t ∧ (¬ serves → dropped t) ∧
      (serves → s.ptpReady port = false → q.own ≠ [] →
        (t.ethAt port).own = q.own ++ [{ kind := 3, base := b, seq := seq, peer := peer, time := s.time.tb0 - s.fld (rk (pgEth port) 0x110) 15 0 }] ∧
        t.time = s.time ∧ sameRegs s t []) ∧
      (serves → q.own = [] → s.running (pgEth port) = true → q.macFree ≤ s.time.tb0 → q.txQueue = [] → ∃ bs,
        (t.ethAt port).sent = q.sent ++ [bs] ∧ bs.length = 68 ∧ bs.getD 14 0 = 0x13 ∧
        (t.ethAt port).own = [{ kind := 0xA, base := b, seq := seq, peer := peer, time := s.time.tb0 + s.fld (rk (pgEth port) 0x114) 15 0 }])) ∧
    (∃ t, exec (.pdelay b d .initiate) s = .next t ∧ sameBytes s t ∧
      (s.netEnabled b = false ∨ s.time.tb0 < n.reqAt → t = s) ∧
      (s.netEnabled b = true → n.reqAt ≤ s.time.tb0 → (t.netAt b).reqSeq = (n.reqSeq + 1) % 65536 ∧
        (s.fld (netKey b 0) 19 16 = 3 → (t.netAt b).reqAt = s.time.tb0 + 10 ^ 9) ∧
        (q.own = [] → s.running (pgEth port) = true → q.macFree ≤ s.time.tb0 → q.txQueue = [] → (t.ethAt port).own = [] ∧
          (t.ethAt port).sent.length = q.sent.length + 1 ∧ (t.netAt b).pdReq = some (s.time.tb0 + s.fld (rk (pgEth port) 0x114) 15 0)))) ∧
    (∃ t, exec (.pdelay b d (.answer t2 t3 t4)) s = .next t ∧ sameBytes s t ∧ (¬ serves → dropped t) ∧ (serves → n.pdReq = none → t = s) ∧
      (serves → n.pdReq = some t1 → n.lastPd = some (p3, p4) → p4 < t4 → t.rdN (netKey b 0x24) = ofSigned 32 (Int.fdiv mean 65536) ∧
        sameRegs s t [netKey b 0x24] ∧
        t.netAt b = { n with
          delay := mean
          ratioNum := (t3 : Int) - p3
          ratioDen := (t4 : Int) - p4
          lastPd := some (t3, t4)
          pdReq := none })) ∧
    (∃ t, exec (.holdover b) s = .next t ∧ sameBytes s t ∧ (¬ out → t = s) ∧
      (out → (t.netAt b).state = .holdover ∧ (t.netAt b).y = n.y ∧ (t.netAt b).value = n.value ∧ (t.netAt b).outliers = 0 ∧
        t.bit (rk pgTime 0x14) (4 + b) = true ∧ sameRegs s t [rk pgTime 0x14])))

/-- R317, R319, R320, R331: TIME_FUS_STEP and TIME_FUS_REANCHOR accept a step by ⌊D⌋ and a change of Q while FUSION is STEP_PENDING, for the next GRID
epoch boundary; TIME_FUS_SOURCE takes an enabled base, or completes at once for the source in use; TIME_ACCEPT_JUMP takes a base in JUMP_REFUSED. Each
is refused otherwise, with its code. R308, R319, R320: at its boundary an accepted step adds J to FUSION, an accepted change of Q adds D to Q, and a
source change takes the source with D 0; each sets its event and completes its command. Before the boundary none of them happens. The TIME cycle in
which |D| is within its cap removes it. -/
def Obligations.FusionIsSteered : Prop :=
  (∀ (s : State) (h : Fin 2),
    let b := s.hostArg h pgTime 0 % 2
    let v := s.hostArg h pgTime 0 % 4
    let refused (t : State) (code : Nat) := t.busy pgTime = false ∧ t.result pgTime = resRefused ∧ t.fld (rk pgTime 0x130) 7 0 = code ∧ t.time = s.time
    let frame (t : State) := sameBytes s t ∧ sameRegs s t (rk pgTime 0x130 :: slotKeys h pgTime)
    s.issues h pgTime = true →
    (∃ t, exec (.timeFusStep h) s = .next t ∧ frame t ∧ (s.time.pending = false → refused t 2) ∧
      (s.time.pending = true → t.busy pgTime = true ∧ t.time = { s.time with
        pending := false
        accStep := some (Int.fdiv s.fusD (2 ^ 40)).toNat
        accAt := s.nextBoundary })) ∧
    (∃ t, exec (.timeFusReanchor h) s = .next t ∧ frame t ∧ (s.time.pending = false → refused t 2) ∧
      (s.time.pending = true → t.busy pgTime = true ∧ t.time = { s.time with
        pending := false
        accAnchor := true
        accAt := s.nextBoundary })) ∧
    (∃ t, exec (.timeFusSource h) s = .next t ∧ frame t ∧
      (v = s.time.source → t.busy pgTime = false ∧ t.result pgTime = resDone ∧ t.time = s.time) ∧
      (v ≠ s.time.source → v = 3 ∨ v ≠ 0 ∧ s.netEnabled (v - 1) = false → refused t 3) ∧
      (v ≠ s.time.source → v ≠ 3 → v = 0 ∨ s.netEnabled (v - 1) = true → t.busy pgTime = true ∧ t.time = { s.time with
        srcNext := some v
        srcAt := s.nextBoundary })) ∧
    (∃ t, exec (.timeAcceptJump h) s = .next t ∧ frame t ∧ ((s.netAt b).state ≠ .jumpRefused → refused t 1) ∧
      ((s.netAt b).state = .jumpRefused → t.busy pgTime = true ∧ t.netAt b = { s.netAt b with accept := true } ∧
        t.netAt (1 - b) = s.netAt (1 - b)))) ∧
  (∀ (s : State) (j v : Nat),
    let bit (t : State) (i : Nat) := t.bit (rk pgTime 0x14) i = true
    let mine := [rk pgTime 0x14, rk pgTime 0x2C, rk pgTrk 0x12C, rk pgTrk 0x13C, rk pgTrk 0x14]
    let last := s.fusNear = true ∧ s.fusD ≠ 0 ∧ s.time.off = false ∧ s.fusD.natAbs ≤ s.fusInc / 10000
    (s.time.accAt ≤ s.now → s.time.accStep = some j → s.time.accAnchor = false → s.time.srcNext = none →
      ∃ t, exec .fusStepped s = .next t ∧ t.time.fus = s.time.fus + j * 2 ^ 40 ∧ t.time.q = s.time.q ∧ bit t 8 ∧ sameBytes s t ∧
        (t.time.accStep = none ∨ s.fusNear = false) ∧ (s.cmdIs pgTime 3 = true → t.busy pgTime = false) ∧
        t.bell.nextEnd = s.bell.nextEnd + j ∧ (0 < j → s.running pgTrk = true → t.bit (rk pgTrk 0x12C) 0 = false ∧ t.bit (rk pgTrk 0x14) 2 = true)) ∧
    (s.time.accAt ≤ s.now → s.time.accStep = none → s.time.accAnchor = true → s.time.srcNext = none →
      ∃ t, exec .fusStepped s = .next t ∧ t.time.fus = s.time.fus ∧ t.time.q = s.time.q + s.fusD ∧ t.time.accAnchor = false ∧ bit t 9 ∧
        t.bell = s.bell ∧ t.grid = s.grid ∧ (s.cmdIs pgTime 4 = true → t.busy pgTime = false) ∧ sameBytes s t ∧
        sameRegs s t [rk pgTime 0x14, rk pgTime 0x2C]) ∧
    (s.time.srcAt ≤ s.now → s.time.accStep = none → s.time.accAnchor = false → s.time.srcNext = some v →
      ∃ t, exec .fusStepped s = .next t ∧ t.time.source = v ∧ t.time.fus = s.time.fus ∧ t.fusD = 0 ∧ t.time.srcNext = none ∧ bit t 10 ∧
        (s.cmdIs pgTime 2 = true → t.busy pgTime = false) ∧ (s.running pgTrk = true → t.bit (rk pgTrk 0x12C) 0 = false) ∧
        sameBytes s t ∧ sameRegs s t mine) ∧
    (s.now < s.time.accAt → s.now < s.time.srcAt → ∃ t, exec .fusStepped s = .next t ∧ t.time.fus = s.time.fus ∧ t.time.q = s.time.q ∧
      t.time.source = s.time.source ∧ t.time.srcNext = s.time.srcNext ∧ sameBytes s t ∧ sameRegs s t [rk pgTime 0x14]) ∧
    (∃ t, exec .fusionSlewEnd s = .next t ∧ sameBytes s t ∧ (¬ last → t = s) ∧
      (last → t.time.tb0 = s.time.tb0 + 2 ∧ (t.time.fus : Int) = s.time.fus + s.fusInc + s.fusD ∧ t.time.q = s.time.q ∧
        (t.netAt 0).value = (s.netAt 0).value + 2 * (2 ^ 40 + (s.netAt 0).y) ∧ sameRegs s t [rk pgTime 0x14])))

/-- R325, R326, R331: CMD_SEND with 16 frames pending is refused as busy; a descriptor or frame outside the memory of R325, a length outside 60 to
9,216 or a base above 3 refuses it, with status 0x05 where the descriptor can be reached. Else the frame joins the port's queue with status pending. A
Pdelay frame of TIME's own queue that is ready goes first where it makes no host frame late (R311). A frame at the head of a free MAC is sent in the
20 ns from its launch time, waits before, and when late is sent or dropped by LATE_POLICY. R327, R333 (the window of ±4 ns is R327's): an armed output
fires at the first instant at or after its fire time, once for each fire; the time of the fire goes to TRIG_LAST, the output is active for WIDTH,
fires that are past are skipped and counted, and a single fire disarms it. Before its time, or disarmed, nothing happens. -/
def Obligations.LaunchAndTriggerAreOnTime : Prop :=
  (∀ (s : State) (h : Fin 2) (p : Fin 8) (f : TxFrame) (rest : List TxFrame),
    let pg := pgEth p
    let q := s.ethAt p
    let a := (s.hostArg h pg 0 + s.hostArg h pg 1 * 2 ^ 32) % 2 ^ 48
    let fa := s.getLE a 8
    let len := s.getLE (a + 8) 2
    let base := s.getLE (a + 10) 1
    let fits := 60 ≤ len ∧ len ≤ 9216 ∧ base ≤ 3 ∧ (fa + len ≤ lpddrEnd ∨ commonsBase ≤ fa ∧ fa + len ≤ secBase)
    let clean := s.memClean = true
    let mem := wide (rk pgMem 0x40) ++ wide (rk pgMem 0x48) ++ wide (rk pgMem 0x50)
    let slot := slotKeys h pg ++ mem
    let plus (t : State) (o : Nat) := t.rd64 (rk pgTime o) = (s.rd64 (rk pgTime o) + 1) % 2 ^ 64
    let live := s.running pg = true ∧ q.macFree ≤ s.time.tb0
    let b := s.baseNs f.base + s.fld (rk pg 0x114) 15 0
    let late := f.base ≠ 3 ∧ (f.ready = false ∨ f.time + 20 < b)
    let policy := s.bit (rk pg 0x118) 0 = true
    let sends := f.base = 3 ∨ (f.ready = true ∧ f.time ≤ b ∧ b ≤ f.time + 20) ∨ (late ∧ policy)
    let code := if late then (if policy then 2 else 3) else 1
    let ctr := if late then (if policy then 0x68 else 0x70) else 0x60
    (s.issues h pg = true → 16 ≤ q.txQueue.length →
      ∃ t, exec (.ethCmdSend h p) s = .next t ∧ t.result pg = resBusy ∧ t.ethAt p = q ∧ sameBytes s t ∧ sameRegs s t (slotKeys h pg)) ∧
    (s.issues h pg = true → q.txQueue.length < 16 → a + 32 ≤ lpddrEnd → clean →
      ∃ t, exec (.ethCmdSend h p) s = .next t ∧ t.busy pg = false ∧ sameBytesBut s t (a + 11) 1 ∧
        (¬ fits → t.result pg = resRefused ∧ t.byte (a + 11) = 5 ∧ t.ethAt p = q ∧ sameRegs s t slot) ∧
        (fits → t.result pg = resDone ∧ t.byte (a + 11) = 0 ∧
          (t.ethAt p).txQueue.map (fun x => (x.desc, x.addr, x.len, x.base, x.time)) =
            q.txQueue.map (fun x => (x.desc, x.addr, x.len, x.base, x.time)) ++ [(a, fa, len, base, s.getLE (a + 16) 8)] ∧
          t.fld (rk pg 0x11C) 4 0 = q.txQueue.length + 1 ∧ sameRegs s t (rk pg 0x11C :: slot))) ∧
    (s.ptpReady p = true → ∃ t, exec (.launch p) s = .next t ∧ (t.ethAt p).txQueue = q.txQueue ∧
      (t.ethAt p).sent.length = q.sent.length + 1 ∧ (f.base ≠ 3 → q.txQueue = f :: rest → s.baseNs f.base + ((t.ethAt p).macFree - s.time.tb0) + 1000 < f.time) ∧
      sameBytes s t ∧ sameRegs s t (wide (rk pg 0x78))) ∧
    (q.txQueue = [] ∧ s.ptpReady p = false ∨ ¬ live → ∃ t, exec (.launch p) s = .next t ∧ t = s) ∧
    (q.txQueue = f :: rest → s.ptpReady p = false → live → f.base ≠ 3 → f.ready = true → b < f.time → ∃ t, exec (.launch p) s = .next t ∧ t = s) ∧
    (q.txQueue = f :: rest → s.ptpReady p = false → live → (sends ∨ late) → f.desc + 32 ≤ lpddrEnd → f.addr + f.len ≤ lpddrEnd → clean → rest.length < 16 →
      ∃ t, exec (.launch p) s = .next t ∧ (t.ethAt p).txQueue.length = rest.length ∧
        t.byte (f.desc + 11) = BitVec.ofNat 8 code ∧ t.fld (rk pg 0x11C) 23 16 = code ∧ t.fld (rk pg 0x11C) 4 0 = rest.length ∧ plus t ctr ∧
        sameBytesOff s t [(f.desc + 11, 1), (f.desc + 24, 8)] ∧
        (sends → (t.ethAt p).sent = q.sent ++ [s.bytes f.addr f.len] ∧
          t.getLE (f.desc + 24) 8 = (s.time.tb0 + s.fld (rk pg 0x114) 15 0) % 2 ^ 64 ∧ t.rd64 (rk pg 0x78) = (s.rd64 (rk pg 0x78) + 1) % 2 ^ 64) ∧
        (¬ sends → (t.ethAt p).sent = q.sent ∧ t.getLE (f.desc + 24) 8 = 0) ∧
        sameRegs s t (rk pg 0x11C :: mem ++ wide (rk pg 0x78) ++ wide (rk pgTime ctr)))) ∧
  (∀ (s : State) (o : Fin 16),
    let st := s.rdN (trigKey o 0x1C)
    let u := s.trigAt o
    let start := s.rd64 (trigKey o 4)
    let per := s.rdN (trigKey o 0xC)
    let base := s.baseNs (s.fld (trigKey o 0) 2 1)
    let at0 := start + u.next * per
    let fired (t : State) (k : Nat) := t.trigAt o = { next := k + 1, ends := s.time.tb0 + s.fld (trigKey o 0x10) 23 0 } ∧
      t.rd64 (trigKey o 0x14) = s.now % 2 ^ 64 ∧ sameRegs s t (trigKey o 0x1C :: wide (trigKey o 0x14))
    (¬ (st.testBit 0) → ∃ t, exec (.trigFire o) s = .next t ∧ t = s) ∧
    (st.testBit 0 → per ≠ 0 ∨ u.next = 0 → base < at0 → ∃ t, exec (.trigFire o) s = .next t ∧ sameBytes s t ∧ t.trigAt o = u ∧ sameRegs s t []) ∧
    (st.testBit 0 → per ≠ 0 → at0 ≤ base → base ≤ at0 + 4 →
      ∃ t, exec (.trigFire o) s = .next t ∧ sameBytes s t ∧ fired t u.next ∧ t.rdN (trigKey o 0x1C) = st) ∧
    (st.testBit 0 → per = 0 → u.next = 0 → at0 ≤ base → base ≤ at0 + 4 →
      ∃ t, exec (.trigFire o) s = .next t ∧ sameBytes s t ∧ fired t 0 ∧ t.bit (trigKey o 0x1C) 0 = false) ∧
    (st.testBit 0 → per ≠ 0 → at0 + 4 + per < base →
      ∃ t, exec (.trigFire o) s = .next t ∧ sameBytes s t ∧ u.next < (t.trigAt o).next ∧
        bits st 31 16 ≤ t.fld (trigKey o 0x1C) 31 16 ∧ base ≤ start + (t.trigAt o).next * per + 4 ∧
        sameRegs s t (trigKey o 0x1C :: wide (trigKey o 0x14))))

/-- R31, R337, R341, R347, R480: an internal master's read of clean LPDDR5X or of the open Commons answers its bytes; a single error in the granule is
corrected and counted, a double or an address error answers an error response and no data, with the granule in MEM_UE_LAST. Bank 63 without a grant
and a reserved address answer an error response and are counted. No byte of memory changes. R31, R337, R341, R347: an internal master's write of
LPDDR5X or of the open Commons stores its bytes and no others (in the Commons with no word in error); one that meets a granule in part reads it first,
counted in CNT_RMW, and stores nothing where that granule is uncorrectable. Bank 63 without a grant and a reserved address answer an error response,
and nothing is stored. -/
def Obligations.MasterReachesMemory : Prop :=
  (∀ (s : State) (m : Fin 16) (a n : Nat) (u : Upset),
    let resp (t : State) := SMap.get (fun _ => (Access.done, [])) t.memc.resp m
    let g := a / 32 * 32
    let plus (t : State) (k c : Nat) := t.rd64 k = (s.rd64 k + c) % 2 ^ 64
    let last (t : State) (k flags : Nat) := t.rdN k = g % 2 ^ 32 ∧ t.rdN (k + 4) = g / 2 ^ 32 + flags + 2 ^ 31
    let deny := secBase ≤ a ∧ a + n ≤ commonsEnd ∧ s.secGranted m false = false
    (a + n ≤ lpddrEnd → 0 < n → s.memClean = true →
      ∃ t, exec (.memRead m a n u) s = .next t ∧ sameBytes s t ∧ plus t (rk pgMem 0x40) (linesOf a n) ∧
        (u = .none → resp t = (.done, s.bytes a n) ∧ sameRegs s t (wide (rk pgMem 0x40))) ∧
        (u = .single → resp t = (.done, s.bytes a n) ∧ plus t (rk pgMem 0x58) 1 ∧ last t (rk pgMem 0x114) 0 ∧ t.bit (rk pgMem 0x1C) 0 = true ∧
          t.memc.bad = [] ∧ sameRegs s t ([rk pgMem 0x114, rk pgMem 0x118, rk pgMem 0x1C] ++ wide (rk pgMem 0x40) ++ wide (rk pgMem 0x58))) ∧
        (u = .double → resp t = (.ca, []) ∧ plus t (rk pgMem 0x60) 1 ∧ last t (rk pgMem 0x11C) 0 ∧ t.bit (rk pgMem 0x1C) 1 = true ∧
          sameRegs s t ([rk pgMem 0x11C, rk pgMem 0x120, rk pgMem 0x1C] ++ wide (rk pgMem 0x40) ++ wide (rk pgMem 0x60))) ∧
        (u = .address → resp t = (.ca, []) ∧ plus t (rk pgMem 0x60) 1 ∧ plus t (rk pgMem 0x68) 1 ∧ last t (rk pgMem 0x11C) 0x20000000 ∧
          t.bit (rk pgMem 0x1C) 2 = true ∧
          sameRegs s t ([rk pgMem 0x11C, rk pgMem 0x120, rk pgMem 0x1C] ++ wide (rk pgMem 0x40) ++ wide (rk pgMem 0x60) ++ wide (rk pgMem 0x68)))) ∧
    (commonsBase ≤ a → a + n ≤ secBase → s.memc.commonsBad = [] →
      ∃ t, exec (.memRead m a n u) s = .next t ∧ sameBytes s t ∧ resp t = (.done, s.bytes a n) ∧
        sameRegs s t (wide (rk pgCommons 0x40) ++ wide (rk pgCommons 0x50))) ∧
    (deny → 0 < n → ∃ t, exec (.memRead m a n u) s = .next t ∧ sameBytes s t ∧ resp t = (.ca, []) ∧ plus t (rk pgCommons 0x70) 1 ∧
      t.bit (rk pgCommons 0x14) 2 = true ∧ t.rdN (rk pgCommons 0x110) = (a - secBase) / 8 * 8 ∧ t.rdN (rk pgCommons 0x114) = 2 ^ 31 + m ∧
      sameRegs s t ([rk pgCommons 0x14, rk pgCommons 0x110, rk pgCommons 0x114] ++ wide (rk pgCommons 0x70))) ∧
    (0x015000000000 ≤ a → 0 < n → a < 2 ^ 48 → ∃ t, exec (.memRead m a n u) s = .next t ∧ sameBytes s t ∧ resp t = (.ca, []) ∧
      plus t (rk pgSys 0x40) 1 ∧ t.rdN (rk pgSys 0x108) = a % 2 ^ 32 ∧ t.rdN (rk pgSys 0x10C) = 2 ^ 31 + m * 2 ^ 16 + a / 2 ^ 32 ∧
      sameRegs s t ([rk pgSys 0x108, rk pgSys 0x10C] ++ wide (rk pgSys 0x40)))) ∧
  (∀ (s : State) (m : Fin 16) (a : Nat) (bs : List Byte) (u : Upset),
    let n := bs.length
    let resp (t : State) := SMap.get (fun _ => (Access.done, [])) t.memc.resp m
    let plus (t : State) (k c : Nat) := t.rd64 k = (s.rd64 k + c) % 2 ^ 64
    let parts := (partialGranules a n).length
    let mem := [rk pgMem 0x114, rk pgMem 0x118, rk pgMem 0x11C, rk pgMem 0x120, rk pgMem 0x1C] ++ wide (rk pgMem 0x48) ++ wide (rk pgMem 0x50) ++
      wide (rk pgMem 0x58) ++ wide (rk pgMem 0x60) ++ wide (rk pgMem 0x68)
    let deny := secBase ≤ a ∧ a + n ≤ commonsEnd ∧ s.secGranted m true = false
    (a + n ≤ lpddrEnd → 0 < n → s.memClean = true →
      ∃ t, exec (.memWrite m a bs u) s = .next t ∧ sameBytesBut s t a n ∧ plus t (rk pgMem 0x48) (linesOf a n) ∧ plus t (rk pgMem 0x50) parts ∧
        (u = .none ∨ u = .single ∨ (a % 32 = 0 ∧ 32 ≤ n) → resp t = (.done, []) ∧ t.bytes a n = bs ∧ t.memc.bad = []) ∧
        (u = .double ∨ u = .address → a % 32 ≠ 0 ∨ n < 32 → resp t = (.ca, []) ∧ sameBytes s t ∧ plus t (rk pgMem 0x60) 1) ∧
        sameRegs s t mem) ∧
    (commonsBase ≤ a → a + n ≤ secBase → 0 < n → s.memc.commonsBad = [] →
      ∃ t, exec (.memWrite m a bs u) s = .next t ∧ sameBytesBut s t a n ∧ resp t = (.done, []) ∧ t.bytes a n = bs ∧
        sameRegs s t (wide (rk pgCommons 0x48) ++ wide (rk pgCommons 0x58))) ∧
    (deny → 0 < n → ∃ t, exec (.memWrite m a bs u) s = .next t ∧ sameBytes s t ∧ resp t = (.ca, []) ∧ plus t (rk pgCommons 0x70) 1 ∧
      t.bit (rk pgCommons 0x14) 2 = true ∧ t.rdN (rk pgCommons 0x114) = 2 ^ 31 + 256 + m) ∧
    (0x015000000000 ≤ a → 0 < n → ∃ t, exec (.memWrite m a bs u) s = .next t ∧ sameBytes s t ∧ resp t = (.ca, []) ∧ plus t (rk pgSys 0x40) 1))

/-- R339, R340, R351: patrol, while MEM is RUNNING, not halted and scrubbing in Run, reads the granule at its turn, not before its share of the period has gone by: it counts it, corrects a single error,
which it counts, leaves an uncorrectable one with FOUND_BY_PATROL, and goes on; after the last it counts the pass. Else it waits. MEM_INJECT takes its
arm bits only in DEVELOP or while MEM is TESTING. R341, R342, R343, R344: in one NOC cycle two writes of one line by a master of port A and one of
port B take effect word by word: a word in which they differ in a byte that both enable takes port B's bytes alone, is counted in COLLIDE, and port
A's completion is LOST; every other word takes the bytes of both. A single read answers the line. Two reads of one bank through one port are both
served, and the master that waits is charged one cycle. R346, R348, R349, R353: a wipe trigger returns the grants to SEC alone, sets WIPING and
records its cause; one that comes during a wipe gives the cause alone. Once the zeroing has taken its 4,096 ns every byte of bank 63 reads 0, WIPING
clears, CNT_WIPE counts and WIPED is set; before, nothing happens. The Commons leaves INIT with every byte zero and RUNNING (log 49).
COMMONS_CONFLICT_CLR clears the sixteen counters. -/
def Obligations.MemoryIsScrubbedSharedAndWiped : Prop :=
  (∀ (s : State) (u : Upset) (h : Fin 2) (v : Word) (g : Nat),
    let i := s.memc.patrol
    let n := (i + 1) % 2 ^ 32
    let period := s.memc.scrubHours * 3600 * 10 ^ 9
    let live := s.running pgMem = true ∧ s.halted pgMem = false ∧ s.bit (rk pgMem 0x100) 0 = true ∧ s.fld (rk pgPwr 0x104) 1 0 = 0 ∧
      ((i * period : Nat) : Int) ≤ s.memc.scrubNs * 2 ^ 32
    let plus (t : State) (o : Nat) := t.rd64 (rk pgMem o) = (s.rd64 (rk pgMem o) + 1) % 2 ^ 64
    let takes := s.sec.fuses.lifecycle = 1 ∨ s.blk pgMem = stTesting
    let keys := [0x14, 0x1C, 0x10C, 0x110, 0x114, 0x118, 0x11C, 0x120].map (rk pgMem) ++ wide (rk pgMem 0x58) ++ wide (rk pgMem 0x60) ++
      wide (rk pgMem 0x68) ++ wide (rk pgMem 0x70) ++ wide (rk pgMem 0x78)
    (¬ live → ∃ t, exec (.patrolScrub u) s = .next t ∧ t = s) ∧
    (live → ∃ t, exec (.patrolScrub u) s = .next t ∧ sameBytes s t ∧ sameRegs s t keys ∧ t.memc.patrol = n ∧ plus t 0x70 ∧
      t.rdN (rk pgMem 0x10C) = n / 512 ∧ (n = 0 → t.bit (rk pgMem 0x14) 1 = true ∧ t.memc.scrubNs = s.memc.scrubNs - period ∧
        t.memc.scrubHours = max 1 (s.fld (rk pgMem 0x104) 7 0)) ∧
      (patrolGranule i = some g → s.memc.bad = [] →
        (u = .none → t.memc.bad = [] ∧ ¬ plus t 0x78 ∧ ¬ plus t 0x60) ∧
        (u = .single → t.memc.bad = [] ∧ plus t 0x78 ∧ plus t 0x58) ∧
        (u = .double → t.memc.bad = [(g, .double)] ∧ plus t 0x60 ∧ t.bit (rk pgMem 0x120) 30 = decide (g * 32 < 2 ^ 62)))) ∧
    (s.reaches h = true → s.isOwner h = true → ∃ t, exec (.memInject h v) s = .next t ∧ sameBytes s t ∧
      (takes → t.fld (rk pgMem 0x148) 1 0 = v.toNat % 4 ∧ sameRegs s t (rk pgMem 0x148 :: wide (rk (pgPort h) 0x48))) ∧
      (¬ takes → t.bit (rk pgMem 0x14) 0 = true ∧ sameRegs s t (rk pgMem 0x14 :: wide (rk (pgPort h) 0x48))))) ∧
  (∀ (s : State) (a b : Fin 16) (l k i : Nat) (x y : List (Nat × Byte)),
    let line := commonsBase + 64 * l
    let other := commonsBase + 64 * k
    let get (w : List (Nat × Byte)) := (w.find? (fun e => e.1 == i)).map (·.2)
    let clash (w : Nat) := x.any (fun e => y.any (fun f => e.1 == f.1 && e.1 / 8 == w && e.2 != f.2))
    let clashes := ((List.range 8).filter clash).length
    let resp (t : State) (m : Nat) := SMap.get (fun _ => (Access.done, [])) t.memc.resp m
    let plus (t : State) (o c : Nat) := t.rd64 (rk pgCommons o) = (s.rd64 (rk pgCommons o) + c) % 2 ^ 64
    let turn := SMap.get (fun _ => 15) s.memc.turn ((if a.val < 8 then 0 else 64) + 64 * l / 0x100000)
    let waits := if (a.val + 15 - turn) % 16 < (b.val + 15 - turn) % 16 then b.val else a.val
    let wa : CommonsReq := { master := a, line := line, write := some x, upset := .none }
    let wb : CommonsReq := { master := b, line := line, write := some y, upset := .none }
    let ra : CommonsReq := { master := a, line := line, write := none, upset := .none }
    let rb : CommonsReq := { master := b, line := other, write := none, upset := .none }
    line + 64 ≤ secBase →
    (s.memc.commonsBad = [] → a.val < 8 → 8 ≤ b.val → (x.map (·.1)).Nodup → (y.map (·.1)).Nodup → (∀ e ∈ x, e.1 < 64) → (∀ e ∈ y, e.1 < 64) → i < 64 →
      ∃ t, exec (.commonsAccess [wa, wb]) s = .next t ∧
        t.byte (line + i) = ((get y).getD (if clash (i / 8) then s.byte (line + i) else (get x).getD (s.byte (line + i)))) ∧
        sameBytesBut s t line 64 ∧ resp t a = (.done, []) ∧ resp t b = (.done, []) ∧ (a.val ∈ t.memc.lost ↔ 0 < clashes) ∧
        plus t 0x60 clashes ∧ plus t 0x48 1 ∧ plus t 0x58 1 ∧ (0 < clashes → t.bit (rk pgCommons 0x14) 1 = true) ∧
        sameRegs s t ([0x14, 0x108, 0x10C, 0x48, 0x4C, 0x58, 0x5C, 0x60, 0x64].map (rk pgCommons))) ∧
    (s.memc.commonsBad = [] →
      ∃ t, exec (.commonsAccess [ra]) s = .next t ∧ resp t a = (.done, s.bytes line 64) ∧
        sameBytes s t ∧ sameRegs s t ([0x40, 0x44, 0x50, 0x54].map (rk pgCommons))) ∧
    (s.memc.commonsBad = [] → a ≠ b → (a.val < 8 ↔ b.val < 8) → l / 0x4000 = k / 0x4000 →
      ∃ t, exec (.commonsAccess [ra, rb]) s = .next t ∧
        resp t a = (.done, s.bytes line 64) ∧ resp t b = (.done, s.bytes other 64) ∧ sameBytes s t ∧
        t.rdN (rk pgCommons (0x140 + 4 * waits)) = min (s.rdN (rk pgCommons (0x140 + 4 * waits)) + 1) 0xFFFFFFFF ∧
        sameRegs s t ([0x40, 0x44, 0x50, 0x54, 0x140 + 4 * waits].map (rk pgCommons)))) ∧
  (∀ (s : State) (c : BitVec 4) (w a : Nat) (h : Fin 2) (v : Word),
    let keys := [rk pgCommons 0x100, rk pgCommons 0x104, rk pgCommons 0x120]
    let cause := 1 ≤ c.toNat ∧ c.toNat ≤ 4
    (cause → s.bit (rk pgCommons 0x100) 1 = false →
      ∃ t, exec (.wipe c) s = .next t ∧ sameBytes s t ∧ t.rd (rk pgCommons 0x104) = 0x80008000 ∧ t.bit (rk pgCommons 0x100) 1 = true ∧
        t.rdN (rk pgCommons 0x120) = c.toNat ∧ t.memc.wipeAt = some s.time.tb0 ∧ sameRegs s t keys) ∧
    (cause → s.bit (rk pgCommons 0x100) 1 = true →
      ∃ t, exec (.wipe c) s = .next t ∧ sameBytes s t ∧ t.rdN (rk pgCommons 0x120) = c.toNat ∧ t.memc = s.memc ∧ sameRegs s t [rk pgCommons 0x120]) ∧
    (s.memc.wipeAt = some w → w + 4096 ≤ s.time.tb0 → s.planes = [] →
      ∃ t, exec .wiped s = .next t ∧ t.bit (rk pgCommons 0x100) 1 = false ∧ t.memc.wipeAt = none ∧ t.bit (rk pgCommons 0x14) 3 = true ∧
        t.rd64 (rk pgCommons 0x78) = (s.rd64 (rk pgCommons 0x78) + 1) % 2 ^ 64 ∧ t.rdN (rk pgCommons 0x11C) = min (s.time.tb0 - w) 0xFFFFFFFF ∧
        sameBytesBut s t secBase 0x100000 ∧ (secBase ≤ a → a < commonsEnd → t.byte a = 0) ∧
        sameRegs s t ([0x14, 0x78, 0x7C, 0x100, 0x11C].map (rk pgCommons))) ∧
    (s.memc.wipeAt = some w → s.time.tb0 < w + 4096 → ∃ t, exec .wiped s = .next t ∧ t = s) ∧
    (s.bit (rk pgCommons 0x100) 0 = true → s.planes = [] →
      ∃ t, exec .commonsInit s = .next t ∧ t.fld (rk pgCommons 0x100) 1 0 = 0 ∧ t.blk pgCommons = stRunning ∧ t.enabled pgCommons = true ∧
        t.rd (rk pgCommons 0x104) = 0x80008000 ∧ t.memc.commonsBad = [] ∧ sameBytesBut s t commonsBase 0x4000000 ∧
        (commonsBase ≤ a → a < commonsEnd → t.byte a = 0) ∧ sameRegs s t ([0x0C, 0x10, 0x100, 0x104].map (rk pgCommons))) ∧
    (s.reaches h = true → s.isOwner h = true → v.getLsbD 0 = true →
      ∃ t, exec (.commonsConflictClr h v) s = .next t ∧ sameBytes s t ∧ (∀ n ∈ List.range 16, t.rdN (rk pgCommons (0x140 + 4 * n)) = 0) ∧
        sameRegs s t ((List.range 16).map (fun n => rk pgCommons (0x140 + 4 * n)) ++ wide (rk (pgPort h) 0x48))))

/-- R355, R361, R362, R363: a command finds its slot busy, or its block OFF, DISMISSING or TESTING, and is refused: BUSY_HIT is set, the port's
CNT_CMD_BUSY counts and the status stays. Else SEQ rises and CODE and ISSUER are set; a code that the page does not know completes UNKNOWN for the
owner, and for an observer REFUSED_ROLE (log 66). R355, R356, R470, R471: a write to BAR0 that is not 4 or 8 naturally aligned bytes is an Unsupported
Request. The owner's write of a stored register stores its writable bits and keeps the others; the observer's is discarded and counted in CNT_DENIED;
each port writes its own argument copies. R356, R471, R479: a read of BAR0 that is not 4 or 8 naturally aligned bytes is an Unsupported Request. A
read answers the register; a read of a counter's low word latches its high word for that port, which a later read answers. -/
def Obligations.RegistersAreAccessed : Prop :=
  (∀ (s : State) (h : Fin 2) (p : Fin 64) (code : Byte),
    let c := code.toNat
    let k := rk p 0x2C
    let taken (t : State) (res : Nat) := t.busy p = false ∧ t.result p = res ∧ t.fld k 31 24 = (s.fld k 31 24 + 1) % 256 ∧ t.fld k 15 8 = c ∧
      t.fld k 4 4 = h ∧ t.bit k 5 = false
    s.reaches h = true → (pageKind p).isSome = true → p.val ≠ pgPort (1 - h) → pageCommand p c = none →
    ∃ t, exec (.cmdUnknown h p code) s = .next t ∧ t.rdN (rk p 0x28) = c ∧ sameBytes s t ∧
      t.rd64 (rk (pgPort h) 0x48) = (s.rd64 (rk (pgPort h) 0x48) + 1) % 2 ^ 64 ∧
      (s.slotTakes p = true → s.isOwner h = true → taken t resUnknown ∧ sameRegs s t (slotKeys h p)) ∧
      (s.slotTakes p = true → s.isOwner h = false → taken t resRole ∧ sameRegs s t (slotKeys h p)) ∧
      (s.slotTakes p = false → t.bit k 5 = true ∧ t.fld k 4 0 = s.fld k 4 0 ∧ t.fld k 31 8 = s.fld k 31 8 ∧
        t.rd64 (rk (pgPort h) 0x68) = (s.rd64 (rk (pgPort h) 0x68) + 1) % 2 ^ 64 ∧ sameRegs s t (slotKeys h p ++ wide (rk (pgPort h) 0x68)))) ∧
  (∀ (s : State) (h : Fin 2) (p : Fin 64) (o : Nat) (bs : List Byte) (v : Word) (i : Fin 4),
    let cnt := wide (rk (pgPort h) 0x48)
    let off := p.val * 0x1000 + o
    let k := rk p o
    let row := findRow (rowsOf p) o
    let m : Word := BitVec.ofNat 32 ((row.map (·.1.mask)).getD 0)
    let holds := row.any (fun x => s.condHolds p x.1 x.2)
    let word := leBytes 4 v.toNat
    let argOff := p.val * 0x1000 + 0x30 + 4 * i.val
    let plain := (pageKind p).any (fun k => [PageKind.wheel, .imu, .can, .clk].contains k)
    let plus (t : State) (o : Nat) := t.rd64 (rk (pgPort h) o) = (s.rd64 (rk (pgPort h) o) + 1) % 2 ^ 64
    s.reaches h = true →
    (sizeOk o bs.length = false → o < 0x1000 → ∃ t, exec (.registerWrite h off bs) s = .next t ∧ (t.portAt h).resp = .ur ∧ plus t 0x50 ∧
      sameBytes s t ∧ sameRegs s t (wide (rk (pgPort h) 0x50))) ∧
    (plain = true → 0x100 ≤ o → o < 0x1000 → o % 4 = 0 → m ≠ 0 →
      ∃ t, exec (.registerWrite h off word) s = .next t ∧ (t.portAt h).resp = .done ∧ plus t 0x48 ∧ sameBytes s t ∧
        (s.isOwner h = true → holds = true → t.rd k = (s.rd k &&& ~~~m) ||| (v &&& m) ∧ sameRegs s t (k :: cnt)) ∧
        (s.isOwner h = true → holds = false → t.bit (rk p 0x14) 0 = true ∧ sameRegs s t (rk p 0x14 :: cnt)) ∧
        (s.isOwner h = false → holds = true → plus t 0x60 ∧ sameRegs s t (cnt ++ wide (rk (pgPort h) 0x60)))) ∧
    ((pageKind p).isSome = true → p.val ≠ pgPort (1 - h) →
      ∃ t, exec (.registerWrite h argOff word) s = .next t ∧ t.rd (copyKey h p (0x30 + 4 * i)) = v ∧ sameBytes s t ∧
        sameRegs s t (copyKey h p (0x30 + 4 * i) :: cnt))) ∧
  (∀ (s : State) (h : Fin 2) (p : Fin 64) (o n : Nat) (c : Fin 8),
    let rcnt := wide (rk (pgPort h) 0x40)
    let off := p.val * 0x1000 + o
    let ctr := p.val * 0x1000 + 0x40 + 8 * c.val
    let ctrHi := ctr + 4
    let high := latchKey h (rk p (0x44 + 8 * c))
    let plus (t : State) (o : Nat) := t.rd64 (rk (pgPort h) o) = (s.rd64 (rk (pgPort h) o) + 1) % 2 ^ 64
    s.reaches h = true →
    (sizeOk o n = false → o < 0x1000 → ∃ t, exec (.latchingRead h off n) s = .next t ∧ (t.portAt h).resp = .ur ∧ plus t 0x50 ∧
      sameBytes s t ∧ sameRegs s t (wide (rk (pgPort h) 0x50))) ∧
    ((pageKind p).isSome = true → p.val ≠ pgPort 0 → p.val ≠ pgPort 1 →
      (∃ t, exec (.latchingRead h ctr 4) s = .next t ∧ plus t 0x40 ∧ (t.portAt h).data = leBytes 4 (s.rdN (rk p (0x40 + 8 * c))) ∧
        t.rdN high = s.rdN (rk p (0x44 + 8 * c)) ∧ sameBytes s t ∧ sameRegs s t (high :: rcnt)) ∧
      (∃ t, exec (.latchingRead h ctrHi 4) s = .next t ∧ plus t 0x40 ∧ (t.portAt h).data = leBytes 4 (s.rdN high) ∧ sameBytes s t ∧
        sameRegs s t rcnt)))

/-- R33, R416, R456, R475, R476, R477: an owner's write of ENABLE 1 takes an IDLE block to RUNNING, unless its chapter refuses it or PWR holds it (log
51); ENABLE 0 takes a RUNNING block to IDLE, FAB to STOPPING until its step has closed, and MEM only while no master of LPDDR5X works; a change of
ENABLE in another state is ignored with CFG_IGNORED. TEST starts the self-test of an IDLE block that has one, whose end gives IDLE and TEST_RESULT,
and is ignored otherwise with CFG_IGNORED. R448, R457, R470, R475, R478: a write of HALT is stored where the page has it and changes no block's state;
a write of BLK_EVENTS or BLK_FAULTS clears exactly the bits that are 1. -/
def Obligations.BlockRunsStopsTestsAndHalts : Prop :=
  (∀ (s : State) (h : Fin 2) (p : Fin 64) (passed : Bool),
    let counts (t : State) := t.rd64 (rk (pgPort h) 0x48) = (s.rd64 (rk (pgPort h) 0x48) + 1) % 2 ^ 64
    let st := s.blk p
    let ignored (t : State) := t.blk p = st ∧ t.enabled p = s.enabled p ∧ t.bit (rk p 0x14) 0 = true ∧ sameBytes s t
    let tests := (pageKind p).any pageTest = true ∧ st = stIdle ∧ s.enabled p = false ∧ s.held p = false ∧
      ¬ ((p.val = pgEng 4 ∨ p.val = pgEng 5) ∧ s.margin ≠ 0)
    s.reaches h = true → s.isOwner h = true → (pageKind p).isSome = true → p.val ≠ pgSys → p.val ≠ pgPort (1 - h) →
    (s.enabled p = false → ∃ t, exec (.blkEnable h p) s = .next t ∧ counts t ∧
      (st = stIdle → s.held p = false → (s.enableJudge p).2 = true → t.blk p = stRunning ∧ t.enabled p = true) ∧
      (st = stIdle → s.held p = false → (s.enableJudge p).2 = false → t.blk p = stIdle ∧ t.enabled p = false ∧ sameBytes s t) ∧
      (st = stIdle → s.held p = true → ignored t) ∧
      (st ≠ stIdle → st ≠ stRunning → ignored t)) ∧
    (s.enabled p = true → st = stRunning → ∃ t, exec (.blkDisable h p) s = .next t ∧ counts t ∧
      (p.val = pgMem → memMasters.any (fun q => s.blk q != stOff && s.blk q != stIdle) = true → ignored t) ∧
      (p.val = pgMem → memMasters.any (fun q => s.blk q != stOff && s.blk q != stIdle) = false → t.blk p = stIdle ∧ t.enabled p = false) ∧
      (p.val ≠ pgMem → t.enabled p = false ∧ t.blk p = (if p.val = pgFab then stStopping else stIdle))) ∧
    (∃ t, exec (.blkTest h p) s = .next t ∧ counts t ∧ (tests → t.blk p = stTesting ∧ t.bit (rk p 0x0C) 2 = true ∧ t.busy p = false) ∧
      (¬ tests → ignored t)) ∧
    (∃ t, exec (.testEnd p passed) s = .next t ∧ sameBytes s t ∧
      (st ≠ stTesting → t = s) ∧
      (st = stTesting → t.blk p = stIdle ∧ t.bit (rk p 0x0C) 2 = false ∧ t.enabled p = false ∧ t.fld (rk p 0x10) 5 4 = (if passed then 1 else 2)))) ∧
  (∀ (s : State) (h : Fin 2) (p : Fin 64) (on faults : Bool) (v : Word),
    let key := rk p (if faults then 0x1C else 0x14)
    let all := s.bit (rk pgDbg 0x104) 1
    s.reaches h = true → (pageKind p).isSome = true → p.val ≠ pgSys → p.val ≠ pgPort (1 - h) → s.isOwner h = true ∨ p.val = pgPort h →
    (∃ t, exec (.blkHalt h p on) s = .next t ∧ sameBytes s t ∧ t.blk p = s.blk p ∧
      ((pageKind p).any pageHalt = true → t.halted p = (on || all) ∧
        (p.val < 0x12 ∨ 0x18 ≤ p.val → sameRegs s t (rk p 0x0C :: wide (rk (pgPort h) 0x48)))) ∧
      ((pageKind p).any pageHalt = false → sameRegs s t (wide (rk (pgPort h) 0x48)))) ∧
    (∃ t, exec (.blkEventsClear h p faults v) s = .next t ∧ sameBytes s t ∧ t.rd key = s.rd key &&& ~~~v ∧
      sameRegs s t (key :: wide (rk (pgPort h) 0x48)) ∧ t.safe = s.safe))

/-- R349, R363, R364, R365, R415: 0x0000_0D15 in BLK_DISMISS, from either port, makes a block DISMISSING and completes its command in progress with RESULT
5; another value, and an OFF block, are ignored. CLK and QUAY are IDLE at once. The DISMISS ends in IDLE, for MEM and COMMONS in RUNNING, with
DISMISSED set; what waited for MEM or COMMONS is then served. DISMISS of SYS makes every block DISMISSING but those that R365 leaves running. -/
def Obligations.DismissEndsInIdle : Prop :=
  ∀ (s : State) (h : Fin 2) (p q : Fin 64) (v : Word),
    let cnt := wide (rk (pgPort h) 0x48)
    let key := v = 0x0D15
    let block := (pageKind p).isSome = true ∧ p.val ≠ pgSys ∧ p.val ≠ pgPort (1 - h)
    let calm := s.pwrState ≠ 1 ∧ s.pwrState ≠ 3 ∧ s.sysDismissing = false
    (s.reaches h = true → block →
      ∃ t, exec (.blkDismiss h p v) s = .next t ∧ (¬ key ∨ s.blk p = stOff → sameBytes s t ∧ sameRegs s t cnt) ∧
        (key → calm → s.blk p ≠ stOff → s.blk p ≠ stDismissing → t.busy p = false ∧ (s.busy p = true → t.result p = resDismissed) ∧
          t.enabled p = (if p.val = pgClk ∨ p.val = pgQuay then false else s.enabled p) ∧
          t.blk p = (if p.val = pgClk ∨ p.val = pgQuay then stIdle else stDismissing))) ∧
    (p.val ≠ pgSys → ∃ t, exec (.dismissDone p) s = .next t ∧ (s.blk p ≠ stDismissing ∨ (pageKind p).isNone = true → t = s) ∧
      ((pageKind p).isSome = true → s.blk p = stDismissing → t.blk p = (if p.val = pgMem ∨ p.val = pgCommons then stRunning else stIdle) ∧
        (∀ b ∈ dismissedBit p, t.bit (rk p 0x14) b = true) ∧
        ((p.val = pgMem ∨ p.val = pgCommons → (∀ c ∈ List.range 4, (s.canAt c).inq = []) ∧ s.chain.loading = none) →
          sameBytes s t ∧ sameRegs s t [rk p 0x0C, rk p 0x10, rk p 0x14, rk pgSys 0x100]))) ∧
    (s.reaches h = true → ∃ t, exec (.sysDismiss h v) s = .next t ∧ (¬ key → sameBytes s t ∧ sameRegs s t cnt) ∧
      (key → calm → (pageKind q).isSome = true → q.val ≠ pgSys →
        (s.blk q ≠ stOff → keptPages.contains q.val = false → t.blk q = stDismissing ∧ t.sysState = stDismissing) ∧
        (s.blk q = stOff ∨ keptPages.contains q.val = true → t.blk q = s.blk q)))

/-- R337, R347, R355, R359, R391: through BAR2 a port reads LPDDR5X and the open Commons, and the owner writes them, at its window's base; an observer's
write is discarded and counted. An access that passes the window's end is an Unsupported Request. R358, R376: BAR4, which the command carries
from offset 2^30 on (log 78), holds the MSI-X table: a vector whose mask a write clears sends the message it held; the pending bits read from 0x800. Bank 63 and an uncorrectable granule give a
Completer Abort, which Advanced Error Reporting logs for a write. R446, R448, R464: with the TAP powered and the debug scope open, DBG_ACCESS writes
and reads the DBG page; DBG_HALT.ALL so written halts every block that has a HALT. Else the instruction is BYPASS, and nothing of the device changes. -/
def Obligations.WindowAndDebugPortReach : Prop :=
  (∀ (s : State) (h : Fin 2) (o n : Nat) (bs : List Byte) (u : Upset),
    let pg := pgPort h
    let plus (t : State) (o : Nat) := t.rd64 (rk pg o) = (s.rd64 (rk pg o) + 1) % 2 ^ 64
    let base := s.fld (rk pg 0x108) 31 30 * 2 ^ 30 + s.fld (rk pg 0x10C) 15 0 * 2 ^ 32
    let a := base + o
    let len := bs.length
    let opens (k : Nat) := (a + k ≤ lpddrEnd ∧ s.memClean = true) ∨ (commonsBase ≤ a ∧ a + k ≤ secBase ∧ s.memc.commonsBad = [] ∧ u = .none)
    let mem := [rk pgMem 0x114, rk pgMem 0x118, rk pgMem 0x11C, rk pgMem 0x120, rk pgMem 0x1C] ++
      [0x40, 0x48, 0x50, 0x58, 0x60, 0x68].flatMap (fun o => wide (rk pgMem o)) ++ wide (rk pgCommons 0x50) ++ wide (rk pgCommons 0x58)
    s.reaches h = true →
    (0 < n → o + n ≤ winSize → opens n → ∃ t, exec (.bar2Access h o n none u) s = .next t ∧ sameBytes s t ∧
      (u = .none ∨ u = .single → (t.portAt h).resp = .done ∧ (t.portAt h).data = s.bytes a n ∧ plus t 0x40) ∧
      (u = .double ∨ u = .address → (t.portAt h).resp = .ca ∧ plus t 0x58) ∧
      sameRegs s t (mem ++ [0x40, 0x58].flatMap (fun o => wide (rk pg o)))) ∧
    (0 < len → o + len ≤ winSize → opens len → ∃ t, exec (.bar2Access h o n (some bs) u) s = .next t ∧ sameBytesBut s t a len ∧
      (s.isOwner h = true → u = .none ∨ u = .single → (t.portAt h).resp = .done ∧ t.bytes a len = bs ∧ plus t 0x48) ∧
      (s.isOwner h = true → u = .double → a % 32 ≠ 0 ∨ len < 32 → sameBytes s t ∧ (t.portAt h).resp = .ca ∧ plus t 0x58 ∧
        (t.portAt h).aerLog = (s.portAt h).aerLog + 1) ∧
      (s.isOwner h = false → sameBytes s t ∧ (t.portAt h).resp = .done ∧ plus t 0x60)) ∧
    (∀ (v : Fin 64) (w : Word),
      let q := s.portAt h
      (∃ t, exec (.bar2Access h (winSize + 16 * v + 12) 4 (some (leBytes 4 w.toNat)) u) s = .next t ∧ (t.portAt h).resp = .done ∧
        (t.portAt h).masked v = w.getLsbD 0 ∧ (∀ i : Fin 64, i ≠ v → (t.portAt h).masked i = q.masked i) ∧
        (∀ i : Fin 64, (t.portAt h).message i = q.message i) ∧
        (v.val ∈ q.msixPend → w.getLsbD 0 = false → q.message v ∈ (t.portAt h).msixSent ∧ v.val ∉ (t.portAt h).msixPend) ∧
        sameBytes s t ∧ sameRegs s t (wide (rk pg 0x48))) ∧
      (∃ t, exec (.bar2Access h (winSize + 16 * v + 8) 4 (some (leBytes 4 w.toNat)) u) s = .next t ∧
        (t.portAt h).message v = { q.message v with data := w.toNat } ∧ (t.portAt h).masked v = q.masked v ∧
        sameBytes s t ∧ sameRegs s t (wide (rk pg 0x48))) ∧
      (∃ t, exec (.bar2Access h (winSize + 0x800) 8 none u) s = .next t ∧ (t.portAt h).resp = .done ∧
        (leNat (t.portAt h).data).testBit v = q.msixPend.contains v.val ∧ (t.portAt h).msixPend = q.msixPend ∧
        sameBytes s t ∧ sameRegs s t (wide (rk pg 0x40)))) ∧
    (n = 0 ∧ o < winSize ∨ o < winSize ∧ winSize < o + n → ∃ t, exec (.bar2Access h o n none u) s = .next t ∧ (t.portAt h).resp = .ur ∧ plus t 0x50 ∧ sameBytes s t ∧
      sameRegs s t (wide (rk pg 0x50))) ∧
    (0 < n → o + n ≤ winSize → secBase ≤ a → a + n ≤ commonsEnd → s.secGranted (portMaster h) false = false →
      ∃ t, exec (.bar2Access h o n none u) s = .next t ∧ (t.portAt h).resp = .ca ∧ plus t 0x58 ∧ sameBytes s t ∧
        t.rd64 (rk pgCommons 0x70) = (s.rd64 (rk pgCommons 0x70) + 1) % 2 ^ 64 ∧ t.bit (rk pgCommons 0x14) 2 = true)) ∧
  (∀ (s : State) (o : Nat) (v : Word) (w : Option Word) (p : Fin 64),
    let may := s.tapOn = true ∧ s.scopeOk 1 = true
    (¬ may → ∃ t, exec (.dbgAccess o w) s = .next t ∧ t = s.bypass) ∧
    (may → o < 0x1000 → o % 4 = 0 → ∃ t, exec (.dbgAccess o none) s = .next t ∧ t.sec.tdr = leBytes 8 (s.view 2 pgDbg o) ∧ sameBytes s t ∧ sameRegs s t []) ∧
    (may → s.scopeOk 2 = true → v.getLsbD 1 = true → s.bit (rk pgDbg 0x104) 1 = false → (pageKind p).any pageHalt = true →
      ∃ t, exec (.dbgAccess 0x104 (some v)) s = .next t ∧ t.bit (rk pgDbg 0x104) 1 = true ∧ t.halted p = true ∧ sameBytes s t))

/-- R392, R393, R394, R397, R402: a Roll Call round starts at each multiple of 10 µs while no round is open and the device is not in STOP or WAKING (log
54); at its deadline, 2 µs later, it is counted with its number, a block that takes part and fails is counted and received as a fault, a DEVICE
failure takes both HEALTHY pins low, and a pin whose last cause cleared before the round's start rises. A watchdog stall of a block that is not halted
is counted, shown and received. -/
def Obligations.RollCallRoundRuns : Prop :=
  ∀ (s : State) (p : Fin 64) (r : RcFail) (unit : Nat) (router : Bool) (h : Fin 2) (c : Nat),
    let f := s.safe
    let due := s.roundsRun = true ∧ f.roundOpen = false ∧ (f.round = 0 ∨ f.roundAt + 10000 ≤ s.time.tb0)
    let plus (t : State) (o : Nat) := t.rd64 (rk pgSafe o) = (s.rd64 (rk pgSafe o) + 1) % 2 ^ 64
    let closes := f.roundOpen = true ∧ f.roundAt + 2000 ≤ s.time.tb0
    let keys := [0x14, 0x40, 0x44, 0x104, 0x108, 0x10C, 0x138, 0x13C].map (rk pgSafe)
    let counted := [0x48, 0x4C, 0x140].map (rk pgSafe)
    let device := ¬ (0x12 ≤ p.val ∧ p.val ≤ 0x17) ∧ p.val ∉ [pgTT, pgChain, pgEgo, pgDbg, 8, 9]
    let inst := if p.val = pgFab then unit % 1024 else 0
    let reason := match r with
      | .noAnswer => 1
      | .signature => 2
      | .status => 3
    let seen (b i : Nat) : FaultIn := { source := 1, page := p, bit := b, inst := i, fus := s.now, step := s.bell.step }
    let stall := if router = true ∧ p.val = pgFab then inst + 1024 else inst
    (¬ due → ∃ t, exec .rollCall s = .next t ∧ t = s) ∧
    (due → ∃ t, exec .rollCall s = .next t ∧ t = { s with safe := { f with
      roundOpen := true
      roundAt := s.time.tb0 / 10000 * 10000 } }) ∧
    (¬ closes → ∃ t, exec (.rollCallDeadline [(p, r, unit)]) s = .next t ∧ t = s) ∧
    (closes → f.inject = none →
      ∃ t, exec (.rollCallDeadline []) s = .next t ∧ sameBytes s t ∧ plus t 0x40 ∧ t.rd64 (rk pgSafe 0x138) = f.round % 2 ^ 64 ∧
        t.safe.round = f.round + 1 ∧ t.safe.roundOpen = false ∧ t.safe.lastPass = true ∧ t.bit (rk pgSafe 0x104) 6 = true ∧ t.safe.inbox = f.inbox ∧
        (SMap.get (fun _ => none) f.clean h = some c → c ≤ f.round → s.noCause h = true → t.bit (rk pgSafe 0x104) h = true) ∧
        (s.noCause h = false → t.bit (rk pgSafe 0x104) h = false) ∧ sameRegs s t keys) ∧
    (closes → f.inject = none → s.inRollCall p = true → ¬ (p.val = pgTime ∧ r = .status) →
      ∃ t, exec (.rollCallDeadline [(p, r, unit)]) s = .next t ∧ sameBytes s t ∧ plus t 0x40 ∧ plus t 0x48 ∧ t.bit (rk pgSafe 0x104) 6 = false ∧
        t.safe.inbox = f.inbox ++ [seen reason inst] ∧ t.safe.lastPass = ! decide device ∧
        (device → t.bit (rk pgSafe 0x104) h = false) ∧ sameRegs s t (keys ++ counted)) ∧
    (s.inRollCall p = true → s.halted p = false →
      ∃ t, exec (.watchdog p unit router) s = .next t ∧ sameBytes s t ∧ plus t 0x48 ∧ t.safe.inbox = f.inbox ++ [seen 4 stall] ∧
        t.rdN (rk pgSafe 0x140) = 2 ^ 31 + stall % 1024 * 65536 + 4 * 256 + p ∧ sameRegs s t counted) ∧
    (s.inRollCall p = false ∨ s.halted p = true → ∃ t, exec (.watchdog p unit router) s = .next t ∧ t = s)

/-- R387, R388, R390, R391, R394, R395, R397, R401, R497 (what BIT an error response bears, log 112): the fault received first is classified: its class, by its source and page, is counted, it is recorded
in SAFE_LAST and, where that is not valid, in SAFE_FIRST. A DEVICE fault is latched, sets DEVICE and takes both pins low; a core's or router's fault
fences that unit. An error response of LPDDR5X or of the Commons is recorded under the page of the block that received it (R391). What a block's own check finds sets its bit in that block's BLK_FAULTS and is classified as R390's table gives; a corrected error
of an engine store counts in CNT_ECC_COR and is CORRECTED. -/
def Obligations.FaultIsClassified : Prop :=
  (∀ (s : State) (p : Fin 64) (b : BitVec 8) (i : Nat),
    let last (t : State) (cls : Nat) := t.fld (rk pgSafe 0x120) 7 0 = p.val ∧ t.fld (rk pgSafe 0x120) 15 8 = b.toNat ∧ t.fld (rk pgSafe 0x120) 23 22 = cls
    s.safe.inbox = [] → s.blk p ≠ stOff →
    ((p.val, b.toNat) ∈ [(pgFab, 2), (pgTT, 1), (pgTT, 2), (pgTrk, 1), (pgTime, 1), (pgGrid, 0), (pgStream, 0), (8, 0), (9, 0), (pgChain, 0), (pgChain, 1),
        (pgEgo, 0), (pgEgo, 1)] →
      ∃ t, exec (.faultClassify (some ⟨p, b, i⟩)) s = .next t ∧ t.bit (rk p 0x1C) b.toNat = true ∧ last t 2) ∧
    ((p.val, b.toNat) ∈ [(pgPwr, 0), (pgSec, 0), (pgSec, 1), (pgSafe, 0), (pgSafe, 1)] →
      ∃ t, exec (.faultClassify (some ⟨p, b, i⟩)) s = .next t ∧ t.bit (rk p 0x1C) b.toNat = true ∧ last t 3) ∧
    (0x12 ≤ p.val → p.val < 0x18 → b = 0x80 →
      ∃ t, exec (.faultClassify (some ⟨p, b, i⟩)) s = .next t ∧ t.rd64 (rk p 0x70) = (s.rd64 (rk p 0x70) + 1) % 2 ^ 64 ∧ last t 1)) ∧
  ∀ (s : State) (f : FaultIn) (fs : List FaultIn) (h : Fin 2),
    let c := s.faultClass f
    let word (t : State) (o : Nat) := t.fld (rk pgSafe o) 7 0 = f.charged ∧ t.fld (rk pgSafe o) 15 8 = f.bit % 256 ∧ t.fld (rk pgSafe o) 23 22 = c.cls ∧
      t.fld (rk pgSafe o) 27 24 = f.source ∧ t.bit (rk pgSafe o) 31 = true ∧ t.bit (rk pgSafe o) 21 = c.func ∧ t.bit (rk pgSafe o) 20 = c.port.isSome ∧
      t.rd64 (rk pgSafe (o + 8)) = f.fus % 2 ^ 64
    let engine := 0x12 ≤ f.page ∧ f.page ≤ 0x17
    let port := f.page = 8 ∨ f.page = 9
    s.safe.inbox = f :: fs → f.charged < 64 → f.source < 5 →
    ∃ t, exec (.faultClassify none) s = .next t ∧
      t.rd64 (rk pgSafe (0x48 + 8 * c.cls)) = (s.rd64 (rk pgSafe (0x48 + 8 * c.cls)) + 1) % 2 ^ 64 ∧ word t 0x120 ∧
      (s.bit (rk pgSafe 0x110) 31 = false → word t 0x110) ∧
      (s.bit (rk pgSafe 0x110) 31 = true → ∀ i ∈ List.range 4, t.rd (rk pgSafe (0x110 + 4 * i)) = s.rd (rk pgSafe (0x110 + 4 * i))) ∧
      c.cls ∈ [1, 2, 3] ∧
      (c.cls = 3 → t.bit (rk pgSafe 0x104) 2 = true ∧ t.bit (rk pgSafe 0x1C) 2 = true ∧ t.bit (rk pgSafe 0x104) h = false) ∧
      (c.cls = 1 → t.bit (rk pgSafe 0x14) 4 = true) ∧ (c.cls = 2 → t.bit (rk pgSafe 0x14) 5 = true) ∧
      (f.source = 1 → engine → c.cls = 1) ∧
      (f.source = 1 → f.page = pgFab → c.cls = if f.bit = 4 then 2 else 3) ∧
      (f.source = 1 → f.page ∈ [pgTT, pgChain, pgEgo, pgDbg] → c.cls = 2 ∧ c.func = true ∧ c.port = none) ∧
      (f.source = 1 ∨ f.source = 2 → port → c.cls = 2 ∧ c.port = some (f.page - 8)) ∧
      (f.source = 1 → ¬ engine → ¬ port → f.page ∉ [pgFab, pgTT, pgChain, pgEgo, pgDbg] → c.cls = 3) ∧
      (f.source = 3 → c.cls = 3) ∧ (f.source = 4 → c.cls = 1) ∧
      (f.page = pgFab → c.func = true → f.inst < 1024 → t.bit (rk pgSafe (0x200 + f.inst / 32 * 4)) (f.inst % 32) = true ∧ t.safe.fabTested = false) ∧
      (f.page = pgFab → c.func = true → 1024 ≤ f.inst → f.inst < 2048 → s.rtrFenced (f.inst - 1024) = false →
        t.bit (rk pgSafe (0x280 + (f.inst - 1024) / 32 * 4)) (f.inst % 32) = true ∧ t.bit (rk pgSafe (0x200 + (f.inst - 1024) / 32 * 4)) (f.inst % 32) = true)

/-- R395, R396, R397, R400 (which hub a reading belongs to is free, log 62): a window's frequency of a watched domain is shown, and the domain fails,
latched and received as a fault, in its second window beyond 5 %, or when it stops. A rail that is up and compared trips: it is latched, counted and
received, and both pins fall. A sample of the temperatures shows the hottest reading and the largest difference, and below 110 °C does no more; a window of 2 µs is measured once, and so is an instant
of 5 µs.
Without a refresh for 1 µs a pin falls. R15, R390, R430, R481: a PLL that loses lock is shown and counted. A link between the dies that retrains is
counted; one that does not is down, with RETRAIN_FAIL, received as a fault; a replayed flit is counted and received as CORRECTED. -/
def Obligations.MonitorsWatchClocksRailsAndLinks : Prop :=
  (∀ (s : State) (khz : List (Option Nat)) (d : Fin 22) (k : Option Nat) (n : Fin 14) (above : Bool) (p : Int × Int) (ps : List (Int × Int)) (h : Fin 2),
    let set_ := s.setKhz d
    let far := 20 * k.getD 0 < 19 * set_ ∨ 21 * set_ < 20 * k.getD 0
    let runs := SMap.get (fun _ => 0) s.safe.clkRun d
    let trips := s.bit (rk pgPwr 0x128) n = true ∧ ¬ (n.val = 2 ∧ (s.margin = 1 ∨ s.margin = 3))
    let hot := ps.foldl (fun m e => max m (max e.1 e.2)) (max p.1 p.2)
    let diff := ps.foldl (fun m e => max m (e.1 - e.2).natAbs) (p.1 - p.2).natAbs
    let clkKeys := (List.range 22).map (fun d => rk pgClk (0x200 + 4 * d)) ++ [0x144, 0x68, 0x6C].map (rk pgSafe)
    (s.nsNow / 2000 < s.safe.clkAt → ∃ t, exec (.clockMonitor khz) s = .next t ∧ t = s) ∧
    (khz[d.val]? = some k → s.watched d = true → s.safe.clkAt ≤ s.nsNow / 2000 →
      ∃ t, exec (.clockMonitor khz) s = .next t ∧ sameBytes s t ∧ t.rdN (rk pgClk (0x200 + 4 * d)) = k.getD 0 % 2 ^ 32 ∧
        (runs < 2 → k = none ∨ (far ∧ runs = 1) → t.bit (rk pgSafe 0x144) d = true ∧ ∃ f ∈ t.safe.inbox, f.source = 2 ∧ f.inst = d) ∧
        (k ≠ none → ¬ far ∨ runs = 0 → t.bit (rk pgSafe 0x144) d = s.bit (rk pgSafe 0x144) d) ∧ sameRegs s t clkKeys) ∧
    (s.watched d = false → ∃ t, exec (.clockMonitor khz) s = .next t ∧ t.rd (rk pgClk (0x200 + 4 * d)) = s.rd (rk pgClk (0x200 + 4 * d)) ∧
      t.bit (rk pgSafe 0x144) d = s.bit (rk pgSafe 0x144) d) ∧
    (trips → ∃ t, exec (.railTrip n above) s = .next t ∧ sameBytes s t ∧ t.bit (rk pgSafe 0x148) n = true ∧
      t.rd64 (rk pgSafe 0x70) = (s.rd64 (rk pgSafe 0x70) + 1) % 2 ^ 64 ∧ t.bit (rk pgSafe 0x108) 0 = true ∧ t.bit (rk pgSafe 0x104) h = false ∧
      t.safe.inbox = s.safe.inbox ++ [{ source := 3, page := pgPwr, bit := if above then 2 else 1, inst := n, fus := s.now, step := s.bell.step }] ∧
      sameRegs s t ([0x14, 0x70, 0x74, 0x104, 0x108, 0x10C, 0x148].map (rk pgSafe))) ∧
    (¬ trips → ∃ t, exec (.railTrip n above) s = .next t ∧ t = s) ∧
    (s.nsNow / 5000 < s.safe.tempAt → ∃ t, exec (.tempSample (p :: ps)) s = .next t ∧ t = s) ∧
    (¬ (s.pwr.stage = .stopped ∧ s.depth = 3) → s.safe.tempAt ≤ s.nsNow / 5000 → hot < 110 → ∃ t, exec (.tempSample (p :: ps)) s = .next t ∧ sameBytes s t ∧ t.safe.hot = hot ∧
      t.fld (rk pgSafe 0x14C) 7 0 = ofSigned 8 (max (-128) hot) ∧ t.fld (rk pgSafe 0x14C) 15 8 = min 255 diff ∧
      sameRegs s t ([0x78, 0x7C, 0x14C].map (rk pgSafe) ++ [rk (pgHub 0) 0x104, rk (pgHub 1) 0x104])) ∧
    (∃ t, exec (.healthyRefreshLost h) s = .next t ∧ sameBytes s t ∧ t.bit (rk pgSafe 0x104) h = false ∧ t.bit (rk pgSafe 0x104) (1 - h) = s.bit (rk pgSafe 0x104) (1 - h) ∧
      (s.bit (rk pgSafe 0x104) h = true → t.bit (rk pgSafe 0x14) (1 + h) = true) ∧ sameRegs s t [rk pgSafe 0x14, rk pgSafe 0x104])) ∧
  (∀ (s : State) (d : Fin 22) (h : Fin 2),
    let pg := pgHub h
    let plus (t : State) (k : Nat) := t.rd64 k = (s.rd64 k + 1) % 2 ^ 64
    let up := s.bit (rk pg 0x100) 0 = true
    let got (b : Nat) : FaultIn := { source := 0, page := pg, bit := b, inst := 0, fus := s.now, step := s.bell.step }
    (s.bit (rk pgClk 0x100) d = true → ∃ t, exec (.lockLoss d) s = .next t ∧ t.bit (rk pgClk 0x100) d = false ∧ plus t (rk pgClk 0x48) ∧
      t.bit (rk pgClk 0x14) 1 = true ∧ sameBytes s t ∧ sameRegs s t ([0x14, 0x48, 0x4C, 0x100].map (rk pgClk))) ∧
    (s.bit (rk pgClk 0x100) d = false → ∃ t, exec (.lockLoss d) s = .next t ∧ t = s) ∧
    (¬ up → ∃ t, exec (.linkRetrain h true) s = .next t ∧ t = s) ∧
    (up → ∃ t, exec (.linkRetrain h true) s = .next t ∧ plus t (rk pg 0x48) ∧ t.bit (rk pg 0x14) 1 = true ∧ sameBytes s t ∧
      sameRegs s t (rk pg 0x14 :: wide (rk pg 0x48))) ∧
    (up → ∃ t, exec (.linkRetrain h false) s = .next t ∧ t.bit (rk pg 0x100) 0 = false ∧ t.bit (rk pg 0x1C) 0 = true ∧ t.safe.inbox = s.safe.inbox ++ [got 0] ∧
      s.faultClass (got 0) = clsDevice ∧ sameBytes s t ∧ sameRegs s t [rk pg 0x100, rk pg 0x1C]) ∧
    (up → ∃ t, exec (.flitReplay h) s = .next t ∧ plus t (rk pg 0x40) ∧ t.safe.inbox = s.safe.inbox ++ [got 0x81] ∧
      s.faultClass (got 0x81) = clsCorrected ∧ sameBytes s t ∧ sameRegs s t (wide (rk pg 0x40))) ∧
    (¬ up → ∃ t, exec (.flitReplay h) s = .next t ∧ t = s))

/-- R403: CMD_CLEAR_FIRST makes SAFE_FIRST invalid. CMD_INJECT is refused with code 1 outside DEVELOP and with code 3 for kind 0 or a page that takes no
part in Roll Call; kinds 1 and 2 wait for the next round, and a stall is received at once. CMD_UNFENCE_FAB completes at once where nothing is fenced,
lifts every core and router fence while FAB is IDLE and has passed its test, and is refused with code 2 otherwise. -/
def Obligations.SafeTakesItsCommands : Prop :=
  ∀ (s : State) (h : Fin 2),
    let page := s.hostArg h pgSafe 0 % 256
    let kind := s.hostArg h pgSafe 1 % 4
    let unit := s.hostArg h pgSafe 2
    let inst := if page = pgFab then unit % 1024 + (if unit.testBit 16 then 1024 else 0) else 0
    let refused (t : State) (code : Nat) := t.busy pgSafe = false ∧ t.result pgSafe = resRefused ∧ t.rdN (rk pgSafe 0x154) = code ∧ t.safe = s.safe ∧
      sameRegs s t (rk pgSafe 0x154 :: slotKeys h pgSafe)
    let done (t : State) := t.busy pgSafe = false ∧ t.result pgSafe = resDone
    let develop := s.sec.fuses.lifecycle = 1
    let fits := kind ≠ 0 ∧ s.inRollCall page = true
    let none_ := s.coreFences = 0 ∧ s.rtrFences = 0
    let lifts := s.blk pgFab = stIdle ∧ s.safe.fabTested = true
    s.issues h pgSafe = true →
    (∃ t, exec (.cmdClearFirst h) s = .next t ∧ done t ∧ sameBytes s t ∧ (∀ i ∈ List.range 4, t.rd (rk pgSafe (0x110 + 4 * i)) = 0) ∧
      sameRegs s t ((List.range 4).map (fun i => rk pgSafe (0x110 + 4 * i)) ++ slotKeys h pgSafe)) ∧
    (∃ t, exec (.cmdInject h) s = .next t ∧ sameBytes s t ∧ (¬ develop → refused t 1) ∧ (develop → ¬ fits → refused t 3) ∧
      (develop → fits → t.busy pgSafe = true ∧ t.safe.injWait = some (page, if kind = 3 then 4 else kind) ∧
        (kind ≠ 3 → t.safe.inject = some (page, kind) ∧ sameRegs s t (slotKeys h pgSafe)) ∧
        (kind = 3 → t.safe.inbox = s.safe.inbox ++ [{ source := 1, page := page, bit := 4, inst := inst, fus := s.now, step := s.bell.step }] ∧
          sameRegs s t ([0x48, 0x4C, 0x140].map (rk pgSafe) ++ slotKeys h pgSafe)))) ∧
    (∃ t, exec (.cmdUnfenceFab h) s = .next t ∧ sameBytes s t ∧ (none_ → done t ∧ sameRegs s t (slotKeys h pgSafe)) ∧
      (¬ none_ → lifts → done t ∧ t.coreFences = 0 ∧ t.rtrFences = 0 ∧
        sameRegs s t ((List.range 64).map (fun i => rk pgSafe (0x200 + 4 * i)) ++ [0x14, 0x104, 0x108, 0x10C].map (rk pgSafe) ++ slotKeys h pgSafe)) ∧
      (¬ none_ → ¬ lifts → refused t 2))

/-- R355, R406, R414, R429: CMD_STOP from either port takes the deepest depth, no deeper than DEEPEST, whose wake bound is at most TWAKE, and Off only
without a limit; with none it is refused with code 1. In RUN the request starts, and else it takes the pending slot, where a replaced request is
counted. CMD_CANCEL empties the slot for the owner, and completes REFUSED_ROLE for the observer. R411, R414, R416, R417, R423, R426, R427, R464: a
QUAY match is counted; in STOP it starts a wake, which is counted, from Off as at PORST_N, unless COOLANT_OK is deasserted, which refuses it with
cause 0x50 and starts none, in ENTERING it takes the pending slot, and else it starts nothing. 0xA5 in QCMD starts the device as from Off in WAKE_FAIL
only. PAD_RELEASE opens the latches, and the blocks they held run; during EXTEST it waits. EXTEST drives the boundary register about Gate only. -/
def Obligations.StopOrWakeIsAskedFor : Prop :=
  (∀ (s : State) (h : Fin 2) (d : Fin 4),
    let w := s.hostArg h pgPwr 0
    let fits (e : Nat) := e ≤ s.fld (rk pgPwr 0x100) 3 2 ∧ (if e = 3 then w = 0xFFFFFFFF else [50, 3000, 80000].getD e 0 ≤ w)
    let ends (t : State) (res : Nat) := t.busy pgPwr = false ∧ t.result pgPwr = res
    let k := rk pgPwr 0x104
    let slot := slotKeys h pgPwr
    s.reaches h = true → s.slotTakes pgPwr = true →
    ((∀ e ∈ List.range 4, ¬ fits e) → ∃ t, exec (.cmdStop h) s = .next t ∧ ends t resRefused ∧ t.rdN (rk pgPwr 0x134) = 1 ∧ t.pwr = s.pwr ∧
      sameBytes s t ∧ sameRegs s t (rk pgPwr 0x134 :: slot)) ∧
    (fits d → (∀ e ∈ List.range 4, d.val < e → ¬ fits e) → ∃ t, exec (.cmdStop h) s = .next t ∧ ends t resDone ∧ t.rdN (rk pgPwr 0x118) = w ∧ sameBytes s t ∧
      (s.pwrState = 0 → t.pwr.request = some { depth := d, cause := 0, twake := w } ∧ t.pwr.pend = s.pwr.pend ∧ sameRegs s t (rk pgPwr 0x118 :: slot)) ∧
      (s.pwrState ≠ 0 → t.pwr.pend = some { depth := d, cause := 0, twake := w } ∧ t.fld k 8 5 = 1 + 2 * d ∧ t.pwr.request = s.pwr.request ∧
        (s.bit k 5 = true → t.rd64 (rk pgPwr 0x78) = (s.rd64 (rk pgPwr 0x78) + 1) % 2 ^ 64) ∧
        sameRegs s t (k :: rk pgPwr 0x118 :: wide (rk pgPwr 0x78) ++ slot))) ∧
    (∃ t, exec (.cmdCancel h) s = .next t ∧ sameBytes s t ∧
      (s.isOwner h = true → ends t resDone ∧ t.fld k 8 5 = 0 ∧ t.pwr = { s.pwr with pend := none } ∧ sameRegs s t (k :: slot)) ∧
      (s.isOwner h = false → ends t resRole ∧ t.pwr = s.pwr ∧ sameRegs s t slot))) ∧
  (∀ (s : State) (v : Byte) (h : Fin 2) (x : Word) (w : DWord) (q : Fin 64),
    let u := s.pwr
    let plus (t : State) (k : Nat) := t.rd64 k = (s.rd64 k + 1) % 2 ^ 64
    let quay := wide (rk pgQuay 0x40) ++ wide (rk pgQuay 0x48)
    let asleep := s.pwrState = 2 ∧ u.wakeFailed = false ∧ s.depth < 3
    let off := s.pwrState = 2 ∧ u.wakeFailed = false ∧ s.depth = 3
    let opens := x.getLsbD 0 = true ∧ s.bit (rk pgPwr 0x104) 9 = true
    let cnt := wide (rk (pgPort h) 0x48)
    (∃ t, exec .quayMatch s = .next t ∧ (¬ off → plus t (rk pgQuay 0x40)) ∧ (off → t.pwr.stage = .awaitCoolant ∧ t.pwr.full = true ∧ t.pwrState = 0) ∧
      (asleep → s.coolantIn = true → plus t (rk pgQuay 0x48) ∧ t.pwrState = 3 ∧ t.pwr.attempts = 1 ∧ t.pwr.wakeAt = s.nsNow ∧ sameBytes s t ∧
        t.pwr.stage = (if s.depth = 0 then .plls else if s.depth = 1 then .rails else .railUp 4) ∧ sameRegs s t (rk pgPwr 0x104 :: quay)) ∧
      (asleep → s.coolantIn = false → t.pwr = { u with
        coolRefused := true
        aonCause := 0x50 } ∧ sameBytes s t ∧ sameRegs s t (wide (rk pgQuay 0x40))) ∧
      (s.pwrState = 1 → plus t (rk pgQuay 0x48) ∧ t.pwr.pend = none ∧ t.fld (rk pgPwr 0x104) 8 5 = 9 ∧ sameBytes s t) ∧
      (s.pwrState = 0 ∨ s.pwrState = 3 ∨ u.wakeFailed = true ∧ s.pwrState = 2 → t.pwr = u ∧ sameBytes s t ∧ sameRegs s t (wide (rk pgQuay 0x40)))) ∧
    (u.wakeFailed = false ∨ v ≠ 0xA5 → ∃ t, exec (.qcmd v) s = .next t ∧ t = s) ∧
    (u.wakeFailed = true → ∃ t, exec (.qcmd 0xA5) s = .next t ∧ t.pwr.stage = .awaitCoolant ∧ t.pwr.full = true ∧ t.pwr.wakeFailed = false ∧ t.pwrState = 0) ∧
    (s.reaches h = true → ¬ opens → ∃ t, exec (.padRelease h x) s = .next t ∧ sameBytes s t ∧ sameRegs s t cnt) ∧
    (s.reaches h = true → opens → s.sec.extest = true → ∃ t, exec (.padRelease h x) s = .next t ∧ t.pwr = { u with relWait := true } ∧ sameBytes s t ∧
      sameRegs s t cnt) ∧
    (s.reaches h = true → opens → s.sec.extest = false → s.pwrState = 0 →
      ∃ t, exec (.padRelease h x) s = .next t ∧ t.bit (rk pgPwr 0x104) 9 = false ∧ t.pwr.heldRun = [] ∧
        (q.val ∈ u.heldRun → q.val ∈ heldPages → t.blk q = stRunning)) ∧
    (s.extestOk = true ∨ s.sec.extest = true → ∃ t, exec (.extest (some w)) s = .next t ∧ t = { s with sec := { s.sec with
      extest := true
      boundary := w } }) ∧
    (s.extestOk = false → s.sec.extest = false → ∃ t, exec (.extest (some w)) s = .next t ∧ t = s.bypass) ∧
    (u.relWait = false → ∃ t, exec (.extest none) s = .next t ∧ t = { s with sec := { s.sec with extest := false } }))

/-- R397, R404, R407, R409, R410, R414: a Stop entry takes PWR to ENTERING at the request's depth and cause, deasserts both HEALTHY pins, takes every
RUNNING block of R407 that does not refuse to IDLE, and FAB to STOPPING, and keeps the first refusal in page order. Once every block is ready the
drain begins; a block that is not ready after PWR_QUIESCE_TIMEOUT refuses with code 4. A refusal returns PWR to RUN with those blocks RUNNING, is
counted and recorded, and lets a pending Stop start. R407, R409, R414, R416, R428, R462: at the end of the drain nothing is left staged and the entry
goes to its commit, for Cold with the configuration record, unless Thimum is held, which aborts with code 5. The commit without a pending request
takes PWR to STOP with its count, its duration and its event, LPDDR5X in self-refresh and, under MOOR, the pads held; Gate and Retain keep every byte
of device memory. A failed record aborts with code 5, and no acknowledge of self-refresh with code 6. -/
def Obligations.StopIsEnteredOrRefused : Prop :=
  (∀ (s : State) (r : StopReq) (q p : Fin 64) (h : Fin 2) (c : Nat) (abort : Bool),
    let u := s.pwr
    let waits := u.stage = .quiesce ∧ u.refusedBy = none
    let ready := ∀ x ∈ allPages, s.notReady x = false
    let late := s.notReady p = true ∧ u.entryAt + s.fld (rk pgPwr 0x110) 9 0 * 1000 ≤ s.nsNow
    let asked := quiescePages.contains q.val = true
    let cnt := rk pgPwr (if abort then 0x58 else 0x50)
    let byteAt (t : State) := t.fld (rk pgPwr (0x200 + p.val / 4 * 4)) (8 * (p.val % 4) + 7) (8 * (p.val % 4))
    (u.request = none ∨ s.pwrState ≠ 0 ∨ u.stage ≠ .idle → ∃ t, exec .stopEntry s = .next t ∧ t = s) ∧
    (u.request = some r → s.pwrState = 0 → u.stage = .idle → r.depth < 4 → r.cause < 8 →
      ∃ t, exec .stopEntry s = .next t ∧ t.pwrState = 1 ∧ t.depth = r.depth ∧ t.fld (rk pgPwr 0x104) 12 10 = r.cause ∧ t.pwr.stage = .quiesce ∧
        t.pwr.request = none ∧ t.pwr.entryAt = s.nsNow ∧ t.bit (rk pgSafe 0x104) h = false ∧
        t.pwr.refusedBy.map (fun e => (e.1, e.2.1)) = s.refusals.head? ∧
        (asked → s.running q = true → s.refusal q = none →
          t.blk q = (if q.val = pgFab then stStopping else stIdle) ∧ q.val ∈ t.pwr.wasRunning) ∧
        (q.val ≠ pgSys → s.running q = false ∨ asked = false → t.blk q = s.blk q)) ∧
    (waits → ready → ∃ t, exec .quiesceReady s = .next t ∧ t = { s with pwr := { u with
      stage := .drain
      drainAt := s.nsNow } }) ∧
    (¬ (waits ∧ ready) → ∃ t, exec .quiesceReady s = .next t ∧ t = s) ∧
    (waits → late → ∃ t, exec (.quiesceTimeout p) s = .next t ∧ t = { s with pwr := { u with refusedBy := some (p.val, 4, false) } }) ∧
    (¬ (waits ∧ late) → ∃ t, exec (.quiesceTimeout p) s = .next t ∧ t = s) ∧
    (u.refusedBy = none → ∃ t, exec .stopRefused s = .next t ∧ t = s) ∧
    (u.refusedBy = some (p.val, c, abort) → c < 256 →
      ∃ t, exec .stopRefused s = .next t ∧ t.pwrState = 0 ∧ t.pwr.stage = .idle ∧ t.pwr.refusedBy = none ∧
        t.rd64 cnt = (s.rd64 cnt + 1) % 2 ^ 64 ∧ byteAt t = min 255 (byteAt s + 1) ∧
        t.rdN (rk pgPwr 0x124) = 2 ^ 31 + (if abort then 0x10000 else 0) + c * 256 + p ∧ t.bit (rk pgPwr 0x14) 3 = true ∧
        t.pwr.request = u.pend ∧ t.pwr.pend = none ∧
        (asked → q.val ∈ u.wasRunning → q.val ≠ pgFab → t.blk q = stRunning ∧ t.enabled q = true))) ∧
  (∀ (s : State) (h : Fin 2) (r : Fin 5) (x : CommitResult) (a : Nat),
    let u := s.pwr
    let over_ := s.drained = true ∨ u.drainAt + s.fld (rk pgPwr 0x114) 13 0 * 1000 ≤ s.nsNow
    let drains := u.stage = .drain ∧ u.refusedBy = none ∧ over_
    let commits := u.stage = .commit ∧ u.refusedBy = none
    (¬ drains → ∃ t, exec .drainEnd s = .next t ∧ t = s) ∧
    (drains → ∃ t, exec .drainEnd s = .next t ∧ sameBytes s t ∧ ((t.portAt h).ring r).staged = [] ∧ t.stream.tap = [] ∧
      (s.depth = 2 → s.thimumStopped = true → t.pwr.refusedBy = some (pgDbg, 5, true) ∧ t.pwr.stage = .drain) ∧
      (¬ (s.depth = 2 ∧ s.thimumStopped = true) → t.pwr.stage = .commit ∧ t.pwr.refusedBy = none ∧ (s.depth = 2 → t.pwr.record.isSome = true))) ∧
    (¬ commits → ∃ t, exec (.stopCommit x) s = .next t ∧ t = s) ∧
    (commits → s.depth < 3 → s.pending? = false →
      ∃ t, exec (.stopCommit .acknowledged) s = .next t ∧ t.pwrState = 2 ∧ t.depth = s.depth ∧ t.pwr.stage = .stopped ∧ t.bit (rk pgPwr 0x14) 1 = true ∧
        t.rd64 (rk pgPwr 0x40) = (s.rd64 (rk pgPwr 0x40) + 1) % 2 ^ 64 ∧ t.rdN (rk pgPwr 0x11C) = min (s.nsNow - u.entryAt) 0xFFFFFFFF ∧
        (s.bit (rk pgPwr 0x100) 0 = false → t.bit (rk pgPwr 0x104) 9 = true) ∧
        (s.depth < 2 → t.fld (rk pgMem 0x108) 15 8 = 0xFF ∧ sameBytes s t) ∧ (s.depth = 0 → t.time = s.time) ∧ (0 < s.depth → t.time.off = true) ∧
        (s.depth = 2 → (t.portAt h).link = false ∧ (s.planes = [] → a < commonsBase → t.byte a = s.byte a) ∧
          (s.planes = [] → commonsBase ≤ a → a < 0x1000000000000 → t.byte a = 0))) ∧
    (commits → s.depth = 2 → ∃ t, exec (.stopCommit .recordFailed) s = .next t ∧ t = { s with pwr := { u with refusedBy := some (pgDbg, 5, true) } }) ∧
    (commits → s.depth ≠ 3 → ∃ t, exec (.stopCommit .noSelfRefresh) s = .next t ∧ t = { s with pwr := { u with refusedBy := some (pgMem, 6, true) } }))

/-- R412, R413, R414, R416, R417, R421, R491: a wake takes its phases in the order of R412, and a bring-up those of R421: a group's rails come up one by
one, and the last one leads on. At its end every block that ran at entry runs again, but those that MOOR holds, the wake is counted and PWR is in RUN.
A rail's power-good fails 5 ms, and REF 10 ms after its phase began. A failed attempt is counted with its cause and begins again 20 ms later; the fourth leaves the device Off in WAKE_FAIL. -/
def Obligations.DeviceWakesUp : Prop :=
  ∀ (s : State) (n : Fin 14) (cause : Byte) (q : Fin 64) (k : Fin 6),
    let u := s.pwr
    let c := cause.toNat
    let moored := s.bit (rk pgPwr 0x104) 9 = true ∧ q.val ∈ heldPages
    let pg := s.rdN (rk pgPwr 0x128)
    let upNow := ∀ m ∈ railGroup k, m = n.val ∨ pg.testBit m
    let goes (g : PwrStage) (t : State) := t = { s with pwr := { u with
      stage := g
      stageAt := s.nsNow } }
    let begun := u.stageAt ≤ s.nsNow
    let wait := if c < 0x20 then 5000000 else if c = 0x20 then 10000000 else 0
    let fails := causeFits u.stage c = true ∧ u.stageAt + wait ≤ s.nsNow
    (¬ begun → (∃ t, exec .wakePhaseDone s = .next t ∧ t = s) ∧ (∃ t, exec (.railPg n) s = .next t ∧ t = s)) ∧
    (begun → u.stage = .awaitRef → ∃ t, exec .wakePhaseDone s = .next t ∧ goes (.railUp 0) t) ∧
    (begun → u.stage = .rails → ∃ t, exec .wakePhaseDone s = .next t ∧ goes .plls t) ∧
    (begun → u.stage = .restore → ∃ t, exec .wakePhaseDone s = .next t ∧ goes .enable t) ∧
    (begun → u.stage = .plls → u.full = false → ∃ t, exec .wakePhaseDone s = .next t ∧ t.rdN (rk pgClk 0x100) = 0x3FFFFE ∧ t.rdN (rk pgClk 0x104) = 0 ∧
      t.time.off = false ∧ t.pwr.stage = .train ∧ sameBytes s t) ∧
    (begun → u.stage = .train → ∃ t, exec .wakePhaseDone s = .next t ∧ t.fld (rk pgMem 0x108) 15 0 = 0xFF ∧
      t.pwr.stage = (if u.full ∨ s.depth ≠ 0 then .links else .enable)) ∧
    (begun → u.stage = .links → u.full = false → ∃ t, exec .wakePhaseDone s = .next t ∧ t.pwr.stage = (if s.depth = 1 then .restore else .firmware) ∧
      t.rdN (rk (pgHub 0) 0x100) = 5 ∧ t.rdN (rk (pgHub 1) 0x100) = 5 ∧ sameBytes s t) ∧
    (u.stage ∈ [.idle, .quiesce, .drain, .commit, .stopped, .enable, .awaitCoolant, .railUp k] → ∃ t, exec .wakePhaseDone s = .next t ∧ t = s) ∧
    (s.pwrState = 3 → u.stage = .enable →
      ∃ t, exec .wakeDone s = .next t ∧ t.pwrState = 0 ∧ t.pwr.stage = .idle ∧ t.pwr.wasRunning = [] ∧ t.bit (rk pgPwr 0x14) 2 = true ∧
        t.rd64 (rk pgPwr 0x48) = (s.rd64 (rk pgPwr 0x48) + 1) % 2 ^ 64 ∧ t.rdN (rk pgPwr 0x120) = min (s.nsNow - u.wakeAt) 0xFFFFFFFF ∧
        t.pwr.request = u.pend ∧ t.pwr.pend = none ∧
        (q.val ∈ u.wasRunning → quiescePages.contains q.val = true → ¬ moored → t.blk q = stRunning) ∧
        (q.val ∈ u.wasRunning → moored → q.val ∈ t.pwr.heldRun ∧ t.blk q = s.blk q)) ∧
    (s.pwrState ≠ 3 ∨ u.stage ≠ .enable → ∃ t, exec .wakeDone s = .next t ∧ t = s) ∧
    (begun → u.stage = .railUp k → n.val ∈ railGroup k → ∃ t, exec (.railPg n) s = .next t ∧ t.bit (rk pgPwr 0x128) n = true ∧ sameBytes s t ∧
      t.pwr.stage = (if upNow then (if k.val < 5 then .railUp (k + 1) else .plls) else .railUp k) ∧ sameRegs s t [rk pgPwr 0x128]) ∧
    (u.stage = .railUp k → n.val ∉ railGroup k → ∃ t, exec (.railPg n) s = .next t ∧ t = s) ∧
    (¬ fails → ∃ t, exec (.wakeFail cause) s = .next t ∧ t = s) ∧
    (fails → u.attempts < 4 → ∃ t, exec (.wakeFail cause) s = .next t ∧ t.pwr.attempts = u.attempts + 1 ∧ t.pwr.aonCause = c ∧
      t.pwr.stage = firstStage u.full s.depth ∧ t.pwr.stageAt = s.nsNow + 20000000 ∧ t.rd64 (rk pgPwr 0x60) = (s.rd64 (rk pgPwr 0x60) + 1) % 2 ^ 64 ∧ sameBytes s t) ∧
    (fails → 4 ≤ u.attempts → ∃ t, exec (.wakeFail cause) s = .next t ∧ t.pwr.wakeFailed = true ∧ t.pwr.aonCause = c ∧
      t.pwrState = 2 ∧ t.depth = 3 ∧ t.pwr.stage = .stopped)

/-- R308, R479, R488, R492 (values that the spec does not give are the model's, log 12): PORST_N returns every register to its reset value but the straps
it latches and the ports' pins, empties device memory and every counter of time, keeps the fuses, and awaits COOLANT_OK. -/
def Obligations.ResetLeavesTheDevice : Prop :=
  ∀ (s : State) (x : Straps) (a k : Nat),
    let straps := x.hostRole.toNat + x.bootSrc.toNat * 4 + x.quayAddr.toNat * 8
    ∃ t, exec (.porstN x) s = .next t ∧ t.rdN (rk pgSys 0x104) = straps ∧ t.byte a = 0 ∧ t.time.tb0 = 0 ∧ t.time.fus = 0 ∧ t.time.q = 0 ∧
      t.time.source = 0 ∧ t.sec.fuses = s.sec.fuses ∧ t.pwr.stage = .awaitCoolant ∧ t.pending = s.pending ∧ t.bell = State.reset.bell ∧ t.trk = State.reset.trk ∧
      (k ∉ [rk pgSys 0x104, rk (pgPort 0) 0x104, rk (pgPort 1) 0x104] → t.rd k = regReset k)

/-- R395, R422, R423, R424: a loss of COOLANT_OK is timed, and in RUN takes the throttle level to at least 1; its return cancels the timer and lets
power-up go on; 1 s after the loss a Stop to Retain is asked for. The level is evaluated every 100 µs: it rises by one at its entry temperature, falls
by one after ten evaluations 3 K below it, and 104 °C asks for a Stop to Retain. -/
def Obligations.CoolantAndThrottle : Prop :=
  ∀ (s : State) (lostAt : Nat),
    let u := s.pwr
    let level (t : State) := t.fld (rk pgPwr 0x10C) 2 0
    let l := level s
    let hot := s.safe.hot
    let enter (i : Nat) : Int := [0, 95, 98, 101].getD i 104
    let due := s.pwrState = 0 ∧ u.stage = .idle ∧ u.evalAt + 100000 ≤ s.nsNow
    let cool := u.coolantTimer = false
    let cold := 0 < l ∧ hot < enter l - 3
    let cap := [16, 14, 12, 12]
    let keys := [rk pgPwr 0x10C, rk pgClk 0x108, rk pgPwr 0x14] ++ wide (rk pgPwr 0x70)
    let show_ := [0x14, 0x104, 0x108, 0x10C].map (rk pgSafe)
    (s.coolantIn = false → ∃ t, exec .coolantLost s = .next t ∧ t = s) ∧
    (s.coolantIn = true → ∃ t, exec .coolantLost s = .next t ∧ t.coolantIn = false ∧ t.pwr.coolantLostAt = some s.nsNow ∧ sameBytes s t ∧
      (s.pwrState = 0 → t.bit (rk pgPwr 0x14) 5 = true ∧ t.pwr.coolantTimer = true ∧ level t = max 1 l) ∧ sameRegs s t (rk pgPwr 0x130 :: keys ++ show_)) ∧
    (∃ t, exec .coolantOk s = .next t ∧ t.coolantIn = true ∧ t.pwr.coolantLostAt = none ∧ t.pwr.coolantTimer = false ∧ sameBytes s t ∧
      t.pwr.stage = (if u.stage = .awaitCoolant then .awaitRef else u.stage) ∧ sameRegs s t (rk pgPwr 0x130 :: show_)) ∧
    (u.coolantLostAt = none ∨ cool → ∃ t, exec .coolantTimeout s = .next t ∧ t = s) ∧
    (u.coolantLostAt = some lostAt → u.coolantTimer = true → s.nsNow < lostAt + 1000000000 → ∃ t, exec .coolantTimeout s = .next t ∧ t = s) ∧
    (u.coolantLostAt = some lostAt → u.coolantTimer = true → lostAt + 1000000000 ≤ s.nsNow → s.pwrState = 0 →
      ∃ t, exec .coolantTimeout s = .next t ∧ sameBytes s t ∧ sameRegs s t [] ∧ t.pwr = { u with
        coolantTimer := false
        request := some { depth := 1, cause := 2, twake := 0 } }) ∧
    (u.coolantLostAt = some lostAt → u.coolantTimer = true → lostAt + 1000000000 ≤ s.nsNow → s.pwrState = 2 → s.depth = 0 →
      ∃ t, exec .coolantTimeout s = .next t ∧ t.depth = 1 ∧ t.fld (rk pgPwr 0x104) 12 10 = 2 ∧ t.time.off = true ∧ sameBytes s t) ∧
    (¬ due → ∃ t, exec .throttleEval s = .next t ∧ t = s) ∧
    (due → cool → ∃ t, exec .throttleEval s = .next t ∧ sameBytes s t ∧ t.pwr.evalAt = s.nsNow ∧ sameRegs s t keys ∧
      (104 ≤ hot → u.request = none → t.pwr.request = some { depth := 1, cause := 1, twake := 0 }) ∧
      (l < 3 → enter (l + 1) ≤ hot → level t = l + 1 ∧ t.fld (rk pgPwr 0x10C) 9 8 = 1 ∧ t.rdN (rk pgClk 0x108) = cap.getD (l + 1) 12 ∧
        t.rd64 (rk pgPwr 0x70) = (s.rd64 (rk pgPwr 0x70) + 1) % 2 ^ 64 ∧ t.pwr.below = 0) ∧
      (cold → hot < enter (l + 1) → 9 ≤ u.below → level t = l - 1 ∧ t.rdN (rk pgClk 0x108) = cap.getD (l - 1) 12 ∧ t.pwr.below = 0) ∧
      (cold → hot < enter (l + 1) → u.below < 9 → level t = l ∧ t.pwr.below = u.below + 1) ∧
      (¬ cold → hot < enter (l + 1) ∨ 3 ≤ l → level t = l ∧ t.pwr.below = 0))

/-- R434, R436, R437, R439, R442, R449, R450: the ROM's checks in their order, of the image in the NOR at BOOT and of the host's image at SEC_LOAD_BASE at
CMD_BOOT; the first that fails is kept in SEC_BOOT_STATUS, and the ROM waits for the host, or CMD_BOOT is refused with its code. An image that passes
runs: its SVN shows, M1 is extended with its header, and the rollback count stays. In SCRAPPED no image boots. Whether a signature is good is a free
value (log 8). -/
def Obligations.FirmwareIsVerified : Prop :=
  ∀ (s : State) (h : Fin 2) (img : List Byte),
    let f := s.sec.fuses
    let good (x : List Byte) := decide (fieldLE x 12 4 % 64 = 0 ∧ 64 ≤ fieldLE x 12 4 ∧ fieldLE x 12 4 ≤ 0x1000000)
    let code (x : List Byte) : Nat :=
      if fieldLE x 0 4 ≠ 0x5A574657 ∨ fieldLE x 4 2 ≠ 1 ∨ fieldLE x 6 1 ≠ (if f.mlDsa65 then 1 else 0) ∨ good x = false then 1
      else if f.fwKey (fieldLE x 7 1) ((x.drop 128).take f.pkLen) = false then 2
      else if fieldLE x 8 4 < f.rollback then 3
      else if s.sigGood ctxFw (x.take 128) (x.drop 128) = false then 4
      else if sha3 ((x.drop 8192).take (fieldLE x 12 4)) ≠ (x.drop 32).take 32 then 5 else 0
    let status := rk pgSec 0x108
    let a := s.rd64 (rk pgSec 0x118) / 0x1000 * 0x1000
    let body := a + 8192
    let hdr := s.bytes a 8192
    let x := hdr ++ (if good hdr then s.bytes body (fieldLE hdr 12 4) else [])
    let counted (t : State) (y : List Byte) := t.rd64 (rk pgSec 0x40) = (s.rd64 (rk pgSec 0x40) + (if code y = 0 ∨ code y = 5 then 1 else 0)) % 2 ^ 64 ∧
      t.rd64 (rk pgSec 0x48) = (s.rd64 (rk pgSec 0x48) + (if code y = 4 then 1 else 0)) % 2 ^ 64
    let runs (t : State) (y : List Byte) := t.sec.running = true ∧ t.sec.fwImage = y ∧ t.rdN status = 1 + fieldLE y 8 4 % 256 * 65536 ∧
      t.sec.fuses = f ∧ t.measure 1 = sha3 (s.measure 1 ++ sha3 (y.take 128))
    let keys := [status, rk pgSec 0x14, rk pgSec 0x124] ++ wide (rk pgSec 0x40) ++ wide (rk pgSec 0x48) ++ wide (rk pgSec 0x50)
    let waits := s.pwr.stage = .firmware ∧ s.pwr.full = true ∧ s.sec.running = false ∧ f.lifecycle ≠ 4
    (waits → s.fld status 1 0 = 0 → ∃ t, exec (.boot img) s = .next t ∧ sameBytes s t ∧ counted t img ∧ sameRegs s t keys ∧
      (if code img = 0 then runs t img else t.sec = s.sec ∧ t.fld status 15 8 = code img ∧ t.fld status 1 0 = 2)) ∧
    (¬ waits ∨ s.fld status 1 0 ≠ 0 → ∃ t, exec (.boot img) s = .next t ∧ t = s) ∧
    (s.issues h pgSec = true → s.pwrState = 0 → s.tampering = false →
      (f.lifecycle = 4 → ∃ t, exec (.cmdBoot h) s = .next t ∧ t.busy pgSec = false ∧ t.result pgSec = resRefused ∧ t.rdN (rk pgSec 0x120) = 2 ∧
        t.fld status 15 8 = 2 ∧ t.sec = s.sec ∧ sameBytes s t ∧ sameRegs s t (status :: rk pgSec 0x120 :: slotKeys h pgSec)) ∧
      (f.lifecycle ≠ 4 → s.memClean = true → body + 0x1000000 ≤ lpddrEnd →
        ∃ t, exec (.cmdBoot h) s = .next t ∧ t.busy pgSec = false ∧ sameBytes s t ∧ counted t x ∧
          sameRegs s t (keys ++ rk pgSec 0x120 :: wide (rk pgMem 0x40) ++ slotKeys h pgSec) ∧
          (if code x = 0 then runs t x ∧ t.result pgSec = resDone
          else t.sec = s.sec ∧ t.result pgSec = resRefused ∧ t.rdN (rk pgSec 0x120) = code x ∧ t.fld status 15 8 = code x)))

/-- R355, R439, R442, R443, R444, R449, R450: every command of SEC completes REFUSED_ROLE for the observer, and is refused with code 5 outside RUN and
with 6 during a tamper response. CMD_PROVISION and CMD_LIFECYCLE are refused with the first failing condition's code, or start the wipe and stay BUSY
while the fuses are programmed, 40 ms; the end writes the fuses, extends M5 and completes. CMD_REVOKE keeps the last live F slot (a slot above 7: log
57), CMD_SVN_COMMIT takes the running SVN, CMD_EXTEND extends M6 or M7. Whether a return token's signature is good is a free value (log 8). -/
def Obligations.SecTakesItsCommands : Prop :=
  ∀ (s : State) (h : Fin 2) (b : ProvBlock) (j : FuseJob) (v : Nat),
    let f := s.sec.fuses
    let revokes : Bool := match j with
      | .revoke _ => true
      | _ => false
    let err := rk pgSec 0x120
    let slot := slotKeys h pgSec
    let bank := [rk pgCommons 0x100, rk pgCommons 0x104, rk pgCommons 0x120]
    let ends (t : State) (res : Nat) := t.busy pgSec = false ∧ t.result pgSec = res
    let refused (t : State) (c : Nat) := ends t resRefused ∧ t.rdN err = c ∧ sameBytes s t ∧ t.sec = s.sec ∧ sameRegs s t (err :: slot)
    let programs (t : State) (i : FuseJob) := t.busy pgSec = true ∧ sameBytes s t ∧ t.sec.fuses = f ∧ t.sec.job = some i ∧ t.sec.jobAt = s.time.tb0
    let wipes (t : State) := t.rdN (rk pgCommons 0x120) = 2 ∧ t.bit (rk pgCommons 0x100) 1 = true
    let all : List Instr := [.cmdBoot h, .cmdProvision h b, .cmdLifecycle h, .cmdRevoke h, .cmdSvnCommit h, .cmdExtend h]
    let target := s.hostArg h pgSec 0 % 8
    let addr := (s.hostArg h pgSec 1 + s.hostArg h pgSec 2 * 2 ^ 32) % 2 ^ 48
    let tok := s.token (s.bytes addr (tokenLength s))
    let empty (ks : List (List Byte)) := ks.all (·.isEmpty) = true
    let key := s.hostArg h pgSec 0 % 16
    let lastF := (List.range 4).filter (fun k => f.fKeys.getD k [] ≠ [] && !f.fRevoked.testBit k) = [key]
    let i := 6 + s.hostArg h pgSec 0 % 2
    (s.reaches h = true → s.slotTakes pgSec = true →
    (∀ c ∈ all, (s.isOwner h = false → ∃ t, exec c s = .next t ∧ ends t resRole ∧ sameBytes s t ∧ t.sec = s.sec ∧ sameRegs s t slot) ∧
      (s.isOwner h = true → s.pwrState ≠ 0 → ∃ t, exec c s = .next t ∧ refused t 5) ∧
      (s.isOwner h = true → s.pwrState = 0 → s.tampering = true → ∃ t, exec c s = .next t ∧ refused t 6)) ∧
    (s.isOwner h = true → s.pwrState = 0 → s.tampering = false →
      (∃ t, exec (.cmdProvision h b) s = .next t ∧ (f.lifecycle ≠ 0 → refused t 1) ∧
        (f.lifecycle = 0 → programs t (.provision b) ∧ wipes t ∧ sameRegs s t (bank ++ slot))) ∧
      (target = 2 → ∃ t, exec (.cmdLifecycle h) s = .next t ∧ (f.lifecycle ≠ 1 → refused t 1) ∧
        (f.lifecycle = 1 → empty f.fKeys ∨ empty f.mKeys ∨ f.debugKey = [] → refused t 2) ∧
        (f.lifecycle = 1 → ¬ (empty f.fKeys ∨ empty f.mKeys ∨ f.debugKey = []) → s.sec.fwSlot = none → refused t 3) ∧
        (f.lifecycle = 1 → ¬ (empty f.fKeys ∨ empty f.mKeys ∨ f.debugKey = []) → s.sec.fwSlot ≠ none →
          programs t (.lifecycle 2) ∧ wipes t ∧ sameRegs s t (bank ++ slot))) ∧
      (target = 3 → f.lifecycle ≠ 2 → ∃ t, exec (.cmdLifecycle h) s = .next t ∧ refused t 1) ∧
      (target = 3 → f.lifecycle = 2 → s.memClean = true → addr + 8000 ≤ lpddrEnd → ∃ t, exec (.cmdLifecycle h) s = .next t ∧
        sameBytes s t ∧ sameRegs s t (err :: bank ++ slot ++ wide (rk pgMem 0x40) ++ wide (rk pgSec 0x40) ++ wide (rk pgSec 0x48)) ∧
        (if tok.magic = 0x5A574454 ∧ f.mfgKey ≠ [] ∧ f.mfgKey = sha3 tok.key ∧ tok.good = true ∧ tok.device = f.deviceId ∧
            tok.nonce = s.nonce ∧ s.nonce ≠ zeros 32
          then programs t (.lifecycle 3) ∧ wipes t
          else ends t resRefused ∧ t.rdN err = 4 ∧ t.sec = s.sec)) ∧
      (target = 4 → ∃ t, exec (.cmdLifecycle h) s = .next t ∧ (f.lifecycle ≠ 3 → refused t 1) ∧
        (f.lifecycle = 3 → programs t (.lifecycle 4) ∧ wipes t ∧ sameRegs s t (bank ++ slot))) ∧
      (∃ t, exec (.cmdRevoke h) s = .next t ∧ (8 ≤ key → refused t 0) ∧ (lastF → refused t 7) ∧
        (key < 8 → ¬ lastF → programs t (.revoke key) ∧ sameRegs s t slot)) ∧
      (∃ t, exec (.cmdSvnCommit h) s = .next t ∧ ends t resDone ∧ sameBytes s t ∧ sameRegs s t slot ∧
        t.sec.fuses = { f with rollback := max f.rollback (s.fld (rk pgSec 0x108) 23 16) }) ∧
      (s.memClean = true → addr + 32 ≤ lpddrEnd → ∃ t, exec (.cmdExtend h) s = .next t ∧ ends t resDone ∧ sameBytes s t ∧
        t.measure i = sha3 (s.measure i ++ s.bytes addr 32) ∧ (∀ k ∈ List.range 8, k ≠ i → t.measure k = s.measure k) ∧
        t.rd64 (rk pgSec 0x50) = (s.rd64 (rk pgSec 0x50) + 1) % 2 ^ 64 ∧
        (s.sec.log.length < 512 → t.sec.log = s.sec.log ++ [leBytes 1 i ++ [7] ++ zeros 6 ++ leBytes 8 s.time.tb0 ++ zeros 8 ++ s.bytes addr 32 ++ zeros 8]) ∧
        (s.sec.log.length ≥ 512 → t.sec.log = s.sec.log ∧ t.bit (rk pgSec 0x124) 31 = true) ∧
        sameRegs s t ([rk pgSec 0x14, rk pgSec 0x124] ++ wide (rk pgSec 0x50) ++ wide (rk pgMem 0x40) ++ slot)))) ∧
    (s.sec.job = none ∨ (s.sec.job = some j ∧ s.time.tb0 < s.sec.jobAt + 40000000) → ∃ t, exec .fuseProgrammed s = .next t ∧ t = s) ∧
    (s.sec.job = some j → s.sec.jobAt + 40000000 ≤ s.time.tb0 → ∃ t, exec .fuseProgrammed s = .next t ∧ t.sec.job = none ∧ t.busy pgSec = false ∧
      (s.busy pgSec = true → t.result pgSec = resDone) ∧ sameBytes s t ∧
      (j = .lifecycle v → t.sec.fuses = { f with lifecycle := v }) ∧
      (j = .provision b → t.sec.fuses.lifecycle = 1 ∧ t.sec.fuses.mlDsa65 = b.mlDsa65 ∧ t.sec.fuses.debugKey = b.debugKey ∧
        (b.fKeys.length = 4 → t.sec.fuses.fKeys = b.fKeys) ∧ (b.mKeys.length = 4 → t.sec.fuses.mKeys = b.mKeys) ∧ t.sec.fuses.rollback = f.rollback) ∧
      (j = .revoke v → t.sec.fuses = (if v < 4 then { f with fRevoked := f.fRevoked ||| 2 ^ v } else { f with mRevoked := f.mRevoked ||| 2 ^ (v - 4) }) ∧
        t.sec.measures = s.sec.measures) ∧
      (revokes = false → t.bit (rk pgSec 0x14) 1 = true ∧
        t.measure 5 = sha3 (s.measure 5 ++ sha3 (leBytes 1 f.lifecycle ++ leBytes 1 t.sec.fuses.lifecycle))))

/-- R348, R439, R441, R443, R445, R449: a tamper trip is latched and counted, starts the wipe, clears the derived secrets and extends M5 with the detector
and TB0; in PRODUCTION SAFE receives it from source 5; a lifecycle command or CMD_PROVISION that programs fuses completes refused with code 6. A trip during the response is
latched and absorbed; in SCRAPPED and without power it does nothing. An SPDM request of an active port is answered in arrival order, one that is not
supported with ERROR UnsupportedRequest (log 58), is counted and leaves the other port's connection; an answer's body is a free value (log 8). -/
def Obligations.TamperWipesAndReports : Prop :=
  ∀ (s : State) (d : Detector) (h : Fin 2) (r : SpdmReq),
    let n : Nat := match d with
      | .voltage => 0
      | .clock => 1
      | .temperature => 2
    let f := s.sec.fuses
    let bank := [rk pgCommons 0x100, rk pgCommons 0x104, rk pgCommons 0x120]
    let keys := [rk pgSec 0x114, rk pgSec 0x14] ++ wide (rk pgSec 0x60) ++ bank
    let watched := f.lifecycle ≠ 4 ∧ s.blk pgSec ≠ stOff
    let busy := s.tampering = true
    let latched (t : State) := t.bit (rk pgSec 0x114) n = true ∧ t.rd64 (rk pgSec 0x60) = (s.rd64 (rk pgSec 0x60) + 1) % 2 ^ 64 ∧
      t.pwr = { s.pwr with aonCause := 0x70 + n } ∧ t.rdN (rk pgCommons 0x120) = 1 ∧ t.tampering = true ∧ t.bit (rk pgSec 0x14) 2 = true ∧ sameBytes s t
    let conn (u : State) (q : Nat) := SMap.get (fun _ => 0) u.sec.spdmConn q
    let active := (s.portAt h).link = true ∧ s.role h ≠ 3 ∧ s.blk pgSec ≠ stOff ∧ s.pwrState < 2
    let unlike : SpdmReq := .other
    (∃ t, exec (.tamper d) s = .next t ∧ (¬ watched → t = s) ∧
      (watched → busy → latched t ∧ t.safe = s.safe ∧ t.sec = s.sec ∧ sameRegs s t keys) ∧
      (watched → ¬ busy → latched t ∧ t.sec.secrets = false ∧ t.measure 5 = sha3 (s.measure 5 ++ sha3 (leBytes 1 n ++ leBytes 8 s.time.tb0)) ∧
        t.safe.inbox.map (fun e => (e.source, e.page)) = s.safe.inbox.map (fun e => (e.source, e.page)) ++ (if f.lifecycle = 2 then [(5, pgSec)] else []) ∧
        t.sec.fuses = f ∧ t.sec.job = (if s.transiting then none else s.sec.job) ∧
        (s.transiting = true → s.busy pgSec = true → t.busy pgSec = false ∧ t.result pgSec = resRefused ∧ t.rdN (rk pgSec 0x120) = 6) ∧
        sameRegs s t (keys ++ [rk pgSec 0x124, rk pgSec 0x120, rk pgSec 0x2C] ++ wide (rk pgSec 0x50)))) ∧
    (¬ active → ∃ t, exec (.spdmRequest h r) s = .next t ∧ t = s) ∧
    (active → ∃ t, exec (.spdmRequest h r) s = .next t ∧ t.sec.spdmOut.length = s.sec.spdmOut.length + 1 ∧ t.sec.spdmOut.take s.sec.spdmOut.length = s.sec.spdmOut ∧
      (r = unlike → t.sec.spdmOut.getLast? = some [0x13, 0x7F, 0x07, 0x00]) ∧ conn t (1 - h) = conn s (1 - h) ∧
      t.rd64 (rk pgSec 0x58) = (s.rd64 (rk pgSec 0x58) + 1) % 2 ^ 64 ∧ sameBytes s t ∧ t.sec.measures = s.sec.measures ∧ sameRegs s t (wide (rk pgSec 0x58)))

/-- R439, R446, R447, R451, R452: every attempt with a token spends the nonce and leaves the first failing check's code in DBG_ERR, 0 for an accepted
token (a revoked debug key fails as a wrong one does, R433); a refused one is counted and opens nothing. In PRODUCTION an accepted token starts the
wipe, extends M4, drops both HEALTHY pins and opens its scope until the end of its validity; in other states nothing opens that was not open.
CMD_RELOCK and the end of the validity close it and extend M4; CMD_NONCE makes a new nonce. DBG_TOKEN reads the nonce or tries a token, and in
SCRAPPED acts as BYPASS. Tokens' fields, signatures and nonces are free values (logs 3, 8). R446, R448, R451: BYPASS and IDCODE always shift out 0 and
the identification code; SAMPLE/PRELOAD loads the boundary register where boundary scan is open or unlocked, its capture a free value (log 59), and is
BYPASS where it is not. An unpowered TAP shifts nothing. Under scope [2] DBG_HALT.THIMUM is stored, and DBG_HALT.ALL halts every block whose chapter
defines HALT and that is not a halted engine; cleared, it releases those it halted and no other. Without scope [2] in PRODUCTION both writes are
ignored (log 60). -/
def Obligations.DebugIsUnlockedAndHalts : Prop :=
  (∀ (s : State) (h : Fin 2) (bs : List Byte) (e x : Nat),
    let f := s.sec.fuses
    let slot := slotKeys h pgDbg
    let ends (t : State) (res : Nat) := t.busy pgDbg = false ∧ t.result pgDbg = res
    let words := (List.range 8).map (fun i => rk pgDbg (0x120 + 4 * i))
    let first (k : Token) : Nat :=
      if k.magic ≠ 0x5A574454 then 1 else if f.debugKey = [] ∨ f.debugRevoked = true ∨ f.debugKey ≠ sha3 k.key then 2 else if k.good = false then 3
      else if k.device ≠ f.deviceId then 4 else if k.nonce ≠ s.nonce ∨ s.nonce = zeros 32 then 5 else if s.tampering then 6
      else if k.validity = 0 then 7 else 0
    let tried (t : State) (y : List Byte) :=
      let k := s.token y
      t.nonce = zeros 32 ∧ t.rdN (rk pgDbg 0x108) = first k ∧ sameBytes s t ∧ t.sec.fuses = f ∧
      (if first k ≠ 0 then t.rd64 (rk pgDbg 0x48) = (s.rd64 (rk pgDbg 0x48) + 1) % 2 ^ 64 ∧ t.sec = s.sec
      else t.rd64 (rk pgDbg 0x40) = (s.rd64 (rk pgDbg 0x40) + 1) % 2 ^ 64 ∧
        (if f.lifecycle = 2 then t.sec.unlock = some (k.scope, s.time.tb0 + k.validity * 1000000000) ∧ t.rdN (rk pgCommons 0x120) = 3 ∧
          t.bit (rk pgCommons 0x100) 1 = true ∧ t.measure 4 = sha3 (s.measure 4 ++ sha3 (y.take 128)) ∧ t.bit (rk pgDbg 0x14) 1 = true ∧
          t.bit (rk pgSafe 0x104) 0 = false ∧ t.bit (rk pgSafe 0x104) 1 = false
        else t.sec = s.sec))
    let addr := (s.hostArg h pgDbg 0 + s.hostArg h pgDbg 1 * 2 ^ 32) % 2 ^ 48
    let y := s.bytes addr (tokenLength s)
    let closes (t : State) := t.sec.unlock = none ∧ t.measure 4 = sha3 (s.measure 4 ++ sha3 []) ∧ t.bit (rk pgDbg 0x14) 2 = true ∧ sameBytes s t
    let powered := s.tapOn = true
    (s.issues h pgDbg = true →
      (s.memClean = true → addr + 8000 ≤ lpddrEnd → ∃ t, exec (.cmdUnlock h) s = .next t ∧ tried t y ∧
        ends t (if first (s.token y) = 0 then resDone else resRefused)) ∧
      (∃ t, exec (.dbgCmdRelock h) s = .next t ∧ ends t resDone ∧ (s.sec.unlock = none → t.sec = s.sec ∧ sameBytes s t ∧ sameRegs s t slot) ∧
        (s.sec.unlock ≠ none → closes t)) ∧
      (∃ t, exec (.cmdNonce h) s = .next t ∧ ends t resDone ∧ t.nonce = (Config.nonce s.sec.nonces ++ zeros 32).take 32 ∧
        t.sec.nonces = s.sec.nonces + 1 ∧ sameBytes s t ∧ sameRegs s t (words ++ slot))) ∧
    (s.sec.unlock = none ∨ (s.sec.unlock = some (e, x) ∧ s.time.tb0 < x) → ∃ t, exec .unlockExpiry s = .next t ∧ t = s) ∧
    (s.sec.unlock = some (e, x) → x ≤ s.time.tb0 → ∃ t, exec .unlockExpiry s = .next t ∧ closes t) ∧
    (¬ powered → ∃ t, exec (.dbgToken (some bs)) s = .next t ∧ t = s) ∧
    (powered → f.lifecycle = 4 → ∃ t, exec (.dbgToken (some bs)) s = .next t ∧ t = { s with sec := { s.sec with tdr := [0] } }) ∧
    (powered → f.lifecycle ≠ 4 → (∃ t, exec (.dbgToken none) s = .next t ∧ t = { s with sec := { s.sec with tdr := s.nonce } }) ∧
      (∃ t, exec (.dbgToken (some bs)) s = .next t ∧ tried t bs))) ∧
  (∀ (s : State) (h : Fin 2) (v : DWord) (on : Bool) (p : Fin 64),
    let f := s.sec.fuses
    let scope (b : Nat) := f.lifecycle = 0 ∨ f.lifecycle = 1 ∨ f.lifecycle = 3 ∨ s.sec.unlock.any (fun u => u.1.testBit b) = true
    let out (bs : List Byte) : State := { s with sec := { s.sec with tdr := bs } }
    let powered := s.tapOn = true
    let halt := rk pgDbg 0x104
    let cnt := wide (rk (pgPort h) 0x48)
    let stops := (pageKind p).any pageHalt = true
    let none' (t : State) := t.rd halt = s.rd halt ∧ t.bit (rk pgDbg 0x14) 0 = true ∧ t.sec = s.sec ∧ sameBytes s t ∧ sameRegs s t (rk pgDbg 0x14 :: cnt)
    (¬ powered → (∃ t, exec .bypass s = .next t ∧ t = s) ∧ (∃ t, exec .idcode s = .next t ∧ t = s) ∧
      (∃ t, exec (.samplePreload v) s = .next t ∧ t = s)) ∧
    (powered → (∃ t, exec .bypass s = .next t ∧ t = out [0]) ∧ (∃ t, exec .idcode s = .next t ∧ t = out [0x3B, 0x0F, 0x60, 0x19]) ∧
      (¬ scope 0 → ∃ t, exec (.samplePreload v) s = .next t ∧ t = out [0]) ∧
      (scope 0 → ∃ t, exec (.samplePreload v) s = .next t ∧ t.sec.boundary = v ∧ t.sec.tdr.length = 8 ∧ t.regs = s.regs ∧ t.mem = s.mem)) ∧
    (s.reaches h = true → s.isOwner h = true →
      (¬ scope 2 → (∃ t, exec (.dbgHaltThimum h on) s = .next t ∧ none' t) ∧ (∃ t, exec (.dbgHaltAll h on) s = .next t ∧ none' t)) ∧
      (scope 2 → (∃ t, exec (.dbgHaltThimum h on) s = .next t ∧ t.bit halt 0 = on ∧ t.bit halt 1 = s.bit halt 1 ∧ sameBytes s t ∧ sameRegs s t (halt :: cnt)) ∧
        (∃ t, exec (.dbgHaltAll h on) s = .next t ∧ t.bit halt 1 = on ∧ t.bit halt 0 = s.bit halt 0 ∧ sameBytes s t ∧
          (on = true → s.bit halt 1 = false → stops → t.halted p = true ∧ (s.halted p = false → t.sec.haltedByDbg.contains p.val = true)) ∧
          (on = false → stops → (s.sec.haltedByDbg.contains p.val = true → t.halted p = false) ∧
            (s.sec.haltedByDbg.contains p.val = false → t.halted p = s.halted p))))))

/-- R498: BLK_CAPS.TEST reads 1 on the pages that the rule lists, and 0 on every other page. -/
def Obligations.SelfTestPages : Prop :=
  ∀ (s : State) (h : Fin 2) (p : Fin 64),
    let caps := p.val * 0x1000 + 0x08
    let listed := [pgTime, pgMem, pgTT, pgGrid, pgTrk, pgChain, pgEgo, pgFab] ++ (List.range 6).map pgEng ++ (List.range 2).map pgFend ++
      (List.range 16).map pgCsi ++ (List.range 8).map pgEth ++ [pgImu, pgWheel] ++ (List.range 4).map pgCan ++ [pgTrig]
    let others := [pgSys, pgClk, pgPwr, pgSafe, pgSec, pgQuay, pgDbg, pgPort 0, pgPort 1, pgCommons, pgHub 0, pgHub 1, pgStream]
    s.reaches h = true → p.val ∈ listed ∨ p.val ∈ others →
    ∃ t, exec (.latchingRead h caps 4) s = .next t ∧ (t.portAt h).resp = .done ∧
      (p.val ∈ listed → (fieldLE (t.portAt h).data 0 4).testBit 2 = true) ∧ (p.val ∈ others → (fieldLE (t.portAt h).data 0 4).testBit 2 = false) ∧
      sameBytes s t ∧ sameRegs s t (wide (rk (pgPort h) 0x40))

/-- R362, R472 (that commands reach the block through one queue, first in, first out, is the model's form; the idle cycle is log 1): a step of a state
with a command at the front of its queue is exec of that command on the state with the queue's rest; on an empty queue one cycle of TIME passes. -/
def Obligations.StepRunsTheFrontCommand : Prop :=
  (∀ (c : Instr) (q : List Instr) (s : State), s.pending = c :: q → step s = exec c { s with pending := q }) ∧
  (∀ (s : State), s.pending = [] → step s = .next s.idleTick)

/-- R31, R479: right after reset registers, device memory, evidence planes and the track table list nothing that an unlisted entry reads as, and no
command waits. (The form is the model's, log 12.) -/
def Obligations.ResetIsCanonical : Prop :=
  State.reset.canonical = true ∧ State.reset.pending = []

/-- R31, R479 (the form is the model's, log 12): for every state in canonical form a step answers a next state in canonical form, and takes exactly the
command at the front of the queue; no command puts another into the queue. -/
def Obligations.StepKeepsTheCanonicalForm : Prop :=
  ∀ (s : State), s.canonical = true → ∃ t, step s = .next t ∧ t.canonical = true ∧ t.pending = s.pending.tail
end

