-- ==== Sys2Proof/Laws/State.lean ====
section
/-! SUPPORT. What each update of the state leaves alone, field by field. -/

namespace Sys2Proof.Machine

/-! ### `wr` changes registers alone. -/

@[simp] theorem State.wr_pending (s : State) (k : Nat) (v : Word) : (s.wr k v).pending = s.pending := (rfl)
@[simp] theorem State.wr_mem (s : State) (k : Nat) (v : Word) : (s.wr k v).mem = s.mem := (rfl)
@[simp] theorem State.wr_gridMem (s : State) (k : Nat) (v : Word) : (s.wr k v).gridMem = s.gridMem := (rfl)
@[simp] theorem State.wr_planes (s : State) (k : Nat) (v : Word) : (s.wr k v).planes = s.planes := (rfl)
@[simp] theorem State.wr_freeCtr (s : State) (k : Nat) (v : Word) : (s.wr k v).freeCtr = s.freeCtr := (rfl)
@[simp] theorem State.wr_time (s : State) (k : Nat) (v : Word) : (s.wr k v).time = s.time := (rfl)
@[simp] theorem State.wr_csi (s : State) (k : Nat) (v : Word) : (s.wr k v).csi = s.csi := (rfl)
@[simp] theorem State.wr_eth (s : State) (k : Nat) (v : Word) : (s.wr k v).eth = s.eth := (rfl)
@[simp] theorem State.wr_spi (s : State) (k : Nat) (v : Word) : (s.wr k v).spi = s.spi := (rfl)
@[simp] theorem State.wr_wheel (s : State) (k : Nat) (v : Word) : (s.wr k v).wheel = s.wheel := (rfl)
@[simp] theorem State.wr_can (s : State) (k : Nat) (v : Word) : (s.wr k v).can = s.can := (rfl)
@[simp] theorem State.wr_slots (s : State) (k : Nat) (v : Word) : (s.wr k v).slots = s.slots := (rfl)
@[simp] theorem State.wr_fend (s : State) (k : Nat) (v : Word) : (s.wr k v).fend = s.fend := (rfl)
@[simp] theorem State.wr_surfT0 (s : State) (k : Nat) (v : Word) : (s.wr k v).surfT0 = s.surfT0 := (rfl)
@[simp] theorem State.wr_loops (s : State) (k : Nat) (v : Word) : (s.wr k v).loops = s.loops := (rfl)
@[simp] theorem State.wr_cores (s : State) (k : Nat) (v : Word) : (s.wr k v).cores = s.cores := (rfl)
@[simp] theorem State.wr_routers (s : State) (k : Nat) (v : Word) : (s.wr k v).routers = s.routers := (rfl)
@[simp] theorem State.wr_edges (s : State) (k : Nat) (v : Word) : (s.wr k v).edges = s.edges := (rfl)
@[simp] theorem State.wr_bell (s : State) (k : Nat) (v : Word) : (s.wr k v).bell = s.bell := (rfl)
@[simp] theorem State.wr_engines (s : State) (k : Nat) (v : Word) : (s.wr k v).engines = s.engines := (rfl)
@[simp] theorem State.wr_bins (s : State) (k : Nat) (v : Word) : (s.wr k v).bins = s.bins := (rfl)
@[simp] theorem State.wr_tt (s : State) (k : Nat) (v : Word) : (s.wr k v).tt = s.tt := (rfl)
@[simp] theorem State.wr_grid (s : State) (k : Nat) (v : Word) : (s.wr k v).grid = s.grid := (rfl)
@[simp] theorem State.wr_trk (s : State) (k : Nat) (v : Word) : (s.wr k v).trk = s.trk := (rfl)
@[simp] theorem State.wr_chain (s : State) (k : Nat) (v : Word) : (s.wr k v).chain = s.chain := (rfl)
@[simp] theorem State.wr_ego (s : State) (k : Nat) (v : Word) : (s.wr k v).ego = s.ego := (rfl)
@[simp] theorem State.wr_memc (s : State) (k : Nat) (v : Word) : (s.wr k v).memc = s.memc := (rfl)
@[simp] theorem State.wr_ports (s : State) (k : Nat) (v : Word) : (s.wr k v).ports = s.ports := (rfl)
@[simp] theorem State.wr_stream (s : State) (k : Nat) (v : Word) : (s.wr k v).stream = s.stream := (rfl)
@[simp] theorem State.wr_safe (s : State) (k : Nat) (v : Word) : (s.wr k v).safe = s.safe := (rfl)
@[simp] theorem State.wr_pwr (s : State) (k : Nat) (v : Word) : (s.wr k v).pwr = s.pwr := (rfl)
@[simp] theorem State.wr_sec (s : State) (k : Nat) (v : Word) : (s.wr k v).sec = s.sec := (rfl)

/-! ### `wrN` changes registers alone. -/

@[simp] theorem State.wrN_pending (s : State) (k v : Nat) : (s.wrN k v).pending = s.pending := State.wr_pending _ _ _
@[simp] theorem State.wrN_mem (s : State) (k v : Nat) : (s.wrN k v).mem = s.mem := State.wr_mem _ _ _
@[simp] theorem State.wrN_gridMem (s : State) (k v : Nat) : (s.wrN k v).gridMem = s.gridMem := State.wr_gridMem _ _ _
@[simp] theorem State.wrN_planes (s : State) (k v : Nat) : (s.wrN k v).planes = s.planes := State.wr_planes _ _ _
@[simp] theorem State.wrN_freeCtr (s : State) (k v : Nat) : (s.wrN k v).freeCtr = s.freeCtr := State.wr_freeCtr _ _ _
@[simp] theorem State.wrN_time (s : State) (k v : Nat) : (s.wrN k v).time = s.time := State.wr_time _ _ _
@[simp] theorem State.wrN_csi (s : State) (k v : Nat) : (s.wrN k v).csi = s.csi := State.wr_csi _ _ _
@[simp] theorem State.wrN_eth (s : State) (k v : Nat) : (s.wrN k v).eth = s.eth := State.wr_eth _ _ _
@[simp] theorem State.wrN_spi (s : State) (k v : Nat) : (s.wrN k v).spi = s.spi := State.wr_spi _ _ _
@[simp] theorem State.wrN_wheel (s : State) (k v : Nat) : (s.wrN k v).wheel = s.wheel := State.wr_wheel _ _ _
@[simp] theorem State.wrN_can (s : State) (k v : Nat) : (s.wrN k v).can = s.can := State.wr_can _ _ _
@[simp] theorem State.wrN_slots (s : State) (k v : Nat) : (s.wrN k v).slots = s.slots := State.wr_slots _ _ _
@[simp] theorem State.wrN_fend (s : State) (k v : Nat) : (s.wrN k v).fend = s.fend := State.wr_fend _ _ _
@[simp] theorem State.wrN_surfT0 (s : State) (k v : Nat) : (s.wrN k v).surfT0 = s.surfT0 := State.wr_surfT0 _ _ _
@[simp] theorem State.wrN_loops (s : State) (k v : Nat) : (s.wrN k v).loops = s.loops := State.wr_loops _ _ _
@[simp] theorem State.wrN_cores (s : State) (k v : Nat) : (s.wrN k v).cores = s.cores := State.wr_cores _ _ _
@[simp] theorem State.wrN_routers (s : State) (k v : Nat) : (s.wrN k v).routers = s.routers := State.wr_routers _ _ _
@[simp] theorem State.wrN_edges (s : State) (k v : Nat) : (s.wrN k v).edges = s.edges := State.wr_edges _ _ _
@[simp] theorem State.wrN_bell (s : State) (k v : Nat) : (s.wrN k v).bell = s.bell := State.wr_bell _ _ _
@[simp] theorem State.wrN_engines (s : State) (k v : Nat) : (s.wrN k v).engines = s.engines := State.wr_engines _ _ _
@[simp] theorem State.wrN_bins (s : State) (k v : Nat) : (s.wrN k v).bins = s.bins := State.wr_bins _ _ _
@[simp] theorem State.wrN_tt (s : State) (k v : Nat) : (s.wrN k v).tt = s.tt := State.wr_tt _ _ _
@[simp] theorem State.wrN_grid (s : State) (k v : Nat) : (s.wrN k v).grid = s.grid := State.wr_grid _ _ _
@[simp] theorem State.wrN_trk (s : State) (k v : Nat) : (s.wrN k v).trk = s.trk := State.wr_trk _ _ _
@[simp] theorem State.wrN_chain (s : State) (k v : Nat) : (s.wrN k v).chain = s.chain := State.wr_chain _ _ _
@[simp] theorem State.wrN_ego (s : State) (k v : Nat) : (s.wrN k v).ego = s.ego := State.wr_ego _ _ _
@[simp] theorem State.wrN_memc (s : State) (k v : Nat) : (s.wrN k v).memc = s.memc := State.wr_memc _ _ _
@[simp] theorem State.wrN_ports (s : State) (k v : Nat) : (s.wrN k v).ports = s.ports := State.wr_ports _ _ _
@[simp] theorem State.wrN_stream (s : State) (k v : Nat) : (s.wrN k v).stream = s.stream := State.wr_stream _ _ _
@[simp] theorem State.wrN_safe (s : State) (k v : Nat) : (s.wrN k v).safe = s.safe := State.wr_safe _ _ _
@[simp] theorem State.wrN_pwr (s : State) (k v : Nat) : (s.wrN k v).pwr = s.pwr := State.wr_pwr _ _ _
@[simp] theorem State.wrN_sec (s : State) (k v : Nat) : (s.wrN k v).sec = s.sec := State.wr_sec _ _ _

/-! ### `setFld` changes registers alone. -/

@[simp] theorem State.setFld_pending (s : State) (k hi lo v : Nat) : (s.setFld k hi lo v).pending = s.pending := State.wrN_pending _ _ _
@[simp] theorem State.setFld_mem (s : State) (k hi lo v : Nat) : (s.setFld k hi lo v).mem = s.mem := State.wrN_mem _ _ _
@[simp] theorem State.setFld_gridMem (s : State) (k hi lo v : Nat) : (s.setFld k hi lo v).gridMem = s.gridMem := State.wrN_gridMem _ _ _
@[simp] theorem State.setFld_planes (s : State) (k hi lo v : Nat) : (s.setFld k hi lo v).planes = s.planes := State.wrN_planes _ _ _
@[simp] theorem State.setFld_freeCtr (s : State) (k hi lo v : Nat) : (s.setFld k hi lo v).freeCtr = s.freeCtr := State.wrN_freeCtr _ _ _
@[simp] theorem State.setFld_time (s : State) (k hi lo v : Nat) : (s.setFld k hi lo v).time = s.time := State.wrN_time _ _ _
@[simp] theorem State.setFld_csi (s : State) (k hi lo v : Nat) : (s.setFld k hi lo v).csi = s.csi := State.wrN_csi _ _ _
@[simp] theorem State.setFld_eth (s : State) (k hi lo v : Nat) : (s.setFld k hi lo v).eth = s.eth := State.wrN_eth _ _ _
@[simp] theorem State.setFld_spi (s : State) (k hi lo v : Nat) : (s.setFld k hi lo v).spi = s.spi := State.wrN_spi _ _ _
@[simp] theorem State.setFld_wheel (s : State) (k hi lo v : Nat) : (s.setFld k hi lo v).wheel = s.wheel := State.wrN_wheel _ _ _
@[simp] theorem State.setFld_can (s : State) (k hi lo v : Nat) : (s.setFld k hi lo v).can = s.can := State.wrN_can _ _ _
@[simp] theorem State.setFld_slots (s : State) (k hi lo v : Nat) : (s.setFld k hi lo v).slots = s.slots := State.wrN_slots _ _ _
@[simp] theorem State.setFld_fend (s : State) (k hi lo v : Nat) : (s.setFld k hi lo v).fend = s.fend := State.wrN_fend _ _ _
@[simp] theorem State.setFld_surfT0 (s : State) (k hi lo v : Nat) : (s.setFld k hi lo v).surfT0 = s.surfT0 := State.wrN_surfT0 _ _ _
@[simp] theorem State.setFld_loops (s : State) (k hi lo v : Nat) : (s.setFld k hi lo v).loops = s.loops := State.wrN_loops _ _ _
@[simp] theorem State.setFld_cores (s : State) (k hi lo v : Nat) : (s.setFld k hi lo v).cores = s.cores := State.wrN_cores _ _ _
@[simp] theorem State.setFld_routers (s : State) (k hi lo v : Nat) : (s.setFld k hi lo v).routers = s.routers := State.wrN_routers _ _ _
@[simp] theorem State.setFld_edges (s : State) (k hi lo v : Nat) : (s.setFld k hi lo v).edges = s.edges := State.wrN_edges _ _ _
@[simp] theorem State.setFld_bell (s : State) (k hi lo v : Nat) : (s.setFld k hi lo v).bell = s.bell := State.wrN_bell _ _ _
@[simp] theorem State.setFld_engines (s : State) (k hi lo v : Nat) : (s.setFld k hi lo v).engines = s.engines := State.wrN_engines _ _ _
@[simp] theorem State.setFld_bins (s : State) (k hi lo v : Nat) : (s.setFld k hi lo v).bins = s.bins := State.wrN_bins _ _ _
@[simp] theorem State.setFld_tt (s : State) (k hi lo v : Nat) : (s.setFld k hi lo v).tt = s.tt := State.wrN_tt _ _ _
@[simp] theorem State.setFld_grid (s : State) (k hi lo v : Nat) : (s.setFld k hi lo v).grid = s.grid := State.wrN_grid _ _ _
@[simp] theorem State.setFld_trk (s : State) (k hi lo v : Nat) : (s.setFld k hi lo v).trk = s.trk := State.wrN_trk _ _ _
@[simp] theorem State.setFld_chain (s : State) (k hi lo v : Nat) : (s.setFld k hi lo v).chain = s.chain := State.wrN_chain _ _ _
@[simp] theorem State.setFld_ego (s : State) (k hi lo v : Nat) : (s.setFld k hi lo v).ego = s.ego := State.wrN_ego _ _ _
@[simp] theorem State.setFld_memc (s : State) (k hi lo v : Nat) : (s.setFld k hi lo v).memc = s.memc := State.wrN_memc _ _ _
@[simp] theorem State.setFld_ports (s : State) (k hi lo v : Nat) : (s.setFld k hi lo v).ports = s.ports := State.wrN_ports _ _ _
@[simp] theorem State.setFld_stream (s : State) (k hi lo v : Nat) : (s.setFld k hi lo v).stream = s.stream := State.wrN_stream _ _ _
@[simp] theorem State.setFld_safe (s : State) (k hi lo v : Nat) : (s.setFld k hi lo v).safe = s.safe := State.wrN_safe _ _ _
@[simp] theorem State.setFld_pwr (s : State) (k hi lo v : Nat) : (s.setFld k hi lo v).pwr = s.pwr := State.wrN_pwr _ _ _
@[simp] theorem State.setFld_sec (s : State) (k hi lo v : Nat) : (s.setFld k hi lo v).sec = s.sec := State.wrN_sec _ _ _

/-! ### `setBit` changes registers alone. -/

@[simp] theorem State.setBit_pending (s : State) (k b : Nat) (v : Bool) : (s.setBit k b v).pending = s.pending := State.setFld_pending _ _ _ _ _
@[simp] theorem State.setBit_mem (s : State) (k b : Nat) (v : Bool) : (s.setBit k b v).mem = s.mem := State.setFld_mem _ _ _ _ _
@[simp] theorem State.setBit_gridMem (s : State) (k b : Nat) (v : Bool) : (s.setBit k b v).gridMem = s.gridMem := State.setFld_gridMem _ _ _ _ _
@[simp] theorem State.setBit_planes (s : State) (k b : Nat) (v : Bool) : (s.setBit k b v).planes = s.planes := State.setFld_planes _ _ _ _ _
@[simp] theorem State.setBit_freeCtr (s : State) (k b : Nat) (v : Bool) : (s.setBit k b v).freeCtr = s.freeCtr := State.setFld_freeCtr _ _ _ _ _
@[simp] theorem State.setBit_time (s : State) (k b : Nat) (v : Bool) : (s.setBit k b v).time = s.time := State.setFld_time _ _ _ _ _
@[simp] theorem State.setBit_csi (s : State) (k b : Nat) (v : Bool) : (s.setBit k b v).csi = s.csi := State.setFld_csi _ _ _ _ _
@[simp] theorem State.setBit_eth (s : State) (k b : Nat) (v : Bool) : (s.setBit k b v).eth = s.eth := State.setFld_eth _ _ _ _ _
@[simp] theorem State.setBit_spi (s : State) (k b : Nat) (v : Bool) : (s.setBit k b v).spi = s.spi := State.setFld_spi _ _ _ _ _
@[simp] theorem State.setBit_wheel (s : State) (k b : Nat) (v : Bool) : (s.setBit k b v).wheel = s.wheel := State.setFld_wheel _ _ _ _ _
@[simp] theorem State.setBit_can (s : State) (k b : Nat) (v : Bool) : (s.setBit k b v).can = s.can := State.setFld_can _ _ _ _ _
@[simp] theorem State.setBit_slots (s : State) (k b : Nat) (v : Bool) : (s.setBit k b v).slots = s.slots := State.setFld_slots _ _ _ _ _
@[simp] theorem State.setBit_fend (s : State) (k b : Nat) (v : Bool) : (s.setBit k b v).fend = s.fend := State.setFld_fend _ _ _ _ _
@[simp] theorem State.setBit_surfT0 (s : State) (k b : Nat) (v : Bool) : (s.setBit k b v).surfT0 = s.surfT0 := State.setFld_surfT0 _ _ _ _ _
@[simp] theorem State.setBit_loops (s : State) (k b : Nat) (v : Bool) : (s.setBit k b v).loops = s.loops := State.setFld_loops _ _ _ _ _
@[simp] theorem State.setBit_cores (s : State) (k b : Nat) (v : Bool) : (s.setBit k b v).cores = s.cores := State.setFld_cores _ _ _ _ _
@[simp] theorem State.setBit_routers (s : State) (k b : Nat) (v : Bool) : (s.setBit k b v).routers = s.routers := State.setFld_routers _ _ _ _ _
@[simp] theorem State.setBit_edges (s : State) (k b : Nat) (v : Bool) : (s.setBit k b v).edges = s.edges := State.setFld_edges _ _ _ _ _
@[simp] theorem State.setBit_bell (s : State) (k b : Nat) (v : Bool) : (s.setBit k b v).bell = s.bell := State.setFld_bell _ _ _ _ _
@[simp] theorem State.setBit_engines (s : State) (k b : Nat) (v : Bool) : (s.setBit k b v).engines = s.engines := State.setFld_engines _ _ _ _ _
@[simp] theorem State.setBit_bins (s : State) (k b : Nat) (v : Bool) : (s.setBit k b v).bins = s.bins := State.setFld_bins _ _ _ _ _
@[simp] theorem State.setBit_tt (s : State) (k b : Nat) (v : Bool) : (s.setBit k b v).tt = s.tt := State.setFld_tt _ _ _ _ _
@[simp] theorem State.setBit_grid (s : State) (k b : Nat) (v : Bool) : (s.setBit k b v).grid = s.grid := State.setFld_grid _ _ _ _ _
@[simp] theorem State.setBit_trk (s : State) (k b : Nat) (v : Bool) : (s.setBit k b v).trk = s.trk := State.setFld_trk _ _ _ _ _
@[simp] theorem State.setBit_chain (s : State) (k b : Nat) (v : Bool) : (s.setBit k b v).chain = s.chain := State.setFld_chain _ _ _ _ _
@[simp] theorem State.setBit_ego (s : State) (k b : Nat) (v : Bool) : (s.setBit k b v).ego = s.ego := State.setFld_ego _ _ _ _ _
@[simp] theorem State.setBit_memc (s : State) (k b : Nat) (v : Bool) : (s.setBit k b v).memc = s.memc := State.setFld_memc _ _ _ _ _
@[simp] theorem State.setBit_ports (s : State) (k b : Nat) (v : Bool) : (s.setBit k b v).ports = s.ports := State.setFld_ports _ _ _ _ _
@[simp] theorem State.setBit_stream (s : State) (k b : Nat) (v : Bool) : (s.setBit k b v).stream = s.stream := State.setFld_stream _ _ _ _ _
@[simp] theorem State.setBit_safe (s : State) (k b : Nat) (v : Bool) : (s.setBit k b v).safe = s.safe := State.setFld_safe _ _ _ _ _
@[simp] theorem State.setBit_pwr (s : State) (k b : Nat) (v : Bool) : (s.setBit k b v).pwr = s.pwr := State.setFld_pwr _ _ _ _ _
@[simp] theorem State.setBit_sec (s : State) (k b : Nat) (v : Bool) : (s.setBit k b v).sec = s.sec := State.setFld_sec _ _ _ _ _

/-! ### `wr64` changes registers alone. -/

@[simp] theorem State.wr64_pending (s : State) (k v : Nat) : (s.wr64 k v).pending = s.pending := (State.wrN_pending _ _ _).trans (State.wrN_pending _ _ _)
@[simp] theorem State.wr64_mem (s : State) (k v : Nat) : (s.wr64 k v).mem = s.mem := (State.wrN_mem _ _ _).trans (State.wrN_mem _ _ _)
@[simp] theorem State.wr64_gridMem (s : State) (k v : Nat) : (s.wr64 k v).gridMem = s.gridMem := (State.wrN_gridMem _ _ _).trans (State.wrN_gridMem _ _ _)
@[simp] theorem State.wr64_planes (s : State) (k v : Nat) : (s.wr64 k v).planes = s.planes := (State.wrN_planes _ _ _).trans (State.wrN_planes _ _ _)
@[simp] theorem State.wr64_freeCtr (s : State) (k v : Nat) : (s.wr64 k v).freeCtr = s.freeCtr := (State.wrN_freeCtr _ _ _).trans (State.wrN_freeCtr _ _ _)
@[simp] theorem State.wr64_time (s : State) (k v : Nat) : (s.wr64 k v).time = s.time := (State.wrN_time _ _ _).trans (State.wrN_time _ _ _)
@[simp] theorem State.wr64_csi (s : State) (k v : Nat) : (s.wr64 k v).csi = s.csi := (State.wrN_csi _ _ _).trans (State.wrN_csi _ _ _)
@[simp] theorem State.wr64_eth (s : State) (k v : Nat) : (s.wr64 k v).eth = s.eth := (State.wrN_eth _ _ _).trans (State.wrN_eth _ _ _)
@[simp] theorem State.wr64_spi (s : State) (k v : Nat) : (s.wr64 k v).spi = s.spi := (State.wrN_spi _ _ _).trans (State.wrN_spi _ _ _)
@[simp] theorem State.wr64_wheel (s : State) (k v : Nat) : (s.wr64 k v).wheel = s.wheel := (State.wrN_wheel _ _ _).trans (State.wrN_wheel _ _ _)
@[simp] theorem State.wr64_can (s : State) (k v : Nat) : (s.wr64 k v).can = s.can := (State.wrN_can _ _ _).trans (State.wrN_can _ _ _)
@[simp] theorem State.wr64_slots (s : State) (k v : Nat) : (s.wr64 k v).slots = s.slots := (State.wrN_slots _ _ _).trans (State.wrN_slots _ _ _)
@[simp] theorem State.wr64_fend (s : State) (k v : Nat) : (s.wr64 k v).fend = s.fend := (State.wrN_fend _ _ _).trans (State.wrN_fend _ _ _)
@[simp] theorem State.wr64_surfT0 (s : State) (k v : Nat) : (s.wr64 k v).surfT0 = s.surfT0 := (State.wrN_surfT0 _ _ _).trans (State.wrN_surfT0 _ _ _)
@[simp] theorem State.wr64_loops (s : State) (k v : Nat) : (s.wr64 k v).loops = s.loops := (State.wrN_loops _ _ _).trans (State.wrN_loops _ _ _)
@[simp] theorem State.wr64_cores (s : State) (k v : Nat) : (s.wr64 k v).cores = s.cores := (State.wrN_cores _ _ _).trans (State.wrN_cores _ _ _)
@[simp] theorem State.wr64_routers (s : State) (k v : Nat) : (s.wr64 k v).routers = s.routers := (State.wrN_routers _ _ _).trans (State.wrN_routers _ _ _)
@[simp] theorem State.wr64_edges (s : State) (k v : Nat) : (s.wr64 k v).edges = s.edges := (State.wrN_edges _ _ _).trans (State.wrN_edges _ _ _)
@[simp] theorem State.wr64_bell (s : State) (k v : Nat) : (s.wr64 k v).bell = s.bell := (State.wrN_bell _ _ _).trans (State.wrN_bell _ _ _)
@[simp] theorem State.wr64_engines (s : State) (k v : Nat) : (s.wr64 k v).engines = s.engines := (State.wrN_engines _ _ _).trans (State.wrN_engines _ _ _)
@[simp] theorem State.wr64_bins (s : State) (k v : Nat) : (s.wr64 k v).bins = s.bins := (State.wrN_bins _ _ _).trans (State.wrN_bins _ _ _)
@[simp] theorem State.wr64_tt (s : State) (k v : Nat) : (s.wr64 k v).tt = s.tt := (State.wrN_tt _ _ _).trans (State.wrN_tt _ _ _)
@[simp] theorem State.wr64_grid (s : State) (k v : Nat) : (s.wr64 k v).grid = s.grid := (State.wrN_grid _ _ _).trans (State.wrN_grid _ _ _)
@[simp] theorem State.wr64_trk (s : State) (k v : Nat) : (s.wr64 k v).trk = s.trk := (State.wrN_trk _ _ _).trans (State.wrN_trk _ _ _)
@[simp] theorem State.wr64_chain (s : State) (k v : Nat) : (s.wr64 k v).chain = s.chain := (State.wrN_chain _ _ _).trans (State.wrN_chain _ _ _)
@[simp] theorem State.wr64_ego (s : State) (k v : Nat) : (s.wr64 k v).ego = s.ego := (State.wrN_ego _ _ _).trans (State.wrN_ego _ _ _)
@[simp] theorem State.wr64_memc (s : State) (k v : Nat) : (s.wr64 k v).memc = s.memc := (State.wrN_memc _ _ _).trans (State.wrN_memc _ _ _)
@[simp] theorem State.wr64_ports (s : State) (k v : Nat) : (s.wr64 k v).ports = s.ports := (State.wrN_ports _ _ _).trans (State.wrN_ports _ _ _)
@[simp] theorem State.wr64_stream (s : State) (k v : Nat) : (s.wr64 k v).stream = s.stream := (State.wrN_stream _ _ _).trans (State.wrN_stream _ _ _)
@[simp] theorem State.wr64_safe (s : State) (k v : Nat) : (s.wr64 k v).safe = s.safe := (State.wrN_safe _ _ _).trans (State.wrN_safe _ _ _)
@[simp] theorem State.wr64_pwr (s : State) (k v : Nat) : (s.wr64 k v).pwr = s.pwr := (State.wrN_pwr _ _ _).trans (State.wrN_pwr _ _ _)
@[simp] theorem State.wr64_sec (s : State) (k v : Nat) : (s.wr64 k v).sec = s.sec := (State.wrN_sec _ _ _).trans (State.wrN_sec _ _ _)

/-! ### `bump` changes registers alone. -/

@[simp] theorem State.bump_pending (s : State) (k n : Nat) : (s.bump k n).pending = s.pending := State.wr64_pending _ _ _
@[simp] theorem State.bump_mem (s : State) (k n : Nat) : (s.bump k n).mem = s.mem := State.wr64_mem _ _ _
@[simp] theorem State.bump_gridMem (s : State) (k n : Nat) : (s.bump k n).gridMem = s.gridMem := State.wr64_gridMem _ _ _
@[simp] theorem State.bump_planes (s : State) (k n : Nat) : (s.bump k n).planes = s.planes := State.wr64_planes _ _ _
@[simp] theorem State.bump_freeCtr (s : State) (k n : Nat) : (s.bump k n).freeCtr = s.freeCtr := State.wr64_freeCtr _ _ _
@[simp] theorem State.bump_time (s : State) (k n : Nat) : (s.bump k n).time = s.time := State.wr64_time _ _ _
@[simp] theorem State.bump_csi (s : State) (k n : Nat) : (s.bump k n).csi = s.csi := State.wr64_csi _ _ _
@[simp] theorem State.bump_eth (s : State) (k n : Nat) : (s.bump k n).eth = s.eth := State.wr64_eth _ _ _
@[simp] theorem State.bump_spi (s : State) (k n : Nat) : (s.bump k n).spi = s.spi := State.wr64_spi _ _ _
@[simp] theorem State.bump_wheel (s : State) (k n : Nat) : (s.bump k n).wheel = s.wheel := State.wr64_wheel _ _ _
@[simp] theorem State.bump_can (s : State) (k n : Nat) : (s.bump k n).can = s.can := State.wr64_can _ _ _
@[simp] theorem State.bump_slots (s : State) (k n : Nat) : (s.bump k n).slots = s.slots := State.wr64_slots _ _ _
@[simp] theorem State.bump_fend (s : State) (k n : Nat) : (s.bump k n).fend = s.fend := State.wr64_fend _ _ _
@[simp] theorem State.bump_surfT0 (s : State) (k n : Nat) : (s.bump k n).surfT0 = s.surfT0 := State.wr64_surfT0 _ _ _
@[simp] theorem State.bump_loops (s : State) (k n : Nat) : (s.bump k n).loops = s.loops := State.wr64_loops _ _ _
@[simp] theorem State.bump_cores (s : State) (k n : Nat) : (s.bump k n).cores = s.cores := State.wr64_cores _ _ _
@[simp] theorem State.bump_routers (s : State) (k n : Nat) : (s.bump k n).routers = s.routers := State.wr64_routers _ _ _
@[simp] theorem State.bump_edges (s : State) (k n : Nat) : (s.bump k n).edges = s.edges := State.wr64_edges _ _ _
@[simp] theorem State.bump_bell (s : State) (k n : Nat) : (s.bump k n).bell = s.bell := State.wr64_bell _ _ _
@[simp] theorem State.bump_engines (s : State) (k n : Nat) : (s.bump k n).engines = s.engines := State.wr64_engines _ _ _
@[simp] theorem State.bump_bins (s : State) (k n : Nat) : (s.bump k n).bins = s.bins := State.wr64_bins _ _ _
@[simp] theorem State.bump_tt (s : State) (k n : Nat) : (s.bump k n).tt = s.tt := State.wr64_tt _ _ _
@[simp] theorem State.bump_grid (s : State) (k n : Nat) : (s.bump k n).grid = s.grid := State.wr64_grid _ _ _
@[simp] theorem State.bump_trk (s : State) (k n : Nat) : (s.bump k n).trk = s.trk := State.wr64_trk _ _ _
@[simp] theorem State.bump_chain (s : State) (k n : Nat) : (s.bump k n).chain = s.chain := State.wr64_chain _ _ _
@[simp] theorem State.bump_ego (s : State) (k n : Nat) : (s.bump k n).ego = s.ego := State.wr64_ego _ _ _
@[simp] theorem State.bump_memc (s : State) (k n : Nat) : (s.bump k n).memc = s.memc := State.wr64_memc _ _ _
@[simp] theorem State.bump_ports (s : State) (k n : Nat) : (s.bump k n).ports = s.ports := State.wr64_ports _ _ _
@[simp] theorem State.bump_stream (s : State) (k n : Nat) : (s.bump k n).stream = s.stream := State.wr64_stream _ _ _
@[simp] theorem State.bump_safe (s : State) (k n : Nat) : (s.bump k n).safe = s.safe := State.wr64_safe _ _ _
@[simp] theorem State.bump_pwr (s : State) (k n : Nat) : (s.bump k n).pwr = s.pwr := State.wr64_pwr _ _ _
@[simp] theorem State.bump_sec (s : State) (k n : Nat) : (s.bump k n).sec = s.sec := State.wr64_sec _ _ _

/-! ### `sat` changes registers alone. -/

@[simp] theorem State.sat_pending (s : State) (k n : Nat) : (s.sat k n).pending = s.pending := State.wrN_pending _ _ _
@[simp] theorem State.sat_mem (s : State) (k n : Nat) : (s.sat k n).mem = s.mem := State.wrN_mem _ _ _
@[simp] theorem State.sat_gridMem (s : State) (k n : Nat) : (s.sat k n).gridMem = s.gridMem := State.wrN_gridMem _ _ _
@[simp] theorem State.sat_planes (s : State) (k n : Nat) : (s.sat k n).planes = s.planes := State.wrN_planes _ _ _
@[simp] theorem State.sat_freeCtr (s : State) (k n : Nat) : (s.sat k n).freeCtr = s.freeCtr := State.wrN_freeCtr _ _ _
@[simp] theorem State.sat_time (s : State) (k n : Nat) : (s.sat k n).time = s.time := State.wrN_time _ _ _
@[simp] theorem State.sat_csi (s : State) (k n : Nat) : (s.sat k n).csi = s.csi := State.wrN_csi _ _ _
@[simp] theorem State.sat_eth (s : State) (k n : Nat) : (s.sat k n).eth = s.eth := State.wrN_eth _ _ _
@[simp] theorem State.sat_spi (s : State) (k n : Nat) : (s.sat k n).spi = s.spi := State.wrN_spi _ _ _
@[simp] theorem State.sat_wheel (s : State) (k n : Nat) : (s.sat k n).wheel = s.wheel := State.wrN_wheel _ _ _
@[simp] theorem State.sat_can (s : State) (k n : Nat) : (s.sat k n).can = s.can := State.wrN_can _ _ _
@[simp] theorem State.sat_slots (s : State) (k n : Nat) : (s.sat k n).slots = s.slots := State.wrN_slots _ _ _
@[simp] theorem State.sat_fend (s : State) (k n : Nat) : (s.sat k n).fend = s.fend := State.wrN_fend _ _ _
@[simp] theorem State.sat_surfT0 (s : State) (k n : Nat) : (s.sat k n).surfT0 = s.surfT0 := State.wrN_surfT0 _ _ _
@[simp] theorem State.sat_loops (s : State) (k n : Nat) : (s.sat k n).loops = s.loops := State.wrN_loops _ _ _
@[simp] theorem State.sat_cores (s : State) (k n : Nat) : (s.sat k n).cores = s.cores := State.wrN_cores _ _ _
@[simp] theorem State.sat_routers (s : State) (k n : Nat) : (s.sat k n).routers = s.routers := State.wrN_routers _ _ _
@[simp] theorem State.sat_edges (s : State) (k n : Nat) : (s.sat k n).edges = s.edges := State.wrN_edges _ _ _
@[simp] theorem State.sat_bell (s : State) (k n : Nat) : (s.sat k n).bell = s.bell := State.wrN_bell _ _ _
@[simp] theorem State.sat_engines (s : State) (k n : Nat) : (s.sat k n).engines = s.engines := State.wrN_engines _ _ _
@[simp] theorem State.sat_bins (s : State) (k n : Nat) : (s.sat k n).bins = s.bins := State.wrN_bins _ _ _
@[simp] theorem State.sat_tt (s : State) (k n : Nat) : (s.sat k n).tt = s.tt := State.wrN_tt _ _ _
@[simp] theorem State.sat_grid (s : State) (k n : Nat) : (s.sat k n).grid = s.grid := State.wrN_grid _ _ _
@[simp] theorem State.sat_trk (s : State) (k n : Nat) : (s.sat k n).trk = s.trk := State.wrN_trk _ _ _
@[simp] theorem State.sat_chain (s : State) (k n : Nat) : (s.sat k n).chain = s.chain := State.wrN_chain _ _ _
@[simp] theorem State.sat_ego (s : State) (k n : Nat) : (s.sat k n).ego = s.ego := State.wrN_ego _ _ _
@[simp] theorem State.sat_memc (s : State) (k n : Nat) : (s.sat k n).memc = s.memc := State.wrN_memc _ _ _
@[simp] theorem State.sat_ports (s : State) (k n : Nat) : (s.sat k n).ports = s.ports := State.wrN_ports _ _ _
@[simp] theorem State.sat_stream (s : State) (k n : Nat) : (s.sat k n).stream = s.stream := State.wrN_stream _ _ _
@[simp] theorem State.sat_safe (s : State) (k n : Nat) : (s.sat k n).safe = s.safe := State.wrN_safe _ _ _
@[simp] theorem State.sat_pwr (s : State) (k n : Nat) : (s.sat k n).pwr = s.pwr := State.wrN_pwr _ _ _
@[simp] theorem State.sat_sec (s : State) (k n : Nat) : (s.sat k n).sec = s.sec := State.wrN_sec _ _ _

/-! ### `setCsi` -/

@[simp] theorem State.setCsi_pending (s : State) (p : Nat) (v : CsiPort) : (s.setCsi p v).pending = s.pending := (rfl)
@[simp] theorem State.setCsi_regs (s : State) (p : Nat) (v : CsiPort) : (s.setCsi p v).regs = s.regs := (rfl)
@[simp] theorem State.setCsi_mem (s : State) (p : Nat) (v : CsiPort) : (s.setCsi p v).mem = s.mem := (rfl)
@[simp] theorem State.setCsi_gridMem (s : State) (p : Nat) (v : CsiPort) : (s.setCsi p v).gridMem = s.gridMem := (rfl)
@[simp] theorem State.setCsi_planes (s : State) (p : Nat) (v : CsiPort) : (s.setCsi p v).planes = s.planes := (rfl)
@[simp] theorem State.setCsi_freeCtr (s : State) (p : Nat) (v : CsiPort) : (s.setCsi p v).freeCtr = s.freeCtr := (rfl)
@[simp] theorem State.setCsi_time (s : State) (p : Nat) (v : CsiPort) : (s.setCsi p v).time = s.time := (rfl)
@[simp] theorem State.setCsi_eth (s : State) (p : Nat) (v : CsiPort) : (s.setCsi p v).eth = s.eth := (rfl)
@[simp] theorem State.setCsi_spi (s : State) (p : Nat) (v : CsiPort) : (s.setCsi p v).spi = s.spi := (rfl)
@[simp] theorem State.setCsi_wheel (s : State) (p : Nat) (v : CsiPort) : (s.setCsi p v).wheel = s.wheel := (rfl)
@[simp] theorem State.setCsi_can (s : State) (p : Nat) (v : CsiPort) : (s.setCsi p v).can = s.can := (rfl)
@[simp] theorem State.setCsi_slots (s : State) (p : Nat) (v : CsiPort) : (s.setCsi p v).slots = s.slots := (rfl)
@[simp] theorem State.setCsi_fend (s : State) (p : Nat) (v : CsiPort) : (s.setCsi p v).fend = s.fend := (rfl)
@[simp] theorem State.setCsi_surfT0 (s : State) (p : Nat) (v : CsiPort) : (s.setCsi p v).surfT0 = s.surfT0 := (rfl)
@[simp] theorem State.setCsi_loops (s : State) (p : Nat) (v : CsiPort) : (s.setCsi p v).loops = s.loops := (rfl)
@[simp] theorem State.setCsi_cores (s : State) (p : Nat) (v : CsiPort) : (s.setCsi p v).cores = s.cores := (rfl)
@[simp] theorem State.setCsi_routers (s : State) (p : Nat) (v : CsiPort) : (s.setCsi p v).routers = s.routers := (rfl)
@[simp] theorem State.setCsi_edges (s : State) (p : Nat) (v : CsiPort) : (s.setCsi p v).edges = s.edges := (rfl)
@[simp] theorem State.setCsi_bell (s : State) (p : Nat) (v : CsiPort) : (s.setCsi p v).bell = s.bell := (rfl)
@[simp] theorem State.setCsi_engines (s : State) (p : Nat) (v : CsiPort) : (s.setCsi p v).engines = s.engines := (rfl)
@[simp] theorem State.setCsi_bins (s : State) (p : Nat) (v : CsiPort) : (s.setCsi p v).bins = s.bins := (rfl)
@[simp] theorem State.setCsi_tt (s : State) (p : Nat) (v : CsiPort) : (s.setCsi p v).tt = s.tt := (rfl)
@[simp] theorem State.setCsi_grid (s : State) (p : Nat) (v : CsiPort) : (s.setCsi p v).grid = s.grid := (rfl)
@[simp] theorem State.setCsi_trk (s : State) (p : Nat) (v : CsiPort) : (s.setCsi p v).trk = s.trk := (rfl)
@[simp] theorem State.setCsi_chain (s : State) (p : Nat) (v : CsiPort) : (s.setCsi p v).chain = s.chain := (rfl)
@[simp] theorem State.setCsi_ego (s : State) (p : Nat) (v : CsiPort) : (s.setCsi p v).ego = s.ego := (rfl)
@[simp] theorem State.setCsi_memc (s : State) (p : Nat) (v : CsiPort) : (s.setCsi p v).memc = s.memc := (rfl)
@[simp] theorem State.setCsi_ports (s : State) (p : Nat) (v : CsiPort) : (s.setCsi p v).ports = s.ports := (rfl)
@[simp] theorem State.setCsi_stream (s : State) (p : Nat) (v : CsiPort) : (s.setCsi p v).stream = s.stream := (rfl)
@[simp] theorem State.setCsi_safe (s : State) (p : Nat) (v : CsiPort) : (s.setCsi p v).safe = s.safe := (rfl)
@[simp] theorem State.setCsi_pwr (s : State) (p : Nat) (v : CsiPort) : (s.setCsi p v).pwr = s.pwr := (rfl)
@[simp] theorem State.setCsi_sec (s : State) (p : Nat) (v : CsiPort) : (s.setCsi p v).sec = s.sec := (rfl)

/-! ### `setEth` -/

@[simp] theorem State.setEth_pending (s : State) (p : Nat) (v : EthPort) : (s.setEth p v).pending = s.pending := (rfl)
@[simp] theorem State.setEth_regs (s : State) (p : Nat) (v : EthPort) : (s.setEth p v).regs = s.regs := (rfl)
@[simp] theorem State.setEth_mem (s : State) (p : Nat) (v : EthPort) : (s.setEth p v).mem = s.mem := (rfl)
@[simp] theorem State.setEth_gridMem (s : State) (p : Nat) (v : EthPort) : (s.setEth p v).gridMem = s.gridMem := (rfl)
@[simp] theorem State.setEth_planes (s : State) (p : Nat) (v : EthPort) : (s.setEth p v).planes = s.planes := (rfl)
@[simp] theorem State.setEth_freeCtr (s : State) (p : Nat) (v : EthPort) : (s.setEth p v).freeCtr = s.freeCtr := (rfl)
@[simp] theorem State.setEth_time (s : State) (p : Nat) (v : EthPort) : (s.setEth p v).time = s.time := (rfl)
@[simp] theorem State.setEth_csi (s : State) (p : Nat) (v : EthPort) : (s.setEth p v).csi = s.csi := (rfl)
@[simp] theorem State.setEth_spi (s : State) (p : Nat) (v : EthPort) : (s.setEth p v).spi = s.spi := (rfl)
@[simp] theorem State.setEth_wheel (s : State) (p : Nat) (v : EthPort) : (s.setEth p v).wheel = s.wheel := (rfl)
@[simp] theorem State.setEth_can (s : State) (p : Nat) (v : EthPort) : (s.setEth p v).can = s.can := (rfl)
@[simp] theorem State.setEth_slots (s : State) (p : Nat) (v : EthPort) : (s.setEth p v).slots = s.slots := (rfl)
@[simp] theorem State.setEth_fend (s : State) (p : Nat) (v : EthPort) : (s.setEth p v).fend = s.fend := (rfl)
@[simp] theorem State.setEth_surfT0 (s : State) (p : Nat) (v : EthPort) : (s.setEth p v).surfT0 = s.surfT0 := (rfl)
@[simp] theorem State.setEth_loops (s : State) (p : Nat) (v : EthPort) : (s.setEth p v).loops = s.loops := (rfl)
@[simp] theorem State.setEth_cores (s : State) (p : Nat) (v : EthPort) : (s.setEth p v).cores = s.cores := (rfl)
@[simp] theorem State.setEth_routers (s : State) (p : Nat) (v : EthPort) : (s.setEth p v).routers = s.routers := (rfl)
@[simp] theorem State.setEth_edges (s : State) (p : Nat) (v : EthPort) : (s.setEth p v).edges = s.edges := (rfl)
@[simp] theorem State.setEth_bell (s : State) (p : Nat) (v : EthPort) : (s.setEth p v).bell = s.bell := (rfl)
@[simp] theorem State.setEth_engines (s : State) (p : Nat) (v : EthPort) : (s.setEth p v).engines = s.engines := (rfl)
@[simp] theorem State.setEth_bins (s : State) (p : Nat) (v : EthPort) : (s.setEth p v).bins = s.bins := (rfl)
@[simp] theorem State.setEth_tt (s : State) (p : Nat) (v : EthPort) : (s.setEth p v).tt = s.tt := (rfl)
@[simp] theorem State.setEth_grid (s : State) (p : Nat) (v : EthPort) : (s.setEth p v).grid = s.grid := (rfl)
@[simp] theorem State.setEth_trk (s : State) (p : Nat) (v : EthPort) : (s.setEth p v).trk = s.trk := (rfl)
@[simp] theorem State.setEth_chain (s : State) (p : Nat) (v : EthPort) : (s.setEth p v).chain = s.chain := (rfl)
@[simp] theorem State.setEth_ego (s : State) (p : Nat) (v : EthPort) : (s.setEth p v).ego = s.ego := (rfl)
@[simp] theorem State.setEth_memc (s : State) (p : Nat) (v : EthPort) : (s.setEth p v).memc = s.memc := (rfl)
@[simp] theorem State.setEth_ports (s : State) (p : Nat) (v : EthPort) : (s.setEth p v).ports = s.ports := (rfl)
@[simp] theorem State.setEth_stream (s : State) (p : Nat) (v : EthPort) : (s.setEth p v).stream = s.stream := (rfl)
@[simp] theorem State.setEth_safe (s : State) (p : Nat) (v : EthPort) : (s.setEth p v).safe = s.safe := (rfl)
@[simp] theorem State.setEth_pwr (s : State) (p : Nat) (v : EthPort) : (s.setEth p v).pwr = s.pwr := (rfl)
@[simp] theorem State.setEth_sec (s : State) (p : Nat) (v : EthPort) : (s.setEth p v).sec = s.sec := (rfl)

/-! ### `setSpi` -/

@[simp] theorem State.setSpi_pending (s : State) (p : Nat) (v : SpiPort) : (s.setSpi p v).pending = s.pending := (rfl)
@[simp] theorem State.setSpi_regs (s : State) (p : Nat) (v : SpiPort) : (s.setSpi p v).regs = s.regs := (rfl)
@[simp] theorem State.setSpi_mem (s : State) (p : Nat) (v : SpiPort) : (s.setSpi p v).mem = s.mem := (rfl)
@[simp] theorem State.setSpi_gridMem (s : State) (p : Nat) (v : SpiPort) : (s.setSpi p v).gridMem = s.gridMem := (rfl)
@[simp] theorem State.setSpi_planes (s : State) (p : Nat) (v : SpiPort) : (s.setSpi p v).planes = s.planes := (rfl)
@[simp] theorem State.setSpi_freeCtr (s : State) (p : Nat) (v : SpiPort) : (s.setSpi p v).freeCtr = s.freeCtr := (rfl)
@[simp] theorem State.setSpi_time (s : State) (p : Nat) (v : SpiPort) : (s.setSpi p v).time = s.time := (rfl)
@[simp] theorem State.setSpi_csi (s : State) (p : Nat) (v : SpiPort) : (s.setSpi p v).csi = s.csi := (rfl)
@[simp] theorem State.setSpi_eth (s : State) (p : Nat) (v : SpiPort) : (s.setSpi p v).eth = s.eth := (rfl)
@[simp] theorem State.setSpi_wheel (s : State) (p : Nat) (v : SpiPort) : (s.setSpi p v).wheel = s.wheel := (rfl)
@[simp] theorem State.setSpi_can (s : State) (p : Nat) (v : SpiPort) : (s.setSpi p v).can = s.can := (rfl)
@[simp] theorem State.setSpi_slots (s : State) (p : Nat) (v : SpiPort) : (s.setSpi p v).slots = s.slots := (rfl)
@[simp] theorem State.setSpi_fend (s : State) (p : Nat) (v : SpiPort) : (s.setSpi p v).fend = s.fend := (rfl)
@[simp] theorem State.setSpi_surfT0 (s : State) (p : Nat) (v : SpiPort) : (s.setSpi p v).surfT0 = s.surfT0 := (rfl)
@[simp] theorem State.setSpi_loops (s : State) (p : Nat) (v : SpiPort) : (s.setSpi p v).loops = s.loops := (rfl)
@[simp] theorem State.setSpi_cores (s : State) (p : Nat) (v : SpiPort) : (s.setSpi p v).cores = s.cores := (rfl)
@[simp] theorem State.setSpi_routers (s : State) (p : Nat) (v : SpiPort) : (s.setSpi p v).routers = s.routers := (rfl)
@[simp] theorem State.setSpi_edges (s : State) (p : Nat) (v : SpiPort) : (s.setSpi p v).edges = s.edges := (rfl)
@[simp] theorem State.setSpi_bell (s : State) (p : Nat) (v : SpiPort) : (s.setSpi p v).bell = s.bell := (rfl)
@[simp] theorem State.setSpi_engines (s : State) (p : Nat) (v : SpiPort) : (s.setSpi p v).engines = s.engines := (rfl)
@[simp] theorem State.setSpi_bins (s : State) (p : Nat) (v : SpiPort) : (s.setSpi p v).bins = s.bins := (rfl)
@[simp] theorem State.setSpi_tt (s : State) (p : Nat) (v : SpiPort) : (s.setSpi p v).tt = s.tt := (rfl)
@[simp] theorem State.setSpi_grid (s : State) (p : Nat) (v : SpiPort) : (s.setSpi p v).grid = s.grid := (rfl)
@[simp] theorem State.setSpi_trk (s : State) (p : Nat) (v : SpiPort) : (s.setSpi p v).trk = s.trk := (rfl)
@[simp] theorem State.setSpi_chain (s : State) (p : Nat) (v : SpiPort) : (s.setSpi p v).chain = s.chain := (rfl)
@[simp] theorem State.setSpi_ego (s : State) (p : Nat) (v : SpiPort) : (s.setSpi p v).ego = s.ego := (rfl)
@[simp] theorem State.setSpi_memc (s : State) (p : Nat) (v : SpiPort) : (s.setSpi p v).memc = s.memc := (rfl)
@[simp] theorem State.setSpi_ports (s : State) (p : Nat) (v : SpiPort) : (s.setSpi p v).ports = s.ports := (rfl)
@[simp] theorem State.setSpi_stream (s : State) (p : Nat) (v : SpiPort) : (s.setSpi p v).stream = s.stream := (rfl)
@[simp] theorem State.setSpi_safe (s : State) (p : Nat) (v : SpiPort) : (s.setSpi p v).safe = s.safe := (rfl)
@[simp] theorem State.setSpi_pwr (s : State) (p : Nat) (v : SpiPort) : (s.setSpi p v).pwr = s.pwr := (rfl)
@[simp] theorem State.setSpi_sec (s : State) (p : Nat) (v : SpiPort) : (s.setSpi p v).sec = s.sec := (rfl)

/-! ### `setWheel` -/

@[simp] theorem State.setWheel_pending (s : State) (p : Nat) (v : WheelIn) : (s.setWheel p v).pending = s.pending := (rfl)
@[simp] theorem State.setWheel_regs (s : State) (p : Nat) (v : WheelIn) : (s.setWheel p v).regs = s.regs := (rfl)
@[simp] theorem State.setWheel_mem (s : State) (p : Nat) (v : WheelIn) : (s.setWheel p v).mem = s.mem := (rfl)
@[simp] theorem State.setWheel_gridMem (s : State) (p : Nat) (v : WheelIn) : (s.setWheel p v).gridMem = s.gridMem := (rfl)
@[simp] theorem State.setWheel_planes (s : State) (p : Nat) (v : WheelIn) : (s.setWheel p v).planes = s.planes := (rfl)
@[simp] theorem State.setWheel_freeCtr (s : State) (p : Nat) (v : WheelIn) : (s.setWheel p v).freeCtr = s.freeCtr := (rfl)
@[simp] theorem State.setWheel_time (s : State) (p : Nat) (v : WheelIn) : (s.setWheel p v).time = s.time := (rfl)
@[simp] theorem State.setWheel_csi (s : State) (p : Nat) (v : WheelIn) : (s.setWheel p v).csi = s.csi := (rfl)
@[simp] theorem State.setWheel_eth (s : State) (p : Nat) (v : WheelIn) : (s.setWheel p v).eth = s.eth := (rfl)
@[simp] theorem State.setWheel_spi (s : State) (p : Nat) (v : WheelIn) : (s.setWheel p v).spi = s.spi := (rfl)
@[simp] theorem State.setWheel_can (s : State) (p : Nat) (v : WheelIn) : (s.setWheel p v).can = s.can := (rfl)
@[simp] theorem State.setWheel_slots (s : State) (p : Nat) (v : WheelIn) : (s.setWheel p v).slots = s.slots := (rfl)
@[simp] theorem State.setWheel_fend (s : State) (p : Nat) (v : WheelIn) : (s.setWheel p v).fend = s.fend := (rfl)
@[simp] theorem State.setWheel_surfT0 (s : State) (p : Nat) (v : WheelIn) : (s.setWheel p v).surfT0 = s.surfT0 := (rfl)
@[simp] theorem State.setWheel_loops (s : State) (p : Nat) (v : WheelIn) : (s.setWheel p v).loops = s.loops := (rfl)
@[simp] theorem State.setWheel_cores (s : State) (p : Nat) (v : WheelIn) : (s.setWheel p v).cores = s.cores := (rfl)
@[simp] theorem State.setWheel_routers (s : State) (p : Nat) (v : WheelIn) : (s.setWheel p v).routers = s.routers := (rfl)
@[simp] theorem State.setWheel_edges (s : State) (p : Nat) (v : WheelIn) : (s.setWheel p v).edges = s.edges := (rfl)
@[simp] theorem State.setWheel_bell (s : State) (p : Nat) (v : WheelIn) : (s.setWheel p v).bell = s.bell := (rfl)
@[simp] theorem State.setWheel_engines (s : State) (p : Nat) (v : WheelIn) : (s.setWheel p v).engines = s.engines := (rfl)
@[simp] theorem State.setWheel_bins (s : State) (p : Nat) (v : WheelIn) : (s.setWheel p v).bins = s.bins := (rfl)
@[simp] theorem State.setWheel_tt (s : State) (p : Nat) (v : WheelIn) : (s.setWheel p v).tt = s.tt := (rfl)
@[simp] theorem State.setWheel_grid (s : State) (p : Nat) (v : WheelIn) : (s.setWheel p v).grid = s.grid := (rfl)
@[simp] theorem State.setWheel_trk (s : State) (p : Nat) (v : WheelIn) : (s.setWheel p v).trk = s.trk := (rfl)
@[simp] theorem State.setWheel_chain (s : State) (p : Nat) (v : WheelIn) : (s.setWheel p v).chain = s.chain := (rfl)
@[simp] theorem State.setWheel_ego (s : State) (p : Nat) (v : WheelIn) : (s.setWheel p v).ego = s.ego := (rfl)
@[simp] theorem State.setWheel_memc (s : State) (p : Nat) (v : WheelIn) : (s.setWheel p v).memc = s.memc := (rfl)
@[simp] theorem State.setWheel_ports (s : State) (p : Nat) (v : WheelIn) : (s.setWheel p v).ports = s.ports := (rfl)
@[simp] theorem State.setWheel_stream (s : State) (p : Nat) (v : WheelIn) : (s.setWheel p v).stream = s.stream := (rfl)
@[simp] theorem State.setWheel_safe (s : State) (p : Nat) (v : WheelIn) : (s.setWheel p v).safe = s.safe := (rfl)
@[simp] theorem State.setWheel_pwr (s : State) (p : Nat) (v : WheelIn) : (s.setWheel p v).pwr = s.pwr := (rfl)
@[simp] theorem State.setWheel_sec (s : State) (p : Nat) (v : WheelIn) : (s.setWheel p v).sec = s.sec := (rfl)

/-! ### `setCan` -/

@[simp] theorem State.setCan_pending (s : State) (p : Nat) (v : CanCtl) : (s.setCan p v).pending = s.pending := (rfl)
@[simp] theorem State.setCan_regs (s : State) (p : Nat) (v : CanCtl) : (s.setCan p v).regs = s.regs := (rfl)
@[simp] theorem State.setCan_mem (s : State) (p : Nat) (v : CanCtl) : (s.setCan p v).mem = s.mem := (rfl)
@[simp] theorem State.setCan_gridMem (s : State) (p : Nat) (v : CanCtl) : (s.setCan p v).gridMem = s.gridMem := (rfl)
@[simp] theorem State.setCan_planes (s : State) (p : Nat) (v : CanCtl) : (s.setCan p v).planes = s.planes := (rfl)
@[simp] theorem State.setCan_freeCtr (s : State) (p : Nat) (v : CanCtl) : (s.setCan p v).freeCtr = s.freeCtr := (rfl)
@[simp] theorem State.setCan_time (s : State) (p : Nat) (v : CanCtl) : (s.setCan p v).time = s.time := (rfl)
@[simp] theorem State.setCan_csi (s : State) (p : Nat) (v : CanCtl) : (s.setCan p v).csi = s.csi := (rfl)
@[simp] theorem State.setCan_eth (s : State) (p : Nat) (v : CanCtl) : (s.setCan p v).eth = s.eth := (rfl)
@[simp] theorem State.setCan_spi (s : State) (p : Nat) (v : CanCtl) : (s.setCan p v).spi = s.spi := (rfl)
@[simp] theorem State.setCan_wheel (s : State) (p : Nat) (v : CanCtl) : (s.setCan p v).wheel = s.wheel := (rfl)
@[simp] theorem State.setCan_slots (s : State) (p : Nat) (v : CanCtl) : (s.setCan p v).slots = s.slots := (rfl)
@[simp] theorem State.setCan_fend (s : State) (p : Nat) (v : CanCtl) : (s.setCan p v).fend = s.fend := (rfl)
@[simp] theorem State.setCan_surfT0 (s : State) (p : Nat) (v : CanCtl) : (s.setCan p v).surfT0 = s.surfT0 := (rfl)
@[simp] theorem State.setCan_loops (s : State) (p : Nat) (v : CanCtl) : (s.setCan p v).loops = s.loops := (rfl)
@[simp] theorem State.setCan_cores (s : State) (p : Nat) (v : CanCtl) : (s.setCan p v).cores = s.cores := (rfl)
@[simp] theorem State.setCan_routers (s : State) (p : Nat) (v : CanCtl) : (s.setCan p v).routers = s.routers := (rfl)
@[simp] theorem State.setCan_edges (s : State) (p : Nat) (v : CanCtl) : (s.setCan p v).edges = s.edges := (rfl)
@[simp] theorem State.setCan_bell (s : State) (p : Nat) (v : CanCtl) : (s.setCan p v).bell = s.bell := (rfl)
@[simp] theorem State.setCan_engines (s : State) (p : Nat) (v : CanCtl) : (s.setCan p v).engines = s.engines := (rfl)
@[simp] theorem State.setCan_bins (s : State) (p : Nat) (v : CanCtl) : (s.setCan p v).bins = s.bins := (rfl)
@[simp] theorem State.setCan_tt (s : State) (p : Nat) (v : CanCtl) : (s.setCan p v).tt = s.tt := (rfl)
@[simp] theorem State.setCan_grid (s : State) (p : Nat) (v : CanCtl) : (s.setCan p v).grid = s.grid := (rfl)
@[simp] theorem State.setCan_trk (s : State) (p : Nat) (v : CanCtl) : (s.setCan p v).trk = s.trk := (rfl)
@[simp] theorem State.setCan_chain (s : State) (p : Nat) (v : CanCtl) : (s.setCan p v).chain = s.chain := (rfl)
@[simp] theorem State.setCan_ego (s : State) (p : Nat) (v : CanCtl) : (s.setCan p v).ego = s.ego := (rfl)
@[simp] theorem State.setCan_memc (s : State) (p : Nat) (v : CanCtl) : (s.setCan p v).memc = s.memc := (rfl)
@[simp] theorem State.setCan_ports (s : State) (p : Nat) (v : CanCtl) : (s.setCan p v).ports = s.ports := (rfl)
@[simp] theorem State.setCan_stream (s : State) (p : Nat) (v : CanCtl) : (s.setCan p v).stream = s.stream := (rfl)
@[simp] theorem State.setCan_safe (s : State) (p : Nat) (v : CanCtl) : (s.setCan p v).safe = s.safe := (rfl)
@[simp] theorem State.setCan_pwr (s : State) (p : Nat) (v : CanCtl) : (s.setCan p v).pwr = s.pwr := (rfl)
@[simp] theorem State.setCan_sec (s : State) (p : Nat) (v : CanCtl) : (s.setCan p v).sec = s.sec := (rfl)

/-! ### `setSlot` -/

@[simp] theorem State.setSlot_pending (s : State) (p : Nat) (v : CanSlot) : (s.setSlot p v).pending = s.pending := (rfl)
@[simp] theorem State.setSlot_regs (s : State) (p : Nat) (v : CanSlot) : (s.setSlot p v).regs = s.regs := (rfl)
@[simp] theorem State.setSlot_mem (s : State) (p : Nat) (v : CanSlot) : (s.setSlot p v).mem = s.mem := (rfl)
@[simp] theorem State.setSlot_gridMem (s : State) (p : Nat) (v : CanSlot) : (s.setSlot p v).gridMem = s.gridMem := (rfl)
@[simp] theorem State.setSlot_planes (s : State) (p : Nat) (v : CanSlot) : (s.setSlot p v).planes = s.planes := (rfl)
@[simp] theorem State.setSlot_freeCtr (s : State) (p : Nat) (v : CanSlot) : (s.setSlot p v).freeCtr = s.freeCtr := (rfl)
@[simp] theorem State.setSlot_time (s : State) (p : Nat) (v : CanSlot) : (s.setSlot p v).time = s.time := (rfl)
@[simp] theorem State.setSlot_csi (s : State) (p : Nat) (v : CanSlot) : (s.setSlot p v).csi = s.csi := (rfl)
@[simp] theorem State.setSlot_eth (s : State) (p : Nat) (v : CanSlot) : (s.setSlot p v).eth = s.eth := (rfl)
@[simp] theorem State.setSlot_spi (s : State) (p : Nat) (v : CanSlot) : (s.setSlot p v).spi = s.spi := (rfl)
@[simp] theorem State.setSlot_wheel (s : State) (p : Nat) (v : CanSlot) : (s.setSlot p v).wheel = s.wheel := (rfl)
@[simp] theorem State.setSlot_can (s : State) (p : Nat) (v : CanSlot) : (s.setSlot p v).can = s.can := (rfl)
@[simp] theorem State.setSlot_fend (s : State) (p : Nat) (v : CanSlot) : (s.setSlot p v).fend = s.fend := (rfl)
@[simp] theorem State.setSlot_surfT0 (s : State) (p : Nat) (v : CanSlot) : (s.setSlot p v).surfT0 = s.surfT0 := (rfl)
@[simp] theorem State.setSlot_loops (s : State) (p : Nat) (v : CanSlot) : (s.setSlot p v).loops = s.loops := (rfl)
@[simp] theorem State.setSlot_cores (s : State) (p : Nat) (v : CanSlot) : (s.setSlot p v).cores = s.cores := (rfl)
@[simp] theorem State.setSlot_routers (s : State) (p : Nat) (v : CanSlot) : (s.setSlot p v).routers = s.routers := (rfl)
@[simp] theorem State.setSlot_edges (s : State) (p : Nat) (v : CanSlot) : (s.setSlot p v).edges = s.edges := (rfl)
@[simp] theorem State.setSlot_bell (s : State) (p : Nat) (v : CanSlot) : (s.setSlot p v).bell = s.bell := (rfl)
@[simp] theorem State.setSlot_engines (s : State) (p : Nat) (v : CanSlot) : (s.setSlot p v).engines = s.engines := (rfl)
@[simp] theorem State.setSlot_bins (s : State) (p : Nat) (v : CanSlot) : (s.setSlot p v).bins = s.bins := (rfl)
@[simp] theorem State.setSlot_tt (s : State) (p : Nat) (v : CanSlot) : (s.setSlot p v).tt = s.tt := (rfl)
@[simp] theorem State.setSlot_grid (s : State) (p : Nat) (v : CanSlot) : (s.setSlot p v).grid = s.grid := (rfl)
@[simp] theorem State.setSlot_trk (s : State) (p : Nat) (v : CanSlot) : (s.setSlot p v).trk = s.trk := (rfl)
@[simp] theorem State.setSlot_chain (s : State) (p : Nat) (v : CanSlot) : (s.setSlot p v).chain = s.chain := (rfl)
@[simp] theorem State.setSlot_ego (s : State) (p : Nat) (v : CanSlot) : (s.setSlot p v).ego = s.ego := (rfl)
@[simp] theorem State.setSlot_memc (s : State) (p : Nat) (v : CanSlot) : (s.setSlot p v).memc = s.memc := (rfl)
@[simp] theorem State.setSlot_ports (s : State) (p : Nat) (v : CanSlot) : (s.setSlot p v).ports = s.ports := (rfl)
@[simp] theorem State.setSlot_stream (s : State) (p : Nat) (v : CanSlot) : (s.setSlot p v).stream = s.stream := (rfl)
@[simp] theorem State.setSlot_safe (s : State) (p : Nat) (v : CanSlot) : (s.setSlot p v).safe = s.safe := (rfl)
@[simp] theorem State.setSlot_pwr (s : State) (p : Nat) (v : CanSlot) : (s.setSlot p v).pwr = s.pwr := (rfl)
@[simp] theorem State.setSlot_sec (s : State) (p : Nat) (v : CanSlot) : (s.setSlot p v).sec = s.sec := (rfl)

/-! ### `setFend` -/

@[simp] theorem State.setFend_pending (s : State) (p : Nat) (v : FendHub) : (s.setFend p v).pending = s.pending := (rfl)
@[simp] theorem State.setFend_regs (s : State) (p : Nat) (v : FendHub) : (s.setFend p v).regs = s.regs := (rfl)
@[simp] theorem State.setFend_mem (s : State) (p : Nat) (v : FendHub) : (s.setFend p v).mem = s.mem := (rfl)
@[simp] theorem State.setFend_gridMem (s : State) (p : Nat) (v : FendHub) : (s.setFend p v).gridMem = s.gridMem := (rfl)
@[simp] theorem State.setFend_planes (s : State) (p : Nat) (v : FendHub) : (s.setFend p v).planes = s.planes := (rfl)
@[simp] theorem State.setFend_freeCtr (s : State) (p : Nat) (v : FendHub) : (s.setFend p v).freeCtr = s.freeCtr := (rfl)
@[simp] theorem State.setFend_time (s : State) (p : Nat) (v : FendHub) : (s.setFend p v).time = s.time := (rfl)
@[simp] theorem State.setFend_csi (s : State) (p : Nat) (v : FendHub) : (s.setFend p v).csi = s.csi := (rfl)
@[simp] theorem State.setFend_eth (s : State) (p : Nat) (v : FendHub) : (s.setFend p v).eth = s.eth := (rfl)
@[simp] theorem State.setFend_spi (s : State) (p : Nat) (v : FendHub) : (s.setFend p v).spi = s.spi := (rfl)
@[simp] theorem State.setFend_wheel (s : State) (p : Nat) (v : FendHub) : (s.setFend p v).wheel = s.wheel := (rfl)
@[simp] theorem State.setFend_can (s : State) (p : Nat) (v : FendHub) : (s.setFend p v).can = s.can := (rfl)
@[simp] theorem State.setFend_slots (s : State) (p : Nat) (v : FendHub) : (s.setFend p v).slots = s.slots := (rfl)
@[simp] theorem State.setFend_surfT0 (s : State) (p : Nat) (v : FendHub) : (s.setFend p v).surfT0 = s.surfT0 := (rfl)
@[simp] theorem State.setFend_loops (s : State) (p : Nat) (v : FendHub) : (s.setFend p v).loops = s.loops := (rfl)
@[simp] theorem State.setFend_cores (s : State) (p : Nat) (v : FendHub) : (s.setFend p v).cores = s.cores := (rfl)
@[simp] theorem State.setFend_routers (s : State) (p : Nat) (v : FendHub) : (s.setFend p v).routers = s.routers := (rfl)
@[simp] theorem State.setFend_edges (s : State) (p : Nat) (v : FendHub) : (s.setFend p v).edges = s.edges := (rfl)
@[simp] theorem State.setFend_bell (s : State) (p : Nat) (v : FendHub) : (s.setFend p v).bell = s.bell := (rfl)
@[simp] theorem State.setFend_engines (s : State) (p : Nat) (v : FendHub) : (s.setFend p v).engines = s.engines := (rfl)
@[simp] theorem State.setFend_bins (s : State) (p : Nat) (v : FendHub) : (s.setFend p v).bins = s.bins := (rfl)
@[simp] theorem State.setFend_tt (s : State) (p : Nat) (v : FendHub) : (s.setFend p v).tt = s.tt := (rfl)
@[simp] theorem State.setFend_grid (s : State) (p : Nat) (v : FendHub) : (s.setFend p v).grid = s.grid := (rfl)
@[simp] theorem State.setFend_trk (s : State) (p : Nat) (v : FendHub) : (s.setFend p v).trk = s.trk := (rfl)
@[simp] theorem State.setFend_chain (s : State) (p : Nat) (v : FendHub) : (s.setFend p v).chain = s.chain := (rfl)
@[simp] theorem State.setFend_ego (s : State) (p : Nat) (v : FendHub) : (s.setFend p v).ego = s.ego := (rfl)
@[simp] theorem State.setFend_memc (s : State) (p : Nat) (v : FendHub) : (s.setFend p v).memc = s.memc := (rfl)
@[simp] theorem State.setFend_ports (s : State) (p : Nat) (v : FendHub) : (s.setFend p v).ports = s.ports := (rfl)
@[simp] theorem State.setFend_stream (s : State) (p : Nat) (v : FendHub) : (s.setFend p v).stream = s.stream := (rfl)
@[simp] theorem State.setFend_safe (s : State) (p : Nat) (v : FendHub) : (s.setFend p v).safe = s.safe := (rfl)
@[simp] theorem State.setFend_pwr (s : State) (p : Nat) (v : FendHub) : (s.setFend p v).pwr = s.pwr := (rfl)
@[simp] theorem State.setFend_sec (s : State) (p : Nat) (v : FendHub) : (s.setFend p v).sec = s.sec := (rfl)

/-! ### `setT0` -/

@[simp] theorem State.setT0_pending (s : State) (p : Nat) (v : (Option Nat)) : (s.setT0 p v).pending = s.pending := (rfl)
@[simp] theorem State.setT0_regs (s : State) (p : Nat) (v : (Option Nat)) : (s.setT0 p v).regs = s.regs := (rfl)
@[simp] theorem State.setT0_mem (s : State) (p : Nat) (v : (Option Nat)) : (s.setT0 p v).mem = s.mem := (rfl)
@[simp] theorem State.setT0_gridMem (s : State) (p : Nat) (v : (Option Nat)) : (s.setT0 p v).gridMem = s.gridMem := (rfl)
@[simp] theorem State.setT0_planes (s : State) (p : Nat) (v : (Option Nat)) : (s.setT0 p v).planes = s.planes := (rfl)
@[simp] theorem State.setT0_freeCtr (s : State) (p : Nat) (v : (Option Nat)) : (s.setT0 p v).freeCtr = s.freeCtr := (rfl)
@[simp] theorem State.setT0_time (s : State) (p : Nat) (v : (Option Nat)) : (s.setT0 p v).time = s.time := (rfl)
@[simp] theorem State.setT0_csi (s : State) (p : Nat) (v : (Option Nat)) : (s.setT0 p v).csi = s.csi := (rfl)
@[simp] theorem State.setT0_eth (s : State) (p : Nat) (v : (Option Nat)) : (s.setT0 p v).eth = s.eth := (rfl)
@[simp] theorem State.setT0_spi (s : State) (p : Nat) (v : (Option Nat)) : (s.setT0 p v).spi = s.spi := (rfl)
@[simp] theorem State.setT0_wheel (s : State) (p : Nat) (v : (Option Nat)) : (s.setT0 p v).wheel = s.wheel := (rfl)
@[simp] theorem State.setT0_can (s : State) (p : Nat) (v : (Option Nat)) : (s.setT0 p v).can = s.can := (rfl)
@[simp] theorem State.setT0_slots (s : State) (p : Nat) (v : (Option Nat)) : (s.setT0 p v).slots = s.slots := (rfl)
@[simp] theorem State.setT0_fend (s : State) (p : Nat) (v : (Option Nat)) : (s.setT0 p v).fend = s.fend := (rfl)
@[simp] theorem State.setT0_loops (s : State) (p : Nat) (v : (Option Nat)) : (s.setT0 p v).loops = s.loops := (rfl)
@[simp] theorem State.setT0_cores (s : State) (p : Nat) (v : (Option Nat)) : (s.setT0 p v).cores = s.cores := (rfl)
@[simp] theorem State.setT0_routers (s : State) (p : Nat) (v : (Option Nat)) : (s.setT0 p v).routers = s.routers := (rfl)
@[simp] theorem State.setT0_edges (s : State) (p : Nat) (v : (Option Nat)) : (s.setT0 p v).edges = s.edges := (rfl)
@[simp] theorem State.setT0_bell (s : State) (p : Nat) (v : (Option Nat)) : (s.setT0 p v).bell = s.bell := (rfl)
@[simp] theorem State.setT0_engines (s : State) (p : Nat) (v : (Option Nat)) : (s.setT0 p v).engines = s.engines := (rfl)
@[simp] theorem State.setT0_bins (s : State) (p : Nat) (v : (Option Nat)) : (s.setT0 p v).bins = s.bins := (rfl)
@[simp] theorem State.setT0_tt (s : State) (p : Nat) (v : (Option Nat)) : (s.setT0 p v).tt = s.tt := (rfl)
@[simp] theorem State.setT0_grid (s : State) (p : Nat) (v : (Option Nat)) : (s.setT0 p v).grid = s.grid := (rfl)
@[simp] theorem State.setT0_trk (s : State) (p : Nat) (v : (Option Nat)) : (s.setT0 p v).trk = s.trk := (rfl)
@[simp] theorem State.setT0_chain (s : State) (p : Nat) (v : (Option Nat)) : (s.setT0 p v).chain = s.chain := (rfl)
@[simp] theorem State.setT0_ego (s : State) (p : Nat) (v : (Option Nat)) : (s.setT0 p v).ego = s.ego := (rfl)
@[simp] theorem State.setT0_memc (s : State) (p : Nat) (v : (Option Nat)) : (s.setT0 p v).memc = s.memc := (rfl)
@[simp] theorem State.setT0_ports (s : State) (p : Nat) (v : (Option Nat)) : (s.setT0 p v).ports = s.ports := (rfl)
@[simp] theorem State.setT0_stream (s : State) (p : Nat) (v : (Option Nat)) : (s.setT0 p v).stream = s.stream := (rfl)
@[simp] theorem State.setT0_safe (s : State) (p : Nat) (v : (Option Nat)) : (s.setT0 p v).safe = s.safe := (rfl)
@[simp] theorem State.setT0_pwr (s : State) (p : Nat) (v : (Option Nat)) : (s.setT0 p v).pwr = s.pwr := (rfl)
@[simp] theorem State.setT0_sec (s : State) (p : Nat) (v : (Option Nat)) : (s.setT0 p v).sec = s.sec := (rfl)

/-! ### `setLoop` -/

@[simp] theorem State.setLoop_pending (s : State) (p : Nat) (v : LoopBuf) : (s.setLoop p v).pending = s.pending := (rfl)
@[simp] theorem State.setLoop_regs (s : State) (p : Nat) (v : LoopBuf) : (s.setLoop p v).regs = s.regs := (rfl)
@[simp] theorem State.setLoop_mem (s : State) (p : Nat) (v : LoopBuf) : (s.setLoop p v).mem = s.mem := (rfl)
@[simp] theorem State.setLoop_gridMem (s : State) (p : Nat) (v : LoopBuf) : (s.setLoop p v).gridMem = s.gridMem := (rfl)
@[simp] theorem State.setLoop_planes (s : State) (p : Nat) (v : LoopBuf) : (s.setLoop p v).planes = s.planes := (rfl)
@[simp] theorem State.setLoop_freeCtr (s : State) (p : Nat) (v : LoopBuf) : (s.setLoop p v).freeCtr = s.freeCtr := (rfl)
@[simp] theorem State.setLoop_time (s : State) (p : Nat) (v : LoopBuf) : (s.setLoop p v).time = s.time := (rfl)
@[simp] theorem State.setLoop_csi (s : State) (p : Nat) (v : LoopBuf) : (s.setLoop p v).csi = s.csi := (rfl)
@[simp] theorem State.setLoop_eth (s : State) (p : Nat) (v : LoopBuf) : (s.setLoop p v).eth = s.eth := (rfl)
@[simp] theorem State.setLoop_spi (s : State) (p : Nat) (v : LoopBuf) : (s.setLoop p v).spi = s.spi := (rfl)
@[simp] theorem State.setLoop_wheel (s : State) (p : Nat) (v : LoopBuf) : (s.setLoop p v).wheel = s.wheel := (rfl)
@[simp] theorem State.setLoop_can (s : State) (p : Nat) (v : LoopBuf) : (s.setLoop p v).can = s.can := (rfl)
@[simp] theorem State.setLoop_slots (s : State) (p : Nat) (v : LoopBuf) : (s.setLoop p v).slots = s.slots := (rfl)
@[simp] theorem State.setLoop_fend (s : State) (p : Nat) (v : LoopBuf) : (s.setLoop p v).fend = s.fend := (rfl)
@[simp] theorem State.setLoop_surfT0 (s : State) (p : Nat) (v : LoopBuf) : (s.setLoop p v).surfT0 = s.surfT0 := (rfl)
@[simp] theorem State.setLoop_cores (s : State) (p : Nat) (v : LoopBuf) : (s.setLoop p v).cores = s.cores := (rfl)
@[simp] theorem State.setLoop_routers (s : State) (p : Nat) (v : LoopBuf) : (s.setLoop p v).routers = s.routers := (rfl)
@[simp] theorem State.setLoop_edges (s : State) (p : Nat) (v : LoopBuf) : (s.setLoop p v).edges = s.edges := (rfl)
@[simp] theorem State.setLoop_bell (s : State) (p : Nat) (v : LoopBuf) : (s.setLoop p v).bell = s.bell := (rfl)
@[simp] theorem State.setLoop_engines (s : State) (p : Nat) (v : LoopBuf) : (s.setLoop p v).engines = s.engines := (rfl)
@[simp] theorem State.setLoop_bins (s : State) (p : Nat) (v : LoopBuf) : (s.setLoop p v).bins = s.bins := (rfl)
@[simp] theorem State.setLoop_tt (s : State) (p : Nat) (v : LoopBuf) : (s.setLoop p v).tt = s.tt := (rfl)
@[simp] theorem State.setLoop_grid (s : State) (p : Nat) (v : LoopBuf) : (s.setLoop p v).grid = s.grid := (rfl)
@[simp] theorem State.setLoop_trk (s : State) (p : Nat) (v : LoopBuf) : (s.setLoop p v).trk = s.trk := (rfl)
@[simp] theorem State.setLoop_chain (s : State) (p : Nat) (v : LoopBuf) : (s.setLoop p v).chain = s.chain := (rfl)
@[simp] theorem State.setLoop_ego (s : State) (p : Nat) (v : LoopBuf) : (s.setLoop p v).ego = s.ego := (rfl)
@[simp] theorem State.setLoop_memc (s : State) (p : Nat) (v : LoopBuf) : (s.setLoop p v).memc = s.memc := (rfl)
@[simp] theorem State.setLoop_ports (s : State) (p : Nat) (v : LoopBuf) : (s.setLoop p v).ports = s.ports := (rfl)
@[simp] theorem State.setLoop_stream (s : State) (p : Nat) (v : LoopBuf) : (s.setLoop p v).stream = s.stream := (rfl)
@[simp] theorem State.setLoop_safe (s : State) (p : Nat) (v : LoopBuf) : (s.setLoop p v).safe = s.safe := (rfl)
@[simp] theorem State.setLoop_pwr (s : State) (p : Nat) (v : LoopBuf) : (s.setLoop p v).pwr = s.pwr := (rfl)
@[simp] theorem State.setLoop_sec (s : State) (p : Nat) (v : LoopBuf) : (s.setLoop p v).sec = s.sec := (rfl)

/-! ### `setCore` -/

@[simp] theorem State.setCore_pending (s : State) (p : Nat) (v : Core) : (s.setCore p v).pending = s.pending := (rfl)
@[simp] theorem State.setCore_regs (s : State) (p : Nat) (v : Core) : (s.setCore p v).regs = s.regs := (rfl)
@[simp] theorem State.setCore_mem (s : State) (p : Nat) (v : Core) : (s.setCore p v).mem = s.mem := (rfl)
@[simp] theorem State.setCore_gridMem (s : State) (p : Nat) (v : Core) : (s.setCore p v).gridMem = s.gridMem := (rfl)
@[simp] theorem State.setCore_planes (s : State) (p : Nat) (v : Core) : (s.setCore p v).planes = s.planes := (rfl)
@[simp] theorem State.setCore_freeCtr (s : State) (p : Nat) (v : Core) : (s.setCore p v).freeCtr = s.freeCtr := (rfl)
@[simp] theorem State.setCore_time (s : State) (p : Nat) (v : Core) : (s.setCore p v).time = s.time := (rfl)
@[simp] theorem State.setCore_csi (s : State) (p : Nat) (v : Core) : (s.setCore p v).csi = s.csi := (rfl)
@[simp] theorem State.setCore_eth (s : State) (p : Nat) (v : Core) : (s.setCore p v).eth = s.eth := (rfl)
@[simp] theorem State.setCore_spi (s : State) (p : Nat) (v : Core) : (s.setCore p v).spi = s.spi := (rfl)
@[simp] theorem State.setCore_wheel (s : State) (p : Nat) (v : Core) : (s.setCore p v).wheel = s.wheel := (rfl)
@[simp] theorem State.setCore_can (s : State) (p : Nat) (v : Core) : (s.setCore p v).can = s.can := (rfl)
@[simp] theorem State.setCore_slots (s : State) (p : Nat) (v : Core) : (s.setCore p v).slots = s.slots := (rfl)
@[simp] theorem State.setCore_fend (s : State) (p : Nat) (v : Core) : (s.setCore p v).fend = s.fend := (rfl)
@[simp] theorem State.setCore_surfT0 (s : State) (p : Nat) (v : Core) : (s.setCore p v).surfT0 = s.surfT0 := (rfl)
@[simp] theorem State.setCore_loops (s : State) (p : Nat) (v : Core) : (s.setCore p v).loops = s.loops := (rfl)
@[simp] theorem State.setCore_routers (s : State) (p : Nat) (v : Core) : (s.setCore p v).routers = s.routers := (rfl)
@[simp] theorem State.setCore_edges (s : State) (p : Nat) (v : Core) : (s.setCore p v).edges = s.edges := (rfl)
@[simp] theorem State.setCore_bell (s : State) (p : Nat) (v : Core) : (s.setCore p v).bell = s.bell := (rfl)
@[simp] theorem State.setCore_engines (s : State) (p : Nat) (v : Core) : (s.setCore p v).engines = s.engines := (rfl)
@[simp] theorem State.setCore_bins (s : State) (p : Nat) (v : Core) : (s.setCore p v).bins = s.bins := (rfl)
@[simp] theorem State.setCore_tt (s : State) (p : Nat) (v : Core) : (s.setCore p v).tt = s.tt := (rfl)
@[simp] theorem State.setCore_grid (s : State) (p : Nat) (v : Core) : (s.setCore p v).grid = s.grid := (rfl)
@[simp] theorem State.setCore_trk (s : State) (p : Nat) (v : Core) : (s.setCore p v).trk = s.trk := (rfl)
@[simp] theorem State.setCore_chain (s : State) (p : Nat) (v : Core) : (s.setCore p v).chain = s.chain := (rfl)
@[simp] theorem State.setCore_ego (s : State) (p : Nat) (v : Core) : (s.setCore p v).ego = s.ego := (rfl)
@[simp] theorem State.setCore_memc (s : State) (p : Nat) (v : Core) : (s.setCore p v).memc = s.memc := (rfl)
@[simp] theorem State.setCore_ports (s : State) (p : Nat) (v : Core) : (s.setCore p v).ports = s.ports := (rfl)
@[simp] theorem State.setCore_stream (s : State) (p : Nat) (v : Core) : (s.setCore p v).stream = s.stream := (rfl)
@[simp] theorem State.setCore_safe (s : State) (p : Nat) (v : Core) : (s.setCore p v).safe = s.safe := (rfl)
@[simp] theorem State.setCore_pwr (s : State) (p : Nat) (v : Core) : (s.setCore p v).pwr = s.pwr := (rfl)
@[simp] theorem State.setCore_sec (s : State) (p : Nat) (v : Core) : (s.setCore p v).sec = s.sec := (rfl)

/-! ### `setRtr` -/

@[simp] theorem State.setRtr_pending (s : State) (p : Nat) (v : Router) : (s.setRtr p v).pending = s.pending := (rfl)
@[simp] theorem State.setRtr_regs (s : State) (p : Nat) (v : Router) : (s.setRtr p v).regs = s.regs := (rfl)
@[simp] theorem State.setRtr_mem (s : State) (p : Nat) (v : Router) : (s.setRtr p v).mem = s.mem := (rfl)
@[simp] theorem State.setRtr_gridMem (s : State) (p : Nat) (v : Router) : (s.setRtr p v).gridMem = s.gridMem := (rfl)
@[simp] theorem State.setRtr_planes (s : State) (p : Nat) (v : Router) : (s.setRtr p v).planes = s.planes := (rfl)
@[simp] theorem State.setRtr_freeCtr (s : State) (p : Nat) (v : Router) : (s.setRtr p v).freeCtr = s.freeCtr := (rfl)
@[simp] theorem State.setRtr_time (s : State) (p : Nat) (v : Router) : (s.setRtr p v).time = s.time := (rfl)
@[simp] theorem State.setRtr_csi (s : State) (p : Nat) (v : Router) : (s.setRtr p v).csi = s.csi := (rfl)
@[simp] theorem State.setRtr_eth (s : State) (p : Nat) (v : Router) : (s.setRtr p v).eth = s.eth := (rfl)
@[simp] theorem State.setRtr_spi (s : State) (p : Nat) (v : Router) : (s.setRtr p v).spi = s.spi := (rfl)
@[simp] theorem State.setRtr_wheel (s : State) (p : Nat) (v : Router) : (s.setRtr p v).wheel = s.wheel := (rfl)
@[simp] theorem State.setRtr_can (s : State) (p : Nat) (v : Router) : (s.setRtr p v).can = s.can := (rfl)
@[simp] theorem State.setRtr_slots (s : State) (p : Nat) (v : Router) : (s.setRtr p v).slots = s.slots := (rfl)
@[simp] theorem State.setRtr_fend (s : State) (p : Nat) (v : Router) : (s.setRtr p v).fend = s.fend := (rfl)
@[simp] theorem State.setRtr_surfT0 (s : State) (p : Nat) (v : Router) : (s.setRtr p v).surfT0 = s.surfT0 := (rfl)
@[simp] theorem State.setRtr_loops (s : State) (p : Nat) (v : Router) : (s.setRtr p v).loops = s.loops := (rfl)
@[simp] theorem State.setRtr_cores (s : State) (p : Nat) (v : Router) : (s.setRtr p v).cores = s.cores := (rfl)
@[simp] theorem State.setRtr_edges (s : State) (p : Nat) (v : Router) : (s.setRtr p v).edges = s.edges := (rfl)
@[simp] theorem State.setRtr_bell (s : State) (p : Nat) (v : Router) : (s.setRtr p v).bell = s.bell := (rfl)
@[simp] theorem State.setRtr_engines (s : State) (p : Nat) (v : Router) : (s.setRtr p v).engines = s.engines := (rfl)
@[simp] theorem State.setRtr_bins (s : State) (p : Nat) (v : Router) : (s.setRtr p v).bins = s.bins := (rfl)
@[simp] theorem State.setRtr_tt (s : State) (p : Nat) (v : Router) : (s.setRtr p v).tt = s.tt := (rfl)
@[simp] theorem State.setRtr_grid (s : State) (p : Nat) (v : Router) : (s.setRtr p v).grid = s.grid := (rfl)
@[simp] theorem State.setRtr_trk (s : State) (p : Nat) (v : Router) : (s.setRtr p v).trk = s.trk := (rfl)
@[simp] theorem State.setRtr_chain (s : State) (p : Nat) (v : Router) : (s.setRtr p v).chain = s.chain := (rfl)
@[simp] theorem State.setRtr_ego (s : State) (p : Nat) (v : Router) : (s.setRtr p v).ego = s.ego := (rfl)
@[simp] theorem State.setRtr_memc (s : State) (p : Nat) (v : Router) : (s.setRtr p v).memc = s.memc := (rfl)
@[simp] theorem State.setRtr_ports (s : State) (p : Nat) (v : Router) : (s.setRtr p v).ports = s.ports := (rfl)
@[simp] theorem State.setRtr_stream (s : State) (p : Nat) (v : Router) : (s.setRtr p v).stream = s.stream := (rfl)
@[simp] theorem State.setRtr_safe (s : State) (p : Nat) (v : Router) : (s.setRtr p v).safe = s.safe := (rfl)
@[simp] theorem State.setRtr_pwr (s : State) (p : Nat) (v : Router) : (s.setRtr p v).pwr = s.pwr := (rfl)
@[simp] theorem State.setRtr_sec (s : State) (p : Nat) (v : Router) : (s.setRtr p v).sec = s.sec := (rfl)

/-! ### `setEdge` -/

@[simp] theorem State.setEdge_pending (s : State) (p : Nat) (v : Edge) : (s.setEdge p v).pending = s.pending := (rfl)
@[simp] theorem State.setEdge_regs (s : State) (p : Nat) (v : Edge) : (s.setEdge p v).regs = s.regs := (rfl)
@[simp] theorem State.setEdge_mem (s : State) (p : Nat) (v : Edge) : (s.setEdge p v).mem = s.mem := (rfl)
@[simp] theorem State.setEdge_gridMem (s : State) (p : Nat) (v : Edge) : (s.setEdge p v).gridMem = s.gridMem := (rfl)
@[simp] theorem State.setEdge_planes (s : State) (p : Nat) (v : Edge) : (s.setEdge p v).planes = s.planes := (rfl)
@[simp] theorem State.setEdge_freeCtr (s : State) (p : Nat) (v : Edge) : (s.setEdge p v).freeCtr = s.freeCtr := (rfl)
@[simp] theorem State.setEdge_time (s : State) (p : Nat) (v : Edge) : (s.setEdge p v).time = s.time := (rfl)
@[simp] theorem State.setEdge_csi (s : State) (p : Nat) (v : Edge) : (s.setEdge p v).csi = s.csi := (rfl)
@[simp] theorem State.setEdge_eth (s : State) (p : Nat) (v : Edge) : (s.setEdge p v).eth = s.eth := (rfl)
@[simp] theorem State.setEdge_spi (s : State) (p : Nat) (v : Edge) : (s.setEdge p v).spi = s.spi := (rfl)
@[simp] theorem State.setEdge_wheel (s : State) (p : Nat) (v : Edge) : (s.setEdge p v).wheel = s.wheel := (rfl)
@[simp] theorem State.setEdge_can (s : State) (p : Nat) (v : Edge) : (s.setEdge p v).can = s.can := (rfl)
@[simp] theorem State.setEdge_slots (s : State) (p : Nat) (v : Edge) : (s.setEdge p v).slots = s.slots := (rfl)
@[simp] theorem State.setEdge_fend (s : State) (p : Nat) (v : Edge) : (s.setEdge p v).fend = s.fend := (rfl)
@[simp] theorem State.setEdge_surfT0 (s : State) (p : Nat) (v : Edge) : (s.setEdge p v).surfT0 = s.surfT0 := (rfl)
@[simp] theorem State.setEdge_loops (s : State) (p : Nat) (v : Edge) : (s.setEdge p v).loops = s.loops := (rfl)
@[simp] theorem State.setEdge_cores (s : State) (p : Nat) (v : Edge) : (s.setEdge p v).cores = s.cores := (rfl)
@[simp] theorem State.setEdge_routers (s : State) (p : Nat) (v : Edge) : (s.setEdge p v).routers = s.routers := (rfl)
@[simp] theorem State.setEdge_bell (s : State) (p : Nat) (v : Edge) : (s.setEdge p v).bell = s.bell := (rfl)
@[simp] theorem State.setEdge_engines (s : State) (p : Nat) (v : Edge) : (s.setEdge p v).engines = s.engines := (rfl)
@[simp] theorem State.setEdge_bins (s : State) (p : Nat) (v : Edge) : (s.setEdge p v).bins = s.bins := (rfl)
@[simp] theorem State.setEdge_tt (s : State) (p : Nat) (v : Edge) : (s.setEdge p v).tt = s.tt := (rfl)
@[simp] theorem State.setEdge_grid (s : State) (p : Nat) (v : Edge) : (s.setEdge p v).grid = s.grid := (rfl)
@[simp] theorem State.setEdge_trk (s : State) (p : Nat) (v : Edge) : (s.setEdge p v).trk = s.trk := (rfl)
@[simp] theorem State.setEdge_chain (s : State) (p : Nat) (v : Edge) : (s.setEdge p v).chain = s.chain := (rfl)
@[simp] theorem State.setEdge_ego (s : State) (p : Nat) (v : Edge) : (s.setEdge p v).ego = s.ego := (rfl)
@[simp] theorem State.setEdge_memc (s : State) (p : Nat) (v : Edge) : (s.setEdge p v).memc = s.memc := (rfl)
@[simp] theorem State.setEdge_ports (s : State) (p : Nat) (v : Edge) : (s.setEdge p v).ports = s.ports := (rfl)
@[simp] theorem State.setEdge_stream (s : State) (p : Nat) (v : Edge) : (s.setEdge p v).stream = s.stream := (rfl)
@[simp] theorem State.setEdge_safe (s : State) (p : Nat) (v : Edge) : (s.setEdge p v).safe = s.safe := (rfl)
@[simp] theorem State.setEdge_pwr (s : State) (p : Nat) (v : Edge) : (s.setEdge p v).pwr = s.pwr := (rfl)
@[simp] theorem State.setEdge_sec (s : State) (p : Nat) (v : Edge) : (s.setEdge p v).sec = s.sec := (rfl)

/-! ### `setEng` -/

@[simp] theorem State.setEng_pending (s : State) (p : Nat) (v : Engine) : (s.setEng p v).pending = s.pending := (rfl)
@[simp] theorem State.setEng_regs (s : State) (p : Nat) (v : Engine) : (s.setEng p v).regs = s.regs := (rfl)
@[simp] theorem State.setEng_mem (s : State) (p : Nat) (v : Engine) : (s.setEng p v).mem = s.mem := (rfl)
@[simp] theorem State.setEng_gridMem (s : State) (p : Nat) (v : Engine) : (s.setEng p v).gridMem = s.gridMem := (rfl)
@[simp] theorem State.setEng_planes (s : State) (p : Nat) (v : Engine) : (s.setEng p v).planes = s.planes := (rfl)
@[simp] theorem State.setEng_freeCtr (s : State) (p : Nat) (v : Engine) : (s.setEng p v).freeCtr = s.freeCtr := (rfl)
@[simp] theorem State.setEng_time (s : State) (p : Nat) (v : Engine) : (s.setEng p v).time = s.time := (rfl)
@[simp] theorem State.setEng_csi (s : State) (p : Nat) (v : Engine) : (s.setEng p v).csi = s.csi := (rfl)
@[simp] theorem State.setEng_eth (s : State) (p : Nat) (v : Engine) : (s.setEng p v).eth = s.eth := (rfl)
@[simp] theorem State.setEng_spi (s : State) (p : Nat) (v : Engine) : (s.setEng p v).spi = s.spi := (rfl)
@[simp] theorem State.setEng_wheel (s : State) (p : Nat) (v : Engine) : (s.setEng p v).wheel = s.wheel := (rfl)
@[simp] theorem State.setEng_can (s : State) (p : Nat) (v : Engine) : (s.setEng p v).can = s.can := (rfl)
@[simp] theorem State.setEng_slots (s : State) (p : Nat) (v : Engine) : (s.setEng p v).slots = s.slots := (rfl)
@[simp] theorem State.setEng_fend (s : State) (p : Nat) (v : Engine) : (s.setEng p v).fend = s.fend := (rfl)
@[simp] theorem State.setEng_surfT0 (s : State) (p : Nat) (v : Engine) : (s.setEng p v).surfT0 = s.surfT0 := (rfl)
@[simp] theorem State.setEng_loops (s : State) (p : Nat) (v : Engine) : (s.setEng p v).loops = s.loops := (rfl)
@[simp] theorem State.setEng_cores (s : State) (p : Nat) (v : Engine) : (s.setEng p v).cores = s.cores := (rfl)
@[simp] theorem State.setEng_routers (s : State) (p : Nat) (v : Engine) : (s.setEng p v).routers = s.routers := (rfl)
@[simp] theorem State.setEng_edges (s : State) (p : Nat) (v : Engine) : (s.setEng p v).edges = s.edges := (rfl)
@[simp] theorem State.setEng_bell (s : State) (p : Nat) (v : Engine) : (s.setEng p v).bell = s.bell := (rfl)
@[simp] theorem State.setEng_bins (s : State) (p : Nat) (v : Engine) : (s.setEng p v).bins = s.bins := (rfl)
@[simp] theorem State.setEng_tt (s : State) (p : Nat) (v : Engine) : (s.setEng p v).tt = s.tt := (rfl)
@[simp] theorem State.setEng_grid (s : State) (p : Nat) (v : Engine) : (s.setEng p v).grid = s.grid := (rfl)
@[simp] theorem State.setEng_trk (s : State) (p : Nat) (v : Engine) : (s.setEng p v).trk = s.trk := (rfl)
@[simp] theorem State.setEng_chain (s : State) (p : Nat) (v : Engine) : (s.setEng p v).chain = s.chain := (rfl)
@[simp] theorem State.setEng_ego (s : State) (p : Nat) (v : Engine) : (s.setEng p v).ego = s.ego := (rfl)
@[simp] theorem State.setEng_memc (s : State) (p : Nat) (v : Engine) : (s.setEng p v).memc = s.memc := (rfl)
@[simp] theorem State.setEng_ports (s : State) (p : Nat) (v : Engine) : (s.setEng p v).ports = s.ports := (rfl)
@[simp] theorem State.setEng_stream (s : State) (p : Nat) (v : Engine) : (s.setEng p v).stream = s.stream := (rfl)
@[simp] theorem State.setEng_safe (s : State) (p : Nat) (v : Engine) : (s.setEng p v).safe = s.safe := (rfl)
@[simp] theorem State.setEng_pwr (s : State) (p : Nat) (v : Engine) : (s.setEng p v).pwr = s.pwr := (rfl)
@[simp] theorem State.setEng_sec (s : State) (p : Nat) (v : Engine) : (s.setEng p v).sec = s.sec := (rfl)

/-! ### `setBin` -/

@[simp] theorem State.setBin_pending (s : State) (p : Nat) (v : BinUnit) : (s.setBin p v).pending = s.pending := (rfl)
@[simp] theorem State.setBin_regs (s : State) (p : Nat) (v : BinUnit) : (s.setBin p v).regs = s.regs := (rfl)
@[simp] theorem State.setBin_mem (s : State) (p : Nat) (v : BinUnit) : (s.setBin p v).mem = s.mem := (rfl)
@[simp] theorem State.setBin_gridMem (s : State) (p : Nat) (v : BinUnit) : (s.setBin p v).gridMem = s.gridMem := (rfl)
@[simp] theorem State.setBin_planes (s : State) (p : Nat) (v : BinUnit) : (s.setBin p v).planes = s.planes := (rfl)
@[simp] theorem State.setBin_freeCtr (s : State) (p : Nat) (v : BinUnit) : (s.setBin p v).freeCtr = s.freeCtr := (rfl)
@[simp] theorem State.setBin_time (s : State) (p : Nat) (v : BinUnit) : (s.setBin p v).time = s.time := (rfl)
@[simp] theorem State.setBin_csi (s : State) (p : Nat) (v : BinUnit) : (s.setBin p v).csi = s.csi := (rfl)
@[simp] theorem State.setBin_eth (s : State) (p : Nat) (v : BinUnit) : (s.setBin p v).eth = s.eth := (rfl)
@[simp] theorem State.setBin_spi (s : State) (p : Nat) (v : BinUnit) : (s.setBin p v).spi = s.spi := (rfl)
@[simp] theorem State.setBin_wheel (s : State) (p : Nat) (v : BinUnit) : (s.setBin p v).wheel = s.wheel := (rfl)
@[simp] theorem State.setBin_can (s : State) (p : Nat) (v : BinUnit) : (s.setBin p v).can = s.can := (rfl)
@[simp] theorem State.setBin_slots (s : State) (p : Nat) (v : BinUnit) : (s.setBin p v).slots = s.slots := (rfl)
@[simp] theorem State.setBin_fend (s : State) (p : Nat) (v : BinUnit) : (s.setBin p v).fend = s.fend := (rfl)
@[simp] theorem State.setBin_surfT0 (s : State) (p : Nat) (v : BinUnit) : (s.setBin p v).surfT0 = s.surfT0 := (rfl)
@[simp] theorem State.setBin_loops (s : State) (p : Nat) (v : BinUnit) : (s.setBin p v).loops = s.loops := (rfl)
@[simp] theorem State.setBin_cores (s : State) (p : Nat) (v : BinUnit) : (s.setBin p v).cores = s.cores := (rfl)
@[simp] theorem State.setBin_routers (s : State) (p : Nat) (v : BinUnit) : (s.setBin p v).routers = s.routers := (rfl)
@[simp] theorem State.setBin_edges (s : State) (p : Nat) (v : BinUnit) : (s.setBin p v).edges = s.edges := (rfl)
@[simp] theorem State.setBin_bell (s : State) (p : Nat) (v : BinUnit) : (s.setBin p v).bell = s.bell := (rfl)
@[simp] theorem State.setBin_engines (s : State) (p : Nat) (v : BinUnit) : (s.setBin p v).engines = s.engines := (rfl)
@[simp] theorem State.setBin_tt (s : State) (p : Nat) (v : BinUnit) : (s.setBin p v).tt = s.tt := (rfl)
@[simp] theorem State.setBin_grid (s : State) (p : Nat) (v : BinUnit) : (s.setBin p v).grid = s.grid := (rfl)
@[simp] theorem State.setBin_trk (s : State) (p : Nat) (v : BinUnit) : (s.setBin p v).trk = s.trk := (rfl)
@[simp] theorem State.setBin_chain (s : State) (p : Nat) (v : BinUnit) : (s.setBin p v).chain = s.chain := (rfl)
@[simp] theorem State.setBin_ego (s : State) (p : Nat) (v : BinUnit) : (s.setBin p v).ego = s.ego := (rfl)
@[simp] theorem State.setBin_memc (s : State) (p : Nat) (v : BinUnit) : (s.setBin p v).memc = s.memc := (rfl)
@[simp] theorem State.setBin_ports (s : State) (p : Nat) (v : BinUnit) : (s.setBin p v).ports = s.ports := (rfl)
@[simp] theorem State.setBin_stream (s : State) (p : Nat) (v : BinUnit) : (s.setBin p v).stream = s.stream := (rfl)
@[simp] theorem State.setBin_safe (s : State) (p : Nat) (v : BinUnit) : (s.setBin p v).safe = s.safe := (rfl)
@[simp] theorem State.setBin_pwr (s : State) (p : Nat) (v : BinUnit) : (s.setBin p v).pwr = s.pwr := (rfl)
@[simp] theorem State.setBin_sec (s : State) (p : Nat) (v : BinUnit) : (s.setBin p v).sec = s.sec := (rfl)

/-! ### `setPort` -/

@[simp] theorem State.setPort_pending (s : State) (p : Nat) (v : HostPort) : (s.setPort p v).pending = s.pending := (rfl)
@[simp] theorem State.setPort_regs (s : State) (p : Nat) (v : HostPort) : (s.setPort p v).regs = s.regs := (rfl)
@[simp] theorem State.setPort_mem (s : State) (p : Nat) (v : HostPort) : (s.setPort p v).mem = s.mem := (rfl)
@[simp] theorem State.setPort_gridMem (s : State) (p : Nat) (v : HostPort) : (s.setPort p v).gridMem = s.gridMem := (rfl)
@[simp] theorem State.setPort_planes (s : State) (p : Nat) (v : HostPort) : (s.setPort p v).planes = s.planes := (rfl)
@[simp] theorem State.setPort_freeCtr (s : State) (p : Nat) (v : HostPort) : (s.setPort p v).freeCtr = s.freeCtr := (rfl)
@[simp] theorem State.setPort_time (s : State) (p : Nat) (v : HostPort) : (s.setPort p v).time = s.time := (rfl)
@[simp] theorem State.setPort_csi (s : State) (p : Nat) (v : HostPort) : (s.setPort p v).csi = s.csi := (rfl)
@[simp] theorem State.setPort_eth (s : State) (p : Nat) (v : HostPort) : (s.setPort p v).eth = s.eth := (rfl)
@[simp] theorem State.setPort_spi (s : State) (p : Nat) (v : HostPort) : (s.setPort p v).spi = s.spi := (rfl)
@[simp] theorem State.setPort_wheel (s : State) (p : Nat) (v : HostPort) : (s.setPort p v).wheel = s.wheel := (rfl)
@[simp] theorem State.setPort_can (s : State) (p : Nat) (v : HostPort) : (s.setPort p v).can = s.can := (rfl)
@[simp] theorem State.setPort_slots (s : State) (p : Nat) (v : HostPort) : (s.setPort p v).slots = s.slots := (rfl)
@[simp] theorem State.setPort_fend (s : State) (p : Nat) (v : HostPort) : (s.setPort p v).fend = s.fend := (rfl)
@[simp] theorem State.setPort_surfT0 (s : State) (p : Nat) (v : HostPort) : (s.setPort p v).surfT0 = s.surfT0 := (rfl)
@[simp] theorem State.setPort_loops (s : State) (p : Nat) (v : HostPort) : (s.setPort p v).loops = s.loops := (rfl)
@[simp] theorem State.setPort_cores (s : State) (p : Nat) (v : HostPort) : (s.setPort p v).cores = s.cores := (rfl)
@[simp] theorem State.setPort_routers (s : State) (p : Nat) (v : HostPort) : (s.setPort p v).routers = s.routers := (rfl)
@[simp] theorem State.setPort_edges (s : State) (p : Nat) (v : HostPort) : (s.setPort p v).edges = s.edges := (rfl)
@[simp] theorem State.setPort_bell (s : State) (p : Nat) (v : HostPort) : (s.setPort p v).bell = s.bell := (rfl)
@[simp] theorem State.setPort_engines (s : State) (p : Nat) (v : HostPort) : (s.setPort p v).engines = s.engines := (rfl)
@[simp] theorem State.setPort_bins (s : State) (p : Nat) (v : HostPort) : (s.setPort p v).bins = s.bins := (rfl)
@[simp] theorem State.setPort_tt (s : State) (p : Nat) (v : HostPort) : (s.setPort p v).tt = s.tt := (rfl)
@[simp] theorem State.setPort_grid (s : State) (p : Nat) (v : HostPort) : (s.setPort p v).grid = s.grid := (rfl)
@[simp] theorem State.setPort_trk (s : State) (p : Nat) (v : HostPort) : (s.setPort p v).trk = s.trk := (rfl)
@[simp] theorem State.setPort_chain (s : State) (p : Nat) (v : HostPort) : (s.setPort p v).chain = s.chain := (rfl)
@[simp] theorem State.setPort_ego (s : State) (p : Nat) (v : HostPort) : (s.setPort p v).ego = s.ego := (rfl)
@[simp] theorem State.setPort_memc (s : State) (p : Nat) (v : HostPort) : (s.setPort p v).memc = s.memc := (rfl)
@[simp] theorem State.setPort_stream (s : State) (p : Nat) (v : HostPort) : (s.setPort p v).stream = s.stream := (rfl)
@[simp] theorem State.setPort_safe (s : State) (p : Nat) (v : HostPort) : (s.setPort p v).safe = s.safe := (rfl)
@[simp] theorem State.setPort_pwr (s : State) (p : Nat) (v : HostPort) : (s.setPort p v).pwr = s.pwr := (rfl)
@[simp] theorem State.setPort_sec (s : State) (p : Nat) (v : HostPort) : (s.setPort p v).sec = s.sec := (rfl)

/-! ### `setNet` -/

@[simp] theorem State.setNet_pending (s : State) (p : Nat) (v : NetBase) : (s.setNet p v).pending = s.pending := (rfl)
@[simp] theorem State.setNet_regs (s : State) (p : Nat) (v : NetBase) : (s.setNet p v).regs = s.regs := (rfl)
@[simp] theorem State.setNet_mem (s : State) (p : Nat) (v : NetBase) : (s.setNet p v).mem = s.mem := (rfl)
@[simp] theorem State.setNet_gridMem (s : State) (p : Nat) (v : NetBase) : (s.setNet p v).gridMem = s.gridMem := (rfl)
@[simp] theorem State.setNet_planes (s : State) (p : Nat) (v : NetBase) : (s.setNet p v).planes = s.planes := (rfl)
@[simp] theorem State.setNet_freeCtr (s : State) (p : Nat) (v : NetBase) : (s.setNet p v).freeCtr = s.freeCtr := (rfl)
@[simp] theorem State.setNet_csi (s : State) (p : Nat) (v : NetBase) : (s.setNet p v).csi = s.csi := (rfl)
@[simp] theorem State.setNet_eth (s : State) (p : Nat) (v : NetBase) : (s.setNet p v).eth = s.eth := (rfl)
@[simp] theorem State.setNet_spi (s : State) (p : Nat) (v : NetBase) : (s.setNet p v).spi = s.spi := (rfl)
@[simp] theorem State.setNet_wheel (s : State) (p : Nat) (v : NetBase) : (s.setNet p v).wheel = s.wheel := (rfl)
@[simp] theorem State.setNet_can (s : State) (p : Nat) (v : NetBase) : (s.setNet p v).can = s.can := (rfl)
@[simp] theorem State.setNet_slots (s : State) (p : Nat) (v : NetBase) : (s.setNet p v).slots = s.slots := (rfl)
@[simp] theorem State.setNet_fend (s : State) (p : Nat) (v : NetBase) : (s.setNet p v).fend = s.fend := (rfl)
@[simp] theorem State.setNet_surfT0 (s : State) (p : Nat) (v : NetBase) : (s.setNet p v).surfT0 = s.surfT0 := (rfl)
@[simp] theorem State.setNet_loops (s : State) (p : Nat) (v : NetBase) : (s.setNet p v).loops = s.loops := (rfl)
@[simp] theorem State.setNet_cores (s : State) (p : Nat) (v : NetBase) : (s.setNet p v).cores = s.cores := (rfl)
@[simp] theorem State.setNet_routers (s : State) (p : Nat) (v : NetBase) : (s.setNet p v).routers = s.routers := (rfl)
@[simp] theorem State.setNet_edges (s : State) (p : Nat) (v : NetBase) : (s.setNet p v).edges = s.edges := (rfl)
@[simp] theorem State.setNet_bell (s : State) (p : Nat) (v : NetBase) : (s.setNet p v).bell = s.bell := (rfl)
@[simp] theorem State.setNet_engines (s : State) (p : Nat) (v : NetBase) : (s.setNet p v).engines = s.engines := (rfl)
@[simp] theorem State.setNet_bins (s : State) (p : Nat) (v : NetBase) : (s.setNet p v).bins = s.bins := (rfl)
@[simp] theorem State.setNet_tt (s : State) (p : Nat) (v : NetBase) : (s.setNet p v).tt = s.tt := (rfl)
@[simp] theorem State.setNet_grid (s : State) (p : Nat) (v : NetBase) : (s.setNet p v).grid = s.grid := (rfl)
@[simp] theorem State.setNet_trk (s : State) (p : Nat) (v : NetBase) : (s.setNet p v).trk = s.trk := (rfl)
@[simp] theorem State.setNet_chain (s : State) (p : Nat) (v : NetBase) : (s.setNet p v).chain = s.chain := (rfl)
@[simp] theorem State.setNet_ego (s : State) (p : Nat) (v : NetBase) : (s.setNet p v).ego = s.ego := (rfl)
@[simp] theorem State.setNet_memc (s : State) (p : Nat) (v : NetBase) : (s.setNet p v).memc = s.memc := (rfl)
@[simp] theorem State.setNet_ports (s : State) (p : Nat) (v : NetBase) : (s.setNet p v).ports = s.ports := (rfl)
@[simp] theorem State.setNet_stream (s : State) (p : Nat) (v : NetBase) : (s.setNet p v).stream = s.stream := (rfl)
@[simp] theorem State.setNet_safe (s : State) (p : Nat) (v : NetBase) : (s.setNet p v).safe = s.safe := (rfl)
@[simp] theorem State.setNet_pwr (s : State) (p : Nat) (v : NetBase) : (s.setNet p v).pwr = s.pwr := (rfl)
@[simp] theorem State.setNet_sec (s : State) (p : Nat) (v : NetBase) : (s.setNet p v).sec = s.sec := (rfl)

end Sys2Proof.Machine
end

