-- ==== Sys2Proof/Laws/Ops.lean ====
section
/-! SUPPORT. What each shared operation leaves alone, field by field. -/

namespace Sys2Proof.Machine

/-- What no step of a fold changes, the fold does not change. -/
theorem foldl_keeps {σ ι β : Type} (f : σ → β) (g : σ → ι → σ) (h : ∀ s x, f (g s x) = f s) (l : List ι) (s : σ) :
    f (l.foldl g s) = f s := by
  induction l generalizing s with
  | nil => rfl
  | cons x l ih => rw [List.foldl_cons, ih, h]

/-! ### `msix` -/

@[simp] theorem State.msix_pending (s : State) (h v : Nat) : (s.msix h v).pending = s.pending := by unfold State.msix; dsimp only; (repeat' split) <;> rfl
@[simp] theorem State.msix_regs (s : State) (h v : Nat) : (s.msix h v).regs = s.regs := by unfold State.msix; dsimp only; (repeat' split) <;> rfl
@[simp] theorem State.msix_mem (s : State) (h v : Nat) : (s.msix h v).mem = s.mem := by unfold State.msix; dsimp only; (repeat' split) <;> rfl
@[simp] theorem State.msix_gridMem (s : State) (h v : Nat) : (s.msix h v).gridMem = s.gridMem := by unfold State.msix; dsimp only; (repeat' split) <;> rfl
@[simp] theorem State.msix_planes (s : State) (h v : Nat) : (s.msix h v).planes = s.planes := by unfold State.msix; dsimp only; (repeat' split) <;> rfl
@[simp] theorem State.msix_freeCtr (s : State) (h v : Nat) : (s.msix h v).freeCtr = s.freeCtr := by unfold State.msix; dsimp only; (repeat' split) <;> rfl
@[simp] theorem State.msix_time (s : State) (h v : Nat) : (s.msix h v).time = s.time := by unfold State.msix; dsimp only; (repeat' split) <;> rfl
@[simp] theorem State.msix_csi (s : State) (h v : Nat) : (s.msix h v).csi = s.csi := by unfold State.msix; dsimp only; (repeat' split) <;> rfl
@[simp] theorem State.msix_eth (s : State) (h v : Nat) : (s.msix h v).eth = s.eth := by unfold State.msix; dsimp only; (repeat' split) <;> rfl
@[simp] theorem State.msix_spi (s : State) (h v : Nat) : (s.msix h v).spi = s.spi := by unfold State.msix; dsimp only; (repeat' split) <;> rfl
@[simp] theorem State.msix_wheel (s : State) (h v : Nat) : (s.msix h v).wheel = s.wheel := by unfold State.msix; dsimp only; (repeat' split) <;> rfl
@[simp] theorem State.msix_can (s : State) (h v : Nat) : (s.msix h v).can = s.can := by unfold State.msix; dsimp only; (repeat' split) <;> rfl
@[simp] theorem State.msix_slots (s : State) (h v : Nat) : (s.msix h v).slots = s.slots := by unfold State.msix; dsimp only; (repeat' split) <;> rfl
@[simp] theorem State.msix_fend (s : State) (h v : Nat) : (s.msix h v).fend = s.fend := by unfold State.msix; dsimp only; (repeat' split) <;> rfl
@[simp] theorem State.msix_surfT0 (s : State) (h v : Nat) : (s.msix h v).surfT0 = s.surfT0 := by unfold State.msix; dsimp only; (repeat' split) <;> rfl
@[simp] theorem State.msix_loops (s : State) (h v : Nat) : (s.msix h v).loops = s.loops := by unfold State.msix; dsimp only; (repeat' split) <;> rfl
@[simp] theorem State.msix_cores (s : State) (h v : Nat) : (s.msix h v).cores = s.cores := by unfold State.msix; dsimp only; (repeat' split) <;> rfl
@[simp] theorem State.msix_routers (s : State) (h v : Nat) : (s.msix h v).routers = s.routers := by unfold State.msix; dsimp only; (repeat' split) <;> rfl
@[simp] theorem State.msix_edges (s : State) (h v : Nat) : (s.msix h v).edges = s.edges := by unfold State.msix; dsimp only; (repeat' split) <;> rfl
@[simp] theorem State.msix_bell (s : State) (h v : Nat) : (s.msix h v).bell = s.bell := by unfold State.msix; dsimp only; (repeat' split) <;> rfl
@[simp] theorem State.msix_engines (s : State) (h v : Nat) : (s.msix h v).engines = s.engines := by unfold State.msix; dsimp only; (repeat' split) <;> rfl
@[simp] theorem State.msix_bins (s : State) (h v : Nat) : (s.msix h v).bins = s.bins := by unfold State.msix; dsimp only; (repeat' split) <;> rfl
@[simp] theorem State.msix_tt (s : State) (h v : Nat) : (s.msix h v).tt = s.tt := by unfold State.msix; dsimp only; (repeat' split) <;> rfl
@[simp] theorem State.msix_grid (s : State) (h v : Nat) : (s.msix h v).grid = s.grid := by unfold State.msix; dsimp only; (repeat' split) <;> rfl
@[simp] theorem State.msix_trk (s : State) (h v : Nat) : (s.msix h v).trk = s.trk := by unfold State.msix; dsimp only; (repeat' split) <;> rfl
@[simp] theorem State.msix_chain (s : State) (h v : Nat) : (s.msix h v).chain = s.chain := by unfold State.msix; dsimp only; (repeat' split) <;> rfl
@[simp] theorem State.msix_ego (s : State) (h v : Nat) : (s.msix h v).ego = s.ego := by unfold State.msix; dsimp only; (repeat' split) <;> rfl
@[simp] theorem State.msix_memc (s : State) (h v : Nat) : (s.msix h v).memc = s.memc := by unfold State.msix; dsimp only; (repeat' split) <;> rfl
@[simp] theorem State.msix_stream (s : State) (h v : Nat) : (s.msix h v).stream = s.stream := by unfold State.msix; dsimp only; (repeat' split) <;> rfl
@[simp] theorem State.msix_safe (s : State) (h v : Nat) : (s.msix h v).safe = s.safe := by unfold State.msix; dsimp only; (repeat' split) <;> rfl
@[simp] theorem State.msix_pwr (s : State) (h v : Nat) : (s.msix h v).pwr = s.pwr := by unfold State.msix; dsimp only; (repeat' split) <;> rfl
@[simp] theorem State.msix_sec (s : State) (h v : Nat) : (s.msix h v).sec = s.sec := by unfold State.msix; dsimp only; (repeat' split) <;> rfl

/-! ### `signal` -/

@[simp] theorem State.signal_pending (s : State) (p en b : Nat) : (s.signal p en b).pending = s.pending := by unfold State.signal; simp only [List.foldl]; (repeat' split) <;> simp
@[simp] theorem State.signal_regs (s : State) (p en b : Nat) : (s.signal p en b).regs = s.regs := by unfold State.signal; simp only [List.foldl]; (repeat' split) <;> simp
@[simp] theorem State.signal_mem (s : State) (p en b : Nat) : (s.signal p en b).mem = s.mem := by unfold State.signal; simp only [List.foldl]; (repeat' split) <;> simp
@[simp] theorem State.signal_gridMem (s : State) (p en b : Nat) : (s.signal p en b).gridMem = s.gridMem := by unfold State.signal; simp only [List.foldl]; (repeat' split) <;> simp
@[simp] theorem State.signal_planes (s : State) (p en b : Nat) : (s.signal p en b).planes = s.planes := by unfold State.signal; simp only [List.foldl]; (repeat' split) <;> simp
@[simp] theorem State.signal_freeCtr (s : State) (p en b : Nat) : (s.signal p en b).freeCtr = s.freeCtr := by unfold State.signal; simp only [List.foldl]; (repeat' split) <;> simp
@[simp] theorem State.signal_time (s : State) (p en b : Nat) : (s.signal p en b).time = s.time := by unfold State.signal; simp only [List.foldl]; (repeat' split) <;> simp
@[simp] theorem State.signal_csi (s : State) (p en b : Nat) : (s.signal p en b).csi = s.csi := by unfold State.signal; simp only [List.foldl]; (repeat' split) <;> simp
@[simp] theorem State.signal_eth (s : State) (p en b : Nat) : (s.signal p en b).eth = s.eth := by unfold State.signal; simp only [List.foldl]; (repeat' split) <;> simp
@[simp] theorem State.signal_spi (s : State) (p en b : Nat) : (s.signal p en b).spi = s.spi := by unfold State.signal; simp only [List.foldl]; (repeat' split) <;> simp
@[simp] theorem State.signal_wheel (s : State) (p en b : Nat) : (s.signal p en b).wheel = s.wheel := by unfold State.signal; simp only [List.foldl]; (repeat' split) <;> simp
@[simp] theorem State.signal_can (s : State) (p en b : Nat) : (s.signal p en b).can = s.can := by unfold State.signal; simp only [List.foldl]; (repeat' split) <;> simp
@[simp] theorem State.signal_slots (s : State) (p en b : Nat) : (s.signal p en b).slots = s.slots := by unfold State.signal; simp only [List.foldl]; (repeat' split) <;> simp
@[simp] theorem State.signal_fend (s : State) (p en b : Nat) : (s.signal p en b).fend = s.fend := by unfold State.signal; simp only [List.foldl]; (repeat' split) <;> simp
@[simp] theorem State.signal_surfT0 (s : State) (p en b : Nat) : (s.signal p en b).surfT0 = s.surfT0 := by unfold State.signal; simp only [List.foldl]; (repeat' split) <;> simp
@[simp] theorem State.signal_loops (s : State) (p en b : Nat) : (s.signal p en b).loops = s.loops := by unfold State.signal; simp only [List.foldl]; (repeat' split) <;> simp
@[simp] theorem State.signal_cores (s : State) (p en b : Nat) : (s.signal p en b).cores = s.cores := by unfold State.signal; simp only [List.foldl]; (repeat' split) <;> simp
@[simp] theorem State.signal_routers (s : State) (p en b : Nat) : (s.signal p en b).routers = s.routers := by unfold State.signal; simp only [List.foldl]; (repeat' split) <;> simp
@[simp] theorem State.signal_edges (s : State) (p en b : Nat) : (s.signal p en b).edges = s.edges := by unfold State.signal; simp only [List.foldl]; (repeat' split) <;> simp
@[simp] theorem State.signal_bell (s : State) (p en b : Nat) : (s.signal p en b).bell = s.bell := by unfold State.signal; simp only [List.foldl]; (repeat' split) <;> simp
@[simp] theorem State.signal_engines (s : State) (p en b : Nat) : (s.signal p en b).engines = s.engines := by unfold State.signal; simp only [List.foldl]; (repeat' split) <;> simp
@[simp] theorem State.signal_bins (s : State) (p en b : Nat) : (s.signal p en b).bins = s.bins := by unfold State.signal; simp only [List.foldl]; (repeat' split) <;> simp
@[simp] theorem State.signal_tt (s : State) (p en b : Nat) : (s.signal p en b).tt = s.tt := by unfold State.signal; simp only [List.foldl]; (repeat' split) <;> simp
@[simp] theorem State.signal_grid (s : State) (p en b : Nat) : (s.signal p en b).grid = s.grid := by unfold State.signal; simp only [List.foldl]; (repeat' split) <;> simp
@[simp] theorem State.signal_trk (s : State) (p en b : Nat) : (s.signal p en b).trk = s.trk := by unfold State.signal; simp only [List.foldl]; (repeat' split) <;> simp
@[simp] theorem State.signal_chain (s : State) (p en b : Nat) : (s.signal p en b).chain = s.chain := by unfold State.signal; simp only [List.foldl]; (repeat' split) <;> simp
@[simp] theorem State.signal_ego (s : State) (p en b : Nat) : (s.signal p en b).ego = s.ego := by unfold State.signal; simp only [List.foldl]; (repeat' split) <;> simp
@[simp] theorem State.signal_memc (s : State) (p en b : Nat) : (s.signal p en b).memc = s.memc := by unfold State.signal; simp only [List.foldl]; (repeat' split) <;> simp
@[simp] theorem State.signal_stream (s : State) (p en b : Nat) : (s.signal p en b).stream = s.stream := by unfold State.signal; simp only [List.foldl]; (repeat' split) <;> simp
@[simp] theorem State.signal_safe (s : State) (p en b : Nat) : (s.signal p en b).safe = s.safe := by unfold State.signal; simp only [List.foldl]; (repeat' split) <;> simp
@[simp] theorem State.signal_pwr (s : State) (p en b : Nat) : (s.signal p en b).pwr = s.pwr := by unfold State.signal; simp only [List.foldl]; (repeat' split) <;> simp
@[simp] theorem State.signal_sec (s : State) (p en b : Nat) : (s.signal p en b).sec = s.sec := by unfold State.signal; simp only [List.foldl]; (repeat' split) <;> simp

/-! ### `offer` -/

@[simp] theorem State.offer_pending (s : State) (o : Offer) : (s.offer o).pending = s.pending := by unfold State.offer; split <;> rfl
@[simp] theorem State.offer_regs (s : State) (o : Offer) : (s.offer o).regs = s.regs := by unfold State.offer; split <;> rfl
@[simp] theorem State.offer_mem (s : State) (o : Offer) : (s.offer o).mem = s.mem := by unfold State.offer; split <;> rfl
@[simp] theorem State.offer_gridMem (s : State) (o : Offer) : (s.offer o).gridMem = s.gridMem := by unfold State.offer; split <;> rfl
@[simp] theorem State.offer_planes (s : State) (o : Offer) : (s.offer o).planes = s.planes := by unfold State.offer; split <;> rfl
@[simp] theorem State.offer_freeCtr (s : State) (o : Offer) : (s.offer o).freeCtr = s.freeCtr := by unfold State.offer; split <;> rfl
@[simp] theorem State.offer_time (s : State) (o : Offer) : (s.offer o).time = s.time := by unfold State.offer; split <;> rfl
@[simp] theorem State.offer_csi (s : State) (o : Offer) : (s.offer o).csi = s.csi := by unfold State.offer; split <;> rfl
@[simp] theorem State.offer_eth (s : State) (o : Offer) : (s.offer o).eth = s.eth := by unfold State.offer; split <;> rfl
@[simp] theorem State.offer_spi (s : State) (o : Offer) : (s.offer o).spi = s.spi := by unfold State.offer; split <;> rfl
@[simp] theorem State.offer_wheel (s : State) (o : Offer) : (s.offer o).wheel = s.wheel := by unfold State.offer; split <;> rfl
@[simp] theorem State.offer_can (s : State) (o : Offer) : (s.offer o).can = s.can := by unfold State.offer; split <;> rfl
@[simp] theorem State.offer_slots (s : State) (o : Offer) : (s.offer o).slots = s.slots := by unfold State.offer; split <;> rfl
@[simp] theorem State.offer_fend (s : State) (o : Offer) : (s.offer o).fend = s.fend := by unfold State.offer; split <;> rfl
@[simp] theorem State.offer_surfT0 (s : State) (o : Offer) : (s.offer o).surfT0 = s.surfT0 := by unfold State.offer; split <;> rfl
@[simp] theorem State.offer_loops (s : State) (o : Offer) : (s.offer o).loops = s.loops := by unfold State.offer; split <;> rfl
@[simp] theorem State.offer_cores (s : State) (o : Offer) : (s.offer o).cores = s.cores := by unfold State.offer; split <;> rfl
@[simp] theorem State.offer_routers (s : State) (o : Offer) : (s.offer o).routers = s.routers := by unfold State.offer; split <;> rfl
@[simp] theorem State.offer_edges (s : State) (o : Offer) : (s.offer o).edges = s.edges := by unfold State.offer; split <;> rfl
@[simp] theorem State.offer_bell (s : State) (o : Offer) : (s.offer o).bell = s.bell := by unfold State.offer; split <;> rfl
@[simp] theorem State.offer_engines (s : State) (o : Offer) : (s.offer o).engines = s.engines := by unfold State.offer; split <;> rfl
@[simp] theorem State.offer_bins (s : State) (o : Offer) : (s.offer o).bins = s.bins := by unfold State.offer; split <;> rfl
@[simp] theorem State.offer_tt (s : State) (o : Offer) : (s.offer o).tt = s.tt := by unfold State.offer; split <;> rfl
@[simp] theorem State.offer_grid (s : State) (o : Offer) : (s.offer o).grid = s.grid := by unfold State.offer; split <;> rfl
@[simp] theorem State.offer_trk (s : State) (o : Offer) : (s.offer o).trk = s.trk := by unfold State.offer; split <;> rfl
@[simp] theorem State.offer_chain (s : State) (o : Offer) : (s.offer o).chain = s.chain := by unfold State.offer; split <;> rfl
@[simp] theorem State.offer_ego (s : State) (o : Offer) : (s.offer o).ego = s.ego := by unfold State.offer; split <;> rfl
@[simp] theorem State.offer_memc (s : State) (o : Offer) : (s.offer o).memc = s.memc := by unfold State.offer; split <;> rfl
@[simp] theorem State.offer_ports (s : State) (o : Offer) : (s.offer o).ports = s.ports := by unfold State.offer; split <;> rfl
@[simp] theorem State.offer_safe (s : State) (o : Offer) : (s.offer o).safe = s.safe := by unfold State.offer; split <;> rfl
@[simp] theorem State.offer_pwr (s : State) (o : Offer) : (s.offer o).pwr = s.pwr := by unfold State.offer; split <;> rfl
@[simp] theorem State.offer_sec (s : State) (o : Offer) : (s.offer o).sec = s.sec := by unfold State.offer; split <;> rfl

/-! ### `window` -/

@[simp] theorem State.window_pending (s : State) (w : Nat) (d : List Byte) : (s.window w d).pending = s.pending := by unfold State.window; split <;> rfl
@[simp] theorem State.window_regs (s : State) (w : Nat) (d : List Byte) : (s.window w d).regs = s.regs := by unfold State.window; split <;> rfl
@[simp] theorem State.window_mem (s : State) (w : Nat) (d : List Byte) : (s.window w d).mem = s.mem := by unfold State.window; split <;> rfl
@[simp] theorem State.window_gridMem (s : State) (w : Nat) (d : List Byte) : (s.window w d).gridMem = s.gridMem := by unfold State.window; split <;> rfl
@[simp] theorem State.window_planes (s : State) (w : Nat) (d : List Byte) : (s.window w d).planes = s.planes := by unfold State.window; split <;> rfl
@[simp] theorem State.window_freeCtr (s : State) (w : Nat) (d : List Byte) : (s.window w d).freeCtr = s.freeCtr := by unfold State.window; split <;> rfl
@[simp] theorem State.window_time (s : State) (w : Nat) (d : List Byte) : (s.window w d).time = s.time := by unfold State.window; split <;> rfl
@[simp] theorem State.window_csi (s : State) (w : Nat) (d : List Byte) : (s.window w d).csi = s.csi := by unfold State.window; split <;> rfl
@[simp] theorem State.window_eth (s : State) (w : Nat) (d : List Byte) : (s.window w d).eth = s.eth := by unfold State.window; split <;> rfl
@[simp] theorem State.window_spi (s : State) (w : Nat) (d : List Byte) : (s.window w d).spi = s.spi := by unfold State.window; split <;> rfl
@[simp] theorem State.window_wheel (s : State) (w : Nat) (d : List Byte) : (s.window w d).wheel = s.wheel := by unfold State.window; split <;> rfl
@[simp] theorem State.window_can (s : State) (w : Nat) (d : List Byte) : (s.window w d).can = s.can := by unfold State.window; split <;> rfl
@[simp] theorem State.window_slots (s : State) (w : Nat) (d : List Byte) : (s.window w d).slots = s.slots := by unfold State.window; split <;> rfl
@[simp] theorem State.window_fend (s : State) (w : Nat) (d : List Byte) : (s.window w d).fend = s.fend := by unfold State.window; split <;> rfl
@[simp] theorem State.window_surfT0 (s : State) (w : Nat) (d : List Byte) : (s.window w d).surfT0 = s.surfT0 := by unfold State.window; split <;> rfl
@[simp] theorem State.window_loops (s : State) (w : Nat) (d : List Byte) : (s.window w d).loops = s.loops := by unfold State.window; split <;> rfl
@[simp] theorem State.window_cores (s : State) (w : Nat) (d : List Byte) : (s.window w d).cores = s.cores := by unfold State.window; split <;> rfl
@[simp] theorem State.window_routers (s : State) (w : Nat) (d : List Byte) : (s.window w d).routers = s.routers := by unfold State.window; split <;> rfl
@[simp] theorem State.window_edges (s : State) (w : Nat) (d : List Byte) : (s.window w d).edges = s.edges := by unfold State.window; split <;> rfl
@[simp] theorem State.window_bell (s : State) (w : Nat) (d : List Byte) : (s.window w d).bell = s.bell := by unfold State.window; split <;> rfl
@[simp] theorem State.window_engines (s : State) (w : Nat) (d : List Byte) : (s.window w d).engines = s.engines := by unfold State.window; split <;> rfl
@[simp] theorem State.window_bins (s : State) (w : Nat) (d : List Byte) : (s.window w d).bins = s.bins := by unfold State.window; split <;> rfl
@[simp] theorem State.window_tt (s : State) (w : Nat) (d : List Byte) : (s.window w d).tt = s.tt := by unfold State.window; split <;> rfl
@[simp] theorem State.window_grid (s : State) (w : Nat) (d : List Byte) : (s.window w d).grid = s.grid := by unfold State.window; split <;> rfl
@[simp] theorem State.window_trk (s : State) (w : Nat) (d : List Byte) : (s.window w d).trk = s.trk := by unfold State.window; split <;> rfl
@[simp] theorem State.window_chain (s : State) (w : Nat) (d : List Byte) : (s.window w d).chain = s.chain := by unfold State.window; split <;> rfl
@[simp] theorem State.window_ego (s : State) (w : Nat) (d : List Byte) : (s.window w d).ego = s.ego := by unfold State.window; split <;> rfl
@[simp] theorem State.window_memc (s : State) (w : Nat) (d : List Byte) : (s.window w d).memc = s.memc := by unfold State.window; split <;> rfl
@[simp] theorem State.window_ports (s : State) (w : Nat) (d : List Byte) : (s.window w d).ports = s.ports := by unfold State.window; split <;> rfl
@[simp] theorem State.window_safe (s : State) (w : Nat) (d : List Byte) : (s.window w d).safe = s.safe := by unfold State.window; split <;> rfl
@[simp] theorem State.window_pwr (s : State) (w : Nat) (d : List Byte) : (s.window w d).pwr = s.pwr := by unfold State.window; split <;> rfl
@[simp] theorem State.window_sec (s : State) (w : Nat) (d : List Byte) : (s.window w d).sec = s.sec := by unfold State.window; split <;> rfl

/-! ### `logAt` -/

@[simp] theorem State.logAt_pending (s : State) (lvl p cls code : Nat) (args : List Nat) (fus : Nat) : (s.logAt lvl p cls code args fus).pending = s.pending := by unfold State.logAt; split <;> simp
@[simp] theorem State.logAt_regs (s : State) (lvl p cls code : Nat) (args : List Nat) (fus : Nat) : (s.logAt lvl p cls code args fus).regs = s.regs := by unfold State.logAt; split <;> simp
@[simp] theorem State.logAt_mem (s : State) (lvl p cls code : Nat) (args : List Nat) (fus : Nat) : (s.logAt lvl p cls code args fus).mem = s.mem := by unfold State.logAt; split <;> simp
@[simp] theorem State.logAt_gridMem (s : State) (lvl p cls code : Nat) (args : List Nat) (fus : Nat) : (s.logAt lvl p cls code args fus).gridMem = s.gridMem := by unfold State.logAt; split <;> simp
@[simp] theorem State.logAt_planes (s : State) (lvl p cls code : Nat) (args : List Nat) (fus : Nat) : (s.logAt lvl p cls code args fus).planes = s.planes := by unfold State.logAt; split <;> simp
@[simp] theorem State.logAt_freeCtr (s : State) (lvl p cls code : Nat) (args : List Nat) (fus : Nat) : (s.logAt lvl p cls code args fus).freeCtr = s.freeCtr := by unfold State.logAt; split <;> simp
@[simp] theorem State.logAt_time (s : State) (lvl p cls code : Nat) (args : List Nat) (fus : Nat) : (s.logAt lvl p cls code args fus).time = s.time := by unfold State.logAt; split <;> simp
@[simp] theorem State.logAt_csi (s : State) (lvl p cls code : Nat) (args : List Nat) (fus : Nat) : (s.logAt lvl p cls code args fus).csi = s.csi := by unfold State.logAt; split <;> simp
@[simp] theorem State.logAt_eth (s : State) (lvl p cls code : Nat) (args : List Nat) (fus : Nat) : (s.logAt lvl p cls code args fus).eth = s.eth := by unfold State.logAt; split <;> simp
@[simp] theorem State.logAt_spi (s : State) (lvl p cls code : Nat) (args : List Nat) (fus : Nat) : (s.logAt lvl p cls code args fus).spi = s.spi := by unfold State.logAt; split <;> simp
@[simp] theorem State.logAt_wheel (s : State) (lvl p cls code : Nat) (args : List Nat) (fus : Nat) : (s.logAt lvl p cls code args fus).wheel = s.wheel := by unfold State.logAt; split <;> simp
@[simp] theorem State.logAt_can (s : State) (lvl p cls code : Nat) (args : List Nat) (fus : Nat) : (s.logAt lvl p cls code args fus).can = s.can := by unfold State.logAt; split <;> simp
@[simp] theorem State.logAt_slots (s : State) (lvl p cls code : Nat) (args : List Nat) (fus : Nat) : (s.logAt lvl p cls code args fus).slots = s.slots := by unfold State.logAt; split <;> simp
@[simp] theorem State.logAt_fend (s : State) (lvl p cls code : Nat) (args : List Nat) (fus : Nat) : (s.logAt lvl p cls code args fus).fend = s.fend := by unfold State.logAt; split <;> simp
@[simp] theorem State.logAt_surfT0 (s : State) (lvl p cls code : Nat) (args : List Nat) (fus : Nat) : (s.logAt lvl p cls code args fus).surfT0 = s.surfT0 := by unfold State.logAt; split <;> simp
@[simp] theorem State.logAt_loops (s : State) (lvl p cls code : Nat) (args : List Nat) (fus : Nat) : (s.logAt lvl p cls code args fus).loops = s.loops := by unfold State.logAt; split <;> simp
@[simp] theorem State.logAt_cores (s : State) (lvl p cls code : Nat) (args : List Nat) (fus : Nat) : (s.logAt lvl p cls code args fus).cores = s.cores := by unfold State.logAt; split <;> simp
@[simp] theorem State.logAt_routers (s : State) (lvl p cls code : Nat) (args : List Nat) (fus : Nat) : (s.logAt lvl p cls code args fus).routers = s.routers := by unfold State.logAt; split <;> simp
@[simp] theorem State.logAt_edges (s : State) (lvl p cls code : Nat) (args : List Nat) (fus : Nat) : (s.logAt lvl p cls code args fus).edges = s.edges := by unfold State.logAt; split <;> simp
@[simp] theorem State.logAt_bell (s : State) (lvl p cls code : Nat) (args : List Nat) (fus : Nat) : (s.logAt lvl p cls code args fus).bell = s.bell := by unfold State.logAt; split <;> simp
@[simp] theorem State.logAt_engines (s : State) (lvl p cls code : Nat) (args : List Nat) (fus : Nat) : (s.logAt lvl p cls code args fus).engines = s.engines := by unfold State.logAt; split <;> simp
@[simp] theorem State.logAt_bins (s : State) (lvl p cls code : Nat) (args : List Nat) (fus : Nat) : (s.logAt lvl p cls code args fus).bins = s.bins := by unfold State.logAt; split <;> simp
@[simp] theorem State.logAt_tt (s : State) (lvl p cls code : Nat) (args : List Nat) (fus : Nat) : (s.logAt lvl p cls code args fus).tt = s.tt := by unfold State.logAt; split <;> simp
@[simp] theorem State.logAt_grid (s : State) (lvl p cls code : Nat) (args : List Nat) (fus : Nat) : (s.logAt lvl p cls code args fus).grid = s.grid := by unfold State.logAt; split <;> simp
@[simp] theorem State.logAt_trk (s : State) (lvl p cls code : Nat) (args : List Nat) (fus : Nat) : (s.logAt lvl p cls code args fus).trk = s.trk := by unfold State.logAt; split <;> simp
@[simp] theorem State.logAt_chain (s : State) (lvl p cls code : Nat) (args : List Nat) (fus : Nat) : (s.logAt lvl p cls code args fus).chain = s.chain := by unfold State.logAt; split <;> simp
@[simp] theorem State.logAt_ego (s : State) (lvl p cls code : Nat) (args : List Nat) (fus : Nat) : (s.logAt lvl p cls code args fus).ego = s.ego := by unfold State.logAt; split <;> simp
@[simp] theorem State.logAt_memc (s : State) (lvl p cls code : Nat) (args : List Nat) (fus : Nat) : (s.logAt lvl p cls code args fus).memc = s.memc := by unfold State.logAt; split <;> simp
@[simp] theorem State.logAt_ports (s : State) (lvl p cls code : Nat) (args : List Nat) (fus : Nat) : (s.logAt lvl p cls code args fus).ports = s.ports := by unfold State.logAt; split <;> simp
@[simp] theorem State.logAt_safe (s : State) (lvl p cls code : Nat) (args : List Nat) (fus : Nat) : (s.logAt lvl p cls code args fus).safe = s.safe := by unfold State.logAt; split <;> simp
@[simp] theorem State.logAt_pwr (s : State) (lvl p cls code : Nat) (args : List Nat) (fus : Nat) : (s.logAt lvl p cls code args fus).pwr = s.pwr := by unfold State.logAt; split <;> simp
@[simp] theorem State.logAt_sec (s : State) (lvl p cls code : Nat) (args : List Nat) (fus : Nat) : (s.logAt lvl p cls code args fus).sec = s.sec := by unfold State.logAt; split <;> simp

/-! ### `log` -/

@[simp] theorem State.log_pending (s : State) (lvl p cls code : Nat) (args : List Nat) : (s.log lvl p cls code args).pending = s.pending := by unfold State.log; simp
@[simp] theorem State.log_regs (s : State) (lvl p cls code : Nat) (args : List Nat) : (s.log lvl p cls code args).regs = s.regs := by unfold State.log; simp
@[simp] theorem State.log_mem (s : State) (lvl p cls code : Nat) (args : List Nat) : (s.log lvl p cls code args).mem = s.mem := by unfold State.log; simp
@[simp] theorem State.log_gridMem (s : State) (lvl p cls code : Nat) (args : List Nat) : (s.log lvl p cls code args).gridMem = s.gridMem := by unfold State.log; simp
@[simp] theorem State.log_planes (s : State) (lvl p cls code : Nat) (args : List Nat) : (s.log lvl p cls code args).planes = s.planes := by unfold State.log; simp
@[simp] theorem State.log_freeCtr (s : State) (lvl p cls code : Nat) (args : List Nat) : (s.log lvl p cls code args).freeCtr = s.freeCtr := by unfold State.log; simp
@[simp] theorem State.log_time (s : State) (lvl p cls code : Nat) (args : List Nat) : (s.log lvl p cls code args).time = s.time := by unfold State.log; simp
@[simp] theorem State.log_csi (s : State) (lvl p cls code : Nat) (args : List Nat) : (s.log lvl p cls code args).csi = s.csi := by unfold State.log; simp
@[simp] theorem State.log_eth (s : State) (lvl p cls code : Nat) (args : List Nat) : (s.log lvl p cls code args).eth = s.eth := by unfold State.log; simp
@[simp] theorem State.log_spi (s : State) (lvl p cls code : Nat) (args : List Nat) : (s.log lvl p cls code args).spi = s.spi := by unfold State.log; simp
@[simp] theorem State.log_wheel (s : State) (lvl p cls code : Nat) (args : List Nat) : (s.log lvl p cls code args).wheel = s.wheel := by unfold State.log; simp
@[simp] theorem State.log_can (s : State) (lvl p cls code : Nat) (args : List Nat) : (s.log lvl p cls code args).can = s.can := by unfold State.log; simp
@[simp] theorem State.log_slots (s : State) (lvl p cls code : Nat) (args : List Nat) : (s.log lvl p cls code args).slots = s.slots := by unfold State.log; simp
@[simp] theorem State.log_fend (s : State) (lvl p cls code : Nat) (args : List Nat) : (s.log lvl p cls code args).fend = s.fend := by unfold State.log; simp
@[simp] theorem State.log_surfT0 (s : State) (lvl p cls code : Nat) (args : List Nat) : (s.log lvl p cls code args).surfT0 = s.surfT0 := by unfold State.log; simp
@[simp] theorem State.log_loops (s : State) (lvl p cls code : Nat) (args : List Nat) : (s.log lvl p cls code args).loops = s.loops := by unfold State.log; simp
@[simp] theorem State.log_cores (s : State) (lvl p cls code : Nat) (args : List Nat) : (s.log lvl p cls code args).cores = s.cores := by unfold State.log; simp
@[simp] theorem State.log_routers (s : State) (lvl p cls code : Nat) (args : List Nat) : (s.log lvl p cls code args).routers = s.routers := by unfold State.log; simp
@[simp] theorem State.log_edges (s : State) (lvl p cls code : Nat) (args : List Nat) : (s.log lvl p cls code args).edges = s.edges := by unfold State.log; simp
@[simp] theorem State.log_bell (s : State) (lvl p cls code : Nat) (args : List Nat) : (s.log lvl p cls code args).bell = s.bell := by unfold State.log; simp
@[simp] theorem State.log_engines (s : State) (lvl p cls code : Nat) (args : List Nat) : (s.log lvl p cls code args).engines = s.engines := by unfold State.log; simp
@[simp] theorem State.log_bins (s : State) (lvl p cls code : Nat) (args : List Nat) : (s.log lvl p cls code args).bins = s.bins := by unfold State.log; simp
@[simp] theorem State.log_tt (s : State) (lvl p cls code : Nat) (args : List Nat) : (s.log lvl p cls code args).tt = s.tt := by unfold State.log; simp
@[simp] theorem State.log_grid (s : State) (lvl p cls code : Nat) (args : List Nat) : (s.log lvl p cls code args).grid = s.grid := by unfold State.log; simp
@[simp] theorem State.log_trk (s : State) (lvl p cls code : Nat) (args : List Nat) : (s.log lvl p cls code args).trk = s.trk := by unfold State.log; simp
@[simp] theorem State.log_chain (s : State) (lvl p cls code : Nat) (args : List Nat) : (s.log lvl p cls code args).chain = s.chain := by unfold State.log; simp
@[simp] theorem State.log_ego (s : State) (lvl p cls code : Nat) (args : List Nat) : (s.log lvl p cls code args).ego = s.ego := by unfold State.log; simp
@[simp] theorem State.log_memc (s : State) (lvl p cls code : Nat) (args : List Nat) : (s.log lvl p cls code args).memc = s.memc := by unfold State.log; simp
@[simp] theorem State.log_ports (s : State) (lvl p cls code : Nat) (args : List Nat) : (s.log lvl p cls code args).ports = s.ports := by unfold State.log; simp
@[simp] theorem State.log_safe (s : State) (lvl p cls code : Nat) (args : List Nat) : (s.log lvl p cls code args).safe = s.safe := by unfold State.log; simp
@[simp] theorem State.log_pwr (s : State) (lvl p cls code : Nat) (args : List Nat) : (s.log lvl p cls code args).pwr = s.pwr := by unfold State.log; simp
@[simp] theorem State.log_sec (s : State) (lvl p cls code : Nat) (args : List Nat) : (s.log lvl p cls code args).sec = s.sec := by unfold State.log; simp

/-! ### `event` -/

@[simp] theorem State.event_pending (s : State) (p b : Nat) : (s.event p b).pending = s.pending := by unfold State.event; split <;> simp
@[simp] theorem State.event_mem (s : State) (p b : Nat) : (s.event p b).mem = s.mem := by unfold State.event; split <;> simp
@[simp] theorem State.event_gridMem (s : State) (p b : Nat) : (s.event p b).gridMem = s.gridMem := by unfold State.event; split <;> simp
@[simp] theorem State.event_planes (s : State) (p b : Nat) : (s.event p b).planes = s.planes := by unfold State.event; split <;> simp
@[simp] theorem State.event_freeCtr (s : State) (p b : Nat) : (s.event p b).freeCtr = s.freeCtr := by unfold State.event; split <;> simp
@[simp] theorem State.event_time (s : State) (p b : Nat) : (s.event p b).time = s.time := by unfold State.event; split <;> simp
@[simp] theorem State.event_csi (s : State) (p b : Nat) : (s.event p b).csi = s.csi := by unfold State.event; split <;> simp
@[simp] theorem State.event_eth (s : State) (p b : Nat) : (s.event p b).eth = s.eth := by unfold State.event; split <;> simp
@[simp] theorem State.event_spi (s : State) (p b : Nat) : (s.event p b).spi = s.spi := by unfold State.event; split <;> simp
@[simp] theorem State.event_wheel (s : State) (p b : Nat) : (s.event p b).wheel = s.wheel := by unfold State.event; split <;> simp
@[simp] theorem State.event_can (s : State) (p b : Nat) : (s.event p b).can = s.can := by unfold State.event; split <;> simp
@[simp] theorem State.event_slots (s : State) (p b : Nat) : (s.event p b).slots = s.slots := by unfold State.event; split <;> simp
@[simp] theorem State.event_fend (s : State) (p b : Nat) : (s.event p b).fend = s.fend := by unfold State.event; split <;> simp
@[simp] theorem State.event_surfT0 (s : State) (p b : Nat) : (s.event p b).surfT0 = s.surfT0 := by unfold State.event; split <;> simp
@[simp] theorem State.event_loops (s : State) (p b : Nat) : (s.event p b).loops = s.loops := by unfold State.event; split <;> simp
@[simp] theorem State.event_cores (s : State) (p b : Nat) : (s.event p b).cores = s.cores := by unfold State.event; split <;> simp
@[simp] theorem State.event_routers (s : State) (p b : Nat) : (s.event p b).routers = s.routers := by unfold State.event; split <;> simp
@[simp] theorem State.event_edges (s : State) (p b : Nat) : (s.event p b).edges = s.edges := by unfold State.event; split <;> simp
@[simp] theorem State.event_bell (s : State) (p b : Nat) : (s.event p b).bell = s.bell := by unfold State.event; split <;> simp
@[simp] theorem State.event_engines (s : State) (p b : Nat) : (s.event p b).engines = s.engines := by unfold State.event; split <;> simp
@[simp] theorem State.event_bins (s : State) (p b : Nat) : (s.event p b).bins = s.bins := by unfold State.event; split <;> simp
@[simp] theorem State.event_tt (s : State) (p b : Nat) : (s.event p b).tt = s.tt := by unfold State.event; split <;> simp
@[simp] theorem State.event_grid (s : State) (p b : Nat) : (s.event p b).grid = s.grid := by unfold State.event; split <;> simp
@[simp] theorem State.event_trk (s : State) (p b : Nat) : (s.event p b).trk = s.trk := by unfold State.event; split <;> simp
@[simp] theorem State.event_chain (s : State) (p b : Nat) : (s.event p b).chain = s.chain := by unfold State.event; split <;> simp
@[simp] theorem State.event_ego (s : State) (p b : Nat) : (s.event p b).ego = s.ego := by unfold State.event; split <;> simp
@[simp] theorem State.event_memc (s : State) (p b : Nat) : (s.event p b).memc = s.memc := by unfold State.event; split <;> simp
@[simp] theorem State.event_stream (s : State) (p b : Nat) : (s.event p b).stream = s.stream := by unfold State.event; split <;> simp
@[simp] theorem State.event_safe (s : State) (p b : Nat) : (s.event p b).safe = s.safe := by unfold State.event; split <;> simp
@[simp] theorem State.event_pwr (s : State) (p b : Nat) : (s.event p b).pwr = s.pwr := by unfold State.event; split <;> simp
@[simp] theorem State.event_sec (s : State) (p b : Nat) : (s.event p b).sec = s.sec := by unfold State.event; split <;> simp

/-! ### `cfgIgnored` -/

@[simp] theorem State.cfgIgnored_pending (s : State) (p : Nat) : (s.cfgIgnored p).pending = s.pending := by unfold State.cfgIgnored; simp
@[simp] theorem State.cfgIgnored_mem (s : State) (p : Nat) : (s.cfgIgnored p).mem = s.mem := by unfold State.cfgIgnored; simp
@[simp] theorem State.cfgIgnored_gridMem (s : State) (p : Nat) : (s.cfgIgnored p).gridMem = s.gridMem := by unfold State.cfgIgnored; simp
@[simp] theorem State.cfgIgnored_planes (s : State) (p : Nat) : (s.cfgIgnored p).planes = s.planes := by unfold State.cfgIgnored; simp
@[simp] theorem State.cfgIgnored_freeCtr (s : State) (p : Nat) : (s.cfgIgnored p).freeCtr = s.freeCtr := by unfold State.cfgIgnored; simp
@[simp] theorem State.cfgIgnored_time (s : State) (p : Nat) : (s.cfgIgnored p).time = s.time := by unfold State.cfgIgnored; simp
@[simp] theorem State.cfgIgnored_csi (s : State) (p : Nat) : (s.cfgIgnored p).csi = s.csi := by unfold State.cfgIgnored; simp
@[simp] theorem State.cfgIgnored_eth (s : State) (p : Nat) : (s.cfgIgnored p).eth = s.eth := by unfold State.cfgIgnored; simp
@[simp] theorem State.cfgIgnored_spi (s : State) (p : Nat) : (s.cfgIgnored p).spi = s.spi := by unfold State.cfgIgnored; simp
@[simp] theorem State.cfgIgnored_wheel (s : State) (p : Nat) : (s.cfgIgnored p).wheel = s.wheel := by unfold State.cfgIgnored; simp
@[simp] theorem State.cfgIgnored_can (s : State) (p : Nat) : (s.cfgIgnored p).can = s.can := by unfold State.cfgIgnored; simp
@[simp] theorem State.cfgIgnored_slots (s : State) (p : Nat) : (s.cfgIgnored p).slots = s.slots := by unfold State.cfgIgnored; simp
@[simp] theorem State.cfgIgnored_fend (s : State) (p : Nat) : (s.cfgIgnored p).fend = s.fend := by unfold State.cfgIgnored; simp
@[simp] theorem State.cfgIgnored_surfT0 (s : State) (p : Nat) : (s.cfgIgnored p).surfT0 = s.surfT0 := by unfold State.cfgIgnored; simp
@[simp] theorem State.cfgIgnored_loops (s : State) (p : Nat) : (s.cfgIgnored p).loops = s.loops := by unfold State.cfgIgnored; simp
@[simp] theorem State.cfgIgnored_cores (s : State) (p : Nat) : (s.cfgIgnored p).cores = s.cores := by unfold State.cfgIgnored; simp
@[simp] theorem State.cfgIgnored_routers (s : State) (p : Nat) : (s.cfgIgnored p).routers = s.routers := by unfold State.cfgIgnored; simp
@[simp] theorem State.cfgIgnored_edges (s : State) (p : Nat) : (s.cfgIgnored p).edges = s.edges := by unfold State.cfgIgnored; simp
@[simp] theorem State.cfgIgnored_bell (s : State) (p : Nat) : (s.cfgIgnored p).bell = s.bell := by unfold State.cfgIgnored; simp
@[simp] theorem State.cfgIgnored_engines (s : State) (p : Nat) : (s.cfgIgnored p).engines = s.engines := by unfold State.cfgIgnored; simp
@[simp] theorem State.cfgIgnored_bins (s : State) (p : Nat) : (s.cfgIgnored p).bins = s.bins := by unfold State.cfgIgnored; simp
@[simp] theorem State.cfgIgnored_tt (s : State) (p : Nat) : (s.cfgIgnored p).tt = s.tt := by unfold State.cfgIgnored; simp
@[simp] theorem State.cfgIgnored_grid (s : State) (p : Nat) : (s.cfgIgnored p).grid = s.grid := by unfold State.cfgIgnored; simp
@[simp] theorem State.cfgIgnored_trk (s : State) (p : Nat) : (s.cfgIgnored p).trk = s.trk := by unfold State.cfgIgnored; simp
@[simp] theorem State.cfgIgnored_chain (s : State) (p : Nat) : (s.cfgIgnored p).chain = s.chain := by unfold State.cfgIgnored; simp
@[simp] theorem State.cfgIgnored_ego (s : State) (p : Nat) : (s.cfgIgnored p).ego = s.ego := by unfold State.cfgIgnored; simp
@[simp] theorem State.cfgIgnored_memc (s : State) (p : Nat) : (s.cfgIgnored p).memc = s.memc := by unfold State.cfgIgnored; simp
@[simp] theorem State.cfgIgnored_stream (s : State) (p : Nat) : (s.cfgIgnored p).stream = s.stream := by unfold State.cfgIgnored; simp
@[simp] theorem State.cfgIgnored_safe (s : State) (p : Nat) : (s.cfgIgnored p).safe = s.safe := by unfold State.cfgIgnored; simp
@[simp] theorem State.cfgIgnored_pwr (s : State) (p : Nat) : (s.cfgIgnored p).pwr = s.pwr := by unfold State.cfgIgnored; simp
@[simp] theorem State.cfgIgnored_sec (s : State) (p : Nat) : (s.cfgIgnored p).sec = s.sec := by unfold State.cfgIgnored; simp

/-! ### `toSafe` -/

@[simp] theorem State.toSafe_pending (s : State) (src p b inst : Nat) : (s.toSafe src p b inst).pending = s.pending := (rfl)
@[simp] theorem State.toSafe_regs (s : State) (src p b inst : Nat) : (s.toSafe src p b inst).regs = s.regs := (rfl)
@[simp] theorem State.toSafe_mem (s : State) (src p b inst : Nat) : (s.toSafe src p b inst).mem = s.mem := (rfl)
@[simp] theorem State.toSafe_gridMem (s : State) (src p b inst : Nat) : (s.toSafe src p b inst).gridMem = s.gridMem := (rfl)
@[simp] theorem State.toSafe_planes (s : State) (src p b inst : Nat) : (s.toSafe src p b inst).planes = s.planes := (rfl)
@[simp] theorem State.toSafe_freeCtr (s : State) (src p b inst : Nat) : (s.toSafe src p b inst).freeCtr = s.freeCtr := (rfl)
@[simp] theorem State.toSafe_time (s : State) (src p b inst : Nat) : (s.toSafe src p b inst).time = s.time := (rfl)
@[simp] theorem State.toSafe_csi (s : State) (src p b inst : Nat) : (s.toSafe src p b inst).csi = s.csi := (rfl)
@[simp] theorem State.toSafe_eth (s : State) (src p b inst : Nat) : (s.toSafe src p b inst).eth = s.eth := (rfl)
@[simp] theorem State.toSafe_spi (s : State) (src p b inst : Nat) : (s.toSafe src p b inst).spi = s.spi := (rfl)
@[simp] theorem State.toSafe_wheel (s : State) (src p b inst : Nat) : (s.toSafe src p b inst).wheel = s.wheel := (rfl)
@[simp] theorem State.toSafe_can (s : State) (src p b inst : Nat) : (s.toSafe src p b inst).can = s.can := (rfl)
@[simp] theorem State.toSafe_slots (s : State) (src p b inst : Nat) : (s.toSafe src p b inst).slots = s.slots := (rfl)
@[simp] theorem State.toSafe_fend (s : State) (src p b inst : Nat) : (s.toSafe src p b inst).fend = s.fend := (rfl)
@[simp] theorem State.toSafe_surfT0 (s : State) (src p b inst : Nat) : (s.toSafe src p b inst).surfT0 = s.surfT0 := (rfl)
@[simp] theorem State.toSafe_loops (s : State) (src p b inst : Nat) : (s.toSafe src p b inst).loops = s.loops := (rfl)
@[simp] theorem State.toSafe_cores (s : State) (src p b inst : Nat) : (s.toSafe src p b inst).cores = s.cores := (rfl)
@[simp] theorem State.toSafe_routers (s : State) (src p b inst : Nat) : (s.toSafe src p b inst).routers = s.routers := (rfl)
@[simp] theorem State.toSafe_edges (s : State) (src p b inst : Nat) : (s.toSafe src p b inst).edges = s.edges := (rfl)
@[simp] theorem State.toSafe_bell (s : State) (src p b inst : Nat) : (s.toSafe src p b inst).bell = s.bell := (rfl)
@[simp] theorem State.toSafe_engines (s : State) (src p b inst : Nat) : (s.toSafe src p b inst).engines = s.engines := (rfl)
@[simp] theorem State.toSafe_bins (s : State) (src p b inst : Nat) : (s.toSafe src p b inst).bins = s.bins := (rfl)
@[simp] theorem State.toSafe_tt (s : State) (src p b inst : Nat) : (s.toSafe src p b inst).tt = s.tt := (rfl)
@[simp] theorem State.toSafe_grid (s : State) (src p b inst : Nat) : (s.toSafe src p b inst).grid = s.grid := (rfl)
@[simp] theorem State.toSafe_trk (s : State) (src p b inst : Nat) : (s.toSafe src p b inst).trk = s.trk := (rfl)
@[simp] theorem State.toSafe_chain (s : State) (src p b inst : Nat) : (s.toSafe src p b inst).chain = s.chain := (rfl)
@[simp] theorem State.toSafe_ego (s : State) (src p b inst : Nat) : (s.toSafe src p b inst).ego = s.ego := (rfl)
@[simp] theorem State.toSafe_memc (s : State) (src p b inst : Nat) : (s.toSafe src p b inst).memc = s.memc := (rfl)
@[simp] theorem State.toSafe_ports (s : State) (src p b inst : Nat) : (s.toSafe src p b inst).ports = s.ports := (rfl)
@[simp] theorem State.toSafe_stream (s : State) (src p b inst : Nat) : (s.toSafe src p b inst).stream = s.stream := (rfl)
@[simp] theorem State.toSafe_pwr (s : State) (src p b inst : Nat) : (s.toSafe src p b inst).pwr = s.pwr := (rfl)
@[simp] theorem State.toSafe_sec (s : State) (src p b inst : Nat) : (s.toSafe src p b inst).sec = s.sec := (rfl)

/-! ### `fault` -/

@[simp] theorem State.fault_pending (s : State) (p b n : Nat) : (s.fault p b n).pending = s.pending := by unfold State.fault; dsimp only; split <;> simp
@[simp] theorem State.fault_mem (s : State) (p b n : Nat) : (s.fault p b n).mem = s.mem := by unfold State.fault; dsimp only; split <;> simp
@[simp] theorem State.fault_gridMem (s : State) (p b n : Nat) : (s.fault p b n).gridMem = s.gridMem := by unfold State.fault; dsimp only; split <;> simp
@[simp] theorem State.fault_planes (s : State) (p b n : Nat) : (s.fault p b n).planes = s.planes := by unfold State.fault; dsimp only; split <;> simp
@[simp] theorem State.fault_freeCtr (s : State) (p b n : Nat) : (s.fault p b n).freeCtr = s.freeCtr := by unfold State.fault; dsimp only; split <;> simp
@[simp] theorem State.fault_time (s : State) (p b n : Nat) : (s.fault p b n).time = s.time := by unfold State.fault; dsimp only; split <;> simp
@[simp] theorem State.fault_csi (s : State) (p b n : Nat) : (s.fault p b n).csi = s.csi := by unfold State.fault; dsimp only; split <;> simp
@[simp] theorem State.fault_eth (s : State) (p b n : Nat) : (s.fault p b n).eth = s.eth := by unfold State.fault; dsimp only; split <;> simp
@[simp] theorem State.fault_spi (s : State) (p b n : Nat) : (s.fault p b n).spi = s.spi := by unfold State.fault; dsimp only; split <;> simp
@[simp] theorem State.fault_wheel (s : State) (p b n : Nat) : (s.fault p b n).wheel = s.wheel := by unfold State.fault; dsimp only; split <;> simp
@[simp] theorem State.fault_can (s : State) (p b n : Nat) : (s.fault p b n).can = s.can := by unfold State.fault; dsimp only; split <;> simp
@[simp] theorem State.fault_slots (s : State) (p b n : Nat) : (s.fault p b n).slots = s.slots := by unfold State.fault; dsimp only; split <;> simp
@[simp] theorem State.fault_fend (s : State) (p b n : Nat) : (s.fault p b n).fend = s.fend := by unfold State.fault; dsimp only; split <;> simp
@[simp] theorem State.fault_surfT0 (s : State) (p b n : Nat) : (s.fault p b n).surfT0 = s.surfT0 := by unfold State.fault; dsimp only; split <;> simp
@[simp] theorem State.fault_loops (s : State) (p b n : Nat) : (s.fault p b n).loops = s.loops := by unfold State.fault; dsimp only; split <;> simp
@[simp] theorem State.fault_cores (s : State) (p b n : Nat) : (s.fault p b n).cores = s.cores := by unfold State.fault; dsimp only; split <;> simp
@[simp] theorem State.fault_routers (s : State) (p b n : Nat) : (s.fault p b n).routers = s.routers := by unfold State.fault; dsimp only; split <;> simp
@[simp] theorem State.fault_edges (s : State) (p b n : Nat) : (s.fault p b n).edges = s.edges := by unfold State.fault; dsimp only; split <;> simp
@[simp] theorem State.fault_bell (s : State) (p b n : Nat) : (s.fault p b n).bell = s.bell := by unfold State.fault; dsimp only; split <;> simp
@[simp] theorem State.fault_engines (s : State) (p b n : Nat) : (s.fault p b n).engines = s.engines := by unfold State.fault; dsimp only; split <;> simp
@[simp] theorem State.fault_bins (s : State) (p b n : Nat) : (s.fault p b n).bins = s.bins := by unfold State.fault; dsimp only; split <;> simp
@[simp] theorem State.fault_tt (s : State) (p b n : Nat) : (s.fault p b n).tt = s.tt := by unfold State.fault; dsimp only; split <;> simp
@[simp] theorem State.fault_grid (s : State) (p b n : Nat) : (s.fault p b n).grid = s.grid := by unfold State.fault; dsimp only; split <;> simp
@[simp] theorem State.fault_trk (s : State) (p b n : Nat) : (s.fault p b n).trk = s.trk := by unfold State.fault; dsimp only; split <;> simp
@[simp] theorem State.fault_chain (s : State) (p b n : Nat) : (s.fault p b n).chain = s.chain := by unfold State.fault; dsimp only; split <;> simp
@[simp] theorem State.fault_ego (s : State) (p b n : Nat) : (s.fault p b n).ego = s.ego := by unfold State.fault; dsimp only; split <;> simp
@[simp] theorem State.fault_memc (s : State) (p b n : Nat) : (s.fault p b n).memc = s.memc := by unfold State.fault; dsimp only; split <;> simp
@[simp] theorem State.fault_stream (s : State) (p b n : Nat) : (s.fault p b n).stream = s.stream := by unfold State.fault; dsimp only; split <;> simp
@[simp] theorem State.fault_pwr (s : State) (p b n : Nat) : (s.fault p b n).pwr = s.pwr := by unfold State.fault; dsimp only; split <;> simp
@[simp] theorem State.fault_sec (s : State) (p b n : Nat) : (s.fault p b n).sec = s.sec := by unfold State.fault; dsimp only; split <;> simp

/-! ### `recordDone` -/

@[simp] theorem State.recordDone_pending (s : State) (p : Nat) : (s.recordDone p).pending = s.pending := (rfl)
@[simp] theorem State.recordDone_regs (s : State) (p : Nat) : (s.recordDone p).regs = s.regs := (rfl)
@[simp] theorem State.recordDone_mem (s : State) (p : Nat) : (s.recordDone p).mem = s.mem := (rfl)
@[simp] theorem State.recordDone_gridMem (s : State) (p : Nat) : (s.recordDone p).gridMem = s.gridMem := (rfl)
@[simp] theorem State.recordDone_planes (s : State) (p : Nat) : (s.recordDone p).planes = s.planes := (rfl)
@[simp] theorem State.recordDone_freeCtr (s : State) (p : Nat) : (s.recordDone p).freeCtr = s.freeCtr := (rfl)
@[simp] theorem State.recordDone_time (s : State) (p : Nat) : (s.recordDone p).time = s.time := (rfl)
@[simp] theorem State.recordDone_csi (s : State) (p : Nat) : (s.recordDone p).csi = s.csi := (rfl)
@[simp] theorem State.recordDone_eth (s : State) (p : Nat) : (s.recordDone p).eth = s.eth := (rfl)
@[simp] theorem State.recordDone_spi (s : State) (p : Nat) : (s.recordDone p).spi = s.spi := (rfl)
@[simp] theorem State.recordDone_wheel (s : State) (p : Nat) : (s.recordDone p).wheel = s.wheel := (rfl)
@[simp] theorem State.recordDone_can (s : State) (p : Nat) : (s.recordDone p).can = s.can := (rfl)
@[simp] theorem State.recordDone_slots (s : State) (p : Nat) : (s.recordDone p).slots = s.slots := (rfl)
@[simp] theorem State.recordDone_fend (s : State) (p : Nat) : (s.recordDone p).fend = s.fend := (rfl)
@[simp] theorem State.recordDone_surfT0 (s : State) (p : Nat) : (s.recordDone p).surfT0 = s.surfT0 := (rfl)
@[simp] theorem State.recordDone_loops (s : State) (p : Nat) : (s.recordDone p).loops = s.loops := (rfl)
@[simp] theorem State.recordDone_cores (s : State) (p : Nat) : (s.recordDone p).cores = s.cores := (rfl)
@[simp] theorem State.recordDone_routers (s : State) (p : Nat) : (s.recordDone p).routers = s.routers := (rfl)
@[simp] theorem State.recordDone_edges (s : State) (p : Nat) : (s.recordDone p).edges = s.edges := (rfl)
@[simp] theorem State.recordDone_bell (s : State) (p : Nat) : (s.recordDone p).bell = s.bell := (rfl)
@[simp] theorem State.recordDone_engines (s : State) (p : Nat) : (s.recordDone p).engines = s.engines := (rfl)
@[simp] theorem State.recordDone_bins (s : State) (p : Nat) : (s.recordDone p).bins = s.bins := (rfl)
@[simp] theorem State.recordDone_tt (s : State) (p : Nat) : (s.recordDone p).tt = s.tt := (rfl)
@[simp] theorem State.recordDone_grid (s : State) (p : Nat) : (s.recordDone p).grid = s.grid := (rfl)
@[simp] theorem State.recordDone_trk (s : State) (p : Nat) : (s.recordDone p).trk = s.trk := (rfl)
@[simp] theorem State.recordDone_chain (s : State) (p : Nat) : (s.recordDone p).chain = s.chain := (rfl)
@[simp] theorem State.recordDone_ego (s : State) (p : Nat) : (s.recordDone p).ego = s.ego := (rfl)
@[simp] theorem State.recordDone_memc (s : State) (p : Nat) : (s.recordDone p).memc = s.memc := (rfl)
@[simp] theorem State.recordDone_ports (s : State) (p : Nat) : (s.recordDone p).ports = s.ports := (rfl)
@[simp] theorem State.recordDone_stream (s : State) (p : Nat) : (s.recordDone p).stream = s.stream := (rfl)
@[simp] theorem State.recordDone_pwr (s : State) (p : Nat) : (s.recordDone p).pwr = s.pwr := (rfl)
@[simp] theorem State.recordDone_sec (s : State) (p : Nat) : (s.recordDone p).sec = s.sec := (rfl)

/-! ### `setBlk` -/

@[simp] theorem State.setBlk_pending (s : State) (p st : Nat) : (s.setBlk p st).pending = s.pending := by unfold State.setBlk; dsimp only; split <;> (try split) <;> simp
@[simp] theorem State.setBlk_mem (s : State) (p st : Nat) : (s.setBlk p st).mem = s.mem := by unfold State.setBlk; dsimp only; split <;> (try split) <;> simp
@[simp] theorem State.setBlk_gridMem (s : State) (p st : Nat) : (s.setBlk p st).gridMem = s.gridMem := by unfold State.setBlk; dsimp only; split <;> (try split) <;> simp
@[simp] theorem State.setBlk_planes (s : State) (p st : Nat) : (s.setBlk p st).planes = s.planes := by unfold State.setBlk; dsimp only; split <;> (try split) <;> simp
@[simp] theorem State.setBlk_freeCtr (s : State) (p st : Nat) : (s.setBlk p st).freeCtr = s.freeCtr := by unfold State.setBlk; dsimp only; split <;> (try split) <;> simp
@[simp] theorem State.setBlk_time (s : State) (p st : Nat) : (s.setBlk p st).time = s.time := by unfold State.setBlk; dsimp only; split <;> (try split) <;> simp
@[simp] theorem State.setBlk_csi (s : State) (p st : Nat) : (s.setBlk p st).csi = s.csi := by unfold State.setBlk; dsimp only; split <;> (try split) <;> simp
@[simp] theorem State.setBlk_eth (s : State) (p st : Nat) : (s.setBlk p st).eth = s.eth := by unfold State.setBlk; dsimp only; split <;> (try split) <;> simp
@[simp] theorem State.setBlk_spi (s : State) (p st : Nat) : (s.setBlk p st).spi = s.spi := by unfold State.setBlk; dsimp only; split <;> (try split) <;> simp
@[simp] theorem State.setBlk_wheel (s : State) (p st : Nat) : (s.setBlk p st).wheel = s.wheel := by unfold State.setBlk; dsimp only; split <;> (try split) <;> simp
@[simp] theorem State.setBlk_can (s : State) (p st : Nat) : (s.setBlk p st).can = s.can := by unfold State.setBlk; dsimp only; split <;> (try split) <;> simp
@[simp] theorem State.setBlk_slots (s : State) (p st : Nat) : (s.setBlk p st).slots = s.slots := by unfold State.setBlk; dsimp only; split <;> (try split) <;> simp
@[simp] theorem State.setBlk_fend (s : State) (p st : Nat) : (s.setBlk p st).fend = s.fend := by unfold State.setBlk; dsimp only; split <;> (try split) <;> simp
@[simp] theorem State.setBlk_surfT0 (s : State) (p st : Nat) : (s.setBlk p st).surfT0 = s.surfT0 := by unfold State.setBlk; dsimp only; split <;> (try split) <;> simp
@[simp] theorem State.setBlk_loops (s : State) (p st : Nat) : (s.setBlk p st).loops = s.loops := by unfold State.setBlk; dsimp only; split <;> (try split) <;> simp
@[simp] theorem State.setBlk_cores (s : State) (p st : Nat) : (s.setBlk p st).cores = s.cores := by unfold State.setBlk; dsimp only; split <;> (try split) <;> simp
@[simp] theorem State.setBlk_routers (s : State) (p st : Nat) : (s.setBlk p st).routers = s.routers := by unfold State.setBlk; dsimp only; split <;> (try split) <;> simp
@[simp] theorem State.setBlk_edges (s : State) (p st : Nat) : (s.setBlk p st).edges = s.edges := by unfold State.setBlk; dsimp only; split <;> (try split) <;> simp
@[simp] theorem State.setBlk_bell (s : State) (p st : Nat) : (s.setBlk p st).bell = s.bell := by unfold State.setBlk; dsimp only; split <;> (try split) <;> simp
@[simp] theorem State.setBlk_engines (s : State) (p st : Nat) : (s.setBlk p st).engines = s.engines := by unfold State.setBlk; dsimp only; split <;> (try split) <;> simp
@[simp] theorem State.setBlk_bins (s : State) (p st : Nat) : (s.setBlk p st).bins = s.bins := by unfold State.setBlk; dsimp only; split <;> (try split) <;> simp
@[simp] theorem State.setBlk_tt (s : State) (p st : Nat) : (s.setBlk p st).tt = s.tt := by unfold State.setBlk; dsimp only; split <;> (try split) <;> simp
@[simp] theorem State.setBlk_grid (s : State) (p st : Nat) : (s.setBlk p st).grid = s.grid := by unfold State.setBlk; dsimp only; split <;> (try split) <;> simp
@[simp] theorem State.setBlk_trk (s : State) (p st : Nat) : (s.setBlk p st).trk = s.trk := by unfold State.setBlk; dsimp only; split <;> (try split) <;> simp
@[simp] theorem State.setBlk_chain (s : State) (p st : Nat) : (s.setBlk p st).chain = s.chain := by unfold State.setBlk; dsimp only; split <;> (try split) <;> simp
@[simp] theorem State.setBlk_ego (s : State) (p st : Nat) : (s.setBlk p st).ego = s.ego := by unfold State.setBlk; dsimp only; split <;> (try split) <;> simp
@[simp] theorem State.setBlk_memc (s : State) (p st : Nat) : (s.setBlk p st).memc = s.memc := by unfold State.setBlk; dsimp only; split <;> (try split) <;> simp
@[simp] theorem State.setBlk_ports (s : State) (p st : Nat) : (s.setBlk p st).ports = s.ports := by unfold State.setBlk; dsimp only; split <;> (try split) <;> simp
@[simp] theorem State.setBlk_safe (s : State) (p st : Nat) : (s.setBlk p st).safe = s.safe := by unfold State.setBlk; dsimp only; split <;> (try split) <;> simp
@[simp] theorem State.setBlk_pwr (s : State) (p st : Nat) : (s.setBlk p st).pwr = s.pwr := by unfold State.setBlk; dsimp only; split <;> (try split) <;> simp
@[simp] theorem State.setBlk_sec (s : State) (p st : Nat) : (s.setBlk p st).sec = s.sec := by unfold State.setBlk; dsimp only; split <;> (try split) <;> simp

/-! ### `cmdDone` -/

@[simp] theorem State.cmdDone_pending (s : State) (p res err : Nat) : (s.cmdDone p res err).pending = s.pending := by unfold State.cmdDone; dsimp only; (repeat' split) <;> simp
@[simp] theorem State.cmdDone_mem (s : State) (p res err : Nat) : (s.cmdDone p res err).mem = s.mem := by unfold State.cmdDone; dsimp only; (repeat' split) <;> simp
@[simp] theorem State.cmdDone_gridMem (s : State) (p res err : Nat) : (s.cmdDone p res err).gridMem = s.gridMem := by unfold State.cmdDone; dsimp only; (repeat' split) <;> simp
@[simp] theorem State.cmdDone_planes (s : State) (p res err : Nat) : (s.cmdDone p res err).planes = s.planes := by unfold State.cmdDone; dsimp only; (repeat' split) <;> simp
@[simp] theorem State.cmdDone_freeCtr (s : State) (p res err : Nat) : (s.cmdDone p res err).freeCtr = s.freeCtr := by unfold State.cmdDone; dsimp only; (repeat' split) <;> simp
@[simp] theorem State.cmdDone_time (s : State) (p res err : Nat) : (s.cmdDone p res err).time = s.time := by unfold State.cmdDone; dsimp only; (repeat' split) <;> simp
@[simp] theorem State.cmdDone_csi (s : State) (p res err : Nat) : (s.cmdDone p res err).csi = s.csi := by unfold State.cmdDone; dsimp only; (repeat' split) <;> simp
@[simp] theorem State.cmdDone_eth (s : State) (p res err : Nat) : (s.cmdDone p res err).eth = s.eth := by unfold State.cmdDone; dsimp only; (repeat' split) <;> simp
@[simp] theorem State.cmdDone_spi (s : State) (p res err : Nat) : (s.cmdDone p res err).spi = s.spi := by unfold State.cmdDone; dsimp only; (repeat' split) <;> simp
@[simp] theorem State.cmdDone_wheel (s : State) (p res err : Nat) : (s.cmdDone p res err).wheel = s.wheel := by unfold State.cmdDone; dsimp only; (repeat' split) <;> simp
@[simp] theorem State.cmdDone_can (s : State) (p res err : Nat) : (s.cmdDone p res err).can = s.can := by unfold State.cmdDone; dsimp only; (repeat' split) <;> simp
@[simp] theorem State.cmdDone_slots (s : State) (p res err : Nat) : (s.cmdDone p res err).slots = s.slots := by unfold State.cmdDone; dsimp only; (repeat' split) <;> simp
@[simp] theorem State.cmdDone_fend (s : State) (p res err : Nat) : (s.cmdDone p res err).fend = s.fend := by unfold State.cmdDone; dsimp only; (repeat' split) <;> simp
@[simp] theorem State.cmdDone_surfT0 (s : State) (p res err : Nat) : (s.cmdDone p res err).surfT0 = s.surfT0 := by unfold State.cmdDone; dsimp only; (repeat' split) <;> simp
@[simp] theorem State.cmdDone_loops (s : State) (p res err : Nat) : (s.cmdDone p res err).loops = s.loops := by unfold State.cmdDone; dsimp only; (repeat' split) <;> simp
@[simp] theorem State.cmdDone_cores (s : State) (p res err : Nat) : (s.cmdDone p res err).cores = s.cores := by unfold State.cmdDone; dsimp only; (repeat' split) <;> simp
@[simp] theorem State.cmdDone_routers (s : State) (p res err : Nat) : (s.cmdDone p res err).routers = s.routers := by unfold State.cmdDone; dsimp only; (repeat' split) <;> simp
@[simp] theorem State.cmdDone_edges (s : State) (p res err : Nat) : (s.cmdDone p res err).edges = s.edges := by unfold State.cmdDone; dsimp only; (repeat' split) <;> simp
@[simp] theorem State.cmdDone_bell (s : State) (p res err : Nat) : (s.cmdDone p res err).bell = s.bell := by unfold State.cmdDone; dsimp only; (repeat' split) <;> simp
@[simp] theorem State.cmdDone_engines (s : State) (p res err : Nat) : (s.cmdDone p res err).engines = s.engines := by unfold State.cmdDone; dsimp only; (repeat' split) <;> simp
@[simp] theorem State.cmdDone_bins (s : State) (p res err : Nat) : (s.cmdDone p res err).bins = s.bins := by unfold State.cmdDone; dsimp only; (repeat' split) <;> simp
@[simp] theorem State.cmdDone_tt (s : State) (p res err : Nat) : (s.cmdDone p res err).tt = s.tt := by unfold State.cmdDone; dsimp only; (repeat' split) <;> simp
@[simp] theorem State.cmdDone_grid (s : State) (p res err : Nat) : (s.cmdDone p res err).grid = s.grid := by unfold State.cmdDone; dsimp only; (repeat' split) <;> simp
@[simp] theorem State.cmdDone_trk (s : State) (p res err : Nat) : (s.cmdDone p res err).trk = s.trk := by unfold State.cmdDone; dsimp only; (repeat' split) <;> simp
@[simp] theorem State.cmdDone_chain (s : State) (p res err : Nat) : (s.cmdDone p res err).chain = s.chain := by unfold State.cmdDone; dsimp only; (repeat' split) <;> simp
@[simp] theorem State.cmdDone_ego (s : State) (p res err : Nat) : (s.cmdDone p res err).ego = s.ego := by unfold State.cmdDone; dsimp only; (repeat' split) <;> simp
@[simp] theorem State.cmdDone_memc (s : State) (p res err : Nat) : (s.cmdDone p res err).memc = s.memc := by unfold State.cmdDone; dsimp only; (repeat' split) <;> simp
@[simp] theorem State.cmdDone_safe (s : State) (p res err : Nat) : (s.cmdDone p res err).safe = s.safe := by unfold State.cmdDone; dsimp only; (repeat' split) <;> simp
@[simp] theorem State.cmdDone_pwr (s : State) (p res err : Nat) : (s.cmdDone p res err).pwr = s.pwr := by unfold State.cmdDone; dsimp only; (repeat' split) <;> simp
@[simp] theorem State.cmdDone_sec (s : State) (p res err : Nat) : (s.cmdDone p res err).sec = s.sec := by unfold State.cmdDone; dsimp only; (repeat' split) <;> simp

/-! ### `cmdAccept` -/

@[simp] theorem State.cmdAccept_pending (s : State) (h p code : Nat) : (s.cmdAccept h p code).pending = s.pending := by unfold State.cmdAccept; simp
@[simp] theorem State.cmdAccept_mem (s : State) (h p code : Nat) : (s.cmdAccept h p code).mem = s.mem := by unfold State.cmdAccept; simp
@[simp] theorem State.cmdAccept_gridMem (s : State) (h p code : Nat) : (s.cmdAccept h p code).gridMem = s.gridMem := by unfold State.cmdAccept; simp
@[simp] theorem State.cmdAccept_planes (s : State) (h p code : Nat) : (s.cmdAccept h p code).planes = s.planes := by unfold State.cmdAccept; simp
@[simp] theorem State.cmdAccept_freeCtr (s : State) (h p code : Nat) : (s.cmdAccept h p code).freeCtr = s.freeCtr := by unfold State.cmdAccept; simp
@[simp] theorem State.cmdAccept_time (s : State) (h p code : Nat) : (s.cmdAccept h p code).time = s.time := by unfold State.cmdAccept; simp
@[simp] theorem State.cmdAccept_csi (s : State) (h p code : Nat) : (s.cmdAccept h p code).csi = s.csi := by unfold State.cmdAccept; simp
@[simp] theorem State.cmdAccept_eth (s : State) (h p code : Nat) : (s.cmdAccept h p code).eth = s.eth := by unfold State.cmdAccept; simp
@[simp] theorem State.cmdAccept_spi (s : State) (h p code : Nat) : (s.cmdAccept h p code).spi = s.spi := by unfold State.cmdAccept; simp
@[simp] theorem State.cmdAccept_wheel (s : State) (h p code : Nat) : (s.cmdAccept h p code).wheel = s.wheel := by unfold State.cmdAccept; simp
@[simp] theorem State.cmdAccept_can (s : State) (h p code : Nat) : (s.cmdAccept h p code).can = s.can := by unfold State.cmdAccept; simp
@[simp] theorem State.cmdAccept_slots (s : State) (h p code : Nat) : (s.cmdAccept h p code).slots = s.slots := by unfold State.cmdAccept; simp
@[simp] theorem State.cmdAccept_fend (s : State) (h p code : Nat) : (s.cmdAccept h p code).fend = s.fend := by unfold State.cmdAccept; simp
@[simp] theorem State.cmdAccept_surfT0 (s : State) (h p code : Nat) : (s.cmdAccept h p code).surfT0 = s.surfT0 := by unfold State.cmdAccept; simp
@[simp] theorem State.cmdAccept_loops (s : State) (h p code : Nat) : (s.cmdAccept h p code).loops = s.loops := by unfold State.cmdAccept; simp
@[simp] theorem State.cmdAccept_cores (s : State) (h p code : Nat) : (s.cmdAccept h p code).cores = s.cores := by unfold State.cmdAccept; simp
@[simp] theorem State.cmdAccept_routers (s : State) (h p code : Nat) : (s.cmdAccept h p code).routers = s.routers := by unfold State.cmdAccept; simp
@[simp] theorem State.cmdAccept_edges (s : State) (h p code : Nat) : (s.cmdAccept h p code).edges = s.edges := by unfold State.cmdAccept; simp
@[simp] theorem State.cmdAccept_bell (s : State) (h p code : Nat) : (s.cmdAccept h p code).bell = s.bell := by unfold State.cmdAccept; simp
@[simp] theorem State.cmdAccept_engines (s : State) (h p code : Nat) : (s.cmdAccept h p code).engines = s.engines := by unfold State.cmdAccept; simp
@[simp] theorem State.cmdAccept_bins (s : State) (h p code : Nat) : (s.cmdAccept h p code).bins = s.bins := by unfold State.cmdAccept; simp
@[simp] theorem State.cmdAccept_tt (s : State) (h p code : Nat) : (s.cmdAccept h p code).tt = s.tt := by unfold State.cmdAccept; simp
@[simp] theorem State.cmdAccept_grid (s : State) (h p code : Nat) : (s.cmdAccept h p code).grid = s.grid := by unfold State.cmdAccept; simp
@[simp] theorem State.cmdAccept_trk (s : State) (h p code : Nat) : (s.cmdAccept h p code).trk = s.trk := by unfold State.cmdAccept; simp
@[simp] theorem State.cmdAccept_chain (s : State) (h p code : Nat) : (s.cmdAccept h p code).chain = s.chain := by unfold State.cmdAccept; simp
@[simp] theorem State.cmdAccept_ego (s : State) (h p code : Nat) : (s.cmdAccept h p code).ego = s.ego := by unfold State.cmdAccept; simp
@[simp] theorem State.cmdAccept_memc (s : State) (h p code : Nat) : (s.cmdAccept h p code).memc = s.memc := by unfold State.cmdAccept; simp
@[simp] theorem State.cmdAccept_ports (s : State) (h p code : Nat) : (s.cmdAccept h p code).ports = s.ports := by unfold State.cmdAccept; simp
@[simp] theorem State.cmdAccept_stream (s : State) (h p code : Nat) : (s.cmdAccept h p code).stream = s.stream := by unfold State.cmdAccept; simp
@[simp] theorem State.cmdAccept_safe (s : State) (h p code : Nat) : (s.cmdAccept h p code).safe = s.safe := by unfold State.cmdAccept; simp
@[simp] theorem State.cmdAccept_pwr (s : State) (h p code : Nat) : (s.cmdAccept h p code).pwr = s.pwr := by unfold State.cmdAccept; simp
@[simp] theorem State.cmdAccept_sec (s : State) (h p code : Nat) : (s.cmdAccept h p code).sec = s.sec := by unfold State.cmdAccept; simp

/-! ### `reply` -/

@[simp] theorem State.reply_pending (s : State) (h : Nat) (r : Access) (d : List Byte) : (s.reply h r d).pending = s.pending := by unfold State.reply; simp
@[simp] theorem State.reply_regs (s : State) (h : Nat) (r : Access) (d : List Byte) : (s.reply h r d).regs = s.regs := by unfold State.reply; simp
@[simp] theorem State.reply_mem (s : State) (h : Nat) (r : Access) (d : List Byte) : (s.reply h r d).mem = s.mem := by unfold State.reply; simp
@[simp] theorem State.reply_gridMem (s : State) (h : Nat) (r : Access) (d : List Byte) : (s.reply h r d).gridMem = s.gridMem := by unfold State.reply; simp
@[simp] theorem State.reply_planes (s : State) (h : Nat) (r : Access) (d : List Byte) : (s.reply h r d).planes = s.planes := by unfold State.reply; simp
@[simp] theorem State.reply_freeCtr (s : State) (h : Nat) (r : Access) (d : List Byte) : (s.reply h r d).freeCtr = s.freeCtr := by unfold State.reply; simp
@[simp] theorem State.reply_time (s : State) (h : Nat) (r : Access) (d : List Byte) : (s.reply h r d).time = s.time := by unfold State.reply; simp
@[simp] theorem State.reply_csi (s : State) (h : Nat) (r : Access) (d : List Byte) : (s.reply h r d).csi = s.csi := by unfold State.reply; simp
@[simp] theorem State.reply_eth (s : State) (h : Nat) (r : Access) (d : List Byte) : (s.reply h r d).eth = s.eth := by unfold State.reply; simp
@[simp] theorem State.reply_spi (s : State) (h : Nat) (r : Access) (d : List Byte) : (s.reply h r d).spi = s.spi := by unfold State.reply; simp
@[simp] theorem State.reply_wheel (s : State) (h : Nat) (r : Access) (d : List Byte) : (s.reply h r d).wheel = s.wheel := by unfold State.reply; simp
@[simp] theorem State.reply_can (s : State) (h : Nat) (r : Access) (d : List Byte) : (s.reply h r d).can = s.can := by unfold State.reply; simp
@[simp] theorem State.reply_slots (s : State) (h : Nat) (r : Access) (d : List Byte) : (s.reply h r d).slots = s.slots := by unfold State.reply; simp
@[simp] theorem State.reply_fend (s : State) (h : Nat) (r : Access) (d : List Byte) : (s.reply h r d).fend = s.fend := by unfold State.reply; simp
@[simp] theorem State.reply_surfT0 (s : State) (h : Nat) (r : Access) (d : List Byte) : (s.reply h r d).surfT0 = s.surfT0 := by unfold State.reply; simp
@[simp] theorem State.reply_loops (s : State) (h : Nat) (r : Access) (d : List Byte) : (s.reply h r d).loops = s.loops := by unfold State.reply; simp
@[simp] theorem State.reply_cores (s : State) (h : Nat) (r : Access) (d : List Byte) : (s.reply h r d).cores = s.cores := by unfold State.reply; simp
@[simp] theorem State.reply_routers (s : State) (h : Nat) (r : Access) (d : List Byte) : (s.reply h r d).routers = s.routers := by unfold State.reply; simp
@[simp] theorem State.reply_edges (s : State) (h : Nat) (r : Access) (d : List Byte) : (s.reply h r d).edges = s.edges := by unfold State.reply; simp
@[simp] theorem State.reply_bell (s : State) (h : Nat) (r : Access) (d : List Byte) : (s.reply h r d).bell = s.bell := by unfold State.reply; simp
@[simp] theorem State.reply_engines (s : State) (h : Nat) (r : Access) (d : List Byte) : (s.reply h r d).engines = s.engines := by unfold State.reply; simp
@[simp] theorem State.reply_bins (s : State) (h : Nat) (r : Access) (d : List Byte) : (s.reply h r d).bins = s.bins := by unfold State.reply; simp
@[simp] theorem State.reply_tt (s : State) (h : Nat) (r : Access) (d : List Byte) : (s.reply h r d).tt = s.tt := by unfold State.reply; simp
@[simp] theorem State.reply_grid (s : State) (h : Nat) (r : Access) (d : List Byte) : (s.reply h r d).grid = s.grid := by unfold State.reply; simp
@[simp] theorem State.reply_trk (s : State) (h : Nat) (r : Access) (d : List Byte) : (s.reply h r d).trk = s.trk := by unfold State.reply; simp
@[simp] theorem State.reply_chain (s : State) (h : Nat) (r : Access) (d : List Byte) : (s.reply h r d).chain = s.chain := by unfold State.reply; simp
@[simp] theorem State.reply_ego (s : State) (h : Nat) (r : Access) (d : List Byte) : (s.reply h r d).ego = s.ego := by unfold State.reply; simp
@[simp] theorem State.reply_memc (s : State) (h : Nat) (r : Access) (d : List Byte) : (s.reply h r d).memc = s.memc := by unfold State.reply; simp
@[simp] theorem State.reply_stream (s : State) (h : Nat) (r : Access) (d : List Byte) : (s.reply h r d).stream = s.stream := by unfold State.reply; simp
@[simp] theorem State.reply_safe (s : State) (h : Nat) (r : Access) (d : List Byte) : (s.reply h r d).safe = s.safe := by unfold State.reply; simp
@[simp] theorem State.reply_pwr (s : State) (h : Nat) (r : Access) (d : List Byte) : (s.reply h r d).pwr = s.pwr := by unfold State.reply; simp
@[simp] theorem State.reply_sec (s : State) (h : Nat) (r : Access) (d : List Byte) : (s.reply h r d).sec = s.sec := by unfold State.reply; simp

/-! ### `replyUr` -/

@[simp] theorem State.replyUr_pending (s : State) (h : Nat) : (s.replyUr h).pending = s.pending := by unfold State.replyUr; simp
@[simp] theorem State.replyUr_mem (s : State) (h : Nat) : (s.replyUr h).mem = s.mem := by unfold State.replyUr; simp
@[simp] theorem State.replyUr_gridMem (s : State) (h : Nat) : (s.replyUr h).gridMem = s.gridMem := by unfold State.replyUr; simp
@[simp] theorem State.replyUr_planes (s : State) (h : Nat) : (s.replyUr h).planes = s.planes := by unfold State.replyUr; simp
@[simp] theorem State.replyUr_freeCtr (s : State) (h : Nat) : (s.replyUr h).freeCtr = s.freeCtr := by unfold State.replyUr; simp
@[simp] theorem State.replyUr_time (s : State) (h : Nat) : (s.replyUr h).time = s.time := by unfold State.replyUr; simp
@[simp] theorem State.replyUr_csi (s : State) (h : Nat) : (s.replyUr h).csi = s.csi := by unfold State.replyUr; simp
@[simp] theorem State.replyUr_eth (s : State) (h : Nat) : (s.replyUr h).eth = s.eth := by unfold State.replyUr; simp
@[simp] theorem State.replyUr_spi (s : State) (h : Nat) : (s.replyUr h).spi = s.spi := by unfold State.replyUr; simp
@[simp] theorem State.replyUr_wheel (s : State) (h : Nat) : (s.replyUr h).wheel = s.wheel := by unfold State.replyUr; simp
@[simp] theorem State.replyUr_can (s : State) (h : Nat) : (s.replyUr h).can = s.can := by unfold State.replyUr; simp
@[simp] theorem State.replyUr_slots (s : State) (h : Nat) : (s.replyUr h).slots = s.slots := by unfold State.replyUr; simp
@[simp] theorem State.replyUr_fend (s : State) (h : Nat) : (s.replyUr h).fend = s.fend := by unfold State.replyUr; simp
@[simp] theorem State.replyUr_surfT0 (s : State) (h : Nat) : (s.replyUr h).surfT0 = s.surfT0 := by unfold State.replyUr; simp
@[simp] theorem State.replyUr_loops (s : State) (h : Nat) : (s.replyUr h).loops = s.loops := by unfold State.replyUr; simp
@[simp] theorem State.replyUr_cores (s : State) (h : Nat) : (s.replyUr h).cores = s.cores := by unfold State.replyUr; simp
@[simp] theorem State.replyUr_routers (s : State) (h : Nat) : (s.replyUr h).routers = s.routers := by unfold State.replyUr; simp
@[simp] theorem State.replyUr_edges (s : State) (h : Nat) : (s.replyUr h).edges = s.edges := by unfold State.replyUr; simp
@[simp] theorem State.replyUr_bell (s : State) (h : Nat) : (s.replyUr h).bell = s.bell := by unfold State.replyUr; simp
@[simp] theorem State.replyUr_engines (s : State) (h : Nat) : (s.replyUr h).engines = s.engines := by unfold State.replyUr; simp
@[simp] theorem State.replyUr_bins (s : State) (h : Nat) : (s.replyUr h).bins = s.bins := by unfold State.replyUr; simp
@[simp] theorem State.replyUr_tt (s : State) (h : Nat) : (s.replyUr h).tt = s.tt := by unfold State.replyUr; simp
@[simp] theorem State.replyUr_grid (s : State) (h : Nat) : (s.replyUr h).grid = s.grid := by unfold State.replyUr; simp
@[simp] theorem State.replyUr_trk (s : State) (h : Nat) : (s.replyUr h).trk = s.trk := by unfold State.replyUr; simp
@[simp] theorem State.replyUr_chain (s : State) (h : Nat) : (s.replyUr h).chain = s.chain := by unfold State.replyUr; simp
@[simp] theorem State.replyUr_ego (s : State) (h : Nat) : (s.replyUr h).ego = s.ego := by unfold State.replyUr; simp
@[simp] theorem State.replyUr_memc (s : State) (h : Nat) : (s.replyUr h).memc = s.memc := by unfold State.replyUr; simp
@[simp] theorem State.replyUr_stream (s : State) (h : Nat) : (s.replyUr h).stream = s.stream := by unfold State.replyUr; simp
@[simp] theorem State.replyUr_safe (s : State) (h : Nat) : (s.replyUr h).safe = s.safe := by unfold State.replyUr; simp
@[simp] theorem State.replyUr_pwr (s : State) (h : Nat) : (s.replyUr h).pwr = s.pwr := by unfold State.replyUr; simp
@[simp] theorem State.replyUr_sec (s : State) (h : Nat) : (s.replyUr h).sec = s.sec := by unfold State.replyUr; simp

/-! ### `replyCa` -/

@[simp] theorem State.replyCa_pending (s : State) (h : Nat) : (s.replyCa h).pending = s.pending := by unfold State.replyCa; simp
@[simp] theorem State.replyCa_mem (s : State) (h : Nat) : (s.replyCa h).mem = s.mem := by unfold State.replyCa; simp
@[simp] theorem State.replyCa_gridMem (s : State) (h : Nat) : (s.replyCa h).gridMem = s.gridMem := by unfold State.replyCa; simp
@[simp] theorem State.replyCa_planes (s : State) (h : Nat) : (s.replyCa h).planes = s.planes := by unfold State.replyCa; simp
@[simp] theorem State.replyCa_freeCtr (s : State) (h : Nat) : (s.replyCa h).freeCtr = s.freeCtr := by unfold State.replyCa; simp
@[simp] theorem State.replyCa_time (s : State) (h : Nat) : (s.replyCa h).time = s.time := by unfold State.replyCa; simp
@[simp] theorem State.replyCa_csi (s : State) (h : Nat) : (s.replyCa h).csi = s.csi := by unfold State.replyCa; simp
@[simp] theorem State.replyCa_eth (s : State) (h : Nat) : (s.replyCa h).eth = s.eth := by unfold State.replyCa; simp
@[simp] theorem State.replyCa_spi (s : State) (h : Nat) : (s.replyCa h).spi = s.spi := by unfold State.replyCa; simp
@[simp] theorem State.replyCa_wheel (s : State) (h : Nat) : (s.replyCa h).wheel = s.wheel := by unfold State.replyCa; simp
@[simp] theorem State.replyCa_can (s : State) (h : Nat) : (s.replyCa h).can = s.can := by unfold State.replyCa; simp
@[simp] theorem State.replyCa_slots (s : State) (h : Nat) : (s.replyCa h).slots = s.slots := by unfold State.replyCa; simp
@[simp] theorem State.replyCa_fend (s : State) (h : Nat) : (s.replyCa h).fend = s.fend := by unfold State.replyCa; simp
@[simp] theorem State.replyCa_surfT0 (s : State) (h : Nat) : (s.replyCa h).surfT0 = s.surfT0 := by unfold State.replyCa; simp
@[simp] theorem State.replyCa_loops (s : State) (h : Nat) : (s.replyCa h).loops = s.loops := by unfold State.replyCa; simp
@[simp] theorem State.replyCa_cores (s : State) (h : Nat) : (s.replyCa h).cores = s.cores := by unfold State.replyCa; simp
@[simp] theorem State.replyCa_routers (s : State) (h : Nat) : (s.replyCa h).routers = s.routers := by unfold State.replyCa; simp
@[simp] theorem State.replyCa_edges (s : State) (h : Nat) : (s.replyCa h).edges = s.edges := by unfold State.replyCa; simp
@[simp] theorem State.replyCa_bell (s : State) (h : Nat) : (s.replyCa h).bell = s.bell := by unfold State.replyCa; simp
@[simp] theorem State.replyCa_engines (s : State) (h : Nat) : (s.replyCa h).engines = s.engines := by unfold State.replyCa; simp
@[simp] theorem State.replyCa_bins (s : State) (h : Nat) : (s.replyCa h).bins = s.bins := by unfold State.replyCa; simp
@[simp] theorem State.replyCa_tt (s : State) (h : Nat) : (s.replyCa h).tt = s.tt := by unfold State.replyCa; simp
@[simp] theorem State.replyCa_grid (s : State) (h : Nat) : (s.replyCa h).grid = s.grid := by unfold State.replyCa; simp
@[simp] theorem State.replyCa_trk (s : State) (h : Nat) : (s.replyCa h).trk = s.trk := by unfold State.replyCa; simp
@[simp] theorem State.replyCa_chain (s : State) (h : Nat) : (s.replyCa h).chain = s.chain := by unfold State.replyCa; simp
@[simp] theorem State.replyCa_ego (s : State) (h : Nat) : (s.replyCa h).ego = s.ego := by unfold State.replyCa; simp
@[simp] theorem State.replyCa_memc (s : State) (h : Nat) : (s.replyCa h).memc = s.memc := by unfold State.replyCa; simp
@[simp] theorem State.replyCa_stream (s : State) (h : Nat) : (s.replyCa h).stream = s.stream := by unfold State.replyCa; simp
@[simp] theorem State.replyCa_safe (s : State) (h : Nat) : (s.replyCa h).safe = s.safe := by unfold State.replyCa; simp
@[simp] theorem State.replyCa_pwr (s : State) (h : Nat) : (s.replyCa h).pwr = s.pwr := by unfold State.replyCa; simp
@[simp] theorem State.replyCa_sec (s : State) (h : Nat) : (s.replyCa h).sec = s.sec := by unfold State.replyCa; simp

/-! ### `denied` -/

@[simp] theorem State.denied_pending (s : State) (h : Nat) : (s.denied h).pending = s.pending := by unfold State.denied; simp
@[simp] theorem State.denied_mem (s : State) (h : Nat) : (s.denied h).mem = s.mem := by unfold State.denied; simp
@[simp] theorem State.denied_gridMem (s : State) (h : Nat) : (s.denied h).gridMem = s.gridMem := by unfold State.denied; simp
@[simp] theorem State.denied_planes (s : State) (h : Nat) : (s.denied h).planes = s.planes := by unfold State.denied; simp
@[simp] theorem State.denied_freeCtr (s : State) (h : Nat) : (s.denied h).freeCtr = s.freeCtr := by unfold State.denied; simp
@[simp] theorem State.denied_time (s : State) (h : Nat) : (s.denied h).time = s.time := by unfold State.denied; simp
@[simp] theorem State.denied_csi (s : State) (h : Nat) : (s.denied h).csi = s.csi := by unfold State.denied; simp
@[simp] theorem State.denied_eth (s : State) (h : Nat) : (s.denied h).eth = s.eth := by unfold State.denied; simp
@[simp] theorem State.denied_spi (s : State) (h : Nat) : (s.denied h).spi = s.spi := by unfold State.denied; simp
@[simp] theorem State.denied_wheel (s : State) (h : Nat) : (s.denied h).wheel = s.wheel := by unfold State.denied; simp
@[simp] theorem State.denied_can (s : State) (h : Nat) : (s.denied h).can = s.can := by unfold State.denied; simp
@[simp] theorem State.denied_slots (s : State) (h : Nat) : (s.denied h).slots = s.slots := by unfold State.denied; simp
@[simp] theorem State.denied_fend (s : State) (h : Nat) : (s.denied h).fend = s.fend := by unfold State.denied; simp
@[simp] theorem State.denied_surfT0 (s : State) (h : Nat) : (s.denied h).surfT0 = s.surfT0 := by unfold State.denied; simp
@[simp] theorem State.denied_loops (s : State) (h : Nat) : (s.denied h).loops = s.loops := by unfold State.denied; simp
@[simp] theorem State.denied_cores (s : State) (h : Nat) : (s.denied h).cores = s.cores := by unfold State.denied; simp
@[simp] theorem State.denied_routers (s : State) (h : Nat) : (s.denied h).routers = s.routers := by unfold State.denied; simp
@[simp] theorem State.denied_edges (s : State) (h : Nat) : (s.denied h).edges = s.edges := by unfold State.denied; simp
@[simp] theorem State.denied_bell (s : State) (h : Nat) : (s.denied h).bell = s.bell := by unfold State.denied; simp
@[simp] theorem State.denied_engines (s : State) (h : Nat) : (s.denied h).engines = s.engines := by unfold State.denied; simp
@[simp] theorem State.denied_bins (s : State) (h : Nat) : (s.denied h).bins = s.bins := by unfold State.denied; simp
@[simp] theorem State.denied_tt (s : State) (h : Nat) : (s.denied h).tt = s.tt := by unfold State.denied; simp
@[simp] theorem State.denied_grid (s : State) (h : Nat) : (s.denied h).grid = s.grid := by unfold State.denied; simp
@[simp] theorem State.denied_trk (s : State) (h : Nat) : (s.denied h).trk = s.trk := by unfold State.denied; simp
@[simp] theorem State.denied_chain (s : State) (h : Nat) : (s.denied h).chain = s.chain := by unfold State.denied; simp
@[simp] theorem State.denied_ego (s : State) (h : Nat) : (s.denied h).ego = s.ego := by unfold State.denied; simp
@[simp] theorem State.denied_memc (s : State) (h : Nat) : (s.denied h).memc = s.memc := by unfold State.denied; simp
@[simp] theorem State.denied_ports (s : State) (h : Nat) : (s.denied h).ports = s.ports := by unfold State.denied; simp
@[simp] theorem State.denied_stream (s : State) (h : Nat) : (s.denied h).stream = s.stream := by unfold State.denied; simp
@[simp] theorem State.denied_safe (s : State) (h : Nat) : (s.denied h).safe = s.safe := by unfold State.denied; simp
@[simp] theorem State.denied_pwr (s : State) (h : Nat) : (s.denied h).pwr = s.pwr := by unfold State.denied; simp
@[simp] theorem State.denied_sec (s : State) (h : Nat) : (s.denied h).sec = s.sec := by unfold State.denied; simp

/-! ### `setByte` -/

@[simp] theorem State.setByte_pending (s : State) (a : Nat) (v : Byte) : (s.setByte a v).pending = s.pending := by unfold State.setByte; split <;> rfl
@[simp] theorem State.setByte_regs (s : State) (a : Nat) (v : Byte) : (s.setByte a v).regs = s.regs := by unfold State.setByte; split <;> rfl
@[simp] theorem State.setByte_planes (s : State) (a : Nat) (v : Byte) : (s.setByte a v).planes = s.planes := by unfold State.setByte; split <;> rfl
@[simp] theorem State.setByte_freeCtr (s : State) (a : Nat) (v : Byte) : (s.setByte a v).freeCtr = s.freeCtr := by unfold State.setByte; split <;> rfl
@[simp] theorem State.setByte_time (s : State) (a : Nat) (v : Byte) : (s.setByte a v).time = s.time := by unfold State.setByte; split <;> rfl
@[simp] theorem State.setByte_csi (s : State) (a : Nat) (v : Byte) : (s.setByte a v).csi = s.csi := by unfold State.setByte; split <;> rfl
@[simp] theorem State.setByte_eth (s : State) (a : Nat) (v : Byte) : (s.setByte a v).eth = s.eth := by unfold State.setByte; split <;> rfl
@[simp] theorem State.setByte_spi (s : State) (a : Nat) (v : Byte) : (s.setByte a v).spi = s.spi := by unfold State.setByte; split <;> rfl
@[simp] theorem State.setByte_wheel (s : State) (a : Nat) (v : Byte) : (s.setByte a v).wheel = s.wheel := by unfold State.setByte; split <;> rfl
@[simp] theorem State.setByte_can (s : State) (a : Nat) (v : Byte) : (s.setByte a v).can = s.can := by unfold State.setByte; split <;> rfl
@[simp] theorem State.setByte_slots (s : State) (a : Nat) (v : Byte) : (s.setByte a v).slots = s.slots := by unfold State.setByte; split <;> rfl
@[simp] theorem State.setByte_fend (s : State) (a : Nat) (v : Byte) : (s.setByte a v).fend = s.fend := by unfold State.setByte; split <;> rfl
@[simp] theorem State.setByte_surfT0 (s : State) (a : Nat) (v : Byte) : (s.setByte a v).surfT0 = s.surfT0 := by unfold State.setByte; split <;> rfl
@[simp] theorem State.setByte_loops (s : State) (a : Nat) (v : Byte) : (s.setByte a v).loops = s.loops := by unfold State.setByte; split <;> rfl
@[simp] theorem State.setByte_cores (s : State) (a : Nat) (v : Byte) : (s.setByte a v).cores = s.cores := by unfold State.setByte; split <;> rfl
@[simp] theorem State.setByte_routers (s : State) (a : Nat) (v : Byte) : (s.setByte a v).routers = s.routers := by unfold State.setByte; split <;> rfl
@[simp] theorem State.setByte_edges (s : State) (a : Nat) (v : Byte) : (s.setByte a v).edges = s.edges := by unfold State.setByte; split <;> rfl
@[simp] theorem State.setByte_bell (s : State) (a : Nat) (v : Byte) : (s.setByte a v).bell = s.bell := by unfold State.setByte; split <;> rfl
@[simp] theorem State.setByte_engines (s : State) (a : Nat) (v : Byte) : (s.setByte a v).engines = s.engines := by unfold State.setByte; split <;> rfl
@[simp] theorem State.setByte_bins (s : State) (a : Nat) (v : Byte) : (s.setByte a v).bins = s.bins := by unfold State.setByte; split <;> rfl
@[simp] theorem State.setByte_tt (s : State) (a : Nat) (v : Byte) : (s.setByte a v).tt = s.tt := by unfold State.setByte; split <;> rfl
@[simp] theorem State.setByte_grid (s : State) (a : Nat) (v : Byte) : (s.setByte a v).grid = s.grid := by unfold State.setByte; split <;> rfl
@[simp] theorem State.setByte_trk (s : State) (a : Nat) (v : Byte) : (s.setByte a v).trk = s.trk := by unfold State.setByte; split <;> rfl
@[simp] theorem State.setByte_chain (s : State) (a : Nat) (v : Byte) : (s.setByte a v).chain = s.chain := by unfold State.setByte; split <;> rfl
@[simp] theorem State.setByte_ego (s : State) (a : Nat) (v : Byte) : (s.setByte a v).ego = s.ego := by unfold State.setByte; split <;> rfl
@[simp] theorem State.setByte_memc (s : State) (a : Nat) (v : Byte) : (s.setByte a v).memc = s.memc := by unfold State.setByte; split <;> rfl
@[simp] theorem State.setByte_ports (s : State) (a : Nat) (v : Byte) : (s.setByte a v).ports = s.ports := by unfold State.setByte; split <;> rfl
@[simp] theorem State.setByte_stream (s : State) (a : Nat) (v : Byte) : (s.setByte a v).stream = s.stream := by unfold State.setByte; split <;> rfl
@[simp] theorem State.setByte_safe (s : State) (a : Nat) (v : Byte) : (s.setByte a v).safe = s.safe := by unfold State.setByte; split <;> rfl
@[simp] theorem State.setByte_pwr (s : State) (a : Nat) (v : Byte) : (s.setByte a v).pwr = s.pwr := by unfold State.setByte; split <;> rfl
@[simp] theorem State.setByte_sec (s : State) (a : Nat) (v : Byte) : (s.setByte a v).sec = s.sec := by unfold State.setByte; split <;> rfl

/-! ### `zeroMem` -/

@[simp] theorem State.zeroMem_pending (s : State) (a n : Nat) : (s.zeroMem a n).pending = s.pending := (rfl)
@[simp] theorem State.zeroMem_regs (s : State) (a n : Nat) : (s.zeroMem a n).regs = s.regs := (rfl)
@[simp] theorem State.zeroMem_gridMem (s : State) (a n : Nat) : (s.zeroMem a n).gridMem = s.gridMem := (rfl)
@[simp] theorem State.zeroMem_planes (s : State) (a n : Nat) : (s.zeroMem a n).planes = s.planes := (rfl)
@[simp] theorem State.zeroMem_freeCtr (s : State) (a n : Nat) : (s.zeroMem a n).freeCtr = s.freeCtr := (rfl)
@[simp] theorem State.zeroMem_time (s : State) (a n : Nat) : (s.zeroMem a n).time = s.time := (rfl)
@[simp] theorem State.zeroMem_csi (s : State) (a n : Nat) : (s.zeroMem a n).csi = s.csi := (rfl)
@[simp] theorem State.zeroMem_eth (s : State) (a n : Nat) : (s.zeroMem a n).eth = s.eth := (rfl)
@[simp] theorem State.zeroMem_spi (s : State) (a n : Nat) : (s.zeroMem a n).spi = s.spi := (rfl)
@[simp] theorem State.zeroMem_wheel (s : State) (a n : Nat) : (s.zeroMem a n).wheel = s.wheel := (rfl)
@[simp] theorem State.zeroMem_can (s : State) (a n : Nat) : (s.zeroMem a n).can = s.can := (rfl)
@[simp] theorem State.zeroMem_slots (s : State) (a n : Nat) : (s.zeroMem a n).slots = s.slots := (rfl)
@[simp] theorem State.zeroMem_fend (s : State) (a n : Nat) : (s.zeroMem a n).fend = s.fend := (rfl)
@[simp] theorem State.zeroMem_surfT0 (s : State) (a n : Nat) : (s.zeroMem a n).surfT0 = s.surfT0 := (rfl)
@[simp] theorem State.zeroMem_loops (s : State) (a n : Nat) : (s.zeroMem a n).loops = s.loops := (rfl)
@[simp] theorem State.zeroMem_cores (s : State) (a n : Nat) : (s.zeroMem a n).cores = s.cores := (rfl)
@[simp] theorem State.zeroMem_routers (s : State) (a n : Nat) : (s.zeroMem a n).routers = s.routers := (rfl)
@[simp] theorem State.zeroMem_edges (s : State) (a n : Nat) : (s.zeroMem a n).edges = s.edges := (rfl)
@[simp] theorem State.zeroMem_bell (s : State) (a n : Nat) : (s.zeroMem a n).bell = s.bell := (rfl)
@[simp] theorem State.zeroMem_engines (s : State) (a n : Nat) : (s.zeroMem a n).engines = s.engines := (rfl)
@[simp] theorem State.zeroMem_bins (s : State) (a n : Nat) : (s.zeroMem a n).bins = s.bins := (rfl)
@[simp] theorem State.zeroMem_tt (s : State) (a n : Nat) : (s.zeroMem a n).tt = s.tt := (rfl)
@[simp] theorem State.zeroMem_grid (s : State) (a n : Nat) : (s.zeroMem a n).grid = s.grid := (rfl)
@[simp] theorem State.zeroMem_trk (s : State) (a n : Nat) : (s.zeroMem a n).trk = s.trk := (rfl)
@[simp] theorem State.zeroMem_chain (s : State) (a n : Nat) : (s.zeroMem a n).chain = s.chain := (rfl)
@[simp] theorem State.zeroMem_ego (s : State) (a n : Nat) : (s.zeroMem a n).ego = s.ego := (rfl)
@[simp] theorem State.zeroMem_memc (s : State) (a n : Nat) : (s.zeroMem a n).memc = s.memc := (rfl)
@[simp] theorem State.zeroMem_ports (s : State) (a n : Nat) : (s.zeroMem a n).ports = s.ports := (rfl)
@[simp] theorem State.zeroMem_stream (s : State) (a n : Nat) : (s.zeroMem a n).stream = s.stream := (rfl)
@[simp] theorem State.zeroMem_safe (s : State) (a n : Nat) : (s.zeroMem a n).safe = s.safe := (rfl)
@[simp] theorem State.zeroMem_pwr (s : State) (a n : Nat) : (s.zeroMem a n).pwr = s.pwr := (rfl)
@[simp] theorem State.zeroMem_sec (s : State) (a n : Nat) : (s.zeroMem a n).sec = s.sec := (rfl)

/-! ### `secDeny` -/

@[simp] theorem State.secDeny_pending (s : State) (m a : Nat) (w : Bool) : (s.secDeny m a w).pending = s.pending := by unfold State.secDeny; simp
@[simp] theorem State.secDeny_mem (s : State) (m a : Nat) (w : Bool) : (s.secDeny m a w).mem = s.mem := by unfold State.secDeny; simp
@[simp] theorem State.secDeny_gridMem (s : State) (m a : Nat) (w : Bool) : (s.secDeny m a w).gridMem = s.gridMem := by unfold State.secDeny; simp
@[simp] theorem State.secDeny_planes (s : State) (m a : Nat) (w : Bool) : (s.secDeny m a w).planes = s.planes := by unfold State.secDeny; simp
@[simp] theorem State.secDeny_freeCtr (s : State) (m a : Nat) (w : Bool) : (s.secDeny m a w).freeCtr = s.freeCtr := by unfold State.secDeny; simp
@[simp] theorem State.secDeny_time (s : State) (m a : Nat) (w : Bool) : (s.secDeny m a w).time = s.time := by unfold State.secDeny; simp
@[simp] theorem State.secDeny_csi (s : State) (m a : Nat) (w : Bool) : (s.secDeny m a w).csi = s.csi := by unfold State.secDeny; simp
@[simp] theorem State.secDeny_eth (s : State) (m a : Nat) (w : Bool) : (s.secDeny m a w).eth = s.eth := by unfold State.secDeny; simp
@[simp] theorem State.secDeny_spi (s : State) (m a : Nat) (w : Bool) : (s.secDeny m a w).spi = s.spi := by unfold State.secDeny; simp
@[simp] theorem State.secDeny_wheel (s : State) (m a : Nat) (w : Bool) : (s.secDeny m a w).wheel = s.wheel := by unfold State.secDeny; simp
@[simp] theorem State.secDeny_can (s : State) (m a : Nat) (w : Bool) : (s.secDeny m a w).can = s.can := by unfold State.secDeny; simp
@[simp] theorem State.secDeny_slots (s : State) (m a : Nat) (w : Bool) : (s.secDeny m a w).slots = s.slots := by unfold State.secDeny; simp
@[simp] theorem State.secDeny_fend (s : State) (m a : Nat) (w : Bool) : (s.secDeny m a w).fend = s.fend := by unfold State.secDeny; simp
@[simp] theorem State.secDeny_surfT0 (s : State) (m a : Nat) (w : Bool) : (s.secDeny m a w).surfT0 = s.surfT0 := by unfold State.secDeny; simp
@[simp] theorem State.secDeny_loops (s : State) (m a : Nat) (w : Bool) : (s.secDeny m a w).loops = s.loops := by unfold State.secDeny; simp
@[simp] theorem State.secDeny_cores (s : State) (m a : Nat) (w : Bool) : (s.secDeny m a w).cores = s.cores := by unfold State.secDeny; simp
@[simp] theorem State.secDeny_routers (s : State) (m a : Nat) (w : Bool) : (s.secDeny m a w).routers = s.routers := by unfold State.secDeny; simp
@[simp] theorem State.secDeny_edges (s : State) (m a : Nat) (w : Bool) : (s.secDeny m a w).edges = s.edges := by unfold State.secDeny; simp
@[simp] theorem State.secDeny_bell (s : State) (m a : Nat) (w : Bool) : (s.secDeny m a w).bell = s.bell := by unfold State.secDeny; simp
@[simp] theorem State.secDeny_engines (s : State) (m a : Nat) (w : Bool) : (s.secDeny m a w).engines = s.engines := by unfold State.secDeny; simp
@[simp] theorem State.secDeny_bins (s : State) (m a : Nat) (w : Bool) : (s.secDeny m a w).bins = s.bins := by unfold State.secDeny; simp
@[simp] theorem State.secDeny_tt (s : State) (m a : Nat) (w : Bool) : (s.secDeny m a w).tt = s.tt := by unfold State.secDeny; simp
@[simp] theorem State.secDeny_grid (s : State) (m a : Nat) (w : Bool) : (s.secDeny m a w).grid = s.grid := by unfold State.secDeny; simp
@[simp] theorem State.secDeny_trk (s : State) (m a : Nat) (w : Bool) : (s.secDeny m a w).trk = s.trk := by unfold State.secDeny; simp
@[simp] theorem State.secDeny_chain (s : State) (m a : Nat) (w : Bool) : (s.secDeny m a w).chain = s.chain := by unfold State.secDeny; simp
@[simp] theorem State.secDeny_ego (s : State) (m a : Nat) (w : Bool) : (s.secDeny m a w).ego = s.ego := by unfold State.secDeny; simp
@[simp] theorem State.secDeny_memc (s : State) (m a : Nat) (w : Bool) : (s.secDeny m a w).memc = s.memc := by unfold State.secDeny; simp
@[simp] theorem State.secDeny_stream (s : State) (m a : Nat) (w : Bool) : (s.secDeny m a w).stream = s.stream := by unfold State.secDeny; simp
@[simp] theorem State.secDeny_safe (s : State) (m a : Nat) (w : Bool) : (s.secDeny m a w).safe = s.safe := by unfold State.secDeny; simp
@[simp] theorem State.secDeny_pwr (s : State) (m a : Nat) (w : Bool) : (s.secDeny m a w).pwr = s.pwr := by unfold State.secDeny; simp
@[simp] theorem State.secDeny_sec (s : State) (m a : Nat) (w : Bool) : (s.secDeny m a w).sec = s.sec := by unfold State.secDeny; simp

/-! ### `reservedAccess` -/

@[simp] theorem State.reservedAccess_pending (s : State) (m a : Nat) : (s.reservedAccess m a).pending = s.pending := by unfold State.reservedAccess; simp
@[simp] theorem State.reservedAccess_mem (s : State) (m a : Nat) : (s.reservedAccess m a).mem = s.mem := by unfold State.reservedAccess; simp
@[simp] theorem State.reservedAccess_gridMem (s : State) (m a : Nat) : (s.reservedAccess m a).gridMem = s.gridMem := by unfold State.reservedAccess; simp
@[simp] theorem State.reservedAccess_planes (s : State) (m a : Nat) : (s.reservedAccess m a).planes = s.planes := by unfold State.reservedAccess; simp
@[simp] theorem State.reservedAccess_freeCtr (s : State) (m a : Nat) : (s.reservedAccess m a).freeCtr = s.freeCtr := by unfold State.reservedAccess; simp
@[simp] theorem State.reservedAccess_time (s : State) (m a : Nat) : (s.reservedAccess m a).time = s.time := by unfold State.reservedAccess; simp
@[simp] theorem State.reservedAccess_csi (s : State) (m a : Nat) : (s.reservedAccess m a).csi = s.csi := by unfold State.reservedAccess; simp
@[simp] theorem State.reservedAccess_eth (s : State) (m a : Nat) : (s.reservedAccess m a).eth = s.eth := by unfold State.reservedAccess; simp
@[simp] theorem State.reservedAccess_spi (s : State) (m a : Nat) : (s.reservedAccess m a).spi = s.spi := by unfold State.reservedAccess; simp
@[simp] theorem State.reservedAccess_wheel (s : State) (m a : Nat) : (s.reservedAccess m a).wheel = s.wheel := by unfold State.reservedAccess; simp
@[simp] theorem State.reservedAccess_can (s : State) (m a : Nat) : (s.reservedAccess m a).can = s.can := by unfold State.reservedAccess; simp
@[simp] theorem State.reservedAccess_slots (s : State) (m a : Nat) : (s.reservedAccess m a).slots = s.slots := by unfold State.reservedAccess; simp
@[simp] theorem State.reservedAccess_fend (s : State) (m a : Nat) : (s.reservedAccess m a).fend = s.fend := by unfold State.reservedAccess; simp
@[simp] theorem State.reservedAccess_surfT0 (s : State) (m a : Nat) : (s.reservedAccess m a).surfT0 = s.surfT0 := by unfold State.reservedAccess; simp
@[simp] theorem State.reservedAccess_loops (s : State) (m a : Nat) : (s.reservedAccess m a).loops = s.loops := by unfold State.reservedAccess; simp
@[simp] theorem State.reservedAccess_cores (s : State) (m a : Nat) : (s.reservedAccess m a).cores = s.cores := by unfold State.reservedAccess; simp
@[simp] theorem State.reservedAccess_routers (s : State) (m a : Nat) : (s.reservedAccess m a).routers = s.routers := by unfold State.reservedAccess; simp
@[simp] theorem State.reservedAccess_edges (s : State) (m a : Nat) : (s.reservedAccess m a).edges = s.edges := by unfold State.reservedAccess; simp
@[simp] theorem State.reservedAccess_bell (s : State) (m a : Nat) : (s.reservedAccess m a).bell = s.bell := by unfold State.reservedAccess; simp
@[simp] theorem State.reservedAccess_engines (s : State) (m a : Nat) : (s.reservedAccess m a).engines = s.engines := by unfold State.reservedAccess; simp
@[simp] theorem State.reservedAccess_bins (s : State) (m a : Nat) : (s.reservedAccess m a).bins = s.bins := by unfold State.reservedAccess; simp
@[simp] theorem State.reservedAccess_tt (s : State) (m a : Nat) : (s.reservedAccess m a).tt = s.tt := by unfold State.reservedAccess; simp
@[simp] theorem State.reservedAccess_grid (s : State) (m a : Nat) : (s.reservedAccess m a).grid = s.grid := by unfold State.reservedAccess; simp
@[simp] theorem State.reservedAccess_trk (s : State) (m a : Nat) : (s.reservedAccess m a).trk = s.trk := by unfold State.reservedAccess; simp
@[simp] theorem State.reservedAccess_chain (s : State) (m a : Nat) : (s.reservedAccess m a).chain = s.chain := by unfold State.reservedAccess; simp
@[simp] theorem State.reservedAccess_ego (s : State) (m a : Nat) : (s.reservedAccess m a).ego = s.ego := by unfold State.reservedAccess; simp
@[simp] theorem State.reservedAccess_memc (s : State) (m a : Nat) : (s.reservedAccess m a).memc = s.memc := by unfold State.reservedAccess; simp
@[simp] theorem State.reservedAccess_ports (s : State) (m a : Nat) : (s.reservedAccess m a).ports = s.ports := by unfold State.reservedAccess; simp
@[simp] theorem State.reservedAccess_stream (s : State) (m a : Nat) : (s.reservedAccess m a).stream = s.stream := by unfold State.reservedAccess; simp
@[simp] theorem State.reservedAccess_safe (s : State) (m a : Nat) : (s.reservedAccess m a).safe = s.safe := by unfold State.reservedAccess; simp
@[simp] theorem State.reservedAccess_pwr (s : State) (m a : Nat) : (s.reservedAccess m a).pwr = s.pwr := by unfold State.reservedAccess; simp
@[simp] theorem State.reservedAccess_sec (s : State) (m a : Nat) : (s.reservedAccess m a).sec = s.sec := by unfold State.reservedAccess; simp

/-! ### `setBad` -/

@[simp] theorem State.setBad_pending (s : State) (g : Nat) (u : Upset) : (s.setBad g u).pending = s.pending := (rfl)
@[simp] theorem State.setBad_regs (s : State) (g : Nat) (u : Upset) : (s.setBad g u).regs = s.regs := (rfl)
@[simp] theorem State.setBad_mem (s : State) (g : Nat) (u : Upset) : (s.setBad g u).mem = s.mem := (rfl)
@[simp] theorem State.setBad_gridMem (s : State) (g : Nat) (u : Upset) : (s.setBad g u).gridMem = s.gridMem := (rfl)
@[simp] theorem State.setBad_planes (s : State) (g : Nat) (u : Upset) : (s.setBad g u).planes = s.planes := (rfl)
@[simp] theorem State.setBad_freeCtr (s : State) (g : Nat) (u : Upset) : (s.setBad g u).freeCtr = s.freeCtr := (rfl)
@[simp] theorem State.setBad_time (s : State) (g : Nat) (u : Upset) : (s.setBad g u).time = s.time := (rfl)
@[simp] theorem State.setBad_csi (s : State) (g : Nat) (u : Upset) : (s.setBad g u).csi = s.csi := (rfl)
@[simp] theorem State.setBad_eth (s : State) (g : Nat) (u : Upset) : (s.setBad g u).eth = s.eth := (rfl)
@[simp] theorem State.setBad_spi (s : State) (g : Nat) (u : Upset) : (s.setBad g u).spi = s.spi := (rfl)
@[simp] theorem State.setBad_wheel (s : State) (g : Nat) (u : Upset) : (s.setBad g u).wheel = s.wheel := (rfl)
@[simp] theorem State.setBad_can (s : State) (g : Nat) (u : Upset) : (s.setBad g u).can = s.can := (rfl)
@[simp] theorem State.setBad_slots (s : State) (g : Nat) (u : Upset) : (s.setBad g u).slots = s.slots := (rfl)
@[simp] theorem State.setBad_fend (s : State) (g : Nat) (u : Upset) : (s.setBad g u).fend = s.fend := (rfl)
@[simp] theorem State.setBad_surfT0 (s : State) (g : Nat) (u : Upset) : (s.setBad g u).surfT0 = s.surfT0 := (rfl)
@[simp] theorem State.setBad_loops (s : State) (g : Nat) (u : Upset) : (s.setBad g u).loops = s.loops := (rfl)
@[simp] theorem State.setBad_cores (s : State) (g : Nat) (u : Upset) : (s.setBad g u).cores = s.cores := (rfl)
@[simp] theorem State.setBad_routers (s : State) (g : Nat) (u : Upset) : (s.setBad g u).routers = s.routers := (rfl)
@[simp] theorem State.setBad_edges (s : State) (g : Nat) (u : Upset) : (s.setBad g u).edges = s.edges := (rfl)
@[simp] theorem State.setBad_bell (s : State) (g : Nat) (u : Upset) : (s.setBad g u).bell = s.bell := (rfl)
@[simp] theorem State.setBad_engines (s : State) (g : Nat) (u : Upset) : (s.setBad g u).engines = s.engines := (rfl)
@[simp] theorem State.setBad_bins (s : State) (g : Nat) (u : Upset) : (s.setBad g u).bins = s.bins := (rfl)
@[simp] theorem State.setBad_tt (s : State) (g : Nat) (u : Upset) : (s.setBad g u).tt = s.tt := (rfl)
@[simp] theorem State.setBad_grid (s : State) (g : Nat) (u : Upset) : (s.setBad g u).grid = s.grid := (rfl)
@[simp] theorem State.setBad_trk (s : State) (g : Nat) (u : Upset) : (s.setBad g u).trk = s.trk := (rfl)
@[simp] theorem State.setBad_chain (s : State) (g : Nat) (u : Upset) : (s.setBad g u).chain = s.chain := (rfl)
@[simp] theorem State.setBad_ego (s : State) (g : Nat) (u : Upset) : (s.setBad g u).ego = s.ego := (rfl)
@[simp] theorem State.setBad_ports (s : State) (g : Nat) (u : Upset) : (s.setBad g u).ports = s.ports := (rfl)
@[simp] theorem State.setBad_stream (s : State) (g : Nat) (u : Upset) : (s.setBad g u).stream = s.stream := (rfl)
@[simp] theorem State.setBad_safe (s : State) (g : Nat) (u : Upset) : (s.setBad g u).safe = s.safe := (rfl)
@[simp] theorem State.setBad_pwr (s : State) (g : Nat) (u : Upset) : (s.setBad g u).pwr = s.pwr := (rfl)
@[simp] theorem State.setBad_sec (s : State) (g : Nat) (u : Upset) : (s.setBad g u).sec = s.sec := (rfl)

/-! ### `clearBad` -/

@[simp] theorem State.clearBad_pending (s : State) (a n : Nat) : (s.clearBad a n).pending = s.pending := (rfl)
@[simp] theorem State.clearBad_regs (s : State) (a n : Nat) : (s.clearBad a n).regs = s.regs := (rfl)
@[simp] theorem State.clearBad_mem (s : State) (a n : Nat) : (s.clearBad a n).mem = s.mem := (rfl)
@[simp] theorem State.clearBad_gridMem (s : State) (a n : Nat) : (s.clearBad a n).gridMem = s.gridMem := (rfl)
@[simp] theorem State.clearBad_planes (s : State) (a n : Nat) : (s.clearBad a n).planes = s.planes := (rfl)
@[simp] theorem State.clearBad_freeCtr (s : State) (a n : Nat) : (s.clearBad a n).freeCtr = s.freeCtr := (rfl)
@[simp] theorem State.clearBad_time (s : State) (a n : Nat) : (s.clearBad a n).time = s.time := (rfl)
@[simp] theorem State.clearBad_csi (s : State) (a n : Nat) : (s.clearBad a n).csi = s.csi := (rfl)
@[simp] theorem State.clearBad_eth (s : State) (a n : Nat) : (s.clearBad a n).eth = s.eth := (rfl)
@[simp] theorem State.clearBad_spi (s : State) (a n : Nat) : (s.clearBad a n).spi = s.spi := (rfl)
@[simp] theorem State.clearBad_wheel (s : State) (a n : Nat) : (s.clearBad a n).wheel = s.wheel := (rfl)
@[simp] theorem State.clearBad_can (s : State) (a n : Nat) : (s.clearBad a n).can = s.can := (rfl)
@[simp] theorem State.clearBad_slots (s : State) (a n : Nat) : (s.clearBad a n).slots = s.slots := (rfl)
@[simp] theorem State.clearBad_fend (s : State) (a n : Nat) : (s.clearBad a n).fend = s.fend := (rfl)
@[simp] theorem State.clearBad_surfT0 (s : State) (a n : Nat) : (s.clearBad a n).surfT0 = s.surfT0 := (rfl)
@[simp] theorem State.clearBad_loops (s : State) (a n : Nat) : (s.clearBad a n).loops = s.loops := (rfl)
@[simp] theorem State.clearBad_cores (s : State) (a n : Nat) : (s.clearBad a n).cores = s.cores := (rfl)
@[simp] theorem State.clearBad_routers (s : State) (a n : Nat) : (s.clearBad a n).routers = s.routers := (rfl)
@[simp] theorem State.clearBad_edges (s : State) (a n : Nat) : (s.clearBad a n).edges = s.edges := (rfl)
@[simp] theorem State.clearBad_bell (s : State) (a n : Nat) : (s.clearBad a n).bell = s.bell := (rfl)
@[simp] theorem State.clearBad_engines (s : State) (a n : Nat) : (s.clearBad a n).engines = s.engines := (rfl)
@[simp] theorem State.clearBad_bins (s : State) (a n : Nat) : (s.clearBad a n).bins = s.bins := (rfl)
@[simp] theorem State.clearBad_tt (s : State) (a n : Nat) : (s.clearBad a n).tt = s.tt := (rfl)
@[simp] theorem State.clearBad_grid (s : State) (a n : Nat) : (s.clearBad a n).grid = s.grid := (rfl)
@[simp] theorem State.clearBad_trk (s : State) (a n : Nat) : (s.clearBad a n).trk = s.trk := (rfl)
@[simp] theorem State.clearBad_chain (s : State) (a n : Nat) : (s.clearBad a n).chain = s.chain := (rfl)
@[simp] theorem State.clearBad_ego (s : State) (a n : Nat) : (s.clearBad a n).ego = s.ego := (rfl)
@[simp] theorem State.clearBad_ports (s : State) (a n : Nat) : (s.clearBad a n).ports = s.ports := (rfl)
@[simp] theorem State.clearBad_stream (s : State) (a n : Nat) : (s.clearBad a n).stream = s.stream := (rfl)
@[simp] theorem State.clearBad_safe (s : State) (a n : Nat) : (s.clearBad a n).safe = s.safe := (rfl)
@[simp] theorem State.clearBad_pwr (s : State) (a n : Nat) : (s.clearBad a n).pwr = s.pwr := (rfl)
@[simp] theorem State.clearBad_sec (s : State) (a n : Nat) : (s.clearBad a n).sec = s.sec := (rfl)

/-! ### `clearCommonsBad` -/

@[simp] theorem State.clearCommonsBad_pending (s : State) (a n : Nat) : (s.clearCommonsBad a n).pending = s.pending := (rfl)
@[simp] theorem State.clearCommonsBad_regs (s : State) (a n : Nat) : (s.clearCommonsBad a n).regs = s.regs := (rfl)
@[simp] theorem State.clearCommonsBad_mem (s : State) (a n : Nat) : (s.clearCommonsBad a n).mem = s.mem := (rfl)
@[simp] theorem State.clearCommonsBad_gridMem (s : State) (a n : Nat) : (s.clearCommonsBad a n).gridMem = s.gridMem := (rfl)
@[simp] theorem State.clearCommonsBad_planes (s : State) (a n : Nat) : (s.clearCommonsBad a n).planes = s.planes := (rfl)
@[simp] theorem State.clearCommonsBad_freeCtr (s : State) (a n : Nat) : (s.clearCommonsBad a n).freeCtr = s.freeCtr := (rfl)
@[simp] theorem State.clearCommonsBad_time (s : State) (a n : Nat) : (s.clearCommonsBad a n).time = s.time := (rfl)
@[simp] theorem State.clearCommonsBad_csi (s : State) (a n : Nat) : (s.clearCommonsBad a n).csi = s.csi := (rfl)
@[simp] theorem State.clearCommonsBad_eth (s : State) (a n : Nat) : (s.clearCommonsBad a n).eth = s.eth := (rfl)
@[simp] theorem State.clearCommonsBad_spi (s : State) (a n : Nat) : (s.clearCommonsBad a n).spi = s.spi := (rfl)
@[simp] theorem State.clearCommonsBad_wheel (s : State) (a n : Nat) : (s.clearCommonsBad a n).wheel = s.wheel := (rfl)
@[simp] theorem State.clearCommonsBad_can (s : State) (a n : Nat) : (s.clearCommonsBad a n).can = s.can := (rfl)
@[simp] theorem State.clearCommonsBad_slots (s : State) (a n : Nat) : (s.clearCommonsBad a n).slots = s.slots := (rfl)
@[simp] theorem State.clearCommonsBad_fend (s : State) (a n : Nat) : (s.clearCommonsBad a n).fend = s.fend := (rfl)
@[simp] theorem State.clearCommonsBad_surfT0 (s : State) (a n : Nat) : (s.clearCommonsBad a n).surfT0 = s.surfT0 := (rfl)
@[simp] theorem State.clearCommonsBad_loops (s : State) (a n : Nat) : (s.clearCommonsBad a n).loops = s.loops := (rfl)
@[simp] theorem State.clearCommonsBad_cores (s : State) (a n : Nat) : (s.clearCommonsBad a n).cores = s.cores := (rfl)
@[simp] theorem State.clearCommonsBad_routers (s : State) (a n : Nat) : (s.clearCommonsBad a n).routers = s.routers := (rfl)
@[simp] theorem State.clearCommonsBad_edges (s : State) (a n : Nat) : (s.clearCommonsBad a n).edges = s.edges := (rfl)
@[simp] theorem State.clearCommonsBad_bell (s : State) (a n : Nat) : (s.clearCommonsBad a n).bell = s.bell := (rfl)
@[simp] theorem State.clearCommonsBad_engines (s : State) (a n : Nat) : (s.clearCommonsBad a n).engines = s.engines := (rfl)
@[simp] theorem State.clearCommonsBad_bins (s : State) (a n : Nat) : (s.clearCommonsBad a n).bins = s.bins := (rfl)
@[simp] theorem State.clearCommonsBad_tt (s : State) (a n : Nat) : (s.clearCommonsBad a n).tt = s.tt := (rfl)
@[simp] theorem State.clearCommonsBad_grid (s : State) (a n : Nat) : (s.clearCommonsBad a n).grid = s.grid := (rfl)
@[simp] theorem State.clearCommonsBad_trk (s : State) (a n : Nat) : (s.clearCommonsBad a n).trk = s.trk := (rfl)
@[simp] theorem State.clearCommonsBad_chain (s : State) (a n : Nat) : (s.clearCommonsBad a n).chain = s.chain := (rfl)
@[simp] theorem State.clearCommonsBad_ego (s : State) (a n : Nat) : (s.clearCommonsBad a n).ego = s.ego := (rfl)
@[simp] theorem State.clearCommonsBad_ports (s : State) (a n : Nat) : (s.clearCommonsBad a n).ports = s.ports := (rfl)
@[simp] theorem State.clearCommonsBad_stream (s : State) (a n : Nat) : (s.clearCommonsBad a n).stream = s.stream := (rfl)
@[simp] theorem State.clearCommonsBad_safe (s : State) (a n : Nat) : (s.clearCommonsBad a n).safe = s.safe := (rfl)
@[simp] theorem State.clearCommonsBad_pwr (s : State) (a n : Nat) : (s.clearCommonsBad a n).pwr = s.pwr := (rfl)
@[simp] theorem State.clearCommonsBad_sec (s : State) (a n : Nat) : (s.clearCommonsBad a n).sec = s.sec := (rfl)

/-! ### `setCommonsBad` -/

@[simp] theorem State.setCommonsBad_pending (s : State) (w : Nat) (u : Upset) : (s.setCommonsBad w u).pending = s.pending := (rfl)
@[simp] theorem State.setCommonsBad_regs (s : State) (w : Nat) (u : Upset) : (s.setCommonsBad w u).regs = s.regs := (rfl)
@[simp] theorem State.setCommonsBad_mem (s : State) (w : Nat) (u : Upset) : (s.setCommonsBad w u).mem = s.mem := (rfl)
@[simp] theorem State.setCommonsBad_gridMem (s : State) (w : Nat) (u : Upset) : (s.setCommonsBad w u).gridMem = s.gridMem := (rfl)
@[simp] theorem State.setCommonsBad_planes (s : State) (w : Nat) (u : Upset) : (s.setCommonsBad w u).planes = s.planes := (rfl)
@[simp] theorem State.setCommonsBad_freeCtr (s : State) (w : Nat) (u : Upset) : (s.setCommonsBad w u).freeCtr = s.freeCtr := (rfl)
@[simp] theorem State.setCommonsBad_time (s : State) (w : Nat) (u : Upset) : (s.setCommonsBad w u).time = s.time := (rfl)
@[simp] theorem State.setCommonsBad_csi (s : State) (w : Nat) (u : Upset) : (s.setCommonsBad w u).csi = s.csi := (rfl)
@[simp] theorem State.setCommonsBad_eth (s : State) (w : Nat) (u : Upset) : (s.setCommonsBad w u).eth = s.eth := (rfl)
@[simp] theorem State.setCommonsBad_spi (s : State) (w : Nat) (u : Upset) : (s.setCommonsBad w u).spi = s.spi := (rfl)
@[simp] theorem State.setCommonsBad_wheel (s : State) (w : Nat) (u : Upset) : (s.setCommonsBad w u).wheel = s.wheel := (rfl)
@[simp] theorem State.setCommonsBad_can (s : State) (w : Nat) (u : Upset) : (s.setCommonsBad w u).can = s.can := (rfl)
@[simp] theorem State.setCommonsBad_slots (s : State) (w : Nat) (u : Upset) : (s.setCommonsBad w u).slots = s.slots := (rfl)
@[simp] theorem State.setCommonsBad_fend (s : State) (w : Nat) (u : Upset) : (s.setCommonsBad w u).fend = s.fend := (rfl)
@[simp] theorem State.setCommonsBad_surfT0 (s : State) (w : Nat) (u : Upset) : (s.setCommonsBad w u).surfT0 = s.surfT0 := (rfl)
@[simp] theorem State.setCommonsBad_loops (s : State) (w : Nat) (u : Upset) : (s.setCommonsBad w u).loops = s.loops := (rfl)
@[simp] theorem State.setCommonsBad_cores (s : State) (w : Nat) (u : Upset) : (s.setCommonsBad w u).cores = s.cores := (rfl)
@[simp] theorem State.setCommonsBad_routers (s : State) (w : Nat) (u : Upset) : (s.setCommonsBad w u).routers = s.routers := (rfl)
@[simp] theorem State.setCommonsBad_edges (s : State) (w : Nat) (u : Upset) : (s.setCommonsBad w u).edges = s.edges := (rfl)
@[simp] theorem State.setCommonsBad_bell (s : State) (w : Nat) (u : Upset) : (s.setCommonsBad w u).bell = s.bell := (rfl)
@[simp] theorem State.setCommonsBad_engines (s : State) (w : Nat) (u : Upset) : (s.setCommonsBad w u).engines = s.engines := (rfl)
@[simp] theorem State.setCommonsBad_bins (s : State) (w : Nat) (u : Upset) : (s.setCommonsBad w u).bins = s.bins := (rfl)
@[simp] theorem State.setCommonsBad_tt (s : State) (w : Nat) (u : Upset) : (s.setCommonsBad w u).tt = s.tt := (rfl)
@[simp] theorem State.setCommonsBad_grid (s : State) (w : Nat) (u : Upset) : (s.setCommonsBad w u).grid = s.grid := (rfl)
@[simp] theorem State.setCommonsBad_trk (s : State) (w : Nat) (u : Upset) : (s.setCommonsBad w u).trk = s.trk := (rfl)
@[simp] theorem State.setCommonsBad_chain (s : State) (w : Nat) (u : Upset) : (s.setCommonsBad w u).chain = s.chain := (rfl)
@[simp] theorem State.setCommonsBad_ego (s : State) (w : Nat) (u : Upset) : (s.setCommonsBad w u).ego = s.ego := (rfl)
@[simp] theorem State.setCommonsBad_ports (s : State) (w : Nat) (u : Upset) : (s.setCommonsBad w u).ports = s.ports := (rfl)
@[simp] theorem State.setCommonsBad_stream (s : State) (w : Nat) (u : Upset) : (s.setCommonsBad w u).stream = s.stream := (rfl)
@[simp] theorem State.setCommonsBad_safe (s : State) (w : Nat) (u : Upset) : (s.setCommonsBad w u).safe = s.safe := (rfl)
@[simp] theorem State.setCommonsBad_pwr (s : State) (w : Nat) (u : Upset) : (s.setCommonsBad w u).pwr = s.pwr := (rfl)
@[simp] theorem State.setCommonsBad_sec (s : State) (w : Nat) (u : Upset) : (s.setCommonsBad w u).sec = s.sec := (rfl)

/-! ### `eccLast` -/

@[simp] theorem State.eccLast_pending (s : State) (k g fl : Nat) : (s.eccLast k g fl).pending = s.pending := by unfold State.eccLast; simp
@[simp] theorem State.eccLast_mem (s : State) (k g fl : Nat) : (s.eccLast k g fl).mem = s.mem := by unfold State.eccLast; simp
@[simp] theorem State.eccLast_gridMem (s : State) (k g fl : Nat) : (s.eccLast k g fl).gridMem = s.gridMem := by unfold State.eccLast; simp
@[simp] theorem State.eccLast_planes (s : State) (k g fl : Nat) : (s.eccLast k g fl).planes = s.planes := by unfold State.eccLast; simp
@[simp] theorem State.eccLast_freeCtr (s : State) (k g fl : Nat) : (s.eccLast k g fl).freeCtr = s.freeCtr := by unfold State.eccLast; simp
@[simp] theorem State.eccLast_time (s : State) (k g fl : Nat) : (s.eccLast k g fl).time = s.time := by unfold State.eccLast; simp
@[simp] theorem State.eccLast_csi (s : State) (k g fl : Nat) : (s.eccLast k g fl).csi = s.csi := by unfold State.eccLast; simp
@[simp] theorem State.eccLast_eth (s : State) (k g fl : Nat) : (s.eccLast k g fl).eth = s.eth := by unfold State.eccLast; simp
@[simp] theorem State.eccLast_spi (s : State) (k g fl : Nat) : (s.eccLast k g fl).spi = s.spi := by unfold State.eccLast; simp
@[simp] theorem State.eccLast_wheel (s : State) (k g fl : Nat) : (s.eccLast k g fl).wheel = s.wheel := by unfold State.eccLast; simp
@[simp] theorem State.eccLast_can (s : State) (k g fl : Nat) : (s.eccLast k g fl).can = s.can := by unfold State.eccLast; simp
@[simp] theorem State.eccLast_slots (s : State) (k g fl : Nat) : (s.eccLast k g fl).slots = s.slots := by unfold State.eccLast; simp
@[simp] theorem State.eccLast_fend (s : State) (k g fl : Nat) : (s.eccLast k g fl).fend = s.fend := by unfold State.eccLast; simp
@[simp] theorem State.eccLast_surfT0 (s : State) (k g fl : Nat) : (s.eccLast k g fl).surfT0 = s.surfT0 := by unfold State.eccLast; simp
@[simp] theorem State.eccLast_loops (s : State) (k g fl : Nat) : (s.eccLast k g fl).loops = s.loops := by unfold State.eccLast; simp
@[simp] theorem State.eccLast_cores (s : State) (k g fl : Nat) : (s.eccLast k g fl).cores = s.cores := by unfold State.eccLast; simp
@[simp] theorem State.eccLast_routers (s : State) (k g fl : Nat) : (s.eccLast k g fl).routers = s.routers := by unfold State.eccLast; simp
@[simp] theorem State.eccLast_edges (s : State) (k g fl : Nat) : (s.eccLast k g fl).edges = s.edges := by unfold State.eccLast; simp
@[simp] theorem State.eccLast_bell (s : State) (k g fl : Nat) : (s.eccLast k g fl).bell = s.bell := by unfold State.eccLast; simp
@[simp] theorem State.eccLast_engines (s : State) (k g fl : Nat) : (s.eccLast k g fl).engines = s.engines := by unfold State.eccLast; simp
@[simp] theorem State.eccLast_bins (s : State) (k g fl : Nat) : (s.eccLast k g fl).bins = s.bins := by unfold State.eccLast; simp
@[simp] theorem State.eccLast_tt (s : State) (k g fl : Nat) : (s.eccLast k g fl).tt = s.tt := by unfold State.eccLast; simp
@[simp] theorem State.eccLast_grid (s : State) (k g fl : Nat) : (s.eccLast k g fl).grid = s.grid := by unfold State.eccLast; simp
@[simp] theorem State.eccLast_trk (s : State) (k g fl : Nat) : (s.eccLast k g fl).trk = s.trk := by unfold State.eccLast; simp
@[simp] theorem State.eccLast_chain (s : State) (k g fl : Nat) : (s.eccLast k g fl).chain = s.chain := by unfold State.eccLast; simp
@[simp] theorem State.eccLast_ego (s : State) (k g fl : Nat) : (s.eccLast k g fl).ego = s.ego := by unfold State.eccLast; simp
@[simp] theorem State.eccLast_memc (s : State) (k g fl : Nat) : (s.eccLast k g fl).memc = s.memc := by unfold State.eccLast; simp
@[simp] theorem State.eccLast_ports (s : State) (k g fl : Nat) : (s.eccLast k g fl).ports = s.ports := by unfold State.eccLast; simp
@[simp] theorem State.eccLast_stream (s : State) (k g fl : Nat) : (s.eccLast k g fl).stream = s.stream := by unfold State.eccLast; simp
@[simp] theorem State.eccLast_safe (s : State) (k g fl : Nat) : (s.eccLast k g fl).safe = s.safe := by unfold State.eccLast; simp
@[simp] theorem State.eccLast_pwr (s : State) (k g fl : Nat) : (s.eccLast k g fl).pwr = s.pwr := by unfold State.eccLast; simp
@[simp] theorem State.eccLast_sec (s : State) (k g fl : Nat) : (s.eccLast k g fl).sec = s.sec := by unfold State.eccLast; simp

/-! ### `injectOn` -/

@[simp] theorem State.injectOn_pending (s : State) (a n : Nat) : (s.injectOn a n).pending = s.pending := by unfold State.injectOn; simp only []; split <;> simp
@[simp] theorem State.injectOn_mem (s : State) (a n : Nat) : (s.injectOn a n).mem = s.mem := by unfold State.injectOn; simp only []; split <;> simp
@[simp] theorem State.injectOn_gridMem (s : State) (a n : Nat) : (s.injectOn a n).gridMem = s.gridMem := by unfold State.injectOn; simp only []; split <;> simp
@[simp] theorem State.injectOn_planes (s : State) (a n : Nat) : (s.injectOn a n).planes = s.planes := by unfold State.injectOn; simp only []; split <;> simp
@[simp] theorem State.injectOn_freeCtr (s : State) (a n : Nat) : (s.injectOn a n).freeCtr = s.freeCtr := by unfold State.injectOn; simp only []; split <;> simp
@[simp] theorem State.injectOn_time (s : State) (a n : Nat) : (s.injectOn a n).time = s.time := by unfold State.injectOn; simp only []; split <;> simp
@[simp] theorem State.injectOn_csi (s : State) (a n : Nat) : (s.injectOn a n).csi = s.csi := by unfold State.injectOn; simp only []; split <;> simp
@[simp] theorem State.injectOn_eth (s : State) (a n : Nat) : (s.injectOn a n).eth = s.eth := by unfold State.injectOn; simp only []; split <;> simp
@[simp] theorem State.injectOn_spi (s : State) (a n : Nat) : (s.injectOn a n).spi = s.spi := by unfold State.injectOn; simp only []; split <;> simp
@[simp] theorem State.injectOn_wheel (s : State) (a n : Nat) : (s.injectOn a n).wheel = s.wheel := by unfold State.injectOn; simp only []; split <;> simp
@[simp] theorem State.injectOn_can (s : State) (a n : Nat) : (s.injectOn a n).can = s.can := by unfold State.injectOn; simp only []; split <;> simp
@[simp] theorem State.injectOn_slots (s : State) (a n : Nat) : (s.injectOn a n).slots = s.slots := by unfold State.injectOn; simp only []; split <;> simp
@[simp] theorem State.injectOn_fend (s : State) (a n : Nat) : (s.injectOn a n).fend = s.fend := by unfold State.injectOn; simp only []; split <;> simp
@[simp] theorem State.injectOn_surfT0 (s : State) (a n : Nat) : (s.injectOn a n).surfT0 = s.surfT0 := by unfold State.injectOn; simp only []; split <;> simp
@[simp] theorem State.injectOn_loops (s : State) (a n : Nat) : (s.injectOn a n).loops = s.loops := by unfold State.injectOn; simp only []; split <;> simp
@[simp] theorem State.injectOn_cores (s : State) (a n : Nat) : (s.injectOn a n).cores = s.cores := by unfold State.injectOn; simp only []; split <;> simp
@[simp] theorem State.injectOn_routers (s : State) (a n : Nat) : (s.injectOn a n).routers = s.routers := by unfold State.injectOn; simp only []; split <;> simp
@[simp] theorem State.injectOn_edges (s : State) (a n : Nat) : (s.injectOn a n).edges = s.edges := by unfold State.injectOn; simp only []; split <;> simp
@[simp] theorem State.injectOn_bell (s : State) (a n : Nat) : (s.injectOn a n).bell = s.bell := by unfold State.injectOn; simp only []; split <;> simp
@[simp] theorem State.injectOn_engines (s : State) (a n : Nat) : (s.injectOn a n).engines = s.engines := by unfold State.injectOn; simp only []; split <;> simp
@[simp] theorem State.injectOn_bins (s : State) (a n : Nat) : (s.injectOn a n).bins = s.bins := by unfold State.injectOn; simp only []; split <;> simp
@[simp] theorem State.injectOn_tt (s : State) (a n : Nat) : (s.injectOn a n).tt = s.tt := by unfold State.injectOn; simp only []; split <;> simp
@[simp] theorem State.injectOn_grid (s : State) (a n : Nat) : (s.injectOn a n).grid = s.grid := by unfold State.injectOn; simp only []; split <;> simp
@[simp] theorem State.injectOn_trk (s : State) (a n : Nat) : (s.injectOn a n).trk = s.trk := by unfold State.injectOn; simp only []; split <;> simp
@[simp] theorem State.injectOn_chain (s : State) (a n : Nat) : (s.injectOn a n).chain = s.chain := by unfold State.injectOn; simp only []; split <;> simp
@[simp] theorem State.injectOn_ego (s : State) (a n : Nat) : (s.injectOn a n).ego = s.ego := by unfold State.injectOn; simp only []; split <;> simp
@[simp] theorem State.injectOn_ports (s : State) (a n : Nat) : (s.injectOn a n).ports = s.ports := by unfold State.injectOn; simp only []; split <;> simp
@[simp] theorem State.injectOn_stream (s : State) (a n : Nat) : (s.injectOn a n).stream = s.stream := by unfold State.injectOn; simp only []; split <;> simp
@[simp] theorem State.injectOn_safe (s : State) (a n : Nat) : (s.injectOn a n).safe = s.safe := by unfold State.injectOn; simp only []; split <;> simp
@[simp] theorem State.injectOn_pwr (s : State) (a n : Nat) : (s.injectOn a n).pwr = s.pwr := by unfold State.injectOn; simp only []; split <;> simp
@[simp] theorem State.injectOn_sec (s : State) (a n : Nat) : (s.injectOn a n).sec = s.sec := by unfold State.injectOn; simp only []; split <;> simp

/-! ### `setBytes` -/

@[simp] theorem State.setBytes_pending (s : State) (a : Nat) (bs : List Byte) : (s.setBytes a bs).pending = s.pending := by induction bs generalizing s a with
  | nil => rfl
  | cons b bs ih => exact (ih _ _).trans (by simp)
@[simp] theorem State.setBytes_regs (s : State) (a : Nat) (bs : List Byte) : (s.setBytes a bs).regs = s.regs := by induction bs generalizing s a with
  | nil => rfl
  | cons b bs ih => exact (ih _ _).trans (by simp)
@[simp] theorem State.setBytes_planes (s : State) (a : Nat) (bs : List Byte) : (s.setBytes a bs).planes = s.planes := by induction bs generalizing s a with
  | nil => rfl
  | cons b bs ih => exact (ih _ _).trans (by simp)
@[simp] theorem State.setBytes_freeCtr (s : State) (a : Nat) (bs : List Byte) : (s.setBytes a bs).freeCtr = s.freeCtr := by induction bs generalizing s a with
  | nil => rfl
  | cons b bs ih => exact (ih _ _).trans (by simp)
@[simp] theorem State.setBytes_time (s : State) (a : Nat) (bs : List Byte) : (s.setBytes a bs).time = s.time := by induction bs generalizing s a with
  | nil => rfl
  | cons b bs ih => exact (ih _ _).trans (by simp)
@[simp] theorem State.setBytes_csi (s : State) (a : Nat) (bs : List Byte) : (s.setBytes a bs).csi = s.csi := by induction bs generalizing s a with
  | nil => rfl
  | cons b bs ih => exact (ih _ _).trans (by simp)
@[simp] theorem State.setBytes_eth (s : State) (a : Nat) (bs : List Byte) : (s.setBytes a bs).eth = s.eth := by induction bs generalizing s a with
  | nil => rfl
  | cons b bs ih => exact (ih _ _).trans (by simp)
@[simp] theorem State.setBytes_spi (s : State) (a : Nat) (bs : List Byte) : (s.setBytes a bs).spi = s.spi := by induction bs generalizing s a with
  | nil => rfl
  | cons b bs ih => exact (ih _ _).trans (by simp)
@[simp] theorem State.setBytes_wheel (s : State) (a : Nat) (bs : List Byte) : (s.setBytes a bs).wheel = s.wheel := by induction bs generalizing s a with
  | nil => rfl
  | cons b bs ih => exact (ih _ _).trans (by simp)
@[simp] theorem State.setBytes_can (s : State) (a : Nat) (bs : List Byte) : (s.setBytes a bs).can = s.can := by induction bs generalizing s a with
  | nil => rfl
  | cons b bs ih => exact (ih _ _).trans (by simp)
@[simp] theorem State.setBytes_slots (s : State) (a : Nat) (bs : List Byte) : (s.setBytes a bs).slots = s.slots := by induction bs generalizing s a with
  | nil => rfl
  | cons b bs ih => exact (ih _ _).trans (by simp)
@[simp] theorem State.setBytes_fend (s : State) (a : Nat) (bs : List Byte) : (s.setBytes a bs).fend = s.fend := by induction bs generalizing s a with
  | nil => rfl
  | cons b bs ih => exact (ih _ _).trans (by simp)
@[simp] theorem State.setBytes_surfT0 (s : State) (a : Nat) (bs : List Byte) : (s.setBytes a bs).surfT0 = s.surfT0 := by induction bs generalizing s a with
  | nil => rfl
  | cons b bs ih => exact (ih _ _).trans (by simp)
@[simp] theorem State.setBytes_loops (s : State) (a : Nat) (bs : List Byte) : (s.setBytes a bs).loops = s.loops := by induction bs generalizing s a with
  | nil => rfl
  | cons b bs ih => exact (ih _ _).trans (by simp)
@[simp] theorem State.setBytes_cores (s : State) (a : Nat) (bs : List Byte) : (s.setBytes a bs).cores = s.cores := by induction bs generalizing s a with
  | nil => rfl
  | cons b bs ih => exact (ih _ _).trans (by simp)
@[simp] theorem State.setBytes_routers (s : State) (a : Nat) (bs : List Byte) : (s.setBytes a bs).routers = s.routers := by induction bs generalizing s a with
  | nil => rfl
  | cons b bs ih => exact (ih _ _).trans (by simp)
@[simp] theorem State.setBytes_edges (s : State) (a : Nat) (bs : List Byte) : (s.setBytes a bs).edges = s.edges := by induction bs generalizing s a with
  | nil => rfl
  | cons b bs ih => exact (ih _ _).trans (by simp)
@[simp] theorem State.setBytes_bell (s : State) (a : Nat) (bs : List Byte) : (s.setBytes a bs).bell = s.bell := by induction bs generalizing s a with
  | nil => rfl
  | cons b bs ih => exact (ih _ _).trans (by simp)
@[simp] theorem State.setBytes_engines (s : State) (a : Nat) (bs : List Byte) : (s.setBytes a bs).engines = s.engines := by induction bs generalizing s a with
  | nil => rfl
  | cons b bs ih => exact (ih _ _).trans (by simp)
@[simp] theorem State.setBytes_bins (s : State) (a : Nat) (bs : List Byte) : (s.setBytes a bs).bins = s.bins := by induction bs generalizing s a with
  | nil => rfl
  | cons b bs ih => exact (ih _ _).trans (by simp)
@[simp] theorem State.setBytes_tt (s : State) (a : Nat) (bs : List Byte) : (s.setBytes a bs).tt = s.tt := by induction bs generalizing s a with
  | nil => rfl
  | cons b bs ih => exact (ih _ _).trans (by simp)
@[simp] theorem State.setBytes_grid (s : State) (a : Nat) (bs : List Byte) : (s.setBytes a bs).grid = s.grid := by induction bs generalizing s a with
  | nil => rfl
  | cons b bs ih => exact (ih _ _).trans (by simp)
@[simp] theorem State.setBytes_trk (s : State) (a : Nat) (bs : List Byte) : (s.setBytes a bs).trk = s.trk := by induction bs generalizing s a with
  | nil => rfl
  | cons b bs ih => exact (ih _ _).trans (by simp)
@[simp] theorem State.setBytes_chain (s : State) (a : Nat) (bs : List Byte) : (s.setBytes a bs).chain = s.chain := by induction bs generalizing s a with
  | nil => rfl
  | cons b bs ih => exact (ih _ _).trans (by simp)
@[simp] theorem State.setBytes_ego (s : State) (a : Nat) (bs : List Byte) : (s.setBytes a bs).ego = s.ego := by induction bs generalizing s a with
  | nil => rfl
  | cons b bs ih => exact (ih _ _).trans (by simp)
@[simp] theorem State.setBytes_memc (s : State) (a : Nat) (bs : List Byte) : (s.setBytes a bs).memc = s.memc := by induction bs generalizing s a with
  | nil => rfl
  | cons b bs ih => exact (ih _ _).trans (by simp)
@[simp] theorem State.setBytes_ports (s : State) (a : Nat) (bs : List Byte) : (s.setBytes a bs).ports = s.ports := by induction bs generalizing s a with
  | nil => rfl
  | cons b bs ih => exact (ih _ _).trans (by simp)
@[simp] theorem State.setBytes_stream (s : State) (a : Nat) (bs : List Byte) : (s.setBytes a bs).stream = s.stream := by induction bs generalizing s a with
  | nil => rfl
  | cons b bs ih => exact (ih _ _).trans (by simp)
@[simp] theorem State.setBytes_safe (s : State) (a : Nat) (bs : List Byte) : (s.setBytes a bs).safe = s.safe := by induction bs generalizing s a with
  | nil => rfl
  | cons b bs ih => exact (ih _ _).trans (by simp)
@[simp] theorem State.setBytes_pwr (s : State) (a : Nat) (bs : List Byte) : (s.setBytes a bs).pwr = s.pwr := by induction bs generalizing s a with
  | nil => rfl
  | cons b bs ih => exact (ih _ _).trans (by simp)
@[simp] theorem State.setBytes_sec (s : State) (a : Nat) (bs : List Byte) : (s.setBytes a bs).sec = s.sec := by induction bs generalizing s a with
  | nil => rfl
  | cons b bs ih => exact (ih _ _).trans (by simp)

/-! ### `putLE` -/

@[simp] theorem State.putLE_pending (s : State) (a n v : Nat) : (s.putLE a n v).pending = s.pending := by unfold State.putLE; simp
@[simp] theorem State.putLE_regs (s : State) (a n v : Nat) : (s.putLE a n v).regs = s.regs := by unfold State.putLE; simp
@[simp] theorem State.putLE_planes (s : State) (a n v : Nat) : (s.putLE a n v).planes = s.planes := by unfold State.putLE; simp
@[simp] theorem State.putLE_freeCtr (s : State) (a n v : Nat) : (s.putLE a n v).freeCtr = s.freeCtr := by unfold State.putLE; simp
@[simp] theorem State.putLE_time (s : State) (a n v : Nat) : (s.putLE a n v).time = s.time := by unfold State.putLE; simp
@[simp] theorem State.putLE_csi (s : State) (a n v : Nat) : (s.putLE a n v).csi = s.csi := by unfold State.putLE; simp
@[simp] theorem State.putLE_eth (s : State) (a n v : Nat) : (s.putLE a n v).eth = s.eth := by unfold State.putLE; simp
@[simp] theorem State.putLE_spi (s : State) (a n v : Nat) : (s.putLE a n v).spi = s.spi := by unfold State.putLE; simp
@[simp] theorem State.putLE_wheel (s : State) (a n v : Nat) : (s.putLE a n v).wheel = s.wheel := by unfold State.putLE; simp
@[simp] theorem State.putLE_can (s : State) (a n v : Nat) : (s.putLE a n v).can = s.can := by unfold State.putLE; simp
@[simp] theorem State.putLE_slots (s : State) (a n v : Nat) : (s.putLE a n v).slots = s.slots := by unfold State.putLE; simp
@[simp] theorem State.putLE_fend (s : State) (a n v : Nat) : (s.putLE a n v).fend = s.fend := by unfold State.putLE; simp
@[simp] theorem State.putLE_surfT0 (s : State) (a n v : Nat) : (s.putLE a n v).surfT0 = s.surfT0 := by unfold State.putLE; simp
@[simp] theorem State.putLE_loops (s : State) (a n v : Nat) : (s.putLE a n v).loops = s.loops := by unfold State.putLE; simp
@[simp] theorem State.putLE_cores (s : State) (a n v : Nat) : (s.putLE a n v).cores = s.cores := by unfold State.putLE; simp
@[simp] theorem State.putLE_routers (s : State) (a n v : Nat) : (s.putLE a n v).routers = s.routers := by unfold State.putLE; simp
@[simp] theorem State.putLE_edges (s : State) (a n v : Nat) : (s.putLE a n v).edges = s.edges := by unfold State.putLE; simp
@[simp] theorem State.putLE_bell (s : State) (a n v : Nat) : (s.putLE a n v).bell = s.bell := by unfold State.putLE; simp
@[simp] theorem State.putLE_engines (s : State) (a n v : Nat) : (s.putLE a n v).engines = s.engines := by unfold State.putLE; simp
@[simp] theorem State.putLE_bins (s : State) (a n v : Nat) : (s.putLE a n v).bins = s.bins := by unfold State.putLE; simp
@[simp] theorem State.putLE_tt (s : State) (a n v : Nat) : (s.putLE a n v).tt = s.tt := by unfold State.putLE; simp
@[simp] theorem State.putLE_grid (s : State) (a n v : Nat) : (s.putLE a n v).grid = s.grid := by unfold State.putLE; simp
@[simp] theorem State.putLE_trk (s : State) (a n v : Nat) : (s.putLE a n v).trk = s.trk := by unfold State.putLE; simp
@[simp] theorem State.putLE_chain (s : State) (a n v : Nat) : (s.putLE a n v).chain = s.chain := by unfold State.putLE; simp
@[simp] theorem State.putLE_ego (s : State) (a n v : Nat) : (s.putLE a n v).ego = s.ego := by unfold State.putLE; simp
@[simp] theorem State.putLE_memc (s : State) (a n v : Nat) : (s.putLE a n v).memc = s.memc := by unfold State.putLE; simp
@[simp] theorem State.putLE_ports (s : State) (a n v : Nat) : (s.putLE a n v).ports = s.ports := by unfold State.putLE; simp
@[simp] theorem State.putLE_stream (s : State) (a n v : Nat) : (s.putLE a n v).stream = s.stream := by unfold State.putLE; simp
@[simp] theorem State.putLE_safe (s : State) (a n v : Nat) : (s.putLE a n v).safe = s.safe := by unfold State.putLE; simp
@[simp] theorem State.putLE_pwr (s : State) (a n v : Nat) : (s.putLE a n v).pwr = s.pwr := by unfold State.putLE; simp
@[simp] theorem State.putLE_sec (s : State) (a n v : Nat) : (s.putLE a n v).sec = s.sec := by unfold State.putLE; simp

/-! ### `peak` -/

@[simp] theorem State.peak_pending (s : State) (k hi lo v : Nat) : (s.peak k hi lo v).pending = s.pending := by unfold State.peak; split <;> simp
@[simp] theorem State.peak_mem (s : State) (k hi lo v : Nat) : (s.peak k hi lo v).mem = s.mem := by unfold State.peak; split <;> simp
@[simp] theorem State.peak_gridMem (s : State) (k hi lo v : Nat) : (s.peak k hi lo v).gridMem = s.gridMem := by unfold State.peak; split <;> simp
@[simp] theorem State.peak_planes (s : State) (k hi lo v : Nat) : (s.peak k hi lo v).planes = s.planes := by unfold State.peak; split <;> simp
@[simp] theorem State.peak_freeCtr (s : State) (k hi lo v : Nat) : (s.peak k hi lo v).freeCtr = s.freeCtr := by unfold State.peak; split <;> simp
@[simp] theorem State.peak_time (s : State) (k hi lo v : Nat) : (s.peak k hi lo v).time = s.time := by unfold State.peak; split <;> simp
@[simp] theorem State.peak_csi (s : State) (k hi lo v : Nat) : (s.peak k hi lo v).csi = s.csi := by unfold State.peak; split <;> simp
@[simp] theorem State.peak_eth (s : State) (k hi lo v : Nat) : (s.peak k hi lo v).eth = s.eth := by unfold State.peak; split <;> simp
@[simp] theorem State.peak_spi (s : State) (k hi lo v : Nat) : (s.peak k hi lo v).spi = s.spi := by unfold State.peak; split <;> simp
@[simp] theorem State.peak_wheel (s : State) (k hi lo v : Nat) : (s.peak k hi lo v).wheel = s.wheel := by unfold State.peak; split <;> simp
@[simp] theorem State.peak_can (s : State) (k hi lo v : Nat) : (s.peak k hi lo v).can = s.can := by unfold State.peak; split <;> simp
@[simp] theorem State.peak_slots (s : State) (k hi lo v : Nat) : (s.peak k hi lo v).slots = s.slots := by unfold State.peak; split <;> simp
@[simp] theorem State.peak_fend (s : State) (k hi lo v : Nat) : (s.peak k hi lo v).fend = s.fend := by unfold State.peak; split <;> simp
@[simp] theorem State.peak_surfT0 (s : State) (k hi lo v : Nat) : (s.peak k hi lo v).surfT0 = s.surfT0 := by unfold State.peak; split <;> simp
@[simp] theorem State.peak_loops (s : State) (k hi lo v : Nat) : (s.peak k hi lo v).loops = s.loops := by unfold State.peak; split <;> simp
@[simp] theorem State.peak_cores (s : State) (k hi lo v : Nat) : (s.peak k hi lo v).cores = s.cores := by unfold State.peak; split <;> simp
@[simp] theorem State.peak_routers (s : State) (k hi lo v : Nat) : (s.peak k hi lo v).routers = s.routers := by unfold State.peak; split <;> simp
@[simp] theorem State.peak_edges (s : State) (k hi lo v : Nat) : (s.peak k hi lo v).edges = s.edges := by unfold State.peak; split <;> simp
@[simp] theorem State.peak_bell (s : State) (k hi lo v : Nat) : (s.peak k hi lo v).bell = s.bell := by unfold State.peak; split <;> simp
@[simp] theorem State.peak_engines (s : State) (k hi lo v : Nat) : (s.peak k hi lo v).engines = s.engines := by unfold State.peak; split <;> simp
@[simp] theorem State.peak_bins (s : State) (k hi lo v : Nat) : (s.peak k hi lo v).bins = s.bins := by unfold State.peak; split <;> simp
@[simp] theorem State.peak_tt (s : State) (k hi lo v : Nat) : (s.peak k hi lo v).tt = s.tt := by unfold State.peak; split <;> simp
@[simp] theorem State.peak_grid (s : State) (k hi lo v : Nat) : (s.peak k hi lo v).grid = s.grid := by unfold State.peak; split <;> simp
@[simp] theorem State.peak_trk (s : State) (k hi lo v : Nat) : (s.peak k hi lo v).trk = s.trk := by unfold State.peak; split <;> simp
@[simp] theorem State.peak_chain (s : State) (k hi lo v : Nat) : (s.peak k hi lo v).chain = s.chain := by unfold State.peak; split <;> simp
@[simp] theorem State.peak_ego (s : State) (k hi lo v : Nat) : (s.peak k hi lo v).ego = s.ego := by unfold State.peak; split <;> simp
@[simp] theorem State.peak_memc (s : State) (k hi lo v : Nat) : (s.peak k hi lo v).memc = s.memc := by unfold State.peak; split <;> simp
@[simp] theorem State.peak_ports (s : State) (k hi lo v : Nat) : (s.peak k hi lo v).ports = s.ports := by unfold State.peak; split <;> simp
@[simp] theorem State.peak_stream (s : State) (k hi lo v : Nat) : (s.peak k hi lo v).stream = s.stream := by unfold State.peak; split <;> simp
@[simp] theorem State.peak_safe (s : State) (k hi lo v : Nat) : (s.peak k hi lo v).safe = s.safe := by unfold State.peak; split <;> simp
@[simp] theorem State.peak_pwr (s : State) (k hi lo v : Nat) : (s.peak k hi lo v).pwr = s.pwr := by unfold State.peak; split <;> simp
@[simp] theorem State.peak_sec (s : State) (k hi lo v : Nat) : (s.peak k hi lo v).sec = s.sec := by unfold State.peak; split <;> simp

/-! ### `checkGranule` -/

@[simp] theorem State.checkGranule_pending (s : State) (g : Nat) (b : Bool) : (s.checkGranule g b).1.pending = s.pending := by unfold State.checkGranule; split <;> simp
@[simp] theorem State.checkGranule_mem (s : State) (g : Nat) (b : Bool) : (s.checkGranule g b).1.mem = s.mem := by unfold State.checkGranule; split <;> simp
@[simp] theorem State.checkGranule_gridMem (s : State) (g : Nat) (b : Bool) : (s.checkGranule g b).1.gridMem = s.gridMem := by unfold State.checkGranule; split <;> simp
@[simp] theorem State.checkGranule_planes (s : State) (g : Nat) (b : Bool) : (s.checkGranule g b).1.planes = s.planes := by unfold State.checkGranule; split <;> simp
@[simp] theorem State.checkGranule_freeCtr (s : State) (g : Nat) (b : Bool) : (s.checkGranule g b).1.freeCtr = s.freeCtr := by unfold State.checkGranule; split <;> simp
@[simp] theorem State.checkGranule_time (s : State) (g : Nat) (b : Bool) : (s.checkGranule g b).1.time = s.time := by unfold State.checkGranule; split <;> simp
@[simp] theorem State.checkGranule_csi (s : State) (g : Nat) (b : Bool) : (s.checkGranule g b).1.csi = s.csi := by unfold State.checkGranule; split <;> simp
@[simp] theorem State.checkGranule_eth (s : State) (g : Nat) (b : Bool) : (s.checkGranule g b).1.eth = s.eth := by unfold State.checkGranule; split <;> simp
@[simp] theorem State.checkGranule_spi (s : State) (g : Nat) (b : Bool) : (s.checkGranule g b).1.spi = s.spi := by unfold State.checkGranule; split <;> simp
@[simp] theorem State.checkGranule_wheel (s : State) (g : Nat) (b : Bool) : (s.checkGranule g b).1.wheel = s.wheel := by unfold State.checkGranule; split <;> simp
@[simp] theorem State.checkGranule_can (s : State) (g : Nat) (b : Bool) : (s.checkGranule g b).1.can = s.can := by unfold State.checkGranule; split <;> simp
@[simp] theorem State.checkGranule_slots (s : State) (g : Nat) (b : Bool) : (s.checkGranule g b).1.slots = s.slots := by unfold State.checkGranule; split <;> simp
@[simp] theorem State.checkGranule_fend (s : State) (g : Nat) (b : Bool) : (s.checkGranule g b).1.fend = s.fend := by unfold State.checkGranule; split <;> simp
@[simp] theorem State.checkGranule_surfT0 (s : State) (g : Nat) (b : Bool) : (s.checkGranule g b).1.surfT0 = s.surfT0 := by unfold State.checkGranule; split <;> simp
@[simp] theorem State.checkGranule_loops (s : State) (g : Nat) (b : Bool) : (s.checkGranule g b).1.loops = s.loops := by unfold State.checkGranule; split <;> simp
@[simp] theorem State.checkGranule_cores (s : State) (g : Nat) (b : Bool) : (s.checkGranule g b).1.cores = s.cores := by unfold State.checkGranule; split <;> simp
@[simp] theorem State.checkGranule_routers (s : State) (g : Nat) (b : Bool) : (s.checkGranule g b).1.routers = s.routers := by unfold State.checkGranule; split <;> simp
@[simp] theorem State.checkGranule_edges (s : State) (g : Nat) (b : Bool) : (s.checkGranule g b).1.edges = s.edges := by unfold State.checkGranule; split <;> simp
@[simp] theorem State.checkGranule_bell (s : State) (g : Nat) (b : Bool) : (s.checkGranule g b).1.bell = s.bell := by unfold State.checkGranule; split <;> simp
@[simp] theorem State.checkGranule_engines (s : State) (g : Nat) (b : Bool) : (s.checkGranule g b).1.engines = s.engines := by unfold State.checkGranule; split <;> simp
@[simp] theorem State.checkGranule_bins (s : State) (g : Nat) (b : Bool) : (s.checkGranule g b).1.bins = s.bins := by unfold State.checkGranule; split <;> simp
@[simp] theorem State.checkGranule_tt (s : State) (g : Nat) (b : Bool) : (s.checkGranule g b).1.tt = s.tt := by unfold State.checkGranule; split <;> simp
@[simp] theorem State.checkGranule_grid (s : State) (g : Nat) (b : Bool) : (s.checkGranule g b).1.grid = s.grid := by unfold State.checkGranule; split <;> simp
@[simp] theorem State.checkGranule_trk (s : State) (g : Nat) (b : Bool) : (s.checkGranule g b).1.trk = s.trk := by unfold State.checkGranule; split <;> simp
@[simp] theorem State.checkGranule_chain (s : State) (g : Nat) (b : Bool) : (s.checkGranule g b).1.chain = s.chain := by unfold State.checkGranule; split <;> simp
@[simp] theorem State.checkGranule_ego (s : State) (g : Nat) (b : Bool) : (s.checkGranule g b).1.ego = s.ego := by unfold State.checkGranule; split <;> simp
@[simp] theorem State.checkGranule_stream (s : State) (g : Nat) (b : Bool) : (s.checkGranule g b).1.stream = s.stream := by unfold State.checkGranule; split <;> simp
@[simp] theorem State.checkGranule_pwr (s : State) (g : Nat) (b : Bool) : (s.checkGranule g b).1.pwr = s.pwr := by unfold State.checkGranule; split <;> simp
@[simp] theorem State.checkGranule_sec (s : State) (g : Nat) (b : Bool) : (s.checkGranule g b).1.sec = s.sec := by unfold State.checkGranule; split <;> simp

/-! ### `checkGranules` -/

@[simp] theorem State.checkGranules_pending (s : State) (l : List Nat) : (s.checkGranules l).1.pending = s.pending := by unfold State.checkGranules; exact foldl_keeps (fun (x : State × Bool) => x.1.pending) _ (fun x e => by simp) _ _
@[simp] theorem State.checkGranules_mem (s : State) (l : List Nat) : (s.checkGranules l).1.mem = s.mem := by unfold State.checkGranules; exact foldl_keeps (fun (x : State × Bool) => x.1.mem) _ (fun x e => by simp) _ _
@[simp] theorem State.checkGranules_gridMem (s : State) (l : List Nat) : (s.checkGranules l).1.gridMem = s.gridMem := by unfold State.checkGranules; exact foldl_keeps (fun (x : State × Bool) => x.1.gridMem) _ (fun x e => by simp) _ _
@[simp] theorem State.checkGranules_planes (s : State) (l : List Nat) : (s.checkGranules l).1.planes = s.planes := by unfold State.checkGranules; exact foldl_keeps (fun (x : State × Bool) => x.1.planes) _ (fun x e => by simp) _ _
@[simp] theorem State.checkGranules_freeCtr (s : State) (l : List Nat) : (s.checkGranules l).1.freeCtr = s.freeCtr := by unfold State.checkGranules; exact foldl_keeps (fun (x : State × Bool) => x.1.freeCtr) _ (fun x e => by simp) _ _
@[simp] theorem State.checkGranules_time (s : State) (l : List Nat) : (s.checkGranules l).1.time = s.time := by unfold State.checkGranules; exact foldl_keeps (fun (x : State × Bool) => x.1.time) _ (fun x e => by simp) _ _
@[simp] theorem State.checkGranules_csi (s : State) (l : List Nat) : (s.checkGranules l).1.csi = s.csi := by unfold State.checkGranules; exact foldl_keeps (fun (x : State × Bool) => x.1.csi) _ (fun x e => by simp) _ _
@[simp] theorem State.checkGranules_eth (s : State) (l : List Nat) : (s.checkGranules l).1.eth = s.eth := by unfold State.checkGranules; exact foldl_keeps (fun (x : State × Bool) => x.1.eth) _ (fun x e => by simp) _ _
@[simp] theorem State.checkGranules_spi (s : State) (l : List Nat) : (s.checkGranules l).1.spi = s.spi := by unfold State.checkGranules; exact foldl_keeps (fun (x : State × Bool) => x.1.spi) _ (fun x e => by simp) _ _
@[simp] theorem State.checkGranules_wheel (s : State) (l : List Nat) : (s.checkGranules l).1.wheel = s.wheel := by unfold State.checkGranules; exact foldl_keeps (fun (x : State × Bool) => x.1.wheel) _ (fun x e => by simp) _ _
@[simp] theorem State.checkGranules_can (s : State) (l : List Nat) : (s.checkGranules l).1.can = s.can := by unfold State.checkGranules; exact foldl_keeps (fun (x : State × Bool) => x.1.can) _ (fun x e => by simp) _ _
@[simp] theorem State.checkGranules_slots (s : State) (l : List Nat) : (s.checkGranules l).1.slots = s.slots := by unfold State.checkGranules; exact foldl_keeps (fun (x : State × Bool) => x.1.slots) _ (fun x e => by simp) _ _
@[simp] theorem State.checkGranules_fend (s : State) (l : List Nat) : (s.checkGranules l).1.fend = s.fend := by unfold State.checkGranules; exact foldl_keeps (fun (x : State × Bool) => x.1.fend) _ (fun x e => by simp) _ _
@[simp] theorem State.checkGranules_surfT0 (s : State) (l : List Nat) : (s.checkGranules l).1.surfT0 = s.surfT0 := by unfold State.checkGranules; exact foldl_keeps (fun (x : State × Bool) => x.1.surfT0) _ (fun x e => by simp) _ _
@[simp] theorem State.checkGranules_loops (s : State) (l : List Nat) : (s.checkGranules l).1.loops = s.loops := by unfold State.checkGranules; exact foldl_keeps (fun (x : State × Bool) => x.1.loops) _ (fun x e => by simp) _ _
@[simp] theorem State.checkGranules_cores (s : State) (l : List Nat) : (s.checkGranules l).1.cores = s.cores := by unfold State.checkGranules; exact foldl_keeps (fun (x : State × Bool) => x.1.cores) _ (fun x e => by simp) _ _
@[simp] theorem State.checkGranules_routers (s : State) (l : List Nat) : (s.checkGranules l).1.routers = s.routers := by unfold State.checkGranules; exact foldl_keeps (fun (x : State × Bool) => x.1.routers) _ (fun x e => by simp) _ _
@[simp] theorem State.checkGranules_edges (s : State) (l : List Nat) : (s.checkGranules l).1.edges = s.edges := by unfold State.checkGranules; exact foldl_keeps (fun (x : State × Bool) => x.1.edges) _ (fun x e => by simp) _ _
@[simp] theorem State.checkGranules_bell (s : State) (l : List Nat) : (s.checkGranules l).1.bell = s.bell := by unfold State.checkGranules; exact foldl_keeps (fun (x : State × Bool) => x.1.bell) _ (fun x e => by simp) _ _
@[simp] theorem State.checkGranules_engines (s : State) (l : List Nat) : (s.checkGranules l).1.engines = s.engines := by unfold State.checkGranules; exact foldl_keeps (fun (x : State × Bool) => x.1.engines) _ (fun x e => by simp) _ _
@[simp] theorem State.checkGranules_bins (s : State) (l : List Nat) : (s.checkGranules l).1.bins = s.bins := by unfold State.checkGranules; exact foldl_keeps (fun (x : State × Bool) => x.1.bins) _ (fun x e => by simp) _ _
@[simp] theorem State.checkGranules_tt (s : State) (l : List Nat) : (s.checkGranules l).1.tt = s.tt := by unfold State.checkGranules; exact foldl_keeps (fun (x : State × Bool) => x.1.tt) _ (fun x e => by simp) _ _
@[simp] theorem State.checkGranules_grid (s : State) (l : List Nat) : (s.checkGranules l).1.grid = s.grid := by unfold State.checkGranules; exact foldl_keeps (fun (x : State × Bool) => x.1.grid) _ (fun x e => by simp) _ _
@[simp] theorem State.checkGranules_trk (s : State) (l : List Nat) : (s.checkGranules l).1.trk = s.trk := by unfold State.checkGranules; exact foldl_keeps (fun (x : State × Bool) => x.1.trk) _ (fun x e => by simp) _ _
@[simp] theorem State.checkGranules_chain (s : State) (l : List Nat) : (s.checkGranules l).1.chain = s.chain := by unfold State.checkGranules; exact foldl_keeps (fun (x : State × Bool) => x.1.chain) _ (fun x e => by simp) _ _
@[simp] theorem State.checkGranules_ego (s : State) (l : List Nat) : (s.checkGranules l).1.ego = s.ego := by unfold State.checkGranules; exact foldl_keeps (fun (x : State × Bool) => x.1.ego) _ (fun x e => by simp) _ _
@[simp] theorem State.checkGranules_stream (s : State) (l : List Nat) : (s.checkGranules l).1.stream = s.stream := by unfold State.checkGranules; exact foldl_keeps (fun (x : State × Bool) => x.1.stream) _ (fun x e => by simp) _ _
@[simp] theorem State.checkGranules_pwr (s : State) (l : List Nat) : (s.checkGranules l).1.pwr = s.pwr := by unfold State.checkGranules; exact foldl_keeps (fun (x : State × Bool) => x.1.pwr) _ (fun x e => by simp) _ _
@[simp] theorem State.checkGranules_sec (s : State) (l : List Nat) : (s.checkGranules l).1.sec = s.sec := by unfold State.checkGranules; exact foldl_keeps (fun (x : State × Bool) => x.1.sec) _ (fun x e => by simp) _ _

/-! ### `checkRange` -/

@[simp] theorem State.checkRange_pending (s : State) (a n : Nat) : (s.checkRange a n).1.pending = s.pending := by unfold State.checkRange; simp
@[simp] theorem State.checkRange_mem (s : State) (a n : Nat) : (s.checkRange a n).1.mem = s.mem := by unfold State.checkRange; simp
@[simp] theorem State.checkRange_gridMem (s : State) (a n : Nat) : (s.checkRange a n).1.gridMem = s.gridMem := by unfold State.checkRange; simp
@[simp] theorem State.checkRange_planes (s : State) (a n : Nat) : (s.checkRange a n).1.planes = s.planes := by unfold State.checkRange; simp
@[simp] theorem State.checkRange_freeCtr (s : State) (a n : Nat) : (s.checkRange a n).1.freeCtr = s.freeCtr := by unfold State.checkRange; simp
@[simp] theorem State.checkRange_time (s : State) (a n : Nat) : (s.checkRange a n).1.time = s.time := by unfold State.checkRange; simp
@[simp] theorem State.checkRange_csi (s : State) (a n : Nat) : (s.checkRange a n).1.csi = s.csi := by unfold State.checkRange; simp
@[simp] theorem State.checkRange_eth (s : State) (a n : Nat) : (s.checkRange a n).1.eth = s.eth := by unfold State.checkRange; simp
@[simp] theorem State.checkRange_spi (s : State) (a n : Nat) : (s.checkRange a n).1.spi = s.spi := by unfold State.checkRange; simp
@[simp] theorem State.checkRange_wheel (s : State) (a n : Nat) : (s.checkRange a n).1.wheel = s.wheel := by unfold State.checkRange; simp
@[simp] theorem State.checkRange_can (s : State) (a n : Nat) : (s.checkRange a n).1.can = s.can := by unfold State.checkRange; simp
@[simp] theorem State.checkRange_slots (s : State) (a n : Nat) : (s.checkRange a n).1.slots = s.slots := by unfold State.checkRange; simp
@[simp] theorem State.checkRange_fend (s : State) (a n : Nat) : (s.checkRange a n).1.fend = s.fend := by unfold State.checkRange; simp
@[simp] theorem State.checkRange_surfT0 (s : State) (a n : Nat) : (s.checkRange a n).1.surfT0 = s.surfT0 := by unfold State.checkRange; simp
@[simp] theorem State.checkRange_loops (s : State) (a n : Nat) : (s.checkRange a n).1.loops = s.loops := by unfold State.checkRange; simp
@[simp] theorem State.checkRange_cores (s : State) (a n : Nat) : (s.checkRange a n).1.cores = s.cores := by unfold State.checkRange; simp
@[simp] theorem State.checkRange_routers (s : State) (a n : Nat) : (s.checkRange a n).1.routers = s.routers := by unfold State.checkRange; simp
@[simp] theorem State.checkRange_edges (s : State) (a n : Nat) : (s.checkRange a n).1.edges = s.edges := by unfold State.checkRange; simp
@[simp] theorem State.checkRange_bell (s : State) (a n : Nat) : (s.checkRange a n).1.bell = s.bell := by unfold State.checkRange; simp
@[simp] theorem State.checkRange_engines (s : State) (a n : Nat) : (s.checkRange a n).1.engines = s.engines := by unfold State.checkRange; simp
@[simp] theorem State.checkRange_bins (s : State) (a n : Nat) : (s.checkRange a n).1.bins = s.bins := by unfold State.checkRange; simp
@[simp] theorem State.checkRange_tt (s : State) (a n : Nat) : (s.checkRange a n).1.tt = s.tt := by unfold State.checkRange; simp
@[simp] theorem State.checkRange_grid (s : State) (a n : Nat) : (s.checkRange a n).1.grid = s.grid := by unfold State.checkRange; simp
@[simp] theorem State.checkRange_trk (s : State) (a n : Nat) : (s.checkRange a n).1.trk = s.trk := by unfold State.checkRange; simp
@[simp] theorem State.checkRange_chain (s : State) (a n : Nat) : (s.checkRange a n).1.chain = s.chain := by unfold State.checkRange; simp
@[simp] theorem State.checkRange_ego (s : State) (a n : Nat) : (s.checkRange a n).1.ego = s.ego := by unfold State.checkRange; simp
@[simp] theorem State.checkRange_stream (s : State) (a n : Nat) : (s.checkRange a n).1.stream = s.stream := by unfold State.checkRange; simp
@[simp] theorem State.checkRange_pwr (s : State) (a n : Nat) : (s.checkRange a n).1.pwr = s.pwr := by unfold State.checkRange; simp
@[simp] theorem State.checkRange_sec (s : State) (a n : Nat) : (s.checkRange a n).1.sec = s.sec := by unfold State.checkRange; simp

/-! ### `checkCommonsWord` -/

@[simp] theorem State.checkCommonsWord_pending (s : State) (w : Nat) (u : Upset) : (s.checkCommonsWord w u).1.pending = s.pending := by unfold State.checkCommonsWord; split <;> simp
@[simp] theorem State.checkCommonsWord_mem (s : State) (w : Nat) (u : Upset) : (s.checkCommonsWord w u).1.mem = s.mem := by unfold State.checkCommonsWord; split <;> simp
@[simp] theorem State.checkCommonsWord_gridMem (s : State) (w : Nat) (u : Upset) : (s.checkCommonsWord w u).1.gridMem = s.gridMem := by unfold State.checkCommonsWord; split <;> simp
@[simp] theorem State.checkCommonsWord_planes (s : State) (w : Nat) (u : Upset) : (s.checkCommonsWord w u).1.planes = s.planes := by unfold State.checkCommonsWord; split <;> simp
@[simp] theorem State.checkCommonsWord_freeCtr (s : State) (w : Nat) (u : Upset) : (s.checkCommonsWord w u).1.freeCtr = s.freeCtr := by unfold State.checkCommonsWord; split <;> simp
@[simp] theorem State.checkCommonsWord_time (s : State) (w : Nat) (u : Upset) : (s.checkCommonsWord w u).1.time = s.time := by unfold State.checkCommonsWord; split <;> simp
@[simp] theorem State.checkCommonsWord_csi (s : State) (w : Nat) (u : Upset) : (s.checkCommonsWord w u).1.csi = s.csi := by unfold State.checkCommonsWord; split <;> simp
@[simp] theorem State.checkCommonsWord_eth (s : State) (w : Nat) (u : Upset) : (s.checkCommonsWord w u).1.eth = s.eth := by unfold State.checkCommonsWord; split <;> simp
@[simp] theorem State.checkCommonsWord_spi (s : State) (w : Nat) (u : Upset) : (s.checkCommonsWord w u).1.spi = s.spi := by unfold State.checkCommonsWord; split <;> simp
@[simp] theorem State.checkCommonsWord_wheel (s : State) (w : Nat) (u : Upset) : (s.checkCommonsWord w u).1.wheel = s.wheel := by unfold State.checkCommonsWord; split <;> simp
@[simp] theorem State.checkCommonsWord_can (s : State) (w : Nat) (u : Upset) : (s.checkCommonsWord w u).1.can = s.can := by unfold State.checkCommonsWord; split <;> simp
@[simp] theorem State.checkCommonsWord_slots (s : State) (w : Nat) (u : Upset) : (s.checkCommonsWord w u).1.slots = s.slots := by unfold State.checkCommonsWord; split <;> simp
@[simp] theorem State.checkCommonsWord_fend (s : State) (w : Nat) (u : Upset) : (s.checkCommonsWord w u).1.fend = s.fend := by unfold State.checkCommonsWord; split <;> simp
@[simp] theorem State.checkCommonsWord_surfT0 (s : State) (w : Nat) (u : Upset) : (s.checkCommonsWord w u).1.surfT0 = s.surfT0 := by unfold State.checkCommonsWord; split <;> simp
@[simp] theorem State.checkCommonsWord_loops (s : State) (w : Nat) (u : Upset) : (s.checkCommonsWord w u).1.loops = s.loops := by unfold State.checkCommonsWord; split <;> simp
@[simp] theorem State.checkCommonsWord_cores (s : State) (w : Nat) (u : Upset) : (s.checkCommonsWord w u).1.cores = s.cores := by unfold State.checkCommonsWord; split <;> simp
@[simp] theorem State.checkCommonsWord_routers (s : State) (w : Nat) (u : Upset) : (s.checkCommonsWord w u).1.routers = s.routers := by unfold State.checkCommonsWord; split <;> simp
@[simp] theorem State.checkCommonsWord_edges (s : State) (w : Nat) (u : Upset) : (s.checkCommonsWord w u).1.edges = s.edges := by unfold State.checkCommonsWord; split <;> simp
@[simp] theorem State.checkCommonsWord_bell (s : State) (w : Nat) (u : Upset) : (s.checkCommonsWord w u).1.bell = s.bell := by unfold State.checkCommonsWord; split <;> simp
@[simp] theorem State.checkCommonsWord_engines (s : State) (w : Nat) (u : Upset) : (s.checkCommonsWord w u).1.engines = s.engines := by unfold State.checkCommonsWord; split <;> simp
@[simp] theorem State.checkCommonsWord_bins (s : State) (w : Nat) (u : Upset) : (s.checkCommonsWord w u).1.bins = s.bins := by unfold State.checkCommonsWord; split <;> simp
@[simp] theorem State.checkCommonsWord_tt (s : State) (w : Nat) (u : Upset) : (s.checkCommonsWord w u).1.tt = s.tt := by unfold State.checkCommonsWord; split <;> simp
@[simp] theorem State.checkCommonsWord_grid (s : State) (w : Nat) (u : Upset) : (s.checkCommonsWord w u).1.grid = s.grid := by unfold State.checkCommonsWord; split <;> simp
@[simp] theorem State.checkCommonsWord_trk (s : State) (w : Nat) (u : Upset) : (s.checkCommonsWord w u).1.trk = s.trk := by unfold State.checkCommonsWord; split <;> simp
@[simp] theorem State.checkCommonsWord_chain (s : State) (w : Nat) (u : Upset) : (s.checkCommonsWord w u).1.chain = s.chain := by unfold State.checkCommonsWord; split <;> simp
@[simp] theorem State.checkCommonsWord_ego (s : State) (w : Nat) (u : Upset) : (s.checkCommonsWord w u).1.ego = s.ego := by unfold State.checkCommonsWord; split <;> simp
@[simp] theorem State.checkCommonsWord_stream (s : State) (w : Nat) (u : Upset) : (s.checkCommonsWord w u).1.stream = s.stream := by unfold State.checkCommonsWord; split <;> simp
@[simp] theorem State.checkCommonsWord_pwr (s : State) (w : Nat) (u : Upset) : (s.checkCommonsWord w u).1.pwr = s.pwr := by unfold State.checkCommonsWord; split <;> simp
@[simp] theorem State.checkCommonsWord_sec (s : State) (w : Nat) (u : Upset) : (s.checkCommonsWord w u).1.sec = s.sec := by unfold State.checkCommonsWord; split <;> simp

/-! ### `checkCommons` -/

@[simp] theorem State.checkCommons_pending (s : State) (a n : Nat) : (s.checkCommons a n).1.pending = s.pending := by unfold State.checkCommons; exact foldl_keeps (fun (x : State × Bool) => x.1.pending) _ (fun x e => by simp) _ _
@[simp] theorem State.checkCommons_mem (s : State) (a n : Nat) : (s.checkCommons a n).1.mem = s.mem := by unfold State.checkCommons; exact foldl_keeps (fun (x : State × Bool) => x.1.mem) _ (fun x e => by simp) _ _
@[simp] theorem State.checkCommons_gridMem (s : State) (a n : Nat) : (s.checkCommons a n).1.gridMem = s.gridMem := by unfold State.checkCommons; exact foldl_keeps (fun (x : State × Bool) => x.1.gridMem) _ (fun x e => by simp) _ _
@[simp] theorem State.checkCommons_planes (s : State) (a n : Nat) : (s.checkCommons a n).1.planes = s.planes := by unfold State.checkCommons; exact foldl_keeps (fun (x : State × Bool) => x.1.planes) _ (fun x e => by simp) _ _
@[simp] theorem State.checkCommons_freeCtr (s : State) (a n : Nat) : (s.checkCommons a n).1.freeCtr = s.freeCtr := by unfold State.checkCommons; exact foldl_keeps (fun (x : State × Bool) => x.1.freeCtr) _ (fun x e => by simp) _ _
@[simp] theorem State.checkCommons_time (s : State) (a n : Nat) : (s.checkCommons a n).1.time = s.time := by unfold State.checkCommons; exact foldl_keeps (fun (x : State × Bool) => x.1.time) _ (fun x e => by simp) _ _
@[simp] theorem State.checkCommons_csi (s : State) (a n : Nat) : (s.checkCommons a n).1.csi = s.csi := by unfold State.checkCommons; exact foldl_keeps (fun (x : State × Bool) => x.1.csi) _ (fun x e => by simp) _ _
@[simp] theorem State.checkCommons_eth (s : State) (a n : Nat) : (s.checkCommons a n).1.eth = s.eth := by unfold State.checkCommons; exact foldl_keeps (fun (x : State × Bool) => x.1.eth) _ (fun x e => by simp) _ _
@[simp] theorem State.checkCommons_spi (s : State) (a n : Nat) : (s.checkCommons a n).1.spi = s.spi := by unfold State.checkCommons; exact foldl_keeps (fun (x : State × Bool) => x.1.spi) _ (fun x e => by simp) _ _
@[simp] theorem State.checkCommons_wheel (s : State) (a n : Nat) : (s.checkCommons a n).1.wheel = s.wheel := by unfold State.checkCommons; exact foldl_keeps (fun (x : State × Bool) => x.1.wheel) _ (fun x e => by simp) _ _
@[simp] theorem State.checkCommons_can (s : State) (a n : Nat) : (s.checkCommons a n).1.can = s.can := by unfold State.checkCommons; exact foldl_keeps (fun (x : State × Bool) => x.1.can) _ (fun x e => by simp) _ _
@[simp] theorem State.checkCommons_slots (s : State) (a n : Nat) : (s.checkCommons a n).1.slots = s.slots := by unfold State.checkCommons; exact foldl_keeps (fun (x : State × Bool) => x.1.slots) _ (fun x e => by simp) _ _
@[simp] theorem State.checkCommons_fend (s : State) (a n : Nat) : (s.checkCommons a n).1.fend = s.fend := by unfold State.checkCommons; exact foldl_keeps (fun (x : State × Bool) => x.1.fend) _ (fun x e => by simp) _ _
@[simp] theorem State.checkCommons_surfT0 (s : State) (a n : Nat) : (s.checkCommons a n).1.surfT0 = s.surfT0 := by unfold State.checkCommons; exact foldl_keeps (fun (x : State × Bool) => x.1.surfT0) _ (fun x e => by simp) _ _
@[simp] theorem State.checkCommons_loops (s : State) (a n : Nat) : (s.checkCommons a n).1.loops = s.loops := by unfold State.checkCommons; exact foldl_keeps (fun (x : State × Bool) => x.1.loops) _ (fun x e => by simp) _ _
@[simp] theorem State.checkCommons_cores (s : State) (a n : Nat) : (s.checkCommons a n).1.cores = s.cores := by unfold State.checkCommons; exact foldl_keeps (fun (x : State × Bool) => x.1.cores) _ (fun x e => by simp) _ _
@[simp] theorem State.checkCommons_routers (s : State) (a n : Nat) : (s.checkCommons a n).1.routers = s.routers := by unfold State.checkCommons; exact foldl_keeps (fun (x : State × Bool) => x.1.routers) _ (fun x e => by simp) _ _
@[simp] theorem State.checkCommons_edges (s : State) (a n : Nat) : (s.checkCommons a n).1.edges = s.edges := by unfold State.checkCommons; exact foldl_keeps (fun (x : State × Bool) => x.1.edges) _ (fun x e => by simp) _ _
@[simp] theorem State.checkCommons_bell (s : State) (a n : Nat) : (s.checkCommons a n).1.bell = s.bell := by unfold State.checkCommons; exact foldl_keeps (fun (x : State × Bool) => x.1.bell) _ (fun x e => by simp) _ _
@[simp] theorem State.checkCommons_engines (s : State) (a n : Nat) : (s.checkCommons a n).1.engines = s.engines := by unfold State.checkCommons; exact foldl_keeps (fun (x : State × Bool) => x.1.engines) _ (fun x e => by simp) _ _
@[simp] theorem State.checkCommons_bins (s : State) (a n : Nat) : (s.checkCommons a n).1.bins = s.bins := by unfold State.checkCommons; exact foldl_keeps (fun (x : State × Bool) => x.1.bins) _ (fun x e => by simp) _ _
@[simp] theorem State.checkCommons_tt (s : State) (a n : Nat) : (s.checkCommons a n).1.tt = s.tt := by unfold State.checkCommons; exact foldl_keeps (fun (x : State × Bool) => x.1.tt) _ (fun x e => by simp) _ _
@[simp] theorem State.checkCommons_grid (s : State) (a n : Nat) : (s.checkCommons a n).1.grid = s.grid := by unfold State.checkCommons; exact foldl_keeps (fun (x : State × Bool) => x.1.grid) _ (fun x e => by simp) _ _
@[simp] theorem State.checkCommons_trk (s : State) (a n : Nat) : (s.checkCommons a n).1.trk = s.trk := by unfold State.checkCommons; exact foldl_keeps (fun (x : State × Bool) => x.1.trk) _ (fun x e => by simp) _ _
@[simp] theorem State.checkCommons_chain (s : State) (a n : Nat) : (s.checkCommons a n).1.chain = s.chain := by unfold State.checkCommons; exact foldl_keeps (fun (x : State × Bool) => x.1.chain) _ (fun x e => by simp) _ _
@[simp] theorem State.checkCommons_ego (s : State) (a n : Nat) : (s.checkCommons a n).1.ego = s.ego := by unfold State.checkCommons; exact foldl_keeps (fun (x : State × Bool) => x.1.ego) _ (fun x e => by simp) _ _
@[simp] theorem State.checkCommons_stream (s : State) (a n : Nat) : (s.checkCommons a n).1.stream = s.stream := by unfold State.checkCommons; exact foldl_keeps (fun (x : State × Bool) => x.1.stream) _ (fun x e => by simp) _ _
@[simp] theorem State.checkCommons_pwr (s : State) (a n : Nat) : (s.checkCommons a n).1.pwr = s.pwr := by unfold State.checkCommons; exact foldl_keeps (fun (x : State × Bool) => x.1.pwr) _ (fun x e => by simp) _ _
@[simp] theorem State.checkCommons_sec (s : State) (a n : Nat) : (s.checkCommons a n).1.sec = s.sec := by unfold State.checkCommons; exact foldl_keeps (fun (x : State × Bool) => x.1.sec) _ (fun x e => by simp) _ _

/-! ### `checkPartial` and `chargeTo` -/

@[simp] theorem State.checkPartial_pending (s : State) (a n : Nat) : (s.checkPartial a n).1.pending = s.pending := by unfold State.checkPartial; exact foldl_keeps (fun (x : State × Bool) => x.1.pending) _ (fun x e => by simp) _ _
@[simp] theorem State.checkPartial_mem (s : State) (a n : Nat) : (s.checkPartial a n).1.mem = s.mem := by unfold State.checkPartial; exact foldl_keeps (fun (x : State × Bool) => x.1.mem) _ (fun x e => by simp) _ _
@[simp] theorem State.checkPartial_gridMem (s : State) (a n : Nat) : (s.checkPartial a n).1.gridMem = s.gridMem := by unfold State.checkPartial; exact foldl_keeps (fun (x : State × Bool) => x.1.gridMem) _ (fun x e => by simp) _ _
@[simp] theorem State.checkPartial_planes (s : State) (a n : Nat) : (s.checkPartial a n).1.planes = s.planes := by unfold State.checkPartial; exact foldl_keeps (fun (x : State × Bool) => x.1.planes) _ (fun x e => by simp) _ _
@[simp] theorem State.checkPartial_freeCtr (s : State) (a n : Nat) : (s.checkPartial a n).1.freeCtr = s.freeCtr := by unfold State.checkPartial; exact foldl_keeps (fun (x : State × Bool) => x.1.freeCtr) _ (fun x e => by simp) _ _
@[simp] theorem State.checkPartial_time (s : State) (a n : Nat) : (s.checkPartial a n).1.time = s.time := by unfold State.checkPartial; exact foldl_keeps (fun (x : State × Bool) => x.1.time) _ (fun x e => by simp) _ _
@[simp] theorem State.checkPartial_csi (s : State) (a n : Nat) : (s.checkPartial a n).1.csi = s.csi := by unfold State.checkPartial; exact foldl_keeps (fun (x : State × Bool) => x.1.csi) _ (fun x e => by simp) _ _
@[simp] theorem State.checkPartial_eth (s : State) (a n : Nat) : (s.checkPartial a n).1.eth = s.eth := by unfold State.checkPartial; exact foldl_keeps (fun (x : State × Bool) => x.1.eth) _ (fun x e => by simp) _ _
@[simp] theorem State.checkPartial_spi (s : State) (a n : Nat) : (s.checkPartial a n).1.spi = s.spi := by unfold State.checkPartial; exact foldl_keeps (fun (x : State × Bool) => x.1.spi) _ (fun x e => by simp) _ _
@[simp] theorem State.checkPartial_wheel (s : State) (a n : Nat) : (s.checkPartial a n).1.wheel = s.wheel := by unfold State.checkPartial; exact foldl_keeps (fun (x : State × Bool) => x.1.wheel) _ (fun x e => by simp) _ _
@[simp] theorem State.checkPartial_can (s : State) (a n : Nat) : (s.checkPartial a n).1.can = s.can := by unfold State.checkPartial; exact foldl_keeps (fun (x : State × Bool) => x.1.can) _ (fun x e => by simp) _ _
@[simp] theorem State.checkPartial_slots (s : State) (a n : Nat) : (s.checkPartial a n).1.slots = s.slots := by unfold State.checkPartial; exact foldl_keeps (fun (x : State × Bool) => x.1.slots) _ (fun x e => by simp) _ _
@[simp] theorem State.checkPartial_fend (s : State) (a n : Nat) : (s.checkPartial a n).1.fend = s.fend := by unfold State.checkPartial; exact foldl_keeps (fun (x : State × Bool) => x.1.fend) _ (fun x e => by simp) _ _
@[simp] theorem State.checkPartial_surfT0 (s : State) (a n : Nat) : (s.checkPartial a n).1.surfT0 = s.surfT0 := by unfold State.checkPartial; exact foldl_keeps (fun (x : State × Bool) => x.1.surfT0) _ (fun x e => by simp) _ _
@[simp] theorem State.checkPartial_loops (s : State) (a n : Nat) : (s.checkPartial a n).1.loops = s.loops := by unfold State.checkPartial; exact foldl_keeps (fun (x : State × Bool) => x.1.loops) _ (fun x e => by simp) _ _
@[simp] theorem State.checkPartial_cores (s : State) (a n : Nat) : (s.checkPartial a n).1.cores = s.cores := by unfold State.checkPartial; exact foldl_keeps (fun (x : State × Bool) => x.1.cores) _ (fun x e => by simp) _ _
@[simp] theorem State.checkPartial_routers (s : State) (a n : Nat) : (s.checkPartial a n).1.routers = s.routers := by unfold State.checkPartial; exact foldl_keeps (fun (x : State × Bool) => x.1.routers) _ (fun x e => by simp) _ _
@[simp] theorem State.checkPartial_edges (s : State) (a n : Nat) : (s.checkPartial a n).1.edges = s.edges := by unfold State.checkPartial; exact foldl_keeps (fun (x : State × Bool) => x.1.edges) _ (fun x e => by simp) _ _
@[simp] theorem State.checkPartial_bell (s : State) (a n : Nat) : (s.checkPartial a n).1.bell = s.bell := by unfold State.checkPartial; exact foldl_keeps (fun (x : State × Bool) => x.1.bell) _ (fun x e => by simp) _ _
@[simp] theorem State.checkPartial_engines (s : State) (a n : Nat) : (s.checkPartial a n).1.engines = s.engines := by unfold State.checkPartial; exact foldl_keeps (fun (x : State × Bool) => x.1.engines) _ (fun x e => by simp) _ _
@[simp] theorem State.checkPartial_bins (s : State) (a n : Nat) : (s.checkPartial a n).1.bins = s.bins := by unfold State.checkPartial; exact foldl_keeps (fun (x : State × Bool) => x.1.bins) _ (fun x e => by simp) _ _
@[simp] theorem State.checkPartial_tt (s : State) (a n : Nat) : (s.checkPartial a n).1.tt = s.tt := by unfold State.checkPartial; exact foldl_keeps (fun (x : State × Bool) => x.1.tt) _ (fun x e => by simp) _ _
@[simp] theorem State.checkPartial_grid (s : State) (a n : Nat) : (s.checkPartial a n).1.grid = s.grid := by unfold State.checkPartial; exact foldl_keeps (fun (x : State × Bool) => x.1.grid) _ (fun x e => by simp) _ _
@[simp] theorem State.checkPartial_trk (s : State) (a n : Nat) : (s.checkPartial a n).1.trk = s.trk := by unfold State.checkPartial; exact foldl_keeps (fun (x : State × Bool) => x.1.trk) _ (fun x e => by simp) _ _
@[simp] theorem State.checkPartial_chain (s : State) (a n : Nat) : (s.checkPartial a n).1.chain = s.chain := by unfold State.checkPartial; exact foldl_keeps (fun (x : State × Bool) => x.1.chain) _ (fun x e => by simp) _ _
@[simp] theorem State.checkPartial_ego (s : State) (a n : Nat) : (s.checkPartial a n).1.ego = s.ego := by unfold State.checkPartial; exact foldl_keeps (fun (x : State × Bool) => x.1.ego) _ (fun x e => by simp) _ _
@[simp] theorem State.checkPartial_stream (s : State) (a n : Nat) : (s.checkPartial a n).1.stream = s.stream := by unfold State.checkPartial; exact foldl_keeps (fun (x : State × Bool) => x.1.stream) _ (fun x e => by simp) _ _
@[simp] theorem State.checkPartial_pwr (s : State) (a n : Nat) : (s.checkPartial a n).1.pwr = s.pwr := by unfold State.checkPartial; exact foldl_keeps (fun (x : State × Bool) => x.1.pwr) _ (fun x e => by simp) _ _
@[simp] theorem State.checkPartial_sec (s : State) (a n : Nat) : (s.checkPartial a n).1.sec = s.sec := by unfold State.checkPartial; exact foldl_keeps (fun (x : State × Bool) => x.1.sec) _ (fun x e => by simp) _ _

@[simp] theorem State.chargeTo_pending (s : State) (n : Nat) (p : Option Nat) : (s.chargeTo n p).pending = s.pending := rfl
@[simp] theorem State.chargeTo_mem (s : State) (n : Nat) (p : Option Nat) : (s.chargeTo n p).mem = s.mem := rfl
@[simp] theorem State.chargeTo_gridMem (s : State) (n : Nat) (p : Option Nat) : (s.chargeTo n p).gridMem = s.gridMem := rfl
@[simp] theorem State.chargeTo_planes (s : State) (n : Nat) (p : Option Nat) : (s.chargeTo n p).planes = s.planes := rfl
@[simp] theorem State.chargeTo_freeCtr (s : State) (n : Nat) (p : Option Nat) : (s.chargeTo n p).freeCtr = s.freeCtr := rfl
@[simp] theorem State.chargeTo_time (s : State) (n : Nat) (p : Option Nat) : (s.chargeTo n p).time = s.time := rfl
@[simp] theorem State.chargeTo_csi (s : State) (n : Nat) (p : Option Nat) : (s.chargeTo n p).csi = s.csi := rfl
@[simp] theorem State.chargeTo_eth (s : State) (n : Nat) (p : Option Nat) : (s.chargeTo n p).eth = s.eth := rfl
@[simp] theorem State.chargeTo_spi (s : State) (n : Nat) (p : Option Nat) : (s.chargeTo n p).spi = s.spi := rfl
@[simp] theorem State.chargeTo_wheel (s : State) (n : Nat) (p : Option Nat) : (s.chargeTo n p).wheel = s.wheel := rfl
@[simp] theorem State.chargeTo_can (s : State) (n : Nat) (p : Option Nat) : (s.chargeTo n p).can = s.can := rfl
@[simp] theorem State.chargeTo_slots (s : State) (n : Nat) (p : Option Nat) : (s.chargeTo n p).slots = s.slots := rfl
@[simp] theorem State.chargeTo_fend (s : State) (n : Nat) (p : Option Nat) : (s.chargeTo n p).fend = s.fend := rfl
@[simp] theorem State.chargeTo_surfT0 (s : State) (n : Nat) (p : Option Nat) : (s.chargeTo n p).surfT0 = s.surfT0 := rfl
@[simp] theorem State.chargeTo_loops (s : State) (n : Nat) (p : Option Nat) : (s.chargeTo n p).loops = s.loops := rfl
@[simp] theorem State.chargeTo_cores (s : State) (n : Nat) (p : Option Nat) : (s.chargeTo n p).cores = s.cores := rfl
@[simp] theorem State.chargeTo_routers (s : State) (n : Nat) (p : Option Nat) : (s.chargeTo n p).routers = s.routers := rfl
@[simp] theorem State.chargeTo_edges (s : State) (n : Nat) (p : Option Nat) : (s.chargeTo n p).edges = s.edges := rfl
@[simp] theorem State.chargeTo_bell (s : State) (n : Nat) (p : Option Nat) : (s.chargeTo n p).bell = s.bell := rfl
@[simp] theorem State.chargeTo_engines (s : State) (n : Nat) (p : Option Nat) : (s.chargeTo n p).engines = s.engines := rfl
@[simp] theorem State.chargeTo_bins (s : State) (n : Nat) (p : Option Nat) : (s.chargeTo n p).bins = s.bins := rfl
@[simp] theorem State.chargeTo_tt (s : State) (n : Nat) (p : Option Nat) : (s.chargeTo n p).tt = s.tt := rfl
@[simp] theorem State.chargeTo_grid (s : State) (n : Nat) (p : Option Nat) : (s.chargeTo n p).grid = s.grid := rfl
@[simp] theorem State.chargeTo_trk (s : State) (n : Nat) (p : Option Nat) : (s.chargeTo n p).trk = s.trk := rfl
@[simp] theorem State.chargeTo_chain (s : State) (n : Nat) (p : Option Nat) : (s.chargeTo n p).chain = s.chain := rfl
@[simp] theorem State.chargeTo_ego (s : State) (n : Nat) (p : Option Nat) : (s.chargeTo n p).ego = s.ego := rfl
@[simp] theorem State.chargeTo_stream (s : State) (n : Nat) (p : Option Nat) : (s.chargeTo n p).stream = s.stream := rfl
@[simp] theorem State.chargeTo_pwr (s : State) (n : Nat) (p : Option Nat) : (s.chargeTo n p).pwr = s.pwr := rfl
@[simp] theorem State.chargeTo_sec (s : State) (n : Nat) (p : Option Nat) : (s.chargeTo n p).sec = s.sec := rfl
@[simp] theorem State.chargeTo_regs (s : State) (n : Nat) (p : Option Nat) : (s.chargeTo n p).regs = s.regs := rfl
@[simp] theorem State.chargeTo_ports (s : State) (n : Nat) (p : Option Nat) : (s.chargeTo n p).ports = s.ports := rfl
@[simp] theorem State.chargeTo_memc (s : State) (n : Nat) (p : Option Nat) : (s.chargeTo n p).memc = s.memc := rfl

/-! ### `loadFor` and `load` -/

@[simp] theorem State.loadFor_pending (s : State) (p : Option Nat) (m a n : Nat) : (s.loadFor p m a n).1.pending = s.pending := by unfold State.loadFor; simp only []; (repeat' split) <;> simp
@[simp] theorem State.load_pending (s : State) (m a n : Nat) : (s.load m a n).1.pending = s.pending := State.loadFor_pending _ _ _ _ _
@[simp] theorem State.loadFor_mem (s : State) (p : Option Nat) (m a n : Nat) : (s.loadFor p m a n).1.mem = s.mem := by unfold State.loadFor; simp only []; (repeat' split) <;> simp
@[simp] theorem State.load_mem (s : State) (m a n : Nat) : (s.load m a n).1.mem = s.mem := State.loadFor_mem _ _ _ _ _
@[simp] theorem State.loadFor_gridMem (s : State) (p : Option Nat) (m a n : Nat) : (s.loadFor p m a n).1.gridMem = s.gridMem := by unfold State.loadFor; simp only []; (repeat' split) <;> simp
@[simp] theorem State.load_gridMem (s : State) (m a n : Nat) : (s.load m a n).1.gridMem = s.gridMem := State.loadFor_gridMem _ _ _ _ _
@[simp] theorem State.loadFor_planes (s : State) (p : Option Nat) (m a n : Nat) : (s.loadFor p m a n).1.planes = s.planes := by unfold State.loadFor; simp only []; (repeat' split) <;> simp
@[simp] theorem State.load_planes (s : State) (m a n : Nat) : (s.load m a n).1.planes = s.planes := State.loadFor_planes _ _ _ _ _
@[simp] theorem State.loadFor_freeCtr (s : State) (p : Option Nat) (m a n : Nat) : (s.loadFor p m a n).1.freeCtr = s.freeCtr := by unfold State.loadFor; simp only []; (repeat' split) <;> simp
@[simp] theorem State.load_freeCtr (s : State) (m a n : Nat) : (s.load m a n).1.freeCtr = s.freeCtr := State.loadFor_freeCtr _ _ _ _ _
@[simp] theorem State.loadFor_time (s : State) (p : Option Nat) (m a n : Nat) : (s.loadFor p m a n).1.time = s.time := by unfold State.loadFor; simp only []; (repeat' split) <;> simp
@[simp] theorem State.load_time (s : State) (m a n : Nat) : (s.load m a n).1.time = s.time := State.loadFor_time _ _ _ _ _
@[simp] theorem State.loadFor_csi (s : State) (p : Option Nat) (m a n : Nat) : (s.loadFor p m a n).1.csi = s.csi := by unfold State.loadFor; simp only []; (repeat' split) <;> simp
@[simp] theorem State.load_csi (s : State) (m a n : Nat) : (s.load m a n).1.csi = s.csi := State.loadFor_csi _ _ _ _ _
@[simp] theorem State.loadFor_eth (s : State) (p : Option Nat) (m a n : Nat) : (s.loadFor p m a n).1.eth = s.eth := by unfold State.loadFor; simp only []; (repeat' split) <;> simp
@[simp] theorem State.load_eth (s : State) (m a n : Nat) : (s.load m a n).1.eth = s.eth := State.loadFor_eth _ _ _ _ _
@[simp] theorem State.loadFor_spi (s : State) (p : Option Nat) (m a n : Nat) : (s.loadFor p m a n).1.spi = s.spi := by unfold State.loadFor; simp only []; (repeat' split) <;> simp
@[simp] theorem State.load_spi (s : State) (m a n : Nat) : (s.load m a n).1.spi = s.spi := State.loadFor_spi _ _ _ _ _
@[simp] theorem State.loadFor_wheel (s : State) (p : Option Nat) (m a n : Nat) : (s.loadFor p m a n).1.wheel = s.wheel := by unfold State.loadFor; simp only []; (repeat' split) <;> simp
@[simp] theorem State.load_wheel (s : State) (m a n : Nat) : (s.load m a n).1.wheel = s.wheel := State.loadFor_wheel _ _ _ _ _
@[simp] theorem State.loadFor_can (s : State) (p : Option Nat) (m a n : Nat) : (s.loadFor p m a n).1.can = s.can := by unfold State.loadFor; simp only []; (repeat' split) <;> simp
@[simp] theorem State.load_can (s : State) (m a n : Nat) : (s.load m a n).1.can = s.can := State.loadFor_can _ _ _ _ _
@[simp] theorem State.loadFor_slots (s : State) (p : Option Nat) (m a n : Nat) : (s.loadFor p m a n).1.slots = s.slots := by unfold State.loadFor; simp only []; (repeat' split) <;> simp
@[simp] theorem State.load_slots (s : State) (m a n : Nat) : (s.load m a n).1.slots = s.slots := State.loadFor_slots _ _ _ _ _
@[simp] theorem State.loadFor_fend (s : State) (p : Option Nat) (m a n : Nat) : (s.loadFor p m a n).1.fend = s.fend := by unfold State.loadFor; simp only []; (repeat' split) <;> simp
@[simp] theorem State.load_fend (s : State) (m a n : Nat) : (s.load m a n).1.fend = s.fend := State.loadFor_fend _ _ _ _ _
@[simp] theorem State.loadFor_surfT0 (s : State) (p : Option Nat) (m a n : Nat) : (s.loadFor p m a n).1.surfT0 = s.surfT0 := by unfold State.loadFor; simp only []; (repeat' split) <;> simp
@[simp] theorem State.load_surfT0 (s : State) (m a n : Nat) : (s.load m a n).1.surfT0 = s.surfT0 := State.loadFor_surfT0 _ _ _ _ _
@[simp] theorem State.loadFor_loops (s : State) (p : Option Nat) (m a n : Nat) : (s.loadFor p m a n).1.loops = s.loops := by unfold State.loadFor; simp only []; (repeat' split) <;> simp
@[simp] theorem State.load_loops (s : State) (m a n : Nat) : (s.load m a n).1.loops = s.loops := State.loadFor_loops _ _ _ _ _
@[simp] theorem State.loadFor_cores (s : State) (p : Option Nat) (m a n : Nat) : (s.loadFor p m a n).1.cores = s.cores := by unfold State.loadFor; simp only []; (repeat' split) <;> simp
@[simp] theorem State.load_cores (s : State) (m a n : Nat) : (s.load m a n).1.cores = s.cores := State.loadFor_cores _ _ _ _ _
@[simp] theorem State.loadFor_routers (s : State) (p : Option Nat) (m a n : Nat) : (s.loadFor p m a n).1.routers = s.routers := by unfold State.loadFor; simp only []; (repeat' split) <;> simp
@[simp] theorem State.load_routers (s : State) (m a n : Nat) : (s.load m a n).1.routers = s.routers := State.loadFor_routers _ _ _ _ _
@[simp] theorem State.loadFor_edges (s : State) (p : Option Nat) (m a n : Nat) : (s.loadFor p m a n).1.edges = s.edges := by unfold State.loadFor; simp only []; (repeat' split) <;> simp
@[simp] theorem State.load_edges (s : State) (m a n : Nat) : (s.load m a n).1.edges = s.edges := State.loadFor_edges _ _ _ _ _
@[simp] theorem State.loadFor_bell (s : State) (p : Option Nat) (m a n : Nat) : (s.loadFor p m a n).1.bell = s.bell := by unfold State.loadFor; simp only []; (repeat' split) <;> simp
@[simp] theorem State.load_bell (s : State) (m a n : Nat) : (s.load m a n).1.bell = s.bell := State.loadFor_bell _ _ _ _ _
@[simp] theorem State.loadFor_engines (s : State) (p : Option Nat) (m a n : Nat) : (s.loadFor p m a n).1.engines = s.engines := by unfold State.loadFor; simp only []; (repeat' split) <;> simp
@[simp] theorem State.load_engines (s : State) (m a n : Nat) : (s.load m a n).1.engines = s.engines := State.loadFor_engines _ _ _ _ _
@[simp] theorem State.loadFor_bins (s : State) (p : Option Nat) (m a n : Nat) : (s.loadFor p m a n).1.bins = s.bins := by unfold State.loadFor; simp only []; (repeat' split) <;> simp
@[simp] theorem State.load_bins (s : State) (m a n : Nat) : (s.load m a n).1.bins = s.bins := State.loadFor_bins _ _ _ _ _
@[simp] theorem State.loadFor_tt (s : State) (p : Option Nat) (m a n : Nat) : (s.loadFor p m a n).1.tt = s.tt := by unfold State.loadFor; simp only []; (repeat' split) <;> simp
@[simp] theorem State.load_tt (s : State) (m a n : Nat) : (s.load m a n).1.tt = s.tt := State.loadFor_tt _ _ _ _ _
@[simp] theorem State.loadFor_grid (s : State) (p : Option Nat) (m a n : Nat) : (s.loadFor p m a n).1.grid = s.grid := by unfold State.loadFor; simp only []; (repeat' split) <;> simp
@[simp] theorem State.load_grid (s : State) (m a n : Nat) : (s.load m a n).1.grid = s.grid := State.loadFor_grid _ _ _ _ _
@[simp] theorem State.loadFor_trk (s : State) (p : Option Nat) (m a n : Nat) : (s.loadFor p m a n).1.trk = s.trk := by unfold State.loadFor; simp only []; (repeat' split) <;> simp
@[simp] theorem State.load_trk (s : State) (m a n : Nat) : (s.load m a n).1.trk = s.trk := State.loadFor_trk _ _ _ _ _
@[simp] theorem State.loadFor_chain (s : State) (p : Option Nat) (m a n : Nat) : (s.loadFor p m a n).1.chain = s.chain := by unfold State.loadFor; simp only []; (repeat' split) <;> simp
@[simp] theorem State.load_chain (s : State) (m a n : Nat) : (s.load m a n).1.chain = s.chain := State.loadFor_chain _ _ _ _ _
@[simp] theorem State.loadFor_ego (s : State) (p : Option Nat) (m a n : Nat) : (s.loadFor p m a n).1.ego = s.ego := by unfold State.loadFor; simp only []; (repeat' split) <;> simp
@[simp] theorem State.load_ego (s : State) (m a n : Nat) : (s.load m a n).1.ego = s.ego := State.loadFor_ego _ _ _ _ _
@[simp] theorem State.loadFor_stream (s : State) (p : Option Nat) (m a n : Nat) : (s.loadFor p m a n).1.stream = s.stream := by unfold State.loadFor; simp only []; (repeat' split) <;> simp
@[simp] theorem State.load_stream (s : State) (m a n : Nat) : (s.load m a n).1.stream = s.stream := State.loadFor_stream _ _ _ _ _
@[simp] theorem State.loadFor_pwr (s : State) (p : Option Nat) (m a n : Nat) : (s.loadFor p m a n).1.pwr = s.pwr := by unfold State.loadFor; simp only []; (repeat' split) <;> simp
@[simp] theorem State.load_pwr (s : State) (m a n : Nat) : (s.load m a n).1.pwr = s.pwr := State.loadFor_pwr _ _ _ _ _
@[simp] theorem State.loadFor_sec (s : State) (p : Option Nat) (m a n : Nat) : (s.loadFor p m a n).1.sec = s.sec := by unfold State.loadFor; simp only []; (repeat' split) <;> simp
@[simp] theorem State.load_sec (s : State) (m a n : Nat) : (s.load m a n).1.sec = s.sec := State.loadFor_sec _ _ _ _ _

/-! ### `store` and `put` -/

@[simp] theorem State.store_pending (s : State) (m a : Nat) (bs : List Byte) : (s.store m a bs).1.pending = s.pending := by
  unfold State.store; simp only []; (repeat' split) <;> simp
@[simp] theorem State.put_pending (s : State) (m a : Nat) (bs : List Byte) : (s.put m a bs).pending = s.pending := State.store_pending _ _ _ _
@[simp] theorem State.store_planes (s : State) (m a : Nat) (bs : List Byte) : (s.store m a bs).1.planes = s.planes := by
  unfold State.store; simp only []; (repeat' split) <;> simp
@[simp] theorem State.put_planes (s : State) (m a : Nat) (bs : List Byte) : (s.put m a bs).planes = s.planes := State.store_planes _ _ _ _
@[simp] theorem State.store_freeCtr (s : State) (m a : Nat) (bs : List Byte) : (s.store m a bs).1.freeCtr = s.freeCtr := by
  unfold State.store; simp only []; (repeat' split) <;> simp
@[simp] theorem State.put_freeCtr (s : State) (m a : Nat) (bs : List Byte) : (s.put m a bs).freeCtr = s.freeCtr := State.store_freeCtr _ _ _ _
@[simp] theorem State.store_time (s : State) (m a : Nat) (bs : List Byte) : (s.store m a bs).1.time = s.time := by
  unfold State.store; simp only []; (repeat' split) <;> simp
@[simp] theorem State.put_time (s : State) (m a : Nat) (bs : List Byte) : (s.put m a bs).time = s.time := State.store_time _ _ _ _
@[simp] theorem State.store_csi (s : State) (m a : Nat) (bs : List Byte) : (s.store m a bs).1.csi = s.csi := by
  unfold State.store; simp only []; (repeat' split) <;> simp
@[simp] theorem State.put_csi (s : State) (m a : Nat) (bs : List Byte) : (s.put m a bs).csi = s.csi := State.store_csi _ _ _ _
@[simp] theorem State.store_eth (s : State) (m a : Nat) (bs : List Byte) : (s.store m a bs).1.eth = s.eth := by
  unfold State.store; simp only []; (repeat' split) <;> simp
@[simp] theorem State.put_eth (s : State) (m a : Nat) (bs : List Byte) : (s.put m a bs).eth = s.eth := State.store_eth _ _ _ _
@[simp] theorem State.store_spi (s : State) (m a : Nat) (bs : List Byte) : (s.store m a bs).1.spi = s.spi := by
  unfold State.store; simp only []; (repeat' split) <;> simp
@[simp] theorem State.put_spi (s : State) (m a : Nat) (bs : List Byte) : (s.put m a bs).spi = s.spi := State.store_spi _ _ _ _
@[simp] theorem State.store_wheel (s : State) (m a : Nat) (bs : List Byte) : (s.store m a bs).1.wheel = s.wheel := by
  unfold State.store; simp only []; (repeat' split) <;> simp
@[simp] theorem State.put_wheel (s : State) (m a : Nat) (bs : List Byte) : (s.put m a bs).wheel = s.wheel := State.store_wheel _ _ _ _
@[simp] theorem State.store_can (s : State) (m a : Nat) (bs : List Byte) : (s.store m a bs).1.can = s.can := by
  unfold State.store; simp only []; (repeat' split) <;> simp
@[simp] theorem State.put_can (s : State) (m a : Nat) (bs : List Byte) : (s.put m a bs).can = s.can := State.store_can _ _ _ _
@[simp] theorem State.store_slots (s : State) (m a : Nat) (bs : List Byte) : (s.store m a bs).1.slots = s.slots := by
  unfold State.store; simp only []; (repeat' split) <;> simp
@[simp] theorem State.put_slots (s : State) (m a : Nat) (bs : List Byte) : (s.put m a bs).slots = s.slots := State.store_slots _ _ _ _
@[simp] theorem State.store_fend (s : State) (m a : Nat) (bs : List Byte) : (s.store m a bs).1.fend = s.fend := by
  unfold State.store; simp only []; (repeat' split) <;> simp
@[simp] theorem State.put_fend (s : State) (m a : Nat) (bs : List Byte) : (s.put m a bs).fend = s.fend := State.store_fend _ _ _ _
@[simp] theorem State.store_surfT0 (s : State) (m a : Nat) (bs : List Byte) : (s.store m a bs).1.surfT0 = s.surfT0 := by
  unfold State.store; simp only []; (repeat' split) <;> simp
@[simp] theorem State.put_surfT0 (s : State) (m a : Nat) (bs : List Byte) : (s.put m a bs).surfT0 = s.surfT0 := State.store_surfT0 _ _ _ _
@[simp] theorem State.store_loops (s : State) (m a : Nat) (bs : List Byte) : (s.store m a bs).1.loops = s.loops := by
  unfold State.store; simp only []; (repeat' split) <;> simp
@[simp] theorem State.put_loops (s : State) (m a : Nat) (bs : List Byte) : (s.put m a bs).loops = s.loops := State.store_loops _ _ _ _
@[simp] theorem State.store_cores (s : State) (m a : Nat) (bs : List Byte) : (s.store m a bs).1.cores = s.cores := by
  unfold State.store; simp only []; (repeat' split) <;> simp
@[simp] theorem State.put_cores (s : State) (m a : Nat) (bs : List Byte) : (s.put m a bs).cores = s.cores := State.store_cores _ _ _ _
@[simp] theorem State.store_routers (s : State) (m a : Nat) (bs : List Byte) : (s.store m a bs).1.routers = s.routers := by
  unfold State.store; simp only []; (repeat' split) <;> simp
@[simp] theorem State.put_routers (s : State) (m a : Nat) (bs : List Byte) : (s.put m a bs).routers = s.routers := State.store_routers _ _ _ _
@[simp] theorem State.store_edges (s : State) (m a : Nat) (bs : List Byte) : (s.store m a bs).1.edges = s.edges := by
  unfold State.store; simp only []; (repeat' split) <;> simp
@[simp] theorem State.put_edges (s : State) (m a : Nat) (bs : List Byte) : (s.put m a bs).edges = s.edges := State.store_edges _ _ _ _
@[simp] theorem State.store_bell (s : State) (m a : Nat) (bs : List Byte) : (s.store m a bs).1.bell = s.bell := by
  unfold State.store; simp only []; (repeat' split) <;> simp
@[simp] theorem State.put_bell (s : State) (m a : Nat) (bs : List Byte) : (s.put m a bs).bell = s.bell := State.store_bell _ _ _ _
@[simp] theorem State.store_engines (s : State) (m a : Nat) (bs : List Byte) : (s.store m a bs).1.engines = s.engines := by
  unfold State.store; simp only []; (repeat' split) <;> simp
@[simp] theorem State.put_engines (s : State) (m a : Nat) (bs : List Byte) : (s.put m a bs).engines = s.engines := State.store_engines _ _ _ _
@[simp] theorem State.store_bins (s : State) (m a : Nat) (bs : List Byte) : (s.store m a bs).1.bins = s.bins := by
  unfold State.store; simp only []; (repeat' split) <;> simp
@[simp] theorem State.put_bins (s : State) (m a : Nat) (bs : List Byte) : (s.put m a bs).bins = s.bins := State.store_bins _ _ _ _
@[simp] theorem State.store_tt (s : State) (m a : Nat) (bs : List Byte) : (s.store m a bs).1.tt = s.tt := by
  unfold State.store; simp only []; (repeat' split) <;> simp
@[simp] theorem State.put_tt (s : State) (m a : Nat) (bs : List Byte) : (s.put m a bs).tt = s.tt := State.store_tt _ _ _ _
@[simp] theorem State.store_grid (s : State) (m a : Nat) (bs : List Byte) : (s.store m a bs).1.grid = s.grid := by
  unfold State.store; simp only []; (repeat' split) <;> simp
@[simp] theorem State.put_grid (s : State) (m a : Nat) (bs : List Byte) : (s.put m a bs).grid = s.grid := State.store_grid _ _ _ _
@[simp] theorem State.store_trk (s : State) (m a : Nat) (bs : List Byte) : (s.store m a bs).1.trk = s.trk := by
  unfold State.store; simp only []; (repeat' split) <;> simp
@[simp] theorem State.put_trk (s : State) (m a : Nat) (bs : List Byte) : (s.put m a bs).trk = s.trk := State.store_trk _ _ _ _
@[simp] theorem State.store_chain (s : State) (m a : Nat) (bs : List Byte) : (s.store m a bs).1.chain = s.chain := by
  unfold State.store; simp only []; (repeat' split) <;> simp
@[simp] theorem State.put_chain (s : State) (m a : Nat) (bs : List Byte) : (s.put m a bs).chain = s.chain := State.store_chain _ _ _ _
@[simp] theorem State.store_ego (s : State) (m a : Nat) (bs : List Byte) : (s.store m a bs).1.ego = s.ego := by
  unfold State.store; simp only []; (repeat' split) <;> simp
@[simp] theorem State.put_ego (s : State) (m a : Nat) (bs : List Byte) : (s.put m a bs).ego = s.ego := State.store_ego _ _ _ _
@[simp] theorem State.store_stream (s : State) (m a : Nat) (bs : List Byte) : (s.store m a bs).1.stream = s.stream := by
  unfold State.store; simp only []; (repeat' split) <;> simp
@[simp] theorem State.put_stream (s : State) (m a : Nat) (bs : List Byte) : (s.put m a bs).stream = s.stream := State.store_stream _ _ _ _
@[simp] theorem State.store_pwr (s : State) (m a : Nat) (bs : List Byte) : (s.store m a bs).1.pwr = s.pwr := by
  unfold State.store; simp only []; (repeat' split) <;> simp
@[simp] theorem State.put_pwr (s : State) (m a : Nat) (bs : List Byte) : (s.put m a bs).pwr = s.pwr := State.store_pwr _ _ _ _
@[simp] theorem State.store_sec (s : State) (m a : Nat) (bs : List Byte) : (s.store m a bs).1.sec = s.sec := by
  unfold State.store; simp only []; (repeat' split) <;> simp
@[simp] theorem State.put_sec (s : State) (m a : Nat) (bs : List Byte) : (s.put m a bs).sec = s.sec := State.store_sec _ _ _ _

end Sys2Proof.Machine
end

