-- ==== Sys2Proof/Laws/Sparse.lean ====
section
/-! SUPPORT. Sparse maps: a read after a write, and every operation keeps the canonical form. -/

namespace Sys2Proof.Machine

variable {α : Type}

theorem SMap.get_erase (d : Nat → α) (m : SMap α) (k j : Nat) :
    SMap.get d (SMap.erase m k) j = if j = k then d j else SMap.get d m j := by
  induction m with
  | nil => simp [SMap.erase, SMap.get]
  | cons e m ih => grind [SMap.erase, SMap.get]

theorem SMap.get_insert (d : Nat → α) (m : SMap α) (k : Nat) (v : α) (j : Nat) (h : ∀ e ∈ m, e.1 ≠ k) :
    SMap.get d (SMap.insert m k v) j = if j = k then v else SMap.get d m j := by
  induction m with
  | nil => grind [SMap.insert, SMap.get]
  | cons e m ih => grind [SMap.insert, SMap.get]

theorem SMap.mem_erase (m : SMap α) (k : Nat) (e : Nat × α) : e ∈ SMap.erase m k ↔ e ∈ m ∧ e.1 ≠ k := by
  induction m with
  | nil => simp [SMap.erase]
  | cons f m ih => grind [SMap.erase]

/-- A read after a write. -/
theorem SMap.get_set [DecidableEq α] (d : Nat → α) (m : SMap α) (k : Nat) (v : α) (j : Nat) :
    SMap.get d (SMap.set d m k v) j = if j = k then v else SMap.get d m j := by
  unfold SMap.set
  split
  · rw [SMap.get_erase]; split <;> simp_all
  · rw [SMap.get_insert _ _ _ _ _ (fun e he => ((SMap.mem_erase m k e).1 he).2), SMap.get_erase]
    split <;> rfl

@[simp] theorem SMap.get_set_self [DecidableEq α] (d : Nat → α) (m : SMap α) (k : Nat) (v : α) :
    SMap.get d (SMap.set d m k v) k = v := by simp [SMap.get_set]

theorem SMap.get_set_ne [DecidableEq α] (d : Nat → α) (m : SMap α) {k j : Nat} (v : α) (h : j ≠ k) :
    SMap.get d (SMap.set d m k v) j = SMap.get d m j := by simp [SMap.get_set, h]

@[simp] theorem SMap.get_nil (d : Nat → α) (k : Nat) : SMap.get d [] k = d k := rfl

/-- Clearing a range returns its keys to what an unlisted key reads as, and no other. -/
theorem SMap.get_clear (d : Nat → α) (m : SMap α) (lo hi j : Nat) :
    SMap.get d (SMap.clear m lo hi) j = if lo ≤ j ∧ j < hi then d j else SMap.get d m j := by
  induction m with
  | nil => simp [SMap.clear, SMap.get]
  | cons e m ih => grind [SMap.clear, SMap.get]

section wf
variable [DecidableEq α] (d : Nat → α)

theorem SMap.okFrom_mono {lo lo' : Nat} {m : SMap α} (hl : lo' ≤ lo) (h : SMap.okFrom d lo m = true) :
    SMap.okFrom d lo' m = true := by
  cases m with
  | nil => rfl
  | cons e m => grind [SMap.okFrom]

theorem SMap.okFrom_erase {lo : Nat} {m : SMap α} (k : Nat) (h : SMap.okFrom d lo m = true) :
    SMap.okFrom d lo (SMap.erase m k) = true := by
  induction m generalizing lo with
  | nil => rfl
  | cons e m ih =>
    simp only [SMap.okFrom, Bool.and_eq_true, decide_eq_true_eq] at h
    simp only [SMap.erase]
    split
    · exact SMap.okFrom_mono d (by omega) (ih h.2)
    · simp only [SMap.okFrom, Bool.and_eq_true, decide_eq_true_eq]
      exact ⟨h.1, ih h.2⟩

theorem SMap.okFrom_insert {lo : Nat} {m : SMap α} {k : Nat} {v : α} (hk : lo ≤ k) (hv : v ≠ d k)
    (hm : ∀ e ∈ m, e.1 ≠ k) (h : SMap.okFrom d lo m = true) : SMap.okFrom d lo (SMap.insert m k v) = true := by
  induction m generalizing lo with
  | nil => grind [SMap.okFrom, SMap.insert]
  | cons e m ih =>
    simp only [SMap.okFrom, Bool.and_eq_true, decide_eq_true_eq] at h
    have hj : e.1 ≠ k := hm e (by simp)
    simp only [SMap.insert]
    split <;> simp only [SMap.okFrom, Bool.and_eq_true, decide_eq_true_eq]
    · exact ⟨⟨hk, hv⟩, ⟨by omega, h.1.2⟩, h.2⟩
    · exact ⟨h.1, ih (by omega) (fun f hf => hm f (by simp [hf])) h.2⟩

theorem SMap.okFrom_filter (f : Nat × α → Bool) {lo : Nat} {m : SMap α} (h : SMap.okFrom d lo m = true) :
    SMap.okFrom d lo (m.filter f) = true := by
  induction m generalizing lo with
  | nil => rfl
  | cons e m ih =>
    simp only [SMap.okFrom, Bool.and_eq_true, decide_eq_true_eq] at h
    simp only [List.filter_cons]
    split
    · simp only [SMap.okFrom, Bool.and_eq_true, decide_eq_true_eq]
      exact ⟨h.1, ih h.2⟩
    · exact SMap.okFrom_mono d (by omega) (ih h.2)

@[simp] theorem SMap.wf_nil : SMap.wf d ([] : SMap α) = true := rfl

/-- A write keeps the canonical form. -/
theorem SMap.wf_set {m : SMap α} (k : Nat) (v : α) (h : SMap.wf d m = true) : SMap.wf d (SMap.set d m k v) = true := by
  unfold SMap.wf SMap.set at *
  split
  · exact SMap.okFrom_erase d k h
  · exact SMap.okFrom_insert d (Nat.zero_le k) ‹_› (fun e he => ((SMap.mem_erase m k e).1 he).2) (SMap.okFrom_erase d k h)

/-- Clearing a range keeps the canonical form. -/
theorem SMap.wf_clear {m : SMap α} (lo hi : Nat) (h : SMap.wf d m = true) : SMap.wf d (SMap.clear m lo hi) = true :=
  SMap.okFrom_filter d _ h

/-- Keeping some of the entries keeps the canonical form. -/
theorem SMap.wf_filter {m : SMap α} (f : Nat × α → Bool) (h : SMap.wf d m = true) : SMap.wf d (m.filter f) = true :=
  SMap.okFrom_filter d f h

theorem SMap.wf_setMany {m : SMap α} (k : Nat) (vs : List α) (h : SMap.wf d m = true) :
    SMap.wf d (SMap.setMany d m k vs) = true := by
  induction vs generalizing m k with
  | nil => exact h
  | cons v vs ih => exact ih (k + 1) (SMap.wf_set d k v h)

end wf

end Sys2Proof.Machine
end

