-- ==== Sys2Proof/Laws/Registers.lean ====
section
/-! SUPPORT. Registers and their fields: a read after each kind of write. -/

namespace Sys2Proof.Machine

/-! ### Fields of numbers -/

theorem bits_lt (n hi lo : Nat) : bits n hi lo < 2 ^ (hi + 1 - lo) := Nat.mod_lt _ (Nat.two_pow_pos _)

theorem testBit_bits (n hi lo i : Nat) : (bits n hi lo).testBit i = (decide (i < hi + 1 - lo) && n.testBit (lo + i)) := by
  simp [bits, Nat.testBit_mod_two_pow, Nat.testBit_shiftRight]

theorem putBits_eq (n hi lo v : Nat) (h : lo ≤ hi) :
    putBits n hi lo v = n / 2 ^ (hi + 1) * 2 ^ (hi + 1) + v % 2 ^ (hi + 1 - lo) * 2 ^ lo + n % 2 ^ lo := by
  obtain ⟨w, hw⟩ : ∃ w, hi + 1 = lo + w := ⟨hi + 1 - lo, by omega⟩
  unfold putBits bits
  rw [show hi + 1 - lo = w by omega, hw, Nat.shiftRight_eq_div_pow]
  have h1 := Nat.div_add_mod n (2 ^ lo)
  have h2 := Nat.div_add_mod (n / 2 ^ lo) (2 ^ w)
  have h3 : n / 2 ^ (lo + w) = n / 2 ^ lo / 2 ^ w := by rw [Nat.pow_add, Nat.div_div_eq_div_mul]
  rw [h3]
  generalize n / 2 ^ lo = a at *
  generalize a / 2 ^ w = b at *
  generalize a % 2 ^ w = c at *
  generalize n % 2 ^ lo = d at *
  subst h2
  have h4 : 2 ^ lo * (2 ^ w * b + c) = b * 2 ^ (lo + w) + c * 2 ^ lo := by ring
  omega

theorem testBit_putBits (n hi lo v i : Nat) (h : lo ≤ hi) :
    (putBits n hi lo v).testBit i = if lo ≤ i ∧ i ≤ hi then v.testBit (i - lo) else n.testBit i := by
  have e : putBits n hi lo v = 2 ^ lo * (2 ^ (hi + 1 - lo) * (n / 2 ^ (hi + 1)) + v % 2 ^ (hi + 1 - lo)) + n % 2 ^ lo := by
    rw [putBits_eq n hi lo v h]
    have : 2 ^ (hi + 1) = 2 ^ lo * 2 ^ (hi + 1 - lo) := by rw [← Nat.pow_add]; congr 1; omega
    rw [this]; ring
  rw [e, Nat.testBit_two_pow_mul_add _ (Nat.mod_lt _ (Nat.two_pow_pos _)),
    Nat.testBit_two_pow_mul_add _ (Nat.mod_lt _ (Nat.two_pow_pos _))]
  simp only [Nat.testBit_mod_two_pow, Nat.testBit_div_two_pow]
  by_cases h1 : i < lo
  · simp [h1, show ¬ (lo ≤ i) by omega]
  · by_cases h2 : i ≤ hi
    · simp [h1, h2, show lo ≤ i by omega, show i - lo < hi + 1 - lo by omega]
    · simp [h1, h2, show ¬ (i - lo < hi + 1 - lo) by omega, show i - lo - (hi + 1 - lo) + (hi + 1) = i by omega]

theorem putBits_lt {n hi lo v w : Nat} (hn : n < 2 ^ w) (hw : hi < w) (h : lo ≤ hi) : putBits n hi lo v < 2 ^ w := by
  refine Nat.lt_pow_two_of_testBit _ (fun i hi' => ?_)
  rw [testBit_putBits _ _ _ _ _ h, if_neg (by omega)]
  exact Nat.testBit_lt_two_pow (lt_of_lt_of_le hn (Nat.pow_le_pow_right (by decide) hi'))

/-! ### Registers -/

theorem State.rdN_lt (s : State) (k : Nat) : s.rdN k < 2 ^ 32 := (s.rd k).isLt

theorem State.rd_wr (s : State) (k : Nat) (v : Word) (j : Nat) : (s.wr k v).rd j = if j = k then v else s.rd j :=
  SMap.get_set _ _ _ _ _

theorem State.rdN_wrN (s : State) (k v j : Nat) : (s.wrN k v).rdN j = if j = k then v % 2 ^ 32 else s.rdN j := by
  unfold State.wrN State.rdN
  rw [State.rd_wr]; split
  · simp
  · rfl

theorem State.rd_wrN_ne (s : State) {k j : Nat} (v : Nat) (h : j ≠ k) : (s.wrN k v).rd j = s.rd j := by
  unfold State.wrN; rw [State.rd_wr, if_neg h]

theorem State.rdN_setFld (s : State) (k hi lo v j : Nat) (h1 : lo ≤ hi) (h2 : hi < 32) :
    (s.setFld k hi lo v).rdN j = if j = k then putBits (s.rdN k) hi lo v else s.rdN j := by
  unfold State.setFld
  rw [State.rdN_wrN]
  split
  · exact Nat.mod_eq_of_lt (putBits_lt (s.rdN_lt k) h2 h1)
  · rfl

theorem State.rd_setFld_ne (s : State) {k j : Nat} (hi lo v : Nat) (h : j ≠ k) : (s.setFld k hi lo v).rd j = s.rd j :=
  s.rd_wrN_ne _ h

theorem State.bit_setFld (s : State) (k hi lo v j b : Nat) (h1 : lo ≤ hi) (h2 : hi < 32) :
    (s.setFld k hi lo v).bit j b = if j = k ∧ lo ≤ b ∧ b ≤ hi then v.testBit (b - lo) else s.bit j b := by
  unfold State.bit
  rw [State.rdN_setFld _ _ _ _ _ _ h1 h2]
  by_cases hj : j = k
  · subst hj; simp [testBit_putBits _ _ _ _ _ h1]
  · simp [hj]

/-- A field read back where it was written. -/
theorem State.fld_setFld_self (s : State) (k hi lo v : Nat) (h1 : lo ≤ hi) (h2 : hi < 32) :
    (s.setFld k hi lo v).fld k hi lo = v % 2 ^ (hi + 1 - lo) := by
  unfold State.fld
  rw [State.rdN_setFld _ _ _ _ _ _ h1 h2, if_pos rfl]
  refine Nat.eq_of_testBit_eq (fun i => ?_)
  rw [testBit_bits, Nat.testBit_mod_two_pow, testBit_putBits _ _ _ _ _ h1]
  by_cases hi' : i < hi + 1 - lo
  · simp [hi', show lo + i ≤ hi by omega]
  · simp [hi']

/-- Another field of the same register, or one of another register, is not changed. -/
theorem State.fld_setFld_ne (s : State) (k hi lo v j hj lj : Nat) (h1 : lo ≤ hi) (h2 : hi < 32)
    (h : j ≠ k ∨ hj < lo ∨ hi < lj) : (s.setFld k hi lo v).fld j hj lj = s.fld j hj lj := by
  unfold State.fld
  rw [State.rdN_setFld _ _ _ _ _ _ h1 h2]
  split
  · subst ‹j = k›
    refine Nat.eq_of_testBit_eq (fun i => ?_)
    rw [testBit_bits, testBit_bits, testBit_putBits _ _ _ _ _ h1]
    by_cases hi' : i < hj + 1 - lj
    · rw [if_neg (by omega)]
    · simp [hi']
  · rfl

theorem State.bit_setBit (s : State) (k b : Nat) (v : Bool) (j c : Nat) (h : b < 32) :
    (s.setBit k b v).bit j c = if j = k ∧ c = b then v else s.bit j c := by
  unfold State.setBit
  rw [State.bit_setFld _ _ _ _ _ _ _ (Nat.le_refl b) h]
  by_cases hj : j = k <;> by_cases hc : c = b
  · subst hj hc; cases v <;> simp
  · rw [if_neg (by omega), if_neg (by omega)]
  · simp [hj]
  · simp [hj]

theorem State.rd_setBit_ne (s : State) {k j : Nat} (b : Nat) (v : Bool) (h : j ≠ k) : (s.setBit k b v).rd j = s.rd j :=
  s.rd_wrN_ne _ h

theorem State.fld_setBit_ne (s : State) (k b : Nat) (v : Bool) (j hj lj : Nat) (hb : b < 32)
    (h : j ≠ k ∨ hj < b ∨ b < lj) : (s.setBit k b v).fld j hj lj = s.fld j hj lj :=
  s.fld_setFld_ne _ _ _ _ _ _ _ (Nat.le_refl b) hb h

theorem State.rd_wr64_ne (s : State) {k j : Nat} (v : Nat) (h : j ≠ k) (h' : j ≠ k + 4) : (s.wr64 k v).rd j = s.rd j := by
  unfold State.wr64; rw [State.rd_wrN_ne _ _ h', State.rd_wrN_ne _ _ h]

/-- A 64-bit pair read back. -/
theorem State.rd64_wr64_self (s : State) (k v : Nat) : (s.wr64 k v).rd64 k = v % 2 ^ 64 := by
  unfold State.rd64 State.wr64
  simp only [State.rdN_wrN, if_true, show k ≠ k + 4 by omega, if_false]
  omega

theorem State.rd64_wr64_ne (s : State) {k j : Nat} (v : Nat) (h : j + 4 < k ∨ k + 4 < j) : (s.wr64 k v).rd64 j = s.rd64 j := by
  unfold State.rd64 State.rdN
  rw [State.rd_wr64_ne _ _ (by omega) (by omega), State.rd_wr64_ne _ _ (by omega) (by omega)]

theorem State.rd_bump_ne (s : State) {k j : Nat} (n : Nat) (h : j ≠ k) (h' : j ≠ k + 4) : (s.bump k n).rd j = s.rd j :=
  s.rd_wr64_ne _ h h'

/-- A counter that counted on. -/
theorem State.rd64_bump_self (s : State) (k n : Nat) : (s.bump k n).rd64 k = (s.rd64 k + n) % 2 ^ 64 := s.rd64_wr64_self k _

theorem State.rd64_bump_ne (s : State) {k j : Nat} (n : Nat) (h : j + 4 < k ∨ k + 4 < j) : (s.bump k n).rd64 j = s.rd64 j :=
  s.rd64_wr64_ne _ h

theorem State.rdN_sat (s : State) (k n j : Nat) :
    (s.sat k n).rdN j = if j = k then min (s.rdN k + n) 0xFFFFFFFF else s.rdN j := by
  unfold State.sat
  rw [State.rdN_wrN]; split
  · exact Nat.mod_eq_of_lt (by omega)
  · rfl

theorem State.rd_sat_ne (s : State) {k j : Nat} (n : Nat) (h : j ≠ k) : (s.sat k n).rd j = s.rd j := s.rd_wrN_ne _ h

/-! ### What reads a register reads it alone -/

theorem State.rdN_congr {s t : State} {k : Nat} (h : t.rd k = s.rd k) : t.rdN k = s.rdN k := by unfold State.rdN; rw [h]
theorem State.fld_congr {s t : State} {k : Nat} (h : t.rd k = s.rd k) (hi lo : Nat) : t.fld k hi lo = s.fld k hi lo := by
  unfold State.fld; rw [State.rdN_congr h]
theorem State.bit_congr {s t : State} {k : Nat} (h : t.rd k = s.rd k) (b : Nat) : t.bit k b = s.bit k b := by
  unfold State.bit; rw [State.rdN_congr h]

end Sys2Proof.Machine
end

