-- ==== Sys2Proof/Laws/Views.lean ====
section
/-! SUPPORT. Reads of registers, of memory and of the blocks' parts after an operation that does not write them. -/

namespace Sys2Proof.Machine

theorem State.rd_eq {s t : State} (h : t.regs = s.regs) (k : Nat) : t.rd k = s.rd k := by unfold State.rd; rw [h]
theorem State.rdN_eq {s t : State} (h : t.regs = s.regs) (k : Nat) : t.rdN k = s.rdN k := by unfold State.rdN; rw [State.rd_eq h]
theorem State.fld_eq {s t : State} (h : t.regs = s.regs) (k hi lo : Nat) : t.fld k hi lo = s.fld k hi lo := by
  unfold State.fld; rw [State.rdN_eq h]
theorem State.bit_eq {s t : State} (h : t.regs = s.regs) (k b : Nat) : t.bit k b = s.bit k b := by
  unfold State.bit; rw [State.rdN_eq h]
theorem State.rd64_eq {s t : State} (h : t.regs = s.regs) (k : Nat) : t.rd64 k = s.rd64 k := by
  unfold State.rd64; rw [State.rdN_eq h, State.rdN_eq h]
theorem State.blk_eq {s t : State} (h : t.regs = s.regs) (p : Nat) : t.blk p = s.blk p := by
  simp only [State.blk, State.sysState, State.fld_eq h]
theorem State.running_eq {s t : State} (h : t.regs = s.regs) (p : Nat) : t.running p = s.running p := by
  unfold State.running; rw [State.blk_eq h]
theorem State.role_eq {s t : State} (h : t.regs = s.regs) (p : Nat) : t.role p = s.role p := by
  simp only [State.role, State.fld_eq h]
theorem State.isOwner_eq {s t : State} (h : t.regs = s.regs) (p : Nat) : t.isOwner p = s.isOwner p := by
  unfold State.isOwner; rw [State.role_eq h]
theorem State.busy_eq {s t : State} (h : t.regs = s.regs) (p : Nat) : t.busy p = s.busy p := State.bit_eq h _ _
theorem State.byte_eq {s t : State} (h1 : t.mem = s.mem) (h2 : t.gridMem = s.gridMem) (h3 : t.planes = s.planes) (a : Nat) :
    t.byte a = s.byte a := by unfold State.byte State.inPlane; rw [h1, h2, h3]

/-! ### `msix` -/

@[simp] theorem State.msix_rd (s : State) (h v : Nat) (j : Nat) :
    (s.msix h v).rd j = s.rd j := State.rd_eq (by simp) j
@[simp] theorem State.msix_rdN (s : State) (h v : Nat) (j : Nat) :
    (s.msix h v).rdN j = s.rdN j := State.rdN_eq (by simp) j
@[simp] theorem State.msix_fld (s : State) (h v : Nat) (j hj lj : Nat) :
    (s.msix h v).fld j hj lj = s.fld j hj lj := State.fld_eq (by simp) j hj lj
@[simp] theorem State.msix_bit (s : State) (h v : Nat) (j c : Nat) :
    (s.msix h v).bit j c = s.bit j c := State.bit_eq (by simp) j c
@[simp] theorem State.msix_rd64 (s : State) (h v : Nat) (j : Nat) :
    (s.msix h v).rd64 j = s.rd64 j := State.rd64_eq (by simp) j
@[simp] theorem State.msix_blk (s : State) (h v : Nat) (j : Nat) :
    (s.msix h v).blk j = s.blk j := State.blk_eq (by simp) j
@[simp] theorem State.msix_running (s : State) (h v : Nat) (j : Nat) :
    (s.msix h v).running j = s.running j := State.running_eq (by simp) j
@[simp] theorem State.msix_role (s : State) (h v : Nat) (j : Nat) :
    (s.msix h v).role j = s.role j := State.role_eq (by simp) j
@[simp] theorem State.msix_isOwner (s : State) (h v : Nat) (j : Nat) :
    (s.msix h v).isOwner j = s.isOwner j := State.isOwner_eq (by simp) j
@[simp] theorem State.msix_busy (s : State) (h v : Nat) (j : Nat) :
    (s.msix h v).busy j = s.busy j := State.busy_eq (by simp) j
@[simp] theorem State.msix_byte (s : State) (h v : Nat) (x : Nat) : (s.msix h v).byte x = s.byte x :=
  State.byte_eq (by simp) (by simp) (by simp) x
@[simp] theorem State.msix_csiAt (s : State) (h v : Nat) (i : Nat) : (s.msix h v).csiAt i = s.csiAt i := by unfold State.csiAt; simp
@[simp] theorem State.msix_ethAt (s : State) (h v : Nat) (i : Nat) : (s.msix h v).ethAt i = s.ethAt i := by unfold State.ethAt; simp
@[simp] theorem State.msix_spiAt (s : State) (h v : Nat) (i : Nat) : (s.msix h v).spiAt i = s.spiAt i := by unfold State.spiAt; simp
@[simp] theorem State.msix_wheelAt (s : State) (h v : Nat) (i : Nat) : (s.msix h v).wheelAt i = s.wheelAt i := by unfold State.wheelAt; simp
@[simp] theorem State.msix_canAt (s : State) (h v : Nat) (i : Nat) : (s.msix h v).canAt i = s.canAt i := by unfold State.canAt; simp
@[simp] theorem State.msix_slotAt (s : State) (h v : Nat) (i : Nat) : (s.msix h v).slotAt i = s.slotAt i := by unfold State.slotAt; simp
@[simp] theorem State.msix_fendAt (s : State) (h v : Nat) (i : Nat) : (s.msix h v).fendAt i = s.fendAt i := by unfold State.fendAt; simp
@[simp] theorem State.msix_t0At (s : State) (h v : Nat) (i : Nat) : (s.msix h v).t0At i = s.t0At i := by unfold State.t0At; simp
@[simp] theorem State.msix_loopAt (s : State) (h v : Nat) (i : Nat) : (s.msix h v).loopAt i = s.loopAt i := by unfold State.loopAt; simp
@[simp] theorem State.msix_coreAt (s : State) (h v : Nat) (i : Nat) : (s.msix h v).coreAt i = s.coreAt i := by unfold State.coreAt; simp
@[simp] theorem State.msix_rtrAt (s : State) (h v : Nat) (i : Nat) : (s.msix h v).rtrAt i = s.rtrAt i := by unfold State.rtrAt; simp
@[simp] theorem State.msix_edgeAt (s : State) (h v : Nat) (i : Nat) : (s.msix h v).edgeAt i = s.edgeAt i := by unfold State.edgeAt; simp
@[simp] theorem State.msix_engAt (s : State) (h v : Nat) (i : Nat) : (s.msix h v).engAt i = s.engAt i := by unfold State.engAt; simp
@[simp] theorem State.msix_binAt (s : State) (h v : Nat) (i : Nat) : (s.msix h v).binAt i = s.binAt i := by unfold State.binAt; simp
@[simp] theorem State.msix_netAt (s : State) (h v : Nat) (i : Nat) : (s.msix h v).netAt i = s.netAt i := by unfold State.netAt; simp

/-! ### `signal` -/

@[simp] theorem State.signal_rd (s : State) (p en b : Nat) (j : Nat) :
    (s.signal p en b).rd j = s.rd j := State.rd_eq (by simp) j
@[simp] theorem State.signal_rdN (s : State) (p en b : Nat) (j : Nat) :
    (s.signal p en b).rdN j = s.rdN j := State.rdN_eq (by simp) j
@[simp] theorem State.signal_fld (s : State) (p en b : Nat) (j hj lj : Nat) :
    (s.signal p en b).fld j hj lj = s.fld j hj lj := State.fld_eq (by simp) j hj lj
@[simp] theorem State.signal_bit (s : State) (p en b : Nat) (j c : Nat) :
    (s.signal p en b).bit j c = s.bit j c := State.bit_eq (by simp) j c
@[simp] theorem State.signal_rd64 (s : State) (p en b : Nat) (j : Nat) :
    (s.signal p en b).rd64 j = s.rd64 j := State.rd64_eq (by simp) j
@[simp] theorem State.signal_blk (s : State) (p en b : Nat) (j : Nat) :
    (s.signal p en b).blk j = s.blk j := State.blk_eq (by simp) j
@[simp] theorem State.signal_running (s : State) (p en b : Nat) (j : Nat) :
    (s.signal p en b).running j = s.running j := State.running_eq (by simp) j
@[simp] theorem State.signal_role (s : State) (p en b : Nat) (j : Nat) :
    (s.signal p en b).role j = s.role j := State.role_eq (by simp) j
@[simp] theorem State.signal_isOwner (s : State) (p en b : Nat) (j : Nat) :
    (s.signal p en b).isOwner j = s.isOwner j := State.isOwner_eq (by simp) j
@[simp] theorem State.signal_busy (s : State) (p en b : Nat) (j : Nat) :
    (s.signal p en b).busy j = s.busy j := State.busy_eq (by simp) j
@[simp] theorem State.signal_byte (s : State) (p en b : Nat) (x : Nat) : (s.signal p en b).byte x = s.byte x :=
  State.byte_eq (by simp) (by simp) (by simp) x
@[simp] theorem State.signal_csiAt (s : State) (p en b : Nat) (i : Nat) : (s.signal p en b).csiAt i = s.csiAt i := by unfold State.csiAt; simp
@[simp] theorem State.signal_ethAt (s : State) (p en b : Nat) (i : Nat) : (s.signal p en b).ethAt i = s.ethAt i := by unfold State.ethAt; simp
@[simp] theorem State.signal_spiAt (s : State) (p en b : Nat) (i : Nat) : (s.signal p en b).spiAt i = s.spiAt i := by unfold State.spiAt; simp
@[simp] theorem State.signal_wheelAt (s : State) (p en b : Nat) (i : Nat) : (s.signal p en b).wheelAt i = s.wheelAt i := by unfold State.wheelAt; simp
@[simp] theorem State.signal_canAt (s : State) (p en b : Nat) (i : Nat) : (s.signal p en b).canAt i = s.canAt i := by unfold State.canAt; simp
@[simp] theorem State.signal_slotAt (s : State) (p en b : Nat) (i : Nat) : (s.signal p en b).slotAt i = s.slotAt i := by unfold State.slotAt; simp
@[simp] theorem State.signal_fendAt (s : State) (p en b : Nat) (i : Nat) : (s.signal p en b).fendAt i = s.fendAt i := by unfold State.fendAt; simp
@[simp] theorem State.signal_t0At (s : State) (p en b : Nat) (i : Nat) : (s.signal p en b).t0At i = s.t0At i := by unfold State.t0At; simp
@[simp] theorem State.signal_loopAt (s : State) (p en b : Nat) (i : Nat) : (s.signal p en b).loopAt i = s.loopAt i := by unfold State.loopAt; simp
@[simp] theorem State.signal_coreAt (s : State) (p en b : Nat) (i : Nat) : (s.signal p en b).coreAt i = s.coreAt i := by unfold State.coreAt; simp
@[simp] theorem State.signal_rtrAt (s : State) (p en b : Nat) (i : Nat) : (s.signal p en b).rtrAt i = s.rtrAt i := by unfold State.rtrAt; simp
@[simp] theorem State.signal_edgeAt (s : State) (p en b : Nat) (i : Nat) : (s.signal p en b).edgeAt i = s.edgeAt i := by unfold State.edgeAt; simp
@[simp] theorem State.signal_engAt (s : State) (p en b : Nat) (i : Nat) : (s.signal p en b).engAt i = s.engAt i := by unfold State.engAt; simp
@[simp] theorem State.signal_binAt (s : State) (p en b : Nat) (i : Nat) : (s.signal p en b).binAt i = s.binAt i := by unfold State.binAt; simp
@[simp] theorem State.signal_netAt (s : State) (p en b : Nat) (i : Nat) : (s.signal p en b).netAt i = s.netAt i := by unfold State.netAt; simp

/-! ### `offer` -/

@[simp] theorem State.offer_rd (s : State) (o : Offer) (j : Nat) :
    (s.offer o).rd j = s.rd j := State.rd_eq (by simp) j
@[simp] theorem State.offer_rdN (s : State) (o : Offer) (j : Nat) :
    (s.offer o).rdN j = s.rdN j := State.rdN_eq (by simp) j
@[simp] theorem State.offer_fld (s : State) (o : Offer) (j hj lj : Nat) :
    (s.offer o).fld j hj lj = s.fld j hj lj := State.fld_eq (by simp) j hj lj
@[simp] theorem State.offer_bit (s : State) (o : Offer) (j c : Nat) :
    (s.offer o).bit j c = s.bit j c := State.bit_eq (by simp) j c
@[simp] theorem State.offer_rd64 (s : State) (o : Offer) (j : Nat) :
    (s.offer o).rd64 j = s.rd64 j := State.rd64_eq (by simp) j
@[simp] theorem State.offer_blk (s : State) (o : Offer) (j : Nat) :
    (s.offer o).blk j = s.blk j := State.blk_eq (by simp) j
@[simp] theorem State.offer_running (s : State) (o : Offer) (j : Nat) :
    (s.offer o).running j = s.running j := State.running_eq (by simp) j
@[simp] theorem State.offer_role (s : State) (o : Offer) (j : Nat) :
    (s.offer o).role j = s.role j := State.role_eq (by simp) j
@[simp] theorem State.offer_isOwner (s : State) (o : Offer) (j : Nat) :
    (s.offer o).isOwner j = s.isOwner j := State.isOwner_eq (by simp) j
@[simp] theorem State.offer_busy (s : State) (o : Offer) (j : Nat) :
    (s.offer o).busy j = s.busy j := State.busy_eq (by simp) j
@[simp] theorem State.offer_byte (s : State) (o : Offer) (x : Nat) : (s.offer o).byte x = s.byte x :=
  State.byte_eq (by simp) (by simp) (by simp) x
@[simp] theorem State.offer_csiAt (s : State) (o : Offer) (i : Nat) : (s.offer o).csiAt i = s.csiAt i := by unfold State.csiAt; simp
@[simp] theorem State.offer_ethAt (s : State) (o : Offer) (i : Nat) : (s.offer o).ethAt i = s.ethAt i := by unfold State.ethAt; simp
@[simp] theorem State.offer_spiAt (s : State) (o : Offer) (i : Nat) : (s.offer o).spiAt i = s.spiAt i := by unfold State.spiAt; simp
@[simp] theorem State.offer_wheelAt (s : State) (o : Offer) (i : Nat) : (s.offer o).wheelAt i = s.wheelAt i := by unfold State.wheelAt; simp
@[simp] theorem State.offer_canAt (s : State) (o : Offer) (i : Nat) : (s.offer o).canAt i = s.canAt i := by unfold State.canAt; simp
@[simp] theorem State.offer_slotAt (s : State) (o : Offer) (i : Nat) : (s.offer o).slotAt i = s.slotAt i := by unfold State.slotAt; simp
@[simp] theorem State.offer_fendAt (s : State) (o : Offer) (i : Nat) : (s.offer o).fendAt i = s.fendAt i := by unfold State.fendAt; simp
@[simp] theorem State.offer_t0At (s : State) (o : Offer) (i : Nat) : (s.offer o).t0At i = s.t0At i := by unfold State.t0At; simp
@[simp] theorem State.offer_loopAt (s : State) (o : Offer) (i : Nat) : (s.offer o).loopAt i = s.loopAt i := by unfold State.loopAt; simp
@[simp] theorem State.offer_coreAt (s : State) (o : Offer) (i : Nat) : (s.offer o).coreAt i = s.coreAt i := by unfold State.coreAt; simp
@[simp] theorem State.offer_rtrAt (s : State) (o : Offer) (i : Nat) : (s.offer o).rtrAt i = s.rtrAt i := by unfold State.rtrAt; simp
@[simp] theorem State.offer_edgeAt (s : State) (o : Offer) (i : Nat) : (s.offer o).edgeAt i = s.edgeAt i := by unfold State.edgeAt; simp
@[simp] theorem State.offer_engAt (s : State) (o : Offer) (i : Nat) : (s.offer o).engAt i = s.engAt i := by unfold State.engAt; simp
@[simp] theorem State.offer_binAt (s : State) (o : Offer) (i : Nat) : (s.offer o).binAt i = s.binAt i := by unfold State.binAt; simp
@[simp] theorem State.offer_portAt (s : State) (o : Offer) (i : Nat) : (s.offer o).portAt i = s.portAt i := by unfold State.portAt; simp
@[simp] theorem State.offer_netAt (s : State) (o : Offer) (i : Nat) : (s.offer o).netAt i = s.netAt i := by unfold State.netAt; simp

/-! ### `window` -/

@[simp] theorem State.window_rd (s : State) (w : Nat) (d : List Byte) (j : Nat) :
    (s.window w d).rd j = s.rd j := State.rd_eq (by simp) j
@[simp] theorem State.window_rdN (s : State) (w : Nat) (d : List Byte) (j : Nat) :
    (s.window w d).rdN j = s.rdN j := State.rdN_eq (by simp) j
@[simp] theorem State.window_fld (s : State) (w : Nat) (d : List Byte) (j hj lj : Nat) :
    (s.window w d).fld j hj lj = s.fld j hj lj := State.fld_eq (by simp) j hj lj
@[simp] theorem State.window_bit (s : State) (w : Nat) (d : List Byte) (j c : Nat) :
    (s.window w d).bit j c = s.bit j c := State.bit_eq (by simp) j c
@[simp] theorem State.window_rd64 (s : State) (w : Nat) (d : List Byte) (j : Nat) :
    (s.window w d).rd64 j = s.rd64 j := State.rd64_eq (by simp) j
@[simp] theorem State.window_blk (s : State) (w : Nat) (d : List Byte) (j : Nat) :
    (s.window w d).blk j = s.blk j := State.blk_eq (by simp) j
@[simp] theorem State.window_running (s : State) (w : Nat) (d : List Byte) (j : Nat) :
    (s.window w d).running j = s.running j := State.running_eq (by simp) j
@[simp] theorem State.window_role (s : State) (w : Nat) (d : List Byte) (j : Nat) :
    (s.window w d).role j = s.role j := State.role_eq (by simp) j
@[simp] theorem State.window_isOwner (s : State) (w : Nat) (d : List Byte) (j : Nat) :
    (s.window w d).isOwner j = s.isOwner j := State.isOwner_eq (by simp) j
@[simp] theorem State.window_busy (s : State) (w : Nat) (d : List Byte) (j : Nat) :
    (s.window w d).busy j = s.busy j := State.busy_eq (by simp) j
@[simp] theorem State.window_byte (s : State) (w : Nat) (d : List Byte) (x : Nat) : (s.window w d).byte x = s.byte x :=
  State.byte_eq (by simp) (by simp) (by simp) x
@[simp] theorem State.window_csiAt (s : State) (w : Nat) (d : List Byte) (i : Nat) : (s.window w d).csiAt i = s.csiAt i := by unfold State.csiAt; simp
@[simp] theorem State.window_ethAt (s : State) (w : Nat) (d : List Byte) (i : Nat) : (s.window w d).ethAt i = s.ethAt i := by unfold State.ethAt; simp
@[simp] theorem State.window_spiAt (s : State) (w : Nat) (d : List Byte) (i : Nat) : (s.window w d).spiAt i = s.spiAt i := by unfold State.spiAt; simp
@[simp] theorem State.window_wheelAt (s : State) (w : Nat) (d : List Byte) (i : Nat) : (s.window w d).wheelAt i = s.wheelAt i := by unfold State.wheelAt; simp
@[simp] theorem State.window_canAt (s : State) (w : Nat) (d : List Byte) (i : Nat) : (s.window w d).canAt i = s.canAt i := by unfold State.canAt; simp
@[simp] theorem State.window_slotAt (s : State) (w : Nat) (d : List Byte) (i : Nat) : (s.window w d).slotAt i = s.slotAt i := by unfold State.slotAt; simp
@[simp] theorem State.window_fendAt (s : State) (w : Nat) (d : List Byte) (i : Nat) : (s.window w d).fendAt i = s.fendAt i := by unfold State.fendAt; simp
@[simp] theorem State.window_t0At (s : State) (w : Nat) (d : List Byte) (i : Nat) : (s.window w d).t0At i = s.t0At i := by unfold State.t0At; simp
@[simp] theorem State.window_loopAt (s : State) (w : Nat) (d : List Byte) (i : Nat) : (s.window w d).loopAt i = s.loopAt i := by unfold State.loopAt; simp
@[simp] theorem State.window_coreAt (s : State) (w : Nat) (d : List Byte) (i : Nat) : (s.window w d).coreAt i = s.coreAt i := by unfold State.coreAt; simp
@[simp] theorem State.window_rtrAt (s : State) (w : Nat) (d : List Byte) (i : Nat) : (s.window w d).rtrAt i = s.rtrAt i := by unfold State.rtrAt; simp
@[simp] theorem State.window_edgeAt (s : State) (w : Nat) (d : List Byte) (i : Nat) : (s.window w d).edgeAt i = s.edgeAt i := by unfold State.edgeAt; simp
@[simp] theorem State.window_engAt (s : State) (w : Nat) (d : List Byte) (i : Nat) : (s.window w d).engAt i = s.engAt i := by unfold State.engAt; simp
@[simp] theorem State.window_binAt (s : State) (w : Nat) (d : List Byte) (i : Nat) : (s.window w d).binAt i = s.binAt i := by unfold State.binAt; simp
@[simp] theorem State.window_portAt (s : State) (w : Nat) (d : List Byte) (i : Nat) : (s.window w d).portAt i = s.portAt i := by unfold State.portAt; simp
@[simp] theorem State.window_netAt (s : State) (w : Nat) (d : List Byte) (i : Nat) : (s.window w d).netAt i = s.netAt i := by unfold State.netAt; simp

/-! ### `logAt` -/

@[simp] theorem State.logAt_rd (s : State) (lvl p cls code : Nat) (args : List Nat) (fus : Nat) (j : Nat) :
    (s.logAt lvl p cls code args fus).rd j = s.rd j := State.rd_eq (by simp) j
@[simp] theorem State.logAt_rdN (s : State) (lvl p cls code : Nat) (args : List Nat) (fus : Nat) (j : Nat) :
    (s.logAt lvl p cls code args fus).rdN j = s.rdN j := State.rdN_eq (by simp) j
@[simp] theorem State.logAt_fld (s : State) (lvl p cls code : Nat) (args : List Nat) (fus : Nat) (j hj lj : Nat) :
    (s.logAt lvl p cls code args fus).fld j hj lj = s.fld j hj lj := State.fld_eq (by simp) j hj lj
@[simp] theorem State.logAt_bit (s : State) (lvl p cls code : Nat) (args : List Nat) (fus : Nat) (j c : Nat) :
    (s.logAt lvl p cls code args fus).bit j c = s.bit j c := State.bit_eq (by simp) j c
@[simp] theorem State.logAt_rd64 (s : State) (lvl p cls code : Nat) (args : List Nat) (fus : Nat) (j : Nat) :
    (s.logAt lvl p cls code args fus).rd64 j = s.rd64 j := State.rd64_eq (by simp) j
@[simp] theorem State.logAt_blk (s : State) (lvl p cls code : Nat) (args : List Nat) (fus : Nat) (j : Nat) :
    (s.logAt lvl p cls code args fus).blk j = s.blk j := State.blk_eq (by simp) j
@[simp] theorem State.logAt_running (s : State) (lvl p cls code : Nat) (args : List Nat) (fus : Nat) (j : Nat) :
    (s.logAt lvl p cls code args fus).running j = s.running j := State.running_eq (by simp) j
@[simp] theorem State.logAt_role (s : State) (lvl p cls code : Nat) (args : List Nat) (fus : Nat) (j : Nat) :
    (s.logAt lvl p cls code args fus).role j = s.role j := State.role_eq (by simp) j
@[simp] theorem State.logAt_isOwner (s : State) (lvl p cls code : Nat) (args : List Nat) (fus : Nat) (j : Nat) :
    (s.logAt lvl p cls code args fus).isOwner j = s.isOwner j := State.isOwner_eq (by simp) j
@[simp] theorem State.logAt_busy (s : State) (lvl p cls code : Nat) (args : List Nat) (fus : Nat) (j : Nat) :
    (s.logAt lvl p cls code args fus).busy j = s.busy j := State.busy_eq (by simp) j
@[simp] theorem State.logAt_byte (s : State) (lvl p cls code : Nat) (args : List Nat) (fus : Nat) (x : Nat) : (s.logAt lvl p cls code args fus).byte x = s.byte x :=
  State.byte_eq (by simp) (by simp) (by simp) x
@[simp] theorem State.logAt_csiAt (s : State) (lvl p cls code : Nat) (args : List Nat) (fus : Nat) (i : Nat) : (s.logAt lvl p cls code args fus).csiAt i = s.csiAt i := by unfold State.csiAt; simp
@[simp] theorem State.logAt_ethAt (s : State) (lvl p cls code : Nat) (args : List Nat) (fus : Nat) (i : Nat) : (s.logAt lvl p cls code args fus).ethAt i = s.ethAt i := by unfold State.ethAt; simp
@[simp] theorem State.logAt_spiAt (s : State) (lvl p cls code : Nat) (args : List Nat) (fus : Nat) (i : Nat) : (s.logAt lvl p cls code args fus).spiAt i = s.spiAt i := by unfold State.spiAt; simp
@[simp] theorem State.logAt_wheelAt (s : State) (lvl p cls code : Nat) (args : List Nat) (fus : Nat) (i : Nat) : (s.logAt lvl p cls code args fus).wheelAt i = s.wheelAt i := by unfold State.wheelAt; simp
@[simp] theorem State.logAt_canAt (s : State) (lvl p cls code : Nat) (args : List Nat) (fus : Nat) (i : Nat) : (s.logAt lvl p cls code args fus).canAt i = s.canAt i := by unfold State.canAt; simp
@[simp] theorem State.logAt_slotAt (s : State) (lvl p cls code : Nat) (args : List Nat) (fus : Nat) (i : Nat) : (s.logAt lvl p cls code args fus).slotAt i = s.slotAt i := by unfold State.slotAt; simp
@[simp] theorem State.logAt_fendAt (s : State) (lvl p cls code : Nat) (args : List Nat) (fus : Nat) (i : Nat) : (s.logAt lvl p cls code args fus).fendAt i = s.fendAt i := by unfold State.fendAt; simp
@[simp] theorem State.logAt_t0At (s : State) (lvl p cls code : Nat) (args : List Nat) (fus : Nat) (i : Nat) : (s.logAt lvl p cls code args fus).t0At i = s.t0At i := by unfold State.t0At; simp
@[simp] theorem State.logAt_loopAt (s : State) (lvl p cls code : Nat) (args : List Nat) (fus : Nat) (i : Nat) : (s.logAt lvl p cls code args fus).loopAt i = s.loopAt i := by unfold State.loopAt; simp
@[simp] theorem State.logAt_coreAt (s : State) (lvl p cls code : Nat) (args : List Nat) (fus : Nat) (i : Nat) : (s.logAt lvl p cls code args fus).coreAt i = s.coreAt i := by unfold State.coreAt; simp
@[simp] theorem State.logAt_rtrAt (s : State) (lvl p cls code : Nat) (args : List Nat) (fus : Nat) (i : Nat) : (s.logAt lvl p cls code args fus).rtrAt i = s.rtrAt i := by unfold State.rtrAt; simp
@[simp] theorem State.logAt_edgeAt (s : State) (lvl p cls code : Nat) (args : List Nat) (fus : Nat) (i : Nat) : (s.logAt lvl p cls code args fus).edgeAt i = s.edgeAt i := by unfold State.edgeAt; simp
@[simp] theorem State.logAt_engAt (s : State) (lvl p cls code : Nat) (args : List Nat) (fus : Nat) (i : Nat) : (s.logAt lvl p cls code args fus).engAt i = s.engAt i := by unfold State.engAt; simp
@[simp] theorem State.logAt_binAt (s : State) (lvl p cls code : Nat) (args : List Nat) (fus : Nat) (i : Nat) : (s.logAt lvl p cls code args fus).binAt i = s.binAt i := by unfold State.binAt; simp
@[simp] theorem State.logAt_portAt (s : State) (lvl p cls code : Nat) (args : List Nat) (fus : Nat) (i : Nat) : (s.logAt lvl p cls code args fus).portAt i = s.portAt i := by unfold State.portAt; simp
@[simp] theorem State.logAt_netAt (s : State) (lvl p cls code : Nat) (args : List Nat) (fus : Nat) (i : Nat) : (s.logAt lvl p cls code args fus).netAt i = s.netAt i := by unfold State.netAt; simp

/-! ### `log` -/

@[simp] theorem State.log_rd (s : State) (lvl p cls code : Nat) (args : List Nat) (j : Nat) :
    (s.log lvl p cls code args).rd j = s.rd j := State.rd_eq (by simp) j
@[simp] theorem State.log_rdN (s : State) (lvl p cls code : Nat) (args : List Nat) (j : Nat) :
    (s.log lvl p cls code args).rdN j = s.rdN j := State.rdN_eq (by simp) j
@[simp] theorem State.log_fld (s : State) (lvl p cls code : Nat) (args : List Nat) (j hj lj : Nat) :
    (s.log lvl p cls code args).fld j hj lj = s.fld j hj lj := State.fld_eq (by simp) j hj lj
@[simp] theorem State.log_bit (s : State) (lvl p cls code : Nat) (args : List Nat) (j c : Nat) :
    (s.log lvl p cls code args).bit j c = s.bit j c := State.bit_eq (by simp) j c
@[simp] theorem State.log_rd64 (s : State) (lvl p cls code : Nat) (args : List Nat) (j : Nat) :
    (s.log lvl p cls code args).rd64 j = s.rd64 j := State.rd64_eq (by simp) j
@[simp] theorem State.log_blk (s : State) (lvl p cls code : Nat) (args : List Nat) (j : Nat) :
    (s.log lvl p cls code args).blk j = s.blk j := State.blk_eq (by simp) j
@[simp] theorem State.log_running (s : State) (lvl p cls code : Nat) (args : List Nat) (j : Nat) :
    (s.log lvl p cls code args).running j = s.running j := State.running_eq (by simp) j
@[simp] theorem State.log_role (s : State) (lvl p cls code : Nat) (args : List Nat) (j : Nat) :
    (s.log lvl p cls code args).role j = s.role j := State.role_eq (by simp) j
@[simp] theorem State.log_isOwner (s : State) (lvl p cls code : Nat) (args : List Nat) (j : Nat) :
    (s.log lvl p cls code args).isOwner j = s.isOwner j := State.isOwner_eq (by simp) j
@[simp] theorem State.log_busy (s : State) (lvl p cls code : Nat) (args : List Nat) (j : Nat) :
    (s.log lvl p cls code args).busy j = s.busy j := State.busy_eq (by simp) j
@[simp] theorem State.log_byte (s : State) (lvl p cls code : Nat) (args : List Nat) (x : Nat) : (s.log lvl p cls code args).byte x = s.byte x :=
  State.byte_eq (by simp) (by simp) (by simp) x
@[simp] theorem State.log_csiAt (s : State) (lvl p cls code : Nat) (args : List Nat) (i : Nat) : (s.log lvl p cls code args).csiAt i = s.csiAt i := by unfold State.csiAt; simp
@[simp] theorem State.log_ethAt (s : State) (lvl p cls code : Nat) (args : List Nat) (i : Nat) : (s.log lvl p cls code args).ethAt i = s.ethAt i := by unfold State.ethAt; simp
@[simp] theorem State.log_spiAt (s : State) (lvl p cls code : Nat) (args : List Nat) (i : Nat) : (s.log lvl p cls code args).spiAt i = s.spiAt i := by unfold State.spiAt; simp
@[simp] theorem State.log_wheelAt (s : State) (lvl p cls code : Nat) (args : List Nat) (i : Nat) : (s.log lvl p cls code args).wheelAt i = s.wheelAt i := by unfold State.wheelAt; simp
@[simp] theorem State.log_canAt (s : State) (lvl p cls code : Nat) (args : List Nat) (i : Nat) : (s.log lvl p cls code args).canAt i = s.canAt i := by unfold State.canAt; simp
@[simp] theorem State.log_slotAt (s : State) (lvl p cls code : Nat) (args : List Nat) (i : Nat) : (s.log lvl p cls code args).slotAt i = s.slotAt i := by unfold State.slotAt; simp
@[simp] theorem State.log_fendAt (s : State) (lvl p cls code : Nat) (args : List Nat) (i : Nat) : (s.log lvl p cls code args).fendAt i = s.fendAt i := by unfold State.fendAt; simp
@[simp] theorem State.log_t0At (s : State) (lvl p cls code : Nat) (args : List Nat) (i : Nat) : (s.log lvl p cls code args).t0At i = s.t0At i := by unfold State.t0At; simp
@[simp] theorem State.log_loopAt (s : State) (lvl p cls code : Nat) (args : List Nat) (i : Nat) : (s.log lvl p cls code args).loopAt i = s.loopAt i := by unfold State.loopAt; simp
@[simp] theorem State.log_coreAt (s : State) (lvl p cls code : Nat) (args : List Nat) (i : Nat) : (s.log lvl p cls code args).coreAt i = s.coreAt i := by unfold State.coreAt; simp
@[simp] theorem State.log_rtrAt (s : State) (lvl p cls code : Nat) (args : List Nat) (i : Nat) : (s.log lvl p cls code args).rtrAt i = s.rtrAt i := by unfold State.rtrAt; simp
@[simp] theorem State.log_edgeAt (s : State) (lvl p cls code : Nat) (args : List Nat) (i : Nat) : (s.log lvl p cls code args).edgeAt i = s.edgeAt i := by unfold State.edgeAt; simp
@[simp] theorem State.log_engAt (s : State) (lvl p cls code : Nat) (args : List Nat) (i : Nat) : (s.log lvl p cls code args).engAt i = s.engAt i := by unfold State.engAt; simp
@[simp] theorem State.log_binAt (s : State) (lvl p cls code : Nat) (args : List Nat) (i : Nat) : (s.log lvl p cls code args).binAt i = s.binAt i := by unfold State.binAt; simp
@[simp] theorem State.log_portAt (s : State) (lvl p cls code : Nat) (args : List Nat) (i : Nat) : (s.log lvl p cls code args).portAt i = s.portAt i := by unfold State.portAt; simp
@[simp] theorem State.log_netAt (s : State) (lvl p cls code : Nat) (args : List Nat) (i : Nat) : (s.log lvl p cls code args).netAt i = s.netAt i := by unfold State.netAt; simp

/-! ### `event` -/

@[simp] theorem State.event_byte (s : State) (p b : Nat) (x : Nat) : (s.event p b).byte x = s.byte x :=
  State.byte_eq (by simp) (by simp) (by simp) x
@[simp] theorem State.event_csiAt (s : State) (p b : Nat) (i : Nat) : (s.event p b).csiAt i = s.csiAt i := by unfold State.csiAt; simp
@[simp] theorem State.event_ethAt (s : State) (p b : Nat) (i : Nat) : (s.event p b).ethAt i = s.ethAt i := by unfold State.ethAt; simp
@[simp] theorem State.event_spiAt (s : State) (p b : Nat) (i : Nat) : (s.event p b).spiAt i = s.spiAt i := by unfold State.spiAt; simp
@[simp] theorem State.event_wheelAt (s : State) (p b : Nat) (i : Nat) : (s.event p b).wheelAt i = s.wheelAt i := by unfold State.wheelAt; simp
@[simp] theorem State.event_canAt (s : State) (p b : Nat) (i : Nat) : (s.event p b).canAt i = s.canAt i := by unfold State.canAt; simp
@[simp] theorem State.event_slotAt (s : State) (p b : Nat) (i : Nat) : (s.event p b).slotAt i = s.slotAt i := by unfold State.slotAt; simp
@[simp] theorem State.event_fendAt (s : State) (p b : Nat) (i : Nat) : (s.event p b).fendAt i = s.fendAt i := by unfold State.fendAt; simp
@[simp] theorem State.event_t0At (s : State) (p b : Nat) (i : Nat) : (s.event p b).t0At i = s.t0At i := by unfold State.t0At; simp
@[simp] theorem State.event_loopAt (s : State) (p b : Nat) (i : Nat) : (s.event p b).loopAt i = s.loopAt i := by unfold State.loopAt; simp
@[simp] theorem State.event_coreAt (s : State) (p b : Nat) (i : Nat) : (s.event p b).coreAt i = s.coreAt i := by unfold State.coreAt; simp
@[simp] theorem State.event_rtrAt (s : State) (p b : Nat) (i : Nat) : (s.event p b).rtrAt i = s.rtrAt i := by unfold State.rtrAt; simp
@[simp] theorem State.event_edgeAt (s : State) (p b : Nat) (i : Nat) : (s.event p b).edgeAt i = s.edgeAt i := by unfold State.edgeAt; simp
@[simp] theorem State.event_engAt (s : State) (p b : Nat) (i : Nat) : (s.event p b).engAt i = s.engAt i := by unfold State.engAt; simp
@[simp] theorem State.event_binAt (s : State) (p b : Nat) (i : Nat) : (s.event p b).binAt i = s.binAt i := by unfold State.binAt; simp
@[simp] theorem State.event_netAt (s : State) (p b : Nat) (i : Nat) : (s.event p b).netAt i = s.netAt i := by unfold State.netAt; simp

/-! ### `cfgIgnored` -/

@[simp] theorem State.cfgIgnored_byte (s : State) (p : Nat) (x : Nat) : (s.cfgIgnored p).byte x = s.byte x :=
  State.byte_eq (by simp) (by simp) (by simp) x
@[simp] theorem State.cfgIgnored_csiAt (s : State) (p : Nat) (i : Nat) : (s.cfgIgnored p).csiAt i = s.csiAt i := by unfold State.csiAt; simp
@[simp] theorem State.cfgIgnored_ethAt (s : State) (p : Nat) (i : Nat) : (s.cfgIgnored p).ethAt i = s.ethAt i := by unfold State.ethAt; simp
@[simp] theorem State.cfgIgnored_spiAt (s : State) (p : Nat) (i : Nat) : (s.cfgIgnored p).spiAt i = s.spiAt i := by unfold State.spiAt; simp
@[simp] theorem State.cfgIgnored_wheelAt (s : State) (p : Nat) (i : Nat) : (s.cfgIgnored p).wheelAt i = s.wheelAt i := by unfold State.wheelAt; simp
@[simp] theorem State.cfgIgnored_canAt (s : State) (p : Nat) (i : Nat) : (s.cfgIgnored p).canAt i = s.canAt i := by unfold State.canAt; simp
@[simp] theorem State.cfgIgnored_slotAt (s : State) (p : Nat) (i : Nat) : (s.cfgIgnored p).slotAt i = s.slotAt i := by unfold State.slotAt; simp
@[simp] theorem State.cfgIgnored_fendAt (s : State) (p : Nat) (i : Nat) : (s.cfgIgnored p).fendAt i = s.fendAt i := by unfold State.fendAt; simp
@[simp] theorem State.cfgIgnored_t0At (s : State) (p : Nat) (i : Nat) : (s.cfgIgnored p).t0At i = s.t0At i := by unfold State.t0At; simp
@[simp] theorem State.cfgIgnored_loopAt (s : State) (p : Nat) (i : Nat) : (s.cfgIgnored p).loopAt i = s.loopAt i := by unfold State.loopAt; simp
@[simp] theorem State.cfgIgnored_coreAt (s : State) (p : Nat) (i : Nat) : (s.cfgIgnored p).coreAt i = s.coreAt i := by unfold State.coreAt; simp
@[simp] theorem State.cfgIgnored_rtrAt (s : State) (p : Nat) (i : Nat) : (s.cfgIgnored p).rtrAt i = s.rtrAt i := by unfold State.rtrAt; simp
@[simp] theorem State.cfgIgnored_edgeAt (s : State) (p : Nat) (i : Nat) : (s.cfgIgnored p).edgeAt i = s.edgeAt i := by unfold State.edgeAt; simp
@[simp] theorem State.cfgIgnored_engAt (s : State) (p : Nat) (i : Nat) : (s.cfgIgnored p).engAt i = s.engAt i := by unfold State.engAt; simp
@[simp] theorem State.cfgIgnored_binAt (s : State) (p : Nat) (i : Nat) : (s.cfgIgnored p).binAt i = s.binAt i := by unfold State.binAt; simp
@[simp] theorem State.cfgIgnored_netAt (s : State) (p : Nat) (i : Nat) : (s.cfgIgnored p).netAt i = s.netAt i := by unfold State.netAt; simp

/-! ### `toSafe` -/

@[simp] theorem State.toSafe_rd (s : State) (src p b inst : Nat) (j : Nat) :
    (s.toSafe src p b inst).rd j = s.rd j := State.rd_eq (by simp) j
@[simp] theorem State.toSafe_rdN (s : State) (src p b inst : Nat) (j : Nat) :
    (s.toSafe src p b inst).rdN j = s.rdN j := State.rdN_eq (by simp) j
@[simp] theorem State.toSafe_fld (s : State) (src p b inst : Nat) (j hj lj : Nat) :
    (s.toSafe src p b inst).fld j hj lj = s.fld j hj lj := State.fld_eq (by simp) j hj lj
@[simp] theorem State.toSafe_bit (s : State) (src p b inst : Nat) (j c : Nat) :
    (s.toSafe src p b inst).bit j c = s.bit j c := State.bit_eq (by simp) j c
@[simp] theorem State.toSafe_rd64 (s : State) (src p b inst : Nat) (j : Nat) :
    (s.toSafe src p b inst).rd64 j = s.rd64 j := State.rd64_eq (by simp) j
@[simp] theorem State.toSafe_blk (s : State) (src p b inst : Nat) (j : Nat) :
    (s.toSafe src p b inst).blk j = s.blk j := State.blk_eq (by simp) j
@[simp] theorem State.toSafe_running (s : State) (src p b inst : Nat) (j : Nat) :
    (s.toSafe src p b inst).running j = s.running j := State.running_eq (by simp) j
@[simp] theorem State.toSafe_role (s : State) (src p b inst : Nat) (j : Nat) :
    (s.toSafe src p b inst).role j = s.role j := State.role_eq (by simp) j
@[simp] theorem State.toSafe_isOwner (s : State) (src p b inst : Nat) (j : Nat) :
    (s.toSafe src p b inst).isOwner j = s.isOwner j := State.isOwner_eq (by simp) j
@[simp] theorem State.toSafe_busy (s : State) (src p b inst : Nat) (j : Nat) :
    (s.toSafe src p b inst).busy j = s.busy j := State.busy_eq (by simp) j
@[simp] theorem State.toSafe_byte (s : State) (src p b inst : Nat) (x : Nat) : (s.toSafe src p b inst).byte x = s.byte x :=
  State.byte_eq (by simp) (by simp) (by simp) x
@[simp] theorem State.toSafe_csiAt (s : State) (src p b inst : Nat) (i : Nat) : (s.toSafe src p b inst).csiAt i = s.csiAt i := by unfold State.csiAt; simp
@[simp] theorem State.toSafe_ethAt (s : State) (src p b inst : Nat) (i : Nat) : (s.toSafe src p b inst).ethAt i = s.ethAt i := by unfold State.ethAt; simp
@[simp] theorem State.toSafe_spiAt (s : State) (src p b inst : Nat) (i : Nat) : (s.toSafe src p b inst).spiAt i = s.spiAt i := by unfold State.spiAt; simp
@[simp] theorem State.toSafe_wheelAt (s : State) (src p b inst : Nat) (i : Nat) : (s.toSafe src p b inst).wheelAt i = s.wheelAt i := by unfold State.wheelAt; simp
@[simp] theorem State.toSafe_canAt (s : State) (src p b inst : Nat) (i : Nat) : (s.toSafe src p b inst).canAt i = s.canAt i := by unfold State.canAt; simp
@[simp] theorem State.toSafe_slotAt (s : State) (src p b inst : Nat) (i : Nat) : (s.toSafe src p b inst).slotAt i = s.slotAt i := by unfold State.slotAt; simp
@[simp] theorem State.toSafe_fendAt (s : State) (src p b inst : Nat) (i : Nat) : (s.toSafe src p b inst).fendAt i = s.fendAt i := by unfold State.fendAt; simp
@[simp] theorem State.toSafe_t0At (s : State) (src p b inst : Nat) (i : Nat) : (s.toSafe src p b inst).t0At i = s.t0At i := by unfold State.t0At; simp
@[simp] theorem State.toSafe_loopAt (s : State) (src p b inst : Nat) (i : Nat) : (s.toSafe src p b inst).loopAt i = s.loopAt i := by unfold State.loopAt; simp
@[simp] theorem State.toSafe_coreAt (s : State) (src p b inst : Nat) (i : Nat) : (s.toSafe src p b inst).coreAt i = s.coreAt i := by unfold State.coreAt; simp
@[simp] theorem State.toSafe_rtrAt (s : State) (src p b inst : Nat) (i : Nat) : (s.toSafe src p b inst).rtrAt i = s.rtrAt i := by unfold State.rtrAt; simp
@[simp] theorem State.toSafe_edgeAt (s : State) (src p b inst : Nat) (i : Nat) : (s.toSafe src p b inst).edgeAt i = s.edgeAt i := by unfold State.edgeAt; simp
@[simp] theorem State.toSafe_engAt (s : State) (src p b inst : Nat) (i : Nat) : (s.toSafe src p b inst).engAt i = s.engAt i := by unfold State.engAt; simp
@[simp] theorem State.toSafe_binAt (s : State) (src p b inst : Nat) (i : Nat) : (s.toSafe src p b inst).binAt i = s.binAt i := by unfold State.binAt; simp
@[simp] theorem State.toSafe_portAt (s : State) (src p b inst : Nat) (i : Nat) : (s.toSafe src p b inst).portAt i = s.portAt i := by unfold State.portAt; simp
@[simp] theorem State.toSafe_netAt (s : State) (src p b inst : Nat) (i : Nat) : (s.toSafe src p b inst).netAt i = s.netAt i := by unfold State.netAt; simp

/-! ### `fault` -/

@[simp] theorem State.fault_byte (s : State) (p b n : Nat) (x : Nat) : (s.fault p b n).byte x = s.byte x :=
  State.byte_eq (by simp) (by simp) (by simp) x
@[simp] theorem State.fault_csiAt (s : State) (p b n : Nat) (i : Nat) : (s.fault p b n).csiAt i = s.csiAt i := by unfold State.csiAt; simp
@[simp] theorem State.fault_ethAt (s : State) (p b n : Nat) (i : Nat) : (s.fault p b n).ethAt i = s.ethAt i := by unfold State.ethAt; simp
@[simp] theorem State.fault_spiAt (s : State) (p b n : Nat) (i : Nat) : (s.fault p b n).spiAt i = s.spiAt i := by unfold State.spiAt; simp
@[simp] theorem State.fault_wheelAt (s : State) (p b n : Nat) (i : Nat) : (s.fault p b n).wheelAt i = s.wheelAt i := by unfold State.wheelAt; simp
@[simp] theorem State.fault_canAt (s : State) (p b n : Nat) (i : Nat) : (s.fault p b n).canAt i = s.canAt i := by unfold State.canAt; simp
@[simp] theorem State.fault_slotAt (s : State) (p b n : Nat) (i : Nat) : (s.fault p b n).slotAt i = s.slotAt i := by unfold State.slotAt; simp
@[simp] theorem State.fault_fendAt (s : State) (p b n : Nat) (i : Nat) : (s.fault p b n).fendAt i = s.fendAt i := by unfold State.fendAt; simp
@[simp] theorem State.fault_t0At (s : State) (p b n : Nat) (i : Nat) : (s.fault p b n).t0At i = s.t0At i := by unfold State.t0At; simp
@[simp] theorem State.fault_loopAt (s : State) (p b n : Nat) (i : Nat) : (s.fault p b n).loopAt i = s.loopAt i := by unfold State.loopAt; simp
@[simp] theorem State.fault_coreAt (s : State) (p b n : Nat) (i : Nat) : (s.fault p b n).coreAt i = s.coreAt i := by unfold State.coreAt; simp
@[simp] theorem State.fault_rtrAt (s : State) (p b n : Nat) (i : Nat) : (s.fault p b n).rtrAt i = s.rtrAt i := by unfold State.rtrAt; simp
@[simp] theorem State.fault_edgeAt (s : State) (p b n : Nat) (i : Nat) : (s.fault p b n).edgeAt i = s.edgeAt i := by unfold State.edgeAt; simp
@[simp] theorem State.fault_engAt (s : State) (p b n : Nat) (i : Nat) : (s.fault p b n).engAt i = s.engAt i := by unfold State.engAt; simp
@[simp] theorem State.fault_binAt (s : State) (p b n : Nat) (i : Nat) : (s.fault p b n).binAt i = s.binAt i := by unfold State.binAt; simp
@[simp] theorem State.fault_netAt (s : State) (p b n : Nat) (i : Nat) : (s.fault p b n).netAt i = s.netAt i := by unfold State.netAt; simp

/-! ### `recordDone` -/

@[simp] theorem State.recordDone_rd (s : State) (p : Nat) (j : Nat) :
    (s.recordDone p).rd j = s.rd j := State.rd_eq (by simp) j
@[simp] theorem State.recordDone_rdN (s : State) (p : Nat) (j : Nat) :
    (s.recordDone p).rdN j = s.rdN j := State.rdN_eq (by simp) j
@[simp] theorem State.recordDone_fld (s : State) (p : Nat) (j hj lj : Nat) :
    (s.recordDone p).fld j hj lj = s.fld j hj lj := State.fld_eq (by simp) j hj lj
@[simp] theorem State.recordDone_bit (s : State) (p : Nat) (j c : Nat) :
    (s.recordDone p).bit j c = s.bit j c := State.bit_eq (by simp) j c
@[simp] theorem State.recordDone_rd64 (s : State) (p : Nat) (j : Nat) :
    (s.recordDone p).rd64 j = s.rd64 j := State.rd64_eq (by simp) j
@[simp] theorem State.recordDone_blk (s : State) (p : Nat) (j : Nat) :
    (s.recordDone p).blk j = s.blk j := State.blk_eq (by simp) j
@[simp] theorem State.recordDone_running (s : State) (p : Nat) (j : Nat) :
    (s.recordDone p).running j = s.running j := State.running_eq (by simp) j
@[simp] theorem State.recordDone_role (s : State) (p : Nat) (j : Nat) :
    (s.recordDone p).role j = s.role j := State.role_eq (by simp) j
@[simp] theorem State.recordDone_isOwner (s : State) (p : Nat) (j : Nat) :
    (s.recordDone p).isOwner j = s.isOwner j := State.isOwner_eq (by simp) j
@[simp] theorem State.recordDone_busy (s : State) (p : Nat) (j : Nat) :
    (s.recordDone p).busy j = s.busy j := State.busy_eq (by simp) j
@[simp] theorem State.recordDone_byte (s : State) (p : Nat) (x : Nat) : (s.recordDone p).byte x = s.byte x :=
  State.byte_eq (by simp) (by simp) (by simp) x
@[simp] theorem State.recordDone_csiAt (s : State) (p : Nat) (i : Nat) : (s.recordDone p).csiAt i = s.csiAt i := by unfold State.csiAt; simp
@[simp] theorem State.recordDone_ethAt (s : State) (p : Nat) (i : Nat) : (s.recordDone p).ethAt i = s.ethAt i := by unfold State.ethAt; simp
@[simp] theorem State.recordDone_spiAt (s : State) (p : Nat) (i : Nat) : (s.recordDone p).spiAt i = s.spiAt i := by unfold State.spiAt; simp
@[simp] theorem State.recordDone_wheelAt (s : State) (p : Nat) (i : Nat) : (s.recordDone p).wheelAt i = s.wheelAt i := by unfold State.wheelAt; simp
@[simp] theorem State.recordDone_canAt (s : State) (p : Nat) (i : Nat) : (s.recordDone p).canAt i = s.canAt i := by unfold State.canAt; simp
@[simp] theorem State.recordDone_slotAt (s : State) (p : Nat) (i : Nat) : (s.recordDone p).slotAt i = s.slotAt i := by unfold State.slotAt; simp
@[simp] theorem State.recordDone_fendAt (s : State) (p : Nat) (i : Nat) : (s.recordDone p).fendAt i = s.fendAt i := by unfold State.fendAt; simp
@[simp] theorem State.recordDone_t0At (s : State) (p : Nat) (i : Nat) : (s.recordDone p).t0At i = s.t0At i := by unfold State.t0At; simp
@[simp] theorem State.recordDone_loopAt (s : State) (p : Nat) (i : Nat) : (s.recordDone p).loopAt i = s.loopAt i := by unfold State.loopAt; simp
@[simp] theorem State.recordDone_coreAt (s : State) (p : Nat) (i : Nat) : (s.recordDone p).coreAt i = s.coreAt i := by unfold State.coreAt; simp
@[simp] theorem State.recordDone_rtrAt (s : State) (p : Nat) (i : Nat) : (s.recordDone p).rtrAt i = s.rtrAt i := by unfold State.rtrAt; simp
@[simp] theorem State.recordDone_edgeAt (s : State) (p : Nat) (i : Nat) : (s.recordDone p).edgeAt i = s.edgeAt i := by unfold State.edgeAt; simp
@[simp] theorem State.recordDone_engAt (s : State) (p : Nat) (i : Nat) : (s.recordDone p).engAt i = s.engAt i := by unfold State.engAt; simp
@[simp] theorem State.recordDone_binAt (s : State) (p : Nat) (i : Nat) : (s.recordDone p).binAt i = s.binAt i := by unfold State.binAt; simp
@[simp] theorem State.recordDone_portAt (s : State) (p : Nat) (i : Nat) : (s.recordDone p).portAt i = s.portAt i := by unfold State.portAt; simp
@[simp] theorem State.recordDone_netAt (s : State) (p : Nat) (i : Nat) : (s.recordDone p).netAt i = s.netAt i := by unfold State.netAt; simp

/-! ### `setBlk` -/

@[simp] theorem State.setBlk_byte (s : State) (p st : Nat) (x : Nat) : (s.setBlk p st).byte x = s.byte x :=
  State.byte_eq (by simp) (by simp) (by simp) x
@[simp] theorem State.setBlk_csiAt (s : State) (p st : Nat) (i : Nat) : (s.setBlk p st).csiAt i = s.csiAt i := by unfold State.csiAt; simp
@[simp] theorem State.setBlk_ethAt (s : State) (p st : Nat) (i : Nat) : (s.setBlk p st).ethAt i = s.ethAt i := by unfold State.ethAt; simp
@[simp] theorem State.setBlk_spiAt (s : State) (p st : Nat) (i : Nat) : (s.setBlk p st).spiAt i = s.spiAt i := by unfold State.spiAt; simp
@[simp] theorem State.setBlk_wheelAt (s : State) (p st : Nat) (i : Nat) : (s.setBlk p st).wheelAt i = s.wheelAt i := by unfold State.wheelAt; simp
@[simp] theorem State.setBlk_canAt (s : State) (p st : Nat) (i : Nat) : (s.setBlk p st).canAt i = s.canAt i := by unfold State.canAt; simp
@[simp] theorem State.setBlk_slotAt (s : State) (p st : Nat) (i : Nat) : (s.setBlk p st).slotAt i = s.slotAt i := by unfold State.slotAt; simp
@[simp] theorem State.setBlk_fendAt (s : State) (p st : Nat) (i : Nat) : (s.setBlk p st).fendAt i = s.fendAt i := by unfold State.fendAt; simp
@[simp] theorem State.setBlk_t0At (s : State) (p st : Nat) (i : Nat) : (s.setBlk p st).t0At i = s.t0At i := by unfold State.t0At; simp
@[simp] theorem State.setBlk_loopAt (s : State) (p st : Nat) (i : Nat) : (s.setBlk p st).loopAt i = s.loopAt i := by unfold State.loopAt; simp
@[simp] theorem State.setBlk_coreAt (s : State) (p st : Nat) (i : Nat) : (s.setBlk p st).coreAt i = s.coreAt i := by unfold State.coreAt; simp
@[simp] theorem State.setBlk_rtrAt (s : State) (p st : Nat) (i : Nat) : (s.setBlk p st).rtrAt i = s.rtrAt i := by unfold State.rtrAt; simp
@[simp] theorem State.setBlk_edgeAt (s : State) (p st : Nat) (i : Nat) : (s.setBlk p st).edgeAt i = s.edgeAt i := by unfold State.edgeAt; simp
@[simp] theorem State.setBlk_engAt (s : State) (p st : Nat) (i : Nat) : (s.setBlk p st).engAt i = s.engAt i := by unfold State.engAt; simp
@[simp] theorem State.setBlk_binAt (s : State) (p st : Nat) (i : Nat) : (s.setBlk p st).binAt i = s.binAt i := by unfold State.binAt; simp
@[simp] theorem State.setBlk_portAt (s : State) (p st : Nat) (i : Nat) : (s.setBlk p st).portAt i = s.portAt i := by unfold State.portAt; simp
@[simp] theorem State.setBlk_netAt (s : State) (p st : Nat) (i : Nat) : (s.setBlk p st).netAt i = s.netAt i := by unfold State.netAt; simp

/-! ### `cmdDone` -/

@[simp] theorem State.cmdDone_byte (s : State) (p res err : Nat) (x : Nat) : (s.cmdDone p res err).byte x = s.byte x :=
  State.byte_eq (by simp) (by simp) (by simp) x
@[simp] theorem State.cmdDone_csiAt (s : State) (p res err : Nat) (i : Nat) : (s.cmdDone p res err).csiAt i = s.csiAt i := by unfold State.csiAt; simp
@[simp] theorem State.cmdDone_ethAt (s : State) (p res err : Nat) (i : Nat) : (s.cmdDone p res err).ethAt i = s.ethAt i := by unfold State.ethAt; simp
@[simp] theorem State.cmdDone_spiAt (s : State) (p res err : Nat) (i : Nat) : (s.cmdDone p res err).spiAt i = s.spiAt i := by unfold State.spiAt; simp
@[simp] theorem State.cmdDone_wheelAt (s : State) (p res err : Nat) (i : Nat) : (s.cmdDone p res err).wheelAt i = s.wheelAt i := by unfold State.wheelAt; simp
@[simp] theorem State.cmdDone_canAt (s : State) (p res err : Nat) (i : Nat) : (s.cmdDone p res err).canAt i = s.canAt i := by unfold State.canAt; simp
@[simp] theorem State.cmdDone_slotAt (s : State) (p res err : Nat) (i : Nat) : (s.cmdDone p res err).slotAt i = s.slotAt i := by unfold State.slotAt; simp
@[simp] theorem State.cmdDone_fendAt (s : State) (p res err : Nat) (i : Nat) : (s.cmdDone p res err).fendAt i = s.fendAt i := by unfold State.fendAt; simp
@[simp] theorem State.cmdDone_t0At (s : State) (p res err : Nat) (i : Nat) : (s.cmdDone p res err).t0At i = s.t0At i := by unfold State.t0At; simp
@[simp] theorem State.cmdDone_loopAt (s : State) (p res err : Nat) (i : Nat) : (s.cmdDone p res err).loopAt i = s.loopAt i := by unfold State.loopAt; simp
@[simp] theorem State.cmdDone_coreAt (s : State) (p res err : Nat) (i : Nat) : (s.cmdDone p res err).coreAt i = s.coreAt i := by unfold State.coreAt; simp
@[simp] theorem State.cmdDone_rtrAt (s : State) (p res err : Nat) (i : Nat) : (s.cmdDone p res err).rtrAt i = s.rtrAt i := by unfold State.rtrAt; simp
@[simp] theorem State.cmdDone_edgeAt (s : State) (p res err : Nat) (i : Nat) : (s.cmdDone p res err).edgeAt i = s.edgeAt i := by unfold State.edgeAt; simp
@[simp] theorem State.cmdDone_engAt (s : State) (p res err : Nat) (i : Nat) : (s.cmdDone p res err).engAt i = s.engAt i := by unfold State.engAt; simp
@[simp] theorem State.cmdDone_binAt (s : State) (p res err : Nat) (i : Nat) : (s.cmdDone p res err).binAt i = s.binAt i := by unfold State.binAt; simp
@[simp] theorem State.cmdDone_netAt (s : State) (p res err : Nat) (i : Nat) : (s.cmdDone p res err).netAt i = s.netAt i := by unfold State.netAt; simp

/-! ### `cmdAccept` -/

@[simp] theorem State.cmdAccept_byte (s : State) (h p code : Nat) (x : Nat) : (s.cmdAccept h p code).byte x = s.byte x :=
  State.byte_eq (by simp) (by simp) (by simp) x
@[simp] theorem State.cmdAccept_csiAt (s : State) (h p code : Nat) (i : Nat) : (s.cmdAccept h p code).csiAt i = s.csiAt i := by unfold State.csiAt; simp
@[simp] theorem State.cmdAccept_ethAt (s : State) (h p code : Nat) (i : Nat) : (s.cmdAccept h p code).ethAt i = s.ethAt i := by unfold State.ethAt; simp
@[simp] theorem State.cmdAccept_spiAt (s : State) (h p code : Nat) (i : Nat) : (s.cmdAccept h p code).spiAt i = s.spiAt i := by unfold State.spiAt; simp
@[simp] theorem State.cmdAccept_wheelAt (s : State) (h p code : Nat) (i : Nat) : (s.cmdAccept h p code).wheelAt i = s.wheelAt i := by unfold State.wheelAt; simp
@[simp] theorem State.cmdAccept_canAt (s : State) (h p code : Nat) (i : Nat) : (s.cmdAccept h p code).canAt i = s.canAt i := by unfold State.canAt; simp
@[simp] theorem State.cmdAccept_slotAt (s : State) (h p code : Nat) (i : Nat) : (s.cmdAccept h p code).slotAt i = s.slotAt i := by unfold State.slotAt; simp
@[simp] theorem State.cmdAccept_fendAt (s : State) (h p code : Nat) (i : Nat) : (s.cmdAccept h p code).fendAt i = s.fendAt i := by unfold State.fendAt; simp
@[simp] theorem State.cmdAccept_t0At (s : State) (h p code : Nat) (i : Nat) : (s.cmdAccept h p code).t0At i = s.t0At i := by unfold State.t0At; simp
@[simp] theorem State.cmdAccept_loopAt (s : State) (h p code : Nat) (i : Nat) : (s.cmdAccept h p code).loopAt i = s.loopAt i := by unfold State.loopAt; simp
@[simp] theorem State.cmdAccept_coreAt (s : State) (h p code : Nat) (i : Nat) : (s.cmdAccept h p code).coreAt i = s.coreAt i := by unfold State.coreAt; simp
@[simp] theorem State.cmdAccept_rtrAt (s : State) (h p code : Nat) (i : Nat) : (s.cmdAccept h p code).rtrAt i = s.rtrAt i := by unfold State.rtrAt; simp
@[simp] theorem State.cmdAccept_edgeAt (s : State) (h p code : Nat) (i : Nat) : (s.cmdAccept h p code).edgeAt i = s.edgeAt i := by unfold State.edgeAt; simp
@[simp] theorem State.cmdAccept_engAt (s : State) (h p code : Nat) (i : Nat) : (s.cmdAccept h p code).engAt i = s.engAt i := by unfold State.engAt; simp
@[simp] theorem State.cmdAccept_binAt (s : State) (h p code : Nat) (i : Nat) : (s.cmdAccept h p code).binAt i = s.binAt i := by unfold State.binAt; simp
@[simp] theorem State.cmdAccept_portAt (s : State) (h p code : Nat) (i : Nat) : (s.cmdAccept h p code).portAt i = s.portAt i := by unfold State.portAt; simp
@[simp] theorem State.cmdAccept_netAt (s : State) (h p code : Nat) (i : Nat) : (s.cmdAccept h p code).netAt i = s.netAt i := by unfold State.netAt; simp

/-! ### `reply` -/

@[simp] theorem State.reply_rd (s : State) (h : Nat) (r : Access) (d : List Byte) (j : Nat) :
    (s.reply h r d).rd j = s.rd j := State.rd_eq (by simp) j
@[simp] theorem State.reply_rdN (s : State) (h : Nat) (r : Access) (d : List Byte) (j : Nat) :
    (s.reply h r d).rdN j = s.rdN j := State.rdN_eq (by simp) j
@[simp] theorem State.reply_fld (s : State) (h : Nat) (r : Access) (d : List Byte) (j hj lj : Nat) :
    (s.reply h r d).fld j hj lj = s.fld j hj lj := State.fld_eq (by simp) j hj lj
@[simp] theorem State.reply_bit (s : State) (h : Nat) (r : Access) (d : List Byte) (j c : Nat) :
    (s.reply h r d).bit j c = s.bit j c := State.bit_eq (by simp) j c
@[simp] theorem State.reply_rd64 (s : State) (h : Nat) (r : Access) (d : List Byte) (j : Nat) :
    (s.reply h r d).rd64 j = s.rd64 j := State.rd64_eq (by simp) j
@[simp] theorem State.reply_blk (s : State) (h : Nat) (r : Access) (d : List Byte) (j : Nat) :
    (s.reply h r d).blk j = s.blk j := State.blk_eq (by simp) j
@[simp] theorem State.reply_running (s : State) (h : Nat) (r : Access) (d : List Byte) (j : Nat) :
    (s.reply h r d).running j = s.running j := State.running_eq (by simp) j
@[simp] theorem State.reply_role (s : State) (h : Nat) (r : Access) (d : List Byte) (j : Nat) :
    (s.reply h r d).role j = s.role j := State.role_eq (by simp) j
@[simp] theorem State.reply_isOwner (s : State) (h : Nat) (r : Access) (d : List Byte) (j : Nat) :
    (s.reply h r d).isOwner j = s.isOwner j := State.isOwner_eq (by simp) j
@[simp] theorem State.reply_busy (s : State) (h : Nat) (r : Access) (d : List Byte) (j : Nat) :
    (s.reply h r d).busy j = s.busy j := State.busy_eq (by simp) j
@[simp] theorem State.reply_byte (s : State) (h : Nat) (r : Access) (d : List Byte) (x : Nat) : (s.reply h r d).byte x = s.byte x :=
  State.byte_eq (by simp) (by simp) (by simp) x
@[simp] theorem State.reply_csiAt (s : State) (h : Nat) (r : Access) (d : List Byte) (i : Nat) : (s.reply h r d).csiAt i = s.csiAt i := by unfold State.csiAt; simp
@[simp] theorem State.reply_ethAt (s : State) (h : Nat) (r : Access) (d : List Byte) (i : Nat) : (s.reply h r d).ethAt i = s.ethAt i := by unfold State.ethAt; simp
@[simp] theorem State.reply_spiAt (s : State) (h : Nat) (r : Access) (d : List Byte) (i : Nat) : (s.reply h r d).spiAt i = s.spiAt i := by unfold State.spiAt; simp
@[simp] theorem State.reply_wheelAt (s : State) (h : Nat) (r : Access) (d : List Byte) (i : Nat) : (s.reply h r d).wheelAt i = s.wheelAt i := by unfold State.wheelAt; simp
@[simp] theorem State.reply_canAt (s : State) (h : Nat) (r : Access) (d : List Byte) (i : Nat) : (s.reply h r d).canAt i = s.canAt i := by unfold State.canAt; simp
@[simp] theorem State.reply_slotAt (s : State) (h : Nat) (r : Access) (d : List Byte) (i : Nat) : (s.reply h r d).slotAt i = s.slotAt i := by unfold State.slotAt; simp
@[simp] theorem State.reply_fendAt (s : State) (h : Nat) (r : Access) (d : List Byte) (i : Nat) : (s.reply h r d).fendAt i = s.fendAt i := by unfold State.fendAt; simp
@[simp] theorem State.reply_t0At (s : State) (h : Nat) (r : Access) (d : List Byte) (i : Nat) : (s.reply h r d).t0At i = s.t0At i := by unfold State.t0At; simp
@[simp] theorem State.reply_loopAt (s : State) (h : Nat) (r : Access) (d : List Byte) (i : Nat) : (s.reply h r d).loopAt i = s.loopAt i := by unfold State.loopAt; simp
@[simp] theorem State.reply_coreAt (s : State) (h : Nat) (r : Access) (d : List Byte) (i : Nat) : (s.reply h r d).coreAt i = s.coreAt i := by unfold State.coreAt; simp
@[simp] theorem State.reply_rtrAt (s : State) (h : Nat) (r : Access) (d : List Byte) (i : Nat) : (s.reply h r d).rtrAt i = s.rtrAt i := by unfold State.rtrAt; simp
@[simp] theorem State.reply_edgeAt (s : State) (h : Nat) (r : Access) (d : List Byte) (i : Nat) : (s.reply h r d).edgeAt i = s.edgeAt i := by unfold State.edgeAt; simp
@[simp] theorem State.reply_engAt (s : State) (h : Nat) (r : Access) (d : List Byte) (i : Nat) : (s.reply h r d).engAt i = s.engAt i := by unfold State.engAt; simp
@[simp] theorem State.reply_binAt (s : State) (h : Nat) (r : Access) (d : List Byte) (i : Nat) : (s.reply h r d).binAt i = s.binAt i := by unfold State.binAt; simp
@[simp] theorem State.reply_netAt (s : State) (h : Nat) (r : Access) (d : List Byte) (i : Nat) : (s.reply h r d).netAt i = s.netAt i := by unfold State.netAt; simp

/-! ### `replyUr` -/

@[simp] theorem State.replyUr_byte (s : State) (h : Nat) (x : Nat) : (s.replyUr h).byte x = s.byte x :=
  State.byte_eq (by simp) (by simp) (by simp) x
@[simp] theorem State.replyUr_csiAt (s : State) (h : Nat) (i : Nat) : (s.replyUr h).csiAt i = s.csiAt i := by unfold State.csiAt; simp
@[simp] theorem State.replyUr_ethAt (s : State) (h : Nat) (i : Nat) : (s.replyUr h).ethAt i = s.ethAt i := by unfold State.ethAt; simp
@[simp] theorem State.replyUr_spiAt (s : State) (h : Nat) (i : Nat) : (s.replyUr h).spiAt i = s.spiAt i := by unfold State.spiAt; simp
@[simp] theorem State.replyUr_wheelAt (s : State) (h : Nat) (i : Nat) : (s.replyUr h).wheelAt i = s.wheelAt i := by unfold State.wheelAt; simp
@[simp] theorem State.replyUr_canAt (s : State) (h : Nat) (i : Nat) : (s.replyUr h).canAt i = s.canAt i := by unfold State.canAt; simp
@[simp] theorem State.replyUr_slotAt (s : State) (h : Nat) (i : Nat) : (s.replyUr h).slotAt i = s.slotAt i := by unfold State.slotAt; simp
@[simp] theorem State.replyUr_fendAt (s : State) (h : Nat) (i : Nat) : (s.replyUr h).fendAt i = s.fendAt i := by unfold State.fendAt; simp
@[simp] theorem State.replyUr_t0At (s : State) (h : Nat) (i : Nat) : (s.replyUr h).t0At i = s.t0At i := by unfold State.t0At; simp
@[simp] theorem State.replyUr_loopAt (s : State) (h : Nat) (i : Nat) : (s.replyUr h).loopAt i = s.loopAt i := by unfold State.loopAt; simp
@[simp] theorem State.replyUr_coreAt (s : State) (h : Nat) (i : Nat) : (s.replyUr h).coreAt i = s.coreAt i := by unfold State.coreAt; simp
@[simp] theorem State.replyUr_rtrAt (s : State) (h : Nat) (i : Nat) : (s.replyUr h).rtrAt i = s.rtrAt i := by unfold State.rtrAt; simp
@[simp] theorem State.replyUr_edgeAt (s : State) (h : Nat) (i : Nat) : (s.replyUr h).edgeAt i = s.edgeAt i := by unfold State.edgeAt; simp
@[simp] theorem State.replyUr_engAt (s : State) (h : Nat) (i : Nat) : (s.replyUr h).engAt i = s.engAt i := by unfold State.engAt; simp
@[simp] theorem State.replyUr_binAt (s : State) (h : Nat) (i : Nat) : (s.replyUr h).binAt i = s.binAt i := by unfold State.binAt; simp
@[simp] theorem State.replyUr_netAt (s : State) (h : Nat) (i : Nat) : (s.replyUr h).netAt i = s.netAt i := by unfold State.netAt; simp

/-! ### `replyCa` -/

@[simp] theorem State.replyCa_byte (s : State) (h : Nat) (x : Nat) : (s.replyCa h).byte x = s.byte x :=
  State.byte_eq (by simp) (by simp) (by simp) x
@[simp] theorem State.replyCa_csiAt (s : State) (h : Nat) (i : Nat) : (s.replyCa h).csiAt i = s.csiAt i := by unfold State.csiAt; simp
@[simp] theorem State.replyCa_ethAt (s : State) (h : Nat) (i : Nat) : (s.replyCa h).ethAt i = s.ethAt i := by unfold State.ethAt; simp
@[simp] theorem State.replyCa_spiAt (s : State) (h : Nat) (i : Nat) : (s.replyCa h).spiAt i = s.spiAt i := by unfold State.spiAt; simp
@[simp] theorem State.replyCa_wheelAt (s : State) (h : Nat) (i : Nat) : (s.replyCa h).wheelAt i = s.wheelAt i := by unfold State.wheelAt; simp
@[simp] theorem State.replyCa_canAt (s : State) (h : Nat) (i : Nat) : (s.replyCa h).canAt i = s.canAt i := by unfold State.canAt; simp
@[simp] theorem State.replyCa_slotAt (s : State) (h : Nat) (i : Nat) : (s.replyCa h).slotAt i = s.slotAt i := by unfold State.slotAt; simp
@[simp] theorem State.replyCa_fendAt (s : State) (h : Nat) (i : Nat) : (s.replyCa h).fendAt i = s.fendAt i := by unfold State.fendAt; simp
@[simp] theorem State.replyCa_t0At (s : State) (h : Nat) (i : Nat) : (s.replyCa h).t0At i = s.t0At i := by unfold State.t0At; simp
@[simp] theorem State.replyCa_loopAt (s : State) (h : Nat) (i : Nat) : (s.replyCa h).loopAt i = s.loopAt i := by unfold State.loopAt; simp
@[simp] theorem State.replyCa_coreAt (s : State) (h : Nat) (i : Nat) : (s.replyCa h).coreAt i = s.coreAt i := by unfold State.coreAt; simp
@[simp] theorem State.replyCa_rtrAt (s : State) (h : Nat) (i : Nat) : (s.replyCa h).rtrAt i = s.rtrAt i := by unfold State.rtrAt; simp
@[simp] theorem State.replyCa_edgeAt (s : State) (h : Nat) (i : Nat) : (s.replyCa h).edgeAt i = s.edgeAt i := by unfold State.edgeAt; simp
@[simp] theorem State.replyCa_engAt (s : State) (h : Nat) (i : Nat) : (s.replyCa h).engAt i = s.engAt i := by unfold State.engAt; simp
@[simp] theorem State.replyCa_binAt (s : State) (h : Nat) (i : Nat) : (s.replyCa h).binAt i = s.binAt i := by unfold State.binAt; simp
@[simp] theorem State.replyCa_netAt (s : State) (h : Nat) (i : Nat) : (s.replyCa h).netAt i = s.netAt i := by unfold State.netAt; simp

/-! ### `denied` -/

@[simp] theorem State.denied_byte (s : State) (h : Nat) (x : Nat) : (s.denied h).byte x = s.byte x :=
  State.byte_eq (by simp) (by simp) (by simp) x
@[simp] theorem State.denied_csiAt (s : State) (h : Nat) (i : Nat) : (s.denied h).csiAt i = s.csiAt i := by unfold State.csiAt; simp
@[simp] theorem State.denied_ethAt (s : State) (h : Nat) (i : Nat) : (s.denied h).ethAt i = s.ethAt i := by unfold State.ethAt; simp
@[simp] theorem State.denied_spiAt (s : State) (h : Nat) (i : Nat) : (s.denied h).spiAt i = s.spiAt i := by unfold State.spiAt; simp
@[simp] theorem State.denied_wheelAt (s : State) (h : Nat) (i : Nat) : (s.denied h).wheelAt i = s.wheelAt i := by unfold State.wheelAt; simp
@[simp] theorem State.denied_canAt (s : State) (h : Nat) (i : Nat) : (s.denied h).canAt i = s.canAt i := by unfold State.canAt; simp
@[simp] theorem State.denied_slotAt (s : State) (h : Nat) (i : Nat) : (s.denied h).slotAt i = s.slotAt i := by unfold State.slotAt; simp
@[simp] theorem State.denied_fendAt (s : State) (h : Nat) (i : Nat) : (s.denied h).fendAt i = s.fendAt i := by unfold State.fendAt; simp
@[simp] theorem State.denied_t0At (s : State) (h : Nat) (i : Nat) : (s.denied h).t0At i = s.t0At i := by unfold State.t0At; simp
@[simp] theorem State.denied_loopAt (s : State) (h : Nat) (i : Nat) : (s.denied h).loopAt i = s.loopAt i := by unfold State.loopAt; simp
@[simp] theorem State.denied_coreAt (s : State) (h : Nat) (i : Nat) : (s.denied h).coreAt i = s.coreAt i := by unfold State.coreAt; simp
@[simp] theorem State.denied_rtrAt (s : State) (h : Nat) (i : Nat) : (s.denied h).rtrAt i = s.rtrAt i := by unfold State.rtrAt; simp
@[simp] theorem State.denied_edgeAt (s : State) (h : Nat) (i : Nat) : (s.denied h).edgeAt i = s.edgeAt i := by unfold State.edgeAt; simp
@[simp] theorem State.denied_engAt (s : State) (h : Nat) (i : Nat) : (s.denied h).engAt i = s.engAt i := by unfold State.engAt; simp
@[simp] theorem State.denied_binAt (s : State) (h : Nat) (i : Nat) : (s.denied h).binAt i = s.binAt i := by unfold State.binAt; simp
@[simp] theorem State.denied_portAt (s : State) (h : Nat) (i : Nat) : (s.denied h).portAt i = s.portAt i := by unfold State.portAt; simp
@[simp] theorem State.denied_netAt (s : State) (h : Nat) (i : Nat) : (s.denied h).netAt i = s.netAt i := by unfold State.netAt; simp

/-! ### `setByte` -/

@[simp] theorem State.setByte_rd (s : State) (a : Nat) (v : Byte) (j : Nat) :
    (s.setByte a v).rd j = s.rd j := State.rd_eq (by simp) j
@[simp] theorem State.setByte_rdN (s : State) (a : Nat) (v : Byte) (j : Nat) :
    (s.setByte a v).rdN j = s.rdN j := State.rdN_eq (by simp) j
@[simp] theorem State.setByte_fld (s : State) (a : Nat) (v : Byte) (j hj lj : Nat) :
    (s.setByte a v).fld j hj lj = s.fld j hj lj := State.fld_eq (by simp) j hj lj
@[simp] theorem State.setByte_bit (s : State) (a : Nat) (v : Byte) (j c : Nat) :
    (s.setByte a v).bit j c = s.bit j c := State.bit_eq (by simp) j c
@[simp] theorem State.setByte_rd64 (s : State) (a : Nat) (v : Byte) (j : Nat) :
    (s.setByte a v).rd64 j = s.rd64 j := State.rd64_eq (by simp) j
@[simp] theorem State.setByte_blk (s : State) (a : Nat) (v : Byte) (j : Nat) :
    (s.setByte a v).blk j = s.blk j := State.blk_eq (by simp) j
@[simp] theorem State.setByte_running (s : State) (a : Nat) (v : Byte) (j : Nat) :
    (s.setByte a v).running j = s.running j := State.running_eq (by simp) j
@[simp] theorem State.setByte_role (s : State) (a : Nat) (v : Byte) (j : Nat) :
    (s.setByte a v).role j = s.role j := State.role_eq (by simp) j
@[simp] theorem State.setByte_isOwner (s : State) (a : Nat) (v : Byte) (j : Nat) :
    (s.setByte a v).isOwner j = s.isOwner j := State.isOwner_eq (by simp) j
@[simp] theorem State.setByte_busy (s : State) (a : Nat) (v : Byte) (j : Nat) :
    (s.setByte a v).busy j = s.busy j := State.busy_eq (by simp) j
@[simp] theorem State.setByte_csiAt (s : State) (a : Nat) (v : Byte) (i : Nat) : (s.setByte a v).csiAt i = s.csiAt i := by unfold State.csiAt; simp
@[simp] theorem State.setByte_ethAt (s : State) (a : Nat) (v : Byte) (i : Nat) : (s.setByte a v).ethAt i = s.ethAt i := by unfold State.ethAt; simp
@[simp] theorem State.setByte_spiAt (s : State) (a : Nat) (v : Byte) (i : Nat) : (s.setByte a v).spiAt i = s.spiAt i := by unfold State.spiAt; simp
@[simp] theorem State.setByte_wheelAt (s : State) (a : Nat) (v : Byte) (i : Nat) : (s.setByte a v).wheelAt i = s.wheelAt i := by unfold State.wheelAt; simp
@[simp] theorem State.setByte_canAt (s : State) (a : Nat) (v : Byte) (i : Nat) : (s.setByte a v).canAt i = s.canAt i := by unfold State.canAt; simp
@[simp] theorem State.setByte_slotAt (s : State) (a : Nat) (v : Byte) (i : Nat) : (s.setByte a v).slotAt i = s.slotAt i := by unfold State.slotAt; simp
@[simp] theorem State.setByte_fendAt (s : State) (a : Nat) (v : Byte) (i : Nat) : (s.setByte a v).fendAt i = s.fendAt i := by unfold State.fendAt; simp
@[simp] theorem State.setByte_t0At (s : State) (a : Nat) (v : Byte) (i : Nat) : (s.setByte a v).t0At i = s.t0At i := by unfold State.t0At; simp
@[simp] theorem State.setByte_loopAt (s : State) (a : Nat) (v : Byte) (i : Nat) : (s.setByte a v).loopAt i = s.loopAt i := by unfold State.loopAt; simp
@[simp] theorem State.setByte_coreAt (s : State) (a : Nat) (v : Byte) (i : Nat) : (s.setByte a v).coreAt i = s.coreAt i := by unfold State.coreAt; simp
@[simp] theorem State.setByte_rtrAt (s : State) (a : Nat) (v : Byte) (i : Nat) : (s.setByte a v).rtrAt i = s.rtrAt i := by unfold State.rtrAt; simp
@[simp] theorem State.setByte_edgeAt (s : State) (a : Nat) (v : Byte) (i : Nat) : (s.setByte a v).edgeAt i = s.edgeAt i := by unfold State.edgeAt; simp
@[simp] theorem State.setByte_engAt (s : State) (a : Nat) (v : Byte) (i : Nat) : (s.setByte a v).engAt i = s.engAt i := by unfold State.engAt; simp
@[simp] theorem State.setByte_binAt (s : State) (a : Nat) (v : Byte) (i : Nat) : (s.setByte a v).binAt i = s.binAt i := by unfold State.binAt; simp
@[simp] theorem State.setByte_portAt (s : State) (a : Nat) (v : Byte) (i : Nat) : (s.setByte a v).portAt i = s.portAt i := by unfold State.portAt; simp
@[simp] theorem State.setByte_netAt (s : State) (a : Nat) (v : Byte) (i : Nat) : (s.setByte a v).netAt i = s.netAt i := by unfold State.netAt; simp

/-! ### `zeroMem` -/

@[simp] theorem State.zeroMem_rd (s : State) (a n : Nat) (j : Nat) :
    (s.zeroMem a n).rd j = s.rd j := State.rd_eq (by simp) j
@[simp] theorem State.zeroMem_rdN (s : State) (a n : Nat) (j : Nat) :
    (s.zeroMem a n).rdN j = s.rdN j := State.rdN_eq (by simp) j
@[simp] theorem State.zeroMem_fld (s : State) (a n : Nat) (j hj lj : Nat) :
    (s.zeroMem a n).fld j hj lj = s.fld j hj lj := State.fld_eq (by simp) j hj lj
@[simp] theorem State.zeroMem_bit (s : State) (a n : Nat) (j c : Nat) :
    (s.zeroMem a n).bit j c = s.bit j c := State.bit_eq (by simp) j c
@[simp] theorem State.zeroMem_rd64 (s : State) (a n : Nat) (j : Nat) :
    (s.zeroMem a n).rd64 j = s.rd64 j := State.rd64_eq (by simp) j
@[simp] theorem State.zeroMem_blk (s : State) (a n : Nat) (j : Nat) :
    (s.zeroMem a n).blk j = s.blk j := State.blk_eq (by simp) j
@[simp] theorem State.zeroMem_running (s : State) (a n : Nat) (j : Nat) :
    (s.zeroMem a n).running j = s.running j := State.running_eq (by simp) j
@[simp] theorem State.zeroMem_role (s : State) (a n : Nat) (j : Nat) :
    (s.zeroMem a n).role j = s.role j := State.role_eq (by simp) j
@[simp] theorem State.zeroMem_isOwner (s : State) (a n : Nat) (j : Nat) :
    (s.zeroMem a n).isOwner j = s.isOwner j := State.isOwner_eq (by simp) j
@[simp] theorem State.zeroMem_busy (s : State) (a n : Nat) (j : Nat) :
    (s.zeroMem a n).busy j = s.busy j := State.busy_eq (by simp) j
@[simp] theorem State.zeroMem_csiAt (s : State) (a n : Nat) (i : Nat) : (s.zeroMem a n).csiAt i = s.csiAt i := by unfold State.csiAt; simp
@[simp] theorem State.zeroMem_ethAt (s : State) (a n : Nat) (i : Nat) : (s.zeroMem a n).ethAt i = s.ethAt i := by unfold State.ethAt; simp
@[simp] theorem State.zeroMem_spiAt (s : State) (a n : Nat) (i : Nat) : (s.zeroMem a n).spiAt i = s.spiAt i := by unfold State.spiAt; simp
@[simp] theorem State.zeroMem_wheelAt (s : State) (a n : Nat) (i : Nat) : (s.zeroMem a n).wheelAt i = s.wheelAt i := by unfold State.wheelAt; simp
@[simp] theorem State.zeroMem_canAt (s : State) (a n : Nat) (i : Nat) : (s.zeroMem a n).canAt i = s.canAt i := by unfold State.canAt; simp
@[simp] theorem State.zeroMem_slotAt (s : State) (a n : Nat) (i : Nat) : (s.zeroMem a n).slotAt i = s.slotAt i := by unfold State.slotAt; simp
@[simp] theorem State.zeroMem_fendAt (s : State) (a n : Nat) (i : Nat) : (s.zeroMem a n).fendAt i = s.fendAt i := by unfold State.fendAt; simp
@[simp] theorem State.zeroMem_t0At (s : State) (a n : Nat) (i : Nat) : (s.zeroMem a n).t0At i = s.t0At i := by unfold State.t0At; simp
@[simp] theorem State.zeroMem_loopAt (s : State) (a n : Nat) (i : Nat) : (s.zeroMem a n).loopAt i = s.loopAt i := by unfold State.loopAt; simp
@[simp] theorem State.zeroMem_coreAt (s : State) (a n : Nat) (i : Nat) : (s.zeroMem a n).coreAt i = s.coreAt i := by unfold State.coreAt; simp
@[simp] theorem State.zeroMem_rtrAt (s : State) (a n : Nat) (i : Nat) : (s.zeroMem a n).rtrAt i = s.rtrAt i := by unfold State.rtrAt; simp
@[simp] theorem State.zeroMem_edgeAt (s : State) (a n : Nat) (i : Nat) : (s.zeroMem a n).edgeAt i = s.edgeAt i := by unfold State.edgeAt; simp
@[simp] theorem State.zeroMem_engAt (s : State) (a n : Nat) (i : Nat) : (s.zeroMem a n).engAt i = s.engAt i := by unfold State.engAt; simp
@[simp] theorem State.zeroMem_binAt (s : State) (a n : Nat) (i : Nat) : (s.zeroMem a n).binAt i = s.binAt i := by unfold State.binAt; simp
@[simp] theorem State.zeroMem_portAt (s : State) (a n : Nat) (i : Nat) : (s.zeroMem a n).portAt i = s.portAt i := by unfold State.portAt; simp
@[simp] theorem State.zeroMem_netAt (s : State) (a n : Nat) (i : Nat) : (s.zeroMem a n).netAt i = s.netAt i := by unfold State.netAt; simp

/-! ### `secDeny` -/

@[simp] theorem State.secDeny_byte (s : State) (m a : Nat) (w : Bool) (x : Nat) : (s.secDeny m a w).byte x = s.byte x :=
  State.byte_eq (by simp) (by simp) (by simp) x
@[simp] theorem State.secDeny_csiAt (s : State) (m a : Nat) (w : Bool) (i : Nat) : (s.secDeny m a w).csiAt i = s.csiAt i := by unfold State.csiAt; simp
@[simp] theorem State.secDeny_ethAt (s : State) (m a : Nat) (w : Bool) (i : Nat) : (s.secDeny m a w).ethAt i = s.ethAt i := by unfold State.ethAt; simp
@[simp] theorem State.secDeny_spiAt (s : State) (m a : Nat) (w : Bool) (i : Nat) : (s.secDeny m a w).spiAt i = s.spiAt i := by unfold State.spiAt; simp
@[simp] theorem State.secDeny_wheelAt (s : State) (m a : Nat) (w : Bool) (i : Nat) : (s.secDeny m a w).wheelAt i = s.wheelAt i := by unfold State.wheelAt; simp
@[simp] theorem State.secDeny_canAt (s : State) (m a : Nat) (w : Bool) (i : Nat) : (s.secDeny m a w).canAt i = s.canAt i := by unfold State.canAt; simp
@[simp] theorem State.secDeny_slotAt (s : State) (m a : Nat) (w : Bool) (i : Nat) : (s.secDeny m a w).slotAt i = s.slotAt i := by unfold State.slotAt; simp
@[simp] theorem State.secDeny_fendAt (s : State) (m a : Nat) (w : Bool) (i : Nat) : (s.secDeny m a w).fendAt i = s.fendAt i := by unfold State.fendAt; simp
@[simp] theorem State.secDeny_t0At (s : State) (m a : Nat) (w : Bool) (i : Nat) : (s.secDeny m a w).t0At i = s.t0At i := by unfold State.t0At; simp
@[simp] theorem State.secDeny_loopAt (s : State) (m a : Nat) (w : Bool) (i : Nat) : (s.secDeny m a w).loopAt i = s.loopAt i := by unfold State.loopAt; simp
@[simp] theorem State.secDeny_coreAt (s : State) (m a : Nat) (w : Bool) (i : Nat) : (s.secDeny m a w).coreAt i = s.coreAt i := by unfold State.coreAt; simp
@[simp] theorem State.secDeny_rtrAt (s : State) (m a : Nat) (w : Bool) (i : Nat) : (s.secDeny m a w).rtrAt i = s.rtrAt i := by unfold State.rtrAt; simp
@[simp] theorem State.secDeny_edgeAt (s : State) (m a : Nat) (w : Bool) (i : Nat) : (s.secDeny m a w).edgeAt i = s.edgeAt i := by unfold State.edgeAt; simp
@[simp] theorem State.secDeny_engAt (s : State) (m a : Nat) (w : Bool) (i : Nat) : (s.secDeny m a w).engAt i = s.engAt i := by unfold State.engAt; simp
@[simp] theorem State.secDeny_binAt (s : State) (m a : Nat) (w : Bool) (i : Nat) : (s.secDeny m a w).binAt i = s.binAt i := by unfold State.binAt; simp
@[simp] theorem State.secDeny_netAt (s : State) (m a : Nat) (w : Bool) (i : Nat) : (s.secDeny m a w).netAt i = s.netAt i := by unfold State.netAt; simp

/-! ### `reservedAccess` -/

@[simp] theorem State.reservedAccess_byte (s : State) (m a : Nat) (x : Nat) : (s.reservedAccess m a).byte x = s.byte x :=
  State.byte_eq (by simp) (by simp) (by simp) x
@[simp] theorem State.reservedAccess_csiAt (s : State) (m a : Nat) (i : Nat) : (s.reservedAccess m a).csiAt i = s.csiAt i := by unfold State.csiAt; simp
@[simp] theorem State.reservedAccess_ethAt (s : State) (m a : Nat) (i : Nat) : (s.reservedAccess m a).ethAt i = s.ethAt i := by unfold State.ethAt; simp
@[simp] theorem State.reservedAccess_spiAt (s : State) (m a : Nat) (i : Nat) : (s.reservedAccess m a).spiAt i = s.spiAt i := by unfold State.spiAt; simp
@[simp] theorem State.reservedAccess_wheelAt (s : State) (m a : Nat) (i : Nat) : (s.reservedAccess m a).wheelAt i = s.wheelAt i := by unfold State.wheelAt; simp
@[simp] theorem State.reservedAccess_canAt (s : State) (m a : Nat) (i : Nat) : (s.reservedAccess m a).canAt i = s.canAt i := by unfold State.canAt; simp
@[simp] theorem State.reservedAccess_slotAt (s : State) (m a : Nat) (i : Nat) : (s.reservedAccess m a).slotAt i = s.slotAt i := by unfold State.slotAt; simp
@[simp] theorem State.reservedAccess_fendAt (s : State) (m a : Nat) (i : Nat) : (s.reservedAccess m a).fendAt i = s.fendAt i := by unfold State.fendAt; simp
@[simp] theorem State.reservedAccess_t0At (s : State) (m a : Nat) (i : Nat) : (s.reservedAccess m a).t0At i = s.t0At i := by unfold State.t0At; simp
@[simp] theorem State.reservedAccess_loopAt (s : State) (m a : Nat) (i : Nat) : (s.reservedAccess m a).loopAt i = s.loopAt i := by unfold State.loopAt; simp
@[simp] theorem State.reservedAccess_coreAt (s : State) (m a : Nat) (i : Nat) : (s.reservedAccess m a).coreAt i = s.coreAt i := by unfold State.coreAt; simp
@[simp] theorem State.reservedAccess_rtrAt (s : State) (m a : Nat) (i : Nat) : (s.reservedAccess m a).rtrAt i = s.rtrAt i := by unfold State.rtrAt; simp
@[simp] theorem State.reservedAccess_edgeAt (s : State) (m a : Nat) (i : Nat) : (s.reservedAccess m a).edgeAt i = s.edgeAt i := by unfold State.edgeAt; simp
@[simp] theorem State.reservedAccess_engAt (s : State) (m a : Nat) (i : Nat) : (s.reservedAccess m a).engAt i = s.engAt i := by unfold State.engAt; simp
@[simp] theorem State.reservedAccess_binAt (s : State) (m a : Nat) (i : Nat) : (s.reservedAccess m a).binAt i = s.binAt i := by unfold State.binAt; simp
@[simp] theorem State.reservedAccess_portAt (s : State) (m a : Nat) (i : Nat) : (s.reservedAccess m a).portAt i = s.portAt i := by unfold State.portAt; simp
@[simp] theorem State.reservedAccess_netAt (s : State) (m a : Nat) (i : Nat) : (s.reservedAccess m a).netAt i = s.netAt i := by unfold State.netAt; simp

/-! ### `setBad` -/

@[simp] theorem State.setBad_rd (s : State) (g : Nat) (u : Upset) (j : Nat) :
    (s.setBad g u).rd j = s.rd j := State.rd_eq (by simp) j
@[simp] theorem State.setBad_rdN (s : State) (g : Nat) (u : Upset) (j : Nat) :
    (s.setBad g u).rdN j = s.rdN j := State.rdN_eq (by simp) j
@[simp] theorem State.setBad_fld (s : State) (g : Nat) (u : Upset) (j hj lj : Nat) :
    (s.setBad g u).fld j hj lj = s.fld j hj lj := State.fld_eq (by simp) j hj lj
@[simp] theorem State.setBad_bit (s : State) (g : Nat) (u : Upset) (j c : Nat) :
    (s.setBad g u).bit j c = s.bit j c := State.bit_eq (by simp) j c
@[simp] theorem State.setBad_rd64 (s : State) (g : Nat) (u : Upset) (j : Nat) :
    (s.setBad g u).rd64 j = s.rd64 j := State.rd64_eq (by simp) j
@[simp] theorem State.setBad_blk (s : State) (g : Nat) (u : Upset) (j : Nat) :
    (s.setBad g u).blk j = s.blk j := State.blk_eq (by simp) j
@[simp] theorem State.setBad_running (s : State) (g : Nat) (u : Upset) (j : Nat) :
    (s.setBad g u).running j = s.running j := State.running_eq (by simp) j
@[simp] theorem State.setBad_role (s : State) (g : Nat) (u : Upset) (j : Nat) :
    (s.setBad g u).role j = s.role j := State.role_eq (by simp) j
@[simp] theorem State.setBad_isOwner (s : State) (g : Nat) (u : Upset) (j : Nat) :
    (s.setBad g u).isOwner j = s.isOwner j := State.isOwner_eq (by simp) j
@[simp] theorem State.setBad_busy (s : State) (g : Nat) (u : Upset) (j : Nat) :
    (s.setBad g u).busy j = s.busy j := State.busy_eq (by simp) j
@[simp] theorem State.setBad_byte (s : State) (g : Nat) (u : Upset) (x : Nat) : (s.setBad g u).byte x = s.byte x :=
  State.byte_eq (by simp) (by simp) (by simp) x
@[simp] theorem State.setBad_csiAt (s : State) (g : Nat) (u : Upset) (i : Nat) : (s.setBad g u).csiAt i = s.csiAt i := by unfold State.csiAt; simp
@[simp] theorem State.setBad_ethAt (s : State) (g : Nat) (u : Upset) (i : Nat) : (s.setBad g u).ethAt i = s.ethAt i := by unfold State.ethAt; simp
@[simp] theorem State.setBad_spiAt (s : State) (g : Nat) (u : Upset) (i : Nat) : (s.setBad g u).spiAt i = s.spiAt i := by unfold State.spiAt; simp
@[simp] theorem State.setBad_wheelAt (s : State) (g : Nat) (u : Upset) (i : Nat) : (s.setBad g u).wheelAt i = s.wheelAt i := by unfold State.wheelAt; simp
@[simp] theorem State.setBad_canAt (s : State) (g : Nat) (u : Upset) (i : Nat) : (s.setBad g u).canAt i = s.canAt i := by unfold State.canAt; simp
@[simp] theorem State.setBad_slotAt (s : State) (g : Nat) (u : Upset) (i : Nat) : (s.setBad g u).slotAt i = s.slotAt i := by unfold State.slotAt; simp
@[simp] theorem State.setBad_fendAt (s : State) (g : Nat) (u : Upset) (i : Nat) : (s.setBad g u).fendAt i = s.fendAt i := by unfold State.fendAt; simp
@[simp] theorem State.setBad_t0At (s : State) (g : Nat) (u : Upset) (i : Nat) : (s.setBad g u).t0At i = s.t0At i := by unfold State.t0At; simp
@[simp] theorem State.setBad_loopAt (s : State) (g : Nat) (u : Upset) (i : Nat) : (s.setBad g u).loopAt i = s.loopAt i := by unfold State.loopAt; simp
@[simp] theorem State.setBad_coreAt (s : State) (g : Nat) (u : Upset) (i : Nat) : (s.setBad g u).coreAt i = s.coreAt i := by unfold State.coreAt; simp
@[simp] theorem State.setBad_rtrAt (s : State) (g : Nat) (u : Upset) (i : Nat) : (s.setBad g u).rtrAt i = s.rtrAt i := by unfold State.rtrAt; simp
@[simp] theorem State.setBad_edgeAt (s : State) (g : Nat) (u : Upset) (i : Nat) : (s.setBad g u).edgeAt i = s.edgeAt i := by unfold State.edgeAt; simp
@[simp] theorem State.setBad_engAt (s : State) (g : Nat) (u : Upset) (i : Nat) : (s.setBad g u).engAt i = s.engAt i := by unfold State.engAt; simp
@[simp] theorem State.setBad_binAt (s : State) (g : Nat) (u : Upset) (i : Nat) : (s.setBad g u).binAt i = s.binAt i := by unfold State.binAt; simp
@[simp] theorem State.setBad_portAt (s : State) (g : Nat) (u : Upset) (i : Nat) : (s.setBad g u).portAt i = s.portAt i := by unfold State.portAt; simp
@[simp] theorem State.setBad_netAt (s : State) (g : Nat) (u : Upset) (i : Nat) : (s.setBad g u).netAt i = s.netAt i := by unfold State.netAt; simp

/-! ### `clearBad` -/

@[simp] theorem State.clearBad_rd (s : State) (a n : Nat) (j : Nat) :
    (s.clearBad a n).rd j = s.rd j := State.rd_eq (by simp) j
@[simp] theorem State.clearBad_rdN (s : State) (a n : Nat) (j : Nat) :
    (s.clearBad a n).rdN j = s.rdN j := State.rdN_eq (by simp) j
@[simp] theorem State.clearBad_fld (s : State) (a n : Nat) (j hj lj : Nat) :
    (s.clearBad a n).fld j hj lj = s.fld j hj lj := State.fld_eq (by simp) j hj lj
@[simp] theorem State.clearBad_bit (s : State) (a n : Nat) (j c : Nat) :
    (s.clearBad a n).bit j c = s.bit j c := State.bit_eq (by simp) j c
@[simp] theorem State.clearBad_rd64 (s : State) (a n : Nat) (j : Nat) :
    (s.clearBad a n).rd64 j = s.rd64 j := State.rd64_eq (by simp) j
@[simp] theorem State.clearBad_blk (s : State) (a n : Nat) (j : Nat) :
    (s.clearBad a n).blk j = s.blk j := State.blk_eq (by simp) j
@[simp] theorem State.clearBad_running (s : State) (a n : Nat) (j : Nat) :
    (s.clearBad a n).running j = s.running j := State.running_eq (by simp) j
@[simp] theorem State.clearBad_role (s : State) (a n : Nat) (j : Nat) :
    (s.clearBad a n).role j = s.role j := State.role_eq (by simp) j
@[simp] theorem State.clearBad_isOwner (s : State) (a n : Nat) (j : Nat) :
    (s.clearBad a n).isOwner j = s.isOwner j := State.isOwner_eq (by simp) j
@[simp] theorem State.clearBad_busy (s : State) (a n : Nat) (j : Nat) :
    (s.clearBad a n).busy j = s.busy j := State.busy_eq (by simp) j
@[simp] theorem State.clearBad_byte (s : State) (a n : Nat) (x : Nat) : (s.clearBad a n).byte x = s.byte x :=
  State.byte_eq (by simp) (by simp) (by simp) x
@[simp] theorem State.clearBad_csiAt (s : State) (a n : Nat) (i : Nat) : (s.clearBad a n).csiAt i = s.csiAt i := by unfold State.csiAt; simp
@[simp] theorem State.clearBad_ethAt (s : State) (a n : Nat) (i : Nat) : (s.clearBad a n).ethAt i = s.ethAt i := by unfold State.ethAt; simp
@[simp] theorem State.clearBad_spiAt (s : State) (a n : Nat) (i : Nat) : (s.clearBad a n).spiAt i = s.spiAt i := by unfold State.spiAt; simp
@[simp] theorem State.clearBad_wheelAt (s : State) (a n : Nat) (i : Nat) : (s.clearBad a n).wheelAt i = s.wheelAt i := by unfold State.wheelAt; simp
@[simp] theorem State.clearBad_canAt (s : State) (a n : Nat) (i : Nat) : (s.clearBad a n).canAt i = s.canAt i := by unfold State.canAt; simp
@[simp] theorem State.clearBad_slotAt (s : State) (a n : Nat) (i : Nat) : (s.clearBad a n).slotAt i = s.slotAt i := by unfold State.slotAt; simp
@[simp] theorem State.clearBad_fendAt (s : State) (a n : Nat) (i : Nat) : (s.clearBad a n).fendAt i = s.fendAt i := by unfold State.fendAt; simp
@[simp] theorem State.clearBad_t0At (s : State) (a n : Nat) (i : Nat) : (s.clearBad a n).t0At i = s.t0At i := by unfold State.t0At; simp
@[simp] theorem State.clearBad_loopAt (s : State) (a n : Nat) (i : Nat) : (s.clearBad a n).loopAt i = s.loopAt i := by unfold State.loopAt; simp
@[simp] theorem State.clearBad_coreAt (s : State) (a n : Nat) (i : Nat) : (s.clearBad a n).coreAt i = s.coreAt i := by unfold State.coreAt; simp
@[simp] theorem State.clearBad_rtrAt (s : State) (a n : Nat) (i : Nat) : (s.clearBad a n).rtrAt i = s.rtrAt i := by unfold State.rtrAt; simp
@[simp] theorem State.clearBad_edgeAt (s : State) (a n : Nat) (i : Nat) : (s.clearBad a n).edgeAt i = s.edgeAt i := by unfold State.edgeAt; simp
@[simp] theorem State.clearBad_engAt (s : State) (a n : Nat) (i : Nat) : (s.clearBad a n).engAt i = s.engAt i := by unfold State.engAt; simp
@[simp] theorem State.clearBad_binAt (s : State) (a n : Nat) (i : Nat) : (s.clearBad a n).binAt i = s.binAt i := by unfold State.binAt; simp
@[simp] theorem State.clearBad_portAt (s : State) (a n : Nat) (i : Nat) : (s.clearBad a n).portAt i = s.portAt i := by unfold State.portAt; simp
@[simp] theorem State.clearBad_netAt (s : State) (a n : Nat) (i : Nat) : (s.clearBad a n).netAt i = s.netAt i := by unfold State.netAt; simp

/-! ### `clearCommonsBad` -/

@[simp] theorem State.clearCommonsBad_rd (s : State) (a n : Nat) (j : Nat) :
    (s.clearCommonsBad a n).rd j = s.rd j := State.rd_eq (by simp) j
@[simp] theorem State.clearCommonsBad_rdN (s : State) (a n : Nat) (j : Nat) :
    (s.clearCommonsBad a n).rdN j = s.rdN j := State.rdN_eq (by simp) j
@[simp] theorem State.clearCommonsBad_fld (s : State) (a n : Nat) (j hj lj : Nat) :
    (s.clearCommonsBad a n).fld j hj lj = s.fld j hj lj := State.fld_eq (by simp) j hj lj
@[simp] theorem State.clearCommonsBad_bit (s : State) (a n : Nat) (j c : Nat) :
    (s.clearCommonsBad a n).bit j c = s.bit j c := State.bit_eq (by simp) j c
@[simp] theorem State.clearCommonsBad_rd64 (s : State) (a n : Nat) (j : Nat) :
    (s.clearCommonsBad a n).rd64 j = s.rd64 j := State.rd64_eq (by simp) j
@[simp] theorem State.clearCommonsBad_blk (s : State) (a n : Nat) (j : Nat) :
    (s.clearCommonsBad a n).blk j = s.blk j := State.blk_eq (by simp) j
@[simp] theorem State.clearCommonsBad_running (s : State) (a n : Nat) (j : Nat) :
    (s.clearCommonsBad a n).running j = s.running j := State.running_eq (by simp) j
@[simp] theorem State.clearCommonsBad_role (s : State) (a n : Nat) (j : Nat) :
    (s.clearCommonsBad a n).role j = s.role j := State.role_eq (by simp) j
@[simp] theorem State.clearCommonsBad_isOwner (s : State) (a n : Nat) (j : Nat) :
    (s.clearCommonsBad a n).isOwner j = s.isOwner j := State.isOwner_eq (by simp) j
@[simp] theorem State.clearCommonsBad_busy (s : State) (a n : Nat) (j : Nat) :
    (s.clearCommonsBad a n).busy j = s.busy j := State.busy_eq (by simp) j
@[simp] theorem State.clearCommonsBad_byte (s : State) (a n : Nat) (x : Nat) : (s.clearCommonsBad a n).byte x = s.byte x :=
  State.byte_eq (by simp) (by simp) (by simp) x
@[simp] theorem State.clearCommonsBad_csiAt (s : State) (a n : Nat) (i : Nat) : (s.clearCommonsBad a n).csiAt i = s.csiAt i := by unfold State.csiAt; simp
@[simp] theorem State.clearCommonsBad_ethAt (s : State) (a n : Nat) (i : Nat) : (s.clearCommonsBad a n).ethAt i = s.ethAt i := by unfold State.ethAt; simp
@[simp] theorem State.clearCommonsBad_spiAt (s : State) (a n : Nat) (i : Nat) : (s.clearCommonsBad a n).spiAt i = s.spiAt i := by unfold State.spiAt; simp
@[simp] theorem State.clearCommonsBad_wheelAt (s : State) (a n : Nat) (i : Nat) : (s.clearCommonsBad a n).wheelAt i = s.wheelAt i := by unfold State.wheelAt; simp
@[simp] theorem State.clearCommonsBad_canAt (s : State) (a n : Nat) (i : Nat) : (s.clearCommonsBad a n).canAt i = s.canAt i := by unfold State.canAt; simp
@[simp] theorem State.clearCommonsBad_slotAt (s : State) (a n : Nat) (i : Nat) : (s.clearCommonsBad a n).slotAt i = s.slotAt i := by unfold State.slotAt; simp
@[simp] theorem State.clearCommonsBad_fendAt (s : State) (a n : Nat) (i : Nat) : (s.clearCommonsBad a n).fendAt i = s.fendAt i := by unfold State.fendAt; simp
@[simp] theorem State.clearCommonsBad_t0At (s : State) (a n : Nat) (i : Nat) : (s.clearCommonsBad a n).t0At i = s.t0At i := by unfold State.t0At; simp
@[simp] theorem State.clearCommonsBad_loopAt (s : State) (a n : Nat) (i : Nat) : (s.clearCommonsBad a n).loopAt i = s.loopAt i := by unfold State.loopAt; simp
@[simp] theorem State.clearCommonsBad_coreAt (s : State) (a n : Nat) (i : Nat) : (s.clearCommonsBad a n).coreAt i = s.coreAt i := by unfold State.coreAt; simp
@[simp] theorem State.clearCommonsBad_rtrAt (s : State) (a n : Nat) (i : Nat) : (s.clearCommonsBad a n).rtrAt i = s.rtrAt i := by unfold State.rtrAt; simp
@[simp] theorem State.clearCommonsBad_edgeAt (s : State) (a n : Nat) (i : Nat) : (s.clearCommonsBad a n).edgeAt i = s.edgeAt i := by unfold State.edgeAt; simp
@[simp] theorem State.clearCommonsBad_engAt (s : State) (a n : Nat) (i : Nat) : (s.clearCommonsBad a n).engAt i = s.engAt i := by unfold State.engAt; simp
@[simp] theorem State.clearCommonsBad_binAt (s : State) (a n : Nat) (i : Nat) : (s.clearCommonsBad a n).binAt i = s.binAt i := by unfold State.binAt; simp
@[simp] theorem State.clearCommonsBad_portAt (s : State) (a n : Nat) (i : Nat) : (s.clearCommonsBad a n).portAt i = s.portAt i := by unfold State.portAt; simp
@[simp] theorem State.clearCommonsBad_netAt (s : State) (a n : Nat) (i : Nat) : (s.clearCommonsBad a n).netAt i = s.netAt i := by unfold State.netAt; simp

/-! ### `setCommonsBad` -/

@[simp] theorem State.setCommonsBad_rd (s : State) (w : Nat) (u : Upset) (j : Nat) :
    (s.setCommonsBad w u).rd j = s.rd j := State.rd_eq (by simp) j
@[simp] theorem State.setCommonsBad_rdN (s : State) (w : Nat) (u : Upset) (j : Nat) :
    (s.setCommonsBad w u).rdN j = s.rdN j := State.rdN_eq (by simp) j
@[simp] theorem State.setCommonsBad_fld (s : State) (w : Nat) (u : Upset) (j hj lj : Nat) :
    (s.setCommonsBad w u).fld j hj lj = s.fld j hj lj := State.fld_eq (by simp) j hj lj
@[simp] theorem State.setCommonsBad_bit (s : State) (w : Nat) (u : Upset) (j c : Nat) :
    (s.setCommonsBad w u).bit j c = s.bit j c := State.bit_eq (by simp) j c
@[simp] theorem State.setCommonsBad_rd64 (s : State) (w : Nat) (u : Upset) (j : Nat) :
    (s.setCommonsBad w u).rd64 j = s.rd64 j := State.rd64_eq (by simp) j
@[simp] theorem State.setCommonsBad_blk (s : State) (w : Nat) (u : Upset) (j : Nat) :
    (s.setCommonsBad w u).blk j = s.blk j := State.blk_eq (by simp) j
@[simp] theorem State.setCommonsBad_running (s : State) (w : Nat) (u : Upset) (j : Nat) :
    (s.setCommonsBad w u).running j = s.running j := State.running_eq (by simp) j
@[simp] theorem State.setCommonsBad_role (s : State) (w : Nat) (u : Upset) (j : Nat) :
    (s.setCommonsBad w u).role j = s.role j := State.role_eq (by simp) j
@[simp] theorem State.setCommonsBad_isOwner (s : State) (w : Nat) (u : Upset) (j : Nat) :
    (s.setCommonsBad w u).isOwner j = s.isOwner j := State.isOwner_eq (by simp) j
@[simp] theorem State.setCommonsBad_busy (s : State) (w : Nat) (u : Upset) (j : Nat) :
    (s.setCommonsBad w u).busy j = s.busy j := State.busy_eq (by simp) j
@[simp] theorem State.setCommonsBad_byte (s : State) (w : Nat) (u : Upset) (x : Nat) : (s.setCommonsBad w u).byte x = s.byte x :=
  State.byte_eq (by simp) (by simp) (by simp) x
@[simp] theorem State.setCommonsBad_csiAt (s : State) (w : Nat) (u : Upset) (i : Nat) : (s.setCommonsBad w u).csiAt i = s.csiAt i := by unfold State.csiAt; simp
@[simp] theorem State.setCommonsBad_ethAt (s : State) (w : Nat) (u : Upset) (i : Nat) : (s.setCommonsBad w u).ethAt i = s.ethAt i := by unfold State.ethAt; simp
@[simp] theorem State.setCommonsBad_spiAt (s : State) (w : Nat) (u : Upset) (i : Nat) : (s.setCommonsBad w u).spiAt i = s.spiAt i := by unfold State.spiAt; simp
@[simp] theorem State.setCommonsBad_wheelAt (s : State) (w : Nat) (u : Upset) (i : Nat) : (s.setCommonsBad w u).wheelAt i = s.wheelAt i := by unfold State.wheelAt; simp
@[simp] theorem State.setCommonsBad_canAt (s : State) (w : Nat) (u : Upset) (i : Nat) : (s.setCommonsBad w u).canAt i = s.canAt i := by unfold State.canAt; simp
@[simp] theorem State.setCommonsBad_slotAt (s : State) (w : Nat) (u : Upset) (i : Nat) : (s.setCommonsBad w u).slotAt i = s.slotAt i := by unfold State.slotAt; simp
@[simp] theorem State.setCommonsBad_fendAt (s : State) (w : Nat) (u : Upset) (i : Nat) : (s.setCommonsBad w u).fendAt i = s.fendAt i := by unfold State.fendAt; simp
@[simp] theorem State.setCommonsBad_t0At (s : State) (w : Nat) (u : Upset) (i : Nat) : (s.setCommonsBad w u).t0At i = s.t0At i := by unfold State.t0At; simp
@[simp] theorem State.setCommonsBad_loopAt (s : State) (w : Nat) (u : Upset) (i : Nat) : (s.setCommonsBad w u).loopAt i = s.loopAt i := by unfold State.loopAt; simp
@[simp] theorem State.setCommonsBad_coreAt (s : State) (w : Nat) (u : Upset) (i : Nat) : (s.setCommonsBad w u).coreAt i = s.coreAt i := by unfold State.coreAt; simp
@[simp] theorem State.setCommonsBad_rtrAt (s : State) (w : Nat) (u : Upset) (i : Nat) : (s.setCommonsBad w u).rtrAt i = s.rtrAt i := by unfold State.rtrAt; simp
@[simp] theorem State.setCommonsBad_edgeAt (s : State) (w : Nat) (u : Upset) (i : Nat) : (s.setCommonsBad w u).edgeAt i = s.edgeAt i := by unfold State.edgeAt; simp
@[simp] theorem State.setCommonsBad_engAt (s : State) (w : Nat) (u : Upset) (i : Nat) : (s.setCommonsBad w u).engAt i = s.engAt i := by unfold State.engAt; simp
@[simp] theorem State.setCommonsBad_binAt (s : State) (w : Nat) (u : Upset) (i : Nat) : (s.setCommonsBad w u).binAt i = s.binAt i := by unfold State.binAt; simp
@[simp] theorem State.setCommonsBad_portAt (s : State) (w : Nat) (u : Upset) (i : Nat) : (s.setCommonsBad w u).portAt i = s.portAt i := by unfold State.portAt; simp
@[simp] theorem State.setCommonsBad_netAt (s : State) (w : Nat) (u : Upset) (i : Nat) : (s.setCommonsBad w u).netAt i = s.netAt i := by unfold State.netAt; simp

/-! ### `eccLast` -/

@[simp] theorem State.eccLast_byte (s : State) (k g fl : Nat) (x : Nat) : (s.eccLast k g fl).byte x = s.byte x :=
  State.byte_eq (by simp) (by simp) (by simp) x
@[simp] theorem State.eccLast_csiAt (s : State) (k g fl : Nat) (i : Nat) : (s.eccLast k g fl).csiAt i = s.csiAt i := by unfold State.csiAt; simp
@[simp] theorem State.eccLast_ethAt (s : State) (k g fl : Nat) (i : Nat) : (s.eccLast k g fl).ethAt i = s.ethAt i := by unfold State.ethAt; simp
@[simp] theorem State.eccLast_spiAt (s : State) (k g fl : Nat) (i : Nat) : (s.eccLast k g fl).spiAt i = s.spiAt i := by unfold State.spiAt; simp
@[simp] theorem State.eccLast_wheelAt (s : State) (k g fl : Nat) (i : Nat) : (s.eccLast k g fl).wheelAt i = s.wheelAt i := by unfold State.wheelAt; simp
@[simp] theorem State.eccLast_canAt (s : State) (k g fl : Nat) (i : Nat) : (s.eccLast k g fl).canAt i = s.canAt i := by unfold State.canAt; simp
@[simp] theorem State.eccLast_slotAt (s : State) (k g fl : Nat) (i : Nat) : (s.eccLast k g fl).slotAt i = s.slotAt i := by unfold State.slotAt; simp
@[simp] theorem State.eccLast_fendAt (s : State) (k g fl : Nat) (i : Nat) : (s.eccLast k g fl).fendAt i = s.fendAt i := by unfold State.fendAt; simp
@[simp] theorem State.eccLast_t0At (s : State) (k g fl : Nat) (i : Nat) : (s.eccLast k g fl).t0At i = s.t0At i := by unfold State.t0At; simp
@[simp] theorem State.eccLast_loopAt (s : State) (k g fl : Nat) (i : Nat) : (s.eccLast k g fl).loopAt i = s.loopAt i := by unfold State.loopAt; simp
@[simp] theorem State.eccLast_coreAt (s : State) (k g fl : Nat) (i : Nat) : (s.eccLast k g fl).coreAt i = s.coreAt i := by unfold State.coreAt; simp
@[simp] theorem State.eccLast_rtrAt (s : State) (k g fl : Nat) (i : Nat) : (s.eccLast k g fl).rtrAt i = s.rtrAt i := by unfold State.rtrAt; simp
@[simp] theorem State.eccLast_edgeAt (s : State) (k g fl : Nat) (i : Nat) : (s.eccLast k g fl).edgeAt i = s.edgeAt i := by unfold State.edgeAt; simp
@[simp] theorem State.eccLast_engAt (s : State) (k g fl : Nat) (i : Nat) : (s.eccLast k g fl).engAt i = s.engAt i := by unfold State.engAt; simp
@[simp] theorem State.eccLast_binAt (s : State) (k g fl : Nat) (i : Nat) : (s.eccLast k g fl).binAt i = s.binAt i := by unfold State.binAt; simp
@[simp] theorem State.eccLast_portAt (s : State) (k g fl : Nat) (i : Nat) : (s.eccLast k g fl).portAt i = s.portAt i := by unfold State.portAt; simp
@[simp] theorem State.eccLast_netAt (s : State) (k g fl : Nat) (i : Nat) : (s.eccLast k g fl).netAt i = s.netAt i := by unfold State.netAt; simp

/-! ### `injectOn` -/

@[simp] theorem State.injectOn_byte (s : State) (a n : Nat) (x : Nat) : (s.injectOn a n).byte x = s.byte x :=
  State.byte_eq (by simp) (by simp) (by simp) x
@[simp] theorem State.injectOn_csiAt (s : State) (a n : Nat) (i : Nat) : (s.injectOn a n).csiAt i = s.csiAt i := by unfold State.csiAt; simp
@[simp] theorem State.injectOn_ethAt (s : State) (a n : Nat) (i : Nat) : (s.injectOn a n).ethAt i = s.ethAt i := by unfold State.ethAt; simp
@[simp] theorem State.injectOn_spiAt (s : State) (a n : Nat) (i : Nat) : (s.injectOn a n).spiAt i = s.spiAt i := by unfold State.spiAt; simp
@[simp] theorem State.injectOn_wheelAt (s : State) (a n : Nat) (i : Nat) : (s.injectOn a n).wheelAt i = s.wheelAt i := by unfold State.wheelAt; simp
@[simp] theorem State.injectOn_canAt (s : State) (a n : Nat) (i : Nat) : (s.injectOn a n).canAt i = s.canAt i := by unfold State.canAt; simp
@[simp] theorem State.injectOn_slotAt (s : State) (a n : Nat) (i : Nat) : (s.injectOn a n).slotAt i = s.slotAt i := by unfold State.slotAt; simp
@[simp] theorem State.injectOn_fendAt (s : State) (a n : Nat) (i : Nat) : (s.injectOn a n).fendAt i = s.fendAt i := by unfold State.fendAt; simp
@[simp] theorem State.injectOn_t0At (s : State) (a n : Nat) (i : Nat) : (s.injectOn a n).t0At i = s.t0At i := by unfold State.t0At; simp
@[simp] theorem State.injectOn_loopAt (s : State) (a n : Nat) (i : Nat) : (s.injectOn a n).loopAt i = s.loopAt i := by unfold State.loopAt; simp
@[simp] theorem State.injectOn_coreAt (s : State) (a n : Nat) (i : Nat) : (s.injectOn a n).coreAt i = s.coreAt i := by unfold State.coreAt; simp
@[simp] theorem State.injectOn_rtrAt (s : State) (a n : Nat) (i : Nat) : (s.injectOn a n).rtrAt i = s.rtrAt i := by unfold State.rtrAt; simp
@[simp] theorem State.injectOn_edgeAt (s : State) (a n : Nat) (i : Nat) : (s.injectOn a n).edgeAt i = s.edgeAt i := by unfold State.edgeAt; simp
@[simp] theorem State.injectOn_engAt (s : State) (a n : Nat) (i : Nat) : (s.injectOn a n).engAt i = s.engAt i := by unfold State.engAt; simp
@[simp] theorem State.injectOn_binAt (s : State) (a n : Nat) (i : Nat) : (s.injectOn a n).binAt i = s.binAt i := by unfold State.binAt; simp
@[simp] theorem State.injectOn_portAt (s : State) (a n : Nat) (i : Nat) : (s.injectOn a n).portAt i = s.portAt i := by unfold State.portAt; simp
@[simp] theorem State.injectOn_netAt (s : State) (a n : Nat) (i : Nat) : (s.injectOn a n).netAt i = s.netAt i := by unfold State.netAt; simp

/-! ### `setBytes` -/

@[simp] theorem State.setBytes_rd (s : State) (a : Nat) (bs : List Byte) (j : Nat) :
    (s.setBytes a bs).rd j = s.rd j := State.rd_eq (by simp) j
@[simp] theorem State.setBytes_rdN (s : State) (a : Nat) (bs : List Byte) (j : Nat) :
    (s.setBytes a bs).rdN j = s.rdN j := State.rdN_eq (by simp) j
@[simp] theorem State.setBytes_fld (s : State) (a : Nat) (bs : List Byte) (j hj lj : Nat) :
    (s.setBytes a bs).fld j hj lj = s.fld j hj lj := State.fld_eq (by simp) j hj lj
@[simp] theorem State.setBytes_bit (s : State) (a : Nat) (bs : List Byte) (j c : Nat) :
    (s.setBytes a bs).bit j c = s.bit j c := State.bit_eq (by simp) j c
@[simp] theorem State.setBytes_rd64 (s : State) (a : Nat) (bs : List Byte) (j : Nat) :
    (s.setBytes a bs).rd64 j = s.rd64 j := State.rd64_eq (by simp) j
@[simp] theorem State.setBytes_blk (s : State) (a : Nat) (bs : List Byte) (j : Nat) :
    (s.setBytes a bs).blk j = s.blk j := State.blk_eq (by simp) j
@[simp] theorem State.setBytes_running (s : State) (a : Nat) (bs : List Byte) (j : Nat) :
    (s.setBytes a bs).running j = s.running j := State.running_eq (by simp) j
@[simp] theorem State.setBytes_role (s : State) (a : Nat) (bs : List Byte) (j : Nat) :
    (s.setBytes a bs).role j = s.role j := State.role_eq (by simp) j
@[simp] theorem State.setBytes_isOwner (s : State) (a : Nat) (bs : List Byte) (j : Nat) :
    (s.setBytes a bs).isOwner j = s.isOwner j := State.isOwner_eq (by simp) j
@[simp] theorem State.setBytes_busy (s : State) (a : Nat) (bs : List Byte) (j : Nat) :
    (s.setBytes a bs).busy j = s.busy j := State.busy_eq (by simp) j
@[simp] theorem State.setBytes_csiAt (s : State) (a : Nat) (bs : List Byte) (i : Nat) : (s.setBytes a bs).csiAt i = s.csiAt i := by unfold State.csiAt; simp
@[simp] theorem State.setBytes_ethAt (s : State) (a : Nat) (bs : List Byte) (i : Nat) : (s.setBytes a bs).ethAt i = s.ethAt i := by unfold State.ethAt; simp
@[simp] theorem State.setBytes_spiAt (s : State) (a : Nat) (bs : List Byte) (i : Nat) : (s.setBytes a bs).spiAt i = s.spiAt i := by unfold State.spiAt; simp
@[simp] theorem State.setBytes_wheelAt (s : State) (a : Nat) (bs : List Byte) (i : Nat) : (s.setBytes a bs).wheelAt i = s.wheelAt i := by unfold State.wheelAt; simp
@[simp] theorem State.setBytes_canAt (s : State) (a : Nat) (bs : List Byte) (i : Nat) : (s.setBytes a bs).canAt i = s.canAt i := by unfold State.canAt; simp
@[simp] theorem State.setBytes_slotAt (s : State) (a : Nat) (bs : List Byte) (i : Nat) : (s.setBytes a bs).slotAt i = s.slotAt i := by unfold State.slotAt; simp
@[simp] theorem State.setBytes_fendAt (s : State) (a : Nat) (bs : List Byte) (i : Nat) : (s.setBytes a bs).fendAt i = s.fendAt i := by unfold State.fendAt; simp
@[simp] theorem State.setBytes_t0At (s : State) (a : Nat) (bs : List Byte) (i : Nat) : (s.setBytes a bs).t0At i = s.t0At i := by unfold State.t0At; simp
@[simp] theorem State.setBytes_loopAt (s : State) (a : Nat) (bs : List Byte) (i : Nat) : (s.setBytes a bs).loopAt i = s.loopAt i := by unfold State.loopAt; simp
@[simp] theorem State.setBytes_coreAt (s : State) (a : Nat) (bs : List Byte) (i : Nat) : (s.setBytes a bs).coreAt i = s.coreAt i := by unfold State.coreAt; simp
@[simp] theorem State.setBytes_rtrAt (s : State) (a : Nat) (bs : List Byte) (i : Nat) : (s.setBytes a bs).rtrAt i = s.rtrAt i := by unfold State.rtrAt; simp
@[simp] theorem State.setBytes_edgeAt (s : State) (a : Nat) (bs : List Byte) (i : Nat) : (s.setBytes a bs).edgeAt i = s.edgeAt i := by unfold State.edgeAt; simp
@[simp] theorem State.setBytes_engAt (s : State) (a : Nat) (bs : List Byte) (i : Nat) : (s.setBytes a bs).engAt i = s.engAt i := by unfold State.engAt; simp
@[simp] theorem State.setBytes_binAt (s : State) (a : Nat) (bs : List Byte) (i : Nat) : (s.setBytes a bs).binAt i = s.binAt i := by unfold State.binAt; simp
@[simp] theorem State.setBytes_portAt (s : State) (a : Nat) (bs : List Byte) (i : Nat) : (s.setBytes a bs).portAt i = s.portAt i := by unfold State.portAt; simp
@[simp] theorem State.setBytes_netAt (s : State) (a : Nat) (bs : List Byte) (i : Nat) : (s.setBytes a bs).netAt i = s.netAt i := by unfold State.netAt; simp

/-! ### `putLE` -/

@[simp] theorem State.putLE_rd (s : State) (a n v : Nat) (j : Nat) :
    (s.putLE a n v).rd j = s.rd j := State.rd_eq (by simp) j
@[simp] theorem State.putLE_rdN (s : State) (a n v : Nat) (j : Nat) :
    (s.putLE a n v).rdN j = s.rdN j := State.rdN_eq (by simp) j
@[simp] theorem State.putLE_fld (s : State) (a n v : Nat) (j hj lj : Nat) :
    (s.putLE a n v).fld j hj lj = s.fld j hj lj := State.fld_eq (by simp) j hj lj
@[simp] theorem State.putLE_bit (s : State) (a n v : Nat) (j c : Nat) :
    (s.putLE a n v).bit j c = s.bit j c := State.bit_eq (by simp) j c
@[simp] theorem State.putLE_rd64 (s : State) (a n v : Nat) (j : Nat) :
    (s.putLE a n v).rd64 j = s.rd64 j := State.rd64_eq (by simp) j
@[simp] theorem State.putLE_blk (s : State) (a n v : Nat) (j : Nat) :
    (s.putLE a n v).blk j = s.blk j := State.blk_eq (by simp) j
@[simp] theorem State.putLE_running (s : State) (a n v : Nat) (j : Nat) :
    (s.putLE a n v).running j = s.running j := State.running_eq (by simp) j
@[simp] theorem State.putLE_role (s : State) (a n v : Nat) (j : Nat) :
    (s.putLE a n v).role j = s.role j := State.role_eq (by simp) j
@[simp] theorem State.putLE_isOwner (s : State) (a n v : Nat) (j : Nat) :
    (s.putLE a n v).isOwner j = s.isOwner j := State.isOwner_eq (by simp) j
@[simp] theorem State.putLE_busy (s : State) (a n v : Nat) (j : Nat) :
    (s.putLE a n v).busy j = s.busy j := State.busy_eq (by simp) j
@[simp] theorem State.putLE_csiAt (s : State) (a n v : Nat) (i : Nat) : (s.putLE a n v).csiAt i = s.csiAt i := by unfold State.csiAt; simp
@[simp] theorem State.putLE_ethAt (s : State) (a n v : Nat) (i : Nat) : (s.putLE a n v).ethAt i = s.ethAt i := by unfold State.ethAt; simp
@[simp] theorem State.putLE_spiAt (s : State) (a n v : Nat) (i : Nat) : (s.putLE a n v).spiAt i = s.spiAt i := by unfold State.spiAt; simp
@[simp] theorem State.putLE_wheelAt (s : State) (a n v : Nat) (i : Nat) : (s.putLE a n v).wheelAt i = s.wheelAt i := by unfold State.wheelAt; simp
@[simp] theorem State.putLE_canAt (s : State) (a n v : Nat) (i : Nat) : (s.putLE a n v).canAt i = s.canAt i := by unfold State.canAt; simp
@[simp] theorem State.putLE_slotAt (s : State) (a n v : Nat) (i : Nat) : (s.putLE a n v).slotAt i = s.slotAt i := by unfold State.slotAt; simp
@[simp] theorem State.putLE_fendAt (s : State) (a n v : Nat) (i : Nat) : (s.putLE a n v).fendAt i = s.fendAt i := by unfold State.fendAt; simp
@[simp] theorem State.putLE_t0At (s : State) (a n v : Nat) (i : Nat) : (s.putLE a n v).t0At i = s.t0At i := by unfold State.t0At; simp
@[simp] theorem State.putLE_loopAt (s : State) (a n v : Nat) (i : Nat) : (s.putLE a n v).loopAt i = s.loopAt i := by unfold State.loopAt; simp
@[simp] theorem State.putLE_coreAt (s : State) (a n v : Nat) (i : Nat) : (s.putLE a n v).coreAt i = s.coreAt i := by unfold State.coreAt; simp
@[simp] theorem State.putLE_rtrAt (s : State) (a n v : Nat) (i : Nat) : (s.putLE a n v).rtrAt i = s.rtrAt i := by unfold State.rtrAt; simp
@[simp] theorem State.putLE_edgeAt (s : State) (a n v : Nat) (i : Nat) : (s.putLE a n v).edgeAt i = s.edgeAt i := by unfold State.edgeAt; simp
@[simp] theorem State.putLE_engAt (s : State) (a n v : Nat) (i : Nat) : (s.putLE a n v).engAt i = s.engAt i := by unfold State.engAt; simp
@[simp] theorem State.putLE_binAt (s : State) (a n v : Nat) (i : Nat) : (s.putLE a n v).binAt i = s.binAt i := by unfold State.binAt; simp
@[simp] theorem State.putLE_portAt (s : State) (a n v : Nat) (i : Nat) : (s.putLE a n v).portAt i = s.portAt i := by unfold State.portAt; simp
@[simp] theorem State.putLE_netAt (s : State) (a n v : Nat) (i : Nat) : (s.putLE a n v).netAt i = s.netAt i := by unfold State.netAt; simp

/-! ### `peak` -/

@[simp] theorem State.peak_byte (s : State) (k hi lo v : Nat) (x : Nat) : (s.peak k hi lo v).byte x = s.byte x :=
  State.byte_eq (by simp) (by simp) (by simp) x
@[simp] theorem State.peak_csiAt (s : State) (k hi lo v : Nat) (i : Nat) : (s.peak k hi lo v).csiAt i = s.csiAt i := by unfold State.csiAt; simp
@[simp] theorem State.peak_ethAt (s : State) (k hi lo v : Nat) (i : Nat) : (s.peak k hi lo v).ethAt i = s.ethAt i := by unfold State.ethAt; simp
@[simp] theorem State.peak_spiAt (s : State) (k hi lo v : Nat) (i : Nat) : (s.peak k hi lo v).spiAt i = s.spiAt i := by unfold State.spiAt; simp
@[simp] theorem State.peak_wheelAt (s : State) (k hi lo v : Nat) (i : Nat) : (s.peak k hi lo v).wheelAt i = s.wheelAt i := by unfold State.wheelAt; simp
@[simp] theorem State.peak_canAt (s : State) (k hi lo v : Nat) (i : Nat) : (s.peak k hi lo v).canAt i = s.canAt i := by unfold State.canAt; simp
@[simp] theorem State.peak_slotAt (s : State) (k hi lo v : Nat) (i : Nat) : (s.peak k hi lo v).slotAt i = s.slotAt i := by unfold State.slotAt; simp
@[simp] theorem State.peak_fendAt (s : State) (k hi lo v : Nat) (i : Nat) : (s.peak k hi lo v).fendAt i = s.fendAt i := by unfold State.fendAt; simp
@[simp] theorem State.peak_t0At (s : State) (k hi lo v : Nat) (i : Nat) : (s.peak k hi lo v).t0At i = s.t0At i := by unfold State.t0At; simp
@[simp] theorem State.peak_loopAt (s : State) (k hi lo v : Nat) (i : Nat) : (s.peak k hi lo v).loopAt i = s.loopAt i := by unfold State.loopAt; simp
@[simp] theorem State.peak_coreAt (s : State) (k hi lo v : Nat) (i : Nat) : (s.peak k hi lo v).coreAt i = s.coreAt i := by unfold State.coreAt; simp
@[simp] theorem State.peak_rtrAt (s : State) (k hi lo v : Nat) (i : Nat) : (s.peak k hi lo v).rtrAt i = s.rtrAt i := by unfold State.rtrAt; simp
@[simp] theorem State.peak_edgeAt (s : State) (k hi lo v : Nat) (i : Nat) : (s.peak k hi lo v).edgeAt i = s.edgeAt i := by unfold State.edgeAt; simp
@[simp] theorem State.peak_engAt (s : State) (k hi lo v : Nat) (i : Nat) : (s.peak k hi lo v).engAt i = s.engAt i := by unfold State.engAt; simp
@[simp] theorem State.peak_binAt (s : State) (k hi lo v : Nat) (i : Nat) : (s.peak k hi lo v).binAt i = s.binAt i := by unfold State.binAt; simp
@[simp] theorem State.peak_portAt (s : State) (k hi lo v : Nat) (i : Nat) : (s.peak k hi lo v).portAt i = s.portAt i := by unfold State.portAt; simp
@[simp] theorem State.peak_netAt (s : State) (k hi lo v : Nat) (i : Nat) : (s.peak k hi lo v).netAt i = s.netAt i := by unfold State.netAt; simp

/-! ### `setCsi` -/

@[simp] theorem State.setCsi_rd (s : State) (p : Nat) (v : CsiPort) (j : Nat) :
    (s.setCsi p v).rd j = s.rd j := State.rd_eq (by simp) j
@[simp] theorem State.setCsi_rdN (s : State) (p : Nat) (v : CsiPort) (j : Nat) :
    (s.setCsi p v).rdN j = s.rdN j := State.rdN_eq (by simp) j
@[simp] theorem State.setCsi_fld (s : State) (p : Nat) (v : CsiPort) (j hj lj : Nat) :
    (s.setCsi p v).fld j hj lj = s.fld j hj lj := State.fld_eq (by simp) j hj lj
@[simp] theorem State.setCsi_bit (s : State) (p : Nat) (v : CsiPort) (j c : Nat) :
    (s.setCsi p v).bit j c = s.bit j c := State.bit_eq (by simp) j c
@[simp] theorem State.setCsi_rd64 (s : State) (p : Nat) (v : CsiPort) (j : Nat) :
    (s.setCsi p v).rd64 j = s.rd64 j := State.rd64_eq (by simp) j
@[simp] theorem State.setCsi_blk (s : State) (p : Nat) (v : CsiPort) (j : Nat) :
    (s.setCsi p v).blk j = s.blk j := State.blk_eq (by simp) j
@[simp] theorem State.setCsi_running (s : State) (p : Nat) (v : CsiPort) (j : Nat) :
    (s.setCsi p v).running j = s.running j := State.running_eq (by simp) j
@[simp] theorem State.setCsi_role (s : State) (p : Nat) (v : CsiPort) (j : Nat) :
    (s.setCsi p v).role j = s.role j := State.role_eq (by simp) j
@[simp] theorem State.setCsi_isOwner (s : State) (p : Nat) (v : CsiPort) (j : Nat) :
    (s.setCsi p v).isOwner j = s.isOwner j := State.isOwner_eq (by simp) j
@[simp] theorem State.setCsi_busy (s : State) (p : Nat) (v : CsiPort) (j : Nat) :
    (s.setCsi p v).busy j = s.busy j := State.busy_eq (by simp) j
@[simp] theorem State.setCsi_byte (s : State) (p : Nat) (v : CsiPort) (x : Nat) : (s.setCsi p v).byte x = s.byte x :=
  State.byte_eq (by simp) (by simp) (by simp) x
@[simp] theorem State.setCsi_ethAt (s : State) (p : Nat) (v : CsiPort) (i : Nat) : (s.setCsi p v).ethAt i = s.ethAt i := by unfold State.ethAt; simp
@[simp] theorem State.setCsi_spiAt (s : State) (p : Nat) (v : CsiPort) (i : Nat) : (s.setCsi p v).spiAt i = s.spiAt i := by unfold State.spiAt; simp
@[simp] theorem State.setCsi_wheelAt (s : State) (p : Nat) (v : CsiPort) (i : Nat) : (s.setCsi p v).wheelAt i = s.wheelAt i := by unfold State.wheelAt; simp
@[simp] theorem State.setCsi_canAt (s : State) (p : Nat) (v : CsiPort) (i : Nat) : (s.setCsi p v).canAt i = s.canAt i := by unfold State.canAt; simp
@[simp] theorem State.setCsi_slotAt (s : State) (p : Nat) (v : CsiPort) (i : Nat) : (s.setCsi p v).slotAt i = s.slotAt i := by unfold State.slotAt; simp
@[simp] theorem State.setCsi_fendAt (s : State) (p : Nat) (v : CsiPort) (i : Nat) : (s.setCsi p v).fendAt i = s.fendAt i := by unfold State.fendAt; simp
@[simp] theorem State.setCsi_t0At (s : State) (p : Nat) (v : CsiPort) (i : Nat) : (s.setCsi p v).t0At i = s.t0At i := by unfold State.t0At; simp
@[simp] theorem State.setCsi_loopAt (s : State) (p : Nat) (v : CsiPort) (i : Nat) : (s.setCsi p v).loopAt i = s.loopAt i := by unfold State.loopAt; simp
@[simp] theorem State.setCsi_coreAt (s : State) (p : Nat) (v : CsiPort) (i : Nat) : (s.setCsi p v).coreAt i = s.coreAt i := by unfold State.coreAt; simp
@[simp] theorem State.setCsi_rtrAt (s : State) (p : Nat) (v : CsiPort) (i : Nat) : (s.setCsi p v).rtrAt i = s.rtrAt i := by unfold State.rtrAt; simp
@[simp] theorem State.setCsi_edgeAt (s : State) (p : Nat) (v : CsiPort) (i : Nat) : (s.setCsi p v).edgeAt i = s.edgeAt i := by unfold State.edgeAt; simp
@[simp] theorem State.setCsi_engAt (s : State) (p : Nat) (v : CsiPort) (i : Nat) : (s.setCsi p v).engAt i = s.engAt i := by unfold State.engAt; simp
@[simp] theorem State.setCsi_binAt (s : State) (p : Nat) (v : CsiPort) (i : Nat) : (s.setCsi p v).binAt i = s.binAt i := by unfold State.binAt; simp
@[simp] theorem State.setCsi_portAt (s : State) (p : Nat) (v : CsiPort) (i : Nat) : (s.setCsi p v).portAt i = s.portAt i := by unfold State.portAt; simp
@[simp] theorem State.setCsi_netAt (s : State) (p : Nat) (v : CsiPort) (i : Nat) : (s.setCsi p v).netAt i = s.netAt i := by unfold State.netAt; simp

/-! ### `setEth` -/

@[simp] theorem State.setEth_rd (s : State) (p : Nat) (v : EthPort) (j : Nat) :
    (s.setEth p v).rd j = s.rd j := State.rd_eq (by simp) j
@[simp] theorem State.setEth_rdN (s : State) (p : Nat) (v : EthPort) (j : Nat) :
    (s.setEth p v).rdN j = s.rdN j := State.rdN_eq (by simp) j
@[simp] theorem State.setEth_fld (s : State) (p : Nat) (v : EthPort) (j hj lj : Nat) :
    (s.setEth p v).fld j hj lj = s.fld j hj lj := State.fld_eq (by simp) j hj lj
@[simp] theorem State.setEth_bit (s : State) (p : Nat) (v : EthPort) (j c : Nat) :
    (s.setEth p v).bit j c = s.bit j c := State.bit_eq (by simp) j c
@[simp] theorem State.setEth_rd64 (s : State) (p : Nat) (v : EthPort) (j : Nat) :
    (s.setEth p v).rd64 j = s.rd64 j := State.rd64_eq (by simp) j
@[simp] theorem State.setEth_blk (s : State) (p : Nat) (v : EthPort) (j : Nat) :
    (s.setEth p v).blk j = s.blk j := State.blk_eq (by simp) j
@[simp] theorem State.setEth_running (s : State) (p : Nat) (v : EthPort) (j : Nat) :
    (s.setEth p v).running j = s.running j := State.running_eq (by simp) j
@[simp] theorem State.setEth_role (s : State) (p : Nat) (v : EthPort) (j : Nat) :
    (s.setEth p v).role j = s.role j := State.role_eq (by simp) j
@[simp] theorem State.setEth_isOwner (s : State) (p : Nat) (v : EthPort) (j : Nat) :
    (s.setEth p v).isOwner j = s.isOwner j := State.isOwner_eq (by simp) j
@[simp] theorem State.setEth_busy (s : State) (p : Nat) (v : EthPort) (j : Nat) :
    (s.setEth p v).busy j = s.busy j := State.busy_eq (by simp) j
@[simp] theorem State.setEth_byte (s : State) (p : Nat) (v : EthPort) (x : Nat) : (s.setEth p v).byte x = s.byte x :=
  State.byte_eq (by simp) (by simp) (by simp) x
@[simp] theorem State.setEth_csiAt (s : State) (p : Nat) (v : EthPort) (i : Nat) : (s.setEth p v).csiAt i = s.csiAt i := by unfold State.csiAt; simp
@[simp] theorem State.setEth_spiAt (s : State) (p : Nat) (v : EthPort) (i : Nat) : (s.setEth p v).spiAt i = s.spiAt i := by unfold State.spiAt; simp
@[simp] theorem State.setEth_wheelAt (s : State) (p : Nat) (v : EthPort) (i : Nat) : (s.setEth p v).wheelAt i = s.wheelAt i := by unfold State.wheelAt; simp
@[simp] theorem State.setEth_canAt (s : State) (p : Nat) (v : EthPort) (i : Nat) : (s.setEth p v).canAt i = s.canAt i := by unfold State.canAt; simp
@[simp] theorem State.setEth_slotAt (s : State) (p : Nat) (v : EthPort) (i : Nat) : (s.setEth p v).slotAt i = s.slotAt i := by unfold State.slotAt; simp
@[simp] theorem State.setEth_fendAt (s : State) (p : Nat) (v : EthPort) (i : Nat) : (s.setEth p v).fendAt i = s.fendAt i := by unfold State.fendAt; simp
@[simp] theorem State.setEth_t0At (s : State) (p : Nat) (v : EthPort) (i : Nat) : (s.setEth p v).t0At i = s.t0At i := by unfold State.t0At; simp
@[simp] theorem State.setEth_loopAt (s : State) (p : Nat) (v : EthPort) (i : Nat) : (s.setEth p v).loopAt i = s.loopAt i := by unfold State.loopAt; simp
@[simp] theorem State.setEth_coreAt (s : State) (p : Nat) (v : EthPort) (i : Nat) : (s.setEth p v).coreAt i = s.coreAt i := by unfold State.coreAt; simp
@[simp] theorem State.setEth_rtrAt (s : State) (p : Nat) (v : EthPort) (i : Nat) : (s.setEth p v).rtrAt i = s.rtrAt i := by unfold State.rtrAt; simp
@[simp] theorem State.setEth_edgeAt (s : State) (p : Nat) (v : EthPort) (i : Nat) : (s.setEth p v).edgeAt i = s.edgeAt i := by unfold State.edgeAt; simp
@[simp] theorem State.setEth_engAt (s : State) (p : Nat) (v : EthPort) (i : Nat) : (s.setEth p v).engAt i = s.engAt i := by unfold State.engAt; simp
@[simp] theorem State.setEth_binAt (s : State) (p : Nat) (v : EthPort) (i : Nat) : (s.setEth p v).binAt i = s.binAt i := by unfold State.binAt; simp
@[simp] theorem State.setEth_portAt (s : State) (p : Nat) (v : EthPort) (i : Nat) : (s.setEth p v).portAt i = s.portAt i := by unfold State.portAt; simp
@[simp] theorem State.setEth_netAt (s : State) (p : Nat) (v : EthPort) (i : Nat) : (s.setEth p v).netAt i = s.netAt i := by unfold State.netAt; simp

/-! ### `setSpi` -/

@[simp] theorem State.setSpi_rd (s : State) (p : Nat) (v : SpiPort) (j : Nat) :
    (s.setSpi p v).rd j = s.rd j := State.rd_eq (by simp) j
@[simp] theorem State.setSpi_rdN (s : State) (p : Nat) (v : SpiPort) (j : Nat) :
    (s.setSpi p v).rdN j = s.rdN j := State.rdN_eq (by simp) j
@[simp] theorem State.setSpi_fld (s : State) (p : Nat) (v : SpiPort) (j hj lj : Nat) :
    (s.setSpi p v).fld j hj lj = s.fld j hj lj := State.fld_eq (by simp) j hj lj
@[simp] theorem State.setSpi_bit (s : State) (p : Nat) (v : SpiPort) (j c : Nat) :
    (s.setSpi p v).bit j c = s.bit j c := State.bit_eq (by simp) j c
@[simp] theorem State.setSpi_rd64 (s : State) (p : Nat) (v : SpiPort) (j : Nat) :
    (s.setSpi p v).rd64 j = s.rd64 j := State.rd64_eq (by simp) j
@[simp] theorem State.setSpi_blk (s : State) (p : Nat) (v : SpiPort) (j : Nat) :
    (s.setSpi p v).blk j = s.blk j := State.blk_eq (by simp) j
@[simp] theorem State.setSpi_running (s : State) (p : Nat) (v : SpiPort) (j : Nat) :
    (s.setSpi p v).running j = s.running j := State.running_eq (by simp) j
@[simp] theorem State.setSpi_role (s : State) (p : Nat) (v : SpiPort) (j : Nat) :
    (s.setSpi p v).role j = s.role j := State.role_eq (by simp) j
@[simp] theorem State.setSpi_isOwner (s : State) (p : Nat) (v : SpiPort) (j : Nat) :
    (s.setSpi p v).isOwner j = s.isOwner j := State.isOwner_eq (by simp) j
@[simp] theorem State.setSpi_busy (s : State) (p : Nat) (v : SpiPort) (j : Nat) :
    (s.setSpi p v).busy j = s.busy j := State.busy_eq (by simp) j
@[simp] theorem State.setSpi_byte (s : State) (p : Nat) (v : SpiPort) (x : Nat) : (s.setSpi p v).byte x = s.byte x :=
  State.byte_eq (by simp) (by simp) (by simp) x
@[simp] theorem State.setSpi_csiAt (s : State) (p : Nat) (v : SpiPort) (i : Nat) : (s.setSpi p v).csiAt i = s.csiAt i := by unfold State.csiAt; simp
@[simp] theorem State.setSpi_ethAt (s : State) (p : Nat) (v : SpiPort) (i : Nat) : (s.setSpi p v).ethAt i = s.ethAt i := by unfold State.ethAt; simp
@[simp] theorem State.setSpi_wheelAt (s : State) (p : Nat) (v : SpiPort) (i : Nat) : (s.setSpi p v).wheelAt i = s.wheelAt i := by unfold State.wheelAt; simp
@[simp] theorem State.setSpi_canAt (s : State) (p : Nat) (v : SpiPort) (i : Nat) : (s.setSpi p v).canAt i = s.canAt i := by unfold State.canAt; simp
@[simp] theorem State.setSpi_slotAt (s : State) (p : Nat) (v : SpiPort) (i : Nat) : (s.setSpi p v).slotAt i = s.slotAt i := by unfold State.slotAt; simp
@[simp] theorem State.setSpi_fendAt (s : State) (p : Nat) (v : SpiPort) (i : Nat) : (s.setSpi p v).fendAt i = s.fendAt i := by unfold State.fendAt; simp
@[simp] theorem State.setSpi_t0At (s : State) (p : Nat) (v : SpiPort) (i : Nat) : (s.setSpi p v).t0At i = s.t0At i := by unfold State.t0At; simp
@[simp] theorem State.setSpi_loopAt (s : State) (p : Nat) (v : SpiPort) (i : Nat) : (s.setSpi p v).loopAt i = s.loopAt i := by unfold State.loopAt; simp
@[simp] theorem State.setSpi_coreAt (s : State) (p : Nat) (v : SpiPort) (i : Nat) : (s.setSpi p v).coreAt i = s.coreAt i := by unfold State.coreAt; simp
@[simp] theorem State.setSpi_rtrAt (s : State) (p : Nat) (v : SpiPort) (i : Nat) : (s.setSpi p v).rtrAt i = s.rtrAt i := by unfold State.rtrAt; simp
@[simp] theorem State.setSpi_edgeAt (s : State) (p : Nat) (v : SpiPort) (i : Nat) : (s.setSpi p v).edgeAt i = s.edgeAt i := by unfold State.edgeAt; simp
@[simp] theorem State.setSpi_engAt (s : State) (p : Nat) (v : SpiPort) (i : Nat) : (s.setSpi p v).engAt i = s.engAt i := by unfold State.engAt; simp
@[simp] theorem State.setSpi_binAt (s : State) (p : Nat) (v : SpiPort) (i : Nat) : (s.setSpi p v).binAt i = s.binAt i := by unfold State.binAt; simp
@[simp] theorem State.setSpi_portAt (s : State) (p : Nat) (v : SpiPort) (i : Nat) : (s.setSpi p v).portAt i = s.portAt i := by unfold State.portAt; simp
@[simp] theorem State.setSpi_netAt (s : State) (p : Nat) (v : SpiPort) (i : Nat) : (s.setSpi p v).netAt i = s.netAt i := by unfold State.netAt; simp

/-! ### `setWheel` -/

@[simp] theorem State.setWheel_rd (s : State) (p : Nat) (v : WheelIn) (j : Nat) :
    (s.setWheel p v).rd j = s.rd j := State.rd_eq (by simp) j
@[simp] theorem State.setWheel_rdN (s : State) (p : Nat) (v : WheelIn) (j : Nat) :
    (s.setWheel p v).rdN j = s.rdN j := State.rdN_eq (by simp) j
@[simp] theorem State.setWheel_fld (s : State) (p : Nat) (v : WheelIn) (j hj lj : Nat) :
    (s.setWheel p v).fld j hj lj = s.fld j hj lj := State.fld_eq (by simp) j hj lj
@[simp] theorem State.setWheel_bit (s : State) (p : Nat) (v : WheelIn) (j c : Nat) :
    (s.setWheel p v).bit j c = s.bit j c := State.bit_eq (by simp) j c
@[simp] theorem State.setWheel_rd64 (s : State) (p : Nat) (v : WheelIn) (j : Nat) :
    (s.setWheel p v).rd64 j = s.rd64 j := State.rd64_eq (by simp) j
@[simp] theorem State.setWheel_blk (s : State) (p : Nat) (v : WheelIn) (j : Nat) :
    (s.setWheel p v).blk j = s.blk j := State.blk_eq (by simp) j
@[simp] theorem State.setWheel_running (s : State) (p : Nat) (v : WheelIn) (j : Nat) :
    (s.setWheel p v).running j = s.running j := State.running_eq (by simp) j
@[simp] theorem State.setWheel_role (s : State) (p : Nat) (v : WheelIn) (j : Nat) :
    (s.setWheel p v).role j = s.role j := State.role_eq (by simp) j
@[simp] theorem State.setWheel_isOwner (s : State) (p : Nat) (v : WheelIn) (j : Nat) :
    (s.setWheel p v).isOwner j = s.isOwner j := State.isOwner_eq (by simp) j
@[simp] theorem State.setWheel_busy (s : State) (p : Nat) (v : WheelIn) (j : Nat) :
    (s.setWheel p v).busy j = s.busy j := State.busy_eq (by simp) j
@[simp] theorem State.setWheel_byte (s : State) (p : Nat) (v : WheelIn) (x : Nat) : (s.setWheel p v).byte x = s.byte x :=
  State.byte_eq (by simp) (by simp) (by simp) x
@[simp] theorem State.setWheel_csiAt (s : State) (p : Nat) (v : WheelIn) (i : Nat) : (s.setWheel p v).csiAt i = s.csiAt i := by unfold State.csiAt; simp
@[simp] theorem State.setWheel_ethAt (s : State) (p : Nat) (v : WheelIn) (i : Nat) : (s.setWheel p v).ethAt i = s.ethAt i := by unfold State.ethAt; simp
@[simp] theorem State.setWheel_spiAt (s : State) (p : Nat) (v : WheelIn) (i : Nat) : (s.setWheel p v).spiAt i = s.spiAt i := by unfold State.spiAt; simp
@[simp] theorem State.setWheel_canAt (s : State) (p : Nat) (v : WheelIn) (i : Nat) : (s.setWheel p v).canAt i = s.canAt i := by unfold State.canAt; simp
@[simp] theorem State.setWheel_slotAt (s : State) (p : Nat) (v : WheelIn) (i : Nat) : (s.setWheel p v).slotAt i = s.slotAt i := by unfold State.slotAt; simp
@[simp] theorem State.setWheel_fendAt (s : State) (p : Nat) (v : WheelIn) (i : Nat) : (s.setWheel p v).fendAt i = s.fendAt i := by unfold State.fendAt; simp
@[simp] theorem State.setWheel_t0At (s : State) (p : Nat) (v : WheelIn) (i : Nat) : (s.setWheel p v).t0At i = s.t0At i := by unfold State.t0At; simp
@[simp] theorem State.setWheel_loopAt (s : State) (p : Nat) (v : WheelIn) (i : Nat) : (s.setWheel p v).loopAt i = s.loopAt i := by unfold State.loopAt; simp
@[simp] theorem State.setWheel_coreAt (s : State) (p : Nat) (v : WheelIn) (i : Nat) : (s.setWheel p v).coreAt i = s.coreAt i := by unfold State.coreAt; simp
@[simp] theorem State.setWheel_rtrAt (s : State) (p : Nat) (v : WheelIn) (i : Nat) : (s.setWheel p v).rtrAt i = s.rtrAt i := by unfold State.rtrAt; simp
@[simp] theorem State.setWheel_edgeAt (s : State) (p : Nat) (v : WheelIn) (i : Nat) : (s.setWheel p v).edgeAt i = s.edgeAt i := by unfold State.edgeAt; simp
@[simp] theorem State.setWheel_engAt (s : State) (p : Nat) (v : WheelIn) (i : Nat) : (s.setWheel p v).engAt i = s.engAt i := by unfold State.engAt; simp
@[simp] theorem State.setWheel_binAt (s : State) (p : Nat) (v : WheelIn) (i : Nat) : (s.setWheel p v).binAt i = s.binAt i := by unfold State.binAt; simp
@[simp] theorem State.setWheel_portAt (s : State) (p : Nat) (v : WheelIn) (i : Nat) : (s.setWheel p v).portAt i = s.portAt i := by unfold State.portAt; simp
@[simp] theorem State.setWheel_netAt (s : State) (p : Nat) (v : WheelIn) (i : Nat) : (s.setWheel p v).netAt i = s.netAt i := by unfold State.netAt; simp

/-! ### `setCan` -/

@[simp] theorem State.setCan_rd (s : State) (p : Nat) (v : CanCtl) (j : Nat) :
    (s.setCan p v).rd j = s.rd j := State.rd_eq (by simp) j
@[simp] theorem State.setCan_rdN (s : State) (p : Nat) (v : CanCtl) (j : Nat) :
    (s.setCan p v).rdN j = s.rdN j := State.rdN_eq (by simp) j
@[simp] theorem State.setCan_fld (s : State) (p : Nat) (v : CanCtl) (j hj lj : Nat) :
    (s.setCan p v).fld j hj lj = s.fld j hj lj := State.fld_eq (by simp) j hj lj
@[simp] theorem State.setCan_bit (s : State) (p : Nat) (v : CanCtl) (j c : Nat) :
    (s.setCan p v).bit j c = s.bit j c := State.bit_eq (by simp) j c
@[simp] theorem State.setCan_rd64 (s : State) (p : Nat) (v : CanCtl) (j : Nat) :
    (s.setCan p v).rd64 j = s.rd64 j := State.rd64_eq (by simp) j
@[simp] theorem State.setCan_blk (s : State) (p : Nat) (v : CanCtl) (j : Nat) :
    (s.setCan p v).blk j = s.blk j := State.blk_eq (by simp) j
@[simp] theorem State.setCan_running (s : State) (p : Nat) (v : CanCtl) (j : Nat) :
    (s.setCan p v).running j = s.running j := State.running_eq (by simp) j
@[simp] theorem State.setCan_role (s : State) (p : Nat) (v : CanCtl) (j : Nat) :
    (s.setCan p v).role j = s.role j := State.role_eq (by simp) j
@[simp] theorem State.setCan_isOwner (s : State) (p : Nat) (v : CanCtl) (j : Nat) :
    (s.setCan p v).isOwner j = s.isOwner j := State.isOwner_eq (by simp) j
@[simp] theorem State.setCan_busy (s : State) (p : Nat) (v : CanCtl) (j : Nat) :
    (s.setCan p v).busy j = s.busy j := State.busy_eq (by simp) j
@[simp] theorem State.setCan_byte (s : State) (p : Nat) (v : CanCtl) (x : Nat) : (s.setCan p v).byte x = s.byte x :=
  State.byte_eq (by simp) (by simp) (by simp) x
@[simp] theorem State.setCan_csiAt (s : State) (p : Nat) (v : CanCtl) (i : Nat) : (s.setCan p v).csiAt i = s.csiAt i := by unfold State.csiAt; simp
@[simp] theorem State.setCan_ethAt (s : State) (p : Nat) (v : CanCtl) (i : Nat) : (s.setCan p v).ethAt i = s.ethAt i := by unfold State.ethAt; simp
@[simp] theorem State.setCan_spiAt (s : State) (p : Nat) (v : CanCtl) (i : Nat) : (s.setCan p v).spiAt i = s.spiAt i := by unfold State.spiAt; simp
@[simp] theorem State.setCan_wheelAt (s : State) (p : Nat) (v : CanCtl) (i : Nat) : (s.setCan p v).wheelAt i = s.wheelAt i := by unfold State.wheelAt; simp
@[simp] theorem State.setCan_slotAt (s : State) (p : Nat) (v : CanCtl) (i : Nat) : (s.setCan p v).slotAt i = s.slotAt i := by unfold State.slotAt; simp
@[simp] theorem State.setCan_fendAt (s : State) (p : Nat) (v : CanCtl) (i : Nat) : (s.setCan p v).fendAt i = s.fendAt i := by unfold State.fendAt; simp
@[simp] theorem State.setCan_t0At (s : State) (p : Nat) (v : CanCtl) (i : Nat) : (s.setCan p v).t0At i = s.t0At i := by unfold State.t0At; simp
@[simp] theorem State.setCan_loopAt (s : State) (p : Nat) (v : CanCtl) (i : Nat) : (s.setCan p v).loopAt i = s.loopAt i := by unfold State.loopAt; simp
@[simp] theorem State.setCan_coreAt (s : State) (p : Nat) (v : CanCtl) (i : Nat) : (s.setCan p v).coreAt i = s.coreAt i := by unfold State.coreAt; simp
@[simp] theorem State.setCan_rtrAt (s : State) (p : Nat) (v : CanCtl) (i : Nat) : (s.setCan p v).rtrAt i = s.rtrAt i := by unfold State.rtrAt; simp
@[simp] theorem State.setCan_edgeAt (s : State) (p : Nat) (v : CanCtl) (i : Nat) : (s.setCan p v).edgeAt i = s.edgeAt i := by unfold State.edgeAt; simp
@[simp] theorem State.setCan_engAt (s : State) (p : Nat) (v : CanCtl) (i : Nat) : (s.setCan p v).engAt i = s.engAt i := by unfold State.engAt; simp
@[simp] theorem State.setCan_binAt (s : State) (p : Nat) (v : CanCtl) (i : Nat) : (s.setCan p v).binAt i = s.binAt i := by unfold State.binAt; simp
@[simp] theorem State.setCan_portAt (s : State) (p : Nat) (v : CanCtl) (i : Nat) : (s.setCan p v).portAt i = s.portAt i := by unfold State.portAt; simp
@[simp] theorem State.setCan_netAt (s : State) (p : Nat) (v : CanCtl) (i : Nat) : (s.setCan p v).netAt i = s.netAt i := by unfold State.netAt; simp

/-! ### `setSlot` -/

@[simp] theorem State.setSlot_rd (s : State) (p : Nat) (v : CanSlot) (j : Nat) :
    (s.setSlot p v).rd j = s.rd j := State.rd_eq (by simp) j
@[simp] theorem State.setSlot_rdN (s : State) (p : Nat) (v : CanSlot) (j : Nat) :
    (s.setSlot p v).rdN j = s.rdN j := State.rdN_eq (by simp) j
@[simp] theorem State.setSlot_fld (s : State) (p : Nat) (v : CanSlot) (j hj lj : Nat) :
    (s.setSlot p v).fld j hj lj = s.fld j hj lj := State.fld_eq (by simp) j hj lj
@[simp] theorem State.setSlot_bit (s : State) (p : Nat) (v : CanSlot) (j c : Nat) :
    (s.setSlot p v).bit j c = s.bit j c := State.bit_eq (by simp) j c
@[simp] theorem State.setSlot_rd64 (s : State) (p : Nat) (v : CanSlot) (j : Nat) :
    (s.setSlot p v).rd64 j = s.rd64 j := State.rd64_eq (by simp) j
@[simp] theorem State.setSlot_blk (s : State) (p : Nat) (v : CanSlot) (j : Nat) :
    (s.setSlot p v).blk j = s.blk j := State.blk_eq (by simp) j
@[simp] theorem State.setSlot_running (s : State) (p : Nat) (v : CanSlot) (j : Nat) :
    (s.setSlot p v).running j = s.running j := State.running_eq (by simp) j
@[simp] theorem State.setSlot_role (s : State) (p : Nat) (v : CanSlot) (j : Nat) :
    (s.setSlot p v).role j = s.role j := State.role_eq (by simp) j
@[simp] theorem State.setSlot_isOwner (s : State) (p : Nat) (v : CanSlot) (j : Nat) :
    (s.setSlot p v).isOwner j = s.isOwner j := State.isOwner_eq (by simp) j
@[simp] theorem State.setSlot_busy (s : State) (p : Nat) (v : CanSlot) (j : Nat) :
    (s.setSlot p v).busy j = s.busy j := State.busy_eq (by simp) j
@[simp] theorem State.setSlot_byte (s : State) (p : Nat) (v : CanSlot) (x : Nat) : (s.setSlot p v).byte x = s.byte x :=
  State.byte_eq (by simp) (by simp) (by simp) x
@[simp] theorem State.setSlot_csiAt (s : State) (p : Nat) (v : CanSlot) (i : Nat) : (s.setSlot p v).csiAt i = s.csiAt i := by unfold State.csiAt; simp
@[simp] theorem State.setSlot_ethAt (s : State) (p : Nat) (v : CanSlot) (i : Nat) : (s.setSlot p v).ethAt i = s.ethAt i := by unfold State.ethAt; simp
@[simp] theorem State.setSlot_spiAt (s : State) (p : Nat) (v : CanSlot) (i : Nat) : (s.setSlot p v).spiAt i = s.spiAt i := by unfold State.spiAt; simp
@[simp] theorem State.setSlot_wheelAt (s : State) (p : Nat) (v : CanSlot) (i : Nat) : (s.setSlot p v).wheelAt i = s.wheelAt i := by unfold State.wheelAt; simp
@[simp] theorem State.setSlot_canAt (s : State) (p : Nat) (v : CanSlot) (i : Nat) : (s.setSlot p v).canAt i = s.canAt i := by unfold State.canAt; simp
@[simp] theorem State.setSlot_fendAt (s : State) (p : Nat) (v : CanSlot) (i : Nat) : (s.setSlot p v).fendAt i = s.fendAt i := by unfold State.fendAt; simp
@[simp] theorem State.setSlot_t0At (s : State) (p : Nat) (v : CanSlot) (i : Nat) : (s.setSlot p v).t0At i = s.t0At i := by unfold State.t0At; simp
@[simp] theorem State.setSlot_loopAt (s : State) (p : Nat) (v : CanSlot) (i : Nat) : (s.setSlot p v).loopAt i = s.loopAt i := by unfold State.loopAt; simp
@[simp] theorem State.setSlot_coreAt (s : State) (p : Nat) (v : CanSlot) (i : Nat) : (s.setSlot p v).coreAt i = s.coreAt i := by unfold State.coreAt; simp
@[simp] theorem State.setSlot_rtrAt (s : State) (p : Nat) (v : CanSlot) (i : Nat) : (s.setSlot p v).rtrAt i = s.rtrAt i := by unfold State.rtrAt; simp
@[simp] theorem State.setSlot_edgeAt (s : State) (p : Nat) (v : CanSlot) (i : Nat) : (s.setSlot p v).edgeAt i = s.edgeAt i := by unfold State.edgeAt; simp
@[simp] theorem State.setSlot_engAt (s : State) (p : Nat) (v : CanSlot) (i : Nat) : (s.setSlot p v).engAt i = s.engAt i := by unfold State.engAt; simp
@[simp] theorem State.setSlot_binAt (s : State) (p : Nat) (v : CanSlot) (i : Nat) : (s.setSlot p v).binAt i = s.binAt i := by unfold State.binAt; simp
@[simp] theorem State.setSlot_portAt (s : State) (p : Nat) (v : CanSlot) (i : Nat) : (s.setSlot p v).portAt i = s.portAt i := by unfold State.portAt; simp
@[simp] theorem State.setSlot_netAt (s : State) (p : Nat) (v : CanSlot) (i : Nat) : (s.setSlot p v).netAt i = s.netAt i := by unfold State.netAt; simp

/-! ### `setFend` -/

@[simp] theorem State.setFend_rd (s : State) (p : Nat) (v : FendHub) (j : Nat) :
    (s.setFend p v).rd j = s.rd j := State.rd_eq (by simp) j
@[simp] theorem State.setFend_rdN (s : State) (p : Nat) (v : FendHub) (j : Nat) :
    (s.setFend p v).rdN j = s.rdN j := State.rdN_eq (by simp) j
@[simp] theorem State.setFend_fld (s : State) (p : Nat) (v : FendHub) (j hj lj : Nat) :
    (s.setFend p v).fld j hj lj = s.fld j hj lj := State.fld_eq (by simp) j hj lj
@[simp] theorem State.setFend_bit (s : State) (p : Nat) (v : FendHub) (j c : Nat) :
    (s.setFend p v).bit j c = s.bit j c := State.bit_eq (by simp) j c
@[simp] theorem State.setFend_rd64 (s : State) (p : Nat) (v : FendHub) (j : Nat) :
    (s.setFend p v).rd64 j = s.rd64 j := State.rd64_eq (by simp) j
@[simp] theorem State.setFend_blk (s : State) (p : Nat) (v : FendHub) (j : Nat) :
    (s.setFend p v).blk j = s.blk j := State.blk_eq (by simp) j
@[simp] theorem State.setFend_running (s : State) (p : Nat) (v : FendHub) (j : Nat) :
    (s.setFend p v).running j = s.running j := State.running_eq (by simp) j
@[simp] theorem State.setFend_role (s : State) (p : Nat) (v : FendHub) (j : Nat) :
    (s.setFend p v).role j = s.role j := State.role_eq (by simp) j
@[simp] theorem State.setFend_isOwner (s : State) (p : Nat) (v : FendHub) (j : Nat) :
    (s.setFend p v).isOwner j = s.isOwner j := State.isOwner_eq (by simp) j
@[simp] theorem State.setFend_busy (s : State) (p : Nat) (v : FendHub) (j : Nat) :
    (s.setFend p v).busy j = s.busy j := State.busy_eq (by simp) j
@[simp] theorem State.setFend_byte (s : State) (p : Nat) (v : FendHub) (x : Nat) : (s.setFend p v).byte x = s.byte x :=
  State.byte_eq (by simp) (by simp) (by simp) x
@[simp] theorem State.setFend_csiAt (s : State) (p : Nat) (v : FendHub) (i : Nat) : (s.setFend p v).csiAt i = s.csiAt i := by unfold State.csiAt; simp
@[simp] theorem State.setFend_ethAt (s : State) (p : Nat) (v : FendHub) (i : Nat) : (s.setFend p v).ethAt i = s.ethAt i := by unfold State.ethAt; simp
@[simp] theorem State.setFend_spiAt (s : State) (p : Nat) (v : FendHub) (i : Nat) : (s.setFend p v).spiAt i = s.spiAt i := by unfold State.spiAt; simp
@[simp] theorem State.setFend_wheelAt (s : State) (p : Nat) (v : FendHub) (i : Nat) : (s.setFend p v).wheelAt i = s.wheelAt i := by unfold State.wheelAt; simp
@[simp] theorem State.setFend_canAt (s : State) (p : Nat) (v : FendHub) (i : Nat) : (s.setFend p v).canAt i = s.canAt i := by unfold State.canAt; simp
@[simp] theorem State.setFend_slotAt (s : State) (p : Nat) (v : FendHub) (i : Nat) : (s.setFend p v).slotAt i = s.slotAt i := by unfold State.slotAt; simp
@[simp] theorem State.setFend_t0At (s : State) (p : Nat) (v : FendHub) (i : Nat) : (s.setFend p v).t0At i = s.t0At i := by unfold State.t0At; simp
@[simp] theorem State.setFend_loopAt (s : State) (p : Nat) (v : FendHub) (i : Nat) : (s.setFend p v).loopAt i = s.loopAt i := by unfold State.loopAt; simp
@[simp] theorem State.setFend_coreAt (s : State) (p : Nat) (v : FendHub) (i : Nat) : (s.setFend p v).coreAt i = s.coreAt i := by unfold State.coreAt; simp
@[simp] theorem State.setFend_rtrAt (s : State) (p : Nat) (v : FendHub) (i : Nat) : (s.setFend p v).rtrAt i = s.rtrAt i := by unfold State.rtrAt; simp
@[simp] theorem State.setFend_edgeAt (s : State) (p : Nat) (v : FendHub) (i : Nat) : (s.setFend p v).edgeAt i = s.edgeAt i := by unfold State.edgeAt; simp
@[simp] theorem State.setFend_engAt (s : State) (p : Nat) (v : FendHub) (i : Nat) : (s.setFend p v).engAt i = s.engAt i := by unfold State.engAt; simp
@[simp] theorem State.setFend_binAt (s : State) (p : Nat) (v : FendHub) (i : Nat) : (s.setFend p v).binAt i = s.binAt i := by unfold State.binAt; simp
@[simp] theorem State.setFend_portAt (s : State) (p : Nat) (v : FendHub) (i : Nat) : (s.setFend p v).portAt i = s.portAt i := by unfold State.portAt; simp
@[simp] theorem State.setFend_netAt (s : State) (p : Nat) (v : FendHub) (i : Nat) : (s.setFend p v).netAt i = s.netAt i := by unfold State.netAt; simp

/-! ### `setT0` -/

@[simp] theorem State.setT0_rd (s : State) (p : Nat) (v : (Option Nat)) (j : Nat) :
    (s.setT0 p v).rd j = s.rd j := State.rd_eq (by simp) j
@[simp] theorem State.setT0_rdN (s : State) (p : Nat) (v : (Option Nat)) (j : Nat) :
    (s.setT0 p v).rdN j = s.rdN j := State.rdN_eq (by simp) j
@[simp] theorem State.setT0_fld (s : State) (p : Nat) (v : (Option Nat)) (j hj lj : Nat) :
    (s.setT0 p v).fld j hj lj = s.fld j hj lj := State.fld_eq (by simp) j hj lj
@[simp] theorem State.setT0_bit (s : State) (p : Nat) (v : (Option Nat)) (j c : Nat) :
    (s.setT0 p v).bit j c = s.bit j c := State.bit_eq (by simp) j c
@[simp] theorem State.setT0_rd64 (s : State) (p : Nat) (v : (Option Nat)) (j : Nat) :
    (s.setT0 p v).rd64 j = s.rd64 j := State.rd64_eq (by simp) j
@[simp] theorem State.setT0_blk (s : State) (p : Nat) (v : (Option Nat)) (j : Nat) :
    (s.setT0 p v).blk j = s.blk j := State.blk_eq (by simp) j
@[simp] theorem State.setT0_running (s : State) (p : Nat) (v : (Option Nat)) (j : Nat) :
    (s.setT0 p v).running j = s.running j := State.running_eq (by simp) j
@[simp] theorem State.setT0_role (s : State) (p : Nat) (v : (Option Nat)) (j : Nat) :
    (s.setT0 p v).role j = s.role j := State.role_eq (by simp) j
@[simp] theorem State.setT0_isOwner (s : State) (p : Nat) (v : (Option Nat)) (j : Nat) :
    (s.setT0 p v).isOwner j = s.isOwner j := State.isOwner_eq (by simp) j
@[simp] theorem State.setT0_busy (s : State) (p : Nat) (v : (Option Nat)) (j : Nat) :
    (s.setT0 p v).busy j = s.busy j := State.busy_eq (by simp) j
@[simp] theorem State.setT0_byte (s : State) (p : Nat) (v : (Option Nat)) (x : Nat) : (s.setT0 p v).byte x = s.byte x :=
  State.byte_eq (by simp) (by simp) (by simp) x
@[simp] theorem State.setT0_csiAt (s : State) (p : Nat) (v : (Option Nat)) (i : Nat) : (s.setT0 p v).csiAt i = s.csiAt i := by unfold State.csiAt; simp
@[simp] theorem State.setT0_ethAt (s : State) (p : Nat) (v : (Option Nat)) (i : Nat) : (s.setT0 p v).ethAt i = s.ethAt i := by unfold State.ethAt; simp
@[simp] theorem State.setT0_spiAt (s : State) (p : Nat) (v : (Option Nat)) (i : Nat) : (s.setT0 p v).spiAt i = s.spiAt i := by unfold State.spiAt; simp
@[simp] theorem State.setT0_wheelAt (s : State) (p : Nat) (v : (Option Nat)) (i : Nat) : (s.setT0 p v).wheelAt i = s.wheelAt i := by unfold State.wheelAt; simp
@[simp] theorem State.setT0_canAt (s : State) (p : Nat) (v : (Option Nat)) (i : Nat) : (s.setT0 p v).canAt i = s.canAt i := by unfold State.canAt; simp
@[simp] theorem State.setT0_slotAt (s : State) (p : Nat) (v : (Option Nat)) (i : Nat) : (s.setT0 p v).slotAt i = s.slotAt i := by unfold State.slotAt; simp
@[simp] theorem State.setT0_fendAt (s : State) (p : Nat) (v : (Option Nat)) (i : Nat) : (s.setT0 p v).fendAt i = s.fendAt i := by unfold State.fendAt; simp
@[simp] theorem State.setT0_loopAt (s : State) (p : Nat) (v : (Option Nat)) (i : Nat) : (s.setT0 p v).loopAt i = s.loopAt i := by unfold State.loopAt; simp
@[simp] theorem State.setT0_coreAt (s : State) (p : Nat) (v : (Option Nat)) (i : Nat) : (s.setT0 p v).coreAt i = s.coreAt i := by unfold State.coreAt; simp
@[simp] theorem State.setT0_rtrAt (s : State) (p : Nat) (v : (Option Nat)) (i : Nat) : (s.setT0 p v).rtrAt i = s.rtrAt i := by unfold State.rtrAt; simp
@[simp] theorem State.setT0_edgeAt (s : State) (p : Nat) (v : (Option Nat)) (i : Nat) : (s.setT0 p v).edgeAt i = s.edgeAt i := by unfold State.edgeAt; simp
@[simp] theorem State.setT0_engAt (s : State) (p : Nat) (v : (Option Nat)) (i : Nat) : (s.setT0 p v).engAt i = s.engAt i := by unfold State.engAt; simp
@[simp] theorem State.setT0_binAt (s : State) (p : Nat) (v : (Option Nat)) (i : Nat) : (s.setT0 p v).binAt i = s.binAt i := by unfold State.binAt; simp
@[simp] theorem State.setT0_portAt (s : State) (p : Nat) (v : (Option Nat)) (i : Nat) : (s.setT0 p v).portAt i = s.portAt i := by unfold State.portAt; simp
@[simp] theorem State.setT0_netAt (s : State) (p : Nat) (v : (Option Nat)) (i : Nat) : (s.setT0 p v).netAt i = s.netAt i := by unfold State.netAt; simp

/-! ### `setLoop` -/

@[simp] theorem State.setLoop_rd (s : State) (p : Nat) (v : LoopBuf) (j : Nat) :
    (s.setLoop p v).rd j = s.rd j := State.rd_eq (by simp) j
@[simp] theorem State.setLoop_rdN (s : State) (p : Nat) (v : LoopBuf) (j : Nat) :
    (s.setLoop p v).rdN j = s.rdN j := State.rdN_eq (by simp) j
@[simp] theorem State.setLoop_fld (s : State) (p : Nat) (v : LoopBuf) (j hj lj : Nat) :
    (s.setLoop p v).fld j hj lj = s.fld j hj lj := State.fld_eq (by simp) j hj lj
@[simp] theorem State.setLoop_bit (s : State) (p : Nat) (v : LoopBuf) (j c : Nat) :
    (s.setLoop p v).bit j c = s.bit j c := State.bit_eq (by simp) j c
@[simp] theorem State.setLoop_rd64 (s : State) (p : Nat) (v : LoopBuf) (j : Nat) :
    (s.setLoop p v).rd64 j = s.rd64 j := State.rd64_eq (by simp) j
@[simp] theorem State.setLoop_blk (s : State) (p : Nat) (v : LoopBuf) (j : Nat) :
    (s.setLoop p v).blk j = s.blk j := State.blk_eq (by simp) j
@[simp] theorem State.setLoop_running (s : State) (p : Nat) (v : LoopBuf) (j : Nat) :
    (s.setLoop p v).running j = s.running j := State.running_eq (by simp) j
@[simp] theorem State.setLoop_role (s : State) (p : Nat) (v : LoopBuf) (j : Nat) :
    (s.setLoop p v).role j = s.role j := State.role_eq (by simp) j
@[simp] theorem State.setLoop_isOwner (s : State) (p : Nat) (v : LoopBuf) (j : Nat) :
    (s.setLoop p v).isOwner j = s.isOwner j := State.isOwner_eq (by simp) j
@[simp] theorem State.setLoop_busy (s : State) (p : Nat) (v : LoopBuf) (j : Nat) :
    (s.setLoop p v).busy j = s.busy j := State.busy_eq (by simp) j
@[simp] theorem State.setLoop_byte (s : State) (p : Nat) (v : LoopBuf) (x : Nat) : (s.setLoop p v).byte x = s.byte x :=
  State.byte_eq (by simp) (by simp) (by simp) x
@[simp] theorem State.setLoop_csiAt (s : State) (p : Nat) (v : LoopBuf) (i : Nat) : (s.setLoop p v).csiAt i = s.csiAt i := by unfold State.csiAt; simp
@[simp] theorem State.setLoop_ethAt (s : State) (p : Nat) (v : LoopBuf) (i : Nat) : (s.setLoop p v).ethAt i = s.ethAt i := by unfold State.ethAt; simp
@[simp] theorem State.setLoop_spiAt (s : State) (p : Nat) (v : LoopBuf) (i : Nat) : (s.setLoop p v).spiAt i = s.spiAt i := by unfold State.spiAt; simp
@[simp] theorem State.setLoop_wheelAt (s : State) (p : Nat) (v : LoopBuf) (i : Nat) : (s.setLoop p v).wheelAt i = s.wheelAt i := by unfold State.wheelAt; simp
@[simp] theorem State.setLoop_canAt (s : State) (p : Nat) (v : LoopBuf) (i : Nat) : (s.setLoop p v).canAt i = s.canAt i := by unfold State.canAt; simp
@[simp] theorem State.setLoop_slotAt (s : State) (p : Nat) (v : LoopBuf) (i : Nat) : (s.setLoop p v).slotAt i = s.slotAt i := by unfold State.slotAt; simp
@[simp] theorem State.setLoop_fendAt (s : State) (p : Nat) (v : LoopBuf) (i : Nat) : (s.setLoop p v).fendAt i = s.fendAt i := by unfold State.fendAt; simp
@[simp] theorem State.setLoop_t0At (s : State) (p : Nat) (v : LoopBuf) (i : Nat) : (s.setLoop p v).t0At i = s.t0At i := by unfold State.t0At; simp
@[simp] theorem State.setLoop_coreAt (s : State) (p : Nat) (v : LoopBuf) (i : Nat) : (s.setLoop p v).coreAt i = s.coreAt i := by unfold State.coreAt; simp
@[simp] theorem State.setLoop_rtrAt (s : State) (p : Nat) (v : LoopBuf) (i : Nat) : (s.setLoop p v).rtrAt i = s.rtrAt i := by unfold State.rtrAt; simp
@[simp] theorem State.setLoop_edgeAt (s : State) (p : Nat) (v : LoopBuf) (i : Nat) : (s.setLoop p v).edgeAt i = s.edgeAt i := by unfold State.edgeAt; simp
@[simp] theorem State.setLoop_engAt (s : State) (p : Nat) (v : LoopBuf) (i : Nat) : (s.setLoop p v).engAt i = s.engAt i := by unfold State.engAt; simp
@[simp] theorem State.setLoop_binAt (s : State) (p : Nat) (v : LoopBuf) (i : Nat) : (s.setLoop p v).binAt i = s.binAt i := by unfold State.binAt; simp
@[simp] theorem State.setLoop_portAt (s : State) (p : Nat) (v : LoopBuf) (i : Nat) : (s.setLoop p v).portAt i = s.portAt i := by unfold State.portAt; simp
@[simp] theorem State.setLoop_netAt (s : State) (p : Nat) (v : LoopBuf) (i : Nat) : (s.setLoop p v).netAt i = s.netAt i := by unfold State.netAt; simp

/-! ### `setCore` -/

@[simp] theorem State.setCore_rd (s : State) (p : Nat) (v : Core) (j : Nat) :
    (s.setCore p v).rd j = s.rd j := State.rd_eq (by simp) j
@[simp] theorem State.setCore_rdN (s : State) (p : Nat) (v : Core) (j : Nat) :
    (s.setCore p v).rdN j = s.rdN j := State.rdN_eq (by simp) j
@[simp] theorem State.setCore_fld (s : State) (p : Nat) (v : Core) (j hj lj : Nat) :
    (s.setCore p v).fld j hj lj = s.fld j hj lj := State.fld_eq (by simp) j hj lj
@[simp] theorem State.setCore_bit (s : State) (p : Nat) (v : Core) (j c : Nat) :
    (s.setCore p v).bit j c = s.bit j c := State.bit_eq (by simp) j c
@[simp] theorem State.setCore_rd64 (s : State) (p : Nat) (v : Core) (j : Nat) :
    (s.setCore p v).rd64 j = s.rd64 j := State.rd64_eq (by simp) j
@[simp] theorem State.setCore_blk (s : State) (p : Nat) (v : Core) (j : Nat) :
    (s.setCore p v).blk j = s.blk j := State.blk_eq (by simp) j
@[simp] theorem State.setCore_running (s : State) (p : Nat) (v : Core) (j : Nat) :
    (s.setCore p v).running j = s.running j := State.running_eq (by simp) j
@[simp] theorem State.setCore_role (s : State) (p : Nat) (v : Core) (j : Nat) :
    (s.setCore p v).role j = s.role j := State.role_eq (by simp) j
@[simp] theorem State.setCore_isOwner (s : State) (p : Nat) (v : Core) (j : Nat) :
    (s.setCore p v).isOwner j = s.isOwner j := State.isOwner_eq (by simp) j
@[simp] theorem State.setCore_busy (s : State) (p : Nat) (v : Core) (j : Nat) :
    (s.setCore p v).busy j = s.busy j := State.busy_eq (by simp) j
@[simp] theorem State.setCore_byte (s : State) (p : Nat) (v : Core) (x : Nat) : (s.setCore p v).byte x = s.byte x :=
  State.byte_eq (by simp) (by simp) (by simp) x
@[simp] theorem State.setCore_csiAt (s : State) (p : Nat) (v : Core) (i : Nat) : (s.setCore p v).csiAt i = s.csiAt i := by unfold State.csiAt; simp
@[simp] theorem State.setCore_ethAt (s : State) (p : Nat) (v : Core) (i : Nat) : (s.setCore p v).ethAt i = s.ethAt i := by unfold State.ethAt; simp
@[simp] theorem State.setCore_spiAt (s : State) (p : Nat) (v : Core) (i : Nat) : (s.setCore p v).spiAt i = s.spiAt i := by unfold State.spiAt; simp
@[simp] theorem State.setCore_wheelAt (s : State) (p : Nat) (v : Core) (i : Nat) : (s.setCore p v).wheelAt i = s.wheelAt i := by unfold State.wheelAt; simp
@[simp] theorem State.setCore_canAt (s : State) (p : Nat) (v : Core) (i : Nat) : (s.setCore p v).canAt i = s.canAt i := by unfold State.canAt; simp
@[simp] theorem State.setCore_slotAt (s : State) (p : Nat) (v : Core) (i : Nat) : (s.setCore p v).slotAt i = s.slotAt i := by unfold State.slotAt; simp
@[simp] theorem State.setCore_fendAt (s : State) (p : Nat) (v : Core) (i : Nat) : (s.setCore p v).fendAt i = s.fendAt i := by unfold State.fendAt; simp
@[simp] theorem State.setCore_t0At (s : State) (p : Nat) (v : Core) (i : Nat) : (s.setCore p v).t0At i = s.t0At i := by unfold State.t0At; simp
@[simp] theorem State.setCore_loopAt (s : State) (p : Nat) (v : Core) (i : Nat) : (s.setCore p v).loopAt i = s.loopAt i := by unfold State.loopAt; simp
@[simp] theorem State.setCore_rtrAt (s : State) (p : Nat) (v : Core) (i : Nat) : (s.setCore p v).rtrAt i = s.rtrAt i := by unfold State.rtrAt; simp
@[simp] theorem State.setCore_edgeAt (s : State) (p : Nat) (v : Core) (i : Nat) : (s.setCore p v).edgeAt i = s.edgeAt i := by unfold State.edgeAt; simp
@[simp] theorem State.setCore_engAt (s : State) (p : Nat) (v : Core) (i : Nat) : (s.setCore p v).engAt i = s.engAt i := by unfold State.engAt; simp
@[simp] theorem State.setCore_binAt (s : State) (p : Nat) (v : Core) (i : Nat) : (s.setCore p v).binAt i = s.binAt i := by unfold State.binAt; simp
@[simp] theorem State.setCore_portAt (s : State) (p : Nat) (v : Core) (i : Nat) : (s.setCore p v).portAt i = s.portAt i := by unfold State.portAt; simp
@[simp] theorem State.setCore_netAt (s : State) (p : Nat) (v : Core) (i : Nat) : (s.setCore p v).netAt i = s.netAt i := by unfold State.netAt; simp

/-! ### `setRtr` -/

@[simp] theorem State.setRtr_rd (s : State) (p : Nat) (v : Router) (j : Nat) :
    (s.setRtr p v).rd j = s.rd j := State.rd_eq (by simp) j
@[simp] theorem State.setRtr_rdN (s : State) (p : Nat) (v : Router) (j : Nat) :
    (s.setRtr p v).rdN j = s.rdN j := State.rdN_eq (by simp) j
@[simp] theorem State.setRtr_fld (s : State) (p : Nat) (v : Router) (j hj lj : Nat) :
    (s.setRtr p v).fld j hj lj = s.fld j hj lj := State.fld_eq (by simp) j hj lj
@[simp] theorem State.setRtr_bit (s : State) (p : Nat) (v : Router) (j c : Nat) :
    (s.setRtr p v).bit j c = s.bit j c := State.bit_eq (by simp) j c
@[simp] theorem State.setRtr_rd64 (s : State) (p : Nat) (v : Router) (j : Nat) :
    (s.setRtr p v).rd64 j = s.rd64 j := State.rd64_eq (by simp) j
@[simp] theorem State.setRtr_blk (s : State) (p : Nat) (v : Router) (j : Nat) :
    (s.setRtr p v).blk j = s.blk j := State.blk_eq (by simp) j
@[simp] theorem State.setRtr_running (s : State) (p : Nat) (v : Router) (j : Nat) :
    (s.setRtr p v).running j = s.running j := State.running_eq (by simp) j
@[simp] theorem State.setRtr_role (s : State) (p : Nat) (v : Router) (j : Nat) :
    (s.setRtr p v).role j = s.role j := State.role_eq (by simp) j
@[simp] theorem State.setRtr_isOwner (s : State) (p : Nat) (v : Router) (j : Nat) :
    (s.setRtr p v).isOwner j = s.isOwner j := State.isOwner_eq (by simp) j
@[simp] theorem State.setRtr_busy (s : State) (p : Nat) (v : Router) (j : Nat) :
    (s.setRtr p v).busy j = s.busy j := State.busy_eq (by simp) j
@[simp] theorem State.setRtr_byte (s : State) (p : Nat) (v : Router) (x : Nat) : (s.setRtr p v).byte x = s.byte x :=
  State.byte_eq (by simp) (by simp) (by simp) x
@[simp] theorem State.setRtr_csiAt (s : State) (p : Nat) (v : Router) (i : Nat) : (s.setRtr p v).csiAt i = s.csiAt i := by unfold State.csiAt; simp
@[simp] theorem State.setRtr_ethAt (s : State) (p : Nat) (v : Router) (i : Nat) : (s.setRtr p v).ethAt i = s.ethAt i := by unfold State.ethAt; simp
@[simp] theorem State.setRtr_spiAt (s : State) (p : Nat) (v : Router) (i : Nat) : (s.setRtr p v).spiAt i = s.spiAt i := by unfold State.spiAt; simp
@[simp] theorem State.setRtr_wheelAt (s : State) (p : Nat) (v : Router) (i : Nat) : (s.setRtr p v).wheelAt i = s.wheelAt i := by unfold State.wheelAt; simp
@[simp] theorem State.setRtr_canAt (s : State) (p : Nat) (v : Router) (i : Nat) : (s.setRtr p v).canAt i = s.canAt i := by unfold State.canAt; simp
@[simp] theorem State.setRtr_slotAt (s : State) (p : Nat) (v : Router) (i : Nat) : (s.setRtr p v).slotAt i = s.slotAt i := by unfold State.slotAt; simp
@[simp] theorem State.setRtr_fendAt (s : State) (p : Nat) (v : Router) (i : Nat) : (s.setRtr p v).fendAt i = s.fendAt i := by unfold State.fendAt; simp
@[simp] theorem State.setRtr_t0At (s : State) (p : Nat) (v : Router) (i : Nat) : (s.setRtr p v).t0At i = s.t0At i := by unfold State.t0At; simp
@[simp] theorem State.setRtr_loopAt (s : State) (p : Nat) (v : Router) (i : Nat) : (s.setRtr p v).loopAt i = s.loopAt i := by unfold State.loopAt; simp
@[simp] theorem State.setRtr_coreAt (s : State) (p : Nat) (v : Router) (i : Nat) : (s.setRtr p v).coreAt i = s.coreAt i := by unfold State.coreAt; simp
@[simp] theorem State.setRtr_edgeAt (s : State) (p : Nat) (v : Router) (i : Nat) : (s.setRtr p v).edgeAt i = s.edgeAt i := by unfold State.edgeAt; simp
@[simp] theorem State.setRtr_engAt (s : State) (p : Nat) (v : Router) (i : Nat) : (s.setRtr p v).engAt i = s.engAt i := by unfold State.engAt; simp
@[simp] theorem State.setRtr_binAt (s : State) (p : Nat) (v : Router) (i : Nat) : (s.setRtr p v).binAt i = s.binAt i := by unfold State.binAt; simp
@[simp] theorem State.setRtr_portAt (s : State) (p : Nat) (v : Router) (i : Nat) : (s.setRtr p v).portAt i = s.portAt i := by unfold State.portAt; simp
@[simp] theorem State.setRtr_netAt (s : State) (p : Nat) (v : Router) (i : Nat) : (s.setRtr p v).netAt i = s.netAt i := by unfold State.netAt; simp

/-! ### `setEdge` -/

@[simp] theorem State.setEdge_rd (s : State) (p : Nat) (v : Edge) (j : Nat) :
    (s.setEdge p v).rd j = s.rd j := State.rd_eq (by simp) j
@[simp] theorem State.setEdge_rdN (s : State) (p : Nat) (v : Edge) (j : Nat) :
    (s.setEdge p v).rdN j = s.rdN j := State.rdN_eq (by simp) j
@[simp] theorem State.setEdge_fld (s : State) (p : Nat) (v : Edge) (j hj lj : Nat) :
    (s.setEdge p v).fld j hj lj = s.fld j hj lj := State.fld_eq (by simp) j hj lj
@[simp] theorem State.setEdge_bit (s : State) (p : Nat) (v : Edge) (j c : Nat) :
    (s.setEdge p v).bit j c = s.bit j c := State.bit_eq (by simp) j c
@[simp] theorem State.setEdge_rd64 (s : State) (p : Nat) (v : Edge) (j : Nat) :
    (s.setEdge p v).rd64 j = s.rd64 j := State.rd64_eq (by simp) j
@[simp] theorem State.setEdge_blk (s : State) (p : Nat) (v : Edge) (j : Nat) :
    (s.setEdge p v).blk j = s.blk j := State.blk_eq (by simp) j
@[simp] theorem State.setEdge_running (s : State) (p : Nat) (v : Edge) (j : Nat) :
    (s.setEdge p v).running j = s.running j := State.running_eq (by simp) j
@[simp] theorem State.setEdge_role (s : State) (p : Nat) (v : Edge) (j : Nat) :
    (s.setEdge p v).role j = s.role j := State.role_eq (by simp) j
@[simp] theorem State.setEdge_isOwner (s : State) (p : Nat) (v : Edge) (j : Nat) :
    (s.setEdge p v).isOwner j = s.isOwner j := State.isOwner_eq (by simp) j
@[simp] theorem State.setEdge_busy (s : State) (p : Nat) (v : Edge) (j : Nat) :
    (s.setEdge p v).busy j = s.busy j := State.busy_eq (by simp) j
@[simp] theorem State.setEdge_byte (s : State) (p : Nat) (v : Edge) (x : Nat) : (s.setEdge p v).byte x = s.byte x :=
  State.byte_eq (by simp) (by simp) (by simp) x
@[simp] theorem State.setEdge_csiAt (s : State) (p : Nat) (v : Edge) (i : Nat) : (s.setEdge p v).csiAt i = s.csiAt i := by unfold State.csiAt; simp
@[simp] theorem State.setEdge_ethAt (s : State) (p : Nat) (v : Edge) (i : Nat) : (s.setEdge p v).ethAt i = s.ethAt i := by unfold State.ethAt; simp
@[simp] theorem State.setEdge_spiAt (s : State) (p : Nat) (v : Edge) (i : Nat) : (s.setEdge p v).spiAt i = s.spiAt i := by unfold State.spiAt; simp
@[simp] theorem State.setEdge_wheelAt (s : State) (p : Nat) (v : Edge) (i : Nat) : (s.setEdge p v).wheelAt i = s.wheelAt i := by unfold State.wheelAt; simp
@[simp] theorem State.setEdge_canAt (s : State) (p : Nat) (v : Edge) (i : Nat) : (s.setEdge p v).canAt i = s.canAt i := by unfold State.canAt; simp
@[simp] theorem State.setEdge_slotAt (s : State) (p : Nat) (v : Edge) (i : Nat) : (s.setEdge p v).slotAt i = s.slotAt i := by unfold State.slotAt; simp
@[simp] theorem State.setEdge_fendAt (s : State) (p : Nat) (v : Edge) (i : Nat) : (s.setEdge p v).fendAt i = s.fendAt i := by unfold State.fendAt; simp
@[simp] theorem State.setEdge_t0At (s : State) (p : Nat) (v : Edge) (i : Nat) : (s.setEdge p v).t0At i = s.t0At i := by unfold State.t0At; simp
@[simp] theorem State.setEdge_loopAt (s : State) (p : Nat) (v : Edge) (i : Nat) : (s.setEdge p v).loopAt i = s.loopAt i := by unfold State.loopAt; simp
@[simp] theorem State.setEdge_coreAt (s : State) (p : Nat) (v : Edge) (i : Nat) : (s.setEdge p v).coreAt i = s.coreAt i := by unfold State.coreAt; simp
@[simp] theorem State.setEdge_rtrAt (s : State) (p : Nat) (v : Edge) (i : Nat) : (s.setEdge p v).rtrAt i = s.rtrAt i := by unfold State.rtrAt; simp
@[simp] theorem State.setEdge_engAt (s : State) (p : Nat) (v : Edge) (i : Nat) : (s.setEdge p v).engAt i = s.engAt i := by unfold State.engAt; simp
@[simp] theorem State.setEdge_binAt (s : State) (p : Nat) (v : Edge) (i : Nat) : (s.setEdge p v).binAt i = s.binAt i := by unfold State.binAt; simp
@[simp] theorem State.setEdge_portAt (s : State) (p : Nat) (v : Edge) (i : Nat) : (s.setEdge p v).portAt i = s.portAt i := by unfold State.portAt; simp
@[simp] theorem State.setEdge_netAt (s : State) (p : Nat) (v : Edge) (i : Nat) : (s.setEdge p v).netAt i = s.netAt i := by unfold State.netAt; simp

/-! ### `setEng` -/

@[simp] theorem State.setEng_rd (s : State) (p : Nat) (v : Engine) (j : Nat) :
    (s.setEng p v).rd j = s.rd j := State.rd_eq (by simp) j
@[simp] theorem State.setEng_rdN (s : State) (p : Nat) (v : Engine) (j : Nat) :
    (s.setEng p v).rdN j = s.rdN j := State.rdN_eq (by simp) j
@[simp] theorem State.setEng_fld (s : State) (p : Nat) (v : Engine) (j hj lj : Nat) :
    (s.setEng p v).fld j hj lj = s.fld j hj lj := State.fld_eq (by simp) j hj lj
@[simp] theorem State.setEng_bit (s : State) (p : Nat) (v : Engine) (j c : Nat) :
    (s.setEng p v).bit j c = s.bit j c := State.bit_eq (by simp) j c
@[simp] theorem State.setEng_rd64 (s : State) (p : Nat) (v : Engine) (j : Nat) :
    (s.setEng p v).rd64 j = s.rd64 j := State.rd64_eq (by simp) j
@[simp] theorem State.setEng_blk (s : State) (p : Nat) (v : Engine) (j : Nat) :
    (s.setEng p v).blk j = s.blk j := State.blk_eq (by simp) j
@[simp] theorem State.setEng_running (s : State) (p : Nat) (v : Engine) (j : Nat) :
    (s.setEng p v).running j = s.running j := State.running_eq (by simp) j
@[simp] theorem State.setEng_role (s : State) (p : Nat) (v : Engine) (j : Nat) :
    (s.setEng p v).role j = s.role j := State.role_eq (by simp) j
@[simp] theorem State.setEng_isOwner (s : State) (p : Nat) (v : Engine) (j : Nat) :
    (s.setEng p v).isOwner j = s.isOwner j := State.isOwner_eq (by simp) j
@[simp] theorem State.setEng_busy (s : State) (p : Nat) (v : Engine) (j : Nat) :
    (s.setEng p v).busy j = s.busy j := State.busy_eq (by simp) j
@[simp] theorem State.setEng_byte (s : State) (p : Nat) (v : Engine) (x : Nat) : (s.setEng p v).byte x = s.byte x :=
  State.byte_eq (by simp) (by simp) (by simp) x
@[simp] theorem State.setEng_csiAt (s : State) (p : Nat) (v : Engine) (i : Nat) : (s.setEng p v).csiAt i = s.csiAt i := by unfold State.csiAt; simp
@[simp] theorem State.setEng_ethAt (s : State) (p : Nat) (v : Engine) (i : Nat) : (s.setEng p v).ethAt i = s.ethAt i := by unfold State.ethAt; simp
@[simp] theorem State.setEng_spiAt (s : State) (p : Nat) (v : Engine) (i : Nat) : (s.setEng p v).spiAt i = s.spiAt i := by unfold State.spiAt; simp
@[simp] theorem State.setEng_wheelAt (s : State) (p : Nat) (v : Engine) (i : Nat) : (s.setEng p v).wheelAt i = s.wheelAt i := by unfold State.wheelAt; simp
@[simp] theorem State.setEng_canAt (s : State) (p : Nat) (v : Engine) (i : Nat) : (s.setEng p v).canAt i = s.canAt i := by unfold State.canAt; simp
@[simp] theorem State.setEng_slotAt (s : State) (p : Nat) (v : Engine) (i : Nat) : (s.setEng p v).slotAt i = s.slotAt i := by unfold State.slotAt; simp
@[simp] theorem State.setEng_fendAt (s : State) (p : Nat) (v : Engine) (i : Nat) : (s.setEng p v).fendAt i = s.fendAt i := by unfold State.fendAt; simp
@[simp] theorem State.setEng_t0At (s : State) (p : Nat) (v : Engine) (i : Nat) : (s.setEng p v).t0At i = s.t0At i := by unfold State.t0At; simp
@[simp] theorem State.setEng_loopAt (s : State) (p : Nat) (v : Engine) (i : Nat) : (s.setEng p v).loopAt i = s.loopAt i := by unfold State.loopAt; simp
@[simp] theorem State.setEng_coreAt (s : State) (p : Nat) (v : Engine) (i : Nat) : (s.setEng p v).coreAt i = s.coreAt i := by unfold State.coreAt; simp
@[simp] theorem State.setEng_rtrAt (s : State) (p : Nat) (v : Engine) (i : Nat) : (s.setEng p v).rtrAt i = s.rtrAt i := by unfold State.rtrAt; simp
@[simp] theorem State.setEng_edgeAt (s : State) (p : Nat) (v : Engine) (i : Nat) : (s.setEng p v).edgeAt i = s.edgeAt i := by unfold State.edgeAt; simp
@[simp] theorem State.setEng_binAt (s : State) (p : Nat) (v : Engine) (i : Nat) : (s.setEng p v).binAt i = s.binAt i := by unfold State.binAt; simp
@[simp] theorem State.setEng_portAt (s : State) (p : Nat) (v : Engine) (i : Nat) : (s.setEng p v).portAt i = s.portAt i := by unfold State.portAt; simp
@[simp] theorem State.setEng_netAt (s : State) (p : Nat) (v : Engine) (i : Nat) : (s.setEng p v).netAt i = s.netAt i := by unfold State.netAt; simp

/-! ### `setBin` -/

@[simp] theorem State.setBin_rd (s : State) (p : Nat) (v : BinUnit) (j : Nat) :
    (s.setBin p v).rd j = s.rd j := State.rd_eq (by simp) j
@[simp] theorem State.setBin_rdN (s : State) (p : Nat) (v : BinUnit) (j : Nat) :
    (s.setBin p v).rdN j = s.rdN j := State.rdN_eq (by simp) j
@[simp] theorem State.setBin_fld (s : State) (p : Nat) (v : BinUnit) (j hj lj : Nat) :
    (s.setBin p v).fld j hj lj = s.fld j hj lj := State.fld_eq (by simp) j hj lj
@[simp] theorem State.setBin_bit (s : State) (p : Nat) (v : BinUnit) (j c : Nat) :
    (s.setBin p v).bit j c = s.bit j c := State.bit_eq (by simp) j c
@[simp] theorem State.setBin_rd64 (s : State) (p : Nat) (v : BinUnit) (j : Nat) :
    (s.setBin p v).rd64 j = s.rd64 j := State.rd64_eq (by simp) j
@[simp] theorem State.setBin_blk (s : State) (p : Nat) (v : BinUnit) (j : Nat) :
    (s.setBin p v).blk j = s.blk j := State.blk_eq (by simp) j
@[simp] theorem State.setBin_running (s : State) (p : Nat) (v : BinUnit) (j : Nat) :
    (s.setBin p v).running j = s.running j := State.running_eq (by simp) j
@[simp] theorem State.setBin_role (s : State) (p : Nat) (v : BinUnit) (j : Nat) :
    (s.setBin p v).role j = s.role j := State.role_eq (by simp) j
@[simp] theorem State.setBin_isOwner (s : State) (p : Nat) (v : BinUnit) (j : Nat) :
    (s.setBin p v).isOwner j = s.isOwner j := State.isOwner_eq (by simp) j
@[simp] theorem State.setBin_busy (s : State) (p : Nat) (v : BinUnit) (j : Nat) :
    (s.setBin p v).busy j = s.busy j := State.busy_eq (by simp) j
@[simp] theorem State.setBin_byte (s : State) (p : Nat) (v : BinUnit) (x : Nat) : (s.setBin p v).byte x = s.byte x :=
  State.byte_eq (by simp) (by simp) (by simp) x
@[simp] theorem State.setBin_csiAt (s : State) (p : Nat) (v : BinUnit) (i : Nat) : (s.setBin p v).csiAt i = s.csiAt i := by unfold State.csiAt; simp
@[simp] theorem State.setBin_ethAt (s : State) (p : Nat) (v : BinUnit) (i : Nat) : (s.setBin p v).ethAt i = s.ethAt i := by unfold State.ethAt; simp
@[simp] theorem State.setBin_spiAt (s : State) (p : Nat) (v : BinUnit) (i : Nat) : (s.setBin p v).spiAt i = s.spiAt i := by unfold State.spiAt; simp
@[simp] theorem State.setBin_wheelAt (s : State) (p : Nat) (v : BinUnit) (i : Nat) : (s.setBin p v).wheelAt i = s.wheelAt i := by unfold State.wheelAt; simp
@[simp] theorem State.setBin_canAt (s : State) (p : Nat) (v : BinUnit) (i : Nat) : (s.setBin p v).canAt i = s.canAt i := by unfold State.canAt; simp
@[simp] theorem State.setBin_slotAt (s : State) (p : Nat) (v : BinUnit) (i : Nat) : (s.setBin p v).slotAt i = s.slotAt i := by unfold State.slotAt; simp
@[simp] theorem State.setBin_fendAt (s : State) (p : Nat) (v : BinUnit) (i : Nat) : (s.setBin p v).fendAt i = s.fendAt i := by unfold State.fendAt; simp
@[simp] theorem State.setBin_t0At (s : State) (p : Nat) (v : BinUnit) (i : Nat) : (s.setBin p v).t0At i = s.t0At i := by unfold State.t0At; simp
@[simp] theorem State.setBin_loopAt (s : State) (p : Nat) (v : BinUnit) (i : Nat) : (s.setBin p v).loopAt i = s.loopAt i := by unfold State.loopAt; simp
@[simp] theorem State.setBin_coreAt (s : State) (p : Nat) (v : BinUnit) (i : Nat) : (s.setBin p v).coreAt i = s.coreAt i := by unfold State.coreAt; simp
@[simp] theorem State.setBin_rtrAt (s : State) (p : Nat) (v : BinUnit) (i : Nat) : (s.setBin p v).rtrAt i = s.rtrAt i := by unfold State.rtrAt; simp
@[simp] theorem State.setBin_edgeAt (s : State) (p : Nat) (v : BinUnit) (i : Nat) : (s.setBin p v).edgeAt i = s.edgeAt i := by unfold State.edgeAt; simp
@[simp] theorem State.setBin_engAt (s : State) (p : Nat) (v : BinUnit) (i : Nat) : (s.setBin p v).engAt i = s.engAt i := by unfold State.engAt; simp
@[simp] theorem State.setBin_portAt (s : State) (p : Nat) (v : BinUnit) (i : Nat) : (s.setBin p v).portAt i = s.portAt i := by unfold State.portAt; simp
@[simp] theorem State.setBin_netAt (s : State) (p : Nat) (v : BinUnit) (i : Nat) : (s.setBin p v).netAt i = s.netAt i := by unfold State.netAt; simp

/-! ### `setPort` -/

@[simp] theorem State.setPort_rd (s : State) (p : Nat) (v : HostPort) (j : Nat) :
    (s.setPort p v).rd j = s.rd j := State.rd_eq (by simp) j
@[simp] theorem State.setPort_rdN (s : State) (p : Nat) (v : HostPort) (j : Nat) :
    (s.setPort p v).rdN j = s.rdN j := State.rdN_eq (by simp) j
@[simp] theorem State.setPort_fld (s : State) (p : Nat) (v : HostPort) (j hj lj : Nat) :
    (s.setPort p v).fld j hj lj = s.fld j hj lj := State.fld_eq (by simp) j hj lj
@[simp] theorem State.setPort_bit (s : State) (p : Nat) (v : HostPort) (j c : Nat) :
    (s.setPort p v).bit j c = s.bit j c := State.bit_eq (by simp) j c
@[simp] theorem State.setPort_rd64 (s : State) (p : Nat) (v : HostPort) (j : Nat) :
    (s.setPort p v).rd64 j = s.rd64 j := State.rd64_eq (by simp) j
@[simp] theorem State.setPort_blk (s : State) (p : Nat) (v : HostPort) (j : Nat) :
    (s.setPort p v).blk j = s.blk j := State.blk_eq (by simp) j
@[simp] theorem State.setPort_running (s : State) (p : Nat) (v : HostPort) (j : Nat) :
    (s.setPort p v).running j = s.running j := State.running_eq (by simp) j
@[simp] theorem State.setPort_role (s : State) (p : Nat) (v : HostPort) (j : Nat) :
    (s.setPort p v).role j = s.role j := State.role_eq (by simp) j
@[simp] theorem State.setPort_isOwner (s : State) (p : Nat) (v : HostPort) (j : Nat) :
    (s.setPort p v).isOwner j = s.isOwner j := State.isOwner_eq (by simp) j
@[simp] theorem State.setPort_busy (s : State) (p : Nat) (v : HostPort) (j : Nat) :
    (s.setPort p v).busy j = s.busy j := State.busy_eq (by simp) j
@[simp] theorem State.setPort_byte (s : State) (p : Nat) (v : HostPort) (x : Nat) : (s.setPort p v).byte x = s.byte x :=
  State.byte_eq (by simp) (by simp) (by simp) x
@[simp] theorem State.setPort_csiAt (s : State) (p : Nat) (v : HostPort) (i : Nat) : (s.setPort p v).csiAt i = s.csiAt i := by unfold State.csiAt; simp
@[simp] theorem State.setPort_ethAt (s : State) (p : Nat) (v : HostPort) (i : Nat) : (s.setPort p v).ethAt i = s.ethAt i := by unfold State.ethAt; simp
@[simp] theorem State.setPort_spiAt (s : State) (p : Nat) (v : HostPort) (i : Nat) : (s.setPort p v).spiAt i = s.spiAt i := by unfold State.spiAt; simp
@[simp] theorem State.setPort_wheelAt (s : State) (p : Nat) (v : HostPort) (i : Nat) : (s.setPort p v).wheelAt i = s.wheelAt i := by unfold State.wheelAt; simp
@[simp] theorem State.setPort_canAt (s : State) (p : Nat) (v : HostPort) (i : Nat) : (s.setPort p v).canAt i = s.canAt i := by unfold State.canAt; simp
@[simp] theorem State.setPort_slotAt (s : State) (p : Nat) (v : HostPort) (i : Nat) : (s.setPort p v).slotAt i = s.slotAt i := by unfold State.slotAt; simp
@[simp] theorem State.setPort_fendAt (s : State) (p : Nat) (v : HostPort) (i : Nat) : (s.setPort p v).fendAt i = s.fendAt i := by unfold State.fendAt; simp
@[simp] theorem State.setPort_t0At (s : State) (p : Nat) (v : HostPort) (i : Nat) : (s.setPort p v).t0At i = s.t0At i := by unfold State.t0At; simp
@[simp] theorem State.setPort_loopAt (s : State) (p : Nat) (v : HostPort) (i : Nat) : (s.setPort p v).loopAt i = s.loopAt i := by unfold State.loopAt; simp
@[simp] theorem State.setPort_coreAt (s : State) (p : Nat) (v : HostPort) (i : Nat) : (s.setPort p v).coreAt i = s.coreAt i := by unfold State.coreAt; simp
@[simp] theorem State.setPort_rtrAt (s : State) (p : Nat) (v : HostPort) (i : Nat) : (s.setPort p v).rtrAt i = s.rtrAt i := by unfold State.rtrAt; simp
@[simp] theorem State.setPort_edgeAt (s : State) (p : Nat) (v : HostPort) (i : Nat) : (s.setPort p v).edgeAt i = s.edgeAt i := by unfold State.edgeAt; simp
@[simp] theorem State.setPort_engAt (s : State) (p : Nat) (v : HostPort) (i : Nat) : (s.setPort p v).engAt i = s.engAt i := by unfold State.engAt; simp
@[simp] theorem State.setPort_binAt (s : State) (p : Nat) (v : HostPort) (i : Nat) : (s.setPort p v).binAt i = s.binAt i := by unfold State.binAt; simp
@[simp] theorem State.setPort_netAt (s : State) (p : Nat) (v : HostPort) (i : Nat) : (s.setPort p v).netAt i = s.netAt i := by unfold State.netAt; simp

/-! ### `setNet` -/

@[simp] theorem State.setNet_rd (s : State) (p : Nat) (v : NetBase) (j : Nat) :
    (s.setNet p v).rd j = s.rd j := State.rd_eq (by simp) j
@[simp] theorem State.setNet_rdN (s : State) (p : Nat) (v : NetBase) (j : Nat) :
    (s.setNet p v).rdN j = s.rdN j := State.rdN_eq (by simp) j
@[simp] theorem State.setNet_fld (s : State) (p : Nat) (v : NetBase) (j hj lj : Nat) :
    (s.setNet p v).fld j hj lj = s.fld j hj lj := State.fld_eq (by simp) j hj lj
@[simp] theorem State.setNet_bit (s : State) (p : Nat) (v : NetBase) (j c : Nat) :
    (s.setNet p v).bit j c = s.bit j c := State.bit_eq (by simp) j c
@[simp] theorem State.setNet_rd64 (s : State) (p : Nat) (v : NetBase) (j : Nat) :
    (s.setNet p v).rd64 j = s.rd64 j := State.rd64_eq (by simp) j
@[simp] theorem State.setNet_blk (s : State) (p : Nat) (v : NetBase) (j : Nat) :
    (s.setNet p v).blk j = s.blk j := State.blk_eq (by simp) j
@[simp] theorem State.setNet_running (s : State) (p : Nat) (v : NetBase) (j : Nat) :
    (s.setNet p v).running j = s.running j := State.running_eq (by simp) j
@[simp] theorem State.setNet_role (s : State) (p : Nat) (v : NetBase) (j : Nat) :
    (s.setNet p v).role j = s.role j := State.role_eq (by simp) j
@[simp] theorem State.setNet_isOwner (s : State) (p : Nat) (v : NetBase) (j : Nat) :
    (s.setNet p v).isOwner j = s.isOwner j := State.isOwner_eq (by simp) j
@[simp] theorem State.setNet_busy (s : State) (p : Nat) (v : NetBase) (j : Nat) :
    (s.setNet p v).busy j = s.busy j := State.busy_eq (by simp) j
@[simp] theorem State.setNet_byte (s : State) (p : Nat) (v : NetBase) (x : Nat) : (s.setNet p v).byte x = s.byte x :=
  State.byte_eq (by simp) (by simp) (by simp) x
@[simp] theorem State.setNet_csiAt (s : State) (p : Nat) (v : NetBase) (i : Nat) : (s.setNet p v).csiAt i = s.csiAt i := by unfold State.csiAt; simp
@[simp] theorem State.setNet_ethAt (s : State) (p : Nat) (v : NetBase) (i : Nat) : (s.setNet p v).ethAt i = s.ethAt i := by unfold State.ethAt; simp
@[simp] theorem State.setNet_spiAt (s : State) (p : Nat) (v : NetBase) (i : Nat) : (s.setNet p v).spiAt i = s.spiAt i := by unfold State.spiAt; simp
@[simp] theorem State.setNet_wheelAt (s : State) (p : Nat) (v : NetBase) (i : Nat) : (s.setNet p v).wheelAt i = s.wheelAt i := by unfold State.wheelAt; simp
@[simp] theorem State.setNet_canAt (s : State) (p : Nat) (v : NetBase) (i : Nat) : (s.setNet p v).canAt i = s.canAt i := by unfold State.canAt; simp
@[simp] theorem State.setNet_slotAt (s : State) (p : Nat) (v : NetBase) (i : Nat) : (s.setNet p v).slotAt i = s.slotAt i := by unfold State.slotAt; simp
@[simp] theorem State.setNet_fendAt (s : State) (p : Nat) (v : NetBase) (i : Nat) : (s.setNet p v).fendAt i = s.fendAt i := by unfold State.fendAt; simp
@[simp] theorem State.setNet_t0At (s : State) (p : Nat) (v : NetBase) (i : Nat) : (s.setNet p v).t0At i = s.t0At i := by unfold State.t0At; simp
@[simp] theorem State.setNet_loopAt (s : State) (p : Nat) (v : NetBase) (i : Nat) : (s.setNet p v).loopAt i = s.loopAt i := by unfold State.loopAt; simp
@[simp] theorem State.setNet_coreAt (s : State) (p : Nat) (v : NetBase) (i : Nat) : (s.setNet p v).coreAt i = s.coreAt i := by unfold State.coreAt; simp
@[simp] theorem State.setNet_rtrAt (s : State) (p : Nat) (v : NetBase) (i : Nat) : (s.setNet p v).rtrAt i = s.rtrAt i := by unfold State.rtrAt; simp
@[simp] theorem State.setNet_edgeAt (s : State) (p : Nat) (v : NetBase) (i : Nat) : (s.setNet p v).edgeAt i = s.edgeAt i := by unfold State.edgeAt; simp
@[simp] theorem State.setNet_engAt (s : State) (p : Nat) (v : NetBase) (i : Nat) : (s.setNet p v).engAt i = s.engAt i := by unfold State.engAt; simp
@[simp] theorem State.setNet_binAt (s : State) (p : Nat) (v : NetBase) (i : Nat) : (s.setNet p v).binAt i = s.binAt i := by unfold State.binAt; simp
@[simp] theorem State.setNet_portAt (s : State) (p : Nat) (v : NetBase) (i : Nat) : (s.setNet p v).portAt i = s.portAt i := by unfold State.portAt; simp

/-! ### `wr` -/

@[simp] theorem State.wr_byte (s : State) (k : Nat) (v : Word) (x : Nat) : (s.wr k v).byte x = s.byte x :=
  State.byte_eq (by simp) (by simp) (by simp) x
@[simp] theorem State.wr_csiAt (s : State) (k : Nat) (v : Word) (i : Nat) : (s.wr k v).csiAt i = s.csiAt i := by unfold State.csiAt; simp
@[simp] theorem State.wr_ethAt (s : State) (k : Nat) (v : Word) (i : Nat) : (s.wr k v).ethAt i = s.ethAt i := by unfold State.ethAt; simp
@[simp] theorem State.wr_spiAt (s : State) (k : Nat) (v : Word) (i : Nat) : (s.wr k v).spiAt i = s.spiAt i := by unfold State.spiAt; simp
@[simp] theorem State.wr_wheelAt (s : State) (k : Nat) (v : Word) (i : Nat) : (s.wr k v).wheelAt i = s.wheelAt i := by unfold State.wheelAt; simp
@[simp] theorem State.wr_canAt (s : State) (k : Nat) (v : Word) (i : Nat) : (s.wr k v).canAt i = s.canAt i := by unfold State.canAt; simp
@[simp] theorem State.wr_slotAt (s : State) (k : Nat) (v : Word) (i : Nat) : (s.wr k v).slotAt i = s.slotAt i := by unfold State.slotAt; simp
@[simp] theorem State.wr_fendAt (s : State) (k : Nat) (v : Word) (i : Nat) : (s.wr k v).fendAt i = s.fendAt i := by unfold State.fendAt; simp
@[simp] theorem State.wr_t0At (s : State) (k : Nat) (v : Word) (i : Nat) : (s.wr k v).t0At i = s.t0At i := by unfold State.t0At; simp
@[simp] theorem State.wr_loopAt (s : State) (k : Nat) (v : Word) (i : Nat) : (s.wr k v).loopAt i = s.loopAt i := by unfold State.loopAt; simp
@[simp] theorem State.wr_coreAt (s : State) (k : Nat) (v : Word) (i : Nat) : (s.wr k v).coreAt i = s.coreAt i := by unfold State.coreAt; simp
@[simp] theorem State.wr_rtrAt (s : State) (k : Nat) (v : Word) (i : Nat) : (s.wr k v).rtrAt i = s.rtrAt i := by unfold State.rtrAt; simp
@[simp] theorem State.wr_edgeAt (s : State) (k : Nat) (v : Word) (i : Nat) : (s.wr k v).edgeAt i = s.edgeAt i := by unfold State.edgeAt; simp
@[simp] theorem State.wr_engAt (s : State) (k : Nat) (v : Word) (i : Nat) : (s.wr k v).engAt i = s.engAt i := by unfold State.engAt; simp
@[simp] theorem State.wr_binAt (s : State) (k : Nat) (v : Word) (i : Nat) : (s.wr k v).binAt i = s.binAt i := by unfold State.binAt; simp
@[simp] theorem State.wr_portAt (s : State) (k : Nat) (v : Word) (i : Nat) : (s.wr k v).portAt i = s.portAt i := by unfold State.portAt; simp
@[simp] theorem State.wr_netAt (s : State) (k : Nat) (v : Word) (i : Nat) : (s.wr k v).netAt i = s.netAt i := by unfold State.netAt; simp

/-! ### `wrN` -/

@[simp] theorem State.wrN_byte (s : State) (k v : Nat) (x : Nat) : (s.wrN k v).byte x = s.byte x :=
  State.byte_eq (by simp) (by simp) (by simp) x
@[simp] theorem State.wrN_csiAt (s : State) (k v : Nat) (i : Nat) : (s.wrN k v).csiAt i = s.csiAt i := by unfold State.csiAt; simp
@[simp] theorem State.wrN_ethAt (s : State) (k v : Nat) (i : Nat) : (s.wrN k v).ethAt i = s.ethAt i := by unfold State.ethAt; simp
@[simp] theorem State.wrN_spiAt (s : State) (k v : Nat) (i : Nat) : (s.wrN k v).spiAt i = s.spiAt i := by unfold State.spiAt; simp
@[simp] theorem State.wrN_wheelAt (s : State) (k v : Nat) (i : Nat) : (s.wrN k v).wheelAt i = s.wheelAt i := by unfold State.wheelAt; simp
@[simp] theorem State.wrN_canAt (s : State) (k v : Nat) (i : Nat) : (s.wrN k v).canAt i = s.canAt i := by unfold State.canAt; simp
@[simp] theorem State.wrN_slotAt (s : State) (k v : Nat) (i : Nat) : (s.wrN k v).slotAt i = s.slotAt i := by unfold State.slotAt; simp
@[simp] theorem State.wrN_fendAt (s : State) (k v : Nat) (i : Nat) : (s.wrN k v).fendAt i = s.fendAt i := by unfold State.fendAt; simp
@[simp] theorem State.wrN_t0At (s : State) (k v : Nat) (i : Nat) : (s.wrN k v).t0At i = s.t0At i := by unfold State.t0At; simp
@[simp] theorem State.wrN_loopAt (s : State) (k v : Nat) (i : Nat) : (s.wrN k v).loopAt i = s.loopAt i := by unfold State.loopAt; simp
@[simp] theorem State.wrN_coreAt (s : State) (k v : Nat) (i : Nat) : (s.wrN k v).coreAt i = s.coreAt i := by unfold State.coreAt; simp
@[simp] theorem State.wrN_rtrAt (s : State) (k v : Nat) (i : Nat) : (s.wrN k v).rtrAt i = s.rtrAt i := by unfold State.rtrAt; simp
@[simp] theorem State.wrN_edgeAt (s : State) (k v : Nat) (i : Nat) : (s.wrN k v).edgeAt i = s.edgeAt i := by unfold State.edgeAt; simp
@[simp] theorem State.wrN_engAt (s : State) (k v : Nat) (i : Nat) : (s.wrN k v).engAt i = s.engAt i := by unfold State.engAt; simp
@[simp] theorem State.wrN_binAt (s : State) (k v : Nat) (i : Nat) : (s.wrN k v).binAt i = s.binAt i := by unfold State.binAt; simp
@[simp] theorem State.wrN_portAt (s : State) (k v : Nat) (i : Nat) : (s.wrN k v).portAt i = s.portAt i := by unfold State.portAt; simp
@[simp] theorem State.wrN_netAt (s : State) (k v : Nat) (i : Nat) : (s.wrN k v).netAt i = s.netAt i := by unfold State.netAt; simp

/-! ### `setFld` -/

@[simp] theorem State.setFld_byte (s : State) (k hi lo v : Nat) (x : Nat) : (s.setFld k hi lo v).byte x = s.byte x :=
  State.byte_eq (by simp) (by simp) (by simp) x
@[simp] theorem State.setFld_csiAt (s : State) (k hi lo v : Nat) (i : Nat) : (s.setFld k hi lo v).csiAt i = s.csiAt i := by unfold State.csiAt; simp
@[simp] theorem State.setFld_ethAt (s : State) (k hi lo v : Nat) (i : Nat) : (s.setFld k hi lo v).ethAt i = s.ethAt i := by unfold State.ethAt; simp
@[simp] theorem State.setFld_spiAt (s : State) (k hi lo v : Nat) (i : Nat) : (s.setFld k hi lo v).spiAt i = s.spiAt i := by unfold State.spiAt; simp
@[simp] theorem State.setFld_wheelAt (s : State) (k hi lo v : Nat) (i : Nat) : (s.setFld k hi lo v).wheelAt i = s.wheelAt i := by unfold State.wheelAt; simp
@[simp] theorem State.setFld_canAt (s : State) (k hi lo v : Nat) (i : Nat) : (s.setFld k hi lo v).canAt i = s.canAt i := by unfold State.canAt; simp
@[simp] theorem State.setFld_slotAt (s : State) (k hi lo v : Nat) (i : Nat) : (s.setFld k hi lo v).slotAt i = s.slotAt i := by unfold State.slotAt; simp
@[simp] theorem State.setFld_fendAt (s : State) (k hi lo v : Nat) (i : Nat) : (s.setFld k hi lo v).fendAt i = s.fendAt i := by unfold State.fendAt; simp
@[simp] theorem State.setFld_t0At (s : State) (k hi lo v : Nat) (i : Nat) : (s.setFld k hi lo v).t0At i = s.t0At i := by unfold State.t0At; simp
@[simp] theorem State.setFld_loopAt (s : State) (k hi lo v : Nat) (i : Nat) : (s.setFld k hi lo v).loopAt i = s.loopAt i := by unfold State.loopAt; simp
@[simp] theorem State.setFld_coreAt (s : State) (k hi lo v : Nat) (i : Nat) : (s.setFld k hi lo v).coreAt i = s.coreAt i := by unfold State.coreAt; simp
@[simp] theorem State.setFld_rtrAt (s : State) (k hi lo v : Nat) (i : Nat) : (s.setFld k hi lo v).rtrAt i = s.rtrAt i := by unfold State.rtrAt; simp
@[simp] theorem State.setFld_edgeAt (s : State) (k hi lo v : Nat) (i : Nat) : (s.setFld k hi lo v).edgeAt i = s.edgeAt i := by unfold State.edgeAt; simp
@[simp] theorem State.setFld_engAt (s : State) (k hi lo v : Nat) (i : Nat) : (s.setFld k hi lo v).engAt i = s.engAt i := by unfold State.engAt; simp
@[simp] theorem State.setFld_binAt (s : State) (k hi lo v : Nat) (i : Nat) : (s.setFld k hi lo v).binAt i = s.binAt i := by unfold State.binAt; simp
@[simp] theorem State.setFld_portAt (s : State) (k hi lo v : Nat) (i : Nat) : (s.setFld k hi lo v).portAt i = s.portAt i := by unfold State.portAt; simp
@[simp] theorem State.setFld_netAt (s : State) (k hi lo v : Nat) (i : Nat) : (s.setFld k hi lo v).netAt i = s.netAt i := by unfold State.netAt; simp

/-! ### `setBit` -/

@[simp] theorem State.setBit_byte (s : State) (k b : Nat) (v : Bool) (x : Nat) : (s.setBit k b v).byte x = s.byte x :=
  State.byte_eq (by simp) (by simp) (by simp) x
@[simp] theorem State.setBit_csiAt (s : State) (k b : Nat) (v : Bool) (i : Nat) : (s.setBit k b v).csiAt i = s.csiAt i := by unfold State.csiAt; simp
@[simp] theorem State.setBit_ethAt (s : State) (k b : Nat) (v : Bool) (i : Nat) : (s.setBit k b v).ethAt i = s.ethAt i := by unfold State.ethAt; simp
@[simp] theorem State.setBit_spiAt (s : State) (k b : Nat) (v : Bool) (i : Nat) : (s.setBit k b v).spiAt i = s.spiAt i := by unfold State.spiAt; simp
@[simp] theorem State.setBit_wheelAt (s : State) (k b : Nat) (v : Bool) (i : Nat) : (s.setBit k b v).wheelAt i = s.wheelAt i := by unfold State.wheelAt; simp
@[simp] theorem State.setBit_canAt (s : State) (k b : Nat) (v : Bool) (i : Nat) : (s.setBit k b v).canAt i = s.canAt i := by unfold State.canAt; simp
@[simp] theorem State.setBit_slotAt (s : State) (k b : Nat) (v : Bool) (i : Nat) : (s.setBit k b v).slotAt i = s.slotAt i := by unfold State.slotAt; simp
@[simp] theorem State.setBit_fendAt (s : State) (k b : Nat) (v : Bool) (i : Nat) : (s.setBit k b v).fendAt i = s.fendAt i := by unfold State.fendAt; simp
@[simp] theorem State.setBit_t0At (s : State) (k b : Nat) (v : Bool) (i : Nat) : (s.setBit k b v).t0At i = s.t0At i := by unfold State.t0At; simp
@[simp] theorem State.setBit_loopAt (s : State) (k b : Nat) (v : Bool) (i : Nat) : (s.setBit k b v).loopAt i = s.loopAt i := by unfold State.loopAt; simp
@[simp] theorem State.setBit_coreAt (s : State) (k b : Nat) (v : Bool) (i : Nat) : (s.setBit k b v).coreAt i = s.coreAt i := by unfold State.coreAt; simp
@[simp] theorem State.setBit_rtrAt (s : State) (k b : Nat) (v : Bool) (i : Nat) : (s.setBit k b v).rtrAt i = s.rtrAt i := by unfold State.rtrAt; simp
@[simp] theorem State.setBit_edgeAt (s : State) (k b : Nat) (v : Bool) (i : Nat) : (s.setBit k b v).edgeAt i = s.edgeAt i := by unfold State.edgeAt; simp
@[simp] theorem State.setBit_engAt (s : State) (k b : Nat) (v : Bool) (i : Nat) : (s.setBit k b v).engAt i = s.engAt i := by unfold State.engAt; simp
@[simp] theorem State.setBit_binAt (s : State) (k b : Nat) (v : Bool) (i : Nat) : (s.setBit k b v).binAt i = s.binAt i := by unfold State.binAt; simp
@[simp] theorem State.setBit_portAt (s : State) (k b : Nat) (v : Bool) (i : Nat) : (s.setBit k b v).portAt i = s.portAt i := by unfold State.portAt; simp
@[simp] theorem State.setBit_netAt (s : State) (k b : Nat) (v : Bool) (i : Nat) : (s.setBit k b v).netAt i = s.netAt i := by unfold State.netAt; simp

/-! ### `wr64` -/

@[simp] theorem State.wr64_byte (s : State) (k v : Nat) (x : Nat) : (s.wr64 k v).byte x = s.byte x :=
  State.byte_eq (by simp) (by simp) (by simp) x
@[simp] theorem State.wr64_csiAt (s : State) (k v : Nat) (i : Nat) : (s.wr64 k v).csiAt i = s.csiAt i := by unfold State.csiAt; simp
@[simp] theorem State.wr64_ethAt (s : State) (k v : Nat) (i : Nat) : (s.wr64 k v).ethAt i = s.ethAt i := by unfold State.ethAt; simp
@[simp] theorem State.wr64_spiAt (s : State) (k v : Nat) (i : Nat) : (s.wr64 k v).spiAt i = s.spiAt i := by unfold State.spiAt; simp
@[simp] theorem State.wr64_wheelAt (s : State) (k v : Nat) (i : Nat) : (s.wr64 k v).wheelAt i = s.wheelAt i := by unfold State.wheelAt; simp
@[simp] theorem State.wr64_canAt (s : State) (k v : Nat) (i : Nat) : (s.wr64 k v).canAt i = s.canAt i := by unfold State.canAt; simp
@[simp] theorem State.wr64_slotAt (s : State) (k v : Nat) (i : Nat) : (s.wr64 k v).slotAt i = s.slotAt i := by unfold State.slotAt; simp
@[simp] theorem State.wr64_fendAt (s : State) (k v : Nat) (i : Nat) : (s.wr64 k v).fendAt i = s.fendAt i := by unfold State.fendAt; simp
@[simp] theorem State.wr64_t0At (s : State) (k v : Nat) (i : Nat) : (s.wr64 k v).t0At i = s.t0At i := by unfold State.t0At; simp
@[simp] theorem State.wr64_loopAt (s : State) (k v : Nat) (i : Nat) : (s.wr64 k v).loopAt i = s.loopAt i := by unfold State.loopAt; simp
@[simp] theorem State.wr64_coreAt (s : State) (k v : Nat) (i : Nat) : (s.wr64 k v).coreAt i = s.coreAt i := by unfold State.coreAt; simp
@[simp] theorem State.wr64_rtrAt (s : State) (k v : Nat) (i : Nat) : (s.wr64 k v).rtrAt i = s.rtrAt i := by unfold State.rtrAt; simp
@[simp] theorem State.wr64_edgeAt (s : State) (k v : Nat) (i : Nat) : (s.wr64 k v).edgeAt i = s.edgeAt i := by unfold State.edgeAt; simp
@[simp] theorem State.wr64_engAt (s : State) (k v : Nat) (i : Nat) : (s.wr64 k v).engAt i = s.engAt i := by unfold State.engAt; simp
@[simp] theorem State.wr64_binAt (s : State) (k v : Nat) (i : Nat) : (s.wr64 k v).binAt i = s.binAt i := by unfold State.binAt; simp
@[simp] theorem State.wr64_portAt (s : State) (k v : Nat) (i : Nat) : (s.wr64 k v).portAt i = s.portAt i := by unfold State.portAt; simp
@[simp] theorem State.wr64_netAt (s : State) (k v : Nat) (i : Nat) : (s.wr64 k v).netAt i = s.netAt i := by unfold State.netAt; simp

/-! ### `bump` -/

@[simp] theorem State.bump_byte (s : State) (k n : Nat) (x : Nat) : (s.bump k n).byte x = s.byte x :=
  State.byte_eq (by simp) (by simp) (by simp) x
@[simp] theorem State.bump_csiAt (s : State) (k n : Nat) (i : Nat) : (s.bump k n).csiAt i = s.csiAt i := by unfold State.csiAt; simp
@[simp] theorem State.bump_ethAt (s : State) (k n : Nat) (i : Nat) : (s.bump k n).ethAt i = s.ethAt i := by unfold State.ethAt; simp
@[simp] theorem State.bump_spiAt (s : State) (k n : Nat) (i : Nat) : (s.bump k n).spiAt i = s.spiAt i := by unfold State.spiAt; simp
@[simp] theorem State.bump_wheelAt (s : State) (k n : Nat) (i : Nat) : (s.bump k n).wheelAt i = s.wheelAt i := by unfold State.wheelAt; simp
@[simp] theorem State.bump_canAt (s : State) (k n : Nat) (i : Nat) : (s.bump k n).canAt i = s.canAt i := by unfold State.canAt; simp
@[simp] theorem State.bump_slotAt (s : State) (k n : Nat) (i : Nat) : (s.bump k n).slotAt i = s.slotAt i := by unfold State.slotAt; simp
@[simp] theorem State.bump_fendAt (s : State) (k n : Nat) (i : Nat) : (s.bump k n).fendAt i = s.fendAt i := by unfold State.fendAt; simp
@[simp] theorem State.bump_t0At (s : State) (k n : Nat) (i : Nat) : (s.bump k n).t0At i = s.t0At i := by unfold State.t0At; simp
@[simp] theorem State.bump_loopAt (s : State) (k n : Nat) (i : Nat) : (s.bump k n).loopAt i = s.loopAt i := by unfold State.loopAt; simp
@[simp] theorem State.bump_coreAt (s : State) (k n : Nat) (i : Nat) : (s.bump k n).coreAt i = s.coreAt i := by unfold State.coreAt; simp
@[simp] theorem State.bump_rtrAt (s : State) (k n : Nat) (i : Nat) : (s.bump k n).rtrAt i = s.rtrAt i := by unfold State.rtrAt; simp
@[simp] theorem State.bump_edgeAt (s : State) (k n : Nat) (i : Nat) : (s.bump k n).edgeAt i = s.edgeAt i := by unfold State.edgeAt; simp
@[simp] theorem State.bump_engAt (s : State) (k n : Nat) (i : Nat) : (s.bump k n).engAt i = s.engAt i := by unfold State.engAt; simp
@[simp] theorem State.bump_binAt (s : State) (k n : Nat) (i : Nat) : (s.bump k n).binAt i = s.binAt i := by unfold State.binAt; simp
@[simp] theorem State.bump_portAt (s : State) (k n : Nat) (i : Nat) : (s.bump k n).portAt i = s.portAt i := by unfold State.portAt; simp
@[simp] theorem State.bump_netAt (s : State) (k n : Nat) (i : Nat) : (s.bump k n).netAt i = s.netAt i := by unfold State.netAt; simp

/-! ### `sat` -/

@[simp] theorem State.sat_byte (s : State) (k n : Nat) (x : Nat) : (s.sat k n).byte x = s.byte x :=
  State.byte_eq (by simp) (by simp) (by simp) x
@[simp] theorem State.sat_csiAt (s : State) (k n : Nat) (i : Nat) : (s.sat k n).csiAt i = s.csiAt i := by unfold State.csiAt; simp
@[simp] theorem State.sat_ethAt (s : State) (k n : Nat) (i : Nat) : (s.sat k n).ethAt i = s.ethAt i := by unfold State.ethAt; simp
@[simp] theorem State.sat_spiAt (s : State) (k n : Nat) (i : Nat) : (s.sat k n).spiAt i = s.spiAt i := by unfold State.spiAt; simp
@[simp] theorem State.sat_wheelAt (s : State) (k n : Nat) (i : Nat) : (s.sat k n).wheelAt i = s.wheelAt i := by unfold State.wheelAt; simp
@[simp] theorem State.sat_canAt (s : State) (k n : Nat) (i : Nat) : (s.sat k n).canAt i = s.canAt i := by unfold State.canAt; simp
@[simp] theorem State.sat_slotAt (s : State) (k n : Nat) (i : Nat) : (s.sat k n).slotAt i = s.slotAt i := by unfold State.slotAt; simp
@[simp] theorem State.sat_fendAt (s : State) (k n : Nat) (i : Nat) : (s.sat k n).fendAt i = s.fendAt i := by unfold State.fendAt; simp
@[simp] theorem State.sat_t0At (s : State) (k n : Nat) (i : Nat) : (s.sat k n).t0At i = s.t0At i := by unfold State.t0At; simp
@[simp] theorem State.sat_loopAt (s : State) (k n : Nat) (i : Nat) : (s.sat k n).loopAt i = s.loopAt i := by unfold State.loopAt; simp
@[simp] theorem State.sat_coreAt (s : State) (k n : Nat) (i : Nat) : (s.sat k n).coreAt i = s.coreAt i := by unfold State.coreAt; simp
@[simp] theorem State.sat_rtrAt (s : State) (k n : Nat) (i : Nat) : (s.sat k n).rtrAt i = s.rtrAt i := by unfold State.rtrAt; simp
@[simp] theorem State.sat_edgeAt (s : State) (k n : Nat) (i : Nat) : (s.sat k n).edgeAt i = s.edgeAt i := by unfold State.edgeAt; simp
@[simp] theorem State.sat_engAt (s : State) (k n : Nat) (i : Nat) : (s.sat k n).engAt i = s.engAt i := by unfold State.engAt; simp
@[simp] theorem State.sat_binAt (s : State) (k n : Nat) (i : Nat) : (s.sat k n).binAt i = s.binAt i := by unfold State.binAt; simp
@[simp] theorem State.sat_portAt (s : State) (k n : Nat) (i : Nat) : (s.sat k n).portAt i = s.portAt i := by unfold State.portAt; simp
@[simp] theorem State.sat_netAt (s : State) (k n : Nat) (i : Nat) : (s.sat k n).netAt i = s.netAt i := by unfold State.netAt; simp

@[simp] theorem State.setCsi_csiAt (s : State) (p : Nat) (v : CsiPort) : (s.setCsi p v).csiAt p = v := SMap.get_set_self _ _ _ _
theorem State.setCsi_csiAt_ne (s : State) (v : CsiPort) {p q : Nat} (h : q ≠ p) : (s.setCsi p v).csiAt q = s.csiAt q :=
  SMap.get_set_ne _ _ _ h
@[simp] theorem State.setEth_ethAt (s : State) (p : Nat) (v : EthPort) : (s.setEth p v).ethAt p = v := SMap.get_set_self _ _ _ _
theorem State.setEth_ethAt_ne (s : State) (v : EthPort) {p q : Nat} (h : q ≠ p) : (s.setEth p v).ethAt q = s.ethAt q :=
  SMap.get_set_ne _ _ _ h
@[simp] theorem State.setSpi_spiAt (s : State) (p : Nat) (v : SpiPort) : (s.setSpi p v).spiAt p = v := SMap.get_set_self _ _ _ _
theorem State.setSpi_spiAt_ne (s : State) (v : SpiPort) {p q : Nat} (h : q ≠ p) : (s.setSpi p v).spiAt q = s.spiAt q :=
  SMap.get_set_ne _ _ _ h
@[simp] theorem State.setWheel_wheelAt (s : State) (p : Nat) (v : WheelIn) : (s.setWheel p v).wheelAt p = v := SMap.get_set_self _ _ _ _
theorem State.setWheel_wheelAt_ne (s : State) (v : WheelIn) {p q : Nat} (h : q ≠ p) : (s.setWheel p v).wheelAt q = s.wheelAt q :=
  SMap.get_set_ne _ _ _ h
@[simp] theorem State.setCan_canAt (s : State) (p : Nat) (v : CanCtl) : (s.setCan p v).canAt p = v := SMap.get_set_self _ _ _ _
theorem State.setCan_canAt_ne (s : State) (v : CanCtl) {p q : Nat} (h : q ≠ p) : (s.setCan p v).canAt q = s.canAt q :=
  SMap.get_set_ne _ _ _ h
@[simp] theorem State.setSlot_slotAt (s : State) (p : Nat) (v : CanSlot) : (s.setSlot p v).slotAt p = v := SMap.get_set_self _ _ _ _
theorem State.setSlot_slotAt_ne (s : State) (v : CanSlot) {p q : Nat} (h : q ≠ p) : (s.setSlot p v).slotAt q = s.slotAt q :=
  SMap.get_set_ne _ _ _ h
@[simp] theorem State.setFend_fendAt (s : State) (p : Nat) (v : FendHub) : (s.setFend p v).fendAt p = v := SMap.get_set_self _ _ _ _
theorem State.setFend_fendAt_ne (s : State) (v : FendHub) {p q : Nat} (h : q ≠ p) : (s.setFend p v).fendAt q = s.fendAt q :=
  SMap.get_set_ne _ _ _ h
@[simp] theorem State.setT0_t0At (s : State) (p : Nat) (v : (Option Nat)) : (s.setT0 p v).t0At p = v := SMap.get_set_self _ _ _ _
theorem State.setT0_t0At_ne (s : State) (v : (Option Nat)) {p q : Nat} (h : q ≠ p) : (s.setT0 p v).t0At q = s.t0At q :=
  SMap.get_set_ne _ _ _ h
@[simp] theorem State.setLoop_loopAt (s : State) (p : Nat) (v : LoopBuf) : (s.setLoop p v).loopAt p = v := SMap.get_set_self _ _ _ _
theorem State.setLoop_loopAt_ne (s : State) (v : LoopBuf) {p q : Nat} (h : q ≠ p) : (s.setLoop p v).loopAt q = s.loopAt q :=
  SMap.get_set_ne _ _ _ h
@[simp] theorem State.setCore_coreAt (s : State) (p : Nat) (v : Core) : (s.setCore p v).coreAt p = v := SMap.get_set_self _ _ _ _
theorem State.setCore_coreAt_ne (s : State) (v : Core) {p q : Nat} (h : q ≠ p) : (s.setCore p v).coreAt q = s.coreAt q :=
  SMap.get_set_ne _ _ _ h
@[simp] theorem State.setRtr_rtrAt (s : State) (p : Nat) (v : Router) : (s.setRtr p v).rtrAt p = v := SMap.get_set_self _ _ _ _
theorem State.setRtr_rtrAt_ne (s : State) (v : Router) {p q : Nat} (h : q ≠ p) : (s.setRtr p v).rtrAt q = s.rtrAt q :=
  SMap.get_set_ne _ _ _ h
@[simp] theorem State.setEdge_edgeAt (s : State) (p : Nat) (v : Edge) : (s.setEdge p v).edgeAt p = v := SMap.get_set_self _ _ _ _
theorem State.setEdge_edgeAt_ne (s : State) (v : Edge) {p q : Nat} (h : q ≠ p) : (s.setEdge p v).edgeAt q = s.edgeAt q :=
  SMap.get_set_ne _ _ _ h
@[simp] theorem State.setEng_engAt (s : State) (p : Nat) (v : Engine) : (s.setEng p v).engAt p = v := SMap.get_set_self _ _ _ _
theorem State.setEng_engAt_ne (s : State) (v : Engine) {p q : Nat} (h : q ≠ p) : (s.setEng p v).engAt q = s.engAt q :=
  SMap.get_set_ne _ _ _ h
@[simp] theorem State.setBin_binAt (s : State) (p : Nat) (v : BinUnit) : (s.setBin p v).binAt p = v := SMap.get_set_self _ _ _ _
theorem State.setBin_binAt_ne (s : State) (v : BinUnit) {p q : Nat} (h : q ≠ p) : (s.setBin p v).binAt q = s.binAt q :=
  SMap.get_set_ne _ _ _ h
@[simp] theorem State.setPort_portAt (s : State) (p : Nat) (v : HostPort) : (s.setPort p v).portAt p = v := SMap.get_set_self _ _ _ _
theorem State.setPort_portAt_ne (s : State) (v : HostPort) {p q : Nat} (h : q ≠ p) : (s.setPort p v).portAt q = s.portAt q :=
  SMap.get_set_ne _ _ _ h
@[simp] theorem State.setNet_netAt (s : State) (p : Nat) (v : NetBase) : (s.setNet p v).netAt p = v := SMap.get_set_self _ _ _ _
theorem State.setNet_netAt_ne (s : State) (v : NetBase) {p q : Nat} (h : q ≠ p) : (s.setNet p v).netAt q = s.netAt q :=
  SMap.get_set_ne _ _ _ h

end Sys2Proof.Machine
end

