-- ==== Sys2Proof/Laws/Shared.lean ====
section
/-! SUPPORT. What each shared operation does: registers it writes, bits it sets, bytes it stores. -/

namespace Sys2Proof.Machine

/-! ### Event and fault bits -/

theorem State.rd_event_ne (s : State) {p b j : Nat} (h : j ≠ rk p 0x14) : (s.event p b).rd j = s.rd j := by
  unfold State.event; split
  · rfl
  · rw [State.signal_rd, State.rd_setBit_ne _ _ _ h]

theorem State.bit_event (s : State) (p b j c : Nat) (hb : b < 32) :
    (s.event p b).bit j c = (decide (j = rk p 0x14 ∧ c = b) || s.bit j c) := by
  unfold State.event
  split
  · by_cases h : j = rk p 0x14 ∧ c = b
    · obtain ⟨rfl, rfl⟩ := h; simp_all
    · simp [h]
  · rw [State.signal_bit, State.bit_setBit _ _ _ _ _ _ hb]
    by_cases h : j = rk p 0x14 ∧ c = b <;> simp [h]

/-- An event bit stands once it is set. -/
@[simp] theorem State.bit_event_self (s : State) (p b : Nat) (hb : b < 32) : (s.event p b).bit (rk p 0x14) b = true := by
  simp [State.bit_event _ _ _ _ _ hb]

theorem State.rd_fault_ne (s : State) {p b n j : Nat} (h : j ≠ rk p 0x1C) : (s.fault p b n).rd j = s.rd j := by
  unfold State.fault
  rw [State.toSafe_rd]
  split
  · rfl
  · rw [State.signal_rd, State.rd_setBit_ne _ _ _ h]

theorem State.bit_fault (s : State) (p b n j c : Nat) (hb : b < 32) :
    (s.fault p b n).bit j c = (decide (j = rk p 0x1C ∧ c = b) || s.bit j c) := by
  unfold State.fault
  rw [State.toSafe_bit]
  split
  · by_cases h : j = rk p 0x1C ∧ c = b
    · obtain ⟨rfl, rfl⟩ := h; simp_all
    · simp [h]
  · rw [State.signal_bit, State.bit_setBit _ _ _ _ _ _ hb]
    by_cases h : j = rk p 0x1C ∧ c = b <;> simp [h]

/-- A fault bit stands once it is set. -/
@[simp] theorem State.bit_fault_self (s : State) (p b n : Nat) (hb : b < 32) :
    (s.fault p b n).bit (rk p 0x1C) b = true := by
  simp [State.bit_fault _ _ _ _ _ _ hb]

/-- SAFE receives a fault each time it is set. -/
theorem State.fault_inbox (s : State) (p b n : Nat) :
    (s.fault p b n).safe.inbox = s.safe.inbox ++
      [{ source := 0, page := p, bit := b, inst := n, fus := s.now, step := s.bell.step }] := by
  unfold State.fault State.toSafe
  split <;> simp [State.now]

/-! ### Block states and the command slot -/

theorem State.rd_setBlk_ne (s : State) {p st j : Nat} (h1 : j ≠ rk p 0x10) (h2 : j ≠ rk p 0x0C) :
    (s.setBlk p st).rd j = s.rd j := by
  unfold State.setBlk
  simp only []
  (repeat' split) <;> simp [State.rd_setFld_ne _ _ _ _ h1, State.rd_setBit_ne _ _ _ h2]

/-- BLK_STATE after a change. -/
theorem State.blk_setBlk (s : State) (p st : Nat) (hp : p ≠ pgSys) (hs : st < 16) : (s.setBlk p st).blk p = st := by
  unfold State.setBlk
  simp only []
  have e : rk p 0x10 ≠ rk p 0x0C := by unfold rk; omega
  split
  · assumption
  · split <;> rw [State.log_blk] <;> unfold State.blk <;> rw [if_neg hp]
    · rw [State.fld_setBit_ne _ _ _ _ _ _ _ (by decide) (Or.inl e), State.fld_setFld_self _ _ _ _ _ (by decide) (by decide)]
      omega
    · rw [State.fld_setFld_self _ _ _ _ _ (by decide) (by decide)]
      omega

theorem State.rd_cmdDone_ne (s : State) {p r e j : Nat} (h : j ≠ rk p 0x2C) : (s.cmdDone p r e).rd j = s.rd j := by
  unfold State.cmdDone
  simp only []
  (repeat' split) <;> simp [State.rd_wrN_ne _ _ h]

/-- CMD_STATUS after a completion: RESULT holds the result, BUSY is clear. -/
theorem State.rdN_cmdDone (s : State) (p r e : Nat) (h : s.busy p = true) :
    (s.cmdDone p r e).rdN (rk p 0x2C) = putBits (putBits (s.rdN (rk p 0x2C)) 23 16 r) 0 0 0 := by
  unfold State.cmdDone
  rw [if_pos h]
  simp only []
  have hlt : putBits (putBits (s.rdN (rk p 0x2C)) 23 16 r) 0 0 0 % 2 ^ 32 = putBits (putBits (s.rdN (rk p 0x2C)) 23 16 r) 0 0 0 :=
    Nat.mod_eq_of_lt (putBits_lt (putBits_lt (s.rdN_lt _) (by decide) (by decide)) (by decide) (by decide))
  split <;> simp only [State.msix_rdN, State.log_rdN, State.rdN_wrN, if_true, hlt]

theorem State.busy_cmdDone (s : State) (p r e : Nat) : (s.cmdDone p r e).busy p = false := by
  by_cases h : s.busy p = true
  · unfold State.busy State.bit
    rw [State.rdN_cmdDone _ _ _ _ h, testBit_putBits _ _ _ _ _ (by decide)]
    simp
  · unfold State.cmdDone
    rw [if_neg h]
    simpa using h

theorem State.result_cmdDone (s : State) (p r e : Nat) (h : s.busy p = true) (hr : r < 256) :
    (s.cmdDone p r e).fld (rk p 0x2C) 23 16 = r := by
  unfold State.fld
  rw [State.rdN_cmdDone _ _ _ _ h]
  refine Nat.eq_of_testBit_eq (fun i => ?_)
  rw [testBit_bits, testBit_putBits _ _ _ _ _ (by decide), if_neg (by omega), testBit_putBits _ _ _ _ _ (by decide)]
  by_cases hi : i < 23 + 1 - 16
  · rw [if_pos (by omega)]; simp [hi]
  · simp only [hi, decide_false, Bool.false_and]
    exact (Nat.testBit_lt_two_pow (lt_of_lt_of_le hr (Nat.pow_le_pow_right (Nat.succ_pos 1) (by omega : 8 ≤ i)))).symm

theorem State.rd_cmdAccept_ne (s : State) {h p c j : Nat} (hj : j ≠ rk p 0x2C) : (s.cmdAccept h p c).rd j = s.rd j := by
  unfold State.cmdAccept; simp [State.rd_wrN_ne _ _ hj]

/-- CMD_STATUS once the slot has taken a command. -/
theorem State.rdN_cmdAccept (s : State) (h p c : Nat) (hh : h < 2) (hc : c < 256) :
    (s.cmdAccept h p c).rdN (rk p 0x2C) = (s.fld (rk p 0x2C) 31 24 + 1) % 256 * 2 ^ 24 + c * 2 ^ 8 + h * 16 + 1 := by
  unfold State.cmdAccept
  simp only []
  rw [State.rdN_wrN, if_pos rfl]
  have : (s.fld (rk p 0x2C) 31 24 + 1) % 256 < 256 := Nat.mod_lt _ (Nat.succ_pos 255)
  omega

theorem State.busy_cmdAccept (s : State) (h p c : Nat) (hh : h < 2) (hc : c < 256) : (s.cmdAccept h p c).busy p = true := by
  unfold State.busy State.bit
  rw [State.rdN_cmdAccept _ _ _ _ hh hc, Nat.testBit_zero]
  simp
  omega

/-- The issuer of the command in the slot. -/
theorem State.issuer_cmdAccept (s : State) (h p c : Nat) (hh : h < 2) (hc : c < 256) :
    (s.cmdAccept h p c).fld (rk p 0x2C) 4 4 = h := by
  unfold State.fld bits
  rw [State.rdN_cmdAccept _ _ _ _ hh hc, Nat.shiftRight_eq_div_pow]
  omega

/-! ### Host accesses -/

theorem State.rd_denied_ne (s : State) {h j : Nat} (h1 : j ≠ rk (pgPort h) 0x60) (h2 : j ≠ rk (pgPort h) 0x64) :
    (s.denied h).rd j = s.rd j := s.rd_bump_ne 1 h1 (by unfold rk at *; omega)

theorem State.rd_replyUr_ne (s : State) {h j : Nat} (h1 : j ≠ rk (pgPort h) 0x50) (h2 : j ≠ rk (pgPort h) 0x54) :
    (s.replyUr h).rd j = s.rd j := by
  unfold State.replyUr
  rw [State.rd_bump_ne _ 1 h1 (by unfold rk at *; omega), State.reply_rd]

theorem State.rd_replyCa_ne (s : State) {h j : Nat} (h1 : j ≠ rk (pgPort h) 0x58) (h2 : j ≠ rk (pgPort h) 0x5C) :
    (s.replyCa h).rd j = s.rd j := by
  unfold State.replyCa
  rw [State.rd_bump_ne _ 1 h1 (by unfold rk at *; omega), State.reply_rd]

/-! ### Device memory -/

theorem State.inPlane_setByte (s : State) (a : Nat) (v : Byte) (x : Nat) : (s.setByte a v).inPlane x = s.inPlane x := by
  unfold State.inPlane; rw [State.setByte_planes]

/-- A byte read after a byte is written. -/
theorem State.byte_setByte (s : State) (a : Nat) (v : Byte) (x : Nat) :
    (s.setByte a v).byte x = if x = a then v else s.byte x := by
  unfold State.byte
  rw [State.inPlane_setByte]
  unfold State.setByte
  by_cases hx : x = a
  · subst hx
    by_cases h : s.inPlane x = true <;> simp [h]
  · by_cases h : s.inPlane x = true <;> by_cases h' : s.inPlane a = true <;> simp [h, h', hx, SMap.get_set_ne]

/-- A byte read after a run of bytes is written. -/
theorem State.byte_setBytes (s : State) (a : Nat) (bs : List Byte) (x : Nat) :
    (s.setBytes a bs).byte x = if a ≤ x ∧ x < a + bs.length then bs.getD (x - a) 0 else s.byte x := by
  induction bs generalizing s a with
  | nil => rw [if_neg (by rw [List.length_nil]; omega)]; rfl
  | cons b bs ih =>
    unfold State.setBytes
    rw [ih, State.byte_setByte, List.length_cons]
    by_cases h1 : x = a
    · subst h1; rw [if_neg (by omega), if_pos rfl, if_pos (by omega)]; simp
    · by_cases h2 : a ≤ x ∧ x < a + (bs.length + 1)
      · rw [if_pos (by omega), if_pos h2, show x - a = x - (a + 1) + 1 by omega, List.getD_cons_succ]
      · rw [if_neg (by omega), if_neg h1, if_neg h2]

@[simp] theorem State.length_leBytes (k n : Nat) : (leBytes k n).length = k := by
  induction k generalizing n with
  | zero => rfl
  | succ k ih => simp [leBytes, ih]

theorem State.byte_checkGranule (s : State) (g : Nat) (b : Bool) (x : Nat) : (s.checkGranule g b).1.byte x = s.byte x :=
  State.byte_eq (by simp) (by simp) (by simp) x

/-- No write reaches a byte outside its range (R30). -/
theorem State.byte_store_of_notMem (s : State) (m a : Nat) (bs : List Byte) (x : Nat) (h : ¬ (a ≤ x ∧ x < a + bs.length)) :
    (s.store m a bs).1.byte x = s.byte x := by
  have key : ∀ t : State, t.mem = s.mem → t.gridMem = s.gridMem → t.planes = s.planes → (t.setBytes a bs).byte x = s.byte x :=
    fun t h1 h2 h3 => by rw [State.byte_setBytes, if_neg h]; exact State.byte_eq h1 h2 h3 x
  unfold State.store
  simp only []
  (repeat' split) <;>
    first
    | (rw [State.injectOn_byte]; exact key _ (by simp) (by simp) (by simp))
    | exact key _ (by simp) (by simp) (by simp)
    | exact State.byte_eq (by simp) (by simp) (by simp) x

theorem State.byte_put_of_notMem (s : State) (m a : Nat) (bs : List Byte) (x : Nat) (h : ¬ (a ≤ x ∧ x < a + bs.length)) :
    (s.put m a bs).byte x = s.byte x := s.byte_store_of_notMem m a bs x h

/-- A write that is applied writes every byte of its range. -/
theorem State.byte_store_of_mem (s : State) (m a : Nat) (bs : List Byte) (x : Nat) (h : a ≤ x ∧ x < a + bs.length)
    (ok : (s.store m a bs).2 = true) : (s.store m a bs).1.byte x = bs.getD (x - a) 0 := by
  revert ok
  unfold State.store
  simp only []
  (repeat' split) <;> simp [State.byte_setBytes, h]

end Sys2Proof.Machine
end

