-- ==== Sys2Proof/WellFormed.lean ====
section
/-! DEFINITION. Which commands are well formed: the widths and counts that the operand types alone do not fix. -/

namespace Sys2Proof

/-- A long packet holds at most 65,535 payload bytes; a short packet's data field is two bytes (R35, R39). -/
def CsiPacket.wf (p : CsiPacket) : Bool :=
  if p.dt.toNat < 0x10 then p.payload.length == 2 else decide (p.payload.length ≤ 65535)

/-- A classical frame carries at most 8 bytes, an FD frame at most 64, and an 11-bit identifier fits in 11 bits (R67). -/
def CanFrame.wf (f : CanFrame) : Bool :=
  decide (f.data.length ≤ (if f.fd then 64 else 8)) && (f.ide || decide (f.ident.toNat < 0x800))

/-- An access of a host is at least one byte long. -/
def accessWf (n : Nat) : Bool := decide (0 < n) && decide (n ≤ 4096)

/-- The well-formed commands. -/
def Instr.wf : Instr → Bool
  | .csiPacket _ pkt => pkt.wf
  | .ethFrameRx _ frame _ => decide (14 ≤ frame.length) && decide (frame.length ≤ 9216)
  | .canFrameRx _ f => f.wf
  | .cmdSend _ _ f => f.wf
  | .memRead _ addr len _ => decide (0 < len) && decide (addr + len ≤ 2 ^ 48)
  | .memWrite _ addr data _ => decide (0 < data.length) && decide (addr + data.length ≤ 2 ^ 48)
  | .commonsAccess reqs => reqs.all (fun r => decide (r.line % 64 = 0))
  | .registerWrite _ off data => decide (off < 0x100000) && accessWf data.length
  | .latchingRead _ off len => decide (off < 0x100000) && accessWf len
  | .bar2Access _ off len wr _ => decide (off + len ≤ 2 ^ 30 ∨ 2 ^ 30 ≤ off ∧ off + len ≤ 2 ^ 30 + 0x1000) && accessWf len &&
      (match wr with | none => true | some d => d.length == len)
  | _ => true

end Sys2Proof
end

