-- ==== Sys2Proof/Tests/Slice0.lean ====
section
/-! SUPPORT. The model's own tests: a well-formed and an ill-formed term for each check of WellFormed, single steps with the results the
spec's rules give, and for every statement with hypotheses a state and operands that meet them (one conjunct for each clause). -/

open Sys2Proof Sys2Proof.Machine

namespace Sys2Proof.Tests

-- A theorem at a time: each is a kernel evaluation, and a thread for each of them is more than the memory's ceiling lets start.
set_option Elab.async false

/-- A packet of virtual channel 1. -/
def pkt (dt : Nat) (payload : List Byte) : CsiPacket := { hdr := .good, vc := 1, dt := BitVec.ofNat 6 dt, payload := payload, crcOk := true }
/-- A data frame with a base identifier. -/
def can (id : Nat) (fd : Bool) (data : List Byte) : CanFrame := { ident := BitVec.ofNat 29 id, ide := false, rtr := false, fd := fd, data := data }

/-! ### WellFormed: a well-formed term and an ill-formed one for each check -/

theorem test_short_packet_has_two_bytes :
    (Instr.csiPacket 0 (pkt 0 [1, 2])).wf = true ∧ (Instr.csiPacket 0 (pkt 0 [1])).wf = false := by decide
theorem test_long_packet_is_bounded : CsiPacket.wf (pkt 0x30 []) = true ∧
    ∀ p : CsiPacket, p.dt = 0x30 → 65535 < p.payload.length → (Instr.csiPacket 0 p).wf = false := by
  refine ⟨by decide, fun p hd hl => ?_⟩
  simp [Instr.wf, CsiPacket.wf, hd]
  omega
theorem test_frame_has_fourteen_bytes : (Instr.ethFrameRx 0 (zeros 14) true).wf = true ∧ (Instr.ethFrameRx 0 (zeros 13) true).wf = false := by decide
theorem test_frame_is_bounded : ∀ f : List Byte, 9216 < f.length → (Instr.ethFrameRx 0 f true).wf = false := by
  intro f h
  simp [Instr.wf]
  omega
theorem test_classical_frame_has_eight_bytes :
    (Instr.canFrameRx 0 (can 5 false (zeros 8))).wf = true ∧ (Instr.canFrameRx 0 (can 5 false (zeros 9))).wf = false := by decide
theorem test_fd_frame_has_sixty_four_bytes :
    (Instr.cmdSend 0 0 (can 5 true (zeros 64))).wf = true ∧ (Instr.cmdSend 0 0 (can 5 true (zeros 65))).wf = false := by decide
theorem test_base_identifier_has_eleven_bits :
    (Instr.canFrameRx 0 (can 0x7FF false [])).wf = true ∧ (Instr.canFrameRx 0 (can 0x800 false [])).wf = false := by decide
theorem test_read_has_a_length :
    (Instr.memRead 0 0 1 .none).wf = true ∧ (Instr.memRead 0 0 0 .none).wf = false ∧ (Instr.memRead 0 (2 ^ 48 - 1) 2 .none).wf = false := by decide
theorem test_write_has_a_length :
    (Instr.memWrite 0 0 [1] .none).wf = true ∧ (Instr.memWrite 0 0 [] .none).wf = false ∧ (Instr.memWrite 0 (2 ^ 48 - 1) [1, 2] .none).wf = false := by decide
theorem test_register_access_is_in_bar0 :
    (Instr.latchingRead 0 0xFFFFF 1).wf = true ∧ (Instr.latchingRead 0 0x100000 4).wf = false ∧ (Instr.latchingRead 0 0 0).wf = false ∧
      (Instr.registerWrite 0 0x100000 [1]).wf = false ∧ (Instr.registerWrite 0 0 []).wf = false := by decide
theorem test_window_access_is_in_bar2 :
    (Instr.bar2Access 0 0 2 (some [1, 2]) .none).wf = true ∧ (Instr.bar2Access 0 (2 ^ 30 - 1) 2 none .none).wf = false ∧
      (Instr.bar2Access 0 (2 ^ 30) 4 none .none).wf = true ∧ (Instr.bar2Access 0 (2 ^ 30 + 0xFFC) 8 none .none).wf = false ∧
      (Instr.bar2Access 0 0 2 (some [1]) .none).wf = false ∧ (Instr.bar2Access 0 0 0 none .none).wf = false := by decide

/-! ### The queue -/

theorem witness_StepRunsTheFrontCommand : ({ State.reset with pending := [.blkEventsClear 0 5 false 1] } : State).pending = .blkEventsClear 0 5 false 1 :: [] ∧ State.reset.pending = [] := by
  decide
theorem witness_StepKeepsTheCanonicalForm : State.reset.canonical = true := by decide +kernel
theorem test_empty_queue_counts_a_cycle : step State.reset = .next State.reset.idleTick := rfl
theorem test_no_word_spells_a_command (n w : Nat) : decodeTableWord n w = none := rfl
theorem test_command_stands_in_front : (State.reset.withFetchWord 8 0).pending = [] := rfl

/-! ### The spec's worked examples -/

/-- R367: the CRC of the ASCII string 123456789. -/
theorem test_crc_of_the_digits : crc32c [0x31, 0x32, 0x33, 0x34, 0x35, 0x36, 0x37, 0x38, 0x39] = 0xE3069283 := by decide +kernel

/-- R182: an int8 layer at q = 3 skips 3 and −3 and uses 4 and −4. -/
theorem test_skip_threshold : skips .int8 3 0 3 = true ∧ skips .int8 3 0 (-3) = true ∧ skips .int8 3 0 4 = false ∧ skips .int8 3 0 (-4) = false := by
  decide

/-- The word of neuron 700 of core 37 (18_register_pages.md, the second read). -/
theorem test_neuron_address : neuronAddr 37 700 = 0x0140009795E0 := by decide

/-- CSI3 with the triple of 02_sensor_ports.md's row-vector packet. -/
def csi3 : State := State.reset.setCsi 3 { triple := { a := 40000000, b := 1000000, k := 0x10000000 } }
/-- The packet's three words give a marker and three records. -/
theorem test_row_vector_packet :
    ((((csi3.csiWord 3 40000192 descRow 0x0001E84E).csiWord 3 40000192 descRow 0x0002CFA4).csiWord 3 40000192 descRow 0x0004D402).csiAt 3).out =
      [0x3000000202625A00, 0x32801F4802625A50, 0x32811F4802625A50, 0x32841F4802625A50] := by decide +kernel

/-- Neuron 700 of core 37 before step 1,004 of 04_neuro_cores.md: class 2, V 0.5, LAST 1,000. -/
def core37 : State :=
  let s := State.reset.wrN (coreKey 37 4) 0x12800
  let s := s.putLE (synBase 37 + 0x36000 + 64) 4 0x10000
  let s := s.putLE (synBase 37 + 0x36000 + 72) 4 (3 * 256 + 12)
  let s := s.putLE (synBase 37 + 0x34000 + 3 * 0x200 + 8) 2 0x6000
  s.putLE (neuronAddr 37 700) 8 (2 * 2 ^ 40 + 1000 * 2 ^ 24 + 0x8000)
/-- It fires with the output packet given there, and its word is the one that 18_register_pages.md's observer reads. -/
theorem test_neuron_fires :
    (core37.neuronClose 37 1004 700 80000).2 = some 0x00012ABC090003ED ∧
      (core37.neuronClose 37 1004 700 80000).1.getLE (neuronAddr 37 700) 8 = 0x00000203EC009880 := by decide +kernel

namespace G1

/-- Registers set one after another. -/
def regsOf (s : State) (l : List (Nat × Nat)) : State := l.foldl (fun s e => s.wrN e.1 e.2) s
def pkt (dt : Nat) (pl : List Byte) (h : HdrCheck := .good) (crc := true) : CsiPacket := { hdr := h, vc := 1, dt := BitVec.ofNat 6 dt, payload := pl, crcOk := crc }
def csi0 (mode : Nat) : State := (regsOf State.reset [(rk 0x20 0x10, 2), (rk 0x20 0x100, mode), (rk 0x20 0x104, 1 + 0x100 + 0x2B0000), (rk 0x20 0x108, 1), (rk 0x20 0x168, 0x20003), (rk 0x20 0x16C, 0x100010), (rk 0x20 0x160, 0x4000)])
def csi1 (mode : Nat) (q : List CsiPacket) (f : Option OpenFrame): State := (csi0 mode).setCsi 0 { queue := q.map (fun k => {pkt := k, tb0 := 5, fus := 7}), prevThi := some 3, frame := f, frameNo := 4, triple := {a := 100, b := 2, k := 0x1000000} }
def ev (crc : Bool) := pkt 0x30 [0x11,0x22,0x33,0x04] .good crc
def fr : OpenFrame := {number := 9, buffer := 1, startTb0 := 33, startFus := 44, lines := 2, crcError := false, overflow := true}
def up (s : State) : State := s.setPort 0 { link := true, inReset := false }

/-- The hypotheses of Obligations.PacketIsQueuedOrCounted are met (its part AcceptedPacketIsQueued). -/
theorem witness_AcceptedPacketIsQueued :
    (let s : State := (csi0 0); let p : Fin 16 := 0; let k : CsiPacket := (pkt 0x30 [1,2,3,4] .corrected); let sel := rk (pgCsi p) 0x104; (let need := if k.dt.toNat < 0x10 then 0 else k.payload.length + 2; (s.running (pgCsi p) = true) ∧ (k.hdr ≠ .bad) ∧ (k.vc.toNat = s.fld sel 3 0) ∧ ((s.bit (rk (pgCsi p) 0x100) 0 = false ∧ 0x30 ≤ k.dt.toNat ∧ k.dt.toNat ≤ 0x37 ∧ s.bit sel (8 + (k.dt.toNat - 0x30)) = true ∧ k.payload.length ≤ 16384 ∨ s.bit (rk (pgCsi p) 0x100) 0 = true ∧ (k.dt.toNat < 2 ∨ k.dt.toNat = s.fld sel 23 16 ∧ k.dt.toNat ∈ [0x1E, 0x24, 0x2B, 0x2C]))) ∧ (s.fld (rk (pgCsi p) 0x170) 18 0 + need ≤ 262144) ∧ (k.hdr = .corrected))) := by decide +kernel

/-- The hypotheses of Obligations.PacketIsQueuedOrCounted are met (its part PacketIsDiscardedAndCounted). -/
theorem witness_PacketIsDiscardedAndCounted :
    (let s : State := (csi0 0); let p : Fin 16 := 0; let k : CsiPacket := (pkt 0x30 [1,2,3,4] .bad); (s.running (pgCsi p) = true) ∧ (s.bit (rk (pgCsi p) 0x100) 0 = false) ∧ (k.hdr = .bad)) ∧
    (let s : State := (csi0 0); let p : Fin 16 := 0; let k : CsiPacket := (pkt 0x0 [1,2]); let onVc := k.vc.toNat = s.fld (rk (pgCsi p) 0x104) 3 0; (s.running (pgCsi p) = true) ∧ (s.bit (rk (pgCsi p) 0x100) 0 = false) ∧ (k.hdr ≠ .bad) ∧ (k.dt.toNat < 0x10) ∧ (onVc)) ∧
    (let s : State := (csi0 0); let p : Fin 16 := 0; let k : CsiPacket := (pkt 0x31 [1]); let onVc := k.vc.toNat = s.fld (rk (pgCsi p) 0x104) 3 0; (let enabled := 0x30 ≤ k.dt.toNat ∧ k.dt.toNat ≤ 0x37 ∧ s.bit (rk (pgCsi p) 0x104) (8 + (k.dt.toNat - 0x30)) = true; (s.running (pgCsi p) = true) ∧ (s.bit (rk (pgCsi p) 0x100) 0 = false) ∧ (k.hdr ≠ .bad) ∧ (¬ (k.dt.toNat < 0x10 ∧ onVc)) ∧ (¬ (onVc ∧ enabled)))) ∧
    (let s : State := (csi0 0); let p : Fin 16 := 0; let k : CsiPacket := (pkt 0x30 (zeros 17000) .corrected); let onVc := k.vc.toNat = s.fld (rk (pgCsi p) 0x104) 3 0; (let enabled := 0x30 ≤ k.dt.toNat ∧ k.dt.toNat ≤ 0x37 ∧ s.bit (rk (pgCsi p) 0x104) (8 + (k.dt.toNat - 0x30)) = true; (s.running (pgCsi p) = true) ∧ (s.bit (rk (pgCsi p) 0x100) 0 = false) ∧ (k.hdr ≠ .bad) ∧ (onVc) ∧ (enabled) ∧ (16384 < k.payload.length))) ∧
    (let s : State := ((csi0 0).wrN (rk 0x20 0x170) 262140); let p : Fin 16 := 0; let k : CsiPacket := (pkt 0x30 [1,2,3,4] .corrected); let onVc := k.vc.toNat = s.fld (rk (pgCsi p) 0x104) 3 0; (let enabled := 0x30 ≤ k.dt.toNat ∧ k.dt.toNat ≤ 0x37 ∧ s.bit (rk (pgCsi p) 0x104) (8 + (k.dt.toNat - 0x30)) = true; (let full := 262144 < s.fld (rk (pgCsi p) 0x170) 18 0 + (k.payload.length + 2); (s.running (pgCsi p) = true) ∧ (s.bit (rk (pgCsi p) 0x100) 0 = false) ∧ (k.hdr ≠ .bad) ∧ (onVc) ∧ (enabled) ∧ (k.payload.length ≤ 16384) ∧ (full)))) := by refine ⟨?_, ?_, ?_, ?_, ?_⟩ <;> decide +kernel

/-- The hypotheses of Obligations.EventWordBecomesARecord are met. -/
theorem witness_EventWordBecomesARecord :
    (let s : State := (csi1 0 [ev true, ev true] none); let p : Fin 16 := 0; let q : CsiQueued := ⟨ev true,5,7⟩; let rest : List CsiQueued := [⟨ev true,5,7⟩]; let d : Desc := descDirect; let thi : Nat := 3; let w := if d.swap then beNat q.pkt.payload else leNat q.pkt.payload; (let x : Int := (s.csiAt p).wraps * 2 ^ (d.thi.w + d.tlo.w) + thi * 2 ^ d.tlo.w + d.tlo.get w; (let r := (s.csiAt p).triple; (let T : Int := r.a + Int.fdiv ((x - r.b) * r.k) 16777216; (s.running (pgCsi p) = true) ∧ (s.bit (rk (pgCsi p) 0x100) 0 = false) ∧ ((s.csiAt p).out = []) ∧ ((s.csiAt p).queue = q :: rest) ∧ (s.csiDesc p = some d) ∧ ((s.csiAt p).prevThi = some thi) ∧ (0 < d.wb) ∧ (q.pkt.payload.length = d.wb) ∧ (d.typeOf (if d.swap then beNat q.pkt.payload else leNat q.pkt.payload) = some .event) ∧ (q.pkt.crcOk = true) ∧ ((q.fus : Int) < T))))) ∧
    (let s : State := (csi1 0 [ev false, ev true] none); let p : Fin 16 := 0; let q : CsiQueued := ⟨ev false,5,7⟩; let rest : List CsiQueued := [⟨ev true,5,7⟩]; let d : Desc := descDirect; let thi : Nat := 3; (s.running (pgCsi p) = true) ∧ (s.bit (rk (pgCsi p) 0x100) 0 = false) ∧ ((s.csiAt p).out = []) ∧ ((s.csiAt p).queue = q :: rest) ∧ (s.csiDesc p = some d) ∧ ((s.csiAt p).prevThi = some thi) ∧ (0 < d.wb) ∧ (q.pkt.payload.length = d.wb) ∧ (d.typeOf (if d.swap then beNat q.pkt.payload else leNat q.pkt.payload) = some .event) ∧ (q.pkt.crcOk = false)) := by refine ⟨?_, ?_⟩ <;> decide +kernel

/-- The hypotheses of Obligations.FrameLandsInItsBuffer are met. -/
theorem witness_FrameLandsInItsBuffer :
    (let s : State := (csi1 1 [(pkt 0 [1,2]), ev true] none); let p : Fin 16 := 0; let q : CsiQueued := ⟨(pkt 0 [1,2]),5,7⟩; let rest : List CsiQueued := [⟨ev true,5,7⟩]; (s.running (pgCsi p) = true) ∧ (s.bit (rk (pgCsi p) 0x100) 0 = true) ∧ ((s.csiAt p).queue = q :: rest) ∧ (q.pkt.dt.toNat = 0) ∧ ((s.csiAt p).frame = none)) ∧
    (let s : State := (csi1 1 [(pkt 0x2B [5,6,7] .good false), ev true] (some fr)); let p : Fin 16 := 0; let q : CsiQueued := ⟨(pkt 0x2B [5,6,7] .good false),5,7⟩; let rest : List CsiQueued := [⟨ev true,5,7⟩]; let f : OpenFrame := fr; let at_ := s.csiBufAddr p f.buffer; (let line := q.pkt.payload.take (s.csiStride p); (s.running (pgCsi p) = true) ∧ (s.bit (rk (pgCsi p) 0x100) 0 = true) ∧ ((s.csiAt p).queue = q :: rest) ∧ ((s.csiAt p).frame = some f) ∧ (s.memClean = true) ∧ (s.planes = []) ∧ (0x10 ≤ q.pkt.dt.toNat) ∧ (f.lines < s.csiHeight p) ∧ (at_ + 64 + f.lines * s.csiStride p + line.length ≤ lpddrEnd))) ∧
    (let s : State := (csi1 1 [(pkt 1 [1,2]), ev true] (some fr)); let p : Fin 16 := 0; let q : CsiQueued := ⟨(pkt 1 [1,2]),5,7⟩; let rest : List CsiQueued := [⟨ev true,5,7⟩]; let f : OpenFrame := fr; let at_ := s.csiBufAddr p f.buffer; (s.running (pgCsi p) = true) ∧ (s.bit (rk (pgCsi p) 0x100) 0 = true) ∧ ((s.csiAt p).queue = q :: rest) ∧ ((s.csiAt p).frame = some f) ∧ (s.memClean = true) ∧ (s.planes = []) ∧ (q.pkt.dt.toNat = 1) ∧ (at_ + 64 ≤ lpddrEnd)) := by refine ⟨?_, ?_, ?_⟩ <;> decide +kernel

/-- The hypotheses of Obligations.AlignmentIsMeasuredAndCommitted are met (its part TripleCommitsAsOne). -/
theorem witness_TripleCommitsAsOne :
    (let s : State := (up (regsOf State.reset [(rk 0x20 0x140, 5), (rk 0x20 0x150, 77), (rk 0x30 0x194, 5), (rk 0x20 0x148, 77)])); let h : Fin 2 := 0; let v : Word := (1:Word); (s.reaches h = true) ∧ (s.isOwner h = true) ∧ (v.getLsbD 0 = true)) := by decide +kernel

end G1

namespace G2

def regsOf (s : State) (l : List (Nat × Nat)) : State := l.foldl (fun s e => s.wrN e.1 e.2) s
def up (s : State) : State := s.setPort 0 { link := true, inReset := false }
def e0 (l : List (Nat × Nat)) : State := regsOf State.reset ([(rk 0x30 0x10, 2), (rk 0x30 0x120, 0x301), (rk 0x30 0x124, 0x1234), (rk 0x30 0x10C, 1), (rk 0x30 0x188, 1), (rk 0x30 0x180, 0x8000),(rk 0x30 0x178, 1), (rk 0x30 0x170, 0x10000), (rk 0x30 0x138, 0x03008002)] ++ l)
def frm (t : List Byte) (pl : List Byte) : List Byte := zeros 12 ++ t ++ pl
def ip4 : List Byte := [0x45,0,0,0,0,0,0,0,1,17,0,0] ++ [1,2,3,4,5,6,7,8] ++ [0,1,0x12,0x34,0,12,0,0] ++ [9,9,9,9]
def u4 : Udp := udpAt (frm [8,0] ip4) 34 [0x01020304]
def pf : PpFrame := { udp := zeros 2 ++ List.replicate 30 7, tb0 := 77, fus := 66, len := 60 }
def i0 (q : SpiPort) : State := ({regsOf State.reset [(rk pgImu 0x10, 2), (imuKey 0 0, 1), (imuKey 0 8, 0x00050014), (imuKey 0 0xC, 0x80003000), (imuKey 0 0x10, 0x80001001), (imuKey 0 0x2C, 7)] with time := {tb0 := 600000, fus := 7000*2^40}}).setSpi 0 q
def wh (q : WheelIn) (sel : Nat) : State := ({regsOf State.reset [(rk pgWheel 0x10, 2), (wheelKey 0 0, 1+sel*2), (wheelKey 0 4, 100), (wheelKey 0 8, 0x3F800000)] with time := {tb0 := 600000, fus := 7000*2^40}}).setWheel 0 q
def cf (id : Nat) (rtr := false): CanFrame := {ident := BitVec.ofNat 29 id, ide := false, rtr := rtr, fd := false, data := [1,2,3,4]}
def cn (act : Nat) (q : CanCtl) (st : Nat := 0) : State := (up (regsOf State.reset [(rk (pgCan 0) 0x10, 2), (canKey 0 0x100, 0x11),(canKey 0 0x200, 0x55), (canKey 0 0x204, 0x7FF), (canKey 0 0x208, 0x15), (canKey 0 0x20C, 0x3F+act*2^30), (slotKey 2 0, 0x100), (slotKey 2 4, 0x80004), (slotKey 2 0xC, 0x40000000), (slotKey 2 0x10, 0x40000000), (slotKey 2 8, 2), (canKey 0 0x110, st)])).setCan 0 q

/-- The hypotheses of Obligations.EthernetFrameBecomesABatch are met (its part ReceivedFrameIsRouted). -/
theorem witness_ReceivedFrameIsRouted :
    (let s : State := (e0 []); let p : Fin 8 := 0; let f : List Byte := (frm [8,0] ip4); let ok : Bool := true; let u : Udp := u4; let pg := pgEth p; (let e := s.ethAt p; (let fits := e.held + f.length ≤ 65536; (let pause := (ethType f).1 = 0x8808 ∧ beAt f (ethType f).2 2 = 1; (s.running pg = true) ∧ (fits) ∧ (ok = true) ∧ (¬ pause) ∧ (s.macAccepts p f = true) ∧ ((ethType f).1 ≠ 0x88F7) ∧ (udpOf f = some u) ∧ (s.ppMatches p u = true))))) ∧
    (let s : State := (e0 []); let p : Fin 8 := 0; let f : List Byte := (frm [8,0] ip4); let ok : Bool := false; let pg := pgEth p; (let e := s.ethAt p; (let fits := e.held + f.length ≤ 65536; (s.running pg = true) ∧ (fits) ∧ (ok = false)))) ∧
    (let s : State := (e0 []); let p : Fin 8 := 0; let f : List Byte := (frm [0x88,8] [0,1,5]); let ok : Bool := true; let pg := pgEth p; (let e := s.ethAt p; (let fits := e.held + f.length ≤ 65536; (let pause := (ethType f).1 = 0x8808 ∧ beAt f (ethType f).2 2 = 1; (s.running pg = true) ∧ (fits) ∧ (ok = true) ∧ (pause))))) ∧
    (let s : State := (e0 []); let p : Fin 8 := 0; let f : List Byte := (frm [0x99,8] [0,1,5]); let ok : Bool := true; let pg := pgEth p; (let e := s.ethAt p; (let fits := e.held + f.length ≤ 65536; (let pause := (ethType f).1 = 0x8808 ∧ beAt f (ethType f).2 2 = 1; (let base := s.rd64 (rk pg 0x180); (let rec_ := s.stampBlock p f.length false ++ f; (s.running pg = true) ∧ (fits) ∧ (ok = true) ∧ (¬ pause) ∧ (s.macAccepts p f = true) ∧ ((ethType f).1 ≠ 0x88F7) ∧ (udpOf f = none) ∧ (s.memClean = true) ∧ (s.planes = []) ∧ (e.ringOff + rec_.length < s.rdN (rk pg 0x188) * 4096) ∧ (base + e.ringOff + rec_.length ≤ lpddrEnd))))))) ∧
    (let s : State := (e0 []); let p : Fin 8 := 0; let f : List Byte := (zeros 65537); let pg := pgEth p; (let e := s.ethAt p; (let fits := e.held + f.length ≤ 65536; (s.running pg = true) ∧ (¬ fits)))) := by refine ⟨?_, ?_, ?_, ?_, ?_⟩ <;> decide +kernel

/-- The hypotheses of Obligations.EthernetFrameBecomesABatch are met (its part PacketBecomesABatch). -/
theorem witness_PacketBecomesABatch :
    (let s : State := ((e0 []).setEth 0 {ppQueue := [pf, pf], batchSeq := 5}); let p : Fin 8 := 0; let f : PpFrame := pf; let rest : List PpFrame := [pf]; let pg := pgEth p; (let e := s.ethAt p; (let count := s.fld (rk pg 0x138) 31 24; (let first := s.fld (rk pg 0x138) 11 0; (let stride := s.fld (rk pg 0x138) 23 12; (let n := min count ((f.udp.length - first) / stride); (let at_ := s.rd64 (rk pg 0x170) + e.batches; (s.running pg = true) ∧ (e.ppQueue = f :: rest) ∧ (0 < stride) ∧ (0 < n) ∧ ((s.ppLoc p 8).en = false) ∧ (s.memClean = true) ∧ (s.planes = []) ∧ (e.batches + (32 + 16 * n) < s.rdN (rk pg 0x178) * 4096) ∧ (at_ + (32 + 16 * n) ≤ lpddrEnd)))))))) ∧
    (let s : State := ((e0 []).setEth 0 {ppQueue := [{pf with udp := zeros 3}, pf], batchSeq := 5}); let p : Fin 8 := 0; let f : PpFrame := {pf with udp := zeros 3}; let rest : List PpFrame := [pf]; let pg := pgEth p; (let e := s.ethAt p; (let count := s.fld (rk pg 0x138) 31 24; (let first := s.fld (rk pg 0x138) 11 0; (let stride := s.fld (rk pg 0x138) 23 12; (let n := min count ((f.udp.length - first) / stride); (s.running pg = true) ∧ (e.ppQueue = f :: rest) ∧ (0 < stride) ∧ (n = 0))))))) := by refine ⟨?_, ?_⟩ <;> decide +kernel

/-- The hypotheses of Obligations.InertialPortsSample are met (its part SpiPortSamples). -/
theorem witness_SpiPortSamples :
    (let s : State := (i0 {active := some (⟨4,5⟩,[1,2,3]), pendEdge := some ⟨88,90⟩}); let sp : Fin 8 := 0; let rising : Bool := true; let st : Stamp := ⟨4,5⟩; let d : List Byte := [1,2,3]; let q := s.spiAt sp; (s.running pgImu = true) ∧ (s.bit (imuKey sp 0) 0 = true) ∧ (s.bit (imuKey sp 0) 2 ≠ rising) ∧ (q.waiting = none ∧ q.active ≠ none) ∧ (q.pendEdge ≠ none) ∧ (q.active = some (st, d)) ∧ ((s.spiHeld sp).length < 64)) ∧
    (let s : State := (i0 {lastEdge := some 3, rateFrom := some 3}); let sp : Fin 8 := 0; let rising : Bool := true; let edge : Nat := 3; let q := s.spiAt sp; (s.running pgImu = true) ∧ (s.bit (imuKey sp 0) 0 = true) ∧ (s.bit (imuKey sp 0) 2 ≠ rising) ∧ (q.waiting = none) ∧ (q.active = none) ∧ (q.rateFrom = some edge) ∧ (edge < s.time.tb0) ∧ (q.lastEdge = some edge) ∧ (edge + 4 * (125000 / 2 ^ s.fld (imuKey sp 0) 17 16) ≤ s.time.tb0) ∧ (s.bit (imuKey sp 0x28) 0 = false)) ∧
    (let s : State := (i0 {waiting := some ⟨⟨4,5⟩,5,true⟩}); let sp : Fin 8 := 0; let rising : Bool := true; let w : SpiWait := ⟨⟨4,5⟩,5,true⟩; let miso : List Byte := [1,2,3,4,5,6,7]; let q := s.spiAt sp; (let n := min (s.fld (imuKey sp 8) 7 2 + 1) 32; (s.running pgImu = true) ∧ (s.bit (imuKey sp 0) 0 = true) ∧ (s.bit (imuKey sp 0) 2 ≠ rising) ∧ (q.waiting = some w) ∧ (w.pended = true) ∧ (w.due ≤ s.time.tb0) ∧ (n ≤ miso.length))) ∧
    (let s : State := (i0 {waiting := some ⟨⟨4,5⟩,5,false⟩, pendEdge := some ⟨6,7⟩}); let sp : Fin 8 := 0; let rising : Bool := true; let w : SpiWait := ⟨⟨4,5⟩,5,false⟩; let q := s.spiAt sp; (s.running pgImu = true) ∧ (s.bit (imuKey sp 0) 0 = true) ∧ (s.bit (imuKey sp 0) 2 ≠ rising) ∧ (q.waiting = some w ∧ w.pended = false) ∧ (q.pendEdge ≠ none)) := by refine ⟨?_, ?_, ?_, ?_⟩ <;> decide +kernel

/-- The hypotheses of Obligations.InertialPortsSample are met (its part WheelSpeed). -/
theorem witness_WheelSpeed :
    (let s : State := (wh {} 0); let w : Fin 8 := 0; let rising : Bool := true; let q := s.wheelAt w; (s.running pgWheel = true) ∧ (s.bit (wheelKey w 0) 0 = true) ∧ (s.fld (wheelKey w 0) 2 1 = (if rising then 0 else 1)) ∧ (q.last = none) ∧ (q.queue.length < 16) ∧ (q.sampled ≠ some (s.now / s.chanTin (48 + w))) ∧ (q.queue = []) ∧ (q.edge = none)) ∧
    (let s : State := (wh {last := some 5000, queue := [⟨60, 5000⟩], edge := some 4000} 2); let w : Fin 8 := 0; let last : Nat := 5000; let q := s.wheelAt w; let q' := q.queue.foldl (s.wheelTake w) q; let e := s.time.tb0 - last; (s.running pgWheel = true) ∧ (s.bit (wheelKey w 0) 0 = true) ∧ (2 ≤ s.fld (wheelKey w 0) 2 1) ∧ (q.last = some last) ∧ (2 * s.fld (wheelKey w 4) 15 0 ≤ e) ∧ (q.queue.length < 16) ∧ (q.sampled ≠ some (s.now / s.chanTin (48 + w))) ∧ (q.queue = [⟨60, 5000⟩]) ∧ (q.edge = some 4000) ∧ (q'.edge = some last) ∧ (q'.period = some 1000) ∧ (e ≤ s.rdN (wheelKey w 0xC) * 1000000) ∧ (1000 < e)) ∧
    (let s : State := (wh {last := some 599900} 0); let w : Fin 8 := 0; let q := s.wheelAt w; (s.running pgWheel = true) ∧ (s.bit (wheelKey w 0) 0 = true) ∧ (q.last = some 599900) ∧ (s.time.tb0 - 599900 < 2 * s.fld (wheelKey w 4) 15 0)) ∧
    (let s : State := (wh {last := some 5, queue := List.replicate 16 ⟨1, 5⟩} 0); let w : Fin 8 := 0; let q := s.wheelAt w; (s.running pgWheel = true) ∧ (s.bit (wheelKey w 0) 0 = true) ∧ (16 ≤ q.queue.length)) ∧
    (let s : State := (wh {edge := some 5000, period := some 1000000, speed := 7} 0); let w : Fin 8 := 0; let q := s.wheelAt w; let q' := q.queue.foldl (s.wheelTake w) q; let e := s.time.tb0 - 5000; (s.running pgWheel = true) ∧ (s.bit (wheelKey w 0) 0 = true) ∧ (q.sampled ≠ some (s.now / s.chanTin (48 + w))) ∧ (q'.edge = some 5000) ∧ (q'.period = some 1000000) ∧ (e ≤ s.rdN (wheelKey w 0xC) * 1000000) ∧ (e ≤ 1000000)) ∧
    (let s : State := {(wh {edge := some 5000, period := some 100, speed := 7} 0) with time := {tb0 := 600000000}}; let w : Fin 8 := 0; let q := s.wheelAt w; let q' := q.queue.foldl (s.wheelTake w) q; (s.running pgWheel = true) ∧ (s.bit (wheelKey w 0) 0 = true) ∧ (q.sampled ≠ some (s.now / s.chanTin (48 + w))) ∧ (q'.edge = some 5000) ∧ (q'.period = some 100) ∧ (s.rdN (wheelKey w 0xC) * 1000000 < s.time.tb0 - 5000)) ∧
    (let s : State := (wh {sampled := some 3} 0); let w : Fin 8 := 0; (s.running pgWheel = true) ∧ (s.bit (wheelKey w 0) 0 = true) ∧ ((s.wheelAt w).sampled = some (s.now / s.chanTin (48 + w)))) := by refine ⟨?_, ?_, ?_, ?_, ?_, ?_, ?_⟩ <;> decide +kernel

/-- The hypotheses of Obligations.CanControllerWorks are met (its part CanFrameReachesItsFilter). -/
theorem witness_CanFrameReachesItsFilter :
    (let s : State := (cn 1 {tx := [cf 9, cf 0x15, cf 5]}); let c : Fin 4 := 0; let f : CanFrame := (cf 0x15); let s := s.wrN (rk pgMem 0x10) 2; let k : Fin 64 := (if 0x15 = 0x55 then 0 else 1); let first := s.canMatches c k f = true ∧ ∀ i ∈ List.range k, s.canMatches c i f = false; (s.running (pgCan c) = true) ∧ (s.bit (canKey c 0x100) 0 = true) ∧ (s.fld (canKey c 0x110) 17 16 ≠ 2) ∧ (s.running pgMem = true) ∧ ((s.canAt c).inq = []) ∧ ((f.fd = true → s.bit (canKey c 0x100) 3 = true)) ∧ (first) ∧ (s.fld (canKey c (0x204 + 8 * k)) 31 30 = 1) ∧ (s.fld (canKey c 0x100) 2 1 = 0) ∧ (f ∈ (s.canAt c).tx)) ∧
    (let s : State := (cn 3 {tx := [cf 9, cf 0x15, cf 5]}); let c : Fin 4 := 0; let f : CanFrame := (cf 0x15); let s := s.wrN (rk pgMem 0x10) 2; let k : Fin 64 := (if 0x15 = 0x55 then 0 else 1); let first := s.canMatches c k f = true ∧ ∀ i ∈ List.range k, s.canMatches c i f = false; (s.running (pgCan c) = true) ∧ (s.bit (canKey c 0x100) 0 = true) ∧ (s.fld (canKey c 0x110) 17 16 ≠ 2) ∧ (s.running pgMem = true) ∧ ((s.canAt c).inq = []) ∧ ((f.fd = true → s.bit (canKey c 0x100) 3 = true)) ∧ (first) ∧ (s.fld (canKey c (0x204 + 8 * k)) 31 30 = 3)) ∧
    (let s : State := ((List.range 64).foldl (fun s i => s.wrN (canKey 0 (0x200+8*i)) 0x40000000) (cn 1 {tx := []})); let c : Fin 4 := 0; let f : CanFrame := (cf 0x15); let s := s.wrN (rk pgMem 0x10) 2; (s.running (pgCan c) = true) ∧ (s.bit (canKey c 0x100) 0 = true) ∧ (s.fld (canKey c 0x110) 17 16 ≠ 2) ∧ (s.running pgMem = true) ∧ ((s.canAt c).inq = []) ∧ ((f.fd = true → s.bit (canKey c 0x100) 3 = true)) ∧ ((∀ i ∈ List.range 64, s.canMatches c i f = false))) ∧
    (let s : State := (cn 1 {inq := List.replicate 31 (cf 9, {fus := 4, tb0 := 4})}); let c : Fin 4 := 0; let f : CanFrame := (cf 0x15); (s.running (pgCan c) = true) ∧ (s.bit (canKey c 0x100) 0 = true) ∧ (s.fld (canKey c 0x110) 17 16 ≠ 2) ∧ ((f.fd = true → s.bit (canKey c 0x100) 3 = true)) ∧ (s.running pgMem = false) ∧ ((s.canAt c).inq.length < 32)) ∧
    (let s : State := (cn 1 {inq := List.replicate 32 (cf 9, {fus := 4, tb0 := 4})}); let c : Fin 4 := 0; let f : CanFrame := (cf 0x15); (s.running (pgCan c) = true) ∧ (s.bit (canKey c 0x100) 0 = true) ∧ (s.fld (canKey c 0x110) 17 16 ≠ 2) ∧ ((f.fd = true → s.bit (canKey c 0x100) 3 = true)) ∧ (s.running pgMem = false) ∧ (32 ≤ (s.canAt c).inq.length)) := by refine ⟨?_, ?_, ?_, ?_, ?_⟩ <;> decide +kernel

/-- The hypotheses of Obligations.CanControllerWorks are met (its part CanCommandsAndSlots). -/
theorem witness_CanCommandsAndSlots :
    (let s : State := ((cn 1 ({}:CanCtl) 0x20005).setSlot 2 {value := 6, stamp := some 5}); let h : Fin 2 := 0; let c : Fin 4 := 0; let f : CanFrame := (cf 4 true); let k : Fin 8 := (Fin.ofNat 8 2); let stamp : Nat := 5; let pg := pgCan c; let n := s.now / s.chanTin (56 + k); (0 < s.fld (slotKey k 4) 21 16) ∧ ((s.slotAt k).sampled ≠ some n) ∧ ((s.slotAt k).stamp = some stamp) ∧ (s.fld (canKey c 0x110) 17 16 = 2) ∧ (s.issues h pg = true) ∧ ((s.canAt c).tx.length < 8) ∧ (f.rtr = true)) ∧
    (let s : State := ((cn 1 ({}:CanCtl) 0).setSlot 2 {value := 6, stamp := some 5}); let h : Fin 2 := 0; let c : Fin 4 := 0; let f : CanFrame := (cf 4 false); let pg := pgCan c; (s.issues h pg = true) ∧ ((s.canAt c).tx.length < 8) ∧ (f.rtr = false)) ∧
    (let s : State := ((cn 1 {tx := List.replicate 8 (cf 3)} 0).setSlot 2 {value := 6, stamp := some 5}); let h : Fin 2 := 0; let c : Fin 4 := 0; let pg := pgCan c; (s.issues h pg = true) ∧ (8 ≤ (s.canAt c).tx.length)) ∧
    (let s : State := (cn 1 ({}:CanCtl) 0); let k : Fin 8 := 2; let s := s.setSlot 2 {value := 6, stamp := some 5, sampled := some (s.now / s.chanTin 58)}; let n := s.now / s.chanTin (56 + k); (s.slotAt k).sampled = some n) := by refine ⟨?_, ?_, ?_, ?_⟩ <;> decide +kernel

end G2

namespace G3

def regsOf (s : State) (l : List (Nat × Nat)) : State := l.foldl (fun s e => s.wrN e.1 e.2) s
def f0 (l : List (Nat × Nat)) (w : DWord) : State := ({regsOf State.reset ([(rk (pgFend 0) 0x10, 2), (fk 0 1 0, 1), (fk 0 1 4, 0x30003), (fk 0 1 0x54, 1), (fk 0 1 0x10, 1), (fk 0 1 0x18, 3), (fk 0 1 8, 0)] ++ l) with time := {tb0 := 600000, fus := 70000*16*2^40}}).setCsi 1 { out := [w, 5]}
def ev (x y pol kind t : Nat) : DWord := ze64 1 x y (pol=1) kind t
def put2 (s : State) (a v : Nat) : State := s.putLE a 2 v
def sk (s : State) : State := s.setFend 0 {clearEnd := [(1, 5)]}
def lv (n : Nat) (w : Word) : LoopVal := { stamp := n, words := [w,2,3] }
def lb (b : LoopBuf) : State := (List.range 23).foldl (fun s k => s.setLoop k b) {f0 [] 5 with bell := {started := true}}

/-- The hypotheses of Obligations.EventPassesTheFirstStages are met. -/
theorem witness_EventPassesTheFirstStages :
    (let w := (((f0 [(fk 0 1 0x54, 0)] (ev 1 2 1 0 5000)).csiAt 1).out.getD 0 0); let s : State := (f0 [(fk 0 1 0x54, 0)] (ev 1 2 1 0 5000)); let p : Fin 16 := 1; let rest : List DWord := [5]; let h := p.val / 8; (let k := p.val % 8; (let live := s.running (pgFend h) = true ∧ s.bit (fk h k 0x54) 0 = true; ((s.csiAt p).out = w :: rest) ∧ (s.fendTurn h = some k) ∧ (s.linkFull h = false) ∧ (¬ live)))) ∧
    (let w := (((f0 [] (ev 1 2 1 1 5000)).csiAt 1).out.getD 0 0); let s : State := (f0 [] (ev 1 2 1 1 5000)); let p : Fin 16 := 1; let rest : List DWord := [5]; let h := p.val / 8; (let k := p.val % 8; (let live := s.running (pgFend h) = true ∧ s.bit (fk h k 0x54) 0 = true; ((s.csiAt p).out = w :: rest) ∧ (s.fendTurn h = some k) ∧ (s.linkFull h = false) ∧ (live) ∧ (bits w.toNat 34 32 ≠ 0)))) ∧
    (let w := (((f0 [] (ev 1 4 1 0 5000)).csiAt 1).out.getD 0 0); let s : State := (f0 [] (ev 1 4 1 0 5000)); let p : Fin 16 := 1; let rest : List DWord := [5]; let h := p.val / 8; (let k := p.val % 8; (let x := bits w.toNat 59 48; (let y := bits w.toNat 47 36; (let live := s.running (pgFend h) = true ∧ s.bit (fk h k 0x54) 0 = true; (let inside := x < s.fld (fk h k 4) 11 0 + 1 ∧ y < s.fld (fk h k 4) 27 16 + 1; ((s.csiAt p).out = w :: rest) ∧ (s.fendTurn h = some k) ∧ (s.linkFull h = false) ∧ (live) ∧ (bits w.toNat 34 32 = 0) ∧ (¬ inside))))))) ∧
    (let w := ((((f0 [(fk 0 1 8,0x100)] (ev 1 2 1 0 5000)).setByte ((f0 [] 0).stateAddr 0 1 1 2) 0x85).csiAt 1).out.getD 0 0); let s : State := ((f0 [(fk 0 1 8,0x100)] (ev 1 2 1 0 5000)).setByte ((f0 [] 0).stateAddr 0 1 1 2) 0x85); let p : Fin 16 := 1; let rest : List DWord := [5]; let h := p.val / 8; (let k := p.val % 8; (let x := bits w.toNat 59 48; (let y := bits w.toNat 47 36; (let a := s.stateAddr h k x y; (let b := (s.byte a).toNat; (let c := min (b % 64 + 1) 63; (let auto := b.testBit 6 || (s.fld (fk h k 8) 13 8 != 0 && decide (s.fld (fk h k 8) 13 8 < c)); (let masked := auto || (b.testBit 7 && s.bit (fk h k 0) 5); (let live := s.running (pgFend h) = true ∧ s.bit (fk h k 0x54) 0 = true; (let inside := x < s.fld (fk h k 4) 11 0 + 1 ∧ y < s.fld (fk h k 4) 27 16 + 1; ((s.csiAt p).out = w :: rest) ∧ (s.fendTurn h = some k) ∧ (s.linkFull h = false) ∧ (live) ∧ (bits w.toNat 34 32 = 0) ∧ (inside) ∧ (masked = true)))))))))))) ∧
    (let w := (((put2 (f0 [(fk 0 1 8,0x40)] (ev 1 2 1 0 5000)) ((f0 [] 0).surfAddr 0 1 0 1 2) 300).csiAt 1).out.getD 0 0); let s : State := (put2 (f0 [(fk 0 1 8,0x40)] (ev 1 2 1 0 5000)) ((f0 [] 0).surfAddr 0 1 0 1 2) 300); let p : Fin 16 := 1; let rest : List DWord := [5]; let h := p.val / 8; (let k := p.val % 8; (let x := bits w.toNat 59 48; (let y := bits w.toNat 47 36; (let now := bits w.toNat 19 4; (let a := s.stateAddr h k x y; (let b := (s.byte a).toNat; (let c := min (b % 64 + 1) 63; (let auto := b.testBit 6 || (s.fld (fk h k 8) 13 8 != 0 && decide (s.fld (fk h k 8) 13 8 < c)); (let masked := auto || (b.testBit 7 && s.bit (fk h k 0) 5); (let young (q : Nat) := ((surfAge now (s.getLE (s.surfAddr h k q x y) 2)).map (fun g => decide (g < s.fld (fk h k 8) 7 0))).getD false; (let apart (q : Nat) := a < s.surfAddr h k q x y ∨ s.surfAddr h k q x y + 1 < a; (let live := s.running (pgFend h) = true ∧ s.bit (fk h k 0x54) 0 = true; (let inside := x < s.fld (fk h k 4) 11 0 + 1 ∧ y < s.fld (fk h k 4) 27 16 + 1; ((s.csiAt p).out = w :: rest) ∧ (s.fendTurn h = some k) ∧ (s.linkFull h = false) ∧ (live) ∧ (bits w.toNat 34 32 = 0) ∧ (inside) ∧ (masked = false) ∧ (apart 0) ∧ (apart 1) ∧ ((young 0 || young 1) = true))))))))))))))) ∧
    (let w := ev 1 2 1 0 5000; let s : State := (f0 [] w).setCsi 2 { out := [w, 5] }; let p : Fin 16 := 2; let rest : List DWord := [5]; let h := p.val / 8; let k := p.val % 8; ((s.csiAt p).out = w :: rest) ∧ (s.fendTurn h ≠ some k ∨ s.linkFull h = true)) := by refine ⟨?_, ?_, ?_, ?_, ?_, ?_⟩ <;> decide +kernel

/-- The hypotheses of Obligations.EventUpdatesItsSurface are met. -/
theorem witness_EventUpdatesItsSurface :
    (let w := (((f0 [] (ev 1 2 1 0 5000)).csiAt 1).out.getD 0 0); let s : State := (f0 [] (ev 1 2 1 0 5000)); let p : Fin 16 := 1; let rest : List DWord := [5]; let h := p.val / 8; (let k := p.val % 8; (let x := bits w.toNat 59 48; (let y := bits w.toNat 47 36; (let now := bits w.toNat 19 4; (let a := s.stateAddr h k x y; (let e := s.surfAddr h k (bits w.toNat 35 35) x y; (let newer := s.getLE e 2 ≠ 0xFFFF ∧ 61440 ≤ (now + 65536 - s.getLE e 2) % 65536; (let shed := s.shedClass h k (16 * x) (16 * y) < s.fld (rk (pgFend h) 0x500) 4 0; ((s.csiAt p).out = w :: rest) ∧ (s.fendTurn h = some k) ∧ (s.linkFull h = false) ∧ (s.running (pgFend h) = true) ∧ (s.bit (fk h k 0x54) 0 = true) ∧ (bits w.toNat 34 32 = 0) ∧ (x < s.fld (fk h k 4) 11 0 + 1) ∧ (y < s.fld (fk h k 4) 27 16 + 1) ∧ (s.byte a = 0) ∧ (s.fld (fk h k 8) 13 8 = 0) ∧ (s.fld (fk h k 8) 7 0 = 0) ∧ (s.fld (fk h k 0) 4 1 = 0) ∧ (a < e ∨ e + 1 < a) ∧ (¬ newer) ∧ (¬ shed)))))))))) ∧
    (let w := (((f0 [(rk (pgFend 0) 0x500, 3)] (ev 1 2 1 0 5000)).csiAt 1).out.getD 0 0); let s : State := (f0 [(rk (pgFend 0) 0x500, 3)] (ev 1 2 1 0 5000)); let p : Fin 16 := 1; let rest : List DWord := [5]; let h := p.val / 8; (let k := p.val % 8; (let x := bits w.toNat 59 48; (let y := bits w.toNat 47 36; (let a := s.stateAddr h k x y; (let e := s.surfAddr h k (bits w.toNat 35 35) x y; (let shed := s.shedClass h k (16 * x) (16 * y) < s.fld (rk (pgFend h) 0x500) 4 0; ((s.csiAt p).out = w :: rest) ∧ (s.fendTurn h = some k) ∧ (s.linkFull h = false) ∧ (s.running (pgFend h) = true) ∧ (s.bit (fk h k 0x54) 0 = true) ∧ (bits w.toNat 34 32 = 0) ∧ (x < s.fld (fk h k 4) 11 0 + 1) ∧ (y < s.fld (fk h k 4) 27 16 + 1) ∧ (s.byte a = 0) ∧ (s.fld (fk h k 8) 13 8 = 0) ∧ (s.fld (fk h k 8) 7 0 = 0) ∧ (s.fld (fk h k 0) 4 1 = 0) ∧ (a < e ∨ e + 1 < a) ∧ (shed)))))))) ∧
    (let w := (((put2 (f0 [] (ev 1 2 1 0 5000)) ((f0 [] 0).surfAddr 0 1 1 1 2) 320).csiAt 1).out.getD 0 0); let s : State := (put2 (f0 [] (ev 1 2 1 0 5000)) ((f0 [] 0).surfAddr 0 1 1 1 2) 320); let p : Fin 16 := 1; let rest : List DWord := [5]; let h := p.val / 8; (let k := p.val % 8; (let x := bits w.toNat 59 48; (let y := bits w.toNat 47 36; (let now := bits w.toNat 19 4; (let a := s.stateAddr h k x y; (let e := s.surfAddr h k (bits w.toNat 35 35) x y; (let newer := s.getLE e 2 ≠ 0xFFFF ∧ 61440 ≤ (now + 65536 - s.getLE e 2) % 65536; ((s.csiAt p).out = w :: rest) ∧ (s.fendTurn h = some k) ∧ (s.linkFull h = false) ∧ (s.running (pgFend h) = true) ∧ (s.bit (fk h k 0x54) 0 = true) ∧ (bits w.toNat 34 32 = 0) ∧ (x < s.fld (fk h k 4) 11 0 + 1) ∧ (y < s.fld (fk h k 4) 27 16 + 1) ∧ (s.byte a = 0) ∧ (s.fld (fk h k 8) 13 8 = 0) ∧ (s.fld (fk h k 8) 7 0 = 0) ∧ (s.fld (fk h k 0) 4 1 = 0) ∧ (a < e ∨ e + 1 < a) ∧ (newer))))))))) := by refine ⟨?_, ?_, ?_⟩ <;> decide +kernel

/-- The hypotheses of Obligations.SurfacesAreClearedAndSwept are met (its part SensorStartsWithCleanSurfaces). -/
theorem witness_SensorStartsWithCleanSurfaces :
    (let s : State := (sk ((f0 [(fk 0 1 0x54, 2)] 5).setByte ((f0 [] 0).stateAddr 0 1 1 2) 0x85)); let j : Fin 16 := 1; let i : Nat := 0; let h := j.val / 8; (let k := j.val % 8; (let wh := (s.fld (fk h k 4) 11 0 + 1) * (s.fld (fk h k 4) 27 16 + 1); (let sf := surfBase h + s.fld (fk h k 0x10) 13 0 * 4096; (let st := surfBase h + s.fld (fk h k 0x18) 13 0 * 4096; (s.bit (fk h k 0x54) 1 = true) ∧ (SMap.get (fun _ => 0) (s.fendAt h).clearEnd k ≤ s.time.tb0) ∧ (st + wh ≤ sf ∨ sf + 4 * wh ≤ st) ∧ (i < 4 * wh) ∧ (i < wh) ∧ (¬ (sf ≤ i ∧ i < sf + 4 * wh)) ∧ (¬ (st ≤ i ∧ i < st + wh))))))) ∧
    (let s : State := (f0 [(fk 0 1 0x54, 0)] 5); let j : Fin 16 := 1; let h := j.val / 8; (let k := j.val % 8; (s.bit (fk h k 0) 0 = true) ∧ (s.running (pgFend h) = true) ∧ (s.fld (fk h k 0x54) 1 0 = 0) ∧ (s.sensRefused h k = true))) ∧
    (let s : State := (f0 [(fk 0 1 0x54, 0), (fk 0 1 8, 0xA0000), (fk 0 1 0xC, 0x80001), (fk 0 1 0x1C, 5)] 5); let j : Fin 16 := 1; let h := j.val / 8; (let k := j.val % 8; (s.bit (fk h k 0) 0 = true) ∧ (s.running (pgFend h) = true) ∧ (s.fld (fk h k 0x54) 1 0 = 0) ∧ (s.sensRefused h k = false))) ∧
    (let s : State := ((f0 [] 5).setT0 1 (some 9)); let j : Fin 16 := 1; let t0 : Nat := ((((f0 [] 5).setT0 1 (some 9)).t0At 1).getD 0); let h := j.val / 8; (let k := j.val % 8; (s.t0At j = some t0) ∧ (s.bit (fk h k 0x54) 0 = true))) := by refine ⟨?_, ?_, ?_, ?_⟩ <;> decide +kernel

/-- The hypotheses of Obligations.SurfacesAreClearedAndSwept are met (its part SweeperVisitsEveryEntry). -/
theorem witness_SweeperVisitsEveryEntry :
    (let s : State := (put2 ((f0 [(fk 0 1 8, 0x400)] 5).setByte ((f0 [] 0).stateAddr 0 1 1 2) 0xC5) ((f0 [] 0).surfAddr 0 1 1 1 2) 4460); let hub : Fin 2 := 0; let k : Fin 8 := 1; let i : Nat := 0; let wh := (s.fld (fk hub k 4) 11 0 + 1) * (s.fld (fk hub k 4) 27 16 + 1); (let sf := surfBase hub + s.fld (fk hub k 0x10) 13 0 * 4096; (let st := surfBase hub + s.fld (fk hub k 0x18) 13 0 * 4096; (s.running (pgFend hub) = true) ∧ ((s.fendAt hub).sweepAt ≤ s.now) ∧ ((∀ j ∈ List.range 8, s.bit (fk hub j 0x54) 0 = decide (j = k))) ∧ (st + wh ≤ sf ∨ sf + 4 * wh ≤ st) ∧ (i < 2 * wh) ∧ (i < wh) ∧ (¬ (sf ≤ i ∧ i < sf + 4 * wh)) ∧ (¬ (st ≤ i ∧ i < st + wh))))) := by decide +kernel

/-- The hypotheses of Obligations.LoopValueIsAdopted are met. -/
theorem witness_LoopValueIsAdopted :
    (let s : State := (lb {flight := [lv 6 4, lv 1 1], waiting := (some (lv 5 3)), adopted := none, fresh := true}); let t : LoopTarget := (LoopTarget.fendRate 1); let hub : Fin 2 := 1; let v : LoopVal := ((some (lv 5 3)).getD (lv 3 3)); let b := s.loopAt (loopKey t); (let f := s.loopAt hub; (let g := s.loopAt (21 + hub); (b.fresh = true) ∧ (s.isFresh t (b.waiting.orElse (fun _ => b.adopted)) = false) ∧ (t = .fendRate hub) ∧ (s.bell.started = true) ∧ (s.stepEnd (s.fendAt hub).window ≤ s.now + 2 * s.stepP) ∧ (f.waiting = some v) ∧ (g.waiting = some v) ∧ ((v.words.getD 0 0).toNat < 32)))) ∧
    (let s : State := (lb {flight := [lv 6 4, lv 1 1], waiting := none, adopted := none, fresh := true}); let t : LoopTarget := .gridPose; let v : LoopVal := (lv 6 4); let fl : List LoopVal := [lv 1 1]; let b := s.loopAt (loopKey t); (b.flight = v :: fl) ∧ ((∀ h, t ≠ .fendShed h)) ∧ (b.fresh = true) ∧ (s.isFresh t (b.waiting.orElse (fun _ => b.adopted)) = false) ∧ (t = .gridPose)) ∧
    (let s : State := (lb {flight := [lv 6 4, lv 1 1], waiting := none, adopted := none, fresh := true}); let t : LoopTarget := .trkPose; let b := s.loopAt (loopKey t); (b.fresh = true) ∧ (s.isFresh t (b.waiting.orElse (fun _ => b.adopted)) = false) ∧ (t = .trkPose)) ∧
    (let s : State := (lb {flight := [lv 6 4, lv 1 1], waiting := none, adopted := none, fresh := true}); let t : LoopTarget := (.fendShed 1); let hub : Fin 2 := 1; let v : LoopVal := (lv 6 4); let fl : List LoopVal := [lv 1 1]; let b := s.loopAt (loopKey t); (b.flight = v :: fl) ∧ (t = .fendShed hub)) := by refine ⟨?_, ?_, ?_, ?_⟩ <;> decide +kernel

end G3

namespace G4

def regsOf (s : State) (l : List (Nat × Nat)) : State := l.foldl (fun s e => s.wrN e.1 e.2) s
def fab (l : List (Nat × Nat)) : State := {regsOf State.reset ([(rk pgFab 0x10, 2), (rk pgFab 0x100, 9), (rk pgFab 0x140, 0x80555105), (coreKey 5 0, 1)] ++ l) with bell := {started := true, nextStep := 7, step := 6, nextEnd := 1000, endFus := 840, firstWin := 100, winStep := 7, stepOpen := true}, time := {tb0 := 600000, fus := 900*2^40}}
def rec0 (kind : Nat) : BitVec 128 := BitVec.ofNat 128 (0x123 * 2^112 + 0x245 * 2^96 + 0x77*2^88 + (ze64 0 17 34 true kind 5000).toNat)
def rte (s : State) (r i key mask route : Nat) : State := s.setBytes (rtrBase r + 16*i) (leBytes 4 key ++ leBytes 4 mask ++ leBytes 4 (0x80000000 + route))
def rt (p : DWord) (route : Nat) : State := (rte (fab [(coreKey 40 0, 1)]) 40 3 5 0xFF route).setRtr 40 { inbox := [(5,p)] }
def core (p : DWord) (dir hdr d1 : Nat) : State := (((fab []).setBytes (synBase 5 + 0x30000 + 4 * 3) (leBytes 4 dir)).setBytes (synBase 5 + 8*9) (leBytes 8 hdr ++ leBytes 8 d1)).setCore 5 {inq := [p, 7], sums := [(21, some 1000)]}
def cl (theta : Nat) (rst sh : Nat) (bin : Nat) (v : Nat) (sum : Int) : State := ((((fab [(coreKey 5 4, 0x80000)]).setBytes (synBase 5 + 0x36000+32*2) (leBytes 4 theta ++ leBytes 4 50 ++ leBytes 4 (9*2^16+bin*32+rst*64+sh))).setBytes (neuronAddr 5 33) (leBytes 8 (2*2^40 + 3*2^24 + v))).setBytes (synBase 5 + 0x34000 + 6) (leBytes 2 0x4000)).setCore 5 {sums := [(33, some sum)]}
def rd0 (x : Nat) : Round := { createdD := x, retiredD := 5, createdM := 3, retiredM := 3, edgesDone := true, released := true, closed := 5, allClosed := true, busy := false }

/-- The hypotheses of Obligations.RecordCrossesTheFabric are met (its part RecordEntersTheFabric). -/
theorem witness_RecordEntersTheFabric :
    (let s : State := (((fab []).setFend 0 {edgeQ := [rec0 0, 5]}).setEdge 9 {queue := [(6,77),(8,8)]}); let hub : Fin 2 := 0; let r : BitVec 128 := (rec0 0); let rest : List (BitVec 128) := [5]; let step : Nat := 8; let n := r.toNat; (let k := bits n 63 60; (let map := rk pgFab (0x140 + 4 * k); (let ed := (if k < 8 then 4 * k else 32 + 4 * (k - 8)) + (bits n 59 48 ^^^ bits n 47 36) % 4; (let takes := s.blk pgFab = stRunning ∨ s.blk pgFab = stStopping; ((s.fendAt hub).edgeQ = r :: rest) ∧ (takes) ∧ (bits n 34 32 = 0) ∧ (s.bit map 31 = true) ∧ (s.windowAt s.now = some step) ∧ ((s.edgeAt ed).queue.length < 32768)))))) ∧
    (let s : State := (((fab []).setFend 0 {edgeQ := [rec0 1, 5]}).setEdge 9 {queue := [(6,77),(8,8)]}); let hub : Fin 2 := 0; let r : BitVec 128 := (rec0 1); let rest : List (BitVec 128) := [5]; let n := r.toNat; (let k := bits n 63 60; (let map := rk pgFab (0x140 + 4 * k); (let takes := s.blk pgFab = stRunning ∨ s.blk pgFab = stStopping; ((s.fendAt hub).edgeQ = r :: rest) ∧ (¬ takes ∨ bits n 34 32 ≠ 0 ∨ s.bit map 31 = false))))) ∧
    (let s : State := ((((fab []).setEdge 3 {queue := List.replicate 32768 (8,5)}).setFend 0 {edgeQ := [rec0 0, 5]}).setEdge 9 {queue := [(6,77),(8,8)]}); let hub : Fin 2 := 0; let r : BitVec 128 := (rec0 0); let rest : List (BitVec 128) := [5]; let step : Nat := 8; let n := r.toNat; (let k := bits n 63 60; (let map := rk pgFab (0x140 + 4 * k); (let ed := (if k < 8 then 4 * k else 32 + 4 * (k - 8)) + (bits n 59 48 ^^^ bits n 47 36) % 4; (let takes := s.blk pgFab = stRunning ∨ s.blk pgFab = stStopping; ((s.fendAt hub).edgeQ = r :: rest) ∧ (takes) ∧ (bits n 34 32 = 0) ∧ (s.bit map 31 = true) ∧ (s.windowAt s.now = some step) ∧ (32768 ≤ (s.edgeAt ed).queue.length)))))) ∧
    (let s := (((fab []).setFend 0 {edgeQ := [rec0 0, 5]}).setEdge 9 {queue := [(6,77),(8,8)]}).setRtr 288 {inbox := List.replicate 0 (5, 4)}; let s : State := s; let step : Nat := 6; let e : Fin 64 := 9; let p : DWord := 77; let more : List (Nat × DWord) := [(8,8)]; let rtr := if e.val < 32 then 32 * e.val else 32 * (e.val - 32) + 31; ((s.edgeAt e).queue = (step, p) :: more) ∧ (s.bell.stepOpen = true) ∧ (s.bell.step = step) ∧ (((s.rtrAt rtr).inbox.filter (fun c => c.1 == 5)).length < 8)) := by refine ⟨?_, ?_, ?_, ?_⟩ <;> decide +kernel

/-- The hypotheses of Obligations.RecordCrossesTheFabric are met (its part RouterHandlesACopy). -/
theorem witness_RouterHandlesACopy :
    (let p := fp64 (0x105) 9 2 6; let s := (rt p 2).setRtr 40 {inbox := [(3, p)]}; let s : State := s; let r : Fin 1024 := 40; let sent : DWord := p; let e : BitVec 72 := 0; let st := if s.bell.stepOpen then s.bell.step else s.bell.nextStep; let arrived := sent ^^^ e.setWidth 64; let inp : Nat := 3; let full : Nat := 6; let route : Nat := (0x80000002); let o : Fin 4 := 1; let nb : Nat := 41; let dadj := bits route 15 8; (let delta := (pktStep p + 65536 - st % 65536) % 65536; (let u := s.rtrAt r; (let there := (s.rtrAt nb).inbox.filter (fun c => c.1 == inputOf o); (u.inbox = [(inp, sent)]) ∧ (s.rtrFenced r = false) ∧ (inp = 4 → (s.coreAt r).outq = []) ∧ (p = (if inp < 4 then arrived else sent)) ∧ (inp < 4 → crc8 arrived = crc8 sent ^^^ bits e.toNat 71 64) ∧ (inp < 4) ∧ (delta ≤ 256) ∧ (full = st + delta) ∧ (s.rtLookup r (pktKey p) = some route) ∧ (pktDelay p + dadj ≤ 255) ∧ (bits route 5 0 = 2 ^ o.val) ∧ (neighbour r o = some nb) ∧ (s.rtrFenced nb = false) ∧ (there.length < 8))))) ∧
    (let p := fp64 (0x100+5) 9 0 6; let s := rt p 0x10; let s : State := s; let r : Fin 1024 := 40; let sent : DWord := p; let e : BitVec 72 := 0; let st := if s.bell.stepOpen then s.bell.step else s.bell.nextStep; let arrived := sent ^^^ e.setWidth 64; let inp : Nat := 5; let full : Nat := 6; let route : Nat := (0x80000000+0x10); let dadj := bits route 15 8; (let q := fp64 (pktKey p) (pktValue p) (pktDelay p + dadj) (full + dadj); (let openD (c : DWord) := s.bell.stepOpen && decide (pktStep c = s.bell.step % 65536); (let delta := (pktStep p + 65536 - st % 65536) % 65536; (let u := s.rtrAt r; (u.inbox = [(inp, sent)]) ∧ (s.rtrFenced r = false) ∧ (inp = 4 → (s.coreAt r).outq = []) ∧ (p = (if inp < 4 then arrived else sent)) ∧ (inp < 4 → crc8 arrived = crc8 sent ^^^ bits e.toNat 71 64) ∧ (delta ≤ 256) ∧ (full = st + delta) ∧ (s.rtLookup r (pktKey p) = some route) ∧ (pktDelay p + dadj ≤ 255) ∧ (bits route 5 0 = 16) ∧ (openD q = true) ∧ (s.coreOn r = true) ∧ ((s.coreAt r).inq.length < 64)))))) ∧
    (let p := fp64 0x105 9 2 6; let s : State := (rt p 2).setRtr 40 { inbox := [(3, p)] }; let r : Fin 1024 := 40; let inp : Nat := 3; let sent : DWord := p; let e : BitVec 72 := 0x40; let arrived := sent ^^^ e.setWidth 64; let passes := inp < 4 → crc8 arrived = crc8 sent ^^^ bits e.toNat 71 64; (let u := s.rtrAt r; (u.inbox = [(inp, sent)]) ∧ (s.rtrFenced r = false) ∧ (inp = 4 → (s.coreAt r).outq = []) ∧ (p ^^^ 0x40 = (if inp < 4 then arrived else sent)) ∧ (¬ passes))) ∧
    (let p := fp64 (0x100+5) 9 0 8; let s := rt p 0x10; let s : State := s; let r : Fin 1024 := 40; let sent : DWord := p; let e : BitVec 72 := 0; let st := if s.bell.stepOpen then s.bell.step else s.bell.nextStep; let arrived := sent ^^^ e.setWidth 64; let inp : Nat := 5; let full : Nat := 8; let route : Nat := (0x80000000+0x10); let dadj := bits route 15 8; (let q := fp64 (pktKey p) (pktValue p) (pktDelay p + dadj) (full + dadj); (let openD (c : DWord) := s.bell.stepOpen && decide (pktStep c = s.bell.step % 65536); (let delta := (pktStep p + 65536 - st % 65536) % 65536; (let u := s.rtrAt r; (u.inbox = [(inp, sent)]) ∧ (s.rtrFenced r = false) ∧ (inp = 4 → (s.coreAt r).outq = []) ∧ (p = (if inp < 4 then arrived else sent)) ∧ (inp < 4 → crc8 arrived = crc8 sent ^^^ bits e.toNat 71 64) ∧ (delta ≤ 256) ∧ (full = st + delta) ∧ (s.rtLookup r (pktKey p) = some route) ∧ (pktDelay p + dadj ≤ 255) ∧ (bits route 5 0 = 16) ∧ (openD q = false) ∧ (u.moor.length + u.rel.length < 4096)))))) ∧
    (let p := fp64 (0x100+5) 9 0 5; let s := rt p 1; let s : State := s; let r : Fin 1024 := 40; let sent : DWord := p; let e : BitVec 72 := 0; let st := if s.bell.stepOpen then s.bell.step else s.bell.nextStep; let arrived := sent ^^^ e.setWidth 64; let inp : Nat := 5; let delta := (pktStep p + 65536 - st % 65536) % 65536; (let u := s.rtrAt r; (u.inbox = [(inp, sent)]) ∧ (s.rtrFenced r = false) ∧ (inp = 4 → (s.coreAt r).outq = []) ∧ (p = (if inp < 4 then arrived else sent)) ∧ (inp < 4 → crc8 arrived = crc8 sent ^^^ bits e.toNat 71 64) ∧ (256 < delta))) ∧
    (let p := fp64 (0x100+6) 9 0 6; let s := rt p 1; let s : State := s; let r : Fin 1024 := 40; let sent : DWord := p; let e : BitVec 72 := 0; let st := if s.bell.stepOpen then s.bell.step else s.bell.nextStep; let arrived := sent ^^^ e.setWidth 64; let inp : Nat := 5; let delta := (pktStep p + 65536 - st % 65536) % 65536; (let u := s.rtrAt r; (u.inbox = [(inp, sent)]) ∧ (s.rtrFenced r = false) ∧ (inp = 4 → (s.coreAt r).outq = []) ∧ (p = (if inp < 4 then arrived else sent)) ∧ (inp < 4 → crc8 arrived = crc8 sent ^^^ bits e.toNat 71 64) ∧ (delta ≤ 256) ∧ (s.rtLookup r (pktKey p) = none))) ∧
    (let p := fp64 (0x100+5) 9 0 6; let s := rt p 0; let s : State := s; let r : Fin 1024 := 40; let sent : DWord := p; let e : BitVec 72 := 0; let st := if s.bell.stepOpen then s.bell.step else s.bell.nextStep; let arrived := sent ^^^ e.setWidth 64; let inp : Nat := 5; let route : Nat := (0x80000000+0); let dadj := bits route 15 8; (let delta := (pktStep p + 65536 - st % 65536) % 65536; (let u := s.rtrAt r; (u.inbox = [(inp, sent)]) ∧ (s.rtrFenced r = false) ∧ (inp = 4 → (s.coreAt r).outq = []) ∧ (p = (if inp < 4 then arrived else sent)) ∧ (inp < 4 → crc8 arrived = crc8 sent ^^^ bits e.toNat 71 64) ∧ (delta ≤ 256) ∧ (s.rtLookup r (pktKey p) = some route) ∧ (pktDelay p + dadj ≤ 255) ∧ (bits route 5 0 = 0)))) ∧
    (let p := fp64 (0x100+5) 9 20 6; let s := rt p 0xFF10; let s : State := s; let r : Fin 1024 := 40; let sent : DWord := p; let e : BitVec 72 := 0; let st := if s.bell.stepOpen then s.bell.step else s.bell.nextStep; let arrived := sent ^^^ e.setWidth 64; let inp : Nat := 5; let route : Nat := (0x80000000+0xFF10); let dadj := bits route 15 8; (let delta := (pktStep p + 65536 - st % 65536) % 65536; (let u := s.rtrAt r; (u.inbox = [(inp, sent)]) ∧ (s.rtrFenced r = false) ∧ (inp = 4 → (s.coreAt r).outq = []) ∧ (p = (if inp < 4 then arrived else sent)) ∧ (inp < 4 → crc8 arrived = crc8 sent ^^^ bits e.toNat 71 64) ∧ (delta ≤ 256) ∧ (s.rtLookup r (pktKey p) = some route) ∧ (255 < pktDelay p + dadj)))) ∧
    (let p := fp64 (0x105) 9 2 6; let s := (rt p 2).setRtr 41 {inbox := List.replicate 8 (3, 5)}; let s : State := s; let r : Fin 1024 := 40; let sent : DWord := p; let e : BitVec 72 := 0; let st := if s.bell.stepOpen then s.bell.step else s.bell.nextStep; let arrived := sent ^^^ e.setWidth 64; let inp : Nat := 5; let full : Nat := 6; let route : Nat := (0x80000002); let o : Fin 4 := 1; let nb : Nat := 41; let dadj := bits route 15 8; (let delta := (pktStep p + 65536 - st % 65536) % 65536; (let u := s.rtrAt r; (let there := (s.rtrAt nb).inbox.filter (fun c => c.1 == inputOf o); (u.inbox = [(inp, sent)]) ∧ (s.rtrFenced r = false) ∧ (inp = 4 → (s.coreAt r).outq = []) ∧ (p = (if inp < 4 then arrived else sent)) ∧ (inp < 4 → crc8 arrived = crc8 sent ^^^ bits e.toNat 71 64) ∧ (delta ≤ 256) ∧ (full = st + delta) ∧ (s.rtLookup r (pktKey p) = some route) ∧ (pktDelay p + dadj ≤ 255) ∧ (bits route 5 0 = 2 ^ o.val) ∧ (neighbour r o = some nb) ∧ (s.rtrFenced nb = false) ∧ (8 ≤ there.length))))) := by refine ⟨?_, ?_, ?_, ?_, ?_, ?_, ?_, ?_, ?_⟩ <;> decide +kernel

/-- The hypotheses of Obligations.CoreIntegratesAndCloses are met (its part CoreIntegratesARow). -/
theorem witness_CoreIntegratesARow :
    (let p := fp64 0x5003 0xF8 0 6; let s : State := (core p 19 (10 + 11*2^11 + 0*2^19 + 3*2^21 + 0*2^25) 0x123456789ABCDEF0); let c : Fin 1024 := 5; let rest : List DWord := [7]; let k := s.coreAt c; (let e := s.dirEntry c (pktKey p % 4096); (let w := bits e 15 1; (let hdr := s.synWord c w; (let len := bits hdr 18 11 + 1; (let width := 2 ^ bits hdr 20 19; (let base := bits hdr 10 0; (let delay := bits hdr 32 25; (let fits := w < 24576 ∧ base + len - 1 ≤ 2047 ∧ w + 1 + (len * width + 63) / 64 ≤ 24576; (k.inq = p :: rest) ∧ ((s.rtrAt c).rel = []) ∧ (s.coreOn c = true) ∧ (s.bit (coreKey c 8) 0 = false) ∧ (s.bit (coreKey c 0) 1 = false) ∧ (s.bell.stepOpen = true ∧ pktStep p = s.bell.step % 65536) ∧ (e % 2 = 1) ∧ (fits) ∧ (delay = 0)))))))))) ∧
    (let p := fp64 0x5003 0xF8 0 6; let s : State := (core p 19 (2046 + 11*2^11 + 0*2^19 + 3*2^21 + 0*2^25) 0x123456789ABCDEF0); let c : Fin 1024 := 5; let rest : List DWord := [7]; let k := s.coreAt c; (let e := s.dirEntry c (pktKey p % 4096); (let w := bits e 15 1; (let hdr := s.synWord c w; (let len := bits hdr 18 11 + 1; (let width := 2 ^ bits hdr 20 19; (let base := bits hdr 10 0; (let fits := w < 24576 ∧ base + len - 1 ≤ 2047 ∧ w + 1 + (len * width + 63) / 64 ≤ 24576; (k.inq = p :: rest) ∧ ((s.rtrAt c).rel = []) ∧ (s.coreOn c = true) ∧ (s.bit (coreKey c 8) 0 = false) ∧ (s.bit (coreKey c 0) 1 = false) ∧ (s.bell.stepOpen = true ∧ pktStep p = s.bell.step % 65536) ∧ (e % 2 = 1) ∧ (¬ fits))))))))) ∧
    (let p := fp64 0x5003 0xF8 0 6; let s : State := (core p 18 (10 + 11*2^11 + 0*2^19 + 3*2^21 + 0*2^25) 0x123456789ABCDEF0); let c : Fin 1024 := 5; let rest : List DWord := [7]; let k := s.coreAt c; (let e := s.dirEntry c (pktKey p % 4096); (k.inq = p :: rest) ∧ ((s.rtrAt c).rel = []) ∧ (s.coreOn c = true) ∧ (s.bit (coreKey c 8) 0 = false) ∧ (s.bit (coreKey c 0) 1 = false) ∧ (s.bell.stepOpen = true ∧ pktStep p = s.bell.step % 65536) ∧ (e % 2 = 0))) ∧
    (let p := fp64 0x5003 0xF8 0 5; let s : State := (core p 19 (10 + 11*2^11 + 0*2^19 + 3*2^21 + 0*2^25) 0x123456789ABCDEF0); let c : Fin 1024 := 5; let rest : List DWord := [7]; let k := s.coreAt c; (k.inq = p :: rest) ∧ ((s.rtrAt c).rel = []) ∧ (s.coreOn c = true) ∧ (s.bit (coreKey c 8) 0 = false) ∧ (s.bit (coreKey c 0) 1 = false) ∧ (¬ (s.bell.stepOpen = true ∧ pktStep p = s.bell.step % 65536)) ∧ (s.bit (rk pgFab 0x134) 31 = false)) ∧
    (let p := fp64 0x5003 0xF8 0 6; let s : State := (core p 19 (10 + 11*2^11 + 0*2^19 + 3*2^21 + 4*2^25) 0x123456789ABCDEF0); let c : Fin 1024 := 5; let rest : List DWord := [7]; let k := s.coreAt c; (let e := s.dirEntry c (pktKey p % 4096); (let w := bits e 15 1; (let hdr := s.synWord c w; (let len := bits hdr 18 11 + 1; (let width := 2 ^ bits hdr 20 19; (let base := bits hdr 10 0; (let delay := bits hdr 32 25; (let fits := w < 24576 ∧ base + len - 1 ≤ 2047 ∧ w + 1 + (len * width + 63) / 64 ≤ 24576; (k.inq = p :: rest) ∧ ((s.rtrAt c).rel = []) ∧ (s.coreOn c = true) ∧ (s.bit (coreKey c 8) 0 = false) ∧ (s.bit (coreKey c 0) 1 = false) ∧ (s.bell.stepOpen = true ∧ pktStep p = s.bell.step % 65536) ∧ (e % 2 = 1) ∧ (fits) ∧ (delay ≠ 0) ∧ (k.cursors.length < 1024)))))))))) := by refine ⟨?_, ?_, ?_, ?_, ?_⟩ <;> decide +kernel

/-- The hypotheses of Obligations.CoreIntegratesAndCloses are met (its part CoreClosesItsStep). -/
theorem witness_CoreClosesItsStep :
    (let s := cl 600 0 3 0 70 (20:Int); let s : State := {s with bell := {s.bell with phaseM := true}}; let c : Fin 1024 := 5; let n : Fin 2048 := 33; let sum : Int := (20:Int); let st := s.bell.step; ((s.coreAt c).sums = [(n.val, some sum)]) ∧ ((s.coreAt c).inq = []) ∧ ((s.coreAt c).closed = false) ∧ ((s.coreAt c).updated = false) ∧ ((s.coreAt c).outq = []) ∧ (s.coreOn c = true) ∧ (s.bell.stepOpen = true) ∧ (s.bell.phaseM = true) ∧ (st % 32 ≠ 0) ∧ (s.planes = []) ∧ (((s.rtrAt c).inbox.filter (fun q => q.1 == 4)).length < 8)) ∧
    (let s := cl 20 0 3 0 70 (2000:Int); let s : State := {s with bell := {s.bell with phaseM := true}}.setRtr 5 { inbox := List.replicate 8 (4, 7) }; let c : Fin 1024 := 5; let n : Fin 2048 := 33; let sum : Int := (2000:Int); let st := s.bell.step; let w := s.getLE (neuronAddr c n) 8; let k := s.nclass c (bits w 43 40); ((s.coreAt c).sums = [(n.val, some sum)]) ∧ ((s.coreAt c).inq = []) ∧ ((s.coreAt c).closed = false) ∧ ((s.coreAt c).updated = false) ∧ ((s.coreAt c).outq = []) ∧ (s.coreOn c = true) ∧ (s.bell.stepOpen = true) ∧ (s.bell.phaseM = true) ∧ (st % 32 ≠ 0) ∧ (s.planes = []) ∧ (8 ≤ ((s.rtrAt c).inbox.filter (fun q => q.1 == 4)).length) ∧ (let a := max (-2147483648) (min 2147483647 sum); let dt := (st + 65536 - bits w 39 24) % 65536; let d := toSigned 24 (bits w 23 0) - k.vrest; let f : Int := s.leak c k.table dt; let d' := if dt ≤ 255 then (if 0 ≤ d then d * f / 32768 else -(-d * f / 32768)) else if k.nonLeaky then d else 0; let sat (v : Int) := max (-8388608) (min 8388607 v); let v := sat (k.vrest + d' + a); k.theta ≤ v)) ∧
    (let s := (fab [(coreKey 5 8, 0)]); let s : State := {s with bell := {s.bell with stepOpen := false}}; let c : Fin 1024 := 5; (s.bit (coreKey c 8) 0 = false) ∧ ((s.coreAt c).inq = []) ∧ (s.bell.stepOpen = false)) := by refine ⟨?_, ?_, ?_⟩ <;> decide +kernel

/-- The hypotheses of Obligations.StepOpensClosesAndRings are met. -/
theorem witness_StepOpensClosesAndRings :
    (let s := fab [(rk pgFab 0x10, 1)]; let s : State := {s with bell := {s.bell with stepOpen := true, phaseM := true, rang := true, prev := some (rd0 5), sample := some (rd0 4), quiet := 3000, winStep := 7, bellTime := 2000*2^40}}; let a : Round := (rd0 5); let b : Round := (rd0 4); let B := s.bell; (B.started = true) ∧ (s.stepEnd B.winStep ≤ s.now + s.stepP) ∧ (B.stepOpen = true) ∧ (B.prev = some a) ∧ (B.sample = some b) ∧ (B.phaseM = true) ∧ (max 256 (s.fld (rk pgFab 0x108) 15 0) ≤ B.quiet) ∧ (B.rang = true)) ∧
    (let s := fab [(rk pgFab 0x10, 1)]; let s : State := {s with bell := {s.bell with stepOpen := true, phaseM := false, rang := true, prev := some (rd0 5), sample := some (rd0 4), quiet := 3000, winStep := 7, bellTime := 2000*2^40}}; let a : Round := (rd0 5); let b : Round := (rd0 4); let B := s.bell; (B.stepOpen = true) ∧ (B.prev = some a) ∧ (B.sample = some b) ∧ (B.phaseM = false)) ∧
    (let s := fab [(rk pgFab 0x10, 2)]; let s : State := {s with bell := {s.bell with stepOpen := false, phaseM := true, rang := false, prev := some (rd0 5), sample := some (rd0 4), quiet := 3000, winStep := 7, bellTime := 2000*2^40}}; let B := s.bell; (B.started = true) ∧ (s.running pgFab = true) ∧ (s.halted pgFab = false) ∧ (B.stepOpen = false) ∧ (B.rang = false) ∧ ((if B.lags = [] then B.nextEnd - s.stepP else B.endFus) ≤ s.now)) ∧
    (let s := fab [(rk pgFab 0x10, 3)]; let s : State := {s with bell := {s.bell with stepOpen := false, phaseM := true, rang := false, prev := some (rd0 5), sample := some (rd0 4), quiet := 3000, winStep := 7, bellTime := 2000*2^40}}; let B := s.bell; (s.blk pgFab = stStopping) ∧ (B.stepOpen = false) ∧ (B.rang = false) ∧ (pgFab ∉ s.pwr.wasRunning)) := by refine ⟨?_, ?_, ?_, ?_⟩ <;> decide +kernel

end G4

namespace G5

def regsOf (s : State) (l : List (Nat × Nat)) : State := l.foldl (fun s e => s.wrN e.1 e.2) s
def up (s : State) : State := s.setPort 0 { link := true, inReset := false }
def st (l : List (Nat × Nat)) : State := up (regsOf State.reset ([(rk pgStream 0x10, 2), (rk pgStream 0x108, 3),(rk pgStream 0x100, 0x1F), (rk pgPwr 0x128, 0xFFFF)] ++ l))
def of (r : Nat) (n : Nat := 50) : Offer := { ring := r, bytes := List.replicate n 7, fus := 77, unchecked := true, warm := false }
def sr : StepRec := { step := 9, endFus := 800, overrun := 5, lag := 0, shed0 := 3, shed1 := 0, outs := [1,2,3,4,5,6,7,8], forced := false }

/-- The event ring's stage with less room than a record. -/
def full5 : State :=
  let s := (st [(ringKey 0 0 0, 1), (ringKey 0 0 0x18, 5)]).setRing 0 0 {staged := [{seq := 4, bytes := zeros (0x100000-20), fus := 4}]}
  {s with stream := {s.stream with offers := [of 0, of 2]}}

/-- The hypotheses of Obligations.ItemReachesTheHost are met (its part OfferedItemIsProduced). -/
theorem witness_OfferedItemIsProduced :
    (let s := st [(ringKey 0 1 0, 0), (ringKey 0 1 0x18, 5)]; let s := s.setRing 0 1 {staged := [{seq := 4, bytes := zeros 0, fus := 4}]}; let s := {s with stream := {s.stream with offers := [of 1, of 2]}}; let s : State := s; let o : Offer := (of 1); let os : List Offer := [of 2]; let h : Fin 2 := (Fin.ofNat 2 0); let key (f : Nat) := ringKey h o.ring f; (s.running pgStream = true) ∧ (s.stream.offers = o :: os) ∧ (o.ring < 5) ∧ (s.bit (key 0) 0 = false) ∧ (0 < o.ring) ∧ (o.bytes.length < 2 ^ 31)) ∧
    (let s := st [(ringKey 0 0 0, 1), (ringKey 0 0 0x18, 5)]; let s := s.setRing 0 0 {staged := [{seq := 4, bytes := zeros 0, fus := 4}]}; let s := {s with stream := {s.stream with offers := [of 0, of 2]}}; let s : State := s; let o : Offer := (of 0); let os : List Offer := [of 2]; let h : Fin 2 := (Fin.ofNat 2 0); let key (f : Nat) := ringKey h o.ring f; (let seq := s.rd64 (key 0x18); (let g := (s.portAt h).ring o.ring; (let len := (o.record seq).length; (s.running pgStream = true) ∧ (s.stream.offers = o :: os) ∧ (o.ring < 5) ∧ (s.bit (key 0) 0 = true) ∧ (g.level + len ≤ stageSize o.ring))))) ∧
    ((full5.running pgStream = true) ∧ (full5.stream.offers = of 0 :: [of 2]) ∧ ((of 0).ring < 5) ∧ (full5.bit (ringKey 0 0 0) 0 = true) ∧
      (stageSize (of 0).ring < ((full5.portAt 0).ring (of 0).ring).level + ((of 0).record (full5.rd64 (ringKey 0 0 0x18))).length)) := by
  refine ⟨by decide +kernel, by decide +kernel, by decide +kernel, by decide +kernel, by decide +kernel, by decide +kernel, ?_⟩
  have e : (full5.portAt 0).ring (of 0).ring = {staged := [{seq := 4, bytes := zeros (0x100000 - 20), fus := 4}]} := rfl
  have l : ((of 0).record (full5.rd64 (ringKey 0 0 0x18))).length = 66 := by decide +kernel
  rw [e, l]
  simp only [Ring.level, List.map_cons, List.map_nil, List.sum_cons, List.sum_nil, zeros, List.length_replicate]
  decide

/-- The hypotheses of Obligations.ItemReachesTheHost are met (its part StagedRecordReachesTheHost). -/
theorem witness_StagedRecordReachesTheHost :
    (let s := st [(ringKey 0 0 0, 0), (ringKey 0 0 4, 16), (ringKey 0 0 0xC, 0), (ringKey 0 0 0x10, 0x200+16*0)]; let d : Staged := {seq := 70004, bytes := List.replicate 128 9, fus := 4}; let s := s.setRing 0 0 {staged := [d,d], off := 0*0xFF00}; let s : State := s; let h : Fin 2 := 0; let r : Fin 5 := (Fin.ofNat 5 0); let v : Word := 0x10301; let size := 2 ^ s.fld (ringKey h r 4) 4 0; (let base := s.rd64 (ringKey h r 8); (s.reaches h = true) ∧ (s.bit (ringKey h r 0) 0 = false) ∧ (v.getLsbD 0 = true) ∧ (leastSize r ≤ s.fld (ringKey h r 4) 4 0 ∧ s.fld (ringKey h r 4) 4 0 ≤ 30 ∧ base % size = 0 ∧ s.rdN (ringKey h r 0x10) % 16 = 0))) ∧
    (let s := st [(ringKey 0 0 0, 1), (ringKey 0 0 4, 16), (ringKey 0 0 0xC, 1), (ringKey 0 0 0x10, 0x200+16*1)]; let d : Staged := {seq := 70004, bytes := List.replicate 128 9, fus := 4}; let s := s.setRing 0 0 {staged := [d,d], off := 0*0xFF00}; let s : State := s; let h : Fin 2 := 0; let r : Fin 5 := (Fin.ofNat 5 0); let ds : List Staged := [d]; let size := 2 ^ s.fld (ringKey h r 4) 4 0; (let base := s.rd64 (ringKey h r 8); (let head := s.rd64 (ringKey h r 0x10); (let g := (s.portAt h).ring r; (let off := if r = 0 then d.seq % (size / 128) * 128 else if g.off + d.bytes.length ≤ size then g.off else 0; (s.carries h = true) ∧ ([0, 1, 4, 2, 3].find? (fun q => !((s.portAt h).ring q).staged.isEmpty) = some r.val) ∧ (g.staged = d :: ds) ∧ (s.bit (ringKey h r 0) 0 = true) ∧ (head + 16 ≤ base ∨ base + size ≤ head) ∧ (off + d.bytes.length ≤ size)))))) ∧
    (let s := st [(ringKey 0 1 0, 0), (ringKey 0 1 4, 16), (ringKey 0 1 0xC, 0), (ringKey 0 1 0x10, 0x200+16*0)]; let d : Staged := {seq := 70004, bytes := List.replicate 128 9, fus := 4}; let s := s.setRing 0 1 {staged := [d,d], off := 0*0xFF00}; let s : State := s; let h : Fin 2 := 0; let r : Fin 5 := (Fin.ofNat 5 1); let v : Word := 0x10301; let size := 2 ^ s.fld (ringKey h r 4) 4 0; (let base := s.rd64 (ringKey h r 8); (s.reaches h = true) ∧ (s.bit (ringKey h r 0) 0 = false) ∧ (v.getLsbD 0 = true) ∧ (¬ (leastSize r ≤ s.fld (ringKey h r 4) 4 0 ∧ s.fld (ringKey h r 4) 4 0 ≤ 30 ∧ base % size = 0 ∧ s.rdN (ringKey h r 0x10) % 16 = 0)))) := by refine ⟨?_, ?_, ?_⟩ <;> decide +kernel

/-- The hypotheses of Obligations.StepIsReported are met. -/
theorem witness_StepIsReported :
    (let s := st [(rk pgStream 0x118, 0x1000), (rk pgStream 0x11C, 0x100), (rk pgStream 0x120, 0x3F), (rk pgFab 0xC, 0*2), (rk pgFab 0x10, 2)]; let s := {s with time := {tb0 := 500, fus := 16000*2^40}, bell := {s.bell with ticks := [sr, sr]}, stream := {s.stream with tap := [5,6], winQ := [(0, [1,2,3]), (1, [3])], offers := [of 2]}}; let s : State := s; let a : StepRec := sr; let as : List StepRec := [sr]; let w : Fin 8 := (Fin.ofNat 8 0); let c : List Byte := [1,2,3]; let rest : List (Nat × List Byte) := [(1,[3])]; let at_ := s.rd64 (rk pgStream 0x118) + 0x100 * w.val; (s.running pgStream = true) ∧ (s.bell.ticks = a :: as) ∧ (¬ (s.running pgFab = true ∧ s.halted pgFab = true)) ∧ (s.stream.tap ≠ []) ∧ (256 ≤ s.stream.tap.length ∨ s.stream.tapFus + 32 ≤ s.now) ∧ (s.stream.winQ = (w.val, c) :: rest) ∧ (w.val ≠ 4) ∧ (c.length ≤ 240) ∧ (s.planes = []) ∧ (s.memc.commonsBad = []) ∧ (commonsBase ≤ at_) ∧ (at_ + 256 ≤ secBase)) ∧
    (let s := st [(rk pgStream 0x118, 0x1000), (rk pgStream 0x11C, 0x100), (rk pgStream 0x120, 0x3F), (rk pgFab 0xC, 0*2), (rk pgFab 0x10, 2)]; let s := {s with time := {tb0 := 500, fus := 16000*2^40}, bell := {s.bell with ticks := [sr, sr]}, stream := {s.stream with tap := [5,6], winQ := [(4, [1,2,3]), (1, [3])], offers := [of 2]}}; let s : State := s; let w : Fin 8 := (Fin.ofNat 8 4); let at_ := s.rd64 (rk pgStream 0x118) + 0x100 * w.val; (s.running pgStream = true) ∧ (w.val = 4) ∧ (s.bit (rk pgStream 0x120) 4 = true) ∧ (s.stream.w4At < s.now / 16) ∧ (s.planes = []) ∧ (s.memc.commonsBad = []) ∧ (commonsBase ≤ at_) ∧ (at_ + 256 ≤ secBase)) := by refine ⟨?_, ?_⟩ <;> decide +kernel

/-- The hypotheses of Obligations.PortComesAndGoes are met. -/
theorem witness_PortComesAndGoes :
    (let s := st [(rk 8 0x100, 0xF), (rk pgSys 0x104, 0), (rk 8 0x10, 1), (copyKey 0 5 0x34, 4), (copyKey 0 5 0x18, 4), (copyKey 1 5 0x18, 4), (ringKey 0 1 0, 1), (ringKey 1 1 0, 1), (ringKey 0 1 0x18, 8)]; let s := s.setPort 0 {link := true, inReset := true, msixPend := [5], rings := [(1, {staged := [{seq := 4, bytes := zeros 128, fus := 5}]})]}; let s : State := s; let h : Fin 2 := (Fin.ofNat 2 0); let pg := pgPort h; (let q := s.portAt h; (q.link = true) ∧ (s.blk pg ≠ stOff))) ∧
    (let s := st [(rk 8 0x100, 0xF), (rk pgSys 0x104, 0), (rk 8 0x10, 1), (copyKey 0 5 0x34, 4), (copyKey 0 5 0x18, 4), (copyKey 1 5 0x18, 4), (ringKey 0 1 0, 1), (ringKey 1 1 0, 1), (ringKey 0 1 0x18, 8)]; let s := s.setPort 0 {link := false, inReset := false, msixPend := [5], rings := [(1, {staged := [{seq := 4, bytes := zeros 128, fus := 5}]})]}; let s : State := s; let h : Fin 2 := (Fin.ofNat 2 0); let q := s.portAt h; (q.link = false) ∧ (q.inReset = false) ∧ (s.role h ≠ 3) ∧ ((∀ n ∈ ([6, 11, 12] : List Nat), s.bit (rk pgPwr 0x128) n = true))) := by refine ⟨?_, ?_⟩ <;> decide +kernel

end G5

namespace G6

def regsOf (s : State) (l : List (Nat × Nat)) : State := l.foldl (fun s e => s.wrN e.1 e.2) s
def up (s : State) : State := (s.setPort 0 { link := true, inReset := false }).setPort 1 { link := true, inReset := false }
def st (l : List (Nat × Nat)) : State := up (regsOf State.reset ([(rk pgStream 0x10, 2), (rk pgStream 0x108, 3),(rk pgStream 0x100, 0x1F)] ++ l))
def bn (cap clos : Nat) (l : List (Nat×Nat) := []) : State := (({st ([(binKey 1 0, 0x20005), (binKey 1 4, 0x80), (binKey 1 8, 0x100), (binKey 1 0xC, cap), (rk pgFab 0x100, 100)] ++ l) with time := {tb0 := 5000000, fus := 900000*2^40}}).setBin 1 {closedTo := clos}).setFend 0 { binQ := [] }
def rec (k x y kind t pol : Nat) : BitVec 128 := BitVec.ofNat 128 (16*x*2^112+16*y*2^96+ 0x40*2^88 + 0x005*2^76 + 0x006*2^64 + k*2^60+pol*2^35+kind*2^32+t)
def addR (s : State) (r : List (BitVec 128)) : State := s.setFend 0 {binQ := r}
def run (s : State) (cs : List Instr) : State := cs.foldl (fun s c => match exec c s with | .next t => t | _ => s) s
def lay (f g : NumFmt) (mode q : Nat) (m : Bool) (sp : Bool := false) (rad : Nat := 1) (hh : Nat := 3) (str : Nat := 1) : LayerDesc := { wfmt := f, afmt := g, ofmt := .int8, sparse := sp, radius := rad, stride := str, hashH := hh, listCap := 4, mode := mode, q := q, texp := 0, tol := some 0x3A000000, tolAbs := some 0, margin := m, relu := true, hinted := false, bias := [1,2,3], mult := [3,3,3], shift := [2,1,0] }
def tl (l : LayerDesc) : Tile := { entry := 4, model := 1, tag := 0, gen := 7, layerIdx := 3, layer := l, m := 4, n := 3, kb := 1, passes := 256, readyAt := 10 }
def opsG (b : Bool) : TileOperands := { weights := [[1,-2,3],[4,5,-6]], wchk := [2, if b then 3 else 4], acts := [[7,-8],[9,10],[1,1],[-3,2]], chan := 0 }
def opsF (b : Bool) : TileOperands := { weights := List.replicate 256 [1,-2,3], wchk := List.replicate 255 2 ++ [if b then 2 else 3], acts := List.replicate 4 (List.replicate 256 7), chan := 0 }
def en (g : Engine) (l : List (Nat×Nat)) : State := {(st ([(rk (pgEng 4) 0x10, 2), (rk (pgEng 5) 0x10, 2)] ++ l)).setEng 4 g with time := {tb0 := 100000}}
def flt1 (ac : List (Nat × Nat × Int)) (b : Bool) : TileFault := { acc := ac, outCmp := b, gatherSig := b, ecc := b, nearMiss := if b then 3 else 0 }
def dcomp (bad : List Nat) (k : Nat) : Completion := { engine := 5, entry := 4, model := 1, tag := 0, gen := 7, status := if bad.isEmpty then .ok else .chkFail, sig := BitVec.ofNat 64 k, sig2 := 0, ran := [], bad := bad, fatal := [], unchecked := false }
def tk : TaskDesc := { layer := 0, deps := [], depCnt := 0, depOff := 0, readsIn := true, writesOut := true, m := 4, kb := 1, nm1 := 0, engMask := 63, passes := 256, waddr := 0, oaddr := 0, out := none }
def im (src : Nat) : ModelImage := { magic := 0x4C574D49, version := 0, sections := [], taskCount := 1, layerCount := 1, dirOff := 64, outs := [], prio := 0, layers := [lay .int8 .int8 0 0 false true], tasks := [tk], trig := {source := src, param := 1, count := 1}, bufs := [], pins := [], binds := [], sig := none, length := 4, digest := [] }
def iv : Invocation := { trigTime := 0, buf := 0x010000000000, admitted := 0, done := [], unchecked := [] }
def sitesAt (s : State) (l : List (Nat × Nat)) : State := (l.zipIdx.foldl (fun s e => s.putLE (0x010000000010+4*e.2) 4 (e.1.2*2^20+e.1.1*256+e.2+3)) s).putLE 0x010000000008 4 l.length

/-- The hypotheses of Obligations.RecordBecomesATensor are met (its part RecordEntersItsBin). -/
theorem witness_RecordEntersItsBin :
    (let s := run (addR (bn 1 0) [rec 1 9 5 0 899000 1, rec 1 8 7 0 899000 1]) (List.replicate 0 (.binRecord 0)); let s : State := (addR s [(rec 1 9 5 0 899000 1),5]); let hub : Fin 2 := 0; let w : BitVec 128 := (rec 1 9 5 0 899000 1); let rest : List (BitVec 128) := [5]; let r := w.toNat; (let k := bits r 63 60; (let j := (s.now - (s.now + 2 ^ 32 - bits r 31 0) % 2 ^ 32) / s.binLen k; (let lg := s.fld (binKey k 0) 3 1; (let cx := bits r 127 112 / 16 / 2 ^ lg; (let cy := bits r 111 96 / 16 / 2 ^ lg; (let old := (s.binAt k).bin j; (let fresh := old.sites.all (fun q => !(q.cx == cx && q.cy == cy)) = true; (let taken := bits r 34 32 = 0 ∧ s.binEn k = true; ((s.fendAt hub).binQ = w :: rest) ∧ (taken) ∧ ((s.binAt k).closedTo ≤ j) ∧ (¬ (fresh ∧ s.binCap k ≤ old.sites.length))))))))))) ∧
    (let s := run (addR (bn 1 0) [rec 1 9 5 0 899000 1, rec 1 8 7 0 899000 1]) (List.replicate 0 (.binRecord 0)); let s : State := (addR s [(rec 1 9 5 1 899000 1),5]); let hub : Fin 2 := 0; let w : BitVec 128 := (rec 1 9 5 1 899000 1); let rest : List (BitVec 128) := [5]; let r := w.toNat; (let k := bits r 63 60; (let taken := bits r 34 32 = 0 ∧ s.binEn k = true; ((s.fendAt hub).binQ = w :: rest) ∧ (¬ taken)))) ∧
    (let s := run (addR (bn 1 0) [rec 1 9 5 0 899000 1, rec 1 8 7 0 899000 1]) (List.replicate 1 (.binRecord 0)); let s : State := (addR s [(rec 1 20 5 0 899000 0),5]); let hub : Fin 2 := 0; let w : BitVec 128 := (rec 1 20 5 0 899000 0); let rest : List (BitVec 128) := [5]; let r := w.toNat; (let k := bits r 63 60; (let j := (s.now - (s.now + 2 ^ 32 - bits r 31 0) % 2 ^ 32) / s.binLen k; (let lg := s.fld (binKey k 0) 3 1; (let cx := bits r 127 112 / 16 / 2 ^ lg; (let cy := bits r 111 96 / 16 / 2 ^ lg; (let old := (s.binAt k).bin j; (let fresh := old.sites.all (fun q => !(q.cx == cx && q.cy == cy)) = true; (let taken := bits r 34 32 = 0 ∧ s.binEn k = true; ((s.fendAt hub).binQ = w :: rest) ∧ (taken) ∧ ((s.binAt k).closedTo ≤ j) ∧ (fresh) ∧ (s.binCap k ≤ old.sites.length) ∧ ((cx, cy) ∉ old.dropped)))))))))) ∧
    (let s := run (addR (bn 1 0) [rec 1 9 5 0 899000 1, rec 1 20 5 0 899000 1]) (List.replicate 2 (.binRecord 0)); let s : State := (addR s [(rec 1 20 5 0 899000 0),5]); let hub : Fin 2 := 0; let w : BitVec 128 := (rec 1 20 5 0 899000 0); let rest : List (BitVec 128) := [5]; let r := w.toNat; (let k := bits r 63 60; (let j := (s.now - (s.now + 2 ^ 32 - bits r 31 0) % 2 ^ 32) / s.binLen k; (let lg := s.fld (binKey k 0) 3 1; (let cx := bits r 127 112 / 16 / 2 ^ lg; (let cy := bits r 111 96 / 16 / 2 ^ lg; (let old := (s.binAt k).bin j; (let fresh := old.sites.all (fun q => !(q.cx == cx && q.cy == cy)) = true; (let taken := bits r 34 32 = 0 ∧ s.binEn k = true; ((s.fendAt hub).binQ = w :: rest) ∧ (taken) ∧ ((s.binAt k).closedTo ≤ j) ∧ (fresh) ∧ (s.binCap k ≤ old.sites.length) ∧ ((cx, cy) ∈ old.dropped)))))))))) ∧
    (let s := run (addR (bn 1 60) [rec 1 9 5 0 899000 1, rec 1 8 7 0 899000 1]) (List.replicate 0 (.binRecord 0)); let s : State := (addR s [(rec 1 20 5 0 950000 0),5]); let hub : Fin 2 := 0; let w : BitVec 128 := (rec 1 20 5 0 950000 0); let rest : List (BitVec 128) := [5]; let r := w.toNat; (let k := bits r 63 60; (let j := (s.now - (s.now + 2 ^ 32 - bits r 31 0) % 2 ^ 32) / s.binLen k; (let taken := bits r 34 32 = 0 ∧ s.binEn k = true; ((s.fendAt hub).binQ = w :: rest) ∧ (taken) ∧ (j < (s.binAt k).closedTo))))) := by refine ⟨?_, ?_, ?_, ?_, ?_⟩ <;> decide +kernel

/-- The hypotheses of Obligations.RecordBecomesATensor are met (its part BinClosesAsATensor). -/
theorem witness_BinClosesAsATensor :
    (let s : State := ({(run (addR (bn 2 0) [rec 1 9 5 0 899000 1, rec 1 8 7 0 899000 0, rec 1 9 5 0 898000 1, rec 1 90 5 0 898000 1]) (List.replicate 1 (.binRecord 0))) with mem := [(0x010000000088, 7), (0x0100000000A0, 9), (0x0100000000C1, 3)]}); let k : Fin 16 := 1; let len := s.binLen k; (let j := (s.binAt k).closedTo; (let stop := (j + 1) * len; (let b := (s.binAt k).bin j; (let n := b.sites.length; (let a := s.binBuf k j; (let grace := 16 * s.fld (rk (pgEng 0) 0x300) 7 0; (s.binEn k = true) ∧ (stop + grace ≤ s.now) ∧ (n ≤ s.binCap k) ∧ (s.memc.commonsBad = []) ∧ (inOpenCommons a (binSize (s.binCap k)) = true)))))))) ∧
    (let s := {run (addR (bn 2 0) [rec 1 9 5 0 899000 1, rec 1 8 7 0 899000 0, rec 1 9 5 0 898000 1, rec 1 90 5 0 898000 1]) (List.replicate 4 (.binRecord 0)) with mem := [(0x010000000088, 7), (0x0100000000A0, 9), (0x0100000000C1, 3)]}; let s : State := {(s.setBin 1 {s.binAt 1 with closedTo := (((s.binAt 1).bins)[0]'(by decide)).index}) with time := {fus := (s.now/4)*2^40}}; let k : Fin 16 := 1; let len := s.binLen k; (let j := (s.binAt k).closedTo; (let stop := (j + 1) * len; (let grace := 16 * s.fld (rk (pgEng 0) 0x300) 7 0; (s.now < stop + grace))))) := by refine ⟨?_, ?_⟩ <;> decide +kernel

/-- The hypotheses of Obligations.TileRunsOnItsEngine are met (its part TileStarts). -/
theorem witness_TileStarts :
    (let s : State := (en {staged := some (tl (lay .int8 .int8 0 0 false)), lastEnd := none} [(rk (pgEng 4) 0x104, 0), (rk (pgEng 4) 0x10C, (0:Nat)), (rk (pgEng 4) 0x108, 0xFFFF0303)]); let e : Fin 6 := 4; let u : Tile := (tl (lay .int8 .int8 0 0 false)); let ops : TileOperands := (opsF true); let g := s.engAt e; (let on := (s.engArr e ≠ 2 ∧ u.layer.margin = false) ∧ wchkOk u ops = false; (g.staged = some u) ∧ (g.running = none) ∧ (u.operands g.gathered ops = some ops) ∧ (s.running (pgEng e) = true) ∧ (s.halted (pgEng e) = false) ∧ (s.engBit e 1 = false) ∧ ((e.val < 4 ∨ s.margin = 0 ∨ s.margin = 2 ∧ u.layer.margin = true)) ∧ (s.fld (rk pgPwr 0x10C) 2 0 ≠ 3) ∧ (¬ on))) ∧
    (let s : State := (en {staged := some (tl (lay .int8 .int8 0 0 false)), lastEnd := none} [(rk (pgEng 4) 0x104, 0), (rk (pgEng 4) 0x10C, (0:Nat)), (rk (pgEng 4) 0x108, 0xFFFF0303)]); let e : Fin 6 := 4; let u : Tile := (tl (lay .int8 .int8 0 0 false)); let ops : TileOperands := (opsF false); let g := s.engAt e; (let on := (s.engArr e ≠ 2 ∧ u.layer.margin = false) ∧ wchkOk u ops = false; (g.staged = some u) ∧ (g.running = none) ∧ (u.operands g.gathered ops = some ops) ∧ (s.running (pgEng e) = true) ∧ (s.halted (pgEng e) = false) ∧ (s.engBit e 1 = false) ∧ ((e.val < 4 ∨ s.margin = 0 ∨ s.margin = 2 ∧ u.layer.margin = true)) ∧ (s.fld (rk pgPwr 0x10C) 2 0 ≠ 3) ∧ (on) ∧ (s.engBit e 3 = false))) ∧
    (let s : State := en {staged := some (tl (lay .int8 .int8 0 0 false))} []; let e : Fin 6 := 4; let u : Tile := tl (lay .int8 .int8 0 0 false); let ops : TileOperands := opsG true; let g := s.engAt e; (g.staged = some u) ∧ (g.running = none) ∧ (u.operands g.gathered ops = none)) := by refine ⟨?_, ?_, ?_⟩ <;> decide +kernel

/-- The hypotheses of Obligations.TileRunsOnItsEngine are met (its part TileCompletes). -/
theorem witness_TileCompletes :
    (let u := {tl (lay .int8 .int8 0 0 false) with ops := opsG true, startAt := 90000, cycles := 512, mode := (lay .int8 .int8 0 0 false).mode, q := (lay .int8 .int8 0 0 false).q}; let s : State := {(en {running := some u} [(rk (pgEng 4) 0x104, 0), (rk (pgEng 4) 0x10C, 1)]) with time := {tb0 := 100000}}; let e : Fin 6 := 4; let f : TileFault := (flt1 [(1,2,(5:Int))] true); let failed := (s.engArr e ≠ 2 ∧ u.layer.margin = false) ∧ (u.rowFails (u.accs f) ≠ [] ∨ u.colFails (u.accs f) ≠ []); (let ended := cycleUnits (s.engFreq e) u.cycles ≤ nsUnits (s.time.tb0 - u.startAt); ((s.engAt e).running = some u) ∧ (ended) ∧ (f.ecc = true) ∧ (f.outCmp = true) ∧ (f.gatherSig = true) ∧ (4 ≤ e.val ∧ f.nearMiss ≠ 0) ∧ (failed) ∧ (s.engBit e 3 = false))) ∧
    (let u := {tl (lay .int8 .int8 0 0 false) with ops := opsG true, startAt := 90000, cycles := 512, mode := (lay .int8 .int8 0 0 false).mode, q := (lay .int8 .int8 0 0 false).q}; let s : State := {(en {running := some u} [(rk (pgEng 4) 0x104, 0), (rk (pgEng 4) 0x10C, 1)]) with time := {tb0 := 90001}}; let e : Fin 6 := 4; let ended := cycleUnits (s.engFreq e) u.cycles ≤ nsUnits (s.time.tb0 - u.startAt); ((s.engAt e).running = some u) ∧ (¬ ended)) ∧
    (let u := {tl (lay .int8 .int8 1 3 true) with ops := opsG true, startAt := 90000, cycles := 512, mode := (lay .int8 .int8 1 3 true).mode, q := (lay .int8 .int8 1 3 true).q}; let s : State := {(en {running := some u} [(rk (pgEng 4) 0x104, 0), (rk (pgEng 4) 0x10C, 1)]) with time := {tb0 := 100000}}; let e : Fin 6 := 4; let ended := cycleUnits (s.engFreq e) u.cycles ≤ nsUnits (s.time.tb0 - u.startAt); ((s.engAt e).running = some u) ∧ (ended) ∧ (u.mode = 1)) := by refine ⟨?_, ?_, ?_⟩ <;> decide +kernel

/-- The hypotheses of Obligations.TileRunsOnItsEngine are met (its part PairIsCompared). -/
theorem witness_PairIsCompared :
    (let u := {tl (lay .int8 .int8 0 0 false) with ops := opsG true, startAt := 90000, cycles := 512, mode := (lay .int8 .int8 0 0 false).mode, q := (lay .int8 .int8 0 0 false).q}; let s : State := {((en {running := some u} [(rk (pgEng 4) 0x104, 0), (rk (pgEng 4) 0x10C, 9), (rk (pgEng 5) 0x10C, 9)]).setEng 5 {pairSeen := none}) with time := {tb0 := 200000}}; let e : Fin 6 := 4; let d : Completion := (none.getD (dcomp [] 0)); let p := partner e; ((s.engAt e).running = some u) ∧ (s.engBit e 3 = true) ∧ (cycleUnits (s.engFreq e) u.cycles ≤ nsUnits (s.time.tb0 - u.startAt)) ∧ (d.status = .ok ∨ d.status = .chkFail) ∧ ((d.bad = [] ↔ d.status = .ok)) ∧ ((d.engine, d.entry, d.tag, d.gen) = (p, u.entry, u.tag, u.gen)) ∧ ((s.engAt p).pairSeen = none)) ∧
    (let u := {tl (lay .int8 .int8 0 0 false) with ops := opsG true, startAt := 90000, cycles := 512, mode := (lay .int8 .int8 0 0 false).mode, q := (lay .int8 .int8 0 0 false).q}; let s : State := {((en {running := some u} [(rk (pgEng 4) 0x104, 0), (rk (pgEng 4) 0x10C, 9), (rk (pgEng 5) 0x10C, 9)]).setEng 5 {pairSeen := (some (dcomp [] 0))}) with time := {tb0 := 200000}}; let e : Fin 6 := 4; let d : Completion := ((some (dcomp [] 0)).getD (dcomp [] 0)); let p := partner e; ((s.engAt e).running = some u) ∧ (s.engBit e 3 = true) ∧ (cycleUnits (s.engFreq e) u.cycles ≤ nsUnits (s.time.tb0 - u.startAt)) ∧ (d.status = .ok ∨ d.status = .chkFail) ∧ ((d.bad = [] ↔ d.status = .ok)) ∧ ((d.engine, d.entry, d.tag, d.gen) = (p, u.entry, u.tag, u.gen)) ∧ ((s.engAt p).pairSeen = some d)) := by refine ⟨?_, ?_⟩ <;> decide +kernel

/-- The hypotheses of Obligations.SingleFaultIsLocated are met. -/
theorem witness_SingleFaultIsLocated :
    (let u := {tl (lay .int8 .int8 0 0 false) with ops := opsG true, startAt := 90000, cycles := 512, mode := (lay .int8 .int8 0 0 false).mode, q := (lay .int8 .int8 0 0 false).q}; let r : Nat := 0; let c : Nat := 0; let d : Int := 5; let n := (u.ops.weights.head?.getD []).length; (isFloat u.layer.wfmt = false) ∧ (isFloat u.layer.afmt = false) ∧ (u.ops.weights ≠ []) ∧ ((∀ w ∈ u.ops.weights, w.length = n)) ∧ ((∀ a ∈ u.ops.acts, a.length = u.ops.weights.length)) ∧ (r < u.ops.acts.length) ∧ (c < n) ∧ (d % 2 ^ 32 ≠ 0)) := by decide +kernel

/-- The hypotheses of Obligations.GatherFindsEverySite are met. -/
theorem witness_GatherFindsEverySite :
    (let u := tl (lay .int8 .int8 0 0 false true 0 3 1); let s : State := (sitesAt ((en {staged := some u} [(binKey 1 0xC, 4)]).setSlotOf 1 {image := some (im 0), inv := some iv}) [(3, 4)]).putLE 0x010000000040 8 0x123456789; let e : Fin 6 := 4; let img : ModelImage := im 0; let inv : Invocation := iv; let task : TaskDesc := tk; let rows : List SiteRow := [{ cx := 3, cy := 4, row := [-0x77, 0x67, 0x45, 0x23, 1, 0, 0, 0] }]; let l := u.layer; let found := s.inputSites e l.afmt img.trig inv.buf; let n := s.getLE (inv.buf + 8) 4; ((s.engAt e).staged = some u) ∧ (l.sparse = true) ∧ ((s.slotOf u.model).image = some img) ∧ ((s.slotOf u.model).inv = some inv) ∧ (s.taskOf u.model u.tag = some task) ∧ (task.readsIn = true ∧ img.trig.source < 2) ∧ (found.2 = some rows) ∧ (2 * rows.length ≤ 2 ^ l.hashH) ∧ (s.memc.commonsBad = []) ∧ (inOpenCommons inv.buf (max (16 + 4 * n) (binRows (s.binCap img.trig.param) + 8 * n)) = true)) ∧
    (let u := tl (lay .int8 .int8 0 0 false true 0 3 1); let s : State := (en {staged := some u} []).setSlotOf 1 {image := some (im 5), inv := some iv}; let e : Fin 6 := 4; let img : ModelImage := im 5; let inv : Invocation := iv; let task : TaskDesc := tk; let rows : List SiteRow := [{ cx := 3, cy := 4, row := [5] }]; let l := u.layer; ((s.engAt e).staged = some u) ∧ (l.sparse = true) ∧ ((s.slotOf u.model).image = some img) ∧ ((s.slotOf u.model).inv = some inv) ∧ (s.taskOf u.model u.tag = some task) ∧ (¬ (task.readsIn = true ∧ img.trig.source < 2)) ∧ (2 * rows.length ≤ 2 ^ l.hashH)) := by refine ⟨?_, ?_⟩ <;> decide +kernel

/-- The hypotheses of Obligations.MarginIsEnteredAndLeft are met. -/
theorem witness_MarginIsEnteredAndLeft :
    (let s := (en {} [(copyKey 0 (pgEng 4) 0x30, 3), (rk (pgEng 4) 0x128, 3+0x300), (rk (pgEng 5) 0x104, 0), (rk (pgEng 4) 0x10, 2), (rk (pgEng 5) 0x10, 0), (rk (pgEng 4) 0x2C, 1+0x100), (rk pgSys 0x104, 0)]).setEng 5 {stats := [(1,(3,4))]}; let s : State := s; let h : Fin 2 := (Fin.ofNat 2 0); let p := pgEng 4; ((s.margin = 1 ∧ (s.engAt 4).running = none ∧ (s.engAt 5).running = none) ∨ s.margin = 3) ∧ (s.margin = 3) ∧ (s.busy p = true) ∧ (s.reaches h = true) ∧ (s.isOwner h = true)) ∧
    (let s := (en {} [(copyKey 0 (pgEng 4) 0x30, 3), (rk (pgEng 4) 0x128, 0+0x300), (rk (pgEng 5) 0x104, 0), (rk (pgEng 4) 0x10, 2), (rk (pgEng 5) 0x10, 0), (rk (pgEng 4) 0x2C, 0+0x100), (rk pgSys 0x104, 0)]).setEng 5 {stats := [(1,(3,4))]}; let s : State := s; let h : Fin 2 := (Fin.ofNat 2 0); let p := pgEng 4; (let code := s.hostArg h p 0 % 32; (let down (e : Nat) := s.blk (pgEng e) = stTesting ∨ s.blk (pgEng e) = stFaulted; (let cause := if s.engArr 4 = 1 ∨ s.engArr 5 = 1 then 1 else if down 4 ∨ down 5 then 2 else if 30 < code then 3 else 0; (s.issues h p = true) ∧ (s.margin = 0) ∧ (cause = 0))))) ∧
    (let s := (en {} [(copyKey 0 (pgEng 4) 0x30, 31), (rk (pgEng 4) 0x128, 0+0x300), (rk (pgEng 5) 0x104, 0), (rk (pgEng 4) 0x10, 2), (rk (pgEng 5) 0x10, 0), (rk (pgEng 4) 0x2C, 0+0x100), (rk pgSys 0x104, 0)]).setEng 5 {stats := [(1,(3,4))]}; let s : State := s; let h : Fin 2 := (Fin.ofNat 2 0); let p := pgEng 4; (let code := s.hostArg h p 0 % 32; (let down (e : Nat) := s.blk (pgEng e) = stTesting ∨ s.blk (pgEng e) = stFaulted; (let cause := if s.engArr 4 = 1 ∨ s.engArr 5 = 1 then 1 else if down 4 ∨ down 5 then 2 else if 30 < code then 3 else 0; (s.issues h p = true) ∧ (s.margin = 0) ∧ (cause ≠ 0))))) ∧
    (let s := (en {} [(copyKey 0 (pgEng 4) 0x30, 3), (rk (pgEng 4) 0x128, 2+0x300), (rk (pgEng 5) 0x104, 0), (rk (pgEng 4) 0x10, 2), (rk (pgEng 5) 0x10, 0), (rk (pgEng 4) 0x2C, 0+0x100), (rk pgSys 0x104, 0)]).setEng 5 {stats := [(1,(3,4))]}; let s : State := s; let h : Fin 2 := (Fin.ofNat 2 0); let p := pgEng 4; (s.issues h p = true) ∧ (s.margin = 2)) := by refine ⟨?_, ?_, ?_, ?_⟩ <;> decide +kernel

end G6

namespace G7

def regsOf (s : State) (l : List (Nat × Nat)) : State := l.foldl (fun s e => s.wrN e.1 e.2) s
def up (s : State) : State := (s.setPort 0 { link := true, inReset := false }).setPort 1 { link := true, inReset := false }
def st (l : List (Nat × Nat)) : State := up (regsOf State.reset ([(rk pgStream 0x10, 2), (rk pgStream 0x108, 3),(rk pgStream 0x100, 0x1F)] ++ l))
def lay (f g : NumFmt) (mode q : Nat) (m : Bool) (sp : Bool := false) (rad : Nat := 1) (hh : Nat := 3) (str : Nat := 1) : LayerDesc := { wfmt := f, afmt := g, ofmt := .int8, sparse := sp, radius := rad, stride := str, hashH := hh, listCap := 4, mode := mode, q := q, texp := 0, tol := some 0x3A000000, tolAbs := some 0, margin := m, relu := true, hinted := false, bias := [1,2,3], mult := [3,3,3], shift := [2,1,0] }
def tl (l : LayerDesc) : Tile := { entry := 4, model := 1, tag := 0, gen := 7, layerIdx := 3, layer := l, m := 4, n := 3, kb := 1, passes := 256, readyAt := 10 }
def tk : TaskDesc := { layer := 0, deps := [], depCnt := 0, depOff := 0, readsIn := true, writesOut := true, m := 4, kb := 1, nm1 := 0, engMask := 63, passes := 256, waddr := 0, oaddr := 0, out := none }
def im (src : Nat) : ModelImage := { magic := 0x4C574D49, version := 0, sections := [], taskCount := 1, layerCount := 1, dirOff := 64, outs := [], prio := 0, layers := [lay .int8 .int8 0 0 false true], tasks := [tk], trig := {source := src, param := 1, count := 1}, bufs := [], pins := [], binds := [], sig := none, length := 4, digest := [] }
def iv : Invocation := { trigTime := 0, buf := 0x010000000000, admitted := 0, done := [], unchecked := [] }

def ttOn (l : List (Nat×Nat)) : State := {(st ([(rk pgTT 0x10, 2)] ++ ((List.range 6).map fun e => (rk (pgEng e) 0x10, 2)) ++ l)) with time := {tb0 := 100000, fus := 5000*2^40}}
def img1 (src par : Nat) (b : List BindDesc := []) : ModelImage := {im src with trig := {source := src, param := par, count := 1}, binds := b, sections := imageSections.map (fun n => (n, 0x1000 * n, 64)), layers := [lay .int8 .int8 0 0 false false 1 10 1]}
def lc (n : Nat) (s : State) : State := {s with sec := {s.sec with fuses := {s.sec.fuses with lifecycle := n}}}
def bent (b : Bool) : SbEntry := {entry := 4, model := 2, tag := 1, count := 0, readyAt := 5, issued := some (3, b), gen := 7}
def comp (st : TileStatus) (gen : Nat) : Completion := {engine := 3, entry := 4, model := 2, tag := 1, gen := gen, status := st, sig := 0, sig2 := 0, ran := [(3, 50, 60)], bad := if st = .ok then [] else [3], fatal := [], unchecked := true}

def load7 : State :=
  let s := lc 0 (ttOn [(slotReg 2 0, 0), (rk pgSys 0x104, 0), (copyKey 0 pgTT 0x30, 2), (copyKey 0 pgTT 0x34, 0x100), (copyKey 0 pgTT 0x38, 7), (rk pgTT 0x2C, 0x101)])
  ({s with tt := {s.tt with loading := some (2, 0x4444)}}).putLE 0x744C 8 (4 + 2 ^ 16 + 63 * 2 ^ 32 + 256 * 2 ^ 48)
/-- An image of the version the device takes, whatever that version is. -/
def img7 : ImageView := {(img1 0 1).toImageView with version := Config.modelVersion}

theorem img7_head : headCheck img7 = none := by
  unfold headCheck
  rw [if_neg]
  · decide +kernel
  · have v : (img7.version != Config.modelVersion) = false := bne_self_eq_false _
    have w : imageSections.any (fun n => !img7.sections.any (fun q => q.1 == n) && Config.sectionRequired n) = false := by decide +kernel
    rw [v, w]
    decide +kernel
theorem img7_empty : headCheck { img7 with taskCount := 0 } = some (4, 0) := by
  unfold headCheck
  rw [if_neg]
  · decide +kernel
  · have v : (img7.version != Config.modelVersion) = false := bne_self_eq_false _
    have w : imageSections.any (fun n => !img7.sections.any (fun q => q.1 == n) && Config.sectionRequired n) = false := by decide +kernel
    rw [v, w]
    decide +kernel

/-- The hypotheses of Obligations.ModelIsLoadedAndActivated are met (its part ModelIsLoaded). -/
theorem witness_ModelIsLoaded :
    (let s : State := (let s := lc 2 (ttOn [(slotReg 2 0, 0), (rk pgSys 0x104, 0), (copyKey 0 pgTT 0x30, 2), (copyKey 0 pgTT 0x34, 0x100), (copyKey 0 pgTT 0x38, 7), (rk pgTT 0x2C, 0)]); {s with tt := {s.tt with loading := some (2, 0x4444)}}); let h : Fin 2 := (Fin.ofNat 2 0); let m : Fin 8 := 2; let a : Nat := 0x4444; let v : ImageView := {(img1 0 1).toImageView with version := 0}; (s.issues h pgTT = true) ∧ (s.hostArg h pgTT 0 % 8 = m) ∧ (s.mst m = msEmpty) ∧ (s.mst m ≠ msReady) ∧ (s.tt.loading = some (m.val, a)) ∧ ((s.modelSig v).1 = false)) ∧
    (let s : State := (let s := lc 0 (ttOn [(slotReg 2 0, 2), (rk pgSys 0x104, 0), (copyKey 0 pgTT 0x30, 2), (copyKey 0 pgTT 0x34, 0x100), (copyKey 0 pgTT 0x38, 7), (rk pgTT 0x2C, 0)]); {s with tt := {s.tt with loading := some (2, 0x4444)}}); let h : Fin 2 := (Fin.ofNat 2 0); let m : Fin 8 := 2; (s.issues h pgTT = true) ∧ (s.hostArg h pgTT 0 % 8 = m) ∧ (s.mst m ≠ msEmpty) ∧ (s.mst m = msReady)) ∧
    ((load7.tt.loading = some (2, 0x4444)) ∧ ((load7.modelSig img7).1 = true) ∧ ((load7.modelSig img7).2 = false) ∧
      ((load7.loadCheck 2 0x4444 img7).isRight = true) ∧ ((load7.loadCheck 2 0x4444 { img7 with taskCount := 0 }).isLeft = true) ∧
      (load7.busy pgTT = true)) := by
  refine ⟨by decide +kernel, by decide +kernel, by decide +kernel, by decide +kernel, by decide +kernel, ?_, ?_, by decide +kernel⟩
  · unfold State.loadCheck
    rw [img7_head]
    decide +kernel
  · unfold State.loadCheck
    rw [img7_empty]
    rfl

/-- The hypotheses of Obligations.ModelIsLoadedAndActivated are met (its part ModelIsActivated). -/
theorem witness_ModelIsActivated :
    (let i0 := img1 0 1 [{addr := 5, consumer := .grid 3}]; let i1 := {i0 with binds := if 2 = 1 then [] else i0.binds}; let s : State := ((((ttOn [(slotReg 2 0, 2), (slotReg 3 0, 2), (slotReg 5 0, 3), (copyKey 0 pgTT 0x30, 16*2+2), (binKey 1 0, 0/2), (rk pgFab 0x198, 3-0)]).setSlotOf 2 {image := some i0, inv := none, pend := some {model := 2, at_ := 4, buf := 5, span := []}, swapOut := 2 == 2}).setSlotOf 3 {image := some i1}).setSlotOf 5 {image := some (img1 0 1 [{addr := 6, consumer := if 2 = 2 then .grid 3 else .trk}])}); let h : Fin 2 := 0; let m : Fin 8 := 2; let b : Fin 8 := (Fin.ofNat 8 2); let img : ModelImage := i0; let imgB : ModelImage := (if 2 = 2 then i0 else i1); let off := img.trig.source = 0 ∧ s.binEn (img.trig.param % 16) = false ∨ img.trig.source = 1 ∧ s.fld (rk pgFab (0x188 + 16 * (img.trig.param % 8))) 1 0 ≠ 3; (let armed := (List.range 8).any (fun k => (s.slotOf k).swapTo.isSome && (k == m || k == b || (s.slotOf k).swapTo == some m.val || (s.slotOf k).swapTo == some b.val)) = true; (let fit := s.mst m = msActive ∧ s.mst b = msReady ∧ m ≠ b ∧ ¬ armed; (s.issues h pgTT = true) ∧ ((s.slotOf m).image = some img) ∧ ((s.slotOf b).image = some imgB) ∧ (s.hostArg h pgTT 0 = b.val * 16 + m.val) ∧ (s.mst m = msReady) ∧ (off) ∧ ((s.mst m ∈ [msReady, msActive, msDraining, msDegraded])) ∧ (s.mst m = msDraining ∨ s.mst m = msActive ∨ (s.slotOf m).inv = none) ∧ ((s.slotOf m).inv = none) ∧ ((s.slotOf m).swapOut = true) ∧ (¬ fit)))) ∧
    (let i0 := img1 0 1 [{addr := 5, consumer := .grid 3}]; let i1 := {i0 with binds := if 0 = 1 then [] else i0.binds}; let s : State := ((((ttOn [(slotReg 2 0, 3), (slotReg 3 0, 2), (slotReg 5 0, 3), (copyKey 0 pgTT 0x30, 16*3+2), (binKey 1 0, 0/2), (rk pgFab 0x198, 3-0)]).setSlotOf 2 {image := some i0, inv := (some iv), pend := some {model := 2, at_ := 4, buf := 5, span := []}, swapOut := 0 == 2}).setSlotOf 3 {image := some i1}).setSlotOf 5 {image := some (img1 0 1 [{addr := 6, consumer := if 0 = 2 then .grid 3 else .trk}])}); let h : Fin 2 := 0; let m : Fin 8 := 2; let b : Fin 8 := (Fin.ofNat 8 3); let img : ModelImage := i0; let imgB : ModelImage := (if 3 = 2 then i0 else i1); let armed := (List.range 8).any (fun k => (s.slotOf k).swapTo.isSome && (k == m || k == b || (s.slotOf k).swapTo == some m.val || (s.slotOf k).swapTo == some b.val)) = true; (let fit := s.mst m = msActive ∧ s.mst b = msReady ∧ m ≠ b ∧ ¬ armed; (s.issues h pgTT = true) ∧ ((s.slotOf m).image = some img) ∧ ((s.slotOf b).image = some imgB) ∧ (s.hostArg h pgTT 0 = b.val * 16 + m.val) ∧ (s.mst m ≠ msReady) ∧ ((s.mst m ∈ [msReady, msActive, msDraining, msDegraded])) ∧ (s.mst m = msDraining ∨ s.mst m = msActive ∨ (s.slotOf m).inv = none) ∧ ((s.slotOf m).inv ≠ none) ∧ (fit) ∧ (img.trig = imgB.trig ∧ img.binds.map (·.consumer) = imgB.binds.map (·.consumer)))) ∧
    (let i0 := img1 0 1 [{addr := 5, consumer := .grid 3}]; let i1 := {i0 with binds := if 0 = 1 then [] else i0.binds}; let s : State := ((((ttOn [(slotReg 2 0, 2), (slotReg 3 0, 2), (slotReg 5 0, 3), (copyKey 0 pgTT 0x30, 16*2+2), (binKey 1 0, 2/2), (rk pgFab 0x198, 3-2)]).setSlotOf 2 {image := some i0, inv := none, pend := some {model := 2, at_ := 4, buf := 5, span := []}, swapOut := 0 == 2}).setSlotOf 3 {image := some i1}).setSlotOf 5 {image := some (img1 0 1 [{addr := 6, consumer := if 0 = 2 then .grid 3 else .trk}])}); let h : Fin 2 := 0; let m : Fin 8 := 2; let b : Fin 8 := (Fin.ofNat 8 2); let img : ModelImage := i0; let imgB : ModelImage := (if 2 = 2 then i0 else i1); let off := img.trig.source = 0 ∧ s.binEn (img.trig.param % 16) = false ∨ img.trig.source = 1 ∧ s.fld (rk pgFab (0x188 + 16 * (img.trig.param % 8))) 1 0 ≠ 3; (let clash := (List.range 8).any (fun k => k != m && s.mst k == msActive && (((s.slotOf k).image.map inputsOf).getD []).any (fun c => (inputsOf img).contains c)) = true; (s.issues h pgTT = true) ∧ ((s.slotOf m).image = some img) ∧ ((s.slotOf b).image = some imgB) ∧ (s.hostArg h pgTT 0 = b.val * 16 + m.val) ∧ (s.mst m = msReady) ∧ (¬ off) ∧ (¬ clash))) ∧
    (let i0 := img1 0 1 [{addr := 5, consumer := .grid 3}]; let i1 := {i0 with binds := if 2 = 1 then [] else i0.binds}; let s : State := ((((ttOn [(slotReg 2 0, 2), (slotReg 3 0, 2), (slotReg 5 0, 3), (copyKey 0 pgTT 0x30, 16*2+2), (binKey 1 0, 2/2), (rk pgFab 0x198, 3-2)]).setSlotOf 2 {image := some i0, inv := none, pend := some {model := 2, at_ := 4, buf := 5, span := []}, swapOut := 2 == 2}).setSlotOf 3 {image := some i1}).setSlotOf 5 {image := some (img1 0 1 [{addr := 6, consumer := if 2 = 2 then .grid 3 else .trk}])}); let h : Fin 2 := 0; let m : Fin 8 := 2; let b : Fin 8 := (Fin.ofNat 8 2); let img : ModelImage := i0; let imgB : ModelImage := (if 2 = 2 then i0 else i1); let off := img.trig.source = 0 ∧ s.binEn (img.trig.param % 16) = false ∨ img.trig.source = 1 ∧ s.fld (rk pgFab (0x188 + 16 * (img.trig.param % 8))) 1 0 ≠ 3; (let clash := (List.range 8).any (fun k => k != m && s.mst k == msActive && (((s.slotOf k).image.map inputsOf).getD []).any (fun c => (inputsOf img).contains c)) = true; (s.issues h pgTT = true) ∧ ((s.slotOf m).image = some img) ∧ ((s.slotOf b).image = some imgB) ∧ (s.hostArg h pgTT 0 = b.val * 16 + m.val) ∧ (s.mst m = msReady) ∧ (¬ off) ∧ (clash))) ∧
    (let i0 := img1 0 1 [{addr := 5, consumer := .grid 3}]; let i1 := {i0 with binds := if 1 = 1 then [] else i0.binds}; let s : State := ((((ttOn [(slotReg 2 0, 3), (slotReg 3 0, 2), (slotReg 5 0, 3), (copyKey 0 pgTT 0x30, 16*3+2), (binKey 1 0, 0/2), (rk pgFab 0x198, 3-0)]).setSlotOf 2 {image := some i0, inv := none, pend := some {model := 2, at_ := 4, buf := 5, span := []}, swapOut := 1 == 2}).setSlotOf 3 {image := some i1}).setSlotOf 5 {image := some (img1 0 1 [{addr := 6, consumer := if 1 = 2 then .grid 3 else .trk}])}); let h : Fin 2 := 0; let m : Fin 8 := 2; let b : Fin 8 := (Fin.ofNat 8 3); let img : ModelImage := i0; let imgB : ModelImage := (if 3 = 2 then i0 else i1); let armed := (List.range 8).any (fun k => (s.slotOf k).swapTo.isSome && (k == m || k == b || (s.slotOf k).swapTo == some m.val || (s.slotOf k).swapTo == some b.val)) = true; (let fit := s.mst m = msActive ∧ s.mst b = msReady ∧ m ≠ b ∧ ¬ armed; (s.issues h pgTT = true) ∧ ((s.slotOf m).image = some img) ∧ ((s.slotOf b).image = some imgB) ∧ (s.hostArg h pgTT 0 = b.val * 16 + m.val) ∧ (fit) ∧ (¬ (img.trig = imgB.trig ∧ img.binds.map (·.consumer) = imgB.binds.map (·.consumer))))) := by refine ⟨?_, ?_, ?_, ?_, ?_⟩ <;> decide +kernel

def tf : Firing := { model := 2, at_ := 90, buf := 0x010000000000, span := [(0x010000000000, 1)] }
def trS (l : List (Nat × Nat)) (img : ModelImage) (inv : Option Invocation) (pend : Option Firing) (sw : Option Nat) (fired : List Firing) (rew : List (Nat × Nat)) : State :=
  let s := ((ttOn ([(slotReg 2 0, 3), (slotReg 3 0, 2)] ++ l)).setSlotOf 2 {image := some img, inv := inv, pend := pend, swapTo := sw, armedAt := 50}).setSlotOf 3 {image := some img}
  {s with tt := {s.tt with fired := fired, rewritten := rew}}

/-- The hypotheses of Obligations.InvocationIsStartedAndIssued are met (its part TriggerStartsAnInvocation). -/
theorem witness_TriggerStartsAnInvocation :
    (let s : State := trS [(rk pgTT 0x10, 1)] (img1 0 1) (some iv) none none [tf] [(2, 0)]; let m : Fin 8 := 2; let f : Firing := tf; let img : ModelImage := img1 0 1; let q := s.slotOf m; let period := img.trig.source = 5; let due := (if period then q.perAt < s.now / (16 * max 1 img.trig.count) ∧ f = { model := m, at_ := s.time.tb0, buf := 0, span := [] } else s.tt.fired.find? (fun g => g.model == m.val) = some f); let live := s.running pgTT = true ∧ s.mst m = msActive; let reads (r : Nat × Nat) (inv : Invocation) := r.2 = inv.trigTime ∧ (img.tasks.zip (List.range img.tasks.length)).any (fun x => x.1.readsIn && !inv.done.contains x.2) = true; (q.image = some img) ∧ (due) ∧ (q.swapTo = none) ∧ (¬ live) ∧ (s.tt.rewritten.find? (fun x => x.1 == m.val) = some (2, 0)) ∧ (q.inv = some iv) ∧ (q.pend = none) ∧ (s.mst m = msActive) ∧ (reads (2, 0) iv)) ∧
    (let s : State := trS [] (img1 0 1) (some {iv with done := [0]}) none none [tf] [(2, 0)]; let m : Fin 8 := 2; let f : Firing := tf; let img : ModelImage := img1 0 1; let q := s.slotOf m; let period := img.trig.source = 5; let due := (if period then q.perAt < s.now / (16 * max 1 img.trig.count) ∧ f = { model := m, at_ := s.time.tb0, buf := 0, span := [] } else s.tt.fired.find? (fun g => g.model == m.val) = some f); let live := s.running pgTT = true ∧ s.mst m = msActive; let free := q.inv = none ∧ q.pend = none ∧ s.halted pgTT = false; let reads (r : Nat × Nat) (inv : Invocation) := r.2 = inv.trigTime ∧ (img.tasks.zip (List.range img.tasks.length)).any (fun x => x.1.readsIn && !inv.done.contains x.2) = true; (q.image = some img) ∧ (due) ∧ (q.swapTo = none) ∧ (live) ∧ (¬ free) ∧ (s.tt.rewritten.find? (fun x => x.1 == m.val) = some (2, 0)) ∧ (q.inv = some {iv with done := [0]}) ∧ (q.pend = none) ∧ (s.mst m = msActive) ∧ (¬ reads (2, 0) {iv with done := [0]})) ∧
    (let s : State := trS [] (img1 0 1) none none none [tf] []; let m : Fin 8 := 2; let f : Firing := tf; let img : ModelImage := img1 0 1; let buf := f.buf + 1; let q := s.slotOf m; let period := img.trig.source = 5; let due := (if period then q.perAt < s.now / (16 * max 1 img.trig.count) ∧ f = { model := m, at_ := s.time.tb0, buf := 0, span := [] } else s.tt.fired.find? (fun g => g.model == m.val) = some f); let live := s.running pgTT = true ∧ s.mst m = msActive; let free := q.inv = none ∧ q.pend = none ∧ s.halted pgTT = false; (q.image = some img) ∧ (due) ∧ (buf ≠ f.buf) ∧ (q.swapTo = none) ∧ (live) ∧ (free) ∧ (s.tt.rewritten.find? (fun x => x.1 == m.val) = none)) ∧
    (let s : State := trS [] (img1 0 1) none (some tf) none [tf] []; let m : Fin 8 := 2; let f : Firing := tf; let img : ModelImage := img1 0 1; let q := s.slotOf m; let period := img.trig.source = 5; let due := (if period then q.perAt < s.now / (16 * max 1 img.trig.count) ∧ f = { model := m, at_ := s.time.tb0, buf := 0, span := [] } else s.tt.fired.find? (fun g => g.model == m.val) = some f); let live := s.running pgTT = true ∧ s.mst m = msActive; let free := q.inv = none ∧ q.pend = none ∧ s.halted pgTT = false; (q.image = some img) ∧ (due) ∧ (q.swapTo = none) ∧ (live) ∧ (¬ free) ∧ (q.pend ≠ none)) ∧
    (let s : State := trS [] (img1 5 0) none none none [] []; let m : Fin 8 := 2; let f : Firing := { model := 2, at_ := 100000, buf := 0, span := [] }; let img : ModelImage := img1 5 0; let q := s.slotOf m; let period := img.trig.source = 5; let due := (if period then q.perAt < s.now / (16 * max 1 img.trig.count) ∧ f = { model := m, at_ := s.time.tb0, buf := 0, span := [] } else s.tt.fired.find? (fun g => g.model == m.val) = some f); let live := s.running pgTT = true ∧ s.mst m = msActive; let free := q.inv = none ∧ q.pend = none ∧ s.halted pgTT = false; (q.image = some img) ∧ (due) ∧ (q.swapTo = none) ∧ (live) ∧ (free)) ∧
    (let s : State := trS [] (img1 0 1) none none none [] []; let m : Fin 8 := 2; let img : ModelImage := img1 0 1; let q := s.slotOf m; let period := img.trig.source = 5; (q.image = some img) ∧ (¬ period) ∧ (s.tt.fired.find? (fun g => g.model == m.val) = none)) ∧
    (let s : State := ({ trS [] (img1 5 0) none none none [] [] with time := { tb0 := 5, fus := 9 * 2 ^ 40 } }); let m : Fin 8 := 2; let img : ModelImage := img1 5 0; let q := s.slotOf m; let period := img.trig.source = 5; (q.image = some img) ∧ (period) ∧ (¬ q.perAt < s.now / (16 * max 1 img.trig.count))) ∧
    (let s : State := trS [] (img1 0 1) none none (some 3) [tf] []; let m : Fin 8 := 2; let f : Firing := tf; let img : ModelImage := img1 0 1; let q := s.slotOf m; let period := img.trig.source = 5; let due := (if period then q.perAt < s.now / (16 * max 1 img.trig.count) ∧ f = { model := m, at_ := s.time.tb0, buf := 0, span := [] } else s.tt.fired.find? (fun g => g.model == m.val) = some f); let live := s.running pgTT = true ∧ s.mst m = msActive; let free := q.inv = none ∧ q.pend = none ∧ s.halted pgTT = false; (q.image = some img) ∧ (due) ∧ (live) ∧ (free) ∧ (q.swapTo = some 3) ∧ (q.armedAt < f.at_) ∧ (s.mst 3 = msReady) ∧ ((s.slotOf 3).inv = none) ∧ ((s.slotOf 3).pend = none)) := by refine ⟨?_, ?_, ?_, ?_, ?_, ?_, ?_, ?_⟩ <;> decide +kernel

/-- The hypotheses of Obligations.InvocationIsStartedAndIssued are met (its part TaskIsAdmittedAndIssued). -/
theorem witness_TaskIsAdmittedAndIssued :
    (let t0 := {tk with engMask := 63}; let i0 := {img1 0 1 with tasks := [t0]}; let s : State := ((((ttOn ([(slotReg 2 0, 3), (rk pgTT 0x10, 1), (rk pgTT 0xC, 0)] ++ [])).setSlotOf 2 {image := some i0, inv := some iv}).setEng 0 {running := some (tl (lay .int8 .int8 0 0 false))}).setEng 2 {staged := if 0 = 5 then some (tl (lay .int8 .int8 0 0 false)) else none}); (s.running pgTT = false ∨ s.halted pgTT = true)) ∧
    (let t0 := {tk with engMask := 63}; let i0 := {img1 0 1 with tasks := [t0]}; let s : State := ((((ttOn ([(slotReg 2 0, 3), (rk pgTT 0x10, 2), (rk pgTT 0xC, 0)] ++ [])).setSlotOf 2 {image := some i0, inv := some iv}).setEng 0 {running := some (tl (lay .int8 .int8 0 0 false))}).setEng 2 {staged := if 0 = 5 then some (tl (lay .int8 .int8 0 0 false)) else none}); let m : Fin 8 := 2; let inv : Invocation := iv; let img : ModelImage := i0; let task : TaskDesc := t0; let layer : LayerDesc := (lay .int8 .int8 0 0 false false 1 10 1); let g : Nat × Bool := (0,false); let fits (u : Nat × Bool) := s.eligible u task.engMask layer.margin = true ∧ s.slotFree u = true; (let cost (u v : Nat × Bool) := s.committed u.1 * (s.engFreq v.1 * s.weight v.1); (s.running pgTT = true) ∧ (s.halted pgTT = false) ∧ (s.tt.board = []) ∧ (s.mst m = msActive) ∧ (s.slotOf m = { image := some img, inv := some inv }) ∧ (inv.admitted = 0) ∧ (img.tasks = [task]) ∧ (img.layers[task.layer]? = some layer) ∧ (task.deps = []) ∧ ((∀ k ∈ List.range 8, k ≠ m.val → (s.slotOf k).inv = none ∧ (s.slotOf k).pend = none)) ∧ (g ∈ s.targets) ∧ (fits g) ∧ ((∀ u ∈ s.targets, fits u → cost g u < cost u g ∨ cost g u = cost u g ∧ g.1 ≤ u.1)) ∧ ((∀ u ∈ s.targets, ∀ v ∈ s.targets, fits u → fits v → 0 < s.engFreq u.1 * s.weight u.1)))) := by refine ⟨?_, ?_⟩ <;> decide +kernel

/-- The hypotheses of Obligations.CompletionIsTakenOrEngineFenced are met (its part CompletionIsAccepted). -/
theorem witness_CompletionIsAccepted :
    (let tt := {tk with engMask := 8}; let i0 := {img1 0 1 with tasks := [tt, tt, {tt with deps := [1,0]}]}; let s := (ttOn [(slotReg 2 0, 3), (rk (pgEng 3) 0x10C, 0), (rk pgTT 0x108, 0x03E80000 + 1)]).setSlotOf 2 {image := some i0, inv := some iv}; let c := comp TileStatus.ok 7; let s : State := {s with tt := {s.tt with comps := [c, comp .ok 9], board := [bent false, {bent false with entry := 5, tag := 2, count := 2, issued := none}]}}; let rest : List Completion := [comp .ok 9]; let b : SbEntry := (bent false); let img : ModelImage := i0; let inv : Invocation := iv; let task : TaskDesc := tt; let ex : Nat := 50; let ac : Nat := 60; let latest (b : SbEntry) := b.entry = c.entry ∧ b.model = c.model ∧ b.tag = c.tag ∧ b.gen = c.gen ∧ b.issued = some (c.engine, c.pair); let dropped := (enginesOf (c.engine, c.pair)).any (fun e => s.engBit e 1) = true; (let w := s.winOf c.engine; (s.tt.comps = c :: rest) ∧ (c.fatal = []) ∧ (¬ dropped) ∧ (s.tt.board.find? (fun x => x.entry == c.entry) = some b) ∧ (latest b) ∧ (w.tiles + 1 < s.fld (rk pgTT 0x104) 15 0) ∧ ((s.slotOf b.model).image = some img) ∧ ((s.slotOf b.model).inv = some inv) ∧ (img.tasks[b.tag]? = some task) ∧ (c.ran = [(c.engine, ex, ac)]) ∧ (c.status = .ok) ∧ (b.arbiter = none) ∧ (inv.done.length + 1 < img.tasks.length))) ∧
    (let tt := {tk with engMask := 8}; let i0 := {img1 0 1 with tasks := [tt, tt, {tt with deps := [1,0]}]}; let s := (ttOn [(slotReg 2 0, 3), (rk (pgEng 3) 0x10C, 0), (rk pgTT 0x108, 0x03E80000 + 3)]).setSlotOf 2 {image := some i0, inv := some iv}; let c := comp .chkFail 7; let s : State := {s with tt := {s.tt with comps := [c, comp .ok 9], board := [bent false, {bent false with entry := 5, tag := 2, count := 2, issued := none}]}}; let rest : List Completion := [comp .ok 9]; let b : SbEntry := (bent false); let img : ModelImage := i0; let inv : Invocation := iv; let task : TaskDesc := tt; let ex : Nat := 50; let ac : Nat := 60; let latest (b : SbEntry) := b.entry = c.entry ∧ b.model = c.model ∧ b.tag = c.tag ∧ b.gen = c.gen ∧ b.issued = some (c.engine, c.pair); let dropped := (enginesOf (c.engine, c.pair)).any (fun e => s.engBit e 1) = true; (let w := s.winOf c.engine; (s.tt.comps = c :: rest) ∧ (c.fatal = []) ∧ (¬ dropped) ∧ (s.tt.board.find? (fun x => x.entry == c.entry) = some b) ∧ (latest b) ∧ (w.tiles + 1 < s.fld (rk pgTT 0x104) 15 0) ∧ ((s.slotOf b.model).image = some img) ∧ ((s.slotOf b.model).inv = some inv) ∧ (img.tasks[b.tag]? = some task) ∧ (c.ran = [(c.engine, ex, ac)]) ∧ (c.status = .chkFail) ∧ (c.bad = [c.engine]) ∧ ((w.strikes.length + 1 < s.fld (rk pgTT 0x108) 3 0)) ∧ ((∀ x ∈ s.tt.board, x.entry ≠ b.entry → s.entryLost x = false)) ∧ (b.arbiter = none) ∧ ((s.targets.any (fun u => s.eligible u task.engMask (((s.layerOf b.model b.tag).map (·.margin)).getD false))) = true))) ∧
    (let tt := {tk with engMask := 8}; let i0 := {img1 0 1 with tasks := [tt, tt, {tt with deps := [1,0]}]}; let s := (ttOn [(slotReg 2 0, 3), (rk (pgEng 3) 0x10C, 0), (rk pgTT 0x108, 0x03E80000 + 1)]).setSlotOf 2 {image := some i0, inv := some iv}; let c := comp TileStatus.ok 8; let s : State := {s with tt := {s.tt with comps := [c, comp .ok 9], board := [bent false, {bent false with entry := 5, tag := 2, count := 2, issued := none}]}}; let rest : List Completion := [comp .ok 9]; let latest (b : SbEntry) := b.entry = c.entry ∧ b.model = c.model ∧ b.tag = c.tag ∧ b.gen = c.gen ∧ b.issued = some (c.engine, c.pair); let dropped := (enginesOf (c.engine, c.pair)).any (fun e => s.engBit e 1) = true; (s.tt.comps = c :: rest) ∧ (c.fatal = []) ∧ (¬ dropped) ∧ (∀ x ∈ s.tt.board.find? (fun x => x.entry == c.entry), ¬ latest x) ∧ ((s.winOf c.engine).tiles + 1 < s.fld (rk pgTT 0x104) 15 0) ∧ (c.ran = [(c.engine, 50, 60)])) ∧
    (let tt := {tk with engMask := 8}; let i0 := {img1 0 1 with tasks := [tt, tt, {tt with deps := [1,0]}]}; let s := (ttOn [(slotReg 2 0, 3), (rk (pgEng 3) 0x10C, 2), (rk pgTT 0x108, 0x03E80000 + 1)]).setSlotOf 2 {image := some i0, inv := some iv}; let c := comp TileStatus.ok 7; let s : State := {s with tt := {s.tt with comps := [c, comp .ok 9], board := [bent false, {bent false with entry := 5, tag := 2, count := 2, issued := none}]}}; let rest : List Completion := [comp .ok 9]; (s.tt.comps = c :: rest) ∧ (c.fatal = []) ∧ ((enginesOf (c.engine, c.pair)).any (fun e => s.engBit e 1) = true)) := by refine ⟨?_, ?_, ?_, ?_⟩ <;> decide +kernel

/-- The hypotheses of Obligations.CompletionIsTakenOrEngineFenced are met (its part EngineIsFenced). -/
theorem witness_EngineIsFenced :
    (let tt := {tk with engMask := 63}; let i0 := {img1 0 1 with tasks := [tt, tt]}; let u := {tl (lay .int8 .int8 0 0 false) with startAt := 100}; let s := (((ttOn [(slotReg 2 0, 3), (copyKey 0 pgTT 0x30, 3), (rk (pgEng 3) 0x10C, 0), (rk (pgEng 3) 0x10, 2)]).setSlotOf 2 {image := some i0, inv := some iv}).setEng 3 {running := some u, staged := some u}).setWin 3 {testedSince := true, total := 4}; let s : State := {s with tt := {s.tt with board := [bent false, {bent false with entry := 5, tag := 0, issued := some (1, false)}]}}; let h : Fin 2 := 0; let e : Fin 6 := 3; let late := u.startAt + 1000 * s.fld (rk pgTT 0x10C) 6 0 < s.time.tb0; (let mine (b : SbEntry) := b.issued = some (e.val, false); (let lifts := s.engBit e 1 = true ∧ (s.winOf e).testedSince = true ∧ s.blk (pgEng e) = stIdle; ((s.engAt e).running = some u) ∧ (s.running (pgEng e) = true) ∧ (late) ∧ (s.engBit e 1 = false) ∧ (s.engBit e 3 = false) ∧ ((∀ b ∈ s.tt.board, b.issued ≠ some (e.val - 1, true) ∧ b.issued ≠ some (e.val, true))) ∧ ((∀ b ∈ s.tt.board, b.issued = none → b.again = false → b.count = 0 → (List.range 6).any (fun k => k != e.val && (((s.taskOf b.model b.tag).map TaskDesc.engMask).getD 0).testBit k && !s.engBit k 1) = true)) ∧ ((∀ b ∈ s.tt.board, (mine b ∨ b.again = true) → b.arbiter = none ∧ (s.entryTargets { b with
            issued := none
            again := true
            readyAt := s.time.tb0 }).any (fun g => g.1 != e) = true)) ∧ (s.issues h pgTT = true) ∧ (s.hostArg h pgTT 0 % 8 = e) ∧ (¬ lifts)))) ∧
    (let tt := {tk with engMask := 8}; let i0 := {img1 0 1 with tasks := [tt, tt]}; let u := {tl (lay .int8 .int8 0 0 false) with startAt := 94001}; let s := (((ttOn [(slotReg 2 0, 3), (copyKey 0 pgTT 0x30, 3), (rk (pgEng 3) 0x10C, 0), (rk (pgEng 3) 0x10, 2)]).setSlotOf 2 {image := some i0, inv := some iv}).setEng 3 {running := some u, staged := some u}).setWin 3 {testedSince := true, total := 4}; let s : State := {s with tt := {s.tt with board := [bent false, {bent false with entry := 5, tag := 0, issued := some (1, false)}]}}; let e : Fin 6 := 3; let late := u.startAt + 1000 * s.fld (rk pgTT 0x10C) 6 0 < s.time.tb0; ((s.engAt e).running = some u) ∧ (s.running (pgEng e) = true) ∧ (¬ late)) ∧
    (let tt := {tk with engMask := 8}; let i0 := {img1 0 1 with tasks := [tt, tt]}; let u := {tl (lay .int8 .int8 0 0 false) with startAt := 100}; let s := (((ttOn [(slotReg 2 0, 3), (copyKey 0 pgTT 0x30, 3), (rk (pgEng 3) 0x10C, 2), (rk (pgEng 3) 0x10, 1)]).setSlotOf 2 {image := some i0, inv := some iv}).setEng 3 {running := some u, staged := some u}).setWin 3 {testedSince := true, total := 4}; let s : State := {s with tt := {s.tt with board := [bent false, {bent false with entry := 5, tag := 0, issued := some (1, false)}]}}; let h : Fin 2 := 0; let e : Fin 6 := 3; let lifts := s.engBit e 1 = true ∧ (s.winOf e).testedSince = true ∧ s.blk (pgEng e) = stIdle; (s.issues h pgTT = true) ∧ (s.hostArg h pgTT 0 % 8 = e) ∧ (lifts)) := by refine ⟨?_, ?_, ?_⟩ <;> decide +kernel

end G7

namespace G8

def regsOf (s : State) (l : List (Nat × Nat)) : State := l.foldl (fun s e => s.wrN e.1 e.2) s
def up (s : State) : State := (s.setPort 0 { link := true, inReset := false }).setPort 1 { link := true, inReset := false }
def st (l : List (Nat × Nat)) : State := up (regsOf State.reset ([(rk pgStream 0x10, 2), (rk pgStream 0x108, 3),(rk pgStream 0x100, 0x1F)] ++ l))

def gr (l : List (Nat×Nat)) : State := {(st ([(rk pgGrid 0x10, 2), (rk pgGrid 0x120, 0x1000000), (srcKey 3 0, 0xFF03), (rk pgGrid 0x128, 0x40000000)] ++ l)) with time := {tb0 := 100000, fus := 500000*2^40}}
def dl (k : Fin 16) : Delivery := {addr := 0x5000, consumer := .grid k, unchecked := true}
def ident : CalSet := { ext := [fone,0,0,0,0,fone,0,0,0,0,fone,0,0,0,0,fone] }
def wr (s : State) (a : Nat) (bs : List Byte) : State := s.setBytes a bs
def ob1 (x y : Word) (dt ev conf : Nat) (f : Byte) : List Byte := leBytes 4 x.toNat ++ leBytes 4 y.toNat ++ zeros 4 ++ leBytes 2 dt ++ leBytes 1 ev ++ leBytes 1 conf ++ List.replicate 64 f
def ls (r cnt src : Nat) (ob : List Byte) : List Byte := leBytes 8 r ++ leBytes 8 5 ++ leBytes 1 src ++ zeros 1 ++ leBytes 2 cnt ++ zeros 12 ++ ob
def pose (t : Nat) (fl := 0) : Pose := { dtime := t, pos := [0,0,0], vel := [0,0,0], quat := [fone,0,0,0], omega := [0,0,0], flags := fl, seq := 4 }
def gs (l : List (Nat×Nat)) (e : Epoch) (r cnt src : Nat) (ob : List Byte) (mode := 0) (un := true) : State := {(wr (gr l) 0x5000 (ls r cnt src ob)) with grid := {lists := [{addr := 0x5000, source := 3, unchecked := un}, {addr := 5, source := 3, unchecked := false}], acc := some e, poses := [pose 499999, pose 1], cal := [(3, ident)], align := [(0, {lastExit := mode, aligned := mode < 1000000})]}}
def ep : Epoch := { oi := -512, oj := -512, buffer := 1 }
def n0 : Fin 1048576 := Fin.ofNat _ (532*1024+522)
def lpv (t : Nat) (x : Nat) : LoopVal := { stamp := t, words := toWords 20 ((({pose t with pos := [BitVec.ofNat 64 x, 0, 0]}) : Pose).bytes) }
def cg (e : Epoch) (mk : List Nat) : State := let s := gr [(rk pgGrid 0x130, 4)]; let s := {s with planes := [s.evidAddr 0 0], grid := {closing := some e, marks := [(1, mk)]}}; let s := s.putLE (s.workAddr 1 n0) 16 (3*2^48+2^64*500+0x0100000080001); let s := s.putLE (s.evidAddr 0 (n0+1)) 4 (700+2*2^13+2^15+2^16); s.putLE (s.evidAddr 0 (n0+5)) 4 (8000)

/-- The hypotheses of Obligations.DetectionListIsQueued are met (its part ListIsQueuedAtGrid). -/
theorem witness_ListIsQueuedAtGrid :
    (let s := gr [(rk pgGrid 0x10, 1), (srcKey 3 0, 0)]; let s : State := {s with tt := {deliver := [dl 3, dl 3]}, grid := {lists := List.replicate 0 {addr := 5, source := 3, unchecked := false}, acc := some {}}}; let d : Delivery := (dl 3); let rest : List Delivery := [dl 3]; let k : Fin 16 := 3; let off := s.running pgGrid = false ∨ s.srcEn k = false; (s.tt.deliver = d :: rest) ∧ (d.consumer = .grid k) ∧ (off)) ∧
    (let s := gr [(rk pgGrid 0x10, 2), (srcKey 3 0, 1)]; let s : State := {s with tt := {deliver := [dl 3, dl 3]}, grid := {lists := List.replicate 0 {addr := 5, source := 3, unchecked := false}, acc := some {}}}; let d : Delivery := (dl 3); let rest : List Delivery := [dl 3]; let k : Fin 16 := 3; let off := s.running pgGrid = false ∨ s.srcEn k = false; (s.tt.deliver = d :: rest) ∧ (d.consumer = .grid k) ∧ (¬ off) ∧ (s.grid.lists.length < 64)) ∧
    (let s := gr [(rk pgGrid 0x10, 2), (srcKey 3 0, 1)]; let s : State := {s with tt := {deliver := [dl 3, dl 3]}, grid := {lists := List.replicate 64 {addr := 5, source := 3, unchecked := false}, acc := some {}}}; let d : Delivery := (dl 3); let rest : List Delivery := [dl 3]; let k : Fin 16 := 3; let off := s.running pgGrid = false ∨ s.srcEn k = false; (s.tt.deliver = d :: rest) ∧ (d.consumer = .grid k) ∧ (¬ off) ∧ (64 ≤ s.grid.lists.length)) := by refine ⟨?_, ?_, ?_⟩ <;> decide +kernel

/-- The hypotheses of Obligations.ListIsPlaced are met. -/
theorem witness_ListIsPlaced :
    (let s := gs [] {ep with noPose := true} 499000 0 3 (ob1 fone 0x40000000 0 (if 0xF0 = 5 then 1 else 2) 0xF0 0x80); let s : State := (s.putLE (s.workAddr 1 n0) 16 (0*2^48+7+2^80+2^64*4294967000)); let e : Epoch := {ep with noPose := true}; let l : GridList := ({addr := 0x5000, source := 3, unchecked := true}); let rest : List GridList := [{addr := 5, source := 3, unchecked := false}]; let k := l.source; (let count := s.getLE (l.addr + 18) 2; (s.grid.acc = some e) ∧ (s.grid.lists = l :: rest) ∧ (s.running pgGrid = true) ∧ (s.halted pgGrid = false) ∧ (k < 16) ∧ (l.addr + 112 ≤ lpddrEnd) ∧ (s.memClean = true) ∧ (count = 0 ∨ 16384 < count ∨ s.getLE (l.addr + 16) 1 ≠ k ∨ e.noPose = true ∨ s.srcAligned k = false))) ∧
    (let s := gs [] {ep with noPose := false} 499000 1 3 (ob1 fone 0x40000000 0 (if 0xF0 = 5 then 1 else 2) 0xF0 0x80); let s : State := (s.putLE (s.workAddr 1 n0) 16 (0*2^48+7+2^80+2^64*4294967000)); let e : Epoch := {ep with noPose := false}; let l : GridList := ({addr := 0x5000, source := 3, unchecked := true}); let rest : List GridList := [{addr := 5, source := 3, unchecked := false}]; let n : Fin 1048576 := n0; let k := l.source; (let count := s.getLE (l.addr + 18) 2; (let reference := s.getLE l.addr 8; (let ob := s.bytes (l.addr + 32) 80; (let word (i : Nat) : Word := BitVec.ofNat 32 (fieldLE ob (4 * i) 4); (let where_ := s.obsCell e k (s.calOf k) (word 0) (word 1) (word 2) (reference + fieldLE ob 12 2); (let good := count = 1 ∧ s.getLE (l.addr + 16) 1 = k ∧ e.noPose = false ∧ s.srcAligned k = true ∧ (s.srcMode k = 0 ∨ (s.unitAt (s.srcUnit k)).lastExit ≤ reference); (s.grid.acc = some e) ∧ (s.grid.lists = l :: rest) ∧ (s.running pgGrid = true) ∧ (s.halted pgGrid = false) ∧ (k < 16) ∧ (l.addr + 112 ≤ lpddrEnd) ∧ (s.memClean = true) ∧ (good) ∧ (where_ = .cell n)))))))) ∧
    (let s := gs [] {ep with noPose := false} 499000 1 3 (ob1 0x50000000 0x40000000 0 (if 0xF0 = 5 then 1 else 2) 0xF0 0x80); let s : State := (s.putLE (s.workAddr 1 n0) 16 (0*2^48+7+2^80+2^64*4294967000)); let e : Epoch := {ep with noPose := false}; let l : GridList := ({addr := 0x5000, source := 3, unchecked := true}); let rest : List GridList := [{addr := 5, source := 3, unchecked := false}]; let k := l.source; (let count := s.getLE (l.addr + 18) 2; (let reference := s.getLE l.addr 8; (let ob := s.bytes (l.addr + 32) 80; (let word (i : Nat) : Word := BitVec.ofNat 32 (fieldLE ob (4 * i) 4); (let where_ := s.obsCell e k (s.calOf k) (word 0) (word 1) (word 2) (reference + fieldLE ob 12 2); (let good := count = 1 ∧ s.getLE (l.addr + 16) 1 = k ∧ e.noPose = false ∧ s.srcAligned k = true ∧ (s.srcMode k = 0 ∨ (s.unitAt (s.srcUnit k)).lastExit ≤ reference); (s.grid.acc = some e) ∧ (s.grid.lists = l :: rest) ∧ (s.running pgGrid = true) ∧ (s.halted pgGrid = false) ∧ (k < 16) ∧ (l.addr + 112 ≤ lpddrEnd) ∧ (s.memClean = true) ∧ (good) ∧ (where_ = .outside)))))))) ∧
    (let s := gs [] {ep with noPose := false} 500001 1 3 (ob1 fone 0x40000000 0 (if 0xF0 = 5 then 1 else 2) 0xF0 0x80); let s : State := (s.putLE (s.workAddr 1 n0) 16 (0*2^48+7+2^80+2^64*4294967000)); let e : Epoch := {ep with noPose := false}; let l : GridList := ({addr := 0x5000, source := 3, unchecked := true}); let rest : List GridList := [{addr := 5, source := 3, unchecked := false}]; let k := l.source; (let count := s.getLE (l.addr + 18) 2; (let reference := s.getLE l.addr 8; (let ob := s.bytes (l.addr + 32) 80; (let word (i : Nat) : Word := BitVec.ofNat 32 (fieldLE ob (4 * i) 4); (let where_ := s.obsCell e k (s.calOf k) (word 0) (word 1) (word 2) (reference + fieldLE ob 12 2); (let good := count = 1 ∧ s.getLE (l.addr + 16) 1 = k ∧ e.noPose = false ∧ s.srcAligned k = true ∧ (s.srcMode k = 0 ∨ (s.unitAt (s.srcUnit k)).lastExit ≤ reference); (s.grid.acc = some e) ∧ (s.grid.lists = l :: rest) ∧ (s.running pgGrid = true) ∧ (s.halted pgGrid = false) ∧ (k < 16) ∧ (l.addr + 112 ≤ lpddrEnd) ∧ (s.memClean = true) ∧ (good) ∧ (where_ = .drop)))))))) := by refine ⟨?_, ?_, ?_, ?_⟩ <;> decide +kernel

/-- The hypotheses of Obligations.ListIsPlaced are met (its part PlacementOrderIsFree). -/
theorem witness_PlacementOrderIsFree :
    (let f : List Byte := (List.replicate 64 (BitVec.ofNat 8 0x80)); let f' : List Byte := (List.replicate 64 (BitVec.ofNat 8 0)); (f.length = 64) ∧ (f'.length = 64)) := by decide +kernel

/-- The hypotheses of Obligations.EpochTurnsAtItsBoundary are met. -/
theorem witness_EpochTurnsAtItsBoundary :
    (let s := gr [(rk pgGrid 0xC, 0), (chanKey 0 0, 1)]; let s := s.setLoop 2 {waiting := some (lpv 499999 0), adopted := none, fresh := true}; let s : State := {s with grid := {closing := if true then some ep else none, acc := some {ep with buffer := 0, oi := 7}, nextAt := 499999, stepAt := none}}; let e : Epoch := {ep with buffer := 0, oi := 7}; let due := s.grid.nextAt ≤ s.now; (let blocked := s.grid.closing ≠ none ∨ s.halted pgGrid = true; (s.running pgGrid = true) ∧ (s.grid.acc = some e) ∧ (due) ∧ (blocked))) ∧
    (let s := gr [(rk pgGrid 0xC, 0), (chanKey 0 0, 1)]; let s := s.setLoop 2 {waiting := some (lpv 499999 0), adopted := none, fresh := true}; let s : State := {s with grid := {closing := if true then some ep else none, acc := some {ep with buffer := 0, oi := 7}, nextAt := 600000, stepAt := none}}; let e : Epoch := {ep with buffer := 0, oi := 7}; let due := s.grid.nextAt ≤ s.now; (s.running pgGrid = true) ∧ (s.grid.acc = some e) ∧ (¬ due)) ∧
    (let s := gr [(rk pgGrid 0xC, 0), (chanKey 0 0, 1)]; let s := s.setLoop 2 {waiting := some (lpv 499999 0), adopted := none, fresh := true}; let s : State := {s with grid := {closing := if false then some ep else none, acc := some {ep with buffer := 0, oi := 7}, nextAt := 499999, stepAt := none}}; let e : Epoch := {ep with buffer := 0, oi := 7}; let due := s.grid.nextAt ≤ s.now; (let b := (s.loopAt 2).adopt; (let fresh := s.isFresh .gridPose b.adopted; (let blocked := s.grid.closing ≠ none ∨ s.halted pgGrid = true; (s.running pgGrid = true) ∧ (s.grid.acc = some e) ∧ (due) ∧ (¬ blocked) ∧ (s.grid.commit = none) ∧ (fresh = true))))) ∧
    (let s := gr [(rk pgGrid 0xC, 0), (chanKey 0 0, 1)]; let s := s.setLoop 2 {waiting := some (lpv 5 0), adopted := none, fresh := true}; let s : State := {s with grid := {closing := if false then some ep else none, acc := some {ep with buffer := 0, oi := 7}, nextAt := 499999, stepAt := none}}; let e : Epoch := {ep with buffer := 0, oi := 7}; let due := s.grid.nextAt ≤ s.now; (let b := (s.loopAt 2).adopt; (let fresh := s.isFresh .gridPose b.adopted; (let blocked := s.grid.closing ≠ none ∨ s.halted pgGrid = true; (s.running pgGrid = true) ∧ (s.grid.acc = some e) ∧ (due) ∧ (¬ blocked) ∧ (s.grid.commit = none) ∧ (fresh = false))))) := by refine ⟨?_, ?_, ?_, ?_⟩ <;> decide +kernel

/-- The hypotheses of Obligations.EveryCellIsClosed are met. -/
theorem witness_EveryCellIsClosed :
    (let e := {ep with priorUnknown := true, noPose := true, di := 0, dj := 0, shut := 400000}; let s : State := (cg e [n0, n0+8]); let n : Fin 1048576 := (n0+Fin.ofNat _ 0); let plane := s.evidAddr e.buffer 0; (let other := s.evidAddr (1 - e.buffer) 0; (let marks := SMap.get (fun _ => []) s.grid.marks e.buffer; (let w := s.getLE (s.workAddr e.buffer n) 16; (s.grid.closing = some e) ∧ (e.buffer < 2) ∧ (s.rd64 (rk pgGrid 0x120) % 4096 = 0) ∧ (s.rd64 (rk pgGrid 0x120) + 0x0C800000 ≤ lpddrEnd) ∧ (s.memClean = true) ∧ ((∀ a ∈ s.planes, a = plane ∨ a = other)) ∧ ((∀ m ∈ marks, m < 1048576)) ∧ (n.val ∈ marks ∨ w = 0) ∧ (e.noPose = true))))) ∧
    (let e := {ep with priorUnknown := true, noPose := false, di := 0, dj := 0, shut := 400000}; let s : State := (cg e [n0, n0+8]); let n : Fin 1048576 := (n0+Fin.ofNat _ 0); let plane := s.evidAddr e.buffer 0; (let other := s.evidAddr (1 - e.buffer) 0; (let marks := SMap.get (fun _ => []) s.grid.marks e.buffer; (let w := s.getLE (s.workAddr e.buffer n) 16; (s.grid.closing = some e) ∧ (e.buffer < 2) ∧ (s.rd64 (rk pgGrid 0x120) % 4096 = 0) ∧ (s.rd64 (rk pgGrid 0x120) + 0x0C800000 ≤ lpddrEnd) ∧ (s.memClean = true) ∧ ((∀ a ∈ s.planes, a = plane ∨ a = other)) ∧ ((∀ m ∈ marks, m < 1048576)) ∧ (n.val ∈ marks ∨ w = 0) ∧ (e.noPose = false))))) := by refine ⟨?_, ?_⟩ <;> decide +kernel

/-- The hypotheses of Obligations.GridAndTrackCommands are met (its part GridCommands). -/
theorem witness_GridCommands :
    (let l := ident.ext.zipIdx.map (fun e => (srcKey 3 (0x40+4*e.2), e.1.toNat)); let l := if 0 = 1 then l ++ [(srcKey 3 (0x40+4*13), 4)] else if 0 = 2 then l ++ [(srcKey 3 0x40, 0x40000000)] else if 0 = 3 then l ++ [(srcKey 3 0x44, 0x3C800000)] else l; let s := gr (l ++ [(rk pgGrid 0x10, 1), (srcKey 3 4, 1), (srcKey 3 0x20, 77), (copyKey 0 pgGrid 0x30, 3), (rk pgGrid 0xA84, 6), (rk pgGrid 0xDFC, 6)]); let s : State := s; let h : Fin 2 := 0; let k : Fin 16 := 3; let v : Word := (BitVec.ofNat 32 1); (s.issues h pgGrid = true) ∧ (s.hostArg h pgGrid 0 % 16 = k) ∧ (s.calRefused k = none) ∧ (s.running pgGrid = false) ∧ (s.srcEn k = true) ∧ (s.srcMode k ≠ 0) ∧ (s.srcAligned k = true) ∧ (s.reaches h = true) ∧ (s.isOwner h = true) ∧ (v.getLsbD 0 = true)) ∧
    (let l := ident.ext.zipIdx.map (fun e => (srcKey 3 (0x40+4*e.2), e.1.toNat)); let l := if 0 = 1 then l ++ [(srcKey 3 (0x40+4*13), 4)] else if 0 = 2 then l ++ [(srcKey 3 0x40, 0x40000000)] else if 0 = 3 then l ++ [(srcKey 3 0x44, 0x3C800000)] else l; let s := gr (l ++ [(rk pgGrid 0x10, 2), (srcKey 3 4, 0), (srcKey 3 0x20, 77), (copyKey 0 pgGrid 0x30, 3), (rk pgGrid 0xA84, 6), (rk pgGrid 0xDFC, 6)]); let s : State := s; let h : Fin 2 := 0; let k : Fin 16 := 3; (s.issues h pgGrid = true) ∧ (s.hostArg h pgGrid 0 % 16 = k) ∧ (s.calRefused k = none) ∧ (s.running pgGrid = true)) := by refine ⟨?_, ?_⟩ <;> decide +kernel

/-- The hypotheses of Obligations.AlignmentIsMeasuredAndCommitted are met (its part AlignmentFollowsItsPairs). -/
theorem witness_AlignmentFollowsItsPairs :
    (let s := gr [(srcKey 3 4, 1 + 0x50), (trigKey 0 0xC, 10000000), (trigKey 0 0x14, 489000)]; let s := s.setCsi 5 {offers := [], triple := {a := 496000, b := 500, k := 0x10000001}}; let s := s.setUnit 5 {step := true, sprev := none, lastUse := 5, off := 70, period := none}; let s : State := s; let k : Fin 16 := 3; let u : Fin 24 := 5; (s.srcUnit k = u) ∧ (s.unitOffers u = [])) ∧
    (let s := gr [(srcKey 3 4, 1 + 0x50), (trigKey 0 0xC, 10000000), (trigKey 0 0x14, 489000)]; let s := s.setCsi 5 {offers := [(some 1000, 490000), (some 7,7)], triple := {a := 496000, b := 500, k := 0x10000001}}; let s := s.setUnit 5 {step := true, sprev := none, lastUse := 5, off := 70, period := none}; let s : State := s; let k : Fin 16 := 3; let u : Fin 24 := 5; let rest : List (Option Nat × Nat) := [(some 7,7)]; let f : Nat := 490000; let x : Option Nat := some 1000; let v := s.unitAt u; let fresh := v.period ≠ some (s.now / max 1 (s.alignPeriod k)); (s.srcUnit k = u) ∧ (s.unitOffers u = (x, f) :: rest) ∧ (s.srcEn k = true) ∧ (s.srcMode k = 1) ∧ (fresh) ∧ ((1000 : Nat) ∈ x) ∧ (v.step = true)) ∧
    (let s := gr [(srcKey 3 4, 1 + 0x50), (trigKey 0 0xC, 10000000), (trigKey 0 0x14, 489000)]; let s := s.setCsi 5 {offers := [(some 1000, 490000), (some 7,7)], triple := {a := 496000, b := 500, k := 0x10000001}}; let s := s.setUnit 5 {step := false, sprev := none, lastUse := 5, off := 70, period := none}; let s : State := s; let k : Fin 16 := 3; let u : Fin 24 := 5; let rest : List (Option Nat × Nat) := [(some 7,7)]; let f : Nat := 490000; let x : Option Nat := some 1000; let v := s.unitAt u; let fresh := v.period ≠ some (s.now / max 1 (s.alignPeriod k)); (s.srcUnit k = u) ∧ (s.unitOffers u = (x, f) :: rest) ∧ (s.srcEn k = true) ∧ (s.srcMode k = 1) ∧ (fresh) ∧ ((1000 : Nat) ∈ x) ∧ (v.step = false) ∧ (v.sprev = none)) ∧
    (let s := gr [(srcKey 3 4, 1 + 0x50), (trigKey 0 0xC, 10000000), (trigKey 0 0x14, 489000)]; let s := s.setCsi 5 {offers := [(some 1000, 490000), (some 7,7)], triple := {a := 496000, b := 500, k := 0x10000001}}; let s := s.setUnit 5 {step := false, sprev := some 900, lastUse := 5, off := 70, period := none}; let s : State := s; let k : Fin 16 := 3; let u : Fin 24 := 5; let rest : List (Option Nat × Nat) := [(some 7,7)]; let f : Nat := 490000; let x : Option Nat := some 1000; let v := s.unitAt u; let fresh := v.period ≠ some (s.now / max 1 (s.alignPeriod k)); (s.srcUnit k = u) ∧ (s.unitOffers u = (x, f) :: rest) ∧ (s.srcEn k = true) ∧ (s.srcMode k = 1) ∧ (fresh) ∧ ((1000 : Nat) ∈ x) ∧ (v.step = false) ∧ ((900 : Nat) ∈ v.sprev) ∧ (900 < 1000)) ∧
    (let s := gr [(srcKey 3 4, 1 + 0x50), (trigKey 0 0xC, 10000000), (trigKey 0 0x14, 489000)]; let s := s.setCsi 5 {offers := [(none, 490000), (some 7,7)], triple := {a := 496000, b := 500, k := 0x10000001}}; let s := s.setUnit 5 {step := false, sprev := none, lastUse := 5, off := 70, period := none}; let s : State := s; let k : Fin 16 := 3; let u : Fin 24 := 5; let rest : List (Option Nat × Nat) := [(some 7,7)]; let f : Nat := 490000; let x : Option Nat := none; (s.srcUnit k = u) ∧ (s.unitOffers u = (x, f) :: rest) ∧ (s.srcMode k = 1) ∧ (x = none)) ∧
    (let s := gr [(srcKey 3 4, 2 + 0x50), (trigKey 0 0xC, 10000000), (trigKey 0 0x14, 489000)]; let s := s.setCsi 5 {offers := [(none, 490000), (some 7,7)], triple := {a := 496000, b := 500, k := 0x10000001}}; let s := s.setUnit 5 {step := false, sprev := none, lastUse := 5, off := 70, period := none}; let s : State := s; let k : Fin 16 := 3; let u : Fin 24 := 5; let rest : List (Option Nat × Nat) := [(some 7,7)]; let f : Nat := 490000; let x : Option Nat := none; let v := s.unitAt u; let m := s.fld (srcKey k 4) 11 8; let fire := s.unitFire u m; let timely := fire ≤ f ∧ f < fire + s.trigPeriod m ∧ v.period ≠ some (s.lastFire m); (s.srcUnit k = u) ∧ (s.unitOffers u = (x, f) :: rest) ∧ (s.srcEn k = true) ∧ (s.srcMode k = 2) ∧ (timely) ∧ (x = none ∨ 16 ≤ u.val)) ∧
    (let s := gr [(srcKey 3 4, 1 + 0x50), (trigKey 0 0xC, 10000000), (trigKey 0 0x14, 489000)]; let s := s.setCsi 5 {offers := [(some 1000, 490000), (some 7,7)], triple := {a := 496000, b := 500, k := 0x10000001}}; let s := s.setUnit 5 {step := false, sprev := none, lastUse := 5, off := 70, period := none}; let s : State := s; let k : Fin 16 := 3; let u := s.srcUnit k; let v := s.unitAt u; (s.srcEn k = true ∧ s.srcMode k ≠ 0 ∧ v.aligned = true ∧ v.lastUse + 4 * s.alignPeriod k ≤ s.now)) ∧
    (let s := gr [(srcKey 3 4, 1 + 0x50), (trigKey 0 0xC, 10000000), (trigKey 0 0x14, 489000)]; let s := s.setCsi 5 {offers := [(some 1000, 490000), (some 7,7)], triple := {a := 496000, b := 500, k := 0x10000001}}; let s := s.setUnit 5 {step := false, sprev := none, lastUse := 499000, off := 70, period := none}; let s : State := s; let k : Fin 16 := 3; let u := s.srcUnit k; let v := s.unitAt u; ¬ (s.srcEn k = true ∧ s.srcMode k ≠ 0 ∧ v.aligned = true ∧ v.lastUse + 4 * s.alignPeriod k ≤ s.now)) := by refine ⟨?_, ?_, ?_, ?_, ?_, ?_, ?_, ?_⟩ <;> decide +kernel

end G8

namespace G9

def regsOf (s : State) (l : List (Nat × Nat)) : State := l.foldl (fun s e => s.wrN e.1 e.2) s
def up (s : State) : State := (s.setPort 0 { link := true, inReset := false }).setPort 1 { link := true, inReset := false }
def st (l : List (Nat × Nat)) : State := up (regsOf State.reset ([(rk pgStream 0x10, 2), (rk pgStream 0x108, 3),(rk pgStream 0x100, 0x1F)] ++ l))

def tr (l : List (Nat×Nat)) : State := {(st ([(rk pgTrk 0x10, 2)] ++ l)) with time := {tb0 := 100000, fus := 500000*2^40}}
def dl (k : Consumer) : Delivery := {addr := 0x5000, consumer := k, unchecked := true}
def tk (p : Word) (conf : Bool) (misses since hits : Nat) : Track := { gen := 7, cls := 3, model := 0, ext := false, conf := conf, x := [0,0,0,fone,0,0], cov := [], time := 44, p := p, hits := hits, misses := misses, since := since, unchk := false, heading := 5, birth := 4}
def tks : List Track := [tk 0x3F7F0000 false 0 1 1, tk 0x3F000000 true 0 1 1, tk 0x3CF00000 true 0 1 1, tk 0x3D800000 false 0 5 3, tk 0x3F800000 false 0 3 7, tk 0x3F800000 true 10 300 7]
def det (msk conf src : Nat) : Detection := { link := 0, cls := 3, mask := msk, conf := conf, src := src, pos := [fone, 0x40000000, 0], head := 0x40000001, ext := [1,2,3], var := [5,5,5], cxy := 4, vhead := 3, vext := 9, unchk := false, ref := 499000 }

/-- The hypotheses of Obligations.DetectionListIsQueued are met (its part ListIsQueuedAtTracker). -/
theorem witness_ListIsQueuedAtTracker :
    (let s := tr [(rk pgTrk 0x10, 1)]; let s : State := {s with tt := {deliver := [dl .trk, dl .trk]}, trk := {lists := List.replicate 0 {addr := 5, unchecked := false}}}; let d : Delivery := (dl .trk); let rest : List Delivery := [dl .trk]; (s.tt.deliver = d :: rest) ∧ (d.consumer = .trk) ∧ (s.running pgTrk = false)) ∧
    (let s := tr [(rk pgTrk 0x10, 2)]; let s : State := {s with tt := {deliver := [dl .trk, dl .trk]}, trk := {lists := List.replicate 0 {addr := 5, unchecked := false}}}; let d : Delivery := (dl .trk); let rest : List Delivery := [dl .trk]; (s.tt.deliver = d :: rest) ∧ (d.consumer = .trk) ∧ (s.running pgTrk = true) ∧ (s.trk.lists.length < 64)) ∧
    (let s := tr [(rk pgTrk 0x10, 2)]; let s : State := {s with tt := {deliver := [dl .trk, dl .trk]}, trk := {lists := List.replicate 64 {addr := 5, unchecked := false}}}; let d : Delivery := (dl .trk); let rest : List Delivery := [dl .trk]; (s.tt.deliver = d :: rest) ∧ (d.consumer = .trk) ∧ (s.running pgTrk = true) ∧ (64 ≤ s.trk.lists.length)) := by refine ⟨?_, ?_, ?_⟩ <;> decide +kernel

/-- The hypotheses of Obligations.TrackerCycleRuns are met. -/
theorem witness_TrackerCycleRuns :
    (let s := tr [(rk pgTrk 0xC, 0), (rk pgTrk 0x12C, 0), (rk pgTrk 0x13C, 5), (rk pgTrk 0x100, 9), (rk pgTrk 0x128, if 0 = 0 then 8 else 15)]; let s := s.setTrack 100 (some ((tks)[0]'(by decide))); let s : State := {s with trk := {s.trk with nextAt := 480000, gens := [(100,4)]}}; let bad : List (Fin 64) := []; let due := s.trk.nextAt ≤ s.now; (let tc := max 1 s.trkPeriod; (s.running pgTrk = true) ∧ (SMap.wf (fun _ => none) s.trk.tracks = true) ∧ (due) ∧ (s.halted pgTrk = false) ∧ (s.trk.command = none) ∧ (s.trk.lists = []) ∧ (s.trk.nextAt < s.now / tc * tc) ∧ (s.inTerm = false) ∧ (s.running pgStream = true) ∧ (bad = []) ∧ (s.bit (rk pgTrk 0x100) 2 = false))) ∧
    (let s := tr [(rk pgTrk 0xC, 0), (rk pgTrk 0x12C, 0), (rk pgTrk 0x13C, 5), (rk pgTrk 0x100, 9), (rk pgTrk 0x128, if 0 = 0 then 8 else 15)]; let s := s.setTrack 100 (some ((tks)[0]'(by decide))); let s : State := {s with trk := {s.trk with nextAt := 500001, gens := [(100,4)]}}; let due := s.trk.nextAt ≤ s.now; (s.running pgTrk = true) ∧ (SMap.wf (fun _ => none) s.trk.tracks = true) ∧ (¬ due)) ∧
    (let s := tr [(rk pgTrk 0xC, 2), (rk pgTrk 0x12C, 0), (rk pgTrk 0x13C, 5), (rk pgTrk 0x100, 9), (rk pgTrk 0x128, if 2 = 0 then 8 else 15)]; let s := s.setTrack 100 (some ((tks)[0]'(by decide))); let s : State := {s with trk := {s.trk with nextAt := 499200, gens := [(100,4)]}}; let due := s.trk.nextAt ≤ s.now; (s.running pgTrk = true) ∧ (SMap.wf (fun _ => none) s.trk.tracks = true) ∧ (due) ∧ (s.halted pgTrk = true)) ∧
    (let s := tr [(rk pgTrk 0xC, 0), (rk pgTrk 0x12C, 1), (rk pgTrk 0x13C, 5), (rk pgTrk 0x100, 9), (rk pgTrk 0x128, if 0 = 0 then 8 else 15)]; let s := s.setTrack 100 (some ((tks)[0]'(by decide))); let s : State := {s with trk := {s.trk with nextAt := 499200, gens := [(100,4)]}}; let due := s.trk.nextAt ≤ s.now; (s.running pgTrk = true) ∧ (SMap.wf (fun _ => none) s.trk.tracks = true) ∧ (due) ∧ (s.halted pgTrk = false) ∧ (s.trk.command = none) ∧ (s.trk.lists = []) ∧ (s.inTerm = true)) ∧
    (let s := tr [(rk pgTrk 0xC, 0), (rk pgTrk 0x12C, 0), (rk pgTrk 0x13C, 5), (rk pgTrk 0x100, 9), (rk pgTrk 0x128, if 0 = 0 then 8 else 15)]; let s := s.setTrack 100 (some ((tks)[0]'(by decide))); let s : State := {s with trk := {s.trk with nextAt := 499200, gens := [(100,4)], termNext := true}}; let due := s.trk.nextAt ≤ s.now; (s.running pgTrk = true) ∧ (SMap.wf (fun _ => none) s.trk.tracks = true) ∧ (due) ∧ (s.halted pgTrk = false) ∧ (s.trk.command = none) ∧ (s.trk.lists = []) ∧ (s.trk.termNext = true) ∧ (s.trkTerm.inTerm = true)) ∧
    (let s := tr [(rk pgTrk 0xC, 0), (rk pgTrk 0x12C, 1), (rk pgTrk 0x13C, 5), (rk pgTrk 0x100, 9), (rk pgTrk 0x128, if 0 = 0 then 8 else 15)]; let s := s.setTrack 100 (some ((tks)[0]'(by decide))); let s : State := {s with trk := {s.trk with nextAt := 499200, gens := [(100,4)]}, safe := {s.safe with out := [{page := pgTrk, func := false, port := none, step := none}]}}; let due := s.trk.nextAt ≤ s.now; (s.running pgTrk = true) ∧ (SMap.wf (fun _ => none) s.trk.tracks = true) ∧ (due) ∧ (s.halted pgTrk = false) ∧ (s.trk.command = none) ∧ (s.trk.lists = []) ∧ (s.safe.out.any (fun f => f.page == pgTrk && !f.func) = true)) := by refine ⟨?_, ?_, ?_, ?_, ?_, ?_⟩ <;> decide +kernel

/-- The hypotheses of Obligations.TrackerCycleRuns are met (its part BirthTakesTheFreeSlot). -/
theorem witness_BirthTakesTheFreeSlot :
    (let s := tr [(rk pgTrk 0x100, 0)]; let s := s.setLoop 3 {fresh := true}; let s : State := {s with trk := {freshFrom := 1, freed := [], gens := [(1,0)]}}; let d : Detection := (det 0 0 5); (s.birthCheck d = .no)) ∧
    (let s := tr [(rk pgTrk 0x100, 0)]; let s := s.setLoop 3 {fresh := true}; let s : State := {s with trk := {freshFrom := 1, freed := [], gens := [(1,0)]}}; let d : Detection := (det 0 200 5); let j : Nat := 1; let m : Bool := false; let head := if s.trk.freshFrom < 16384 then some s.trk.freshFrom else s.trk.freed.head?; (s.birthCheck d = .yes m) ∧ (head = some j)) ∧
    (let s := tr [(rk pgTrk 0x100, 0)]; let s := s.setLoop 3 {fresh := true}; let s : State := {s with trk := {freshFrom := 16384, freed := [], gens := [(1,0)]}}; let d : Detection := (det 0 200 5); let key : Nat := 0x168; (s.birthCheck d = .refused key)) := by refine ⟨?_, ?_, ?_⟩ <;> decide +kernel

/-- The hypotheses of Obligations.TrackerCycleRuns are met (its part AuctionIsAMatching). -/
theorem witness_AuctionIsAMatching :
    (True) := by decide +kernel

/-- The hypotheses of Obligations.GridAndTrackCommands are met (its part TrackCommands). -/
theorem witness_TrackCommands :
    (let s := tr [(rk pgTrk 0x10, 1), (rk pgSys 0x104, 0), (copyKey 0 pgTrk 0x30, (7*16384+100)), (copyKey 0 pgTrk 0x34, 3), (clsKey 4 0, 1), (rk pgTrk 0x12C, 1)]; let s := (s.setTrack 100 (some (tk 5 true 1 1 1))).setTrack 103 (some {(tk 5 true 1 1 1) with gen := 9}); let u := if (7*16384+100) % 16384 = 103 then {(tk 5 true 1 1 1) with gen := 9} else tk 5 true 1 1 1; let s : State := s; let h : Fin 2 := (Fin.ofNat 2 0); let j : Fin 16384 := (Fin.ofNat _ ((7*16384+100) % 16384)); let i : Fin 16384 := 103; let id := s.hostArg h pgTrk 0; (let cls := s.hostArg h pgTrk 1 % 16; (let live := s.trackAt j = some u ∧ u.gen = id / 16384; (s.issues h pgTrk = true) ∧ (SMap.wf (fun _ => none) s.trk.tracks = true) ∧ (id % 16384 = j) ∧ (s.running pgTrk = false) ∧ (i ≠ j) ∧ (live) ∧ (s.clsModel cls = u.model)))) ∧
    (let s := tr [(rk pgTrk 0x10, 1), (rk pgSys 0x104, 0), (copyKey 0 pgTrk 0x30, (7*16384+100)), (copyKey 0 pgTrk 0x34, 4), (clsKey 4 0, 1), (rk pgTrk 0x12C, 1)]; let s := (s.setTrack 100 (some (tk 5 true 1 1 1))).setTrack 103 (some {(tk 5 true 1 1 1) with gen := 9}); let u := if (7*16384+100) % 16384 = 103 then {(tk 5 true 1 1 1) with gen := 9} else tk 5 true 1 1 1; let s : State := s; let h : Fin 2 := (Fin.ofNat 2 0); let j : Fin 16384 := (Fin.ofNat _ ((7*16384+100) % 16384)); let id := s.hostArg h pgTrk 0; (let cls := s.hostArg h pgTrk 1 % 16; (let live := s.trackAt j = some u ∧ u.gen = id / 16384; (s.issues h pgTrk = true) ∧ (SMap.wf (fun _ => none) s.trk.tracks = true) ∧ (id % 16384 = j) ∧ (s.running pgTrk = false) ∧ (live) ∧ (s.clsModel cls ≠ u.model)))) ∧
    (let s := tr [(rk pgTrk 0x10, 1), (rk pgSys 0x104, 0), (copyKey 0 pgTrk 0x30, (8*16384+100)), (copyKey 0 pgTrk 0x34, 3), (clsKey 4 0, 1), (rk pgTrk 0x12C, 1)]; let s := (s.setTrack 100 (some (tk 5 true 1 1 1))).setTrack 103 (some {(tk 5 true 1 1 1) with gen := 9}); let u := if (8*16384+100) % 16384 = 103 then {(tk 5 true 1 1 1) with gen := 9} else tk 5 true 1 1 1; let s : State := s; let h : Fin 2 := (Fin.ofNat 2 0); let j : Fin 16384 := (Fin.ofNat _ ((8*16384+100) % 16384)); let id := s.hostArg h pgTrk 0; (s.issues h pgTrk = true) ∧ (SMap.wf (fun _ => none) s.trk.tracks = true) ∧ (id % 16384 = j) ∧ (s.running pgTrk = false) ∧ (s.trackAt j = some u) ∧ (u.gen ≠ id / 16384)) ∧
    (let s := tr [(rk pgTrk 0x10, 1), (rk pgSys 0x104, 0), (copyKey 0 pgTrk 0x30, 101), (copyKey 0 pgTrk 0x34, 3), (clsKey 4 0, 1), (rk pgTrk 0x12C, 1)]; let s := (s.setTrack 100 (some (tk 5 true 1 1 1))).setTrack 103 (some {(tk 5 true 1 1 1) with gen := 9}); let s : State := s; let h : Fin 2 := (Fin.ofNat 2 0); let j : Fin 16384 := (Fin.ofNat _ (101 % 16384)); let id := s.hostArg h pgTrk 0; (s.issues h pgTrk = true) ∧ (SMap.wf (fun _ => none) s.trk.tracks = true) ∧ (id % 16384 = j) ∧ (s.running pgTrk = false) ∧ (s.trackAt j = none)) ∧
    (let s := tr [(rk pgTrk 0x10, 2), (rk pgSys 0x104, 0), (copyKey 0 pgTrk 0x30, (7*16384+100)), (copyKey 0 pgTrk 0x34, 3), (clsKey 4 0, 1), (rk pgTrk 0x12C, 1)]; let s := (s.setTrack 100 (some (tk 5 true 1 1 1))).setTrack 103 (some {(tk 5 true 1 1 1) with gen := 9}); let s : State := s; let h : Fin 2 := (Fin.ofNat 2 0); let j : Fin 16384 := (Fin.ofNat _ ((7*16384+100) % 16384)); let id := s.hostArg h pgTrk 0; (s.issues h pgTrk = true) ∧ (SMap.wf (fun _ => none) s.trk.tracks = true) ∧ (id % 16384 = j) ∧ (s.running pgTrk = true)) := by refine ⟨?_, ?_, ?_, ?_, ?_⟩ <;> decide +kernel

end G9

namespace G10

def regsOf (s : State) (l : List (Nat × Nat)) : State := l.foldl (fun s e => s.wrN e.1 e.2) s
def up (s : State) : State := (s.setPort 0 { link := true, inReset := false }).setPort 1 { link := true, inReset := false }
def st (l : List (Nat × Nat)) : State := up (regsOf State.reset ([(rk pgStream 0x10, 2), (rk pgStream 0x108, 3),(rk pgStream 0x100, 0x1F)] ++ l))

def ch (l : List (Nat×Nat)) : State := {(st ([(rk pgChain 0x10, 2), (chanKey 5 0, 0x8011)] ++ l)) with time := {tb0 := 100000, fus := 500000*2^40}}
def inS (r : Option Int) (t : Nat) : ChainIn := { chan := 5, stamp := t, raw := r, value := 0x40400000, still := true, stale := false }
def sm (t : Nat) : Samp := { stamp := t, value := 0x40000000, filled := false, still := false, stale := false }
def jb (left : Nat) (tk : List Samp) : FirJob := { tau := 480000, start := 3, left := left, taken := tk, stale := false, settling := true }
def img (n dec : Nat) (delay : Word) (cs : List Word) (bad : Nat) : List Byte := leBytes 2 n ++ leBytes 1 dec ++ zeros 1 ++ leBytes 4 delay.toNat ++ leBytes 4 (crc32c (ofWords cs) + bad) ++ zeros 4 ++ ofWords cs
def outp (tau : Nat) (st : Bool) : ChainOut := { value := fone, stamp := 5, tau := tau, dtime := tau - 500, stale := st, settling := false, filled := false, srcStill := false, srcStale := false }
def eg (l : List (Nat×Nat)) (st : Bool) : State := let s := ch ([(rk pgEgo 0x10, 2), (rk pgEgo 0x100, 0x101), (rk pgEgo 0x104, 0x543210), (rk pgEgo 0x2C, 1)] ++ ((List.range 6).map fun i => (chanKey i 0, 0x8011)) ++ l); (List.range 6).foldl (fun s c => s.setChan c {out := [outp 488000 (st && c == 3)]}) s
def pz : Pose := { dtime := 480000, pos := [0x3FF0000000000000,0,0], vel := [fone,0,0], quat := [fone,0,0,0], omega := [0,0,0x3DCCCCCD], flags := 1, seq := 4 }

/-- The hypotheses of Obligations.ChainFiltersItsSamples are met (its part SampleEntersItsHistory). -/
theorem witness_SampleEntersItsHistory :
    (let s := ch [(rk pgChain 0x10, 2), (chanKey 5 0, 0x8000+0x10+1), (chanKey 5 0xC, 0x3F800000), (rk pgChain 0x110, 0)]; let s := s.setChan 5 {hist := [sm 480000, sm 470000], lastReal := some 480000, lastValue := 0x41000000}; let s : State := {s with chain := {s.chain with inq := [inS none 482000, inS none 9]}}; let i : ChainIn := (inS none 482000); let rest : List ChainIn := [inS none 9]; let c := i.chan; (let q := s.chanAt c; (let live := s.running pgChain = true ∧ s.chanEn c = true; (let fresh := s.chanStale c = true ∨ q.hist = []; (let dc := s.bit (chanKey c 0) 8; (let fills := (q.lastReal.map (fun r => fillCount (i.stamp - r) (s.chanTin c))).getD 0; (s.chain.inq = i :: rest) ∧ (c < 64) ∧ (live) ∧ (fresh ∨ fills = 0) ∧ (¬ fresh) ∧ (fills = 0) ∧ (dc = false))))))) ∧
    (let s := ch [(rk pgChain 0x10, 1), (chanKey 5 0, 0x8000+0x10+0), (chanKey 5 0xC, 0x3F800000), (rk pgChain 0x110, 0)]; let s := s.setChan 5 {hist := [], lastReal := some 480000, lastValue := 0x41000000}; let s : State := {s with chain := {s.chain with inq := [inS none 482000, inS none 9]}}; let i : ChainIn := (inS none 482000); let rest : List ChainIn := [inS none 9]; let c := i.chan; (let live := s.running pgChain = true ∧ s.chanEn c = true; (s.chain.inq = i :: rest) ∧ (c < 64) ∧ (¬ live))) ∧
    (let s := ch [(rk pgChain 0x10, 2), (chanKey 5 0, 0x8000+0x10+1), (chanKey 5 0xC, 0x3F800000), (rk pgChain 0x110, 0)]; let s := s.setChan 5 {hist := [], lastReal := some 480000, lastValue := 0x41000000}; let s : State := {s with chain := {s.chain with inq := [inS none 482000, inS none 9]}}; let i : ChainIn := (inS none 482000); let rest : List ChainIn := [inS none 9]; let c := i.chan; (let q := s.chanAt c; (let live := s.running pgChain = true ∧ s.chanEn c = true; (let fresh := s.chanStale c = true ∨ q.hist = []; (s.chain.inq = i :: rest) ∧ (c < 64) ∧ (live) ∧ (fresh))))) := by refine ⟨?_, ?_, ?_⟩ <;> decide +kernel

/-- The hypotheses of Obligations.ChainFiltersItsSamples are met (its part FirRoundRuns). -/
theorem witness_FirRoundRuns :
    (let s := ch [(rk pgChain 0xC, 0)]; let s := s.setChan 5 {hist := [sm 490000, sm 480000, sm 470000], lastReal := some 480000, job := none, nextTau := 480000}; let s : State := {s with chain := {s.chain with round := 39062}}; let c : Fin 64 := 5; let r := s.chain.round; (let q := s.chanAt c; (let tau := q.nextTau; (let ready := 64 * r ≥ 5 * (tau + 16 * s.fld (rk pgChain 0x100) 6 0); (let late := (q.lastReal.map (fun x => decide (x + 4 * s.chanTin c < s.now / max 1 (s.chanTout c) * max 1 (s.chanTout c)))).getD true = true; (s.running pgChain = true) ∧ ((∀ k ∈ List.range 64, s.chanEn k = decide (k = c.val))) ∧ (64 * r ≤ 5 * s.now) ∧ (s.halted pgChain = false) ∧ (q.job = none) ∧ (ready) ∧ (late) ∧ (s.chanStale c = false)))))) ∧
    (let s := ch [(rk pgChain 0xC, 0)]; let s := s.setChan 5 {hist := [sm 490000, sm 480000, sm 470000], lastReal := some 499999, job := none, nextTau := 499900}; let s : State := {s with chain := {s.chain with round := 39062}}; let c : Fin 64 := 5; let r := s.chain.round; (let q := s.chanAt c; (let tau := q.nextTau; (let ready := 64 * r ≥ 5 * (tau + 16 * s.fld (rk pgChain 0x100) 6 0); (let late := (q.lastReal.map (fun x => decide (x + 4 * s.chanTin c < s.now / max 1 (s.chanTout c) * max 1 (s.chanTout c)))).getD true = true; (s.running pgChain = true) ∧ ((∀ k ∈ List.range 64, s.chanEn k = decide (k = c.val))) ∧ (64 * r ≤ 5 * s.now) ∧ (s.halted pgChain = false) ∧ (q.job = none) ∧ (¬ ready) ∧ (¬ late)))))) ∧
    (let s := ch [(rk pgChain 0xC, 0)]; let s := s.setChan 5 {hist := [sm 490000, sm 480000, sm 470000], lastReal := some 480000, job := (some (jb 3 [])), nextTau := 480000}; let s : State := {s with chain := {s.chain with round := 39062}}; let c : Fin 64 := 5; let j : FirJob := ((some (jb 3 [])).getD (jb 1 [])); let r := s.chain.round; (let q := s.chanAt c; (s.running pgChain = true) ∧ ((∀ k ∈ List.range 64, s.chanEn k = decide (k = c.val))) ∧ (64 * r ≤ 5 * s.now) ∧ (s.halted pgChain = false) ∧ (q.job = some j) ∧ (j.left ≠ 0))) ∧
    (let s := ch [(rk pgChain 0xC, 0)]; let s := s.setChan 5 {hist := [sm 490000, sm 480000, sm 470000], lastReal := some 480000, job := (some (jb 0 [sm 480000])), nextTau := 480000}; let s : State := {s with chain := {s.chain with round := 39062}}; let c : Fin 64 := 5; let j : FirJob := ((some (jb 0 [sm 480000])).getD (jb 1 [])); let e : Samp := (sm 480000); let more : List Samp := (if ((some (jb 0 [sm 480000])).map (·.taken.length)).getD 0 = 2 then [sm 470000] else []); let r := s.chain.round; (let q := s.chanAt c; (s.running pgChain = true) ∧ ((∀ k ∈ List.range 64, s.chanEn k = decide (k = c.val))) ∧ (64 * r ≤ 5 * s.now) ∧ (s.halted pgChain = false) ∧ (q.job = some j) ∧ (j.left = 0) ∧ (j.taken = e :: more))) ∧
    (let s := ch [(rk pgChain 0xC, 0)]; let s := s.setChan 5 {hist := [sm 490000, sm 480000, sm 470000], lastReal := some 480000, job := none, nextTau := 480000}; let s : State := {s with chain := {s.chain with round := 39063}}; let c : Fin 64 := 5; let r := s.chain.round; (s.running pgChain = true) ∧ ((∀ k ∈ List.range 64, s.chanEn k = decide (k = c.val))) ∧ (5 * s.now < 64 * r)) := by refine ⟨?_, ?_, ?_, ?_, ?_⟩ <;> decide +kernel

/-- The hypotheses of Obligations.ChainFiltersItsSamples are met (its part CoefficientSetIsLoaded). -/
theorem witness_CoefficientSetIsLoaded :
    (let s : State := ((ch [(rk pgChain 0x10, 1), (rk pgMem 0x10, 2), (copyKey 0 pgChain 0x30, 0), (copyKey 0 pgChain 0x34, (0x5000))]).setBytes (0x5000) (img 2 4 fone [fone, 0x40000000] 0)); let h : Fin 2 := 0; let slot := s.hostArg h pgChain 0; (let a := (s.hostArg h pgChain 1 + s.hostArg h pgChain 2 * 2 ^ 32) % 2 ^ 48; (let hdr := s.bytes a 16; (let n := fieldLE hdr 0 2; (let body := s.bytes (a + 16) (4 * n); (let dec := fieldLE hdr 2 1; (let delay : Word := BitVec.ofNat 32 (fieldLE hdr 4 4); (let bad := if n = 0 ∨ 512 < n then 2 else if dec ∉ [1, 2, 4, 8, 16] then 3 else if ¬ (ffinite delay = true ∧ fle 0 delay = true ∧ fle delay (fofInt (n - 1)) = true) then 4 else if (toWords n body).all ffinite = false then 5 else if crc32c body ≠ fieldLE hdr 8 4 then 6 else if 3 < slot then 8 else 0; (s.issues h pgChain = true) ∧ (s.blk pgChain = stIdle) ∧ (a + 2064 ≤ lpddrEnd) ∧ (s.running pgMem = true) ∧ (s.memClean = true) ∧ (bad = 0))))))))) ∧
    (let s : State := ((ch [(rk pgChain 0x10, 1), (rk pgMem 0x10, 2), (copyKey 0 pgChain 0x30, 0), (copyKey 0 pgChain 0x34, (0x5000))]).setBytes (0x5000) (img 2 4 fone [fone, 0x40000000] 1)); let h : Fin 2 := 0; let slot := s.hostArg h pgChain 0; (let a := (s.hostArg h pgChain 1 + s.hostArg h pgChain 2 * 2 ^ 32) % 2 ^ 48; (let hdr := s.bytes a 16; (let n := fieldLE hdr 0 2; (let body := s.bytes (a + 16) (4 * n); (let dec := fieldLE hdr 2 1; (let delay : Word := BitVec.ofNat 32 (fieldLE hdr 4 4); (let bad := if n = 0 ∨ 512 < n then 2 else if dec ∉ [1, 2, 4, 8, 16] then 3 else if ¬ (ffinite delay = true ∧ fle 0 delay = true ∧ fle delay (fofInt (n - 1)) = true) then 4 else if (toWords n body).all ffinite = false then 5 else if crc32c body ≠ fieldLE hdr 8 4 then 6 else if 3 < slot then 8 else 0; (s.issues h pgChain = true) ∧ (s.blk pgChain = stIdle) ∧ (a + 2064 ≤ lpddrEnd) ∧ (s.running pgMem = true) ∧ (s.memClean = true) ∧ (bad ≠ 0))))))))) ∧
    (let s : State := ((ch [(rk pgChain 0x10, 2), (copyKey 0 pgChain 0x30, 0), (copyKey 0 pgChain 0x34, (0x5000))]).setBytes (0x5000) (img 2 4 fone [fone, 0x40000000] 0)); let h : Fin 2 := 0; (s.issues h pgChain = true) ∧ (s.blk pgChain ≠ stIdle)) ∧
    (let s : State := ((ch [(rk pgChain 0x10, 1), (rk pgMem 0x10, 1), (copyKey 0 pgChain 0x30, 0), (copyKey 0 pgChain 0x34, (0x5000))]).setBytes (0x5000) (img 2 4 fone [fone, 0x40000000] 0)); let h : Fin 2 := 0; (s.issues h pgChain = true) ∧ (s.blk pgChain = stIdle) ∧ ((s.hostArg h pgChain 1 + s.hostArg h pgChain 2 * 2 ^ 32) % 2 ^ 48 + 2064 ≤ lpddrEnd) ∧ (s.running pgMem = false)) := by refine ⟨?_, ?_, ?_, ?_⟩ <;> decide +kernel

/-- The hypotheses of Obligations.PoseIsPublished are met (its part EgoPublishesOrRestarts). -/
theorem witness_EgoPublishesOrRestarts :
    (let s := eg [(rk pgEgo 0xC, 0), (rk pgEgo 0x158, if 499999 = 0 then 1 else 100), (rk pgEgo 0x2C, 0), (rk pgEgo 0x15C, 1)] true; let s := {s with ego := {s.ego with nextTau := 488000, lastUpdate := 499999, first := true}}; let s : State := s; let h : Fin 2 := 0; let tau := s.ego.nextTau; (let due := s.egoNext tau ≤ s.now; (let gap := s.ego.lastUpdate + 16000 * s.fld (rk pgEgo 0x158) 9 0 ≤ s.now; (s.running pgEgo = true) ∧ (due) ∧ (s.halted pgEgo = false) ∧ (s.egoInputs tau = none) ∧ (¬ gap) ∧ (s.issues h pgEgo = true)))) ∧
    (let s := eg [(rk pgEgo 0xC, 0), (rk pgEgo 0x158, if (500000 - 1600000) = 0 then 1 else 100), (rk pgEgo 0x2C, 0), (rk pgEgo 0x15C, 1)] false; let s := {s with ego := {s.ego with nextTau := 488000, lastUpdate := (500000 - 1600000), first := true}}; let uu := (s.egoInputs 488000).getD ([], 0); let s : State := s; let u : List Word := uu.1; let d : Nat := uu.2; let tau := s.ego.nextTau; (let due := s.egoNext tau ≤ s.now; (let gap := s.ego.lastUpdate + 16000 * s.fld (rk pgEgo 0x158) 9 0 ≤ s.now; (s.running pgEgo = true) ∧ (due) ∧ (s.halted pgEgo = false) ∧ (s.egoInputs tau = some (u, d)) ∧ (gap)))) ∧
    (let s := eg [(rk pgEgo 0xC, 0), (rk pgEgo 0x158, if 499999 = 0 then 1 else 100), (rk pgEgo 0x2C, 0), (rk pgEgo 0x15C, 1)] true; let s := {s with ego := {s.ego with nextTau := 496000, lastUpdate := 499999, first := true}}; let s : State := s; let tau := s.ego.nextTau; (let due := s.egoNext tau ≤ s.now; (s.running pgEgo = true) ∧ (¬ due))) ∧
    (let s := eg [(rk pgEgo 0xC, 2), (rk pgEgo 0x158, if 499999 = 0 then 1 else 100), (rk pgEgo 0x2C, 0), (rk pgEgo 0x15C, 1)] true; let s := {s with ego := {s.ego with nextTau := 488000, lastUpdate := 499999, first := true}}; let s : State := s; let tau := s.ego.nextTau; (let due := s.egoNext tau ≤ s.now; (s.running pgEgo = true) ∧ (due) ∧ (s.halted pgEgo = true))) := by refine ⟨?_, ?_, ?_, ?_⟩ <;> decide +kernel

/-- The hypotheses of Obligations.PoseIsPublished are met (its part StepPoseIsFormed). -/
theorem witness_StepPoseIsFormed :
    (let s := eg [] false; let s : State := {s with ego := {s.ego with last := some pz, published := true, lastUpdate := 499999, nextStep := 3}, bell := {started := true, step := 7, nextStep := 8, endFus := 500001, nextEnd := 500001+160}}; let p : Pose := pz; let n := max s.ego.nextStep s.bell.step; (let stop := s.stepEnd n; (s.bell.started = true) ∧ (s.running pgEgo = true) ∧ (s.ego.last = some p) ∧ (s.now < stop))) ∧
    (let s := eg [] false; let s : State := {s with ego := {s.ego with last := some pz, published := true, lastUpdate := 400000, nextStep := 3}, bell := {started := true, step := 7, nextStep := 8, endFus := 499999, nextEnd := 499999+160}}; let p : Pose := pz; let n := max s.ego.nextStep s.bell.step; (let stop := s.stepEnd n; (let stale := s.ego.lastRec + 4 * s.egoPeriod ≤ stop; (s.bell.started = true) ∧ (s.running pgEgo = true) ∧ (s.ego.last = some p) ∧ (stop ≤ s.now) ∧ (s.ego.published = true) ∧ (stale)))) ∧
    (let s := eg [] false; let s : State := {s with ego := {s.ego with last := some pz, published := false, lastUpdate := 400000, nextStep := 3}, bell := {started := true, step := 7, nextStep := 8, endFus := 499999, nextEnd := 499999+160}}; let p : Pose := pz; let n := max s.ego.nextStep s.bell.step; (let stop := s.stepEnd n; ((s.bell.started = true) ∧ (s.running pgEgo = true) ∧ (s.ego.last = some p) ∧ (stop ≤ s.now) ∧ (s.ego.published = false) ∧ (s.stepPoseOf n = none)))) := by refine ⟨?_, ?_, ?_⟩ <;> decide +kernel

end G10

namespace G11

def regsOf (s : State) (l : List (Nat × Nat)) : State := l.foldl (fun s e => s.wrN e.1 e.2) s
def up (s : State) : State := (s.setPort 0 { link := true, inReset := false }).setPort 1 { link := true, inReset := false }
def st (l : List (Nat × Nat)) : State := up (regsOf State.reset ([(rk pgStream 0x10, 2), (rk pgStream 0x108, 3),(rk pgStream 0x100, 0x1F)] ++ l))
def tm (l : List (Nat×Nat)) (n : NetBase) : State := ({(st ([(rk pgTime 0x10, 2), (netKey 0 0, 0x0501), (netKey 1 0, 0x0603)] ++ l)) with time := {tb0 := 1000000, fus := 16000*2^40, source := 1}} : State).setNet 0 n
def nb : NetBase := { value := 2000000*2^40, y := 5, yi := 7, yHold := 3, lastApplied := 5, lastRecv := 6 }
def fr (i base : Nat) (tm : Nat) (rdy : Bool) : TxFrame := {desc := 0x5000+64*i, addr := 0x6000, len := 61, base := base, time := tm, ready := rdy}
def et (l : List (Nat×Nat)) (q : EthPort) (d : List Byte) : State := (tm ([(rk (pgEth 3) 0x10, 2), (rk (pgEth 3) 0x114, 30), (copyKey 0 (pgEth 3) 0x30, 0x5000), (rk (pgEth 3) 0x11C, 3)]++l) nb).setEth 3 q |>.setBytes 0x6000 (leBytes 61 0x1234567) |>.setBytes 0x5000 d
def dsc (fa len base tm : Nat) : List Byte := leBytes 8 fa ++ leBytes 2 len ++ leBytes 1 base ++ [9] ++ leBytes 4 0 ++ leBytes 8 tm ++ leBytes 8 0x777

/-- The hypotheses of Obligations.BaseIsDisciplined are met (its part SyncIsMeasuredAndApplied). -/
theorem witness_SyncIsMeasuredAndApplied :
    (let s : State := (tm [(rk pgTime 0x10, 1), (rk pgTime 0xC, 0), (rk pgTime 0x2C, if true then 0x101 else 0),(netKey 0 8, 0x203E8)] {nb with state := BaseState.free, accept := true, judge := false, outliers := 0, inLimit := 0, slewing := true, lockRun := 0/2}); let b : Fin 2 := 0; let m : SyncMsg := {domain := 5, originNs := 2000000, correction := 0x8000, logInterval := -3}; let serves := s.netEnabled b = true ∧ m.domain = s.fld (netKey b 0) 15 8; (¬ serves)) ∧
    (let s : State := (tm [(rk pgTime 0x10, 2), (rk pgTime 0xC, 0), (rk pgTime 0x2C, if true then 0x101 else 0),(netKey 0 8, 0x203E8)] {nb with state := BaseState.free, accept := true, judge := false, outliers := 0, inLimit := 0, slewing := true, lockRun := 0/2}); let b : Fin 2 := 0; let m : SyncMsg := {domain := 5, originNs := 2000000, correction := 0x8000, logInterval := -3}; let n := s.netAt b; (let serves := s.netEnabled b = true ∧ m.domain = s.fld (netKey b 0) 15 8; (serves) ∧ (s.halted pgTime = false) ∧ (n.accept = true ∨ n.state = .free))) ∧
    (let s : State := (tm [(rk pgTime 0x10, 2), (rk pgTime 0xC, 0), (rk pgTime 0x2C, if false then 0x101 else 0),(netKey 0 8, 0x203E8)] {nb with state := .acquiring, accept := false, judge := false, outliers := 0, inLimit := 0, slewing := true, lockRun := 0/2}); let b : Fin 2 := 0; let m : SyncMsg := {domain := 5, originNs := 2000000, correction := 0x8000, logInterval := -3}; let n := s.netAt b; (let serves := s.netEnabled b = true ∧ m.domain = s.fld (netKey b 0) 15 8; (let theta := s.syncTheta b m; (let near := theta.natAbs ≤ s.fld (rk pgTime 0x100) 23 0 * 65536; (serves) ∧ (s.halted pgTime = false) ∧ (n.accept = false) ∧ (n.state = .acquiring ∨ n.state = .locked) ∧ (n.judge = false) ∧ (near) ∧ (n.slewing = true))))) ∧
    (let s : State := (tm [(rk pgTime 0x10, 2), (rk pgTime 0xC, 0), (rk pgTime 0x2C, if false then 0x101 else 0),(netKey 0 8, 0x203E8)] {nb with state := .acquiring, accept := false, judge := false, outliers := 0, inLimit := 0, slewing := true, lockRun := 0/2}); let b : Fin 2 := 0; let m : SyncMsg := {domain := 5, originNs := 2010001, correction := 0x8000, logInterval := -3}; let n := s.netAt b; (let serves := s.netEnabled b = true ∧ m.domain = s.fld (netKey b 0) 15 8; (let theta := s.syncTheta b m; (let near := theta.natAbs ≤ s.fld (rk pgTime 0x100) 23 0 * 65536; (serves) ∧ (s.halted pgTime = false) ∧ (n.accept = false) ∧ (n.state = .acquiring ∨ n.state = .locked) ∧ (n.judge = false) ∧ (¬ near) ∧ (n.outliers < 2))))) ∧
    (let s : State := (tm [(rk pgTime 0x10, 2), (rk pgTime 0xC, 0), (rk pgTime 0x2C, if false then 0x101 else 0),(netKey 0 8, 0x203E8)] {nb with state := .acquiring, accept := false, judge := false, outliers := 0, inLimit := 0, slewing := false, lockRun := 0/2}); let b : Fin 2 := 0; let m : SyncMsg := {domain := 5, originNs := 2000000, correction := 0x8000, logInterval := -3}; let n := s.netAt b; (let serves := s.netEnabled b = true ∧ m.domain = s.fld (netKey b 0) 15 8; (let theta := s.syncTheta b m; (let near := theta.natAbs ≤ s.fld (rk pgTime 0x100) 23 0 * 65536; (serves) ∧ (s.halted pgTime = false) ∧ (n.accept = false) ∧ (n.state = .acquiring ∨ n.state = .locked) ∧ (n.judge = false) ∧ (near) ∧ (n.slewing = false))))) ∧
    (let s : State := (tm [(rk pgTime 0x10, 2), (rk pgTime 0xC, 0), (rk pgTime 0x2C, if false then 0x101 else 0),(netKey 0 8, 0x203E8)] {nb with state := .acquiring, accept := false, judge := false, outliers := 2, inLimit := 2, slewing := true, lockRun := 2/2}); let b : Fin 2 := 0; let m : SyncMsg := {domain := 5, originNs := 2010001, correction := 0x8000, logInterval := -3}; let n := s.netAt b; (let serves := s.netEnabled b = true ∧ m.domain = s.fld (netKey b 0) 15 8; (let theta := s.syncTheta b m; (let near := theta.natAbs ≤ s.fld (rk pgTime 0x100) 23 0 * 65536; (serves) ∧ (s.halted pgTime = false) ∧ (n.accept = false) ∧ (n.state = .acquiring ∨ n.state = .locked) ∧ (n.judge = false) ∧ (¬ near) ∧ (2 ≤ n.outliers))))) ∧
    (let s : State := (tm [(rk pgTime 0x10, 2), (rk pgTime 0xC, 0), (rk pgTime 0x2C, if false then 0x101 else 0),(netKey 0 8, 0x203E8)] {nb with state := .holdover, accept := false, judge := false, outliers := 0, inLimit := 0, slewing := true, lockRun := 0/2}); let b : Fin 2 := 0; let m : SyncMsg := {domain := 5, originNs := 2000000, correction := 0x8000, logInterval := -3}; let n := s.netAt b; (let serves := s.netEnabled b = true ∧ m.domain = s.fld (netKey b 0) 15 8; (let theta := s.syncTheta b m; (let near := theta.natAbs ≤ s.fld (rk pgTime 0x100) 23 0 * 65536; (serves) ∧ (s.halted pgTime = false) ∧ (n.accept = false) ∧ (n.state = .holdover) ∧ (near))))) ∧
    (let s : State := (tm [(rk pgTime 0x10, 2), (rk pgTime 0xC, 0), (rk pgTime 0x2C, if false then 0x101 else 0),(netKey 0 8, 0x203E8)] {nb with state := .holdover, accept := false, judge := false, outliers := 0, inLimit := 0, slewing := true, lockRun := 0/2}); let b : Fin 2 := 0; let m : SyncMsg := {domain := 5, originNs := 2010001, correction := 0x8000, logInterval := -3}; let n := s.netAt b; (let serves := s.netEnabled b = true ∧ m.domain = s.fld (netKey b 0) 15 8; (let theta := s.syncTheta b m; (let near := theta.natAbs ≤ s.fld (rk pgTime 0x100) 23 0 * 65536; (serves) ∧ (s.halted pgTime = false) ∧ (n.accept = false) ∧ (n.state = .holdover) ∧ (¬ near))))) ∧
    (let s : State := (tm [(rk pgTime 0x10, 2), (rk pgTime 0xC, 0), (rk pgTime 0x2C, if false then 0x101 else 0),(netKey 0 8, 0x203E8)] {nb with state := .jumpRefused, accept := false, judge := false, outliers := 0, inLimit := 0, slewing := true, lockRun := 0/2}); let b : Fin 2 := 0; let m : SyncMsg := {domain := 5, originNs := 2000000, correction := 0x8000, logInterval := -3}; let n := s.netAt b; (let serves := s.netEnabled b = true ∧ m.domain = s.fld (netKey b 0) 15 8; (let theta := s.syncTheta b m; (let near := theta.natAbs ≤ s.fld (rk pgTime 0x100) 23 0 * 65536; (serves) ∧ (s.halted pgTime = false) ∧ (n.accept = false) ∧ (n.state = .jumpRefused) ∧ (n.judge = false) ∧ (¬ (near ∧ 2 ≤ n.inLimit)))))) ∧
    (let s : State := (tm [(rk pgTime 0x10, 2), (rk pgTime 0xC, 0), (rk pgTime 0x2C, if false then 0x101 else 0),(netKey 0 8, 0x203E8)] {nb with state := .jumpRefused, accept := false, judge := false, outliers := 2, inLimit := 2, slewing := true, lockRun := 2/2}); let b : Fin 2 := 0; let m : SyncMsg := {domain := 5, originNs := 2000000, correction := 0x8000, logInterval := -3}; let n := s.netAt b; (let serves := s.netEnabled b = true ∧ m.domain = s.fld (netKey b 0) 15 8; (let theta := s.syncTheta b m; (let near := theta.natAbs ≤ s.fld (rk pgTime 0x100) 23 0 * 65536; (serves) ∧ (s.halted pgTime = false) ∧ (n.accept = false) ∧ (n.state = .jumpRefused) ∧ (n.judge = false) ∧ (near) ∧ (2 ≤ n.inLimit))))) ∧
    (let s : State := (tm [(rk pgTime 0x10, 2), (rk pgTime 0xC, 2), (rk pgTime 0x2C, if true then 0x101 else 0),(netKey 0 8, 0x203E8)] {nb with state := BaseState.free, accept := true, judge := false, outliers := 0, inLimit := 0, slewing := true, lockRun := 0/2}); let b : Fin 2 := 0; let m : SyncMsg := {domain := 5, originNs := 2000000, correction := 0x8000, logInterval := -3}; let serves := s.netEnabled b = true ∧ m.domain = s.fld (netKey b 0) 15 8; (serves) ∧ (s.halted pgTime = true)) := by refine ⟨?_, ?_, ?_, ?_, ?_, ?_, ?_, ?_, ?_, ?_, ?_⟩ <;> decide +kernel

/-- The hypotheses of Obligations.BaseIsDisciplined are met (its part BaseLearnsAndHoldsOver). -/
theorem witness_BaseLearnsAndHoldsOver :
    (let s : State := (tm [(rk pgTime 0x10, 1)] {nb with state := BaseState.free, gm := none, lastPd := none, lastApplied := 5, lastRecv := 5, interval := -13}); let b : Fin 2 := 0; let d : Nat := 5; let n := s.netAt b; (let serves := s.netEnabled b = true ∧ d = s.fld (netKey b 0) 15 8; (let since := if n.state = .jumpRefused then n.lastRecv else n.lastApplied; (let out := n.state ∈ [.acquiring, .locked, .jumpRefused] ∧ s.time.off = false ∧ since + threeSyncs n.interval ≤ s.time.tb0; (¬ serves) ∧ (¬ out))))) ∧
    (let s : State := (tm [(rk pgTime 0x10, 2)] {nb with state := .acquiring, gm := none, lastPd := (some (50,60)), pdReq := some 7, lastApplied := 5, lastRecv := 5, interval := -13}); let b : Fin 2 := 0; let d : Nat := 5; let t1 : Nat := 7; let t4 : Nat := 230; let p3 : Nat := 50; let p4 : Nat := 60; let n := s.netAt b; (let serves := s.netEnabled b = true ∧ d = s.fld (netKey b 0) 15 8; (let since := if n.state = .jumpRefused then n.lastRecv else n.lastApplied; (let out := n.state ∈ [.acquiring, .locked, .jumpRefused] ∧ s.time.off = false ∧ since + threeSyncs n.interval ≤ s.time.tb0; (serves) ∧ (n.pdReq = some t1) ∧ (n.lastPd = some (p3, p4)) ∧ (p4 < t4) ∧ (out))))) ∧
    (let s : State := (tm [(netKey 0 0, 0x30501)] {nb with state := .acquiring, gm := some 3}); let b : Fin 2 := 0; let d := 5; let m : AnnMsg := {rank := [200, 6, 33, 100, 128], gm := 77, steps := 1, source := 9, logInterval := 0}; (s.netEnabled b = true) ∧ (d = s.fld (netKey b 0) 15 8) ∧ (s.annTaken b m = true)) ∧
    (let s : State := (tm [(netKey 0 0, 0x30501)] {nb with state := .acquiring, best := some ({rank := [100, 6, 33, 100, 128], gm := 77, steps := 1, source := 8, logInterval := 0}, 999999)}); let b : Fin 2 := 0; let d := 5; let m : AnnMsg := {rank := [200, 6, 33, 100, 128], gm := 77, steps := 1, source := 9, logInterval := 0}; (s.netEnabled b = true) ∧ (d = s.fld (netKey b 0) 15 8) ∧ (s.annTaken b m = false)) ∧
    (let s : State := (tm [(netKey 0 0, 0x30501)] {nb with state := .acquiring, reqAt := 1000000}); let b : Fin 2 := 0; let d : Nat := 5; let n := s.netAt b; (s.netEnabled b = true ∧ d = s.fld (netKey b 0) 15 8) ∧ (s.netEnabled b = true) ∧ (n.reqAt ≤ s.time.tb0) ∧ (s.fld (netKey b 0) 19 16 = 3) ∧ (n.pdReq = none)) ∧
    (let s : State := (tm [(netKey 0 0, 0x30501), (rk (pgEth 0) 0x10, 2)] {nb with state := .acquiring, reqAt := 1000001}); let b : Fin 2 := 0; let d : Nat := 5; let n := s.netAt b; let port := s.fld (netKey b 0) 3 1; let q := s.ethAt port; (s.netEnabled b = true ∧ d = s.fld (netKey b 0) 15 8) ∧ (q.own = []) ∧ (s.running (pgEth port) = true) ∧ (q.macFree ≤ s.time.tb0) ∧ (q.txQueue = []) ∧ (s.time.tb0 < n.reqAt)) ∧
    (let s : State := (tm [(netKey 0 0, 0x30501)] {nb with state := .acquiring, reqAt := 5}); let s := s.setEth 0 {own := [{kind := 3, base := 0, seq := 4}]}; let b : Fin 2 := 0; let d : Nat := 5; let port := s.fld (netKey b 0) 3 1; let q := s.ethAt port; (s.netEnabled b = true ∧ d = s.fld (netKey b 0) 15 8) ∧ (s.ptpReady port = false) ∧ (q.own ≠ [])) := by refine ⟨?_, ?_, ?_, ?_, ?_, ?_, ?_⟩ <;> decide +kernel

/-- The hypotheses of Obligations.FusionIsSteered are met (its part FusionTakesItsCommands). -/
theorem witness_FusionTakesItsCommands :
    (let s := tm [(rk pgTime 0x10, 1), (copyKey 0 pgTime 0x30, 0), (rk pgTime 0x130, 7)] {nb with state := BaseState.locked}; let s : State := {s with time := {s.time with pending := true, source := 0}}; let h : Fin 2 := 0; let b := s.hostArg h pgTime 0 % 2; (let v := s.hostArg h pgTime 0 % 4; (s.issues h pgTime = true) ∧ (s.time.pending = true) ∧ (v = s.time.source) ∧ ((s.netAt b).state ≠ .jumpRefused))) ∧
    (let s := tm [(rk pgTime 0x10, 1), (copyKey 0 pgTime 0x30, 0), (rk pgTime 0x130, 7)] {nb with state := .jumpRefused}; let s : State := {s with time := {s.time with pending := false, source := 1}}; let h : Fin 2 := 0; let b := s.hostArg h pgTime 0 % 2; (let v := s.hostArg h pgTime 0 % 4; (s.issues h pgTime = true) ∧ (s.time.pending = false) ∧ (v ≠ s.time.source) ∧ (v ≠ 3) ∧ (v = 0 ∨ s.netEnabled (v - 1) = true) ∧ ((s.netAt b).state = .jumpRefused))) ∧
    (let s := tm [(rk pgTime 0x10, 1), (copyKey 0 pgTime 0x30, 1), (rk pgTime 0x130, 7)] {nb with state := BaseState.locked}; let s : State := {s with time := {s.time with pending := true, source := 0}}; let h : Fin 2 := 0; let v := s.hostArg h pgTime 0 % 4; (s.issues h pgTime = true) ∧ (v ≠ s.time.source) ∧ (v = 3 ∨ v ≠ 0 ∧ s.netEnabled (v - 1) = false)) := by refine ⟨?_, ?_, ?_⟩ <;> decide +kernel

/-- The hypotheses of Obligations.FusionIsSteered are met (its part FusionMovesAtItsBoundary). -/
theorem witness_FusionMovesAtItsBoundary :
    (let s := tm [(rk pgTrk 0x10, 2), (rk pgTrk 0x12C,1), (rk pgTime 0x2C, 0x201)] nb; let s : State := {s with time := {s.time with accStep := none, accAnchor := false, srcNext := (some 1), accAt := 16000, srcAt := 16000, source := if 0 = -5 then 0 else 1, q := if 0 = -5 then s.srcValue - s.time.fus - 5 + 16000*0 else 0}, bell := {started := true, step := 7, nextStep := 8, endFus := 4000, nextEnd := 4160}}; let v : Nat := ((some 1).getD 0); let last := s.fusNear = true ∧ s.fusD ≠ 0 ∧ s.time.off = false ∧ s.fusD.natAbs ≤ s.fusInc / 10000; (s.time.srcAt ≤ s.now) ∧ (s.time.accStep = none) ∧ (s.time.accAnchor = false) ∧ (s.time.srcNext = some v) ∧ (s.cmdIs pgTime 2 = true) ∧ (s.running pgTrk = true) ∧ (¬ last)) ∧
    (let s := tm [(rk pgTrk 0x10, 2), (rk pgTrk 0x12C,1), (rk pgTime 0x2C, 0x301)] nb; let s : State := {s with time := {s.time with accStep := (some 77), accAnchor := false, srcNext := none, accAt := 16000, srcAt := 16000, source := if 0 = -5 then 0 else 1, q := if 0 = -5 then s.srcValue - s.time.fus - 5 + 16000*0 else 0}, bell := {started := true, step := 7, nextStep := 8, endFus := 4000, nextEnd := 4160}}; let j : Nat := ((some 77).getD 0); (s.time.accAt ≤ s.now) ∧ (s.time.accStep = some j) ∧ (s.time.accAnchor = false) ∧ (s.time.srcNext = none) ∧ (s.cmdIs pgTime 3 = true) ∧ (0 < j) ∧ (s.running pgTrk = true)) ∧
    (let s := tm [(rk pgTrk 0x10, 1), (rk pgTrk 0x12C,1), (rk pgTime 0x2C, 0x401)] nb; let s : State := {s with time := {s.time with accStep := none, accAnchor := true, srcNext := none, accAt := 16000, srcAt := 16000, source := if 0 = -5 then 0 else 1, q := if 0 = -5 then s.srcValue - s.time.fus - 5 + 16000*0 else 0}, bell := {started := true, step := 7, nextStep := 8, endFus := 4000, nextEnd := 4160}}; (s.time.accAt ≤ s.now) ∧ (s.time.accStep = none) ∧ (s.time.accAnchor = true) ∧ (s.time.srcNext = none) ∧ (s.cmdIs pgTime 4 = true)) ∧
    (let s := tm [(rk pgTrk 0x10, 1), (rk pgTrk 0x12C,1), (rk pgTime 0x2C, 0x101)] nb; let s : State := {s with time := {s.time with accStep := none, accAnchor := true, srcNext := none, accAt := 16001, srcAt := 16001, source := if 0 = -5 then 0 else 1, q := if 0 = -5 then s.srcValue - s.time.fus - 5 + 16000*0 else 0}, bell := {started := true, step := 7, nextStep := 8, endFus := 4000, nextEnd := 4160}}; (s.now < s.time.accAt) ∧ (s.now < s.time.srcAt)) ∧
    (let s := tm [] nb; let s : State := {s with time := {s.time with source := 0, off := false}}; let s : State := {s with time := {s.time with q := s.srcValue - s.time.fus - 5}}; let last := s.fusNear = true ∧ s.fusD ≠ 0 ∧ s.time.off = false ∧ s.fusD.natAbs ≤ s.fusInc / 10000; (last)) := by refine ⟨?_, ?_, ?_, ?_, ?_⟩ <;> decide +kernel

/-- The hypotheses of Obligations.LaunchAndTriggerAreOnTime are met (its part FrameIsSentAtItsTime). -/
theorem witness_FrameIsSentAtItsTime :
    (let s : State := (et [(rk (pgEth 3) 0x10, 1)] {txQueue := (List.range 0).map fun i => fr (i+2) 0 5 true} (dsc 0x6000 61 0 0x1234)); let h : Fin 2 := 0; let p : Fin 8 := 3; let pg := pgEth p; (let q := s.ethAt p; (let a := (s.hostArg h pg 0 + s.hostArg h pg 1 * 2 ^ 32) % 2 ^ 48; (let fa := s.getLE a 8; (let len := s.getLE (a + 8) 2; (let base := s.getLE (a + 10) 1; (let fits := 60 ≤ len ∧ len ≤ 9216 ∧ base ≤ 3 ∧ (fa + len ≤ lpddrEnd ∨ commonsBase ≤ fa ∧ fa + len ≤ secBase); (let clean := s.memClean = true; (let live := s.running pg = true ∧ q.macFree ≤ s.time.tb0; (s.issues h pg = true) ∧ (q.txQueue.length < 16) ∧ (a + 32 ≤ lpddrEnd) ∧ (clean) ∧ (fits) ∧ (q.txQueue = [] ∧ s.ptpReady p = false ∨ ¬ live)))))))))) ∧
    (let s : State := (et [(rk (pgEth 3) 0x10, 2)] {txQueue := (List.range 1).map fun i => fr (i+2) 0 5 true} (dsc 0x6000 61 4 0x1234)); let h : Fin 2 := 0; let p : Fin 8 := 3; let f : TxFrame := (fr 2 0 5 true); let rest : List TxFrame := ((List.range (1-1)).map fun i => fr (i+3) 0 5 true); let pg := pgEth p; (let q := s.ethAt p; (let a := (s.hostArg h pg 0 + s.hostArg h pg 1 * 2 ^ 32) % 2 ^ 48; (let fa := s.getLE a 8; (let len := s.getLE (a + 8) 2; (let base := s.getLE (a + 10) 1; (let fits := 60 ≤ len ∧ len ≤ 9216 ∧ base ≤ 3 ∧ (fa + len ≤ lpddrEnd ∨ commonsBase ≤ fa ∧ fa + len ≤ secBase); (let clean := s.memClean = true; (let live := s.running pg = true ∧ q.macFree ≤ s.time.tb0; (let b := s.baseNs f.base + s.fld (rk pg 0x114) 15 0; (let late := f.base ≠ 3 ∧ (f.ready = false ∨ f.time + 20 < b); (let policy := s.bit (rk pg 0x118) 0 = true; (let sends := f.base = 3 ∨ (f.ready = true ∧ f.time ≤ b ∧ b ≤ f.time + 20) ∨ (late ∧ policy); (s.issues h pg = true) ∧ (q.txQueue.length < 16) ∧ (a + 32 ≤ lpddrEnd) ∧ (clean) ∧ (¬ fits) ∧ (q.txQueue = f :: rest) ∧ (s.ptpReady p = false) ∧ (live) ∧ ((sends ∨ late)) ∧ (f.desc + 32 ≤ lpddrEnd) ∧ (f.addr + f.len ≤ lpddrEnd) ∧ (rest.length < 16) ∧ (¬ sends)))))))))))))) ∧
    (let s : State := (et [(rk (pgEth 3) 0x10, 1)] {txQueue := (List.range 16).map fun i => fr (i+2) 0 5 true} (dsc 0x6000 61 0 0x1234)); let h : Fin 2 := 0; let p : Fin 8 := 3; let pg := pgEth p; (let q := s.ethAt p; (s.issues h pg = true) ∧ (16 ≤ q.txQueue.length))) ∧
    (let s : State := (et [(rk (pgEth 3) 0x10, 2),(rk (pgEth 3) 0x118, 0)] {txQueue := fr 1 0 1000010 true :: (List.range 0).map fun i => fr (i+3) 0 5 true, macFree := 999999} (dsc 0 0 0 0)); let p : Fin 8 := 3; let f : TxFrame := (fr 1 0 1000010 true); let rest : List TxFrame := ((List.range 0).map fun i => fr (i+3) 0 5 true); let pg := pgEth p; (let q := s.ethAt p; (let clean := s.memClean = true; (let live := s.running pg = true ∧ q.macFree ≤ s.time.tb0; (let b := s.baseNs f.base + s.fld (rk pg 0x114) 15 0; (let late := f.base ≠ 3 ∧ (f.ready = false ∨ f.time + 20 < b); (let policy := s.bit (rk pg 0x118) 0 = true; (let sends := f.base = 3 ∨ (f.ready = true ∧ f.time ≤ b ∧ b ≤ f.time + 20) ∨ (late ∧ policy); (q.txQueue = f :: rest) ∧ (s.ptpReady p = false) ∧ (live) ∧ ((sends ∨ late)) ∧ (f.desc + 32 ≤ lpddrEnd) ∧ (f.addr + f.len ≤ lpddrEnd) ∧ (clean) ∧ (rest.length < 16) ∧ (sends))))))))) ∧
    (let s : State := (et [(rk (pgEth 3) 0x10, 2),(rk (pgEth 3) 0x118, 0)] {txQueue := fr 1 0 1000031 true :: (List.range 0).map fun i => fr (i+3) 0 5 true, macFree := 999999} (dsc 0 0 0 0)); let p : Fin 8 := 3; let f : TxFrame := (fr 1 0 1000031 true); let rest : List TxFrame := ((List.range 0).map fun i => fr (i+3) 0 5 true); let pg := pgEth p; (let q := s.ethAt p; (let live := s.running pg = true ∧ q.macFree ≤ s.time.tb0; (let b := s.baseNs f.base + s.fld (rk pg 0x114) 15 0; (q.txQueue = f :: rest) ∧ (s.ptpReady p = false) ∧ (live) ∧ (f.base ≠ 3) ∧ (f.ready = true) ∧ (b < f.time))))) ∧
    (let s : State := (et [(rk (pgEth 3) 0x10, 2)] {txQueue := [fr 1 0 1001100 true], own := [{kind := 2, base := 0, seq := 4}]} (dsc 0 0 0 0)); let p : Fin 8 := 3; let f : TxFrame := fr 1 0 1001100 true; let rest : List TxFrame := []; let q := s.ethAt p; (s.ptpReady p = true) ∧ (f.base ≠ 3) ∧ (q.txQueue = f :: rest)) := by refine ⟨?_, ?_, ?_, ?_, ?_, ?_⟩ <;> decide +kernel

/-- The hypotheses of Obligations.LaunchAndTriggerAreOnTime are met (its part TriggerFiresOnce). -/
theorem witness_TriggerFiresOnce :
    (let s := tm [(trigKey 6 0x1C, 0*65536+0), (trigKey 6 4, 1000000), (trigKey 6 0xC, 0), (trigKey 6 0x10, 300), (trigKey 6 0, 0*2+1)] nb; let s : State := (s.setTrig 6 {next := 0, ends := 4}); let o : Fin 16 := 6; let st := s.rdN (trigKey o 0x1C); (¬ (st.testBit 0))) ∧
    (let s := tm [(trigKey 6 0x1C, 0*65536+1), (trigKey 6 4, 1000000), (trigKey 6 0xC, 0), (trigKey 6 0x10, 300), (trigKey 6 0, 0*2+1)] nb; let s : State := (s.setTrig 6 {next := 0, ends := 4}); let o : Fin 16 := 6; let st := s.rdN (trigKey o 0x1C); (let u := s.trigAt o; (let start := s.rd64 (trigKey o 4); (let per := s.rdN (trigKey o 0xC); (let base := s.baseNs (s.fld (trigKey o 0) 2 1); (let at0 := start + u.next * per; (st.testBit 0) ∧ (per = 0) ∧ (u.next = 0) ∧ (at0 ≤ base) ∧ (base ≤ at0 + 4))))))) ∧
    (let s := tm [(trigKey 6 0x1C, 0*65536+1), (trigKey 6 4, 1000001), (trigKey 6 0xC, 0), (trigKey 6 0x10, 300), (trigKey 6 0, 0*2+1)] nb; let s : State := (s.setTrig 6 {next := 0, ends := 4}); let o : Fin 16 := 6; let st := s.rdN (trigKey o 0x1C); (let u := s.trigAt o; (let start := s.rd64 (trigKey o 4); (let per := s.rdN (trigKey o 0xC); (let base := s.baseNs (s.fld (trigKey o 0) 2 1); (let at0 := start + u.next * per; (st.testBit 0) ∧ (per ≠ 0 ∨ u.next = 0) ∧ (base < at0))))))) ∧
    (let s := tm [(trigKey 6 0x1C, 0*65536+1), (trigKey 6 4, 1000000), (trigKey 6 0xC, 1000), (trigKey 6 0x10, 300), (trigKey 6 0, 0*2+1)] nb; let s : State := (s.setTrig 6 {next := 0, ends := 4}); let o : Fin 16 := 6; let st := s.rdN (trigKey o 0x1C); (let u := s.trigAt o; (let start := s.rd64 (trigKey o 4); (let per := s.rdN (trigKey o 0xC); (let base := s.baseNs (s.fld (trigKey o 0) 2 1); (let at0 := start + u.next * per; (st.testBit 0) ∧ (per ≠ 0) ∧ (at0 ≤ base) ∧ (base ≤ at0 + 4))))))) ∧
    (let s := tm [(trigKey 6 0x1C, 0*65536+1), (trigKey 6 4, 1000000), (trigKey 6 0xC, 1000), (trigKey 6 0x10, 300), (trigKey 6 0, 1*2+1)] nb; let s : State := (s.setTrig 6 {next := 0, ends := 4}); let o : Fin 16 := 6; let st := s.rdN (trigKey o 0x1C); (let u := s.trigAt o; (let start := s.rd64 (trigKey o 4); (let per := s.rdN (trigKey o 0xC); (let base := s.baseNs (s.fld (trigKey o 0) 2 1); (let at0 := start + u.next * per; (st.testBit 0) ∧ (per ≠ 0) ∧ (at0 + 4 + per < base))))))) := by refine ⟨?_, ?_, ?_, ?_, ?_⟩ <;> decide +kernel

end G11

namespace G12

def regsOf (s : State) (l : List (Nat × Nat)) : State := l.foldl (fun s e => s.wrN e.1 e.2) s
def up (s : State) : State := (s.setPort 0 { link := true, inReset := false }).setPort 1 { link := true, inReset := false }
def st (l : List (Nat × Nat)) : State := up (regsOf State.reset ([(rk pgStream 0x10, 2), (rk pgStream 0x108, 3),(rk pgStream 0x100, 0x1F)] ++ l))
def ms (a : Nat) : State := (st []).setBytes (a - 70) (leBytes 200 0x123456789abcdef0123456789abcdef)
def allU : List Upset := [.none,.single,.double,.address]

/-- The hypotheses of Obligations.MasterReachesMemory are met (its part MasterReads). -/
theorem witness_MasterReads :
    (let s : State := (ms 0x1000); let a : Nat := 0x1000; let n : Nat := 64; let u : Upset := ((allU)[0]'(by decide)); (a + n ≤ lpddrEnd) ∧ (0 < n) ∧ (s.memClean = true) ∧ (u = .none)) ∧
    (let s : State := (ms 0x010000000000); let a : Nat := 0x010000000000; let n : Nat := 64; (commonsBase ≤ a) ∧ (a + n ≤ secBase) ∧ (s.memc.commonsBad = [])) ∧
    (let s : State := (ms 0x010003F00000); let m : Fin 16 := 0; let a : Nat := 0x010003F00000; let n : Nat := 8; let deny := secBase ≤ a ∧ a + n ≤ commonsEnd ∧ s.secGranted m false = false; (deny) ∧ (0 < n)) ∧
    (let a : Nat := 0x015000000000; let n : Nat := 4; (0x015000000000 ≤ a) ∧ (0 < n) ∧ (a < 2 ^ 48)) ∧
    (let s : State := (ms 0x1000); let a : Nat := 0x1000; let n : Nat := 64; let u : Upset := ((allU)[1]'(by decide)); (a + n ≤ lpddrEnd) ∧ (0 < n) ∧ (s.memClean = true) ∧ (u = .single)) ∧
    (let s : State := (ms 0x1000); let a : Nat := 0x1000; let n : Nat := 64; let u : Upset := ((allU)[2]'(by decide)); (a + n ≤ lpddrEnd) ∧ (0 < n) ∧ (s.memClean = true) ∧ (u = .double)) ∧
    (let s : State := (ms 0x1000); let a : Nat := 0x1000; let n : Nat := 64; let u : Upset := ((allU)[3]'(by decide)); (a + n ≤ lpddrEnd) ∧ (0 < n) ∧ (s.memClean = true) ∧ (u = .address)) := by refine ⟨?_, ?_, ?_, ?_, ?_, ?_, ?_⟩ <;> decide +kernel

/-- The hypotheses of Obligations.MasterReachesMemory are met (its part MasterWrites). -/
theorem witness_MasterWrites :
    (let s : State := (ms 0x1000); let a : Nat := 0x1000; let bs : List Byte := (leBytes 64 (0x9876543210123*2^(8*64-40)+0x77665544332211)); let u : Upset := ((allU)[0]'(by decide)); let n := bs.length; (a + n ≤ lpddrEnd) ∧ (0 < n) ∧ (s.memClean = true) ∧ (u = .none ∨ u = .single ∨ (a % 32 = 0 ∧ 32 ≤ n))) ∧
    (let s : State := (ms 0x010000000000); let a : Nat := 0x010000000000; let bs : List Byte := (leBytes 64 (0x9876543210123*2^(8*64-40)+0x77665544332211)); let n := bs.length; (commonsBase ≤ a) ∧ (a + n ≤ secBase) ∧ (0 < n) ∧ (s.memc.commonsBad = [])) ∧
    (let s : State := (ms 0x010003F00000); let m : Fin 16 := 0; let a : Nat := 0x010003F00000; let bs : List Byte := (leBytes 8 (0x9876543210123*2^(8*8-40)+0x77665544332211)); let n := bs.length; (let deny := secBase ≤ a ∧ a + n ≤ commonsEnd ∧ s.secGranted m true = false; (deny) ∧ (0 < n))) ∧
    (let a : Nat := 0x015000000000; let bs : List Byte := (leBytes 4 (0x9876543210123*2^(8*4-40)+0x77665544332211)); let n := bs.length; (0x015000000000 ≤ a) ∧ (0 < n)) ∧
    (let s : State := (ms 0x1005); let a : Nat := 0x1005; let bs : List Byte := (leBytes 3 (0x9876543210123*2^(8*3-40)+0x77665544332211)); let u : Upset := ((allU)[2]'(by decide)); let n := bs.length; (a + n ≤ lpddrEnd) ∧ (0 < n) ∧ (s.memClean = true) ∧ (u = .double ∨ u = .address) ∧ (a % 32 ≠ 0 ∨ n < 32)) := by refine ⟨?_, ?_, ?_, ?_, ?_⟩ <;> decide +kernel

/-- The hypotheses of Obligations.MemoryIsScrubbedSharedAndWiped are met (its part PatrolScrubsGranules). -/
theorem witness_PatrolScrubsGranules :
    (let s := st [(rk pgMem 0x10, 2), (rk pgMem 0xC, 0), (rk pgMem 0x100, 1), (rk pgPwr 0x104, 0)]; let s : State := {s with memc := {s.memc with patrol := (2^32-1), scrubNs := 24 * 3600 * 10 ^ 9}, sec := {s.sec with fuses := {s.sec.fuses with lifecycle := 0}}}; let u : Upset := ((allU)[0]'(by decide)); let h : Fin 2 := 0; let g : Nat := ((patrolGranule (2^32-1)).getD 0); let i := s.memc.patrol; (let n := (i + 1) % 2 ^ 32; (let live := s.running pgMem = true ∧ s.halted pgMem = false ∧ s.bit (rk pgMem 0x100) 0 = true ∧ s.fld (rk pgPwr 0x104) 1 0 = 0 ∧ ((s.memc.patrol * (s.memc.scrubHours * 3600 * 10 ^ 9) : Nat) : Int) ≤ s.memc.scrubNs * 2 ^ 32; (let takes := s.sec.fuses.lifecycle = 1 ∨ s.blk pgMem = stTesting; (live) ∧ (n = 0) ∧ (patrolGranule i = some g) ∧ (s.memc.bad = []) ∧ (u = .none) ∧ (s.reaches h = true) ∧ (s.isOwner h = true) ∧ (¬ takes))))) ∧
    (let s := st [(rk pgMem 0x10, 1), (rk pgMem 0xC, 0), (rk pgMem 0x100, 1), (rk pgPwr 0x104, 0)]; let s : State := {s with memc := {s.memc with patrol := 0, scrubNs := 24 * 3600 * 10 ^ 9}, sec := {s.sec with fuses := {s.sec.fuses with lifecycle := 1}}}; let h : Fin 2 := 0; let live := s.running pgMem = true ∧ s.halted pgMem = false ∧ s.bit (rk pgMem 0x100) 0 = true ∧ s.fld (rk pgPwr 0x104) 1 0 = 0 ∧ ((s.memc.patrol * (s.memc.scrubHours * 3600 * 10 ^ 9) : Nat) : Int) ≤ s.memc.scrubNs * 2 ^ 32; (let takes := s.sec.fuses.lifecycle = 1 ∨ s.blk pgMem = stTesting; (¬ live) ∧ (s.reaches h = true) ∧ (s.isOwner h = true) ∧ (takes))) ∧
    (let s := st [(rk pgMem 0x10, 2), (rk pgMem 0xC, 0), (rk pgMem 0x100, 1), (rk pgPwr 0x104, 0)]; let s : State := {s with memc := {s.memc with patrol := 32, scrubNs := 24 * 3600 * 10 ^ 9}, sec := {s.sec with fuses := {s.sec.fuses with lifecycle := 0}}}; let u : Upset := ((allU)[1]'(by decide)); let g : Nat := ((patrolGranule 32).getD 0); let i := s.memc.patrol; (let live := s.running pgMem = true ∧ s.halted pgMem = false ∧ s.bit (rk pgMem 0x100) 0 = true ∧ s.fld (rk pgPwr 0x104) 1 0 = 0 ∧ ((s.memc.patrol * (s.memc.scrubHours * 3600 * 10 ^ 9) : Nat) : Int) ≤ s.memc.scrubNs * 2 ^ 32; (live) ∧ (patrolGranule i = some g) ∧ (s.memc.bad = []) ∧ (u = .single))) ∧
    (let s := st [(rk pgMem 0x10, 2), (rk pgMem 0xC, 0), (rk pgMem 0x100, 1), (rk pgPwr 0x104, 0)]; let s : State := {s with memc := {s.memc with patrol := 32, scrubNs := 24 * 3600 * 10 ^ 9}, sec := {s.sec with fuses := {s.sec.fuses with lifecycle := 0}}}; let u : Upset := ((allU)[2]'(by decide)); let g : Nat := ((patrolGranule 32).getD 0); let i := s.memc.patrol; (let live := s.running pgMem = true ∧ s.halted pgMem = false ∧ s.bit (rk pgMem 0x100) 0 = true ∧ s.fld (rk pgPwr 0x104) 1 0 = 0 ∧ ((s.memc.patrol * (s.memc.scrubHours * 3600 * 10 ^ 9) : Nat) : Int) ≤ s.memc.scrubNs * 2 ^ 32; (live) ∧ (patrolGranule i = some g) ∧ (s.memc.bad = []) ∧ (u = .double))) := by refine ⟨?_, ?_, ?_, ?_⟩ <;> decide +kernel

/-- The hypotheses of Obligations.MemoryIsScrubbedSharedAndWiped are met (its part CommonsServesItsPorts). -/
theorem witness_CommonsServesItsPorts :
    (let s : State := (ms 0x010000000000); let a : Fin 16 := 0; let b : Fin 16 := 8; let l : Nat := 0; let i : Nat := 0; let x : List (Nat × Byte) := [(1,0x11),(2,0x22),(20,5)]; let y : List (Nat × Byte) := [(2,0x29),(3,5),(40,1)]; let line := commonsBase + 64 * l; (let clash (w : Nat) := x.any (fun e => y.any (fun f => e.1 == f.1 && e.1 / 8 == w && e.2 != f.2)); (let clashes := ((List.range 8).filter clash).length; (line + 64 ≤ secBase) ∧ (s.memc.commonsBad = []) ∧ (a.val < 8) ∧ (8 ≤ b.val) ∧ ((x.map (·.1)).Nodup) ∧ ((y.map (·.1)).Nodup) ∧ ((∀ e ∈ x, e.1 < 64)) ∧ ((∀ e ∈ y, e.1 < 64)) ∧ (i < 64) ∧ (0 < clashes)))) ∧
    (let s := ms (commonsBase + 64*0); let s : State := {s with memc := {s.memc with turn := [(0,15),(64,15)]}}; let a : Fin 16 := 3; let b : Fin 16 := 2; let l : Nat := 0; let k : Nat := (0/0x4000*0x4000+5); let line := commonsBase + 64 * l; (line + 64 ≤ secBase) ∧ (s.memc.commonsBad = []) ∧ (a ≠ b) ∧ ((a.val < 8 ↔ b.val < 8)) ∧ (l / 0x4000 = k / 0x4000)) := by refine ⟨?_, ?_⟩ <;> decide +kernel

/-- The hypotheses of Obligations.MemoryIsScrubbedSharedAndWiped are met (its part SecureBankIsWiped). -/
theorem witness_SecureBankIsWiped :
    (let s := ms 0x010003F00000; let s := s.wrN (rk pgCommons 0x100) 1; let s := (s.wrN (rk pgCommons 0x140) 7).wrN (rk pgCommons 0x17C) 9; let s : State := {s with memc := {s.memc with wipeAt := some 0}, time := {s.time with tb0 := 4095}}; let c : BitVec 4 := 1; let w : Nat := 0; let a : Nat := 0x010003F00000; let h : Fin 2 := 0; let v : Word := 1; let cause := 1 ≤ c.toNat ∧ c.toNat ≤ 4; (cause) ∧ (s.bit (rk pgCommons 0x100) 1 = false) ∧ (s.memc.wipeAt = some w) ∧ (s.time.tb0 < w + 4096) ∧ (s.bit (rk pgCommons 0x100) 0 = true) ∧ (s.planes = []) ∧ (commonsBase ≤ a) ∧ (a < commonsEnd) ∧ (s.reaches h = true) ∧ (s.isOwner h = true) ∧ (v.getLsbD 0 = true)) ∧
    (let s := ms 0x010003F00000; let s := s.wrN (rk pgCommons 0x100) 2; let s := (s.wrN (rk pgCommons 0x140) 7).wrN (rk pgCommons 0x17C) 9; let s : State := {s with memc := {s.memc with wipeAt := some 0}, time := {s.time with tb0 := 4096}}; let c : BitVec 4 := 1; let w : Nat := 0; let a : Nat := 0x010003F00000; let cause := 1 ≤ c.toNat ∧ c.toNat ≤ 4; (cause) ∧ (s.bit (rk pgCommons 0x100) 1 = true) ∧ (s.memc.wipeAt = some w) ∧ (w + 4096 ≤ s.time.tb0) ∧ (s.planes = []) ∧ (secBase ≤ a) ∧ (a < commonsEnd)) := by refine ⟨?_, ?_⟩ <;> decide +kernel

end G12

namespace G13

def regsOf (s : State) (l : List (Nat × Nat)) : State := l.foldl (fun s e => s.wrN e.1 e.2) s
def up (s : State) : State := (s.setPort 0 { link := true, inReset := false }).setPort 1 { link := true, inReset := false }
def st (l : List (Nat × Nat)) : State := up (regsOf State.reset ([(rk pgStream 0x10, 2), (rk pgStream 0x108, 3),(rk pgStream 0x100, 0x1F)] ++ l))
def pgs : List (Fin 64) := (List.finRange 64).filter (fun p => (pageKind p.val).isSome)
def allU : List Upset := [.none,.single,.double,.address]

/-- The hypotheses of Obligations.RegistersAreAccessed are met (its part UnknownCommandCompletes). -/
theorem witness_UnknownCommandCompletes :
    (let s : State := ((st [(rk (((pgs)[0]'(by decide)) : Fin 64) 0x10, 1), (rk (((pgs)[0]'(by decide)) : Fin 64) 0x2C, 0 + 0xFF220010), (rk pgSys 0x104, 0)])); let h : Fin 2 := 0; let p : Fin 64 := (((pgs)[0]'(by decide)) : Fin 64); let code : Byte := (0x77:Byte); let c := code.toNat; (s.reaches h = true) ∧ ((pageKind p).isSome = true) ∧ (p.val ≠ pgPort (1 - h)) ∧ (pageCommand p c = none) ∧ (s.slotTakes p = true) ∧ (s.isOwner h = true)) ∧
    (let s : State := ((st [(rk (((pgs)[0]'(by decide)) : Fin 64) 0x10, 1), (rk (((pgs)[0]'(by decide)) : Fin 64) 0x2C, 0 + 0xFF220010), (rk pgSys 0x104, 1)])); let h : Fin 2 := 0; let p : Fin 64 := (((pgs)[0]'(by decide)) : Fin 64); let code : Byte := (0x77:Byte); let c := code.toNat; (s.reaches h = true) ∧ ((pageKind p).isSome = true) ∧ (p.val ≠ pgPort (1 - h)) ∧ (pageCommand p c = none) ∧ (s.slotTakes p = true) ∧ (s.isOwner h = false)) ∧
    (let s : State := ((st [(rk (((pgs)[0]'(by decide)) : Fin 64) 0x10, 1), (rk (((pgs)[0]'(by decide)) : Fin 64) 0x2C, 1 + 0xFF220010), (rk pgSys 0x104, 0)])); let h : Fin 2 := 0; let p : Fin 64 := (((pgs)[0]'(by decide)) : Fin 64); let code : Byte := (0x77:Byte); let c := code.toNat; (s.reaches h = true) ∧ ((pageKind p).isSome = true) ∧ (p.val ≠ pgPort (1 - h)) ∧ (pageCommand p c = none) ∧ (s.slotTakes p = false)) := by refine ⟨?_, ?_, ?_⟩ <;> decide +kernel

/-- The hypotheses of Obligations.BlockRunsStopsTestsAndHalts are met (its part BlockRunsStopsAndTests). -/
theorem witness_BlockRunsStopsAndTests :
    (let s : State := (st ([(rk pgTT 0x10, if 0 = 0 then 1 else 2), (rk (pgCsi 3) 0x10, if 0 = 0 then 1 else 2),(rk pgStream 0x10, if 0 = 0 then 1 else 2), (rk pgFab 0x10, 1), (rk pgSys 0x104, 2), (rk (pgEng 4) 0x104, 0), (rk (pgEng 4) 0x110, 0), (rk pgPwr 0x104, 0), (rk (((pgs)[1]'(by decide)) : Fin 64) 0x10, 1+0x30), (rk (((pgs)[1]'(by decide)) : Fin 64) 0x0C, 0)])); let h : Fin 2 := 0; let p : Fin 64 := (((pgs)[1]'(by decide)) : Fin 64); let st := s.blk p; (let tests := (pageKind p).any pageTest = true ∧ st = stIdle ∧ s.enabled p = false ∧ s.held p = false ∧ ¬ ((p.val = pgEng 4 ∨ p.val = pgEng 5) ∧ s.margin ≠ 0); (s.reaches h = true) ∧ (s.isOwner h = true) ∧ ((pageKind p).isSome = true) ∧ (p.val ≠ pgSys) ∧ (p.val ≠ pgPort (1 - h)) ∧ (s.enabled p = false) ∧ (st = stIdle) ∧ (s.held p = false) ∧ ((s.enableJudge p).2 = true) ∧ (¬ tests) ∧ (st ≠ stTesting))) ∧
    (let s : State := (st ([(rk pgTT 0x10, if 0 = 0 then 1 else 2), (rk (pgCsi 3) 0x10, if 0 = 0 then 1 else 2),(rk pgStream 0x10, if 0 = 0 then 1 else 2), (rk pgFab 0x10, 1), (rk pgSys 0x104, 2), (rk (pgEng 4) 0x104, 0), (rk (pgEng 4) 0x110, 0), (rk pgPwr 0x104, 0), (rk (((pgs)[1]'(by decide)) : Fin 64) 0x10, 6+0x30), (rk (((pgs)[1]'(by decide)) : Fin 64) 0x0C, 0)])); let h : Fin 2 := 0; let p : Fin 64 := (((pgs)[1]'(by decide)) : Fin 64); let st := s.blk p; (s.reaches h = true) ∧ (s.isOwner h = true) ∧ ((pageKind p).isSome = true) ∧ (p.val ≠ pgSys) ∧ (p.val ≠ pgPort (1 - h)) ∧ (s.enabled p = false) ∧ (st ≠ stIdle) ∧ (st ≠ stRunning) ∧ (st = stTesting)) ∧
    (let s : State := (st ([(rk pgTT 0x10, if 0 = 0 then 1 else 2), (rk (pgCsi 3) 0x10, if 0 = 0 then 1 else 2),(rk pgStream 0x10, if 0 = 0 then 1 else 2), (rk pgFab 0x10, 1), (rk pgSys 0x104, 2), (rk (pgEng 4) 0x104, 0), (rk (pgEng 4) 0x110, 0), (rk pgPwr 0x104, 0), (rk (((pgs)[13]'(by decide)) : Fin 64) 0x10, 1+0x30), (rk (((pgs)[13]'(by decide)) : Fin 64) 0x0C, 0)])); let h : Fin 2 := 0; let p : Fin 64 := (((pgs)[13]'(by decide)) : Fin 64); let st := s.blk p; (let tests := (pageKind p).any pageTest = true ∧ st = stIdle ∧ s.enabled p = false ∧ s.held p = false ∧ ¬ ((p.val = pgEng 4 ∨ p.val = pgEng 5) ∧ s.margin ≠ 0); (s.reaches h = true) ∧ (s.isOwner h = true) ∧ ((pageKind p).isSome = true) ∧ (p.val ≠ pgSys) ∧ (p.val ≠ pgPort (1 - h)) ∧ (s.enabled p = false) ∧ (st = stIdle) ∧ (s.held p = false) ∧ ((s.enableJudge p).2 = false) ∧ (tests))) ∧
    (let s : State := (st ([(rk pgTT 0x10, if 0 = 0 then 1 else 2), (rk (pgCsi 3) 0x10, if 0 = 0 then 1 else 2),(rk pgStream 0x10, if 0 = 0 then 1 else 2), (rk pgFab 0x10, 1), (rk pgSys 0x104, 2), (rk (pgEng 4) 0x104, 0), (rk (pgEng 4) 0x110, 0), (rk pgPwr 0x104, 1), (rk (((pgs)[1]'(by decide)) : Fin 64) 0x10, 1+0x30), (rk (((pgs)[1]'(by decide)) : Fin 64) 0x0C, 0)])); let h : Fin 2 := 0; let p : Fin 64 := (((pgs)[1]'(by decide)) : Fin 64); let st := s.blk p; (s.reaches h = true) ∧ (s.isOwner h = true) ∧ ((pageKind p).isSome = true) ∧ (p.val ≠ pgSys) ∧ (p.val ≠ pgPort (1 - h)) ∧ (s.enabled p = false) ∧ (st = stIdle) ∧ (s.held p = true)) ∧
    (let s : State := (st ([(rk pgTT 0x10, if 0 = 0 then 1 else 2), (rk (pgCsi 3) 0x10, if 0 = 0 then 1 else 2),(rk pgStream 0x10, if 0 = 0 then 1 else 2), (rk pgFab 0x10, 1), (rk pgSys 0x104, 2), (rk (pgEng 4) 0x104, 0), (rk (pgEng 4) 0x110, 0), (rk pgPwr 0x104, 0), (rk (((pgs)[1]'(by decide)) : Fin 64) 0x10, 2+0x30), (rk (((pgs)[1]'(by decide)) : Fin 64) 0x0C, 1)])); let h : Fin 2 := 0; let p : Fin 64 := (((pgs)[1]'(by decide)) : Fin 64); let st := s.blk p; (s.reaches h = true) ∧ (s.isOwner h = true) ∧ ((pageKind p).isSome = true) ∧ (p.val ≠ pgSys) ∧ (p.val ≠ pgPort (1 - h)) ∧ (s.enabled p = true) ∧ (st = stRunning) ∧ (p.val ≠ pgMem)) ∧
    (let s : State := (st ([(rk pgTT 0x10, if 0 = 0 then 1 else 2), (rk (pgCsi 3) 0x10, if 0 = 0 then 1 else 2),(rk pgStream 0x10, if 0 = 0 then 1 else 2), (rk pgFab 0x10, 1), (rk pgSys 0x104, 2), (rk (pgEng 4) 0x104, 0), (rk (pgEng 4) 0x110, 0), (rk pgPwr 0x104, 0), (rk (((pgs)[10]'(by decide)) : Fin 64) 0x10, 2+0x30), (rk (((pgs)[10]'(by decide)) : Fin 64) 0x0C, 1)])); let h : Fin 2 := 0; let p : Fin 64 := (((pgs)[10]'(by decide)) : Fin 64); let st := s.blk p; (s.reaches h = true) ∧ (s.isOwner h = true) ∧ ((pageKind p).isSome = true) ∧ (p.val ≠ pgSys) ∧ (p.val ≠ pgPort (1 - h)) ∧ (s.enabled p = true) ∧ (st = stRunning) ∧ (p.val = pgMem) ∧ (memMasters.any (fun q => s.blk q != stOff && s.blk q != stIdle) = false)) ∧
    (let s : State := (st ([(rk pgTT 0x10, if 4 = 0 then 1 else 2), (rk (pgCsi 3) 0x10, if 4 = 0 then 1 else 2),(rk pgStream 0x10, if 4 = 0 then 1 else 2), (rk pgFab 0x10, 1), (rk pgSys 0x104, 2), (rk (pgEng 4) 0x104, 0), (rk (pgEng 4) 0x110, 0), (rk pgPwr 0x104, 0), (rk (((pgs)[10]'(by decide)) : Fin 64) 0x10, 2+0x30), (rk (((pgs)[10]'(by decide)) : Fin 64) 0x0C, 1)])); let h : Fin 2 := 0; let p : Fin 64 := (((pgs)[10]'(by decide)) : Fin 64); let st := s.blk p; (s.reaches h = true) ∧ (s.isOwner h = true) ∧ ((pageKind p).isSome = true) ∧ (p.val ≠ pgSys) ∧ (p.val ≠ pgPort (1 - h)) ∧ (s.enabled p = true) ∧ (st = stRunning) ∧ (p.val = pgMem) ∧ (memMasters.any (fun q => s.blk q != stOff && s.blk q != stIdle) = true)) := by refine ⟨?_, ?_, ?_, ?_, ?_, ?_, ?_⟩ <;> decide +kernel

/-- The hypotheses of Obligations.BlockRunsStopsTestsAndHalts are met (its part HaltIsStoredAndFlagsClear). -/
theorem witness_HaltIsStoredAndFlagsClear :
    (let s : State := (st ([(rk pgSys 0x104, 0), (rk pgDbg 0x104, 0), (rk (((pgs)[1]'(by decide)) : Fin 64) 0x10, 1), (rk (((pgs)[1]'(by decide)) : Fin 64) 0x0C, 0), (rk (((pgs)[1]'(by decide)) : Fin 64) 0x14, 0x1FF), (rk (((pgs)[1]'(by decide)) : Fin 64) 0x1C, 0xF)])); let h : Fin 2 := 0; let p : Fin 64 := (((pgs)[1]'(by decide)) : Fin 64); (s.reaches h = true) ∧ ((pageKind p).isSome = true) ∧ (p.val ≠ pgSys) ∧ (p.val ≠ pgPort (1 - h)) ∧ (s.isOwner h = true ∨ p.val = pgPort h) ∧ ((pageKind p).any pageHalt = false)) ∧
    (let s : State := (st ([(rk pgSys 0x104, 0), (rk pgDbg 0x104, 0), (rk (((pgs)[5]'(by decide)) : Fin 64) 0x10, 1), (rk (((pgs)[5]'(by decide)) : Fin 64) 0x0C, 0), (rk (((pgs)[5]'(by decide)) : Fin 64) 0x14, 0x1FF), (rk (((pgs)[5]'(by decide)) : Fin 64) 0x1C, 0xF)])); let h : Fin 2 := 0; let p : Fin 64 := (((pgs)[5]'(by decide)) : Fin 64); (s.reaches h = true) ∧ ((pageKind p).isSome = true) ∧ (p.val ≠ pgSys) ∧ (p.val ≠ pgPort (1 - h)) ∧ (s.isOwner h = true ∨ p.val = pgPort h) ∧ ((pageKind p).any pageHalt = true) ∧ (p.val < 0x12 ∨ 0x18 ≤ p.val)) := by refine ⟨?_, ?_⟩ <;> decide +kernel

/-- The hypotheses of Obligations.DismissEndsInIdle are met. -/
theorem witness_DismissEndsInIdle :
    (let s : State := (st ([(rk pgSys 0x104, 1), (rk pgSys 0x100, 0),(rk pgPwr 0x104, 0), (rk (((pgs)[1]'(by decide)) : Fin 64) 0x10, 1), (rk (((pgs)[1]'(by decide)) : Fin 64) 0x0C, 1), (rk (((pgs)[1]'(by decide)) : Fin 64) 0x2C, 0)])); let h : Fin 2 := 0; let p : Fin 64 := (((pgs)[1]'(by decide)) : Fin 64); let v : Word := 0xD16; let key := v = 0x0D15; (let block := (pageKind p).isSome = true ∧ p.val ≠ pgSys ∧ p.val ≠ pgPort (1 - h); (s.reaches h = true) ∧ (block) ∧ (¬ key ∨ s.blk p = stOff) ∧ (p.val ≠ pgSys) ∧ (s.blk p ≠ stDismissing ∨ (pageKind p).isNone = true) ∧ (¬ key))) ∧
    (let s : State := (st ([(rk pgSys 0x104, 1), (rk pgSys 0x100, 0),(rk pgPwr 0x104, 0), (rk (((pgs)[1]'(by decide)) : Fin 64) 0x10, 1), (rk (((pgs)[1]'(by decide)) : Fin 64) 0x0C, 1), (rk (((pgs)[1]'(by decide)) : Fin 64) 0x2C, 1)])); let h : Fin 2 := 0; let p : Fin 64 := (((pgs)[1]'(by decide)) : Fin 64); let q : Fin 64 := (if 1 = 0 then (((pgs)[1]'(by decide)) : Fin 64) else 5); let v : Word := (0x0D15:Word); let key := v = 0x0D15; (let block := (pageKind p).isSome = true ∧ p.val ≠ pgSys ∧ p.val ≠ pgPort (1 - h); (let calm := s.pwrState ≠ 1 ∧ s.pwrState ≠ 3 ∧ s.sysDismissing = false; (s.reaches h = true) ∧ (block) ∧ (key) ∧ (calm) ∧ (s.blk p ≠ stOff) ∧ (s.blk p ≠ stDismissing) ∧ (s.busy p = true) ∧ ((pageKind q).isSome = true) ∧ (q.val ≠ pgSys) ∧ (s.blk q = stOff ∨ keptPages.contains q.val = true)))) ∧
    (let s : State := (st ([(rk pgSys 0x104, 1), (rk pgSys 0x100, 0),(rk pgPwr 0x104, 0), (rk (((pgs)[5]'(by decide)) : Fin 64) 0x10, 4), (rk (((pgs)[5]'(by decide)) : Fin 64) 0x0C, 1), (rk (((pgs)[5]'(by decide)) : Fin 64) 0x2C, 0)])); let h : Fin 2 := 0; let p : Fin 64 := (((pgs)[5]'(by decide)) : Fin 64); let q : Fin 64 := (if 0 = 0 then (((pgs)[5]'(by decide)) : Fin 64) else 5); let v : Word := (0x0D15:Word); let key := v = 0x0D15; (let calm := s.pwrState ≠ 1 ∧ s.pwrState ≠ 3 ∧ s.sysDismissing = false; (p.val ≠ pgSys) ∧ ((pageKind p).isSome = true) ∧ (s.blk p = stDismissing) ∧ (s.reaches h = true) ∧ (key) ∧ (calm) ∧ ((pageKind q).isSome = true) ∧ (q.val ≠ pgSys) ∧ (s.blk q ≠ stOff) ∧ (keptPages.contains q.val = false))) := by refine ⟨?_, ?_, ?_⟩ <;> decide +kernel

/-- The hypotheses of Obligations.RegistersAreAccessed are met (its part RegisterIsWritten). -/
theorem witness_RegisterIsWritten :
    (let s : State := (st ([(rk pgSys 0x104, 0), (rk (((pgs)[52]'(by decide)) : Fin 64) 0x10, 1), (rk (((pgs)[52]'(by decide)) : Fin 64) 0x4C, 0x89), (rk (((pgs)[52]'(by decide)) : Fin 64) 0x48, 0x1289), (latchKey 0 (rk (((pgs)[52]'(by decide)) : Fin 64) 0x4C), 6)])); let bs : List Byte := (if 0x104 = 0x206 then [1,2,3] else [1,2,3,4,5,6,7,8]); let s : State := s; let h : Fin 2 := 0; let p : Fin 64 := (((pgs)[52]'(by decide)) : Fin 64); let o : Nat := 0x104; (let row := findRow (rowsOf p) o; (let m : Word := BitVec.ofNat 32 ((row.map (·.1.mask)).getD 0); (let holds := row.any (fun x => s.condHolds p x.1 x.2); (let plain := (pageKind p).any (fun k => [PageKind.wheel, .imu, .can, .clk].contains k); (s.reaches h = true) ∧ (sizeOk o bs.length = false) ∧ (o < 0x1000) ∧ (plain = true) ∧ (0x100 ≤ o) ∧ (o % 4 = 0) ∧ (m ≠ 0) ∧ (s.isOwner h = true) ∧ (holds = true) ∧ ((pageKind p).isSome = true) ∧ (p.val ≠ pgPort (1 - h))))))) ∧
    (let s : State := (st ([(rk pgSys 0x104, 1), (rk (((pgs)[52]'(by decide)) : Fin 64) 0x10, 1), (rk (((pgs)[52]'(by decide)) : Fin 64) 0x4C, 0x89), (rk (((pgs)[52]'(by decide)) : Fin 64) 0x48, 0x1289), (latchKey 0 (rk (((pgs)[52]'(by decide)) : Fin 64) 0x4C), 6)])); let s : State := s; let h : Fin 2 := 0; let p : Fin 64 := (((pgs)[52]'(by decide)) : Fin 64); let o : Nat := 0x100; (let row := findRow (rowsOf p) o; (let m : Word := BitVec.ofNat 32 ((row.map (·.1.mask)).getD 0); (let holds := row.any (fun x => s.condHolds p x.1 x.2); (let plain := (pageKind p).any (fun k => [PageKind.wheel, .imu, .can, .clk].contains k); (s.reaches h = true) ∧ (plain = true) ∧ (0x100 ≤ o) ∧ (o < 0x1000) ∧ (o % 4 = 0) ∧ (m ≠ 0) ∧ (s.isOwner h = false) ∧ (holds = true)))))) ∧
    (let s : State := (st ([(rk pgSys 0x104, 0), (rk (((pgs)[52]'(by decide)) : Fin 64) 0x10, 2), (rk (((pgs)[52]'(by decide)) : Fin 64) 0x4C, 0x89), (rk (((pgs)[52]'(by decide)) : Fin 64) 0x48, 0x1289), (latchKey 0 (rk (((pgs)[52]'(by decide)) : Fin 64) 0x4C), 6)])); let s : State := s; let h : Fin 2 := 0; let p : Fin 64 := (((pgs)[52]'(by decide)) : Fin 64); let o : Nat := 0x100; (let row := findRow (rowsOf p) o; (let m : Word := BitVec.ofNat 32 ((row.map (·.1.mask)).getD 0); (let holds := row.any (fun x => s.condHolds p x.1 x.2); (let plain := (pageKind p).any (fun k => [PageKind.wheel, .imu, .can, .clk].contains k); (s.reaches h = true) ∧ (plain = true) ∧ (0x100 ≤ o) ∧ (o < 0x1000) ∧ (o % 4 = 0) ∧ (m ≠ 0) ∧ (s.isOwner h = true) ∧ (holds = false)))))) := by refine ⟨?_, ?_, ?_⟩ <;> decide +kernel

/-- The hypotheses of Obligations.RegistersAreAccessed are met (its part RegisterIsRead). -/
theorem witness_RegisterIsRead :
    (let s : State := (st ([(rk pgSys 0x104, 0), (rk (((pgs)[0]'(by decide)) : Fin 64) 0x10, 1), (rk (((pgs)[0]'(by decide)) : Fin 64) 0x4C, 0x89), (rk (((pgs)[0]'(by decide)) : Fin 64) 0x48, 0x1289), (latchKey 0 (rk (((pgs)[0]'(by decide)) : Fin 64) 0x4C), 6)])); let n := (if (0x12345678:Word) = 0x12345678 then 12 else 8); let s : State := s; let h : Fin 2 := 0; let p : Fin 64 := (((pgs)[0]'(by decide)) : Fin 64); let o : Nat := 0x100; (s.reaches h = true) ∧ (sizeOk o n = false) ∧ (o < 0x1000) ∧ ((pageKind p).isSome = true) ∧ (p.val ≠ pgPort 0) ∧ (p.val ≠ pgPort 1)) := by decide +kernel

/-- The hypotheses of Obligations.WindowAndDebugPortReach are met (its part BarTwoReachesMemory). -/
theorem witness_BarTwoReachesMemory :
    (let s := (st [(rk pgSys 0x104, 0), (rk (pgPort 0) 0x108, 0x00000000), (rk (pgPort 0) 0x10C, 0)]); let s : State := (s.setBytes 0x1000 (leBytes 100 (2^790-12345))); let h : Fin 2 := 0; let o : Nat := 0x1000; let n : Nat := 64; let bs : List Byte := (leBytes 64 (2^790-99999)); let u : Upset := ((allU)[0]'(by decide)); let pg := pgPort h; (let base := s.fld (rk pg 0x108) 31 30 * 2 ^ 30 + s.fld (rk pg 0x10C) 15 0 * 2 ^ 32; (let a := base + o; (let len := bs.length; (let opens (k : Nat) := (a + k ≤ lpddrEnd ∧ s.memClean = true) ∨ (commonsBase ≤ a ∧ a + k ≤ secBase ∧ s.memc.commonsBad = [] ∧ u = .none); (s.reaches h = true) ∧ (0 < n) ∧ (o + n ≤ winSize) ∧ (opens n) ∧ (u = .none ∨ u = .single) ∧ (0 < len) ∧ (o + len ≤ winSize) ∧ (opens len) ∧ (s.isOwner h = true)))))) ∧
    (let s := (st [(rk pgSys 0x104, 1), (rk (pgPort 0) 0x108, 0x00000000), (rk (pgPort 0) 0x10C, 0)]); let s : State := (s.setBytes 0x1000 (leBytes 100 (2^790-12345))); let h : Fin 2 := 0; let o : Nat := 0x1000; let n : Nat := 64; let bs : List Byte := (leBytes 64 (2^790-99999)); let u : Upset := ((allU)[2]'(by decide)); let pg := pgPort h; (let base := s.fld (rk pg 0x108) 31 30 * 2 ^ 30 + s.fld (rk pg 0x10C) 15 0 * 2 ^ 32; (let a := base + o; (let len := bs.length; (let opens (k : Nat) := (a + k ≤ lpddrEnd ∧ s.memClean = true) ∨ (commonsBase ≤ a ∧ a + k ≤ secBase ∧ s.memc.commonsBad = [] ∧ u = .none); (s.reaches h = true) ∧ (0 < n) ∧ (o + n ≤ winSize) ∧ (opens n) ∧ (u = .double ∨ u = .address) ∧ (0 < len) ∧ (o + len ≤ winSize) ∧ (opens len) ∧ (s.isOwner h = false)))))) ∧
    (let s := (st [(rk pgSys 0x104, 0), (rk (pgPort 0) 0x108, 0xC0000000), (rk (pgPort 0) 0x10C, 0x1D)]); let s : State := (s.setBytes 0x1000 (leBytes 100 (2^790-12345))); let h : Fin 2 := 0; let o : Nat := 0x3FFFFFF0; let n : Nat := 17; (s.reaches h = true) ∧ (n = 0 ∧ o < winSize ∨ o < winSize ∧ winSize < o + n)) ∧
    (let s := (st [(rk pgSys 0x104, 0)]).setPort 0 { link := true, inReset := false, msixPend := [63] }; let h : Fin 2 := 0; let v : Fin 64 := 63; let w : Word := 2; let q := s.portAt h; (s.reaches h = true) ∧ (v.val ∈ q.msixPend) ∧ (w.getLsbD 0 = false)) ∧
    (let s := (st [(rk pgSys 0x104, 0), (rk (pgPort 0) 0x108, 0), (rk (pgPort 0) 0x10C, 0x100)]); let s : State := (s.setBytes 0x1000 (leBytes 100 (2^790-12345))); let h : Fin 2 := 0; let o : Nat := 0x3F00000; let n : Nat := 8; let pg := pgPort h; (let base := s.fld (rk pg 0x108) 31 30 * 2 ^ 30 + s.fld (rk pg 0x10C) 15 0 * 2 ^ 32; (let a := base + o; (s.reaches h = true) ∧ (0 < n) ∧ (o + n ≤ winSize) ∧ (secBase ≤ a) ∧ (a + n ≤ commonsEnd) ∧ (s.secGranted (portMaster h) false = false)))) ∧
    (let s := (st [(rk pgSys 0x104, 0), (rk (pgPort 0) 0x108, 0), (rk (pgPort 0) 0x10C, 0)]); let s : State := (s.setBytes 0x1000 (leBytes 100 (2^790-12345))); let h : Fin 2 := 0; let o : Nat := 0x1005; let bs : List Byte := (leBytes 3 (2^790-99999)); let u : Upset := ((allU)[2]'(by decide)); let pg := pgPort h; (let base := s.fld (rk pg 0x108) 31 30 * 2 ^ 30 + s.fld (rk pg 0x10C) 15 0 * 2 ^ 32; (let a := base + o; (let len := bs.length; (let opens (k : Nat) := (a + k ≤ lpddrEnd ∧ s.memClean = true) ∨ (commonsBase ≤ a ∧ a + k ≤ secBase ∧ s.memc.commonsBad = [] ∧ u = .none); (s.reaches h = true) ∧ (0 < len) ∧ (o + len ≤ winSize) ∧ (opens len) ∧ (s.isOwner h = true) ∧ (u = .double) ∧ (a % 32 ≠ 0 ∨ len < 32)))))) := by refine ⟨?_, ?_, ?_, ?_, ?_, ?_⟩ <;> decide +kernel

/-- The hypotheses of Obligations.WindowAndDebugPortReach are met (its part DebugReachesItsPage). -/
theorem witness_DebugReachesItsPage :
    (let s := st [(rk pgPwr 0x128, 0x3FFF), (rk 0x11 0x10, 2)]; let s : State := {s with sec := {s.sec with unlock := if true then some (7, 99) else none}}; let o : Nat := 0; let v : Word := 2; let p : Fin 64 := (0x11 : Fin 64); let may := s.tapOn = true ∧ s.scopeOk 1 = true; (may) ∧ (o < 0x1000) ∧ (o % 4 = 0) ∧ (s.scopeOk 2 = true) ∧ (v.getLsbD 1 = true) ∧ (s.bit (rk pgDbg 0x104) 1 = false) ∧ ((pageKind p).any pageHalt = true)) ∧
    (let s := st [(rk pgPwr 0x128, 0), (rk 0x11 0x10, 2)]; let s : State := {s with sec := {s.sec with unlock := if true then some (7, 99) else none}}; let may := s.tapOn = true ∧ s.scopeOk 1 = true; (¬ may)) := by refine ⟨?_, ?_⟩ <;> decide +kernel

end G13

namespace G14

def regsOf (s : State) (l : List (Nat × Nat)) : State := l.foldl (fun s e => s.wrN e.1 e.2) s
def up (s : State) : State := (s.setPort 0 { link := true, inReset := false }).setPort 1 { link := true, inReset := false }
def st (l : List (Nat × Nat)) : State := up (regsOf State.reset ([(rk pgStream 0x10, 2), (rk pgStream 0x108, 3),(rk pgStream 0x100, 0x1F)] ++ l))
def sf (l : List (Nat × Nat)) (f : Safe) : State := let s := st ([(rk pgSafe 0x100, 3), (rk pgPwr 0x130, 1), (rk pgPwr 0x128, 0x3FFF), (rk pgClk 0x100, 0x3FFFFF)] ++ l); {s with safe := f, time := {s.time with tb0 := 123456}, pwr := {s.pwr with stage := .idle}, sec := {s.sec with fuses := {s.sec.fuses with lifecycle := 2}}}
def pgl : List (Fin 64) := [5, 0x11, 0x0C, 0x0F, 0x07, 0x08, 0x0D, 0x14, 0x17, 0x20, 0x03, 0x1D, 0x06, 0x02, 0x10, 9, 0]

/-- The hypotheses of Obligations.RollCallRoundRuns are met. -/
theorem witness_RollCallRoundRuns :
    (let s : State := (sf [(rk pgSafe 0x100, 0), (rk (((pgl)[0]'(by decide)) : Fin 64) 0xC, 0), (rk pgSafe 0x104, 3), (rk pgPwr 0x104, 0)] {round := 0, roundOpen := true, roundAt := 0, clean := [(0, none)]}); let p : Fin 64 := (((pgl)[0]'(by decide)) : Fin 64); let r : RcFail := RcFail.noAnswer; let h : Fin 2 := 0; let f := s.safe; (let due := s.roundsRun = true ∧ f.roundOpen = false ∧ (f.round = 0 ∨ f.roundAt + 10000 ≤ s.time.tb0); (let closes := f.roundOpen = true ∧ f.roundAt + 2000 ≤ s.time.tb0; (let device := ¬ (0x12 ≤ p.val ∧ p.val ≤ 0x17) ∧ p.val ∉ [pgTT, pgChain, pgEgo, pgDbg, 8, 9]; (¬ due) ∧ (closes) ∧ (f.inject = none) ∧ (s.noCause h = false) ∧ (s.inRollCall p = true) ∧ (¬ (p.val = pgTime ∧ r = .status)) ∧ (device) ∧ (s.halted p = false))))) ∧
    (let s : State := (sf [(rk pgSafe 0x100, 0), (rk (((pgl)[0]'(by decide)) : Fin 64) 0xC, 2), (rk pgSafe 0x104, 3), (rk pgPwr 0x104, 0)] {round := 0, roundOpen := false, roundAt := 0, clean := [(0, none)]}); let p : Fin 64 := (((pgl)[0]'(by decide)) : Fin 64); let f := s.safe; (let due := s.roundsRun = true ∧ f.roundOpen = false ∧ (f.round = 0 ∨ f.roundAt + 10000 ≤ s.time.tb0); (let closes := f.roundOpen = true ∧ f.roundAt + 2000 ≤ s.time.tb0; (due) ∧ (¬ closes) ∧ (s.inRollCall p = false ∨ s.halted p = true)))) ∧
    (let s : State := (sf [(rk pgSafe 0x100, 1), (rk (((pgl)[0]'(by decide)) : Fin 64) 0xC, 0), (rk pgSafe 0x104, 3), (rk pgPwr 0x104, 0)] {round := 5, roundOpen := true, roundAt := 113455, clean := [(0, (some 5))]}); let h : Fin 2 := 0; let c : Nat := ((some 5).getD 0); let f := s.safe; (let closes := f.roundOpen = true ∧ f.roundAt + 2000 ≤ s.time.tb0; (closes) ∧ (f.inject = none) ∧ (SMap.get (fun _ => none) f.clean h = some c) ∧ (c ≤ f.round) ∧ (s.noCause h = true))) := by refine ⟨?_, ?_, ?_⟩ <;> decide +kernel

/-- The hypotheses of Obligations.FaultIsClassified are met. -/
theorem witness_FaultIsClassified :
    (let s : State := sf [(rk pgTT 0x10, 2)] {}; let p : Fin 64 := 12; let b : BitVec 8 := 2; (s.safe.inbox = []) ∧ (s.blk p ≠ stOff) ∧ ((p.val, b.toNat) ∈ [(pgFab, 2), (pgTT, 1), (pgTT, 2), (pgTrk, 1), (pgTime, 1), (pgGrid, 0), (pgStream, 0), (8, 0), (9, 0), (pgChain, 0), (pgChain, 1), (pgEgo, 0), (pgEgo, 1)])) ∧
    (let s : State := sf [(rk pgSec 0x10, 2)] {}; let p : Fin 64 := 4; let b : BitVec 8 := 1; (s.safe.inbox = []) ∧ (s.blk p ≠ stOff) ∧ ((p.val, b.toNat) ∈ [(pgPwr, 0), (pgSec, 0), (pgSec, 1), (pgSafe, 0), (pgSafe, 1)])) ∧
    (let s : State := sf [(rk (pgEng 5) 0x10, 2)] {}; let p : Fin 64 := 0x17; let b : BitVec 8 := 0x80; (s.safe.inbox = []) ∧ (s.blk p ≠ stOff) ∧ (0x12 ≤ p.val) ∧ (p.val < 0x18) ∧ (b = 0x80)) ∧
    (let s : State := (sf [(rk pgSafe 0x110, 0), (rk (pgEng 5) 0x10, 2)] {inbox := [{source := 1, page := 0x11, bit := 4, inst := 0, fus := 0x123456789AB, step := 9}, {source := 3, page := 2, bit := 1, inst := 3, fus := 4, step := 2}]}); let f : FaultIn := {source := 1, page := 0x11, bit := 4, inst := 0, fus := 0x123456789AB, step := 9}; let fs : List FaultIn := [{source := 3, page := 2, bit := 1, inst := 3, fus := 4, step := 2}]; let c := s.faultClass f; (s.safe.inbox = f :: fs) ∧ (f.charged < 64) ∧ (f.source < 5) ∧ (s.bit (rk pgSafe 0x110) 31 = false) ∧ (c.cls = 2) ∧ (f.source = 1) ∧ (f.page = pgFab) ∧ (c.func = true) ∧ (f.inst < 1024)) ∧
    (let s : State := (sf [(rk pgSafe 0x110, 0x80000000), (rk (pgEng 5) 0x10, 2)] {inbox := [{source := 3, page := 0x11, bit := 0, inst := 0, fus := 0x123456789AB, step := 9}, {source := 3, page := 2, bit := 1, inst := 3, fus := 4, step := 2}]}); let f : FaultIn := {source := 3, page := 0x11, bit := 0, inst := 0, fus := 0x123456789AB, step := 9}; let fs : List FaultIn := [{source := 3, page := 2, bit := 1, inst := 3, fus := 4, step := 2}]; let c := s.faultClass f; (s.safe.inbox = f :: fs) ∧ (f.charged < 64) ∧ (f.source < 5) ∧ (s.bit (rk pgSafe 0x110) 31 = true) ∧ (c.cls = 3) ∧ (f.source = 3)) ∧
    (let s : State := (sf [(rk pgSafe 0x110, 0), (rk (pgEng 5) 0x10, 2)] {inbox := [{source := 4, page := 0x11, bit := 0, inst := 0, fus := 0x123456789AB, step := 9}, {source := 3, page := 2, bit := 1, inst := 3, fus := 4, step := 2}]}); let f : FaultIn := {source := 4, page := 0x11, bit := 0, inst := 0, fus := 0x123456789AB, step := 9}; let fs : List FaultIn := [{source := 3, page := 2, bit := 1, inst := 3, fus := 4, step := 2}]; let c := s.faultClass f; (s.safe.inbox = f :: fs) ∧ (f.charged < 64) ∧ (f.source < 5) ∧ (c.cls = 1) ∧ (f.source = 4)) ∧
    (let s : State := (sf [(rk pgSafe 0x110, 0), (rk (pgEng 5) 0x10, 2)] {inbox := [{source := 0, page := 0x11, bit := 1, inst := (1024+99), fus := 0x123456789AB, step := 9}, {source := 3, page := 2, bit := 1, inst := 3, fus := 4, step := 2}]}); let f : FaultIn := {source := 0, page := 0x11, bit := 1, inst := (1024+99), fus := 0x123456789AB, step := 9}; let fs : List FaultIn := [{source := 3, page := 2, bit := 1, inst := 3, fus := 4, step := 2}]; let c := s.faultClass f; (s.safe.inbox = f :: fs) ∧ (f.charged < 64) ∧ (f.source < 5) ∧ (f.page = pgFab) ∧ (c.func = true) ∧ (1024 ≤ f.inst) ∧ (f.inst < 2048) ∧ (s.rtrFenced (f.inst - 1024) = false)) ∧
    (let s : State := (sf [(rk pgSafe 0x110, 0), (rk (pgEng 5) 0x10, 2)] {inbox := [{source := 1, page := 0x12, bit := 0, inst := 0, fus := 0x123456789AB, step := 9}, {source := 3, page := 2, bit := 1, inst := 3, fus := 4, step := 2}]}); let f : FaultIn := {source := 1, page := 0x12, bit := 0, inst := 0, fus := 0x123456789AB, step := 9}; let fs : List FaultIn := [{source := 3, page := 2, bit := 1, inst := 3, fus := 4, step := 2}]; let engine := 0x12 ≤ f.page ∧ f.page ≤ 0x17; (s.safe.inbox = f :: fs) ∧ (f.charged < 64) ∧ (f.source < 5) ∧ (f.source = 1) ∧ (engine)) ∧
    (let s : State := (sf [(rk pgSafe 0x110, 0), (rk (pgEng 5) 0x10, 2)] {inbox := [{source := 1, page := 0xC, bit := 0, inst := 0, fus := 0x123456789AB, step := 9}, {source := 3, page := 2, bit := 1, inst := 3, fus := 4, step := 2}]}); let f : FaultIn := {source := 1, page := 0xC, bit := 0, inst := 0, fus := 0x123456789AB, step := 9}; let fs : List FaultIn := [{source := 3, page := 2, bit := 1, inst := 3, fus := 4, step := 2}]; (s.safe.inbox = f :: fs) ∧ (f.charged < 64) ∧ (f.source < 5) ∧ (f.source = 1) ∧ (f.page ∈ [pgTT, pgChain, pgEgo, pgDbg])) ∧
    (let s : State := (sf [(rk pgSafe 0x110, 0), (rk (pgEng 5) 0x10, 2)] {inbox := [{source := 1, page := 0xD, bit := 0, inst := 0, fus := 0x123456789AB, step := 9}, {source := 3, page := 2, bit := 1, inst := 3, fus := 4, step := 2}]}); let f : FaultIn := {source := 1, page := 0xD, bit := 0, inst := 0, fus := 0x123456789AB, step := 9}; let fs : List FaultIn := [{source := 3, page := 2, bit := 1, inst := 3, fus := 4, step := 2}]; let engine := 0x12 ≤ f.page ∧ f.page ≤ 0x17; (let port := f.page = 8 ∨ f.page = 9; (s.safe.inbox = f :: fs) ∧ (f.charged < 64) ∧ (f.source < 5) ∧ (f.source = 1) ∧ (¬ engine) ∧ (¬ port) ∧ (f.page ∉ [pgFab, pgTT, pgChain, pgEgo, pgDbg]))) ∧
    (let s : State := (sf [(rk pgSafe 0x110, 0), (rk (pgEng 5) 0x10, 2)] {inbox := [{source := 1, page := 0x08, bit := 0, inst := 0, fus := 0x123456789AB, step := 9}, {source := 3, page := 2, bit := 1, inst := 3, fus := 4, step := 2}]}); let f : FaultIn := {source := 1, page := 0x08, bit := 0, inst := 0, fus := 0x123456789AB, step := 9}; let fs : List FaultIn := [{source := 3, page := 2, bit := 1, inst := 3, fus := 4, step := 2}]; let port := f.page = 8 ∨ f.page = 9; (s.safe.inbox = f :: fs) ∧ (f.charged < 64) ∧ (f.source < 5) ∧ (f.source = 1 ∨ f.source = 2) ∧ (port)) := by refine ⟨?_, ?_, ?_, ?_, ?_, ?_, ?_, ?_, ?_, ?_, ?_⟩ <;> decide +kernel

/-- The hypotheses of Obligations.MonitorsWatchClocksRailsAndLinks are met (its part MonitorsWatch). -/
theorem witness_MonitorsWatch :
    (let s := (sf [(rk pgSafe 0x104, 0), (rk (pgEng 4) 0x128, 0), (rk pgClk 0x100, 0), (rk pgPwr 0x104, if 0=2 then 0 else 0)] {clkRun := [((0 : Fin 22).val,0)]}); let s : State := s; let khz : List (Option Nat) := (List.replicate (0 : Fin 22).val none ++ [none]); let d : Fin 22 := (0 : Fin 22); let k : Option Nat := none; let n : Fin 14 := 2; let p : Int × Int := (if 0 = 0 then (-140,-20) else (50, 90)); let ps : List (Int × Int) := [(20, if 0 = 0 then 109 else 110), (4,9)]; let set_ := s.setKhz d; (let far := 20 * k.getD 0 < 19 * set_ ∨ 21 * set_ < 20 * k.getD 0; (let runs := SMap.get (fun _ => 0) s.safe.clkRun d; (let trips := s.bit (rk pgPwr 0x128) n = true ∧ ¬ (n.val = 2 ∧ (s.margin = 1 ∨ s.margin = 3)); (let hot := ps.foldl (fun m e => max m (max e.1 e.2)) (max p.1 p.2); (khz[d.val]? = some k) ∧ (s.watched d = true) ∧ (s.safe.clkAt ≤ s.nsNow / 2000) ∧ (runs < 2) ∧ (k = none ∨ (far ∧ runs = 1)) ∧ (trips) ∧ (¬ (s.pwr.stage = .stopped ∧ s.depth = 3)) ∧ (s.safe.tempAt ≤ s.nsNow / 5000) ∧ (hot < 110)))))) ∧
    (let s := (sf [(rk pgSafe 0x104, 3), (rk (pgEng 4) 0x128, 3), (rk pgClk 0x100, 0), (rk pgPwr 0x104, if 0=2 then 0 else 3)] {clkRun := [((0 : Fin 22).val,0)]}); let s : State := s; let d : Fin 22 := (0 : Fin 22); let n : Fin 14 := 2; let h : Fin 2 := 0; let trips := s.bit (rk pgPwr 0x128) n = true ∧ ¬ (n.val = 2 ∧ (s.margin = 1 ∨ s.margin = 3)); (s.watched d = false) ∧ (¬ trips) ∧ (let s : State := {s with safe := {s.safe with clkAt := 10 ^ 12, tempAt := 10 ^ 12}}; (s.nsNow / 2000 < s.safe.clkAt) ∧ (s.nsNow / 5000 < s.safe.tempAt)) ∧ (s.bit (rk pgSafe 0x104) h = true)) ∧
    (let s := (sf [(rk pgSafe 0x104, 0), (rk (pgEng 4) 0x128, 0), (rk pgClk 0x100, 0), (rk pgPwr 0x104, if 0=2 then 0 else 0)] {clkRun := [((0 : Fin 22).val,0)]}); let s : State := s; let khz : List (Option Nat) := (List.replicate (0 : Fin 22).val none ++ [(some 50000)]); let d : Fin 22 := (0 : Fin 22); let k : Option Nat := (some 50000); let set_ := s.setKhz d; (let far := 20 * k.getD 0 < 19 * set_ ∨ 21 * set_ < 20 * k.getD 0; (let runs := SMap.get (fun _ => 0) s.safe.clkRun d; (khz[d.val]? = some k) ∧ (s.watched d = true) ∧ (s.safe.clkAt ≤ s.nsNow / 2000) ∧ (k ≠ none) ∧ (¬ far ∨ runs = 0)))) := by refine ⟨?_, ?_, ?_⟩ <;> decide +kernel

/-- The hypotheses of Obligations.SafeTakesItsCommands are met. -/
theorem witness_SafeTakesItsCommands :
    (let s := sf [(rk pgSafe 0x10, 1), (rk pgSys 0x104, 0), (copyKey 0 pgSafe 0x30, 0x11+256), (copyKey 0 pgSafe 0x34, 0), (copyKey 0 pgSafe 0x38, 0x10045), (rk pgFab 0x10, 1), (rk pgSafe 0x210, 0), (rk pgSafe 0x110, 6), (rk pgSafe 0x11C, 6)] {fabTested := true}; let s : State := {s with sec := {s.sec with fuses := {s.sec.fuses with lifecycle := 1}}}; let h : Fin 2 := 0; let page := s.hostArg h pgSafe 0 % 256; (let kind := s.hostArg h pgSafe 1 % 4; (let develop := s.sec.fuses.lifecycle = 1; (let fits := kind ≠ 0 ∧ s.inRollCall page = true; (let none_ := s.coreFences = 0 ∧ s.rtrFences = 0; (s.issues h pgSafe = true) ∧ (develop) ∧ (¬ fits) ∧ (none_)))))) ∧
    (let s := sf [(rk pgSafe 0x10, 1), (rk pgSys 0x104, 0), (copyKey 0 pgSafe 0x30, 0x11+256), (copyKey 0 pgSafe 0x34, 0), (copyKey 0 pgSafe 0x38, 0x10045), (rk pgFab 0x10, 1), (rk pgSafe 0x210, 4), (rk pgSafe 0x110, 6), (rk pgSafe 0x11C, 6)] {fabTested := true}; let s : State := {s with sec := {s.sec with fuses := {s.sec.fuses with lifecycle := 2}}}; let h : Fin 2 := 0; let develop := s.sec.fuses.lifecycle = 1; (let none_ := s.coreFences = 0 ∧ s.rtrFences = 0; (let lifts := s.blk pgFab = stIdle ∧ s.safe.fabTested = true; (s.issues h pgSafe = true) ∧ (¬ develop) ∧ (¬ none_) ∧ (lifts)))) ∧
    (let s := sf [(rk pgSafe 0x10, 1), (rk pgSys 0x104, 0), (copyKey 0 pgSafe 0x30, 0x11+256), (copyKey 0 pgSafe 0x34, 1), (copyKey 0 pgSafe 0x38, 0x10045), (rk pgFab 0x10, 1), (rk pgSafe 0x210, 4), (rk pgSafe 0x110, 6), (rk pgSafe 0x11C, 6)] {fabTested := false}; let s : State := {s with sec := {s.sec with fuses := {s.sec.fuses with lifecycle := 1}}}; let h : Fin 2 := 0; let page := s.hostArg h pgSafe 0 % 256; (let kind := s.hostArg h pgSafe 1 % 4; (let develop := s.sec.fuses.lifecycle = 1; (let fits := kind ≠ 0 ∧ s.inRollCall page = true; (let none_ := s.coreFences = 0 ∧ s.rtrFences = 0; (let lifts := s.blk pgFab = stIdle ∧ s.safe.fabTested = true; (s.issues h pgSafe = true) ∧ (develop) ∧ (fits) ∧ (kind ≠ 3) ∧ (¬ none_) ∧ (¬ lifts))))))) ∧
    (let s := sf [(rk pgSafe 0x10, 1), (rk pgSys 0x104, 0), (copyKey 0 pgSafe 0x30, 0x11+256), (copyKey 0 pgSafe 0x34, 3), (copyKey 0 pgSafe 0x38, 0x10045), (rk pgFab 0x10, 1), (rk pgSafe 0x210, 0), (rk pgSafe 0x110, 6), (rk pgSafe 0x11C, 6)] {fabTested := true}; let s : State := {s with sec := {s.sec with fuses := {s.sec.fuses with lifecycle := 1}}}; let h : Fin 2 := 0; let page := s.hostArg h pgSafe 0 % 256; (let kind := s.hostArg h pgSafe 1 % 4; (let develop := s.sec.fuses.lifecycle = 1; (let fits := kind ≠ 0 ∧ s.inRollCall page = true; (s.issues h pgSafe = true) ∧ (develop) ∧ (fits) ∧ (kind = 3))))) := by refine ⟨?_, ?_, ?_, ?_⟩ <;> decide +kernel

end G14

namespace G15

def regsOf (s : State) (l : List (Nat × Nat)) : State := l.foldl (fun s e => s.wrN e.1 e.2) s
def up (s : State) : State := (s.setPort 0 { link := true, inReset := false }).setPort 1 { link := true, inReset := false }
def st (l : List (Nat × Nat)) : State := up (regsOf State.reset ([(rk pgStream 0x10, 2), (rk pgStream 0x108, 3),(rk pgStream 0x100, 0x1F)] ++ l))
def pw (l : List (Nat × Nat)) (u : Power) : State := let s := st ([(rk pgSafe 0x100, 3), (rk pgSafe 0x104, 3), (rk pgPwr 0x130, 1), (rk pgPwr 0x128, 0x3FFF), (rk pgClk 0x100, 0x3FFFFF), (rk pgPwr 0x10,1)] ++ l); {s with time := {s.time with tb0 := 2123456789, fus := 400000*2^40}, pwr := u, sec := {s.sec with fuses := {s.sec.fuses with lifecycle := 2}}}
def qs : List (Fin 64) := [0x0D, 0x11, 0x16, 0x20, 0x3F, 3, 0, 0x05, 0x3E, 0x0E]
def sts : List PwrStage := [.idle,.quiesce,.drain,.commit,.stopped,.rails,.plls,.train,.links,.restore,.enable,.awaitCoolant,.awaitRef,.railUp 0,.railUp 4,.railUp 5]

/-- The hypotheses of Obligations.StopOrWakeIsAskedFor are met (its part StopIsRequested). -/
theorem witness_StopIsRequested :
    (let s : State := (pw [(copyKey (0 : Fin 2) pgPwr 0x30, 40), (rk pgPwr 0x100, 0), (rk pgPwr 0x104, 0), (rk pgSys 0x104, 0)] {}); let h : Fin 2 := (0 : Fin 2); let w := s.hostArg h pgPwr 0; (let fits (e : Nat) := e ≤ s.fld (rk pgPwr 0x100) 3 2 ∧ (if e = 3 then w = 0xFFFFFFFF else [50, 3000, 80000].getD e 0 ≤ w); (s.reaches h = true) ∧ (s.slotTakes pgPwr = true) ∧ ((∀ e ∈ List.range 4, ¬ fits e)) ∧ (s.isOwner h = true))) ∧
    (let s : State := (pw [(copyKey (1 : Fin 2) pgPwr 0x30, 50), (rk pgPwr 0x100, 0), (rk pgPwr 0x104, 0), (rk pgSys 0x104, 0)] {}); let h : Fin 2 := (1 : Fin 2); let d : Fin 4 := (0 : Fin 4); let w := s.hostArg h pgPwr 0; (let fits (e : Nat) := e ≤ s.fld (rk pgPwr 0x100) 3 2 ∧ (if e = 3 then w = 0xFFFFFFFF else [50, 3000, 80000].getD e 0 ≤ w); (s.reaches h = true) ∧ (s.slotTakes pgPwr = true) ∧ (fits d) ∧ ((∀ e ∈ List.range 4, d.val < e → ¬ fits e)) ∧ (s.pwrState = 0) ∧ (s.isOwner h = false))) ∧
    (let s : State := (pw [(copyKey (0 : Fin 2) pgPwr 0x30, 50), (rk pgPwr 0x100, 0), (rk pgPwr 0x104, 0x21), (rk pgSys 0x104, 0)] {}); let h : Fin 2 := (0 : Fin 2); let d : Fin 4 := (0 : Fin 4); let w := s.hostArg h pgPwr 0; (let fits (e : Nat) := e ≤ s.fld (rk pgPwr 0x100) 3 2 ∧ (if e = 3 then w = 0xFFFFFFFF else [50, 3000, 80000].getD e 0 ≤ w); (let k := rk pgPwr 0x104; (s.reaches h = true) ∧ (s.slotTakes pgPwr = true) ∧ (fits d) ∧ ((∀ e ∈ List.range 4, d.val < e → ¬ fits e)) ∧ (s.pwrState ≠ 0) ∧ (s.bit k 5 = true)))) := by refine ⟨?_, ?_, ?_⟩ <;> decide +kernel

/-- The hypotheses of Obligations.StopIsEnteredOrRefused are met (its part StopEntryBeginsOrIsRefused). -/
theorem witness_StopEntryBeginsOrIsRefused :
    (let s := pw [(rk 0x16 0x10, 2), (rk (pgGrid) 0x10, 2), (rk pgTT 0x2C, 0), (rk (((qs)[0]'(by decide)) : Fin 64) 0x10, 1), (rk (((qs)[0]'(by decide)) : Fin 64) 0x2C, 0), (rk pgPwr 0x104, 0 + 0x60), (rk pgPwr 0x110, 10), (rk pgPwr 0x204, 0xFF00)] {stage := PwrStage.idle, request := none, refusedBy := none, entryAt := 2123456789 - 20000, wasRunning := if 0 = 0 then [(((qs)[0]'(by decide)) : Fin 64).val, 0x0D] else [0xD,0x3E], pend := some {depth := 3, cause := 0, twake := 9}}; let s := if false then s.wrN (rk 0x0D 0x10) 3 else s; let s : State := s; let p : Fin 64 := (match (none : Option (Nat × Nat × Bool)) with | some e => (Fin.ofNat 64 e.1) | none => if (((qs)[0]'(by decide)) : Fin 64).val = 0x11 then (((qs)[0]'(by decide)) : Fin 64) else 0x0D); let u := s.pwr; (let waits := u.stage = .quiesce ∧ u.refusedBy = none; (let ready := ∀ x ∈ allPages, s.notReady x = false; (let late := s.notReady p = true ∧ u.entryAt + s.fld (rk pgPwr 0x110) 9 0 * 1000 ≤ s.nsNow; (u.request = none ∨ s.pwrState ≠ 0 ∨ u.stage ≠ .idle) ∧ (¬ (waits ∧ ready)) ∧ (¬ (waits ∧ late)) ∧ (u.refusedBy = none))))) ∧
    (let s := pw [(rk 0x16 0x10, 2), (rk (pgGrid) 0x10, 2), (rk pgTT 0x2C, 0), (rk (((qs)[0]'(by decide)) : Fin 64) 0x10, 1), (rk (((qs)[0]'(by decide)) : Fin 64) 0x2C, 0), (rk pgPwr 0x104, 0 + 0x60), (rk pgPwr 0x110, 10), (rk pgPwr 0x204, 0xFF00)] {stage := PwrStage.idle, request := (some ({depth := 2, cause := 0, twake := 99} : StopReq)), refusedBy := (some (0x0D,1,false)), entryAt := 2123456789 - 20000, wasRunning := if 0 = 0 then [(((qs)[0]'(by decide)) : Fin 64).val, 0x0D] else [0xD,0x3E], pend := some {depth := 3, cause := 0, twake := 9}}; let s := if (some ({depth := 2, cause := 0, twake := 99} : StopReq)).isNone && 0 = 1 then s.wrN (rk 0x0D 0x10) 3 else s; let s : State := s; let r : StopReq := ((some ({depth := 2, cause := 0, twake := 99} : StopReq)).getD {depth := 1, cause := 1, twake := 0}); let q : Fin 64 := (((qs)[0]'(by decide)) : Fin 64); let p : Fin 64 := (match (some (0x0D,1,false)) with | some e => (Fin.ofNat 64 e.1) | none => if (((qs)[0]'(by decide)) : Fin 64).val = 0x11 then (((qs)[0]'(by decide)) : Fin 64) else 0x0D); let c : Nat := (match (some (0x0D,1,false)) with | some e => e.2.1 | none => 0); let abort : Bool := (match (some (0x0D,1,false)) with | some e => e.2.2 | none => false); let u := s.pwr; (let asked := quiescePages.contains q.val = true; (u.request = some r) ∧ (s.pwrState = 0) ∧ (u.stage = .idle) ∧ (r.depth < 4) ∧ (r.cause < 8) ∧ (q.val ≠ pgSys) ∧ (s.running q = false ∨ asked = false) ∧ (u.refusedBy = some (p.val, c, abort)) ∧ (c < 256) ∧ (asked) ∧ (q.val ∈ u.wasRunning) ∧ (q.val ≠ pgFab))) ∧
    (let s := pw [(rk 0x16 0x10, 2), (rk (pgGrid) 0x10, 2), (rk pgTT 0x2C, 0), (rk (((qs)[0]'(by decide)) : Fin 64) 0x10, 1), (rk (((qs)[0]'(by decide)) : Fin 64) 0x2C, 0), (rk pgPwr 0x104, 0 + 0x60), (rk pgPwr 0x110, 10), (rk pgPwr 0x204, 0xFF00)] {stage := .quiesce, request := none, refusedBy := none, entryAt := 2123456789 - 20000, wasRunning := if 0 = 0 then [(((qs)[0]'(by decide)) : Fin 64).val, 0x0D] else [0xD,0x3E], pend := some {depth := 3, cause := 0, twake := 9}}; let s := if false then s.wrN (rk 0x0D 0x10) 3 else s; let s : State := s; let u := s.pwr; (let waits := u.stage = .quiesce ∧ u.refusedBy = none; (let ready := ∀ x ∈ allPages, s.notReady x = false; (waits) ∧ (ready)))) ∧
    (let s := pw [(rk 0x16 0x10, 2), (rk (pgGrid) 0x10, 2), (rk pgTT 0x2C, 0), (rk (((qs)[0]'(by decide)) : Fin 64) 0x10, 3), (rk (((qs)[0]'(by decide)) : Fin 64) 0x2C, 0), (rk pgPwr 0x104, 0 + 0x60), (rk pgPwr 0x110, 10), (rk pgPwr 0x204, 0xFF00)] {stage := .quiesce, request := none, refusedBy := none, entryAt := 2123456789 - 20000, wasRunning := if 0 = 0 then [(((qs)[0]'(by decide)) : Fin 64).val, 0x0D] else [0xD,0x3E], pend := some {depth := 3, cause := 0, twake := 9}}; let s := if false then s.wrN (rk 0x0D 0x10) 3 else s; let s : State := s; let p : Fin 64 := (match (none : Option (Nat × Nat × Bool)) with | some e => (Fin.ofNat 64 e.1) | none => if (((qs)[0]'(by decide)) : Fin 64).val = 0x11 then (((qs)[0]'(by decide)) : Fin 64) else 0x0D); let u := s.pwr; (let waits := u.stage = .quiesce ∧ u.refusedBy = none; (let late := s.notReady p = true ∧ u.entryAt + s.fld (rk pgPwr 0x110) 9 0 * 1000 ≤ s.nsNow; (waits) ∧ (late)))) ∧
    (let s := pw [(rk 0x16 0x10, 2), (rk (pgGrid) 0x10, 2), (rk pgTT 0x2C, 0), (rk (((qs)[0]'(by decide)) : Fin 64) 0x10, 2), (rk (((qs)[0]'(by decide)) : Fin 64) 0x2C, 0), (rk pgPwr 0x104, 0 + 0x60), (rk pgPwr 0x110, 10), (rk pgPwr 0x204, 0xFF00)] {stage := PwrStage.idle, request := (some ({depth := 2, cause := 0, twake := 99} : StopReq)), refusedBy := none, entryAt := 2123456789 - 20000, wasRunning := if 0 = 0 then [(((qs)[0]'(by decide)) : Fin 64).val, 0x0D] else [0xD,0x3E], pend := some {depth := 3, cause := 0, twake := 9}}; let s := if (some ({depth := 2, cause := 0, twake := 99} : StopReq)).isNone && 0 = 1 then s.wrN (rk 0x0D 0x10) 3 else s; let s : State := s; let r : StopReq := ((some ({depth := 2, cause := 0, twake := 99} : StopReq)).getD {depth := 1, cause := 1, twake := 0}); let q : Fin 64 := (((qs)[0]'(by decide)) : Fin 64); let u := s.pwr; (let asked := quiescePages.contains q.val = true; (u.request = some r) ∧ (s.pwrState = 0) ∧ (u.stage = .idle) ∧ (r.depth < 4) ∧ (r.cause < 8) ∧ (asked) ∧ (s.running q = true) ∧ (s.refusal q = none))) := by refine ⟨?_, ?_, ?_, ?_, ?_⟩ <;> decide +kernel

/-- The hypotheses of Obligations.StopIsEnteredOrRefused are met (its part StopIsEntered). -/
theorem witness_StopIsEntered :
    (let s := (pw [(rk pgPwr 0x104, 1 + 2*4), (rk pgPwr 0x100, 0 + 8), (rk pgDbg 0x104, 0), (ringKey 0 0 0, 1), (ringKey 0 0 4, 20), (rk pgTT 0x10, 1)] {stage := .commit, refusedBy := none, drainAt := 2123456789, entryAt := 5}).setBytes 0x1000 [1,2,3]; let s := if true then {s with stream := {s.stream with offers := [{ring := 0, bytes := zeros 128, fus := 3, unchecked := false, warm := false}]}} else s; let s : State := s; let a : Nat := 0x1000; let u := s.pwr; (let over_ := s.drained = true ∨ u.drainAt + s.fld (rk pgPwr 0x114) 13 0 * 1000 ≤ s.nsNow; (let drains := u.stage = .drain ∧ u.refusedBy = none ∧ over_; (let commits := u.stage = .commit ∧ u.refusedBy = none; (¬ drains) ∧ (commits) ∧ (s.depth < 3) ∧ (s.pending? = false) ∧ (s.bit (rk pgPwr 0x100) 0 = false) ∧ (0 < s.depth) ∧ (s.depth = 2) ∧ (s.planes = []) ∧ (a < commonsBase) ∧ (s.depth ≠ 3))))) ∧
    (let s := (pw [(rk pgPwr 0x104, 1 + 0*4), (rk pgPwr 0x100, 0 + 8), (rk pgDbg 0x104, 0), (ringKey 0 0 0, 1), (ringKey 0 0 4, 20), (rk pgTT 0x10, 1)] {stage := .commit, refusedBy := none, drainAt := 2123456789, entryAt := 5}).setBytes 0x1000 [1,2,3]; let s := if true then {s with stream := {s.stream with offers := [{ring := 0, bytes := zeros 128, fus := 3, unchecked := false, warm := false}]}} else s; let s : State := s; let u := s.pwr; (let commits := u.stage = .commit ∧ u.refusedBy = none; (commits) ∧ (s.depth < 3) ∧ (s.pending? = false) ∧ (s.depth < 2) ∧ (s.depth = 0))) ∧
    (let s := (pw [(rk pgPwr 0x104, 1 + 2*4), (rk pgPwr 0x100, 0 + 8), (rk pgDbg 0x104, 0), (ringKey 0 0 0, 1), (ringKey 0 0 4, 20), (rk pgTT 0x10, 1)] {stage := PwrStage.drain, refusedBy := none, drainAt := 2123456789, entryAt := 5}).setBytes 0x1000 [1,2,3]; let s := if false then {s with stream := {s.stream with offers := [{ring := 0, bytes := zeros 128, fus := 3, unchecked := false, warm := false}]}} else s; let s : State := s; let u := s.pwr; (let over_ := s.drained = true ∨ u.drainAt + s.fld (rk pgPwr 0x114) 13 0 * 1000 ≤ s.nsNow; (let drains := u.stage = .drain ∧ u.refusedBy = none ∧ over_; (let commits := u.stage = .commit ∧ u.refusedBy = none; (drains) ∧ (¬ (s.depth = 2 ∧ s.thimumStopped = true)) ∧ (s.depth = 2) ∧ (¬ commits))))) ∧
    (let s := (pw [(rk pgPwr 0x104, 1 + 2*4), (rk pgPwr 0x100, 0 + 8), (rk pgDbg 0x104, 1), (ringKey 0 0 0, 1), (ringKey 0 0 4, 20), (rk pgTT 0x10, 1)] {stage := PwrStage.drain, refusedBy := none, drainAt := 2123456789, entryAt := 5}).setBytes 0x1000 [1,2,3]; let s := if false then {s with stream := {s.stream with offers := [{ring := 0, bytes := zeros 128, fus := 3, unchecked := false, warm := false}]}} else s; let s : State := s; let u := s.pwr; (let over_ := s.drained = true ∨ u.drainAt + s.fld (rk pgPwr 0x114) 13 0 * 1000 ≤ s.nsNow; (let drains := u.stage = .drain ∧ u.refusedBy = none ∧ over_; (drains) ∧ (s.depth = 2) ∧ (s.thimumStopped = true)))) ∧
    (let s := (pw [(rk pgPwr 0x104, 1 + 2*4), (rk pgPwr 0x100, 0 + 8), (rk pgDbg 0x104, 0), (ringKey 0 0 0, 1), (ringKey 0 0 4, 20), (rk pgTT 0x10, 1)] {stage := .commit, refusedBy := none, drainAt := 2123456789, entryAt := 5}).setBytes 0x010000000003 [1,2,3]; let s := if true then {s with stream := {s.stream with offers := [{ring := 0, bytes := zeros 128, fus := 3, unchecked := false, warm := false}]}} else s; let s : State := s; let a : Nat := 0x010000000003; let u := s.pwr; (let commits := u.stage = .commit ∧ u.refusedBy = none; (commits) ∧ (s.depth < 3) ∧ (s.pending? = false) ∧ (s.depth = 2) ∧ (s.planes = []) ∧ (commonsBase ≤ a) ∧ (a < 0x1000000000000))) := by refine ⟨?_, ?_, ?_, ?_, ?_⟩ <;> decide +kernel

/-- The hypotheses of Obligations.StopOrWakeIsAskedFor are met (its part WakeIsAskedFor). -/
theorem witness_WakeIsAskedFor :
    (let s := pw [(rk pgPwr 0x104, 0 + 0*4+0), (rk pgPwr 0x130, 0)] {stage := if 0 = 2 then .stopped else .idle, wakeFailed := true, heldRun := [0x3E, 0x38]}; let s : State := {s with sec := {s.sec with extest := true, unlock := if 0 = 0 then some (7, 999) else none}}; let v : Byte := 3; let h : Fin 2 := 1; let x : Word := (if 0 = 1 then 1 else 0); let u := s.pwr; (let off := s.pwrState = 2 ∧ u.wakeFailed = false ∧ s.depth = 3; (let opens := x.getLsbD 0 = true ∧ s.bit (rk pgPwr 0x104) 9 = true; (¬ off) ∧ (s.pwrState = 0 ∨ s.pwrState = 3 ∨ u.wakeFailed = true ∧ s.pwrState = 2) ∧ (u.wakeFailed = false ∨ v ≠ 0xA5) ∧ (u.wakeFailed = true) ∧ (s.reaches h = true) ∧ (¬ opens) ∧ (s.extestOk = true ∨ s.sec.extest = true) ∧ (u.relWait = false)))) ∧
    (let s := pw [(rk pgPwr 0x104, 0 + 0*4+0x200), (rk pgPwr 0x130, 0)] {stage := if 0 = 2 then .stopped else .idle, wakeFailed := true, heldRun := [0x3E, 0x38]}; let s : State := {s with sec := {s.sec with extest := false, unlock := if 0 = 0 then some (7, 999) else none}}; let h : Fin 2 := 1; let x : Word := (if 1 = 1 then 1 else 0); let q : Fin 64 := 0x3E; let u := s.pwr; (let opens := x.getLsbD 0 = true ∧ s.bit (rk pgPwr 0x104) 9 = true; (s.reaches h = true) ∧ (opens) ∧ (s.sec.extest = false) ∧ (s.pwrState = 0) ∧ (q.val ∈ u.heldRun) ∧ (q.val ∈ heldPages) ∧ (s.extestOk = false))) ∧
    (let s := pw [(rk pgPwr 0x104, 1 + 0*4+0x200), (rk pgPwr 0x130, 0)] {stage := if 1 = 2 then .stopped else .idle, wakeFailed := true, heldRun := [0x3E, 0x38]}; let s : State := {s with sec := {s.sec with extest := true, unlock := if 0 = 0 then some (7, 999) else none}}; let h : Fin 2 := 1; let x : Word := (if 1 = 1 then 1 else 0); let opens := x.getLsbD 0 = true ∧ s.bit (rk pgPwr 0x104) 9 = true; (s.pwrState = 1) ∧ (s.reaches h = true) ∧ (opens) ∧ (s.sec.extest = true)) ∧
    (let s := pw [(rk pgPwr 0x104, 2 + 0*4+0), (rk pgPwr 0x130, 0)] {stage := if 2 = 2 then .stopped else .idle, wakeFailed := false, heldRun := [0x3E, 0x38]}; let s : State := {s with sec := {s.sec with extest := true, unlock := if 0 = 0 then some (7, 999) else none}}; let u := s.pwr; (let asleep := s.pwrState = 2 ∧ u.wakeFailed = false ∧ s.depth < 3; (asleep) ∧ (s.coolantIn = false))) ∧
    (let s := pw [(rk pgPwr 0x104, 2 + 0*4+0), (rk pgPwr 0x130, 1)] {stage := if 2 = 2 then .stopped else .idle, wakeFailed := false, heldRun := [0x3E, 0x38]}; let s : State := {s with sec := {s.sec with extest := true, unlock := if 1 = 0 then some (7, 999) else none}}; let u := s.pwr; (let asleep := s.pwrState = 2 ∧ u.wakeFailed = false ∧ s.depth < 3; (asleep) ∧ (s.coolantIn = true))) ∧
    (let s := pw [(rk pgPwr 0x104, 2 + 3*4+0), (rk pgPwr 0x130, 0)] {stage := if 2 = 2 then .stopped else .idle, wakeFailed := false, heldRun := [0x3E, 0x38]}; let s : State := {s with sec := {s.sec with extest := true, unlock := if 0 = 0 then some (7, 999) else none}}; let u := s.pwr; (let off := s.pwrState = 2 ∧ u.wakeFailed = false ∧ s.depth = 3; (off))) := by refine ⟨?_, ?_, ?_, ?_, ?_, ?_⟩ <;> decide +kernel

/-- The hypotheses of Obligations.DeviceWakesUp are met. -/
theorem witness_DeviceWakesUp :
    (let s := pw [(rk pgPwr 0x104, 3 + 0*4+0), (rk pgPwr 0x128, 0)] {stage := ((sts)[13]'(by decide)), full := true, attempts := 1, wasRunning := [0x0D,0x3E,0x11], wakeAt := 7}; let s : State := {s with time := {s.time with off := 0 != 0, offNs := 70000}}; let n : Fin 14 := (10 : Fin 14); let cause : Byte := (0x11 : Byte); let k : Fin 6 := (match ((sts)[13]'(by decide)) with | .railUp k => (Fin.ofNat 6 k) | _ => 0); let u := s.pwr; (let c := cause.toNat; (let wait := if c < 0x20 then 5000000 else if c = 0x20 then 10000000 else 0; (u.stage ∈ [.idle, .quiesce, .drain, .commit, .stopped, .enable, .awaitCoolant, .railUp k.val]) ∧ (s.pwrState ≠ 3 ∨ u.stage ≠ .enable) ∧ (u.stageAt ≤ s.nsNow) ∧ (u.stage = .railUp k.val) ∧ (n.val ∈ railGroup k.val) ∧ (¬ (causeFits u.stage c = true ∧ u.stageAt + wait ≤ s.nsNow))))) ∧
    (let s := pw [(rk pgPwr 0x104, 3 + 0*4+0), (rk pgPwr 0x128, 0)] {stage := ((sts)[5]'(by decide)), full := true, attempts := 1, wasRunning := [0x0D,0x3E,0x11], wakeAt := 7}; let s : State := {s with time := {s.time with off := 0 != 0, offNs := 5000000}}; let cause : Byte := (0x11 : Byte); let u := s.pwr; (let c := cause.toNat; (let wait := if c < 0x20 then 5000000 else if c = 0x20 then 10000000 else 0; (u.stageAt ≤ s.nsNow) ∧ (u.stage = .rails) ∧ (causeFits u.stage c = true ∧ u.stageAt + wait ≤ s.nsNow) ∧ (u.attempts < 4)))) ∧
    (let s := pw [(rk pgPwr 0x104, 3 + 0*4+0), (rk pgPwr 0x128, 0)] {stage := ((sts)[7]'(by decide)), full := true, attempts := 4, wasRunning := [0x0D,0x3E,0x11], wakeAt := 7}; let s : State := {s with time := {s.time with off := 0 != 0, offNs := 70000}}; let cause : Byte := (0x31 : Byte); let u := s.pwr; (let c := cause.toNat; (let wait := if c < 0x20 then 5000000 else if c = 0x20 then 10000000 else 0; (u.stageAt ≤ s.nsNow) ∧ (u.stage = .train) ∧ (causeFits u.stage c = true ∧ u.stageAt + wait ≤ s.nsNow) ∧ (4 ≤ u.attempts)))) ∧
    (let s := pw [(rk pgPwr 0x104, 3 + 0*4+0), (rk pgPwr 0x128, 0)] {stage := ((sts)[6]'(by decide)), full := false, attempts := 1, wasRunning := [0x0D,0x3E,0x11], wakeAt := 7}; let s : State := {s with time := {s.time with off := 0 != 0, offNs := 70000}}; let u := s.pwr; (u.stageAt ≤ s.nsNow) ∧ (u.stage = .plls) ∧ (u.full = false)) ∧
    (let s := pw [(rk pgPwr 0x104, 3 + 0*4+0), (rk pgPwr 0x128, 0)] {stage := ((sts)[8]'(by decide)), full := false, attempts := 1, wasRunning := [0x0D,0x3E,0x11], wakeAt := 7}; let s : State := {s with time := {s.time with off := 0 != 0, offNs := 70000}}; let u := s.pwr; (u.stageAt ≤ s.nsNow) ∧ (u.stage = .links) ∧ (u.full = false)) ∧
    (let s := pw [(rk pgPwr 0x104, 3 + 0*4+0), (rk pgPwr 0x128, 0)] {stage := ((sts)[9]'(by decide)), full := true, attempts := 1, wasRunning := [0x0D,0x3E,0x11], wakeAt := 7}; let s : State := {s with time := {s.time with off := 0 != 0, offNs := 70000}}; let u := s.pwr; (u.stageAt ≤ s.nsNow) ∧ (u.stage = .restore)) ∧
    (let s := pw [(rk pgPwr 0x104, 3 + 0*4+0), (rk pgPwr 0x128, 0)] {stage := ((sts)[10]'(by decide)), full := true, attempts := 1, wasRunning := [0x0D,0x3E,0x11], wakeAt := 7}; let s : State := {s with time := {s.time with off := 0 != 0, offNs := 70000}}; let q : Fin 64 := (0x0D : Fin 64); let u := s.pwr; (let moored := s.bit (rk pgPwr 0x104) 9 = true ∧ q.val ∈ heldPages; (s.pwrState = 3) ∧ (u.stage = .enable) ∧ (q.val ∈ u.wasRunning) ∧ (quiescePages.contains q.val = true) ∧ (¬ moored))) ∧
    (let s := pw [(rk pgPwr 0x104, 3 + 0*4+0x200), (rk pgPwr 0x128, 0)] {stage := ((sts)[10]'(by decide)), full := true, attempts := 1, wasRunning := [0x0D,0x3E,0x11], wakeAt := 7}; let s : State := {s with time := {s.time with off := 0 != 0, offNs := 70000}}; let q : Fin 64 := (0x3E : Fin 64); let u := s.pwr; (let moored := s.bit (rk pgPwr 0x104) 9 = true ∧ q.val ∈ heldPages; (s.pwrState = 3) ∧ (u.stage = .enable) ∧ (q.val ∈ u.wasRunning) ∧ (moored))) ∧
    (let s := pw [(rk pgPwr 0x104, 3 + 0*4+0), (rk pgPwr 0x128, 0)] {stage := ((sts)[12]'(by decide)), full := true, attempts := 1, wasRunning := [0x0D,0x3E,0x11], wakeAt := 7}; let s : State := {s with time := {s.time with off := 0 != 0, offNs := 70000}}; let u := s.pwr; (u.stageAt ≤ s.nsNow) ∧ (u.stage = .awaitRef)) ∧
    (let s := pw [(rk pgPwr 0x104, 3 + 0*4+0), (rk pgPwr 0x128, 0)] {stage := ((sts)[13]'(by decide)), full := true, attempts := 1, wasRunning := [0x0D,0x3E,0x11], wakeAt := 7}; let s : State := {s with time := {s.time with off := 0 != 0, offNs := 70000}}; let n : Fin 14 := (4 : Fin 14); let k : Fin 6 := (match ((sts)[13]'(by decide)) with | .railUp k => (Fin.ofNat 6 k) | _ => 0); let u := s.pwr; (u.stage = .railUp k.val) ∧ (n.val ∉ railGroup k.val)) ∧
    (let s := pw [(rk pgPwr 0x104, 3)] {stage := .rails, stageAt := 10 ^ 12}; let u := s.pwr; ¬ (u.stageAt ≤ s.nsNow)) := by refine ⟨?_, ?_, ?_, ?_, ?_, ?_, ?_, ?_, ?_, ?_, ?_⟩ <;> decide +kernel

/-- The hypotheses of Obligations.ResetLeavesTheDevice are met. -/
theorem witness_ResetLeavesTheDevice :
    (let k : Nat := (rk pgQuay 0x100); (k ∉ [rk pgSys 0x104, rk (pgPort 0) 0x104, rk (pgPort 1) 0x104])) := by decide +kernel

/-- The hypotheses of Obligations.CoolantAndThrottle are met. -/
theorem witness_CoolantAndThrottle :
    (let s := pw [(rk pgPwr 0x130, 0), (rk pgPwr 0x104, 0 + 0*4), (rk pgPwr 0x10C, 0)] {stage := if 0 = 2 then .stopped else if (104 : Int) = 110 then .awaitCoolant else .idle, below := 0, evalAt := 2123356789, coolantLostAt := none, coolantTimer := false}; let s : State := {s with safe := {s.safe with hot := (104 : Int)}}; let u := s.pwr; (let level (t : State) := t.fld (rk pgPwr 0x10C) 2 0; (let l := level s; (let hot := s.safe.hot; (let enter (i : Nat) : Int := [0, 95, 98, 101].getD i 104; (let due := s.pwrState = 0 ∧ u.stage = .idle ∧ u.evalAt + 100000 ≤ s.nsNow; (let cool := u.coolantTimer = false; (s.coolantIn = false) ∧ (u.coolantLostAt = none ∨ cool) ∧ (due) ∧ (cool) ∧ (104 ≤ hot) ∧ (u.request = none) ∧ (l < 3) ∧ (enter (l + 1) ≤ hot)))))))) ∧
    (let s := pw [(rk pgPwr 0x130, 1), (rk pgPwr 0x104, 0 + 0*4), (rk pgPwr 0x10C, 0)] {stage := if 0 = 2 then .stopped else if (80 : Int) = 110 then .awaitCoolant else .idle, below := 0, evalAt := 2123356790, coolantLostAt := (some 1123456789), coolantTimer := true}; let s : State := {s with safe := {s.safe with hot := (80 : Int)}}; let lostAt : Nat := ((some 1123456789).getD 0); let u := s.pwr; (let due := s.pwrState = 0 ∧ u.stage = .idle ∧ u.evalAt + 100000 ≤ s.nsNow; (s.coolantIn = true) ∧ (s.pwrState = 0) ∧ (u.coolantLostAt = some lostAt) ∧ (u.coolantTimer = true) ∧ (lostAt + 1000000000 ≤ s.nsNow) ∧ (¬ due))) ∧
    (let s := pw [(rk pgPwr 0x130, 0), (rk pgPwr 0x104, 0 + 0*4), (rk pgPwr 0x10C, 0)] {stage := if 0 = 2 then .stopped else if (80 : Int) = 110 then .awaitCoolant else .idle, below := 0, evalAt := 2123356789, coolantLostAt := none, coolantTimer := false}; let s : State := {s with safe := {s.safe with hot := (80 : Int)}}; let u := s.pwr; (let level (t : State) := t.fld (rk pgPwr 0x10C) 2 0; (let l := level s; (let hot := s.safe.hot; (let enter (i : Nat) : Int := [0, 95, 98, 101].getD i 104; (let due := s.pwrState = 0 ∧ u.stage = .idle ∧ u.evalAt + 100000 ≤ s.nsNow; (let cool := u.coolantTimer = false; (let cold := 0 < l ∧ hot < enter l - 3; (due) ∧ (cool) ∧ (¬ cold) ∧ (hot < enter (l + 1) ∨ 3 ≤ l))))))))) ∧
    (let s := pw [(rk pgPwr 0x130, 0), (rk pgPwr 0x104, 0 + 0*4), (rk pgPwr 0x10C, 0)] {stage := if 0 = 2 then .stopped else if (80 : Int) = 110 then .awaitCoolant else .idle, below := 0, evalAt := 2123356789, coolantLostAt := (some 1123456790), coolantTimer := true}; let s : State := {s with safe := {s.safe with hot := (80 : Int)}}; let lostAt : Nat := ((some 1123456790).getD 0); let u := s.pwr; (u.coolantLostAt = some lostAt) ∧ (u.coolantTimer = true) ∧ (s.nsNow < lostAt + 1000000000)) ∧
    (let s := pw [(rk pgPwr 0x130, 0), (rk pgPwr 0x104, 0 + 0*4), (rk pgPwr 0x10C, 1)] {stage := if 0 = 2 then .stopped else if (80 : Int) = 110 then .awaitCoolant else .idle, below := 0, evalAt := 2123356789, coolantLostAt := none, coolantTimer := false}; let s : State := {s with safe := {s.safe with hot := (80 : Int)}}; let u := s.pwr; (let level (t : State) := t.fld (rk pgPwr 0x10C) 2 0; (let l := level s; (let hot := s.safe.hot; (let enter (i : Nat) : Int := [0, 95, 98, 101].getD i 104; (let due := s.pwrState = 0 ∧ u.stage = .idle ∧ u.evalAt + 100000 ≤ s.nsNow; (let cool := u.coolantTimer = false; (let cold := 0 < l ∧ hot < enter l - 3; (due) ∧ (cool) ∧ (cold) ∧ (hot < enter (l + 1)) ∧ (u.below < 9))))))))) ∧
    (let s := pw [(rk pgPwr 0x130, 0), (rk pgPwr 0x104, 0 + 0*4), (rk pgPwr 0x10C, 1)] {stage := if 0 = 2 then .stopped else if (80 : Int) = 110 then .awaitCoolant else .idle, below := 9, evalAt := 2123356789, coolantLostAt := none, coolantTimer := false}; let s : State := {s with safe := {s.safe with hot := (80 : Int)}}; let u := s.pwr; (let level (t : State) := t.fld (rk pgPwr 0x10C) 2 0; (let l := level s; (let hot := s.safe.hot; (let enter (i : Nat) : Int := [0, 95, 98, 101].getD i 104; (let due := s.pwrState = 0 ∧ u.stage = .idle ∧ u.evalAt + 100000 ≤ s.nsNow; (let cool := u.coolantTimer = false; (let cold := 0 < l ∧ hot < enter l - 3; (due) ∧ (cool) ∧ (cold) ∧ (hot < enter (l + 1)) ∧ (9 ≤ u.below))))))))) ∧
    (let s := pw [(rk pgPwr 0x130, 0), (rk pgPwr 0x104, 2 + 0*4), (rk pgPwr 0x10C, 0)] {stage := if 2 = 2 then .stopped else if (80 : Int) = 110 then .awaitCoolant else .idle, below := 0, evalAt := 2123356789, coolantLostAt := (some 1123456789), coolantTimer := true}; let s : State := {s with safe := {s.safe with hot := (80 : Int)}}; let lostAt : Nat := ((some 1123456789).getD 0); let u := s.pwr; (u.coolantLostAt = some lostAt) ∧ (u.coolantTimer = true) ∧ (lostAt + 1000000000 ≤ s.nsNow) ∧ (s.pwrState = 2) ∧ (s.depth = 0)) := by refine ⟨?_, ?_, ?_, ?_, ?_, ?_, ?_⟩ <;> decide +kernel

/-- The hypotheses of Obligations.MonitorsWatchClocksRailsAndLinks are met (its part LinksAndLocksAreWatched). -/
theorem witness_LinksAndLocksAreWatched :
    (let s : State := (pw [(rk pgClk 0x100, 0), (rk (pgHub 0) 0x100, 0), (rk (pgHub 1) 0x100, 7 - 0)] {}); let d : Fin 22 := 2; let h : Fin 2 := (0 : Fin 2); let pg := pgHub h; (let up := s.bit (rk pg 0x100) 0 = true; (s.bit (rk pgClk 0x100) d = false) ∧ (¬ up))) ∧
    (let s : State := (pw [(rk pgClk 0x100, 5), (rk (pgHub 0) 0x100, 0), (rk (pgHub 1) 0x100, 7 - 0)] {}); let d : Fin 22 := 2; let h : Fin 2 := (1 : Fin 2); let pg := pgHub h; (let up := s.bit (rk pg 0x100) 0 = true; (s.bit (rk pgClk 0x100) d = true) ∧ (up))) := by refine ⟨?_, ?_⟩ <;> decide +kernel

end G15

namespace G16

def regsOf (s : State) (l : List (Nat × Nat)) : State := l.foldl (fun s e => s.wrN e.1 e.2) s
def up (s : State) : State := (s.setPort 0 { link := true, inReset := false }).setPort 1 { link := true, inReset := false }
def sc (l : List (Nat × Nat)) (u : Trust) : State := let s := up (regsOf State.reset ([(rk pgStream 0x10, 2), (rk pgSec 0x10, 1), (rk pgDbg 0x10, 1), (rk pgSafe 0x100, 3), (rk pgSafe 0x104, 3), (rk pgPwr 0x130, 1), (rk pgPwr 0x128, 0x3FFF), (rk pgMem 0x10, 2)] ++ l)); {s with time := {s.time with tb0 := 2123456789, fus := 400000*2^40}, sec := u}
def key : List Byte := List.replicate 1312 7
def fz (lc : Nat) : Fuses := { lifecycle := lc, fKeys := [[7], [], [9], [1]], mKeys := [[1],[],[],[]], fRevoked := 4, rollback := 3, mfgKey := [7], debugKey := [8], deviceId := List.replicate 16 9 }
def nreg (v : Nat) : List (Nat × Nat) := (List.range 8).map fun i => (rk pgDbg (0x120 + 4*i), v)
def pb : ProvBlock := { fKeys := [[1],[2],[],[]], mKeys := [[3],[],[],[]], debugKey := [5], mlDsa65 := true }
def jobs : List FuseJob := [.lifecycle 2, .provision pb, .revoke 2, .revoke 6]

/-- The hypotheses of Obligations.FirmwareIsVerified are met. -/
theorem witness_FirmwareIsVerified :
    (let s := sc [(rk pgSec 0x108, 0 + 0x300), (rk pgSec 0x118, 0x5123), (rk pgSys 0x104, 0), (rk pgPwr 0x104, 0)] {fuses := fz 1, running := 0 == 1, tamperResp := 0 == 2}; let mm : SMap Byte := []; let s : State := ({s with pwr := {s.pwr with stage := (.firmware : PwrStage), full := true}, mem := mm}); let h : Fin 2 := (if 0 = 1 then 1 else 0); let f := s.sec.fuses; (let status := rk pgSec 0x108; (let a := s.rd64 (rk pgSec 0x118) / 0x1000 * 0x1000; (let body := a + 8192; (let waits := s.pwr.stage = .firmware ∧ s.pwr.full = true ∧ s.sec.running = false ∧ f.lifecycle ≠ 4; (waits) ∧ (s.fld status 1 0 = 0) ∧ (s.issues h pgSec = true) ∧ (s.pwrState = 0) ∧ (s.tampering = false) ∧ (f.lifecycle ≠ 4) ∧ (s.memClean = true) ∧ (body + 0x1000000 ≤ lpddrEnd)))))) ∧
    (let s := sc [(rk pgSec 0x108, 0 + 0x300), (rk pgSec 0x118, 0x5123), (rk pgSys 0x104, 0), (rk pgPwr 0x104, 0)] {fuses := fz 4, running := 0 == 1, tamperResp := 0 == 2}; let mm : SMap Byte := []; let s : State := ({s with pwr := {s.pwr with stage := (.firmware : PwrStage), full := true}, mem := mm}); let h : Fin 2 := (if 0 = 1 then 1 else 0); let f := s.sec.fuses; (let status := rk pgSec 0x108; (let waits := s.pwr.stage = .firmware ∧ s.pwr.full = true ∧ s.sec.running = false ∧ f.lifecycle ≠ 4; (¬ waits ∨ s.fld status 1 0 ≠ 0) ∧ (s.issues h pgSec = true) ∧ (s.pwrState = 0) ∧ (s.tampering = false) ∧ (f.lifecycle = 4)))) := by refine ⟨?_, ?_⟩ <;> decide +kernel

/-- The hypotheses of Obligations.SecTakesItsCommands are met. -/
theorem witness_SecTakesItsCommands :
    (let s := sc (nreg 0x04040404 ++ [(rk pgSec 0x2C, if (some 1 : Option Nat).isNone then 1 else 0), (rk pgSec 0x108, 0x050000 + 0x300), (copyKey (0 : Fin 2) pgSec 0x30, 2), (copyKey (0 : Fin 2) pgSec 0x34, 0x5123), (rk pgPwr 0x104, 0), (rk pgCommons 0x100, if 0 ≠ 0 then 2 else 0)]) {fuses := fz 0, fwSlot := (some 1 : Option Nat), tamperResp := 0 == 1}; let s : State := {s with sec := {s.sec with job := some ((if 2 < 4 then jobs else jobs.take 1)[1]'(by decide)), jobAt := 2123456789 - (if 0 ≠ 1 then 40000000 else 39999999)}}; let h : Fin 2 := (0 : Fin 2); let b : ProvBlock := pb; let j : FuseJob := ((if 2 < 4 then jobs else jobs.take 1)[1]'(by decide)); let f := s.sec.fuses; (let revokes : Bool := match j with
      | .revoke _ => true
      | _ => false; (let target := s.hostArg h pgSec 0 % 8; (let addr := (s.hostArg h pgSec 1 + s.hostArg h pgSec 2 * 2 ^ 32) % 2 ^ 48; (let key := s.hostArg h pgSec 0 % 16; (let lastF := (List.range 4).filter (fun k => f.fKeys.getD k [] ≠ [] && !f.fRevoked.testBit k) = [key]; (s.reaches h = true) ∧ (s.slotTakes pgSec = true) ∧ (s.isOwner h = true) ∧ (s.pwrState = 0) ∧ (s.tampering = false) ∧ (f.lifecycle = 0) ∧ (target = 2) ∧ (f.lifecycle ≠ 1) ∧ (key < 8) ∧ (¬ lastF) ∧ (s.memClean = true) ∧ (addr + 32 ≤ lpddrEnd) ∧ (s.sec.log.length < 512) ∧ (s.sec.job = some j) ∧ (s.sec.jobAt + 40000000 ≤ s.time.tb0) ∧ (j = .provision b) ∧ (b.fKeys.length = 4) ∧ (b.mKeys.length = 4) ∧ (revokes = false))))))) ∧
    (let s := sc (nreg 0x04040404 ++ [(copyKey 0 pgSec 0x30, 3), (copyKey 0 pgSec 0x34, 0x5123)]) {fuses := {fz 2 with fKeys := if true then [[],[1],[],[]] else [[],[],[],[]]}, fwSlot := none, log := List.replicate (if true then 512 else 511) [] }; let s : State := {s with mem := []}; let h : Fin 2 := 0; let j : FuseJob := (.lifecycle 2); let f := s.sec.fuses; (let target := s.hostArg h pgSec 0 % 8; (let addr := (s.hostArg h pgSec 1 + s.hostArg h pgSec 2 * 2 ^ 32) % 2 ^ 48; (s.reaches h = true) ∧ (s.slotTakes pgSec = true) ∧ (s.isOwner h = true) ∧ (s.pwrState = 0) ∧ (s.tampering = false) ∧ (f.lifecycle ≠ 0) ∧ (target = 3) ∧ (f.lifecycle = 2) ∧ (s.memClean = true) ∧ (addr + 8000 ≤ lpddrEnd) ∧ (addr + 32 ≤ lpddrEnd) ∧ (s.sec.log.length ≥ 512) ∧ (s.sec.job = none ∨ (s.sec.job = some j ∧ s.time.tb0 < s.sec.jobAt + 40000000))))) ∧
    (let s := sc (nreg 0x04040404 ++ [(rk pgSec 0x2C, if (none : Option Nat).isNone then 1 else 0), (rk pgSec 0x108, 0x050000 + 0x300), (copyKey (0 : Fin 2) pgSec 0x30, 0), (copyKey (0 : Fin 2) pgSec 0x34, 0x5123), (rk pgPwr 0x104, 0), (rk pgCommons 0x100, if 0 ≠ 0 then 2 else 0)]) {fuses := fz 0, fwSlot := (none : Option Nat), tamperResp := 0 == 1}; let s : State := {s with sec := {s.sec with job := some ((if 0 < 4 then jobs else jobs.take 1)[0]'(by decide)), jobAt := 2123456789 - (if 0 ≠ 1 then 40000000 else 39999999)}}; let j : FuseJob := ((if 0 < 4 then jobs else jobs.take 1)[0]'(by decide)); let v : Nat := (match ((if 0 < 4 then jobs else jobs.take 1)[0]'(by decide)) with | .lifecycle t => t | .provision _ => 0 | .revoke k => k); (s.sec.job = some j) ∧ (s.sec.jobAt + 40000000 ≤ s.time.tb0) ∧ (s.busy pgSec = true) ∧ (j = .lifecycle v)) ∧
    (let s := sc (nreg 0x04040404 ++ [(rk pgSec 0x2C, if (some 1 : Option Nat).isNone then 1 else 0), (rk pgSec 0x108, 0x050000 + 0x300), (copyKey (0 : Fin 2) pgSec 0x30, 2), (copyKey (0 : Fin 2) pgSec 0x34, 0x5123), (rk pgPwr 0x104, 0), (rk pgCommons 0x100, if 0 ≠ 0 then 2 else 0)]) {fuses := fz 1, fwSlot := (some 1 : Option Nat), tamperResp := 0 == 1}; let s : State := {s with sec := {s.sec with job := some ((if 2 < 4 then jobs else jobs.take 1)[2]'(by decide)), jobAt := 2123456789 - (if 0 ≠ 1 then 40000000 else 39999999)}}; let h : Fin 2 := (0 : Fin 2); let j : FuseJob := ((if 2 < 4 then jobs else jobs.take 1)[2]'(by decide)); let v : Nat := (match ((if 2 < 4 then jobs else jobs.take 1)[2]'(by decide)) with | .lifecycle t => t | .provision _ => 0 | .revoke k => k); let f := s.sec.fuses; (let target := s.hostArg h pgSec 0 % 8; (let empty (ks : List (List Byte)) := ks.all (·.isEmpty) = true; (s.reaches h = true) ∧ (s.slotTakes pgSec = true) ∧ (s.isOwner h = true) ∧ (s.pwrState = 0) ∧ (s.tampering = false) ∧ (target = 2) ∧ (f.lifecycle = 1) ∧ (¬ (empty f.fKeys ∨ empty f.mKeys ∨ f.debugKey = [])) ∧ (s.sec.fwSlot ≠ none) ∧ (s.sec.job = some j) ∧ (s.sec.jobAt + 40000000 ≤ s.time.tb0) ∧ (j = .revoke v)))) ∧
    (let s := sc (nreg 0x04040404 ++ [(rk pgSec 0x2C, if (some 1 : Option Nat).isNone then 1 else 0), (rk pgSec 0x108, 0x050000 + 0x300), (copyKey (0 : Fin 2) pgSec 0x30, 3), (copyKey (0 : Fin 2) pgSec 0x34, 0x5123), (rk pgPwr 0x104, 0), (rk pgCommons 0x100, if 0 ≠ 0 then 2 else 0)]) {fuses := fz 0, fwSlot := (some 1 : Option Nat), tamperResp := 0 == 1}; let s : State := s; let h : Fin 2 := (0 : Fin 2); let f := s.sec.fuses; (let target := s.hostArg h pgSec 0 % 8; (s.reaches h = true) ∧ (s.slotTakes pgSec = true) ∧ (s.isOwner h = true) ∧ (s.pwrState = 0) ∧ (s.tampering = false) ∧ (target = 3) ∧ (f.lifecycle ≠ 2))) ∧
    (let s := sc (nreg 0x04040404 ++ [(rk pgSec 0x2C, if (some 1 : Option Nat).isNone then 1 else 0), (rk pgSec 0x108, 0x050000 + 0x300), (copyKey (0 : Fin 2) pgSec 0x30, 4), (copyKey (0 : Fin 2) pgSec 0x34, 0x5123), (rk pgPwr 0x104, 0), (rk pgCommons 0x100, if 0 ≠ 0 then 2 else 0)]) {fuses := fz 0, fwSlot := (some 1 : Option Nat), tamperResp := 0 == 1}; let s : State := s; let h : Fin 2 := (0 : Fin 2); let f := s.sec.fuses; (let target := s.hostArg h pgSec 0 % 8; (s.reaches h = true) ∧ (s.slotTakes pgSec = true) ∧ (s.isOwner h = true) ∧ (s.pwrState = 0) ∧ (s.tampering = false) ∧ (target = 4) ∧ (f.lifecycle ≠ 3))) ∧
    (let s := sc (nreg 0x04040404 ++ [(rk pgSec 0x2C, if (some 1 : Option Nat).isNone then 1 else 0), (rk pgSec 0x108, 0x050000 + 0x300), (copyKey (0 : Fin 2) pgSec 0x30, 4), (copyKey (0 : Fin 2) pgSec 0x34, 0x5123), (rk pgPwr 0x104, 0), (rk pgCommons 0x100, if 0 ≠ 0 then 2 else 0)]) {fuses := fz 3, fwSlot := (some 1 : Option Nat), tamperResp := 0 == 1}; let s : State := s; let h : Fin 2 := (0 : Fin 2); let f := s.sec.fuses; (let target := s.hostArg h pgSec 0 % 8; (s.reaches h = true) ∧ (s.slotTakes pgSec = true) ∧ (s.isOwner h = true) ∧ (s.pwrState = 0) ∧ (s.tampering = false) ∧ (target = 4) ∧ (f.lifecycle = 3))) ∧
    (let s := sc (nreg 0x04040404 ++ [(rk pgSec 0x2C, if (some 1 : Option Nat).isNone then 1 else 0), (rk pgSec 0x108, 0x050000 + 0x300), (copyKey (0 : Fin 2) pgSec 0x30, 8), (copyKey (0 : Fin 2) pgSec 0x34, 0x5123), (rk pgPwr 0x104, 0), (rk pgCommons 0x100, if 0 ≠ 0 then 2 else 0)]) {fuses := fz 0, fwSlot := (some 1 : Option Nat), tamperResp := 0 == 1}; let s : State := s; let h : Fin 2 := (0 : Fin 2); let key := s.hostArg h pgSec 0 % 16; (s.reaches h = true) ∧ (s.slotTakes pgSec = true) ∧ (s.isOwner h = true) ∧ (s.pwrState = 0) ∧ (s.tampering = false) ∧ (8 ≤ key)) ∧
    (let s := sc (nreg 0x04040404 ++ [(copyKey 0 pgSec 0x30, 1), (copyKey 0 pgSec 0x34, 0x5123)]) {fuses := {fz 2 with fKeys := if true then [[],[1],[],[]] else [[],[],[],[]]}, fwSlot := none, log := List.replicate (if true then 512 else 511) [] }; let s : State := {s with mem := []}; let h : Fin 2 := 0; let f := s.sec.fuses; (let key := s.hostArg h pgSec 0 % 16; (let lastF := (List.range 4).filter (fun k => f.fKeys.getD k [] ≠ [] && !f.fRevoked.testBit k) = [key]; (s.reaches h = true) ∧ (s.slotTakes pgSec = true) ∧ (s.isOwner h = true) ∧ (s.pwrState = 0) ∧ (s.tampering = false) ∧ (lastF)))) ∧
    (let s := sc (nreg 0x04040404 ++ [(copyKey 0 pgSec 0x30, 2), (copyKey 0 pgSec 0x34, 0x5123)]) {fuses := {fz 1 with fKeys := if true then [[],[1],[],[]] else [[],[],[],[]]}, fwSlot := none, log := List.replicate (if true then 512 else 511) [] }; let s : State := {s with mem := []}; let h : Fin 2 := 0; let f := s.sec.fuses; (let target := s.hostArg h pgSec 0 % 8; (let empty (ks : List (List Byte)) := ks.all (·.isEmpty) = true; (s.reaches h = true) ∧ (s.slotTakes pgSec = true) ∧ (s.isOwner h = true) ∧ (s.pwrState = 0) ∧ (s.tampering = false) ∧ (target = 2) ∧ (f.lifecycle = 1) ∧ (¬ (empty f.fKeys ∨ empty f.mKeys ∨ f.debugKey = [])) ∧ (s.sec.fwSlot = none)))) ∧
    (let s := sc (nreg 0x04040404 ++ [(copyKey 0 pgSec 0x30, 2), (copyKey 0 pgSec 0x34, 0x5123)]) {fuses := {fz 1 with fKeys := if false then [[],[1],[],[]] else [[],[],[],[]]}, fwSlot := none, log := List.replicate (if false then 512 else 511) [] }; let s : State := {s with mem := []}; let h : Fin 2 := 0; let f := s.sec.fuses; (let target := s.hostArg h pgSec 0 % 8; (let empty (ks : List (List Byte)) := ks.all (·.isEmpty) = true; (s.reaches h = true) ∧ (s.slotTakes pgSec = true) ∧ (s.isOwner h = true) ∧ (s.pwrState = 0) ∧ (s.tampering = false) ∧ (target = 2) ∧ (f.lifecycle = 1) ∧ (empty f.fKeys ∨ empty f.mKeys ∨ f.debugKey = [])))) := by refine ⟨?_, ?_, ?_, ?_, ?_, ?_, ?_, ?_, ?_, ?_, ?_⟩ <;> decide +kernel

/-- The hypotheses of Obligations.TamperWipesAndReports are met. -/
theorem witness_TamperWipesAndReports :
    (let s := sc [(rk pgSys 0x104, 2), (rk pgSec 0x2C, 0), (rk pgPwr 0x104, 3), (rk pgSec 0x114, if 0 = 0 then 0 else 1), (rk pgCommons 0x100, if 0 = 1 then 2 else 0), (rk pgSec 0x10, if 2 = 2 && 3 = 3 then 0 else 1)] {fuses := fz 0, job := none, tamperResp := 0 ≠ 0, spdmConn := [(0, 0), (1, 1)]}; let s : State := s; let h : Fin 2 := (0 : Fin 2); let f := s.sec.fuses; (let watched := f.lifecycle ≠ 4 ∧ s.blk pgSec ≠ stOff; (let active := (s.portAt h).link = true ∧ s.role h ≠ 3 ∧ s.blk pgSec ≠ stOff ∧ s.pwrState < 2; (¬ watched) ∧ (¬ active)))) ∧
    (let s := sc [(rk pgSys 0x104, 0), (rk pgSec 0x2C, 1), (rk pgPwr 0x104, 0), (rk pgSec 0x114, if 0 = 0 then 0 else 1), (rk pgCommons 0x100, if 0 = 1 then 2 else 0), (rk pgSec 0x10, if 0 = 2 && 0 = 3 then 0 else 1)] {fuses := fz 0, job := (some (FuseJob.lifecycle 3)), tamperResp := 0 ≠ 0, spdmConn := [(0, 0), (1, 1)]}; let s : State := s; let h : Fin 2 := (0 : Fin 2); let r : SpdmReq := .other; let f := s.sec.fuses; (let watched := f.lifecycle ≠ 4 ∧ s.blk pgSec ≠ stOff; (let busy := s.tampering = true; (let active := (s.portAt h).link = true ∧ s.role h ≠ 3 ∧ s.blk pgSec ≠ stOff ∧ s.pwrState < 2; (let unlike : SpdmReq := .other; (watched) ∧ (¬ busy) ∧ (s.transiting = true) ∧ (s.busy pgSec = true) ∧ (active) ∧ (r = unlike)))))) ∧
    (let s := sc [(rk pgSys 0x104, 0), (rk pgSec 0x2C, 0), (rk pgPwr 0x104, 0), (rk pgSec 0x114, if 1 = 0 then 0 else 1), (rk pgCommons 0x100, if 1 = 1 then 2 else 0), (rk pgSec 0x10, if 0 = 2 && 0 = 3 then 0 else 1)] {fuses := fz 0, job := none, tamperResp := 1 ≠ 0, spdmConn := [(0, 1), (1, 1)]}; let s : State := s; let f := s.sec.fuses; (let watched := f.lifecycle ≠ 4 ∧ s.blk pgSec ≠ stOff; (let busy := s.tampering = true; (watched) ∧ (busy)))) := by refine ⟨?_, ?_, ?_⟩ <;> decide +kernel

/-- The hypotheses of Obligations.DebugIsUnlockedAndHalts are met (its part DebugIsUnlocked). -/
theorem witness_DebugIsUnlocked :
    (let s := sc (nreg 0x04040404 ++ [(copyKey 0 pgDbg 0x30, 0x5123), (rk pgSys 0x104, 0), (rk pgSec 0x2C, 0), (rk pgPwr 0x128, 0x3FFF), (rk pgPwr 0x104, 0 + 4), (rk pgCommons 0x100, 2*0)]) {fuses := fz 2, unlock := none, tamperResp := true}; let s : State := {s with mem := []}; let h : Fin 2 := 0; let e : Nat := (none.getD (0,0)).1; let x : Nat := (none.getD (0,0)).2; let f := s.sec.fuses; (let addr := (s.hostArg h pgDbg 0 + s.hostArg h pgDbg 1 * 2 ^ 32) % 2 ^ 48; (let powered := s.tapOn = true; (s.issues h pgDbg = true) ∧ (s.memClean = true) ∧ (addr + 8000 ≤ lpddrEnd) ∧ (s.sec.unlock = none) ∧ (s.sec.unlock = none ∨ (s.sec.unlock = some (e, x) ∧ s.time.tb0 < x)) ∧ (powered) ∧ (f.lifecycle ≠ 4)))) ∧
    (let s := sc (nreg 0x04040404 ++ [(copyKey 0 pgDbg 0x30, 0x5123), (rk pgSys 0x104, 0), (rk pgSec 0x2C, 0), (rk pgPwr 0x128, 0x3FFF), (rk pgPwr 0x104, 0 + 4), (rk pgCommons 0x100, 2*0)]) {fuses := fz 2, unlock := (some (7, 2123456789)), tamperResp := true}; let s : State := {s with mem := []}; let h : Fin 2 := 0; let e : Nat := ((some (7, 2123456789)).getD (0,0)).1; let x : Nat := ((some (7, 2123456789)).getD (0,0)).2; (s.issues h pgDbg = true) ∧ (s.sec.unlock ≠ none) ∧ (s.sec.unlock = some (e, x)) ∧ (x ≤ s.time.tb0)) ∧
    (let s := sc (nreg 0 ++ [(copyKey 0 pgDbg 0x30, 0x5123), (rk pgSys 0x104, 0), (rk pgSec 0x2C, 0), (rk pgPwr 0x128, 0x3FFF), (rk pgPwr 0x104, 2 + 4), (rk pgCommons 0x100, 2*0)]) {fuses := fz 2, unlock := (some (2,2123456790)), tamperResp := true}; let s : State := {s with mem := []}; let powered := s.tapOn = true; (¬ powered)) ∧
    (let s := sc (nreg 0x04040404 ++ [(copyKey 0 pgDbg 0x30, 0x5123), (rk pgSys 0x104, 0), (rk pgSec 0x2C, 0), (rk pgPwr 0x128, 0x3FFF), (rk pgPwr 0x104, 0 + 4), (rk pgCommons 0x100, 2*0)]) {fuses := fz 4, unlock := none, tamperResp := true}; let s : State := {s with mem := []}; let f := s.sec.fuses; (let powered := s.tapOn = true; (powered) ∧ (f.lifecycle = 4))) := by refine ⟨?_, ?_, ?_, ?_⟩ <;> decide +kernel

/-- The hypotheses of Obligations.DebugIsUnlockedAndHalts are met (its part TapAndHalts). -/
theorem witness_TapAndHalts :
    (let s := sc [(rk pgDbg 0x104, 0), (rk pgPwr 0x104, 0+4), (rk 0x16 0x0C, 2), (rk 0x16 0x10, 2), (rk 0x12 0x10, 2), (rk 0x21 0x0C, 2)] {fuses := fz 0, unlock := none, haltedByDbg := if 0 < 2 then [] else []}; let s : State := s; let h : Fin 2 := 0; let on : Bool := true; let p : Fin 64 := (0x10 : Fin 64); let f := s.sec.fuses; (let scope (b : Nat) := f.lifecycle = 0 ∨ f.lifecycle = 1 ∨ f.lifecycle = 3 ∨ s.sec.unlock.any (fun u => u.1.testBit b) = true; (let powered := s.tapOn = true; (let halt := rk pgDbg 0x104; (let stops := (pageKind p).any pageHalt = true; (powered) ∧ (scope 0) ∧ (s.reaches h = true) ∧ (s.isOwner h = true) ∧ (scope 2) ∧ (on = true) ∧ (s.bit halt 1 = false) ∧ (stops) ∧ (s.halted p = false)))))) ∧
    (let s := sc [(rk pgDbg 0x104, 0), (rk pgPwr 0x104, 0+4), (rk 0x16 0x0C, 2), (rk 0x16 0x10, 2), (rk 0x12 0x10, 2), (rk 0x21 0x0C, 2)] {fuses := fz 2, unlock := none, haltedByDbg := if 0 < 2 then [] else []}; let s : State := s; let h : Fin 2 := 0; let f := s.sec.fuses; (let scope (b : Nat) := f.lifecycle = 0 ∨ f.lifecycle = 1 ∨ f.lifecycle = 3 ∨ s.sec.unlock.any (fun u => u.1.testBit b) = true; (let powered := s.tapOn = true; (powered) ∧ (¬ scope 0) ∧ (s.reaches h = true) ∧ (s.isOwner h = true) ∧ (¬ scope 2)))) ∧
    (let s := sc [(rk pgDbg 0x104, 0), (rk pgPwr 0x104, 2+4), (rk 0x16 0x0C, 2), (rk 0x16 0x10, 2), (rk 0x12 0x10, 2), (rk 0x21 0x0C, 2)] {fuses := fz 0, unlock := none, haltedByDbg := if 0 < 2 then [] else []}; let s : State := s; let powered := s.tapOn = true; (¬ powered)) ∧
    (let s := sc [(rk pgDbg 0x104, 0), (rk pgPwr 0x104, 0+4), (rk 0x16 0x0C, 2), (rk 0x16 0x10, 2), (rk 0x12 0x10, 2), (rk 0x21 0x0C, 2)] {fuses := fz 0, unlock := none, haltedByDbg := if 0 < 2 then [] else []}; let s : State := s; let h : Fin 2 := 0; let on : Bool := false; let p : Fin 64 := (0x16 : Fin 64); let f := s.sec.fuses; (let scope (b : Nat) := f.lifecycle = 0 ∨ f.lifecycle = 1 ∨ f.lifecycle = 3 ∨ s.sec.unlock.any (fun u => u.1.testBit b) = true; (let stops := (pageKind p).any pageHalt = true; (s.reaches h = true) ∧ (s.isOwner h = true) ∧ (scope 2) ∧ (on = false) ∧ (stops) ∧ (s.sec.haltedByDbg.contains p.val = false)))) ∧
    (let s := sc [(rk pgDbg 0x104, 2), (rk pgPwr 0x104, 0+4), (rk 0x16 0x0C, 2), (rk 0x16 0x10, 2), (rk 0x12 0x10, 2), (rk 0x21 0x0C, 2)] {fuses := fz 0, unlock := none, haltedByDbg := if 2 < 2 then [] else [0x16,0x21]}; let s : State := s; let h : Fin 2 := 0; let on : Bool := false; let p : Fin 64 := (0x16 : Fin 64); let f := s.sec.fuses; (let scope (b : Nat) := f.lifecycle = 0 ∨ f.lifecycle = 1 ∨ f.lifecycle = 3 ∨ s.sec.unlock.any (fun u => u.1.testBit b) = true; (let stops := (pageKind p).any pageHalt = true; (s.reaches h = true) ∧ (s.isOwner h = true) ∧ (scope 2) ∧ (on = false) ∧ (stops) ∧ (s.sec.haltedByDbg.contains p.val = true)))) := by refine ⟨?_, ?_, ?_, ?_, ?_⟩ <;> decide +kernel

end G16

namespace G17

def regsOf (s : State) (l : List (Nat × Nat)) : State := l.foldl (fun s e => s.wrN e.1 e.2) s
def up (s : State) : State := (s.setPort 0 { link := true, inReset := false }).setPort 1 { link := true, inReset := false }
def st (l : List (Nat × Nat)) : State := up (regsOf State.reset ([(rk pgStream 0x10, 2), (rk pgStream 0x108, 3),(rk pgStream 0x100, 0x1F)] ++ l))
def pays : List (List Byte) := [[0x11,0x22,0x33,0x04],[0x11,0x22,0x33,0x04,5,6,7,0x44,1],[1],[1,2,3,0x80],[]]
def vecs : List (List Byte) := [[1,2,3,0x10,1,2,3,0x10],[1,2,3,0x20],[1,2,3,0x30,4]]

/-- The hypotheses of Obligations.WordsBeforeTimeAreDiscarded are met. -/
theorem witness_WordsBeforeTimeAreDiscarded :
    (let k : CsiQueued := ⟨{ hdr := .good, vc := 1, dt := 0x30, payload := ((pays ++ vecs)[0]'(by decide)), crcOk := true },5,7⟩; let s := (st [(rk 0x23 0x10, 2), (rk 0x23 0x104, 1+ 0x100 + 0x2B0000), (rk 0x23 0x100, 0x64000), (rk 0x23 0x140, 5), (rk 0x23 0x108, 0)]).setCsi 3 { queue := [k,k], prevThi := none, row := none }; if (s.csiDesc 3).isSome then let s : State := s; let p : Fin 16 := 3; let q : CsiQueued := k; let rest : List CsiQueued := [k]; let d : Desc := ((s.csiDesc 3).getD descDirect); let ws := chunkWords d.wb d.swap q.pkt.payload; (let early := (s.csiAt p).prevThi = none ∧ (∀ w ∈ ws, d.typeOf w ≠ some .timeHi); (let rowless := (s.csiAt p).row = none ∧ (∀ w ∈ ws, d.typeOf w = some .vector); (s.running (pgCsi p) = true) ∧ (s.bit (rk (pgCsi p) 0x100) 0 = false) ∧ ((s.csiAt p).out = []) ∧ ((s.csiAt p).queue = q :: rest) ∧ (s.csiDesc p = some d) ∧ (q.pkt.crcOk = true) ∧ (early ∨ rowless))) else true) ∧
    (let k : CsiQueued := ⟨{ hdr := .good, vc := 1, dt := 0x30, payload := ((pays ++ vecs)[0]'(by decide)), crcOk := true },5,7⟩; let s := (st [(rk 0x23 0x10, 1), (rk 0x23 0x104, 1+ 0x100 + 0x2B0000), (rk 0x23 0x100, 0x64000), (rk 0x23 0x140, 5), (rk 0x23 0x108, 0)]).setCsi 3 { queue := [k,k], prevThi := none, row := none }; if (s.csiDesc 3).isSome then let s : State := s; let p : Fin 16 := 3; let g : Fin 64 := 0x23; let h : Fin 2 := 0; (g.val = pgCsi p) ∧ (s.reaches h = true) ∧ (s.isOwner h = true) ∧ (s.blk g = stIdle) ∧ (s.enabled g = false) ∧ (s.held g = false) ∧ ((s.enableJudge g).2 = true) else true) := by refine ⟨?_, ?_⟩ <;> decide +kernel

/-- The hypotheses of Obligations.SelfTestPages are met. -/
theorem witness_SelfTestPages :
    (let s : State := (st [(rk pgSys 0x104, 0), (rk (((List.finRange 64)[0]'(by decide)) : Fin 64) 0x10, 2)]); let h : Fin 2 := 1; let p : Fin 64 := (((List.finRange 64)[0]'(by decide)) : Fin 64); let listed := [pgTime, pgMem, pgTT, pgGrid, pgTrk, pgChain, pgEgo, pgFab] ++ (List.range 6).map pgEng ++ (List.range 2).map pgFend ++ (List.range 16).map pgCsi ++ (List.range 8).map pgEth ++ [pgImu, pgWheel] ++ (List.range 4).map pgCan ++ [pgTrig]; (let others := [pgSys, pgClk, pgPwr, pgSafe, pgSec, pgQuay, pgDbg, pgPort 0, pgPort 1, pgCommons, pgHub 0, pgHub 1, pgStream]; (s.reaches h = true) ∧ (p.val ∈ listed ∨ p.val ∈ others) ∧ (p.val ∈ others))) ∧
    (let s : State := (st [(rk pgSys 0x104, 0), (rk (((List.finRange 64)[5]'(by decide)) : Fin 64) 0x10, 2)]); let h : Fin 2 := 1; let p : Fin 64 := (((List.finRange 64)[5]'(by decide)) : Fin 64); let listed := [pgTime, pgMem, pgTT, pgGrid, pgTrk, pgChain, pgEgo, pgFab] ++ (List.range 6).map pgEng ++ (List.range 2).map pgFend ++ (List.range 16).map pgCsi ++ (List.range 8).map pgEth ++ [pgImu, pgWheel] ++ (List.range 4).map pgCan ++ [pgTrig]; (let others := [pgSys, pgClk, pgPwr, pgSafe, pgSec, pgQuay, pgDbg, pgPort 0, pgPort 1, pgCommons, pgHub 0, pgHub 1, pgStream]; (s.reaches h = true) ∧ (p.val ∈ listed ∨ p.val ∈ others) ∧ (p.val ∈ listed))) := by refine ⟨?_, ?_⟩ <;> decide +kernel

end G17

end Sys2Proof.Tests
end

