-- ==== Sys2Proof/Proofs/Canonical.lean ====
section
/-! The canonical form and the queue (R31, R479, log 12). `Sound q s` says that registers, memory, planes and tracks of `s` are canonical and its
queue is `q`; one lemma per operation of the model says that the operation keeps it, in the order of the model's chapters. -/

namespace Sys2Proof.Machine

/-- The state is in canonical form and its queue is `q`. -/
structure Sound (q : List Instr) (s : State) : Prop where
  queue : s.pending = q
  regs : SMap.wf regReset s.regs = true
  mem : SMap.wf memDefault s.mem = true
  gridMem : SMap.wf planeDefault s.gridMem = true
  tracks : SMap.wf (fun _ => none) s.trk.tracks = true

section
variable {q : List Instr} {s t : State}

/-- The parts of the state that the form speaks of, with the whole of TRK. -/
def State.core : State → List Instr × SMap Word × SMap Byte × SMap Byte × Tracker
  | { pending := queue, regs := regs, mem := mem, gridMem := planes, trk := trk, .. } => (queue, regs, mem, planes, trk)

/-- The parts of the state that the form speaks of. -/
def State.coreTracks : State → List Instr × SMap Word × SMap Byte × SMap Byte × SMap (Option Track)
  | { pending := queue, regs := regs, mem := mem, gridMem := planes, trk := { tracks := tracks, .. }, .. } =>
    (queue, regs, mem, planes, tracks)

/-- An update of other parts of the state keeps the form. -/
theorem Sound.same (hs : Sound q s) (e : t.core = (s.pending, s.regs, s.mem, s.gridMem, s.trk)) : Sound q t := by
  obtain ⟨e1, e2, e3, e4, e5⟩ : t.pending = s.pending ∧ t.regs = s.regs ∧ t.mem = s.mem ∧ t.gridMem = s.gridMem ∧ t.trk = s.trk := by
    simpa [State.core] using e
  exact ⟨e1 ▸ hs.queue, e2 ▸ hs.regs, e3 ▸ hs.mem, e4 ▸ hs.gridMem, e5 ▸ hs.tracks⟩

/-- An update of other parts of the state, or of TRK's other fields, keeps the form. -/
theorem Sound.setTrk (hs : Sound q s) (e : t.coreTracks = (s.pending, s.regs, s.mem, s.gridMem, s.trk.tracks)) : Sound q t := by
  obtain ⟨e1, e2, e3, e4, e5⟩ : t.pending = s.pending ∧ t.regs = s.regs ∧ t.mem = s.mem ∧ t.gridMem = s.gridMem ∧
      t.trk.tracks = s.trk.tracks := by
    simpa [State.coreTracks] using e
  exact ⟨e1 ▸ hs.queue, e2 ▸ hs.regs, e3 ▸ hs.mem, e4 ▸ hs.gridMem, e5 ▸ hs.tracks⟩

theorem Sound.ite {c : Prop} [Decidable c] (hs : Sound q s) (ht : Sound q t) : Sound q (if c then s else t) := by
  split
  · exact hs
  · exact ht

theorem Sound.iteFst {β : Type} {c : Prop} [Decidable c] {a b : State × β} (ha : Sound q a.1) (hb : Sound q b.1) :
    Sound q (if c then a else b).1 := by
  split
  · exact ha
  · exact hb

theorem Sound.foldlFst {ι β : Type} {f : State × β → ι → State × β} {l : List ι} {a : State × β}
    (hf : ∀ a x, Sound q a.1 → Sound q (f a x).1) (h : Sound q a.1) : Sound q (l.foldl f a).1 := by
  induction l generalizing a with
  | nil => exact h
  | cons x l ih => exact ih (hf a x h)

theorem Sound.of_eq {β : Type} {p : State × β} {x : β} (h : Sound q p.1) (e : p = (s, x)) : Sound q s := by
  rw [e] at h; exact h

theorem Sound.foldl {ι : Type} {f : State → ι → State} {l : List ι} (hf : ∀ s x, Sound q s → Sound q (f s x)) (h : Sound q s) :
    Sound q (l.foldl f s) := by
  induction l generalizing s with
  | nil => exact h
  | cons x l ih => exact ih (hf s x h)


/-! ### Ops -/

theorem Sound.wr {k v} (hs : Sound q s) : Sound q (s.wr k v) := { hs with regs := SMap.wf_set _ _ _ hs.regs }
theorem Sound.wrN {k v} (hs : Sound q s) : Sound q (s.wrN k v) := hs.wr
theorem Sound.setFld {k hi lo v} (hs : Sound q s) : Sound q (s.setFld k hi lo v) := hs.wrN
theorem Sound.setBit {k b v} (hs : Sound q s) : Sound q (s.setBit k b v) := hs.setFld
theorem Sound.wr64 {k v} (hs : Sound q s) : Sound q (s.wr64 k v) := hs.wrN.wrN
theorem Sound.bump {k n} (hs : Sound q s) : Sound q (s.bump k n) := hs.wr64
theorem Sound.sat {k n} (hs : Sound q s) : Sound q (s.sat k n) := hs.wrN
theorem Sound.peak {k hi lo v} (hs : Sound q s) : Sound q (s.peak k hi lo v) := .ite hs.setFld hs
theorem Sound.setCsi {p v} (hs : Sound q s) : Sound q (s.setCsi p v) := hs.same rfl
theorem Sound.setEth {p v} (hs : Sound q s) : Sound q (s.setEth p v) := hs.same rfl
theorem Sound.setSpi {p v} (hs : Sound q s) : Sound q (s.setSpi p v) := hs.same rfl
theorem Sound.setWheel {p v} (hs : Sound q s) : Sound q (s.setWheel p v) := hs.same rfl
theorem Sound.setCan {p v} (hs : Sound q s) : Sound q (s.setCan p v) := hs.same rfl
theorem Sound.setSlot {p v} (hs : Sound q s) : Sound q (s.setSlot p v) := hs.same rfl
theorem Sound.setFend {p v} (hs : Sound q s) : Sound q (s.setFend p v) := hs.same rfl
theorem Sound.setT0 {p v} (hs : Sound q s) : Sound q (s.setT0 p v) := hs.same rfl
theorem Sound.setLoop {p v} (hs : Sound q s) : Sound q (s.setLoop p v) := hs.same rfl
theorem Sound.setCore {p v} (hs : Sound q s) : Sound q (s.setCore p v) := hs.same rfl
theorem Sound.setRtr {p v} (hs : Sound q s) : Sound q (s.setRtr p v) := hs.same rfl
theorem Sound.setEdge {p v} (hs : Sound q s) : Sound q (s.setEdge p v) := hs.same rfl
theorem Sound.setEng {p v} (hs : Sound q s) : Sound q (s.setEng p v) := hs.same rfl
theorem Sound.setBin {p v} (hs : Sound q s) : Sound q (s.setBin p v) := hs.same rfl
theorem Sound.setPort {p v} (hs : Sound q s) : Sound q (s.setPort p v) := hs.same rfl
theorem Sound.setNet {b v} (hs : Sound q s) : Sound q (s.setNet b v) := hs.same rfl
theorem Sound.draw (hs : Sound q s) : Sound q s.draw.2 := hs.same rfl
theorem Sound.drawWords {k} (hs : Sound q s) : Sound q (s.drawWords k).1 := by
  induction k generalizing s with
  | zero => exact hs
  | succ k ih => exact ih hs.draw
theorem Sound.msix {h v} (hs : Sound q s) : Sound q (s.msix h v) := .ite hs (.ite hs.setPort (.ite hs hs.setPort))
theorem Sound.signal {p en b} (hs : Sound q s) : Sound q (s.signal p en b) := .foldl (fun _ _ hs => .ite hs.msix hs) hs
theorem Sound.offer {o} (hs : Sound q s) : Sound q (s.offer o) := .ite (hs.same rfl) hs
theorem Sound.window {w d} (hs : Sound q s) : Sound q (s.window w d) := .ite (hs.same rfl) hs
theorem Sound.tapClose (hs : Sound q s) : Sound q s.tapClose := by
  unfold State.tapClose
  extract_lets
  split
  · exact hs
  · exact .offer (hs.same rfl)
theorem Sound.tapTake {k r} (hs : Sound q s) : Sound q (s.tapTake k r) := by
  unfold State.tapTake
  extract_lets _ _ _ s2 _
  have hs2 : Sound q s2 := .same (.ite hs.tapClose hs) rfl
  exact .ite hs (.ite (hs2.same rfl) (hs.same rfl))
theorem Sound.logAt {lvl p cls code args fus} (hs : Sound q s) : Sound q (s.logAt lvl p cls code args fus) := .ite hs.offer hs
theorem Sound.log {lvl p cls code args} (hs : Sound q s) : Sound q (s.log lvl p cls code args) := hs.logAt
theorem Sound.event {p b} (hs : Sound q s) : Sound q (s.event p b) := .ite hs hs.setBit.signal
theorem Sound.cfgIgnored {p} (hs : Sound q s) : Sound q (s.cfgIgnored p) := hs.event
theorem Sound.toSafe {src p b inst} (hs : Sound q s) : Sound q (s.toSafe src p b inst) := hs.same rfl
theorem Sound.fault {p b inst} (hs : Sound q s) : Sound q (s.fault p b inst) := by
  unfold State.fault
  extract_lets s2
  have hs2 : Sound q s2 := .ite hs hs.setBit.signal
  exact hs2.toSafe
theorem Sound.recordDone {p} (hs : Sound q s) : Sound q (s.recordDone p) := hs.same rfl
theorem Sound.setBlk {p st} (hs : Sound q s) : Sound q (s.setBlk p st) := by
  unfold State.setBlk
  extract_lets _ _ s3
  have hs3 : Sound q s3 := .ite hs.setFld.setBit hs.setFld
  exact .ite hs hs3.log
theorem Sound.cmdDone {p res err} (hs : Sound q s) : Sound q (s.cmdDone p res err) := .ite (.ite hs.wrN.log.msix hs.wrN.log) hs
theorem Sound.cmdAccept {h p code} (hs : Sound q s) : Sound q (s.cmdAccept h p code) := hs.wrN
theorem Sound.command {h p code role run} (hs : Sound q s) (hr : ∀ f ∈ run, ∀ s, Sound q s → Sound q (f s)) :
    Sound q (s.command h p code role run) := by
  unfold State.command
  extract_lets
  split
  · exact hs.wrN.setBit.bump
  · split
    · exact hs.wrN.cmdAccept.cmdDone
    · split
      · exact hs.wrN.cmdAccept.cmdDone
      · exact hr _ rfl _ hs.wrN.cmdAccept
theorem Sound.reply {h r d} (hs : Sound q s) : Sound q (s.reply h r d) := hs.setPort
theorem Sound.replyUr {h} (hs : Sound q s) : Sound q (s.replyUr h) := hs.reply.bump
theorem Sound.replyCa {h} (hs : Sound q s) : Sound q (s.replyCa h) := hs.reply.bump
theorem Sound.denied {h} (hs : Sound q s) : Sound q (s.denied h) := hs.bump
theorem Sound.hostAccess {h f} (hs : Sound q s) (hf : ∀ s, Sound q s → Sound q (f s)) : Sound q (s.hostAccess h f) :=
  .ite (.ite hs.replyUr (hf _ hs)) hs
theorem Sound.hostWrite {h f} (hs : Sound q s) (hf : ∀ s, Sound q s → Sound q (f s)) : Sound q (s.hostWrite h f) :=
  hs.hostAccess (fun _ hs => .bump (hf _ hs.reply))
theorem Sound.ownerWrite {h p takes f} (hs : Sound q s) (hf : ∀ s, Sound q s → Sound q (f s)) : Sound q (s.ownerWrite h p takes f) :=
  .ite hs.denied (.ite hs (.ite (hf _ hs) (.ite hs.denied hs)))
theorem Sound.hostCmd {h p code role run} (hs : Sound q s) (hr : ∀ f ∈ run, ∀ s, Sound q s → Sound q (f s)) :
    Sound q (s.hostCmd h p code role run) :=
  hs.hostWrite (fun _ hs => .ite hs.denied (.ite hs (hs.command hr)))
/-- A command whose meaning keeps the form. -/
theorem Sound.hostCmdSome {h p code role f} (hs : Sound q s) (hf : ∀ s, Sound q s → Sound q (f s)) :
    Sound q (s.hostCmd h p code role (some f)) :=
  hs.hostCmd (fun _ e => Option.some.inj e ▸ hf)
theorem Sound.setByte {a v} (hs : Sound q s) : Sound q (s.setByte a v) := by
  unfold State.setByte
  split
  · exact { hs with gridMem := SMap.wf_set _ _ _ hs.gridMem }
  · exact { hs with mem := SMap.wf_set _ _ _ hs.mem }
theorem Sound.setBytes {a bs} (hs : Sound q s) : Sound q (s.setBytes a bs) := by
  induction bs generalizing s a with
  | nil => exact hs
  | cons b bs ih => exact ih hs.setByte
theorem Sound.putLE {a n v} (hs : Sound q s) : Sound q (s.putLE a n v) := hs.setBytes
theorem Sound.zeroMem {a n} (hs : Sound q s) : Sound q (s.zeroMem a n) := { hs with mem := SMap.wf_clear _ _ _ hs.mem }
theorem Sound.eccLast {k g flags} (hs : Sound q s) : Sound q (s.eccLast k g flags) := hs.wrN.wrN
theorem Sound.setBad {g u} (hs : Sound q s) : Sound q (s.setBad g u) := hs.same rfl
theorem Sound.checkGranule {g patrol} (hs : Sound q s) : Sound q (s.checkGranule g patrol).1 := by
  unfold State.checkGranule
  split
  · exact hs
  · exact hs.setBad.eccLast.bump.fault
  · exact hs.eccLast.bump.fault
  · exact hs.eccLast.bump.bump.fault
theorem Sound.checkGranules {gs} (hs : Sound q s) : Sound q (s.checkGranules gs).1 := .foldlFst (fun _ _ hs => hs.checkGranule) hs
theorem Sound.checkRange {a n} (hs : Sound q s) : Sound q (s.checkRange a n).1 := hs.checkGranules
theorem Sound.clearBad {a n} (hs : Sound q s) : Sound q (s.clearBad a n) := hs.same rfl
theorem Sound.clearCommonsBad {a n} (hs : Sound q s) : Sound q (s.clearCommonsBad a n) := hs.same rfl
theorem Sound.setCommonsBad {w u} (hs : Sound q s) : Sound q (s.setCommonsBad w u) := hs.same rfl
theorem Sound.checkCommonsWord {w u} (hs : Sound q s) : Sound q (s.checkCommonsWord w u).1 :=
  .iteFst hs.setCommonsBad.bump.toSafe hs.wrN.fault
theorem Sound.checkCommons {a n} (hs : Sound q s) : Sound q (s.checkCommons a n).1 := .foldlFst (fun _ _ hs => hs.checkCommonsWord) hs
theorem Sound.secDeny {m a write} (hs : Sound q s) : Sound q (s.secDeny m a write) := hs.bump.wrN.wrN.event
theorem Sound.reservedAccess {m a} (hs : Sound q s) : Sound q (s.reservedAccess m a) := hs.bump.wrN.wrN
theorem Sound.chargeTo {n p} (hs : Sound q s) : Sound q (s.chargeTo n p) := hs.same rfl
theorem Sound.loadFor {p m a n} (hs : Sound q s) : Sound q (s.loadFor p m a n).1 :=
  .iteFst (.iteFst hs.bump.checkRange hs.bump.checkRange.chargeTo) (.iteFst (.iteFst hs.secDeny
    (.iteFst hs.bump.checkCommons hs.bump.checkCommons.chargeTo)) (.iteFst hs hs.reservedAccess))
theorem Sound.load {m a n} (hs : Sound q s) : Sound q (s.load m a n).1 := hs.loadFor
theorem Sound.injectOn {a n} (hs : Sound q s) : Sound q (s.injectOn a n) := .ite hs.setBad.setBit hs
theorem Sound.checkPartial {a n} (hs : Sound q s) : Sound q (s.checkPartial a n).1 := .foldlFst (fun _ _ hs => hs.checkCommonsWord) hs
theorem Sound.store {m a bs} (hs : Sound q s) : Sound q (s.store m a bs).1 :=
  .iteFst (.iteFst hs.bump.bump.checkGranules.clearBad.setBytes.injectOn hs.bump.bump.checkGranules.chargeTo) (.iteFst
    (.iteFst hs.secDeny (.iteFst hs.bump.checkPartial.clearCommonsBad.setBytes hs.bump.checkPartial.chargeTo))
    (.iteFst hs.setBytes hs.reservedAccess))
theorem Sound.put {m a bs} (hs : Sound q s) : Sound q (s.put m a bs) := hs.store
theorem Sound.sourceFires {source param buf} (hs : Sound q s) : Sound q (s.sourceFires source param buf) := hs.same rfl
theorem Sound.sourceRewrites {source param span} (hs : Sound q s) : Sound q (s.sourceRewrites source param span) := hs.same rfl
theorem Sound.batchWritten {p span} (hs : Sound q s) : Sound q (s.batchWritten p span) := .foldl (fun _ _ hs => hs.same rfl) hs

/-! ### Operands -/

theorem Sound.ringPut {base size off bs} (hs : Sound q s) : Sound q (s.ringPut base size off bs).1 :=
  .iteFst hs (.ite hs.put hs.put.put)

/-! ### Fend -/

theorem Sound.warmShow (hs : Sound q s) : Sound q s.warmShow := .ite hs hs.setBit.event
theorem Sound.sensJudge {h k} (hs : Sound q s) : Sound q (s.sensJudge h k) := .ite hs.setBit.setBit.event hs.setBit.warmShow
theorem Sound.sensStop {h k} (hs : Sound q s) : Sound q (s.sensStop h k) := hs.setFld.setT0.setFend.warmShow
theorem Sound.clearing {sensor} (hs : Sound q s) : Sound q (s.clearing sensor) :=
  .ite hs (.ite hs.sensJudge hs.sensJudge.setFld.setT0.setFend)
theorem Sound.clearRegions {h k} (hs : Sound q s) : Sound q (s.clearRegions h k) := .foldl (fun _ _ hs => hs.setByte) hs.setBytes
theorem Sound.clearDone {sensor} (hs : Sound q s) : Sound q (s.clearDone sensor) := .ite hs hs.clearRegions.setFld.setFend
theorem Sound.fendShed {h k} (hs : Sound q s) : Sound q (s.fendShed h k) := by
  unfold State.fendShed
  extract_lets
  split
  · exact hs.bump.bump
  · exact hs.bump.bump.setFend
theorem Sound.fendEmit {h k r} (hs : Sound q s) : Sound q (s.fendEmit h k r) := hs.setFend.tapTake.bump.bump
theorem Sound.fendPixel {h k x y} (hs : Sound q s) : Sound q (s.fendPixel h k x y).1 := hs.setByte
theorem Sound.fendDerot {h k tf rx ry} (hs : Sound q s) : Sound q (s.fendDerot h k tf rx ry).1 := .iteFst hs (.iteFst hs hs.sat)
theorem Sound.fendSurface {h k p x y now tf} (hs : Sound q s) : Sound q (s.fendSurface h k p x y now tf) := by
  unfold State.fendSurface
  extract_lets _ s2
  have hs2 : Sound q s2 := .ite hs.sat hs.putLE
  exact .ite hs2.setT0 hs2
theorem Sound.fendFinish {h k w p x y now tf rx ry} (hs : Sound q s) : Sound q (s.fendFinish h k w p x y now tf rx ry) := by
  unfold State.fendFinish
  extract_lets
  split
  · extract_lets s3
    have hs3 : Sound q s3 := .ite hs.fendSurface.sat hs.fendSurface
    exact .ite hs3.fendShed hs3.fendEmit
theorem Sound.fendKind0 {h k w} (hs : Sound q s) : Sound q (s.fendKind0 h k w) := by
  unfold State.fendKind0
  extract_lets
  split
  · exact hs.bump
  · split
    · rename_i e
      have hs2 := hs.fendPixel.of_eq e
      split
      · exact hs2.bump
      · split
        · exact hs2.bump
        · split
          · exact hs2.bump
          · split
            · rename_i e
              have hs3 := hs2.fendDerot.of_eq e
              exact hs3.bump
            · rename_i e
              have hs3 := hs2.fendDerot.of_eq e
              exact hs3.fendFinish
theorem Sound.fendEvent {p} (hs : Sound q s) : Sound q (s.fendEvent p) := by
  unfold State.fendEvent
  extract_lets
  split
  · exact hs
  · exact .ite hs (.ite hs.setFend.setCsi.bump.bump (.ite hs.setFend.setCsi.bump.fendEmit hs.setFend.setCsi.bump.fendKind0))
theorem Sound.fendOutStall {h cycles} (hs : Sound q s) : Sound q (s.fendOutStall h cycles) := hs.sat
theorem Sound.sweepSensor {h k} (hs : Sound q s) : Sound q (s.sweepSensor h k) := by
  unfold State.sweepSensor
  extract_lets _ _ _ s2 _ _ s3
  have hs2 : Sound q s2 := .foldl (fun _ _ hs => .ite hs.putLE hs) hs
  have hs3 : Sound q s3 := .foldl (fun _ _ hs => hs.setByte) hs2
  exact hs3.wrN
theorem Sound.sweep {h} (hs : Sound q s) : Sound q (s.sweep h) := by
  unfold State.sweep
  extract_lets _ s2 _
  have hs2 : Sound q s2 := .foldl (fun _ _ hs => .ite hs.sweepSensor hs) hs
  exact .ite hs hs2.wrN.setFend
theorem Sound.surfWarm {sensor} (hs : Sound q s) : Sound q (s.surfWarm sensor) := by
  unfold State.surfWarm
  split
  · exact .ite hs.setBit.warmShow hs
  · exact hs
theorem Sound.fendStart {h} (hs : Sound q s) : Sound q (s.fendStart h) := hs.setFend
theorem Sound.fendStop {h} (hs : Sound q s) : Sound q (s.fendStop h) := .foldl (fun _ _ hs => hs.sensStop) hs
theorem Sound.fendDropLoop {h key ev} (hs : Sound q s) : Sound q (s.fendDropLoop h key ev) := .ite hs.setLoop.event hs.setLoop
theorem Sound.fendDismiss {h} (hs : Sound q s) : Sound q (s.fendDismiss h) :=
  .foldl (fun _ _ hs => hs.fendDropLoop.setBit) hs.fendStop.fendDropLoop

/-! ### Binner -/

theorem Sound.binStart {k} (hs : Sound q s) : Sound q (s.binStart k) := hs.setBin
theorem Sound.binRecord {h} (hs : Sound q s) : Sound q (s.binRecord h) := by
  unfold State.binRecord
  extract_lets
  split
  · exact hs
  · exact .ite hs.setFend (.ite hs.setFend.sat (.ite hs.setFend.setBin hs.setFend.setBin.sat))
theorem Sound.binClose {k} (hs : Sound q s) : Sound q (s.binClose k) := by
  unfold State.binClose
  extract_lets
  split
  · exact hs
  · split
    · rename_i e
      have hs3 := Sound.of_eq (.iteFst hs.sourceRewrites hs.sourceRewrites.store) e
      split
      · rename_i e
        have hs4 := Sound.of_eq (.iteFst hs3 hs3.store) e
        exact hs4.put.setBin.sourceFires

/-! ### Loops -/

theorem Sound.sendLoop {key v} (hs : Sound q s) : Sound q (s.sendLoop key v) := hs.setLoop
theorem Sound.shedNext {h} (hs : Sound q s) : Sound q (s.shedNext h) := hs.wrN
theorem Sound.loopValueWrite {t'} (hs : Sound q s) : Sound q (s.loopValueWrite t') := by
  unfold State.loopValueWrite
  extract_lets
  split
  · exact hs.setLoop.shedNext
  · exact hs.setLoop.same rfl
  · exact hs.setLoop.setTrk rfl
  · exact hs.setLoop
theorem Sound.loopStale {t'} (hs : Sound q s) : Sound q (s.loopStale t') := by
  unfold State.loopStale
  extract_lets
  split
  · exact hs
  · split
    · exact hs.setLoop.event
    · exact hs.setLoop.event.setBit.same rfl
    · exact hs.setLoop.event.setBit
    · exact hs.setLoop
    · exact hs.setLoop.event.setBit
    · exact hs.setLoop
theorem Sound.adoptRate {h} (hs : Sound q s) : Sound q (s.adoptRate h) := by
  unfold State.adoptRate
  extract_lets _ _ _ _ s3
  have hs3 : Sound q s3 := .ite hs.setLoop.event (.ite hs.setLoop.event hs.setLoop)
  exact .foldl (fun _ _ hs => .ite hs.setBit (.ite hs.setBit hs)) hs3
theorem Sound.adoptRoi {h k} (hs : Sound q s) : Sound q (s.adoptRoi h k) := by
  unfold State.adoptRoi
  extract_lets _ _ _ _ _ s3 _
  have hs3 : Sound q s3 := .ite hs.setLoop.event (.ite hs.setLoop.event hs.setLoop)
  split
  · exact .foldl (fun _ _ hs => hs.wr) hs3.setBit
  · exact hs3.setBit
theorem Sound.adoptShed {h w} (hs : Sound q s) : Sound q (s.adoptShed h w) := by
  unfold State.adoptShed
  extract_lets
  split
  · exact hs
  · extract_lets _ _ s3 _ _ _
    have hs3 : Sound q s3 := .ite hs.setLoop.wrN.event (.ite hs.setLoop.wrN.event hs.setLoop.wrN)
    exact .wr64 (.setFld (hs3.same rfl))
theorem Sound.fendStepOpen {h} (hs : Sound q s) : Sound q (s.fendStepOpen h) := by
  unfold State.fendStepOpen
  extract_lets _ _ s3 _
  have hs3 : Sound q s3 := .shedNext (.foldl (fun _ _ hs => hs.adoptRoi) hs.adoptShed.adoptRate)
  exact .ite hs hs3.setFend

/-! ### SpiCan -/

theorem Sound.toChain {c} (hs : Sound q s) : Sound q (s.toChain c) := hs.same rfl
theorem Sound.imuMissed {sp n} (hs : Sound q s) : Sound q (s.imuMissed sp n) := hs.wrN
theorem Sound.spiRate {sp} (hs : Sound q s) : Sound q (s.spiRate sp) := by
  unfold State.spiRate
  extract_lets _ s2
  have hs2 : Sound q s2 := by
    unfold s2
    split
    · exact .ite hs.wrN hs
    · exact hs
  exact hs2.setSpi
theorem Sound.drdyEdge {sp rising} (hs : Sound q s) : Sound q (s.drdyEdge sp rising) := by
  unfold State.drdyEdge
  extract_lets
  split
  · exact hs
  · split
    · exact .ite hs.spiRate.setBit.imuMissed.setSpi (.setBit (.setSpi (.ite hs.spiRate.setBit.imuMissed hs.spiRate.setBit)))
    · exact .ite (.setBit (.setSpi (.ite hs.spiRate.setBit.imuMissed hs.spiRate.setBit))) hs.spiRate.setBit.setSpi
theorem Sound.spiTransfer {sp miso} (hs : Sound q s) : Sound q (s.spiTransfer sp miso) := by
  unfold State.spiTransfer
  extract_lets
  split
  · exact .ite hs hs.setSpi.setBit.setBit
  · exact hs
theorem Sound.spiSample {sp st d} (hs : Sound q s) : Sound q (s.spiSample sp st d) :=
  .ite hs.imuMissed (.foldl (fun _ _ hs => .ite hs.toChain hs) hs)
theorem Sound.spiTransferDone {sp} (hs : Sound q s) : Sound q (s.spiTransferDone sp) := by
  unfold State.spiTransferDone
  extract_lets
  split
  · exact hs.spiSample.setBit.setSpi
  · exact hs
theorem Sound.spiSilent {sp} (hs : Sound q s) : Sound q (s.spiSilent sp) := by
  unfold State.spiSilent
  split
  · exact .ite hs.setBit.event hs
  · exact hs
theorem Sound.imuStart (hs : Sound q s) : Sound q s.imuStart := .foldl (fun _ _ hs => hs.setSpi) hs
theorem Sound.spiDrop {sp} (hs : Sound q s) : Sound q (s.spiDrop sp) := hs.same rfl
theorem Sound.imuStop (hs : Sound q s) : Sound q s.imuStop := .foldl (fun _ _ hs => hs.imuMissed.spiDrop.setFld.setSpi) hs
theorem Sound.wheelReject {w n} (hs : Sound q s) : Sound q (s.wheelReject w n) := hs.wrN
theorem Sound.wheelEdge {w rising} (hs : Sound q s) : Sound q (s.wheelEdge w rising) := .ite hs (.ite hs.wheelReject hs.setWheel.wrN)
theorem Sound.wheelSample {w} (hs : Sound q s) : Sound q (s.wheelSample w) := .ite hs hs.setWheel.wr.toChain
theorem Sound.wheelStart (hs : Sound q s) : Sound q s.wheelStart := .foldl (fun _ _ hs => hs.setWheel) hs
theorem Sound.wheelStop (hs : Sound q s) : Sound q s.wheelStop := .foldl (fun _ _ hs => hs.wheelReject.setWheel) hs
theorem Sound.canToRing {c f st} (hs : Sound q s) : Sound q (s.canToRing c f st) := .ite hs.bump hs.ringPut.setCan
theorem Sound.canToSlots {c k f st} (hs : Sound q s) : Sound q (s.canToSlots c k f st) := .foldl (fun _ _ hs => .ite hs hs.setSlot) hs
theorem Sound.canDeliver {c f st} (hs : Sound q s) : Sound q (s.canDeliver c f st) := by
  unfold State.canDeliver
  split
  · exact hs.bump
  · split
    · exact hs.canToRing
    · exact hs.canToSlots
    · exact hs.canToRing.canToSlots
    · exact hs
theorem Sound.canServe {c} (hs : Sound q s) : Sound q (s.canServe c) := .ite (.foldl (fun _ _ hs => hs.canDeliver) hs.setCan) hs
theorem Sound.setCanErr {c tec rec} (hs : Sound q s) : Sound q (s.setCanErr c tec rec) := hs.setFld
theorem Sound.canErrRx {c} (hs : Sound q s) : Sound q (s.canErrRx c) := hs.draw.setCanErr
theorem Sound.canErrTx {c} (hs : Sound q s) : Sound q (s.canErrTx c) := hs.draw.setCanErr
theorem Sound.canFrameRx {c f} (hs : Sound q s) : Sound q (s.canFrameRx c f) :=
  .ite hs (.ite hs.canErrRx.bump.canServe hs.canErrRx.bump.setCan.canServe)
theorem Sound.canSlotSample {k} (hs : Sound q s) : Sound q (s.canSlotSample k) := .ite hs hs.setSlot.toChain
theorem Sound.canFrameTx {c} (hs : Sound q s) : Sound q (s.canFrameTx c) := by
  unfold State.canFrameTx
  extract_lets
  split
  · exact hs
  · exact .ite hs hs.setCan.bump.canErrTx
theorem Sound.busOff {c} (hs : Sound q s) : Sound q (s.busOff c) := .ite hs hs.setFld.setFld.bump.event
theorem Sound.canRecover {c} (hs : Sound q s) : Sound q (s.canRecover c) := .ite hs.wrN hs
theorem Sound.busOffRecovery {c} (hs : Sound q s) : Sound q (s.busOffRecovery c) := .ite hs.canRecover hs
theorem Sound.canSend {c f} (hs : Sound q s) : Sound q (s.canSend c f) := .ite hs.cmdDone (.ite hs.cmdDone hs.setCan.cmdDone)
theorem Sound.canStop {c} (hs : Sound q s) : Sound q (s.canStop c) := hs.bump.setCan

/-! ### Chain -/

theorem Sound.setChan {c v} (hs : Sound q s) : Sound q (s.setChan c v) := hs.same rfl
theorem Sound.setStale {c v} (hs : Sound q s) : Sound q (s.setStale c v) := .ite hs hs.setBit.setBit.event
theorem Sound.setSettling {c v} (hs : Sound q s) : Sound q (s.setSettling c v) := hs.setBit.setBit
theorem Sound.dcStage {c x} (hs : Sound q s) : Sound q (s.dcStage c x).1 := .iteFst hs hs.wr.setBit
theorem Sound.chanFill {c x k} (hs : Sound q s) : Sound q (s.chanFill c x k) := by
  induction k generalizing s with
  | zero => exact hs
  | succ k ih =>
    unfold State.chanFill
    extract_lets
    split
    · exact hs
    · exact ih hs.dcStage.bump.setFld.setChan
theorem Sound.chainTake {i} (hs : Sound q s) : Sound q (s.chainTake i) :=
  .ite hs (.ite hs.bump.chanFill.dcStage.setChan.setStale.setSettling
    (.ite hs.bump.chanFill.dcStage.setChan.setSettling hs.bump.chanFill.dcStage.setChan))
theorem Sound.chainSample (hs : Sound q s) : Sound q s.chainSample := by
  unfold State.chainSample
  extract_lets
  split
  · exact hs
  · exact .chainTake (hs.same rfl)
theorem Sound.chanJudgeStale {c} (hs : Sound q s) : Sound q (s.chanJudgeStale c) := .ite hs hs.setStale.setSettling
theorem Sound.firStart {c tau r} (hs : Sound q s) : Sound q (s.firStart c tau r) := by
  unfold State.firStart
  extract_lets s2 _ _ _
  have hs2 : Sound q s2 := .ite hs.setStale.setSettling hs
  exact hs2.setChan
theorem Sound.firRelease {c r j} (hs : Sound q s) : Sound q (s.firRelease c r j) := by
  unfold State.firRelease
  extract_lets
  split
  · rename_i s2 _ _ e
    have hs2 : Sound q s2 := by
      split at e
      · exact .of_eq (p := match s.drawWords 2 with | (s, ws) => (s, ws.getD 0 0, (ws.getD 1 0).toNat)) hs.drawWords e
      · exact .of_eq hs e
    extract_lets _ _ _ _ s5
    have hs5 : Sound q s5 := .ite hs2.setChan.bump.bump hs2.setChan.bump
    exact hs5.wr.wr64
theorem Sound.firSlot {r c} (hs : Sound q s) : Sound q (s.firSlot r c) := by
  unfold State.firSlot
  extract_lets _ s2 _ _ _
  have hs2 : Sound q s2 := by
    unfold s2
    split
    · exact .ite hs.firRelease hs.setChan
    · exact hs
  exact .ite hs (.ite hs2 hs2.firStart.setChan)
theorem Sound.firRound (hs : Sound q s) : Sound q s.firRound := by
  unfold State.firRound
  extract_lets _ _ s2
  have hs2 : Sound q s2 := hs.same rfl
  exact .ite hs (.ite hs2 (.bump (.foldl (fun _ _ hs => hs.firSlot) hs2)))
theorem Sound.coefRefuse {slot e} (hs : Sound q s) : Sound q (s.coefRefuse slot e) := hs.wrN.bump.event.cmdDone
theorem Sound.coefRead {a n} (hs : Sound q s) : Sound q (s.coefRead a n).1 := .iteFst hs.load hs
theorem Sound.coefDone {slot a} (hs : Sound q s) : Sound q (s.coefDone slot a) := by
  unfold State.coefDone
  extract_lets _ s2
  have hs2 : Sound q s2 := hs.same rfl
  split
  · rename_i e
    have hs3 := hs2.coefRead.of_eq e
    extract_lets
    split
    · rename_i e
      have hs4 := Sound.of_eq (.iteFst hs3 hs3.coefRead) e
      extract_lets
      split
      · exact hs4.coefRefuse
      · extract_lets s5
        have hs5 : Sound q s5 := hs4.same rfl
        exact hs5.bump.event.cmdDone
theorem Sound.coefServe (hs : Sound q s) : Sound q s.coefServe := by
  unfold State.coefServe
  split
  · exact hs
  · exact .ite hs hs.coefDone
theorem Sound.coefLoad (hs : Sound q s) : Sound q s.coefLoad := .ite hs.coefRefuse (.coefServe (hs.same rfl))
theorem Sound.chanJudge {c} (hs : Sound q s) : Sound q (s.chanJudge c) := .ite hs.setBit.event hs
theorem Sound.chainAbandon (hs : Sound q s) : Sound q s.chainAbandon := hs.same rfl
theorem Sound.chainStart (hs : Sound q s) : Sound q s.chainStart := by
  unfold State.chainStart
  extract_lets _ _ s3
  have hs3 : Sound q s3 := hs.chainAbandon.same rfl
  exact .foldl (fun _ _ hs => .ite hs.setChan.setStale hs.setChan) hs3
theorem Sound.chainStop (hs : Sound q s) : Sound q s.chainStop := hs.chainAbandon
theorem Sound.chainDismiss (hs : Sound q s) : Sound q s.chainDismiss := by
  unfold State.chainDismiss
  extract_lets _ _ _ s3 _ s4
  have hs3 : Sound q s3 := hs.chainAbandon.same rfl
  have hs4 : Sound q s4 := hs3.same rfl
  exact .foldl (fun _ _ hs => hs.setStale.setSettling) hs4
theorem Sound.chainFusStep {at_ j} (hs : Sound q s) : Sound q (s.chainFusStep at_ j) := by
  unfold State.chainFusStep
  extract_lets _ _ _ _ s2 s3 _
  have hs2 : Sound q s2 := .foldl (fun _ _ hs => .ite hs hs.wr64) hs
  have hs3 : Sound q s3 := .foldl (fun _ _ hs => hs.setSpi) hs2
  exact hs3.same rfl

/-! ### Csi -/

theorem Sound.csiLocked {p} (hs : Sound q s) : Sound q (s.csiLocked p) := hs.setFld
theorem Sound.csiPacket {p k} (hs : Sound q s) : Sound q (s.csiPacket p k) := by
  unfold State.csiPacket
  extract_lets
  split
  · exact hs
  · split
    · exact hs.csiLocked.bump
    · extract_lets s3 _ _
      have hs3 : Sound q s3 := .ite hs.csiLocked.bump hs.csiLocked
      split
      · exact hs3
      · exact hs3.bump
      · exact hs3.bump
      · exact .ite hs3.bump.setCsi hs3.setFld.setCsi
theorem Sound.csiTime {p stamp x} (hs : Sound q s) : Sound q (s.csiTime p stamp x).1 := .iteFst hs.sat hs
theorem Sound.csiEmit {p w} (hs : Sound q s) : Sound q (s.csiEmit p w) := hs.setCsi.bump
theorem Sound.csiBadWord {p} (hs : Sound q s) : Sound q (s.csiBadWord p) := hs.bump
theorem Sound.csiWord {p stamp d w} (hs : Sound q s) : Sound q (s.csiWord p stamp d w) := by
  unfold State.csiWord
  extract_lets
  split
  · exact hs.csiBadWord
  · exact hs.setCsi.setBit.csiTime.csiEmit
  · split
    · exact hs.csiBadWord
    · split
      · exact hs.csiTime.csiEmit
      · exact hs.setCsi
      · exact hs.csiTime.csiEmit
      · split
        · exact hs.csiBadWord
        · split
          · exact hs
          · split
            · rename_i e
              have hs3 := hs.csiTime.of_eq e
              extract_lets s4
              have hs4 : Sound q s4 := .foldl (fun _ _ hs => hs.csiEmit) hs3
              exact .ite hs4.csiBadWord hs4
theorem Sound.csiPop {p q' rest} (hs : Sound q s) : Sound q (s.csiPop p q' rest) := hs.setFld.setCsi
theorem Sound.csiDecodePacket {p} (hs : Sound q s) : Sound q (s.csiDecodePacket p) := by
  unfold State.csiDecodePacket
  extract_lets
  split
  · exact hs
  · extract_lets
    split
    · exact hs
    · split
      · exact hs.csiPop.bump
      · split
        · exact hs.csiPop.bump
        · extract_lets s4
          have hs4 : Sound q s4 := .foldl (fun _ _ hs => hs.csiWord) hs.csiPop.bump
          exact .ite hs4.csiBadWord hs4
theorem Sound.csiCloseFrame {p f ended} (hs : Sound q s) : Sound q (s.csiCloseFrame p f ended) := hs.put.setCsi.setBit.sourceFires
theorem Sound.frameStart {p} (hs : Sound q s) : Sound q (s.frameStart p) := by
  unfold State.frameStart
  split
  · exact hs
  · extract_lets _ s3 _ _ _
    have hs3 : Sound q s3 := by
      unfold s3
      split
      · exact hs.csiPop.csiCloseFrame
      · exact hs.csiPop
    exact hs3.sourceRewrites.setCsi.setBit
theorem Sound.frameLine {p} (hs : Sound q s) : Sound q (s.frameLine p) := by
  unfold State.frameLine
  split
  · exact hs
  · extract_lets _ s3
    have hs3 : Sound q s3 := .ite hs.csiPop.bump hs.csiPop.bump.bump
    split
    · exact hs3
    · extract_lets s4 _
      have hs4 : Sound q s4 := .ite hs3.put hs3
      exact hs4.setCsi
theorem Sound.frameEnd {p} (hs : Sound q s) : Sound q (s.frameEnd p) := by
  unfold State.frameEnd
  split
  · exact hs
  · extract_lets
    split
    · exact hs.csiPop.csiCloseFrame
    · exact hs.csiPop
theorem Sound.csiCommit {p v} (hs : Sound q s) : Sound q (s.csiCommit p v) := .ite hs.setCsi hs
theorem Sound.csiStart {p} (hs : Sound q s) : Sound q (s.csiStart p) := hs.setCsi.setFld
theorem Sound.csiStop {p} (hs : Sound q s) : Sound q (s.csiStop p) := hs.bump.setFld.setFld.setCsi

/-! ### Eth -/

theorem Sound.ethToRing {p f copy} (hs : Sound q s) : Sound q (s.ethToRing p f copy) := .ite hs.bump hs.ringPut.setEth.wrN
theorem Sound.ptpFrame {p f o} (hs : Sound q s) : Sound q (s.ptpFrame p f o) := by
  unfold State.ptpFrame
  split
  · exact hs.bump
  · extract_lets s2
    have hs2 : Sound q s2 := .ite hs hs.bump
    exact .ite hs2.ethToRing hs2
theorem Sound.ethFrameRx {p f fcsOk} (hs : Sound q s) : Sound q (s.ethFrameRx p f fcsOk) := by
  unfold State.ethFrameRx
  extract_lets
  split
  · exact hs
  · split
    · exact hs.bump
    · split
      · exact hs.bump
      · split
        · split
          · exact hs.bump
          · split
            · exact hs
            · split
              · exact hs.bump.ptpFrame
              · split
                · exact .ite hs.bump.bump.setEth hs.bump.ethToRing
                · exact hs.bump.ethToRing
theorem Sound.ppIntensity {l d} (hs : Sound q s) : Sound q (s.ppIntensity l d).1 := by
  unfold State.ppIntensity
  split
  · exact hs
  · exact .iteFst hs (.iteFst hs (.iteFst hs hs.draw))
theorem Sound.ppPoint {p d} (hs : Sound q s) : Sound q (s.ppPoint p d).1 := hs.ppIntensity
/-- The functions whose answer the batch takes apart are kept opaque: the kernel would evaluate them. -/
theorem Sound.pointBatch {p} (hs : Sound q s) : Sound q (s.pointBatch p) := by
  obtain ⟨put, e, hput⟩ : ∃ put, State.ringPut = put ∧ ∀ s b z o bs, Sound q s → Sound q (put s b z o bs).1 :=
    ⟨_, rfl, fun _ _ _ _ _ hs => hs.ringPut⟩
  obtain ⟨range, e2⟩ : ∃ f, List.range = f := ⟨_, rfl⟩
  obtain ⟨ref, e3⟩ : ∃ f, State.ppReference = f := ⟨_, rfl⟩
  unfold State.pointBatch
  rw [e, e2, e3]
  extract_lets
  split
  · exact hs
  · refine .ite hs (.ite hs.setEth.bump ?_)
    extract_lets step
    have hstep : ∀ a i, Sound q a.1 → Sound q (step a i).1 := by
      intro a i hs
      unfold step
      split
      rename_i e
      exact hs.ppPoint.of_eq e
    split
    split
    rename_i e
    have hs2 := Sound.of_eq (.foldlFst hstep hs.setEth.bump) e
    exact .setEth (.ite (hput _ _ _ _ _ hs2.bump.bump.sourceRewrites) (.batchWritten (hput _ _ _ _ _ hs2.bump.bump.sourceRewrites)))
theorem Sound.ethCommit {p v} (hs : Sound q s) : Sound q (s.ethCommit p v) := .ite hs.setEth hs
theorem Sound.ethStart {p} (hs : Sound q s) : Sound q (s.ethStart p) := hs.setEth
theorem Sound.ethStop {p} (hs : Sound q s) : Sound q (s.ethStop p) := hs.bump.setEth

/-! ### Engines -/

theorem Sound.setEngBit {e b v} (hs : Sound q s) : Sound q (s.setEngBit e b v) := hs.setBit
theorem Sound.engShow {e} (hs : Sound q s) : Sound q (s.engShow e) := hs.setEngBit.setEngBit.setEngBit.wrN
theorem Sound.inputSites {e f trig buf} (hs : Sound q s) : Sound q (s.inputSites e f trig buf).1 := by
  unfold State.inputSites
  split
  · rename_i e
    have hs2 := hs.load.of_eq e
    extract_lets
    split
    · rename_i e
      have hs3 := hs2.load.of_eq e
      split
      · rename_i e
        have hs4 := Sound.of_eq (.iteFst hs3.load hs3) e
        split
        · exact hs4
        · exact hs4
theorem Sound.siteTable {e t' time sites} (hs : Sound q s) : Sound q (s.siteTable e t' time sites).1 := .iteFst hs hs.setEng.sat.wrN
theorem Sound.gather {e t' time i rows out} (hs : Sound q s) : Sound q (s.gather e t' time i rows out) := hs.siteTable.setEng.bump
theorem Sound.pushComp {c} (hs : Sound q s) : Sound q (s.pushComp c) := hs.same rfl
theorem Sound.engResult {e c} (hs : Sound q s) : Sound q (s.engResult e c) := by
  unfold State.engResult
  extract_lets
  split
  · split
    · extract_lets _ _ s3
      have hs3 : Sound q s3 := .ite hs.setEng.fault.bump.fault.bump hs.setEng
      exact hs3.pushComp
    · exact hs.setEng
  · exact hs.pushComp
theorem Sound.tileStart {e ops} (hs : Sound q s) : Sound q (s.tileStart e ops) := by
  unfold State.tileStart
  extract_lets
  split
  · extract_lets
    split
    · exact hs
    · exact .ite hs (.ite hs.setEng.bump.fault.engResult hs.setEng.engShow)
  · exact hs
theorem Sound.chkRecord {e t' rows cols} (hs : Sound q s) : Sound q (s.chkRecord e t' rows cols) := hs.wrN.wrN
theorem Sound.skipCount {e t'} (hs : Sound q s) : Sound q (s.skipCount e t') := .ite hs (.ite hs.bump.bump.setEng hs.bump.bump)
theorem Sound.canaries {e n} (hs : Sound q s) : Sound q (s.canaries e n) := .ite hs hs.wrN.event
theorem Sound.tileFaults {e f} (hs : Sound q s) : Sound q (s.tileFaults e f).1 := by
  unfold State.tileFaults
  extract_lets _ s3 s4 s5
  have hs3 : Sound q s3 := .ite hs.canaries.fault hs.canaries
  have hs4 : Sound q s4 := .ite hs3.fault hs3
  have hs5 : Sound q s5 := .ite hs4.fault hs4
  exact hs5
theorem Sound.tileComplete {e f} (hs : Sound q s) : Sound q (s.tileComplete e f) := by
  unfold State.tileComplete
  extract_lets
  split
  · exact hs
  · extract_lets
    split
    · exact hs
    · split
      · rename_i e
        have hs2 := hs.tileFaults.of_eq e
        extract_lets _ s4 _ _ _ _
        have hs4 : Sound q s4 := .ite hs2.bump.bump.skipCount.fault.bump.chkRecord hs2.bump.bump.skipCount
        exact hs4.setEng.engShow.engResult
theorem Sound.engDrop {e} (hs : Sound q s) : Sound q (s.engDrop e) := .ite hs.setEng.engShow.bump hs.setEng.engShow
theorem Sound.engSolo {e} (hs : Sound q s) : Sound q (s.engSolo e) := .foldl (fun _ _ hs => hs.pushComp) hs.engDrop
theorem Sound.engAbandon {e} (hs : Sound q s) : Sound q (s.engAbandon e) :=
  .ite (.foldl (fun _ _ hs => hs.pushComp) hs.engDrop.engDrop) hs.engSolo
theorem Sound.pairBreak {e} (hs : Sound q s) : Sound q (s.pairBreak e) :=
  .ite hs.setEngBit.setEngBit.setEngBit.setEngBit hs.setEngBit.setEngBit
theorem Sound.engStart {e} (hs : Sound q s) : Sound q (s.engStart e) := .ite (.ite hs.setEngBit hs.setEngBit.setEngBit) hs
theorem Sound.setMargin {st} (hs : Sound q s) : Sound q (s.setMargin st) := hs.setFld
theorem Sound.marginEnter (hs : Sound q s) : Sound q s.marginEnter :=
  .ite hs.cmdDone (.ite hs.cmdDone (.ite hs.setFld.cmdDone (.ite hs.setFld.cmdDone (.ite hs.setFld.cmdDone hs.setFld.setMargin))))
theorem Sound.marginExit (hs : Sound q s) : Sound q s.marginExit := .ite hs.cmdDone (.ite hs.setMargin hs.cmdDone)
theorem Sound.marginSettled (hs : Sound q s) : Sound q s.marginSettled :=
  .ite hs.setMargin.event.cmdDone (.ite hs.setMargin.setFld.event.cmdDone hs)
theorem Sound.engStatsModel {e v} (hs : Sound q s) : Sound q (s.engStatsModel e v) := hs.wrN.setEng

/-! ### SecOps -/

theorem Sound.extend {i typ slot d} (hs : Sound q s) : Sound q (s.extend i typ slot d) := by
  unfold State.extend
  extract_lets _ _ _ _ s2 _
  have hs2 : Sound q s2 := hs.same rfl
  exact .ite hs2.bump.setFld.setBit.event hs2.bump.setFld
theorem Sound.verified {ok} (hs : Sound q s) : Sound q (s.verified ok) := hs.bump
theorem Sound.extendModel {slot img} (hs : Sound q s) : Sound q (s.extendModel slot img) := hs.extend

/-! ### Timetable -/

theorem Sound.setSlotOf {m v} (hs : Sound q s) : Sound q (s.setSlotOf m v) := hs.same rfl
theorem Sound.setMst {m v} (hs : Sound q s) : Sound q (s.setMst m v) := hs.setFld
theorem Sound.slotShow {m} (hs : Sound q s) : Sound q (s.slotShow m) := hs.setBit.setBit
theorem Sound.ttRefuse {code slot idx} (hs : Sound q s) : Sound q (s.ttRefuse code slot idx) := hs.wrN.cmdDone
theorem Sound.noTarget (hs : Sound q s) : Sound q s.noTarget := hs.setBit
theorem Sound.disarm {m} (hs : Sound q s) : Sound q (s.disarm m) := .foldl (fun _ _ hs => .ite hs.setSlotOf.slotShow hs) hs
theorem Sound.sbShow (hs : Sound q s) : Sound q s.sbShow := hs.setFld.peak
theorem Sound.readTasks {v addr} (hs : Sound q s) : Sound q (s.readTasks v addr).1 := by
  unfold State.readTasks
  split
  · exact hs
  · exact .foldlFst (fun _ _ hs => by
      split
      · exact hs
      · split
        · rename_i e
          have hs3 := hs.load.of_eq e
          exact hs3
        · rename_i e
          have hs3 := hs.load.of_eq e
          extract_lets
          split
          · exact hs3
          · split
            · exact hs3
            · split
              · rename_i e
                have hs4 := hs3.load.of_eq e
                exact hs4
              · rename_i e
                have hs4 := hs3.load.of_eq e
                exact hs4) hs
/-- Refused or not, the check of an image only counts the memory's corrections. -/
theorem Sound.loadCheck {m addr v} (hs : Sound q s) :
    (∀ t x, s.loadCheck m addr v = .inl (t, x) → Sound q t) ∧ ∀ t img, s.loadCheck m addr v = .inr (t, img) → Sound q t := by
  unfold State.loadCheck
  split
  · exact ⟨fun _ _ e => (Prod.mk.inj (Sum.inl.inj e)).1 ▸ hs, fun _ _ e => nomatch e⟩
  · have h := hs.readTasks (v := v) (addr := addr)
    generalize s.readTasks v addr = r at h
    obtain ⟨s2, _ | ts⟩ := r
    · exact ⟨fun _ _ e => (Prod.mk.inj (Sum.inl.inj e)).1 ▸ h, fun _ _ e => nomatch e⟩
    · dsimp only
      split
      · exact ⟨fun _ _ e => (Prod.mk.inj (Sum.inl.inj e)).1 ▸ h, fun _ _ e => nomatch e⟩
      · exact ⟨fun _ _ e => (nomatch e), fun _ _ e => (Prod.mk.inj (Sum.inr.inj e)).1 ▸ h⟩
theorem Sound.ttLoad (hs : Sound q s) : Sound q s.ttLoad := .ite hs.ttRefuse.event (hs.setMst.same rfl)
theorem Sound.loadRefused {m code idx} (hs : Sound q s) : Sound q (s.loadRefused m code idx) := by
  unfold State.loadRefused
  extract_lets _ s2
  have hs2 : Sound q s2 := hs.same rfl
  exact hs2.setMst.ttRefuse.event
theorem Sound.loadDone {v} (hs : Sound q s) : Sound q (s.loadDone v) := by
  unfold State.loadDone
  split
  · exact hs
  · split
    extract_lets s2
    have hs2 : Sound q s2 := .ite hs.verified hs
    split
    · exact hs2.loadRefused
    · split <;> rename_i e
      · exact (hs2.loadCheck.1 _ _ e).loadRefused
      · exact .cmdDone (.same (.event (.extendModel (hs2.loadCheck.2 _ _ e).setSlotOf.setMst.slotShow.wrN.wr64.wrN.wrN)) rfl)
theorem Sound.ttUnload (hs : Sound q s) : Sound q s.ttUnload := by
  unfold State.ttUnload
  extract_lets _ s2 _ s3
  have hs2 : Sound q s2 := hs.disarm
  have hs3 : Sound q s3 := hs2.same rfl
  exact .ite hs.ttRefuse hs3.setSlotOf.setMst.slotShow.cmdDone
theorem Sound.ttActivate (hs : Sound q s) : Sound q s.ttActivate := by
  unfold State.ttActivate
  extract_lets
  split
  · exact hs.ttRefuse
  · exact .ite hs.ttRefuse (.ite hs.ttRefuse (.ite hs.ttRefuse hs.disarm.setMst.cmdDone))
theorem Sound.ttSkip {m} (hs : Sound q s) : Sound q (s.ttSkip m) := hs.sat
theorem Sound.invStart {m t'} (hs : Sound q s) : Sound q (s.invStart m t') := hs.setSlotOf.bump
theorem Sound.startPending {m} (hs : Sound q s) : Sound q (s.startPending m) := by
  unfold State.startPending
  extract_lets
  split
  · exact .ite hs.setSlotOf.invStart.slotShow hs
  · exact hs
theorem Sound.slotReady {m} (hs : Sound q s) : Sound q (s.slotReady m) := by
  unfold State.slotReady
  extract_lets _ _ s3 _
  have hs3 : Sound q s3 := .ite hs.setMst.setSlotOf.event hs.setMst.setSlotOf
  exact .ite (.cmdDone (hs3.same rfl)) hs3
theorem Sound.invEnded {m} (hs : Sound q s) : Sound q (s.invEnded m) := .ite hs.slotReady hs.startPending
theorem Sound.invAbandon {m} (hs : Sound q s) : Sound q (s.invAbandon m) := .ite hs (.sbShow (hs.setSlotOf.bump.sat.event.same rfl))
theorem Sound.modelDegraded {m} (hs : Sound q s) : Sound q (s.modelDegraded m) := by
  unfold State.modelDegraded
  extract_lets _ _ s3
  have hs3 : Sound q s3 := .ite hs.invAbandon.disarm.ttSkip hs.invAbandon.disarm
  exact hs3.setSlotOf.setMst.slotShow.noTarget.event
theorem Sound.ttDeactivate (hs : Sound q s) : Sound q s.ttDeactivate := by
  unfold State.ttDeactivate
  extract_lets _ _ _ _ _ _ s3
  have hs3 : Sound q s3 := .slotShow (hs.disarm.setSlotOf.same rfl)
  exact .ite hs.ttRefuse (.ite hs3.setMst (.ite hs3 hs3.slotReady.noTarget))
theorem Sound.ttSwap (hs : Sound q s) : Sound q s.ttSwap := by
  unfold State.ttSwap
  extract_lets
  split
  · exact hs.ttRefuse
  · split
    · exact .ite hs.ttRefuse hs.setSlotOf.slotShow.cmdDone
    · exact hs.ttRefuse
theorem Sound.trigActive {m t'} (hs : Sound q s) : Sound q (s.trigActive m t') := by
  unfold State.trigActive
  extract_lets _ s2
  have hs2 : Sound q s2 := .ite hs.ttSkip hs
  exact .ite hs.invStart hs2.setSlotOf.slotShow
theorem Sound.nextFiring {m t f} (hs : Sound q s) (e : s.nextFiring m = some (t, f)) : Sound q t := by
  unfold State.nextFiring at e
  simp only [] at e
  split at e
  · cases e
  · split at e
    · split at e
      · cases e
        exact hs.setSlotOf
      · cases e
    · obtain ⟨g, -, e⟩ := Option.map_eq_some_iff.1 e
      cases e
      exact hs.same rfl
theorem Sound.swapOver {a b t'} (hs : Sound q s) : Sound q (s.swapOver a b t') := by
  unfold State.swapOver
  extract_lets _ _ s2 _ _ _ s5
  have hs2 : Sound q s2 := hs.same rfl
  have hs5 : Sound q s5 := .ite hs2.setMst.setSlotOf.setSlotOf.setMst.slotReady hs2.setMst.setSlotOf.setSlotOf.setMst
  exact hs5.slotShow.slotShow.startPending.trigActive
theorem Sound.triggerFire {m buf} (hs : Sound q s) : Sound q (s.triggerFire m buf) := by
  unfold State.triggerFire
  split
  · exact hs
  · rename_i e
    have hs2 := hs.nextFiring e
    split
    · exact hs
    · extract_lets
      split
      · exact hs2.ttSkip
      · split
        · exact hs2.ttSkip
        · split
          · exact .ite hs2.swapOver hs2.trigActive
          · exact hs2.trigActive
theorem Sound.ttFusStep {at_ j} (hs : Sound q s) : Sound q (s.ttFusStep at_ j) :=
  .foldl (fun _ _ hs => by
    extract_lets
    split
    · exact hs.setSlotOf
    · exact hs) hs
theorem Sound.inputRewrite {m} (hs : Sound q s) : Sound q (s.inputRewrite m) := by
  unfold State.inputRewrite
  extract_lets
  split
  · exact hs
  · extract_lets s2
    have hs2 : Sound q s2 := hs.same rfl
    split
    · exact .ite hs2.invAbandon.invEnded hs2
    · exact hs2
theorem Sound.setBoard {f entry} (hs : Sound q s) : Sound q (s.setBoard f entry) := hs.same rfl
theorem Sound.withdraw {p} (hs : Sound q s) : Sound q (s.withdraw p) := hs.same rfl
theorem Sound.admitOne {m} (hs : Sound q s) : Sound q (s.admitOne m) := by
  unfold State.admitOne
  extract_lets
  split
  · exact hs
  · extract_lets
    split
    · exact hs
    · split
      · exact hs
      · exact .ite hs (hs.setSlotOf.same rfl)
theorem Sound.admitAll {k m} (hs : Sound q s) : Sound q (State.admitAll k m s) := by
  induction k generalizing s with
  | zero => exact hs
  | succ k ih => exact ih hs.admitOne
theorem Sound.stage {e t'} (hs : Sound q s) : Sound q (s.stage e t') := hs.setEng
theorem Sound.adoptHints (hs : Sound q s) : Sound q s.adoptHints := hs.setLoop
theorem Sound.issue {b t'} (hs : Sound q s) : Sound q (s.issue b t') := by
  unfold State.issue
  split
  · extract_lets s2 _ _ _ s3 _ s5 _
    have hs2 : Sound q s2 := .ite hs.adoptHints hs
    have hs3 : Sound q s3 := hs2.same rfl
    have hs5 : Sound q s5 := .foldl (fun _ _ hs => hs.stage) hs3.setBoard
    exact .ite hs5.bump.wrN.bump hs5.bump.wrN
  · exact hs
theorem Sound.issueFirst {bs} (hs : Sound q s) : Sound q (s.issueFirst bs) := by
  induction bs with
  | nil => exact hs
  | cons b bs ih =>
    unfold State.issueFirst
    split
    · exact hs.issue
    · exact ih
theorem Sound.lostTargets (hs : Sound q s) : Sound q s.lostTargets := .ite hs (.foldl (fun _ _ hs => .ite hs.modelDegraded hs) hs)
theorem Sound.taskIssue (hs : Sound q s) : Sound q s.taskIssue := by
  unfold State.taskIssue
  extract_lets s2 s3 _ _
  have hs2 : Sound q s2 := .foldl (fun _ _ hs => hs.startPending) hs
  have hs3 : Sound q s3 := .foldl (fun _ _ hs => hs.admitAll) hs2
  exact .ite hs hs3.lostTargets.issueFirst.sbShow
theorem Sound.setWin {e w} (hs : Sound q s) : Sound q (s.setWin e w) := hs.same rfl
theorem Sound.unstage {e} (hs : Sound q s) : Sound q (s.unstage e) := hs.setEng
theorem Sound.fenceDismiss {e} (hs : Sound q s) : Sound q (s.fenceDismiss e) := by
  unfold State.fenceDismiss
  extract_lets _ s2
  have hs2 : Sound q s2 := .ite hs.setBit.setFld hs
  exact .ite hs hs2.setBlk.cmdDone
theorem Sound.ttFence {e cause} (hs : Sound q s) : Sound q (s.ttFence e cause) := by
  unfold State.ttFence
  extract_lets _ _ _ _ _ s4 _ _ _ s6 _ _ _ _ _ _
  have hs4 : Sound q s4 := .ite hs.setEngBit.setBit.setWin.engSolo hs.setEngBit.setBit.setWin
  have hs6 : Sound q s6 := .ite (hs4.engSolo.pairBreak.fenceDismiss.same rfl) hs4.engSolo.pairBreak.fenceDismiss
  exact .ite hs (.ite (hs6.withdraw.wrN.fault.event.lostTargets.same rfl) hs6.withdraw.wrN.fault.event.lostTargets)
theorem Sound.strike {e} (hs : Sound q s) : Sound q (s.strike e) := .ite hs.setWin.bump.ttFence hs.setWin.bump
theorem Sound.ttUnfence (hs : Sound q s) : Sound q s.ttUnfence :=
  .ite hs.ttRefuse hs.setEngBit.setEngBit.setBit.setBit.setWin.wrN.cmdDone
theorem Sound.tileTimeout {e} (hs : Sound q s) : Sound q (s.tileTimeout e) := by
  unfold State.tileTimeout
  split
  · exact .ite hs.ttFence hs
  · exact hs
theorem Sound.biasShow (hs : Sound q s) : Sound q s.biasShow := .ite hs (.foldl (fun _ _ hs => hs.setFld) hs)
theorem Sound.setSlow {t' slow weight} (hs : Sound q s) : Sound q (s.setSlow t' slow weight) := by
  unfold State.setSlow
  extract_lets _ s2
  have hs2 : Sound q s2 := .foldl (fun _ _ hs => hs.setEngBit.setBit.setFld) hs
  exact .ite hs2.event (.ite hs2.event hs2)
theorem Sound.slowWindow {t'} (hs : Sound q s) : Sound q (s.slowWindow t') := by
  unfold State.slowWindow
  extract_lets s2 _
  have hs2 : Sound q s2 := .foldl (fun _ _ hs => hs.setWin.setFld) hs
  split
  · exact hs2
  · exact .ite hs2.wrN.setSlow hs2.wrN.setSlow
theorem Sound.recordTile {t' ran} (hs : Sound q s) : Sound q (s.recordTile t' ran) := by
  unfold State.recordTile
  extract_lets s2
  have hs2 : Sound q s2 := .foldl (fun _ _ hs => hs.setWin) hs
  exact .ite hs2.slowWindow hs2
theorem Sound.invDone {m img inv} (hs : Sound q s) : Sound q (s.invDone m img inv) := by
  unfold State.invDone
  extract_lets _ _ _ s2 _ _ _ _
  have hs2 : Sound q s2 := hs.same rfl
  exact hs2.bump.wrN.peak.setBit.setSlotOf.invEnded
theorem Sound.taskDone {b unchecked} (hs : Sound q s) : Sound q (s.taskDone b unchecked) := by
  unfold State.taskDone
  extract_lets _ _ _ s2
  have hs2 : Sound q s2 := hs.same rfl
  split
  · exact .ite hs2.setSlotOf.bump.sbShow.invDone hs2.setSlotOf.bump.sbShow
  · exact hs
theorem Sound.reissue {b f} (hs : Sound q s) : Sound q (s.reissue b f) := hs.setBoard
theorem Sound.acceptComp {b t' c} (hs : Sound q s) : Sound q (s.acceptComp b t' c) := by
  unfold State.acceptComp
  extract_lets _ s2 _
  have hs2 : Sound q s2 := by
    unfold s2
    split
    · extract_lets s2
      have hs2 : Sound q s2 := .ite hs.ttFence hs
      exact .ite hs2.ttFence hs2
    · exact hs
  split
  · exact hs2.taskDone
  · exact hs.reissue.lostTargets
  · exact .ite hs.reissue.lostTargets (.lostTargets (.foldl (fun _ _ hs => hs.strike) hs.reissue))
  · exact .lostTargets (.foldl (fun _ _ hs => hs.strike) hs.reissue)
  · exact .lostTargets (.foldl (fun _ _ hs => hs.strike) hs.reissue)
theorem Sound.taskCompletion (hs : Sound q s) : Sound q s.taskCompletion := by
  unfold State.taskCompletion
  extract_lets
  split
  · exact hs
  · extract_lets s2 s3 _ _
    have hs2 : Sound q s2 := hs.same rfl
    have hs3 : Sound q s3 := .foldl (fun _ _ hs => hs.ttFence) hs2
    split
    · exact hs3.bump
    · split
      · split
        · exact .ite hs3.recordTile.acceptComp.sbShow hs3.recordTile.bump
        · exact hs3.recordTile.bump
      · exact hs3.recordTile.bump
theorem Sound.ttReadError {t'} (hs : Sound q s) : Sound q (s.ttReadError t') := hs.invAbandon.invEnded
theorem Sound.gatherBuild {e given out} (hs : Sound q s) : Sound q (s.gatherBuild e given out) := by
  unfold State.gatherBuild
  split
  · exact hs
  · split
    · extract_lets
      split
      · exact hs
      · split
        · rename_i e
          have hs2 := Sound.of_eq (.iteFst hs.inputSites hs) e
          split
          · exact hs2.gather
          · exact hs2.ttReadError
    · exact hs
theorem Sound.engHalted {e} (hs : Sound q s) : Sound q (s.engHalted e) := by
  unfold State.engHalted
  extract_lets _ _ s2
  have hs2 : Sound q s2 := .foldl (fun _ _ hs => hs.unstage) hs
  exact hs2.withdraw.lostTargets.engShow
theorem Sound.ttDismiss (hs : Sound q s) : Sound q s.ttDismiss := by
  unfold State.ttDismiss
  extract_lets s2 gens s3
  clear_value gens
  have hs2 : Sound q s2 := .foldl (fun _ _ hs => hs.invAbandon.setSlotOf.slotShow) hs
  have hs3 : Sound q s3 := by
    unfold s3
    split
    · exact hs2.setMst
    · exact hs2
  exact .sbShow (hs3.same rfl)

/-! ### Grid -/

theorem Sound.setUnit {u v} (hs : Sound q s) : Sound q (s.setUnit u v) := hs.same rfl
theorem Sound.gridShow (hs : Sound q s) : Sound q s.gridShow := hs.wrN.setFld.peak
theorem Sound.listDrop {src obs} (hs : Sound q s) : Sound q (s.listDrop src obs) := hs.bump.sat
theorem Sound.onAcc {f} (hs : Sound q s) : Sound q (s.onAcc f) := hs.same rfl
theorem Sound.gridDeliver (hs : Sound q s) : Sound q s.gridDeliver := by
  unfold State.gridDeliver
  extract_lets
  split
  · exact hs
  · extract_lets s2 s3 _ _
    have hs2 : Sound q s2 := hs.same rfl
    have hs3 : Sound q s3 := .ite hs2.onAcc hs2
    exact .ite hs2.listDrop (.ite hs3.listDrop.onAcc.event.peak (.gridShow (hs3.same rfl)))
theorem Sound.placeObs {buf k n ev conf confMin feats unchk} (hs : Sound q s) :
    Sound q (s.placeObs buf k n ev conf confMin feats unchk) := by
  unfold State.placeObs
  extract_lets _ _ _ _ _ s2 _ _ _ _ _ _ _ s3 _
  have hs2 : Sound q s2 := hs.setBytes
  have hs3 : Sound q s3 := hs2.putLE
  exact .ite hs3 (hs3.same rfl)
theorem Sound.gridObs {k c ref unchk ob} (hs : Sound q s) : Sound q (s.gridObs k c ref unchk ob) := by
  unfold State.gridObs
  extract_lets
  split
  · exact hs
  · split
    · exact hs.bump.sat.onAcc
    · exact hs.bump
    · exact hs.placeObs.bump.sat.onAcc
theorem Sound.gridPlace (hs : Sound q s) : Sound q s.gridPlace := by
  unfold State.gridPlace
  extract_lets
  split
  · extract_lets s2
    have hs2 : Sound q s2 := .gridShow (hs.same rfl)
    split
    · exact hs
    · split
      · rename_i e
        have hs3 := hs2.loadFor.of_eq e
        split
        · exact hs3.listDrop
        · extract_lets
          split
          · exact hs3.listDrop
          · split
            · rename_i e
              have hs4 := hs3.loadFor.of_eq e
              split
              · exact hs4.listDrop
              · extract_lets s5
                have hs5 : Sound q s5 := .foldl (fun _ _ hs => hs.gridObs) hs4
                exact .ite hs5.bump hs5.onAcc.bump
  · exact hs
theorem Sound.calSwitch {k} (hs : Sound q s) : Sound q (s.calSwitch k) := by
  unfold State.calSwitch
  extract_lets _ _ s2 s3 _ _ _
  have hs2 : Sound q s2 := .foldl (fun _ _ hs => hs.wr) hs
  have hs3 : Sound q s3 := .foldl (fun _ _ hs => hs.wr) hs2
  exact hs3.wr.wrN.setFld.setBit.event.same rfl
theorem Sound.calCommit (hs : Sound q s) : Sound q s.calCommit := by
  unfold State.calCommit
  extract_lets
  split
  · exact hs.setFld.cmdDone
  · exact .ite (hs.setBit.same rfl) hs.calSwitch.cmdDone
theorem Sound.unitShow {u} (hs : Sound q s) : Sound q (s.unitShow u) :=
  .gridShow (.foldl (fun _ _ hs => hs.setBit.setFld.setFld.wrN) hs)
theorem Sound.unalign {u} (hs : Sound q s) : Sound q (s.unalign u) := by
  unfold State.unalign
  extract_lets _ _ _ _ s4
  have hs4 : Sound q s4 := .ite hs.setUnit.onAcc.event hs.setUnit.onAcc
  exact hs4.unitShow
theorem Sound.alignStart {u} (hs : Sound q s) : Sound q (s.alignStart u) := hs.setUnit.unalign
theorem Sound.setUnitTriple {u t'} (hs : Sound q s) : Sound q (s.setUnitTriple u t') :=
  .ite hs.wr64.wr64.wrN.setCsi hs.wr64.wr64.wrN.setEth
theorem Sound.dropOffer {u} (hs : Sound q s) : Sound q (s.dropOffer u) := .ite hs.setCsi hs.setEth
theorem Sound.alignJudge {k u e} (hs : Sound q s) : Sound q (s.alignJudge k u e) :=
  .ite (.ite hs.setUnit.unalign hs.setUnit.unitShow) (.ite hs.setUnit.setUnit.event.unitShow hs.setUnit.unitShow)
theorem Sound.clampMark {k} (hs : Sound q s) : Sound q (s.clampMark k) := hs.setBit.setBit
theorem Sound.alignSensor {k u x f} (hs : Sound q s) : Sound q (s.alignSensor k u x f) := by
  unfold State.alignSensor
  extract_lets _ _ _ _ _ _ _ _ _ _ _ _ s2 _
  have hs2 : Sound q s2 := .ite (.foldl (fun _ _ hs => hs.clampMark) hs) hs
  exact .ite hs.setUnitTriple.setUnit.unitShow hs2.setUnitTriple.setUnit.alignJudge
theorem Sound.alignTrigger {k u f} (hs : Sound q s) : Sound q (s.alignTrigger k u f) := .ite hs hs.setUnit.alignJudge
theorem Sound.alignPair {k} (hs : Sound q s) : Sound q (s.alignPair k) := by
  unfold State.alignPair
  extract_lets
  split
  · exact hs
  · split
    · exact hs.dropOffer
    · split
      · split
        · exact hs.dropOffer
        · exact .ite hs.dropOffer hs.dropOffer.setUnit.alignSensor
      · exact .ite (.ite hs.dropOffer hs.dropOffer.alignTrigger) hs.dropOffer
theorem Sound.alignTimeout {k} (hs : Sound q s) : Sound q (s.alignTimeout k) := .ite hs.unalign hs
theorem Sound.gridRelock (hs : Sound q s) : Sound q s.gridRelock := .cmdDone (.ite hs hs.unalign)
theorem Sound.endEpoch {at_} (hs : Sound q s) : Sound q (s.endEpoch at_) := by
  unfold State.endEpoch
  extract_lets
  split
  · exact hs
  · exact hs.same rfl
theorem Sound.epochBoundary (hs : Sound q s) : Sound q s.epochBoundary := by
  unfold State.epochBoundary
  extract_lets _ _ _ _ s2 _ s4 _ _ _ _ s6 _ _
  have hs2 : Sound q s2 := hs.same rfl
  have hs4 : Sound q s4 := by
    unfold s4
    split
    · exact hs2.endEpoch.calSwitch.cmdDone
    · exact hs2.endEpoch
  have hs6 : Sound q s6 := .ite hs4.setLoop.event (.ite hs4.setLoop.event hs4.setLoop)
  exact .ite hs (.ite hs2.onAcc.bump.event.gridShow (.gridShow (hs6.same rfl)))
theorem Sound.conflictAdd {occ fre} (hs : Sound q s) : Sound q (s.conflictAdd occ fre) :=
  .foldl (fun _ _ hs => .ite (.foldl (fun _ _ hs => .ite hs.sat hs) hs) hs) hs
theorem Sound.closeCell {e prior c n} (hs : Sound q s) : Sound q (s.closeCell e prior c n).1 := by
  unfold State.closeCell
  extract_lets _ _ _ _ _ _ s2 _
  have hs2 : Sound q s2 := .ite hs.conflictAdd.bump hs
  exact hs2
theorem Sound.gridStream {e number hdr list unchk} (hs : Sound q s) : Sound q (s.gridStream e number hdr list unchk) :=
  .ite hs (.foldl (fun _ _ hs => hs.offer) hs)
theorem Sound.writePlane {a words} (hs : Sound q s) : Sound q (s.writePlane a words) :=
  .foldl (fun _ _ hs => hs.putLE) { hs.zeroMem with gridMem := SMap.wf_clear _ _ _ hs.gridMem }
theorem Sound.warmCount {noPose} (hs : Sound q s) : Sound q (s.warmCount noPose) := by
  unfold State.warmCount
  extract_lets _ _ _ _ _ s2
  have hs2 : Sound q s2 := hs.same rfl
  exact .ite hs2.event hs2
theorem Sound.epochPublish (hs : Sound q s) : Sound q s.epochPublish := by
  unfold State.epochPublish
  split
  · exact hs
  · extract_lets
    split
    · rename_i e
      have hs3 := Sound.of_eq (.foldlFst (fun _ _ hs => hs.closeCell) hs.sourceRewrites) e
      extract_lets _ s5 _ _ _ _ s6 _ s7 s8 _ _ s9 s10
      have hs5 : Sound q s5 := .foldl (fun _ _ hs => hs.zeroMem) hs3.writePlane
      have hs6 : Sound q s6 := hs5.put
      have hs7 : Sound q s7 := hs6.put.window
      have hs8 : Sound q s8 := hs7.bump.wr64.wrN
      have hs9 : Sound q s9 := hs8.same rfl
      have hs10 : Sound q s10 := hs9.warmCount.gridShow.warmShow.recordDone.sourceFires
      exact .ite hs10.gridStream.cmdDone hs10.gridStream
theorem Sound.evidClear (hs : Sound q s) : Sound q s.evidClear := hs.same rfl
theorem Sound.conflictClr {v} (hs : Sound q s) : Sound q (s.conflictClr v) :=
  .ite { hs with regs := SMap.wf_clear _ _ _ hs.regs } hs
theorem Sound.gridStart (hs : Sound q s) : Sound q s.gridStart := by
  unfold State.gridStart
  extract_lets s2 _ _ s3 s4
  have hs2 : Sound q s2 := .foldl (fun _ _ hs => .foldl (fun _ _ hs => hs.zeroMem) hs) hs
  have hs3 : Sound q s3 := hs2.same rfl
  have hs4 : Sound q s4 := .foldl (fun _ _ hs => hs.setBit) hs3
  exact .warmShow (.gridShow (.foldl (fun _ _ hs => hs.alignStart) hs4))
theorem Sound.gridDismiss (hs : Sound q s) : Sound q s.gridDismiss := by
  unfold State.gridDismiss
  extract_lets s2 s3 _
  have hs2 : Sound q s2 := .foldl (fun _ _ hs => hs.listDrop) hs
  have hs3 : Sound q s3 := by
    unfold s3
    split
    · exact hs2.setBit
    · exact hs2
  exact .gridShow (hs3.same rfl)
theorem Sound.gridFusStep {at_ j} (hs : Sound q s) : Sound q (s.gridFusStep at_ j) := by
  unfold State.gridFusStep
  extract_lets _ s2 _ _ s3 _ _
  have hs2 : Sound q s2 := .foldl (fun _ _ hs => hs.listDrop) hs
  have hs3 : Sound q s3 := .foldl (fun _ _ hs => .ite hs hs.setUnitTriple.setUnit) hs2
  exact .gridShow (hs3.same rfl)

/-! ### Ego -/

theorem Sound.egoApply {a : State × EgoEst} {on z} (hs : Sound q a.1) : Sound q (State.egoApply a on z).1 := by
  unfold State.egoApply
  split
  · exact hs
  · split
    · exact hs
    · exact hs.bump
theorem Sound.egoRestart {entering} (hs : Sound q s) : Sound q (s.egoRestart entering) := by
  unfold State.egoRestart
  extract_lets _ s3 _ _
  have hs3 : Sound q s3 := .ite hs.bump.event.setBit.event.warmShow hs.bump.event
  exact hs3.setBit.wr.same rfl
theorem Sound.egoStill {quiet d} (hs : Sound q s) : Sound q (s.egoStill quiet d) := by
  unfold State.egoStill
  extract_lets _ _ _ _ s2 _
  have hs2 : Sound q s2 := hs.same rfl
  exact .ite hs2.setBit.event.bump (.ite hs2.setBit.event hs2.setBit)
theorem Sound.egoAlign {d} (hs : Sound q s) : Sound q (s.egoAlign d) := .ite hs hs.setBit.event.warmShow
theorem Sound.egoPublish {e omega d} (hs : Sound q s) : Sound q (s.egoPublish e omega d) := by
  unfold State.egoPublish
  extract_lets s2 _ _ w s3 s4
  have hw : ∀ s o l, Sound q s → Sound q (w s o l) := fun _ _ _ hs => .foldl (fun _ _ hs => hs.wr) hs
  have hs3 : Sound q s3 := hw _ _ _ hs.bump.wr64
  have hs4 : Sound q s4 := hw _ _ _ (hw _ _ _ (hw _ _ _ (hw _ _ _ (hw _ _ _ hs3))))
  split
  rename_i s5 e5
  have hs5 : Sound q s5 := by
    have h := hs4.draw
    rw [e5] at h
    exact h
  extract_lets s6 _ _ s7 _ s8
  have hs6 : Sound q s6 := hs5.wrN
  have hs7 : Sound q s7 := hs6.sendLoop.sendLoop.sendLoop.sendLoop
  have hs8 : Sound q s8 := hs7.same rfl
  exact hs8.window.setBit.cmdDone
theorem Sound.egoRun {tau u d} (hs : Sound q s) : Sound q (s.egoRun tau u d) := by
  unfold State.egoRun
  extract_lets
  split
  extract_lets a1 a2 a3
  have hs3 : Sound q a3.1 := .egoApply (.egoApply (.egoApply hs))
  clear_value a3
  exact .ite hs3.egoRestart hs3.egoStill.wr.egoAlign.egoPublish
theorem Sound.egoUpdate (hs : Sound q s) : Sound q s.egoUpdate := by
  unfold State.egoUpdate
  extract_lets _ _ _ s2 _ _ s4
  have hs2 : Sound q s2 := hs.same rfl
  have hs4 : Sound q s4 := .ite hs2.setBit.event hs2
  split
  · exact hs
  · split
    · exact hs2
    · split
      · exact .ite hs2.bump hs2.bump.setBit.event
      · exact hs4.egoRun
theorem Sound.egoGap (hs : Sound q s) : Sound q s.egoGap := .ite hs hs.egoRestart
theorem Sound.egoCmdRestart (hs : Sound q s) : Sound q s.egoCmdRestart := hs.egoRestart
theorem Sound.stepPose (hs : Sound q s) : Sound q s.stepPose := by
  unfold State.stepPose
  extract_lets _ _ _ s2 _
  have hs2 : Sound q s2 := hs.same rfl
  split
  · exact hs
  · split
    · exact .bump (hs2.same rfl)
    · exact hs2
theorem Sound.stepIncrement {n} (hs : Sound q s) : Sound q (s.stepIncrement n).1 := by
  unfold State.stepIncrement
  split
  · split
    · exact hs.bump
    · split
      · exact .iteFst hs hs
      · exact hs
  · exact hs.bump
theorem Sound.egoBegin (hs : Sound q s) : Sound q s.egoBegin := hs.egoRestart.wrN.same rfl
theorem Sound.egoDismiss (hs : Sound q s) : Sound q s.egoDismiss := hs.setBit
theorem Sound.egoFusStep {at_ j} (hs : Sound q s) : Sound q (s.egoFusStep at_ j) := by
  unfold State.egoFusStep
  extract_lets s2 s3 _
  have hs2 : Sound q s2 := .ite hs.wr64 hs
  have hs3 : Sound q s3 := .foldl (fun _ _ hs => hs.setLoop) hs2
  exact hs3.same rfl

/-! ### Tracker -/

theorem Sound.setTrack {j t'} (hs : Sound q s) : Sound q (s.setTrack j t') := { hs with tracks := SMap.wf_set _ _ _ hs.tracks }
theorem okFrom_mapTracks {f : Nat → Track → Track} {lo : Nat} {m : SMap (Option Track)} (h : SMap.okFrom (fun _ => none) lo m = true) :
    SMap.okFrom (fun _ => none) lo (m.map (fun e => (e.1, e.2.map (f e.1)))) = true := by
  induction m generalizing lo with
  | nil => rfl
  | cons e m ih =>
    simp only [SMap.okFrom, Bool.and_eq_true, decide_eq_true_eq] at h
    obtain ⟨⟨hlo, hne⟩, hm⟩ := h
    simp only [List.map_cons, SMap.okFrom, Bool.and_eq_true, decide_eq_true_eq]
    exact ⟨⟨hlo, by simpa using hne⟩, ih hm⟩
theorem Sound.mapTracks {f} (hs : Sound q s) : Sound q (s.mapTracks f) := { hs with tracks := okFrom_mapTracks hs.tracks }
theorem Sound.trkShow (hs : Sound q s) : Sound q s.trkShow := hs.setFld.setFld.setFld.wrN
theorem Sound.enrol (hs : Sound q s) : Sound q s.enrol := .warmShow (hs.setBit.wrN.event.setTrk rfl)
theorem Sound.trkDeliver (hs : Sound q s) : Sound q s.trkDeliver := by
  unfold State.trkDeliver
  extract_lets
  split
  · exact hs
  · extract_lets s2 _ _ _
    have hs2 : Sound q s2 := hs.same rfl
    exact .ite hs2.bump (.ite (.event (hs2.bump.setTrk rfl)) (.trkShow (hs2.setTrk rfl)))
theorem Sound.trkDelete {a : State × Cycle} {j} (hs : Sound q a.1) : Sound q (State.trkDelete a j).1 := by
  unfold State.trkDelete
  extract_lets
  split
  · exact hs.setTrack.bump
  · exact hs
theorem Sound.trkApply {a : State × Cycle} (hs : Sound q a.1) : Sound q (State.trkApply a).1 := by
  unfold State.trkApply
  extract_lets _ _ s3 _ _ _
  have hs3 : Sound q s3 := hs.setTrk rfl
  split
  · exact hs
  · split
    · exact hs3.enrol.cmdDone
    · split
      · exact .cmdDone (.foldlFst (fun _ _ hs => hs.trkDelete) hs3)
      · split
        · exact hs3.bump.sat.setFld.cmdDone
        · exact hs3.sat.setFld.cmdDone
        · exact .iteFst hs3.trkDelete.cmdDone (.iteFst hs3.setFld.cmdDone hs3.setTrack.cmdDone)
theorem Sound.trkAssoc {a : State × Cycle} {id d linked} (hs : Sound q a.1) : Sound q (State.trkAssoc a id d linked).1 := by
  unfold State.trkAssoc
  extract_lets
  split
  · exact hs.bump.sat
  · exact hs.sat
  · exact hs.setTrack.bump
theorem Sound.trkLinks {a : State × Cycle} {taken k ds} (hs : Sound q a.1) : Sound q (State.trkLinks a taken k ds).1.1 := by
  induction ds generalizing a taken k with
  | nil => exact hs
  | cons d ds ih =>
    unfold State.trkLinks
    extract_lets
    split
    · exact ih hs
    · split
      · exact ih hs.bump.sat
      · exact ih hs.sat
      · split
        · exact ih hs
        · split
          · exact ih hs
          · exact ih hs.trkAssoc
theorem Sound.trkAuction {a : State × Cycle} {taken ds} (hs : Sound q a.1) : Sound q (State.trkAuction a taken ds).1 := by
  unfold State.trkAuction
  extract_lets _ _ _ _ _ r3 _ _ _
  have hr3 : Sound q r3.1 := .foldlFst (fun _ _ hs => by
    split
    · exact hs.trkAssoc
    · exact hs) hs
  exact hr3.sat
theorem Sound.trkList {a : State × Cycle} {l} (hs : Sound q a.1) : Sound q (State.trkList a l).1 := by
  unfold State.trkList
  extract_lets
  split
  · rename_i e
    have hs2 := hs.load.of_eq e
    split
    · exact hs2.bump
    · extract_lets
      split
      · exact hs2.bump
      · split
        · rename_i e
          have hs3 := hs2.load.of_eq e
          extract_lets
          split
          · exact hs3.bump
          · exact .iteFst hs3.bump hs3.sat.mapTracks.bump.bump.trkLinks.trkAuction
theorem Sound.takeSlot (hs : Sound q s) : Sound q s.takeSlot.1 := by
  unfold State.takeSlot
  extract_lets
  split
  · exact hs.setTrk rfl
  · split
    · exact hs.setTrk rfl
    · exact hs
theorem Sound.born {d mark tk} (hs : Sound q s) : Sound q (s.born d mark tk).1 := by
  unfold State.born
  split
  · rename_i e
    have hs2 := hs.takeSlot.of_eq e
    extract_lets _ _ s3 _ _ _ _
    have hs3 : Sound q s3 := hs2.setTrk rfl
    exact .bump (.setTrack (.iteFst (.iteFst hs3 hs3.drawWords) (.drawWords (.iteFst hs3 hs3.drawWords))))
theorem Sound.trkBirth {a : State × Cycle} {d} (hs : Sound q a.1) : Sound q (State.trkBirth a d).1 := by
  unfold State.trkBirth
  extract_lets
  split
  · exact hs
  · exact hs.sat
  · exact hs.born
theorem Sound.trkJudge {a : State × Cycle} (hs : Sound q a.1) : Sound q (State.trkJudge a).1 := by
  unfold State.trkJudge
  extract_lets s2
  have hs2 : Sound q s2 := .ite hs.mapTracks hs
  exact .foldlFst (fun _ _ hs => by
    extract_lets
    split
    · exact hs.trkDelete
    · exact hs.setTrack) hs2
theorem Sound.trkRegime {c} (hs : Sound q s) : Sound q (s.trkRegime c) :=
  .ite hs (.ite (.ite hs.sat.wrN (hs.sat.mapTracks.setTrk rfl)) hs.sat)
theorem Sound.trkTerm (hs : Sound q s) : Sound q s.trkTerm := .ite hs (.warmShow (hs.setBit.event.setTrk rfl))
theorem Sound.trkCommit {a : State × Cycle} (hs : Sound q a.1) : Sound q (State.trkCommit a) := .trkShow (hs.mapTracks.setTrk rfl)
theorem Sound.trkBatch {c long} (hs : Sound q s) : Sound q (s.trkBatch c long) := by
  unfold State.trkBatch
  extract_lets _ _ _ _ _ _ _ _ _ _ s3
  have hs3 : Sound q s3 := hs.offer.window.recordDone.setTrk rfl
  exact .ite hs3.enrol hs3
theorem Sound.trkHints (hs : Sound q s) : Sound q s.trkHints := by
  unfold State.trkHints
  refine .ite hs ?_
  extract_lets _ _ bs s2 _ s3
  have hs2 : Sound q s2 := hs.put
  clear_value s2
  have hs3 : Sound q s3 := hs2.setTrk rfl
  exact hs3.sendLoop
theorem Sound.trkRegions (hs : Sound q s) : Sound q s.trkRegions := .ite hs (.foldl (fun _ _ hs => .ite hs hs.sendLoop) hs)
theorem Sound.trkAdopt (hs : Sound q s) : Sound q s.trkAdopt :=
  .ite hs.setLoop.setBit.event (.ite hs.setLoop.setBit.event hs.setLoop.setBit)
theorem Sound.lanePair {i} (hs : Sound q s) : Sound q (s.lanePair i) := .ite hs hs.wr64.fault.trkShow
theorem Sound.trkTake (hs : Sound q s) : Sound q s.trkTake.1 := .trkShow (hs.setTrk rfl)
theorem Sound.trkOpen {tk} (hs : Sound q s) : Sound q (s.trkOpen tk).1 := hs.setTrk rfl
theorem Sound.trkRun {tk late bad} (hs : Sound q s) : Sound q (s.trkRun tk late bad) := by
  unfold State.trkRun
  extract_lets
  split
  · rename_i e
    have hs4 := hs.trkTerm.bump.wr64.trkOpen.trkApply.of_eq e
    extract_lets
    split
    · rename_i e
      have hs7 := hs4.trkAdopt.setBit.mapTracks.trkTake.of_eq e
      split
      · rename_i e
        have hs8 := Sound.of_eq (.foldlFst (fun _ _ hs => hs.trkList) hs7) e
        extract_lets s9
        have hs9 : Sound q s9 := .foldl (fun _ _ hs => hs.lanePair) hs8
        split
        · rename_i e
          have hs10 := Sound.of_eq (.foldlFst (fun _ _ hs => hs.trkBirth) hs9) e
          exact hs10.trkJudge.trkCommit.trkRegime.warmShow.trkBatch.wrN.trkHints.trkRegions
theorem Sound.trkCycle {bad} (hs : Sound q s) : Sound q (s.trkCycle bad) := by
  unfold State.trkCycle
  extract_lets _ _ _ _ s2 s3
  have hs2 : Sound q s2 := hs.setTrk rfl
  have hs3 : Sound q s3 := .ite hs2.sat.event hs2
  exact .ite hs (.ite hs2 hs3.trkRun)
theorem Sound.trkApplyNow (hs : Sound q s) : Sound q s.trkApplyNow := .trkShow (hs.trkApply.setTrk rfl)
theorem Sound.trkCommand {code} (hs : Sound q s) : Sound q (s.trkCommand code) := by
  unfold State.trkCommand
  extract_lets _ s2
  have hs2 : Sound q s2 := hs.setTrk rfl
  exact .ite hs2 hs2.trkApplyNow
theorem Sound.trkStart (hs : Sound q s) : Sound q s.trkStart := .trkShow (.enrol (hs.setTrk rfl))
theorem Sound.trkStop (hs : Sound q s) : Sound q s.trkStop := hs.trkApplyNow
theorem Sound.trkTested {passed} (hs : Sound q s) : Sound q (s.trkTested passed) := .trkShow (.enrol (.ite hs.wr64 hs))
theorem Sound.trkDismiss (hs : Sound q s) : Sound q s.trkDismiss := .trkShow (hs.bump.setTrk rfl)
theorem Sound.trkFusStep {at_ j} (hs : Sound q s) : Sound q (s.trkFusStep at_ j) := by
  unfold State.trkFusStep
  extract_lets _ s2 _
  have hs2 : Sound q s2 := .ite hs.enrol hs
  exact hs2.setTrk rfl

/-! ### Time -/

theorem Sound.acceptStep (hs : Sound q s) : Sound q s.acceptStep := hs.same rfl
theorem Sound.acceptAnchor (hs : Sound q s) : Sound q s.acceptAnchor := hs.same rfl
theorem Sound.fusJudge (hs : Sound q s) : Sound q s.fusJudge := by
  unfold State.fusJudge
  extract_lets _ s2
  have hs2 : Sound q s2 := .ite hs (.event (hs.same rfl))
  exact .ite hs (.ite (hs.same rfl) (.ite hs.acceptAnchor (.ite hs2.acceptStep hs2)))
theorem Sound.idleTick (hs : Sound q s) : Sound q s.idleTick := by
  unfold State.idleTick
  extract_lets _ _ _ _ s2 _ s3
  have hs2 : Sound q s2 := .ite (hs.same rfl) hs
  have hs3 : Sound q s3 := hs2.same rfl
  exact .ite (hs.same rfl) hs3.setNet.setNet.fusJudge
theorem Sound.slewEnd (hs : Sound q s) : Sound q s.slewEnd := .ite hs.idleTick hs
theorem Sound.bellFusStep {j} (hs : Sound q s) : Sound q (s.bellFusStep j) := hs.same rfl
theorem Sound.logFus {detail j at_} (hs : Sound q s) : Sound q (s.logFus detail j at_) := hs.logAt
theorem Sound.fusStepDo {j at_} (hs : Sound q s) : Sound q (s.fusStepDo j at_) := by
  unfold State.fusStepDo
  extract_lets _ s2 _ s4
  have hs2 : Sound q s2 := hs.same rfl
  have hs4 : Sound q s4 := .ite hs2.event.logFus hs2.event.logFus.bellFusStep.gridFusStep.trkFusStep.chainFusStep.egoFusStep.ttFusStep
  exact .ite hs4.cmdDone hs4
theorem Sound.anchorDo {at_} (hs : Sound q s) : Sound q (s.anchorDo at_) := by
  unfold State.anchorDo
  extract_lets _ s2 _
  have hs2 : Sound q s2 := hs.same rfl
  exact .ite hs2.event.logFus.cmdDone hs2.event.logFus
theorem Sound.reQ (hs : Sound q s) : Sound q s.reQ := hs.same rfl
theorem Sound.sourceDo {v} (hs : Sound q s) : Sound q (s.sourceDo v) := by
  unfold State.sourceDo
  extract_lets _ s2 _ s4
  have hs2 : Sound q s2 := .reQ (hs.same rfl)
  have hs4 : Sound q s4 := .ite hs2.event.enrol hs2.event
  exact .ite hs4.cmdDone hs4
theorem Sound.fusBoundary (hs : Sound q s) : Sound q s.fusBoundary := by
  unfold State.fusBoundary
  extract_lets _ _ _ s2 s3 s4
  have hs2 : Sound q s2 := by
    unfold s2
    split
    · exact .ite hs.fusStepDo hs
    · exact hs
  have hs3 : Sound q s3 := .ite hs2.anchorDo hs2
  have hs4 : Sound q s4 := by
    unfold s4
    split
    · exact .ite hs3.sourceDo hs3
    · exact hs3
  exact hs4.fusJudge
theorem Sound.netEnter {b st} (hs : Sound q s) : Sound q (s.netEnter b st) := by
  unfold State.netEnter
  extract_lets
  split
  · exact hs.setNet.event
  · exact hs.setNet.event
  · exact hs.setNet.event
  · exact hs.setNet
theorem Sound.syncApplied {b} (hs : Sound q s) : Sound q (s.syncApplied b) := hs.setNet.bump
theorem Sound.netStep {b theta} (hs : Sound q s) : Sound q (s.netStep b theta) := hs.setNet
theorem Sound.servo {b theta} (hs : Sound q s) : Sound q (s.servo b theta) := by
  unfold State.servo
  extract_lets _ _ _ _ _ _ _ _ s3
  have hs3 : Sound q s3 := .ite hs.setNet.netEnter hs.setNet
  exact hs3.syncApplied.fusJudge
theorem Sound.slewFrom {b theta} (hs : Sound q s) : Sound q (s.slewFrom b theta) := hs.netEnter.setNet.servo
theorem Sound.jumpRefuse {b} (hs : Sound q s) : Sound q (s.jumpRefuse b) := by
  unfold State.jumpRefuse
  exact hs.setNet.bump.netEnter
theorem Sound.judgeReturn {b theta near} (hs : Sound q s) : Sound q (s.judgeReturn b theta near) :=
  .ite hs.setNet.slewFrom hs.setNet.jumpRefuse
theorem Sound.syncAct {b theta} (hs : Sound q s) : Sound q (s.syncAct b theta) := by
  unfold State.syncAct
  extract_lets
  split
  · exact .ite hs.netStep.setNet.netEnter.syncApplied.fusJudge.cmdDone hs.netStep.setNet.netEnter.syncApplied.fusJudge
  · split
    · exact .ite hs.netStep.netEnter.syncApplied.setNet.reQ.fusJudge hs.netStep.netEnter.syncApplied.setNet
    · exact hs.judgeReturn
    · exact .ite hs.judgeReturn (.ite (.ite hs.slewFrom hs.setNet) hs.setNet)
    · exact .ite hs.judgeReturn (.ite hs.setNet.servo (.ite hs.setNet.bump.jumpRefuse hs.setNet.bump))
theorem Sound.syncRx {b m} (hs : Sound q s) : Sound q (s.syncRx b m) := .ite hs.bump (.ite hs.wrN hs.wrN.setNet.syncAct)
theorem Sound.announceRx {b domain m} (hs : Sound q s) : Sound q (s.announceRx b domain m) := .ite hs.bump (.ite hs hs.wr64.setNet)
theorem Sound.pdelayDone {b t1 t2 t3 t4} (hs : Sound q s) : Sound q (s.pdelayDone b t1 t2 t3 t4) := hs.wrN.setNet
theorem Sound.holdoverAt {b} (hs : Sound q s) : Sound q (s.holdoverAt b) := .ite hs hs.setNet.netEnter
theorem Sound.timeRefuse {e} (hs : Sound q s) : Sound q (s.timeRefuse e) := hs.setFld.cmdDone
theorem Sound.acceptJump (hs : Sound q s) : Sound q s.acceptJump := .ite hs.setNet hs.timeRefuse
theorem Sound.fusSource (hs : Sound q s) : Sound q s.fusSource := .ite hs.cmdDone (.ite hs.timeRefuse (hs.same rfl))
theorem Sound.fusStepCmd (hs : Sound q s) : Sound q s.fusStepCmd := .ite hs.acceptStep hs.timeRefuse
theorem Sound.fusAnchorCmd (hs : Sound q s) : Sound q s.fusAnchorCmd := .ite hs.acceptAnchor hs.timeRefuse
theorem Sound.netFree {b} (hs : Sound q s) : Sound q (s.netFree b) := hs.setNet
theorem Sound.timeStart (hs : Sound q s) : Sound q s.timeStart := by
  unfold State.timeStart
  extract_lets s2
  have hs2 : Sound q s2 := .foldl (fun _ _ hs => hs.setNet) hs
  exact hs2.netFree.netFree.fusJudge
theorem Sound.discardSends {p} (hs : Sound q s) : Sound q (s.discardSends p) := by
  unfold State.discardSends
  extract_lets _ s2 s3
  have hs2 : Sound q s2 := .foldl (fun _ _ hs => hs.put) hs
  have hs3 : Sound q s3 := .ite hs2 hs2.setFld
  exact hs3.setEth.setFld
theorem Sound.trigDisarm {t'} (hs : Sound q s) : Sound q (s.trigDisarm t') := hs.setBit.setBit
theorem Sound.timeDismiss (hs : Sound q s) : Sound q s.timeDismiss := by
  unfold State.timeDismiss
  extract_lets s2 s3 s4 s5 _
  have hs2 : Sound q s2 := .foldl (fun _ _ hs => hs.discardSends) hs
  have hs3 : Sound q s3 := .foldl (fun _ _ hs => hs.trigDisarm) hs2
  have hs4 : Sound q s4 := .foldl (fun _ _ hs => hs.setNet) hs3
  have hs5 : Sound q s5 := .foldl (fun _ _ hs => hs.setEth) hs4
  exact .fusJudge (hs5.same rfl)
theorem Sound.timeWake (hs : Sound q s) : Sound q s.timeWake := by
  unfold State.timeWake
  extract_lets _ _ s2 _
  have hs2 : Sound q s2 := hs.same rfl
  exact .ite hs2.netFree.netFree hs2.netFree.netFree.reQ
theorem Sound.timeOff (hs : Sound q s) : Sound q s.timeOff := hs.same rfl

/-! ### Launch -/

theorem Sound.ptpServe {p} (hs : Sound q s) : Sound q (s.ptpServe p) := by
  unfold State.ptpServe
  extract_lets
  split
  · exact hs
  · exact .ite hs (.ite hs.setEth.bump.setNet hs.setEth.bump)
theorem Sound.ptpQueue {f} (hs : Sound q s) : Sound q (s.ptpQueue f) := hs.setEth.ptpServe
theorem Sound.pdelayInitiate {b} (hs : Sound q s) : Sound q (s.pdelayInitiate b) := .ite hs hs.setNet.ptpQueue
theorem Sound.pdelayRx {b domain m} (hs : Sound q s) : Sound q (s.pdelayRx b domain m) := by
  unfold State.pdelayRx
  extract_lets
  split
  · exact hs.pdelayInitiate
  · split
    · exact hs.bump
    · split
      · exact hs.pdelayDone
      · exact hs
  · exact .ite hs.bump hs.ptpQueue
theorem Sound.txShow {p} (hs : Sound q s) : Sound q (s.txShow p) := hs.setFld
theorem Sound.txHead {p} (hs : Sound q s) : Sound q (s.txHead p) := by
  unfold State.txHead
  extract_lets
  split
  · exact hs.setEth
  · exact hs
theorem Sound.ethSend {p} (hs : Sound q s) : Sound q (s.ethSend p) := by
  unfold State.ethSend
  extract_lets
  split
  · exact hs.cmdDone
  · split
    · exact hs.cmdDone
    · split
      · rename_i e
        have hs2 := hs.loadFor.of_eq e
        extract_lets
        split
        · exact hs2.cmdDone
        · exact .ite hs2.put.cmdDone (.cmdDone (.ite hs2.put.setEth.txShow.txHead hs2.put.setEth.txShow))
theorem Sound.txDone {p f status stamp} (hs : Sound q s) : Sound q (s.txDone p f status stamp) := hs.put.put.setEth.txShow.setFld.txHead
theorem Sound.txSend {p f status ctr} (hs : Sound q s) : Sound q (s.txSend p f status ctr) := by
  unfold State.txSend
  split
  · rename_i e
    have hs2 := hs.loadFor.of_eq e
    extract_lets
    split
    · exact hs2.txDone
    · exact hs2.setEth.bump.bump.txDone
theorem Sound.txLate {p f} (hs : Sound q s) : Sound q (s.txLate p f) := .ite hs.txSend hs.bump.txDone
theorem Sound.launch {p} (hs : Sound q s) : Sound q (s.launch p) := by
  unfold State.launch
  extract_lets
  split
  · exact hs.ptpServe
  · split
    · exact hs
    · exact .ite hs (.ite hs.txSend (.ite hs.txLate (.ite hs (.ite hs.txSend hs.txLate))))
theorem Sound.setTrig {t' v} (hs : Sound q s) : Sound q (s.setTrig t' v) := hs.same rfl
theorem Sound.trigArm {t'} (hs : Sound q s) : Sound q (s.trigArm t') := hs.setTrig.setBit
theorem Sound.trigJudge {t'} (hs : Sound q s) : Sound q (s.trigJudge t') := .ite hs.setBit.event (.ite hs.trigArm hs)
theorem Sound.trigStart (hs : Sound q s) : Sound q s.trigStart := .foldl (fun _ _ hs => hs.trigArm) hs
theorem Sound.trigStop (hs : Sound q s) : Sound q s.trigStop := .foldl (fun _ _ hs => hs.setBit) hs
theorem Sound.trigFire {t'} (hs : Sound q s) : Sound q (s.trigFire t') :=
  .ite hs (.ite hs.setFld.setBit (.ite hs.setFld.setTrig (.ite hs.setFld.setTrig.wr64.setBit hs.setFld.setTrig.wr64)))

/-! ### Memory -/

theorem Sound.upset {g u} (hs : Sound q s) : Sound q (s.upset g u) := .ite hs (hs.same rfl)
theorem Sound.memResp {m r d} (hs : Sound q s) : Sound q (s.memResp m r d) := hs.same rfl
theorem Sound.patrol {u} (hs : Sound q s) : Sound q (s.patrol u) := by
  unfold State.patrol
  extract_lets _ _ s3 _ _ s4 _
  have hs3 : Sound q s3 := by
    unfold s3
    split
    · exact hs.bump
    · exact .ite hs.bump.upset.checkGranule.bump hs.bump.upset.checkGranule
  have hs4 : Sound q s4 := hs3.same rfl
  exact .ite hs (.ite hs4.wrN.sat.event hs4.wrN)
theorem Sound.memInject {v} (hs : Sound q s) : Sound q (s.memInject v) := .ite hs.setFld hs.cfgIgnored
theorem Sound.commonsPutWord {m line w bs} (hs : Sound q s) : Sound q (s.commonsPutWord m line w bs) :=
  .ite hs (.ite (.foldl (fun _ _ hs => hs.setByte) hs.setCommonsBad) (.ite (.foldl
    (fun _ _ hs => hs.setByte) hs.checkCommons) hs.checkCommons.chargeTo))
theorem Sound.commonsPut {m line bs} (hs : Sound q s) : Sound q (s.commonsPut m line bs) := .foldl (fun _ _ hs => hs.commonsPutWord) hs
theorem Sound.commonsRead {s0 r} (hs : Sound q s) : Sound q (s.commonsRead s0 r) := by
  unfold State.commonsRead
  extract_lets _ s2 _
  have hs2 : Sound q s2 := .ite hs (hs.same rfl)
  exact .memResp (.ite hs2.bump.checkCommons hs2.bump.checkCommons.chargeTo)
theorem Sound.commonsWriteA {rb r bs} (hs : Sound q s) : Sound q (s.commonsWriteA rb r bs) :=
  .foldl (fun _ _ hs => by
    extract_lets
    split
    · extract_lets _ _ s8
      have hs8 : Sound q s8 := hs.bump.wrN.wrN.same rfl
      exact hs8.event
    · exact hs.commonsPutWord) hs.bump.memResp
theorem Sound.commonsServe {s0 granted r} (hs : Sound q s) : Sound q (s.commonsServe s0 granted r) := by
  unfold State.commonsServe
  extract_lets _ _ _ s2
  have hs2 : Sound q s2 := hs.same rfl
  split
  · exact hs2.secDeny.memResp
  · split
    · exact hs2.commonsRead
    · exact .ite hs2.commonsWriteA hs2.bump.commonsPut.memResp
theorem Sound.commonsCycles {k rs} (hs : Sound q s) : Sound q (s.commonsCycles k rs) := by
  induction k generalizing s rs with
  | zero => exact hs
  | succ k ih =>
    unfold State.commonsCycles
    extract_lets _ _ _ _ s1 s2
    have hs1 : Sound q s1 := .foldl (fun _ _ hs => hs.commonsServe) hs
    have hs2 : Sound q s2 := .foldl (fun _ _ hs => hs.sat) hs1
    exact .ite hs (ih hs2)
theorem Sound.commonsAccess {rs} (hs : Sound q s) : Sound q (s.commonsAccess rs) := by
  unfold State.commonsAccess
  extract_lets _ s2 _ s3
  have hs2 : Sound q s2 := hs.same rfl
  have hs3 : Sound q s3 := .foldl (fun _ _ hs => hs.reservedAccess.memResp) hs2
  exact hs3.commonsCycles
theorem Sound.conflictsClr {v} (hs : Sound q s) : Sound q (s.conflictsClr v) := .ite (.foldl (fun _ _ hs => hs.wrN) hs) hs
theorem Sound.wipeStart {cause} (hs : Sound q s) : Sound q (s.wipeStart cause) := .ite hs (.ite hs.wrN (hs.wrN.wr.setBit.same rfl))
theorem Sound.zeroSec (hs : Sound q s) : Sound q s.zeroSec := hs.zeroMem.same rfl
theorem Sound.wipeEnd (hs : Sound q s) : Sound q s.wipeEnd := by
  unfold State.wipeEnd
  extract_lets
  split
  · exact hs
  · exact .ite hs (hs.zeroSec.setBit.bump.event.wrN.same rfl)
theorem Sound.commonsZero (hs : Sound q s) : Sound q s.commonsZero := by
  unfold State.commonsZero
  extract_lets _ _ s3
  have hs3 : Sound q s3 := hs.zeroMem.same rfl
  exact hs3.setFld.wr
theorem Sound.commonsInit (hs : Sound q s) : Sound q s.commonsInit := .ite hs.commonsZero.setBlk.setBit hs

/-! ### Neuro -/

theorem Sound.coreFault {c b} (hs : Sound q s) : Sound q (s.coreFault c b) := by
  unfold State.coreFault
  extract_lets s2
  have hs2 : Sound q s2 := .ite hs hs.wrN
  exact hs2.fault
theorem Sound.coreWake {c} (hs : Sound q s) : Sound q (s.coreWake c) := .ite hs.setBit.sat hs
theorem Sound.addSums {c l} (hs : Sound q s) : Sound q (s.addSums c l) := hs.setCore.bump
theorem Sound.deferLevel {c} (hs : Sound q s) : Sound q (s.deferLevel c) := hs.setFld.peak.setBit
theorem Sound.defer {c q'} (hs : Sound q s) : Sound q (s.defer c q') := .ite hs.sat.event hs.setCore.deferLevel
theorem Sound.coreRow {c waddr step g fire} (hs : Sound q s) : Sound q (s.coreRow c waddr step g fire) := by
  unfold State.coreRow
  extract_lets _ _ _ _ _ s2 _ _
  have hs2 : Sound q s2 := .ite hs hs.bump
  exact .ite hs.sat (.ite hs2.defer hs2.addSums)
theorem Sound.coreList {c waddr i d step g fire} (hs : Sound q s) : Sound q (s.coreList c waddr i d step g fire) := by
  unfold State.coreList
  extract_lets _ _ _ s2 _ _ _
  have hs2 : Sound q s2 := .ite hs hs.bump
  split
  · exact hs.sat
  · split
    · exact hs2.addSums.sat.sat.sat.defer
    · exact hs2.addSums.sat.sat.sat
theorem Sound.coreFire {c step q'} (hs : Sound q s) : Sound q (s.coreFire c step q') := .ite hs.coreList hs.coreRow
theorem Sound.coreIntegrate {c p u} (hs : Sound q s) : Sound q (s.coreIntegrate c p u) := by
  unfold State.coreIntegrate
  extract_lets
  split
  · exact hs.sat
  · split
    · exact hs.sat.coreFault
    · split
      · exact hs.sat
      · split
        · exact .ite hs.coreList hs.coreRow
        · exact .ite hs.sat.toSafe.coreList hs.sat.toSafe.coreRow
        · exact hs.coreFault
theorem Sound.moorLevel {r} (hs : Sound q s) : Sound q (s.moorLevel r) := hs.setFld.peak.setBit
theorem Sound.corePacket {c u} (hs : Sound q s) : Sound q (s.corePacket c u) := by
  unfold State.corePacket
  extract_lets
  split
  · exact hs
  · extract_lets _ s3
    have hs3 : Sound q s3 := .ite hs.setCore hs.setCore.setRtr.bump.moorLevel
    exact hs3.coreWake.coreIntegrate
theorem Sound.sat24 {c v} (hs : Sound q s) : Sound q (s.sat24 c v).1 := .ite hs hs.sat
theorem Sound.neuronClose {c step n sum} (hs : Sound q s) : Sound q (s.neuronClose c step n sum).1 := by
  unfold State.neuronClose
  extract_lets _ s2 _ _ _ d
  have hs2 : Sound q s2 := .ite hs hs.sat
  clear_value s2 d
  generalize e : State.sat24 s2 c _ = r
  obtain ⟨s3, v⟩ := r
  have hs3 := hs2.sat24.of_eq e
  exact .iteFst (.putLE (.iteFst hs3 (.iteFst hs3 hs3.sat24))) hs3.putLE
theorem Sound.lastSweep {c step input} (hs : Sound q s) : Sound q (s.lastSweep c step input) :=
  .foldl (fun _ _ hs => .ite hs hs.putLE) hs
theorem Sound.coreEmit {c p} (hs : Sound q s) : Sound q (s.coreEmit c p) := hs.setRtr.bump
theorem Sound.coreDrain {c} (hs : Sound q s) : Sound q (s.coreDrain c) := by
  unfold State.coreDrain
  extract_lets _ _ s2
  have hs2 : Sound q s2 := .foldl (fun _ _ hs => hs.coreEmit) hs
  exact hs2.setCore
theorem Sound.coreStepClose {c residueBad} (hs : Sound q s) : Sound q (s.coreStepClose c residueBad) := by
  unfold State.coreStepClose
  extract_lets k s2 done step
  have hs2 : Sound q s2 := hs.coreWake
  have hdone : ∀ s out, Sound q s → Sound q (done s out) := fun _ _ hs => hs.setCore.coreDrain
  clear_value s2 done
  split
  · exact hs
  · split
    · exact hdone _ _ hs2.coreFault
    · split
      rename_i s3 _ e
      have hs3 : Sound q s3 := .of_eq (.foldlFst (fun a x hs => by
        have h := hs.neuronClose (c := c) (step := step) (n := x.1) (sum := x.2.getD 0)
        split
        rename_i e
        exact h.of_eq e) hs2) e
      exact hdone _ _ (.ite hs3.lastSweep hs3)
theorem Sound.coreGate {c} (hs : Sound q s) : Sound q (s.coreGate c) := .ite hs hs.setBit
theorem Sound.coreDismiss {c} (hs : Sound q s) : Sound q (s.coreDismiss c) := hs.sat.setCore.setFld.setBit

/-! ### Fabric -/

theorem Sound.edgeLevel {e} (hs : Sound q s) : Sound q (s.edgeLevel e) := hs.setFld.peak
theorem Sound.edgeRecord {h} (hs : Sound q s) : Sound q (s.edgeRecord h) := by
  unfold State.edgeRecord
  extract_lets
  split
  · exact hs
  · extract_lets
    split
    · exact hs.setFend.bump
    · split
      · exact hs.setFend.bump
      · exact .ite hs hs.setFend.setEdge.edgeLevel
theorem Sound.edgeInject {e} (hs : Sound q s) : Sound q (s.edgeInject e) := by
  unfold State.edgeInject
  extract_lets
  split
  · exact hs
  · exact .ite hs hs.setEdge.edgeLevel.setRtr.bump
theorem Sound.rtrFault {r b} (hs : Sound q s) : Sound q (s.rtrFault r b) := by
  unfold State.rtrFault
  extract_lets s2
  have hs2 : Sound q s2 := .ite hs hs.wrN
  exact hs2.fault
theorem Sound.rtrDrop {r d ctr} (hs : Sound q s) : Sound q (s.rtrDrop r d ctr) := hs.setRtr.sat.bump
theorem Sound.moorCopy {r p} (hs : Sound q s) : Sound q (s.moorCopy r p) := .ite hs.rtrDrop.event hs.setRtr.bump.moorLevel
theorem Sound.coreAccept {r p} (hs : Sound q s) : Sound q (s.coreAccept r p) := .ite hs.setRtr.bump.setCore.coreWake hs.setRtr.bump.sat
theorem Sound.siteAppend {k p} (hs : Sound q s) : Sound q (s.siteAppend k p) := by
  unfold State.siteAppend
  extract_lets n ovf s2
  have hovf : ∀ s, Sound q s → Sound q (ovf s) := fun _ hs => hs.same rfl
  have hs2 : Sound q s2 := .ite hs.sourceRewrites hs
  clear_value s2 ovf
  split
  · exact (hovf _ hs).event
  · generalize e : State.store s2 mFab _ _ = r
    obtain ⟨s3, ok⟩ := r
    have hs3 := hs2.store.of_eq e
    exact .ite (hs3.same rfl) (hovf _ hs3)
/-- The definition is opened as a function, and the class of a key kept opaque: the kernel would evaluate the search for it. -/
theorem Sound.outCopy {r d p} (hs : Sound q s) : Sound q (s.outCopy r d p) := by
  have e : State.outCopy = State.outCopy := rfl
  conv at e => rhs; delta State.outCopy
  obtain ⟨cls, ec⟩ : ∃ f, State.outClass = f := ⟨_, rfl⟩
  rw [ec] at e
  rw [e]
  beta_reduce
  extract_lets s2
  have hs2 : Sound q s2 := hs.setRtr.bump
  split
  · exact hs2.sat
  · exact .ite (.siteAppend (hs2.same rfl)) (hs2.same rfl)
theorem Sound.sendPort {r now p o} (hs : Sound q s) : Sound q (s.sendPort r now p o) := by
  unfold State.sendPort
  split
  · exact .ite hs.coreAccept hs.moorCopy
  · split
    · exact hs.outCopy
    · split
      · exact hs.setRtr.bump
      · exact hs.setRtr
theorem Sound.stallShow {r stall} (hs : Sound q s) : Sound q (s.stallShow r stall) := .setBit (.ite hs.sat hs)
theorem Sound.routeOne {r inp p e} (hs : Sound q s) : Sound q (s.routeOne r inp p e) := by
  unfold State.routeOne
  extract_lets
  split
  · exact hs.setRtr.sat
  · extract_lets _ s3
    have hs3 : Sound q s3 := by
      unfold s3
      split
      · exact hs.rtrDrop.event
      · exact hs.rtrDrop
    split
    · exact hs3.rtrFault
    · exact hs3
  · exact .foldl (fun _ _ hs => hs.sendPort) hs.setRtr
theorem Sound.routerCopy {r e} (hs : Sound q s) : Sound q (s.routerCopy r e) := by
  unfold State.routerCopy
  extract_lets
  split
  · exact .ite hs hs.stallShow
  · exact .ite hs.stallShow.setRtr.routeOne.coreDrain hs.stallShow.setRtr.routeOne
theorem Sound.windowClose (hs : Sound q s) : Sound q s.windowClose := .ite hs (hs.setFend.setFend.same rfl)
theorem Sound.releaseMoored {r step} (hs : Sound q s) : Sound q (s.releaseMoored r step) := by
  unfold State.releaseMoored
  extract_lets _ _ _ _ s3
  have hs3 : Sound q s3 := .foldl (fun _ _ hs => hs.setRtr.coreAccept) hs.setRtr
  exact .ite hs hs3.moorLevel
theorem Sound.fireCursors {c step} (hs : Sound q s) : Sound q (s.fireCursors c step) :=
  .ite hs (.deferLevel (.foldl (fun _ _ hs => hs.coreFire) hs.setCore.coreWake))
theorem Sound.stepOpen (hs : Sound q s) : Sound q s.stepOpen := by
  unfold State.stepOpen
  extract_lets _ _ _ s2 _ s4 s5 _
  have hs2 : Sound q s2 := hs.same rfl
  have hs4 : Sound q s4 := .foldl (fun _ _ hs => hs.releaseMoored) hs2.wr64
  have hs5 : Sound q s5 := .foldl (fun _ _ hs => hs.fireCursors) hs4
  exact .ite hs (hs5.same rfl)
theorem Sound.ringBell {forced} (hs : Sound q s) : Sound q (s.ringBell forced) := hs.bump.wrN.same rfl
theorem Sound.deliver (hs : Sound q s) : Sound q s.deliver := by
  unfold State.deliver
  extract_lets _ s2
  have hs2 : Sound q s2 := hs.same rfl
  exact .foldl (fun _ _ hs => .ite hs.coreWake hs) hs2
theorem Sound.reductionRound (hs : Sound q s) : Sound q s.reductionRound := by
  unfold State.reductionRound
  extract_lets _ _ _ s2
  have hs2 : Sound q s2 := hs.same rfl
  split
  · exact hs
  · split
    · exact hs2
    · exact .ite (.ite hs2.ringBell hs2) (.ite hs2.deliver hs2)
theorem Sound.countMismatch (hs : Sound q s) : Sound q s.countMismatch := .ite hs.fault.ringBell hs
theorem Sound.sendShed {lvl ruled} (hs : Sound q s) : Sound q (s.sendShed lvl ruled) :=
  .ite hs (.ite hs.sendLoop.sendLoop.setFld (.ite hs.sendLoop.sendLoop.setFld.event
    (.ite hs.sendLoop.sendLoop.setFld.event hs.sendLoop.sendLoop.setFld)))
theorem Sound.siteHeaders (hs : Sound q s) : Sound q s.siteHeaders :=
  .foldl (fun _ _ hs => by
    extract_lets _ s3
    have hs3 : Sound q s3 := .ite hs.sourceRewrites hs
    exact .ite hs3.put.sourceFires hs) hs
theorem Sound.bellAccounting (hs : Sound q s) : Sound q s.bellAccounting := by
  unfold State.bellAccounting
  extract_lets _ _ _ _ s2 _ _ _ s5 _ _ _ s7 _ s8
  have hs2 : Sound q s2 := .ite hs hs.bump
  have hs5 : Sound q s5 := .foldl (fun _ _ hs => hs.wrN) hs2.wrN.wrN.peak.peak
  have hs7 : Sound q s7 := .foldl (fun _ _ hs => hs.setFend) hs5.siteHeaders
  have hs8 : Sound q s8 := hs7.same rfl
  exact .ite hs hs8.sendShed
theorem Sound.fabCheck (hs : Sound q s) : Sound q s.fabCheck.1 := by
  unfold State.fabCheck
  extract_lets _ _ s2 _ _ s3
  have hs2 : Sound q s2 := .foldl (fun _ _ hs => hs.setBit) hs
  have hs3 : Sound q s3 := .ite hs2.event hs2
  exact .ite hs3.event hs3
theorem Sound.setLast {c first} (hs : Sound q s) : Sound q (s.setLast c first) := .foldl (fun _ _ hs => hs.putLE) hs
theorem Sound.fabStart (hs : Sound q s) : Sound q s.fabStart := by
  unfold State.fabStart
  extract_lets _ _ s2 s3 s4 s5
  have hs2 : Sound q s2 := hs.same rfl
  have hs3 : Sound q s3 := .foldl (fun _ _ hs => hs.setFend) hs2
  have hs4 : Sound q s4 := .foldl (fun _ _ hs => hs.deferLevel) hs3
  have hs5 : Sound q s5 := .foldl (fun _ _ hs => hs.setLast) hs4
  exact hs5.setFld.sendShed
theorem Sound.fabEmpty (hs : Sound q s) : Sound q s.fabEmpty := by
  unfold State.fabEmpty
  extract_lets _ _ _ _ _ _ _ s3 s4
  have hs3 : Sound q s3 := hs.sat.bump.bump.same rfl
  have hs4 : Sound q s4 := .foldl (fun _ _ hs => hs.moorLevel.setBit) hs3
  exact .foldl (fun _ _ hs => hs.edgeLevel) hs4
theorem Sound.fabStopping (hs : Sound q s) : Sound q s.fabStopping := .ite hs hs.fabEmpty.setBlk
theorem Sound.fabDismiss (hs : Sound q s) : Sound q s.fabDismiss := by
  unfold State.fabDismiss
  extract_lets s2 _ s4
  have hs2 : Sound q s2 := .ite hs.ringBell hs
  have hs4 : Sound q s4 := .foldl (fun _ _ hs => hs.coreDismiss) hs2.bellAccounting
  exact hs4.fabEmpty.sendShed.setFld
theorem Sound.fenceCore {c} (hs : Sound q s) : Sound q (s.fenceCore c) := .ite hs hs.setBit.sat.setCore.deferLevel
theorem Sound.fenceRouter {r} (hs : Sound q s) : Sound q (s.fenceRouter r) := .ite hs hs.setBit.sat.setRtr.moorLevel.fenceCore

/-! ### Stream -/

theorem Sound.setRing {h r g} (hs : Sound q s) : Sound q (s.setRing h r g) := hs.setPort
theorem Sound.setStage {h r g} (hs : Sound q s) : Sound q (s.setStage h r g) := hs.setRing.wrN
theorem Sound.ringDrop {h r n} (hs : Sound q s) : Sound q (s.ringDrop h r n) := .ite hs hs.sat.event
theorem Sound.produceOn {o h} (hs : Sound q s) : Sound q (s.produceOn o h) := .ite hs (.ite hs.wr64.ringDrop hs.wr64.setStage)
theorem Sound.produce {o} (hs : Sound q s) : Sound q (s.produce o) := .foldl (fun _ _ hs => hs.produceOn) hs.bump
theorem Sound.streamRecord (hs : Sound q s) : Sound q s.streamRecord := by
  unfold State.streamRecord
  extract_lets
  split
  · exact hs
  · extract_lets s2
    have hs2 : Sound q s2 := hs.same rfl
    exact .ite hs2.produce hs2
theorem Sound.produceAll (hs : Sound q s) : Sound q s.produceAll := .foldl (fun _ _ hs => hs.produce) (hs.same rfl)
theorem Sound.dropStaged {h} (hs : Sound q s) : Sound q (s.dropStaged h) := .foldl (fun _ _ hs => .ite hs hs.setStage.ringDrop) hs
theorem Sound.hostPut {h a bs} (hs : Sound q s) : Sound q (s.hostPut h a bs) := hs.setPort
theorem Sound.ringPlace {h r d} (hs : Sound q s) : Sound q (s.ringPlace h r d).1 := .iteFst hs (.iteFst hs hs.hostPut.bump)
theorem Sound.ringSend {h r d} (hs : Sound q s) : Sound q (s.ringSend h r d) :=
  .ite hs.ringPlace.hostPut.bump.hostPut.setRing.msix hs.ringPlace.hostPut.bump.hostPut.setRing
theorem Sound.ringWrite {h} (hs : Sound q s) : Sound q (s.ringWrite h) := by
  unfold State.ringWrite
  split
  · exact hs
  · split
    · exact hs
    · extract_lets
      split
      · exact hs
      · exact .ite hs.setStage.ringSend hs.setStage.ringDrop
theorem Sound.ringCtrl {h r v} (hs : Sound q s) : Sound q (s.ringCtrl h r v) := by
  unfold State.ringCtrl
  extract_lets _ _ s2 _ _
  have hs2 : Sound q s2 := .ite hs hs.cfgIgnored
  exact .ite hs2.setBit (.ite hs.wrN (.ite hs.wrN.setBit.setRing hs.wrN.cfgIgnored))
theorem Sound.streamStart (hs : Sound q s) : Sound q s.streamStart := hs.same rfl
theorem Sound.streamStop (hs : Sound q s) : Sound q s.streamStop := hs.produceAll.same rfl
theorem Sound.streamDismiss (hs : Sound q s) : Sound q s.streamDismiss := by
  unfold State.streamDismiss
  extract_lets _ _ s3
  have hs3 : Sound q s3 := by
    unfold s3
    split
    · exact hs.produceAll
    · exact .produce (hs.produceAll.same rfl)
  exact hs3.dropStaged.dropStaged
theorem Sound.tapBlockClose (hs : Sound q s) : Sound q s.tapBlockClose := .ite hs.tapClose hs
theorem Sound.windowPut {w d} (hs : Sound q s) : Sound q (s.windowPut w d) := by
  unfold State.windowPut
  extract_lets _ _ _ _ s4 _ s5
  have hs4 : Sound q s4 := hs.put.put.put
  clear_value s4
  have hs5 : Sound q s5 := hs4.same rfl
  exact hs5.bump
theorem Sound.resultWindow {w} (hs : Sound q s) : Sound q (s.resultWindow w) := by
  unfold State.resultWindow
  extract_lets
  split
  · exact hs
  · split
    · exact .ite (.windowPut (hs.same rfl)) hs
    · split
      · exact hs
      · exact .windowPut (hs.same rfl)
theorem Sound.tapSens {v} (hs : Sound q s) : Sound q (s.tapSens v) := .foldl (fun _ _ hs => .ite (hs.same rfl) hs) hs.wrN
theorem Sound.resultEn {v} (hs : Sound q s) : Sound q (s.resultEn v) := hs.wrN.same rfl
theorem Sound.tickRecord (hs : Sound q s) : Sound q s.tickRecord := by
  unfold State.tickRecord
  split
  · exact hs
  · rename_i ts _
    refine .ite hs ?_
    have hs2 : Sound q { s with bell := { s.bell with ticks := ts } } := hs.same rfl
    generalize ({ s with bell := { s.bell with ticks := ts } } : State) = s2 at hs2
    split
    rename_i e
    have hs3 := hs2.stepIncrement.of_eq e
    extract_lets d s4 s5 _ s6 _
    have hs5 : Sound q s5 := hs3.window.offer
    clear_value s5
    have hs6 : Sound q s6 := hs5.same rfl
    exact hs6.same rfl
theorem Sound.portShow {h} (hs : Sound q s) : Sound q (s.portShow h) := hs.setFld.setBit.setBit
theorem Sound.linkUp {h width rate} (hs : Sound q s) : Sound q (s.linkUp h width rate) :=
  .ite hs hs.setPort.setFld.setFld.portShow.event
theorem Sound.linkDown {h} (hs : Sound q s) : Sound q (s.linkDown h) := .ite hs hs.setPort.portShow.bump.event
theorem Sound.portReset {h} (hs : Sound q s) : Sound q (s.portReset h) := by
  unfold State.portReset
  extract_lets s2 _ clr s3 s4 s5 s6 s7
  have hclr : ∀ s lo hi, Sound q s → Sound q (clr s lo hi) := fun _ _ _ hs => { hs with regs := SMap.wf_clear _ _ _ hs.regs }
  have hs6 : Sound q s6 := hclr _ _ _ (hclr _ _ _ (hclr _ _ _ (hclr _ _ _ hs.dropStaged)))
  have hs7 : Sound q s7 := .foldl (fun _ _ hs => hs.wr64) hs6
  exact hs7.setPort
theorem Sound.perst {h high} (hs : Sound q s) : Sound q (s.perst h high) :=
  .ite hs.setPort.portShow hs.linkDown.portReset.setPort.portShow
theorem Sound.functionReset {h} (hs : Sound q s) : Sound q (s.functionReset h) := .ite hs.portReset hs
theorem Sound.linkFatal {h} (hs : Sound q s) : Sound q (s.linkFatal h) := .ite hs.fault hs.fault.setBlk

/-! ### Blocks -/

theorem Sound.enableJudge {p} (hs : Sound q s) : Sound q (s.enableJudge p).1 := by
  unfold State.enableJudge
  extract_lets
  split
  · exact .iteFst hs.event hs
  · exact .iteFst hs.event hs
  · exact .iteFst hs.event hs
  · exact .iteFst hs.event hs
  · exact .iteFst hs.event hs
  · exact .iteFst hs.event hs
  · exact .iteFst hs.event hs
  · exact .iteFst hs.event hs
  · exact .iteFst hs.event hs
  · exact .iteFst hs.event hs
  · exact .iteFst hs.event hs
  · exact hs.fabCheck
  · exact hs
theorem Sound.portAlign {u} (hs : Sound q s) : Sound q (s.portAlign u) := hs.alignStart
theorem Sound.startHook {p} (hs : Sound q s) : Sound q (s.startHook p) := by
  unfold State.startHook
  extract_lets
  split
  · exact hs.csiStart.portAlign
  · exact hs.ethStart.portAlign
  · exact hs.imuStart
  · exact hs.wheelStart
  · exact hs.trigStart
  · exact hs.fendStart
  · exact hs.fabStart.same rfl
  · exact hs.engStart
  · exact hs.engStart
  · exact hs.engStart
  · exact hs.gridStart
  · exact hs.trkStart
  · exact hs.chainStart
  · exact hs.egoBegin
  · exact hs.timeStart
  · exact hs.streamStart
  · exact .coefServe (.foldl (fun _ _ hs => hs.canServe) hs)
  · exact hs.coefServe
  · exact hs
theorem Sound.enterRunning {p} (hs : Sound q s) : Sound q (s.enterRunning p) := by
  unfold State.enterRunning
  extract_lets _ _ s3
  have hs3 : Sound q s3 := hs.setBlk.setBit.same rfl
  exact hs3.startHook
theorem Sound.enableWrite {p} (hs : Sound q s) : Sound q (s.enableWrite p) := by
  unfold State.enableWrite
  split
  · exact hs.cfgIgnored
  · split
    · rename_i e
      have hs2 := hs.enableJudge.of_eq e
      exact hs2.enterRunning
    · rename_i e
      have hs2 := hs.enableJudge.of_eq e
      exact hs2
theorem Sound.tickRecords (hs : Sound q s) : Sound q s.tickRecords := .foldl (fun _ _ hs => hs.tickRecord) hs
theorem Sound.engDismiss {e} (hs : Sound q s) : Sound q (s.engDismiss e) := hs.engAbandon.setEngBit.setEngBit
theorem Sound.dismissHook {p} (hs : Sound q s) : Sound q (s.dismissHook p) := by
  unfold State.dismissHook
  extract_lets
  split
  · exact hs.csiStop
  · exact hs.ethStop
  · exact hs.imuStop
  · exact hs.wheelStop
  · exact hs.canStop
  · exact hs.trigStop
  · exact hs.fendDismiss
  · exact hs.fabDismiss.tickRecords
  · exact hs.engDismiss
  · exact hs.engDismiss
  · exact hs.engDismiss
  · exact hs.ttDismiss
  · exact hs.gridDismiss
  · exact hs.trkDismiss
  · exact hs.chainDismiss
  · exact hs.egoDismiss
  · exact hs.timeDismiss
  · exact hs.dropStaged
  · exact hs.streamDismiss
  · exact hs.setFld.same rfl
  · exact hs
theorem Sound.stopHook {p} (hs : Sound q s) : Sound q (s.stopHook p) := by
  unfold State.stopHook
  extract_lets _ s2 _
  have hs2 : Sound q s2 := .ttDismiss (hs.same rfl)
  split
  · exact hs.fendStop
  · exact hs
  · exact hs.engAbandon.pairBreak
  · exact hs.engAbandon.pairBreak
  · exact hs.engAbandon.pairBreak
  · exact hs2.same rfl
  · exact hs.trkStop
  · exact hs.chainStop
  · exact hs
  · exact hs.streamStop
  · exact hs.dismissHook.cmdDone
  · exact hs.dismissHook.cmdDone
  · exact hs.dismissHook.cmdDone
  · exact hs.dismissHook
theorem Sound.disableWrite {p} (hs : Sound q s) : Sound q (s.disableWrite p) :=
  .ite hs.cfgIgnored (.ite hs.setBlk.setBit.stopHook hs.setBlk.setBit.stopHook.setBlk)
theorem Sound.faultsDismissed {p} (hs : Sound q s) : Sound q (s.faultsDismissed p) := hs.same rfl
theorem Sound.dismissOne {p} (hs : Sound q s) : Sound q (s.dismissOne p) := by
  unfold State.dismissOne
  extract_lets s2 _
  have hs2 : Sound q s2 := .ite hs.setBit.setFld hs
  exact hs2.setBlk.dismissHook.cmdDone.faultsDismissed
theorem Sound.dismissEnd {p} (hs : Sound q s) : Sound q (s.dismissEnd p) := by
  unfold State.dismissEnd
  extract_lets _ s3
  have hs3 : Sound q s3 := .ite hs.setBlk.enterRunning hs.setBlk
  split
  · exact hs3.event
  · exact hs3
theorem Sound.sysDismiss (hs : Sound q s) : Sound q s.sysDismiss := .ite hs (.foldl (fun _ _ hs => .ite hs hs.dismissOne) hs.setFld)
theorem Sound.blkDismiss {p} (hs : Sound q s) : Sound q (s.blkDismiss p) :=
  .ite hs.sysDismiss (.ite hs (.ite hs.dismissOne.dismissEnd (.ite hs (.ite hs.dismissOne.dismissOne hs.dismissOne))))
theorem Sound.dismissWrite {h p v} (hs : Sound q s) : Sound q (s.dismissWrite h p v) := .ite hs.denied (.ite hs.blkDismiss hs)
theorem Sound.dismissDone {p} (hs : Sound q s) : Sound q (s.dismissDone p) := .ite hs (.ite hs.dismissEnd.setFld hs.dismissEnd)
theorem Sound.haltWrite {p on} (hs : Sound q s) : Sound q (s.haltWrite p on) := by
  unfold State.haltWrite
  extract_lets _ _ _ s2 _ _
  have hs2 : Sound q s2 := .ite (hs.same rfl) hs
  split
  · exact hs
  · exact .ite hs (.ite hs2.setBit.engHalted hs2.setBit)
theorem Sound.testWrite {p en} (hs : Sound q s) : Sound q (s.testWrite p en) := .ite hs.setBlk.setBit.dismissHook.cmdDone hs.cfgIgnored
theorem Sound.ctrlWrite {p v} (hs : Sound q s) : Sound q (s.ctrlWrite p v) := by
  unfold State.ctrlWrite
  extract_lets _ _ _ _ s3
  have hs3 : Sound q s3 := .ite hs.haltWrite.testWrite hs.haltWrite
  exact .ite hs (.ite hs.haltWrite.cfgIgnored (.ite hs3 (.ite hs3.enableWrite (.ite hs3.disableWrite hs3.cfgIgnored))))
theorem Sound.testEnd {p passed} (hs : Sound q s) : Sound q (s.testEnd p passed) := by
  unfold State.testEnd
  extract_lets
  split
  · exact hs
  · split
    · exact hs.setBit.setFld.setBlk.trkTested
    · exact .ite (hs.setBit.setFld.setBlk.same rfl) hs.setBit.setFld.setBlk
    · exact .ite hs.setBit.setFld.setBlk.setWin hs.setBit.setFld.setBlk
    · exact .ite hs.setBit.setFld.setBlk.setWin hs.setBit.setFld.setBlk
    · exact .ite hs.setBit.setFld.setBlk.setWin hs.setBit.setFld.setBlk
    · exact hs.setBit.setFld.setBlk
theorem Sound.eventsClear {p faults v} (hs : Sound q s) : Sound q (s.eventsClear p faults v) := .ite hs hs.wr
theorem Sound.ctrlBits {p en halt test} (hs : Sound q s) : Sound q (s.ctrlBits p en halt test) := hs.ctrlWrite

/-! ### Safe -/

theorem Sound.setPin {h v} (hs : Sound q s) : Sound q (s.setPin h v) := .ite hs hs.setBit.event
theorem Sound.pinJudge {h} (hs : Sound q s) : Sound q (s.pinJudge h) := by
  unfold State.pinJudge
  extract_lets
  split
  · exact .setPin (hs.same rfl)
  · split
    · exact hs
    · exact hs.same rfl
theorem Sound.safeShow (hs : Sound q s) : Sound q s.safeShow := by
  unfold State.safeShow
  extract_lets _ s2 s3 _ s4 _
  have hs2 : Sound q s2 := .ite hs hs.wrN.event
  have hs3 : Sound q s3 := by
    unfold s3
    split
    · exact hs2.setBit
    · exact .ite hs2 hs2.wrN
  have hs4 : Sound q s4 := .ite hs3.event hs3
  exact hs4.setBit.pinJudge.pinJudge
theorem Sound.refreshLost {h} (hs : Sound q s) : Sound q (s.refreshLost h) := .pinJudge (.setPin (hs.same rfl))
theorem Sound.safeDismiss {p} (hs : Sound q s) : Sound q (s.safeDismiss p) := .ite hs hs.dismissHook.cmdDone.faultsDismissed.setBlk
theorem Sound.fence {inst} (hs : Sound q s) : Sound q (s.fence inst) := by
  unfold State.fence
  extract_lets _ s2
  have hs2 : Sound q s2 := hs.same rfl
  exact .ite hs2.fenceRouter hs2.fenceCore
theorem Sound.respond {f c} (hs : Sound q s) : Sound q (s.respond f c) := by
  unfold State.respond
  extract_lets
  split
  · exact .ite hs.fence hs
  · exact .ite hs.ttFence hs
  · exact .ite hs.ttFence hs
  · exact .ite hs.ttFence hs
  · exact .ite hs.safeDismiss hs
  · exact .ite hs.safeDismiss hs
  · exact .ite hs.safeDismiss hs
  · exact .ite hs.discardSends hs
  · exact .ite (hs.same rfl) hs
  · exact hs
theorem Sound.putRecord {o f c} (hs : Sound q s) : Sound q (s.putRecord o f c) := hs.wrN.wrN.wr64
theorem Sound.countFault {cls} (hs : Sound q s) : Sound q (s.countFault cls) :=
  .ite hs.bump.event (.ite hs.bump.event (.ite hs.bump.setBit hs.bump.setBit.setBit.signal))
theorem Sound.logFault {f c} (hs : Sound q s) : Sound q (s.logFault f c) := .ite (hs.same rfl) hs.logAt
theorem Sound.injectDone {f} (hs : Sound q s) : Sound q (s.injectDone f) := by
  unfold State.injectDone
  extract_lets
  split
  · exact .ite (.cmdDone (hs.same rfl)) hs
  · exact hs
theorem Sound.classify {f} (hs : Sound q s) : Sound q (s.classify f) := by
  unfold State.classify
  extract_lets _ _ _ s4 _ _ _ s6
  have hs4 : Sound q s4 := .ite hs.countFault.putRecord hs.countFault.putRecord.putRecord
  have hs6 : Sound q s6 := hs4.logFault.same rfl
  exact hs6.respond.injectDone.safeShow
theorem Sound.hwRaise {p b inst} (hs : Sound q s) : Sound q (s.hwRaise p b inst) := by
  unfold State.hwRaise
  extract_lets
  split
  · exact .ite hs.coreFault hs.rtrFault
  · exact .ite hs.fault hs.fault.setStage.ringDrop
  · exact hs.fault
  · exact hs.fault
  · exact hs.fault
theorem Sound.hwCorrected {p inst} (hs : Sound q s) : Sound q (s.hwCorrected p inst) := by
  unfold State.hwCorrected
  extract_lets s2
  have hs2 : Sound q s2 := by
    unfold s2
    split
    · exact .ite hs.sat hs
    · exact hs.bump
    · exact hs.bump
    · exact hs.bump
    · exact hs
  exact hs2.toSafe
theorem Sound.hwFound {f} (hs : Sound q s) : Sound q (s.hwFound f) := by
  unfold State.hwFound
  extract_lets
  split
  · exact hs
  · exact .ite (.ite hs.toSafe hs) (.ite hs (.ite hs.hwCorrected (.ite hs.hwRaise hs)))
theorem Sound.faultClassify {found} (hs : Sound q s) : Sound q (s.faultClassify found) := by
  unfold State.faultClassify
  extract_lets s2 _
  have hs2 : Sound q s2 := by
    unfold s2
    split
    · exact hs.hwFound
    · exact hs
  split
  · exact hs2
  · exact .classify (hs2.same rfl)
theorem Sound.rollCall (hs : Sound q s) : Sound q s.rollCall := .ite hs (hs.same rfl)
theorem Sound.rcFault {p reason inst} (hs : Sound q s) : Sound q (s.rcFault p reason inst) := hs.bump.wrN.toSafe
theorem Sound.rcFail {p r unit} (hs : Sound q s) : Sound q (s.rcFail p r unit) := .ite hs.bump.fault hs.rcFault
theorem Sound.logSummary (hs : Sound q s) : Sound q s.logSummary := by
  unfold State.logSummary
  extract_lets
  split
  · exact hs
  · exact .log (hs.same rfl)
theorem Sound.pinLift {r h} (hs : Sound q s) : Sound q (s.pinLift r h) := by
  unfold State.pinLift
  split
  · exact .ite hs.setPin hs
  · exact hs
theorem Sound.rollCallEnd {fails} (hs : Sound q s) : Sound q (s.rollCallEnd fails) := by
  unfold State.rollCallEnd
  extract_lets _ _ _ s2 _ _ s3 _ _ _ s7
  have hs2 : Sound q s2 := .foldl (fun _ _ hs => hs.rcFail) hs
  have hs3 : Sound q s3 := hs2.same rfl
  have hs7 : Sound q s7 := .logSummary (.foldl (fun _ _ hs => .ite hs.setPin hs.pinLift) hs3.bump.wr64.setBit.safeShow)
  exact .ite hs hs7.window
theorem Sound.watchdogFire {p unit router} (hs : Sound q s) : Sound q (s.watchdogFire p unit router) := .ite hs hs.rcFault
theorem Sound.clockWindow {d khz} (hs : Sound q s) : Sound q (s.clockWindow d khz) := by
  unfold State.clockWindow
  extract_lets _ _ _ _ _ _ _ s3
  have hs3 : Sound q s3 := hs.wrN.same rfl
  exact .ite hs (.ite hs3.setBit.bump.toSafe hs3)
theorem Sound.clockMonitor {khz} (hs : Sound q s) : Sound q (s.clockMonitor khz) :=
  .ite hs (.foldl (fun _ _ hs => by
    split
    · exact hs.clockWindow
    · exact hs) (hs.same rfl))
theorem Sound.railTrip {n above} (hs : Sound q s) : Sound q (s.railTrip n above) := .ite hs hs.setBit.bump.toSafe.safeShow
theorem Sound.safeRefuse {c} (hs : Sound q s) : Sound q (s.safeRefuse c) := hs.wrN.cmdDone
theorem Sound.clearFirst (hs : Sound q s) : Sound q s.clearFirst := .cmdDone (.foldl (fun _ _ hs => hs.wrN) hs)
theorem Sound.injectCmd (hs : Sound q s) : Sound q s.injectCmd := by
  unfold State.injectCmd
  extract_lets _ _ _ _ s2 _
  have hs2 : Sound q s2 := hs.same rfl
  exact .ite hs.safeRefuse (.ite hs.safeRefuse (.ite hs2.rcFault (hs2.same rfl)))
theorem Sound.unfenceFab (hs : Sound q s) : Sound q s.unfenceFab := by
  have h : Sound q { s with regs := SMap.clear s.regs (rk pgSafe 0x200) (rk pgSafe 0x300) } := { hs with regs := SMap.wf_clear _ _ _ hs.regs }
  exact .ite hs.cmdDone (.ite h.cmdDone.safeShow hs.safeRefuse)

/-! ### Trust -/

theorem Sound.fwVerify {img} (hs : Sound q s) : Sound q (s.fwVerify img).1 :=
  .iteFst hs (.iteFst hs (.iteFst hs (.iteFst hs.verified (.iteFst hs.verified hs.verified))))
theorem Sound.fwRelease {img} (hs : Sound q s) : Sound q (s.fwRelease img) := by
  unfold State.fwRelease
  extract_lets _ _ s2 _
  have hs2 : Sound q s2 := hs.same rfl
  exact hs2.wrN.extend
theorem Sound.makeNonce (hs : Sound q s) : Sound q s.makeNonce := by
  unfold State.makeNonce
  extract_lets _ _ s2
  have hs2 : Sound q s2 := hs.same rfl
  exact .foldl (fun _ _ hs => hs.wrN) hs2
theorem Sound.spendNonce (hs : Sound q s) : Sound q s.spendNonce := .foldl (fun _ _ hs => hs.wrN) hs
theorem Sound.fuseEnd {j} (hs : Sound q s) : Sound q (s.fuseEnd j) := by
  unfold State.fuseEnd
  extract_lets _ _ s2 _
  have hs2 : Sound q s2 := hs.same rfl
  split
  · exact hs2
  · exact hs2.extend.event.safeShow
theorem Sound.romStart (hs : Sound q s) : Sound q s.romStart := by
  unfold State.romStart
  extract_lets s2 _ s3 _ _ _ _
  have hs2 : Sound q s2 := by
    unfold s2
    split
    · exact hs.fuseEnd
    · exact hs
  have hs3 : Sound q s3 := hs2.same rfl
  exact .ite hs3.setBlk.wrN.extend.extend.makeNonce.setFld hs3.setBlk.wrN.extend.extend.makeNonce
theorem Sound.boot {img} (hs : Sound q s) : Sound q (s.boot img) := by
  unfold State.boot
  split
  · exact hs
  · split
    · rename_i e
      have hs2 := hs.fwVerify.of_eq e
      exact hs2.fwRelease
    · rename_i e
      have hs2 := hs.fwVerify.of_eq e
      exact hs2.setFld.setFld
theorem Sound.secWipe {cause} (hs : Sound q s) : Sound q (s.secWipe cause) := hs.wipeStart.same rfl
theorem Sound.secRefuse {c} (hs : Sound q s) : Sound q (s.secRefuse c) := hs.wrN.cmdDone
theorem Sound.secCmd {f} (hs : Sound q s) (hf : ∀ s, Sound q s → Sound q (f s)) : Sound q (s.secCmd f) :=
  .ite hs.secRefuse (.ite hs.secRefuse (hf _ hs))
theorem Sound.secLoad {a n} (hs : Sound q s) : Sound q (s.secLoad a n).1 := by
  unfold State.secLoad
  split
  · rename_i e
    have hs2 := hs.load.of_eq e
    exact hs2
  · rename_i e
    have hs2 := hs.load.of_eq e
    exact hs2
theorem Sound.bootCmd (hs : Sound q s) : Sound q s.bootCmd := by
  unfold State.bootCmd
  extract_lets
  split
  · exact hs.setFld.secRefuse
  · split
    · rename_i e
      have hs2 := hs.secLoad.of_eq e
      extract_lets
      split
      · rename_i e
        have hs3 := Sound.of_eq (.iteFst hs2.secLoad hs2) e
        split
        · rename_i e
          have hs4 := hs3.fwVerify.of_eq e
          exact hs4.fwRelease.cmdDone
        · rename_i e
          have hs4 := hs3.fwVerify.of_eq e
          exact hs4.setFld.secRefuse
theorem Sound.fuseBegin {j} (hs : Sound q s) : Sound q (s.fuseBegin j) := hs.same rfl
theorem Sound.provision {b} (hs : Sound q s) : Sound q (s.provision b) := .ite hs.secRefuse hs.secWipe.fuseBegin
theorem Sound.lifecycleCmd (hs : Sound q s) : Sound q s.lifecycleCmd := by
  unfold State.lifecycleCmd
  extract_lets f go
  have hgo : ∀ s t, Sound q s → Sound q (go s t) := fun _ _ hs => hs.secWipe.fuseBegin
  clear_value go
  split
  · exact .ite hs.secRefuse (.ite hs.secRefuse (.ite hs.secRefuse (hgo _ _ hs)))
  · refine .ite hs.secRefuse ?_
    generalize e : State.secLoad s _ _ = r
    obtain ⟨s2, bs⟩ := r
    have hs2 := hs.secLoad.of_eq e
    exact .ite (hgo _ _ hs2.verified) hs2.verified.secRefuse
  · exact .ite hs.secRefuse (hgo _ _ hs)
  · exact hs.secRefuse
theorem Sound.fuseProgrammed (hs : Sound q s) : Sound q s.fuseProgrammed := by
  unfold State.fuseProgrammed
  split
  · exact hs
  · exact .ite hs hs.fuseEnd.cmdDone
theorem Sound.revoke (hs : Sound q s) : Sound q s.revoke := .ite hs.secRefuse (.ite hs.secRefuse hs.fuseBegin)
theorem Sound.svnCommit (hs : Sound q s) : Sound q s.svnCommit := .cmdDone (hs.same rfl)
/-- The definition is opened as a function, and the load kept opaque: the kernel would evaluate it. -/
theorem Sound.extendCmd (hs : Sound q s) : Sound q s.extendCmd := by
  have e : State.extendCmd = State.extendCmd := rfl
  conv at e => rhs; delta State.extendCmd
  obtain ⟨load, el, hload⟩ : ∃ f, State.load = f ∧ ∀ m a n, Sound q (f s m a n).1 := ⟨_, rfl, fun _ _ _ => hs.load⟩
  rw [el] at e
  rw [e]
  beta_reduce
  extract_lets
  split
  · rename_i e
    exact (Sound.of_eq (hload _ _ _) e).extend.cmdDone
  · rename_i e
    exact (Sound.of_eq (hload _ _ _) e).secRefuse
theorem Sound.spdm {h r} (hs : Sound q s) : Sound q (s.spdm h r) := .ite hs (.bump (hs.same rfl))
theorem Sound.tamperLatch {n} (hs : Sound q s) : Sound q (s.tamperLatch n) := .secWipe (.event (hs.setBit.bump.same rfl))
theorem Sound.tamperRespond {n} (hs : Sound q s) : Sound q (s.tamperRespond n) := by
  unfold State.tamperRespond
  extract_lets _ s2 _ _ s4
  have hs2 : Sound q s2 := hs.same rfl
  have hs4 : Sound q s4 := .ite (.secRefuse (hs2.extend.same rfl)) hs2.extend
  exact .ite hs4.toSafe hs4
theorem Sound.tamper {d} (hs : Sound q s) : Sound q (s.tamper d) := .ite hs (.ite hs.tamperLatch hs.tamperLatch.tamperRespond)
theorem Sound.tryToken {bs} (hs : Sound q s) : Sound q (s.tryToken bs).1 := by
  unfold State.tryToken
  extract_lets t e s2 s3 s4 s5 _ s6
  have hs3 : Sound q s3 := (Sound.ite hs hs.verified).spendNonce.wrN
  clear_value s3
  have hs4 : Sound q s4 := hs3.bump
  clear_value s4
  have hs5 : Sound q s5 := hs4.secWipe
  clear_value s5
  have hs6 : Sound q s6 := hs5.same rfl
  split
  · exact hs3.bump
  · split
    · exact hs4
    · dsimp only
      exact hs6.extend.event.safeShow
/-- The definition is opened as a function, and its steps kept opaque: the kernel would evaluate them. -/
theorem Sound.unlockCmd (hs : Sound q s) : Sound q s.unlockCmd := by
  have e : State.unlockCmd = State.unlockCmd := rfl
  conv at e => rhs; delta State.unlockCmd
  obtain ⟨load, el, hload⟩ : ∃ f, State.secLoad = f ∧ ∀ a n, Sound q (f s a n).1 := ⟨_, rfl, fun _ _ => hs.secLoad⟩
  obtain ⟨attempt, et, htry⟩ : ∃ f, State.tryToken = f ∧ ∀ s bs, Sound q s → Sound q (f s bs).1 := ⟨_, rfl, fun _ _ hs => hs.tryToken⟩
  rw [el, et] at e
  rw [e]
  beta_reduce
  split
  rename_i e
  have hs2 := Sound.of_eq (hload _ _) e
  split
  · rename_i e
    exact (Sound.of_eq (htry _ _ hs2) e).cmdDone
  · rename_i e
    exact (Sound.of_eq (htry _ _ hs2) e).cmdDone
theorem Sound.relock (hs : Sound q s) : Sound q s.relock := by
  unfold State.relock
  extract_lets
  split
  · exact hs
  · exact .safeShow (.event (.extend (hs.same rfl)))
theorem Sound.unlockExpiry (hs : Sound q s) : Sound q s.unlockExpiry := by
  unfold State.unlockExpiry
  split
  · exact .ite hs.relock hs
  · exact hs
theorem Sound.shiftOut {bs} (hs : Sound q s) : Sound q (s.shiftOut bs) := hs.same rfl
theorem Sound.bypass (hs : Sound q s) : Sound q s.bypass := .ite hs.shiftOut hs
theorem Sound.idcode (hs : Sound q s) : Sound q s.idcode := .ite hs.shiftOut hs
theorem Sound.samplePreload {v} (hs : Sound q s) : Sound q (s.samplePreload v) := by
  unfold State.samplePreload
  refine .ite hs.bypass ?_
  split
  rename_i e
  exact (hs.drawWords.of_eq e).shiftOut.same rfl
theorem Sound.dbgToken {token} (hs : Sound q s) : Sound q (s.dbgToken token) := by
  unfold State.dbgToken
  split
  · exact hs.bypass
  · split
    · exact hs.shiftOut
    · exact hs.tryToken
theorem Sound.haltThimum {on} (hs : Sound q s) : Sound q (s.haltThimum on) := .ite hs.setBit hs.cfgIgnored
theorem Sound.haltAll {on} (hs : Sound q s) : Sound q (s.haltAll on) := by
  unfold State.haltAll
  extract_lets _ _ s2
  have hs2 : Sound q s2 := hs.same rfl
  exact .ite hs.cfgIgnored (.ite (.ite hs (.foldl (fun _ _ hs => hs.haltWrite) hs.setBit)) (.foldl
    (fun _ _ hs => hs.setBit) hs2.setBit))

/-! ### Power -/

theorem Sound.setPwr {st} (hs : Sound q s) : Sound q (s.setPwr st) := hs.setFld
theorem Sound.toStage {g} (hs : Sound q s) : Sound q (s.toStage g) := hs.same rfl
theorem Sound.pendClear (hs : Sound q s) : Sound q s.pendClear := hs.setFld.same rfl
theorem Sound.pendPut {r} (hs : Sound q s) : Sound q (s.pendPut r) := by
  unfold State.pendPut
  extract_lets s2 _ _
  have hs2 : Sound q s2 := .ite hs.bump hs
  exact hs2.setFld.same rfl
theorem Sound.requestStop {r} (hs : Sound q s) : Sound q (s.requestStop r) := .ite (hs.same rfl) hs.pendPut
theorem Sound.stopCmd (hs : Sound q s) : Sound q s.stopCmd := by
  unfold State.stopCmd
  extract_lets
  split
  · exact hs.wrN.cmdDone
  · exact hs.wrN.requestStop.cmdDone
theorem Sound.quiesce {p} (hs : Sound q s) : Sound q (s.quiesce p) := by
  unfold State.quiesce
  extract_lets _ s2 _ _ _
  have hs2 : Sound q s2 := hs.same rfl
  exact .ite hs (.ite (hs2.setBlk.setBit.same rfl) hs2.setBlk.dismissHook.setBlk)
theorem Sound.stopEntry (hs : Sound q s) : Sound q s.stopEntry := by
  unfold State.stopEntry
  split
  · exact hs
  · extract_lets _ _ _ s3
    have hs3 : Sound q s3 := hs.setPwr.setFld.setFld.same rfl
    exact .ite hs (.foldl (fun _ _ hs => hs.quiesce) hs3.safeShow)
theorem Sound.quiesceReady (hs : Sound q s) : Sound q s.quiesceReady := .ite hs (hs.same rfl)
theorem Sound.quiesceTimeout {p} (hs : Sound q s) : Sound q (s.quiesceTimeout p) := .ite hs (hs.same rfl)
theorem Sound.resumeBlock {p} (hs : Sound q s) : Sound q (s.resumeBlock p) := by
  unfold State.resumeBlock
  extract_lets _ s2
  have hs2 : Sound q s2 := hs.same rfl
  exact .ite hs hs2.enterRunning
theorem Sound.pendInRun (hs : Sound q s) : Sound q s.pendInRun := hs.pendClear.same rfl
theorem Sound.stopRefused (hs : Sound q s) : Sound q s.stopRefused := by
  unfold State.stopRefused
  extract_lets _ s2 _ s4
  have hs2 : Sound q s2 := hs.same rfl
  have hs4 : Sound q s4 := .foldl (fun _ _ hs => hs.resumeBlock) hs2.setPwr
  split
  · exact hs
  · exact hs4.setFld.bump.wrN.event.log.pendInRun.safeShow
theorem Sound.fabLeaves (hs : Sound q s) : Sound q s.fabLeaves := .ite hs.fabStopping.resumeBlock hs.fabStopping
theorem Sound.drainEnd (hs : Sound q s) : Sound q s.drainEnd :=
  .ite hs (.ite (hs.tapClose.produceAll.dropStaged.dropStaged.log.produceAll.ringWrite.ringWrite.dropStaged.dropStaged.same rfl)
    (hs.tapClose.produceAll.dropStaged.dropStaged.log.produceAll.ringWrite.ringWrite.dropStaged.dropStaged.same rfl))
theorem Sound.unpowered (hs : Sound q s) : Sound q s.unpowered :=
  .wrN (.wrN ⟨hs.queue, rfl, rfl, rfl, rfl⟩)
theorem Sound.goOff (hs : Sound q s) : Sound q s.goOff := by
  unfold State.goOff
  extract_lets _ _ _ s3
  have hs3 : Sound q s3 := hs.unpowered.same rfl
  exact hs3.wrN
theorem Sound.powerUp (hs : Sound q s) : Sound q s.powerUp := hs.unpowered.same rfl
theorem Sound.porst {x} (hs : Sound q s) : Sound q (s.porst x) := by
  unfold State.porst
  extract_lets s2 s3 s4 s5
  have hs3 : Sound q s3 := hs.powerUp.same rfl
  have hs4 : Sound q s4 := hs3.wrN
  have hs5 : Sound q s5 := { hs4 with regs := SMap.wf_set _ (rk pgQuay 0x100) (regReset (rk pgQuay 0x100)) hs4.regs }
  exact hs5.portShow.portShow
theorem Sound.release (hs : Sound q s) : Sound q s.release := by
  unfold State.release
  extract_lets _ _ _ s3 _
  have hs3 : Sound q s3 := hs.setBit.same rfl
  exact .ite (.foldl (fun _ _ hs => hs.enterRunning) hs3) (hs3.same rfl)
theorem Sound.extestEnd (hs : Sound q s) : Sound q s.extestEnd := by
  unfold State.extestEnd
  extract_lets _ s2
  have hs2 : Sound q s2 := hs.same rfl
  exact .ite hs2.release hs2
theorem Sound.coldLoss (hs : Sound q s) : Sound q s.coldLoss := by
  unfold State.coldLoss
  extract_lets _ _ _ _ _ s2 s3
  have hs2 : Sound q s2 :=
    ⟨hs.queue, SMap.wf_clear _ _ _ (SMap.wf_clear _ _ _ (SMap.wf_clear _ _ _ hs.regs)), SMap.wf_clear _ _ _ hs.mem, hs.gridMem, hs.tracks⟩
  exact .foldl (fun _ _ hs => hs.setBlk) hs2.setBit
theorem Sound.depthPower {d} (hs : Sound q s) : Sound q (s.depthPower d) := by
  unfold State.depthPower
  extract_lets _ _ s4
  have hs4 : Sound q s4 := .ite hs.wrN.wrN.setMargin hs.wrN.wrN.setMargin.timeOff
  exact .ite hs.wrN (.ite hs4.linkDown.linkDown.coldLoss.wrN hs4)
theorem Sound.moveDeeper {d cause} (hs : Sound q s) : Sound q (s.moveDeeper d cause) := by
  unfold State.moveDeeper
  extract_lets _ _ s3
  have hs3 : Sound q s3 := .ite (hs.extestEnd.same rfl) hs.extestEnd
  exact .ite hs.setFld.linkDown.linkDown.goOff (.ite hs hs3.setFld.setFld.depthPower)
theorem Sound.wakeStart (hs : Sound q s) : Sound q s.wakeStart := .ite (hs.same rfl) (.ite hs.powerUp (hs.setPwr.same rfl))
theorem Sound.pendInStop (hs : Sound q s) : Sound q s.pendInStop := by
  unfold State.pendInStop
  split
  · exact hs
  · split
    · exact hs.pendClear.wakeStart
    · exact .ite hs.pendClear (.ite hs.pendClear.moveDeeper hs.wakeStart)
theorem Sound.commit (hs : Sound q s) : Sound q s.commit := by
  unfold State.commit
  extract_lets _ s2 _ s3 _ _ _ _ _ s9
  have hs2 : Sound q s2 := .ite hs hs.extestEnd
  have hs3 : Sound q s3 := hs2.same rfl
  have hs9 : Sound q s9 := .ite hs3.bump.wrN.event.setPwr.toStage.setFld hs3.bump.wrN.event.setPwr.toStage.setFld.setBit
  exact .ite hs3.bump.wrN.event.setPwr.toStage.linkDown.linkDown.goOff.pendInStop hs9.depthPower.pendInStop
theorem Sound.stopCommit {r} (hs : Sound q s) : Sound q (s.stopCommit r) := by
  unfold State.stopCommit
  extract_lets
  split
  · exact hs
  · split
    · exact hs.commit
    · exact .ite (hs.same rfl) hs
    · exact .ite hs (hs.same rfl)
theorem Sound.quayMatch (hs : Sound q s) : Sound q s.quayMatch :=
  .ite (.wakeStart (.ite hs.bump.bump hs.bump)) (.ite hs.bump.bump.pendPut hs.bump)
theorem Sound.qcmd {v} (hs : Sound q s) : Sound q (s.qcmd v) := .ite hs.powerUp hs
theorem Sound.railPg {n} (hs : Sound q s) : Sound q (s.railPg n) := by
  unfold State.railPg
  extract_lets
  split
  · exact hs
  · split
    · exact .ite hs (.ite hs.setBit.toStage hs.setBit)
    · exact hs
theorem Sound.pllsLock (hs : Sound q s) : Sound q s.pllsLock := .ite hs.bump.wrN.wrN.timeWake hs.bump.wrN.wrN
theorem Sound.commonsStart (hs : Sound q s) : Sound q s.commonsStart := hs.setBit
theorem Sound.trained (hs : Sound q s) : Sound q s.trained := by
  unfold State.trained
  extract_lets _ s3
  have hs3 : Sound q s3 := .ite hs.setFld.enterRunning hs.setFld
  exact hs3.commonsInit
theorem Sound.linksUp (hs : Sound q s) : Sound q s.linksUp := .foldl (fun _ _ hs => hs.wrN) hs
theorem Sound.allIdle (hs : Sound q s) : Sound q s.allIdle := .foldl (fun _ _ hs => hs.setBlk) hs
theorem Sound.broughtUp (hs : Sound q s) : Sound q s.broughtUp := by
  unfold State.broughtUp
  extract_lets _ _ _ s4
  have hs4 : Sound q s4 := hs.allIdle.bump.same rfl
  exact .safeShow (.ite hs4 hs4.wrN)
theorem Sound.restore (hs : Sound q s) : Sound q s.restore := by
  unfold State.restore
  split
  · exact hs
  · extract_lets _ _ s2 s3 _ _ _ s4 _
    have hs2 : Sound q s2 := .foldl (fun _ _ hs => .ite hs.wrN hs.wr) hs
    have hs3 : Sound q s3 := .foldl (fun _ _ hs => hs.setByte) hs2
    have hs4 : Sound q s4 := hs3.same rfl
    exact hs4.allIdle.extend
theorem Sound.recheckImages (hs : Sound q s) : Sound q s.recheckImages :=
  .foldl (fun _ _ hs => by
    split
    · exact .ite hs hs.setSlotOf.setMst
    · exact hs) hs
theorem Sound.wakeFailed {cause} (hs : Sound q s) : Sound q (s.wakeFailed cause) := by
  unfold State.wakeFailed
  extract_lets _ s2 _ _
  have hs2 : Sound q s2 := hs.same rfl
  exact hs2.linkDown.linkDown.goOff.same rfl
theorem Sound.wakePhaseDone (hs : Sound q s) : Sound q s.wakePhaseDone := by
  unfold State.wakePhaseDone
  extract_lets
  split
  · exact hs
  · split
    · exact hs.toStage
    · exact hs.toStage
    · exact .ite hs.pllsLock.commonsStart.romStart.toStage (.toStage (.ite hs.pllsLock.commonsStart hs.pllsLock))
    · exact hs.trained.toStage
    · exact .ite hs.linksUp.broughtUp hs.linksUp.toStage
    · exact hs.toStage
    · split
      · exact .ite hs.toStage hs
      · split
        · rename_i e
          have hs4 := hs.fwVerify.of_eq e
          exact hs4.toStage
        · rename_i e
          have hs4 := hs.fwVerify.of_eq e
          exact hs4.wakeFailed
    · exact hs.restore.toStage
    · exact hs.recheckImages.toStage
    · exact hs
theorem Sound.wakeBlock {p} (hs : Sound q s) : Sound q (s.wakeBlock p) := .ite hs.setBlk.setBit (.ite hs hs.enterRunning)
theorem Sound.wakeDone (hs : Sound q s) : Sound q s.wakeDone := by
  unfold State.wakeDone
  extract_lets _ _ s2 _ s3 _ _ _ _ s7 s8
  have hs2 : Sound q s2 := .foldl (fun _ _ hs => hs.wakeBlock) hs
  have hs3 : Sound q s3 := hs2.same rfl
  have hs7 : Sound q s7 := hs3.setPwr.bump.wrN.bump.same rfl
  have hs8 : Sound q s8 := .ite hs7 hs7.wrN
  exact .ite hs hs8.event.pendInRun.safeShow
theorem Sound.wakeFail {cause} (hs : Sound q s) : Sound q (s.wakeFail cause) := by
  unfold State.wakeFail
  extract_lets s2 _ _ s3 _
  have hs2 : Sound q s2 := .ite hs.fault hs
  have hs3 : Sound q s3 := hs2.same rfl
  exact .ite hs (.ite hs2.wakeFailed (.ite hs3.bump.wrN (.ite hs3.bump.wrN hs3.bump)))
theorem Sound.padRelease {v} (hs : Sound q s) : Sound q (s.padRelease v) := .ite hs (.ite (hs.same rfl) hs.release)
theorem Sound.extest {drive} (hs : Sound q s) : Sound q (s.extest drive) := by
  unfold State.extest
  extract_lets
  split
  · exact .ite (hs.same rfl) hs.bypass
  · exact hs.extestEnd
theorem Sound.setThrottle {l cause} (hs : Sound q s) : Sound q (s.setThrottle l cause) := by
  unfold State.setThrottle
  extract_lets _ _ _ _ s4
  have hs4 : Sound q s4 := .ite hs.setFld.setFld.wrN.bump hs.setFld.setFld.wrN
  exact .ite hs hs4.event
theorem Sound.coolantLost (hs : Sound q s) : Sound q s.coolantLost := by
  unfold State.coolantLost
  extract_lets _ _ _ s3 s4
  have hs3 : Sound q s3 := hs.setBit.same rfl
  have hs4 : Sound q s4 := .ite hs3.event hs3
  exact .ite hs (.safeShow (.ite hs4.setThrottle hs4))
theorem Sound.coolantOk (hs : Sound q s) : Sound q s.coolantOk := by
  unfold State.coolantOk
  extract_lets _ _ s3
  have hs3 : Sound q s3 := hs.setBit.same rfl
  exact .safeShow (.ite hs3.toStage hs3)
theorem Sound.coolantTimeout (hs : Sound q s) : Sound q s.coolantTimeout := by
  unfold State.coolantTimeout
  extract_lets _ s2
  have hs2 : Sound q s2 := hs.same rfl
  split
  · exact hs
  · exact .ite hs (.ite (.ite hs2.moveDeeper hs2) hs2.requestStop)
theorem Sound.throttleEval (hs : Sound q s) : Sound q s.throttleEval := by
  unfold State.throttleEval
  extract_lets _ s2 _ _ _ _ s3
  have hs2 : Sound q s2 := hs.same rfl
  have hs3 : Sound q s3 := .ite hs2.requestStop hs2
  exact .ite hs (.ite (.setThrottle (hs3.same rfl)) (.ite (.setThrottle (hs3.same rfl)) (.ite (.setThrottle (hs3.same rfl))
    (hs3.same rfl))))
theorem Sound.tempPair {i a b} (hs : Sound q s) : Sound q (s.tempPair i a b) := by
  unfold State.tempPair
  extract_lets _ _ s2 _
  have hs2 : Sound q s2 := hs.same rfl
  exact .ite (.toSafe (.bump (hs2.same rfl))) hs2
theorem Sound.tempSample {pairs} (hs : Sound q s) : Sound q (s.tempSample pairs) := by
  unfold State.tempSample
  extract_lets _ s2
  have hs2 : Sound q s2 := hs.same rfl
  split
  · exact hs
  · extract_lets _ _ s3 _ s4 _ s6 _ s7
    have hs3 : Sound q s3 := .foldl (fun _ _ hs => hs.tempPair) hs2
    have hs4 : Sound q s4 := hs3.same rfl
    have hs6 : Sound q s6 := .foldl (fun _ _ hs => hs.draw.wrN) hs4.wrN
    have hs7 : Sound q s7 := hs6.same rfl
    exact .ite hs (.ite hs7.linkDown.linkDown.goOff hs6)
theorem Sound.lockLoss {d} (hs : Sound q s) : Sound q (s.lockLoss d) := .ite hs hs.setBit.bump.event
theorem Sound.linkRetrain {h ok} (hs : Sound q s) : Sound q (s.linkRetrain h ok) := .ite hs (.ite hs.bump.event hs.setBit.fault)
theorem Sound.flitReplay {h} (hs : Sound q s) : Sound q (s.flitReplay h) := .ite hs hs.bump.toSafe

/-! ### RegView -/

theorem Sound.readReg {h p o} (hs : Sound q s) : Sound q (s.readReg h p o).1 := by
  unfold State.readReg
  extract_lets _ s2
  have hs2 : Sound q s2 := .foldl (fun _ _ hs => hs.wrN) hs
  split
  · exact hs
  · split
    · exact hs2.setBit
    · exact hs2
theorem Sound.readRegs {h o k} (hs : Sound q s) : Sound q (s.readRegs h o k).1 := by
  induction k generalizing s o with
  | zero => exact hs
  | succ k ih => exact ih hs.readReg
theorem Sound.barRead {h o n} (hs : Sound q s) : Sound q (s.barRead h o n) := .ite hs.readRegs.reply.bump hs.replyUr
theorem Sound.touchCore {h o} (hs : Sound q s) : Sound q (s.touchCore h o) := .ite hs hs.setCore.coreWake
theorem Sound.winRead {h o} (hs : Sound q s) : Sound q (s.winRead h o).1 := by
  unfold State.winRead
  extract_lets
  split
  · exact hs
  · split
    · exact .ite hs.touchCore.wrN hs.touchCore
    · exact hs.touchCore
theorem Sound.winReads {h o k} (hs : Sound q s) : Sound q (s.winReads h o k).1 := by
  induction k generalizing s o with
  | zero => exact hs
  | succ k ih => exact ih hs.winRead
theorem Sound.devRead {m h a n} (hs : Sound q s) : Sound q (s.devRead m h a n).1 := by
  unfold State.devRead
  extract_lets plain o
  have hplain : ∀ a, Sound q (plain s a).1 := by
    intro a
    have h := hs.load (m := m) (a := a) (n := n)
    unfold plain
    split <;> rename_i e
    · exact h.of_eq e
    · exact h.of_eq e
  clear_value plain
  exact .iteFst (.iteFst hs.readRegs hs) (.iteFst (.iteFst hs (.iteFst (.iteFst (hplain _) hs) hs.winReads)) (.iteFst (hplain _) hs))

/-! ### Registers -/

/-- The definition is opened as a function, and its parts kept opaque: the kernel would evaluate them. -/
theorem Sound.canSendAt {c} (hs : Sound q s) : Sound q (s.canSendAt c) := by
  have e : State.canSendAt = State.canSendAt := rfl
  conv at e => rhs; delta State.canSendAt
  obtain ⟨load, el, hload⟩ : ∃ f, State.loadFor = f ∧ ∀ p m a n, Sound q (f s p m a n).1 := ⟨_, rfl, fun _ _ _ _ => hs.loadFor⟩
  obtain ⟨frame, ef⟩ : ∃ f, Config.canFrame = f := ⟨_, rfl⟩
  rw [el, ef] at e
  rw [e]
  beta_reduce
  split
  rename_i e
  exact (Sound.of_eq (hload _ _ _ _) e).canSend
/-- The definition is opened as a function, and its parts kept opaque: the kernel would evaluate them. -/
theorem Sound.provisionAt (hs : Sound q s) : Sound q s.provisionAt := by
  have e : State.provisionAt = State.provisionAt := rfl
  conv at e => rhs; delta State.provisionAt
  obtain ⟨load, el, hload⟩ : ∃ f, State.secLoad = f ∧ ∀ a n, Sound q (f s a n).1 := ⟨_, rfl, fun _ _ => hs.secLoad⟩
  obtain ⟨block, eb⟩ : ∃ f, Config.provBlock = f := ⟨_, rfl⟩
  rw [el, eb] at e
  rw [e]
  beta_reduce
  split
  rename_i e
  exact (Sound.of_eq (hload _ _) e).provision
theorem Sound.thenDone {p f} (hs : Sound q s) (hf : ∀ s, Sound q s → Sound q (f s)) : Sound q (thenDone p f s) := .cmdDone (hf _ hs)
/-- Every command that a page defines keeps the form. -/
theorem Sound.pageCommand {p code f} (e : f ∈ pageCommand p code) (hs : Sound q s) : Sound q (f s) := by
  unfold Machine.pageCommand at e
  split at e
  case h_39 => exact nomatch e
  all_goals obtain rfl := Option.some.inj e
  · exact hs.ttLoad
  · exact hs.ttUnload
  · exact hs.ttActivate
  · exact hs.ttDeactivate
  · exact hs.ttSwap
  · exact hs.ttUnfence
  · exact hs.calCommit
  · exact hs.gridRelock
  · exact hs.evidClear
  · exact hs.trkCommand
  · exact hs.trkCommand
  · exact hs.trkCommand
  · exact hs.trkCommand
  · exact hs.coefLoad
  · exact hs.egoCmdRestart
  · exact hs.acceptJump
  · exact hs.fusSource
  · exact hs.fusStepCmd
  · exact hs.fusAnchorCmd
  · exact hs.marginEnter
  · exact hs.marginExit
  · exact hs.ethSend
  · exact hs.canSendAt
  · exact hs.thenDone (fun _ hs => hs.canRecover)
  · exact hs.clearFirst
  · exact hs.injectCmd
  · exact hs.unfenceFab
  · exact hs.stopCmd
  · exact hs.thenDone (fun _ hs => hs.pendClear)
  · exact hs.secCmd (fun _ hs => hs.bootCmd)
  · exact hs.secCmd (fun _ hs => hs.provisionAt)
  · exact hs.secCmd (fun _ hs => hs.lifecycleCmd)
  · exact hs.secCmd (fun _ hs => hs.revoke)
  · exact hs.secCmd (fun _ hs => hs.svnCommit)
  · exact hs.secCmd (fun _ hs => hs.extendCmd)
  · exact hs.unlockCmd
  · exact hs.thenDone (fun _ hs => hs.relock)
  · exact hs.thenDone (fun _ hs => hs.makeNonce)
theorem Sound.enCtrl {p o mask v judge stop} (hs :
    Sound q s) (hjudge : ∀ s, Sound q s → Sound q (judge s)) (hstop : ∀ s, Sound q s → Sound q (stop s)) : Sound q
    (s.enCtrl p o mask v judge stop) := by
  unfold State.enCtrl
  extract_lets _ _ s3 _
  have hs3 : Sound q s3 := .ite hs hs.cfgIgnored
  exact .ite (.ite hs3 (hstop _ hs3.setBit)) (.ite (hjudge _ hs.wrN.setBit) hs.wrN)
theorem Sound.binJudge {k} (hs : Sound q s) : Sound q (s.binJudge k) := .ite hs.setBit.event hs.binStart
theorem Sound.storeRow {p o v} (hs : Sound q s) : Sound q (s.storeRow p o v) := by
  unfold State.storeRow
  extract_lets
  split
  · exact hs.wr
  · exact hs
theorem Sound.gridWrite {o v} (hs : Sound q s) : Sound q (s.gridWrite o v) :=
  .ite hs.conflictClr (.ite hs.storeRow.setBit.event (.ite (hs.storeRow.same rfl) hs.storeRow))
theorem Sound.engWrite {e o v} (hs : Sound q s) : Sound q (s.engWrite e o v) :=
  .ite hs.engStatsModel (.ite (hs.enCtrl (fun _ hs => hs.binJudge) (fun _ hs => hs)) hs.storeRow)
theorem Sound.dbgWrite {v} (hs : Sound q s) : Sound q (s.dbgWrite v) := hs.haltThimum.haltAll
theorem Sound.kWrite {p o v} (hs : Sound q s) : Sound q (s.kWrite p o v) := .ite (.ite hs.setCsi hs) (.ite hs.setEth hs)
theorem Sound.regWrite {p o v} (hs : Sound q s) : Sound q (s.regWrite p o v) := by
  unfold State.regWrite
  extract_lets
  split
  · exact hs.ctrlWrite
  · split
    · exact hs.eventsClear
    · split
      · exact hs.eventsClear
      · split
        · exact .ite hs.csiCommit hs.storeRow.kWrite
        · exact .ite hs.ethCommit hs.storeRow.kWrite
        · exact hs.conflictsClr
        · exact .ite hs.memInject hs.storeRow
        · exact hs.gridWrite
        · exact hs.engWrite
        · exact hs.engWrite
        · exact hs.engWrite
        · exact .ite (hs.enCtrl (fun _ hs => hs.sensJudge) (fun _ hs => hs.sensStop)) hs.storeRow
        · exact .ite (hs.enCtrl (fun _ hs => hs.trigJudge) (fun _ hs => hs.trigDisarm)) hs.storeRow
        · exact .ite hs.storeRow.chanJudge hs.storeRow
        · exact .ite hs.ringCtrl hs.storeRow
        · exact .ite hs.tapSens (.ite hs.resultEn hs.storeRow)
        · exact hs.dbgWrite
        · exact .ite hs.storeRow.trkShow.warmShow hs.storeRow
        · exact hs.storeRow.biasShow.safeShow
        · exact hs.storeRow.safeShow
        · exact hs.storeRow.safeShow
        · exact hs.storeRow
theorem Sound.writeReg {h p o v bar2} (hs : Sound q s) : Sound q (s.writeReg h p o v bar2) := by
  unfold State.writeReg
  extract_lets
  have hc : ∀ {code may}, Sound q (s.command h p code may (Machine.pageCommand p code)) :=
    hs.command fun f e _ hs => hs.pageCommand e
  split
  · exact hs
  · exact .ite hs.denied (.ite (.ite hs (.ite hs.wrN (.ite hs.denied hs))) (.ite (.ite hs.dismissWrite (.ite hs.denied hs))
      (.ite (.ite hs (.ite hc (.ite hs.denied hs))) (.ite (.ite hs.padRelease (.ite hs.denied hs)) (.ite (.ite hs.cfgIgnored hs)
        (.ite hs (.ite (.ite hs.regWrite hs.cfgIgnored) (.ite hs.denied hs))))))))
theorem Sound.writeRegs {h bar2 o vs} (hs : Sound q s) : Sound q (s.writeRegs h bar2 o vs) := by
  induction vs generalizing s o with
  | nil => exact hs
  | cons v vs ih => exact ih hs.writeReg
theorem Sound.barWrite {h o bs} (hs : Sound q s) : Sound q (s.barWrite h o bs) := .ite hs.reply.writeRegs.bump hs.replyUr
theorem Sound.winTable {o v} (hs : Sound q s) : Sound q (s.winTable o v) := by
  unfold State.winTable
  split
  · split
    · exact .ite hs.wrN (.ite hs.wrN hs)
    · exact .ite hs hs.putLE
  · split
    · exact .ite hs.cfgIgnored hs
    · exact .ite hs hs.cfgIgnored
theorem Sound.winCal {m o bs} (hs : Sound q s) : Sound q (s.winCal m o bs).1 := .iteFst hs.cfgIgnored hs.store
theorem Sound.winWrite {h o vs} (hs : Sound q s) : Sound q (s.winWrite h o vs) := by
  induction vs generalizing s o with
  | nil => exact hs
  | cons v vs ih => exact ih (.ite hs.winTable.touchCore (.ite hs.cfgIgnored hs.cfgIgnored))
/-- The definition is opened as a function, and the store of one word kept opaque: the kernel would evaluate it. -/
theorem Sound.winCals {m o bs} (hs : Sound q s) : Sound q (s.winCals m o bs).1 := by
  have e : State.winCals = State.winCals := rfl
  conv at e => rhs; delta State.winCals State.winCals._f
  obtain ⟨cal, ec, hcal⟩ : ∃ f, State.winCal = f ∧ ∀ s o bs, Sound q s → Sound q (f s m o bs).1 := ⟨_, rfl, fun _ _ _ hs => hs.winCal⟩
  rw [ec] at e
  rw [e]
  clear e
  induction bs generalizing s o with
  | nil => exact hs
  | cons b bs ih => exact ih (hcal _ _ _ hs)
theorem Sound.plainWrite {m a bs} (hs : Sound q s) : Sound q (s.plainWrite m a bs).1 := by
  unfold State.plainWrite
  split
  · exact hs.event
  · split
    · rename_i e
      have hs2 := hs.store.of_eq e
      exact hs2
    · rename_i e
      have hs2 := hs.store.of_eq e
      exact hs2
theorem Sound.windowWrite {m h a bs} (hs : Sound q s) : Sound q (s.windowWrite m h a bs).1 := by
  unfold State.windowWrite
  extract_lets
  split
  · exact hs
  · split
    · split
      · split
        · rename_i e
          have hs2 := hs.winCals.of_eq e
          exact hs2
        · rename_i e
          have hs2 := hs.winCals.of_eq e
          exact hs2
      · exact hs
    · exact hs.winWrite
theorem Sound.devWrite {m h a bs} (hs : Sound q s) : Sound q (s.devWrite m h a bs).1 :=
  .iteFst (.iteFst hs.writeRegs hs) (.iteFst (.iteFst hs.windowWrite (.iteFst hs.denied hs)) (.iteFst hs
    (.iteFst hs.plainWrite hs.denied)))
theorem Sound.upsetAt {a n u} (hs : Sound q s) : Sound q (s.upsetAt a n u) := .ite hs.upset (.ite (hs.same rfl) hs)
theorem Sound.bar2Read {h a n u} (hs : Sound q s) : Sound q (s.bar2Read h a n u) := by
  unfold State.bar2Read
  split
  · rename_i e
    have hs2 := hs.upsetAt.devRead.of_eq e
    exact hs2.reply.bump
  · rename_i e
    have hs2 := hs.upsetAt.devRead.of_eq e
    exact hs2.replyUr
  · rename_i e
    have hs2 := hs.upsetAt.devRead.of_eq e
    exact hs2.replyCa
theorem Sound.aer {h} (hs : Sound q s) : Sound q (s.aer h) := hs.setPort
theorem Sound.bar2Write {h a bs u} (hs : Sound q s) : Sound q (s.bar2Write h a bs u) := by
  unfold State.bar2Write
  split
  · rename_i e
    have hs2 := hs.upsetAt.devWrite.of_eq e
    exact hs2.reply.bump
  · rename_i e
    have hs2 := hs.upsetAt.devWrite.of_eq e
    exact hs2.replyUr
  · rename_i e
    have hs2 := hs.upsetAt.devWrite.of_eq e
    exact hs2.replyCa.aer
theorem Sound.bar4 {h o n wr} (hs : Sound q s) : Sound q (s.bar4 h o n wr) := by
  unfold State.bar4
  extract_lets
  split
  · exact .ite hs.replyUr hs.setPort.reply.bump
  · exact .ite hs.replyUr hs.reply.bump
theorem Sound.bar2 {h o n wr u} (hs : Sound q s) : Sound q (s.bar2 h o n wr u) := by
  unfold State.bar2
  extract_lets
  split
  · exact hs.bar4
  · split
    · exact hs.replyUr
    · split
      · exact hs.bar2Write
      · exact hs.bar2Read
theorem Sound.memRead {m a n u} (hs : Sound q s) : Sound q (s.memRead m a n u) := by
  unfold State.memRead
  split
  · rename_i e
    have hs2 := Sound.of_eq (.devRead (.ite hs.upset hs)) e
    exact hs2.memResp
  · rename_i e
    have hs2 := Sound.of_eq (.devRead (.ite hs.upset hs)) e
    exact hs2.reservedAccess.memResp
  · rename_i e
    have hs2 := Sound.of_eq (.devRead (.ite hs.upset hs)) e
    exact hs2.memResp
theorem Sound.memWrite {m a bs u} (hs : Sound q s) : Sound q (s.memWrite m a bs u) := by
  unfold State.memWrite
  split
  · rename_i e
    have hs2 := Sound.of_eq (.devWrite (.ite hs.upset hs)) e
    exact hs2.memResp
  · rename_i e
    have hs2 := Sound.of_eq (.devWrite (.ite hs.upset hs)) e
    exact hs2.reservedAccess.memResp
  · rename_i e
    have hs2 := Sound.of_eq (.devWrite (.ite hs.upset hs)) e
    exact hs2.memResp
theorem Sound.dbgAccess {o wr} (hs : Sound q s) : Sound q (s.dbgAccess o wr) := by
  unfold State.dbgAccess
  refine .ite hs.bypass (.ite ?_ ?_)
  · split
    · exact hs
    · split
      rename_i e
      exact (hs.drawWords.of_eq e).shiftOut
  · split
    · exact hs.writeReg
    · exact hs.shiftOut

/-! ### The dispatch and the step -/

/-- Every command answers a next state, keeps the form and puts nothing into the queue. -/
theorem Sound.exec {c : Instr} (hs : Sound q s) : ∃ t, exec c s = .next t ∧ Sound q t := by
  cases c with
  | csiPacket => exact ⟨_, rfl, hs.csiPacket⟩
  | csiDecodePacket => exact ⟨_, rfl, hs.csiDecodePacket⟩
  | frameStart => exact ⟨_, rfl, hs.frameStart⟩
  | frameLine => exact ⟨_, rfl, hs.frameLine⟩
  | frameEnd => exact ⟨_, rfl, hs.frameEnd⟩
  | csiTmapCommit => exact ⟨_, rfl, hs.hostWrite (fun _ hs => hs.ownerWrite (fun _ hs => hs.csiCommit))⟩
  | ethFrameRx => exact ⟨_, rfl, hs.ethFrameRx⟩
  | pointBatch => exact ⟨_, rfl, hs.pointBatch⟩
  | ethTmapCommit => exact ⟨_, rfl, hs.hostWrite (fun _ hs => hs.ownerWrite (fun _ hs => hs.ethCommit))⟩
  | drdyEdge => exact ⟨_, rfl, hs.drdyEdge⟩
  | spiTransfer => exact ⟨_, rfl, hs.spiTransfer⟩
  | spiTransferDone => exact ⟨_, rfl, hs.spiTransferDone⟩
  | silent => exact ⟨_, rfl, hs.spiSilent⟩
  | wheelEdge => exact ⟨_, rfl, hs.wheelEdge⟩
  | wheelSample => exact ⟨_, rfl, hs.wheelSample⟩
  | canFrameRx => exact ⟨_, rfl, hs.canFrameRx⟩
  | canSlotSample => exact ⟨_, rfl, hs.canSlotSample⟩
  | canFrameTx => exact ⟨_, rfl, hs.canFrameTx⟩
  | busOff => exact ⟨_, rfl, hs.busOff⟩
  | busOffRecovery => exact ⟨_, rfl, hs.busOffRecovery⟩
  | cmdSend => exact ⟨_, rfl, hs.hostCmdSome fun _ hs => hs.canSend⟩
  | cmdRecover => exact ⟨_, rfl, hs.hostCmdSome fun _ hs => hs.canRecover.cmdDone⟩
  | fendEvent => exact ⟨_, rfl, hs.fendEvent⟩
  | fendOutStall => exact ⟨_, rfl, hs.fendOutStall⟩
  | clearing => exact ⟨_, rfl, hs.clearing⟩
  | sweep => exact ⟨_, rfl, hs.sweep⟩
  | surfWarm => exact ⟨_, rfl, hs.surfWarm⟩
  | fendStepOpen => exact ⟨_, rfl, hs.fendStepOpen⟩
  | loopValueWrite => exact ⟨_, rfl, hs.loopValueWrite⟩
  | loopStale => exact ⟨_, rfl, hs.loopStale⟩
  | windowClose => exact ⟨_, rfl, hs.windowClose⟩
  | edgeRecord => exact ⟨_, rfl, hs.edgeRecord⟩
  | edgeInject => exact ⟨_, rfl, hs.edgeInject⟩
  | stepOpen => exact ⟨_, rfl, hs.stepOpen⟩
  | routerCopy => exact ⟨_, rfl, hs.routerCopy⟩
  | corePacket => exact ⟨_, rfl, hs.corePacket⟩
  | coreGate => exact ⟨_, rfl, hs.coreGate⟩
  | reductionRound => exact ⟨_, rfl, hs.reductionRound⟩
  | coreStepClose => exact ⟨_, rfl, hs.coreStepClose⟩
  | bellAccounting => exact ⟨_, rfl, hs.bellAccounting⟩
  | countMismatch => exact ⟨_, rfl, hs.countMismatch⟩
  | tickRecord => exact ⟨_, rfl, hs.tickRecord⟩
  | fabStopping => exact ⟨_, rfl, hs.fabLeaves⟩
  | binRecord => exact ⟨_, rfl, hs.binRecord⟩
  | binClose => exact ⟨_, rfl, hs.binClose⟩
  | gatherBuild => exact ⟨_, rfl, hs.gatherBuild⟩
  | tileStart => exact ⟨_, rfl, hs.tileStart⟩
  | tileComplete => exact ⟨_, rfl, hs.tileComplete⟩
  | cmdMarginEnter => exact ⟨_, rfl, hs.hostCmdSome fun _ hs => hs.marginEnter⟩
  | cmdMarginExit => exact ⟨_, rfl, hs.hostCmdSome fun _ hs => hs.marginExit⟩
  | railSettled => exact ⟨_, rfl, hs.marginSettled⟩
  | engStatsModel => exact ⟨_, rfl, hs.hostWrite (fun _ hs => hs.ownerWrite (fun _ hs => hs.engStatsModel))⟩
  | cmdLoad => exact ⟨_, rfl, hs.hostCmdSome fun _ hs => hs.ttLoad⟩
  | loadDone => exact ⟨_, rfl, hs.loadDone⟩
  | cmdUnload => exact ⟨_, rfl, hs.hostCmdSome fun _ hs => hs.ttUnload⟩
  | cmdActivate => exact ⟨_, rfl, hs.hostCmdSome fun _ hs => hs.ttActivate⟩
  | cmdDeactivate => exact ⟨_, rfl, hs.hostCmdSome fun _ hs => hs.ttDeactivate⟩
  | cmdSwap => exact ⟨_, rfl, hs.hostCmdSome fun _ hs => hs.ttSwap⟩
  | cmdUnfence => exact ⟨_, rfl, hs.hostCmdSome fun _ hs => hs.ttUnfence⟩
  | triggerFire => exact ⟨_, rfl, hs.triggerFire⟩
  | inputRewrite => exact ⟨_, rfl, hs.inputRewrite⟩
  | taskIssue => exact ⟨_, rfl, hs.taskIssue⟩
  | taskCompletion => exact ⟨_, rfl, hs.taskCompletion⟩
  | tileTimeout => exact ⟨_, rfl, hs.tileTimeout⟩
  | gridListDeliver => exact ⟨_, rfl, hs.gridDeliver⟩
  | gridListPlace => exact ⟨_, rfl, hs.gridPlace⟩
  | epochBoundary => exact ⟨_, rfl, hs.epochBoundary⟩
  | epochPublish => exact ⟨_, rfl, hs.epochPublish⟩
  | cmdCalCommit => exact ⟨_, rfl, hs.hostCmdSome fun _ hs => hs.calCommit⟩
  | cmdRelock => exact ⟨_, rfl, hs.hostCmdSome fun _ hs => hs.gridRelock⟩
  | cmdEvidClear => exact ⟨_, rfl, hs.hostCmdSome fun _ hs => hs.evidClear⟩
  | gridConflictClr => exact ⟨_, rfl, hs.hostWrite (fun _ hs => hs.ownerWrite (fun _ hs => hs.conflictClr))⟩
  | alignPair => exact ⟨_, rfl, hs.alignPair⟩
  | alignTimeout => exact ⟨_, rfl, hs.alignTimeout⟩
  | trkListDeliver => exact ⟨_, rfl, hs.trkDeliver⟩
  | trackerCycle => exact ⟨_, rfl, hs.trkCycle⟩
  | cmdDelete => exact ⟨_, rfl, hs.hostCmdSome fun _ hs => hs.trkCommand⟩
  | cmdSetClass => exact ⟨_, rfl, hs.hostCmdSome fun _ hs => hs.trkCommand⟩
  | cmdEnrol => exact ⟨_, rfl, hs.hostCmdSome fun _ hs => hs.trkCommand⟩
  | cmdClear => exact ⟨_, rfl, hs.hostCmdSome fun _ hs => hs.trkCommand⟩
  | chainSample => exact ⟨_, rfl, hs.chainSample⟩
  | chainStale => exact ⟨_, rfl, hs.chanJudgeStale⟩
  | firRound => exact ⟨_, rfl, hs.firRound⟩
  | cmdCoefLoad => exact ⟨_, rfl, hs.hostCmdSome fun _ hs => hs.coefLoad⟩
  | egoUpdate => exact ⟨_, rfl, hs.egoUpdate⟩
  | egoGap => exact ⟨_, rfl, hs.egoGap⟩
  | cmdRestart => exact ⟨_, rfl, hs.hostCmdSome fun _ hs => hs.egoCmdRestart⟩
  | stepPose => exact ⟨_, rfl, hs.stepPose⟩
  | sync => exact ⟨_, rfl, hs.syncRx⟩
  | announce => exact ⟨_, rfl, hs.announceRx⟩
  | pdelay => exact ⟨_, rfl, hs.pdelayRx⟩
  | holdover => exact ⟨_, rfl, hs.holdoverAt⟩
  | timeAcceptJump => exact ⟨_, rfl, hs.hostCmdSome fun _ hs => hs.acceptJump⟩
  | timeFusSource => exact ⟨_, rfl, hs.hostCmdSome fun _ hs => hs.fusSource⟩
  | timeFusStep => exact ⟨_, rfl, hs.hostCmdSome fun _ hs => hs.fusStepCmd⟩
  | timeFusReanchor => exact ⟨_, rfl, hs.hostCmdSome fun _ hs => hs.fusAnchorCmd⟩
  | fusStepped => exact ⟨_, rfl, hs.fusBoundary⟩
  | ethCmdSend => exact ⟨_, rfl, hs.hostCmdSome fun _ hs => hs.ethSend⟩
  | launch => exact ⟨_, rfl, hs.launch⟩
  | trigFire => exact ⟨_, rfl, hs.trigFire⟩
  | memRead => exact ⟨_, rfl, hs.memRead⟩
  | memWrite => exact ⟨_, rfl, hs.memWrite⟩
  | patrolScrub => exact ⟨_, rfl, hs.patrol⟩
  | memInject => exact ⟨_, rfl, hs.hostWrite (fun _ hs => hs.ownerWrite (fun _ hs => hs.memInject))⟩
  | commonsAccess => exact ⟨_, rfl, hs.commonsAccess⟩
  | commonsConflictClr => exact ⟨_, rfl, hs.hostWrite (fun _ hs => hs.ownerWrite (fun _ hs => hs.conflictsClr))⟩
  | wipe => exact ⟨_, rfl, hs.wipeStart⟩
  | wiped => exact ⟨_, rfl, hs.wipeEnd⟩
  | commonsInit => exact ⟨_, rfl, hs.commonsInit⟩
  | cmdUnknown => exact ⟨_, rfl, hs.hostCmd fun _ e _ hs => hs.pageCommand e⟩
  | blkDismiss => exact ⟨_, rfl, hs.hostWrite (fun _ hs => hs.dismissWrite)⟩
  | sysDismiss => exact ⟨_, rfl, hs.hostWrite (fun _ hs => hs.dismissWrite)⟩
  | dismissDone => exact ⟨_, rfl, hs.dismissDone⟩
  | blkEnable => exact ⟨_, rfl, hs.hostWrite (fun _ hs => hs.ownerWrite (fun _ hs => hs.ctrlBits))⟩
  | blkDisable => exact ⟨_, rfl, hs.hostWrite (fun _ hs => hs.ownerWrite (fun _ hs => hs.ctrlBits))⟩
  | blkHalt => exact ⟨_, rfl, hs.hostWrite (fun _ hs => hs.ownerWrite (fun _ hs => hs.ctrlBits))⟩
  | blkTest => exact ⟨_, rfl, hs.hostWrite (fun _ hs => hs.ownerWrite (fun _ hs => hs.ctrlBits))⟩
  | testEnd => exact ⟨_, rfl, hs.testEnd⟩
  | blkEventsClear => exact ⟨_, rfl, hs.hostWrite (fun _ hs => hs.ownerWrite (fun _ hs => hs.eventsClear))⟩
  | registerWrite => exact ⟨_, rfl, hs.hostAccess (fun _ hs => hs.barWrite)⟩
  | latchingRead => exact ⟨_, rfl, hs.hostAccess (fun _ hs => hs.barRead)⟩
  | bar2Access => exact ⟨_, rfl, hs.hostAccess (fun _ hs => hs.bar2)⟩
  | ringEnable => exact ⟨_, rfl, hs.hostWrite (fun _ hs => hs.ringCtrl)⟩
  | streamRecord => exact ⟨_, rfl, hs.streamRecord⟩
  | ringWrite => exact ⟨_, rfl, hs.ringWrite⟩
  | tapBlockClose => exact ⟨_, rfl, hs.tapBlockClose⟩
  | resultWindow => exact ⟨_, rfl, hs.resultWindow⟩
  | linkDown => exact ⟨_, rfl, hs.linkDown⟩
  | linkUp => exact ⟨_, rfl, hs.linkUp⟩
  | perstN => exact ⟨_, rfl, hs.perst⟩
  | functionLevelReset => exact ⟨_, rfl, hs.functionReset⟩
  | rollCall => exact ⟨_, rfl, hs.rollCall⟩
  | rollCallDeadline => exact ⟨_, rfl, hs.rollCallEnd⟩
  | watchdog => exact ⟨_, rfl, hs.watchdogFire⟩
  | faultClassify => exact ⟨_, rfl, hs.faultClassify⟩
  | clockMonitor => exact ⟨_, rfl, hs.clockMonitor⟩
  | railTrip => exact ⟨_, rfl, hs.railTrip⟩
  | tempSample => exact ⟨_, rfl, hs.tempSample⟩
  | healthyRefreshLost => exact ⟨_, rfl, hs.refreshLost⟩
  | cmdClearFirst => exact ⟨_, rfl, hs.hostCmdSome fun _ hs => hs.clearFirst⟩
  | cmdInject => exact ⟨_, rfl, hs.hostCmdSome fun _ hs => hs.injectCmd⟩
  | cmdUnfenceFab => exact ⟨_, rfl, hs.hostCmdSome fun _ hs => hs.unfenceFab⟩
  | cmdStop => exact ⟨_, rfl, hs.hostCmdSome fun _ hs => hs.stopCmd⟩
  | cmdCancel => exact ⟨_, rfl, hs.hostCmdSome fun _ hs => hs.pendClear.cmdDone⟩
  | stopEntry => exact ⟨_, rfl, hs.stopEntry⟩
  | quiesceReady => exact ⟨_, rfl, hs.quiesceReady⟩
  | quiesceTimeout => exact ⟨_, rfl, hs.quiesceTimeout⟩
  | stopRefused => exact ⟨_, rfl, hs.stopRefused⟩
  | drainEnd => exact ⟨_, rfl, hs.drainEnd⟩
  | stopCommit => exact ⟨_, rfl, hs.stopCommit⟩
  | quayMatch => exact ⟨_, rfl, hs.quayMatch⟩
  | qcmd => exact ⟨_, rfl, hs.qcmd⟩
  | wakePhaseDone => exact ⟨_, rfl, hs.wakePhaseDone⟩
  | wakeDone => exact ⟨_, rfl, hs.wakeDone⟩
  | wakeFail => exact ⟨_, rfl, hs.wakeFail⟩
  | padRelease => exact ⟨_, rfl, hs.hostWrite (fun _ hs => hs.padRelease)⟩
  | coolantLost => exact ⟨_, rfl, hs.coolantLost⟩
  | coolantTimeout => exact ⟨_, rfl, hs.coolantTimeout⟩
  | throttleEval => exact ⟨_, rfl, hs.throttleEval⟩
  | railPg => exact ⟨_, rfl, hs.railPg⟩
  | porstN => exact ⟨_, rfl, hs.porst⟩
  | linkRetrain => exact ⟨_, rfl, hs.linkRetrain⟩
  | flitReplay => exact ⟨_, rfl, hs.flitReplay⟩
  | boot => exact ⟨_, rfl, hs.boot⟩
  | cmdBoot => exact ⟨_, rfl, hs.hostCmdSome fun _ hs => hs.secCmd (fun _ hs => hs.bootCmd)⟩
  | cmdProvision => exact ⟨_, rfl, hs.hostCmdSome fun _ hs => hs.secCmd (fun _ hs => hs.provision)⟩
  | cmdLifecycle => exact ⟨_, rfl, hs.hostCmdSome fun _ hs => hs.secCmd (fun _ hs => hs.lifecycleCmd)⟩
  | fuseProgrammed => exact ⟨_, rfl, hs.fuseProgrammed⟩
  | cmdRevoke => exact ⟨_, rfl, hs.hostCmdSome fun _ hs => hs.secCmd (fun _ hs => hs.revoke)⟩
  | cmdSvnCommit => exact ⟨_, rfl, hs.hostCmdSome fun _ hs => hs.secCmd (fun _ hs => hs.svnCommit)⟩
  | cmdExtend => exact ⟨_, rfl, hs.hostCmdSome fun _ hs => hs.secCmd (fun _ hs => hs.extendCmd)⟩
  | spdmRequest => exact ⟨_, rfl, hs.spdm⟩
  | tamper => exact ⟨_, rfl, hs.tamper⟩
  | cmdUnlock => exact ⟨_, rfl, hs.hostCmdSome fun _ hs => hs.unlockCmd⟩
  | cmdNonce => exact ⟨_, rfl, hs.hostCmdSome fun _ hs => hs.makeNonce.cmdDone⟩
  | unlockExpiry => exact ⟨_, rfl, hs.unlockExpiry⟩
  | dbgToken => exact ⟨_, rfl, hs.dbgToken⟩
  | dbgAccess => exact ⟨_, rfl, hs.dbgAccess⟩
  | extest => exact ⟨_, rfl, hs.extest⟩
  | samplePreload => exact ⟨_, rfl, hs.samplePreload⟩
  | idcode => exact ⟨_, rfl, hs.idcode⟩
  | bypass => exact ⟨_, rfl, hs.bypass⟩
  | dbgHaltThimum => exact ⟨_, rfl, hs.hostWrite (fun _ hs => hs.ownerWrite (fun _ hs => hs.haltThimum))⟩
  | dbgHaltAll => exact ⟨_, rfl, hs.hostWrite (fun _ hs => hs.ownerWrite (fun _ hs => hs.haltAll))⟩
  | dbgCmdRelock => exact ⟨_, rfl, hs.hostCmdSome fun _ hs => hs.relock.cmdDone⟩
  | coolantOk => exact ⟨_, rfl, hs.coolantOk⟩
  | lockLoss => exact ⟨_, rfl, hs.lockLoss⟩
  | linkFatal => exact ⟨_, rfl, hs.linkFatal⟩
  | clearDone => exact ⟨_, rfl, hs.clearDone⟩
  | fusionSlewEnd => exact ⟨_, rfl, hs.slewEnd⟩

theorem State.canonical_iff : s.canonical = true ↔ SMap.wf regReset s.regs = true ∧ SMap.wf memDefault s.mem = true ∧
    SMap.wf planeDefault s.gridMem = true ∧ SMap.wf (fun _ => none) s.trk.tracks = true := by
  simp only [State.canonical, Bool.and_eq_true, and_assoc]

theorem sound_iff : Sound q s ↔ s.pending = q ∧ s.canonical = true := by
  rw [State.canonical_iff]
  exact ⟨fun h => ⟨h.queue, h.regs, h.mem, h.gridMem, h.tracks⟩, fun ⟨hq, h1, h2, h3, h4⟩ => ⟨hq, h1, h2, h3, h4⟩⟩

/-- A step of a state in canonical form. -/
theorem Sound.step (h : s.canonical = true) : ∃ t, step s = .next t ∧ Sound s.pending.tail t := by
  cases e : s.pending with
  | nil => exact ⟨_, by rw [Machine.step, e], (sound_iff.2 ⟨e, h⟩).idleTick⟩
  | cons c rest =>
    have hs : Sound rest { s with pending := rest } := sound_iff.2 ⟨rfl, h⟩
    rw [Machine.step, e]
    exact hs.exec

end
end Sys2Proof.Machine

/-- Settles O59: the reset state lists nothing. -/
theorem resetIsCanonical : Obligations.ResetIsCanonical := by
  unfold Obligations.ResetIsCanonical
  exact ⟨rfl, rfl⟩

/-- Settles O60: each operation keeps the form and the queue (`Sound`), so every command does, and so does the idle cycle. -/
theorem stepKeepsTheCanonicalForm : Obligations.StepKeepsTheCanonicalForm := by
  unfold Obligations.StepKeepsTheCanonicalForm
  intro s h
  obtain ⟨t, e, ht⟩ := Sys2Proof.Machine.Sound.step h
  obtain ⟨hq, hc⟩ := Sys2Proof.Machine.sound_iff.1 ht
  exact ⟨t, e, hc, hq⟩
end

