-- ==== Sys2Proof/Proofs/LoopValues.lean ====
section
/-! Loop values (R18 to R20, R147, R153): arrival, staleness, and the adoption at a front end's step opening. Settles O12. -/

namespace Sys2Proof.Machine
section
variable {s : State}

/-! ### Arrival and staleness of loop values -/

theorem LoopBuf.write_of_flight {b : LoopBuf} {v : LoopVal} {fl : List LoopVal} (h : b.flight = v :: fl) :
    b.write = { b with
      flight := fl
      waiting := some (match b.waiting with
        | some w => if v.stamp < w.stamp then w else v
        | none => v) } := by
  unfold LoopBuf.write
  rw [h]
  cases b.waiting with
  | none => rfl
  | some w => dsimp only; split <;> rfl

@[simp] theorem State.shedNext_loopAt (h i : Nat) : (s.shedNext h).loopAt i = s.loopAt i := by
  unfold State.shedNext; simp
@[simp] theorem State.shedNext_byte (h a : Nat) : (s.shedNext h).byte a = s.byte a := by
  unfold State.shedNext; simp
@[simp] theorem State.shedNext_bell (h : Nat) : (s.shedNext h).bell = s.bell := by
  unfold State.shedNext; simp
theorem State.rd_shedNext_ne {h j : Nat} (hj : j ≠ rk (pgFend h) 0x504) : (s.shedNext h).rd j = s.rd j :=
  s.rd_wrN_ne _ hj

/-- FEND_SHED_NEXT shows the level that waits. -/
theorem State.rdN_shedNext_of_waiting {h : Nat} {w : LoopVal} (hw : (s.loopAt (21 + h)).waiting = some w) :
    (s.shedNext h).rdN (rk (pgFend h) 0x504) = (w.words.getD 0 0).toNat := by
  unfold State.shedNext
  rw [hw, State.rdN_wrN, if_pos rfl]
  exact Nat.mod_eq_of_lt (w.words.getD 0 0).isLt

theorem State.loopValueWrite_loopAt (t : LoopTarget) : (s.loopValueWrite t).loopAt (loopKey t) = (s.loopAt (loopKey t)).write := by
  cases t with
  | fendShed h => simp [State.loopValueWrite]
  | gridPose => exact State.setLoop_loopAt ..
  | trkPose => exact State.setLoop_loopAt ..
  | fendRate h => exact State.setLoop_loopAt ..
  | engHints => exact State.setLoop_loopAt ..
  | fendRoi k => exact State.setLoop_loopAt ..

theorem State.loopValueWrite_byte (t : LoopTarget) (a : Nat) : (s.loopValueWrite t).byte a = s.byte a := by
  cases t with
  | fendShed h => simp [State.loopValueWrite]
  | gridPose => exact State.byte_eq rfl rfl rfl a
  | trkPose => exact State.byte_eq rfl rfl rfl a
  | fendRate h => exact State.byte_eq rfl rfl rfl a
  | engHints => exact State.byte_eq rfl rfl rfl a
  | fendRoi k => exact State.byte_eq rfl rfl rfl a

theorem State.loopValueWrite_shed {h : Fin 2} {v : LoopVal} {fl : List LoopVal} (hfl : (s.loopAt (21 + h)).flight = v :: fl) :
    (s.loopValueWrite (.fendShed h)).rdN (rk (pgFend h) 0x504) =
      (((s.loopValueWrite (.fendShed h)).loopAt (21 + h)).waiting.map (fun w => (w.words.getD 0 0).toNat)).getD 0 := by
  have e : (s.loopValueWrite (.fendShed h)).loopAt (21 + h) = (s.loopAt (21 + h)).write := s.loopValueWrite_loopAt (.fendShed h)
  rw [e, LoopBuf.write_of_flight hfl]
  refine State.rdN_shedNext_of_waiting ?_
  rw [loopKey, State.setLoop_loopAt, LoopBuf.write_of_flight hfl]

theorem State.loopValueWrite_rd {t : LoopTarget} (ht : ∀ h, t ≠ .fendShed h) (k : Nat) : (s.loopValueWrite t).rd k = s.rd k := by
  cases t with
  | fendShed h => exact absurd rfl (ht h)
  | fendRate h => rfl
  | gridPose => rfl
  | trkPose => rfl
  | engHints => rfl
  | fendRoi k => rfl

theorem State.withGrid_loopAt (s : State) (g : Grid) (i : Nat) : ({ s with grid := g } : State).loopAt i = s.loopAt i := rfl
theorem State.withGrid_byte (s : State) (g : Grid) (a : Nat) : ({ s with grid := g } : State).byte a = s.byte a := rfl
theorem State.withGrid_bit (s : State) (g : Grid) (k b : Nat) : ({ s with grid := g } : State).bit k b = s.bit k b := rfl

section
variable {t : LoopTarget} (hf : (s.loopAt (loopKey t)).fresh = true) (hn : s.isFresh t (s.loopAt (loopKey t)).newest = false)
include hf hn

theorem State.loopStale_loopAt : (s.loopStale t).loopAt (loopKey t) = { s.loopAt (loopKey t) with fresh := false } := by
  unfold State.loopStale
  rw [if_neg (by simp [hf, hn])]
  cases t with
  | gridPose => rw [State.withGrid_loopAt]; simp
  | fendRate h => simp
  | trkPose => simp
  | engHints => simp
  | fendRoi k => simp
  | fendShed h => simp

theorem State.loopStale_byte (a : Nat) : (s.loopStale t).byte a = s.byte a := by
  unfold State.loopStale
  rw [if_neg (by simp [hf, hn])]
  cases t with
  | gridPose => rw [State.withGrid_byte]; simp
  | fendRate h => simp
  | trkPose => simp
  | engHints => simp
  | fendRoi k => simp
  | fendShed h => simp
end

theorem State.loopStale_rate {h : Fin 2} (hf : (s.loopAt (loopKey (.fendRate h))).fresh = true)
    (hn : s.isFresh (.fendRate h) (s.loopAt (loopKey (.fendRate h))).newest = false) :
    (s.loopStale (.fendRate h)).bit (rk (pgFend h) 0x14) 3 = true := by
  unfold State.loopStale
  rw [if_neg (by simp [hf, hn])]
  exact State.bit_event_self _ _ _ (by decide)

theorem State.loopStale_grid (hf : (s.loopAt (loopKey .gridPose)).fresh = true)
    (hn : s.isFresh .gridPose (s.loopAt (loopKey .gridPose)).newest = false) :
    (s.loopStale .gridPose).bit (rk pgGrid 0x14) 4 = true ∧ (s.loopStale .gridPose).bit (rk pgGrid 0x114) 2 = s.grid.acc.isSome := by
  unfold State.loopStale
  rw [if_neg (by simp [hf, hn])]
  dsimp only
  constructor
  · rw [State.withGrid_bit, State.bit_setBit _ _ _ _ _ _ (by decide), if_neg (by decide)]
    exact State.bit_event_self _ _ _ (by decide)
  · rw [State.withGrid_bit, State.bit_setBit _ _ _ _ _ _ (by decide), if_pos ⟨rfl, rfl⟩, State.setLoop_grid]

theorem State.loopStale_trk (hf : (s.loopAt (loopKey .trkPose)).fresh = true)
    (hn : s.isFresh .trkPose (s.loopAt (loopKey .trkPose)).newest = false) :
    (s.loopStale .trkPose).bit (rk pgTrk 0x14) 6 = true ∧ (s.loopStale .trkPose).bit (rk pgTrk 0x12C) 2 = true := by
  unfold State.loopStale
  rw [if_neg (by simp [hf, hn])]
  refine ⟨(State.bit_setBit _ _ _ _ _ _ (by decide)).trans ?_, (State.bit_setBit _ _ _ _ _ _ (by decide)).trans ?_⟩
  · rw [if_neg (by decide)]
    exact State.bit_event_self _ _ _ (by decide)
  · simp

/-! ### The front ends' step openings -/

theorem LoopBuf.adopt_of_waiting {b : LoopBuf} {v : LoopVal} (h : b.waiting = some v) :
    b.adopt.waiting = none ∧ b.adopt.adopted = some (match b.adopted with
      | some a => if v.stamp < a.stamp then a else v
      | none => v) := by
  unfold LoopBuf.adopt
  rw [h]
  cases b.adopted with
  | none => exact ⟨rfl, rfl⟩
  | some a => dsimp only; split <;> exact ⟨rfl, rfl⟩

/-- Folding operations that each keep a projection keeps it. -/
theorem foldl_keeps_of_mem {σ ι β : Type} (f : σ → β) (g : σ → ι → σ) {l : List ι} (h : ∀ s, ∀ x ∈ l, f (g s x) = f s) (s : σ) :
    f (l.foldl g s) = f s := by
  induction l generalizing s with
  | nil => rfl
  | cons x l ih =>
    rw [List.foldl_cons, ih (fun s y hy => h s y (List.mem_cons_of_mem _ hy)), h s x List.mem_cons_self]

section
variable (h : Nat)

/-- Past the loop buffer itself, the rate's adoption writes one event and DEROT_ACTIVE of the sensors. -/
theorem State.adoptRate_eq {β : Type} (f : State → β)
    (h2 : ∀ s b, f (s.event (pgFend h) b) = f s) (h3 : ∀ s k v, k < 8 → f (s.setBit (fk h k 0x54) 3 v) = f s) :
    f (s.adoptRate h) = f (s.setLoop h { (s.loopAt h).adopt with
      fresh := s.isFresh (.fendRate (if h = 0 then 0 else 1)) (s.loopAt h).adopt.adopted }) := by
  unfold State.adoptRate
  extract_lets b b' fresh s1 s2
  have e2 : f s2 = f s1 := by
    unfold s2
    split
    · exact h2 _ _
    · split
      · exact h2 _ _
      · rfl
  refine (foldl_keeps_of_mem f _ (fun s k hk => ?_) _).trans e2
  have hk : k < 8 := List.mem_range.1 hk
  split
  · exact h3 _ _ _ hk
  · split
    · exact h3 _ _ _ hk
    · rfl

theorem State.adoptRate_keeps {β : Type} (f : State → β) (h1 : ∀ s v, f (s.setLoop h v) = f s)
    (h2 : ∀ s b, f (s.event (pgFend h) b) = f s) (h3 : ∀ s k v, k < 8 → f (s.setBit (fk h k 0x54) 3 v) = f s) :
    f (s.adoptRate h) = f s :=
  (s.adoptRate_eq h f h2 h3).trans (h1 _ _)

theorem State.adoptRoi_keeps {β : Type} {k : Nat} (f : State → β) (h1 : ∀ s v, f (s.setLoop (5 + 8 * h + k) v) = f s)
    (h2 : ∀ s b, f (s.event (pgFend h) b) = f s) (h3 : ∀ s v, f (s.setBit (fk h k 0x54) 4 v) = f s)
    (h4 : ∀ s i v, i < 64 → f (s.wr (rk (pgFend h) (0x800 + k * 0x100 + 4 * i)) v) = f s) :
    f (s.adoptRoi h k) = f s := by
  unfold State.adoptRoi
  extract_lets key b b' fresh s1 s2 s3
  have e3 : f s3 = f s := by
    unfold s3 s2
    rw [h3]
    split
    · rw [h2, h1]
    · split
      · rw [h2, h1]
      · exact h1 _ _
  split
  · exact (foldl_keeps_of_mem f _ (fun s i hi => h4 _ _ _ (List.mem_range.1 hi)) _).trans e3
  · exact e3

/-- What the adoption of the regions of all eight sensors keeps. -/
theorem State.adoptRois_keeps {β : Type} (f : State → β) (h1 : ∀ s k v, k < 8 → f (s.setLoop (5 + 8 * h + k) v) = f s)
    (h2 : ∀ s b, f (s.event (pgFend h) b) = f s) (h3 : ∀ s k v, k < 8 → f (s.setBit (fk h k 0x54) 4 v) = f s)
    (h4 : ∀ s k i v, k < 8 → i < 64 → f (s.wr (rk (pgFend h) (0x800 + k * 0x100 + 4 * i)) v) = f s) :
    f ((List.range 8).foldl (fun s k => s.adoptRoi h k) s) = f s :=
  foldl_keeps_of_mem f _ (fun s k hk =>
    have hk : k < 8 := List.mem_range.1 hk
    s.adoptRoi_keeps h f (fun s v => h1 s k v hk) h2 (fun s v => h3 s k v hk) (fun s i v => h4 s k i v hk)) s

/-- What every part of a step opening but the shed level's adoption keeps. -/
theorem State.adoptRest_keeps {β : Type} (f : State → β) (h1 : ∀ s v, f (s.setLoop h v) = f s)
    (h1' : ∀ s k v, k < 8 → f (s.setLoop (5 + 8 * h + k) v) = f s)
    (h2 : ∀ s b, f (s.event (pgFend h) b) = f s) (h3 : ∀ s k b v, k < 8 → b < 32 → f (s.setBit (fk h k 0x54) b v) = f s)
    (h4 : ∀ s k i v, k < 8 → i < 64 → f (s.wr (rk (pgFend h) (0x800 + k * 0x100 + 4 * i)) v) = f s)
    (h5 : ∀ s, f (s.shedNext h) = f s) :
    f (((List.range 8).foldl (fun s k => s.adoptRoi h k) (s.adoptRate h)).shedNext h) = f s := by
  rw [h5, State.adoptRois_keeps h f h1' h2 (fun s k v hk => h3 s k 4 v hk (by decide)) h4,
    State.adoptRate_keeps h f h1 h2 (fun s k v hk => h3 s k 3 v hk (by decide))]

/-- The register of the shed level, and FAB's of the reported step, stay over the rest of the opening. -/
theorem State.adoptRest_rd {j : Nat} (hj : j = rk (pgFend h) 0x500 ∨ j = rk pgFab 0x124) :
    (((List.range 8).foldl (fun s k => s.adoptRoi h k) (s.adoptRate h)).shedNext h).rd j = s.rd j := by
  refine s.adoptRest_keeps h (fun s => s.rd j) (fun _ _ => rfl) (fun _ _ _ _ => rfl) (fun s b => State.rd_event_ne _ ?_)
    (fun s k b v hk _ => State.rd_setBit_ne _ _ _ ?_) (fun s k i v hk hi => (State.rd_wr _ _ _ _).trans (if_neg ?_))
    (fun s => State.rd_shedNext_ne ?_)
  all_goals
    simp only [rk, fk, pgFend, pgFab] at hj ⊢
    omega

theorem State.adoptRest_loopAt (hh : h < 2) :
    ∃ fr, (((List.range 8).foldl (fun s k => s.adoptRoi h k) (s.adoptRate h)).shedNext h).loopAt h =
      { (s.loopAt h).adopt with fresh := fr } := by
  refine ⟨_, (State.shedNext_loopAt ..).trans ((State.adoptRois_keeps h (fun s => s.loopAt h)
    (fun s k v hk => State.setLoop_loopAt_ne _ _ (by omega)) (fun s b => State.event_loopAt ..) (fun s k v hk => State.setBit_loopAt ..)
    (fun s k i v hk hi => State.wr_loopAt ..)).trans ((s.adoptRate_eq h (fun s => s.loopAt h) (fun s b => State.event_loopAt ..)
    (fun s k v hk => State.setBit_loopAt ..)).trans (State.setLoop_loopAt ..)))⟩

theorem State.adoptShed_keeps {β : Type} (w : Nat) (f : State → β) (h1 : ∀ s v, f (s.setLoop (21 + h) v) = f s)
    (h2 : ∀ s b, f (s.event (pgFend h) b) = f s) (h3 : ∀ s v, f (s.wrN (rk (pgFend h) 0x500) v) = f s)
    (h4 : ∀ (s : State) (b : BellUnit), f { s with bell := b } = f s) (h5 : ∀ s v, f (s.setFld (rk pgFab 0x124) 4 0 v) = f s)
    (h6 : ∀ s v, f (s.wr64 (rk pgFab 0x128) v) = f s) : f (s.adoptShed h w) = f s := by
  unfold State.adoptShed
  extract_lets b
  split
  · rfl
  · extract_lets lvl s1 s2 _ bell m
    have e2 : f s2 = f s := by
      unfold s2
      split
      · rw [h2, h3, h1]
      · split
        · rw [h2, h3, h1]
        · rw [h3, h1]
    rw [h6, h5, h4, e2]

section
variable {v : LoopVal} {w : Nat} (hw : (s.loopAt (21 + h)).waiting = some v)
include hw

theorem State.adoptShed_level (hv : (v.words.getD 0 0).toNat < 32) :
    (s.adoptShed h w).fld (rk (pgFend h) 0x500) 4 0 = (v.words.getD 0 0).toNat ∧
      (s.adoptShed h w).fld (rk pgFab 0x124) 4 0 = (v.words.getD 0 0).toNat := by
  unfold State.adoptShed
  extract_lets b
  split
  · rename_i e
    exact absurd (hw.symm.trans e) (by simp)
  · rename_i v' e
    obtain rfl : v = v' := Option.some.inj (hw.symm.trans e)
    extract_lets lvl s1 s2 _ bell m
    have e2 : s2.rdN (rk (pgFend h) 0x500) = lvl := by
      have e1 : s1.rdN (rk (pgFend h) 0x500) = lvl := by
        unfold s1
        rw [State.rdN_wrN, if_pos rfl]
        exact Nat.mod_eq_of_lt (v.words.getD 0 0).isLt
      have hne : rk (pgFend h) 0x500 ≠ rk (pgFend h) 0x14 := by simp [rk]
      unfold s2
      split
      · exact (State.rdN_congr (State.rd_event_ne _ hne)).trans e1
      · split
        · exact (State.rdN_congr (State.rd_event_ne _ hne)).trans e1
        · exact e1
    constructor
    · have hne (o : Nat) (ho : o < 0x1000) : rk (pgFend h) 0x500 ≠ rk pgFab o := by
        simp only [rk, pgFend, pgFab]
        omega
      have e3 : ∀ t : State, ((t.setFld (rk pgFab 0x124) 4 0 lvl).wr64 (rk pgFab 0x128) m).rd (rk (pgFend h) 0x500) =
          t.rd (rk (pgFend h) 0x500) := fun t =>
        (State.rd_wr64_ne _ _ (hne 0x128 (by decide)) (hne 0x12C (by decide))).trans (State.rd_setFld_ne _ _ _ _ (hne 0x124 (by decide)))
      rw [State.fld_congr (e3 _)]
      change s2.fld _ 4 0 = _
      unfold State.fld
      rw [e2]
      exact Nat.mod_eq_of_lt hv
    · have e3 : ∀ t : State, (t.wr64 (rk pgFab 0x128) m).rd (rk pgFab 0x124) = t.rd (rk pgFab 0x124) := fun t =>
        State.rd_wr64_ne _ _ (by decide) (by decide)
      rw [State.fld_congr (e3 _), State.fld_setFld_self _ _ _ _ _ (by decide) (by decide)]
      exact Nat.mod_eq_of_lt hv

theorem State.adoptShed_bell : ∃ b : BellUnit, (s.adoptShed h w).bell =
    if h = 0 then { b with adopt0 := some (w, (v.words.getD 0 0).toNat) }
    else { b with adopt1 := some (w, (v.words.getD 0 0).toNat) } := by
  unfold State.adoptShed
  extract_lets b
  split
  · rename_i e
    exact absurd (hw.symm.trans e) (by simp)
  · rename_i v' e
    obtain rfl : v = v' := Option.some.inj (hw.symm.trans e)
    extract_lets lvl s1 s2 _ bell m
    rw [State.wr64_bell, State.setFld_bell]
    exact ⟨s2.bell, rfl⟩

theorem State.adoptShed_report :
    (if h = 0 then (s.adoptShed h w).bell.adopt0 else (s.adoptShed h w).bell.adopt1) = some (w, (v.words.getD 0 0).toNat) := by
  obtain ⟨b, hb⟩ := State.adoptShed_bell h (w := w) hw
  rw [hb]
  by_cases h0 : h = 0
  · simp [h0]
  · simp [h0]
end

/-! ### A whole opening -/

/-- The state in which the opening of the next window leaves the machine, before the window is counted. -/
def State.adopted (s : State) (h w : Nat) : State :=
  ((List.range 8).foldl (fun s k => s.adoptRoi h k) ((s.adoptShed h w).adoptRate h)).shedNext h

theorem State.fendStepOpen_eq (hb : s.bell.started = true) (hn : s.stepEnd (s.fendAt h).window ≤ s.now + 2 * s.stepP) :
    s.fendStepOpen h = (s.adopted h (s.fendAt h).window).setFend h
      { (s.adopted h (s.fendAt h).window).fendAt h with window := (s.fendAt h).window + 1 } := by
  unfold State.fendStepOpen
  dsimp only
  rw [if_neg (by simp [hb, hn])]
  rfl

theorem State.adopted_byte (w a : Nat) : (s.adopted h w).byte a = s.byte a :=
  (State.adoptRest_keeps h (fun s => s.byte a) (fun _ _ => State.setLoop_byte ..) (fun _ _ _ _ => State.setLoop_byte ..)
    (fun _ _ => State.event_byte ..) (fun _ _ _ _ _ _ => State.setBit_byte ..) (fun _ _ _ _ _ _ => State.wr_byte ..)
    (fun _ => State.shedNext_byte ..)).trans
  (State.adoptShed_keeps h w (fun s => s.byte a) (fun _ _ => State.setLoop_byte ..) (fun _ _ => State.event_byte ..)
    (fun _ _ => State.wrN_byte ..) (fun _ _ => rfl) (fun _ _ => State.setFld_byte ..) (fun _ _ => State.wr64_byte ..))

theorem State.adopted_loopAt (hh : h < 2) (w : Nat) :
    ∃ fr, (s.adopted h w).loopAt h = { (s.loopAt h).adopt with fresh := fr } := by
  obtain ⟨fr, e⟩ := State.adoptRest_loopAt (s := s.adoptShed h w) h hh
  have e' : (s.adoptShed h w).loopAt h = s.loopAt h :=
    State.adoptShed_keeps h w (fun s => s.loopAt h) (fun _ _ => State.setLoop_loopAt_ne _ _ (by omega)) (fun _ _ => State.event_loopAt ..)
      (fun _ _ => State.wrN_loopAt ..) (fun _ _ => rfl) (fun _ _ => State.setFld_loopAt ..) (fun _ _ => State.wr64_loopAt ..)
  rw [e'] at e
  exact ⟨fr, e⟩

theorem State.adopted_bell (w : Nat) : (s.adopted h w).bell = (s.adoptShed h w).bell :=
  State.adoptRest_keeps h (fun s => s.bell) (fun _ _ => State.setLoop_bell ..) (fun _ _ _ _ => State.setLoop_bell ..)
    (fun _ _ => State.event_bell ..) (fun _ _ _ _ _ _ => State.setBit_bell ..) (fun _ _ _ _ _ _ => rfl)
    (fun _ => State.shedNext_bell ..)
end
end
end Sys2Proof.Machine

open Sys2Proof Sys2Proof.Machine in
/-- Settles O12, operation by operation: arrival, staleness, and the opening as shed level, rate and regions adopted in turn. -/
theorem loopValueIsAdopted : Obligations.LoopValueIsAdopted := by
  unfold Obligations.LoopValueIsAdopted
  intro s t hub v fl b f g
  refine ⟨fun hfl => ?_, fun hf hn => ?_, fun hb hn => ?_⟩
  · refine ⟨_, rfl, s.loopValueWrite_byte t, (State.loopValueWrite_loopAt t).trans (LoopBuf.write_of_flight hfl),
      fun ht k _ => State.loopValueWrite_rd ht k, ?_⟩
    rintro rfl
    exact State.loopValueWrite_shed hfl
  · exact ⟨_, rfl, State.loopStale_loopAt hf hn, State.loopStale_byte hf hn, by rintro rfl; exact State.loopStale_rate hf hn,
      by rintro rfl; exact State.loopStale_grid hf hn, by rintro rfl; exact State.loopStale_trk hf hn⟩
  · obtain ⟨fr, hl⟩ := State.adopted_loopAt (s := s) hub hub.isLt (s.fendAt hub).window
    refine ⟨_, rfl, ?_⟩
    rw [State.fendStepOpen_eq hub hb hn]
    refine ⟨?_, fun a => ?_, fun hw => ?_, fun hw hv => ?_⟩
    · rw [State.setFend_fendAt]
    · rw [State.setFend_byte, State.adopted_byte]
    · rw [State.setFend_loopAt, hl]
      exact LoopBuf.adopt_of_waiting hw
    · obtain ⟨h1, h2⟩ := State.adoptShed_level (s := s) hub (w := (s.fendAt hub).window) hw hv
      have h3 := State.adoptShed_report (s := s) hub (w := (s.fendAt hub).window) hw
      rw [State.setFend_fld, State.setFend_fld, State.setFend_bell, State.adopted_bell]
      refine ⟨(State.fld_congr (State.adoptRest_rd hub (Or.inl rfl)) _ _).trans h1,
        (State.fld_congr (State.adoptRest_rd hub (Or.inr rfl)) _ _).trans h2, ?_⟩
      simp only [Fin.ext_iff]
      exact h3
end

