-- ==== Sys2Proof/Proofs/Routing.lean ====
section
/-! A router's copy that leaves the mesh at the output collector (R155, R156) and device memory. Refutes O13. -/

namespace Sys2Proof.Machine

/-- After reset, with a packet of value 5 at router 0, a route to the output collector, and output class 0 with its site list on. -/
def State.collecting : State := { State.reset with
  regs := [(rk pgFab 0x188, 3), (rk pgFab 0x18C, 1)]
  mem := [(rtrBase 0 + 8, 0x20), (rtrBase 0 + 11, 0x80)]
  routers := [(0, { inbox := [(5, fp64 0 5 0 0)] })] }

theorem State.collecting_writes : (State.collecting.routerCopy 0 0).byte 16 = 5 := by
  decide +kernel

end Sys2Proof.Machine

open Sys2Proof Sys2Proof.Machine in
/-- Refutes O13: a copy that goes to the output collector joins its class's site list in device memory (R156), so a router that takes a copy
does not leave every byte as it was. -/
theorem not_recordCrossesTheFabric : ¬ Obligations.RecordCrossesTheFabric := by
  unfold Obligations.RecordCrossesTheFabric
  intro h
  obtain ⟨t, ht, hbytes, -⟩ := (h.2 State.collecting 0 5 (fp64 0 5 0 0) (fp64 0 5 0 0) 0 0 0 0 0 rfl rfl (by decide) rfl).2 (by decide)
  obtain rfl : State.collecting.routerCopy 0 0 = t := Host.Outcome.next.inj ht
  exact absurd ((hbytes 16).symm.trans State.collecting_writes) (by decide)
end

