-- ==== Sys2Proof/Proofs/Steps.lean ====
section
/-! The life of a step (R21 to R23, R146, R148 to R152): window, opening, rounds, Bell, accounts and stop. Settles O15. -/

namespace Sys2Proof.Machine
section
variable {s : State}

/-! ### What the cores' and routers' work at a step's opening spares -/

/-- A view that the work of cores and routers on packets and cursors spares: their own parts and registers, FAB_CORE_PACKETS, and FAB's events
are all that this work writes. -/
structure StepSpares {β : Type} (f : State → β) : Prop where
  core : ∀ s c k, f (State.setCore s c k) = f s
  rtr : ∀ s r t, f (State.setRtr s r t) = f s
  wrN : ∀ s k v, 0x1000000 ≤ k ∨ k = rk pgFab 0x58 ∨ k = rk pgFab 0x5C → f (State.wrN s k v) = f s
  event : ∀ s b, f (State.event s pgFab b) = f s

theorem le_coreKey (c o : Nat) : 0x1000000 ≤ coreKey c o := by
  unfold coreKey
  omega
theorem le_rtrKey (r o : Nat) : 0x1000000 ≤ rtrKey r o := by
  unfold rtrKey
  omega

section
variable {β : Type} {f : State → β} (hf : StepSpares f) {k : Nat}
include hf

section
variable (hk : 0x1000000 ≤ k)
include hk
theorem StepSpares.setFld (hi lo v : Nat) : f (s.setFld k hi lo v) = f s := hf.wrN _ _ _ (Or.inl hk)
theorem StepSpares.setBit (b : Nat) (v : Bool) : f (s.setBit k b v) = f s := hf.setFld hk _ _ _
theorem StepSpares.sat (n : Nat) : f (s.sat k n) = f s := hf.wrN _ _ _ (Or.inl hk)
theorem StepSpares.bump (n : Nat) : f (s.bump k n) = f s :=
  (hf.wrN _ _ _ (Or.inl (by omega))).trans (hf.wrN _ _ _ (Or.inl hk))
theorem StepSpares.peak (hi lo v : Nat) : f (s.peak k hi lo v) = f s := by
  unfold State.peak
  split
  · exact hf.setFld hk _ _ _
  · rfl
end

theorem StepSpares.coreWake (c : Nat) : f (s.coreWake c) = f s := by
  unfold State.coreWake
  split
  · rw [hf.sat (le_coreKey _ _), hf.setBit (le_coreKey _ _)]
  · rfl

theorem StepSpares.moorLevel (r : Nat) : f (s.moorLevel r) = f s := by
  unfold State.moorLevel
  rw [hf.setBit (le_rtrKey _ _), hf.peak (le_rtrKey _ _), hf.setFld (le_rtrKey _ _)]

theorem StepSpares.deferLevel (c : Nat) : f (s.deferLevel c) = f s := by
  unfold State.deferLevel
  rw [hf.setBit (le_coreKey _ _), hf.peak (le_coreKey _ _), hf.setFld (le_coreKey _ _)]

theorem StepSpares.addSums (c : Nat) (l : List (Nat × Int)) : f (s.addSums c l) = f s := by
  unfold State.addSums
  rw [hf.bump (le_coreKey _ _), hf.core]

theorem StepSpares.defer (c : Nat) (q : Cursor) : f (s.defer c q) = f s := by
  unfold State.defer
  dsimp only
  split
  · rw [hf.event, hf.sat (le_coreKey _ _)]
  · rw [hf.deferLevel, hf.core]

theorem StepSpares.coreRow (c w n : Nat) (g : Int) : f (s.coreRow c w n g true) = f s := by
  unfold State.coreRow
  dsimp only
  split
  · exact hf.sat (le_coreKey _ _) _
  · exact hf.addSums _ _

theorem StepSpares.coreList (c w i d n : Nat) (g : Int) : f (s.coreList c w i d n g true) = f s := by
  unfold State.coreList
  extract_lets ctrl lim ent s1 wk s2 s3
  have e3 : f s3 = f s := by
    unfold s3 s2
    rw [hf.sat (le_coreKey _ _), hf.sat (le_coreKey _ _), hf.sat (le_coreKey _ _), hf.addSums]
    rfl
  rw [if_neg (by simp)]
  split
  · exact (hf.defer _ _).trans e3
  · exact e3

theorem StepSpares.coreFire (c n : Nat) (q : Cursor) : f (s.coreFire c n q) = f s := by
  unfold State.coreFire
  split
  · exact hf.coreList _ _ _ _ _ _
  · exact hf.coreRow _ _ _ _

theorem StepSpares.fireCursors (c n : Nat) : f (s.fireCursors c n) = f s := by
  unfold State.fireCursors
  extract_lets k due
  split
  · rfl
  · rw [hf.deferLevel, foldl_keeps f _ (fun s q => hf.coreFire c n q), hf.coreWake, hf.core]

theorem StepSpares.coreAccept (r : Nat) (p : DWord) : f (s.coreAccept r p) = f s := by
  have e : f ((s.setRtr r ((s.rtrAt r).retired true)).bump (rk pgFab 0x58)) = f s := by
    unfold State.bump State.wr64
    rw [hf.wrN _ (rk pgFab 0x58 + 4) _ (Or.inr (Or.inr rfl)), hf.wrN _ (rk pgFab 0x58) _ (Or.inr (Or.inl rfl)), hf.rtr]
  unfold State.coreAccept
  dsimp only
  split
  · rw [hf.coreWake, hf.core, e]
  · rw [hf.sat (le_coreKey _ _), e]

theorem StepSpares.releaseMoored (r n : Nat) : f (s.releaseMoored r n) = f s := by
  unfold State.releaseMoored
  dsimp only
  split
  · rfl
  · rw [hf.moorLevel, foldl_keeps f _ (fun s p => by rw [hf.coreAccept, hf.rtr]), hf.rtr]
end

theorem stepSpares_bell : StepSpares State.bell where
  core _ _ _ := rfl
  rtr _ _ _ := rfl
  wrN _ _ _ _ := rfl
  event _ _ := State.event_bell ..

theorem stepSpares_byte (a : Nat) : StepSpares (fun s => s.byte a) where
  core _ _ _ := State.setCore_byte ..
  rtr _ _ _ := State.setRtr_byte ..
  wrN _ _ _ _ := State.wrN_byte ..
  event _ _ := State.event_byte ..

theorem stepSpares_rd {j : Nat} (h1 : j < 0x1000000) (h2 : j ∉ [rk pgFab 0x14, rk pgFab 0x58, rk pgFab 0x5C]) :
    StepSpares (fun s => s.rd j) where
  core _ _ _ := State.setCore_rd ..
  rtr _ _ _ := State.setRtr_rd ..
  wrN s k v hk := s.rd_wrN_ne _ (by
    simp only [List.mem_cons, not_or] at h2
    obtain ⟨-, ha, hb, -⟩ := h2
    rcases hk with hk | rfl | rfl
    · omega
    · exact ha
    · exact hb)
  event s b := s.rd_event_ne (fun e => h2 (by simp [e]))

/-! ### Window, opening and rounds -/

theorem State.withBell_byte (s : State) (b : BellUnit) (a : Nat) : ({ s with bell := b } : State).byte a = s.byte a := rfl
theorem State.withBell_rd64 (s : State) (b : BellUnit) (k : Nat) : ({ s with bell := b } : State).rd64 k = s.rd64 k := rfl
theorem State.withBell_rd (s : State) (b : BellUnit) (k : Nat) : ({ s with bell := b } : State).rd k = s.rd k := rfl

theorem State.rd64_congr {s t : State} {k : Nat} (h : t.rd k = s.rd k) (h' : t.rd (k + 4) = s.rd (k + 4)) : t.rd64 k = s.rd64 k := by
  unfold State.rd64
  rw [State.rdN_congr h, State.rdN_congr h']

/-- A front end's report at the close of window `n`. -/
def FendHub.report (f : FendHub) (n : Nat) : FendHub :=
  { f with
    shed := SMap.set (fun _ => 0) f.shed n 0
    reported := SMap.set (fun _ => 0) f.reported n (SMap.get (fun _ => 0) f.shed n) }

/-- The report of front end `h` reaches FAB. -/
def State.reportShed (s : State) (h n : Nat) : State := s.setFend h ((s.fendAt h).report n)

theorem State.reportShed_self (h n : Nat) :
    SMap.get (fun _ => 0) ((s.reportShed h n).fendAt h).reported n = SMap.get (fun _ => 0) (s.fendAt h).shed n :=
  (congrArg (fun f : FendHub => SMap.get (fun _ => 0) f.reported n) (State.setFend_fendAt ..)).trans (SMap.get_set_self _ _ _ _)

theorem State.reportShed_ne {h i : Nat} (hi : i ≠ h) (n : Nat) : (s.reportShed h n).fendAt i = s.fendAt i :=
  State.setFend_fendAt_ne _ _ hi

theorem State.windowClose_eq (hb : s.bell.started = true) (hn : s.stepEnd s.bell.winStep ≤ s.now + s.stepP) :
    s.windowClose = { (s.reportShed 0 s.bell.winStep).reportShed 1 s.bell.winStep with
      bell := { s.bell with winStep := s.bell.winStep + 1 } } := by
  unfold State.windowClose
  exact if_neg (by simp only [hb, Bool.not_true, Bool.false_or, decide_eq_true_eq]; omega)

theorem State.windowClose_reported (hb : s.bell.started = true) (hn : s.stepEnd s.bell.winStep ≤ s.now + s.stepP) (h : Fin 2) :
    SMap.get (fun _ => 0) (s.windowClose.fendAt h).reported s.bell.winStep = SMap.get (fun _ => 0) (s.fendAt h).shed s.bell.winStep := by
  have e : s.windowClose.fendAt h = ((s.reportShed 0 s.bell.winStep).reportShed 1 s.bell.winStep).fendAt h := by
    rw [State.windowClose_eq hb hn]
    rfl
  rw [e]
  match h with
  | 0 => exact (congrArg (fun f : FendHub => SMap.get (fun _ => 0) f.reported s.bell.winStep)
      (State.reportShed_ne (by decide) _)).trans (State.reportShed_self 0 _)
  | 1 => exact (State.reportShed_self 1 _).trans (congrArg (fun f : FendHub => SMap.get (fun _ => 0) f.shed s.bell.winStep)
      (State.reportShed_ne (by decide) _))

/-- The state in which the open step's accounts have restarted, before its number is shown. -/
def State.accountsRestarted (s : State) : State :=
  { s with
    bell := { s.bell with
      stepOpen := true, step := s.bell.nextStep, nextStep := s.bell.nextStep + 1, endFus := s.bell.nextEnd, slid := 0
      nextEnd := s.bell.nextEnd + s.stepP, phaseM := false, forced := false
      cycles := 0, prev := none, sample := none, quiet := 0, outs := [], siteCount := [], siteOvf := [] }
    routers := s.routers.map (fun q => (q.1, q.2.newStep))
    edges := s.edges.map (fun q => (q.1, q.2.newStep s.bell.nextStep))
    cores := s.cores.map (fun q => (q.1, q.2.newStep)) }

/-- What an opening's work on moorings and cursors leaves, before the first round is sampled. -/
def State.stepWork (s : State) : State :=
  let t := s.accountsRestarted.wr64 (rk pgFab 0x110) s.bell.nextStep
  let t := (t.routers.map (·.1)).foldl (fun t r => t.releaseMoored r s.bell.nextStep) t
  (t.cores.map (·.1)).foldl (fun t c => t.fireCursors c s.bell.nextStep) t

theorem State.stepOpen_eq (h : s.canOpen = true) :
    s.stepOpen = { s.stepWork with bell := { s.stepWork.bell with sample := some s.stepWork.sampleRound } } := by
  unfold State.stepOpen
  rw [if_neg (by simp [h])]
  rfl

theorem StepSpares.stepWork {β : Type} {f : State → β} (hf : StepSpares f) :
    f s.stepWork = f (s.accountsRestarted.wr64 (rk pgFab 0x110) s.bell.nextStep) := by
  unfold State.stepWork
  dsimp only
  rw [foldl_keeps f _ (fun s c => hf.fireCursors c _), foldl_keeps f _ (fun s r => hf.releaseMoored r _)]

theorem State.stepWork_bell : s.stepWork.bell = s.accountsRestarted.bell := stepSpares_bell.stepWork

theorem State.stepWork_byte (a : Nat) : s.stepWork.byte a = s.byte a :=
  (stepSpares_byte a).stepWork.trans (State.wr64_byte ..)

theorem State.stepWork_step : s.stepWork.rd64 (rk pgFab 0x110) = s.bell.nextStep % 2 ^ 64 :=
  (State.rd64_congr (stepSpares_rd (j := rk pgFab 0x110) (by decide) (by decide)).stepWork
    (stepSpares_rd (j := rk pgFab 0x110 + 4) (by decide) (by decide)).stepWork).trans (State.rd64_wr64_self ..)

/-- Waking the cores that have work. -/
theorem StepSpares.wakes {β : Type} {f : State → β} (hf : StepSpares f) (l : List Nat) :
    f (l.foldl (fun s c => if s.closeDuty c then s.coreWake c else s) s) = f s :=
  foldl_keeps f _ (fun s c => by
    split
    · exact hf.coreWake c
    · rfl) _ _

theorem State.deliver_bell : s.deliver.bell = { s.bell with phaseM := true } := stepSpares_bell.wakes _

theorem State.deliver_byte (a : Nat) : s.deliver.byte a = s.byte a := (stepSpares_byte a).wakes _

theorem State.ringBell_bell (forced : Bool) : (s.ringBell forced).bell =
    { s.bell with stepOpen := false, rang := true, forced := forced, bellTime := s.time.fus } := by
  unfold State.ringBell
  simp only [State.wrN_bell, State.bump_bell, State.wrN_time, State.bump_time]
theorem State.ringBell_byte (forced : Bool) (a : Nat) : (s.ringBell forced).byte a = s.byte a := by
  unfold State.ringBell
  rw [State.withBell_byte, State.wrN_byte, State.bump_byte]
theorem State.ringBell_rd (forced : Bool) (j : Nat) :
    (s.ringBell forced).rd j = ((s.bump (rk pgFab 0x40)).wrN (rk pgFab 0x13C) (sat32 s.bell.cycles)).rd j := by
  unfold State.ringBell
  rw [State.withBell_rd]
theorem State.ringBell_rd_ne (forced : Bool) {j : Nat} (h1 : j ≠ rk pgFab 0x40) (h2 : j ≠ rk pgFab 0x40 + 4) (h3 : j ≠ rk pgFab 0x13C) :
    (s.ringBell forced).rd j = s.rd j := by
  rw [State.ringBell_rd, State.rd_wrN_ne _ _ h3, State.rd_bump_ne _ _ h1 h2]
/-- A Bell counts. -/
theorem State.ringBell_count (forced : Bool) :
    (s.ringBell forced).rd64 (rk pgFab 0x40) = (s.rd64 (rk pgFab 0x40) + 1) % 2 ^ 64 := by
  have h (j : Nat) (hj : j ≠ rk pgFab 0x13C) : (s.ringBell forced).rd j = (s.bump (rk pgFab 0x40)).rd j := by
    rw [State.ringBell_rd, State.rd_wrN_ne _ _ hj]
  rw [State.rd64_congr (h _ (by decide)) (h _ (by decide)), State.rd64_bump_self]

theorem phaseDDone_iff {a b : Round} : phaseDDone a b = true ↔
    a.edgesDone = true ∧ b.edgesDone = true ∧ a.released = true ∧ b.released = true ∧ a.createdD = a.retiredD ∧ b.createdD = b.retiredD ∧
      a.createdD = b.createdD ∧ a.retiredD = b.retiredD := by
  simp [phaseDDone, and_assoc]

theorem phaseMDone_iff {a b : Round} : phaseMDone a b = true ↔
    a.allClosed = true ∧ b.allClosed = true ∧ a.createdM = a.retiredM ∧ b.createdM = b.retiredM ∧ a.createdM = b.createdM ∧
      a.retiredM = b.retiredM := by
  simp [phaseMDone, and_assoc]

/-- The state in which a round of an open step is taken, before its sums have their effect. -/
def State.roundTaken (s : State) (b : Round) : State :=
  { s with bell := { s.bell with
    cycles := s.bell.cycles + 16, prev := some b, sample := some s.sampleRound
    quiet := if s.sampleRound = b && !s.sampleRound.busy then s.bell.quiet + 16 else 0 } }

theorem State.reductionRound_eq {a b : Round} (ho : s.bell.stepOpen = true) (ha : s.bell.prev = some a) (hb : s.bell.sample = some b) :
    s.reductionRound =
      if s.bell.phaseM then (if phaseMDone a b then (s.roundTaken b).ringBell false else s.roundTaken b)
      else if phaseDDone a b then (s.roundTaken b).deliver else s.roundTaken b := by
  unfold State.reductionRound
  extract_lets cur new _ s'
  rw [if_neg (by simp [ho])]
  have hc : cur = b := by
    unfold cur
    rw [hb]
    rfl
  have hs : s' = s.roundTaken b := by
    unfold s'
    rw [hc]
    rfl
  rw [hs, hc]
  split
  · rename_i h
    exact absurd (ha.symm.trans h) (by simp)
  · rename_i a' h
    obtain rfl : a = a' := Option.some.inj (ha.symm.trans h)
    rfl

/-! ### Writes of an internal master and the other pages' registers -/

theorem State.chargeTo_rd (s : State) (n : Nat) (p : Option Nat) (j : Nat) : (s.chargeTo n p).rd j = s.rd j := rfl

/-- Pages that a memory access of an internal master may write. -/
def memPages : List Nat := [pgMem, pgCommons, pgSys]

section
variable {j : Nat} (hj : ∀ p ∈ memPages, ∀ o < 0x1000, j ≠ rk p o)
include hj

theorem ne_mem {o : Nat} (ho : o < 0x1000) : j ≠ rk pgMem o := hj pgMem (by decide) o ho
theorem ne_commons {o : Nat} (ho : o < 0x1000) : j ≠ rk pgCommons o := hj pgCommons (by decide) o ho
theorem ne_sys {o : Nat} (ho : o < 0x1000) : j ≠ rk pgSys o := hj pgSys (by decide) o ho

theorem State.rd_bump_of_ne {k : Nat} (n : Nat) {p : Nat} (hp : p ∈ memPages) (hk : k < 0xFFC) :
    (s.bump (rk p k) n).rd j = s.rd j := by
  have e : rk p k + 4 = rk p (k + 4) := by
    unfold rk
    omega
  refine State.rd_bump_ne _ _ (hj p hp k (by omega)) ?_
  rw [e]
  exact hj p hp (k + 4) (by omega)

theorem State.rd_eccLast (k g v : Nat) (hk : k < 0xFFC) : (s.eccLast k g v).rd j = s.rd j := by
  unfold State.eccLast
  rw [State.rd_wrN_ne _ _ (ne_mem hj (by omega)), State.rd_wrN_ne _ _ (ne_mem hj (by omega))]

theorem State.rd_checkGranule (g : Nat) (b : Bool) : (s.checkGranule g b).1.rd j = s.rd j := by
  have hp : pgMem ∈ memPages := by decide
  unfold State.checkGranule
  split
  · rfl
  · rw [State.rd_fault_ne _ (ne_mem hj (by decide)), State.rd_bump_of_ne hj _ hp (by decide), State.rd_eccLast hj _ _ _ (by decide),
      State.setBad_rd]
  · rw [State.rd_fault_ne _ (ne_mem hj (by decide)), State.rd_bump_of_ne hj _ hp (by decide), State.rd_eccLast hj _ _ _ (by decide)]
  · rw [State.rd_fault_ne _ (ne_mem hj (by decide)), State.rd_bump_of_ne hj _ hp (by decide), State.rd_bump_of_ne hj _ hp (by decide),
      State.rd_eccLast hj _ _ _ (by decide)]

theorem State.rd_checkGranules (gs : List Nat) : (s.checkGranules gs).1.rd j = s.rd j :=
  foldl_keeps (fun r : State × Bool => r.1.rd j) (fun r g => ((r.1.checkGranule g).1, r.2 && (r.1.checkGranule g).2))
    (fun _ g => State.rd_checkGranule hj g false) gs (s, true)

theorem State.rd_checkCommonsWord (w : Nat) (u : Upset) : (s.checkCommonsWord w u).1.rd j = s.rd j := by
  unfold State.checkCommonsWord
  split
  · rw [State.toSafe_rd, State.rd_bump_of_ne hj _ (by decide) (by decide), State.setCommonsBad_rd]
  · rw [State.rd_fault_ne _ (ne_commons hj (by decide)), State.rd_wrN_ne _ _ (ne_commons hj (by decide))]

theorem State.rd_checkPartial (a n : Nat) : (s.checkPartial a n).1.rd j = s.rd j :=
  foldl_keeps (fun r : State × Bool => r.1.rd j)
    (fun r (e : Nat × Upset) => ((r.1.checkCommonsWord e.1 e.2).1, r.2 && (r.1.checkCommonsWord e.1 e.2).2))
    (fun _ e => State.rd_checkCommonsWord hj e.1 e.2) _ (s, true)

theorem State.rd_injectOn (a n : Nat) : (s.injectOn a n).rd j = s.rd j := by
  unfold State.injectOn
  dsimp only
  split
  · rw [State.rd_setBit_ne _ _ _ (ne_mem hj (by decide)), State.setBad_rd]
  · rfl

theorem State.rd_secDeny (m a : Nat) (w : Bool) : (s.secDeny m a w).rd j = s.rd j := by
  unfold State.secDeny
  dsimp only
  rw [State.rd_event_ne _ (ne_commons hj (by decide)), State.rd_wrN_ne _ _ (ne_commons hj (by decide)),
    State.rd_wrN_ne _ _ (ne_commons hj (by decide)), State.rd_bump_of_ne hj _ (by decide) (by decide)]

theorem State.rd_reservedAccess (m a : Nat) : (s.reservedAccess m a).rd j = s.rd j := by
  unfold State.reservedAccess
  dsimp only
  rw [State.rd_wrN_ne _ _ (ne_sys hj (by decide)), State.rd_wrN_ne _ _ (ne_sys hj (by decide)),
    State.rd_bump_of_ne hj _ (by decide) (by decide)]

theorem State.rd_store (m a : Nat) (bs : List Byte) : (s.store m a bs).1.rd j = s.rd j := by
  have hm : pgMem ∈ memPages := by decide
  have hc : pgCommons ∈ memPages := by decide
  have hctr : commonsCtr m true < 0xFFC := by
    unfold commonsCtr
    split <;> decide
  unfold State.store
  extract_lets n parts r r'
  have e : r.1.rd j = s.rd j := by
    unfold r
    rw [State.rd_checkGranules hj, State.rd_bump_of_ne hj _ hm (by decide), State.rd_bump_of_ne hj _ hm (by decide)]
  have e' : r'.1.rd j = s.rd j := by
    unfold r'
    rw [State.rd_checkPartial hj, State.rd_bump_of_ne hj _ hc hctr]
  clear_value r r'
  split
  · split
    · rw [State.rd_injectOn hj, State.setBytes_rd, State.clearBad_rd, e]
    · rw [State.chargeTo_rd, e]
  · split
    · split
      · exact State.rd_secDeny hj _ _ _
      · split
        · rw [State.setBytes_rd, State.clearCommonsBad_rd, e']
        · rw [State.chargeTo_rd, e']
    · split
      · exact State.setBytes_rd ..
      · exact State.rd_reservedAccess hj _ _

theorem State.rd_put (m a : Nat) (bs : List Byte) : (s.put m a bs).rd j = s.rd j := State.rd_store hj _ _ _
end

/-! ### The Bell's accounts and the stop -/

section
variable {β : Type} (f : State → β)

theorem State.siteHeaders_keeps (h1 : ∀ s a bs, f (State.put s mFab a bs) = f s) (h2 : ∀ (s : State) (tt : Timetable), f { s with tt := tt } = f s) :
    f s.siteHeaders = f s := by
  unfold State.siteHeaders
  refine foldl_keeps f _ (fun s k => ?_) _ _
  extract_lets n s1
  have e : f s1 = f s := by
    unfold s1
    split
    · exact h2 _ _
    · rfl
  split
  · exact (h2 _ _).trans ((h1 _ _ _).trans e)
  · rfl

theorem State.sendShed_keeps (h1 : ∀ s i v, f (State.setLoop s i v) = f s) (h2 : ∀ s v, f (State.setFld s (rk pgFab 0x124) 12 8 v) = f s)
    (h3 : ∀ s b, f (State.event s pgFab b) = f s) (lvl : Nat) (ruled : Bool) : f (s.sendShed lvl ruled) = f s := by
  unfold State.sendShed
  extract_lets old v s1
  have e : f s1 = f s := by
    unfold s1 State.sendLoop
    rw [h2, h1, h1]
  clear_value s1
  split
  · rfl
  · split
    · exact e
    · split
      · rw [h3, e]
      · split
        · rw [h3, e]
        · exact e
end

theorem State.sendShed_bell (lvl : Nat) (ruled : Bool) : (s.sendShed lvl ruled).bell = s.bell :=
  State.sendShed_keeps State.bell (fun _ _ _ => rfl) (fun _ _ => rfl) (fun _ _ => State.event_bell ..) lvl ruled

theorem State.sendShed_rd_ne {j : Nat} (h1 : j ≠ rk pgFab 0x124) (h2 : j ≠ rk pgFab 0x14) (lvl : Nat) (ruled : Bool) :
    (s.sendShed lvl ruled).rd j = s.rd j :=
  State.sendShed_keeps (fun s => s.rd j) (fun _ _ _ => State.setLoop_rd ..) (fun _ _ => State.rd_setFld_ne _ _ _ _ h1)
    (fun _ _ => State.rd_event_ne _ h2) lvl ruled

theorem State.siteHeaders_rd {j : Nat} (hj : ∀ p ∈ memPages, ∀ o < 0x1000, j ≠ rk p o) : s.siteHeaders.rd j = s.rd j :=
  State.siteHeaders_keeps (fun s => s.rd j) (fun _ _ _ => State.rd_put hj _ _ _) (fun _ _ => rfl)

/-- The registers of a Bell's accounts: its overrun in ns and its lag, their peaks, and the outputs of each class. -/
def State.accountsShown (s : State) (ns lag : Nat) (outs : List Nat) : State :=
  let s := if ns = 0 then s else s.bump (rk pgFab 0x48)
  let s := ((s.wrN (rk pgFab 0x118) (sat32 lag)).wrN (rk pgFab 0x11C) (sat32 ns)).peak (rk pgFab 0x120) 31 0 (sat32 ns)
  let s := s.peak (rk pgFab 0x130) 31 0 (sat32 lag)
  (List.range 8).foldl (fun s k => s.wrN (rk pgFab (0x240 + 4 * k)) (outs.getD k 0)) s

theorem State.rd_peak_ne {k j : Nat} (h : j ≠ k) (hi lo v : Nat) : (s.peak k hi lo v).rd j = s.rd j := by
  unfold State.peak
  split
  · exact State.rd_setFld_ne _ _ _ _ h
  · rfl

section
variable (ns lag : Nat) (outs : List Nat)

/-- The registers above FAB's own accounts stay over the rest of their writes. -/
theorem State.accountsShown_rd {j : Nat} (h : j = rk pgFab 0x118 ∨ j = rk pgFab 0x11C) : ∃ t : State,
    (s.accountsShown ns lag outs).rd j = ((t.wrN (rk pgFab 0x118) (sat32 lag)).wrN (rk pgFab 0x11C) (sat32 ns)).rd j := by
  refine ⟨if ns = 0 then s else s.bump (rk pgFab 0x48), ?_⟩
  have h1 : j ≠ rk pgFab 0x120 ∧ j ≠ rk pgFab 0x130 ∧ ∀ k, j ≠ rk pgFab (0x240 + 4 * k) := by
    simp only [rk, pgFab] at h ⊢
    refine ⟨?_, ?_, fun k => ?_⟩ <;> omega
  obtain ⟨ha, hb, hc⟩ := h1
  unfold State.accountsShown
  dsimp only
  exact (foldl_keeps (fun s : State => s.rd j) _ (fun _ k => State.rd_wrN_ne _ _ (hc k)) _ _).trans
    ((State.rd_peak_ne hb _ _ _).trans (State.rd_peak_ne ha _ _ _))

theorem sat32_mod (n : Nat) : sat32 n % 2 ^ 32 = min n 0xFFFFFFFF := by
  unfold sat32
  omega

theorem State.accountsShown_lag : (s.accountsShown ns lag outs).rdN (rk pgFab 0x118) = min lag 0xFFFFFFFF := by
  obtain ⟨t, e⟩ := s.accountsShown_rd ns lag outs (Or.inl rfl)
  rw [State.rdN_congr e, State.rdN_wrN, if_neg (by decide), State.rdN_wrN, if_pos rfl, sat32_mod]

theorem State.accountsShown_overrun : (s.accountsShown ns lag outs).rdN (rk pgFab 0x11C) = min ns 0xFFFFFFFF := by
  obtain ⟨t, e⟩ := s.accountsShown_rd ns lag outs (Or.inr rfl)
  rw [State.rdN_congr e, State.rdN_wrN, if_pos rfl, sat32_mod]
end

/-- The lateness of the last Bell, in 2⁻⁴⁰ of a FUSION unit. -/
def BellUnit.late (b : BellUnit) : Nat := b.bellTime - (b.endFus + b.slid) * 2 ^ 40

/-- The front ends' reports of a step are taken. -/
def State.reportsTaken (s : State) (n : Nat) : State :=
  [0, 1].foldl (fun s h =>
    let f := s.fendAt h
    s.setFend h { f with reported := SMap.set (fun _ => 0) f.reported n 0 }) s

theorem State.reportsTaken_rd (n j : Nat) : (s.reportsTaken n).rd j = s.rd j :=
  foldl_keeps (fun s : State => s.rd j) _ (fun _ _ => State.setFend_rd ..) [0, 1] s

theorem State.bellAccounting_eq (hr : s.bell.rang = true) :
    ∃ (t : State) (r : StepRec) (lvl : Nat) (ruled : Bool),
      s.bellAccounting = ({ t with bell := { t.bell with
        rang := false, lags := (s.bell.late / (s.stepP * 2 ^ 40) :: s.bell.lags).take 256, ticks := s.bell.ticks ++ [r] } } : State).sendShed lvl ruled ∧
      (r.step, r.endFus, r.overrun, r.lag) =
        (s.bell.step, s.bell.endFus, s.bell.late * 125 / 2 / 2 ^ 40, s.bell.late / (s.stepP * 2 ^ 40)) ∧
      t = (s.accountsShown (s.bell.late * 125 / 2 / 2 ^ 40) (s.bell.late / (s.stepP * 2 ^ 40)) r.outs).siteHeaders.reportsTaken s.bell.step := by
  unfold State.bellAccounting
  dsimp only
  rw [if_neg (by simp [hr])]
  exact ⟨_, _, _, _, rfl, rfl, rfl⟩

/-- What a stop discards from moorings, edge queues and the mesh is counted. -/
def State.discardsCounted (s : State) : State :=
  ((s.sat (rk pgFab 0x264) (s.routers.map (fun q => q.2.moor.length + q.2.rel.length)).sum).bump (rk pgFab 0x78)
    (s.edges.map (fun q => q.2.queue.length)).sum).bump (rk pgFab 0x70) (s.routers.map (fun q => q.2.inbox.length)).sum

/-- FAB with nothing in its edges, routers and moorings, before the levels show it. -/
def State.emptied (s : State) : State :=
  { s.discardsCounted with routers := [], edges := [], bell := { s.discardsCounted.bell with
      started := false, stepOpen := false, phaseM := false, lags := [] } }

theorem State.withMesh_byte (s : State) (rs : SMap Router) (es : SMap Edge) (b : BellUnit) (a : Nat) :
    ({ s with routers := rs, edges := es, bell := b } : State).byte a = s.byte a := rfl

theorem State.emptied_byte (a : Nat) : s.emptied.byte a = s.byte a := by
  unfold State.emptied
  rw [State.withMesh_byte]
  unfold State.discardsCounted
  rw [State.bump_byte, State.bump_byte, State.sat_byte]

/-- The levels that the emptying shows are written field by field. -/
theorem State.fabEmpty_keeps {β : Type} (f : State → β) (h1 : ∀ s k hi lo v, f (State.setFld s k hi lo v) = f s)
    (h2 : ∀ s k hi lo v, f (State.peak s k hi lo v) = f s) : f s.fabEmpty = f s.emptied := by
  have hm (s : State) (r : Nat) : f ((s.moorLevel r).setBit (rtrKey r 0) 1 false) = f s := by
    unfold State.moorLevel State.setBit
    dsimp only
    rw [h1, h1, h2, h1]
  have he (s : State) (e : Nat) : f (s.edgeLevel e) = f s := by
    unfold State.edgeLevel
    dsimp only
    rw [h2, h1]
  unfold State.fabEmpty State.emptied State.discardsCounted
  dsimp only
  exact (foldl_keeps f _ he _ _).trans (foldl_keeps f _ hm _ _)

theorem State.fabEmpty_edges : s.fabEmpty.edges = [] :=
  State.fabEmpty_keeps State.edges (fun _ _ _ _ _ => State.setFld_edges ..) (fun _ _ _ _ _ => State.peak_edges ..)
theorem State.fabEmpty_routers : s.fabEmpty.routers = [] :=
  State.fabEmpty_keeps State.routers (fun _ _ _ _ _ => State.setFld_routers ..) (fun _ _ _ _ _ => State.peak_routers ..)
theorem State.fabEmpty_started : s.fabEmpty.bell.started = false :=
  congrArg BellUnit.started (State.fabEmpty_keeps State.bell (fun _ _ _ _ _ => State.setFld_bell ..) (fun _ _ _ _ _ => State.peak_bell ..))
theorem State.fabEmpty_byte (a : Nat) : s.fabEmpty.byte a = s.byte a :=
  (State.fabEmpty_keeps (fun s => s.byte a) (fun _ _ _ _ _ => State.setFld_byte ..) (fun _ _ _ _ _ => State.peak_byte ..)).trans
    (State.emptied_byte a)
theorem State.withMesh_pwr (s : State) (rs : SMap Router) (es : SMap Edge) (b : BellUnit) :
    ({ s with routers := rs, edges := es, bell := b } : State).pwr = s.pwr := rfl
theorem State.fabEmpty_pwr : s.fabEmpty.pwr = s.pwr := by
  rw [State.fabEmpty_keeps State.pwr (fun _ _ _ _ _ => State.setFld_pwr ..) (fun _ _ _ _ _ => State.peak_pwr ..)]
  unfold State.emptied
  rw [State.withMesh_pwr]
  unfold State.discardsCounted
  rw [State.bump_pwr, State.bump_pwr, State.sat_pwr]

theorem State.fabLeaves_eq (hb : s.blk pgFab = stStopping) (ho : s.bell.stepOpen = false) (hr : s.bell.rang = false)
    (hn : pgFab ∉ s.pwr.wasRunning) : s.fabLeaves = s.fabEmpty.setBlk pgFab stIdle := by
  have e : s.fabStopping = s.fabEmpty.setBlk pgFab stIdle := by
    unfold State.fabStopping
    rw [if_neg (by simp [hb, ho, hr])]
  unfold State.fabLeaves
  dsimp only
  rw [e, State.setBlk_pwr, State.fabEmpty_pwr]
  exact if_neg (by simp [hn])

end
end Sys2Proof.Machine

open Sys2Proof Sys2Proof.Machine in
/-- Settles O15, phase by phase: what the work on moorings, cursors, site lists and levels spares in the Bell's unit and in FAB's accounts. -/
theorem stepOpensClosesAndRings : Obligations.StepOpensClosesAndRings := by
  unfold Obligations.StepOpensClosesAndRings
  intro s a b B late
  refine ⟨fun hb hn => ?_, fun h1 h2 h3 h4 h5 h6 => ?_, fun ho ha hb => ?_, fun ho hq => ?_, fun hr => ?_, fun hb ho hr hn => ?_⟩
  · refine ⟨_, rfl, ?_, fun k _ => ?_, fun x => ?_, State.windowClose_reported hb hn⟩
    · rw [State.windowClose_eq hb hn]
    · rw [State.windowClose_eq hb hn, State.withBell_rd]
      exact (State.setFend_rd ..).trans (State.setFend_rd ..)
    · rw [State.windowClose_eq hb hn, State.withBell_byte]
      exact (State.setFend_byte ..).trans (State.setFend_byte ..)
  · have hc : s.canOpen = true := by
      unfold State.canOpen
      simp only [List.isEmpty_iff]
      simp [h1, h2, h3, h4, h5, h6, B]
    refine ⟨_, rfl, ?_⟩
    rw [State.stepOpen_eq hc, State.stepWork_bell, State.withBell_rd64, State.stepWork_step]
    exact ⟨rfl, rfl, rfl, rfl, rfl, rfl, rfl, fun x => State.stepWork_byte x⟩
  · refine ⟨_, rfl, ?_⟩
    rw [State.reductionRound_eq ho ha hb]
    have hm : (s.roundTaken b).bell.phaseM = B.phaseM := rfl
    have hs : (s.roundTaken b).bell.stepOpen = true := ho
    have hbyte (x : Nat) : (s.roundTaken b).byte x = s.byte x := State.byte_eq rfl rfl rfl x
    have hcount : (s.roundTaken b).rd64 (rk pgFab 0x40) = s.rd64 (rk pgFab 0x40) := rfl
    cases hp : B.phaseM with
    | false =>
      rw [if_neg (by simp)]
      by_cases hd : phaseDDone a b = true
      · rw [if_pos hd, State.deliver_bell]
        exact ⟨fun x => (State.deliver_byte x).trans (hbyte x), rfl, rfl, fun _ => ⟨hs, fun _ => phaseDDone_iff.1 hd, fun _ => rfl⟩,
          fun h => absurd h (by decide)⟩
      · rw [if_neg hd]
        exact ⟨hbyte, rfl, rfl, fun _ => ⟨hs, fun h => absurd (hm.symm.trans h) (by simp [hp]), fun h => absurd (phaseDDone_iff.2 h) hd⟩,
          fun h => absurd h (by decide)⟩
    | true =>
      rw [if_pos rfl]
      by_cases hd : phaseMDone a b = true
      · rw [if_pos hd, State.ringBell_bell, State.ringBell_count, hcount]
        exact ⟨fun x => (State.ringBell_byte _ x).trans (hbyte x), rfl, rfl, fun h => absurd h (by decide),
          fun _ => ⟨hp, ⟨fun _ => phaseMDone_iff.1 hd, fun _ => rfl⟩, fun _ => ⟨rfl, rfl, rfl⟩⟩⟩
      · rw [if_neg hd]
        have hne : (s.roundTaken b).bell.stepOpen ≠ false := by simp [hs]
        exact ⟨hbyte, rfl, rfl, fun h => absurd h (by decide),
          fun _ => ⟨hp, ⟨fun h => absurd h hne, fun h => absurd (phaseMDone_iff.2 h) hd⟩, fun h => absurd h hne⟩⟩
  · have e : s.countMismatch = (s.fault pgFab 4).ringBell true := by
      unfold State.countMismatch
      rw [if_pos]
      simp only [Bool.and_eq_true, decide_eq_true_eq]
      exact ⟨ho, hq⟩
    refine ⟨_, rfl, ?_⟩
    rw [e, State.ringBell_bell, State.ringBell_count, State.bit_congr (State.ringBell_rd_ne _ (by decide) (by decide) (by decide)),
      State.rd64_congr (State.rd_fault_ne _ (by decide)) (State.rd_fault_ne _ (by decide))]
    exact ⟨State.bit_fault_self _ _ _ _ (by decide), rfl, rfl, rfl, rfl, fun x => (State.ringBell_byte _ x).trans (State.fault_byte ..)⟩
  · obtain ⟨t, r, lvl, ruled, e, hrec, ht⟩ := State.bellAccounting_eq hr
    have hpages {o : Nat} (ho : o < 0x1000) : ∀ p ∈ memPages, ∀ o' < 0x1000, rk pgFab o ≠ rk p o' := by
      intro p hp o' ho'
      simp only [memPages, pgMem, pgCommons, pgSys, List.mem_cons, List.not_mem_nil, or_false] at hp
      simp only [rk, pgFab]
      omega
    have hrd (j : Nat) (h1 : j ≠ rk pgFab 0x124) (h2 : j ≠ rk pgFab 0x14) (hj : ∀ p ∈ memPages, ∀ o < 0x1000, j ≠ rk p o) :
        s.bellAccounting.rdN j =
          (s.accountsShown (s.bell.late * 125 / 2 / 2 ^ 40) (s.bell.late / (s.stepP * 2 ^ 40)) r.outs).rdN j := by
      rw [e, State.rdN_congr (State.sendShed_rd_ne h1 h2 _ _), State.rdN_congr (State.withBell_rd _ _ _), ht,
        State.rdN_congr (State.reportsTaken_rd _ _), State.rdN_congr (State.siteHeaders_rd hj)]
    refine ⟨_, rfl, ?_⟩
    rw [hrd _ (by decide) (by decide) (hpages (by decide)), hrd _ (by decide) (by decide) (hpages (by decide)),
      State.accountsShown_lag, State.accountsShown_overrun, e, State.sendShed_bell]
    refine ⟨rfl, rfl, rfl, rfl, ?_⟩
    rw [List.map_append, List.map_singleton, hrec]
    rfl
  · refine ⟨_, rfl, ?_⟩
    rw [State.fabLeaves_eq hb ho hr hn, State.setBlk_edges, State.setBlk_routers, State.setBlk_bell]
    exact ⟨State.fabEmpty_edges, State.fabEmpty_routers, State.fabEmpty_started, State.blk_setBlk _ _ _ (by decide) (by decide),
      fun x => (State.setBlk_byte ..).trans (State.fabEmpty_byte x)⟩
end

