-- ==== Sys2Proof/Proofs/MemoryMaster.lean ====
section
/-! Reads and writes of an internal master (R31, R337, R341, R347, R480): granules, ports, bank 63 and reserved addresses. Settles O38. -/

namespace Sys2Proof.Machine
section
variable {s : State}

/-! ### One granule -/

/-- The errors stand that `s` holds in LPDDR5X's granule `g`. -/
def State.badAt (s : State) (g : Nat) : Upset := SMap.get (fun _ => Upset.none) s.memc.bad g

theorem State.badAt_congr {s t : State} (h : t.memc = s.memc) (g : Nat) : t.badAt g = s.badAt g := by
  unfold State.badAt
  rw [h]

section
variable (k g flags : Nat)

theorem State.rd_eccLast_ne {j : Nat} (h1 : j ≠ rk pgMem k) (h2 : j ≠ rk pgMem (k + 4)) : (s.eccLast k g flags).rd j = s.rd j := by
  unfold State.eccLast
  rw [State.rd_wrN_ne _ _ h2, State.rd_wrN_ne _ _ h1]

theorem State.eccLast_low : (s.eccLast k g flags).rdN (rk pgMem k) = g * 32 % 2 ^ 32 := by
  have h : rk pgMem k ≠ rk pgMem (k + 4) := by
    unfold rk
    omega
  unfold State.eccLast
  rw [State.rdN_wrN, if_neg h, State.rdN_wrN, if_pos rfl]

theorem State.eccLast_high (h : g * 32 / 2 ^ 32 + flags + 2 ^ 31 < 2 ^ 32) :
    (s.eccLast k g flags).rdN (rk pgMem (k + 4)) = g * 32 / 2 ^ 32 + flags + 2 ^ 31 := by
  unfold State.eccLast
  rw [State.rdN_wrN, if_pos rfl]
  exact Nat.mod_eq_of_lt h
end

variable {g : Nat}

theorem State.checkGranule_none (h : s.badAt g = .none) : s.checkGranule g = (s, true) := by
  unfold State.badAt at h
  unfold State.checkGranule
  rw [h]

theorem State.checkGranule_single (h : s.badAt g = .single) : s.checkGranule g =
    ((((s.setBad g .none).eccLast 0x114 g 0).bump (rk pgMem 0x58)).fault pgMem 0, true) := by
  unfold State.badAt at h
  unfold State.checkGranule
  rw [h]

theorem State.checkGranule_double (h : s.badAt g = .double) : s.checkGranule g =
    (((s.eccLast 0x11C g 0).bump (rk pgMem 0x60)).fault pgMem 1, false) := by
  unfold State.badAt at h
  unfold State.checkGranule
  rw [h]
  rfl

theorem State.checkGranule_address (h : s.badAt g = .address) : s.checkGranule g =
    ((((s.eccLast 0x11C g 0x20000000).bump (rk pgMem 0x60)).bump (rk pgMem 0x68)).fault pgMem 2, false) := by
  unfold State.badAt at h
  unfold State.checkGranule
  rw [h]
  rfl

theorem State.setBad_memc (g : Nat) (u : Upset) :
    (s.setBad g u).memc = { s.memc with bad := SMap.set (fun _ => Upset.none) s.memc.bad g u } := rfl

/-- A check leaves every other granule's error. -/
theorem State.checkGranule_badAt_ne {i : Nat} (hi : i ≠ g) : (s.checkGranule g).1.badAt i = s.badAt i := by
  cases h : s.badAt g with
  | none => rw [State.checkGranule_none h]
  | single =>
    rw [State.checkGranule_single h, State.badAt_congr (State.fault_memc ..), State.badAt_congr (State.bump_memc ..),
      State.badAt_congr (State.eccLast_memc ..)]
    exact SMap.get_set_ne (fun _ => Upset.none) s.memc.bad Upset.none hi
  | double =>
    rw [State.checkGranule_double h, State.badAt_congr (State.fault_memc ..), State.badAt_congr (State.bump_memc ..),
      State.badAt_congr (State.eccLast_memc ..)]
  | address =>
    rw [State.checkGranule_address h, State.badAt_congr (State.fault_memc ..), State.badAt_congr (State.bump_memc ..),
      State.badAt_congr (State.bump_memc ..), State.badAt_congr (State.eccLast_memc ..)]

theorem State.checkGranules_cons (gs : List Nat) : s.checkGranules (g :: gs) =
    ((((s.checkGranule g).1).checkGranules gs).1, (s.checkGranule g).2 && (((s.checkGranule g).1).checkGranules gs).2) := by
  have h (gs : List Nat) (t : State) (b : Bool) :
      gs.foldl (fun r g => ((r.1.checkGranule g).1, r.2 && (r.1.checkGranule g).2)) (t, b) =
        ((t.checkGranules gs).1, b && (t.checkGranules gs).2) := by
    unfold State.checkGranules
    induction gs generalizing t b with
    | nil => simp
    | cons x xs ih =>
      rw [List.foldl_cons, List.foldl_cons, ih, ih _ (true && _)]
      simp [Bool.and_assoc]
  exact (congrArg (List.foldl _ · gs) rfl).trans ((h gs _ (true && (s.checkGranule g).2)).trans (by rw [Bool.true_and]))

theorem State.checkGranules_of_good {gs : List Nat} (h : ∀ i ∈ gs, s.badAt i = .none) : s.checkGranules gs = (s, true) := by
  induction gs with
  | nil => rfl
  | cons i gs ih =>
    rw [State.checkGranules_cons, State.checkGranule_none (h i List.mem_cons_self), ih (fun j hj => h j (List.mem_cons_of_mem _ hj))]
    rfl

/-- One granule with an error among good ones. -/
theorem State.checkGranules_of_one {gs : List Nat} (hg : g ∉ gs) (h : ∀ i ≠ g, s.badAt i = .none) :
    s.checkGranules (g :: gs) = s.checkGranule g := by
  rw [State.checkGranules_cons, State.checkGranules_of_good (s := (s.checkGranule g).1) (fun i hi => by
    have hne : i ≠ g := fun e => hg (e ▸ hi)
    rw [State.checkGranule_badAt_ne hne, h i hne])]
  rw [Bool.and_true]

/-! ### The state that an access meets -/

/-- The one granule of an upset, as the errors of a clean memory. -/
def oneBad (g : Nat) (u : Upset) : SMap Upset := if u = .none then [] else [(g, u)]

theorem State.upset_bad (h : s.memc.bad = []) (u : Upset) : (s.upset g u).memc.bad = oneBad g u := by
  unfold State.upset oneBad
  cases u with
  | none => exact h
  | single => exact congrArg (fun m => SMap.set (fun _ => Upset.none) m g Upset.single) h
  | double => exact congrArg (fun m => SMap.set (fun _ => Upset.none) m g Upset.double) h
  | address => exact congrArg (fun m => SMap.set (fun _ => Upset.none) m g Upset.address) h

theorem State.upset_rd (u : Upset) (j : Nat) : (s.upset g u).rd j = s.rd j := by
  unfold State.upset
  split <;> rfl
theorem State.upset_byte (u : Upset) (a : Nat) : (s.upset g u).byte a = s.byte a := by
  unfold State.upset
  split <;> rfl

theorem badAt_of_oneBad {u : Upset} (h : s.memc.bad = oneBad g u) : s.badAt g = u ∧ ∀ i ≠ g, s.badAt i = .none := by
  unfold State.badAt
  rw [h]
  unfold oneBad
  split
  · rename_i hu
    exact ⟨hu.symm, fun _ _ => rfl⟩
  · exact ⟨by simp [SMap.get], fun i hi => by simp [SMap.get, Ne.symm hi]⟩

theorem State.bytes_congr {s t : State} (h : ∀ a, t.byte a = s.byte a) (a n : Nat) : t.bytes a n = s.bytes a n := by
  unfold State.bytes
  simp only [h]

theorem State.memResp_rd (m : Nat) (r : Access) (d : List Byte) (j : Nat) : (s.memResp m r d).rd j = s.rd j := rfl
theorem State.memResp_rdN (m : Nat) (r : Access) (d : List Byte) (j : Nat) : (s.memResp m r d).rdN j = s.rdN j := rfl
theorem State.memResp_rd64 (m : Nat) (r : Access) (d : List Byte) (j : Nat) : (s.memResp m r d).rd64 j = s.rd64 j := rfl
theorem State.memResp_bit (m : Nat) (r : Access) (d : List Byte) (j b : Nat) : (s.memResp m r d).bit j b = s.bit j b := rfl
theorem State.memResp_byte (m : Nat) (r : Access) (d : List Byte) (a : Nat) : (s.memResp m r d).byte a = s.byte a := rfl
theorem State.memResp_bad (m : Nat) (r : Access) (d : List Byte) : (s.memResp m r d).memc.bad = s.memc.bad := rfl
theorem State.memResp_resp (m : Nat) (r : Access) (d : List Byte) :
    SMap.get (fun _ => (Access.done, [])) (s.memResp m r d).memc.resp m = (r, d) := SMap.get_set_self _ _ _ _
theorem State.chargeTo_byte (n : Nat) (p : Option Nat) (a : Nat) : (s.chargeTo n p).byte a = s.byte a := rfl


/-! ### Where an address lies -/

section
variable {a n : Nat}

theorem inPages_of_le (h : a + n ≤ commonsEnd) : inPages a n = false := by
  simp only [commonsEnd] at h
  refine Bool.eq_false_iff.2 fun h' => ?_
  simp only [inPages, Bool.and_eq_true, decide_eq_true_eq] at h'
  simp only [pagesBase] at h'
  omega
theorem inWindow_of_le (h : a + n ≤ commonsEnd) : inWindow a n = false := by
  simp only [commonsEnd] at h
  refine Bool.eq_false_iff.2 fun h' => ?_
  simp only [inWindow, Bool.and_eq_true, decide_eq_true_eq] at h'
  simp only [winBase] at h'
  omega
theorem inPages_of_reserved (h : 0x015000000000 ≤ a) : inPages a n = false := by
  refine Bool.eq_false_iff.2 fun h' => ?_
  simp only [inPages, Bool.and_eq_true, decide_eq_true_eq] at h'
  simp only [pagesBase] at h'
  omega
theorem inWindow_of_reserved (h : 0x015000000000 ≤ a) : inWindow a n = false := by
  refine Bool.eq_false_iff.2 fun h' => ?_
  simp only [inWindow, Bool.and_eq_true, decide_eq_true_eq] at h'
  simp only [winBase, winSize] at h'
  omega
theorem inLpddr_of_above (h : commonsBase ≤ a) : inLpddr a n = false := by
  simp only [commonsBase] at h
  refine Bool.eq_false_iff.2 fun h' => ?_
  simp only [inLpddr, decide_eq_true_eq] at h'
  simp only [lpddrEnd] at h'
  omega
theorem inStore_of_reserved (h : 0x015000000000 ≤ a) : inStore a n = false := by
  refine Bool.eq_false_iff.2 fun h' => ?_
  simp only [inStore, inLpddr, inCommons, inEngStore, inSurf, Bool.or_eq_true, Bool.and_eq_true, decide_eq_true_eq] at h'
  simp only [lpddrEnd, commonsBase, commonsEnd, engBase, surfBase, surfSize] at h'
  omega
theorem inStore_of_lpddr (h : inLpddr a n = true) : inStore a n = true := by
  simp [inStore, h]
theorem inStore_of_commons (h : inCommons a n = true) : inStore a n = true := by
  simp [inStore, h]
theorem le_of_inLpddr (h : inLpddr a n = true) : a + n ≤ commonsEnd :=
  le_trans (of_decide_eq_true h) (by decide)
theorem le_of_inCommons (h : inCommons a n = true) : a + n ≤ commonsEnd := by
  simp only [inCommons, Bool.and_eq_true, decide_eq_true_eq] at h
  exact h.2
theorem inLpddr_of_inCommons (h : inCommons a n = true) : inLpddr a n = false := by
  simp only [inCommons, Bool.and_eq_true, decide_eq_true_eq] at h
  exact inLpddr_of_above h.1

/-! ### The accesses, by the memory that they reach -/

variable (m : Nat) (u : Upset)

/-- The state that an access of `n` bytes meets. -/
def State.met (s : State) (a n : Nat) (u : Upset) : State := if inLpddr a n then s.upset (a / 32) u else s

theorem State.devRead_of_store (h : Nat) (hn : a + n ≤ commonsEnd) (hs : inStore a n = true) : s.devRead m h a n =
    ((s.load m a n).1, if (s.load m a n).2.isSome then .done else .ca, (s.load m a n).2.getD []) := by
  unfold State.devRead
  dsimp only
  rw [if_neg (by simp [inPages_of_le hn]), if_neg (by simp [inWindow_of_le hn]), if_pos hs]
  obtain ⟨t, d⟩ := s.load m a n
  cases d <;> rfl

theorem State.devRead_of_reserved (p : Nat) (h : 0x015000000000 ≤ a) : s.devRead m p a n = (s, .ur, []) := by
  unfold State.devRead
  dsimp only
  rw [if_neg (by simp [inPages_of_reserved h]), if_neg (by simp [inWindow_of_reserved h]), if_neg (by simp [inStore_of_reserved h])]

theorem State.memRead_of_store (hn : a + n ≤ commonsEnd) (hs : inStore a n = true) :
    s.memRead m a n u = ((s.met a n u).load m a n).1.memResp m (if ((s.met a n u).load m a n).2.isSome then .done else .ca)
      (((s.met a n u).load m a n).2.getD []) := by
  have e := (s.met a n u).devRead_of_store m 2 hn hs
  unfold State.met at e ⊢
  unfold State.memRead
  rw [e]
  obtain ⟨t, d⟩ := (if inLpddr a n then s.upset (a / 32) u else s).load m a n
  cases d <;> rfl

theorem State.memRead_of_reserved (h : 0x015000000000 ≤ a) : s.memRead m a n u = (s.reservedAccess m a).memResp m .ca [] := by
  unfold State.memRead
  rw [if_neg (by rw [inLpddr_of_above (le_trans (by decide) h)]; decide), State.devRead_of_reserved m 2 h]

theorem State.surfLocked_of_le (h : a + n ≤ commonsEnd) (p : Nat) : s.surfLocked p a n = false := by
  simp only [commonsEnd] at h
  have e : inSurf p a n = false := by
    refine Bool.eq_false_iff.2 fun h' => ?_
    simp only [inSurf, Bool.and_eq_true, decide_eq_true_eq] at h'
    simp only [surfBase] at h'
    omega
  unfold State.surfLocked
  rw [e, Bool.false_and]

theorem State.memWrite_of_store {bs : List Byte} (hn : a + bs.length ≤ commonsEnd) (hs : inStore a bs.length = true) :
    s.memWrite m a bs u = ((s.met a bs.length u).store m a bs).1.memResp m
      (if ((s.met a bs.length u).store m a bs).2 then .done else .ca) [] := by
  have e : (s.met a bs.length u).devWrite m 2 a bs = (s.met a bs.length u).plainWrite m a bs := by
    unfold State.devWrite
    dsimp only
    rw [if_neg (by simp [inPages_of_le hn]), if_neg (by simp [inWindow_of_le hn]), if_neg (by simp [hs]),
      if_pos (by simp [State.mayWrite])]
  unfold State.memWrite
  change (match (s.met a bs.length u).devWrite m 2 a bs with
    | (s, .done) => _ | (s, .ur) => _ | (s, .ca) => _) = _
  rw [e]
  unfold State.plainWrite
  rw [show (List.range 2).find? (fun h => (s.met a bs.length u).surfLocked h a bs.length) = none by
    simp [State.surfLocked_of_le hn]]
  dsimp only
  obtain ⟨t, ok⟩ := (s.met a bs.length u).store m a bs
  cases ok <;> rfl

theorem State.devWrite_of_reserved (p : Nat) {bs : List Byte} (h : 0x015000000000 ≤ a) : s.devWrite m p a bs = (s, .ur) := by
  unfold State.devWrite
  dsimp only
  rw [if_neg (by simp [inPages_of_reserved h]), if_neg (by simp [inWindow_of_reserved h]), if_pos (by simp [inStore_of_reserved h])]

theorem State.memWrite_of_reserved {bs : List Byte} (h : 0x015000000000 ≤ a) :
    s.memWrite m a bs u = (s.reservedAccess m a).memResp m .ca [] := by
  unfold State.memWrite
  rw [if_neg (by rw [inLpddr_of_above (le_trans (by decide) h)]; decide), State.devWrite_of_reserved m 2 h]
end

/-! ### Loads -/

section
variable {a n : Nat} (m : Nat)

theorem State.checkRange_of_one {u : Upset} (hn : 0 < n) (h : s.memc.bad = oneBad (a / 32) u) :
    s.checkRange a n = s.checkGranule (a / 32) := by
  obtain ⟨hu, ho⟩ := badAt_of_oneBad h
  have hf : (s.memc.bad.filter (fun e => a / 32 ≤ e.1 && e.1 * 32 < a + n)).map Prod.fst = if u = .none then [] else [a / 32] := by
    rw [h]
    unfold oneBad
    split
    · rfl
    · have : a / 32 * 32 < a + n := by omega
      simp [this]
  unfold State.checkRange
  rw [hf]
  split
  · rename_i e
    rw [State.checkGranule_none (hu.trans e)]
    rfl
  · exact State.checkGranules_of_one (by simp) ho

/-- A load of clean or of good LPDDR5X. -/
theorem State.load_lpddr (hl : inLpddr a n = true) : s.load m a n =
    let r := (s.bump (rk pgMem 0x40) (linesOf a n)).checkRange a n
    if r.2 then (r.1, some (r.1.bytes a n)) else (r.1.chargeTo s.safe.inbox.length (masterPage m), none) := by
  unfold State.load State.loadFor
  rw [if_pos hl]

theorem State.checkCommons_of_clean (h : s.memc.commonsBad = []) : s.checkCommons a n = (s, true) := by
  unfold State.checkCommons
  rw [h]
  rfl

theorem State.load_commons (ha : commonsBase ≤ a) (hn : a + n ≤ secBase) (h : s.memc.commonsBad = []) : s.load m a n =
    (s.bump (rk pgCommons (commonsCtr m false)) (linesOf a n), some (s.bytes a n)) := by
  have hc : inCommons a n = true := by
    simp only [inCommons, Bool.and_eq_true, decide_eq_true_eq]
    exact ⟨ha, le_trans hn (by decide)⟩
  have ht : touchesSec a n = false := by
    simp only [touchesSec, Bool.and_eq_false_iff]
    exact Or.inr (decide_eq_false (Nat.not_lt.2 hn))
  unfold State.load State.loadFor
  rw [if_neg (by rw [inLpddr_of_inCommons hc]; decide), if_pos hc, if_neg (by rw [ht, Bool.false_and]; decide),
    State.checkCommons_of_clean (s := s.bump _ _) ((congrArg _ (State.bump_memc ..)).trans h)]
  exact congrArg _ (congrArg some (State.bytes_congr (fun x => State.bump_byte ..) a n))

theorem inCommons_of_sec (ha : secBase ≤ a) (hn : a + n ≤ commonsEnd) : inCommons a n = true := by
  simp only [inCommons, Bool.and_eq_true, decide_eq_true_eq]
  exact ⟨le_trans (by decide) ha, hn⟩

theorem touchesSec_of_sec (ha : secBase ≤ a) (hn : a + n ≤ commonsEnd) (h0 : 0 < n) : touchesSec a n = true := by
  simp only [touchesSec, Bool.and_eq_true, decide_eq_true_eq]
  omega

theorem State.load_denied (ha : secBase ≤ a) (hn : a + n ≤ commonsEnd) (h0 : 0 < n) (hg : s.secGranted m false = false) :
    s.load m a n = (s.secDeny m a false, none) := by
  have hc := inCommons_of_sec ha hn
  unfold State.load State.loadFor
  rw [if_neg (by rw [inLpddr_of_inCommons hc]; decide), if_pos hc, if_pos (by rw [touchesSec_of_sec ha hn h0, hg]; decide),
    Nat.max_eq_left ha]

/-! ### Stores -/

/-- The bytes of an applied store of LPDDR5X go in over good check words. -/
theorem State.store_lpddr {bs : List Byte} (hl : inLpddr a bs.length = true) : s.store m a bs =
    let parts := partialGranules a bs.length
    let r := ((s.bump (rk pgMem 0x48) (linesOf a bs.length)).bump (rk pgMem 0x50) parts.length).checkGranules parts
    if r.2 then (((r.1.clearBad a bs.length).setBytes a bs).injectOn a bs.length, true)
    else (r.1.chargeTo s.safe.inbox.length (masterPage m), false) := by
  unfold State.store
  dsimp only
  rw [if_pos hl]

theorem State.checkPartial_of_clean (h : s.memc.commonsBad = []) : s.checkPartial a n = (s, true) := by
  unfold State.checkPartial State.partialWords
  rw [h]
  rfl

theorem State.store_commons {bs : List Byte} (ha : commonsBase ≤ a) (hn : a + bs.length ≤ secBase) (h : s.memc.commonsBad = []) :
    s.store m a bs =
      (((s.bump (rk pgCommons (commonsCtr m true)) (linesOf a bs.length)).clearCommonsBad a bs.length).setBytes a bs, true) := by
  have hc : inCommons a bs.length = true := by
    simp only [inCommons, Bool.and_eq_true, decide_eq_true_eq]
    exact ⟨ha, le_trans hn (by decide)⟩
  have ht : touchesSec a bs.length = false := by
    simp only [touchesSec, Bool.and_eq_false_iff]
    exact Or.inr (decide_eq_false (Nat.not_lt.2 hn))
  unfold State.store
  dsimp only
  rw [if_neg (by rw [inLpddr_of_inCommons hc]; decide), if_pos hc, if_neg (by rw [ht, Bool.false_and]; decide),
    State.checkPartial_of_clean (s := s.bump _ _) ((congrArg _ (State.bump_memc ..)).trans h)]
  rfl

theorem State.store_denied {bs : List Byte} (ha : secBase ≤ a) (hn : a + bs.length ≤ commonsEnd) (h0 : 0 < bs.length)
    (hg : s.secGranted m true = false) : s.store m a bs = (s.secDeny m a true, false) := by
  have hc := inCommons_of_sec ha hn
  unfold State.store
  dsimp only
  rw [if_neg (by rw [inLpddr_of_inCommons hc]; decide), if_pos hc, if_pos (by rw [touchesSec_of_sec ha hn h0, hg]; decide),
    Nat.max_eq_left ha]

/-- The granules that a write meets in part: its first, where it does not cover that, and others behind it. -/
theorem partialGranules_eq (hn : 0 < n) : ∃ gs, a / 32 ∉ gs ∧
    partialGranules a n = if a % 32 ≠ 0 ∨ n < 32 then a / 32 :: gs else gs := by
  refine ⟨if (a + n - 1) / 32 ≠ a / 32 && (a + n) % 32 ≠ 0 then [(a + n - 1) / 32] else [], ?_, ?_⟩
  · split
    · rename_i h
      simp only [ne_eq, Bool.and_eq_true, decide_eq_true_eq] at h
      simp [Ne.symm h.1]
    · simp
  · have e : (a % 32 ≠ 0 || (a / 32 = (a + n - 1) / 32 && n < 32)) = decide (a % 32 ≠ 0 ∨ n < 32) := by
      rw [Bool.eq_iff_iff]
      simp only [Bool.or_eq_true, Bool.and_eq_true, decide_eq_true_eq]
      omega
    unfold partialGranules
    dsimp only
    rw [if_neg (by omega), e]
    by_cases h : a % 32 ≠ 0 ∨ n < 32
    · rw [if_pos h, if_pos (decide_eq_true h)]
      rfl
    · rw [if_neg h, if_neg (by simpa using h)]
      rfl
end

/-! ### What a check shows and leaves -/

section
variable {g : Nat}

theorem not_mem_wide {j k : Nat} : j ∉ wide k ↔ j ≠ k ∧ j ≠ k + 4 := by
  simp [wide]

theorem State.checkGranule_single_keeps (h : s.badAt g = .single) {j : Nat}
    (hj : j ∉ [rk pgMem 0x114, rk pgMem 0x118, rk pgMem 0x1C] ++ wide (rk pgMem 0x58)) : (s.checkGranule g).1.rd j = s.rd j := by
  simp only [List.mem_append, List.mem_cons, List.not_mem_nil, or_false, not_or, not_mem_wide] at hj
  obtain ⟨⟨h1, h2, h3⟩, h4, h5⟩ := hj
  rw [State.checkGranule_single h, State.rd_fault_ne _ h3, State.rd_bump_ne _ _ h4 h5, State.rd_eccLast_ne _ _ _ h1 h2, State.setBad_rd]

theorem State.checkGranule_single_shows (h : s.badAt g = .single) (hg : g * 32 < lpddrEnd) :
    (s.checkGranule g).1.rd64 (rk pgMem 0x58) = (s.rd64 (rk pgMem 0x58) + 1) % 2 ^ 64 ∧
      (s.checkGranule g).1.rdN (rk pgMem 0x114) = g * 32 % 2 ^ 32 ∧
      (s.checkGranule g).1.rdN (rk pgMem 0x114 + 4) = g * 32 / 2 ^ 32 + 0 + 2 ^ 31 ∧
      (s.checkGranule g).1.bit (rk pgMem 0x1C) 0 = true ∧
      (s.checkGranule g).1.memc.bad = SMap.set (fun _ => Upset.none) s.memc.bad g .none := by
  simp only [lpddrEnd] at hg
  rw [State.checkGranule_single h]
  have hrd (j : Nat) (h1 : j ≠ rk pgMem 0x1C) (h2 : j ≠ rk pgMem 0x58) (h3 : j ≠ rk pgMem 0x58 + 4) :
      ((((s.setBad g .none).eccLast 0x114 g 0).bump (rk pgMem 0x58)).fault pgMem 0).rd j = ((s.setBad g .none).eccLast 0x114 g 0).rd j := by
    rw [State.rd_fault_ne _ h1, State.rd_bump_ne _ _ h2 h3]
  refine ⟨?_, ?_, ?_, State.bit_fault_self _ _ _ _ (by decide), ?_⟩
  · rw [State.rd64_congr (State.rd_fault_ne _ (by decide)) (State.rd_fault_ne _ (by decide)), State.rd64_bump_self,
      State.rd64_congr (State.rd_eccLast_ne _ _ _ (by decide) (by decide)) (State.rd_eccLast_ne _ _ _ (by decide) (by decide)),
      State.setBad_rd64]
  · rw [State.rdN_congr (hrd _ (by decide) (by decide) (by decide))]
    exact State.eccLast_low _ _ _
  · rw [State.rdN_congr (hrd _ (by decide) (by decide) (by decide))]
    exact State.eccLast_high _ _ _ (by omega)
  · rw [State.fault_memc, State.bump_memc, State.eccLast_memc, State.setBad_memc]

theorem State.checkGranule_double_keeps (h : s.badAt g = .double) {j : Nat}
    (hj : j ∉ [rk pgMem 0x11C, rk pgMem 0x120, rk pgMem 0x1C] ++ wide (rk pgMem 0x60)) : (s.checkGranule g).1.rd j = s.rd j := by
  simp only [List.mem_append, List.mem_cons, List.not_mem_nil, or_false, not_or, not_mem_wide] at hj
  obtain ⟨⟨h1, h2, h3⟩, h4, h5⟩ := hj
  rw [State.checkGranule_double h, State.rd_fault_ne _ h3, State.rd_bump_ne _ _ h4 h5, State.rd_eccLast_ne _ _ _ h1 h2]

theorem State.checkGranule_double_shows (h : s.badAt g = .double) (hg : g * 32 < lpddrEnd) :
    (s.checkGranule g).1.rd64 (rk pgMem 0x60) = (s.rd64 (rk pgMem 0x60) + 1) % 2 ^ 64 ∧
      (s.checkGranule g).1.rdN (rk pgMem 0x11C) = g * 32 % 2 ^ 32 ∧
      (s.checkGranule g).1.rdN (rk pgMem 0x11C + 4) = g * 32 / 2 ^ 32 + 0 + 2 ^ 31 ∧
      (s.checkGranule g).1.bit (rk pgMem 0x1C) 1 = true := by
  simp only [lpddrEnd] at hg
  rw [State.checkGranule_double h]
  have hrd (j : Nat) (h1 : j ≠ rk pgMem 0x1C) (h2 : j ≠ rk pgMem 0x60) (h3 : j ≠ rk pgMem 0x60 + 4) :
      (((s.eccLast 0x11C g 0).bump (rk pgMem 0x60)).fault pgMem 1).rd j = (s.eccLast 0x11C g 0).rd j := by
    rw [State.rd_fault_ne _ h1, State.rd_bump_ne _ _ h2 h3]
  refine ⟨?_, ?_, ?_, State.bit_fault_self _ _ _ _ (by decide)⟩
  · rw [State.rd64_congr (State.rd_fault_ne _ (by decide)) (State.rd_fault_ne _ (by decide)), State.rd64_bump_self,
      State.rd64_congr (State.rd_eccLast_ne _ _ _ (by decide) (by decide)) (State.rd_eccLast_ne _ _ _ (by decide) (by decide))]
  · rw [State.rdN_congr (hrd _ (by decide) (by decide) (by decide))]
    exact State.eccLast_low _ _ _
  · rw [State.rdN_congr (hrd _ (by decide) (by decide) (by decide))]
    exact State.eccLast_high _ _ _ (by omega)

theorem State.checkGranule_address_keeps (h : s.badAt g = .address) {j : Nat}
    (hj : j ∉ [rk pgMem 0x11C, rk pgMem 0x120, rk pgMem 0x1C] ++ wide (rk pgMem 0x60) ++ wide (rk pgMem 0x68)) :
    (s.checkGranule g).1.rd j = s.rd j := by
  simp only [List.mem_append, List.mem_cons, List.not_mem_nil, or_false, not_or, not_mem_wide] at hj
  obtain ⟨⟨⟨h1, h2, h3⟩, h4, h5⟩, h6, h7⟩ := hj
  rw [State.checkGranule_address h, State.rd_fault_ne _ h3, State.rd_bump_ne _ _ h6 h7, State.rd_bump_ne _ _ h4 h5,
    State.rd_eccLast_ne _ _ _ h1 h2]

theorem State.checkGranule_address_shows (h : s.badAt g = .address) (hg : g * 32 < lpddrEnd) :
    (s.checkGranule g).1.rd64 (rk pgMem 0x60) = (s.rd64 (rk pgMem 0x60) + 1) % 2 ^ 64 ∧
      (s.checkGranule g).1.rd64 (rk pgMem 0x68) = (s.rd64 (rk pgMem 0x68) + 1) % 2 ^ 64 ∧
      (s.checkGranule g).1.rdN (rk pgMem 0x11C) = g * 32 % 2 ^ 32 ∧
      (s.checkGranule g).1.rdN (rk pgMem 0x11C + 4) = g * 32 / 2 ^ 32 + 0x20000000 + 2 ^ 31 ∧
      (s.checkGranule g).1.bit (rk pgMem 0x1C) 2 = true := by
  simp only [lpddrEnd] at hg
  rw [State.checkGranule_address h]
  have hrd (j : Nat) (h1 : j ≠ rk pgMem 0x1C) (h2 : j ≠ rk pgMem 0x60) (h3 : j ≠ rk pgMem 0x60 + 4) (h4 : j ≠ rk pgMem 0x68)
      (h5 : j ≠ rk pgMem 0x68 + 4) : ((((s.eccLast 0x11C g 0x20000000).bump (rk pgMem 0x60)).bump (rk pgMem 0x68)).fault pgMem 2).rd j =
        (s.eccLast 0x11C g 0x20000000).rd j := by
    rw [State.rd_fault_ne _ h1, State.rd_bump_ne _ _ h4 h5, State.rd_bump_ne _ _ h2 h3]
  have hecc (k : Nat) (h1 : k ≠ rk pgMem 0x11C) (h2 : k ≠ rk pgMem 0x120) (h3 : k + 4 ≠ rk pgMem 0x11C) (h4 : k + 4 ≠ rk pgMem 0x120) :
      (s.eccLast 0x11C g 0x20000000).rd64 k = s.rd64 k :=
    State.rd64_congr (State.rd_eccLast_ne _ _ _ h1 h2) (State.rd_eccLast_ne _ _ _ h3 h4)
  refine ⟨?_, ?_, ?_, ?_, State.bit_fault_self _ _ _ _ (by decide)⟩
  · rw [State.rd64_congr (State.rd_fault_ne _ (by decide)) (State.rd_fault_ne _ (by decide)), State.rd64_bump_ne _ _ (by decide),
      State.rd64_bump_self, hecc _ (by decide) (by decide) (by decide) (by decide)]
  · rw [State.rd64_congr (State.rd_fault_ne _ (by decide)) (State.rd_fault_ne _ (by decide)), State.rd64_bump_self,
      State.rd64_bump_ne _ _ (by decide), hecc _ (by decide) (by decide) (by decide) (by decide)]
  · rw [State.rdN_congr (hrd _ (by decide) (by decide) (by decide) (by decide) (by decide))]
    exact State.eccLast_low _ _ _
  · rw [State.rdN_congr (hrd _ (by decide) (by decide) (by decide) (by decide) (by decide))]
    exact State.eccLast_high _ _ _ (by omega)

/-- The registers that a check of LPDDR5X can write. -/
def checkKeys : List Nat := [rk pgMem 0x114, rk pgMem 0x118, rk pgMem 0x11C, rk pgMem 0x120, rk pgMem 0x1C] ++ wide (rk pgMem 0x58) ++
  wide (rk pgMem 0x60) ++ wide (rk pgMem 0x68)

theorem State.checkGranule_keeps {j : Nat} (hj : j ∉ checkKeys) : (s.checkGranule g).1.rd j = s.rd j := by
  simp only [checkKeys, List.mem_append, List.mem_cons, List.not_mem_nil, or_false, not_or] at hj
  obtain ⟨⟨⟨⟨h1, h2, h3, h4, h5⟩, h6⟩, h7⟩, h8⟩ := hj
  cases h : s.badAt g with
  | none => rw [State.checkGranule_none h]
  | single => exact State.checkGranule_single_keeps h (by simp [*])
  | double => exact State.checkGranule_double_keeps h (by simp [*])
  | address => exact State.checkGranule_address_keeps h (by simp [*])

theorem State.checkGranules_keeps {j : Nat} (hj : j ∉ checkKeys) (gs : List Nat) : (s.checkGranules gs).1.rd j = s.rd j := by
  induction gs generalizing s with
  | nil => rfl
  | cons g gs ih => rw [State.checkGranules_cons, ih, State.checkGranule_keeps hj]
end

/-! ### What a refusal shows and leaves -/

section
variable (m a : Nat)

theorem State.secDeny_keeps (w : Bool) {j : Nat} (hj : j ∉ [rk pgCommons 0x14, rk pgCommons 0x110, rk pgCommons 0x114] ++ wide (rk pgCommons 0x70)) :
    (s.secDeny m a w).rd j = s.rd j := by
  simp only [List.mem_append, List.mem_cons, List.not_mem_nil, or_false, not_or, not_mem_wide] at hj
  obtain ⟨⟨h1, h2, h3⟩, h4, h5⟩ := hj
  unfold State.secDeny
  dsimp only
  rw [State.rd_event_ne _ h1, State.rd_wrN_ne _ _ h3, State.rd_wrN_ne _ _ h2, State.rd_bump_ne _ _ h4 h5]

theorem State.secDeny_shows (w : Bool) : (s.secDeny m a w).rd64 (rk pgCommons 0x70) = (s.rd64 (rk pgCommons 0x70) + 1) % 2 ^ 64 ∧
    (s.secDeny m a w).bit (rk pgCommons 0x14) 2 = true ∧
    (s.secDeny m a w).rdN (rk pgCommons 0x110) = (a - secBase) / 8 * 8 % 2 ^ 32 ∧
    (s.secDeny m a w).rdN (rk pgCommons 0x114) = (0x80000000 + (if w then 0x100 else 0) + m) % 2 ^ 32 := by
  unfold State.secDeny
  dsimp only
  have hrd (t : State) (k : Nat) (v1 v2 : Nat) (h1 : k ≠ rk pgCommons 0x14) (h2 : k ≠ rk pgCommons 0x110) (h3 : k ≠ rk pgCommons 0x114) :
      (((t.wrN (rk pgCommons 0x110) v1).wrN (rk pgCommons 0x114) v2).event pgCommons 2).rd k = t.rd k := by
    rw [State.rd_event_ne _ h1, State.rd_wrN_ne _ _ h3, State.rd_wrN_ne _ _ h2]
  refine ⟨?_, State.bit_event_self _ _ _ (by decide), ?_, ?_⟩
  · rw [State.rd64_congr (hrd _ _ _ _ (by decide) (by decide) (by decide)) (hrd _ _ _ _ (by decide) (by decide) (by decide)),
      State.rd64_bump_self]
  · rw [State.rdN_congr (State.rd_event_ne _ (by decide)), State.rdN_congr (State.rd_wrN_ne _ _ (by decide)), State.rdN_wrN, if_pos rfl]
  · rw [State.rdN_congr (State.rd_event_ne _ (by decide)), State.rdN_wrN, if_pos rfl]

theorem State.reservedAccess_keeps {j : Nat} (hj : j ∉ [rk pgSys 0x108, rk pgSys 0x10C] ++ wide (rk pgSys 0x40)) :
    (s.reservedAccess m a).rd j = s.rd j := by
  simp only [List.mem_append, List.mem_cons, List.not_mem_nil, or_false, not_or, not_mem_wide] at hj
  obtain ⟨⟨h1, h2⟩, h4, h5⟩ := hj
  unfold State.reservedAccess
  dsimp only
  rw [State.rd_wrN_ne _ _ h2, State.rd_wrN_ne _ _ h1, State.rd_bump_ne _ _ h4 h5]

theorem State.reservedAccess_shows : (s.reservedAccess m a).rd64 (rk pgSys 0x40) = (s.rd64 (rk pgSys 0x40) + 1) % 2 ^ 64 ∧
    (s.reservedAccess m a).rdN (rk pgSys 0x108) = a % 2 ^ 32 ∧
    (s.reservedAccess m a).rdN (rk pgSys 0x10C) = (0x80000000 + m % 16 * 0x10000 + a / 2 ^ 32 % 0x10000) % 2 ^ 32 := by
  unfold State.reservedAccess
  dsimp only
  refine ⟨?_, ?_, ?_⟩
  · rw [State.rd64_congr (State.rd_wrN_ne _ _ (by decide)) (State.rd_wrN_ne _ _ (by decide)),
      State.rd64_congr (State.rd_wrN_ne _ _ (by decide)) (State.rd_wrN_ne _ _ (by decide)), State.rd64_bump_self]
  · rw [State.rdN_congr (State.rd_wrN_ne _ _ (by decide)), State.rdN_wrN, if_pos rfl]
  · rw [State.rdN_wrN, if_pos rfl]
end

/-! ### An access of LPDDR5X as a whole -/

section
variable {a n : Nat} (m : Nat) (u : Upset)

/-- A read's state as it checks its first granule. -/
def State.readMet (s : State) (a n : Nat) (u : Upset) : State := (s.upset (a / 32) u).bump (rk pgMem 0x40) (linesOf a n)

theorem State.readMet_bad (h : s.memc.bad = []) : (s.readMet a n u).memc.bad = oneBad (a / 32) u :=
  (congrArg MemCtl.bad (State.bump_memc ..)).trans (State.upset_bad h u)
theorem State.readMet_rd_ne {j : Nat} (h : j ∉ wide (rk pgMem 0x40)) : (s.readMet a n u).rd j = s.rd j := by
  rw [not_mem_wide] at h
  unfold State.readMet
  rw [State.rd_bump_ne _ _ h.1 h.2, State.upset_rd]
theorem State.upset_rd64 (g k : Nat) : (s.upset g u).rd64 k = s.rd64 k := State.rd64_congr (State.upset_rd ..) (State.upset_rd ..)
theorem State.readMet_lines : (s.readMet a n u).rd64 (rk pgMem 0x40) = (s.rd64 (rk pgMem 0x40) + linesOf a n) % 2 ^ 64 := by
  unfold State.readMet
  rw [State.rd64_bump_self, State.upset_rd64]
theorem State.readMet_byte (x : Nat) : (s.readMet a n u).byte x = s.byte x := by
  unfold State.readMet
  rw [State.bump_byte, State.upset_byte]

theorem State.memRead_lpddr (hl : a + n ≤ lpddrEnd) (h0 : 0 < n) (hb : s.memc.bad = []) :
    (s.memRead m a n u).memc.bad = ((s.readMet a n u).checkGranule (a / 32)).1.memc.bad ∧
      (∀ j, (s.memRead m a n u).rd j = ((s.readMet a n u).checkGranule (a / 32)).1.rd j) ∧
      (∀ x, (s.memRead m a n u).byte x = s.byte x) ∧
      SMap.get (fun _ => (Access.done, [])) (s.memRead m a n u).memc.resp m =
        if ((s.readMet a n u).checkGranule (a / 32)).2 then (.done, s.bytes a n) else (.ca, []) := by
  have hi : inLpddr a n = true := decide_eq_true hl
  have hm : s.met a n u = s.upset (a / 32) u := if_pos hi
  have hx (x : Nat) : ((s.readMet a n u).checkGranule (a / 32)).1.byte x = s.byte x :=
    (State.byte_checkGranule ..).trans (State.readMet_byte u x)
  have e := State.load_lpddr (s := s.upset (a / 32) u) m hi
  rw [show (s.upset (a / 32) u).bump (rk pgMem 0x40) (linesOf a n) = s.readMet a n u from rfl,
    State.checkRange_of_one h0 (State.readMet_bad u hb)] at e
  rw [State.memRead_of_store m u (le_of_inLpddr hi) (inStore_of_lpddr hi), hm, e]
  dsimp only
  by_cases hr : ((s.readMet a n u).checkGranule (a / 32)).2 = true
  · rw [if_pos hr, if_pos hr]
    exact ⟨State.memResp_bad .., fun _ => State.memResp_rd .., fun x => (State.memResp_byte ..).trans (hx x),
      (State.memResp_resp ..).trans (congrArg (Access.done, ·) (State.bytes_congr hx a n))⟩
  · rw [if_neg hr, if_neg hr]
    refine ⟨?_, fun j => ?_, fun x => ?_, State.memResp_resp ..⟩
    · rw [State.memResp_bad, State.chargeTo_memc]
    · rw [State.memResp_rd, State.chargeTo_rd]
    · rw [State.memResp_byte, State.chargeTo_byte, hx]

theorem State.injectOn_of_unarmed (h : s.rdN (rk pgMem 0x148) % 4 = 0) : s.injectOn a n = s := by
  unfold State.injectOn
  dsimp only
  rw [if_neg (by simp [h])]

/-- A write's state as it checks the granules that it meets in part. -/
def State.writeMet (s : State) (a n : Nat) (u : Upset) : State :=
  ((s.upset (a / 32) u).bump (rk pgMem 0x48) (linesOf a n)).bump (rk pgMem 0x50) (partialGranules a n).length

theorem State.writeMet_bad (h : s.memc.bad = []) : (s.writeMet a n u).memc.bad = oneBad (a / 32) u :=
  (congrArg MemCtl.bad ((State.bump_memc ..).trans (State.bump_memc ..))).trans (State.upset_bad h u)
theorem State.writeMet_rd_ne {j : Nat} (h : j ∉ wide (rk pgMem 0x48) ++ wide (rk pgMem 0x50)) : (s.writeMet a n u).rd j = s.rd j := by
  rw [List.mem_append, not_or, not_mem_wide, not_mem_wide] at h
  obtain ⟨⟨h1, h2⟩, h3, h4⟩ := h
  unfold State.writeMet
  rw [State.rd_bump_ne _ _ h3 h4, State.rd_bump_ne _ _ h1 h2, State.upset_rd]
theorem State.writeMet_lines : (s.writeMet a n u).rd64 (rk pgMem 0x48) = (s.rd64 (rk pgMem 0x48) + linesOf a n) % 2 ^ 64 := by
  unfold State.writeMet
  rw [State.rd64_bump_ne _ _ (by decide), State.rd64_bump_self, State.upset_rd64]
theorem State.writeMet_parts :
    (s.writeMet a n u).rd64 (rk pgMem 0x50) = (s.rd64 (rk pgMem 0x50) + (partialGranules a n).length) % 2 ^ 64 := by
  unfold State.writeMet
  rw [State.rd64_bump_self, State.rd64_bump_ne _ _ (by decide), State.upset_rd64]
theorem State.writeMet_byte (x : Nat) : (s.writeMet a n u).byte x = s.byte x := by
  unfold State.writeMet
  rw [State.bump_byte, State.bump_byte, State.upset_byte]

/-- The granules that a write has checked. -/
def State.writeChecked (s : State) (a n : Nat) (u : Upset) : State × Bool := (s.writeMet a n u).checkGranules (partialGranules a n)

theorem State.writeChecked_eq (h0 : 0 < n) (hb : s.memc.bad = []) : s.writeChecked a n u =
    if a % 32 ≠ 0 ∨ n < 32 then (s.writeMet a n u).checkGranule (a / 32) else (s.writeMet a n u, true) := by
  obtain ⟨gs, hg, hp⟩ := partialGranules_eq (a := a) h0
  obtain ⟨-, ho⟩ := badAt_of_oneBad (s.writeMet_bad u (a := a) (n := n) hb)
  unfold State.writeChecked
  rw [hp]
  split
  · exact State.checkGranules_of_one hg ho
  · exact State.checkGranules_of_good (fun i hi => ho i (fun e => hg (e ▸ hi)))

theorem State.checkGranules_byte (gs : List Nat) (x : Nat) : (s.checkGranules gs).1.byte x = s.byte x := by
  induction gs generalizing s with
  | nil => rfl
  | cons g gs ih => rw [State.checkGranules_cons, ih, State.byte_checkGranule]

theorem State.writeChecked_byte (x : Nat) : (s.writeChecked a n u).1.byte x = s.byte x :=
  (State.checkGranules_byte ..).trans (State.writeMet_byte u x)

theorem State.writeChecked_rd {j : Nat} (hj : j ∉ checkKeys) : (s.writeChecked a n u).1.rd j = (s.writeMet a n u).rd j :=
  State.checkGranules_keeps hj _

variable {bs : List Byte}

/-- A write of clean LPDDR5X, up to its completion. -/
theorem State.memWrite_lpddr (hl : a + bs.length ≤ lpddrEnd) (hc : s.memClean = true) : ∃ k p, s.memWrite m a bs u =
    if (s.writeChecked a bs.length u).2 then (((s.writeChecked a bs.length u).1.clearBad a bs.length).setBytes a bs).memResp m .done []
    else ((s.writeChecked a bs.length u).1.chargeTo k p).memResp m .ca [] := by
  have hi : inLpddr a bs.length = true := decide_eq_true hl
  have hm : s.met a bs.length u = s.upset (a / 32) u := if_pos hi
  have hu : s.rdN (rk pgMem 0x148) % 4 = 0 := by
    simp only [State.memClean, Bool.and_eq_true, beq_iff_eq] at hc
    exact hc.2
  have hu' : (((s.writeChecked a bs.length u).1.clearBad a bs.length).setBytes a bs).rdN (rk pgMem 0x148) % 4 = 0 := by
    rw [State.setBytes_rdN, State.clearBad_rdN, State.rdN_congr (State.writeChecked_rd u (by decide)),
      State.rdN_congr (State.writeMet_rd_ne u (by decide)), hu]
  refine ⟨(s.upset (a / 32) u).safe.inbox.length, masterPage m, ?_⟩
  have e := State.store_lpddr (s := s.upset (a / 32) u) m hi
  dsimp only at e
  rw [show (((s.upset (a / 32) u).bump (rk pgMem 0x48) (linesOf a bs.length)).bump (rk pgMem 0x50)
    (partialGranules a bs.length).length).checkGranules (partialGranules a bs.length) = s.writeChecked a bs.length u from rfl,
    State.injectOn_of_unarmed hu'] at e
  rw [State.memWrite_of_store m u (le_of_inLpddr hi) (inStore_of_lpddr hi), hm, e]
  by_cases hr : (s.writeChecked a bs.length u).2 = true
  · rw [if_pos hr, if_pos hr]
    rfl
  · rw [if_neg hr, if_neg hr]
    rfl

theorem State.bytes_of_written {t : State} (h : ∀ x, a ≤ x ∧ x < a + bs.length → t.byte x = bs.getD (x - a) 0) : t.bytes a bs.length = bs := by
  unfold State.bytes
  refine List.ext_getElem (by simp) (fun i h1 h2 => ?_)
  rw [List.getElem_map, List.getElem_range, h _ ⟨by omega, by omega⟩, Nat.add_sub_cancel_left, List.getD_eq_getElem _ _ h2]

theorem State.clear_oneBad (h0 : 0 < n) : SMap.clear (oneBad (a / 32) u) (a / 32) ((a + n + 31) / 32) = [] := by
  unfold SMap.clear oneBad
  have : a / 32 < (a + n + 31) / 32 := by omega
  split
  · rfl
  · simp [this]
end

/-! ### Reads -/

section
variable (m : Fin 16) (a n : Nat) (u : Upset)

theorem memClean_bad (h : s.memClean = true) : s.memc.bad = [] := by
  simp only [State.memClean, Bool.and_eq_true, List.isEmpty_iff] at h
  exact h.1

/-- A read's own count, and no other register, stands between the state it meets and the one before it. -/
theorem State.memRead_lpddr_rd (hl : a + n ≤ lpddrEnd) (h0 : 0 < n) (hb : s.memc.bad = []) {j : Nat} (hj : j ∉ wide (rk pgMem 0x40))
    (h : ((s.readMet a n u).checkGranule (a / 32)).1.rd j = (s.readMet a n u).rd j) : (s.memRead m a n u).rd j = s.rd j := by
  obtain ⟨-, hrd, -⟩ := State.memRead_lpddr m u hl h0 hb
  rw [hrd, h, State.readMet_rd_ne u hj]

theorem State.memRead_lpddr_count (hl : a + n ≤ lpddrEnd) (h0 : 0 < n) (hb : s.memc.bad = []) {k : Nat}
    (h1 : k ∉ wide (rk pgMem 0x40)) (h2 : k + 4 ∉ wide (rk pgMem 0x40)) {v : Nat}
    (h : ((s.readMet a n u).checkGranule (a / 32)).1.rd64 k = ((s.readMet a n u).rd64 k + v) % 2 ^ 64) :
    (s.memRead m a n u).rd64 k = (s.rd64 k + v) % 2 ^ 64 := by
  obtain ⟨-, hrd, -⟩ := State.memRead_lpddr m u hl h0 hb
  rw [State.rd64_congr (hrd _) (hrd _), h, State.rd64_congr (State.readMet_rd_ne u h1) (State.readMet_rd_ne u h2)]

theorem State.memRead_lpddr_lines (hl : a + n ≤ lpddrEnd) (h0 : 0 < n) (hb : s.memc.bad = []) :
    (s.memRead m a n u).rd64 (rk pgMem 0x40) = (s.rd64 (rk pgMem 0x40) + linesOf a n) % 2 ^ 64 := by
  obtain ⟨-, hrd, -⟩ := State.memRead_lpddr m u hl h0 hb
  rw [State.rd64_congr (hrd _) (hrd _), State.rd64_congr (State.checkGranule_keeps (by decide)) (State.checkGranule_keeps (by decide)),
    State.readMet_lines]

theorem State.memRead_commons (ha : commonsBase ≤ a) (hn : a + n ≤ secBase) (hc : s.memc.commonsBad = []) : s.memRead m a n u =
    (s.bump (rk pgCommons (commonsCtr m false)) (linesOf a n)).memResp m .done (s.bytes a n) := by
  have hi : inCommons a n = true := by
    simp only [inCommons, Bool.and_eq_true, decide_eq_true_eq]
    exact ⟨ha, le_trans hn (by decide)⟩
  have hm : s.met a n u = s := if_neg (by rw [inLpddr_of_above ha]; decide)
  rw [State.memRead_of_store m u (le_of_inCommons hi) (inStore_of_commons hi), hm, State.load_commons m ha hn hc]
  rfl

theorem State.memRead_denied (ha : secBase ≤ a) (hn : a + n ≤ commonsEnd) (h0 : 0 < n) (hg : s.secGranted m false = false) :
    s.memRead m a n u = (s.secDeny m a false).memResp m .ca [] := by
  have hi := inCommons_of_sec ha hn
  have hm : s.met a n u = s := if_neg (by rw [inLpddr_of_inCommons hi]; decide)
  rw [State.memRead_of_store m u hn (inStore_of_commons hi), hm, State.load_denied m ha hn h0 hg]
  rfl

/-- The counter of a master's accesses is that of its port. -/
theorem rd_commonsCtr_ne (w : Bool) {j v : Nat} (h : j ∉ wide (rk pgCommons (0x40 + if w then 8 else 0)) ++ wide (rk pgCommons (0x50 + if w then 8 else 0))) :
    (s.bump (rk pgCommons (commonsCtr m w)) v).rd j = s.rd j := by
  simp only [List.mem_append, not_or, not_mem_wide] at h
  obtain ⟨⟨h1, h2⟩, h3, h4⟩ := h
  unfold commonsCtr
  by_cases hm : 8 ≤ m.val
  · rw [if_pos hm]
    exact State.rd_bump_ne _ _ h3 h4
  · rw [if_neg hm]
    exact State.rd_bump_ne _ _ h1 h2
end

/-! ### Writes -/

section
variable (m : Fin 16) (a : Nat) (bs : List Byte) (u : Upset)

theorem State.clearBad_bad (n : Nat) : (s.clearBad a n).memc.bad = SMap.clear s.memc.bad (a / 32) ((a + n + 31) / 32) := rfl

theorem State.memWrite_lpddr_rd (hl : a + bs.length ≤ lpddrEnd) (hc : s.memClean = true) (j : Nat) :
    (s.memWrite m a bs u).rd j = (s.writeChecked a bs.length u).1.rd j := by
  obtain ⟨k, p, e⟩ := State.memWrite_lpddr m u hl hc
  rw [e]
  split
  · rw [State.memResp_rd, State.setBytes_rd, State.clearBad_rd]
  · rw [State.memResp_rd, State.chargeTo_rd]

theorem State.memWrite_lpddr_byte (hl : a + bs.length ≤ lpddrEnd) (hc : s.memClean = true) (x : Nat) :
    (s.memWrite m a bs u).byte x =
      if (s.writeChecked a bs.length u).2 ∧ a ≤ x ∧ x < a + bs.length then bs.getD (x - a) 0 else s.byte x := by
  obtain ⟨k, p, e⟩ := State.memWrite_lpddr m u hl hc
  rw [e]
  by_cases hr : (s.writeChecked a bs.length u).2 = true
  · rw [if_pos hr, State.memResp_byte, State.byte_setBytes, State.clearBad_byte, State.writeChecked_byte]
    simp [hr]
  · rw [if_neg hr, State.memResp_byte, State.chargeTo_byte, State.writeChecked_byte, if_neg (fun h => hr h.1)]

theorem State.memWrite_lpddr_resp (hl : a + bs.length ≤ lpddrEnd) (hc : s.memClean = true) :
    SMap.get (fun _ => (Access.done, [])) (s.memWrite m a bs u).memc.resp m =
      (if (s.writeChecked a bs.length u).2 then .done else .ca, []) := by
  obtain ⟨k, p, e⟩ := State.memWrite_lpddr m u hl hc
  rw [e]
  split
  · exact State.memResp_resp ..
  · exact State.memResp_resp ..

/-- Good granules, or one that a check corrects or that the write covers, take the bytes. -/
theorem State.writeChecked_ok (h0 : 0 < bs.length) (hc : s.memClean = true)
    (hu : u = .none ∨ u = .single ∨ (a % 32 = 0 ∧ 32 ≤ bs.length)) : (s.writeChecked a bs.length u).2 = true ∧
      SMap.clear (s.writeChecked a bs.length u).1.memc.bad (a / 32) ((a + bs.length + 31) / 32) = [] := by
  have hb := memClean_bad hc
  have hw := s.writeMet_bad (a := a) (n := bs.length) u hb
  obtain ⟨hg, -⟩ := badAt_of_oneBad hw
  rw [State.writeChecked_eq u h0 hb]
  split
  · rename_i hp
    rcases hu with hu | hu | hu
    · rw [State.checkGranule_none (hg.trans hu)]
      exact ⟨rfl, by rw [hw, State.clear_oneBad u h0]⟩
    · refine ⟨by rw [State.checkGranule_single (hg.trans hu)], ?_⟩
      rw [State.checkGranule_single (hg.trans hu), State.fault_memc, State.bump_memc, State.eccLast_memc, State.setBad_memc, hw, hu]
      simp [oneBad, SMap.set, SMap.erase, SMap.clear]
    · omega
  · exact ⟨rfl, by rw [hw, State.clear_oneBad u h0]⟩

/-- A granule in part that is uncorrectable refuses the write, and counts. -/
theorem State.writeChecked_refused (hl : a + bs.length ≤ lpddrEnd) (h0 : 0 < bs.length) (hb : s.memc.bad = []) (hu : u = .double ∨ u = .address)
    (hp : a % 32 ≠ 0 ∨ bs.length < 32) : (s.writeChecked a bs.length u).2 = false ∧
      (s.writeChecked a bs.length u).1.rd64 (rk pgMem 0x60) = (s.rd64 (rk pgMem 0x60) + 1) % 2 ^ 64 := by
  obtain ⟨hg, -⟩ := badAt_of_oneBad (s.writeMet_bad (a := a) (n := bs.length) u hb)
  have hlt : a / 32 * 32 < lpddrEnd := by omega
  rw [State.writeChecked_eq u h0 hb, if_pos hp,
    ← State.rd64_congr (State.writeMet_rd_ne (s := s) (a := a) (n := bs.length) u (by decide)) (State.writeMet_rd_ne u (by decide))]
  rcases hu with hu | hu
  · exact ⟨by rw [State.checkGranule_double (hg.trans hu)], (State.checkGranule_double_shows (hg.trans hu) hlt).1⟩
  · exact ⟨by rw [State.checkGranule_address (hg.trans hu)], (State.checkGranule_address_shows (hg.trans hu) hlt).1⟩

theorem State.memWrite_commons (ha : commonsBase ≤ a) (hn : a + bs.length ≤ secBase) (hc : s.memc.commonsBad = []) : s.memWrite m a bs u =
    (((s.bump (rk pgCommons (commonsCtr m true)) (linesOf a bs.length)).clearCommonsBad a bs.length).setBytes a bs).memResp m .done [] := by
  have hi : inCommons a bs.length = true := by
    simp only [inCommons, Bool.and_eq_true, decide_eq_true_eq]
    exact ⟨ha, le_trans hn (by decide)⟩
  have hm : s.met a bs.length u = s := if_neg (by rw [inLpddr_of_above ha]; decide)
  rw [State.memWrite_of_store m u (le_of_inCommons hi) (inStore_of_commons hi), hm, State.store_commons m ha hn hc]
  rfl

theorem State.memWrite_denied (ha : secBase ≤ a) (hn : a + bs.length ≤ commonsEnd) (h0 : 0 < bs.length) (hg : s.secGranted m true = false) :
    s.memWrite m a bs u = (s.secDeny m a true).memResp m .ca [] := by
  have hi := inCommons_of_sec ha hn
  have hm : s.met a bs.length u = s := if_neg (by rw [inLpddr_of_inCommons hi]; decide)
  rw [State.memWrite_of_store m u hn (inStore_of_commons hi), hm, State.store_denied m ha hn h0 hg]
  rfl
end
end
end Sys2Proof.Machine

open Sys2Proof Sys2Proof.Machine in
/-- Settles O38, by the memory that the address lies in, and for LPDDR5X by the error of the first granule. -/
theorem masterReachesMemory : Obligations.MasterReachesMemory := by
  unfold Obligations.MasterReachesMemory
  refine ⟨fun s m a n u => ?_, fun s m a bs u => ?_⟩
  · intro resp g plus last deny
    have hm := m.isLt
    refine ⟨fun hl h0 hc => ?_, fun ha hn hc => ?_, fun hd h0 => ?_, fun ha h0 hlt => ?_⟩
    · have hb := memClean_bad hc
      obtain ⟨hbad, hrd, hbyte, hresp⟩ := State.memRead_lpddr m u hl h0 hb
      obtain ⟨hg, -⟩ := badAt_of_oneBad (s.readMet_bad (a := a) (n := n) u hb)
      have hlt : a / 32 * 32 < lpddrEnd := by omega
      refine ⟨_, rfl, hbyte, State.memRead_lpddr_lines m a n u hl h0 hb, fun hu => ?_, fun hu => ?_, fun hu => ?_, fun hu => ?_⟩
      · replace hg := hg.trans hu
        rw [State.checkGranule_none hg] at hresp
        exact ⟨hresp, fun j hj => State.memRead_lpddr_rd m a n u hl h0 hb hj (by rw [State.checkGranule_none hg])⟩
      · replace hg := hg.trans hu
        obtain ⟨hcnt, hlo, hhi, hbit, hnone⟩ := State.checkGranule_single_shows hg hlt
        rw [State.checkGranule_single hg] at hresp
        refine ⟨hresp, State.memRead_lpddr_count m a n u hl h0 hb (by decide) (by decide) hcnt,
          ⟨(State.rdN_congr (hrd _)).trans hlo, (State.rdN_congr (hrd _)).trans hhi⟩, (State.bit_congr (hrd _) _).trans hbit, ?_,
          fun j hj => ?_⟩
        · rw [hbad, hnone, s.readMet_bad (a := a) (n := n) u hb, hu]
          simp [oneBad, SMap.set, SMap.erase]
        · simp only [List.mem_append, not_or] at hj
          obtain ⟨⟨h1, h2⟩, h3⟩ := hj
          exact State.memRead_lpddr_rd m a n u hl h0 hb h2 (State.checkGranule_single_keeps hg (by simp only [List.mem_append, not_or]; exact ⟨h1, h3⟩))
      · replace hg := hg.trans hu
        obtain ⟨hcnt, hlo, hhi, hbit⟩ := State.checkGranule_double_shows hg hlt
        rw [State.checkGranule_double hg] at hresp
        refine ⟨hresp, State.memRead_lpddr_count m a n u hl h0 hb (by decide) (by decide) hcnt,
          ⟨(State.rdN_congr (hrd _)).trans hlo, (State.rdN_congr (hrd _)).trans hhi⟩, (State.bit_congr (hrd _) _).trans hbit, fun j hj => ?_⟩
        simp only [List.mem_append, not_or] at hj
        obtain ⟨⟨h1, h2⟩, h3⟩ := hj
        exact State.memRead_lpddr_rd m a n u hl h0 hb h2 (State.checkGranule_double_keeps hg (by simp only [List.mem_append, not_or]; exact ⟨h1, h3⟩))
      · replace hg := hg.trans hu
        obtain ⟨hcnt, hcnt', hlo, hhi, hbit⟩ := State.checkGranule_address_shows hg hlt
        rw [State.checkGranule_address hg] at hresp
        refine ⟨hresp, State.memRead_lpddr_count m a n u hl h0 hb (by decide) (by decide) hcnt,
          State.memRead_lpddr_count m a n u hl h0 hb (by decide) (by decide) hcnt',
          ⟨(State.rdN_congr (hrd _)).trans hlo, (State.rdN_congr (hrd _)).trans hhi⟩, (State.bit_congr (hrd _) _).trans hbit, fun j hj => ?_⟩
        simp only [List.mem_append, not_or] at hj
        obtain ⟨⟨⟨h1, h2⟩, h3⟩, h4⟩ := hj
        exact State.memRead_lpddr_rd m a n u hl h0 hb h2
          (State.checkGranule_address_keeps hg (by simp only [List.mem_append, not_or]; exact ⟨⟨h1, h3⟩, h4⟩))
    · refine ⟨_, rfl, ?_⟩
      rw [State.memRead_commons m a n u ha hn hc]
      exact ⟨fun x => (State.memResp_byte ..).trans (State.bump_byte ..), State.memResp_resp ..,
        fun j hj => (State.memResp_rd ..).trans (rd_commonsCtr_ne m false hj)⟩
    · obtain ⟨ha, hn, hg⟩ := hd
      obtain ⟨h1, h2, h3, h4⟩ := s.secDeny_shows m a false
      refine ⟨_, rfl, ?_⟩
      rw [State.memRead_denied m a n u ha hn h0 hg]
      refine ⟨fun x => (State.memResp_byte ..).trans (State.secDeny_byte ..), State.memResp_resp .., (State.memResp_rd64 ..).trans h1,
        (State.memResp_bit ..).trans h2, (State.memResp_rdN ..).trans (h3.trans ?_), (State.memResp_rdN ..).trans (h4.trans ?_),
        fun j hj => (State.memResp_rd ..).trans (State.secDeny_keeps m a false hj)⟩
      · simp only [commonsEnd, secBase] at ha hn ⊢
        omega
      · rw [if_neg (by decide)]
        omega
    · obtain ⟨h1, h2, h3⟩ := s.reservedAccess_shows m a
      refine ⟨_, rfl, ?_⟩
      rw [State.memRead_of_reserved m u ha]
      refine ⟨fun x => (State.memResp_byte ..).trans (State.reservedAccess_byte ..), State.memResp_resp .., (State.memResp_rd64 ..).trans h1,
        (State.memResp_rdN ..).trans h2, (State.memResp_rdN ..).trans (h3.trans ?_),
        fun j hj => (State.memResp_rd ..).trans (State.reservedAccess_keeps m a hj)⟩
      omega
  · intro n resp plus parts mem deny
    refine ⟨fun hl h0 hc => ?_, fun ha hn h0 hc => ?_, fun hd h0 => ?_, fun ha h0 => ?_⟩
    · have hb := memClean_bad hc
      have hrd := State.memWrite_lpddr_rd m a bs u hl hc
      have hbyte := State.memWrite_lpddr_byte m a bs u hl hc
      have hresp := State.memWrite_lpddr_resp m a bs u hl hc
      have hkeep {j : Nat} (hj : j ∉ checkKeys) := (hrd j).trans (State.writeChecked_rd u hj)
      refine ⟨_, rfl, fun x hx => (hbyte x).trans (if_neg (fun h => hx h.2)),
        (State.rd64_congr (hkeep (by decide)) (hkeep (by decide))).trans (State.writeMet_lines u),
        (State.rd64_congr (hkeep (by decide)) (hkeep (by decide))).trans (State.writeMet_parts u), fun hu => ?_, fun hu hp => ?_, fun j hj => ?_⟩
      · obtain ⟨hok, hclear⟩ := State.writeChecked_ok a bs u h0 hc hu
        refine ⟨hresp.trans (by rw [hok]; rfl), State.bytes_of_written (fun x hx => (hbyte x).trans (if_pos ⟨hok, hx⟩)), ?_⟩
        obtain ⟨k, p, e⟩ := State.memWrite_lpddr m u hl hc
        rw [e, if_pos hok, State.memResp_bad, State.setBytes_memc, State.clearBad_bad, hclear]
      · obtain ⟨hno, hcnt⟩ := State.writeChecked_refused a bs u hl h0 hb hu hp
        exact ⟨hresp.trans (by rw [hno]; rfl), fun x => (hbyte x).trans (if_neg (by simp [hno])),
          (State.rd64_congr (hrd _) (hrd _)).trans hcnt⟩
      · simp only [mem, List.mem_append, not_or] at hj
        obtain ⟨⟨⟨⟨⟨h1, h2⟩, h3⟩, h4⟩, h5⟩, h6⟩ := hj
        refine (hkeep ?_).trans (State.writeMet_rd_ne u ?_)
        · simp only [checkKeys, List.mem_append, not_or]
          exact ⟨⟨⟨h1, h4⟩, h5⟩, h6⟩
        · simp only [List.mem_append, not_or]
          exact ⟨h2, h3⟩
    · refine ⟨_, rfl, ?_⟩
      rw [State.memWrite_commons m a bs u ha hn hc]
      have hbyte (x : Nat) := State.byte_setBytes
        ((s.bump (rk pgCommons (commonsCtr m true)) (linesOf a bs.length)).clearCommonsBad a bs.length) a bs x
      refine ⟨fun x hx => (State.memResp_byte ..).trans ((hbyte x).trans ((if_neg hx).trans ?_)), State.memResp_resp ..,
        State.bytes_of_written (fun x hx => (State.memResp_byte ..).trans ((hbyte x).trans (if_pos hx))), fun j hj => ?_⟩
      · rw [State.clearCommonsBad_byte, State.bump_byte]
      · rw [State.memResp_rd, State.setBytes_rd, State.clearCommonsBad_rd]
        exact rd_commonsCtr_ne m true hj
    · obtain ⟨ha, hn, hg⟩ := hd
      obtain ⟨h1, h2, -, h4⟩ := s.secDeny_shows m a true
      refine ⟨_, rfl, ?_⟩
      rw [State.memWrite_denied m a bs u ha hn h0 hg]
      refine ⟨fun x => (State.memResp_byte ..).trans (State.secDeny_byte ..), State.memResp_resp .., (State.memResp_rd64 ..).trans h1,
        (State.memResp_bit ..).trans h2, (State.memResp_rdN ..).trans (h4.trans ?_)⟩
      have hm := m.isLt
      rw [if_pos rfl]
      omega
    · obtain ⟨h1, -, -⟩ := s.reservedAccess_shows m a
      refine ⟨_, rfl, ?_⟩
      rw [State.memWrite_of_reserved m u ha]
      exact ⟨fun x => (State.memResp_byte ..).trans (State.reservedAccess_byte ..), State.memResp_resp .., (State.memResp_rd64 ..).trans h1⟩
end

