-- ==== Sys2Proof/Proofs/Reports.lean ====
section
/-! TICK records, TAP blocks and result windows (R24, R369, R372 to R375). Settles O17. -/

namespace Sys2Proof.Machine
section
variable {s : State}

/-! ### Fields of bytes -/

theorem leNat_leBytes (k n : Nat) : leNat (leBytes k n) = n % 256 ^ k := by
  induction k generalizing n with
  | zero => simp [leBytes, leNat, Nat.mod_one]
  | succ k ih =>
    rw [leBytes, leNat, ih, Nat.pow_succ', Nat.mod_mul]
    simp

theorem fieldLE_leBytes (k n : Nat) (ys : List Byte) : fieldLE (leBytes k n ++ ys) 0 k = n % 256 ^ k := by
  unfold fieldLE
  rw [List.drop_zero, List.take_left' (State.length_leBytes k n), leNat_leBytes]

theorem fieldLE_append_of_le {xs : List Byte} {o : Nat} (h : xs.length ≤ o) (ys : List Byte) (k : Nat) :
    fieldLE (xs ++ ys) o k = fieldLE ys (o - xs.length) k := by
  unfold fieldLE
  rw [List.drop_append, List.drop_eq_nil_of_le h, List.nil_append]

theorem fieldLE_leBytes_of_le {j o : Nat} (h : j ≤ o) (n k : Nat) (ys : List Byte) :
    fieldLE (leBytes j n ++ ys) o k = fieldLE ys (o - j) k := by
  rw [fieldLE_append_of_le (by rwa [State.length_leBytes]), State.length_leBytes]

theorem fieldLE_zeros_of_le {j o : Nat} (h : j ≤ o) (k : Nat) (ys : List Byte) : fieldLE (zeros j ++ ys) o k = fieldLE ys (o - j) k := by
  have hz : (zeros j).length = j := List.length_replicate
  rw [fieldLE_append_of_le (by rwa [hz]), hz]

/-! ### The TICK record -/

/-- The increment of a step's record counts, where it is NaN, and does no more. -/
theorem State.stepIncrement_keeps {β : Type} (f : State → β) (h : ∀ s, f (State.bump s (rk pgEgo 0x68)) = f s) (n : Nat) :
    f (s.stepIncrement n).1 = f s := by
  unfold State.stepIncrement
  split
  · split
    · exact h s
    · split
      · split <;> rfl
      · rfl
  · exact h s

theorem State.offer_offers (h : s.running pgStream = true) (o : Offer) : (s.offer o).stream.offers = s.stream.offers ++ [o] := by
  unfold State.offer
  rw [if_pos h]

theorem State.window_offers (w : Nat) (d : List Byte) : (s.window w d).stream.offers = s.stream.offers := by
  unfold State.window
  split <;> rfl

/-- The item of a TICK record. -/
def tickOffer (d : List Byte) (a : StepRec) : Offer := { ring := 0, bytes := d, fus := a.endFus, unchecked := false, warm := false }

variable {a : StepRec} {as : List StepRec}

/-- The state in which the oldest accounted step has been taken off, and its increment drawn. -/
def State.tickTaken (s : State) (a : StepRec) (as : List StepRec) : State × List Word :=
  ({ s with bell := { s.bell with ticks := as } } : State).stepIncrement a.step

theorem State.tickRecord_eq (ht : s.bell.ticks = a :: as) (hh : ¬ (s.running pgFab = true ∧ s.halted pgFab = true)) :
    ∃ d sf, d = (s.tickTaken a as).1.tickBytes a (s.tickTaken a as).2 ∧
      s.tickRecord = { ((s.tickTaken a as).1.window 0 d).offer (tickOffer d a) with safe := sf } := by
  unfold State.tickRecord
  rw [ht]
  dsimp only
  rw [if_neg (by simpa using hh)]
  exact ⟨_, _, rfl, rfl⟩

theorem State.withSafe_byte (s : State) (sf : Safe) (x : Nat) : ({ s with safe := sf } : State).byte x = s.byte x := rfl
theorem State.withSafe_rd (s : State) (sf : Safe) (k : Nat) : ({ s with safe := sf } : State).rd k = s.rd k := rfl

theorem State.tickTaken_keeps {β : Type} (f : State → β) (h : ∀ s, f (State.bump s (rk pgEgo 0x68)) = f s)
    (h' : ∀ (s : State) b, f { s with bell := b } = f s) : f (s.tickTaken a as).1 = f s :=
  (State.stepIncrement_keeps f h _).trans (h' _ _)

theorem State.running_congr {s t : State} {p : Nat} (hp : p ≠ pgSys) (h : t.rd (rk p 0x10) = s.rd (rk p 0x10)) :
    t.running p = s.running p := by
  unfold State.running State.blk
  rw [if_neg hp, if_neg hp, State.fld_congr h]

theorem State.tickTaken_bell : (s.tickTaken a as).1.bell = { s.bell with ticks := as } :=
  State.stepIncrement_keeps State.bell (fun _ => State.bump_bell ..) _

/-- The low bits of the status word. -/
theorem State.tickStatus_bits : (s.tickStatus a).testBit 0 = decide (0 < a.overrun) ∧ (s.tickStatus a).testBit 1 = decide (0 < a.lag) ∧
    (s.tickStatus a).testBit 2 = decide (0 < a.shed0 + a.shed1) := by
  have key (x y z : Bool) (n : Nat) : ((if x then 2 ^ 0 else 0) + (if y then 2 ^ 1 else 0) + (if z then 2 ^ 2 else 0) + 8 * n).testBit 0 = x ∧
      ((if x then 2 ^ 0 else 0) + (if y then 2 ^ 1 else 0) + (if z then 2 ^ 2 else 0) + 8 * n).testBit 1 = y ∧
      ((if x then 2 ^ 0 else 0) + (if y then 2 ^ 1 else 0) + (if z then 2 ^ 2 else 0) + 8 * n).testBit 2 = z := by
    simp only [Nat.testBit_eq_decide_div_mod_eq]
    cases x <;> cases y <;> cases z <;> simp <;> omega
  have hz : decide (0 < a.shed0 + a.shed1) = (decide (0 < a.shed0) || decide (0 < a.shed1)) := by
    rw [Bool.eq_iff_iff]
    simp only [Bool.or_eq_true, decide_eq_true_eq]
    omega
  have e : ∃ n, s.tickStatus a = (if decide (0 < a.overrun) then 2 ^ 0 else 0) + (if decide (0 < a.lag) then 2 ^ 1 else 0) +
      (if decide (0 < a.shed0) || decide (0 < a.shed1) then 2 ^ 2 else 0) + 8 * n := by
    have hs (v : Bool) (k : Nat) : (if v then 2 ^ (3 + k) else 0) = 8 * (if v then 2 ^ k else 0) := by
      rw [mul_ite, mul_zero, Nat.pow_add]
    refine ⟨(if s.warmFlag then 2 ^ 0 else 0) + (if s.trk.lastUnchk || (fieldLE s.grid.lastHdr 38 2).testBit 2 then 2 ^ 1 else 0) +
      s.timeState * 4 + (if s.inTerm then 2 ^ 5 else 0) + max (if a.forced then 2 else 0) (max s.safe.tickMax s.classNow) * 64, ?_⟩
    unfold State.tickStatus
    dsimp only
    rw [hs _ 0, hs _ 1, hs _ 5]
    omega
  obtain ⟨n, e⟩ := e
  rw [e, hz]
  exact key _ _ _ n

theorem State.tickBytes_fields (inc : List Word) : fieldLE (s.tickBytes a inc) 0 8 = a.step % 2 ^ 64 ∧
    fieldLE (s.tickBytes a inc) 8 8 = a.endFus % 2 ^ 64 ∧ fieldLE (s.tickBytes a inc) 16 4 = s.tickStatus a % 2 ^ 32 ∧
    fieldLE (s.tickBytes a inc) 20 4 = min a.overrun 0xFFFFFFFF ∧ fieldLE (s.tickBytes a inc) 24 4 = min a.lag 0xFFFFFFFF ∧
    fieldLE (s.tickBytes a inc) 28 4 = a.shed0 % 2 ^ 32 ∧ fieldLE (s.tickBytes a inc) 32 4 = a.shed1 % 2 ^ 32 := by
  have h64 (n : Nat) : n % 256 ^ 8 = n % 2 ^ 64 := by norm_num
  have h32 (n : Nat) : n % 256 ^ 4 = n % 2 ^ 32 := by norm_num
  unfold State.tickBytes
  simp only [List.append_assoc]
  refine ⟨?_, ?_, ?_, ?_, ?_, ?_, ?_⟩
  · rw [fieldLE_leBytes, h64]
  · rw [fieldLE_leBytes_of_le (by decide)]
    exact (fieldLE_leBytes ..).trans (h64 _)
  · rw [fieldLE_leBytes_of_le (by decide), fieldLE_leBytes_of_le (by decide)]
    exact (fieldLE_leBytes ..).trans (h32 _)
  · rw [fieldLE_leBytes_of_le (by decide), fieldLE_leBytes_of_le (by decide), fieldLE_leBytes_of_le (by decide)]
    exact (fieldLE_leBytes ..).trans ((h32 _).trans (sat32_mod _))
  · rw [fieldLE_leBytes_of_le (by decide), fieldLE_leBytes_of_le (by decide), fieldLE_leBytes_of_le (by decide),
      fieldLE_leBytes_of_le (by decide)]
    exact (fieldLE_leBytes ..).trans ((h32 _).trans (sat32_mod _))
  · rw [fieldLE_leBytes_of_le (by decide), fieldLE_leBytes_of_le (by decide), fieldLE_leBytes_of_le (by decide),
      fieldLE_leBytes_of_le (by decide), fieldLE_leBytes_of_le (by decide)]
    exact (fieldLE_leBytes ..).trans (h32 _)
  · rw [fieldLE_leBytes_of_le (by decide), fieldLE_leBytes_of_le (by decide), fieldLE_leBytes_of_le (by decide),
      fieldLE_leBytes_of_le (by decide), fieldLE_leBytes_of_le (by decide), fieldLE_leBytes_of_le (by decide)]
    exact (fieldLE_leBytes ..).trans (h32 _)

/-! ### The TAP block -/

theorem State.tapItem_of_ne_nil (h : s.stream.tap ≠ []) : ∃ fus, s.tapItem = some {
    ring := 3, bytes := s.stream.tap.flatMap (fun r => leBytes 16 r.toNat), fus := fus, unchecked := false, warm := false } := by
  unfold State.tapItem
  split
  · rename_i e
    exact absurd e h
  · exact ⟨_, rfl⟩

/-- A TAP block that is full or old is offered. -/
theorem State.tapBlockClose_eq (h : s.stream.tap ≠ []) (hd : 256 ≤ s.stream.tap.length ∨ s.stream.tapFus + 32 ≤ s.now) :
    ∃ fus, s.tapBlockClose = ({ s with stream := { s.stream with tap := [] } } : State).offer {
      ring := 3, bytes := s.stream.tap.flatMap (fun r => leBytes 16 r.toNat), fus := fus, unchecked := false, warm := false } := by
  obtain ⟨fus, e⟩ := State.tapItem_of_ne_nil h
  refine ⟨fus, ?_⟩
  unfold State.tapBlockClose State.tapClose
  rw [if_pos (by simp only [Bool.and_eq_true, Bool.or_eq_true, decide_eq_true_eq]; exact ⟨by simpa using h, hd⟩), e]

theorem State.offer_tap (o : Offer) : (s.offer o).stream.tap = s.stream.tap := by
  unfold State.offer
  split <;> rfl

theorem State.withStream_rd (s : State) (st : Stream) (k : Nat) : ({ s with stream := st } : State).rd k = s.rd k := rfl
theorem State.withStream_byte (s : State) (st : Stream) (x : Nat) : ({ s with stream := st } : State).byte x = s.byte x := rfl
theorem State.withStream_running (s : State) (st : Stream) (p : Nat) : ({ s with stream := st } : State).running p = s.running p := rfl

/-! ### The update of a result window -/

section
variable {x at_ : Nat} (m : Nat) {bs : List Byte}

/-- A write of the open Commons with no word in error, byte by byte. -/
theorem State.byte_put_commons (ha : commonsBase ≤ at_) (hn : at_ + bs.length ≤ secBase) (hc : s.memc.commonsBad = []) :
    (s.put m at_ bs).byte x = if at_ ≤ x ∧ x < at_ + bs.length then bs.getD (x - at_) 0 else s.byte x := by
  unfold State.put
  rw [State.store_commons m ha hn hc, State.byte_setBytes, State.clearCommonsBad_byte, State.bump_byte]

theorem State.put_commonsBad (ha : commonsBase ≤ at_) (hn : at_ + bs.length ≤ secBase) (hc : s.memc.commonsBad = []) :
    (s.put m at_ bs).memc.commonsBad = [] := by
  unfold State.put
  rw [State.store_commons m ha hn hc, State.setBytes_memc]
  have e (t : State) (n : Nat) (h : t.memc.commonsBad = []) : (t.clearCommonsBad at_ n).memc.commonsBad = [] :=
    (congrArg (fun m => SMap.clear m (at_ / 8) ((at_ + n + 7) / 8)) h).trans rfl
  exact e _ _ ((congrArg MemCtl.commonsBad (State.bump_memc ..)).trans hc)
end

/-- The memory writes of an update with sequence number `seq`: content between two control words. -/
def State.windowWrites (s : State) (at_ seq : Nat) (d : List Byte) : State :=
  ((s.put mStream at_ (leBytes 8 (seq * 256))).put mStream (at_ + 8) (zeros 8 ++ (d ++ zeros 240).take 240)).put mStream at_
    (leBytes 8 ((seq + 1) * 256 + 1))

theorem length_windowContent (d : List Byte) : (zeros 8 ++ (d ++ zeros 240).take 240).length = 248 := by
  simp only [zeros, List.length_append, List.length_replicate, List.length_take]
  omega

section
variable {at_ seq : Nat} {d : List Byte} (ha : commonsBase ≤ at_) (hn : at_ + 256 ≤ secBase) (hc : s.memc.commonsBad = [])
include ha hn hc

theorem State.windowWrites_byte (x : Nat) : (s.windowWrites at_ seq d).byte x =
    if at_ ≤ x ∧ x < at_ + 8 then (leBytes 8 ((seq + 1) * 256 + 1)).getD (x - at_) 0
    else if at_ + 8 ≤ x ∧ x < at_ + 256 then (zeros 8 ++ (d ++ zeros 240).take 240).getD (x - (at_ + 8)) 0
    else s.byte x := by
  have h8 (n : Nat) : at_ + (leBytes 8 n).length ≤ secBase := by
    rw [State.length_leBytes]
    omega
  have h248 : at_ + 8 + (zeros 8 ++ (d ++ zeros 240).take 240).length ≤ secBase := by
    rw [length_windowContent]
    omega
  have c1 := s.put_commonsBad mStream ha (h8 (seq * 256)) hc
  have c2 := State.put_commonsBad mStream (le_trans ha (Nat.le_add_right _ 8)) h248 c1
  unfold State.windowWrites
  rw [State.byte_put_commons mStream ha (h8 _) c2, State.byte_put_commons mStream (le_trans ha (Nat.le_add_right _ 8)) h248 c1,
    State.byte_put_commons mStream ha (h8 _) hc, length_windowContent, State.length_leBytes, State.length_leBytes]
  by_cases h : at_ ≤ x ∧ x < at_ + 8
  · rw [if_pos h, if_pos h]
  · rw [if_neg h, if_neg h, if_neg h]

theorem State.windowWrites_control : (s.windowWrites at_ seq d).getLE at_ 8 = ((seq + 1) * 256 + 1) % 2 ^ 64 := by
  have e := State.bytes_of_written (t := s.windowWrites at_ seq d) (a := at_) (bs := leBytes 8 ((seq + 1) * 256 + 1)) (fun x hx => by
    rw [State.length_leBytes] at hx
    rw [State.windowWrites_byte ha hn hc, if_pos hx])
  rw [State.length_leBytes] at e
  unfold State.getLE
  rw [e, leNat_leBytes]
  norm_num

theorem State.windowWrites_content {o n : Nat} (ho : o + n ≤ 240) :
    (s.windowWrites at_ seq d).bytes (at_ + 16 + o) n = ((d ++ zeros 240).drop o).take n := by
  have hz : (zeros 8).length = 8 := rfl
  have hl : (((d ++ zeros 240).drop o).take n).length = n := by
    simp only [zeros, List.length_take, List.length_drop, List.length_append, List.length_replicate]
    omega
  have e := State.bytes_of_written (t := s.windowWrites at_ seq d) (a := at_ + 16 + o) (bs := ((d ++ zeros 240).drop o).take n)
    (fun x hx => by
      rw [hl] at hx
      rw [State.windowWrites_byte ha hn hc, if_neg (by omega), if_pos (by omega), List.getD_append_right _ _ _ _ (by rw [hz]; omega), hz]
      simp only [List.getD_eq_getElem?_getD, List.getElem?_take, List.getElem?_drop]
      rw [if_pos (by omega), if_pos (by omega), show x - (at_ + 8) - 8 = o + (x - (at_ + 16 + o)) by omega])
  rwa [hl] at e

theorem State.windowWrites_field {o n : Nat} (ho : o + n ≤ 240) :
    (s.windowWrites at_ seq d).getLE (at_ + 16 + o) n = fieldLE (d ++ zeros 240) o n := by
  unfold State.getLE fieldLE
  rw [State.windowWrites_content ha hn hc ho]

theorem State.windowWrites_outside {x : Nat} (hx : ¬ (at_ ≤ x ∧ x < at_ + 256)) : (s.windowWrites at_ seq d).byte x = s.byte x := by
  rw [State.windowWrites_byte ha hn hc, if_neg (by omega), if_neg (by omega)]
end

theorem State.windowWrites_rd (at_ seq : Nat) (d : List Byte) {j : Nat} (hj : ∀ p ∈ memPages, ∀ o < 0x1000, j ≠ rk p o) :
    (s.windowWrites at_ seq d).rd j = s.rd j := by
  unfold State.windowWrites
  rw [State.rd_put hj, State.rd_put hj, State.rd_put hj]

/-- An update is its writes, the new sequence number and the count. -/
theorem State.windowPut_eq (w : Nat) (d : List Byte) : ∃ q, s.windowPut w d =
    ({ s.windowWrites (s.rd64 (rk pgStream 0x118) + 0x100 * w) (SMap.get (fun _ => 0) s.stream.winSeq w) d with
      stream := { s.stream with winSeq := q } } : State).bump (rk pgStream 0x68) := by
  unfold State.windowPut
  dsimp only
  rw [State.put_stream, State.put_stream, State.put_stream]
  exact ⟨_, rfl⟩

section
variable {w : Nat} {d : List Byte}

theorem State.windowPut_byte (x : Nat) : (s.windowPut w d).byte x =
    (s.windowWrites (s.rd64 (rk pgStream 0x118) + 0x100 * w) (SMap.get (fun _ => 0) s.stream.winSeq w) d).byte x := by
  obtain ⟨q, e⟩ := s.windowPut_eq w d
  rw [e, State.bump_byte, State.withStream_byte]

theorem State.windowPut_getLE (x n : Nat) : (s.windowPut w d).getLE x n =
    (s.windowWrites (s.rd64 (rk pgStream 0x118) + 0x100 * w) (SMap.get (fun _ => 0) s.stream.winSeq w) d).getLE x n := by
  unfold State.getLE
  rw [State.bytes_congr State.windowPut_byte]

theorem State.windowPut_winQ : (s.windowPut w d).stream.winQ = s.stream.winQ := by
  obtain ⟨q, e⟩ := s.windowPut_eq w d
  rw [e, State.bump_stream]

/-- An update counts. -/
theorem State.windowPut_count : (s.windowPut w d).rd64 (rk pgStream 0x68) = (s.rd64 (rk pgStream 0x68) + 1) % 2 ^ 64 := by
  have hp {o : Nat} (ho : o < 0x1000) : ∀ p ∈ memPages, ∀ o' < 0x1000, rk pgStream o ≠ rk p o' := by
    intro p hp o' ho'
    simp only [memPages, pgMem, pgCommons, pgSys, List.mem_cons, List.not_mem_nil, or_false] at hp
    simp only [rk, pgStream]
    omega
  obtain ⟨q, e⟩ := s.windowPut_eq w d
  rw [e, State.rd64_bump_self, State.rd64_congr (State.withStream_rd _ _ _) (State.withStream_rd _ _ _),
    State.rd64_congr (k := rk pgStream 0x68) (State.windowWrites_rd _ _ _ (hp (by decide)))
      (State.windowWrites_rd _ _ _ (hp (o := 0x68 + 4) (by decide)))]
end

/-- STREAM's part becomes `st`. -/
def State.setStream (s : State) (st : Stream) : State := { s with stream := st }

section
variable (st : Stream)
theorem State.setStream_stream : (s.setStream st).stream = st := rfl
theorem State.setStream_rd64 (k : Nat) : (s.setStream st).rd64 k = s.rd64 k := rfl
theorem State.setStream_byte (x : Nat) : (s.setStream st).byte x = s.byte x := rfl
theorem State.setStream_memc : (s.setStream st).memc = s.memc := rfl
end

theorem State.resultWindow_of_due {w : Nat} {c : List Byte} {rest : List (Nat × List Byte)} (hr : s.running pgStream = true) (hw : w ≠ 4)
    (hq : s.stream.winQ = (w, c) :: rest) : s.resultWindow w = (s.setStream { s.stream with winQ := rest }).windowPut w c := by
  unfold State.resultWindow
  rw [if_neg (by simp [hr]), if_neg hw, hq, List.find?_cons_of_pos (by simp)]
  dsimp only
  rw [List.erase_cons_head]
  rfl

theorem State.resultWindow4 (hr : s.running pgStream = true) (he : s.bit (rk pgStream 0x120) 4 = true) (hd : s.stream.w4At < s.now / 16) :
    s.resultWindow 4 = (s.setStream { s.stream with w4At := s.stream.w4At + 1 }).windowPut 4 s.window4 := by
  unfold State.resultWindow
  rw [if_neg (by simp [hr]), if_pos rfl, if_pos (by simp [he, hd])]
  rfl

theorem State.window4_fields (ys : List Byte) :
    fieldLE (s.window4 ++ ys) 0 8 = s.time.tb0 % 2 ^ 64 ∧ fieldLE (s.window4 ++ ys) 32 8 = s.now % 2 ^ 64 := by
  have h64 (n : Nat) : n % 256 ^ 8 = n % 2 ^ 64 := by norm_num
  unfold State.window4 State.netBytes
  simp only [List.append_assoc]
  constructor
  · rw [fieldLE_leBytes, h64]
  · rw [fieldLE_leBytes_of_le (by decide), fieldLE_leBytes_of_le (by decide), fieldLE_leBytes_of_le (by decide),
      fieldLE_leBytes_of_le (by decide), fieldLE_leBytes_of_le (by decide), fieldLE_zeros_of_le (by decide)]
    exact (fieldLE_leBytes ..).trans (h64 _)
end
end Sys2Proof.Machine

open Sys2Proof Sys2Proof.Machine in
/-- Settles O17, report by report: the TICK item's fields, the TAP block's offer, and an update's three writes. -/
theorem stepIsReported : Obligations.StepIsReported := by
  unfold Obligations.StepIsReported
  intro s a as w c rest at_ seq hrun
  refine ⟨fun ht hh => ?_, fun hne hd => ?_, fun hq hw hl _ hc ha hn => ?_, fun hw he hd _ hc ha hn => ?_⟩
  · obtain ⟨d, sf, hd, e⟩ := State.tickRecord_eq ht hh
    have hr : ((s.tickTaken a as).1.window 0 d).running pgStream = true := by
      rw [State.window_running]
      exact (State.tickTaken_keeps (fun s => s.running pgStream) (fun s => State.running_congr (by decide) (State.rd_bump_ne _ _ (by decide) (by decide)))
        (fun _ _ => rfl)).trans hrun
    have ho : s.tickRecord.stream.offers = s.stream.offers ++ [tickOffer d a] := by
      rw [e]
      refine (State.offer_offers hr _).trans ?_
      rw [State.window_offers]
      exact congrArg (· ++ [tickOffer d a]) (State.tickTaken_keeps (fun s => s.stream.offers)
        (fun _ => congrArg Stream.offers (State.bump_stream ..)) (fun _ _ => rfl))
    obtain ⟨f0, f8, f16, f20, f24, f28, f32⟩ := State.tickBytes_fields (s := (s.tickTaken a as).1) (a := a) (s.tickTaken a as).2
    obtain ⟨b0, b1, b2⟩ := State.tickStatus_bits (s := (s.tickTaken a as).1) (a := a)
    rw [← hd] at f0 f8 f16 f20 f24 f28 f32
    refine ⟨_, rfl, ?_, fun x => ?_, fun k hk => ?_, ?_, tickOffer d a, ?_, rfl, rfl, f0, f8, f20, f24, f28, f32, ?_, ?_, ?_⟩
    · rw [e]
      refine (congrArg BellUnit.ticks ((State.offer_bell ..).trans ((State.window_bell ..).trans State.tickTaken_bell)) : _ = as)
    · rw [e, State.withSafe_byte, State.offer_byte, State.window_byte]
      exact State.tickTaken_keeps (fun s => s.byte x) (fun _ => State.bump_byte ..) (fun _ _ => rfl)
    · rw [not_mem_wide] at hk
      rw [e, State.withSafe_rd, State.offer_rd, State.window_rd]
      exact State.tickTaken_keeps (fun s => s.rd k) (fun _ => State.rd_bump_ne _ _ hk.1 hk.2) (fun _ _ => rfl)
    · rw [ho, List.take_left]
    · rw [ho, List.drop_left]
      exact List.mem_singleton_self _
    · change (fieldLE d 16 4).testBit 0 = _
      rw [f16, Nat.testBit_mod_two_pow, b0]
      rfl
    · change (fieldLE d 16 4).testBit 1 = _
      rw [f16, Nat.testBit_mod_two_pow, b1]
      rfl
    · change (fieldLE d 16 4).testBit 2 = _
      rw [f16, Nat.testBit_mod_two_pow, b2]
      rfl
  · obtain ⟨fus, e⟩ := State.tapBlockClose_eq hne hd
    refine ⟨_, rfl, ?_⟩
    rw [e]
    refine ⟨State.offer_tap _, fun k _ => (State.offer_rd ..).trans (State.withStream_rd ..),
      fun x => (State.offer_byte ..).trans (State.withStream_byte ..), ?_⟩
    rw [State.offer_offers ((State.withStream_running ..).trans hrun), List.map_append]
    rfl
  · have e := State.resultWindow_of_due hrun hw hq
    obtain ⟨S, hS⟩ : ∃ S, s.setStream { s.stream with winQ := rest } = S := ⟨_, rfl⟩
    have hat : S.rd64 (rk pgStream 0x118) + 0x100 * w.val = at_ := by rw [← hS, State.setStream_rd64]
    have hseq : SMap.get (fun _ => 0) S.stream.winSeq w = seq := by rw [← hS, State.setStream_stream]
    have hc' : S.memc.commonsBad = [] := by rw [← hS, State.setStream_memc, hc]
    have hput (x : Nat) : (S.windowPut w c).byte x = (S.windowWrites at_ seq c).byte x := by
      rw [State.windowPut_byte, hat, hseq]
    refine ⟨_, rfl, ?_⟩
    rw [e, hS]
    refine ⟨?_, ?_, ?_, fun x hx => ?_, ?_⟩
    · rw [State.windowPut_winQ, ← hS, State.setStream_stream]
    · rw [State.windowPut_getLE, hat, hseq, State.windowWrites_control ha hn hc']
    · rw [State.bytes_congr hput]
      refine (State.windowWrites_content (o := 0) ha hn hc' (by omega)).trans ?_
      rw [List.drop_zero, List.take_left]
    · rw [hput, State.windowWrites_outside ha hn hc' hx, ← hS, State.setStream_byte]
    · rw [State.windowPut_count, ← hS, State.setStream_rd64]
  · have e := State.resultWindow4 hrun he hd
    rw [← hw] at e
    obtain ⟨S, hS⟩ : ∃ S, s.setStream { s.stream with w4At := s.stream.w4At + 1 } = S := ⟨_, rfl⟩
    have hat : S.rd64 (rk pgStream 0x118) + 0x100 * w.val = at_ := by rw [← hS, State.setStream_rd64]
    have hseq : SMap.get (fun _ => 0) S.stream.winSeq w = seq := by rw [← hS, State.setStream_stream]
    have hc' : S.memc.commonsBad = [] := by rw [← hS, State.setStream_memc, hc]
    obtain ⟨h0, h32⟩ := State.window4_fields (s := s) (zeros 240)
    refine ⟨_, rfl, ?_⟩
    rw [e, hS]
    refine ⟨?_, ?_, ?_, fun x hx => ?_⟩
    · rw [State.windowPut_getLE, hat, hseq, State.windowWrites_control ha hn hc']
    · rw [State.windowPut_getLE, hat, hseq]
      exact (State.windowWrites_field (o := 0) ha hn hc' (by decide)).trans h0
    · rw [State.windowPut_getLE, hat, hseq]
      exact (State.windowWrites_field (o := 32) ha hn hc' (by decide)).trans h32
    · rw [State.windowPut_byte, hat, hseq, State.windowWrites_outside ha hn hc' hx, ← hS, State.setStream_byte]
end

