-- ==== Sys2Proof/Proofs/Monitors.lean ====
section
/-! The clock, rail, temperature and HEALTHY monitors, PLL locks and die-to-die links (R15, R390, R395 to R397, R400, R430, R481). Settles O46. -/

namespace Sys2Proof.Machine
section
variable {s : State}

/-! ### Pins and conditions -/

/-- A view that SAFE's second look at its conditions spares: it writes the status registers of `ks`, SAFE's events, and what the pins wait for. -/
structure ShowSpares {β : Type} (ks : List Nat) (f : State → β) : Prop where
  wrN : ∀ s k v, k ∈ ks → f (State.wrN s (rk pgSafe k) v) = f s
  event : ∀ s b, f (State.event s pgSafe b) = f s
  clean : ∀ (s : State) c, f { s with safe := { s.safe with clean := c } } = f s

section
variable {β : Type} {ks : List Nat} {f : State → β} (hf : ShowSpares ks f)
include hf

theorem ShowSpares.setPin (h4 : 0x104 ∈ ks) (h : Nat) (v : Bool) : f (s.setPin h v) = f s := by
  unfold State.setPin
  split
  · rfl
  · rw [hf.event]
    exact hf.wrN _ _ _ h4

theorem ShowSpares.pinJudge (h4 : 0x104 ∈ ks) (h : Nat) : f (s.pinJudge h) = f s := by
  unfold State.pinJudge
  dsimp only
  split
  · rw [hf.setPin h4, hf.clean]
  · split
    · rfl
    · exact hf.clean _ _
end

/-- The first half of SAFE's second look: SAFE_COND. -/
def State.condShown (s : State) : State :=
  if s.safeCond = s.rdN (rk pgSafe 0x108) then s else (s.wrN (rk pgSafe 0x108) s.safeCond).event pgSafe 3
/-- The second: SAFE_COND_PAGE and DEGRADED. -/
def State.pageShown (s : State) : State :=
  let s := match s.badSettings with
    | [] => s.setBit (rk pgSafe 0x10C) 31 false
    | p :: _ => if s.bit (rk pgSafe 0x10C) 31 then s else s.wrN (rk pgSafe 0x10C) (0x80000000 + p)
  let d := s.degraded
  let s := if d && !s.bit (rk pgSafe 0x104) 3 then s.event pgSafe 6 else s
  s.setBit (rk pgSafe 0x104) 3 d

theorem State.safeShow_eq : s.safeShow = (s.condShown.pageShown.pinJudge 0).pinJudge 1 := rfl

theorem ShowSpares.condShown {β : Type} {ks : List Nat} {f : State → β} (hf : ShowSpares ks f) (h8 : 0x108 ∈ ks) : f s.condShown = f s := by
  unfold State.condShown
  split
  · rfl
  · rw [hf.event, hf.wrN _ _ _ h8]

theorem ShowSpares.pageShown {β : Type} {ks : List Nat} {f : State → β} (hf : ShowSpares ks f) (h4 : 0x104 ∈ ks) (hC : 0x10C ∈ ks) :
    f s.pageShown = f s := by
  unfold State.pageShown
  extract_lets s1 d s2
  have e1 : f s1 = f s := by
    unfold s1
    split
    · exact hf.wrN _ _ _ hC
    · split
      · rfl
      · exact hf.wrN _ _ _ hC
  have e2 : f s2 = f s := by
    unfold s2
    split
    · rw [hf.event, e1]
    · exact e1
  exact (hf.wrN _ _ _ h4).trans e2

theorem ShowSpares.safeShow {β : Type} {f : State → β} (hf : ShowSpares [0x104, 0x108, 0x10C] f) : f s.safeShow = f s := by
  rw [State.safeShow_eq, hf.pinJudge (by decide), hf.pinJudge (by decide), hf.pageShown (by decide) (by decide), hf.condShown (by decide)]

theorem showSpares_byte (ks : List Nat) (a : Nat) : ShowSpares ks (fun s => s.byte a) where
  wrN _ _ _ _ := State.wrN_byte ..
  event _ _ := State.event_byte ..
  clean _ _ := State.withSafe_byte ..

theorem showSpares_inbox (ks : List Nat) : ShowSpares ks (fun s => s.safe.inbox) where
  wrN _ _ _ _ := rfl
  event _ _ := congrArg Safe.inbox (State.event_safe ..)
  clean _ _ := rfl

theorem showSpares_rd {ks : List Nat} {j : Nat} (h : ∀ k ∈ 0x14 :: ks, j ≠ rk pgSafe k) : ShowSpares ks (fun s => s.rd j) where
  wrN _ _ _ hk := State.rd_wrN_ne _ _ (h _ (List.mem_cons_of_mem _ hk))
  event _ _ := State.rd_event_ne _ (h _ List.mem_cons_self)
  clean _ _ := State.withSafe_rd ..

theorem State.safeCond_lt : s.safeCond < 64 := by
  unfold State.safeCond
  dsimp only
  have h (v : Bool) (k : Nat) : (if v then 2 ^ k else 0) ≤ 2 ^ k := by
    cases v
    · exact Nat.zero_le _
    · exact le_rfl
  have h0 := h (s.rdN (rk pgSafe 0x148) != 0) 0
  have h1 := h (!s.bit (rk pgPwr 0x130) 0) 1
  have h2 := h (s.pwrState != 0 || s.pwr.stage != .idle) 2
  have h3 := h s.lifecycleFails 3
  have h4 := h (!s.badSettings.isEmpty) 4
  have h5 := h (!s.bit (rk pgSafe 0x100) 0) 5
  omega

/-- SUPPLY is the condition's lowest bit (R386). -/
theorem State.safeCond_supply : s.safeCond.testBit 0 = (s.rdN (rk pgSafe 0x148) != 0) := by
  have hs (v : Bool) (k : Nat) : (if v then 2 ^ (1 + k) else 0) = 2 * (if v then 2 ^ k else 0) := by
    rw [mul_ite, mul_zero, Nat.pow_add, Nat.pow_one]
  unfold State.safeCond
  dsimp only
  rw [hs _ 0, hs _ 1, hs _ 2, hs _ 3, hs _ 4]
  simp only [Nat.testBit_zero]
  cases s.rdN (rk pgSafe 0x148) != 0
  · simp only [Bool.false_eq_true, if_false]
    exact decide_eq_false (by omega)
  · simp only [if_true]
    exact decide_eq_true (by omega)

theorem State.noCause_of_rail (h : s.rdN (rk pgSafe 0x148) ≠ 0) (p : Nat) : s.noCause p = false := by
  have hb : s.safeCond.testBit 0 = true := by
    rw [State.safeCond_supply]
    simpa using h
  have hp : (putBits s.safeCond 3 3 0).testBit 0 = true := by
    rw [testBit_putBits _ _ _ _ _ (by decide), if_neg (by omega), hb]
  have hne {n : Nat} (h : n.testBit 0 = true) : (n == 0) = false := by
    cases n with
    | zero => simp at h
    | succ n => rfl
  unfold State.noCause
  dsimp only
  split
  · rw [hne hp, Bool.false_and, Bool.false_and]
  · rw [hne hb, Bool.false_and, Bool.false_and]

theorem State.setPin_bit_self (h : Nat) (v : Bool) (hh : h < 32) : (s.setPin h v).bit (rk pgSafe 0x104) h = v := by
  unfold State.setPin
  split
  · rename_i e
    exact beq_iff_eq.1 e
  · rw [State.bit_congr (State.rd_event_ne _ (by decide)), State.bit_setBit _ _ _ _ _ _ hh, if_pos ⟨rfl, rfl⟩]

theorem State.setPin_bit_ne {h g : Nat} (hg : g ≠ h) (hh : h < 32) (v : Bool) :
    (s.setPin h v).bit (rk pgSafe 0x104) g = s.bit (rk pgSafe 0x104) g := by
  unfold State.setPin
  split
  · rfl
  · rw [State.bit_congr (State.rd_event_ne _ (by decide)), State.bit_setBit _ _ _ _ _ _ hh, if_neg (fun e => hg e.2)]

/-- A change of a pin is an event. -/
theorem State.setPin_event {h : Nat} (hh : h < 2) {v : Bool} (hv : s.bit (rk pgSafe 0x104) h ≠ v) :
    (s.setPin h v).bit (rk pgSafe 0x14) (1 + h) = true := by
  unfold State.setPin
  rw [if_neg (by simpa using hv)]
  exact State.bit_event_self _ _ _ (by omega)

theorem State.withSafe_bit (s : State) (sf : Safe) (k b : Nat) : ({ s with safe := sf } : State).bit k b = s.bit k b := rfl

theorem State.pinJudge_bit_ne {h g : Nat} (hg : g ≠ h) (hh : h < 32) :
    (s.pinJudge h).bit (rk pgSafe 0x104) g = s.bit (rk pgSafe 0x104) g := by
  unfold State.pinJudge
  dsimp only
  split
  · rw [State.setPin_bit_ne hg hh, State.withSafe_bit]
  · split
    · rfl
    · exact State.withSafe_bit ..

/-- A pin that is low, or has a cause, is low after it is judged. -/
theorem State.pinJudge_low {h : Nat} (hh : h < 32) (hl : s.noCause h = false ∨ s.bit (rk pgSafe 0x104) h = false) :
    (s.pinJudge h).bit (rk pgSafe 0x104) h = false := by
  unfold State.pinJudge
  dsimp only
  split
  · exact State.setPin_bit_self _ _ hh
  · rename_i hc
    have hb : s.bit (rk pgSafe 0x104) h = false := hl.resolve_left (by simpa using hc)
    split
    · exact hb
    · exact (State.withSafe_bit ..).trans hb

/-- An event that stands before a pin is judged stands after. -/
theorem State.pinJudge_event {h b : Nat} (hh : h < 2) (hb : s.bit (rk pgSafe 0x14) b = true) : (s.pinJudge h).bit (rk pgSafe 0x14) b = true := by
  have key (t : State) (ht : t.bit (rk pgSafe 0x14) b = true) (v : Bool) : (t.setPin h v).bit (rk pgSafe 0x14) b = true := by
    unfold State.setPin
    split
    · exact ht
    · rw [State.bit_event _ _ _ _ _ (by omega), State.bit_congr (State.rd_setBit_ne _ _ _ (by decide)), ht, Bool.or_true]
  unfold State.pinJudge
  dsimp only
  split
  · exact key _ ((State.withSafe_bit ..).trans hb) _
  · split
    · exact hb
    · exact (State.withSafe_bit ..).trans hb

/-! ### The rail monitor -/

/-- SAFE has taken a rail's trip. -/
def State.railTaken (s : State) (n : Nat) (above : Bool) : State :=
  ((s.setBit (rk pgSafe 0x148) n true).bump (rk pgSafe 0x70)).toSafe 3 pgPwr (if above then 2 else 1) n

section
variable {n : Nat} {above : Bool}

theorem State.railTrip_of_trips (h : s.bit (rk pgPwr 0x128) n = true) (hn : ¬ (n = 2 ∧ (s.margin = 1 ∨ s.margin = 3))) :
    s.railTrip n above = (s.railTaken n above).safeShow := by
  unfold State.railTrip
  rw [if_neg]
  · rfl
  · simpa [h] using hn

theorem State.railTrip_of_not (h : ¬ (s.bit (rk pgPwr 0x128) n = true ∧ ¬ (n = 2 ∧ (s.margin = 1 ∨ s.margin = 3)))) :
    s.railTrip n above = s := by
  unfold State.railTrip
  rw [if_pos]
  simp only [Bool.or_eq_true, Bool.not_eq_true', Bool.and_eq_true, decide_eq_true_eq]
  by_contra hc
  simp only [not_or, Bool.not_eq_false] at hc
  exact h hc

theorem State.railTaken_bit (hn : n < 32) : (s.railTaken n above).bit (rk pgSafe 0x148) n = true := by
  unfold State.railTaken
  rw [State.toSafe_bit, State.bit_congr (State.rd_bump_ne _ _ (by decide) (by decide)), State.bit_setBit _ _ _ _ _ _ hn, if_pos ⟨rfl, rfl⟩]

theorem State.railTaken_count : (s.railTaken n above).rd64 (rk pgSafe 0x70) = (s.rd64 (rk pgSafe 0x70) + 1) % 2 ^ 64 := by
  unfold State.railTaken
  rw [State.toSafe_rd64, State.rd64_bump_self, State.rd64_congr (State.rd_setBit_ne _ _ _ (by decide)) (State.rd_setBit_ne _ _ _ (by decide))]

theorem State.railTaken_rd {j : Nat} (h1 : j ≠ rk pgSafe 0x148) (h2 : j ≠ rk pgSafe 0x70) (h3 : j ≠ rk pgSafe 0x70 + 4) :
    (s.railTaken n above).rd j = s.rd j := by
  unfold State.railTaken
  rw [State.toSafe_rd, State.rd_bump_ne _ _ h2 h3, State.rd_setBit_ne _ _ _ h1]

theorem State.railTaken_byte (a : Nat) : (s.railTaken n above).byte a = s.byte a := by
  unfold State.railTaken
  rw [State.toSafe_byte, State.bump_byte, State.setBit_byte]

theorem State.toSafe_inbox (src p b i : Nat) : (s.toSafe src p b i).safe.inbox = s.safe.inbox ++
    [{ source := src, page := p, bit := b, inst := i, fus := s.now, step := s.bell.step }] := rfl

theorem State.railTaken_inbox : (s.railTaken n above).safe.inbox = s.safe.inbox ++
    [{ source := 3, page := pgPwr, bit := if above then 2 else 1, inst := n, fus := s.now, step := s.bell.step }] := by
  unfold State.railTaken
  rw [State.toSafe_inbox]
  simp [State.now]

/-- SAFE_COND shows its conditions once SAFE has looked. -/
theorem State.safeShow_cond : s.safeShow.rdN (rk pgSafe 0x108) = s.safeCond := by
  have hs : ShowSpares [0x104, 0x10C] (fun s => s.rd (rk pgSafe 0x108)) := showSpares_rd (by decide)
  have e : s.safeShow.rd (rk pgSafe 0x108) = s.condShown.rd (rk pgSafe 0x108) := by
    rw [State.safeShow_eq]
    exact (hs.pinJudge (by decide) 1).trans ((hs.pinJudge (by decide) 0).trans (hs.pageShown (by decide) (by decide)))
  rw [State.rdN_congr e]
  unfold State.condShown
  split
  · rename_i h
    exact h.symm
  · rw [State.rdN_congr (State.rd_event_ne _ (by decide)), State.rdN_wrN, if_pos rfl]
    exact Nat.mod_eq_of_lt (lt_trans State.safeCond_lt (by decide))

/-- Both pins are low where a rail's trip stands. -/
theorem State.safeShow_pins (h : s.rdN (rk pgSafe 0x148) ≠ 0) (p : Fin 2) : s.safeShow.bit (rk pgSafe 0x104) p = false := by
  have hs : ShowSpares [0x104, 0x108, 0x10C] (fun s => s.rd (rk pgSafe 0x148)) := showSpares_rd (by decide)
  have h1 : s.condShown.pageShown.rdN (rk pgSafe 0x148) ≠ 0 := by
    rwa [State.rdN_congr ((hs.pageShown (by decide) (by decide)).trans (hs.condShown (by decide)))]
  have h2 : (s.condShown.pageShown.pinJudge 0).rdN (rk pgSafe 0x148) ≠ 0 := by
    rwa [State.rdN_congr (hs.pinJudge (by decide) 0)]
  rw [State.safeShow_eq]
  match p with
  | 0 =>
    refine (State.pinJudge_bit_ne (by decide) (by decide)).trans ?_
    exact State.pinJudge_low (by decide) (Or.inl (State.noCause_of_rail h1 0))
  | 1 => exact State.pinJudge_low (by decide) (Or.inl (State.noCause_of_rail h2 1))

/-- A register that shows a bit is not 0. -/
theorem State.rdN_ne_zero_of_bit {k b : Nat} (h : s.bit k b = true) : s.rdN k ≠ 0 := by
  intro e
  unfold State.bit at h
  rw [e] at h
  simp at h
end

/-! ### The clock monitor -/

/-- The registers that a window of the clock monitor can write. -/
def clkKeys : List Nat := (List.range 22).map (fun d => rk pgClk (0x200 + 4 * d)) ++ [0x144, 0x68, 0x6C].map (rk pgSafe)

theorem ne_of_notMem_clkKeys {j : Nat} (hj : j ∉ clkKeys) : (∀ d < 22, j ≠ rk pgClk (0x200 + 4 * d)) ∧ j ≠ rk pgSafe 0x144 ∧
    j ≠ rk pgSafe 0x68 ∧ j ≠ rk pgSafe 0x68 + 4 := by
  refine ⟨fun d hd e => hj ?_, fun e => hj ?_, fun e => hj ?_, fun e => hj ?_⟩
  · rw [e]
    exact List.mem_append_left _ (List.mem_map_of_mem (List.mem_range.2 hd))
  · rw [e]
    decide
  · rw [e]
    decide
  · rw [e]
    decide

/-- Whether a measured frequency lies more than 5 % off the one set for a domain. -/
def State.far (s : State) (d f : Nat) : Bool := decide (s.setKhz d < 20 * (f - s.setKhz d)) || decide (s.setKhz d < 20 * (s.setKhz d - f))

theorem State.far_iff (d f : Nat) : s.far d f = true ↔ 20 * f < 19 * s.setKhz d ∨ 21 * s.setKhz d < 20 * f := by
  unfold State.far
  simp only [Bool.or_eq_true, decide_eq_true_eq]
  omega

/-- The windows beyond 5 % that a domain has behind it. -/
def State.runOf (s : State) (d : Nat) : Nat := SMap.get (fun _ => 0) s.safe.clkRun d
def State.nextRun (s : State) (d : Nat) (k : Option Nat) : Nat :=
  if k.isNone then 2 else if s.far d (k.getD 0) then min 2 (s.runOf d + 1) else 0

/-- A domain's window, before a failure is latched. -/
def State.clockShown (s : State) (d : Nat) (k : Option Nat) : State :=
  { s.wrN (rk pgClk (0x200 + 4 * d)) (k.getD 0) with
    safe := { s.safe with clkRun := SMap.set (fun _ => 0) s.safe.clkRun d (s.nextRun d k) } }

/-- A domain's failure is latched, counted and received. -/
def State.clockFailed (s : State) (d : Nat) (k : Option Nat) : State :=
  ((s.setBit (rk pgSafe 0x144) d true).bump (rk pgSafe 0x68)).toSafe 2 (clkPage d) (if k.isNone then 2 else 1) d

theorem State.clockWindow_of_watched {d : Nat} (h : s.watched d = true) (k : Option Nat) : s.clockWindow d k =
    if s.nextRun d k = 2 ∧ s.runOf d ≠ 2 then (s.clockShown d k).clockFailed d k else s.clockShown d k := by
  unfold State.clockWindow
  rw [if_neg (by simp [h])]
  have hc (a b : Nat) : (decide (a = 2) && decide (b ≠ 2)) = decide (a = 2 ∧ b ≠ 2) := by simp
  dsimp only
  rw [hc]
  by_cases hb : s.nextRun d k = 2 ∧ s.runOf d ≠ 2
  · rw [if_pos hb]
    exact if_pos (decide_eq_true hb)
  · rw [if_neg hb]
    exact if_neg (fun h => hb (of_decide_eq_true h))

theorem State.clockWindow_of_not {d : Nat} (h : s.watched d = false) (k : Option Nat) : s.clockWindow d k = s := by
  unfold State.clockWindow
  rw [if_pos (by simp [h])]

section
variable (e d : Nat) (k : Option Nat) (a j : Nat)
theorem State.clockShown_byte : (s.clockShown d k).byte a = s.byte a := (State.withSafe_byte ..).trans (State.wrN_byte ..)
theorem State.clockShown_rd : (s.clockShown d k).rd j = (s.wrN (rk pgClk (0x200 + 4 * d)) (k.getD 0)).rd j := State.withSafe_rd ..
theorem State.clockShown_pwr : (s.clockShown d k).pwr = s.pwr := rfl
theorem State.clockShown_inbox : (s.clockShown d k).safe.inbox = s.safe.inbox := rfl
theorem State.clockShown_runOf : (s.clockShown d k).runOf e = if e = d then s.nextRun d k else s.runOf e := SMap.get_set ..
theorem State.clockFailed_byte : (s.clockFailed d k).byte a = s.byte a := by
  unfold State.clockFailed
  rw [State.toSafe_byte, State.bump_byte, State.setBit_byte]
theorem State.clockFailed_rd {j : Nat} (h1 : j ≠ rk pgSafe 0x144) (h2 : j ≠ rk pgSafe 0x68) (h3 : j ≠ rk pgSafe 0x68 + 4) :
    (s.clockFailed d k).rd j = s.rd j := by
  unfold State.clockFailed
  rw [State.toSafe_rd, State.rd_bump_ne _ _ h2 h3, State.rd_setBit_ne _ _ _ h1]
theorem State.clockFailed_bit (hd : d < 32) :
    (s.clockFailed d k).bit (rk pgSafe 0x144) e = if e = d then true else s.bit (rk pgSafe 0x144) e := by
  unfold State.clockFailed
  rw [State.toSafe_bit, State.bit_congr (State.rd_bump_ne _ _ (by decide) (by decide)), State.bit_setBit _ _ _ _ _ _ hd]
  simp
theorem State.clockFailed_pwr : (s.clockFailed d k).pwr = s.pwr := by
  unfold State.clockFailed
  rw [State.toSafe_pwr, State.bump_pwr, State.setBit_pwr]
theorem State.toSafe_runOf (src p b i : Nat) : (s.toSafe src p b i).runOf e = s.runOf e := rfl
theorem State.clockFailed_runOf : (s.clockFailed d k).runOf e = s.runOf e := by
  unfold State.clockFailed
  rw [State.toSafe_runOf]
  unfold State.runOf
  rw [State.bump_safe, State.setBit_safe]
theorem State.clockFailed_inbox : ∃ f : FaultIn, f.source = 2 ∧ f.inst = d ∧ (s.clockFailed d k).safe.inbox = s.safe.inbox ++ [f] := by
  refine ⟨{ source := 2, page := clkPage d, bit := if k.isNone then 2 else 1, inst := d, fus := s.now, step := s.bell.step }, rfl, rfl, ?_⟩
  unfold State.clockFailed
  rw [State.toSafe_inbox]
  simp [State.now]
end

/-- What the windows of other domains keep for domain `d`: its own registers and run, and all that is not the monitor's. -/
structure DomainKept (d : Nat) (s t : State) : Prop where
  rd : ∀ j ∉ clkKeys, t.rd j = s.rd j
  shown : t.rd (rk pgClk (0x200 + 4 * d)) = s.rd (rk pgClk (0x200 + 4 * d))
  bit : t.bit (rk pgSafe 0x144) d = s.bit (rk pgSafe 0x144) d
  run : t.runOf d = s.runOf d
  pwr : t.pwr = s.pwr
  byte : ∀ a, t.byte a = s.byte a
  inbox : ∀ f ∈ s.safe.inbox, f ∈ t.safe.inbox

theorem DomainKept.refl (d : Nat) (s : State) : DomainKept d s s :=
  ⟨fun _ _ => rfl, rfl, rfl, rfl, rfl, fun _ => rfl, fun _ h => h⟩

theorem DomainKept.trans {d : Nat} {s t u : State} (h : DomainKept d s t) (h' : DomainKept d t u) : DomainKept d s u :=
  ⟨fun j hj => (h'.rd j hj).trans (h.rd j hj), h'.shown.trans h.shown, h'.bit.trans h.bit, h'.run.trans h.run, h'.pwr.trans h.pwr,
    fun a => (h'.byte a).trans (h.byte a), fun f hf => h'.inbox f (h.inbox f hf)⟩

/-- A window of one domain, in all but that domain's own view. -/
theorem State.clockWindow_kept {e d : Nat} (he : e < 22) (hd : d < 22) (hne : d ≠ e) (k : Option Nat) : DomainKept d s (s.clockWindow e k) := by
  have hk : rk pgClk (0x200 + 4 * d) ≠ rk pgClk (0x200 + 4 * e) := by
    unfold rk
    omega
  have hs : DomainKept d s (s.clockShown e k) := by
    refine ⟨fun j hj => ?_, ?_, ?_, ?_, State.clockShown_pwr .., fun a => State.clockShown_byte .., fun f hf => ?_⟩
    · rw [State.clockShown_rd, State.rd_wrN_ne _ _ ((ne_of_notMem_clkKeys hj).1 e he)]
    · rw [State.clockShown_rd, State.rd_wrN_ne _ _ hk]
    · refine State.bit_congr ((State.clockShown_rd ..).trans (State.rd_wrN_ne _ _ ?_)) _
      simp only [rk, pgClk, pgSafe]
      omega
    · rw [State.clockShown_runOf, if_neg hne]
    · rw [State.clockShown_inbox]
      exact hf
  have hf (t : State) : DomainKept d t (t.clockFailed e k) := by
    obtain ⟨f, -, -, hbox⟩ := t.clockFailed_inbox e k
    refine ⟨fun j hj => ?_, ?_, ?_, State.clockFailed_runOf .., State.clockFailed_pwr .., fun a => State.clockFailed_byte .., fun g hg => ?_⟩
    · obtain ⟨-, h1, h2, h3⟩ := ne_of_notMem_clkKeys hj
      exact State.clockFailed_rd _ _ h1 h2 h3
    · refine State.clockFailed_rd _ _ ?_ ?_ ?_ <;> simp only [rk, pgClk, pgSafe] <;> omega
    · rw [State.clockFailed_bit _ _ _ (by omega), if_neg hne]
    · rw [hbox]
      exact List.mem_append_left _ hg
  cases hw : s.watched e with
  | false =>
    rw [State.clockWindow_of_not hw]
    exact DomainKept.refl d s
  | true =>
    rw [State.clockWindow_of_watched hw]
    split
    · exact hs.trans (hf _)
    · exact hs

theorem State.watched_congr {s t : State} {d : Nat} (h : ∀ j ∉ clkKeys, t.rd j = s.rd j) (hp : t.pwr = s.pwr) : t.watched d = s.watched d := by
  unfold State.watched State.roundsRun State.pwrState
  rw [hp, State.fld_congr (h _ (by decide)), State.bit_congr (h (rk pgClk 0x100) (by decide)), State.bit_congr (h (rk pgClk 0x104) (by decide))]

theorem State.setKhz_congr {s t : State} {d : Nat} (h : ∀ j ∉ clkKeys, t.rd j = s.rd j) : t.setKhz d = s.setKhz d := by
  have he : ∀ e < 6, rk (pgEng e) 0x100 ∉ clkKeys := by decide
  unfold State.setKhz State.engFreq State.margin
  split
  · rename_i hd
    simp only [Bool.and_eq_true, decide_eq_true_eq] at hd
    rw [State.fld_congr (h _ (he (d - 2) (by omega))), State.fld_congr (h (rk (pgEng 4) 0x128) (by decide)),
      State.fld_congr (h (rk (pgEng 4) 0x12C) (by decide)), State.fld_congr (h (rk pgClk 0x108) (by decide))]
  · rfl

theorem State.nextRun_congr {s t : State} {d : Nat} (h : DomainKept d s t) (k : Option Nat) : t.nextRun d k = s.nextRun d k := by
  unfold State.nextRun State.far
  rw [State.setKhz_congr h.rd, h.run]

/-- A domain's part in a window of the monitor. -/
def State.clockStep (khz : List (Option Nat)) (s : State) (d : Nat) : State :=
  match khz[d]? with
  | some k => s.clockWindow d k
  | none => s

theorem State.clockSteps_kept {d : Nat} (hd : d < 22) {khz : List (Option Nat)} {l : List Nat} (hl : ∀ e ∈ l, e < 22 ∧ d ≠ e) (s : State) :
    DomainKept d s (l.foldl (State.clockStep khz) s) := by
  refine List.foldlRecOn (motive := DomainKept d s) l _ (DomainKept.refl d s) (fun t ht e he => ht.trans ?_)
  obtain ⟨h1, h2⟩ := hl e he
  unfold State.clockStep
  split
  · exact State.clockWindow_kept h1 hd h2 _
  · exact DomainKept.refl d t

/-- The monitor's window is open: what it noted of the time. -/
def State.clockOpen (s : State) : State := { s with safe := { s.safe with clkAt := s.nsNow / 2000 + 1 } }

theorem State.clockOpen_kept (d : Nat) : DomainKept d s s.clockOpen :=
  ⟨fun _ _ => State.withSafe_rd .., State.withSafe_rd .., State.withSafe_bit .., rfl, rfl, fun _ => State.withSafe_byte .., fun _ h => h⟩

theorem State.clockMonitor_late {khz : List (Option Nat)} (h : s.nsNow / 2000 < s.safe.clkAt) : s.clockMonitor khz = s := by
  unfold State.clockMonitor
  rw [if_pos h]

/-- A window of the monitor, seen from one domain: its own step between states that keep it. -/
theorem State.clockMonitor_split {khz : List (Option Nat)} (h : s.safe.clkAt ≤ s.nsNow / 2000) (d : Fin 22) :
    ∃ t u, DomainKept d s t ∧ u = State.clockStep khz t d ∧ DomainKept d u (s.clockMonitor khz) := by
  obtain ⟨l1, l2, hl⟩ := List.append_of_mem (List.mem_range.2 d.isLt)
  have hnd : (l1 ++ d.val :: l2).Nodup := hl ▸ List.nodup_range
  have hlt (e : Nat) (he : e ∈ l1 ++ d.val :: l2) : e < 22 := List.mem_range.1 (hl ▸ he)
  rw [List.nodup_middle, List.nodup_cons, List.mem_append, not_or] at hnd
  obtain ⟨⟨hn1, hn2⟩, -⟩ := hnd
  have e : s.clockMonitor khz = (List.range 22).foldl (State.clockStep khz) s.clockOpen := by
    unfold State.clockMonitor
    rw [if_neg (by omega)]
    rfl
  rw [e, hl, List.foldl_append, List.foldl_cons]
  refine ⟨_, _, (s.clockOpen_kept d).trans (State.clockSteps_kept d.isLt (fun e he => ?_) _), rfl, State.clockSteps_kept d.isLt (fun e he => ?_) _⟩
  · exact ⟨hlt e (List.mem_append_left _ he), fun h => hn1 (h ▸ he)⟩
  · exact ⟨hlt e (List.mem_append_right _ (List.mem_cons_of_mem _ he)), fun h => hn2 (h ▸ he)⟩


/-! ### The temperatures -/

section
variable (p : Int × Int) (ps : List (Int × Int))

/-- The hottest reading of a sample, and the largest difference in a pair. -/
def hottest : Int := ps.foldl (fun m e => max m (max e.1 e.2)) (max p.1 p.2)
def widest : Nat := ps.foldl (fun m e => max m (e.1 - e.2).natAbs) (p.1 - p.2).natAbs

/-- A pair's sample in all that is not its own. -/
theorem State.tempPair_keeps {β : Type} (f : State → β) (h1 : ∀ (s : State) r, f { s with safe := { s.safe with tempRun := r } } = f s)
    (h2 : ∀ (s : State) r, f { s with safe := { s.safe with tempBad := r } } = f s)
    (h3 : ∀ s, f (State.bump s (rk pgSafe 0x78)) = f s) (h4 : ∀ s i, f (State.toSafe s 4 pgSafe 1 i) = f s) (i : Nat) (a b : Int) :
    f (s.tempPair i a b) = f s := by
  unfold State.tempPair
  extract_lets n _ s1
  have e1 : f s1 = f s := h1 s _
  clear_value s1
  split
  · rw [h4, h3, h2, e1]
  · exact e1

/-- The state in which the pairs of a sample have been compared. -/
def State.pairsCompared (s : State) : State :=
  ((p :: ps).zip (List.range (ps.length + 1))).foldl (fun s e => s.tempPair e.2 e.1.1 e.1.2)
    { s with safe := { s.safe with tempAt := s.nsNow / 5000 + 1 } }

/-- The state in which SAFE_TEMP shows a sample. -/
def State.tempShown (s : State) : State :=
  let t := s.pairsCompared p ps
  ({ t with safe := { t.safe with hot := hottest p ps } } : State).wrN (rk pgSafe 0x14C)
    (temp8 (hottest p ps) + min 255 (widest p ps) * 256 + t.safe.tempBad.length % 256 * 65536)

/-- Each hub shows a reading of its own. -/
def State.hubsRead (s : State) : State :=
  [0, 1].foldl (fun s h =>
    let (w, s) := s.draw
    s.wrN (rk (pgHub h) 0x104) (w.toNat % 256)) s

variable {p ps}

theorem State.tempSample_late (h : s.nsNow / 5000 < s.safe.tempAt) : s.tempSample (p :: ps) = s := by
  unfold State.tempSample
  dsimp only
  rw [if_pos (by simp [h])]

theorem hottest_eq : (p :: ps).foldl (fun m e => max m (max e.1 e.2)) p.1 = hottest p ps := by
  rw [List.foldl_cons, ← max_assoc, max_self]
  rfl
theorem widest_eq : (p :: ps).foldl (fun m e => max m (e.1 - e.2).natAbs) 0 = widest p ps := by
  rw [List.foldl_cons, Nat.zero_max]
  rfl

theorem State.tempSample_eq (h1 : ¬ (s.pwr.stage = .stopped ∧ s.depth = 3)) (h2 : s.safe.tempAt ≤ s.nsNow / 5000) (h3 : hottest p ps < 110) :
    s.tempSample (p :: ps) = (s.tempShown p ps).hubsRead := by
  have hc : ¬ ((decide (s.pwr.stage = .stopped) && decide (s.depth = 3)) || decide (s.nsNow / 5000 < s.safe.tempAt)) = true := by
    simp only [Bool.or_eq_true, Bool.and_eq_true, decide_eq_true_eq, not_or]
    exact ⟨h1, Nat.not_lt.2 h2⟩
  unfold State.tempSample
  dsimp only
  rw [if_neg hc, hottest_eq, widest_eq, if_neg (by omega)]
  rfl

theorem State.hubsRead_keeps {β : Type} (f : State → β) (h1 : ∀ (s : State) c, f { s with freeCtr := c } = f s)
    (h2 : ∀ s h v, h < 2 → f (State.wrN s (rk (pgHub h) 0x104) v) = f s) : f s.hubsRead = f s :=
  foldl_keeps_of_mem f _ (fun s h hh => (h2 _ h _ (by
    simp only [List.mem_cons, List.not_mem_nil, or_false] at hh
    omega)).trans (h1 s _)) s

theorem State.pairsCompared_keeps {β : Type} (f : State → β) (h1 : ∀ (s : State) sf, f { s with safe := sf } = f s)
    (h2 : ∀ s, f (State.bump s (rk pgSafe 0x78)) = f s) : f (s.pairsCompared p ps) = f s := by
  have hp (s : State) (e : (Int × Int) × Nat) : f (s.tempPair e.2 e.1.1 e.1.2) = f s :=
    State.tempPair_keeps f (fun _ _ => h1 _ _) (fun _ _ => h1 _ _) h2 (fun s _ => h1 s _) _ _ _
  unfold State.pairsCompared
  exact (foldl_keeps f _ hp _ _).trans (h1 _ _)

theorem State.tempShown_keeps {β : Type} (f : State → β) (h1 : ∀ (s : State) sf, f { s with safe := sf } = f s)
    (h2 : ∀ s, f (State.bump s (rk pgSafe 0x78)) = f s) (h3 : ∀ s v, f (State.wrN s (rk pgSafe 0x14C) v) = f s) : f (s.tempShown p ps) = f s := by
  unfold State.tempShown
  dsimp only
  exact (h3 _ _).trans ((h1 _ _).trans (State.pairsCompared_keeps f h1 h2))

theorem State.withFree_byte (s : State) (c : Nat) (a : Nat) : ({ s with freeCtr := c } : State).byte a = s.byte a := rfl
theorem State.withFree_rd (s : State) (c : Nat) (k : Nat) : ({ s with freeCtr := c } : State).rd k = s.rd k := rfl

theorem State.tempShown_hot : (s.tempShown p ps).safe.hot = hottest p ps := by
  unfold State.tempShown
  dsimp only
  rw [State.wrN_safe]

theorem temp8_of_lt {t : Int} (h : t < 110) : temp8 t = ofSigned 8 (max (-128) t) := by
  unfold temp8
  rw [min_eq_right (by omega)]

theorem ofSigned_lt (w : Nat) (i : Int) : ofSigned w i < 2 ^ w := by
  have h : (0 : Int) < (2 ^ w : Nat) := by exact_mod_cast Nat.two_pow_pos w
  have h1 := Int.emod_nonneg i (ne_of_gt h)
  have h2 := Int.emod_lt_of_pos i h
  unfold ofSigned
  omega

theorem State.tempShown_fields (h : hottest p ps < 110) : (s.tempShown p ps).fld (rk pgSafe 0x14C) 7 0 = ofSigned 8 (max (-128) (hottest p ps)) ∧
    (s.tempShown p ps).fld (rk pgSafe 0x14C) 15 8 = min 255 (widest p ps) := by
  have ht := temp8_of_lt h
  have hlt := ofSigned_lt 8 (max (-128) (hottest p ps))
  unfold State.fld State.tempShown
  dsimp only
  rw [State.rdN_wrN, if_pos rfl, ht]
  unfold bits
  rw [Nat.shiftRight_eq_div_pow, Nat.shiftRight_eq_div_pow]
  constructor <;> omega
end

/-! ### Links, locks and lost refreshes -/

section
variable {h : Nat}

theorem State.lockLoss_of_locked {d : Nat} (hd : s.bit (rk pgClk 0x100) d = true) :
    s.lockLoss d = ((s.setBit (rk pgClk 0x100) d false).bump (rk pgClk 0x48)).event pgClk 1 := by
  unfold State.lockLoss
  rw [if_neg (by simp [hd])]
theorem State.lockLoss_of_not {d : Nat} (hd : s.bit (rk pgClk 0x100) d = false) : s.lockLoss d = s := by
  unfold State.lockLoss
  rw [if_pos (by simp [hd])]

theorem State.linkRetrain_down (hu : ¬ s.bit (rk (pgHub h) 0x100) 0 = true) (ok : Bool) : s.linkRetrain h ok = s := by
  unfold State.linkRetrain
  rw [if_pos (by simpa using hu)]
theorem State.linkRetrain_ok (hu : s.bit (rk (pgHub h) 0x100) 0 = true) :
    s.linkRetrain h true = (s.bump (rk (pgHub h) 0x48)).event (pgHub h) 1 := by
  unfold State.linkRetrain
  rw [if_neg (by simp [hu]), if_pos rfl]
theorem State.linkRetrain_fail (hu : s.bit (rk (pgHub h) 0x100) 0 = true) :
    s.linkRetrain h false = (s.setBit (rk (pgHub h) 0x100) 0 false).fault (pgHub h) 0 := by
  unfold State.linkRetrain
  rw [if_neg (by simp [hu]), if_neg (by decide)]

theorem State.flitReplay_up (hu : s.bit (rk (pgHub h) 0x100) 0 = true) :
    s.flitReplay h = (s.bump (rk (pgHub h) 0x40)).toSafe 0 (pgHub h) 0x81 0 := by
  unfold State.flitReplay
  rw [if_neg (by simp [hu])]
theorem State.flitReplay_down (hu : ¬ s.bit (rk (pgHub h) 0x100) 0 = true) : s.flitReplay h = s := by
  unfold State.flitReplay
  rw [if_pos (by simpa using hu)]

/-- The HEALTHY drivers' memory of a round. -/
def State.roundForgotten (s : State) (h : Nat) : State :=
  { s with safe := { s.safe with clean := SMap.set (fun _ => none) s.safe.clean h none } }

theorem State.refreshLost_eq : s.refreshLost h = ((s.roundForgotten h).setPin h false).pinJudge h := rfl

theorem ShowSpares.refreshLost {β : Type} {f : State → β} (hf : ShowSpares [0x104] f) : f (s.refreshLost h) = f s := by
  rw [State.refreshLost_eq, hf.pinJudge (by decide), hf.setPin (by decide)]
  exact hf.clean _ _

theorem State.refreshLost_low (hh : h < 2) : (s.refreshLost h).bit (rk pgSafe 0x104) h = false := by
  rw [State.refreshLost_eq]
  exact State.pinJudge_low (by omega) (Or.inr (State.setPin_bit_self _ _ (by omega)))

theorem State.refreshLost_other (hh : h < 2) {g : Nat} (hg : g ≠ h) :
    (s.refreshLost h).bit (rk pgSafe 0x104) g = s.bit (rk pgSafe 0x104) g := by
  rw [State.refreshLost_eq, State.pinJudge_bit_ne hg (by omega), State.setPin_bit_ne hg (by omega)]
  exact State.withSafe_bit ..

theorem State.refreshLost_event (hh : h < 2) (hb : s.bit (rk pgSafe 0x104) h = true) :
    (s.refreshLost h).bit (rk pgSafe 0x14) (1 + h) = true := by
  have hb' : (s.roundForgotten h).bit (rk pgSafe 0x104) h = true := (State.withSafe_bit ..).trans hb
  rw [State.refreshLost_eq]
  exact State.pinJudge_event hh (State.setPin_event hh (by simp [hb']))
end

end
end Sys2Proof.Machine

open Sys2Proof Sys2Proof.Machine in
/-- Settles O46, monitor by monitor: a domain's own window between those that keep it, a rail's trip under SAFE's second look, a sample, a
refresh lost, and the locks and links. -/
theorem monitorsWatchClocksRailsAndLinks : Obligations.MonitorsWatchClocksRailsAndLinks := by
  unfold Obligations.MonitorsWatchClocksRailsAndLinks
  refine ⟨fun s khz d k n above p ps h => ?_, fun s d h => ?_⟩
  · intro set_ far runs trips hot diff keys
    refine ⟨fun hl => ⟨_, rfl, State.clockMonitor_late hl⟩, fun hk hw hl => ?_, fun hw => ?_, fun ht => ?_, fun ht => ⟨_, rfl, State.railTrip_of_not ht⟩,
      fun hl => ⟨_, rfl, State.tempSample_late hl⟩, fun h1 h2 h3 => ?_, ?_⟩
    · obtain ⟨t, u, ht, hu, hf⟩ := State.clockMonitor_split (khz := khz) hl d
      have hstep : u = t.clockWindow d k := by
        rw [hu]
        unfold State.clockStep
        rw [hk]
      rw [State.clockWindow_of_watched ((State.watched_congr ht.rd ht.pwr).trans hw), State.nextRun_congr ht, ht.run] at hstep
      have hfar : s.far d (k.getD 0) = true ↔ far := State.far_iff ..
      refine ⟨_, rfl, fun a => ?_, ?_, fun hr hbad => ?_, fun hn hgood => ?_, fun j hj => ?_⟩
      · rw [hf.byte, hstep, ← ht.byte]
        split
        · rw [State.clockFailed_byte, State.clockShown_byte]
        · rw [State.clockShown_byte]
      · have hne : ∀ o ∈ [0x144, 0x68, 0x68 + 4], rk pgClk (0x200 + 4 * d) ≠ rk pgSafe o := by
          intro o ho
          simp only [List.mem_cons, List.not_mem_nil, or_false] at ho
          simp only [rk, pgClk, pgSafe]
          omega
        have e : u.rd (rk pgClk (0x200 + 4 * d)) = (t.clockShown d k).rd (rk pgClk (0x200 + 4 * d)) := by
          rw [hstep]
          split
          · exact State.clockFailed_rd _ _ (hne _ (by decide)) (hne _ (by decide)) (hne (0x68 + 4) (by decide))
          · rfl
        rw [State.rdN_congr hf.shown, State.rdN_congr e, State.rdN_congr (State.clockShown_rd ..), State.rdN_wrN, if_pos rfl]
      · have hnext : s.nextRun d k = 2 := by
          unfold State.nextRun
          rcases hbad with hbad | ⟨hbad, hone⟩
          · rw [if_pos (by simp [hbad])]
          · rw [if_pos (hfar.2 hbad), show s.runOf d = 1 from hone]
            split <;> rfl
        have hrun : s.runOf d ≠ 2 := ne_of_lt hr
        rw [if_pos ⟨hnext, hrun⟩] at hstep
        obtain ⟨f, hsrc, hinst, hbox⟩ := (t.clockShown d k).clockFailed_inbox d k
        refine ⟨?_, f, hf.inbox f ?_, hsrc, hinst⟩
        · rw [hf.bit, hstep, State.clockFailed_bit _ _ _ (by omega), if_pos rfl]
        · rw [hstep, hbox]
          exact List.mem_append_right _ (List.mem_singleton_self f)
      · have hnext : s.nextRun d k ≠ 2 := by
          unfold State.nextRun
          rw [if_neg (by simpa using hn)]
          rcases hgood with hgood | hgood
          · rw [if_neg (fun hc => hgood (hfar.1 hc))]
            decide
          · rw [show s.runOf d = 0 from hgood]
            split <;> decide
        rw [if_neg (fun hc => hnext hc.1)] at hstep
        rw [hf.bit, hstep, ← ht.bit]
        refine State.bit_congr ((State.clockShown_rd ..).trans (State.rd_wrN_ne _ _ ?_)) _
        simp only [rk, pgClk, pgSafe]
        omega
      · obtain ⟨h0, h1, h2, h3⟩ := ne_of_notMem_clkKeys hj
        have e : (t.clockShown d k).rd j = t.rd j := (State.clockShown_rd ..).trans (State.rd_wrN_ne _ _ (h0 d d.isLt))
        rw [hf.rd j hj, hstep, ← ht.rd j hj]
        split
        · rw [State.clockFailed_rd _ _ h1 h2 h3, e]
        · exact e
    · by_cases hl : s.nsNow / 2000 < s.safe.clkAt
      · rw [show exec (.clockMonitor khz) s = .next (s.clockMonitor khz) from rfl, State.clockMonitor_late hl]
        exact ⟨s, rfl, rfl, rfl⟩
      · obtain ⟨t, u, ht, hu, hf⟩ := State.clockMonitor_split (khz := khz) (Nat.not_lt.1 hl) d
        have hstep : u = t := by
          rw [hu]
          unfold State.clockStep
          split
          · exact State.clockWindow_of_not ((State.watched_congr ht.rd ht.pwr).trans hw) _
          · rfl
        rw [hstep] at hf
        exact ⟨_, rfl, hf.shown.trans ht.shown, hf.bit.trans ht.bit⟩
    · obtain ⟨hb, hn⟩ := ht
      have hbit := State.railTaken_bit (s := s) (n := n) (above := above) (by omega)
      have hrail := State.rdN_ne_zero_of_bit hbit
      have hk (j : Nat) (hj : ∀ k ∈ [0x14, 0x104, 0x108, 0x10C], j ≠ rk pgSafe k) :
          (s.railTaken n above).safeShow.rd j = (s.railTaken n above).rd j := (showSpares_rd hj).safeShow
      refine ⟨_, rfl, ?_⟩
      rw [State.railTrip_of_trips hb hn]
      refine ⟨fun a => ((showSpares_byte _ a).safeShow).trans (State.railTaken_byte a), (State.bit_congr (hk _ (by decide)) _).trans hbit,
        (State.rd64_congr (hk _ (by decide)) (hk _ (by decide))).trans State.railTaken_count, ?_, State.safeShow_pins hrail h,
        (showSpares_inbox _).safeShow.trans State.railTaken_inbox, fun j hj => ?_⟩
      · unfold State.bit
        rw [State.safeShow_cond, State.safeCond_supply]
        simpa using hrail
      · simp only [List.mem_map, not_exists, not_and] at hj
        have hj' (k : Nat) (hk : k ∈ [0x14, 0x70, 0x74, 0x104, 0x108, 0x10C, 0x148]) : j ≠ rk pgSafe k := fun e => hj k hk e.symm
        rw [hk j (fun k hk => hj' k (by
          simp only [List.mem_cons, List.not_mem_nil, or_false] at hk ⊢
          omega))]
        exact State.railTaken_rd (hj' _ (by decide)) (hj' _ (by decide)) (hj' 0x74 (by decide))
    · obtain ⟨hlo, hhi⟩ := State.tempShown_fields (s := s) h3
      have hshow : ∀ g < 2, rk pgSafe 0x14C ≠ rk (pgHub g) 0x104 := by decide
      have hrd : (s.tempShown p ps).hubsRead.rd (rk pgSafe 0x14C) = (s.tempShown p ps).rd (rk pgSafe 0x14C) :=
        State.hubsRead_keeps (fun s => s.rd (rk pgSafe 0x14C)) (fun _ _ => State.withFree_rd ..) (fun _ g _ hg => State.rd_wrN_ne _ _ (hshow g hg))
      refine ⟨_, rfl, ?_⟩
      rw [State.tempSample_eq h1 h2 h3]
      refine ⟨fun a => ?_, ?_, (State.fld_congr hrd _ _).trans hlo, (State.fld_congr hrd _ _).trans hhi, fun j hj => ?_⟩
      · exact (State.hubsRead_keeps (fun s => s.byte a) (fun _ _ => State.withFree_byte ..) (fun _ _ _ _ => State.wrN_byte ..)).trans
          (State.tempShown_keeps (fun s => s.byte a) (fun _ _ => State.withSafe_byte ..) (fun _ => State.bump_byte ..) (fun _ _ => State.wrN_byte ..))
      · exact (congrArg Safe.hot (State.hubsRead_keeps State.safe (fun _ _ => rfl) (fun _ _ _ _ => State.wrN_safe ..))).trans State.tempShown_hot
      · simp only [List.map_cons, List.map_nil, List.mem_append, List.mem_cons, List.not_mem_nil, or_false, not_or] at hj
        obtain ⟨⟨h78, h7C, h14C⟩, ha, hb⟩ := hj
        refine (State.hubsRead_keeps (fun s => s.rd j) (fun _ _ => State.withFree_rd ..) (fun _ g _ hg => State.rd_wrN_ne _ _ ?_)).trans
          (State.tempShown_keeps (fun s => s.rd j) (fun _ _ => State.withSafe_rd ..) (fun _ => State.rd_bump_ne _ _ h78 h7C)
            (fun _ _ => State.rd_wrN_ne _ _ h14C))
        match g, hg with
        | 0, _ => exact ha
        | 1, _ => exact hb
    · refine ⟨_, rfl, fun a => (showSpares_byte _ a).refreshLost, State.refreshLost_low h.isLt, ?_, State.refreshLost_event h.isLt, fun j hj => ?_⟩
      · refine State.refreshLost_other h.isLt ?_
        match h with
        | 0 => decide
        | 1 => decide
      · simp only [List.mem_cons, List.not_mem_nil, or_false, not_or] at hj
        obtain ⟨h14, h104⟩ := hj
        exact (showSpares_rd (ks := [0x104]) (j := j) (by simp [h14, h104])).refreshLost
  · intro pg plus up got
    have hh : h.val = 0 ∨ h.val = 1 := by omega
    refine ⟨fun hd => ?_, fun hd => ⟨_, rfl, State.lockLoss_of_not hd⟩, fun hu => ⟨_, rfl, State.linkRetrain_down hu true⟩, fun hu => ?_, fun hu => ?_,
      fun hu => ?_, fun hu => ⟨_, rfl, State.flitReplay_down hu⟩⟩
    · refine ⟨_, rfl, ?_⟩
      rw [State.lockLoss_of_locked hd]
      refine ⟨?_, ?_, State.bit_event_self _ _ _ (by decide), fun a => ?_, fun j hj => ?_⟩
      · rw [State.bit_congr (State.rd_event_ne _ (by decide)), State.bit_congr (State.rd_bump_ne _ _ (by decide) (by decide)),
          State.bit_setBit _ _ _ _ _ _ (by omega), if_pos ⟨rfl, rfl⟩]
      · refine (State.rd64_congr (State.rd_event_ne _ (by decide)) (State.rd_event_ne _ (by decide))).trans ((State.rd64_bump_self ..).trans ?_)
        rw [State.rd64_congr (State.rd_setBit_ne _ _ _ (by decide)) (State.rd_setBit_ne _ _ _ (by decide))]
      · rw [State.event_byte, State.bump_byte, State.setBit_byte]
      · simp only [List.map_cons, List.map_nil, List.mem_cons, List.not_mem_nil, or_false, not_or] at hj
        obtain ⟨h14, h48, h4C, h100⟩ := hj
        rw [State.rd_event_ne _ h14, State.rd_bump_ne _ _ h48 h4C, State.rd_setBit_ne _ _ _ h100]
    · have hne : rk pg 0x48 ≠ rk pg 0x14 ∧ rk pg 0x48 + 4 ≠ rk pg 0x14 := by
        unfold rk
        omega
      refine ⟨_, rfl, ?_⟩
      rw [State.linkRetrain_ok hu]
      refine ⟨(State.rd64_congr (State.rd_event_ne _ hne.1) (State.rd_event_ne _ hne.2)).trans (State.rd64_bump_self ..),
        State.bit_event_self _ _ _ (by decide), fun a => ?_, fun j hj => ?_⟩
      · rw [State.event_byte, State.bump_byte]
      · rw [List.mem_cons, not_or, not_mem_wide] at hj
        obtain ⟨h14, h48, h4C⟩ := hj
        rw [State.rd_event_ne _ h14, State.rd_bump_ne _ _ h48 h4C]
    · have hne : rk pg 0x100 ≠ rk pg 0x1C := by
        unfold rk
        omega
      refine ⟨_, rfl, ?_⟩
      rw [State.linkRetrain_fail hu]
      refine ⟨?_, State.bit_fault_self _ _ _ _ (by decide), ?_, ?_, fun a => ?_, fun j hj => ?_⟩
      · rw [State.bit_congr (State.rd_fault_ne _ hne), State.bit_setBit _ _ _ _ _ _ (by decide), if_pos ⟨rfl, rfl⟩]
      · rw [State.fault_inbox]
        simp [got, pg, State.now]
      · rcases hh with hh | hh <;> simp only [got, pg, hh] <;> rfl
      · rw [State.fault_byte, State.setBit_byte]
      · simp only [List.mem_cons, List.not_mem_nil, or_false, not_or] at hj
        obtain ⟨h100, h1C⟩ := hj
        rw [State.rd_fault_ne _ h1C, State.rd_setBit_ne _ _ _ h100]
    · refine ⟨_, rfl, ?_⟩
      rw [State.flitReplay_up hu]
      refine ⟨?_, ?_, ?_, fun a => ?_, fun j hj => ?_⟩
      · exact (State.toSafe_rd64 ..).trans (State.rd64_bump_self ..)
      · rw [State.toSafe_inbox]
        simp [got, pg, State.now]
      · rcases hh with hh | hh <;> simp only [got, pg, hh] <;> rfl
      · rw [State.toSafe_byte, State.bump_byte]
      · rw [not_mem_wide] at hj
        rw [State.toSafe_rd, State.rd_bump_ne _ _ hj.1 hj.2]
end
-- ==== Sys2Proof/Proofs/SensorFrames.lean ====
section
/-! Frames of the sensor ports' commands: which registers an update writes, as rules on `sameRegs` and `sameBytes`, one per operation. -/

namespace Sys2Proof.Machine
section
variable {s t u : State} {ks : List Nat}

/-! ### Keys -/

@[simp] theorem rk_inj {p a b : Nat} : rk p a = rk p b ↔ a = b := by
  unfold rk
  omega

theorem rk_add (p o d : Nat) : rk p o + d = rk p (o + d) := Nat.add_assoc ..

/-- Registers of different pages are different. -/
theorem rk_ne_of_page {p q a b : Nat} (h : p ≠ q) (ha : a < 0x1000) (hb : b < 0x1000) : rk p a ≠ rk q b := by
  unfold rk
  omega

@[simp] theorem wide_rk (p o : Nat) : wide (rk p o) = [rk p o, rk p (o + 4)] := by
  rw [← rk_add, wide]

/-! ### Registers -/

theorem sameRegs.refl (s : State) (ks : List Nat) : sameRegs s s ks := fun _ _ => rfl

theorem sameRegs.mono {ks' : List Nat} (h : sameRegs s t ks) (hk : ks ⊆ ks') : sameRegs s t ks' :=
  fun j hj => h j (fun hm => hj (hk hm))

theorem sameRegs.trans (h : sameRegs s t ks) (h' : sameRegs t u ks) : sameRegs s u ks :=
  fun j hj => (h' j hj).trans (h j hj)

/-- An update of other parts of the state keeps a frame of registers. -/
theorem sameRegs.same (h : sameRegs s t ks) (e : u.regs = t.regs) : sameRegs s u ks :=
  fun j hj => (State.rd_eq e j).trans (h j hj)

theorem sameRegs.wr {k : Nat} {v : Word} (h : sameRegs s t ks) (hk : k ∈ ks) : sameRegs s (t.wr k v) ks := by
  intro j hj
  rw [State.rd_wr, if_neg (ne_of_mem_of_not_mem hk hj).symm, h j hj]

theorem sameRegs.wrN {k v : Nat} (h : sameRegs s t ks) (hk : k ∈ ks) : sameRegs s (t.wrN k v) ks := h.wr hk
theorem sameRegs.setFld {k hi lo v : Nat} (h : sameRegs s t ks) (hk : k ∈ ks) : sameRegs s (t.setFld k hi lo v) ks := h.wrN hk
theorem sameRegs.setBit {k b : Nat} {v : Bool} (h : sameRegs s t ks) (hk : k ∈ ks) : sameRegs s (t.setBit k b v) ks := h.setFld hk
theorem sameRegs.sat {k n : Nat} (h : sameRegs s t ks) (hk : k ∈ ks) : sameRegs s (t.sat k n) ks := h.wrN hk
theorem sameRegs.wr64 {k v : Nat} (h : sameRegs s t ks) (hk : k ∈ ks) (hk' : k + 4 ∈ ks) : sameRegs s (t.wr64 k v) ks :=
  (h.wrN hk).wrN hk'
theorem sameRegs.bump {k n : Nat} (h : sameRegs s t ks) (hk : k ∈ ks) (hk' : k + 4 ∈ ks) : sameRegs s (t.bump k n) ks :=
  h.wr64 hk hk'
theorem sameRegs.event {p b : Nat} (h : sameRegs s t ks) (hk : rk p 0x14 ∈ ks) : sameRegs s (t.event p b) ks :=
  fun j hj => (State.rd_event_ne _ (ne_of_mem_of_not_mem hk hj).symm).trans (h j hj)

theorem sameRegs.ite {c : Prop} [Decidable c] (h : sameRegs s t ks) (h' : sameRegs s u ks) : sameRegs s (if c then t else u) ks := by
  split
  · exact h
  · exact h'

theorem sameRegs.foldl {ι : Type} {f : State → ι → State} {l : List ι} (hf : ∀ t, ∀ x ∈ l, sameRegs s t ks → sameRegs s (f t x) ks)
    (h : sameRegs s t ks) : sameRegs s (l.foldl f t) ks := by
  induction l generalizing t with
  | nil => exact h
  | cons x l ih => exact ih (fun t y hy => hf t y (List.mem_cons_of_mem _ hy)) (hf t x List.mem_cons_self h)

/-! ### Views over a frame -/

theorem sameRegs.rdN {k : Nat} (h : sameRegs s t ks) (hk : k ∉ ks) : t.rdN k = s.rdN k := State.rdN_congr (h k hk)
theorem sameRegs.fld {k hi lo : Nat} (h : sameRegs s t ks) (hk : k ∉ ks) : t.fld k hi lo = s.fld k hi lo := State.fld_congr (h k hk) _ _
theorem sameRegs.bit {k b : Nat} (h : sameRegs s t ks) (hk : k ∉ ks) : t.bit k b = s.bit k b := State.bit_congr (h k hk) _
theorem sameRegs.rd64 {k : Nat} (h : sameRegs s t ks) (hk : k ∉ ks) (hk' : k + 4 ∉ ks) : t.rd64 k = s.rd64 k :=
  State.rd64_congr (h k hk) (h _ hk')
theorem sameRegs.running {p : Nat} (h : sameRegs s t ks) (hp : p ≠ pgSys) (hk : rk p 0x10 ∉ ks) : t.running p = s.running p :=
  State.running_congr hp (h _ hk)

/-- A counter that counts after writes of other registers. -/
theorem sameRegs.rd64_bump {k n : Nat} (h : sameRegs s t ks) (hk : k ∉ ks) (hk' : k + 4 ∉ ks) :
    (t.bump k n).rd64 k = (s.rd64 k + n) % 2 ^ 64 := by
  rw [State.rd64_bump_self, h.rd64 hk hk']

/-! ### Bytes -/

theorem sameBytes.refl (s : State) : sameBytes s s := fun _ => rfl
theorem sameBytes.trans (h : sameBytes s t) (h' : sameBytes t u) : sameBytes s u := fun a => (h' a).trans (h a)

end
end Sys2Proof.Machine
end
-- ==== Sys2Proof/Proofs/CsiPackets.lean ====
section
/-! CSI-2 packets at a port (R35 to R38, R50): which are queued and how each other one is counted. Settles O1. -/

namespace Sys2Proof.Machine
section
variable {s t : State} {p : Nat} {k : CsiPacket}

/-- The registers that a packet's header writes: the lock bits, and the count of corrected headers. -/
def csiHeaderKeys (p : Nat) (k : CsiPacket) : List Nat :=
  rk (pgCsi p) 0x174 :: if k.hdr = .corrected then wide (rk (pgCsi p) 0x50) else []

/-- The state once a packet's usable header has been taken. -/
def State.csiHeader (s : State) (p : Nat) (k : CsiPacket) : State :=
  if k.hdr = .corrected then (s.csiLocked p).bump (rk (pgCsi p) 0x50) else s.csiLocked p

theorem not_mem_csiHeaderKeys {o : Nat} (h : o ∉ [0x174, 0x50, 0x54]) : rk (pgCsi p) o ∉ csiHeaderKeys p k := by
  unfold csiHeaderKeys
  split <;> simp_all

theorem State.csiLocked_sameRegs {ks : List Nat} (h : rk (pgCsi p) 0x174 ∈ ks) : sameRegs s (s.csiLocked p) ks :=
  (sameRegs.refl s ks).setFld h

theorem State.csiHeader_sameRegs : sameRegs s (s.csiHeader p k) (csiHeaderKeys p k) := by
  unfold State.csiHeader csiHeaderKeys
  split
  · exact (State.csiLocked_sameRegs (by simp)).bump (by simp) (by simp [rk_add])
  · exact State.csiLocked_sameRegs (by simp)

theorem State.csiHeader_csi : (s.csiHeader p k).csi = s.csi := by
  unfold State.csiHeader State.csiLocked
  split <;> simp

theorem State.csiHeader_time : (s.csiHeader p k).time = s.time := by
  unfold State.csiHeader State.csiLocked
  split <;> simp

theorem State.csiHeader_sameBytes : sameBytes s (s.csiHeader p k) := by
  unfold State.csiHeader
  split <;> exact fun _ => by simp [State.csiLocked]

/-- A corrected header counts once. -/
theorem State.csiHeader_corrected (h : k.hdr = .corrected) :
    (s.csiHeader p k).rd64 (rk (pgCsi p) 0x50) = (s.rd64 (rk (pgCsi p) 0x50) + 1) % 2 ^ 64 := by
  unfold State.csiHeader
  rw [if_pos h]
  exact (State.csiLocked_sameRegs (List.mem_singleton_self _)).rd64_bump (by simp) (by simp [rk_add])

/-- How a packet is taken depends on CSI_CTRL and CSI_SEL alone. -/
theorem State.csiVerdict_header : (s.csiHeader p k).csiVerdict p k = s.csiVerdict p k := by
  have h := State.csiHeader_sameRegs (s := s) (p := p) (k := k)
  unfold State.csiVerdict
  rw [h.rdN (not_mem_csiHeaderKeys (by decide)), h.bit (not_mem_csiHeaderKeys (by decide))]

theorem State.csiLevel_header : (s.csiHeader p k).csiLevel p = s.csiLevel p :=
  State.csiHeader_sameRegs.fld (not_mem_csiHeaderKeys (by decide))

/-! ### A packet's fate, case by case -/

theorem State.csiPacket_bad (hr : s.running (pgCsi p) = true) (hb : k.hdr = .bad) :
    s.csiPacket p k = (s.csiLocked p).bump (rk (pgCsi p) 0x58) := by
  unfold State.csiPacket
  simp [hr, hb]

/-- A packet with a usable header is judged once the header is taken. -/
theorem State.csiPacket_eq (hr : s.running (pgCsi p) = true) (hb : k.hdr ≠ .bad) :
    s.csiPacket p k = match s.csiVerdict p k with
      | .ignore => s.csiHeader p k
      | .filter => (s.csiHeader p k).bump (rk (pgCsi p) 0x68)
      | .oversize => (s.csiHeader p k).bump (rk (pgCsi p) 0x58)
      | .accept =>
        if csiQueueCap < s.csiLevel p + csiNeed k then ((s.csiHeader p k).bump (rk (pgCsi p) 0x48)).setCsi p (s.csiAt p).markOverflow
        else ((s.csiHeader p k).setFld (rk (pgCsi p) 0x170) 18 0 (s.csiLevel p + csiNeed k)).setCsi p
          { s.csiAt p with queue := (s.csiAt p).queue ++ [{ pkt := k, tb0 := s.time.tb0, fus := s.now }] } := by
  have hc : (s.csiHeader p k).csiAt p = s.csiAt p := by
    unfold State.csiAt
    rw [State.csiHeader_csi]
  have hn : (s.csiHeader p k).now = s.now := congrArg (fun t => t.fus / 2 ^ 40) State.csiHeader_time
  rw [← hc, ← hn, ← State.csiLevel_header, ← State.csiVerdict_header, ← congrArg Time.tb0 (State.csiHeader_time (s := s) (p := p) (k := k))]
  unfold State.csiPacket
  rw [if_neg (by simp [hr])]
  dsimp only
  split
  · exact absurd ‹_› hb
  · rfl

/-! ### Verdicts -/

theorem State.csiVerdict_event (hm : s.bit (rk (pgCsi p) 0x100) 0 = false) (hv : k.vc.toNat = s.fld (rk (pgCsi p) 0x104) 3 0)
    (h1 : 0x30 ≤ k.dt.toNat) (h2 : k.dt.toNat ≤ 0x37) (hs : s.bit (rk (pgCsi p) 0x104) (8 + (k.dt.toNat - 0x30)) = true) :
    s.csiVerdict p k = if csiMaxEvent < k.payload.length then .oversize else .accept := by
  unfold State.csiVerdict
  have hs' : (s.rdN (rk (pgCsi p) 0x104)).testBit (8 + (k.dt.toNat - 0x30)) = true := hs
  have hv' : k.vc.toNat = bits (s.rdN (rk (pgCsi p) 0x104)) 3 0 := hv
  simp [hm, ← hv', hs', show ¬ k.dt.toNat < 0x10 by omega, show ¬ k.dt.toNat < 0x30 by omega, show ¬ 0x37 < k.dt.toNat by omega]

theorem State.csiVerdict_frame (hm : s.bit (rk (pgCsi p) 0x100) 0 = true) (hv : k.vc.toNat = s.fld (rk (pgCsi p) 0x104) 3 0)
    (h : k.dt.toNat < 2 ∨ k.dt.toNat = s.fld (rk (pgCsi p) 0x104) 23 16 ∧ k.dt.toNat ∈ [0x1E, 0x24, 0x2B, 0x2C]) :
    s.csiVerdict p k = .accept := by
  unfold State.csiVerdict
  have hv' : k.vc.toNat = bits (s.rdN (rk (pgCsi p) 0x104)) 3 0 := hv
  rcases h with h | ⟨h1, h2⟩
  · simp [hm, ← hv', h]
  · have h1' : k.dt.toNat = bits (s.rdN (rk (pgCsi p) 0x104)) 23 16 := h1
    have h3 : ¬ k.dt.toNat < 0x10 := by
      simp only [List.mem_cons, List.not_mem_nil, or_false] at h2
      omega
    have h4 : [0x2B, 0x2C, 0x24, 0x1E].contains k.dt.toNat = true := by
      simp only [List.mem_cons, List.not_mem_nil, or_false] at h2
      rcases h2 with h2 | h2 | h2 | h2 <;> rw [h2] <;> rfl
    rw [if_pos hm, ← hv', ← h1', if_neg (by simp), if_neg (by omega), if_neg (by omega), if_neg h3, h4]
    simp

theorem State.csiVerdict_ignore (hm : s.bit (rk (pgCsi p) 0x100) 0 = false) (hd : k.dt.toNat < 0x10)
    (hv : k.vc.toNat = s.fld (rk (pgCsi p) 0x104) 3 0) : s.csiVerdict p k = .ignore := by
  unfold State.csiVerdict
  have hv' : k.vc.toNat = bits (s.rdN (rk (pgCsi p) 0x104)) 3 0 := hv
  simp [hm, hd, ← hv']

theorem State.csiVerdict_filter (hm : s.bit (rk (pgCsi p) 0x100) 0 = false)
    (h1 : ¬ (k.dt.toNat < 0x10 ∧ k.vc.toNat = s.fld (rk (pgCsi p) 0x104) 3 0))
    (h2 : ¬ (k.vc.toNat = s.fld (rk (pgCsi p) 0x104) 3 0 ∧
      0x30 ≤ k.dt.toNat ∧ k.dt.toNat ≤ 0x37 ∧ s.bit (rk (pgCsi p) 0x104) (8 + (k.dt.toNat - 0x30)) = true)) :
    s.csiVerdict p k = .filter := by
  unfold State.csiVerdict
  change ¬ (_ ∧ k.vc.toNat = bits (s.rdN (rk (pgCsi p) 0x104)) 3 0) at h1
  change ¬ (k.vc.toNat = bits (s.rdN (rk (pgCsi p) 0x104)) 3 0 ∧ _ ∧ _ ∧ (s.rdN (rk (pgCsi p) 0x104)).testBit _ = true) at h2
  rw [if_neg (by simp [hm])]
  by_cases hd : k.dt.toNat < 0x10
  · rw [if_pos hd, if_neg (by simpa using fun e => h1 ⟨hd, e⟩)]
  · rw [if_neg hd, if_pos]
    by_contra hc
    simp only [Bool.or_eq_true, Bool.not_eq_true', decide_eq_false_iff_not, decide_eq_true_eq, not_or, Bool.not_eq_false, not_not, not_lt] at hc
    obtain ⟨⟨⟨hv, h3⟩, h4⟩, h5⟩ := hc
    exact h2 ⟨hv, h3, h4, h5⟩

end
end Sys2Proof.Machine

open Sys2Proof Sys2Proof.Machine in
/-- Settles O1: a packet's verdict decides, and each verdict's updates are framed one by one. -/
theorem packetIsQueuedOrCounted : Obligations.PacketIsQueuedOrCounted := by
  unfold Obligations.PacketIsQueuedOrCounted
  refine ⟨fun s p k => ?_, fun s p k => ?_⟩
  · intro sel need hr hb hv hacc hfit
    have hfr := State.csiHeader_sameRegs (s := s) (p := p) (k := k)
    have hneed : csiNeed k = need := rfl
    have hverdict : s.csiVerdict p k = .accept := by
      rcases hacc with ⟨hm, h1, h2, h3, h4⟩ | ⟨hm, h⟩
      · rw [State.csiVerdict_event hm hv h1 h2 h3, if_neg (by unfold csiMaxEvent; omega)]
      · exact State.csiVerdict_frame hm hv h
    refine ⟨_, rfl, ?_⟩
    rw [State.csiPacket_eq hr hb, hverdict]
    dsimp only
    rw [if_neg (by rw [hneed]; exact Nat.not_lt.2 hfit), hneed]
    refine ⟨by rw [State.setCsi_csiAt], ?_, fun hc => ?_, ?_, fun a => ?_⟩
    · rw [State.setCsi_fld, State.fld_setFld_self _ _ _ _ _ (by decide) (by decide)]
      exact Nat.mod_eq_of_lt (lt_of_le_of_lt hfit (by decide))
    · rw [State.setCsi_rd64, State.rd64_congr (State.rd_setFld_ne _ _ _ _ (by simp)) (State.rd_setFld_ne _ _ _ _ (by simp [rk_add])),
        State.csiHeader_corrected hc]
    · exact ((hfr.mono (fun _ h => List.mem_cons_of_mem _ h)).setFld (by simp)).same (State.setCsi_regs ..)
    · rw [State.setCsi_byte, State.setFld_byte, State.csiHeader_sameBytes a]
  · intro hr hm onVc enabled full cor counted
    have hfr := State.csiHeader_sameRegs (s := s) (p := p) (k := k)
    have hbytes := State.csiHeader_sameBytes (s := s) (p := p) (k := k)
    have hcount {o : Nat} (ho : o ∉ [0x174, 0x50, 0x54]) (ho' : o + 4 ∉ [0x174, 0x50, 0x54]) :
        counted ((s.csiHeader p k).bump (rk (pgCsi p) o)) o :=
      ⟨hfr.rd64_bump (not_mem_csiHeaderKeys ho) (by rw [rk_add]; exact not_mem_csiHeaderKeys ho'),
        (hfr.mono (List.cons_subset_cons _ (List.subset_append_right _ _))).bump (by simp) (by simp [rk_add])⟩
    refine ⟨_, rfl, ?_⟩
    by_cases hb : k.hdr = .bad
    · rw [State.csiPacket_bad hr hb]
      refine ⟨fun a => by simp [State.csiLocked], fun _ => ⟨⟨?_, ?_⟩, by simp [State.csiLocked]⟩, fun h => absurd hb h, fun h => absurd hb h,
        fun h => absurd hb h, fun h => absurd hb h⟩
      · exact (State.csiLocked_sameRegs (List.mem_singleton_self _)).rd64_bump (by simp) (by simp [rk_add])
      · exact (State.csiLocked_sameRegs (by simp)).bump (by simp) (by simp [rk_add])
    rw [State.csiPacket_eq hr hb]
    by_cases h1 : k.dt.toNat < 0x10 ∧ onVc
    · rw [State.csiVerdict_ignore hm h1.1 h1.2]
      have hne : ¬ enabled := fun h => by have := h.1; omega
      exact ⟨hbytes, fun h => absurd h hb, fun _ _ _ => ⟨hfr, State.csiHeader_csi⟩, fun _ h => absurd h1 h, fun _ _ h => absurd h hne,
        fun _ _ h => absurd h hne⟩
    by_cases h2 : onVc ∧ enabled
    · rw [State.csiVerdict_event hm h2.1 h2.2.1 h2.2.2.1 h2.2.2.2]
      have hd : ¬ k.dt.toNat < 0x10 := fun h => h1 ⟨h, h2.1⟩
      by_cases h3 : csiMaxEvent < k.payload.length
      · rw [if_pos h3]
        exact ⟨fun a => (State.bump_byte ..).trans (hbytes a), fun h => absurd h hb, fun _ h => absurd h hd, fun _ _ h => absurd h2 h,
          fun _ _ _ _ => ⟨hcount (by decide) (by decide), (State.bump_csi ..).trans State.csiHeader_csi⟩,
          fun _ _ _ h => absurd h (Nat.not_le.2 h3)⟩
      · rw [if_neg h3]
        dsimp only
        refine ⟨fun a => ?_, fun h => absurd h hb, fun _ h => absurd h hd, fun _ _ h => absurd h2 h, fun _ _ _ h => absurd h h3,
          fun _ _ _ _ hf => ?_⟩
        · split <;> simp [hbytes a]
        · have hf' : csiQueueCap < s.csiLevel p + csiNeed k := by
            unfold csiNeed
            rw [if_neg hd]
            exact hf
          rw [if_pos hf']
          obtain ⟨hc, hs⟩ := hcount (o := 0x48) (by decide) (by decide)
          refine ⟨⟨(State.setCsi_rd64 ..).trans hc, hs.same (State.setCsi_regs ..)⟩, ?_⟩
          rw [State.setCsi_csiAt]
          unfold CsiPort.markOverflow
          split <;> rfl
    · rw [State.csiVerdict_filter hm h1 h2]
      exact ⟨fun a => (State.bump_byte ..).trans (hbytes a), fun h => absurd h hb, fun _ hd hv => absurd ⟨hd, hv⟩ h1,
        fun _ _ _ => ⟨hcount (by decide) (by decide), (State.bump_csi ..).trans State.csiHeader_csi⟩, fun _ hv he => absurd ⟨hv, he⟩ h2,
        fun _ hv he => absurd ⟨hv, he⟩ h2⟩
end
-- ==== Sys2Proof/Proofs/HostWrites.lean ====
section
/-! A host's write that reaches the device, and the owner's (R354, R355). -/

namespace Sys2Proof.Machine
section
variable {s : State} {h : Nat}

/-- A write that reaches the device is served and counted. -/
theorem State.hostWrite_eq (hr : s.reaches h = true) (f : State → State) :
    s.hostWrite h f = (f (s.reply h .done)).bump (rk (pgPort h) 0x48) := by
  simp only [State.reaches, Bool.and_eq_true, Bool.not_eq_true', decide_eq_true_eq] at hr
  obtain ⟨⟨⟨h1, h2⟩, h3⟩, h4⟩ := hr
  unfold State.hostWrite State.hostAccess
  rw [if_pos (by simp [h1, h2, h3]), if_neg (by omega)]

/-- The owner's write of a page that is not the other port's. -/
theorem State.ownerWrite_owner {p : Nat} (hp : p ≠ pgPort (1 - h)) (hk : (pageKind p).isSome = true)
    (ho : p = pgPort h ∨ s.isOwner h = true) (takes : Bool) (f : State → State) : s.ownerWrite h p takes f = f s := by
  unfold State.ownerWrite
  rw [if_neg hp, if_neg (by simp [Option.isSome_iff_ne_none.1 hk]), if_pos (by simpa using ho)]

/-- An observer's write of a page that is no port's is denied where the owner's would take effect. -/
theorem State.ownerWrite_observer {p : Nat} (hp : p ≠ pgPort (1 - h)) (hk : (pageKind p).isSome = true)
    (hp' : p ≠ pgPort h) (ho : s.isOwner h = false) (takes : Bool) (f : State → State) :
    s.ownerWrite h p takes f = if takes then s.denied h else s := by
  unfold State.ownerWrite
  rw [if_neg hp, if_neg (by simp [Option.isSome_iff_ne_none.1 hk]), if_neg (by simp [hp', ho])]

/-- The owner's write of another page than a port's takes effect and is counted; the observer's is denied. -/
theorem State.ownedWrite_eq {p : Nat} (hr : s.reaches h = true) (hp : p ≠ pgPort (1 - h)) (hk : (pageKind p).isSome = true) (hp' : p ≠ pgPort h)
    (takes : Bool) (f : State → State) : s.hostWrite h (fun s => s.ownerWrite h p takes f) =
      (if s.isOwner h = true then f (s.reply h .done) else if takes then (s.reply h .done).denied h else s.reply h .done).bump
        (rk (pgPort h) 0x48) := by
  rw [State.hostWrite_eq hr]
  by_cases ho : s.isOwner h = true
  · rw [State.ownerWrite_owner hp hk (Or.inr ((State.reply_isOwner ..).trans ho)), if_pos ho]
  · rw [State.ownerWrite_observer hp hk hp' ((State.reply_isOwner ..).trans (by simpa using ho)), if_neg ho]

end
end Sys2Proof.Machine
end

