-- ==== Sys2Proof/Proofs/Alignment.lean ====
section
/-! Time triples and the alignment units (R45, R59, R239 to R241). -/

namespace Sys2Proof.Machine
section
variable {s t : State} {u k : Nat} {β : Type}

/-- The registers that show the alignment units. -/
def alignShown : List Nat :=
  [rk pgGrid 0x14, rk pgGrid 0x114, rk pgGrid 0x13C] ++ (List.range 16).flatMap (fun j => [srcKey j 0x10, srcKey j 0x14])

theorem srcKey_mem_alignShown {j o : Nat} (hj : j < 16) (ho : o = 0x10 ∨ o = 0x14) : srcKey j o ∈ alignShown := by
  refine List.mem_append_right _ (List.mem_flatMap.2 ⟨j, List.mem_range.2 hj, ?_⟩)
  rcases ho with rfl | rfl <;> simp

/-- A source's other registers are none of those that show the units. -/
theorem srcKey_notMem_alignShown {j o : Nat} (ho : o < 0x10) : srcKey j o ∉ alignShown := by
  unfold alignShown srcKey
  simp only [List.mem_append, List.mem_cons, List.not_mem_nil, or_false, List.mem_flatMap, List.mem_range, rk_inj, not_or, not_exists, not_and]
  exact ⟨⟨by omega, by omega, by omega⟩, fun i hi => ⟨by omega, by omega⟩⟩

theorem mem_followers {j : Nat} : j ∈ s.followers u ↔ j < 16 ∧ s.srcEn j = true ∧ s.srcMode j ≠ 0 ∧ s.srcUnit j = u := by
  simp [State.followers, and_assoc]

/-! ### What shows the units -/

theorem State.peak_keeps (f : State → β) (hw : ∀ s k v, f (State.wrN s k v) = f s) (j hi lo v : Nat) : f (s.peak j hi lo v) = f s := by
  unfold State.peak
  split
  · exact hw _ _ _
  · rfl

theorem State.gridShow_keeps (f : State → β) (hw : ∀ s k v, f (State.wrN s k v) = f s) : f s.gridShow = f s := by
  unfold State.gridShow
  dsimp only
  rw [State.peak_keeps f hw]
  simp only [State.setFld, hw]

theorem State.unitShow_keeps (f : State → β) (hw : ∀ s k v, f (State.wrN s k v) = f s) : f (s.unitShow u) = f s := by
  unfold State.unitShow
  rw [State.gridShow_keeps f hw]
  exact foldl_keeps f _ (fun s x => by simp only [State.setFld, State.setBit, hw]) _ _

theorem State.unalign_keeps (f : State → β) (hw : ∀ s k v, f (State.wrN s k v) = f s) (hg : ∀ (s : State) g, f { s with grid := g } = f s)
    (he : ∀ s b, f (State.event s pgGrid b) = f s) : f (s.unalign u) = f s := by
  unfold State.unalign
  dsimp only
  rw [State.unitShow_keeps f hw]
  split
  · rw [he]
    exact (hg _ _).trans (hg _ _)
  · exact (hg _ _).trans (hg _ _)

theorem State.alignJudge_keeps (f : State → β) (hw : ∀ s k v, f (State.wrN s k v) = f s) (hg : ∀ (s : State) g, f { s with grid := g } = f s)
    (he : ∀ s b, f (State.event s pgGrid b) = f s) (e : Int) : f (s.alignJudge k u e) = f s := by
  have hs (v : AlignUnit) (s : State) : f (s.setUnit u v) = f s := hg _ _
  unfold State.alignJudge
  extract_lets v lim good s1
  split
  · split
    · rw [State.unalign_keeps f hw hg he, hs]
    · rw [State.unitShow_keeps f hw, hs]
  · split
    · rw [State.unitShow_keeps f hw, he, hs, hs]
    · rw [State.unitShow_keeps f hw, hs]

theorem sameRegs.gridShow {ks : List Nat} (h : sameRegs s t ks) (h1 : rk pgGrid 0x114 ∈ ks) (h2 : rk pgGrid 0x13C ∈ ks) :
    sameRegs s t.gridShow ks :=
  .ite ((h.wrN h1).setFld h2 |>.setFld h2) ((h.wrN h1).setFld h2)

theorem sameRegs.unitShow {ks : List Nat} (h : sameRegs s t ks) (hk : alignShown ⊆ ks) : sameRegs s (t.unitShow u) ks := by
  refine (sameRegs.foldl (fun t j hj h => ?_) h).gridShow (hk (by simp [alignShown])) (hk (by simp [alignShown]))
  have hj := (mem_followers.1 hj).1
  have h10 := hk (srcKey_mem_alignShown hj (Or.inl rfl))
  exact (((h.setBit h10).setFld h10).setFld h10).wrN (hk (srcKey_mem_alignShown hj (Or.inr rfl)))

theorem sameRegs.unalign {ks : List Nat} (h : sameRegs s t ks) (hk : alignShown ⊆ ks) : sameRegs s (t.unalign u) ks := by
  unfold State.unalign
  extract_lets v was t1 t2 t3
  have h2 : sameRegs s t2 ks := h.same rfl
  have h3 : sameRegs s t3 ks := .ite (h2.event (hk (by simp [alignShown]))) h2
  exact h3.unitShow hk

theorem sameRegs.alignJudge {ks : List Nat} (h : sameRegs s t ks) (hk : alignShown ⊆ ks) (e : Int) :
    sameRegs s (t.alignJudge k u e) ks := by
  unfold State.alignJudge
  extract_lets v lim good t1
  have h1 : sameRegs s t1 ks := h.same rfl
  split
  · exact .ite (h1.unalign hk) (h1.unitShow hk)
  · split
    · exact sameRegs.unitShow (.event (h1.same rfl) (hk (by simp [alignShown]))) hk
    · exact h1.unitShow hk

/-! ### The units -/

@[simp] theorem State.setUnit_unitAt (v : AlignUnit) : (s.setUnit u v).unitAt u = v := SMap.get_set_self ..

theorem State.unitAt_congr (h : t.grid = s.grid) : t.unitAt u = s.unitAt u := by
  unfold State.unitAt
  rw [h]

theorem State.unitShow_unitAt : (s.unitShow u).unitAt u = s.unitAt u :=
  State.unitAt_congr (State.unitShow_keeps State.grid (fun _ _ _ => State.wrN_grid ..))

theorem State.event_unitAt {p b : Nat} : (s.event p b).unitAt u = s.unitAt u := State.unitAt_congr (State.event_grid ..)

theorem State.unalign_unitAt : (s.unalign u).unitAt u = { s.unitAt u with aligned := false, good := 0, step := true } := by
  unfold State.unalign
  extract_lets v was s1 s2 s3
  have h1 : s1.unitAt u = { s.unitAt u with aligned := false, good := 0, step := true } := State.setUnit_unitAt _
  have h3 : s3.unitAt u = s1.unitAt u := by
    unfold s3
    split
    · exact State.event_unitAt
    · rfl
  rw [State.unitShow_unitAt, h3, h1]

/-- A pair that is judged counts as used now; the offset and the earlier pair stay. -/
theorem State.alignJudge_unitAt (e : Int) : ((s.alignJudge k u e).unitAt u).lastUse = s.now ∧
    ((s.alignJudge k u e).unitAt u).off = (s.unitAt u).off ∧ ((s.alignJudge k u e).unitAt u).sprev = (s.unitAt u).sprev := by
  unfold State.alignJudge
  extract_lets v lim good s1
  have hv : s1.unitAt u = { s.unitAt u with good := good, lastUse := s.now } := State.setUnit_unitAt _
  split
  · split <;> simp [hv, State.unalign_unitAt, State.unitShow_unitAt]
  · split <;> simp +zetaDelta [State.unitShow_unitAt, State.event_unitAt]

/-! ### A unit's port -/

theorem State.unitTriple_congr (h1 : t.csi = s.csi) (h2 : t.eth = s.eth) : t.unitTriple u = s.unitTriple u := by
  unfold State.unitTriple State.csiAt State.ethAt
  rw [h1, h2]

theorem State.unitKnom_congr (h1 : t.csi = s.csi) (h2 : t.eth = s.eth) : t.unitKnom u = s.unitKnom u := by
  unfold State.unitKnom State.csiAt State.ethAt
  rw [h1, h2]

theorem State.unitOffers_congr (h1 : t.csi = s.csi) (h2 : t.eth = s.eth) : t.unitOffers u = s.unitOffers u := by
  unfold State.unitOffers State.csiAt State.ethAt
  rw [h1, h2]

theorem State.dropOffer_keeps (f : State → β) (h1 : ∀ s p v, f (State.setCsi s p v) = f s) (h2 : ∀ s p v, f (State.setEth s p v) = f s) :
    f (s.dropOffer u) = f s := by
  unfold State.dropOffer
  split
  · exact h1 _ _ _
  · exact h2 _ _ _

theorem State.dropOffer_unitOffers : (s.dropOffer u).unitOffers u = (s.unitOffers u).drop 1 := by
  unfold State.dropOffer State.unitOffers
  by_cases h : u < 16 <;> simp [h]

theorem State.dropOffer_unitTriple : (s.dropOffer u).unitTriple u = s.unitTriple u := by
  unfold State.dropOffer State.unitTriple
  by_cases h : u < 16 <;> simp [h]

theorem State.dropOffer_unitKnom : (s.dropOffer u).unitKnom u = s.unitKnom u := by
  unfold State.dropOffer State.unitKnom
  by_cases h : u < 16 <;> simp [h]

/-- The registers of a unit's triple. -/
def tmapKeys (u : Nat) : List Nat :=
  (List.range 5).map (fun i => if u < 16 then rk (pgCsi u) (0x140 + 4 * i) else rk (pgEth (u - 16)) (0x190 + 4 * i))

theorem sameRegs.setUnitTriple {ks : List Nat} (h : sameRegs s t ks) (hk : tmapKeys u ⊆ ks) (r : Triple) :
    sameRegs s (t.setUnitTriple u r) ks := by
  unfold State.setUnitTriple
  extract_lets key t1
  have hm (i : Nat) (hi : i < 5) : key + 4 * i ∈ ks := by
    refine hk (List.mem_map.2 ⟨i, List.mem_range.2 hi, ?_⟩)
    unfold key
    split <;> rw [rk_add]
  have h1 : sameRegs s t1 ks :=
    ((h.wr64 (hm 0 (by decide)) (hm 1 (by decide))).wr64 (hm 2 (by decide)) (hm 3 (by decide))).wrN (hm 4 (by decide))
  exact .ite (h1.same rfl) (h1.same rfl)

theorem State.setUnitTriple_keeps (f : State → β) (hw : ∀ s k v, f (State.wrN s k v) = f s) (h1 : ∀ s p v, f (State.setCsi s p v) = f s)
    (h2 : ∀ s p v, f (State.setEth s p v) = f s) (r : Triple) : f (s.setUnitTriple u r) = f s := by
  unfold State.setUnitTriple State.wr64
  dsimp only
  split
  · simp only [h1, hw]
  · simp only [h2, hw]

theorem State.setUnitTriple_unitTriple (r : Triple) : (s.setUnitTriple u r).unitTriple u = r := by
  unfold State.setUnitTriple State.unitTriple
  by_cases h : u < 16 <;> simp [h]

theorem State.setUnitTriple_unitOffers (r : Triple) : (s.setUnitTriple u r).unitOffers u = s.unitOffers u := by
  unfold State.setUnitTriple State.unitOffers
  by_cases h : u < 16 <;> simp [h]

/-! ### A host's commit -/

/-- A write of 1 makes the written registers the port's triple; K_NOM stays. -/
theorem State.csiCommit_csiAt {p v : Nat} : (s.csiCommit p v).csiAt p = if v.testBit 0 then { s.csiAt p with triple :=
    { a := s.rd64 (rk (pgCsi p) 0x140), b := s.rd64 (rk (pgCsi p) 0x148), k := s.rdN (rk (pgCsi p) 0x150) } } else s.csiAt p := by
  unfold State.csiCommit
  split
  · rw [State.setCsi_csiAt]
  · rfl

theorem State.csiCommit_keeps (f : State → β) (h : ∀ s p v, f (State.setCsi s p v) = f s) (p v : Nat) : f (s.csiCommit p v) = f s := by
  unfold State.csiCommit
  split
  · exact h _ _ _
  · rfl

theorem State.ethCommit_ethAt {p v : Nat} : (s.ethCommit p v).ethAt p = if v.testBit 0 then { s.ethAt p with triple :=
    { a := s.rd64 (rk (pgEth p) 0x190), b := s.rd64 (rk (pgEth p) 0x198), k := s.rdN (rk (pgEth p) 0x1A0) } } else s.ethAt p := by
  unfold State.ethCommit
  split
  · rw [State.setEth_ethAt]
  · rfl

theorem State.ethCommit_keeps (f : State → β) (h : ∀ s p v, f (State.setEth s p v) = f s) (p v : Nat) : f (s.ethCommit p v) = f s := by
  unfold State.ethCommit
  split
  · exact h _ _ _
  · rfl

/-! ### A unit's steps -/

theorem State.clampMark_keeps (f : State → β) (hw : ∀ s k v, f (State.wrN s k v) = f s) (k : Nat) : f (s.clampMark k) = f s := by
  unfold State.clampMark State.setBit State.setFld
  simp only [hw]

theorem State.alignJudge_unitTriple (e : Int) : (s.alignJudge k u e).unitTriple u = s.unitTriple u :=
  State.unitTriple_congr
    (State.alignJudge_keeps State.csi (fun _ _ _ => State.wrN_csi ..) (fun _ _ => rfl) (fun _ _ => State.event_csi ..) e)
    (State.alignJudge_keeps State.eth (fun _ _ _ => State.wrN_eth ..) (fun _ _ => rfl) (fun _ _ => State.event_eth ..) e)

theorem State.alignJudge_unitOffers (e : Int) : (s.alignJudge k u e).unitOffers u = s.unitOffers u :=
  State.unitOffers_congr
    (State.alignJudge_keeps State.csi (fun _ _ _ => State.wrN_csi ..) (fun _ _ => rfl) (fun _ _ => State.event_csi ..) e)
    (State.alignJudge_keeps State.eth (fun _ _ _ => State.wrN_eth ..) (fun _ _ => rfl) (fun _ _ => State.event_eth ..) e)

@[simp] theorem State.setUnit_unitTriple (v : AlignUnit) : (s.setUnit k v).unitTriple u = s.unitTriple u := State.unitTriple_congr rfl rfl
@[simp] theorem State.setUnit_unitOffers (v : AlignUnit) : (s.setUnit k v).unitOffers u = s.unitOffers u := State.unitOffers_congr rfl rfl

theorem sameRegs.setUnit {ks : List Nat} (h : sameRegs s t ks) (v : AlignUnit) : sameRegs s (t.setUnit u v) ks := h.same rfl

theorem State.unitShow_unitTriple : (s.unitShow u).unitTriple u = s.unitTriple u :=
  State.unitTriple_congr (State.unitShow_keeps State.csi (fun _ _ _ => State.wrN_csi ..)) (State.unitShow_keeps State.eth (fun _ _ _ => State.wrN_eth ..))

theorem State.unitShow_unitOffers : (s.unitShow u).unitOffers u = s.unitOffers u :=
  State.unitOffers_congr (State.unitShow_keeps State.csi (fun _ _ _ => State.wrN_csi ..)) (State.unitShow_keeps State.eth (fun _ _ _ => State.wrN_eth ..))

theorem State.unalign_unitTriple : (s.unalign u).unitTriple u = s.unitTriple u :=
  State.unitTriple_congr
    (State.unalign_keeps State.csi (fun _ _ _ => State.wrN_csi ..) (fun _ _ => rfl) (fun _ _ => State.event_csi ..))
    (State.unalign_keeps State.eth (fun _ _ _ => State.wrN_eth ..) (fun _ _ => rfl) (fun _ _ => State.event_eth ..))

/-- The state in which a mode 1 pair is judged or stepped to: the clamp marks, where K' met its clamp. -/
theorem State.clampMarks_keeps (f : State → β) (hw : ∀ s k v, f (State.wrN s k v) = f s) (c : Prop) [Decidable c] (l : List Nat) :
    f (if c then l.foldl (fun s j => s.clampMark j) s else s) = f s := by
  split
  · exact foldl_keeps f _ (fun s j => State.clampMark_keeps f hw j) _ _
  · rfl

theorem State.alignSensor_keeps (f : State → β) (hw : ∀ s k v, f (State.wrN s k v) = f s) (hg : ∀ (s : State) g, f { s with grid := g } = f s)
    (he : ∀ s b, f (State.event s pgGrid b) = f s) (h1 : ∀ s p v, f (State.setCsi s p v) = f s) (h2 : ∀ s p v, f (State.setEth s p v) = f s)
    (x i : Nat) : f (s.alignSensor k u x i) = f s := by
  have hs (v : AlignUnit) (s : State) : f (s.setUnit u v) = f s := hg _ _
  unfold State.alignSensor
  dsimp only
  split
  · rw [State.unitShow_keeps f hw, hs, State.setUnitTriple_keeps f hw h1 h2]
  · rw [State.alignJudge_keeps f hw hg he, hs, State.setUnitTriple_keeps f hw h1 h2, State.clampMarks_keeps f hw]

theorem State.alignSensor_unitOffers (x i : Nat) : (s.alignSensor k u x i).unitOffers u = s.unitOffers u := by
  unfold State.alignSensor
  dsimp only
  split
  · rw [State.unitShow_unitOffers, State.setUnit_unitOffers, State.setUnitTriple_unitOffers]
  · rw [State.alignJudge_unitOffers, State.setUnit_unitOffers, State.setUnitTriple_unitOffers]
    exact State.unitOffers_congr (State.clampMarks_keeps State.csi (fun _ _ _ => State.wrN_csi ..) _ _)
      (State.clampMarks_keeps State.eth (fun _ _ _ => State.wrN_eth ..) _ _)

/-- The registers of the clamp marks. -/
def clampKeys : List Nat := (List.range 16).flatMap (fun j => [clampKey 0 j, clampKey 1 j])

theorem sameRegs.alignSensor {ks : List Nat} (h : sameRegs s t ks) (h1 : alignShown ⊆ ks) (h2 : tmapKeys u ⊆ ks) (h3 : clampKeys ⊆ ks)
    (x i : Nat) : sameRegs s (t.alignSensor k u x i) ks := by
  unfold State.alignSensor
  extract_lets v tr ff m e o kn w k1 k2 rated k3 t1 t2
  have hmark : sameRegs s t1 ks := by
    refine .ite (.foldl (fun t j hj h => ?_) h) h
    have hj := List.mem_range.2 (mem_followers.1 hj).1
    exact (h.setBit (h3 (List.mem_flatMap.2 ⟨j, hj, by simp⟩))).setBit (h3 (List.mem_flatMap.2 ⟨j, hj, by simp⟩))
  split
  · exact ((h.setUnitTriple h2 _).setUnit _).unitShow h1
  · exact ((hmark.setUnitTriple h2 _).setUnit _).alignJudge h1 e

/-- After UNALIGNED the unit steps its port's triple to the pair. -/
theorem State.alignSensor_step {x f : Nat} (h : (s.unitAt u).step = true) :
    (s.alignSensor k u x f).unitTriple u = { a := f - s.srcLat k, b := x, k := (s.unitTriple u).k } ∧
    (s.alignSensor k u x f).unitAt u = { s.unitAt u with step := false, off := 0, sprev := none, good := 0, lastUse := s.now } := by
  unfold State.alignSensor
  dsimp only
  rw [if_pos h]
  constructor
  · rw [State.unitShow_unitTriple, State.setUnit_unitTriple, State.setUnitTriple_unitTriple]
  · rw [State.unitShow_unitAt, State.setUnit_unitAt]

/-- Otherwise its offset moves, and the triple moves towards the pair; K' stays between its clamps. -/
theorem State.alignSensor_move {x f : Nat} (h : (s.unitAt u).step = false) :
    let t := s.alignSensor k u x f
    let tr := s.unitTriple u
    let e : Int := f - s.srcLat k - tr.map x
    let kn : Int := s.unitKnom u
    let span : Int := (s.unitKnom u * 500 / 1000000 : Nat)
    (t.unitTriple u).a = tr.map x + tdivI e 4 ∧ (t.unitTriple u).b = x ∧ (t.unitAt u).lastUse = s.now ∧
    (t.unitAt u).off = (s.unitAt u).off + tdivI (e - (s.unitAt u).off) 16 ∧ (t.unitAt u).sprev = some x ∧
    ((∀ z ∈ (s.unitAt u).sprev, x ≤ z) → (t.unitTriple u).k = tr.k) ∧
    (∀ z ∈ (s.unitAt u).sprev, z < x →
      ((t.unitTriple u).k : Int) = clampI (kn - span) (kn + span) (tr.k + tdivI (e * (2 ^ 21 : Nat)) ((x : Int) - z))) := by
  intro t tr e kn span
  have ht : t = s.alignSensor k u x f := rfl
  unfold State.alignSensor at ht
  extract_lets v ff m e' o kn' w k1 k2 rated k3 s1 s2 at ht
  rw [if_neg (by rw [h]; decide)] at ht
  have hnow : (s2.setUnit u { v with off := o, sprev := some x }).now = s.now := by
    have htime : s2.time = s.time := by
      unfold s2 s1
      rw [State.setUnitTriple_keeps State.time (fun _ _ _ => State.wrN_time ..) (fun _ _ _ => rfl) (fun _ _ _ => rfl)]
      exact State.clampMarks_keeps State.time (fun _ _ _ => State.wrN_time ..) _ _
    exact congrArg (fun t => t.fus / 2 ^ 40) htime
  have htr : t.unitTriple u = { a := m + tdivI e' 4, b := x, k := (max 0 k3).toNat } := by
    rw [ht, State.alignJudge_unitTriple, State.setUnit_unitTriple, State.setUnitTriple_unitTriple]
  obtain ⟨h1, h2, h3⟩ := State.alignJudge_unitAt (s := s2.setUnit u { v with off := o, sprev := some x }) (k := k) (u := u) e'
  rw [← ht, State.setUnit_unitAt] at h2 h3
  rw [← ht, hnow] at h1
  rw [htr]
  refine ⟨rfl, rfl, h1, h2, h3, fun hz => ?_, fun z hz hlt => ?_⟩
  · have hr : rated = false := by
      unfold rated
      split
      · exact decide_eq_false (Nat.not_lt.2 (hz _ ‹_›))
      · rfl
    have hk3 : k3 = tr.k := by
      unfold k3
      rw [hr]
      rfl
    simp [hk3]
  · have hz' : v.sprev = some z := hz
    have hr : rated = true := by
      unfold rated
      rw [hz']
      exact decide_eq_true hlt
    have hk1 : k1 = tr.k + tdivI (e * (2 ^ 21 : Nat)) ((x : Int) - z) := by
      unfold k1
      rw [hz']
      exact if_pos hlt
    have hk3 : k3 = clampI (kn - span) (kn + span) k1 := by
      unfold k3
      rw [hr]
      rfl
    have hpos : 0 ≤ k3 := by
      rw [hk3]
      refine le_max_of_le_left ?_
      unfold kn span
      omega
    rw [← hk1, ← hk3]
    change ((max 0 k3).toNat : Int) = k3
    omega

/-! ### A mode 2 pair -/

theorem State.alignTrigger_keeps (f : State → β) (hw : ∀ s k v, f (State.wrN s k v) = f s) (hg : ∀ (s : State) g, f { s with grid := g } = f s)
    (he : ∀ s b, f (State.event s pgGrid b) = f s) (i : Nat) : f (s.alignTrigger k u i) = f s := by
  unfold State.alignTrigger
  dsimp only
  split
  · rfl
  · rw [State.alignJudge_keeps f hw hg he]
    exact hg _ _

theorem State.alignTrigger_unitOffers (i : Nat) : (s.alignTrigger k u i).unitOffers u = s.unitOffers u :=
  State.unitOffers_congr
    (State.alignTrigger_keeps State.csi (fun _ _ _ => State.wrN_csi ..) (fun _ _ => rfl) (fun _ _ => State.event_csi ..) i)
    (State.alignTrigger_keeps State.eth (fun _ _ _ => State.wrN_eth ..) (fun _ _ => rfl) (fun _ _ => State.event_eth ..) i)

theorem sameRegs.alignTrigger {ks : List Nat} (h : sameRegs s t ks) (h1 : alignShown ⊆ ks) (i : Nat) : sameRegs s (t.alignTrigger k u i) ks := by
  unfold State.alignTrigger
  extract_lets m fire v e
  split
  · exact h
  · exact (h.setUnit _).alignJudge h1 e

end
end Sys2Proof.Machine
end
-- ==== Sys2Proof/Proofs/AlignmentPairs.lean ====
section
/-! The pairs that a port offers to its alignment unit (R239 to R241). Settles O5. -/

namespace Sys2Proof.Machine
section
variable {s t : State} {u k : Nat} {β : Type}

/-- Whether a mode 2 pair counts: its stamp lies within one period after a fire that no pair has used. -/
def State.timely (s : State) (k u f : Nat) : Prop :=
  s.unitFire u (s.fld (srcKey k 4) 11 8) ≤ f ∧ f < s.unitFire u (s.fld (srcKey k 4) 11 8) + s.trigPeriod (s.fld (srcKey k 4) 11 8) ∧
    (s.unitAt u).period ≠ some (s.lastFire (s.fld (srcKey k 4) 11 8))

theorem State.alignTrigger_late {f : Nat} (h : ¬ s.timely k u f) : s.alignTrigger k u f = s := by
  unfold State.alignTrigger
  dsimp only
  rw [if_pos]
  unfold State.timely at h
  simp only [Bool.or_eq_true, decide_eq_true_eq]
  by_contra hc
  simp only [not_or, not_lt, not_le] at hc
  obtain ⟨⟨h1, h2⟩, h3⟩ := hc
  exact h ⟨h1, h2, h3⟩

theorem State.alignTrigger_timely {f : Nat} (h : s.timely k u f) :
    let t := s.alignTrigger k u f
    let v := s.unitAt u
    t.unitTriple u = s.unitTriple u ∧ (t.unitAt u).lastUse = s.now ∧
      (t.unitAt u).off = v.off + tdivI ((f : Int) - s.srcLat k - s.unitFire u (s.fld (srcKey k 4) 11 8) - v.off) 16 := by
  intro t v
  have ht : t = s.alignTrigger k u f := rfl
  unfold State.alignTrigger at ht
  dsimp only at ht
  obtain ⟨h1, h2, h3⟩ := h
  rw [if_neg (by simp [h1, h2, h3])] at ht
  obtain ⟨h4, h5, -⟩ := State.alignJudge_unitAt (s := s.setUnit u _) (k := k) (u := u) _
  rw [ht, h4, h5, State.setUnit_unitAt, State.alignJudge_unitTriple, State.setUnit_unitTriple]
  exact ⟨rfl, rfl, rfl⟩

/-! ### A pair that a port offers -/

/-- What a unit does with the pair `(x, f)` that source `k`'s port offers, once the pair is taken. -/
def State.alignUse (s : State) (k u : Nat) (x : Option Nat) (f : Nat) : State :=
  if !s.srcEn k then s
  else if s.srcMode k = 1 then
    match x with
    | none => s
    | some x =>
      if (s.unitAt u).period = some (s.now / max 1 (s.alignPeriod k)) then s
      else (s.setUnit u { s.unitAt u with period := some (s.now / max 1 (s.alignPeriod k)) }).alignSensor k u x f
  else if s.srcMode k = 2 then if u < 16 && x.isSome then s else s.alignTrigger k u f
  else s

theorem State.alignPair_nil (h : s.unitOffers (s.srcUnit k) = []) : s.alignPair k = s := by
  unfold State.alignPair
  dsimp only
  rw [h]

theorem State.alignPair_cons {x : Option Nat} {f : Nat} {rest : List (Option Nat × Nat)} (h : s.unitOffers (s.srcUnit k) = (x, f) :: rest) :
    s.alignPair k = (s.dropOffer (s.srcUnit k)).alignUse k (s.srcUnit k) x f := by
  unfold State.alignPair
  dsimp only
  rw [h]
  rfl

theorem State.alignUse_keeps (f : State → β) (hw : ∀ s k v, f (State.wrN s k v) = f s) (hg : ∀ (s : State) g, f { s with grid := g } = f s)
    (he : ∀ s b, f (State.event s pgGrid b) = f s) (h1 : ∀ s p v, f (State.setCsi s p v) = f s) (h2 : ∀ s p v, f (State.setEth s p v) = f s)
    (x : Option Nat) (i : Nat) : f (s.alignUse k u x i) = f s := by
  unfold State.alignUse
  split
  · rfl
  split
  · split
    · rfl
    · split
      · rfl
      · rw [State.alignSensor_keeps f hw hg he h1 h2]
        exact hg _ _
  split
  · split
    · rfl
    · exact State.alignTrigger_keeps f hw hg he i
  · rfl

theorem State.alignUse_unitOffers (x : Option Nat) (i : Nat) : (s.alignUse k u x i).unitOffers u = s.unitOffers u := by
  unfold State.alignUse
  split
  · rfl
  split
  · split
    · rfl
    · split
      · rfl
      · rw [State.alignSensor_unitOffers, State.setUnit_unitOffers]
  split
  · split
    · rfl
    · exact State.alignTrigger_unitOffers i
  · rfl

theorem sameRegs.alignUse {ks : List Nat} (h : sameRegs s t ks) (h1 : alignShown ⊆ ks) (h2 : tmapKeys u ⊆ ks) (h3 : clampKeys ⊆ ks)
    (x : Option Nat) (i : Nat) : sameRegs s (t.alignUse k u x i) ks := by
  unfold State.alignUse
  split
  · exact h
  split
  · split
    · exact h
    · exact .ite h ((h.setUnit _).alignSensor h1 h2 h3 _ i)
  split
  · exact .ite h (h.alignTrigger h1 i)
  · exact h

/-- When a pair is not used. -/
theorem State.alignUse_idle {x : Option Nat} {f : Nat} (h : s.srcEn k = false ∨ s.srcMode k = 0 ∨ s.srcMode k = 3 ∨
    (s.srcMode k = 1 ∧ (x = none ∨ ¬ (s.unitAt u).period ≠ some (s.now / max 1 (s.alignPeriod k)))) ∨
    (s.srcMode k = 2 ∧ (¬ s.timely k u f ∨ (x.isSome = true ∧ u < 16)))) : s.alignUse k u x f = s := by
  unfold State.alignUse
  rcases h with h | h | h | ⟨h, hx⟩ | ⟨h, hx⟩
  · simp [h]
  · simp [h]
  · simp [h]
  · rcases hx with rfl | hx
    · simp [h]
    · rw [if_pos h]
      cases x with
      | none => simp
      | some x => simp [not_not.1 hx]
  · rw [if_neg (by omega : ¬ s.srcMode k = 1), if_pos h]
    rcases hx with hx | hx
    · rw [State.alignTrigger_late hx]
      simp
    · rw [if_pos (by simp [hx.1, hx.2] : (decide (u < 16) && x.isSome) = true)]
      simp

/-- The current alignment period counts as used. -/
def State.usePeriod (s : State) (k u : Nat) : State :=
  s.setUnit u { s.unitAt u with period := some (s.now / max 1 (s.alignPeriod k)) }

theorem State.alignUse_sensor {y f : Nat} (he : s.srcEn k = true) (hm : s.srcMode k = 1)
    (hp : (s.unitAt u).period ≠ some (s.now / max 1 (s.alignPeriod k))) : s.alignUse k u (some y) f =
      (s.usePeriod k u).alignSensor k u y f := by
  unfold State.alignUse State.usePeriod
  simp [he, hm, hp]

theorem State.alignUse_trigger {x : Option Nat} {f : Nat} (he : s.srcEn k = true) (hm : s.srcMode k = 2) (hx : x = none ∨ 16 ≤ u) :
    s.alignUse k u x f = s.alignTrigger k u f := by
  unfold State.alignUse
  have h : ¬ (decide (u < 16) && x.isSome) = true := by
    rcases hx with rfl | hx
    · simp
    · simp [Nat.not_lt.2 hx]
  rw [if_neg (by simp [he]), if_neg (by omega), if_pos hm, if_neg h]

/-! What a unit reads besides its port is as before once the pair is taken. -/

@[simp] theorem State.dropOffer_srcEn : (s.dropOffer u).srcEn k = s.srcEn k := State.dropOffer_keeps (fun t => t.srcEn k) (fun _ _ _ => rfl) (fun _ _ _ => rfl)
@[simp] theorem State.dropOffer_srcMode : (s.dropOffer u).srcMode k = s.srcMode k := State.dropOffer_keeps (fun t => t.srcMode k) (fun _ _ _ => rfl) (fun _ _ _ => rfl)
@[simp] theorem State.dropOffer_srcLat : (s.dropOffer u).srcLat k = s.srcLat k := State.dropOffer_keeps (fun t => t.srcLat k) (fun _ _ _ => rfl) (fun _ _ _ => rfl)
@[simp] theorem State.dropOffer_unitAt : (s.dropOffer u).unitAt u = s.unitAt u := State.dropOffer_keeps (fun t => t.unitAt u) (fun _ _ _ => rfl) (fun _ _ _ => rfl)
@[simp] theorem State.dropOffer_now : (s.dropOffer u).now = s.now := State.dropOffer_keeps (fun t => t.now) (fun _ _ _ => rfl) (fun _ _ _ => rfl)
@[simp] theorem State.dropOffer_alignPeriod : (s.dropOffer u).alignPeriod k = s.alignPeriod k := State.dropOffer_keeps (fun t => t.alignPeriod k) (fun _ _ _ => rfl) (fun _ _ _ => rfl)
@[simp] theorem State.dropOffer_unitFire : (s.dropOffer u).unitFire u k = s.unitFire u k := State.dropOffer_keeps (fun t => t.unitFire u k) (fun _ _ _ => rfl) (fun _ _ _ => rfl)
@[simp] theorem State.dropOffer_lastFire : (s.dropOffer u).lastFire k = s.lastFire k := State.dropOffer_keeps (fun t => t.lastFire k) (fun _ _ _ => rfl) (fun _ _ _ => rfl)
@[simp] theorem State.dropOffer_trigPeriod : (s.dropOffer u).trigPeriod k = s.trigPeriod k := State.dropOffer_keeps (fun t => t.trigPeriod k) (fun _ _ _ => rfl) (fun _ _ _ => rfl)
@[simp] theorem State.dropOffer_fld {j hi lo : Nat} : (s.dropOffer u).fld j hi lo = s.fld j hi lo :=
  State.dropOffer_keeps (fun t => t.fld j hi lo) (fun _ _ _ => rfl) (fun _ _ _ => rfl)

theorem State.dropOffer_timely {f : Nat} : (s.dropOffer u).timely k u f ↔ s.timely k u f := by
  simp [State.timely]

/-! ### No pair for four periods -/

theorem sameRegs.bit_gridShow {j b : Nat} (h1 : j ≠ rk pgGrid 0x114) (h2 : j ≠ rk pgGrid 0x13C) : s.gridShow.bit j b = s.bit j b :=
  ((sameRegs.refl s [rk pgGrid 0x114, rk pgGrid 0x13C]).gridShow (by simp) (by simp)).bit (by simp [h1, h2])

/-- What an element's own step of a fold sets and no later step takes away holds at the end. -/
theorem foldl_sets {ι σ : Type} {P : σ → Prop} {g : σ → ι → σ} {i : ι} {l : List ι} (hi : i ∈ l) (h1 : ∀ a, P (g a i))
    (h2 : ∀ a j, P a → P (g a j)) (a : σ) : P (l.foldl g a) := by
  induction l generalizing a with
  | nil => exact absurd hi List.not_mem_nil
  | cons j l ih =>
    rw [List.foldl_cons]
    rcases List.mem_cons.1 hi with rfl | hi
    · exact List.foldlRecOn l g (h1 a) (fun b hb j _ => h2 b j hb)
    · exact ih hi _

/-- A follower's status shows the unit's state. -/
theorem State.unitShow_aligned (hk : k ∈ s.followers u) : (s.unitShow u).bit (srcKey k 0x10) 0 = (s.unitAt u).aligned := by
  unfold State.unitShow
  dsimp only
  rw [sameRegs.bit_gridShow (by unfold srcKey; simp; omega) (by unfold srcKey; simp; omega)]
  have hset (a : State) (j : Nat) : ∀ w x o,
      ((((a.setBit (srcKey j 0x10) 0 (s.unitAt u).aligned).setFld (srcKey j 0x10) 7 4 w).setFld (srcKey j 0x10) 31 16 x).wrN (srcKey j 0x14) o).bit
        (srcKey k 0x10) 0 = if k = j then (s.unitAt u).aligned else a.bit (srcKey k 0x10) 0 := by
    intro w x o
    have h14 : srcKey k 0x10 ≠ srcKey j 0x14 := by
      unfold srcKey
      simp
      omega
    rw [State.bit_congr (State.rd_wrN_ne _ _ h14), State.bit_setFld _ _ _ _ _ _ _ (by decide) (by decide), if_neg (by omega),
      State.bit_setFld _ _ _ _ _ _ _ (by decide) (by decide), if_neg (by omega), State.bit_setBit _ _ _ _ _ _ (by decide)]
    refine if_congr ?_ rfl rfl
    unfold srcKey
    simp
  refine foldl_sets (P := fun a : State => a.bit (srcKey k 0x10) 0 = (s.unitAt u).aligned) hk (fun a => ?_) (fun a j ha => ?_) s
  · rw [hset, if_pos rfl]
  · rw [hset, ha, ite_self]

/-! What shows the units is no source's configuration. -/

theorem sameRegs.srcEn (h : sameRegs s t alignShown) : t.srcEn k = s.srcEn k := h.bit (srcKey_notMem_alignShown (by decide))
theorem sameRegs.srcMode (h : sameRegs s t alignShown) : t.srcMode k = s.srcMode k := h.fld (srcKey_notMem_alignShown (by decide))
theorem sameRegs.srcUnit (h : sameRegs s t alignShown) : t.srcUnit k = s.srcUnit k := by
  unfold State.srcUnit
  rw [h.fld (srcKey_notMem_alignShown (by decide)), h.bit (srcKey_notMem_alignShown (by decide))]

theorem sameRegs.followers (h : sameRegs s t alignShown) : t.followers u = s.followers u := by
  unfold State.followers
  simp only [h.srcEn, h.srcMode, h.srcUnit]

/-- A source's status shows UNALIGNED once its unit is. -/
theorem State.unalign_aligned (hk : k ∈ s.followers u) : (s.unalign u).bit (srcKey k 0x10) 0 = false := by
  have hun := State.unalign_unitAt (s := s) (u := u)
  unfold State.unalign at hun
  extract_lets v was s1 s2 s3 at hun
  change (s3.unitShow u).bit _ _ = _
  have h2 : sameRegs s s2 alignShown := (sameRegs.refl s _).same rfl
  have h3 : sameRegs s s3 alignShown := .ite (h2.event (by simp [alignShown])) h2
  rw [State.unitShow_aligned (h3.followers.symm ▸ hk)]
  rw [State.unitShow_unitAt] at hun
  rw [hun]

/-- What shows the units raises no event. -/
theorem State.unitShow_bit_event (s : State) (b : Nat) : (s.unitShow u).bit (rk pgGrid 0x14) b = s.bit (rk pgGrid 0x14) b := by
  unfold State.unitShow
  dsimp only
  rw [sameRegs.bit_gridShow (by simp) (by simp)]
  refine foldl_keeps (fun t : State => t.bit (rk pgGrid 0x14) b) _ (fun t j => State.bit_congr ?_ b) _ _
  have h10 : rk pgGrid 0x14 ≠ srcKey j 0x10 := by
    unfold srcKey
    simp
    omega
  have h14 : rk pgGrid 0x14 ≠ srcKey j 0x14 := by
    unfold srcKey
    simp
  rw [State.rd_wrN_ne _ _ h14, State.rd_setFld_ne _ _ _ _ h10, State.rd_setFld_ne _ _ _ _ h10, State.rd_setBit_ne _ _ _ h10]

/-- A unit that becomes UNALIGNED raises the event for its sources. -/
theorem State.unalign_event (hk : k ∈ s.followers u) (ha : (s.unitAt u).aligned = true) : (s.unalign u).bit (rk pgGrid 0x14) 2 = true := by
  have hshow (t : State) : (t.unitShow u).bit (rk pgGrid 0x14) 2 = t.bit (rk pgGrid 0x14) 2 :=
    State.unitShow_bit_event t 2
  unfold State.unalign
  extract_lets v was s1 s2 s3
  rw [hshow]
  have h3 : s3 = s2.event pgGrid 2 := if_pos (by
    have hne : (s2.followers u).isEmpty = false := by
      rw [List.isEmpty_eq_false_iff]
      exact List.ne_nil_of_mem hk
    simp [was, v, ha, hne])
  rw [h3, State.bit_event_self _ _ _ (by decide)]

/-- A source shows UNALIGNED once its unit does. -/
theorem State.alignTimeout_eq : s.alignTimeout k =
    if s.srcEn k = true ∧ s.srcMode k ≠ 0 ∧ (s.unitAt (s.srcUnit k)).aligned = true ∧
      (s.unitAt (s.srcUnit k)).lastUse + 4 * s.alignPeriod k ≤ s.now then s.unalign (s.srcUnit k) else s := by
  unfold State.alignTimeout
  dsimp only
  refine if_congr ?_ rfl rfl
  simp [and_assoc]

end
end Sys2Proof.Machine

open Sys2Proof Sys2Proof.Machine in
/-- Settles O5: a commit is an owned write; a unit's pair is taken from its port and then used or not; a timeout makes the unit UNALIGNED. -/
theorem alignmentIsMeasuredAndCommitted : Obligations.AlignmentIsMeasuredAndCommitted := by
  unfold Obligations.AlignmentIsMeasuredAndCommitted
  refine ⟨fun s h v hr => ⟨fun p => ?_, fun p => ?_⟩, fun s k u x f rest => ?_, fun s k => ?_⟩
  · refine ⟨_, rfl, ?_⟩
    have hp : pgCsi p ≠ pgPort (1 - h) := by
      unfold pgCsi pgPort
      omega
    have hp' : pgCsi p ≠ pgPort h := by
      unfold pgCsi pgPort
      omega
    have hk : ∀ p : Fin 16, (pageKind (pgCsi p)).isSome = true := by decide
    rw [State.ownedWrite_eq hr hp (hk p) hp', ← BitVec.testBit_toNat]
    have hbase : sameRegs s (s.reply h .done) (wide (rk (pgPort h) 0x48) ++ wide (rk (pgPort h) 0x60)) := (sameRegs.refl s _).same (State.reply_regs ..)
    by_cases ho : s.isOwner h = true
    · simp only [ho, if_true, true_and]
      refine ⟨fun a => ?_, ?_, ?_, ?_⟩
      · rw [State.bump_byte, State.csiCommit_keeps (fun t : State => t.byte a) (fun _ _ _ => State.setCsi_byte ..), State.reply_byte]
      · rw [State.bump_csiAt, State.csiCommit_csiAt, State.reply_csiAt]
        split <;> rfl
      · rw [State.bump_csiAt, State.csiCommit_csiAt, State.reply_csiAt, State.reply_rd64, State.reply_rd64, State.reply_rdN]
        split <;> rfl
      · exact (hbase.same (State.csiCommit_keeps State.regs (fun _ _ _ => State.setCsi_regs ..) p v.toNat)).bump (by simp) (by simp [rk_add])
    · simp only [ho, Bool.false_eq_true, if_false, false_and]
      refine ⟨fun a => ?_, ?_, ?_, .bump (.ite (.bump hbase (by simp) (by simp [rk_add])) hbase) (by simp) (by simp [rk_add])⟩
      · rw [State.bump_byte]
        split <;> simp [State.denied]
      · rw [State.bump_csiAt]
        split <;> simp [State.denied]
      · rw [State.bump_csiAt]
        split <;> simp [State.denied]
  · refine ⟨_, rfl, ?_⟩
    have hp : pgEth p ≠ pgPort (1 - h) := by
      unfold pgEth pgPort
      omega
    have hp' : pgEth p ≠ pgPort h := by
      unfold pgEth pgPort
      omega
    have hk : ∀ p : Fin 8, (pageKind (pgEth p)).isSome = true := by decide
    rw [State.ownedWrite_eq hr hp (hk p) hp', ← BitVec.testBit_toNat]
    have hbase : sameRegs s (s.reply h .done) (wide (rk (pgPort h) 0x48) ++ wide (rk (pgPort h) 0x60)) := (sameRegs.refl s _).same (State.reply_regs ..)
    by_cases ho : s.isOwner h = true
    · simp only [ho, if_true, true_and]
      refine ⟨fun a => ?_, ?_, ?_, ?_⟩
      · rw [State.bump_byte, State.ethCommit_keeps (fun t : State => t.byte a) (fun _ _ _ => State.setEth_byte ..), State.reply_byte]
      · rw [State.bump_ethAt, State.ethCommit_ethAt, State.reply_ethAt]
        split <;> rfl
      · rw [State.bump_ethAt, State.ethCommit_ethAt, State.reply_ethAt, State.reply_rd64, State.reply_rd64, State.reply_rdN]
        split <;> rfl
      · exact (hbase.same (State.ethCommit_keeps State.regs (fun _ _ _ => State.setEth_regs ..) p v.toNat)).bump (by simp) (by simp [rk_add])
    · simp only [ho, Bool.false_eq_true, if_false, false_and]
      refine ⟨fun a => ?_, ?_, ?_, .bump (.ite (.bump hbase (by simp) (by simp [rk_add])) hbase) (by simp) (by simp [rk_add])⟩
      · rw [State.bump_byte]
        split <;> simp [State.denied]
      · rw [State.bump_ethAt]
        split <;> simp [State.denied]
      · rw [State.bump_ethAt]
        split <;> simp [State.denied]
  · intro v tr arrival m fire kn span fresh timely shown tmap clamps hu
    have hdkeep {β : Type} (g : State → β) := State.dropOffer_keeps (s := s) (u := u) g
    refine ⟨fun h => ?_, fun h => ⟨_, rfl, ?_⟩⟩
    · exact congrArg _ (State.alignPair_nil (by rw [hu, h]))
    · rw [State.alignPair_cons (by rw [hu, h]), hu]
      have hregs : (s.dropOffer u).regs = s.regs := hdkeep State.regs (fun _ _ _ => State.setCsi_regs ..) (fun _ _ _ => State.setEth_regs ..)
      have hsub1 : alignShown ⊆ shown ++ tmap ++ clamps := fun _ h => List.mem_append_left _ (List.mem_append_left _ h)
      have hsub2 : tmapKeys u ⊆ shown ++ tmap ++ clamps := fun _ h => List.mem_append_left _ (List.mem_append_right _ h)
      have hsub3 : clampKeys ⊆ shown ++ tmap ++ clamps := List.subset_append_right _ _
      refine ⟨fun a => ?_, ?_, ((sameRegs.refl s _).same hregs).alignUse hsub1 hsub2 hsub3 x f, fun hi => State.alignUse_idle ?_, ?_, ?_⟩
      · rw [State.alignUse_keeps (fun t : State => t.byte a) (fun _ _ _ => State.wrN_byte ..) (fun _ _ => rfl) (fun _ _ => State.event_byte ..)
          (fun _ _ _ => State.setCsi_byte ..) (fun _ _ _ => State.setEth_byte ..)]
        exact hdkeep (fun t : State => t.byte a) (fun _ _ _ => State.setCsi_byte ..) (fun _ _ _ => State.setEth_byte ..)
      · rw [State.alignUse_unitOffers, State.dropOffer_unitOffers, h]
        rfl
      · rw [State.dropOffer_timely]
        simp only [State.dropOffer_srcEn, State.dropOffer_srcMode, State.dropOffer_unitAt, State.dropOffer_now, State.dropOffer_alignPeriod]
        exact hi
      · intro he hm hfresh y hy
        rw [Option.mem_def.1 hy, State.alignUse_sensor (by simpa using he) (by simpa using hm) (by simpa using hfresh)]
        obtain ⟨d, hd⟩ : ∃ d, (s.dropOffer u).usePeriod k u = d := ⟨_, rfl⟩
        have hv : (d.unitAt u).step = v.step ∧ (d.unitAt u).off = v.off ∧ (d.unitAt u).sprev = v.sprev := by
          rw [← hd, State.usePeriod, State.setUnit_unitAt, State.dropOffer_unitAt]
          exact ⟨rfl, rfl, rfl⟩
        have hr : d.unitTriple u = tr ∧ d.unitKnom u = s.unitKnom u ∧ d.srcLat k = s.srcLat k ∧ d.now = s.now := by
          rw [← hd]
          exact ⟨(State.setUnit_unitTriple _).trans State.dropOffer_unitTriple, (State.unitKnom_congr rfl rfl).trans State.dropOffer_unitKnom,
            State.dropOffer_srcLat, State.dropOffer_now⟩
        rw [hd]
        obtain ⟨hstep, hoff, hprev⟩ := hv
        obtain ⟨htr, hkn, hlat, hnow⟩ := hr
        cases hs : v.step with
        | true =>
          obtain ⟨h1, h2⟩ := State.alignSensor_step (s := d) (k := k) (x := y) (f := f) (hstep.trans hs)
          rw [htr, hlat] at h1
          rw [h1, h2, hnow]
          exact ⟨rfl, fun _ => ⟨rfl, rfl, rfl, rfl⟩, fun h => absurd h (by decide)⟩
        | false =>
          obtain ⟨h1, h2, h3, h4, h5, h6, h7⟩ := State.alignSensor_move (s := d) (k := k) (x := y) (f := f) (hstep.trans hs)
          rw [htr, hlat] at h1
          rw [htr, hlat, hoff] at h4
          rw [htr, hprev] at h6
          rw [htr, hprev, hlat, hkn] at h7
          exact ⟨h3.trans hnow, fun h => absurd h (by decide), fun _ => ⟨h1, h2, h4, h5, h6, h7⟩⟩
      · intro he hm ht hx
        rw [State.alignUse_trigger (by simpa using he) (by simpa using hm) hx]
        obtain ⟨h1, h2, h3⟩ := State.alignTrigger_timely (State.dropOffer_timely.2 ht)
        simp only [State.dropOffer_unitTriple, State.dropOffer_now, State.dropOffer_unitAt, State.dropOffer_srcLat, State.dropOffer_fld,
          State.dropOffer_unitFire] at h1 h2 h3
        exact ⟨h1, ((sameRegs.refl s _).same hregs).alignTrigger (List.Subset.refl _) f, h2, h3⟩
  · intro u v counts shown
    refine ⟨_, rfl, fun h => ?_, fun h => ?_⟩
    · rw [State.alignTimeout_eq, if_neg h]
    · rw [State.alignTimeout_eq, if_pos h]
      obtain ⟨h1, h2, h3, h4⟩ := h
      have hk : (k : Nat) ∈ s.followers u := mem_followers.2 ⟨k.isLt, h1, h2, rfl⟩
      have hfr : sameRegs s (s.unalign u) alignShown := (sameRegs.refl s _).unalign (List.Subset.refl _)
      have hunit := State.unalign_unitAt (s := s) (u := u)
      refine ⟨fun a => ?_, hfr, State.unalign_unitTriple, ?_, by rw [hunit], State.unalign_aligned hk, State.unalign_event hk h3⟩
      · exact State.unalign_keeps (fun t : State => t.byte a) (fun _ _ _ => State.wrN_byte ..) (fun _ _ => rfl) (fun _ _ => State.event_byte ..)
      · unfold State.srcAligned
        rw [hfr.srcMode, hfr.srcUnit, hunit]
        simpa using h2
end
-- ==== Sys2Proof/Proofs/CsiDecoder.lean ====
section
/-! The event decoder of a CSI-2 port (R38, R43 to R45): the packet it takes, its words and their records. Settles O2. -/

namespace Sys2Proof.Machine
section
variable {s t : State} {p : Nat} {q : CsiQueued} {rest : List CsiQueued} {d : Desc}

/-! ### The packet at the head of the queue -/

theorem State.csiPop_sameRegs : sameRegs s (s.csiPop p q rest) [rk (pgCsi p) 0x170] :=
  ((sameRegs.refl s _).setFld (List.mem_singleton_self _)).same (State.setCsi_regs ..)

@[simp] theorem State.csiPop_csiAt : (s.csiPop p q rest).csiAt p = { s.csiAt p with queue := rest } := by
  unfold State.csiPop
  rw [State.setCsi_csiAt]

theorem State.csiPop_byte (a : Nat) : (s.csiPop p q rest).byte a = s.byte a := by
  unfold State.csiPop
  simp

/-- A port's descriptor depends on CSI_DESC_SEL and the custom descriptor's registers. -/
theorem State.csiDesc_congr (h : ∀ o, 0x108 ≤ o → o < 0x140 → t.rd (rk (pgCsi p) o) = s.rd (rk (pgCsi p) o)) :
    t.csiDesc p = s.csiDesc p := by
  have hn (o : Nat) (h1 : 0x108 ≤ o) (h2 : o < 0x140) : t.rdN (rk (pgCsi p) o) = s.rdN (rk (pgCsi p) o) := State.rdN_congr (h o h1 h2)
  have hcustom : t.customDesc p = s.customDesc p := by
    unfold State.customDesc
    simp only [show List.range 8 = [0, 1, 2, 3, 4, 5, 6, 7] from rfl, List.any_cons, List.any_nil]
    simp only [hn 0x10C (by decide) (by decide), hn 0x110 (by decide) (by decide), hn 0x114 (by decide) (by decide),
      hn 0x118 (by decide) (by decide), hn 0x11C (by decide) (by decide), hn 0x120 (by decide) (by decide), hn 0x124 (by decide) (by decide),
      hn 0x128 (by decide) (by decide), hn 0x12C (by decide) (by decide), hn 0x130 (by decide) (by decide), hn 0x134 (by decide) (by decide)]
  unfold State.csiDesc
  rw [hcustom, State.fld_congr (h 0x108 (by decide) (by decide))]

/-- The state in which the words of a packet with a good CRC are decoded. -/
def State.csiTaken (s : State) (p : Nat) (q : CsiQueued) (rest : List CsiQueued) : State := (s.csiPop p q rest).bump (rk (pgCsi p) 0x40)

theorem State.csiTaken_sameRegs : sameRegs s (s.csiTaken p q rest) (rk (pgCsi p) 0x170 :: wide (rk (pgCsi p) 0x40)) :=
  (State.csiPop_sameRegs.mono (by simp)).bump (by simp) (by simp [rk_add])

theorem State.csiTaken_count : (s.csiTaken p q rest).rd64 (rk (pgCsi p) 0x40) = (s.rd64 (rk (pgCsi p) 0x40) + 1) % 2 ^ 64 :=
  State.csiPop_sameRegs.rd64_bump (by simp) (by simp [rk_add])

@[simp] theorem State.csiTaken_csiAt : (s.csiTaken p q rest).csiAt p = { s.csiAt p with queue := rest } := by
  unfold State.csiTaken
  rw [State.bump_csiAt, State.csiPop_csiAt]

theorem State.csiTaken_byte (a : Nat) : (s.csiTaken p q rest).byte a = s.byte a := (State.bump_byte ..).trans (State.csiPop_byte a)

section
variable (hr : s.running (pgCsi p) = true) (hm : s.bit (rk (pgCsi p) 0x100) 0 = false) (ho : (s.csiAt p).out = [])
  (hq : (s.csiAt p).queue = q :: rest)
include hr hm ho hq

/-- A packet whose CRC fails counts and gives nothing. -/
theorem State.csiDecodePacket_bad (hc : q.pkt.crcOk = false) : s.csiDecodePacket p = (s.csiPop p q rest).bump (rk (pgCsi p) 0x60) := by
  unfold State.csiDecodePacket
  simp [hq, hr, hm, ho, hc]

/-- The words of any other are decoded in order; bytes that fill no word count once. -/
theorem State.csiDecodePacket_good (hd : s.csiDesc p = some d) (hc : q.pkt.crcOk = true) : s.csiDecodePacket p =
    let t := (chunkWords d.wb d.swap q.pkt.payload).foldl (fun s w => s.csiWord p q.fus d w) (s.csiTaken p q rest)
    if q.pkt.payload.length % d.wb ≠ 0 then t.csiBadWord p else t := by
  have hdesc : (s.csiTaken p q rest).csiDesc p = some d := by
    rw [← hd]
    refine State.csiDesc_congr (fun o h1 h2 => State.csiTaken_sameRegs _ ?_)
    simp
    omega
  unfold State.csiTaken at hdesc
  unfold State.csiDecodePacket State.csiTaken
  simp [hq, hr, hm, ho, hc, hdesc]

end

/-! ### Words -/

/-- An EVENT word after a TIME_HI word gives one record. -/
theorem State.csiWord_event {stamp w thi : Nat} (ht : d.typeOf w = some .event) (hp : (s.csiAt p).prevThi = some thi) :
    s.csiWord p stamp d w = (s.csiTime p stamp ((s.csiAt p).sensorTime d (d.tlo.get w))).1.csiEmit p
      (ze64 p (d.x.get w) (d.y.get w) ((d.pol.get w % 2 == 1) != d.polInv) 0
        (s.csiTime p stamp ((s.csiAt p).sensorTime d (d.tlo.get w))).2) := by
  unfold State.csiWord
  dsimp only
  rw [ht]
  simp [hp]

/-- No word counts before the first TIME_HI word, and no VECTOR word without a row. -/
theorem State.csiWord_bad {stamp w : Nat} (h : ((s.csiAt p).prevThi = none ∧ d.typeOf w ≠ some .timeHi) ∨
    ((s.csiAt p).row = none ∧ d.typeOf w = some .vector)) : s.csiWord p stamp d w = s.csiBadWord p := by
  unfold State.csiWord
  dsimp only
  rcases h with ⟨hp, ht⟩ | ⟨hrow, ht⟩
  · split
    · rfl
    · exact absurd ‹_› ht
    · rw [if_pos (by simp [hp])]
  · rw [ht]
    dsimp only
    rw [hrow]
    exact ite_self _

/-- A record's time, and the count of the clamps to the packet's stamp (R45). -/
theorem State.csiTime_eq {stamp x : Nat} : s.csiTime p stamp x =
    if (stamp : Int) < (s.csiAt p).triple.map x then (s.sat (rk (pgCsi p) 0x178), stamp)
    else (s, ofSigned 64 ((s.csiAt p).triple.map x)) := rfl

theorem State.csiTime_keeps {β : Type} (f : State → β) (h : ∀ s : State, f (s.sat (rk (pgCsi p) 0x178)) = f s) (stamp x : Nat) :
    f (s.csiTime p stamp x).1 = f s := by
  rw [State.csiTime_eq]
  split
  · exact h s
  · rfl

theorem State.csiTime_sameRegs {stamp x : Nat} : sameRegs s (s.csiTime p stamp x).1 [rk (pgCsi p) 0x178] := by
  rw [State.csiTime_eq]
  split
  · exact (sameRegs.refl s _).sat (List.mem_singleton_self _)
  · exact sameRegs.refl s _

theorem State.csiEmit_csiAt {w : DWord} : (s.csiEmit p w).csiAt p = { s.csiAt p with out := (s.csiAt p).out ++ [w] } := by
  unfold State.csiEmit
  rw [State.bump_csiAt, State.setCsi_csiAt]

theorem State.csiEmit_byte {w : DWord} (a : Nat) : (s.csiEmit p w).byte a = s.byte a := by
  unfold State.csiEmit
  simp

theorem State.csiEmit_sameRegs {w : DWord} : sameRegs s (s.csiEmit p w) (wide (rk (pgCsi p) 0x70)) :=
  sameRegs.bump ((sameRegs.refl s _).same (State.setCsi_regs ..)) (by simp) (by simp [rk_add])

theorem State.csiEmit_count {w : DWord} : (s.csiEmit p w).rd64 (rk (pgCsi p) 0x70) = (s.rd64 (rk (pgCsi p) 0x70) + 1) % 2 ^ 64 := by
  unfold State.csiEmit
  rw [State.rd64_bump_self, State.setCsi_rd64]

@[simp] theorem State.csiBadWord_csiAt : (s.csiBadWord p).csiAt p = s.csiAt p := by
  unfold State.csiBadWord
  rw [State.bump_csiAt]

theorem State.csiBadWord_byte (a : Nat) : (s.csiBadWord p).byte a = s.byte a := by
  unfold State.csiBadWord
  rw [State.bump_byte]

theorem State.csiBadWord_count : (s.csiBadWord p).rd64 (rk (pgCsi p) 0x78) = (s.rd64 (rk (pgCsi p) 0x78) + 1) % 2 ^ 64 := by
  unfold State.csiBadWord
  rw [State.rd64_bump_self]

theorem State.rd64_lt (k : Nat) : s.rd64 k < 2 ^ 64 := by
  have h1 := s.rdN_lt k
  have h2 := s.rdN_lt (k + 4)
  unfold State.rd64
  omega

/-- A run of bad words counts each of them and leaves the rest of the port as it is. -/
theorem State.csiWords_bad {stamp : Nat} {ws : List Nat} (h : ∀ w ∈ ws, ((s.csiAt p).prevThi = none ∧ d.typeOf w ≠ some .timeHi) ∨
    ((s.csiAt p).row = none ∧ d.typeOf w = some .vector)) :
    let t := ws.foldl (fun s w => s.csiWord p stamp d w) s
    t.csiAt p = s.csiAt p ∧ t.rd64 (rk (pgCsi p) 0x78) = (s.rd64 (rk (pgCsi p) 0x78) + ws.length) % 2 ^ 64 ∧ sameBytes s t := by
  induction ws generalizing s with
  | nil =>
    rw [List.foldl_nil, List.length_nil, Nat.add_zero, Nat.mod_eq_of_lt (State.rd64_lt _)]
    exact ⟨rfl, rfl, sameBytes.refl s⟩
  | cons w ws ih =>
    have hw := State.csiWord_bad (stamp := stamp) (h w List.mem_cons_self)
    have hat := State.csiBadWord_csiAt (s := s) (p := p)
    obtain ⟨h1, h2, h3⟩ := ih (s := s.csiBadWord p) (fun w hw => by rw [hat]; exact h w (List.mem_cons_of_mem _ hw))
    rw [List.foldl_cons, hw]
    refine ⟨h1.trans hat, ?_, fun a => (h3 a).trans (State.csiBadWord_byte a)⟩
    rw [h2, State.csiBadWord_count, Nat.mod_add_mod, List.length_cons, Nat.add_assoc, Nat.add_comm 1]

/-- A payload of one word is that word. -/
theorem chunkWords_single {wb : Nat} {swap : Bool} {bs : List Byte} (h : bs.length = wb) (h0 : 0 < wb) :
    chunkWords wb swap bs = [if swap then beNat bs else leNat bs] := by
  unfold chunkWords
  rw [h, Nat.div_self h0]
  simp [← h]

end
end Sys2Proof.Machine

open Sys2Proof Sys2Proof.Machine in
/-- Settles O2: the packet is taken, its one word read, and the record emitted with its mapped time. -/
theorem eventWordBecomesARecord : Obligations.EventWordBecomesARecord := by
  unfold Obligations.EventWordBecomesARecord
  intro s p q rest d thi hr hm ho hq hd hthi hwb hlen htype w x r T T'
  refine ⟨_, rfl, ?_⟩
  cases hc : q.pkt.crcOk with
  | false =>
    rw [State.csiDecodePacket_bad hr hm ho hq hc]
    refine ⟨by rw [State.bump_csiAt, State.csiPop_csiAt], fun a => (State.bump_byte ..).trans (State.csiPop_byte a), fun _ => ⟨?_, ?_⟩,
      fun h => absurd h (by decide)⟩
    · exact State.csiPop_sameRegs.rd64_bump (by simp) (by simp [rk_add])
    · rw [State.bump_csiAt, State.csiPop_csiAt, ← ho]
  | true =>
    have hx : ({ s.csiAt p with queue := rest } : CsiPort).sensorTime d (d.tlo.get w) = x := by
      unfold CsiPort.sensorTime
      rw [hthi]
      rfl
    rw [State.csiDecodePacket_good hr hm ho hq hd hc, chunkWords_single hlen hwb]
    dsimp only
    rw [hlen, Nat.mod_self, if_neg (by simp), List.foldl_cons, List.foldl_nil]
    change ((State.csiWord _ p q.fus d w).csiAt p).queue = rest ∧ _
    rw [State.csiWord_event htype (by rw [State.csiTaken_csiAt]; exact hthi), State.csiTaken_csiAt, hx]
    have hT : (s.csiAt p).triple.map x = T := rfl
    have hbase := State.csiTaken_sameRegs (s := s) (p := p) (q := q) (rest := rest)
    have hfr := hbase.mono (List.subset_cons_self (rk (pgCsi p) 0x178) _) |>.trans
      ((State.csiTime_sameRegs (s := s.csiTaken p q rest) (p := p) (stamp := q.fus) (x := x)).mono (by simp))
    have hat := State.csiTime_keeps (s := s.csiTaken p q rest) (p := p) (fun t => t.csiAt p) (fun _ => State.sat_csiAt ..) q.fus x
    have hval : ((s.csiTaken p q rest).csiTime p q.fus x).2 = T' := by
      rw [State.csiTime_eq, State.csiTaken_csiAt, hT]
      unfold T'
      split <;> rfl
    rw [hval]
    refine ⟨?_, fun a => ?_, fun h => absurd h (by decide), fun _ => ⟨?_, ?_, ?_, fun hlt => ?_⟩⟩
    · rw [State.csiEmit_csiAt, hat, State.csiTaken_csiAt]
    · rw [State.csiEmit_byte, State.csiTime_keeps (fun t => t.byte a) (fun _ => State.sat_byte ..), State.csiTaken_byte]
    · rw [State.csiEmit_csiAt, hat, State.csiTaken_csiAt]
      exact congrArg (· ++ _) ho
    · rw [State.csiEmit_sameRegs.rd64 (by simp) (by simp [rk_add]), State.csiTime_sameRegs.rd64 (by simp) (by simp [rk_add]), State.csiTaken_count]
    · rw [State.csiEmit_count, hfr.rd64 (by simp) (by simp [rk_add])]
    · rw [State.csiEmit_sameRegs.rdN (by simp), State.csiTime_eq, State.csiTaken_csiAt, hT, if_pos hlt, State.rdN_sat, if_pos rfl,
        hbase.rdN (by simp)]
end
-- ==== Sys2Proof/Proofs/BlockControl.lean ====
section
/-! A write of BLK_CTRL by cases, and what enabling a CSI-2 port starts (R33, R475). -/

namespace Sys2Proof.Machine
section
variable {s t : State} {p : Nat}

/-! ### BLK_CTRL -/

/-- The three fields of BLK_CTRL as a write carries them. -/
theorem ctrlBits_fields (en halt test : Bool) :
    let v : Word := BitVec.ofNat 32 ((if en then 1 else 0) + (if halt then 2 else 0) + (if test then 4 else 0))
    v.getLsbD 0 = en ∧ v.getLsbD 1 = halt ∧ v.getLsbD 2 = test := by
  revert en halt test
  decide

/-- A write that leaves TEST 0: HALT is stored, then a change of ENABLE acts on the block's state. -/
theorem State.ctrlWrite_enable {v : Word} (hp : p ≠ pgSys) (hk : (pageKind p).isSome = true) (h2 : v.getLsbD 2 = false) :
    s.ctrlWrite p v =
      if v.getLsbD 0 = s.enabled p then s.haltWrite p (v.getLsbD 1)
      else if s.blk p = stIdle then (s.haltWrite p (v.getLsbD 1)).enableWrite p
      else if s.blk p = stRunning then (s.haltWrite p (v.getLsbD 1)).disableWrite p
      else (s.haltWrite p (v.getLsbD 1)).cfgIgnored p := by
  unfold State.ctrlWrite
  rw [if_neg (by simp [hp, Option.isSome_iff_ne_none.1 hk])]
  simp only [h2, Bool.and_false, Bool.false_eq_true, if_false, beq_iff_eq]

/-- A write that leaves ENABLE: HALT is stored, then TEST acts. -/
theorem State.ctrlWrite_test {v : Word} (hp : p ≠ pgSys) (hk : (pageKind p).isSome = true) (h2 : v.getLsbD 2 = true)
    (h0 : v.getLsbD 0 = s.enabled p) : s.ctrlWrite p v = (s.haltWrite p (v.getLsbD 1)).testWrite p (s.enabled p) := by
  unfold State.ctrlWrite
  rw [if_neg (by simp [hp, Option.isSome_iff_ne_none.1 hk])]
  simp only [h2, h0, Bool.and_true, Bool.and_assoc, Bool.not_and_self, Bool.and_false, Bool.false_eq_true, if_false, if_true, beq_self_eq_true]

theorem State.ctrlBits_enable {en halt : Bool} (hp : p ≠ pgSys) (hk : (pageKind p).isSome = true) :
    s.ctrlBits p en halt false =
      if en = s.enabled p then s.haltWrite p halt
      else if s.blk p = stIdle then (s.haltWrite p halt).enableWrite p
      else if s.blk p = stRunning then (s.haltWrite p halt).disableWrite p
      else (s.haltWrite p halt).cfgIgnored p := by
  obtain ⟨h0, h1, h2⟩ := ctrlBits_fields en halt false
  unfold State.ctrlBits
  rw [State.ctrlWrite_enable hp hk h2, h0, h1]

theorem State.ctrlBits_test {halt : Bool} (hp : p ≠ pgSys) (hk : (pageKind p).isSome = true) :
    s.ctrlBits p (s.enabled p) halt true = (s.haltWrite p halt).testWrite p (s.enabled p) := by
  obtain ⟨h0, h1, h2⟩ := ctrlBits_fields (s.enabled p) halt true
  unfold State.ctrlBits
  rw [State.ctrlWrite_test hp hk h2 h0, h1]

theorem State.haltWrite_none {k : PageKind} {on : Bool} (hk : pageKind p = some k) (hh : pageHalt k = false) : s.haltWrite p on = s := by
  unfold State.haltWrite
  rw [hk]
  simp [hh]

theorem State.enableWrite_held (h : s.held p = true) : s.enableWrite p = s.cfgIgnored p := by
  unfold State.enableWrite
  rw [if_pos h]

theorem State.enableWrite_judged (h : s.held p = false) :
    s.enableWrite p = if (s.enableJudge p).2 = true then (s.enableJudge p).1.enterRunning p else (s.enableJudge p).1 := by
  unfold State.enableWrite
  rw [if_neg (by simp [h])]
  cases hj : s.enableJudge p with
  | mk t ok => cases ok <;> rfl

/-! ### Views that registers alone decide -/

theorem State.held_eq (h : t.regs = s.regs) : t.held p = s.held p := by
  unfold State.held State.pwrState
  rw [State.bit_eq h, State.fld_eq h]

theorem State.enabled_eq (h : t.regs = s.regs) : t.enabled p = s.enabled p := State.bit_eq h ..

/-- Whether a CSI-2 port may run depends on its mode, selection and descriptor registers. -/
theorem State.csiRefused_congr {i : Nat} (h : ∀ o, 0x100 ≤ o → o < 0x140 → t.rd (rk (pgCsi i) o) = s.rd (rk (pgCsi i) o)) :
    t.csiRefused i = s.csiRefused i := by
  unfold State.csiRefused
  rw [State.rdN_congr (h 0x100 (by decide) (by decide)), State.fld_congr (h 0x104 (by decide) (by decide)),
    State.csiDesc_congr (fun o h1 h2 => h o (by omega) h2)]

theorem pageKind_pgCsi : ∀ i : Fin 16, pageKind (pgCsi i) = some .csi := by decide
theorem pgCsi_sub (i : Nat) : pgCsi i - 0x20 = i := Nat.add_sub_cancel_left ..

theorem State.enableJudge_csi (i : Fin 16) :
    s.enableJudge (pgCsi i) = if s.csiRefused i then (s.event (pgCsi i) 1, false) else (s, true) := by
  unfold State.enableJudge
  rw [pageKind_pgCsi]
  simp only [pgCsi_sub]

/-! ### Entering RUNNING -/

/-- A block that enters RUNNING, before its chapter's start. -/
def State.entered (s : State) (p : Nat) : State :=
  let s := (s.setBlk p stRunning).setBit (rk p 0x0C) 0 true
  { s with safe := { s.safe with out := s.safe.out.filter (fun o => o.page != p || !o.dis) } }

theorem State.enterRunning_eq : s.enterRunning p = (s.entered p).startHook p := rfl

theorem State.entered_regs : (s.entered p).regs = ((s.setBlk p stRunning).setBit (rk p 0x0C) 0 true).regs := rfl

theorem State.entered_blk (hp : p ≠ pgSys) : (s.entered p).blk p = stRunning := by
  have h1 : (s.entered p).blk p = ((s.setBlk p stRunning).setBit (rk p 0x0C) 0 true).blk p := State.blk_eq State.entered_regs p
  have h2 : ((s.setBlk p stRunning).setBit (rk p 0x0C) 0 true).blk p = (s.setBlk p stRunning).blk p := by
    unfold State.blk
    rw [if_neg hp, if_neg hp, State.fld_congr (State.rd_setBit_ne _ _ _ (by simp))]
  rw [h1, h2, State.blk_setBlk _ _ _ hp (by decide)]

theorem State.entered_running (hp : p ≠ pgSys) : (s.entered p).running p = true := by
  unfold State.running
  rw [State.entered_blk hp]
  rfl

theorem State.entered_enabled : (s.entered p).enabled p = true := by
  rw [State.enabled_eq State.entered_regs]
  unfold State.enabled
  rw [State.bit_setBit _ _ _ _ _ _ (by decide), if_pos ⟨rfl, rfl⟩]

/-! ### A CSI-2 port starts -/

theorem State.alignStart_keeps {β : Type} {u : Nat} (f : State → β) (hw : ∀ s k v, f (State.wrN s k v) = f s)
    (hg : ∀ (s : State) g, f { s with grid := g } = f s) (he : ∀ s b, f (State.event s pgGrid b) = f s) : f (s.alignStart u) = f s := by
  unfold State.alignStart
  rw [State.unalign_keeps f hw hg he]
  exact hg _ _

theorem sameRegs.alignStart {ks : List Nat} {u : Nat} (h : sameRegs s t ks) (hk : alignShown ⊆ ks) : sameRegs s (t.alignStart u) ks :=
  (h.setUnit _).unalign hk

theorem State.startHook_csi (i : Fin 16) : s.startHook (pgCsi i) = (s.csiStart i).alignStart i := by
  unfold State.startHook State.portAlign
  rw [pageKind_pgCsi]
  simp only [pgCsi_sub]

theorem State.csiStart_csiAt {i : Nat} : (s.csiStart i).csiAt i =
    { s.csiAt i with prevThi := none, wraps := 0, row := none, frame := none, ovfMark := false, offers := [] } := by
  unfold State.csiStart
  rw [State.setFld_csiAt, State.setCsi_csiAt]

theorem State.csiStart_rd {i j : Nat} (h : j ≠ rk (pgCsi i) 0x174) : (s.csiStart i).rd j = s.rd j := by
  unfold State.csiStart
  rw [State.rd_setFld_ne _ _ _ _ h, State.setCsi_rd]

/-- GRID's page alone shows the alignment units. -/
theorem notMem_alignShown {j : Nat} (h : j < 0xD000 ∨ 0xE000 ≤ j) : j ∉ alignShown := by
  unfold alignShown srcKey rk pgGrid
  simp only [List.mem_append, List.mem_cons, List.not_mem_nil, or_false, List.mem_flatMap, List.mem_range, not_or, not_exists, not_and]
  exact ⟨⟨by omega, by omega, by omega⟩, fun i hi => ⟨by omega, by omega⟩⟩

theorem pgCsi_notMem_alignShown (i : Fin 16) : rk (pgCsi i) 0x10 ∉ alignShown := by
  refine notMem_alignShown (Or.inr ?_)
  unfold rk pgCsi
  omega

/-- A CSI-2 port that is enabled runs, with no TIME_HI and no row seen. -/
theorem State.enterRunning_csi (i : Fin 16) : (s.enterRunning (pgCsi i)).running (pgCsi i) = true ∧
    ((s.enterRunning (pgCsi i)).csiAt i).prevThi = none ∧ ((s.enterRunning (pgCsi i)).csiAt i).row = none := by
  have hp : pgCsi i ≠ pgSys := by
    unfold pgCsi pgSys
    omega
  have he : s.enterRunning (pgCsi i) = ((s.entered (pgCsi i)).csiStart i).alignStart i := by
    rw [State.enterRunning_eq, State.startHook_csi]
  have hcsi : (((s.entered (pgCsi i)).csiStart i).alignStart i).csiAt i = ((s.entered (pgCsi i)).csiStart i).csiAt i :=
    State.alignStart_keeps (fun t => t.csiAt i) (fun _ _ _ => State.wrN_csiAt ..) (fun _ _ => rfl) (fun _ _ => State.event_csiAt ..)
  have hrun : (((s.entered (pgCsi i)).csiStart i).alignStart i).running (pgCsi i) = (s.entered (pgCsi i)).running (pgCsi i) := by
    refine State.running_congr hp ?_
    rw [sameRegs.alignStart (sameRegs.refl _ _) (List.Subset.refl _) _ (pgCsi_notMem_alignShown i), State.csiStart_rd (by simp)]
  rw [he, hrun, hcsi, State.csiStart_csiAt]
  exact ⟨State.entered_running hp, rfl, rfl⟩

end
end Sys2Proof.Machine

open Sys2Proof Sys2Proof.Machine in
/-- Settles O3: every word of such a packet is a bad word; enabling the port clears what the decoder has seen. -/
theorem wordsBeforeTimeAreDiscarded : Obligations.WordsBeforeTimeAreDiscarded := by
  unfold Obligations.WordsBeforeTimeAreDiscarded
  intro s p g h q rest d ws bad early rowless
  refine ⟨fun hr hm ho hq hd hc hbad => ⟨_, rfl, ?_⟩, fun hg hr ho hidle hen hheld hok => ⟨_, rfl, ?_⟩⟩
  · rw [State.csiDecodePacket_good hr hm ho hq hd hc]
    have hwords : ∀ w ∈ ws, ((s.csiTaken p q rest).csiAt p).prevThi = none ∧ d.typeOf w ≠ some .timeHi ∨
        ((s.csiTaken p q rest).csiAt p).row = none ∧ d.typeOf w = some .vector := by
      rw [State.csiTaken_csiAt]
      rcases hbad with ⟨h1, h2⟩ | ⟨h1, h2⟩
      · exact fun w hw => Or.inl ⟨h1, h2 w hw⟩
      · exact fun w hw => Or.inr ⟨h1, h2 w hw⟩
    obtain ⟨h1, h2, h3⟩ := State.csiWords_bad (stamp := q.fus) hwords
    have hcount := State.csiTaken_sameRegs (s := s) (p := p) (q := q) (rest := rest) |>.rd64 (k := rk (pgCsi p) 0x78) (by simp) (by simp [rk_add])
    have hbytes : sameBytes s (s.csiTaken p q rest) := State.csiTaken_byte
    rw [hcount] at h2
    rw [State.csiTaken_csiAt] at h1
    dsimp only
    unfold bad
    split
    · rw [State.csiBadWord_csiAt, h1, State.csiBadWord_count, h2, Nat.mod_add_mod, Nat.add_assoc]
      exact ⟨ho, rfl, rfl, rfl, rfl, fun a => (State.csiBadWord_byte a).trans (hbytes.trans h3 a)⟩
    · rw [h1, h2]
      exact ⟨ho, rfl, rfl, rfl, rfl, hbytes.trans h3⟩
  · have hk : pageKind g = some .csi := by rw [hg, pageKind_pgCsi]
    have hp : g.val ≠ pgSys := by
      rw [hg]
      unfold pgCsi pgSys
      omega
    have hp' : g.val ≠ pgPort (1 - h) := by
      rw [hg]
      unfold pgCsi pgPort
      omega
    have hregs : (s.reply h .done).regs = s.regs := State.reply_regs ..
    have hjudge : ((s.reply h .done).enableJudge g) = ((s.reply h .done), true) := by
      rw [hg, State.enableJudge_csi] at hok ⊢
      rw [State.csiRefused_congr (fun _ _ _ => State.rd_eq hregs _)]
      cases hf : s.csiRefused p with
      | true => simp [hf] at hok
      | false => rfl
    rw [State.hostWrite_eq hr, State.ownerWrite_owner hp' (by simp [hk]) (Or.inr ((State.reply_isOwner ..).trans ho)),
      State.ctrlBits_enable hp (by simp [hk]), State.haltWrite_none hk rfl, State.enabled_eq hregs, hen, if_neg (by decide),
      State.blk_eq hregs, if_pos hidle, State.enableWrite_judged ((State.held_eq hregs).trans hheld), hjudge, if_pos rfl]
    obtain ⟨h1, h2, h3⟩ := State.enterRunning_csi (s := s.reply h .done) p
    rw [← hg] at h1 h2 h3
    refine ⟨?_, by rw [State.bump_csiAt, h2], by rw [State.bump_csiAt, h3]⟩
    have hq1 : g.val ≠ pgPort h := by
      rw [hg]
      unfold pgCsi pgPort
      omega
    rw [State.running_congr hp (State.rd_bump_ne _ _ ?_ ?_), h1]
    · exact rk_ne_of_page hq1 (by decide) (by decide)
    · rw [rk_add]
      exact rk_ne_of_page hq1 (by decide) (by decide)
end
-- ==== Sys2Proof/Proofs/CleanStores.lean ====
section
/-! Stores into LPDDR5X without errors (R351): they are applied, byte for byte. -/

namespace Sys2Proof.Machine
section
variable {s t : State} {m a : Nat} {bs : List Byte}

/-- A store into LPDDR5X that holds no error is applied. -/
theorem State.store_applied (hb : s.memc.bad = []) (hl : a + bs.length ≤ lpddrEnd) : (s.store m a bs).2 = true := by
  have hgood (i : Nat) : ((s.bump (rk pgMem 0x48) (linesOf a bs.length)).bump (rk pgMem 0x50) (partialGranules a bs.length).length).badAt i = .none := by
    unfold State.badAt
    rw [State.bump_memc, State.bump_memc, hb]
    rfl
  rw [State.store_lpddr m (by simpa [inLpddr] using hl)]
  dsimp only
  rw [State.checkGranules_of_good (fun i _ => hgood i)]
  rfl

theorem State.bytes_put (hb : s.memc.bad = []) (hl : a + bs.length ≤ lpddrEnd) : (s.put m a bs).bytes a bs.length = bs :=
  State.bytes_of_written (fun x hx => State.byte_store_of_mem s m a bs x hx (State.store_applied hb hl))

theorem State.sameBytesBut_put : sameBytesBut s (s.put m a bs) a bs.length := fun x hx => State.byte_put_of_notMem s m a bs x hx

/-- A part of a range of bytes. -/
theorem State.bytes_part {n o k : Nat} (h : o + k ≤ n) : t.bytes (a + o) k = ((t.bytes a n).drop o).take k := by
  unfold State.bytes
  refine List.ext_getElem ?_ (fun i h1 h2 => ?_)
  · simp
    omega
  · simp [Nat.add_assoc]

/-- A field of written bytes. -/
theorem State.getLE_of_bytes {o k : Nat} (h : t.bytes a bs.length = bs) (hk : o + k ≤ bs.length) : t.getLE (a + o) k = fieldLE bs o k := by
  unfold State.getLE fieldLE
  rw [State.bytes_part hk, h]

theorem State.getLE_congr (h : ∀ x, t.byte x = s.byte x) (o k : Nat) : t.getLE o k = s.getLE o k := by
  unfold State.getLE
  rw [State.bytes_congr h]

theorem sameBytesBut.same {n : Nat} {u : State} (h : sameBytesBut s t a n) (e : sameBytes t u) : sameBytesBut s u a n :=
  fun x hx => (e x).trans (h x hx)

theorem sameBytesBut.after {n : Nat} {u : State} (e : sameBytes s t) (h : sameBytesBut t u a n) : sameBytesBut s u a n :=
  fun x hx => (h x hx).trans (e x)

end
end Sys2Proof.Machine
end

