-- ==== Sys2Proof/Proofs/CsiFrames.lean ====
section
/-! A CSI-2 port in FRAME mode (R39, R40; log 16): frames land in the buffers of its ring. Settles O4. -/

namespace Sys2Proof.Machine
section
variable {s t : State} {p : Nat} {q : CsiQueued} {rest : List CsiQueued} {f : OpenFrame}

/-! ### The ring's geometry -/

/-- A state whose ring registers of a port are as in another. -/
def sameRing (s t : State) (p : Nat) : Prop := ∀ o, 0x160 ≤ o → o < 0x170 → t.rd (rk (pgCsi p) o) = s.rd (rk (pgCsi p) o)

theorem sameRegs.sameRing {ks : List Nat} (h : sameRegs s t ks) (hk : ∀ o, 0x160 ≤ o → o < 0x170 → rk (pgCsi p) o ∉ ks) : sameRing s t p :=
  fun o h1 h2 => h _ (hk o h1 h2)

theorem sameRing.csiStride (h : sameRing s t p) : t.csiStride p = s.csiStride p := by
  unfold State.csiStride
  rw [State.fld_congr (h 0x168 (by decide) (by decide))]

theorem sameRing.csiHeight (h : sameRing s t p) : t.csiHeight p = s.csiHeight p := State.fld_congr (h 0x16C (by decide) (by decide)) ..

theorem sameRing.csiBuffers (h : sameRing s t p) : t.csiBuffers p = s.csiBuffers p := by
  unfold State.csiBuffers
  rw [State.fld_congr (h 0x168 (by decide) (by decide))]

theorem sameRing.csiBufAddr (h : sameRing s t p) (b : Nat) : t.csiBufAddr p b = s.csiBufAddr p b := by
  unfold State.csiBufAddr
  rw [State.rd64_congr (h 0x160 (by decide) (by decide)) (by rw [rk_add]; exact h 0x164 (by decide) (by decide)), h.csiHeight, h.csiStride]

theorem State.csiPop_sameRing : sameRing s (s.csiPop p q rest) p :=
  State.csiPop_sameRegs.sameRing (fun o _ h => by simp; omega)

theorem State.csiPop_memc : (s.csiPop p q rest).memc = s.memc := by
  unfold State.csiPop
  simp

theorem State.put_csiAt {m a : Nat} {bs : List Byte} (i : Nat) : (s.put m a bs).csiAt i = s.csiAt i := by
  unfold State.csiAt
  rw [State.put_csi]

/-! ### The packet at the head of the queue -/

theorem State.csiFrameHead_eq {want : Nat → Bool} (hr : s.running (pgCsi p) = true) (hm : s.bit (rk (pgCsi p) 0x100) 0 = true)
    (hq : (s.csiAt p).queue = q :: rest) (hw : want q.pkt.dt.toNat = true) : s.csiFrameHead p want = some (q, rest) := by
  unfold State.csiFrameHead
  simp [hq, hr, hm, hw]

/-! ### A Frame Start -/

theorem State.sourceRewrites_byte {n b : Nat} {l : List (Nat × Nat)} (a : Nat) : (s.sourceRewrites n b l).byte a = s.byte a := rfl
theorem State.sourceRewrites_csiBuffers {n b : Nat} {l : List (Nat × Nat)} : (s.sourceRewrites n b l).csiBuffers p = s.csiBuffers p := rfl

/-- The port once a Frame Start has opened its next buffer. -/
def State.openedAt (s : State) (p : Nat) (q : CsiQueued) (rest : List CsiQueued) : CsiPort :=
  let c := s.csiAt p
  let f : OpenFrame := { number := c.frameNo, buffer := c.nextBuf % s.csiBuffers p, startTb0 := q.tb0, startFus := q.fus, lines := 0,
                         crcError := false, overflow := c.ovfMark }
  { c with queue := rest, frame := some f, frameNo := c.frameNo + 1, nextBuf := (c.nextBuf + 1) % s.csiBuffers p, ovfMark := false,
           offers := c.offers ++ [(none, q.fus)] }

/-- A Frame Start with no frame open opens the next buffer and touches no byte. -/
theorem State.frameStart_opens (hh : s.csiFrameHead p (· == 0) = some (q, rest)) (hf : (s.csiAt p).frame = none) :
    (s.frameStart p).csiAt p = s.openedAt p q rest ∧ sameBytes s (s.frameStart p) := by
  have hring := State.csiPop_sameRing (s := s) (p := p) (q := q) (rest := rest)
  unfold State.frameStart
  rw [hh]
  simp only [State.csiPop_csiAt, hf]
  constructor
  · rw [State.setBit_csiAt, State.setCsi_csiAt, State.sourceRewrites_csiBuffers, hring.csiBuffers]
    rfl
  · intro a
    rw [State.setBit_byte, State.setCsi_byte, State.sourceRewrites_byte, State.csiPop_byte]

/-! ### A line -/

/-- The state in which a line is stored: the packet is taken and counted. -/
def State.lineTaken (s : State) (p : Nat) (q : CsiQueued) (rest : List CsiQueued) : State :=
  if q.pkt.crcOk then s.csiTaken p q rest else (s.csiTaken p q rest).bump (rk (pgCsi p) 0x60)

theorem State.lineTaken_keeps {β : Type} (g : State → β) (h : ∀ t : State, g (t.bump (rk (pgCsi p) 0x60)) = g t) :
    g (s.lineTaken p q rest) = g (s.csiTaken p q rest) := by
  unfold State.lineTaken
  split
  · rfl
  · exact h _

theorem State.lineTaken_csiAt : (s.lineTaken p q rest).csiAt p = { s.csiAt p with queue := rest } :=
  (State.lineTaken_keeps (fun t => t.csiAt p) (fun _ => State.bump_csiAt ..)).trans State.csiTaken_csiAt

theorem State.lineTaken_byte (a : Nat) : (s.lineTaken p q rest).byte a = s.byte a :=
  (State.lineTaken_keeps (fun t => t.byte a) (fun _ => State.bump_byte ..)).trans (State.csiTaken_byte a)

theorem State.lineTaken_memc : (s.lineTaken p q rest).memc = s.memc := by
  rw [State.lineTaken_keeps State.memc (fun _ => State.bump_memc ..), State.csiTaken, State.bump_memc, State.csiPop_memc]

theorem State.lineTaken_sameRing : sameRing s (s.lineTaken p q rest) p := by
  have h := State.csiTaken_sameRegs (s := s) (p := p) (q := q) (rest := rest) |>.mono (List.subset_append_left _ (wide (rk (pgCsi p) 0x60)))
  have h' : sameRegs s (s.lineTaken p q rest) _ := .ite h (h.bump (by simp) (by simp [rk_add]))
  refine h'.sameRing (fun o h1 h2 => ?_)
  simp
  omega

/-- A line of an open frame is stored at its stride, and a failing CRC marks the frame. -/
theorem State.frameLine_eq (hh : s.csiFrameHead p (fun d => decide (0x10 ≤ d)) = some (q, rest)) (hf : (s.csiAt p).frame = some f)
    (hlt : f.lines < s.csiHeight p) : s.frameLine p =
      ((s.lineTaken p q rest).put mHub (s.csiBufAddr p f.buffer + 64 + f.lines * s.csiStride p) (q.pkt.payload.take (s.csiStride p))).setCsi p
        { s.csiAt p with queue := rest, frame := some { f with lines := f.lines + 1, crcError := f.crcError || !q.pkt.crcOk } } := by
  have hring := State.lineTaken_sameRing (s := s) (p := p) (q := q) (rest := rest)
  unfold State.frameLine
  rw [hh]
  change (let l := s.lineTaken p q rest
    match (l.csiAt p).frame with
    | none => l
    | some f =>
      let t := if f.lines < l.csiHeight p then
        l.put mHub (l.csiBufAddr p f.buffer + 64 + f.lines * l.csiStride p) (q.pkt.payload.take (l.csiStride p)) else l
      t.setCsi p { t.csiAt p with frame := some { f with lines := f.lines + 1, crcError := f.crcError || !q.pkt.crcOk } }) = _
  dsimp only
  rw [State.lineTaken_csiAt]
  dsimp only
  rw [hf]
  dsimp only
  rw [hring.csiHeight, if_pos hlt, State.put_csiAt, State.lineTaken_csiAt, hring.csiBufAddr, hring.csiStride]

/-! ### A Frame End -/

/-- The header of a frame that closes, its fields in the order of R40. -/
def frameHeader (f : OpenFrame) (ended : Option CsiQueued) (height : Nat) : List Byte :=
  leBytes 8 f.number ++ leBytes 8 f.startTb0 ++ leBytes 8 f.startFus ++
    leBytes 8 ((ended.map (·.tb0)).getD 0) ++ leBytes 8 ((ended.map (·.fus)).getD 0) ++ leBytes 4 f.lines ++
      leBytes 1 ((if ended.isSome && decide (height ≤ f.lines) then 1 else 2) + (if f.crcError then 4 else 0) + (if f.overflow then 8 else 0)) ++
        zeros 19

theorem length_frameHeader (f : OpenFrame) (ended : Option CsiQueued) (height : Nat) : (frameHeader f ended height).length = 64 := by
  simp [frameHeader, State.length_leBytes, zeros]

/-- The header's fields: the frame's number, the stamps of its first and last packets, and its lines. -/
theorem frameHeader_fields (f : OpenFrame) (q : CsiQueued) (height : Nat) :
    let h := frameHeader f (some q) height
    fieldLE h 0 8 = f.number % 2 ^ 64 ∧ fieldLE h 8 8 = f.startTb0 % 2 ^ 64 ∧ fieldLE h 16 8 = f.startFus % 2 ^ 64 ∧
      fieldLE h 24 8 = q.tb0 % 2 ^ 64 ∧ fieldLE h 32 8 = q.fus % 2 ^ 64 ∧ fieldLE h 40 4 = f.lines % 2 ^ 32 := by
  unfold frameHeader
  simp only [List.append_assoc]
  refine ⟨fieldLE_leBytes .., ?_, ?_, ?_, ?_, ?_⟩ <;>
    repeat rw [fieldLE_leBytes_of_le (by decide)]
  all_goals exact fieldLE_leBytes ..

theorem State.sourceFires_byte {n b : Nat} {x : Nat} (a : Nat) : (s.sourceFires n b x).byte a = s.byte a := rfl
theorem State.sourceFires_csiAt {n b : Nat} {x : Nat} (i : Nat) : (s.sourceFires n b x).csiAt i = s.csiAt i := rfl

theorem State.csiCloseFrame_csiAt {ended : Option CsiQueued} : (s.csiCloseFrame p f ended).csiAt p = { s.csiAt p with frame := none } := by
  unfold State.csiCloseFrame
  dsimp only
  rw [State.sourceFires_csiAt, State.setBit_csiAt, State.setCsi_csiAt, State.put_csiAt]

/-- A frame that closes writes its header, and no other byte. -/
theorem State.csiCloseFrame_byte {ended : Option CsiQueued} (a : Nat) : (s.csiCloseFrame p f ended).byte a =
    (s.put mHub (s.csiBufAddr p f.buffer) (frameHeader f ended (s.csiHeight p))).byte a := by
  unfold State.csiCloseFrame frameHeader
  dsimp only
  rw [State.sourceFires_byte, State.setBit_byte, State.setCsi_byte]

theorem State.frameEnd_eq (hh : s.csiFrameHead p (· == 1) = some (q, rest)) (hf : (s.csiAt p).frame = some f) :
    s.frameEnd p = (s.csiPop p q rest).csiCloseFrame p f (some q) := by
  unfold State.frameEnd
  rw [hh]
  simp only [State.csiPop_csiAt, hf]

end
end Sys2Proof.Machine

open Sys2Proof Sys2Proof.Machine in
/-- Settles O4: the packet at the head is taken; what it stores lies in the open frame's buffer. -/
theorem frameLandsInItsBuffer : Obligations.FrameLandsInItsBuffer := by
  unfold Obligations.FrameLandsInItsBuffer
  intro s p q rest f at_ line hr hm hq
  have hring := State.csiPop_sameRing (s := s) (p := p) (q := q) (rest := rest)
  refine ⟨fun hd hf => ⟨_, rfl, ?_⟩, fun hf hclean _ => ⟨fun hd hlt hend => ⟨_, rfl, ?_⟩, fun hd hend => ⟨_, rfl, ?_⟩⟩⟩
  · obtain ⟨h1, h2⟩ := State.frameStart_opens (State.csiFrameHead_eq hr hm hq (by simp [hd])) hf
    rw [h1]
    exact ⟨rfl, h2, rfl, rfl⟩
  · have hb : (s.lineTaken p q rest).memc.bad = [] := by rw [State.lineTaken_memc, memClean_bad hclean]
    rw [State.frameLine_eq (State.csiFrameHead_eq hr hm hq (by simp [hd])) hf hlt, State.setCsi_csiAt]
    refine ⟨rfl, rfl, ?_, ?_⟩
    · rw [State.bytes_congr (State.setCsi_byte _ _ _)]
      exact State.bytes_put hb hend
    · exact (State.sameBytesBut_put.same (State.setCsi_byte _ _ _)).after State.lineTaken_byte
  · have hb : (s.csiPop p q rest).memc.bad = [] := by rw [State.csiPop_memc, memClean_bad hclean]
    have hlen := length_frameHeader f (some q) (s.csiHeight p)
    rw [State.frameEnd_eq (State.csiFrameHead_eq hr hm hq (by simp [hd])) hf, State.csiCloseFrame_csiAt, State.csiPop_csiAt]
    have hbyte : sameBytes ((s.csiPop p q rest).put mHub at_ (frameHeader f (some q) (s.csiHeight p))) ((s.csiPop p q rest).csiCloseFrame p f (some q)) := by
      intro a
      rw [State.csiCloseFrame_byte, hring.csiBufAddr, hring.csiHeight]
    have hput : ((s.csiPop p q rest).csiCloseFrame p f (some q)).bytes at_ (frameHeader f (some q) (s.csiHeight p)).length =
        frameHeader f (some q) (s.csiHeight p) := by
      rw [State.bytes_congr hbyte]
      exact State.bytes_put hb (by rw [hlen]; exact hend)
    have hfield (o k : Nat) (h : o + k ≤ 64) := State.getLE_of_bytes (o := o) (k := k) hput (by rwa [hlen])
    obtain ⟨h1, h2, h3, h4, h5, h6⟩ := frameHeader_fields f q (s.csiHeight p)
    refine ⟨rfl, rfl, ?_, ?_, ?_, ?_, ?_, ?_, ?_⟩
    · exact (hfield 0 8 (by decide)).trans h1
    · exact (hfield 8 8 (by decide)).trans h2
    · exact (hfield 16 8 (by decide)).trans h3
    · exact (hfield 24 8 (by decide)).trans h4
    · exact (hfield 32 8 (by decide)).trans h5
    · exact (hfield 40 4 (by decide)).trans h6
    · have h := State.sameBytesBut_put (s := s.csiPop p q rest) (m := mHub) (a := at_) (bs := frameHeader f (some q) (s.csiHeight p))
      rw [hlen] at h
      exact (h.same hbyte).after State.csiPop_byte
end
-- ==== Sys2Proof/Proofs/EthernetFrames.lean ====
section
/-! What an Ethernet port does with a received frame (R50, R54 to R56), and rings that are not passed their end. -/

namespace Sys2Proof.Machine
section
variable {s t : State} {p : Nat} {f : List Byte}

/-! ### Rings -/

/-- Bytes that end before the ring's end lie in one piece. -/
theorem State.ringPut_inside {base size off : Nat} {bs : List Byte} (h : off + bs.length < size) :
    s.ringPut base size off bs = (s.put mHub (base + off) bs, off + bs.length) := by
  unfold State.ringPut
  rw [if_neg (by omega)]
  simp only [Nat.mod_eq_of_lt (show off < size by omega), Nat.mod_eq_of_lt h]
  rw [List.take_of_length_le (by omega), List.drop_eq_nil_of_le (by omega)]
  rfl

/-- Stores leave the registers of pages other than memory's. -/
theorem State.put_rd_page {m a o q : Nat} {bs : List Byte} (hq : q ∉ memPages) (ho : o < 0x1000) : (s.put m a bs).rd (rk q o) = s.rd (rk q o) :=
  State.rd_put (fun p hp _ ho' => rk_ne_of_page (fun e => hq (by rwa [e])) ho ho') m a bs

theorem State.put_rd64_page {m a o q : Nat} {bs : List Byte} (hq : q ∉ memPages) (ho : o + 4 < 0x1000) :
    (s.put m a bs).rd64 (rk q o) = s.rd64 (rk q o) :=
  State.rd64_congr (State.put_rd_page hq (by omega)) (by rw [rk_add]; exact State.put_rd_page hq ho)

theorem State.put_ethAt {m a : Nat} {bs : List Byte} (i : Nat) : (s.put m a bs).ethAt i = s.ethAt i := by
  unfold State.ethAt
  rw [State.put_eth]

theorem pgEth_notMem_memPages (i : Nat) : pgEth i ∉ memPages := by
  simp [memPages, pgEth, pgMem, pgCommons, pgSys]
  omega

/-! ### A received frame, case by case -/

section
variable (hr : s.running (pgEth p) = true)
include hr

theorem State.ethFrameRx_full {ok : Bool} (h : ¬ (s.ethAt p).held + f.length ≤ 65536) : s.ethFrameRx p f ok = s.bump (rk (pgEth p) 0x48) := by
  unfold State.ethFrameRx
  rw [if_neg (by simp [hr]), if_pos (by omega)]

theorem State.ethFrameRx_fcs (h : (s.ethAt p).held + f.length ≤ 65536) : s.ethFrameRx p f false = s.bump (rk (pgEth p) 0x50) := by
  unfold State.ethFrameRx
  rw [if_neg (by simp [hr]), if_neg (by omega), if_pos (by decide)]

theorem State.ethFrameRx_pause (h : (s.ethAt p).held + f.length ≤ 65536) (hp : (ethType f).1 = 0x8808 ∧ beAt f (ethType f).2 2 = 1) :
    s.ethFrameRx p f true = s.bump (rk (pgEth p) 0x58) := by
  unfold State.ethFrameRx
  rw [if_neg (by simp [hr]), if_neg (by omega), if_neg (by decide)]
  simp [hp.1, hp.2]

/-- A frame that the MAC takes and that is no gPTP frame is counted, and goes to the point parser or to the general ring. -/
theorem State.ethFrameRx_taken (h : (s.ethAt p).held + f.length ≤ 65536) (hp : ¬ ((ethType f).1 = 0x8808 ∧ beAt f (ethType f).2 2 = 1))
    (hm : s.macAccepts p f = true) (ht : (ethType f).1 ≠ 0x88F7) : s.ethFrameRx p f true =
      let t := s.bump (rk (pgEth p) 0x40)
      match udpOf f with
      | some u =>
        if t.ppMatches p u then (t.bump (rk (pgEth p) 0x60)).setEth p { t.ethAt p with ppQueue := (t.ethAt p).ppQueue ++
          [{ udp := u.data, tb0 := t.time.tb0 - t.fld (rk (pgEth p) 0x110) 15 0, fus := t.fusAgo (t.fld (rk (pgEth p) 0x110) 15 0), len := f.length }] }
        else t.ethToRing p f false
      | none => t.ethToRing p f false := by
  unfold State.ethFrameRx
  rw [if_neg (by simp [hr]), if_neg (by omega), if_neg (by decide)]
  simp only [hm, Bool.not_true, Bool.false_eq_true, if_false]
  rewrite [if_neg (by simpa using hp), if_neg ht]
  cases udpOf f with
  | none => rfl
  | some u => rfl

/-- A datagram that the parser's rule matches waits for it, with its stamps. -/
theorem State.ethFrameRx_points {u : Udp} (h : (s.ethAt p).held + f.length ≤ 65536)
    (hp : ¬ ((ethType f).1 = 0x8808 ∧ beAt f (ethType f).2 2 = 1)) (hm : s.macAccepts p f = true) (ht : (ethType f).1 ≠ 0x88F7)
    (hu : udpOf f = some u) (hpp : (s.bump (rk (pgEth p) 0x40)).ppMatches p u = true) : s.ethFrameRx p f true =
      let t := s.bump (rk (pgEth p) 0x40)
      (t.bump (rk (pgEth p) 0x60)).setEth p { t.ethAt p with ppQueue := (t.ethAt p).ppQueue ++
        [{ udp := u.data, tb0 := t.time.tb0 - t.fld (rk (pgEth p) 0x110) 15 0, fus := t.fusAgo (t.fld (rk (pgEth p) 0x110) 15 0), len := f.length }] } := by
  rw [State.ethFrameRx_taken hr h hp hm ht]
  simp only [hu, hpp, if_true]

/-- A frame that carries no datagram goes to the general ring. -/
theorem State.ethFrameRx_ring (h : (s.ethAt p).held + f.length ≤ 65536)
    (hp : ¬ ((ethType f).1 = 0x8808 ∧ beAt f (ethType f).2 2 = 1)) (hm : s.macAccepts p f = true) (ht : (ethType f).1 ≠ 0x88F7)
    (hu : udpOf f = none) : s.ethFrameRx p f true = (s.bump (rk (pgEth p) 0x40)).ethToRing p f false := by
  rw [State.ethFrameRx_taken hr h hp hm ht]
  simp only [hu]

end

/-! ### What the destinations read is as before the count -/

theorem State.ppMatches_congr {u : Udp} (h : ∀ o, 0x100 ≤ o → o < 0x140 + 4 * u.src.length → t.rd (rk (pgEth p) o) = s.rd (rk (pgEth p) o)) :
    t.ppMatches p u = s.ppMatches p u := by
  have hall : (List.range u.src.length).all (fun i => u.src.getD i 0 == t.rdN (rk (pgEth p) (0x128 + 4 * i))) =
      (List.range u.src.length).all (fun i => u.src.getD i 0 == s.rdN (rk (pgEth p) (0x128 + 4 * i))) := by
    rw [Bool.eq_iff_iff, List.all_eq_true, List.all_eq_true]
    refine forall₂_congr (fun i hi => ?_)
    have := List.mem_range.1 hi
    rw [State.rdN_congr (h _ (by omega) (by omega))]
  unfold State.ppMatches
  dsimp only
  rw [State.bit_congr (h 0x120 (by decide) (by omega)), State.bit_congr (h 0x120 (by decide) (by omega)),
    State.fld_congr (h 0x124 (by decide) (by omega)), hall]

/-- The stamp block depends on the port's latency and stamp selection and on the clocks. -/
theorem State.stampBlock_congr {n : Nat} {c : Bool} (h1 : t.rd (rk (pgEth p) 0x110) = s.rd (rk (pgEth p) 0x110))
    (h2 : t.rd (rk (pgEth p) 0x100) = s.rd (rk (pgEth p) 0x100)) (ht : t.time = s.time) : t.stampBlock p n c = s.stampBlock p n c := by
  unfold State.stampBlock State.netAt State.fusAgo
  rw [State.fld_congr h1, State.bit_congr h2, ht]

/-- A frame that ends before the ring's end goes there in one piece, and the head moves behind it. -/
theorem State.ethToRing_inside {c : Bool} (h : (s.ethAt p).ringOff + (s.stampBlock p f.length c ++ f).length < s.rdN (rk (pgEth p) 0x188) * 4096) :
    s.ethToRing p f c =
      let t := s.put mHub (s.rd64 (rk (pgEth p) 0x180) + (s.ethAt p).ringOff) (s.stampBlock p f.length c ++ f)
      let off := (s.ethAt p).ringOff + (s.stampBlock p f.length c ++ f).length
      (t.setEth p { t.ethAt p with ringOff := off }).wrN (rk (pgEth p) 0x18C) off := by
  unfold State.ethToRing
  dsimp only
  rw [if_neg (by omega), State.ringPut_inside h]

/-! ### The point parser -/

/-- The supply of unstated words moves, and nothing else. -/
def State.withDraws (s : State) (c : Nat) : State := { s with freeCtr := c }

theorem State.withDraws_withDraws (c d : Nat) : (s.withDraws c).withDraws d = s.withDraws d := rfl
theorem State.withDraws_regs (c : Nat) : (s.withDraws c).regs = s.regs := rfl
theorem State.withDraws_memc (c : Nat) : (s.withDraws c).memc = s.memc := rfl
theorem State.withDraws_byte (c a : Nat) : (s.withDraws c).byte a = s.byte a := rfl
theorem State.withDraws_ethAt (c i : Nat) : (s.withDraws c).ethAt i = s.ethAt i := rfl

theorem State.ppCoords_length (d : List Byte) : (s.ppCoords p d).1.length = 3 := by
  unfold State.ppCoords
  dsimp only
  split <;> rfl

theorem State.ppIntensity_state (l : PLoc) (d : List Byte) : ∃ c, (s.ppIntensity l d).1 = s.withDraws c := by
  unfold State.ppIntensity
  split
  · exact ⟨s.freeCtr, rfl⟩
  · split
    · exact ⟨s.freeCtr, rfl⟩
    split
    · exact ⟨s.freeCtr, rfl⟩
    split
    · exact ⟨s.freeCtr, rfl⟩
    · exact ⟨s.freeCtr + 1, rfl⟩

/-- Words written out take four bytes each. -/
theorem length_wordBytes (ws : List Word) : ((ws.map (fun w => leBytes 4 w.toNat)).flatten).length = 4 * ws.length := by
  induction ws with
  | nil => rfl
  | cons w ws ih =>
    rw [List.map_cons, List.flatten_cons, List.length_append, ih, State.length_leBytes, List.length_cons]
    omega

/-- One point of 16 bytes; only the supply of unstated words moves. -/
theorem State.ppPoint_spec (d : List Byte) : (∃ c, (s.ppPoint p d).1 = s.withDraws c) ∧ (s.ppPoint p d).2.1.length = 16 := by
  refine ⟨s.ppIntensity_state (s.ppLoc p 6) d, ?_⟩
  change ((((s.ppCoords p d).1.map (fun w => leBytes 4 w.toNat)).flatten) ++ leBytes 1 _ ++ leBytes 1 _ ++ leBytes 2 _).length = 16
  simp only [List.length_append, length_wordBytes, State.ppCoords_length, State.length_leBytes]

/-- The step over one point of a packet: its bytes, its validity and its cut join those before it. -/
def State.pointStep (s0 : State) (p : Nat) (f : PpFrame) (a : State × List Byte × Nat × Bool) (i : Nat) : State × List Byte × Nat × Bool :=
  let (s, b, bad, satd) := a.1.ppPoint p ((f.udp.drop (s0.ppFirst p + i * s0.ppStride p)).take (s0.ppStride p))
  (s, a.2.1 ++ b, a.2.2.1 + (if bad then 1 else 0), a.2.2.2 || satd)

/-- The bytes of a run of points. -/
theorem pointSteps_spec {g : PpFrame} {l : List Nat} {a : State × List Byte × Nat × Bool} :
    (∃ c, (l.foldl (s.pointStep p g) a).1 = a.1.withDraws c) ∧
      (l.foldl (s.pointStep p g) a).2.1.length = a.2.1.length + 16 * l.length := by
  induction l generalizing a with
  | nil => exact ⟨⟨a.1.freeCtr, rfl⟩, rfl⟩
  | cons i l ih =>
    obtain ⟨⟨c, hc⟩, hlen⟩ := State.ppPoint_spec (s := a.1) (p := p) ((g.udp.drop (s.ppFirst p + i * s.ppStride p)).take (s.ppStride p))
    obtain ⟨⟨c', hc'⟩, hlen'⟩ := ih (a := s.pointStep p g a i)
    rw [List.foldl_cons]
    refine ⟨⟨c', ?_⟩, ?_⟩
    · rw [hc']
      change (a.1.ppPoint p _).1.withDraws c' = _
      rw [hc, State.withDraws_withDraws]
    · rw [hlen']
      change (a.2.1 ++ (a.1.ppPoint p _).2.1).length + _ = _
      rw [List.length_append, hlen, List.length_cons]
      omega

/-! ### A batch -/

/-- The header of a batch (R60). -/
def batchHeader (ref tb0 base flags n seq : Nat) : List Byte :=
  leBytes 8 ref ++ leBytes 8 tb0 ++ leBytes 1 base ++ leBytes 1 flags ++ leBytes 2 n ++ leBytes 8 seq ++ zeros 4

theorem length_batchHeader (ref tb0 base flags n seq : Nat) : (batchHeader ref tb0 base flags n seq).length = 32 := by
  simp [batchHeader, State.length_leBytes, zeros]

theorem batchHeader_fields (ref tb0 base flags n seq : Nat) (body : List Byte) :
    let h := batchHeader ref tb0 base flags n seq ++ body
    fieldLE h 0 8 = ref % 2 ^ 64 ∧ fieldLE h 8 8 = tb0 % 2 ^ 64 ∧ fieldLE h 16 1 = base % 2 ^ 8 ∧ fieldLE h 18 2 = n % 2 ^ 16 ∧
      fieldLE h 20 8 = seq % 2 ^ 64 := by
  unfold batchHeader
  simp only [List.append_assoc]
  refine ⟨fieldLE_leBytes .., ?_, ?_, ?_, ?_⟩ <;>
    repeat rw [fieldLE_leBytes_of_le (by decide)]
  all_goals exact fieldLE_leBytes ..

/-- A batch's flags: a reference from the packet, a cut offset, a missing point. -/
def batchFlags (fromPkt : Option Nat) (satd : Bool) (missing : Nat) : Nat :=
  (if fromPkt.isSome then 1 else 0) + (if satd then 2 else 0) + (if missing ≠ 0 then 4 else 0)

/-- A batch of `n` points that have been read goes into the point ring (R58 to R60). -/
def State.batchEnd (s : State) (p : Nat) (g : PpFrame) (ref : Nat) (fromPkt : Option Nat) (missing n bad : Nat) (satd : Bool) (body : List Byte) :
    State :=
  let bs := batchHeader ref g.tb0 (s.fld (rk (pgEth p) 0x120) 11 8)
    (batchFlags fromPkt satd missing) n (s.ethAt p).batchSeq ++ body
  let t := (s.bump (rk (pgEth p) 0x70) bad).bump (rk (pgEth p) 0x68) n
  let span := ringSpan (t.rd64 (rk (pgEth p) 0x170)) (t.rdN (rk (pgEth p) 0x178) * 4096) (s.ethAt p).batches bs.length
  let u := t.sourceRewrites 3 p span
  let r := u.ringPut (u.rd64 (rk (pgEth p) 0x170)) (u.rdN (rk (pgEth p) 0x178) * 4096) (s.ethAt p).batches bs
  let v := if span.isEmpty then r.1 else r.1.batchWritten p span
  v.setEth p { v.ethAt p with batchSeq := (s.ethAt p).batchSeq + 1, batches := r.2, offers := (s.ethAt p).offers ++ [(fromPkt, g.fus)] }

theorem State.batchWritten_keeps {β : Type} (f : State → β) (h : ∀ (s : State) x, f { s with tt := x } = f s) (l : List (Nat × Nat)) :
    f (s.batchWritten p l) = f s :=
  foldl_keeps f _ (fun _ _ => h _ _) _ _

theorem State.batchNoted_keeps {β : Type} (f : State → β) (h : ∀ (s : State) x, f { s with tt := x } = f s) (c : Bool) (l : List (Nat × Nat)) :
    f (if c then s else s.batchWritten p l) = f s := by
  cases c with
  | true => rfl
  | false => exact State.batchWritten_keeps f h l

theorem State.sourceRewrites_ethAt {n b : Nat} {l : List (Nat × Nat)} (i : Nat) : (s.sourceRewrites n b l).ethAt i = s.ethAt i := rfl
theorem State.sourceRewrites_memc {n b : Nat} {l : List (Nat × Nat)} : (s.sourceRewrites n b l).memc = s.memc := rfl

theorem State.ringPut_ethAt {base size off : Nat} {bs : List Byte} (i : Nat) : (s.ringPut base size off bs).1.ethAt i = s.ethAt i := by
  unfold State.ringPut
  split
  · rfl
  · dsimp only
    split
    · rw [State.put_ethAt]
    · rw [State.put_ethAt, State.put_ethAt]

section
variable {g : PpFrame} {ref missing n bad : Nat} {fromPkt : Option Nat} {satd : Bool} {body : List Byte}

/-- The port once a batch has gone: its sequence number is used, its queue is as it was. -/
theorem State.batchEnd_ethAt : ∃ off, (s.batchEnd p g ref fromPkt missing n bad satd body).ethAt p =
    { s.ethAt p with batchSeq := (s.ethAt p).batchSeq + 1, batches := off, offers := (s.ethAt p).offers ++ [(fromPkt, g.fus)] } := by
  obtain ⟨t, ht⟩ : ∃ t, s.batchEnd p g ref fromPkt missing n bad satd body = t := ⟨_, rfl⟩
  rw [ht]
  unfold State.batchEnd at ht
  extract_lets bs s1 span u r v src at ht
  have hat : v.ethAt p = s.ethAt p := by
    have hv : v.ethAt p = r.1.ethAt p := State.batchNoted_keeps (fun t => t.ethAt p) (fun _ _ => rfl) _ span
    rw [hv]
    unfold r u s1
    rw [State.ringPut_ethAt, State.sourceRewrites_ethAt, State.bump_ethAt, State.bump_ethAt]
  rw [show src = s.ethAt p from hat] at ht
  exact ⟨r.2, by rw [← ht, State.setEth_ethAt]⟩

/-- A batch that ends before the ring's end lies there in one piece. -/
theorem State.batchEnd_inside (hfit : (s.ethAt p).batches + (32 + body.length) < s.rdN (rk (pgEth p) 0x178) * 4096) :
    ∃ u : State, sameBytes s u ∧ u.memc = s.memc ∧
      sameBytes (u.put mHub (s.rd64 (rk (pgEth p) 0x170) + (s.ethAt p).batches)
        (batchHeader ref g.tb0 (s.fld (rk (pgEth p) 0x120) 11 8) (batchFlags fromPkt satd missing) n (s.ethAt p).batchSeq ++ body))
        (s.batchEnd p g ref fromPkt missing n bad satd body) := by
  obtain ⟨t, ht⟩ : ∃ t, s.batchEnd p g ref fromPkt missing n bad satd body = t := ⟨_, rfl⟩
  rw [ht]
  unfold State.batchEnd at ht
  extract_lets bs s1 span u r v src at ht
  have hlen : bs.length = 32 + body.length := by
    unfold bs
    rw [List.length_append, length_batchHeader]
  have hfr : sameRegs s u (wide (rk (pgEth p) 0x70) ++ wide (rk (pgEth p) 0x68)) :=
    ((((sameRegs.refl s _).bump (by simp) (by simp [rk_add])).bump (by simp) (by simp [rk_add]) : sameRegs s s1 _)).same rfl
  have hbase : u.rd64 (rk (pgEth p) 0x170) = s.rd64 (rk (pgEth p) 0x170) := hfr.rd64 (by simp) (by simp [rk_add])
  have hsize : u.rdN (rk (pgEth p) 0x178) = s.rdN (rk (pgEth p) 0x178) := hfr.rdN (by simp)
  have hr : r = (u.put mHub (s.rd64 (rk (pgEth p) 0x170) + (s.ethAt p).batches) bs, (s.ethAt p).batches + bs.length) := by
    unfold r
    rw [State.ringPut_inside (by rw [hsize, hlen]; exact hfit), hbase]
  have hv (a : Nat) : v.byte a = r.1.byte a := State.batchNoted_keeps (fun t => t.byte a) (fun _ _ => rfl) _ span
  refine ⟨u, fun a => ?_, ?_, fun a => ?_⟩
  · unfold u s1
    rw [State.sourceRewrites_byte, State.bump_byte, State.bump_byte]
  · unfold u s1
    rw [State.sourceRewrites_memc, State.bump_memc, State.bump_memc]
  · rw [← ht, State.setEth_byte, hv, hr]

end

/-- The whole points of a packet. -/
def State.pointCount (s : State) (p : Nat) (g : PpFrame) : Nat := min (s.ppCount p) ((g.udp.length - s.ppFirst p) / max (s.ppStride p) 1)

theorem State.pointCount_eq (h : t.regs = s.regs) (g : PpFrame) : t.pointCount p g = s.pointCount p g := by
  unfold State.pointCount State.ppCount State.ppFirst State.ppStride
  simp only [State.fld_eq h]

/-- The port once its parser has taken a packet. -/
def State.pointsPopped (s : State) (p : Nat) (rest : List PpFrame) : State := s.setEth p { s.ethAt p with ppQueue := rest }

/-- The state in which a packet's points are read: the missing points are counted. -/
def State.pointsTaken (s : State) (p : Nat) (g : PpFrame) (rest : List PpFrame) : State :=
  (s.pointsPopped p rest).bump (rk (pgEth p) 0x70) ((s.pointsPopped p rest).ppCount p - (s.pointsPopped p rest).pointCount p g)

theorem State.pointsPopped_regs {rest : List PpFrame} : (s.pointsPopped p rest).regs = s.regs := State.setEth_regs ..

theorem State.pointsTaken_sameRegs {g : PpFrame} {rest : List PpFrame} : sameRegs s (s.pointsTaken p g rest) (wide (rk (pgEth p) 0x70)) :=
  ((sameRegs.refl s _).same State.pointsPopped_regs).bump (by simp) (by simp [rk_add])

/-- The missing points are counted. -/
theorem State.pointsTaken_count {g : PpFrame} {rest : List PpFrame} : (s.pointsTaken p g rest).rd64 (rk (pgEth p) 0x70) =
    (s.rd64 (rk (pgEth p) 0x70) + (s.ppCount p - s.pointCount p g)) % 2 ^ 64 := by
  have hc : (s.pointsPopped p rest).ppCount p = s.ppCount p := State.fld_eq State.pointsPopped_regs ..
  unfold State.pointsTaken
  rw [State.rd64_bump_self, State.rd64_eq State.pointsPopped_regs, hc, State.pointCount_eq State.pointsPopped_regs]

theorem State.pointsTaken_memc {g : PpFrame} {rest : List PpFrame} : (s.pointsTaken p g rest).memc = s.memc := by
  unfold State.pointsTaken State.pointsPopped
  simp

theorem State.pointsTaken_ethAt {g : PpFrame} {rest : List PpFrame} : (s.pointsTaken p g rest).ethAt p = { s.ethAt p with ppQueue := rest } := by
  unfold State.pointsTaken State.pointsPopped
  rw [State.bump_ethAt, State.setEth_ethAt]

theorem State.pointsTaken_byte {g : PpFrame} {rest : List PpFrame} (a : Nat) : (s.pointsTaken p g rest).byte a = s.byte a := by
  unfold State.pointsTaken State.pointsPopped
  simp

/-- Without a TIME locator a batch's reference is the frame's FUSION stamp. -/
theorem State.ppReference_stamp {g : PpFrame} (h : (s.ppLoc p 8).en = false) : s.ppReference p g = (g.fus, none) := by
  unfold State.ppReference PLoc.code
  simp [h]

section
variable {g : PpFrame} {rest : List PpFrame} (hr : s.running (pgEth p) = true) (hq : (s.ethAt p).ppQueue = g :: rest)
include hr hq

/-- A packet with no whole point counts its missing points and writes no batch. -/
theorem State.pointBatch_none (hn : s.pointCount p g = 0) : s.pointBatch p = s.pointsTaken p g rest := by
  have hn' : (s.pointsPopped p rest).pointCount p g = 0 := (State.pointCount_eq State.pointsPopped_regs g).trans hn
  obtain ⟨put, eput⟩ : ∃ f, State.ringPut = f := ⟨_, rfl⟩
  obtain ⟨range, erange⟩ : ∃ f, List.range = f := ⟨_, rfl⟩
  obtain ⟨reference, eref⟩ : ∃ f, State.ppReference = f := ⟨_, rfl⟩
  unfold State.pointBatch
  rw [eput, erange, eref]
  extract_lets pg e
  split
  · exact absurd (hq.symm.trans ‹_›) (List.cons_ne_nil _ _)
  · rename_i g' rest' hq'
    obtain ⟨rfl, rfl⟩ := List.cons.inj (hq.symm.trans hq')
    rw [if_neg (by simp [pg, hr])]
    extract_lets s1 n missing s2
    rw [if_pos (show n = 0 from hn')]
    unfold State.pointsTaken State.pointCount
    rfl

/-- A packet's points are read one by one and go into the point ring as one batch. -/
theorem State.pointBatch_reads (hn : 0 < s.pointCount p g) : ∃ (c : Nat) (body : List Byte) (missing bad : Nat) (satd : Bool),
    body.length = 16 * s.pointCount p g ∧ s.pointBatch p =
      ((s.pointsTaken p g rest).withDraws c).batchEnd p g ((s.pointsTaken p g rest).ppReference p g).1
        ((s.pointsTaken p g rest).ppReference p g).2 missing (s.pointCount p g) bad satd body := by
  obtain ⟨t, ht⟩ : ∃ t, t = s.pointBatch p := ⟨_, rfl⟩
  rw [← ht]
  -- while the definition is taken apart, what it calls is held opaque
  obtain ⟨put, eput⟩ : ∃ f, State.ringPut = f := ⟨_, rfl⟩
  obtain ⟨range, erange⟩ : ∃ f, List.range = f := ⟨_, rfl⟩
  obtain ⟨reference, eref⟩ : ∃ f, State.ppReference = f := ⟨_, rfl⟩
  unfold State.pointBatch at ht
  rw [eput, erange, eref] at ht
  extract_lets pg e at ht
  split at ht
  · exact absurd (hq.symm.trans ‹_›) (List.cons_ne_nil _ _)
  rename_i g' rest' hq'
  obtain ⟨rfl, rfl⟩ := List.cons.inj (hq.symm.trans hq')
  rw [if_neg (by simp [pg, hr])] at ht
  extract_lets s1 n missing s2 step at ht
  have hcount : n = s.pointCount p g := State.pointCount_eq State.pointsPopped_regs g
  have h2 : s2 = s.pointsTaken p g rest := by
    unfold State.pointsTaken State.pointCount
    rfl
  rw [if_neg (by omega)] at ht
  split at ht
  rename_i ref fromPkt href
  revert ht
  split
  rename_i s3 body bad satd hrun
  intro ht
  extract_lets e' hdr s4 span s5 at ht
  split at ht
  rename_i s6 off hput
  extract_lets s7 src at ht
  rw [← eput] at hput
  rw [← erange] at hrun
  rw [← eref] at href
  obtain ⟨⟨c, hc⟩, hlen⟩ := pointSteps_spec (s := s2) (p := p) (g := g) (l := List.range n) (a := (s2, [], 0, false))
  rw [show s2.pointStep p g = step from rfl, hrun] at hc hlen
  rw [List.length_range, hcount] at hlen
  refine ⟨c, body, missing, bad, satd, hlen.trans (Nat.zero_add _), ?_⟩
  rw [← h2, href, ← hc, ← hcount]
  have hend : s3.batchEnd p g ref fromPkt missing n bad satd body =
      (let r := s5.ringPut (s5.rd64 (rk pg 0x170)) (s5.rdN (rk pg 0x178) * 4096) e'.batches (hdr ++ body)
      let v := if span.isEmpty then r.1 else r.1.batchWritten p span
      v.setEth p { v.ethAt p with batchSeq := e'.batchSeq + 1, batches := r.2, offers := e'.offers ++ [(fromPkt, g.fus)] }) := rfl
  rw [hend, hput]
  exact ht

theorem State.pointBatch_ethAt (hn : 0 < s.pointCount p g) : ((s.pointBatch p).ethAt p).ppQueue = rest ∧
    ((s.pointBatch p).ethAt p).batchSeq = (s.ethAt p).batchSeq + 1 := by
  obtain ⟨c, body, missing, bad, satd, -, hb⟩ := State.pointBatch_reads hr hq hn
  have hat : ((s.pointsTaken p g rest).withDraws c).ethAt p = { s.ethAt p with ppQueue := rest } := by
    rw [State.withDraws_ethAt, State.pointsTaken_ethAt]
  obtain ⟨off, hoff⟩ := State.batchEnd_ethAt (s := (s.pointsTaken p g rest).withDraws c) (p := p) (g := g)
    (ref := ((s.pointsTaken p g rest).ppReference p g).1) (fromPkt := ((s.pointsTaken p g rest).ppReference p g).2)
    (missing := missing) (n := s.pointCount p g) (bad := bad) (satd := satd) (body := body)
  rw [hb, hoff, hat]
  exact ⟨rfl, rfl⟩

/-- A batch whose reference is the frame's stamp, and that ends before the ring's end, lies in the point ring behind its header. -/
theorem State.pointBatch_writes (hn : 0 < s.pointCount p g) (hloc : (s.ppLoc p 8).en = false)
    (hfit : (s.ethAt p).batches + (32 + 16 * s.pointCount p g) < s.rdN (rk (pgEth p) 0x178) * 4096) :
    ∃ (u : State) (flags : Nat) (body : List Byte), body.length = 16 * s.pointCount p g ∧ sameBytes s u ∧ u.memc = s.memc ∧
      sameBytes (u.put mHub (s.rd64 (rk (pgEth p) 0x170) + (s.ethAt p).batches)
        (batchHeader g.fus g.tb0 (s.fld (rk (pgEth p) 0x120) 11 8) flags (s.pointCount p g) (s.ethAt p).batchSeq ++ body)) (s.pointBatch p) := by
  obtain ⟨c, body, missing, bad, satd, hlen, hb⟩ := State.pointBatch_reads hr hq hn
  obtain ⟨v, hv⟩ : ∃ v : State, (s.pointsTaken p g rest).withDraws c = v := ⟨_, rfl⟩
  rw [hv] at hb
  have hfr : sameRegs s v (wide (rk (pgEth p) 0x70)) := State.pointsTaken_sameRegs.same (by rw [← hv, State.withDraws_regs])
  have hat : v.ethAt p = { s.ethAt p with ppQueue := rest } := by
    rw [← hv, State.withDraws_ethAt, State.pointsTaken_ethAt]
  have href : (s.pointsTaken p g rest).ppReference p g = (g.fus, none) := by
    refine State.ppReference_stamp ?_
    unfold State.ppLoc
    rw [State.pointsTaken_sameRegs.rdN (by simp)]
    exact hloc
  have hbase : v.rd64 (rk (pgEth p) 0x170) = s.rd64 (rk (pgEth p) 0x170) := hfr.rd64 (by simp) (by simp [rk_add])
  have htb : v.fld (rk (pgEth p) 0x120) 11 8 = s.fld (rk (pgEth p) 0x120) 11 8 := hfr.fld (by simp)
  obtain ⟨u, h1, h2, h3⟩ := State.batchEnd_inside (s := v) (p := p) (g := g) (ref := g.fus) (fromPkt := none) (missing := missing)
    (n := s.pointCount p g) (bad := bad) (satd := satd) (body := body) (by rw [hat, hlen, hfr.rdN (by simp)]; exact hfit)
  rw [hbase, hat, htb] at h3
  rw [href] at hb
  refine ⟨u, batchFlags none satd missing, body, hlen, ?_, ?_, ?_⟩
  · refine sameBytes.trans (fun a => ?_) h1
    rw [← hv, State.withDraws_byte, State.pointsTaken_byte]
  · rw [h2, ← hv, State.withDraws_memc, State.pointsTaken_memc]
  · rw [hb]
    exact h3
end

end
end Sys2Proof.Machine

open Sys2Proof Sys2Proof.Machine in
/-- Settles O6: a received frame's fate by cases; a packet's batch is its header and its points, stored in one piece. -/
theorem ethernetFrameBecomesABatch : Obligations.EthernetFrameBecomesABatch := by
  unfold Obligations.EthernetFrameBecomesABatch
  refine ⟨fun s p f ok u => ?_, fun s p f rest => ?_⟩
  · intro pg e fits pause counted lat base rec_ hr
    have hcount (o : Nat) : counted (s.bump (rk pg o)) o ∧ sameRegs s (s.bump (rk pg o)) (wide (rk pg o)) ∧ sameBytes s (s.bump (rk pg o)) ∧
        (s.bump (rk pg o)).eth = s.eth :=
      ⟨State.rd64_bump_self .., (sameRegs.refl s _).bump (by simp) (by simp [rk_add]), State.bump_byte _ _ _, State.bump_eth ..⟩
    refine ⟨_, rfl, fun h => ?_, fun h hok => ?_, fun h hok hp => ?_, fun h hok hp hm ht hu hpp => ?_, fun h hok hp hm ht hu hc _ hfit hend => ?_⟩
    · rw [State.ethFrameRx_full hr h]
      exact hcount 0x48
    · rw [hok, State.ethFrameRx_fcs hr h]
      exact hcount 0x50
    · rw [hok, State.ethFrameRx_pause hr h hp]
      exact hcount 0x58
    · have hfr : sameRegs s (s.bump (rk pg 0x40)) (wide (rk pg 0x40)) := (hcount 0x40).2.1
      have hlat : (s.bump (rk pg 0x40)).fld (rk pg 0x110) 15 0 = lat := hfr.fld (by simp)
      have htime : (s.bump (rk pg 0x40)).time = s.time := State.bump_time ..
      have hfus : (s.bump (rk pg 0x40)).fusAgo lat = s.fusAgo lat := congrArg (fun t : Time => (125 * t.fus - lat * 2 ^ 41) / (125 * 2 ^ 40)) htime
      have hpp' : (s.bump (rk pg 0x40)).ppMatches p u = true := by
        rw [State.ppMatches_congr (fun o h1 _ => hfr _ ?_)]
        · exact hpp
        · simp [pg]
          omega
      rw [hok, State.ethFrameRx_points hr h hp hm ht hu hpp']
      dsimp only
      rw [hlat, hfus, htime]
      refine ⟨?_, ?_, ?_, ?_, fun a => ?_⟩
      · rw [State.setEth_ethAt, State.bump_ethAt]
      · refine (State.setEth_rd64 ..).trans ((State.rd64_bump_ne _ _ (Or.inl ?_)).trans (hcount 0x40).1)
        simp [rk, pg]
      · exact (State.setEth_rd64 ..).trans (hfr.rd64_bump (by simp [pg]) (by simp [rk_add, pg]))
      · exact ((hfr.mono (List.subset_append_left _ _)).bump (by simp [pg]) (by simp [rk_add, pg])).same (State.setEth_regs ..)
      · rw [State.setEth_byte, State.bump_byte, State.bump_byte]
    · have hfr : sameRegs s (s.bump (rk pg 0x40)) (wide (rk pg 0x40)) := (hcount 0x40).2.1
      have hrec : (s.bump (rk pg 0x40)).stampBlock p f.length false ++ f = rec_ := by
        rw [State.stampBlock_congr (hfr _ (by simp [pg])) (hfr _ (by simp [pg])) (State.bump_time ..)]
      have hbase : (s.bump (rk pg 0x40)).rd64 (rk pg 0x180) = base := hfr.rd64 (by simp) (by simp [rk_add])
      have hsize : (s.bump (rk pg 0x40)).rdN (rk pg 0x188) = s.rdN (rk pg 0x188) := hfr.rdN (by simp)
      have hat : (s.bump (rk pg 0x40)).ethAt p = e := State.bump_ethAt ..
      have hbad : (s.bump (rk pg 0x40)).memc.bad = [] := by rw [State.bump_memc, memClean_bad hc]
      rw [hok, State.ethFrameRx_ring hr h hp hm ht hu, State.ethToRing_inside (by rw [hrec, hat, hsize]; exact hfit)]
      dsimp only
      rw [hrec, hbase, hat, State.put_ethAt, hat]
      have hbyte : sameBytes ((s.bump (rk pg 0x40)).put mHub (base + e.ringOff) rec_)
          ((((s.bump (rk pg 0x40)).put mHub (base + e.ringOff) rec_).setEth p { e with ringOff := e.ringOff + rec_.length }).wrN (rk pg 0x18C)
            (e.ringOff + rec_.length)) := fun a => by
        rw [State.wrN_byte, State.setEth_byte]
      refine ⟨?_, ?_, ?_, ?_, ?_⟩
      · rw [State.bytes_congr hbyte]
        exact State.bytes_put hbad hend
      · exact (State.sameBytesBut_put.same hbyte).after (hcount 0x40).2.2.1
      · rw [State.rdN_wrN, if_pos rfl]
      · refine (State.rd64_congr (State.rd_wrN_ne _ _ (by simp [pg])) (State.rd_wrN_ne _ _ (by simp [rk_add, pg]))).trans ?_
        refine (State.setEth_rd64 ..).trans ((State.put_rd64_page (pgEth_notMem_memPages p) (by decide)).trans (hcount 0x40).1)
      · rw [State.wrN_ethAt, State.setEth_ethAt]
  · intro pg e count first stride n at_ hr hq hs
    have hmax : max (s.ppStride p) 1 = s.ppStride p := Nat.max_eq_left hs
    have hn : s.pointCount p f = n := by
      unfold State.pointCount
      rw [hmax]
      rfl
    have hpop : (s.pointsTaken p f rest).ethAt p = { e with ppQueue := rest } := State.pointsTaken_ethAt
    rcases Nat.eq_zero_or_pos n with h0 | h0
    · have hb : s.pointBatch p = s.pointsTaken p f rest := State.pointBatch_none hr hq (hn.trans h0)
      refine ⟨_, rfl, ?_, fun _ => ?_, fun h => absurd h0 (Nat.pos_iff_ne_zero.1 h)⟩
      · rw [hb, hpop]
      · rw [hb, hpop]
        refine ⟨State.pointsTaken_byte, rfl, ?_, State.pointsTaken_sameRegs⟩
        rw [State.pointsTaken_count, hn, h0]
        rfl
    · have hn0 : 0 < s.pointCount p f := by rw [hn]; exact h0
      obtain ⟨hqueue, hseq⟩ := State.pointBatch_ethAt hr hq hn0
      refine ⟨_, rfl, hqueue, fun h => absurd h (Nat.pos_iff_ne_zero.1 h0), fun _ hloc hc _ hfit hend => ?_⟩
      obtain ⟨v, flags, body, hlen, hv, hmemc, hput⟩ := State.pointBatch_writes hr hq hn0 hloc (by rw [hn]; exact hfit)
      rw [hn] at hlen hput
      obtain ⟨bs, hbs⟩ : ∃ bs, batchHeader f.fus f.tb0 (s.fld (rk pg 0x120) 11 8) flags n e.batchSeq ++ body = bs := ⟨_, rfl⟩
      have hbs' : bs.length = 32 + 16 * n := by rw [← hbs, List.length_append, length_batchHeader, hlen]
      have hbad : v.memc.bad = [] := by rw [hmemc, memClean_bad hc]
      have hwritten : (s.pointBatch p).bytes at_ bs.length = bs := by
        rw [State.bytes_congr hput, ← hbs]
        exact State.bytes_put hbad (by rw [hbs, hbs']; exact hend)
      have hfield (o k : Nat) (h : o + k ≤ 32) := State.getLE_of_bytes (o := o) (k := k) hwritten (by omega)
      obtain ⟨h1, h2, h3, h4, h5⟩ := batchHeader_fields f.fus f.tb0 (s.fld (rk pg 0x120) 11 8) flags n e.batchSeq body
      rw [hbs] at h1 h2 h3 h4 h5
      have hbase : s.fld (rk pg 0x120) 11 8 < 2 ^ 8 := lt_of_lt_of_le (bits_lt ..) (by decide)
      have hcount : n < 2 ^ 16 := lt_of_le_of_lt (Nat.min_le_left _ _) (lt_of_lt_of_le (bits_lt ..) (by decide))
      refine ⟨(hfield 0 8 (by decide)).trans h1, (hfield 8 8 (by decide)).trans h2,
        (hfield 16 1 (by decide)).trans (h3.trans (Nat.mod_eq_of_lt hbase)), (hfield 18 2 (by decide)).trans (h4.trans (Nat.mod_eq_of_lt hcount)),
        (hfield 20 8 (by decide)).trans h5, hseq, ?_⟩
      have hbut := State.sameBytesBut_put (s := v) (m := mHub) (a := at_) (bs := bs)
      rw [hbs'] at hbut
      exact (hbut.same (by rw [← hbs]; exact hput)).after hv
end
-- ==== Sys2Proof/Proofs/Inertial.lean ====
section
/-! SPI ports and wheel inputs (R62 to R66, R75). Settles O7. -/

namespace Sys2Proof.Machine
section
variable {s t : State} {sp w : Nat}

/-! ### An SPI port's edges -/

/-- IMU_RATE shows the rate of the last two edges. -/
theorem State.spiRate_sameRegs : sameRegs s (s.spiRate sp) [imuKey sp 0x24] := by
  have hbase := sameRegs.refl s [imuKey sp 0x24]
  unfold State.spiRate
  extract_lets q t
  refine sameRegs.same (?_ : sameRegs s t _) (State.setSpi_regs ..)
  unfold t
  split
  · exact .ite (hbase.wrN (List.mem_singleton_self _)) hbase
  · exact hbase

theorem State.spiRate_byte (a : Nat) : (s.spiRate sp).byte a = s.byte a := by
  unfold State.spiRate
  dsimp only
  rw [State.setSpi_byte]
  split
  · split
    · rw [State.wrN_byte]
    · rfl
  · rfl

theorem State.spiRate_time : (s.spiRate sp).time = s.time := by
  unfold State.spiRate
  dsimp only
  rw [State.setSpi_time]
  split
  · split
    · rw [State.wrN_time]
    · rfl
  · rfl

theorem State.spiRate_spiAt : (s.spiRate sp).spiAt sp = { s.spiAt sp with rateFrom := some s.time.tb0, lastEdge := some s.time.tb0 } := by
  unfold State.spiRate
  dsimp only
  rw [State.setSpi_spiAt]
  split
  · split
    · rw [State.wrN_time]
    · rfl
  · rfl

theorem State.spiRate_rate {edge : Nat} (h : (s.spiAt sp).rateFrom = some edge) (hlt : edge < s.time.tb0) :
    (s.spiRate sp).rdN (imuKey sp 0x24) = 10 ^ 9 / (s.time.tb0 - edge) % 2 ^ 32 := by
  unfold State.spiRate
  dsimp only
  rw [h]
  dsimp only
  rw [if_pos hlt, State.setSpi_rdN, State.rdN_wrN, if_pos rfl]

/-- An edge that is taken: the rate is shown and SILENT is clear. -/
def State.edgeTaken (s : State) (sp : Nat) : State := (s.spiRate sp).setBit (imuKey sp 0x28) 0 false

theorem imuKey_inj {sp a b : Nat} : imuKey sp a = imuKey sp b ↔ a = b := by
  unfold imuKey
  rw [rk_inj]
  omega

theorem State.edgeTaken_sameRegs : sameRegs s (s.edgeTaken sp) [imuKey sp 0x24, imuKey sp 0x28] :=
  (State.spiRate_sameRegs.mono (by simp)).setBit (by simp)

theorem State.edgeTaken_silent : (s.edgeTaken sp).bit (imuKey sp 0x28) 0 = false := by
  unfold State.edgeTaken
  rw [State.bit_setBit _ _ _ _ _ _ (by decide), if_pos ⟨rfl, rfl⟩]

theorem State.edgeTaken_rate {edge : Nat} (h : (s.spiAt sp).rateFrom = some edge) (hlt : edge < s.time.tb0) :
    (s.edgeTaken sp).rdN (imuKey sp 0x24) = 10 ^ 9 / (s.time.tb0 - edge) % 2 ^ 32 := by
  unfold State.edgeTaken
  rw [State.rdN_congr (State.rd_setBit_ne _ _ _ (by simp [imuKey_inj])), State.spiRate_rate h hlt]

theorem State.edgeTaken_spiAt : (s.edgeTaken sp).spiAt sp = { s.spiAt sp with rateFrom := some s.time.tb0, lastEdge := some s.time.tb0 } := by
  unfold State.edgeTaken
  rw [State.setBit_spiAt, State.spiRate_spiAt]

theorem State.edgeTaken_time : (s.edgeTaken sp).time = s.time := by
  unfold State.edgeTaken
  rw [State.setBit_time, State.spiRate_time]

theorem State.edgeTaken_byte (a : Nat) : (s.edgeTaken sp).byte a = s.byte a := by
  unfold State.edgeTaken
  rw [State.setBit_byte, State.spiRate_byte]

/-- The edge becomes pending; a pending one that has not started is missed. -/
def State.edgePends (s : State) (sp : Nat) : State :=
  ((if ((s.edgeTaken sp).spiAt sp).pendEdge.isSome then (s.edgeTaken sp).imuMissed sp 1 else s.edgeTaken sp).setSpi sp
    { (s.edgeTaken sp).spiAt sp with pendEdge := some s.stampNow }).setBit (imuKey sp 0x28) 2 true

/-- What becomes of an active edge. -/
theorem State.drdyEdge_eq {rising : Bool} (hon : s.spiOn sp = true) (hp : s.bit (imuKey sp 0) 2 ≠ rising) : s.drdyEdge sp rising =
    match (s.spiAt sp).waiting with
    | some w =>
      if w.pended then ((s.edgeTaken sp).imuMissed sp 1).setSpi sp { (s.edgeTaken sp).spiAt sp with
        waiting := some { w with stamp := s.stampNow, due := max w.due (s.time.tb0 + s.spiDelay sp) } }
      else s.edgePends sp
    | none =>
      if (s.spiAt sp).active.isSome then s.edgePends sp
      else (s.edgeTaken sp).setSpi sp { (s.edgeTaken sp).spiAt sp with
        waiting := some { stamp := s.stampNow, due := s.time.tb0 + s.spiDelay sp } } := by
  have hdelay : (s.edgeTaken sp).spiDelay sp = s.spiDelay sp := State.edgeTaken_sameRegs.fld (by simp [imuKey_inj])
  have hnow : (s.edgeTaken sp).stampNow = s.stampNow := by
    unfold State.stampNow State.now
    rw [State.edgeTaken_time]
  unfold State.drdyEdge
  rw [if_neg (by simp [hon, hp])]
  change (let t := s.edgeTaken sp
    let q := t.spiAt sp
    let st := t.stampNow
    let pend (u : State) : State := (u.setSpi sp { q with pendEdge := some st }).setBit (imuKey sp 0x28) 2 true
    match q.waiting with
    | some w =>
      if w.pended then
        (t.imuMissed sp 1).setSpi sp { q with waiting := some { w with stamp := st, due := max w.due (st.tb0 + t.spiDelay sp) } }
      else pend (if q.pendEdge.isSome then t.imuMissed sp 1 else t)
    | none =>
      if q.active.isSome then pend (if q.pendEdge.isSome then t.imuMissed sp 1 else t)
      else t.setSpi sp { q with waiting := some { stamp := st, due := st.tb0 + t.spiDelay sp } }) = _
  dsimp only
  rw [hdelay, hnow]
  unfold State.edgePends
  rw [State.edgeTaken_spiAt]
  rfl

/-- The registers that show an SPI port's edges. -/
def edgeKeys (sp : Nat) : List Nat := [imuKey sp 0x24, imuKey sp 0x28, imuKey sp 0x2C]

theorem State.edgeTaken_edgeKeys : sameRegs s (s.edgeTaken sp) (edgeKeys sp) := State.edgeTaken_sameRegs.mono (by simp [edgeKeys])

theorem sameRegs.imuMissed {n : Nat} (h : sameRegs s t (edgeKeys sp)) : sameRegs s (t.imuMissed sp n) (edgeKeys sp) := h.wrN (by simp [edgeKeys])

/-- A taken edge shows its rate and clears SILENT, whatever is stored or counted with it. -/
def edgeShown (s t : State) (sp : Nat) : Prop :=
  t.bit (imuKey sp 0x28) 0 = false ∧
    (∀ edge, (s.spiAt sp).rateFrom = some edge → edge < s.time.tb0 → t.rdN (imuKey sp 0x24) = 10 ^ 9 / (s.time.tb0 - edge) % 2 ^ 32) ∧
    sameRegs s t (edgeKeys sp) ∧ sameBytes s t

theorem edgeShown_edgeTaken : edgeShown s (s.edgeTaken sp) sp :=
  ⟨State.edgeTaken_silent, fun _ h hlt => State.edgeTaken_rate h hlt, State.edgeTaken_edgeKeys, State.edgeTaken_byte⟩

theorem edgeShown.setSpi (h : edgeShown s t sp) (v : SpiPort) : edgeShown s (t.setSpi sp v) sp := by
  obtain ⟨h1, h2, h3, h4⟩ := h
  refine ⟨(State.setSpi_bit ..).trans h1, fun e he hlt => (State.setSpi_rdN ..).trans (h2 e he hlt), h3.same (State.setSpi_regs ..),
    fun a => (State.setSpi_byte ..).trans (h4 a)⟩

theorem edgeShown.imuMissed (h : edgeShown s t sp) (n : Nat) : edgeShown s (t.imuMissed sp n) sp := by
  obtain ⟨h1, h2, h3, h4⟩ := h
  have hne {o : Nat} (ho : o ≠ 0x2C) : (t.imuMissed sp n).rd (imuKey sp o) = t.rd (imuKey sp o) := State.rd_wrN_ne _ _ (by simpa [imuKey_inj] using ho)
  exact ⟨(State.bit_congr (hne (by decide)) _).trans h1, fun e he hlt => (State.rdN_congr (hne (by decide))).trans (h2 e he hlt), h3.imuMissed,
    fun a => (State.wrN_byte ..).trans (h4 a)⟩

theorem edgeShown.pending (h : edgeShown s t sp) : edgeShown s (t.setBit (imuKey sp 0x28) 2 true) sp := by
  obtain ⟨h1, h2, h3, h4⟩ := h
  refine ⟨?_, fun e he hlt => ?_, h3.setBit (by simp [edgeKeys]), fun a => (State.setBit_byte ..).trans (h4 a)⟩
  · rw [State.bit_setBit _ _ _ _ _ _ (by decide), if_neg (by simp), h1]
  · rw [State.rdN_congr (State.rd_setBit_ne _ _ _ (by simp [imuKey_inj])), h2 e he hlt]

theorem State.rdN_imuMissed (h : t.rd (imuKey sp 0x2C) = s.rd (imuKey sp 0x2C)) :
    (t.imuMissed sp 1).rdN (imuKey sp 0x2C) = (s.rdN (imuKey sp 0x2C) + 1) % 2 ^ 32 := by
  unfold State.imuMissed
  rw [State.rdN_wrN, if_pos rfl, State.rdN_congr h]

theorem State.edgeTaken_missed : ((s.edgeTaken sp).imuMissed sp 1).rdN (imuKey sp 0x2C) = (s.rdN (imuKey sp 0x2C) + 1) % 2 ^ 32 :=
  State.rdN_imuMissed (State.edgeTaken_sameRegs _ (by simp [imuKey_inj]))

theorem State.edgePends_shown : edgeShown s (s.edgePends sp) sp := by
  unfold State.edgePends
  refine edgeShown.pending (edgeShown.setSpi ?_ _)
  split
  · exact edgeShown_edgeTaken.imuMissed 1
  · exact edgeShown_edgeTaken

theorem State.edgePends_spiAt : (s.edgePends sp).spiAt sp =
    { s.spiAt sp with rateFrom := some s.time.tb0, lastEdge := some s.time.tb0, pendEdge := some s.stampNow } := by
  unfold State.edgePends
  rw [State.setBit_spiAt, State.setSpi_spiAt, State.edgeTaken_spiAt]

theorem State.edgePends_missed (h : (s.spiAt sp).pendEdge ≠ none) :
    (s.edgePends sp).rdN (imuKey sp 0x2C) = (s.rdN (imuKey sp 0x2C) + 1) % 2 ^ 32 := by
  unfold State.edgePends
  rw [State.rdN_congr (State.rd_setBit_ne _ _ _ (by simp [imuKey_inj])), State.setSpi_rdN, State.edgeTaken_spiAt]
  rw [if_pos (Option.isSome_iff_ne_none.2 h), State.edgeTaken_missed]

/-! ### An SPI port's transfers -/

theorem State.spiTransfer_eq {v : SpiWait} {miso : List Byte} (hon : s.spiOn sp = true) (hw : (s.spiAt sp).waiting = some v)
    (hd : v.due ≤ s.time.tb0) : s.spiTransfer sp miso =
      ((s.setSpi sp { s.spiAt sp with
        waiting := none
        active := some (v.stamp, (miso ++ zeros (min (s.fld (imuKey sp 8) 7 2 + 1) 32)).take (min (s.fld (imuKey sp 8) 7 2 + 1) 32))
        mosi := (leBytes 4 (s.rdN (imuKey sp 4))).take (s.fld (imuKey sp 8) 1 0 + 1) }).setBit (imuKey sp 0x28) 1 true).setBit
          (imuKey sp 0x28) 2 (s.spiAt sp).pendEdge.isSome := by
  unfold State.spiTransfer
  dsimp only
  rw [hw]
  dsimp only
  rw [if_neg (by simp [hon, hd])]

/-- The chain's queue of samples is replaced. -/
def State.withInq (s : State) (xs : List ChainIn) : State := { s with chain := { s.chain with inq := xs } }

/-- Whether an axis is enabled, and its sample. -/
def State.axisOn (s : State) (sp a : Nat) : Bool := (PLoc.ofReg (s.rdN (imuKey sp (0xC + 4 * a)))).en
def State.axisSample (s : State) (sp : Nat) (st : Stamp) (d : List Byte) (a : Nat) : ChainIn :=
  { chan := 6 * sp + a, stamp := st.fus, raw := some ((PLoc.ofReg (s.rdN (imuKey sp (0xC + 4 * a)))).int d), value := 0, still := false, stale := false,
    tb0 := st.tb0 }

/-- One axis of a sample. -/
def axisStep (sp : Nat) (st : Stamp) (d : List Byte) (s : State) (a : Nat) : State :=
  if s.axisOn sp a then s.toChain (s.axisSample sp st d a) else s

/-- The enabled axes join the chain's queue in order. -/
theorem axisSteps_eq {st : Stamp} {d : List Byte} {l : List Nat} {xs : List ChainIn} :
    l.foldl (axisStep sp st d) (s.withInq xs) = s.withInq (xs ++ (l.filter (s.axisOn sp)).map (s.axisSample sp st d)) := by
  induction l generalizing xs with
  | nil => simp
  | cons a l ih =>
    have hstep : axisStep sp st d (s.withInq xs) a = if s.axisOn sp a then s.withInq (xs ++ [s.axisSample sp st d a]) else s.withInq xs := rfl
    rw [List.foldl_cons, hstep]
    by_cases ha : s.axisOn sp a = true
    · rw [if_pos ha, ih, List.filter_cons_of_pos ha, List.map_cons, List.append_assoc, List.singleton_append]
    · rw [if_neg ha, ih, List.filter_cons_of_neg ha]

theorem State.spiSample_eq {st : Stamp} {d : List Byte} (h : (s.spiHeld sp).length < 64) : s.spiSample sp st d =
    s.withInq (s.chain.inq ++ ((List.range 6).filter (s.axisOn sp)).map (s.axisSample sp st d)) := by
  unfold State.spiSample
  rw [if_neg (by omega)]
  exact axisSteps_eq (s := s)

theorem State.spiTransferDone_eq {st : Stamp} {d : List Byte} (ha : (s.spiAt sp).active = some (st, d)) : s.spiTransferDone sp =
    ((s.spiSample sp st d).setBit (imuKey sp 0x28) 1 false).setSpi sp { s.spiAt sp with
      active := none
      waiting := (s.spiAt sp).pendEdge.map (fun e =>
        { stamp := e, due := max (e.tb0 + s.spiDelay sp) (s.time.tb0 + s.spiRest sp), pended := true })
      pendEdge := none } := by
  unfold State.spiTransferDone
  dsimp only
  rw [ha]

theorem State.spiSilent_eq {edge : Nat} (hon : s.spiOn sp = true) (he : (s.spiAt sp).lastEdge = some edge)
    (ht : edge + 4 * s.spiPeriod sp ≤ s.time.tb0) (hb : s.bit (imuKey sp 0x28) 0 = false) :
    s.spiSilent sp = (s.setBit (imuKey sp 0x28) 0 true).event pgImu 1 := by
  unfold State.spiSilent
  rw [he]
  dsimp only
  rw [if_pos (by simp [hon, ht, hb])]

theorem State.toChain_inq (x : ChainIn) : (s.toChain x).chain.inq = s.chain.inq ++ [x] := rfl
theorem State.toChain_regs (x : ChainIn) : (s.toChain x).regs = s.regs := rfl
theorem State.toChain_rd (x : ChainIn) (k : Nat) : (s.toChain x).rd k = s.rd k := rfl
theorem State.toChain_byte (x : ChainIn) (a : Nat) : (s.toChain x).byte a = s.byte a := rfl
theorem State.toChain_wheelAt (x : ChainIn) (i : Nat) : (s.toChain x).wheelAt i = s.wheelAt i := rfl

/-! ### Wheels -/

theorem wheelKey_inj {w a b : Nat} : wheelKey w a = wheelKey w b ↔ a = b := by
  unfold wheelKey
  rw [rk_inj]
  omega

/-- An edge of the kind that WHEEL_CTRL selects, on an input that is on. -/
def State.wheelSelects (s : State) (w : Nat) (rising : Bool) : Prop :=
  s.fld (wheelKey w 0) 2 1 = (if rising then 0 else 1) ∨ 2 ≤ s.fld (wheelKey w 0) 2 1

/-- Whether an edge comes less than WHEEL_MIN_GAP after the last accepted one. -/
def State.wheelSoon (s : State) (w : Nat) : Bool :=
  match (s.wheelAt w).last with
  | some t => decide (s.time.tb0 - t < 2 * s.fld (wheelKey w 4) 15 0)
  | none => false

theorem State.wheelEdge_eq {rising : Bool} (hon : s.wheelOn w = true) (hsel : s.wheelSelects w rising) : s.wheelEdge w rising =
    if s.wheelSoon w = true ∨ 16 ≤ (s.wheelAt w).queue.length then s.wheelReject w 1
    else (s.setWheel w { s.wheelAt w with last := some s.time.tb0, queue := (s.wheelAt w).queue ++ [s.stampNow] }).wrN (wheelKey w 0x14)
      (s.rdN (wheelKey w 0x14) + 1) := by
  have hs : ¬ (!s.wheelOn w || (s.fld (wheelKey w 0) 2 1 = 0 && !rising) || (s.fld (wheelKey w 0) 2 1 = 1 && rising)) = true := by
    unfold State.wheelSelects at hsel
    cases rising <;> simp at hsel <;> simp [hon] <;> omega
  unfold State.wheelEdge
  dsimp only
  rw [if_neg hs]
  refine if_congr ?_ rfl rfl
  rw [Bool.or_eq_true, decide_eq_true_eq]
  rfl

/-- What the speed unit shows at a sample: its speed, or 0 with STILL. -/
def State.wheelShown (s : State) (w : Nat) (q : WheelIn) : Word × Bool :=
  match q.edge, q.period with
  | some t, some p =>
    if s.rdN (wheelKey w 0xC) * 10 ^ 6 < s.time.tb0 - t then (0, true)
    else if s.time.tb0 - t ≤ p then (q.speed, false)
    else (s.wheelRate w (s.time.tb0 - t), false)
  | _, _ => (0, true)

/-- The port once the speed unit has taken the waiting edges. -/
def State.wheelTaken (s : State) (w : Nat) : WheelIn := (s.wheelAt w).queue.foldl (s.wheelTake w) (s.wheelAt w)

theorem State.wheelSample_eq (hon : s.wheelOn w = true) (hn : (s.wheelAt w).sampled ≠ some (s.sampleNo (48 + w))) : s.wheelSample w =
    ((s.setWheel w { s.wheelTaken w with queue := [], sampled := some (s.sampleNo (48 + w)) }).wr (wheelKey w 0x10)
      (s.wheelShown w (s.wheelTaken w)).1).toChain {
        chan := 48 + w
        stamp := s.sampleNo (48 + w) * s.chanTin (48 + w)
        raw := none
        value := (s.wheelShown w (s.wheelTaken w)).1
        still := (s.wheelShown w (s.wheelTaken w)).2
        stale := false
        tb0 := s.time.tb0 } := by
  unfold State.wheelSample
  dsimp only
  rw [if_neg (by simp [hon, hn])]
  rfl

theorem State.wheelSample_done (hn : (s.wheelAt w).sampled = some (s.sampleNo (48 + w))) : s.wheelSample w = s := by
  unfold State.wheelSample
  dsimp only
  rw [if_pos (by simp [hn])]

end
end Sys2Proof.Machine

open Sys2Proof Sys2Proof.Machine in
/-- Settles O7: an edge, a transfer's start and end and a silence by the equation of each; then a wheel's edge and its sample. -/
theorem inertialPortsSample : Obligations.InertialPortsSample := by
  unfold Obligations.InertialPortsSample
  refine ⟨fun s sp rising miso w st edge d => ?_, fun s w rising last per st => ?_⟩
  · intro q n axis now delay missed hr hen
    have hon : s.spiOn sp = true := by
      unfold State.spiOn
      rw [hr, hen]
      rfl
    refine ⟨fun hpol => ⟨_, rfl, ?_⟩, fun hw hd hn => ⟨_, rfl, ?_⟩, fun ha hheld => ⟨_, rfl, ?_⟩, fun he ht hb => ⟨_, rfl, ?_⟩⟩
    · rw [State.drdyEdge_eq hon hpol]
      cases hw : q.waiting with
      | none =>
        dsimp only
        cases hact : q.active with
        | none =>
          rw [if_neg (by simp)]
          obtain ⟨h1, h2, h3, h4⟩ := (edgeShown_edgeTaken (s := s) (sp := sp)).setSpi
            { (s.edgeTaken sp).spiAt sp with waiting := some { stamp := s.stampNow, due := s.time.tb0 + s.spiDelay sp } }
          refine ⟨h1, fun _ _ => by rw [State.setSpi_spiAt]; rfl, fun h => absurd h (by simp), fun h => absurd h (by simp), h2 edge, h3, h4⟩
        | some x =>
          rw [if_pos Option.isSome_some, State.edgePends_spiAt]
          obtain ⟨h1, h2, h3, h4⟩ := State.edgePends_shown (s := s) (sp := sp)
          exact ⟨h1, fun _ h => absurd h (by simp), fun h => absurd h (by simp), fun _ => ⟨rfl, hw, State.edgePends_missed⟩, h2 edge, h3, h4⟩
      | some v =>
        dsimp only
        by_cases hv : v.pended = true
        · rw [if_pos hv]
          obtain ⟨h1, h2, h3, h4⟩ := ((edgeShown_edgeTaken (s := s) (sp := sp)).imuMissed 1).setSpi { (s.edgeTaken sp).spiAt sp with
            waiting := some { v with stamp := s.stampNow, due := max v.due (s.time.tb0 + s.spiDelay sp) } }
          refine ⟨h1, fun h => absurd h (by simp), fun h _ => ?_, fun h => ?_, h2 edge, h3, h4⟩
          · obtain rfl := Option.some.inj h
            refine ⟨(State.setSpi_rdN ..).trans State.edgeTaken_missed, ?_, ?_⟩
            · rw [State.setSpi_spiAt, State.edgeTaken_spiAt]
            · rw [State.setSpi_spiAt]
              rfl
          · rcases h with ⟨h, hp⟩ | ⟨h, _⟩
            · rw [Option.some.inj h, hp] at hv
              cases hv
            · cases h
        · rw [if_neg hv, State.edgePends_spiAt]
          obtain ⟨h1, h2, h3, h4⟩ := State.edgePends_shown (s := s) (sp := sp)
          exact ⟨h1, fun h => absurd h (by simp), fun h hp => absurd ((Option.some.inj h).symm ▸ hp) hv, fun _ => ⟨rfl, hw, State.edgePends_missed⟩,
            h2 edge, h3, h4⟩
    · rw [State.spiTransfer_eq hon hw hd, State.setBit_spiAt, State.setBit_spiAt, State.setSpi_spiAt]
      refine ⟨?_, rfl, ?_, fun a => ?_⟩
      · exact congrArg (fun x => some (w.stamp, x)) (List.take_append_of_le_length hn)
      · exact (((sameRegs.refl s _).same (State.setSpi_regs ..)).setBit (List.mem_singleton_self _)).setBit (List.mem_singleton_self _)
      · rw [State.setBit_byte, State.setBit_byte, State.setSpi_byte]
    · rw [State.spiTransferDone_eq ha, State.spiSample_eq hheld, State.setSpi_spiAt, State.setSpi_chain, State.setBit_chain]
      refine ⟨rfl, rfl, rfl, rfl, ?_, fun a => ?_⟩
      · exact (((sameRegs.refl s _).same rfl).setBit (List.mem_singleton_self _)).same (State.setSpi_regs ..)
      · rw [State.setSpi_byte, State.setBit_byte]
        rfl
    · rw [State.spiSilent_eq hon he ht hb]
      refine ⟨?_, State.bit_event_self _ _ _ (by decide), ?_, fun a => ?_⟩
      · rw [State.bit_event _ _ _ _ _ (by decide), State.bit_setBit _ _ _ _ _ _ (by decide), if_pos ⟨rfl, rfl⟩, Bool.or_true]
      · exact ((sameRegs.refl s _).setBit (by simp)).event (by simp)
      · rw [State.event_byte, State.setBit_byte]
  · intro q dist gap now n sample hr hen
    have hon : s.wheelOn w = true := by
      unfold State.wheelOn
      rw [hr, hen]
      rfl
    refine ⟨fun hsel => ⟨_, rfl, ?_⟩, fun hn => ?_, fun hn => ?_⟩
    · rw [State.wheelEdge_eq hon hsel]
      refine ⟨fun a => ?_, fun h => ?_, fun h hq => ?_⟩
      · split
        · exact State.wrN_byte ..
        · rw [State.wrN_byte, State.setWheel_byte]
      · rw [if_pos]
        · exact ⟨State.wrN_wheel .., (State.rdN_wrN ..).trans (if_pos rfl), (sameRegs.refl s _).wrN (List.mem_singleton_self _)⟩
        · refine h.imp_left (fun ⟨h1, h2⟩ => ?_)
          unfold State.wheelSoon
          rw [h1]
          exact decide_eq_true h2
      · rw [if_neg]
        · refine ⟨?_, (State.rdN_wrN ..).trans (if_pos rfl), ((sameRegs.refl s _).same (State.setWheel_regs ..)).wrN (List.mem_singleton_self _)⟩
          rw [State.wrN_wheelAt, State.setWheel_wheelAt]
          rfl
        · rw [not_or]
          refine ⟨?_, Nat.not_le.2 hq⟩
          unfold State.wheelSoon
          rcases h with h | ⟨h1, h2⟩
          · rw [h]
            exact Bool.false_ne_true
          · rw [h1]
            simpa using h2
    · exact congrArg _ (State.wheelSample_done hn)
    · intro q' e
      refine ⟨_, rfl, ?_⟩
      rw [State.wheelSample_eq hon hn]
      rw [State.toChain_inq, State.toChain_rd, State.toChain_wheelAt, State.rd_wr, if_pos rfl, State.wr_chain, State.setWheel_chain, State.wr_wheelAt, State.setWheel_wheelAt]
      have hshown (v : Word) (still : Bool) (h : s.wheelShown w q' = (v, still)) : s.chain.inq ++ [({
          chan := 48 + w, stamp := s.sampleNo (48 + w) * s.chanTin (48 + w), raw := none, value := (s.wheelShown w (s.wheelTaken w)).1,
          still := (s.wheelShown w (s.wheelTaken w)).2, stale := false, tb0 := s.time.tb0 } : ChainIn)] = s.chain.inq ++ [sample v still] ∧
          (s.wheelShown w (s.wheelTaken w)).1 = v := by
        rw [show s.wheelShown w (s.wheelTaken w) = (v, still) from h]
        exact ⟨rfl, rfl⟩
      refine ⟨fun a => ?_, ?_, rfl, fun h => ?_, fun h he => ?_, fun h => hshown _ _ ?_, fun he hp hlt => hshown _ _ ?_,
        fun he hp hle hper => hshown _ _ ?_, fun he hp hle hper => hshown _ _ ?_⟩
      · rw [State.toChain_byte, State.wr_byte, State.setWheel_byte]
      · exact (((sameRegs.refl s _).same (State.setWheel_regs ..)).wr (List.mem_singleton_self _)).same (State.toChain_regs _)
      · unfold q'
        rw [h]
        rfl
      · have hfold : q' = s.wheelTake w q st := by
          unfold q'
          rw [h]
          rfl
        rw [hfold]
        unfold State.wheelTake
        rw [he]
        rfl
      · unfold State.wheelShown
        rcases h with h | h
        · rw [h]
        · rw [h]
          split
          · rename_i h'
            cases h'
          · rfl
      · unfold State.wheelShown
        rw [he, hp]
        exact if_pos hlt
      · unfold State.wheelShown
        rw [he, hp]
        exact (if_neg (Nat.not_lt.2 hle)).trans (if_pos hper)
      · unfold State.wheelShown
        rw [he, hp]
        exact (if_neg (Nat.not_lt.2 hle)).trans (if_neg (Nat.not_le.2 hper))
end
-- ==== Sys2Proof/Proofs/CommandSlot.lean ====
section
/-! A command that an owner issues into a page's slot (R361 to R363): the state in which its action runs, and its completion. -/

namespace Sys2Proof.Machine
section
variable {s t : State} {h p code r e : Nat} {ks : List Nat}

theorem sameRegs.cmdDone (hf : sameRegs s t ks) (hk : rk p 0x2C ∈ ks) : sameRegs s (t.cmdDone p r e) ks :=
  fun j hj => (State.rd_cmdDone_ne _ (ne_of_mem_of_not_mem hk hj).symm).trans (hf j hj)

theorem sameRegs.cmdAccept (hf : sameRegs s t ks) (hk : rk p 0x2C ∈ ks) : sameRegs s (t.cmdAccept h p code) ks := hf.wrN hk

/-- The state in which the action of an accepted command runs. -/
def State.issued (s : State) (h p code : Nat) : State := ((s.reply h .done).wrN (rk p 0x28) code).cmdAccept h p code

theorem State.issued_sameRegs : sameRegs s (s.issued h p code) (slotKeys h p) :=
  (((sameRegs.refl s _).same (State.reply_regs ..)).wrN (by simp [slotKeys])).cmdAccept (by simp [slotKeys])

theorem State.issued_byte (a : Nat) : (s.issued h p code).byte a = s.byte a := by
  unfold State.issued
  rw [State.cmdAccept_byte, State.wrN_byte, State.reply_byte]

theorem State.issued_can : (s.issued h p code).can = s.can := by
  unfold State.issued
  rw [State.cmdAccept_can, State.wrN_can, State.reply_can]

theorem State.issued_busy (hh : h < 2) (hc : code < 256) : (s.issued h p code).busy p = true := State.busy_cmdAccept _ _ _ _ hh hc

theorem State.role_congr (hr : t.rd (rk pgSys 0x104) = s.rd (rk pgSys 0x104)) : t.role h = s.role h := by
  unfold State.role
  rw [State.fld_congr hr]

theorem State.isOwner_congr (hr : t.rd (rk pgSys 0x104) = s.rd (rk pgSys 0x104)) : t.isOwner h = s.isOwner h := by
  unfold State.isOwner
  rw [State.role_congr hr]

theorem State.blk_congr (hp : p ≠ pgSys) (hr : t.rd (rk p 0x10) = s.rd (rk p 0x10)) : t.blk p = s.blk p := by
  unfold State.blk
  rw [if_neg hp, if_neg hp, State.fld_congr hr]

/-- A known command that an owner issues to a slot that takes it runs its action, and the write is counted. -/
theorem State.hostCmd_issued {role : Bool} {f : State → State} (hi : s.issues h p = true) (hs : p ≠ pgSys) (hp : p ≠ pgPort (1 - h))
    (hk : (pageKind p).isSome = true) :
    s.hostCmd h p code role (some f) = (f (s.issued h p code)).bump (rk (pgPort h) 0x48) := by
  simp only [State.issues, State.slotTakes, Bool.and_eq_true, Bool.not_eq_true'] at hi
  obtain ⟨⟨hreach, howner⟩, hbusy, hstate⟩ := hi
  have hf : sameRegs s ((s.reply h .done).wrN (rk p 0x28) code) [rk p 0x28] :=
    ((sameRegs.refl s _).same (State.reply_regs ..)).wrN (List.mem_singleton_self _)
  have hb : ((s.reply h .done).wrN (rk p 0x28) code).busy p = false := (hf.bit (by simp)).trans hbusy
  have hblk : ((s.reply h .done).wrN (rk p 0x28) code).blk p = s.blk p := State.blk_congr hs (hf _ (by simp))
  have ho : (s.issued h p code).isOwner h = true := by
    refine (State.isOwner_congr (State.issued_sameRegs _ ?_)).trans howner
    simp only [slotKeys, wide_rk, List.mem_append, List.mem_cons, List.not_mem_nil, or_false, not_or]
    unfold rk
    omega
  unfold State.hostCmd
  rw [State.hostWrite_eq hreach, if_neg hp, if_neg (by simp [Option.isSome_iff_ne_none.1 hk])]
  unfold State.command
  simp only [hb, hblk, hstate, Bool.or_self, Bool.false_eq_true, if_false]
  unfold State.issued at ho ⊢
  rw [ho]
  simp

/-- A command that completes shows its result, also after its write is counted. -/
theorem State.cmdDone_shown (hb : t.busy p = true) (hr : r < 256) :
    ((t.cmdDone p r).bump (rk (pgPort h) 0x48)).busy p = false ∧ ((t.cmdDone p r).bump (rk (pgPort h) 0x48)).result p = r := by
  have hrd : ((t.cmdDone p r).bump (rk (pgPort h) 0x48)).rd (rk p 0x2C) = (t.cmdDone p r).rd (rk p 0x2C) :=
    State.rd_bump_ne _ _ (by unfold rk; omega) (by unfold rk; omega)
  exact ⟨(State.bit_congr hrd _).trans (State.busy_cmdDone ..), (State.fld_congr hrd _ _).trans (State.result_cmdDone _ _ _ _ hb hr)⟩

theorem sameRegs.counted (hf : sameRegs s t ks) (hk : slotKeys h p ⊆ ks) : sameRegs s (t.bump (rk (pgPort h) 0x48)) ks :=
  hf.bump (hk (by simp [slotKeys])) (hk (by simp [slotKeys, rk_add]))

end
end Sys2Proof.Machine
end

