-- ==== Sys2Proof/Proofs/CanControllers.lean ====
section
/-! CAN controllers (R67 to R70, R77). Settles O8. -/

namespace Sys2Proof.Machine
section
variable {s t : State} {c k : Nat} {f : CanFrame} {st : Stamp}

@[simp] theorem canKey_inj {a b : Nat} : canKey c a = canKey c b ↔ a = b := rk_inj

theorem canKey_add (o d : Nat) : canKey c o + d = canKey c (o + d) := rk_add ..

@[simp] theorem wide_canKey (o : Nat) : wide (canKey c o) = [canKey c o, canKey c (o + 4)] := wide_rk ..

theorem memState_ne_canKey {o : Nat} (hc : c < 4) (ho : o < 0x1000) : rk pgMem 0x10 ≠ canKey c o :=
  rk_ne_of_page (by unfold pgMem pgCan; omega) (by omega) ho

theorem pgCan_notMem_memPages (hc : c < 4) : pgCan c ∉ memPages := by
  unfold memPages pgCan pgMem pgCommons pgSys
  simp
  omega

/-! ### The error state -/

/-- The error state is passive where an error count is above 127. -/
def canErrShown (t : State) (c : Nat) : Prop :=
  t.fld (canKey c 0x110) 17 16 = if 127 < t.fld (canKey c 0x110) 7 0 ∨ 127 < t.fld (canKey c 0x110) 15 8 then 1 else 0

theorem canErrShown.congr (h : canErrShown s c) (hr : t.rd (canKey c 0x110) = s.rd (canKey c 0x110)) : canErrShown t c := by
  unfold canErrShown
  rw [State.fld_congr hr, State.fld_congr hr, State.fld_congr hr]
  exact h

theorem State.setCanErr_shown (a b : Nat) : canErrShown (s.setCanErr c a b) c := by
  have h : (s.setCanErr c a b).fld (canKey c 0x110) 17 0 =
      (a % 256 + b % 256 * 256 + (if 127 < a % 256 || 127 < b % 256 then 65536 else 0)) % 2 ^ 18 :=
    State.fld_setFld_self _ _ _ _ _ (by decide) (by decide)
  generalize s.setCanErr c a b = t at h
  simp only [Bool.or_eq_true, decide_eq_true_eq] at h
  unfold canErrShown
  simp only [State.fld, bits, Nat.shiftRight_eq_div_pow] at h ⊢
  split at h <;> split <;> omega

/-- What a frame on the bus leaves of a controller but its error counts. -/
structure ErrCounted (s t : State) (c : Nat) : Prop where
  shown : canErrShown t c
  regs : sameRegs s t [canKey c 0x110]
  bytes : sameBytes s t
  can : t.can = s.can
  slots : t.slots = s.slots

theorem errCounted_setCanErr (hr : t.regs = s.regs) (hb : sameBytes s t) (hc : t.can = s.can) (hs : t.slots = s.slots) (a b : Nat) :
    ErrCounted s (t.setCanErr c a b) c where
  shown := State.setCanErr_shown a b
  regs := ((sameRegs.refl s _).same hr).setFld (by simp)
  bytes := fun x => (State.setFld_byte ..).trans (hb x)
  can := (State.setFld_can ..).trans hc
  slots := (State.setFld_slots ..).trans hs

theorem State.canErrRx_counted : ErrCounted s (s.canErrRx c) c := errCounted_setCanErr (s := s) (t := s.draw.2) rfl (sameBytes.refl _) rfl rfl _ _
theorem State.canErrTx_counted : ErrCounted s (s.canErrTx c) c := errCounted_setCanErr (s := s) (t := s.draw.2) rfl (sameBytes.refl _) rfl rfl _ _

theorem ErrCounted.canAt (h : ErrCounted s t c) (i : Nat) : t.canAt i = s.canAt i := by
  unfold State.canAt
  rw [h.can]

/-! ### Delivery -/

theorem State.canMatches_congr (h : ∀ o, 0x200 ≤ o → t.rd (canKey c o) = s.rd (canKey c o)) : t.canMatches c k f = s.canMatches c k f := by
  unfold State.canMatches
  rw [h _ (by omega), h _ (by omega)]

theorem State.canDeliver_none (h : ∀ i ∈ List.range 64, s.canMatches c i f = false) : s.canDeliver c f st = s.bump (canKey c 0x50) := by
  unfold State.canDeliver
  rw [List.find?_eq_none.2 (fun i hi => by simp [h i hi])]

/-- The lowest-numbered matching filter is the one found. -/
theorem State.find_canMatches (hk : k < 64) (h : s.canMatches c k f = true) (hlow : ∀ i ∈ List.range k, s.canMatches c i f = false) :
    (List.range 64).find? (fun k => s.canMatches c k f) = some k := by
  refine List.find?_range_eq_some.2 ⟨h, List.mem_range.2 hk, fun i hi => ?_⟩
  simp [hlow i (List.mem_range.2 hi)]

theorem State.canDeliver_reject (hk : k < 64) (h : s.canMatches c k f = true) (hlow : ∀ i ∈ List.range k, s.canMatches c i f = false)
    (ha : s.fld (canKey c (0x204 + 8 * k)) 31 30 = 3) : s.canDeliver c f st = s := by
  unfold State.canDeliver
  rw [State.find_canMatches hk h hlow]
  simp only [ha]

theorem State.canDeliver_slots (hk : k < 64) (h : s.canMatches c k f = true) (hlow : ∀ i ∈ List.range k, s.canMatches c i f = false)
    (ha : s.fld (canKey c (0x204 + 8 * k)) 31 30 = 1) : s.canDeliver c f st = s.canToSlots c k f st := by
  unfold State.canDeliver
  rw [State.find_canMatches hk h hlow]
  simp only [ha]

/-! ### Signal slots -/

/-- A slot after a frame that filter `k` of controller `c` sends to the slots. -/
def State.slotTaken (s : State) (c k : Nat) (f : CanFrame) (st : Stamp) (j : Nat) : CanSlot :=
  let w := s.fld (slotKey j 4) 21 16
  if 0 < w ∧ w ≤ 32 ∧ s.fld (slotKey j 0) 1 0 = c ∧ s.fld (slotKey j 0) 13 8 = k then
    let raw := canRaw f.data (s.fld (slotKey j 4) 8 0) w (s.bit (slotKey j 8) 0)
    let num : Int := if s.bit (slotKey j 8) 1 then toSigned w raw else raw
    { s.slotAt j with value := fadd (fmul (s.rd (slotKey j 0xC)) (fofInt num)) (s.rd (slotKey j 0x10)), stamp := some st.fus }
  else s.slotAt j

/-- One slot takes what is its own of a frame. -/
def State.canToSlot (s : State) (c k : Nat) (f : CanFrame) (st : Stamp) (j : Nat) : State :=
  let a := s.rdN (slotKey j 0)
  let b := s.rdN (slotKey j 4)
  let o := s.rdN (slotKey j 8)
  let w := bits b 21 16
  if w = 0 || 32 < w || bits a 1 0 ≠ c || bits a 13 8 ≠ k then s
  else
    let raw := canRaw f.data (bits b 8 0) w (o.testBit 0)
    let v := fofInt (if o.testBit 1 then toSigned w raw else raw)
    s.setSlot j { s.slotAt j with value := fadd (fmul (s.rd (slotKey j 0xC)) v) (s.rd (slotKey j 0x10)), stamp := some st.fus }

theorem State.canToSlots_eq : s.canToSlots c k f st = (List.range 8).foldl (fun s j => s.canToSlot c k f st j) s := rfl

/-- What a slot takes is stored in that slot alone. -/
theorem State.canToSlot_eq (j : Nat) : s.canToSlot c k f st j = s ∧ s.slotTaken c k f st j = s.slotAt j ∨
    s.canToSlot c k f st j = s.setSlot j (s.slotTaken c k f st j) := by
  have hcond : (s.fld (slotKey j 4) 21 16 = 0 || 32 < s.fld (slotKey j 4) 21 16 || s.fld (slotKey j 0) 1 0 ≠ c || s.fld (slotKey j 0) 13 8 ≠ k)
      = true ↔ ¬ (0 < s.fld (slotKey j 4) 21 16 ∧ s.fld (slotKey j 4) 21 16 ≤ 32 ∧ s.fld (slotKey j 0) 1 0 = c ∧
        s.fld (slotKey j 0) 13 8 = k) := by
    simp only [ne_eq, decide_not, Bool.or_eq_true, decide_eq_true_eq, Bool.not_eq_eq_eq_not, Bool.not_true, decide_eq_false_iff_not]
    omega
  by_cases hn : 0 < s.fld (slotKey j 4) 21 16 ∧ s.fld (slotKey j 4) 21 16 ≤ 32 ∧ s.fld (slotKey j 0) 1 0 = c ∧ s.fld (slotKey j 0) 13 8 = k
  · refine Or.inr ((if_neg (fun h => hcond.1 h hn)).trans (congrArg (s.setSlot j) ?_))
    exact (if_pos hn).symm
  · exact Or.inl ⟨if_pos (hcond.2 hn), if_neg hn⟩

theorem State.canToSlot_regs (j : Nat) : (s.canToSlot c k f st j).regs = s.regs := by
  obtain ⟨e, -⟩ | e := State.canToSlot_eq (s := s) (c := c) (k := k) (f := f) (st := st) j
  · rw [e]
  · rw [e, State.setSlot_regs]

theorem State.canToSlot_slotAt (j i : Nat) : (s.canToSlot c k f st j).slotAt i = if i = j then s.slotTaken c k f st j else s.slotAt i := by
  obtain ⟨e, e'⟩ | e := State.canToSlot_eq (s := s) (c := c) (k := k) (f := f) (st := st) j
  · rw [e]
    split
    · next h => rw [h, e']
    · rfl
  · rw [e]
    split
    · next h => rw [h, State.setSlot_slotAt]
    · next h => rw [State.setSlot_slotAt_ne _ _ h]

theorem State.canToSlot_byte (j a : Nat) : (s.canToSlot c k f st j).byte a = s.byte a := by
  obtain ⟨e, -⟩ | e := State.canToSlot_eq (s := s) (c := c) (k := k) (f := f) (st := st) j
  · rw [e]
  · rw [e, State.setSlot_byte]

theorem State.canToSlot_can (j : Nat) : (s.canToSlot c k f st j).can = s.can := by
  obtain ⟨e, -⟩ | e := State.canToSlot_eq (s := s) (c := c) (k := k) (f := f) (st := st) j
  · rw [e]
  · rw [e, State.setSlot_can]

theorem State.slotTaken_congr {j : Nat} (hr : t.regs = s.regs) (hs : t.slotAt j = s.slotAt j) :
    t.slotTaken c k f st j = s.slotTaken c k f st j := by
  unfold State.slotTaken
  simp only [State.fld_eq hr, State.bit_eq hr, State.rd_eq hr, hs]

/-- After the first `n` slots have looked at a frame, each of them has taken what is its own of it. -/
theorem State.canToSlot_fold (n : Nat) :
    ((List.range n).foldl (fun s j => s.canToSlot c k f st j) s).regs = s.regs ∧
    ∀ j, ((List.range n).foldl (fun s j => s.canToSlot c k f st j) s).slotAt j = if j < n then s.slotTaken c k f st j else s.slotAt j := by
  induction n with
  | zero => exact ⟨rfl, fun j => rfl⟩
  | succ n ih =>
    obtain ⟨ihr, ihs⟩ := ih
    rw [List.range_succ, List.foldl_append, List.foldl_cons, List.foldl_nil]
    refine ⟨(State.canToSlot_regs n).trans ihr, fun j => ?_⟩
    have hn := (ihs n).trans (if_neg (Nat.lt_irrefl n))
    rw [State.canToSlot_slotAt, ihs j, State.slotTaken_congr ihr hn]
    by_cases h : j = n
    · rw [if_pos h, if_pos (by omega), h]
    · rw [if_neg h]
      by_cases hlt : j < n
      · rw [if_pos hlt, if_pos (by omega)]
      · rw [if_neg hlt, if_neg (by omega)]

theorem State.canToSlots_regs : (s.canToSlots c k f st).regs = s.regs := by
  rw [State.canToSlots_eq]
  exact (State.canToSlot_fold 8).1

theorem State.canToSlots_slotAt {j : Nat} (hj : j < 8) : (s.canToSlots c k f st).slotAt j = s.slotTaken c k f st j := by
  rw [State.canToSlots_eq]
  exact ((State.canToSlot_fold 8).2 j).trans (if_pos hj)

theorem State.canToSlots_byte (a : Nat) : (s.canToSlots c k f st).byte a = s.byte a :=
  foldl_keeps (fun s : State => s.byte a) _ (fun _ j => State.canToSlot_byte j a) _ _

theorem State.canToSlots_can : (s.canToSlots c k f st).can = s.can := foldl_keeps State.can _ (fun _ j => State.canToSlot_can j) _ _

theorem State.canToSlots_canAt (i : Nat) : (s.canToSlots c k f st).canAt i = s.canAt i := by
  unfold State.canAt
  rw [State.canToSlots_can]

/-! ### The receive ring -/

theorem State.put_canAt {m a : Nat} {bs : List Byte} (i : Nat) : (s.put m a bs).canAt i = s.canAt i := by
  unfold State.canAt
  rw [State.put_can]

/-- A record is one store, or two at the ring's end. -/
theorem State.ringPut_keeps {β : Type} (g : State → β) (hp : ∀ (s : State) m a bs, g (s.put m a bs) = g s) {base size off : Nat} {bs : List Byte} :
    g (s.ringPut base size off bs).1 = g s := by
  unfold State.ringPut
  dsimp only
  split
  · rfl
  · split
    · exact hp ..
    · exact (hp ..).trans (hp ..)

theorem State.canToRing_rd {o : Nat} (hc : c < 4) (ho : o < 0x1000) (h1 : o ≠ 0x48) (h2 : o ≠ 0x4C) :
    (s.canToRing c f st).rd (canKey c o) = s.rd (canKey c o) := by
  unfold State.canToRing
  extract_lets size
  split
  · exact State.rd_bump_ne _ _ (by simpa using h1) (by simpa [canKey_add] using h2)
  · rw [State.setCan_rd]
    exact State.ringPut_keeps (fun s => s.rd (canKey c o)) (fun _ _ _ _ => State.put_rd_page (pgCan_notMem_memPages hc) ho)

theorem State.canToRing_inq : ((s.canToRing c f st).canAt c).inq = (s.canAt c).inq := by
  unfold State.canToRing
  extract_lets size
  split
  · rw [State.bump_canAt]
  · rw [State.setCan_canAt]
    exact State.ringPut_keeps (fun s => (s.canAt c).inq) (fun _ _ _ _ => congrArg CanCtl.inq (State.put_canAt c))

/-- A delivery leaves a controller's error counts, its count of received frames and its entry queue. -/
theorem State.canDeliver_keeps (hc : c < 4) {o : Nat} (ho : o = 0x110 ∨ o = 0x40 ∨ o = 0x44) :
    (s.canDeliver c f st).rd (canKey c o) = s.rd (canKey c o) ∧ ((s.canDeliver c f st).canAt c).inq = (s.canAt c).inq := by
  have hring := State.canToRing_rd (s := s) (f := f) (st := st) (o := o) hc (by omega) (by omega) (by omega)
  have hslots (u : State) (k : Nat) : (u.canToSlots c k f st).rd (canKey c o) = u.rd (canKey c o) := State.rd_eq State.canToSlots_regs _
  unfold State.canDeliver
  split
  · exact ⟨State.rd_bump_ne _ _ (by simp; omega) (by simp [canKey_add]; omega), by rw [State.bump_canAt]⟩
  · split
    · exact ⟨hring, State.canToRing_inq⟩
    · exact ⟨hslots _ _, by rw [State.canToSlots_canAt]⟩
    · exact ⟨(hslots _ _).trans hring, by rw [State.canToSlots_canAt, State.canToRing_inq]⟩
    · exact ⟨rfl, rfl⟩

/-! ### A received frame -/

theorem State.canServe_off (h : s.running pgMem = false) : s.canServe c = s := by
  unfold State.canServe
  rw [if_neg (by simp [h])]

theorem State.canServe_one (h : s.running pgMem = true) (hq : (s.canAt c).inq = [(f, st)]) :
    s.canServe c = (s.setCan c { s.canAt c with inq := [] }).canDeliver c f st := by
  unfold State.canServe
  rw [if_pos h, hq]
  rfl

theorem State.canFrameRx_eq (hon : s.canOn c = true) (hbus : s.canBusOff c = false)
    (hfd : f.fd = true → s.bit (canKey c 0x100) 3 = true) : s.canFrameRx c f =
      if 32 ≤ (s.canAt c).inq.length then ((s.canErrRx c).bump (canKey c 0x48)).canServe c
      else (((s.canErrRx c).bump (canKey c 0x40)).setCan c
        { s.canAt c with inq := (s.canAt c).inq ++ [(f, s.stampNow)] }).canServe c := by
  have hfd' : (f.fd && !s.bit (canKey c 0x100) 3) = false := by
    cases hf : f.fd with
    | false => rfl
    | true => rw [hfd hf]; rfl
  unfold State.canFrameRx
  rw [if_neg (by simp [hon, hbus, hfd'])]
  dsimp only
  rw [State.canErrRx_counted.canAt]
  rfl

/-- The registers that a received frame writes before it is delivered. -/
def rxKeys (c : Nat) : List Nat := canKey c 0x110 :: wide (canKey c 0x40)

/-- What a received frame leaves of the state before it is delivered: counted, the error state shown, `q` waiting. -/
structure FrameCounted (s t : State) (c : Nat) (q : List (CanFrame × Stamp)) : Prop where
  shown : canErrShown t c
  count : t.rd64 (canKey c 0x40) = (s.rd64 (canKey c 0x40) + 1) % 2 ^ 64
  regs : sameRegs s t (rxKeys c)
  bytes : sameBytes s t
  slots : t.slots = s.slots
  inq : (t.canAt c).inq = q

theorem FrameCounted.setCan {q : List (CanFrame × Stamp)} (h : FrameCounted s t c q) (v : CanCtl) : FrameCounted s (t.setCan c v) c v.inq where
  shown := h.shown.congr (State.setCan_rd ..)
  count := (State.setCan_rd64 ..).trans h.count
  regs := h.regs.same (State.setCan_regs ..)
  bytes := fun a => (State.setCan_byte ..).trans (h.bytes a)
  slots := (State.setCan_slots ..).trans h.slots
  inq := by rw [State.setCan_canAt]

theorem State.canErrRx_bump_counted : FrameCounted s ((s.canErrRx c).bump (canKey c 0x40)) c (s.canAt c).inq := by
  have he := State.canErrRx_counted (s := s) (c := c)
  exact {
    shown := he.shown.congr (State.rd_bump_ne _ _ (by simp) (by simp [canKey_add]))
    count := he.regs.rd64_bump (by simp) (by simp [canKey_add])
    regs := (he.regs.mono (by simp [rxKeys])).bump (by simp [rxKeys]) (by simp [rxKeys, canKey_add])
    bytes := fun a => (State.bump_byte ..).trans (he.bytes a)
    slots := (State.bump_slots ..).trans he.slots
    inq := by rw [State.bump_canAt, he.canAt] }

theorem memState_notMem_rxKeys (hc : c < 4) : rk pgMem 0x10 ∉ rxKeys c := by
  simp only [rxKeys, wide_canKey, List.mem_cons, List.not_mem_nil, or_false, not_or]
  exact ⟨memState_ne_canKey hc (by decide), memState_ne_canKey hc (by decide), memState_ne_canKey hc (by decide)⟩

theorem slotKey_notMem_rxKeys (j o : Nat) (hj : j < 8) (ho : o < 0x20) : slotKey j o ∉ rxKeys c := by
  simp only [rxKeys, wide_canKey, List.mem_cons, List.not_mem_nil, or_false, not_or]
  unfold slotKey canKey rk
  omega

/-- The filters' registers stay what they were. -/
theorem FrameCounted.matches {q : List (CanFrame × Stamp)} (h : FrameCounted s t c q) : t.canMatches c k f = s.canMatches c k f :=
  State.canMatches_congr (fun o ho => h.regs _ (by simp [rxKeys]; omega))

theorem FrameCounted.action {q : List (CanFrame × Stamp)} (h : FrameCounted s t c q) :
    t.fld (canKey c (0x204 + 8 * k)) 31 30 = s.fld (canKey c (0x204 + 8 * k)) 31 30 := h.regs.fld (by simp [rxKeys]; omega)

theorem FrameCounted.slotTaken {q : List (CanFrame × Stamp)} {j : Nat} (h : FrameCounted s t c q) (hj : j < 8) :
    t.slotTaken c k f st j = s.slotTaken c k f st j := by
  have hreg (o : Nat) (ho : o < 0x20) : slotKey j o ∉ rxKeys c := slotKey_notMem_rxKeys j o hj ho
  have hs : t.slotAt j = s.slotAt j := by
    unfold State.slotAt
    rw [h.slots]
  unfold State.slotTaken
  rw [h.regs.fld (hreg 4 (by decide)), h.regs.fld (hreg 4 (by decide)), h.regs.fld (hreg 0 (by decide)), h.regs.fld (hreg 0 (by decide)),
    h.regs.bit (hreg 8 (by decide)), h.regs.bit (hreg 8 (by decide)), h.regs _ (hreg 0xC (by decide)), h.regs _ (hreg 0x10 (by decide)), hs]

theorem State.canServe_rd (hc : c < 4) {o : Nat} (ho : o = 0x110 ∨ o = 0x40 ∨ o = 0x44) :
    (s.canServe c).rd (canKey c o) = s.rd (canKey c o) := by
  unfold State.canServe
  split
  · exact (foldl_keeps (fun s : State => s.rd (canKey c o)) _ (fun _ _ => (State.canDeliver_keeps hc ho).1) _ _).trans (State.setCan_rd ..)
  · rfl

section
variable (hc : c < 4) (hon : s.canOn c = true) (hbus : s.canBusOff c = false) (hfd : f.fd = true → s.bit (canKey c 0x100) 3 = true)
include hc hon hbus hfd

theorem State.canFrameRx_shown : canErrShown (s.canFrameRx c f) c := by
  rw [State.canFrameRx_eq hon hbus hfd]
  split
  · refine State.canErrRx_counted.shown.congr ((State.canServe_rd hc (Or.inl rfl)).trans (State.rd_bump_ne _ _ (by simp) (by simp [canKey_add])))
  · exact (State.canErrRx_bump_counted.setCan _).shown.congr (State.canServe_rd hc (Or.inl rfl))

/-- While MEM does not serve accesses, a frame that fits waits. -/
theorem State.canFrameRx_waits (hm : s.running pgMem = false) (hlen : (s.canAt c).inq.length < 32) :
    FrameCounted s (s.canFrameRx c f) c ((s.canAt c).inq ++ [(f, s.stampNow)]) := by
  rw [State.canFrameRx_eq hon hbus hfd, if_neg (by omega)]
  have h := State.canErrRx_bump_counted.setCan (s := s) (c := c) { s.canAt c with inq := (s.canAt c).inq ++ [(f, s.stampNow)] }
  rwa [State.canServe_off ((h.regs.running (by decide) (memState_notMem_rxKeys hc)).trans hm)]

/-- Where 32 frames wait, a frame is lost and counted. -/
theorem State.canFrameRx_full (hm : s.running pgMem = false) (hlen : 32 ≤ (s.canAt c).inq.length) :
    s.canFrameRx c f = (s.canErrRx c).bump (canKey c 0x48) := by
  rw [State.canFrameRx_eq hon hbus hfd, if_pos hlen]
  have hr : sameRegs s ((s.canErrRx c).bump (canKey c 0x48)) (canKey c 0x110 :: wide (canKey c 0x48)) :=
    (State.canErrRx_counted.regs.mono (by simp)).bump (by simp) (by simp [canKey_add])
  refine State.canServe_off ((hr.running (by decide) ?_).trans hm)
  simp only [wide_canKey, List.mem_cons, List.not_mem_nil, or_false, not_or]
  exact ⟨memState_ne_canKey hc (by decide), memState_ne_canKey hc (by decide), memState_ne_canKey hc (by decide)⟩

/-- While MEM serves accesses and no frame waits, a frame is delivered at once. -/
theorem State.canFrameRx_served (hm : s.running pgMem = true) (hq : (s.canAt c).inq = []) :
    ∃ t, FrameCounted s t c [] ∧ s.canFrameRx c f = t.canDeliver c f s.stampNow := by
  rw [State.canFrameRx_eq hon hbus hfd, if_neg (by simp [hq])]
  have h := State.canErrRx_bump_counted.setCan (s := s) (c := c) { s.canAt c with inq := (s.canAt c).inq ++ [(f, s.stampNow)] }
  exact ⟨_, h.setCan _, State.canServe_one ((h.regs.running (by decide) (memState_notMem_rxKeys hc)).trans hm) (h.inq.trans (by rw [hq]; rfl))⟩

end

/-! ### A frame to send -/

/-- The frame that is sent next is one of those that wait, and none of them has a lower identifier. -/
theorem canNext_spec {g : CanFrame} : ∀ {l : List CanFrame}, canNext l = some g → g ∈ l ∧ ∀ x ∈ l, g.ident.toNat ≤ x.ident.toNat
  | [], h => by simp [canNext] at h
  | x :: xs, h => by
    unfold canNext at h
    cases hn : canNext xs with
    | none =>
      have hnil : xs = [] := by
        cases xs with
        | nil => rfl
        | cons y ys =>
          unfold canNext at hn
          split at hn
          · split at hn <;> simp at hn
          · simp at hn
      rw [hn] at h
      obtain rfl : x = g := Option.some.inj h
      simp [hnil]
    | some y =>
      obtain ⟨hy, hle⟩ := canNext_spec hn
      simp only [hn] at h
      split at h
      · next hlt =>
        obtain rfl : y = g := Option.some.inj h
        refine ⟨List.mem_cons_of_mem _ hy, fun z hz => ?_⟩
        rcases List.mem_cons.1 hz with rfl | hz
        · omega
        · exact hle z hz
      · next hge =>
        obtain rfl : x = g := Option.some.inj h
        refine ⟨List.mem_cons_self, fun z hz => ?_⟩
        rcases List.mem_cons.1 hz with rfl | hz
        · exact Nat.le_refl _
        · have := hle z hz
          omega

theorem canNext_of_mem {l : List CanFrame} (h : f ∈ l) : ∃ g, canNext l = some g := by
  cases l with
  | nil => simp at h
  | cons x xs =>
    unfold canNext
    split
    · split <;> exact ⟨_, rfl⟩
    · exact ⟨_, rfl⟩

theorem State.canFrameTx_eq {g : CanFrame} (hon : s.canOn c = true) (hbus : s.canBusOff c = false) (hm : s.fld (canKey c 0x100) 2 1 = 0)
    (hg : canNext (s.canAt c).tx = some g) : s.canFrameTx c =
      ((s.setCan c { s.canAt c with tx := (s.canAt c).tx.erase g, sent := (s.canAt c).sent ++ [g] }).bump (canKey c 0x58)).canErrTx c := by
  unfold State.canFrameTx
  rw [hg]
  dsimp only
  rw [if_neg (by simp [hon, hbus, hm])]

/-! ### Bus-off -/

theorem State.busOff_eq (hon : s.canOn c = true) (hbus : s.canBusOff c = false) : s.busOff c =
    (((s.setFld (canKey c 0x110) 17 16 2).setFld (canKey c 0x110) 7 0 255).bump (canKey c 0x60)).event (pgCan c) 1 := by
  unfold State.busOff
  rw [if_neg (by simp [hon, hbus])]

theorem State.canRecover_off (h : s.canBusOff c = true) : s.canRecover c = s.wrN (canKey c 0x110) 0 := if_pos h

theorem State.canRecover_active : (s.canRecover c).fld (canKey c 0x110) 17 16 ≠ 2 := by
  unfold State.canRecover
  split
  · unfold State.fld
    rw [State.rdN_wrN, if_pos rfl]
    decide
  · next h => simpa [State.canBusOff] using h

theorem sameRegs.canRecover {ks : List Nat} (h : sameRegs s t ks) (hk : canKey c 0x110 ∈ ks) : sameRegs s (t.canRecover c) ks :=
  .ite (h.wrN hk) h

theorem State.canRecover_byte (a : Nat) : (s.canRecover c).byte a = s.byte a := by
  unfold State.canRecover
  split
  · rw [State.wrN_byte]
  · rfl

theorem State.canRecover_busy (hb : s.busy (pgCan c) = true) : (s.canRecover c).busy (pgCan c) = true :=
  (((sameRegs.refl s [canKey c 0x110]).canRecover (List.mem_singleton_self _)).bit (by simp [canKey])).trans hb


/-! ### Signal samples -/

theorem State.toChain_slotAt (x : ChainIn) (i : Nat) : (s.toChain x).slotAt i = s.slotAt i := rfl

/-- A slot's sample at an instant, from what the slot holds. -/
def State.slotSample (s : State) (k : Nat) : ChainIn where
  chan := 56 + k
  stamp := s.sampleNo (56 + k) * s.chanTin (56 + k)
  raw := none
  value := (s.slotAt k).value
  still := false
  stale := match (s.slotAt k).stamp with
    | some t => decide (t + s.rdN (slotKey k 0x14) * 16000 < s.sampleNo (56 + k) * s.chanTin (56 + k))
    | none => true
  tb0 := s.time.tb0
  age := (s.slotAt k).stamp.map (fun t => s.sampleNo (56 + k) * s.chanTin (56 + k) - t)

theorem State.canSlotSample_eq (h : 0 < s.fld (slotKey k 4) 21 16) (hn : (s.slotAt k).sampled ≠ some (s.sampleNo (56 + k))) :
    s.canSlotSample k = (s.setSlot k { s.slotAt k with sampled := some (s.sampleNo (56 + k)) }).toChain (s.slotSample k) := by
  unfold State.canSlotSample
  dsimp only
  rw [if_neg]
  · rfl
  · simpa [hn] using (by omega : ¬ s.fld (slotKey k 4) 21 16 = 0)

theorem State.canSlotSample_done (h : (s.slotAt k).sampled = some (s.sampleNo (56 + k))) : s.canSlotSample k = s := by
  unfold State.canSlotSample
  dsimp only
  rw [if_pos (by simp [h])]

/-! ### The commands -/

theorem pageKind_pgCan (c : Fin 4) : (pageKind (pgCan c)).isSome = true := by
  revert c
  decide

theorem pgCan_ne_pgPort {h : Nat} (c : Nat) (hh : h < 2) : pgCan c ≠ pgPort h := by
  unfold pgCan pgPort
  omega

theorem pgCan_ne_pgSys (hc : c < 4) : pgCan c ≠ pgSys := by
  unfold pgCan pgSys
  omega

/-- What becomes of a frame to send: at most 8 wait, and no remote frame is sent. -/
theorem State.canSend_full (h : 8 ≤ (s.canAt c).tx.length) : s.canSend c f = s.cmdDone (pgCan c) resBusy := if_pos h

theorem State.canSend_remote (h : (s.canAt c).tx.length < 8) (hr : f.rtr = true) : s.canSend c f = s.cmdDone (pgCan c) resRefused :=
  (if_neg (by omega)).trans (if_pos hr)

theorem State.canSend_queued (h : (s.canAt c).tx.length < 8) (hr : f.rtr = false) :
    s.canSend c f = (s.setCan c { s.canAt c with tx := (s.canAt c).tx ++ [f] }).cmdDone (pgCan c) resDone :=
  (if_neg (by omega)).trans (if_neg (by simp [hr]))

/-- CMD_SEND completes whatever it does, and with the frames that wait only one is new. -/
theorem State.canSend_eq : ∃ r < 256, ∃ u : State, s.canSend c f = u.cmdDone (pgCan c) r ∧ (u = s ∨ ∃ v, u = s.setCan c v) := by
  unfold State.canSend
  dsimp only
  split
  · exact ⟨resBusy, by decide, s, rfl, Or.inl rfl⟩
  · split
    · exact ⟨resRefused, by decide, s, rfl, Or.inl rfl⟩
    · exact ⟨resDone, by decide, _, rfl, Or.inr ⟨_, rfl⟩⟩

/-! ### What each instruction leaves -/

section
variable (hon : s.canOn c = true) (hbus : s.canBusOff c = false)
include hon hbus

/-- The frame sent is one with the lowest identifier of those that wait. -/
theorem State.canFrameTx_sends (hm : s.fld (canKey c 0x100) 2 1 = 0) (hf : f ∈ (s.canAt c).tx) :
    ∃ g, g ∈ (s.canAt c).tx ∧ g.ident.toNat ≤ f.ident.toNat ∧
      ((s.canFrameTx c).canAt c).sent = (s.canAt c).sent ++ [g] ∧ ((s.canFrameTx c).canAt c).tx = (s.canAt c).tx.erase g ∧
      canErrShown (s.canFrameTx c) c ∧ (s.canFrameTx c).rd64 (canKey c 0x58) = (s.rd64 (canKey c 0x58) + 1) % 2 ^ 64 ∧
      sameRegs s (s.canFrameTx c) (canKey c 0x110 :: wide (canKey c 0x58)) ∧ sameBytes s (s.canFrameTx c) := by
  obtain ⟨g, hg⟩ := canNext_of_mem hf
  obtain ⟨hmem, hle⟩ := canNext_spec hg
  rw [State.canFrameTx_eq hon hbus hm hg]
  generalize hq : ({ s.canAt c with tx := (s.canAt c).tx.erase g, sent := (s.canAt c).sent ++ [g] } : CanCtl) = q
  have he := State.canErrTx_counted (s := (s.setCan c q).bump (canKey c 0x58)) (c := c)
  have hcan : (((s.setCan c q).bump (canKey c 0x58)).canErrTx c).canAt c = q := by
    rw [he.canAt, State.bump_canAt, State.setCan_canAt]
  have hregs : sameRegs s ((s.setCan c q).bump (canKey c 0x58)) (canKey c 0x110 :: wide (canKey c 0x58)) :=
    ((sameRegs.refl s _).same (State.setCan_regs ..)).bump (by simp) (by simp [canKey_add])
  refine ⟨g, hmem, hle _ hf, by rw [hcan, ← hq], by rw [hcan, ← hq], he.shown, ?_, hregs.trans (he.regs.mono (by simp)),
    fun a => (he.bytes a).trans (by rw [State.bump_byte, State.setCan_byte])⟩
  rw [he.regs.rd64 (by simp) (by simp [canKey_add]), State.rd64_bump_self, State.setCan_rd64]

theorem State.busOff_shown : (s.busOff c).fld (canKey c 0x110) 17 16 = 2 ∧ (s.busOff c).bit (canKey c 0x14) 1 = true ∧
    (s.busOff c).rd64 (canKey c 0x60) = (s.rd64 (canKey c 0x60) + 1) % 2 ^ 64 ∧
    sameRegs s (s.busOff c) ([canKey c 0x110, canKey c 0x14] ++ wide (canKey c 0x60)) ∧ sameBytes s (s.busOff c) := by
  have hset : sameRegs s ((s.setFld (canKey c 0x110) 17 16 2).setFld (canKey c 0x110) 7 0 255) [canKey c 0x110] :=
    ((sameRegs.refl s _).setFld (by simp)).setFld (by simp)
  rw [State.busOff_eq hon hbus]
  refine ⟨?_, State.bit_event_self _ _ _ (by decide), ?_, ?_, fun a => ?_⟩
  · rw [State.fld_congr (State.rd_event_ne _ (by simp [canKey])), State.fld_congr (State.rd_bump_ne _ _ (by simp) (by simp [canKey_add])),
      State.fld_setFld_ne _ _ _ _ _ _ _ _ (by decide) (by decide) (Or.inr (Or.inr (by decide))),
      State.fld_setFld_self _ _ _ _ _ (by decide) (by decide)]
    rfl
  · rw [State.rd64_congr (State.rd_event_ne _ (by simp [canKey])) (State.rd_event_ne _ (by simp [canKey, rk_add]))]
    exact hset.rd64_bump (by simp) (by simp [canKey_add])
  · exact ((hset.mono (by simp)).bump (by simp) (by simp [canKey_add])).event (by simp [canKey])
  · rw [State.event_byte, State.bump_byte, State.setFld_byte, State.setFld_byte]

end

theorem State.busOffRecovery_shown (h : s.canBusOff c = true) : sameBytes s (s.busOffRecovery c) ∧
    sameRegs s (s.busOffRecovery c) [canKey c 0x110] ∧
    (s.busOffRecovery c).rdN (canKey c 0x110) = if s.bit (canKey c 0x100) 4 then 0 else s.rdN (canKey c 0x110) := by
  unfold State.busOffRecovery
  rw [State.canRecover_off h]
  split
  · refine ⟨fun a => State.wrN_byte .., (sameRegs.refl s _).wrN (by simp), ?_⟩
    rw [State.rdN_wrN, if_pos rfl, Nat.zero_mod]
  · exact ⟨.refl _, .refl _ _, rfl⟩

theorem State.canSlotSample_shown (h : 0 < s.fld (slotKey k 4) 21 16) (hn : (s.slotAt k).sampled ≠ some (s.sampleNo (56 + k))) :
    sameRegs s (s.canSlotSample k) [] ∧ sameBytes s (s.canSlotSample k) ∧
    ((s.canSlotSample k).slotAt k).sampled = some (s.sampleNo (56 + k)) ∧
    (s.canSlotSample k).chain.inq = s.chain.inq ++ [s.slotSample k] := by
  rw [State.canSlotSample_eq h hn]
  refine ⟨((sameRegs.refl s _).same (State.setSlot_regs ..)).same (State.toChain_regs _), fun a => ?_, ?_, ?_⟩
  · rw [State.toChain_byte, State.setSlot_byte]
  · rw [State.toChain_slotAt, State.setSlot_slotAt]
  · rw [State.toChain_inq, State.setSlot_chain]

end

section
variable {s : State} {h : Fin 2} {c : Fin 4} {f : CanFrame} (hi : s.issues h (pgCan c) = true)
include hi

/-- A CAN controller's command runs on the state in which it was accepted. -/
theorem State.canCmd_eq {code : Nat} {role : Bool} (g : State → State) :
    s.hostCmd h (pgCan c) code role (some g) = (g (s.issued h (pgCan c) code)).bump (rk (pgPort h) 0x48) :=
  State.hostCmd_issued hi (pgCan_ne_pgSys c.isLt) (pgCan_ne_pgPort _ (by omega)) (pageKind_pgCan c)

theorem State.cmdSend_shown : ∃ t, exec (.cmdSend h c f) s = .next t ∧ t.busy (pgCan c) = false ∧ sameBytes s t ∧
    sameRegs s t (slotKeys h (pgCan c)) ∧
    (8 ≤ (s.canAt c).tx.length → t.result (pgCan c) = resBusy ∧ t.can = s.can) ∧
    ((s.canAt c).tx.length < 8 → f.rtr = true → t.result (pgCan c) = resRefused ∧ t.can = s.can) ∧
    ((s.canAt c).tx.length < 8 → f.rtr = false → t.result (pgCan c) = resDone ∧ (t.canAt c).tx = (s.canAt c).tx ++ [f]) := by
  have hb : (s.issued h (pgCan c) 1).busy (pgCan c) = true := State.issued_busy h.isLt (by decide)
  have hcan : (s.issued h (pgCan c) 1).canAt c = s.canAt c := by
    unfold State.canAt
    rw [State.issued_can]
  refine ⟨_, congrArg Host.Outcome.next (State.canCmd_eq hi _), ?_⟩
  refine ⟨?_, fun a => ?_, ?_, fun hfull => ?_, fun hlt hr => ?_, fun hlt hr => ?_⟩
  · obtain ⟨r, hr, u, e, hu⟩ := State.canSend_eq (s := s.issued h (pgCan c) 1) (c := c) (f := f)
    rw [e]
    refine (State.cmdDone_shown ?_ hr).1
    obtain rfl | ⟨v, rfl⟩ := hu
    · exact hb
    · rwa [State.setCan_busy]
  · obtain ⟨r, -, u, e, hu⟩ := State.canSend_eq (s := s.issued h (pgCan c) 1) (c := c) (f := f)
    rw [e, State.bump_byte, State.cmdDone_byte]
    obtain rfl | ⟨v, rfl⟩ := hu
    · exact State.issued_byte a
    · rw [State.setCan_byte, State.issued_byte]
  · obtain ⟨r, -, u, e, hu⟩ := State.canSend_eq (s := s.issued h (pgCan c) 1) (c := c) (f := f)
    rw [e]
    refine (sameRegs.cmdDone ?_ (by simp [slotKeys])).counted (List.Subset.refl _)
    obtain rfl | ⟨v, rfl⟩ := hu
    · exact State.issued_sameRegs
    · exact State.issued_sameRegs.same (State.setCan_regs ..)
  · rw [State.canSend_full (by rwa [hcan])]
    exact ⟨(State.cmdDone_shown hb (by decide)).2, by rw [State.bump_can, State.cmdDone_can, State.issued_can]⟩
  · rw [State.canSend_remote (by rwa [hcan]) hr]
    exact ⟨(State.cmdDone_shown hb (by decide)).2, by rw [State.bump_can, State.cmdDone_can, State.issued_can]⟩
  · rw [State.canSend_queued (by rwa [hcan]) hr]
    exact ⟨(State.cmdDone_shown (by rwa [State.setCan_busy]) (by decide)).2,
      by rw [State.bump_canAt, State.cmdDone_canAt, State.setCan_canAt, hcan]⟩

theorem State.cmdRecover_shown : ∃ t, exec (.cmdRecover h c) s = .next t ∧ t.busy (pgCan c) = false ∧ t.result (pgCan c) = resDone ∧
    t.fld (canKey c 0x110) 17 16 ≠ 2 ∧ sameBytes s t ∧ sameRegs s t (canKey c 0x110 :: slotKeys h (pgCan c)) := by
  have hb : ((s.issued h (pgCan c) 2).canRecover c).busy (pgCan c) = true :=
    State.canRecover_busy (State.issued_busy h.isLt (by decide))
  obtain ⟨hbusy, hres⟩ := State.cmdDone_shown (h := h) (r := resDone) hb (by decide)
  refine ⟨_, congrArg Host.Outcome.next (State.canCmd_eq hi _), hbusy, hres, ?_, fun a => ?_, ?_⟩
  · have hport {a b : Nat} (ha : a < 0x1000) (hb : b < 0x1000) : rk (pgCan c) a ≠ rk (pgPort h) b :=
      rk_ne_of_page (pgCan_ne_pgPort _ h.isLt) ha hb
    unfold canKey
    rw [State.fld_congr (State.rd_bump_ne _ _ (hport (by decide) (by decide)) (by rw [rk_add]; exact hport (by decide) (by decide))),
      State.fld_congr (State.rd_cmdDone_ne _ (by simp))]
    exact State.canRecover_active
  · rw [State.bump_byte, State.cmdDone_byte, State.canRecover_byte, State.issued_byte]
  · exact ((((State.issued_sameRegs.mono (List.subset_cons_self ..)).canRecover List.mem_cons_self).cmdDone (by simp [slotKeys])).counted
      (List.subset_cons_self ..))

end
end Sys2Proof.Machine

open Sys2Proof Sys2Proof.Machine in
/-- Settles O8: a frame is counted and then waits, is lost, or goes to the lowest-numbered matching filter's place; what a delivery does leaves
the error state and the count; a slot takes only what names it, and each command completes on the state in which it was accepted. -/
theorem canControllerWorks : Obligations.CanControllerWorks := by
  unfold Obligations.CanControllerWorks
  constructor
  · intro s c f k j first names raw num now counted shown rx hrun hen hst
    have hon : s.canOn c = true := by simp [State.canOn, hrun, hen]
    have hbus : s.canBusOff c = false := by simpa [State.canBusOff] using hst
    refine ⟨fun hfd => ⟨_, rfl, State.canFrameRx_shown c.isLt hon hbus hfd, fun hm hlen => ?_, fun hm hlen => ?_, fun hm hq => ?_⟩,
      fun hmode hf => ?_, _, rfl, State.busOff_shown hon hbus⟩
    · have w := State.canFrameRx_waits c.isLt hon hbus hfd hm hlen
      exact ⟨w.inq, w.count, w.regs, w.bytes, w.slots⟩
    · have e := State.canErrRx_counted (s := s) (c := c)
      rw [State.canFrameRx_full c.isLt hon hbus hfd hm hlen]
      exact ⟨(State.bump_can ..).trans e.can, e.regs.rd64_bump (by simp) (by simp [canKey_add]),
        (e.regs.mono (by simp)).bump (by simp) (by simp [canKey_add]), fun a => (State.bump_byte ..).trans (e.bytes a),
        (State.bump_slots ..).trans e.slots⟩
    · obtain ⟨t, w, e⟩ := State.canFrameRx_served c.isLt hon hbus hfd hm hq
      have keeps {o : Nat} (ho : o = 0x110 ∨ o = 0x40 ∨ o = 0x44) := State.canDeliver_keeps (s := t) (f := f) (st := s.stampNow) c.isLt ho
      have hfirst (h : first) : t.canMatches c k f = true ∧ ∀ i ∈ List.range k, t.canMatches c i f = false :=
        ⟨w.matches.trans h.1, fun i hi => w.matches.trans (h.2 i hi)⟩
      rw [e]
      refine ⟨(State.rd64_congr (keeps (by simp)).1 (by rw [canKey_add]; exact (keeps (by simp)).1)).trans w.count,
        (keeps (Or.inl rfl)).2.trans w.inq, fun hnone => ?_, fun h ha => ?_, fun h ha => ?_⟩
      · rw [State.canDeliver_none (fun i hi => w.matches.trans (hnone i hi))]
        exact ⟨w.regs.rd64_bump (by simp [rxKeys]) (by simp [rxKeys, canKey_add]),
          (w.regs.mono (List.subset_append_left ..)).bump (by simp) (by simp [canKey_add]),
          fun a => (State.bump_byte ..).trans (w.bytes a), (State.bump_slots ..).trans w.slots⟩
      · rw [State.canDeliver_reject k.isLt (hfirst h).1 (hfirst h).2 (w.action.trans ha)]
        exact ⟨w.regs, w.bytes, w.slots⟩
      · rw [State.canDeliver_slots k.isLt (hfirst h).1 (hfirst h).2 (w.action.trans ha)]
        refine ⟨w.regs.same State.canToSlots_regs, fun a => (State.canToSlots_byte a).trans (w.bytes a), ?_⟩
        rw [State.canToSlots_slotAt j.isLt, w.slotTaken j.isLt]
        rfl
    · obtain ⟨g, hg, hle, hsent, htx, hshown, hcount, hregs, hbytes⟩ := State.canFrameTx_sends hon hbus hmode hf
      exact ⟨_, rfl, by rw [hsent, List.length_append, List.length_singleton], hshown, ⟨g, hg, hsent, htx, hle⟩, hcount, hregs, hbytes⟩
  · intro s h c f k stamp pg n at_
    refine ⟨fun hw hn => ?_, fun hn => congrArg Host.Outcome.next (State.canSlotSample_done hn), fun hst => ?_,
      fun hi => ⟨State.cmdSend_shown hi, State.cmdRecover_shown hi⟩⟩
    · obtain ⟨hregs, hbytes, hsampled, hinq⟩ := State.canSlotSample_shown hw hn
      refine ⟨_, rfl, hregs, hbytes, hsampled, fun hstamp => hinq.trans ?_⟩
      unfold State.slotSample
      rw [hstamp]
      rfl
    · obtain ⟨hbytes, hregs, hrd⟩ := State.busOffRecovery_shown (s := s) (c := c) (by simpa [State.canBusOff] using hst)
      exact ⟨_, rfl, hbytes, hregs, hrd⟩
end
-- ==== Sys2Proof/Proofs/ControlKeys.lean ====
section
/-! What entering and leaving RUNNING keep: the control and state words of a block's page, and a port's count of writes. -/

namespace Sys2Proof.Machine

/-- BLK_CTRL and BLK_STATUS of a page, and the two ports' counts of writes. -/
def ctlKeys (p : Nat) : List Nat := [rk p 0x0C, rk p 0x10] ++ wide (rk (pgPort 0) 0x48) ++ wide (rk (pgPort 1) 0x48)

/-- An offset that is no control word's and no count's. -/
def plainOff (o : Nat) : Bool := decide (o < 0x1000) && o != 0x0C && o != 0x10 && o != 0x48 && o != 0x4C

/-- The state's control words of page `p` are those that `s` has. -/
def Kept (p : Nat) (s t : State) : Prop := ∀ j ∈ ctlKeys p, t.rd j = s.rd j

section
-- The rules' default arguments are elaborated in order: with them asynchronous, each rule would hold a blocked thread.
set_option Elab.async false
variable {s t : State} {p k : Nat}

theorem notMem_ctlKeys : k ∉ ctlKeys p ↔ k ≠ rk p 0x0C ∧ k ≠ rk p 0x10 ∧ k ≠ rk (pgPort 0) 0x48 ∧ k ≠ rk (pgPort 0) 0x4C ∧
    k ≠ rk (pgPort 1) 0x48 ∧ k ≠ rk (pgPort 1) 0x4C := by
  simp [ctlKeys]

theorem rk_notMem_ctlKeys {q o : Nat} (h : plainOff o = true) : rk q o ∉ ctlKeys p := by
  simp only [plainOff, Bool.and_eq_true, decide_eq_true_eq, bne_iff_ne] at h
  obtain ⟨⟨⟨⟨h1, h2⟩, h3⟩, h4⟩, h5⟩ := h
  rw [notMem_ctlKeys]
  unfold rk
  omega

/-- On the pages above the ports' no offset from 0x14 on is a control word's. -/
theorem rk_notMem_ctlKeys_of_page {q o : Nat} (hq : 0xA ≤ q) (h1 : 0x14 ≤ o) (h2 : o < 0x1000) : rk q o ∉ ctlKeys p := by
  rw [notMem_ctlKeys]
  unfold rk pgPort
  omega

/-- On a block's own page, and on the pages after it, no key from 0x14 on is its control word, however far it lies. -/
theorem rk_notMem_ctlKeys_own {q o : Nat} (hq : 0xA ≤ q) (hp : p ≤ q) (h1 : 0x14 ≤ o) : rk q o ∉ ctlKeys p := by
  rw [notMem_ctlKeys]
  unfold rk pgPort
  omega

/-! ### The state's operations -/

theorem Kept.refl (p : Nat) (s : State) : Kept p s s := fun _ _ => rfl
theorem Kept.same {u : State} (h : Kept p s t) (e : u.regs = t.regs) : Kept p s u := fun j hj => (State.rd_eq e j).trans (h j hj)
theorem Kept.ite {u : State} {c : Prop} [Decidable c] (h : Kept p s t) (h' : Kept p s u) : Kept p s (if c then t else u) := by
  split
  · exact h
  · exact h'
theorem Kept.iteFst {β : Type} {c : Prop} [Decidable c] {a b : State × β} (h : Kept p s a.1) (h' : Kept p s b.1) :
    Kept p s (if c then a else b).1 := by
  split
  · exact h
  · exact h'
theorem Kept.foldl {ι : Type} {f : State → ι → State} {l : List ι} (hf : ∀ t, ∀ x ∈ l, Kept p s t → Kept p s (f t x)) (h : Kept p s t) :
    Kept p s (l.foldl f t) := by
  induction l generalizing t with
  | nil => exact h
  | cons x l ih => exact ih (fun t y hy => hf t y (List.mem_cons_of_mem _ hy)) (hf t x List.mem_cons_self h)
theorem Kept.foldlFst {ι β : Type} {f : State × β → ι → State × β} {l : List ι} {a : State × β}
    (hf : ∀ a x, Kept p s a.1 → Kept p s (f a x).1) (h : Kept p s a.1) : Kept p s (l.foldl f a).1 := by
  induction l generalizing a with
  | nil => exact h
  | cons x l ih => exact ih (hf a x h)

theorem Kept.of_eq {β : Type} {r : State × β} {u : State} {x : β} (h : Kept p s r.1) (e : r = (u, x)) : Kept p s u := by
  rw [e] at h
  exact h

theorem Kept.wr {v : Word} (h : Kept p s t) (hk : k ∉ ctlKeys p := by exact rk_notMem_ctlKeys (by decide)) : Kept p s (t.wr k v) := by
  intro j hj
  rw [State.rd_wr, if_neg (ne_of_mem_of_not_mem hj hk), h j hj]
theorem Kept.wrN {v : Nat} (h : Kept p s t) (hk : k ∉ ctlKeys p := by exact rk_notMem_ctlKeys (by decide)) : Kept p s (t.wrN k v) := h.wr hk
theorem Kept.setFld {hi lo v : Nat} (h : Kept p s t) (hk : k ∉ ctlKeys p := by exact rk_notMem_ctlKeys (by decide)) :
    Kept p s (t.setFld k hi lo v) := h.wrN hk
theorem Kept.setBit {b : Nat} {v : Bool} (h : Kept p s t) (hk : k ∉ ctlKeys p := by exact rk_notMem_ctlKeys (by decide)) :
    Kept p s (t.setBit k b v) := h.setFld hk
theorem Kept.peak {hi lo v : Nat} (h : Kept p s t) (hk : k ∉ ctlKeys p := by exact rk_notMem_ctlKeys (by decide)) :
    Kept p s (t.peak k hi lo v) := .ite (h.setFld hk) h
theorem Kept.sat {n : Nat} (h : Kept p s t) (hk : k ∉ ctlKeys p := by exact rk_notMem_ctlKeys (by decide)) : Kept p s (t.sat k n) := h.wrN hk
theorem Kept.wr64 {v : Nat} (h : Kept p s t) (hk : k ∉ ctlKeys p := by exact rk_notMem_ctlKeys (by decide))
    (hk' : k + 4 ∉ ctlKeys p := by rw [rk_add]; exact rk_notMem_ctlKeys (by decide)) : Kept p s (t.wr64 k v) := (h.wrN hk).wrN hk'
theorem Kept.bump {n : Nat} (h : Kept p s t) (hk : k ∉ ctlKeys p := by exact rk_notMem_ctlKeys (by decide))
    (hk' : k + 4 ∉ ctlKeys p := by rw [rk_add]; exact rk_notMem_ctlKeys (by decide)) : Kept p s (t.bump k n) := h.wr64 hk hk'

/-- A counter of a page above the ports' counts. -/
theorem Kept.bumpAt {q o n : Nat} (h : Kept p s t) (hq : 0xA ≤ q) (h1 : 0x14 ≤ o) (h2 : o + 4 < 0x1000) : Kept p s (t.bump (rk q o) n) :=
  h.bump (rk_notMem_ctlKeys_of_page hq h1 (by omega)) (by rw [rk_add]; exact rk_notMem_ctlKeys_of_page hq (by omega) h2)

theorem Kept.event {q b : Nat} (h : Kept p s t) : Kept p s (t.event q b) := fun j hj =>
  (State.rd_event_ne _ (ne_of_mem_of_not_mem hj (rk_notMem_ctlKeys (by decide)))).trans (h j hj)
theorem Kept.cmdDone {q r e : Nat} (h : Kept p s t) : Kept p s (t.cmdDone q r e) := fun j hj =>
  (State.rd_cmdDone_ne _ (ne_of_mem_of_not_mem hj (rk_notMem_ctlKeys (by decide)))).trans (h j hj)
theorem Kept.fault {q b n : Nat} (h : Kept p s t) : Kept p s (t.fault q b n) := fun j hj =>
  (State.rd_fault_ne _ (ne_of_mem_of_not_mem hj (rk_notMem_ctlKeys (by decide)))).trans (h j hj)

/-! ### Parts that hold no registers -/

theorem Kept.withTt {x : Timetable} (h : Kept p s t) : Kept p s { t with tt := x } := h.same rfl
theorem Kept.withGrid {x : Grid} (h : Kept p s t) : Kept p s { t with grid := x } := h.same rfl
theorem Kept.withTrk {x : Tracker} (h : Kept p s t) : Kept p s { t with trk := x } := h.same rfl
theorem Kept.withTime {x : Time} (h : Kept p s t) : Kept p s { t with time := x } := h.same rfl
theorem Kept.withBell {x : BellUnit} (h : Kept p s t) : Kept p s { t with bell := x } := h.same rfl
theorem Kept.withSafe {x : Safe} (h : Kept p s t) : Kept p s { t with safe := x } := h.same rfl
theorem Kept.withStream {x : Stream} (h : Kept p s t) : Kept p s { t with stream := x } := h.same rfl
theorem Kept.withChain {x : Chain} (h : Kept p s t) : Kept p s { t with chain := x } := h.same rfl
theorem Kept.withEgo {x : Ego} (h : Kept p s t) : Kept p s { t with ego := x } := h.same rfl
theorem Kept.withPwr {x : Power} (h : Kept p s t) : Kept p s { t with pwr := x } := h.same rfl
theorem Kept.withMemc {x : MemCtl} (h : Kept p s t) : Kept p s { t with memc := x } := h.same rfl

/-! ### Memory -/

theorem Kept.setBytes {a : Nat} {bs : List Byte} (h : Kept p s t) : Kept p s (t.setBytes a bs) := h.same (State.setBytes_regs ..)

theorem Kept.eccLast {k g flags : Nat} (h : Kept p s t) (hk : plainOff k = true := by decide) (hk' : plainOff (k + 4) = true := by decide) :
    Kept p s (t.eccLast k g flags) := (h.wrN (rk_notMem_ctlKeys hk)).wrN (rk_notMem_ctlKeys hk')

theorem Kept.setBad {g : Nat} {u : Upset} (h : Kept p s t) : Kept p s (t.setBad g u) := h.withMemc

theorem Kept.clearBad {a n : Nat} (h : Kept p s t) : Kept p s (t.clearBad a n) := h.withMemc
theorem Kept.clearCommonsBad {a n : Nat} (h : Kept p s t) : Kept p s (t.clearCommonsBad a n) := h.withMemc

theorem Kept.checkGranule {g : Nat} {patrol : Bool} (h : Kept p s t) : Kept p s (t.checkGranule g patrol).1 := by
  unfold State.checkGranule
  split
  · exact h
  · exact h.setBad.eccLast.bump.fault
  · exact h.eccLast.bump.fault
  · exact h.eccLast.bump.bump.fault

theorem Kept.checkGranules {gs : List Nat} (h : Kept p s t) : Kept p s (t.checkGranules gs).1 := .foldlFst (fun _ _ h => h.checkGranule) h

theorem Kept.setCommonsBad {w : Nat} {u : Upset} (h : Kept p s t) : Kept p s (t.setCommonsBad w u) := h.withMemc
theorem Kept.toSafe {src q b i : Nat} (h : Kept p s t) : Kept p s (t.toSafe src q b i) := h.same (State.toSafe_regs ..)

theorem Kept.checkCommonsWord {w : Nat} {u : Upset} (h : Kept p s t) : Kept p s (t.checkCommonsWord w u).1 :=
  .iteFst h.setCommonsBad.bump.toSafe h.wrN.fault

theorem Kept.checkCommons {a n : Nat} (h : Kept p s t) : Kept p s (t.checkCommons a n).1 := .foldlFst (fun _ _ h => h.checkCommonsWord) h
theorem Kept.checkPartial {a n : Nat} (h : Kept p s t) : Kept p s (t.checkPartial a n).1 := .foldlFst (fun _ _ h => h.checkCommonsWord) h
theorem Kept.secDeny {m a : Nat} {write : Bool} (h : Kept p s t) : Kept p s (t.secDeny m a write) := h.bump.wrN.wrN.event
theorem Kept.reservedAccess {m a : Nat} (h : Kept p s t) : Kept p s (t.reservedAccess m a) := h.bump.wrN.wrN
theorem Kept.chargeTo {n : Nat} {q : Option Nat} (h : Kept p s t) : Kept p s (t.chargeTo n q) := h.withSafe
theorem Kept.injectOn {a n : Nat} (h : Kept p s t) : Kept p s (t.injectOn a n) := .ite h.setBad.setBit h

theorem Kept.memCount {o n : Nat} (h : Kept p s t) (h1 : 0x14 ≤ o := by decide) (h2 : o + 4 < 0x1000 := by decide) :
    Kept p s (t.bump (rk pgMem o) n) := h.bumpAt (by decide) h1 h2

theorem Kept.commonsCount {m n : Nat} {write : Bool} (h : Kept p s t) : Kept p s (t.bump (rk pgCommons (commonsCtr m write)) n) := by
  refine h.bumpAt (by decide) ?_ ?_ <;>
  · unfold commonsCtr
    split <;> split <;> decide

theorem Kept.loadFor {q : Option Nat} {m a n : Nat} (h : Kept p s t) : Kept p s (t.loadFor q m a n).1 :=
  .iteFst (.iteFst h.memCount.checkGranules h.memCount.checkGranules.chargeTo) (.iteFst (.iteFst h.secDeny
    (.iteFst h.commonsCount.checkCommons h.commonsCount.checkCommons.chargeTo)) (.iteFst h h.reservedAccess))
theorem Kept.load {m a n : Nat} (h : Kept p s t) : Kept p s (t.load m a n).1 := h.loadFor

theorem Kept.store {m a : Nat} {bs : List Byte} (h : Kept p s t) : Kept p s (t.store m a bs).1 :=
  .iteFst (.iteFst h.memCount.memCount.checkGranules.clearBad.setBytes.injectOn h.memCount.memCount.checkGranules.chargeTo) (.iteFst
    (.iteFst h.secDeny (.iteFst h.commonsCount.checkPartial.clearCommonsBad.setBytes h.commonsCount.checkPartial.chargeTo))
    (.iteFst h.setBytes h.reservedAccess))
theorem Kept.put {m a : Nat} {bs : List Byte} (h : Kept p s t) : Kept p s (t.put m a bs) := h.store

theorem Kept.ringPut {base size off : Nat} {bs : List Byte} (h : Kept p s t) : Kept p s (t.ringPut base size off bs).1 :=
  .iteFst h (.ite h.put h.put.put)

/-! ### FRONT-END and what other pages show of it -/

theorem Kept.setFend {g : Nat} {v : FendHub} (h : Kept p s t) : Kept p s (t.setFend g v) := h.same (State.setFend_regs ..)
theorem Kept.setT0 {g : Nat} {v : Option Nat} (h : Kept p s t) : Kept p s (t.setT0 g v) := h.same (State.setT0_regs ..)
theorem Kept.setLoop {key : Nat} {v : LoopBuf} (h : Kept p s t) : Kept p s (t.setLoop key v) := h.same (State.setLoop_regs ..)
theorem Kept.warmShow (h : Kept p s t) : Kept p s t.warmShow := .ite h h.setBit.event

theorem fk_notMem_ctlKeys {g i o : Nat} (hi : i < 8) (ho : o < 0x80) : fk g i o ∉ ctlKeys p :=
  rk_notMem_ctlKeys_of_page (by unfold pgFend; omega) (by omega) (by omega)

theorem Kept.sensStop {g i : Nat} (h : Kept p s t) (hi : i < 8) : Kept p s (t.sensStop g i) :=
  (h.setFld (fk_notMem_ctlKeys hi (by decide))).setT0.setFend.warmShow

theorem Kept.fendStart {g : Nat} (h : Kept p s t) : Kept p s (t.fendStart g) := h.setFend

theorem Kept.fendStop {g : Nat} (h : Kept p s t) : Kept p s (t.fendStop g) :=
  .foldl (fun _ _ hi h => h.sensStop (List.mem_range.1 hi)) h

theorem Kept.fendDropLoop {g key ev : Nat} (h : Kept p s t) : Kept p s (t.fendDropLoop g key ev) :=
  .ite h.setLoop.event h.setLoop

theorem Kept.fendDismiss {g : Nat} (h : Kept p s t) : Kept p s (t.fendDismiss g) :=
  .foldl (fun _ _ hi h => h.fendDropLoop.setBit (fk_notMem_ctlKeys (List.mem_range.1 hi) (by decide))) h.fendStop.fendDropLoop

/-! ### Sensor ports -/

theorem Kept.setSpi {i : Nat} {v : SpiPort} (h : Kept p s t) : Kept p s (t.setSpi i v) := h.same (State.setSpi_regs ..)
theorem Kept.setWheel {i : Nat} {v : WheelIn} (h : Kept p s t) : Kept p s (t.setWheel i v) := h.same (State.setWheel_regs ..)
theorem Kept.setCan {i : Nat} {v : CanCtl} (h : Kept p s t) : Kept p s (t.setCan i v) := h.same (State.setCan_regs ..)
theorem Kept.setCsi {i : Nat} {v : CsiPort} (h : Kept p s t) : Kept p s (t.setCsi i v) := h.same (State.setCsi_regs ..)
theorem Kept.setEth {i : Nat} {v : EthPort} (h : Kept p s t) : Kept p s (t.setEth i v) := h.same (State.setEth_regs ..)
theorem Kept.spiDrop {i : Nat} (h : Kept p s t) : Kept p s (t.spiDrop i) := h.withChain

theorem imuKey_notMem_ctlKeys {i o : Nat} (hi : i < 8) (ho : o < 0x40) : imuKey i o ∉ ctlKeys p :=
  rk_notMem_ctlKeys_of_page (by decide) (by omega) (by omega)

theorem Kept.imuStart (h : Kept p s t) : Kept p s t.imuStart := .foldl (fun _ _ _ h => h.setSpi) h

theorem Kept.imuMissed {i n : Nat} (h : Kept p s t) (hi : i < 8) : Kept p s (t.imuMissed i n) := h.wrN (imuKey_notMem_ctlKeys hi (by decide))

theorem Kept.imuStop (h : Kept p s t) : Kept p s t.imuStop := by
  refine .foldl (fun u i hi h => ?_) h
  have hi := List.mem_range.1 hi
  exact ((h.imuMissed hi).spiDrop.setFld (imuKey_notMem_ctlKeys hi (by decide))).setSpi

theorem wheelKey_notMem_ctlKeys {i o : Nat} (hi : i < 8) (ho : o < 0x20) : wheelKey i o ∉ ctlKeys p :=
  rk_notMem_ctlKeys_of_page (by decide) (by omega) (by omega)

theorem Kept.wheelReject {i n : Nat} (h : Kept p s t) (hi : i < 8) : Kept p s (t.wheelReject i n) :=
  h.wrN (wheelKey_notMem_ctlKeys hi (by decide))

theorem Kept.wheelStart (h : Kept p s t) : Kept p s t.wheelStart := .foldl (fun _ _ _ h => h.setWheel) h
theorem Kept.wheelStop (h : Kept p s t) : Kept p s t.wheelStop :=
  .foldl (fun _ _ hi h => (h.wheelReject (List.mem_range.1 hi)).setWheel) h

theorem Kept.canCount {c o n : Nat} (h : Kept p s t) (h1 : 0x14 ≤ o := by decide) (h2 : o + 4 < 0x1000 := by decide) :
    Kept p s (t.bump (canKey c o) n) := h.bumpAt (by unfold pgCan; omega) h1 h2

theorem Kept.canToRing {c : Nat} {f : CanFrame} {st : Stamp} (h : Kept p s t) : Kept p s (t.canToRing c f st) := by
  unfold State.canToRing
  extract_lets size
  split
  · exact h.canCount
  · split
    next u off e => exact (h.ringPut.of_eq e).setCan

theorem Kept.canDeliver {c : Nat} {f : CanFrame} {st : Stamp} (h : Kept p s t) : Kept p s (t.canDeliver c f st) := by
  unfold State.canDeliver
  split
  · exact h.canCount
  · split
    · exact h.canToRing
    · exact h.same State.canToSlots_regs
    · exact h.canToRing.same State.canToSlots_regs
    · exact h

theorem Kept.canServe {c : Nat} (h : Kept p s t) : Kept p s (t.canServe c) :=
  .ite (.foldl (fun _ _ _ h => h.canDeliver) h.setCan) h

theorem Kept.canStop {c : Nat} (h : Kept p s t) : Kept p s (t.canStop c) := h.canCount.setCan

theorem Kept.csiStart {i : Nat} (h : Kept p s t) : Kept p s (t.csiStart i) := h.setCsi.setFld

theorem Kept.csiStop {i : Nat} (h : Kept p s t) : Kept p s (t.csiStop i) :=
  (h.bumpAt (by unfold pgCsi; omega) (by decide) (by decide)).setFld.setFld.setCsi

theorem Kept.ethStart {i : Nat} (h : Kept p s t) : Kept p s (t.ethStart i) := h.setEth

theorem Kept.ethStop {i : Nat} (h : Kept p s t) : Kept p s (t.ethStop i) :=
  (h.bumpAt (by unfold pgEth; omega) (by decide) (by decide)).setEth

theorem trigKey_notMem_ctlKeys {i o : Nat} (hi : i < 16) (ho : o < 0x20) : trigKey i o ∉ ctlKeys p :=
  rk_notMem_ctlKeys_of_page (by decide) (by omega) (by omega)

theorem Kept.trigStart (h : Kept p s t) : Kept p s t.trigStart := by
  refine .foldl (fun u i hi h => ?_) h
  exact Kept.setBit h.withTime (trigKey_notMem_ctlKeys (List.mem_range.1 (List.mem_of_mem_filter hi)) (by decide))

theorem Kept.trigStop (h : Kept p s t) : Kept p s t.trigStop :=
  .foldl (fun _ _ hi h => h.setBit (trigKey_notMem_ctlKeys (List.mem_range.1 hi) (by decide))) h

/-! ### The inertial chain and EGO -/

theorem chanKey_notMem_ctlKeys {c o : Nat} (hc : c < 64) (ho : o < 0x20) : chanKey c o ∉ ctlKeys p :=
  rk_notMem_ctlKeys_of_page (by decide) (by omega) (by omega)

theorem chainMask_notMem_ctlKeys {c o : Nat} (hc : c < 64) (h1 : 0x14 ≤ o) (h2 : o < 0x200) : rk pgChain (o + c / 32 * 4) ∉ ctlKeys p :=
  rk_notMem_ctlKeys_of_page (by decide) (by omega) (by omega)

theorem Kept.setStale {c : Nat} {v : Bool} (h : Kept p s t) (hc : c < 64) : Kept p s (t.setStale c v) :=
  .ite h ((h.setBit (chainMask_notMem_ctlKeys hc (by decide) (by decide))).setBit (chanKey_notMem_ctlKeys hc (by decide))).event

theorem Kept.setSettling {c : Nat} {v : Bool} (h : Kept p s t) (hc : c < 64) : Kept p s (t.setSettling c v) :=
  (h.setBit (chainMask_notMem_ctlKeys hc (by decide) (by decide))).setBit (chanKey_notMem_ctlKeys hc (by decide))

theorem Kept.setChan {c : Nat} {v : Channel} (h : Kept p s t) : Kept p s (t.setChan c v) := h.withChain
theorem Kept.chainAbandon (h : Kept p s t) : Kept p s t.chainAbandon := h.withChain

theorem Kept.chainStart (h : Kept p s t) : Kept p s t.chainStart := by
  refine .foldl (fun u c hc h => ?_) h.chainAbandon.withChain
  exact .ite (Kept.setStale h.setChan (List.mem_range.1 (List.mem_of_mem_filter hc))) h.setChan

theorem Kept.chainDismiss (h : Kept p s t) : Kept p s t.chainDismiss := by
  refine .foldl (fun u c hc h => ?_) h.chainAbandon.withChain.withChain
  have hc := List.mem_range.1 (List.mem_of_mem_filter hc)
  exact (h.setStale hc).setSettling hc

theorem Kept.coefRead {a n : Nat} (h : Kept p s t) : Kept p s (t.coefRead a n).1 := .iteFst h.load h

theorem Kept.coefRefuse {slot e : Nat} (h : Kept p s t) : Kept p s (t.coefRefuse slot e) := h.wrN.bump.event.cmdDone

theorem Kept.coefDone {slot a : Nat} (h : Kept p s t) : Kept p s (t.coefDone slot a) := by
  unfold State.coefDone
  extract_lets _ u
  have hu : Kept p s u := h.withChain
  split
  next v b ev =>
    have hv := hu.coefRead.of_eq ev
    extract_lets n
    split
    next w b' ew =>
      have hw : Kept p s w := Kept.of_eq (.iteFst hv hv.coefRead) ew
      split
      · exact hw.coefRefuse
      · extract_lets _ x
        have hx : Kept p s x := hw.withChain
        exact hx.bump.event.cmdDone

theorem Kept.coefServe (h : Kept p s t) : Kept p s t.coefServe := by
  unfold State.coefServe
  split
  · exact h
  · exact .ite h h.coefDone

theorem Kept.egoRestart {entering : Bool} (h : Kept p s t) : Kept p s (t.egoRestart entering) := by
  unfold State.egoRestart
  extract_lets u v w
  have hu : Kept p s u := h.bump.event
  have hv : Kept p s v := .ite hu.setBit.event.warmShow hu
  have hw : Kept p s w := hv.setBit.wr
  exact hw.withEgo

theorem Kept.egoBegin (h : Kept p s t) : Kept p s t.egoBegin := h.egoRestart.wrN.withEgo
theorem Kept.egoDismiss (h : Kept p s t) : Kept p s t.egoDismiss := h.setBit

end
end Sys2Proof.Machine
end
-- ==== Sys2Proof/Proofs/ControlHooks.lean ====
section
/-! What leaving and entering RUNNING keep, for the engines, model slots, GRID, TRACKER, TIME, the fabric and STREAM. -/

namespace Sys2Proof.Machine
section
-- The rules' default arguments are elaborated in order: with them asynchronous, each rule would hold a blocked thread.
set_option Elab.async false
variable {s t : State} {p : Nat}

/-! ### Engines -/

theorem Kept.setEngBit {e b : Nat} {v : Bool} (h : Kept p s t) : Kept p s (t.setEngBit e b v) := h.setBit
theorem Kept.engShow {e : Nat} (h : Kept p s t) : Kept p s (t.engShow e) := h.setEngBit.setEngBit.setEngBit.wrN
theorem Kept.setEng {e : Nat} {v : Engine} (h : Kept p s t) : Kept p s (t.setEng e v) := h.same (State.setEng_regs ..)
theorem Kept.pushComp {c : Completion} (h : Kept p s t) : Kept p s (t.pushComp c) := h.withTt
theorem Kept.engDrop {e : Nat} (h : Kept p s t) : Kept p s (t.engDrop e) := .ite h.setEng.engShow.bump h.setEng.engShow
theorem Kept.engSolo {e : Nat} (h : Kept p s t) : Kept p s (t.engSolo e) := .foldl (fun _ _ _ h => h.pushComp) h.engDrop
theorem Kept.engAbandon {e : Nat} (h : Kept p s t) : Kept p s (t.engAbandon e) :=
  .ite (.foldl (fun _ _ _ h => h.pushComp) h.engDrop.engDrop) h.engSolo
theorem Kept.pairBreak {e : Nat} (h : Kept p s t) : Kept p s (t.pairBreak e) :=
  .ite h.setEngBit.setEngBit.setEngBit.setEngBit h.setEngBit.setEngBit
theorem Kept.engStart {e : Nat} (h : Kept p s t) : Kept p s (t.engStart e) := .ite (.ite h.setEngBit h.setEngBit.setEngBit) h
theorem Kept.engDismiss {e : Nat} (h : Kept p s t) : Kept p s (t.engDismiss e) := h.engAbandon.setEngBit.setEngBit

/-! ### Model slots -/

/-- The eight slots' registers lie on TT's page, and those of any other number after it. -/
theorem slotReg_notMem_ctlKeys {m o : Nat} (hm : m < 8 ∨ p ≤ pgTT) (ho : o < 0x40) : slotReg m o ∉ ctlKeys p := by
  rcases hm with hm | hp
  · exact rk_notMem_ctlKeys_of_page (by decide) (by omega) (by omega)
  · exact rk_notMem_ctlKeys_own (by decide) hp (by omega)

theorem Kept.setSlotOf {m : Nat} {v : Slot} (h : Kept p s t) : Kept p s (t.setSlotOf m v) := h.withTt
theorem Kept.sbShow (h : Kept p s t) : Kept p s t.sbShow := h.setFld.peak
theorem Kept.noTarget (h : Kept p s t) : Kept p s t.noTarget := h.setBit

theorem Kept.setMst {m v : Nat} (h : Kept p s t) (hm : m < 8 ∨ p ≤ pgTT) : Kept p s (t.setMst m v) :=
  h.setFld (slotReg_notMem_ctlKeys hm (by decide))

theorem Kept.slotShow {m : Nat} (h : Kept p s t) (hm : m < 8 ∨ p ≤ pgTT) : Kept p s (t.slotShow m) :=
  (h.setBit (slotReg_notMem_ctlKeys hm (by decide))).setBit (slotReg_notMem_ctlKeys hm (by decide))

theorem Kept.disarm {m : Nat} (h : Kept p s t) : Kept p s (t.disarm m) :=
  .foldl (fun _ _ hi h => .ite (h.setSlotOf.slotShow (Or.inl (List.mem_range.1 hi))) h) h

theorem Kept.invAbandon {m : Nat} (h : Kept p s t) (hm : m < 8 ∨ p ≤ pgTT) : Kept p s (t.invAbandon m) := by
  unfold State.invAbandon
  extract_lets _ u v
  have hu : Kept p s u := h.setSlotOf.bump
  have hv : Kept p s v := (hu.sat (slotReg_notMem_ctlKeys hm (by decide))).event
  exact .ite h hv.withTt.sbShow

theorem Kept.modelDegraded {m : Nat} (h : Kept p s t) (hm : m < 8 ∨ p ≤ pgTT) : Kept p s (t.modelDegraded m) := by
  have hd := (h.invAbandon hm).disarm (m := m)
  unfold State.modelDegraded
  extract_lets _ _ u
  have hu : Kept p s u := .ite (hd.sat (slotReg_notMem_ctlKeys hm (by decide))) hd
  exact ((hu.setSlotOf.setMst hm).slotShow hm).noTarget.event

theorem Kept.withdraw {f : SbEntry → Nat × Bool → Bool} (h : Kept p s t) : Kept p s (t.withdraw f) := h.withTt

theorem Kept.lostTargets (h : Kept p s t) : Kept p s t.lostTargets :=
  .ite h (.foldl (fun _ _ hi h => .ite (h.modelDegraded (Or.inl (List.mem_range.1 hi))) h) h)

theorem Kept.engHalted {e : Nat} (h : Kept p s t) : Kept p s (t.engHalted e) := by
  unfold State.engHalted
  extract_lets _ _ u
  have hu : Kept p s u := .foldl (fun _ _ _ h => h.setEng) h
  exact hu.withdraw.lostTargets.engShow

theorem Kept.ttDismiss (h : Kept p s t) (hp : p ≤ pgTT) : Kept p s t.ttDismiss := by
  unfold State.ttDismiss
  extract_lets u gens v
  have hu : Kept p s u := .foldl (fun _ _ _ h => (h.invAbandon (Or.inr hp)).setSlotOf.slotShow (Or.inr hp)) h
  have hv : Kept p s v := by
    unfold v
    split
    · exact hu.setMst (Or.inr hp)
    · exact hu
  exact .sbShow hv.withTt

/-! ### GRID and alignment -/

theorem srcKey_notMem_ctlKeys {i o : Nat} (hi : i < 16 ∨ p ≤ pgGrid) (ho : o < 0x80) : srcKey i o ∉ ctlKeys p := by
  rcases hi with hi | hp
  · exact rk_notMem_ctlKeys_of_page (by decide) (by omega) (by omega)
  · exact rk_notMem_ctlKeys_own (by decide) hp (by omega)

theorem Kept.gridShow (h : Kept p s t) : Kept p s t.gridShow := h.wrN.setFld.peak

theorem Kept.unitShow {u : Nat} (h : Kept p s t) : Kept p s (t.unitShow u) := by
  refine .gridShow (.foldl (fun v i hi h => ?_) h)
  have hk {o : Nat} (ho : o < 0x80) : srcKey i o ∉ ctlKeys p := srcKey_notMem_ctlKeys (Or.inl (mem_followers.1 hi).1) ho
  exact (((h.setBit (hk (by decide))).setFld (hk (by decide))).setFld (hk (by decide))).wrN (hk (by decide))

theorem Kept.unalign {u : Nat} (h : Kept p s t) : Kept p s (t.unalign u) := by
  unfold State.unalign
  extract_lets v was a b c
  have hb : Kept p s b := h.withGrid.withGrid
  have hc : Kept p s c := .ite hb.event hb
  exact hc.unitShow

theorem Kept.alignStart {u : Nat} (h : Kept p s t) : Kept p s (t.alignStart u) := Kept.unalign h.withGrid

theorem Kept.gridStart (h : Kept p s t) : Kept p s t.gridStart := by
  unfold State.gridStart
  extract_lets u _ _ v w
  have hu : Kept p s u := .foldl (fun _ _ _ h => .foldl (fun _ _ _ h => h.same rfl) h) h
  have hv : Kept p s v := hu.withGrid
  have hw : Kept p s w :=
    .foldl (fun _ _ hi h => h.setBit (srcKey_notMem_ctlKeys (Or.inl (List.mem_range.1 (List.mem_of_mem_filter hi))) (by decide))) hv
  exact .warmShow (.gridShow (.foldl (fun _ _ _ h => h.alignStart) hw))

theorem Kept.gridDismiss (h : Kept p s t) (hp : p ≤ pgGrid) : Kept p s t.gridDismiss := by
  have hk (i : Nat) {o : Nat} (ho : o < 0x80) : srcKey i o ∉ ctlKeys p := srcKey_notMem_ctlKeys (Or.inr hp) ho
  unfold State.gridDismiss
  extract_lets u v _
  have hu : Kept p s u := .foldl (fun _ l _ h => h.bump.sat (hk l.source (by decide))) h
  have hv : Kept p s v := by
    unfold v
    split
    · exact hu.setBit (hk _ (by decide))
    · exact hu
  exact .gridShow hv.withGrid

/-! ### TRACKER -/

theorem Kept.trkShow (h : Kept p s t) : Kept p s t.trkShow := h.setFld.setFld.setFld.wrN
theorem Kept.enrol (h : Kept p s t) : Kept p s t.enrol := Kept.warmShow h.setBit.wrN.event.withTrk
theorem Kept.trkStart (h : Kept p s t) : Kept p s t.trkStart := .trkShow (.enrol h.withTrk)
theorem Kept.trkTested {passed : Bool} (h : Kept p s t) : Kept p s (t.trkTested passed) := by
  unfold State.trkTested
  exact .trkShow (.enrol (.ite h.wr64 h))
theorem Kept.trkDismiss (h : Kept p s t) : Kept p s t.trkDismiss := by
  unfold State.trkDismiss
  extract_lets u
  have hu : Kept p s u := h.bump
  exact .trkShow hu.withTrk

theorem Kept.trkDelete {a : State × Cycle} {j : Nat} (h : Kept p s a.1) : Kept p s (State.trkDelete a j).1 := by
  unfold State.trkDelete
  split
  · exact h.withTrk.bump
  · exact h

theorem Kept.trkApply {a : State × Cycle} (h : Kept p s a.1) : Kept p s (State.trkApply a).1 := by
  unfold State.trkApply
  extract_lets _ _ u _ _ _
  have hu : Kept p s u := h.withTrk
  split
  · exact h
  · split
    · exact hu.enrol.cmdDone
    · split
      · exact .cmdDone (.foldlFst (fun _ _ h => h.trkDelete) hu)
      · split
        · exact hu.bump.sat.setFld.cmdDone
        · exact hu.sat.setFld.cmdDone
        · exact .iteFst (Kept.cmdDone (Kept.trkDelete (a := (u, a.2)) hu)) (.iteFst hu.setFld.cmdDone hu.withTrk.cmdDone)

theorem Kept.trkApplyNow (h : Kept p s t) : Kept p s t.trkApplyNow := by
  have ha : Kept p s (State.trkApply (t, { tk := t.now })).1 := .trkApply h
  unfold State.trkApplyNow
  split
  next u c e => exact .trkShow (ha.of_eq e).withTrk

/-! ### TIME -/

theorem Kept.fusJudge (h : Kept p s t) : Kept p s t.fusJudge := by
  unfold State.fusJudge
  extract_lets _ u
  have hu : Kept p s u := .ite h h.withTime.event
  exact .ite h (.ite h.withTime (.ite h.withTime (.ite hu.withTime hu)))

theorem Kept.setNet {b : Nat} {v : NetBase} (h : Kept p s t) : Kept p s (t.setNet b v) := h.same (State.setNet_regs ..)
theorem Kept.netFree {b : Nat} (h : Kept p s t) : Kept p s (t.netFree b) := h.setNet
theorem Kept.timeStart (h : Kept p s t) : Kept p s t.timeStart := .fusJudge (.netFree (.netFree (.foldl (fun _ _ _ h => h.setNet) h)))

theorem Kept.discardSends {i : Nat} (h : Kept p s t) : Kept p s (t.discardSends i) := by
  unfold State.discardSends
  extract_lets _ u v
  have hu : Kept p s u := .foldl (fun _ _ _ h => h.put) h
  have hv : Kept p s v := .ite hu hu.setFld
  exact hv.setEth.setFld

theorem Kept.trigDisarm {i : Nat} (h : Kept p s t) (hi : i < 16) : Kept p s (t.trigDisarm i) :=
  (h.setBit (rk_notMem_ctlKeys_of_page (by decide) (by omega) (by omega))).setBit
    (rk_notMem_ctlKeys_of_page (by decide) (by omega) (by omega))

theorem Kept.timeDismiss (h : Kept p s t) : Kept p s t.timeDismiss := by
  unfold State.timeDismiss
  extract_lets u v w x _
  have hu : Kept p s u := .foldl (fun _ _ _ h => h.discardSends) h
  have hv : Kept p s v := .foldl (fun _ _ hi h => h.trigDisarm (List.mem_range.1 hi)) hu
  have hw : Kept p s w := .foldl (fun _ _ _ h => h.setNet) hv
  have hx : Kept p s x := .foldl (fun _ _ _ h => h.setEth) hw
  exact .fusJudge hx.withTime

/-! ### The fabric -/

/-- The cores' and routers' registers lie beyond the pages. -/
theorem beyond_notMem_ctlKeys {k : Nat} (hp : p < 64) (hk : 0x1000000 ≤ k) : k ∉ ctlKeys p := by
  rw [notMem_ctlKeys]
  unfold rk pgPort
  omega

theorem coreKey_notMem_ctlKeys {c o : Nat} (hp : p < 64) : coreKey c o ∉ ctlKeys p := beyond_notMem_ctlKeys hp (by unfold coreKey; omega)
theorem rtrKey_notMem_ctlKeys {r o : Nat} (hp : p < 64) : rtrKey r o ∉ ctlKeys p := beyond_notMem_ctlKeys hp (by unfold rtrKey; omega)

theorem Kept.sendLoop {key : Nat} {v : LoopVal} (h : Kept p s t) : Kept p s (t.sendLoop key v) := h.setLoop

theorem Kept.sendShed {lvl : Nat} {ruled : Bool} (h : Kept p s t) : Kept p s (t.sendShed lvl ruled) := by
  unfold State.sendShed
  extract_lets old v u
  have hu : Kept p s u := h.sendLoop.sendLoop.setFld
  exact .ite h (.ite hu (.ite hu.event (.ite hu.event hu)))

theorem Kept.deferLevel {c : Nat} (h : Kept p s t) (hp : p < 64) : Kept p s (t.deferLevel c) :=
  ((h.setFld (coreKey_notMem_ctlKeys hp)).peak (coreKey_notMem_ctlKeys hp)).setBit (coreKey_notMem_ctlKeys hp)

theorem Kept.setLast {c first : Nat} (h : Kept p s t) : Kept p s (t.setLast c first) := .foldl (fun _ _ _ h => h.setBytes) h

theorem Kept.fabStart (h : Kept p s t) (hp : p < 64) : Kept p s t.fabStart := by
  unfold State.fabStart
  extract_lets _ _ u v w x
  have hu : Kept p s u := h.same rfl
  have hv : Kept p s v := .foldl (fun _ _ _ h => h.setFend) hu
  have hw : Kept p s w := .foldl (fun _ _ _ h => h.deferLevel hp) hv
  have hx : Kept p s x := .foldl (fun _ _ _ h => h.setLast) hw
  exact hx.setFld.sendShed

theorem Kept.fabCheck (h : Kept p s t) (hp : p < 64) : Kept p s t.fabCheck.1 := by
  unfold State.fabCheck
  extract_lets _ _ u _ _ v
  have hu : Kept p s u := .foldl (fun _ _ _ h => h.setBit (coreKey_notMem_ctlKeys hp)) h
  have hv : Kept p s v := .ite hu.event hu
  exact .ite hv.event hv

theorem Kept.ringBell {forced : Bool} (h : Kept p s t) : Kept p s (t.ringBell forced) := by
  unfold State.ringBell
  extract_lets u
  have hu : Kept p s u := h.bump.wrN
  exact hu.withBell

theorem Kept.siteHeaders (h : Kept p s t) : Kept p s t.siteHeaders := by
  refine .foldl (fun u k _ h => ?_) h
  extract_lets n v
  have hv : Kept p s v := .ite h.withTt h
  exact .ite hv.put.withTt h

/-- The eight counts of a step's output. -/
theorem outKey_notMem_ctlKeys {k : Nat} (hk : k < 8) : rk pgFab (0x240 + 4 * k) ∉ ctlKeys p :=
  rk_notMem_ctlKeys_of_page (by decide) (by omega) (by omega)

theorem Kept.bellAccounting (h : Kept p s t) : Kept p s t.bellAccounting := by
  unfold State.bellAccounting
  extract_lets _ _ _ _ u _ _ _ v _ _ _ w _ x
  have hu : Kept p s u := .ite h (h.bumpAt (by decide) (by decide) (by decide))
  have hv : Kept p s v := .foldl (fun _ _ hi h => h.wrN (outKey_notMem_ctlKeys (List.mem_range.1 hi))) hu.wrN.wrN.peak.peak
  have hw : Kept p s w := .foldl (fun _ _ _ h => h.setFend) hv.siteHeaders
  have hx : Kept p s x := hw.withBell
  exact .ite h hx.sendShed

theorem Kept.coreDismiss {c : Nat} (h : Kept p s t) (hp : p < 64) : Kept p s (t.coreDismiss c) := by
  have h1 : Kept p s ((t.sat (coreKey c 0x3C) (t.coreAt c).cursors.length).setCore c { idleSince := (t.coreAt c).idleSince }) :=
    Kept.same (h.sat (coreKey_notMem_ctlKeys hp)) (State.setCore_regs ..)
  exact (h1.setFld (coreKey_notMem_ctlKeys hp)).setBit (coreKey_notMem_ctlKeys hp)

theorem Kept.moorLevel {r : Nat} (h : Kept p s t) (hp : p < 64) : Kept p s (t.moorLevel r) :=
  ((h.setFld (rtrKey_notMem_ctlKeys hp)).peak (rtrKey_notMem_ctlKeys hp)).setBit (rtrKey_notMem_ctlKeys hp)

theorem Kept.edgeLevel {e : Nat} (h : Kept p s t) (hp : p ≤ pgFab) : Kept p s (t.edgeLevel e) := by
  have hk : rk pgFab (0x400 + 4 * e) ∉ ctlKeys p := rk_notMem_ctlKeys_own (by decide) hp (by omega)
  exact (h.setFld hk).peak hk

theorem Kept.fabEmpty (h : Kept p s t) (hp : p ≤ pgFab) : Kept p s t.fabEmpty := by
  have hp' : p < 64 := Nat.lt_of_le_of_lt hp (by decide)
  unfold State.fabEmpty
  extract_lets _ _ _ u _ _ _ v w
  have hu : Kept p s u := h.sat.bump.bump
  have hv : Kept p s v := hu.same rfl
  have hw : Kept p s w := .foldl (fun _ _ _ h => (h.moorLevel hp').setBit (rtrKey_notMem_ctlKeys hp')) hv
  exact .foldl (fun _ _ _ h => h.edgeLevel hp) hw

theorem Kept.fabDismiss (h : Kept p s t) (hp : p ≤ pgFab) : Kept p s t.fabDismiss := by
  have hp' : p < 64 := Nat.lt_of_le_of_lt hp (by decide)
  unfold State.fabDismiss
  extract_lets u v w
  have hu : Kept p s u := .ite h.ringBell h
  have hw : Kept p s w := .foldl (fun _ _ _ h => h.coreDismiss hp') hu.bellAccounting
  exact (hw.fabEmpty hp).sendShed.setFld

theorem Kept.stepIncrement {n : Nat} (h : Kept p s t) : Kept p s (t.stepIncrement n).1 := by
  unfold State.stepIncrement
  split
  · split
    · exact h.bump
    · split
      · exact .iteFst h h
      · exact h
  · exact h.bump

theorem Kept.window {w : Nat} {d : List Byte} (h : Kept p s t) : Kept p s (t.window w d) := h.same (State.window_regs ..)
theorem Kept.offer {o : Offer} (h : Kept p s t) : Kept p s (t.offer o) := h.same (State.offer_regs ..)

theorem Kept.tickRecord (h : Kept p s t) : Kept p s t.tickRecord := by
  unfold State.tickRecord
  split
  · exact h
  next ts _ =>
    refine .ite h ?_
    split
    next u inc e =>
      have hu : Kept p s u := (Kept.stepIncrement h.withBell).of_eq e
      exact hu.window.offer.withSafe.withSafe

theorem Kept.tickRecords (h : Kept p s t) : Kept p s t.tickRecords := .foldl (fun _ _ _ h => h.tickRecord) h

/-! ### STREAM -/

/-- A ring's sequence number, level and drops are no control words, whatever the ring's number. -/
theorem ringKey_notMem_ctlKeys {g r o : Nat} (h1 : 0x14 ≤ o) (h2 : o < 0x48) : ringKey g r o ∉ ctlKeys p := by
  rw [notMem_ctlKeys]
  unfold ringKey rk pgPort
  omega

theorem ringKey_add {g r o d : Nat} : ringKey g r o + d = ringKey g r (o + d) := by
  unfold ringKey rk
  omega

theorem Kept.setStage {g r : Nat} {v : Ring} (h : Kept p s t) : Kept p s (t.setStage g r v) :=
  Kept.wrN (h.same (State.setPort_regs ..)) (ringKey_notMem_ctlKeys (by decide) (by decide))

theorem Kept.ringDrop {g r n : Nat} (h : Kept p s t) : Kept p s (t.ringDrop g r n) :=
  .ite h (h.sat (ringKey_notMem_ctlKeys (by decide) (by decide))).event

theorem Kept.produceOn {o : Offer} {g : Nat} (h : Kept p s t) : Kept p s (t.produceOn o g) := by
  unfold State.produceOn
  extract_lets seq u v bs
  have hu : Kept p s u := h.wr64 (ringKey_notMem_ctlKeys (by decide) (by decide))
    (by rw [ringKey_add]; exact ringKey_notMem_ctlKeys (by decide) (by decide))
  exact .ite h (.ite hu.ringDrop hu.setStage)

theorem Kept.produce {o : Offer} (h : Kept p s t) (hp : p ≤ pgStream) : Kept p s (t.produce o) := by
  refine .foldl (fun _ _ _ h => h.produceOn) (h.bump (rk_notMem_ctlKeys_own (by decide) hp (by omega)) ?_)
  rw [rk_add]
  exact rk_notMem_ctlKeys_own (by decide) hp (by omega)

theorem Kept.produceAll (h : Kept p s t) (hp : p ≤ pgStream) : Kept p s t.produceAll := .foldl (fun _ _ _ h => h.produce hp) h.withStream

theorem Kept.dropStaged {g : Nat} (h : Kept p s t) : Kept p s (t.dropStaged g) :=
  .foldl (fun _ _ _ h => .ite h h.setStage.ringDrop) h

theorem Kept.streamStart (h : Kept p s t) : Kept p s t.streamStart := h.withStream
theorem Kept.streamStop (h : Kept p s t) (hp : p ≤ pgStream) : Kept p s t.streamStop := (h.produceAll hp).withStream

theorem Kept.streamDismiss (h : Kept p s t) (hp : p ≤ pgStream) : Kept p s t.streamDismiss := by
  unfold State.streamDismiss
  extract_lets u _ v
  have hu : Kept p s u := h.produceAll hp
  have hv : Kept p s v := by
    unfold v
    split
    · exact hu
    · exact Kept.produce hu.withStream hp
  exact hv.dropStaged.dropStaged

end
end Sys2Proof.Machine
end
-- ==== Sys2Proof/Proofs/ControlBytes.lean ====
section
/-! What a halt, the end of a test and the judgement of an enable leave of device memory: every byte. -/

namespace Sys2Proof.Machine
section
variable {s t : State}

theorem sameBytes.wr {k : Nat} {v : Word} (h : sameBytes s t) : sameBytes s (t.wr k v) := fun a => (State.wr_byte ..).trans (h a)
theorem sameBytes.wrN {k v : Nat} (h : sameBytes s t) : sameBytes s (t.wrN k v) := h.wr
theorem sameBytes.setFld {k hi lo v : Nat} (h : sameBytes s t) : sameBytes s (t.setFld k hi lo v) := h.wrN
theorem sameBytes.setBit {k b : Nat} {v : Bool} (h : sameBytes s t) : sameBytes s (t.setBit k b v) := h.setFld
theorem sameBytes.peak {k hi lo v : Nat} (h : sameBytes s t) : sameBytes s (t.peak k hi lo v) := by
  unfold State.peak
  split
  · exact h.setFld
  · exact h
theorem sameBytes.sat {k n : Nat} (h : sameBytes s t) : sameBytes s (t.sat k n) := h.wrN
theorem sameBytes.wr64 {k v : Nat} (h : sameBytes s t) : sameBytes s (t.wr64 k v) := h.wrN.wrN
theorem sameBytes.bump {k n : Nat} (h : sameBytes s t) : sameBytes s (t.bump k n) := h.wr64
theorem sameBytes.event {p b : Nat} (h : sameBytes s t) : sameBytes s (t.event p b) := fun a => (State.event_byte ..).trans (h a)
theorem sameBytes.setBlk {p st : Nat} (h : sameBytes s t) : sameBytes s (t.setBlk p st) := fun a => (State.setBlk_byte ..).trans (h a)
theorem sameBytes.setEng {e : Nat} {v : Engine} (h : sameBytes s t) : sameBytes s (t.setEng e v) := fun a => (State.setEng_byte ..).trans (h a)
theorem sameBytes.withTt {x : Timetable} (h : sameBytes s t) : sameBytes s { t with tt := x } := h
theorem sameBytes.withTrk {x : Tracker} (h : sameBytes s t) : sameBytes s { t with trk := x } := h
theorem sameBytes.withSafe {x : Safe} (h : sameBytes s t) : sameBytes s { t with safe := x } := h
theorem sameBytes.ite {u : State} {c : Prop} [Decidable c] (h : sameBytes s t) (h' : sameBytes s u) : sameBytes s (if c then t else u) := by
  split
  · exact h
  · exact h'
theorem sameBytes.foldl {ι : Type} {f : State → ι → State} {l : List ι} (hf : ∀ t x, sameBytes s t → sameBytes s (f t x)) (h : sameBytes s t) :
    sameBytes s (l.foldl f t) := by
  induction l generalizing t with
  | nil => exact h
  | cons x l ih => exact ih (hf t x h)

/-! ### A halted engine -/

theorem sameBytes.slotShow {m : Nat} (h : sameBytes s t) : sameBytes s (t.slotShow m) := h.setBit.setBit
theorem sameBytes.setSlotOf {m : Nat} {v : Slot} (h : sameBytes s t) : sameBytes s (t.setSlotOf m v) := h.withTt
theorem sameBytes.disarm {m : Nat} (h : sameBytes s t) : sameBytes s (t.disarm m) := .foldl (fun _ _ h => .ite h.setSlotOf.slotShow h) h

theorem sameBytes.invAbandon {m : Nat} (h : sameBytes s t) : sameBytes s (t.invAbandon m) := by
  unfold State.invAbandon
  extract_lets _ u v
  have hu : sameBytes s u := h.setSlotOf.bump
  have hv : sameBytes s v := hu.sat.event
  exact .ite h hv.withTt.setFld.peak

theorem sameBytes.modelDegraded {m : Nat} (h : sameBytes s t) : sameBytes s (t.modelDegraded m) := by
  have hd : sameBytes s ((t.invAbandon m).disarm m) := h.invAbandon.disarm
  unfold State.modelDegraded
  extract_lets _ _ u
  have hu : sameBytes s u := .ite hd.sat hd
  exact hu.setSlotOf.setFld.slotShow.setBit.event

theorem sameBytes.lostTargets (h : sameBytes s t) : sameBytes s t.lostTargets := .ite h (.foldl (fun _ _ h => .ite h.modelDegraded h) h)

theorem sameBytes.engHalted {e : Nat} (h : sameBytes s t) : sameBytes s (t.engHalted e) := by
  unfold State.engHalted
  extract_lets _ _ u
  have hu : sameBytes s u := .foldl (fun _ _ h => h.setEng) h
  exact (sameBytes.lostTargets hu.withTt).setBit.setBit.setBit.wrN

/-! ### A tested TRACKER, and the judgement of the fabric -/

theorem sameBytes.warmShow (h : sameBytes s t) : sameBytes s t.warmShow := .ite h h.setBit.event
theorem sameBytes.enrol (h : sameBytes s t) : sameBytes s t.enrol := sameBytes.warmShow h.setBit.wrN.event.withTrk
theorem sameBytes.trkShow (h : sameBytes s t) : sameBytes s t.trkShow := h.setFld.setFld.setFld.wrN
theorem sameBytes.trkTested {passed : Bool} (h : sameBytes s t) : sameBytes s (t.trkTested passed) := by
  unfold State.trkTested
  exact .trkShow (.enrol (.ite h.wr64 h))

theorem sameBytes.fabCheck (h : sameBytes s t) : sameBytes s t.fabCheck.1 := by
  unfold State.fabCheck
  extract_lets _ _ u _ _ v
  have hu : sameBytes s u := .foldl (fun _ _ h => h.setBit) h
  have hv : sameBytes s v := .ite hu.event hu
  exact .ite hv.event hv

theorem sameBytes.iteFst {β : Type} {c : Prop} [Decidable c] {a b : State × β} (h : sameBytes s a.1) (h' : sameBytes s b.1) :
    sameBytes s (if c then a else b).1 := by
  split
  · exact h
  · exact h'

/-- Judging whether a block may run marks a refusal and no more. -/
theorem Kept.enableJudge {p : Nat} (h : Kept p s t) (hp : p < 64) : Kept p s (t.enableJudge p).1 := by
  unfold State.enableJudge
  extract_lets
  split
  -- FAB checks its own tables, a page without a rule is let run, and every other refusal is one event.
  case h_12 => exact h.fabCheck hp
  case h_13 => exact h
  all_goals exact .iteFst h.event h

theorem sameBytes.enableJudge {p : Nat} (h : sameBytes s t) : sameBytes s (t.enableJudge p).1 := by
  unfold State.enableJudge
  extract_lets
  split
  -- FAB checks its own tables, a page without a rule is let run, and every other refusal is one event.
  case h_12 => exact h.fabCheck
  case h_13 => exact h
  all_goals exact .iteFst h.event h

end
end Sys2Proof.Machine
end
-- ==== Sys2Proof/Proofs/ControlRules.lean ====
section
/-! What entering and leaving RUNNING keep of a block's own control words, over all chapters, and the counts of writes. -/

namespace Sys2Proof.Machine
section
-- The rules' default arguments are elaborated in order: with them asynchronous, each rule would hold a blocked thread.
set_option Elab.async false
variable {s t : State} {p : Nat}

/-! ### What the chapters' rules keep -/

theorem page_le_of_pageKind {q : Nat} {k : PageKind} (hk : pageKind p = some k) (hp : p < 64)
    (h : ∀ p : Fin 64, pageKind p = some k → p.val ≤ q) : p ≤ q := h ⟨p, hp⟩ hk

theorem Kept.startHook (h : Kept p s t) (hp : p < 64) : Kept p s (t.startHook p) := by
  unfold State.startHook
  extract_lets
  split
  · exact h.csiStart.alignStart
  · exact h.ethStart.alignStart
  · exact h.imuStart
  · exact h.wheelStart
  · exact h.trigStart
  · exact h.fendStart
  · exact (h.fabStart hp).withSafe
  · exact h.engStart
  · exact h.engStart
  · exact h.engStart
  · exact h.gridStart
  · exact h.trkStart
  · exact h.chainStart
  · exact h.egoBegin
  · exact h.timeStart
  · exact h.streamStart
  · exact .coefServe (.foldl (fun _ _ _ h => h.canServe) h)
  · exact h.coefServe
  · exact h

theorem Kept.dismissHook (h : Kept p s t) (hp : p < 64) : Kept p s (t.dismissHook p) := by
  unfold State.dismissHook
  extract_lets
  split
  · exact h.csiStop
  · exact h.ethStop
  · exact h.imuStop
  · exact h.wheelStop
  · exact h.canStop
  · exact h.trigStop
  · exact h.fendDismiss
  · next hk => exact (h.fabDismiss (page_le_of_pageKind hk hp (by decide))).tickRecords
  · exact h.engDismiss
  · exact h.engDismiss
  · exact h.engDismiss
  · next hk => exact h.ttDismiss (page_le_of_pageKind hk hp (by decide))
  · next hk => exact h.gridDismiss (page_le_of_pageKind hk hp (by decide))
  · exact h.trkDismiss
  · exact h.chainDismiss
  · exact h.egoDismiss
  · exact h.timeDismiss
  · exact h.dropStaged
  · exact h.streamDismiss (Nat.le_of_lt_succ hp)
  · exact h.setFld.withPwr
  · exact h

theorem Kept.stopHook (h : Kept p s t) (hp : p < 64) : Kept p s (t.stopHook p) := by
  unfold State.stopHook
  extract_lets _ u _
  split
  · exact h.fendStop
  · exact h
  · exact h.engAbandon.pairBreak
  · exact h.engAbandon.pairBreak
  · exact h.engAbandon.pairBreak
  · next hk => exact (Kept.ttDismiss h.withTt (page_le_of_pageKind hk hp (by decide))).withTt
  · exact h.trkApplyNow
  · exact h.chainAbandon
  · exact h
  · exact h.streamStop (Nat.le_of_lt_succ hp)
  · exact (h.dismissHook hp).cmdDone
  · exact (h.dismissHook hp).cmdDone
  · exact (h.dismissHook hp).cmdDone
  · exact h.dismissHook hp

/-! ### What a block's own words show -/

theorem ctrl_mem_ctlKeys : rk p 0x0C ∈ ctlKeys p := by simp [ctlKeys]
theorem status_mem_ctlKeys : rk p 0x10 ∈ ctlKeys p := by simp [ctlKeys]

theorem Kept.blk (h : Kept p s t) (hp : p ≠ pgSys) : t.blk p = s.blk p := State.blk_congr hp (h _ status_mem_ctlKeys)
theorem Kept.ctrlBit (h : Kept p s t) (b : Nat) : t.bit (rk p 0x0C) b = s.bit (rk p 0x0C) b := State.bit_congr (h _ ctrl_mem_ctlKeys) b
theorem Kept.enabled (h : Kept p s t) : t.enabled p = s.enabled p := h.ctrlBit 0
theorem Kept.halted (h : Kept p s t) : t.halted p = s.halted p := h.ctrlBit 1
theorem Kept.statusFld (h : Kept p s t) (hi lo : Nat) : t.fld (rk p 0x10) hi lo = s.fld (rk p 0x10) hi lo :=
  State.fld_congr (h _ status_mem_ctlKeys) hi lo

/-- The ports' counts of writes are what they were. -/
def CountsKept (s t : State) : Prop := ∀ j ∈ wide (rk (pgPort 0) 0x48) ++ wide (rk (pgPort 1) 0x48), t.rd j = s.rd j

theorem CountsKept.refl (s : State) : CountsKept s s := fun _ _ => rfl
theorem CountsKept.same {u : State} (h : CountsKept s t) (e : u.regs = t.regs) : CountsKept s u := fun j hj => (State.rd_eq e j).trans (h j hj)

theorem CountsKept.kept {u : State} (h : CountsKept s t) (h' : Kept p t u) : CountsKept s u :=
  fun j hj => (h' j (by rw [ctlKeys, List.append_assoc]; exact List.mem_append_right _ hj)).trans (h j hj)

theorem ne_count_of_off {j o : Nat} (ho : o < 0x48) (hj : j ∈ wide (rk (pgPort 0) 0x48) ++ wide (rk (pgPort 1) 0x48)) : j ≠ rk p o := by
  simp only [wide_rk, List.mem_append, List.mem_cons, List.not_mem_nil, or_false] at hj
  unfold rk pgPort at *
  omega

theorem CountsKept.setBit {o b : Nat} {v : Bool} (h : CountsKept s t) (ho : o < 0x48 := by decide) : CountsKept s (t.setBit (rk p o) b v) :=
  fun j hj => (State.rd_setBit_ne _ _ _ (ne_count_of_off ho hj)).trans (h j hj)
theorem CountsKept.setBlk {st : Nat} (h : CountsKept s t) : CountsKept s (t.setBlk p st) :=
  fun j hj => (State.rd_setBlk_ne _ (ne_count_of_off (by decide) hj) (ne_count_of_off (by decide) hj)).trans (h j hj)

theorem CountsKept.count (hc : CountsKept s t) (h : Fin 2) : t.rd64 (rk (pgPort h) 0x48) = s.rd64 (rk (pgPort h) 0x48) := by
  have hmem (h : Fin 2) : rk (pgPort h) 0x48 ∈ wide (rk (pgPort 0) 0x48) ++ wide (rk (pgPort 1) 0x48) ∧
      rk (pgPort h) 0x48 + 4 ∈ wide (rk (pgPort 0) 0x48) ++ wide (rk (pgPort 1) 0x48) := by
    revert h
    decide
  exact State.rd64_congr (hc _ (hmem h).1) (hc _ (hmem h).2)

end
end Sys2Proof.Machine
end
-- ==== Sys2Proof/Proofs/EnableJudgement.lean ====
section
/-! Whether a block may run does not depend on its own BLK_CTRL (R475). -/

namespace Sys2Proof.Machine
section
variable {s t : State} {p : Nat}

/-- Two states that differ in BLK_CTRL of page `p` and in what no judgement reads. -/
structure JudgedAlike (p : Nat) (s t : State) : Prop where
  rd : ∀ j, j ≠ rk p 0x0C → t.rd j = s.rd j
  chain : t.chain = s.chain
  mem : t.mem = s.mem
  byte : ∀ a, t.byte a = s.byte a

namespace JudgedAlike
variable (h : JudgedAlike p s t)
include h

theorem rdN {j : Nat} (hj : j ≠ rk p 0x0C) : t.rdN j = s.rdN j := State.rdN_congr (h.rd j hj)
theorem fld {j hi lo : Nat} (hj : j ≠ rk p 0x0C) : t.fld j hi lo = s.fld j hi lo := State.fld_congr (h.rd j hj) hi lo
theorem bit {j b : Nat} (hj : j ≠ rk p 0x0C) : t.bit j b = s.bit j b := State.bit_congr (h.rd j hj) b
theorem rd64 {j : Nat} (hj : j ≠ rk p 0x0C) (hj' : j + 4 ≠ rk p 0x0C) : t.rd64 j = s.rd64 j := State.rd64_congr (h.rd j hj) (h.rd _ hj')

theorem csiRefused {i : Nat} : t.csiRefused i = s.csiRefused i :=
  State.csiRefused_congr (fun o h1 h2 => h.rd _ (by unfold rk; omega))

theorem ethRefused {i : Nat} : t.ethRefused i = s.ethRefused i := by
  have hcount : t.ppCount i = s.ppCount i := h.fld (by unfold rk; omega)
  have hstride : t.ppStride i = s.ppStride i := h.fld (by unfold rk; omega)
  have hloc : [0, 1, 2, 3, 4, 5, 6, 7, 9].any (fun j => (t.ppLoc i j).en && decide (s.ppStride i < (t.ppLoc i j).boff + (t.ppLoc i j).size)) =
      [0, 1, 2, 3, 4, 5, 6, 7, 9].any (fun j => (s.ppLoc i j).en && decide (s.ppStride i < (s.ppLoc i j).boff + (s.ppLoc i j).size)) := by
    have hl (j : Nat) (hj : j < 10) : t.ppLoc i j = s.ppLoc i j := congrArg PLoc.ofReg (h.rdN (by unfold rk; omega))
    simp only [List.any_cons, List.any_nil, hl _ (by decide : 0 < 10), hl _ (by decide : 1 < 10), hl _ (by decide : 2 < 10), hl _ (by decide : 3 < 10),
      hl _ (by decide : 4 < 10), hl _ (by decide : 5 < 10), hl _ (by decide : 6 < 10), hl _ (by decide : 7 < 10), hl _ (by decide : 9 < 10)]
  unfold State.ethRefused
  rw [hcount, hstride, hloc]

theorem engRefused {i : Nat} : t.engRefused i = s.engRefused i := by
  have hf (e : Nat) : t.fld (rk (pgEng e) 0x100) 4 0 = s.fld (rk (pgEng e) 0x100) 4 0 := h.fld (by unfold rk; omega)
  have harr (e : Nat) : t.engArr e = s.engArr e := h.fld (by unfold rk; omega)
  have hm : t.margin = s.margin := h.fld (by unfold rk; omega)
  unfold State.engRefused
  simp only [hf, harr, hm]

end JudgedAlike

theorem State.gridRefused_congr (h : JudgedAlike pgGrid s t) : t.gridRefused = s.gridRefused := by
  have hk (k : Nat) (o : Nat) : srcKey k o ≠ rk pgGrid 0x0C := by unfold srcKey rk; omega
  have htrig (m o : Nat) : trigKey m o ≠ rk pgGrid 0x0C := by unfold trigKey rk pgTrig pgGrid; omega
  have hen (k : Nat) : t.srcEn k = s.srcEn k := h.bit (hk _ _)
  have hmode (k : Nat) : t.srcMode k = s.srcMode k := h.fld (hk _ _)
  have hunit (k : Nat) : t.srcUnit k = s.srcUnit k := by
    unfold State.srcUnit
    rw [h.fld (hk _ _), h.bit (hk _ _)]
  have hper (m : Nat) : t.trigPeriod m = s.trigPeriod m := by
    unfold State.trigPeriod
    rw [h.rdN (htrig _ _)]
  unfold State.gridRefused
  simp only [hen, hmode, hunit, hper, h.rdN (hk _ _), h.fld (hk _ _), h.bit (htrig _ _), h.rd64 (j := rk pgGrid 0x120) (by decide) (by decide),
    h.rd64 (j := rk pgGrid 0x128) (by decide) (by decide)]

theorem State.trkRefused_congr (h : JudgedAlike pgTrk s t) : t.trkRefused = s.trkRefused := by
  have hcls (c : Nat) : t.clsModel c = s.clsModel c := h.fld (by unfold clsKey rk; omega)
  unfold State.trkRefused
  simp only [hcls, h.fld (j := rk pgTrk 0x104) (by decide), h.rdN (j := rk pgTrk 0x108) (by decide), h.fld (j := rk pgTrk 0x124) (by decide),
    h.rd64 (j := rk pgTrk 0x184) (by decide) (by decide), h.fld (j := rk pgTrk 0x11C) (by decide), h.fld (j := rk pgTrk 0x180) (by decide),
    h.bit (j := rk pgTrk 0x100) (by decide)]

/-- A channel's registers lie at multiples of 32 on CHAIN's page and after it. -/
theorem chanKey_ne_ctrl {c o q : Nat} (ho : o < 0x20) (ho' : o ≠ 0x0C) : chanKey c o ≠ rk q 0x0C := by
  unfold chanKey rk
  omega

theorem JudgedAlike.chanEn (h : JudgedAlike p s t) (c : Nat) : t.chanEn c = s.chanEn c := h.bit (chanKey_ne_ctrl (by decide) (by decide))

theorem JudgedAlike.chanTout (h : JudgedAlike p s t) (c : Nat) : t.chanTout c = s.chanTout c := by
  have hfld (c hi lo : Nat) : t.fld (chanKey c 0) hi lo = s.fld (chanKey c 0) hi lo := h.fld (chanKey_ne_ctrl (by decide) (by decide))
  unfold State.chanTout State.chanDec State.chanTin
  simp only [hfld, h.chain]

theorem State.chainRefused_congr (h : JudgedAlike pgChain s t) : t.chainRefused = s.chainRefused := by
  have hfld (c hi lo : Nat) : t.fld (chanKey c 0) hi lo = s.fld (chanKey c 0) hi lo := h.fld (chanKey_ne_ctrl (by decide) (by decide))
  have himu (i : Nat) : imuKey i 0 ≠ rk pgChain 0x0C := by unfold imuKey rk pgImu pgChain; omega
  have hset (k : Nat) : t.customSet k = s.customSet k := by
    unfold State.customSet
    rw [h.chain]
  have hrounds (c : Nat) : t.chanRounds c = s.chanRounds c := by
    unfold State.chanRounds State.chanTaps State.setTaps
    simp only [hfld, hset]
  have hbad (c : Nat) : t.chanRefused c = s.chanRefused c := by
    unfold State.chanRefused
    simp only [hfld, hset, h.fld (himu _), h.chanTout, hrounds, h.fld (j := rk pgChain 0x100) (by decide)]
  unfold State.chainRefused
  simp only [hbad, h.chanEn, h.fld (j := rk pgChain 0x100) (by decide), h.chain]

theorem State.egoRefused_congr (h : JudgedAlike pgEgo s t) : t.egoRefused = s.egoRefused := by
  have hk (o : Nat) (ho : 0x100 ≤ o) : rk pgEgo o ≠ rk pgEgo 0x0C := by rw [ne_eq, rk_inj]; omega
  have hchan (i : Nat) : t.egoChan i = s.egoChan i := by
    unfold State.egoChan
    rw [h.fld (hk _ (by decide)), h.fld (hk _ (by decide))]
  have hin : t.egoInertial = s.egoInertial := by
    unfold State.egoInertial
    simp only [hchan]
  have hsp : t.egoSpeeds = s.egoSpeeds := by
    unfold State.egoSpeeds State.egoWheels
    simp only [h.bit (hk 0x100 (by decide)), h.fld (hk 0x100 (by decide))]
  have hriv : t.egoRiv = s.egoRiv := by
    unfold State.egoRiv
    simp only [h.rd _ (hk _ (Nat.le_add_right_of_le (by decide : 0x100 ≤ 0x108)))]
  have hpos (i : Nat) : t.rd (rk pgEgo (0x140 + 4 * i)) = s.rd (rk pgEgo (0x140 + 4 * i)) := h.rd _ (hk _ (by omega))
  have hbit (c b : Nat) : t.bit (chanKey c 0) b = s.bit (chanKey c 0) b := h.bit (chanKey_ne_ctrl (by decide) (by decide))
  unfold State.egoRefused
  simp only [hin, hsp, hriv, hpos, hbit, hchan, h.chanEn, h.chanTout]

theorem State.timeRefused_congr (h : JudgedAlike pgTime s t) : t.timeRefused = s.timeRefused := by
  unfold State.timeRefused
  simp only [h.bit (j := netKey 0 0) (by decide), h.bit (j := netKey 1 0) (by decide), h.fld (j := netKey 0 0) (by decide),
    h.fld (j := netKey 1 0) (by decide)]

theorem State.streamRefused_congr (h : JudgedAlike pgStream s t) : t.streamRefused = s.streamRefused := by
  unfold State.streamRefused
  simp only [h.rd64 (j := rk pgStream 0x110) (by decide) (by decide), h.rd64 (j := rk pgStream 0x118) (by decide) (by decide)]

theorem State.fabCheck_congr (h : JudgedAlike pgFab s t) : t.fabCheck.2 = s.fabCheck.2 := by
  have hbit (c b : Nat) : t.bit (coreKey c 0) b = s.bit (coreKey c 0) b := h.bit (by unfold coreKey rk pgFab; omega)
  have hfld (c hi lo : Nat) : t.fld (coreKey c 0) hi lo = s.fld (coreKey c 0) hi lo := h.fld (by unfold coreKey rk pgFab; omega)
  have hle (a n : Nat) : t.getLE a n = s.getLE a n := State.getLE_congr h.byte a n
  have hbad (c : Nat) : t.classBad c = s.classBad c := by
    unfold State.classBad State.nclass
    simp only [hbit, hfld, hle]
  have hrt (r : Nat) : t.rtBad r = s.rtBad r := by
    unfold State.rtBad State.rtEntry
    simp only [hle, h.mem]
  have hmap (k : Nat) : t.rdN (rk pgFab (0x140 + 4 * k)) = s.rdN (rk pgFab (0x140 + 4 * k)) := h.rdN (by rw [ne_eq, rk_inj]; omega)
  unfold State.fabCheck
  simp only [hbit, hbad, hrt, hmap]

/-- Whether a block may run does not depend on its own BLK_CTRL. -/
theorem State.enableJudge_congr (h : JudgedAlike p s t) (hp : p < 64) : (t.enableJudge p).2 = (s.enableJudge p).2 := by
  have hq {k : PageKind} {q : Nat} (hk : pageKind p = some k) (hf : ∀ p : Fin 64, pageKind p = some k → p.val = q) : p = q := hf ⟨p, hp⟩ hk
  have hno (a b : Bool) (n : Nat) (e : a = b) : (if a = true then (t.event p n, false) else (t, true)).2 =
      (if b = true then (s.event p n, false) else (s, true)).2 := by
    rw [e]
    cases b <;> rfl
  unfold State.enableJudge
  extract_lets
  cases hk : pageKind p with
  | none => rfl
  | some k =>
    cases k
    case csi => exact hno _ _ _ h.csiRefused
    case eth => exact hno _ _ _ h.ethRefused
    case eng0 => exact hno _ _ _ h.engRefused
    case eng => exact hno _ _ _ h.engRefused
    case eng4 => exact hno _ _ _ h.engRefused
    case grid => exact hno _ _ _ (State.gridRefused_congr (hq (q := pgGrid) hk (by decide) ▸ h))
    case trk => exact hno _ _ _ (State.trkRefused_congr (hq (q := pgTrk) hk (by decide) ▸ h))
    case chain => exact hno _ _ _ (State.chainRefused_congr (hq (q := pgChain) hk (by decide) ▸ h))
    case ego => exact hno _ _ _ (State.egoRefused_congr (hq (q := pgEgo) hk (by decide) ▸ h))
    case time => exact hno _ _ _ (State.timeRefused_congr (hq (q := pgTime) hk (by decide) ▸ h))
    case stream => exact hno _ _ _ (State.streamRefused_congr (hq (q := pgStream) hk (by decide) ▸ h))
    case fab => exact State.fabCheck_congr (hq (q := pgFab) hk (by decide) ▸ h)
    all_goals rfl

end
end Sys2Proof.Machine
end
-- ==== Sys2Proof/Proofs/HaltWrites.lean ====
section
/-! A write of HALT, and the changes of a block's state (R448, R457, R475). -/

namespace Sys2Proof.Machine
section
variable {s t : State} {p : Nat} {on : Bool}

/-! ### HALT -/

/-- What DBG_HALT.ALL leaves halted is recorded. -/
def State.haltMarked (s : State) (p : Nat) (on : Bool) : State :=
  let others := s.sec.haltedByDbg.filter (fun q => q != p)
  if s.bit (rk pgDbg 0x104) 1 then { s with sec := { s.sec with haltedByDbg := if on then others else others ++ [p] } } else s

/-- HALT as it is stored: what DBG_HALT.ALL holds stays halted. -/
def State.haltStored (s : State) (p : Nat) (on : Bool) : State :=
  (s.haltMarked p on).setBit (rk p 0x0C) 1 (on || s.bit (rk pgDbg 0x104) 1)

theorem State.haltMarked_keeps {β : Type} (f : State → β) (hs : ∀ (s : State) x, f { s with sec := x } = f s) : f (s.haltMarked p on) = f s := by
  unfold State.haltMarked
  split
  · exact hs _ _
  · rfl

theorem State.haltStored_rd {j : Nat} (hj : j ≠ rk p 0x0C) : (s.haltStored p on).rd j = s.rd j := by
  unfold State.haltStored
  rw [State.rd_setBit_ne _ _ _ hj]
  exact State.haltMarked_keeps (fun s => s.rd j) (fun _ _ => rfl)

theorem State.haltStored_bit {b : Nat} (hb : b ≠ 1) : (s.haltStored p on).bit (rk p 0x0C) b = s.bit (rk p 0x0C) b := by
  unfold State.haltStored
  rw [State.bit_setBit _ _ _ _ _ _ (by decide), if_neg (fun h => hb h.2)]
  exact State.haltMarked_keeps (fun s => s.bit (rk p 0x0C) b) (fun _ _ => rfl)

theorem State.haltStored_halted : (s.haltStored p on).halted p = (on || s.bit (rk pgDbg 0x104) 1) := by
  unfold State.haltStored State.halted
  rw [State.bit_setBit _ _ _ _ _ _ (by decide), if_pos ⟨rfl, rfl⟩]

theorem State.haltStored_byte (a : Nat) : (s.haltStored p on).byte a = s.byte a := by
  unfold State.haltStored
  rw [State.setBit_byte]
  exact State.haltMarked_keeps (fun s => s.byte a) (fun _ _ => rfl)

theorem State.haltStored_mem : (s.haltStored p on).mem = s.mem := by
  unfold State.haltStored
  rw [State.setBit_mem]
  exact State.haltMarked_keeps State.mem (fun _ _ => rfl)

theorem State.haltStored_chain : (s.haltStored p on).chain = s.chain := by
  unfold State.haltStored
  rw [State.setBit_chain]
  exact State.haltMarked_keeps State.chain (fun _ _ => rfl)

theorem State.haltStored_sameRegs : sameRegs s (s.haltStored p on) [rk p 0x0C] := fun _ hj => State.haltStored_rd (by simpa using hj)

theorem status_ne_ctrl {q : Nat} : rk q 0x10 ≠ rk p 0x0C := by
  unfold rk
  omega

theorem State.haltStored_blk {q : Nat} (hq : q ≠ pgSys) : (s.haltStored p on).blk q = s.blk q :=
  State.blk_congr hq (State.haltStored_rd status_ne_ctrl)

theorem ite_eq_or {c : Prop} [Decidable c] {a b : State} : (if c then a else b) = b ∨ c ∧ (if c then a else b) = a := by
  by_cases h : c
  · exact Or.inr ⟨h, if_pos h⟩
  · exact Or.inl (if_neg h)

/-- A write of HALT to a page that has it: an engine that halts while it runs gives its staged tile back. -/
theorem State.haltWrite_eq (hp : p ≠ pgSys) (hh : (pageKind p).any pageHalt = true) :
    s.haltWrite p on = s.haltStored p on ∨
      (0x12 ≤ p ∧ p < 0x18 ∧ s.blk p = stRunning ∧ s.haltWrite p on = (s.haltStored p on).engHalted (p - 0x12)) := by
  unfold State.haltWrite
  cases hk : pageKind p with
  | none => simp [hk] at hh
  | some k =>
    rw [hk, Option.any_some] at hh
    dsimp only
    rw [if_neg (by simp [hh])]
    have hblk : (s.haltStored p on).blk p = s.blk p := State.haltStored_blk hp
    refine Or.imp id (fun ⟨hc, e⟩ => ?_) (ite_eq_or (a := (s.haltStored p on).engHalted (p - 0x12)) (b := s.haltStored p on))
    simp only [Bool.and_eq_true, decide_eq_true_eq] at hc
    obtain ⟨⟨⟨-, h1⟩, h2⟩, h3⟩ := hc
    have h3 : ((s.haltStored p on).blk p == stRunning) = true := h3
    rw [hblk] at h3
    exact ⟨h1, h2, eq_of_beq h3, e⟩

theorem State.haltWrite_same (hh : (pageKind p).any pageHalt = false) : s.haltWrite p on = s := by
  unfold State.haltWrite
  cases hk : pageKind p with
  | none => rfl
  | some k =>
    rw [hk, Option.any_some] at hh
    dsimp only
    rw [if_pos (by simp [hh])]

/-- What a write of HALT leaves of a block: its state, its ENABLE and TEST, the counts of writes and every byte. -/
structure HaltKept (p : Nat) (s t : State) : Prop where
  status : t.rd (rk p 0x10) = s.rd (rk p 0x10)
  enabled : t.enabled p = s.enabled p
  counts : CountsKept s t
  bytes : sameBytes s t

theorem State.haltStored_kept : HaltKept p s (s.haltStored p on) where
  status := State.haltStored_rd status_ne_ctrl
  enabled := State.haltStored_bit (by decide)
  counts := fun j hj => State.haltStored_rd (ne_count_of_off (by decide) hj)
  bytes := State.haltStored_byte

theorem HaltKept.kept {u : State} (h : HaltKept p s t) (hk : Kept p t u) (hb : sameBytes t u) : HaltKept p s u where
  status := (hk _ status_mem_ctlKeys).trans h.status
  enabled := hk.enabled.trans h.enabled
  counts := h.counts.kept hk
  bytes := h.bytes.trans hb

theorem State.haltWrite_kept (hp : p ≠ pgSys) : HaltKept p s (s.haltWrite p on) := by
  cases hh : (pageKind p).any pageHalt with
  | false =>
    rw [State.haltWrite_same hh]
    exact ⟨rfl, rfl, .refl s, .refl s⟩
  | true =>
    obtain e | ⟨-, -, -, e⟩ := State.haltWrite_eq (s := s) (on := on) hp hh
    · rw [e]
      exact State.haltStored_kept
    · rw [e]
      exact State.haltStored_kept.kept (Kept.refl _ _).engHalted (sameBytes.refl _).engHalted

/-- A block that does not run: a write of HALT changes no register but BLK_CTRL. -/
theorem State.haltWrite_judged (hp : p ≠ pgSys) (hr : s.blk p ≠ stRunning) : JudgedAlike p s (s.haltWrite p on) := by
  have hs : JudgedAlike p s (s.haltStored p on) :=
    ⟨fun _ hj => State.haltStored_rd hj, State.haltStored_chain, State.haltStored_mem, State.haltStored_byte⟩
  cases hh : (pageKind p).any pageHalt with
  | false =>
    rw [State.haltWrite_same hh]
    exact ⟨fun _ _ => rfl, rfl, rfl, fun _ => rfl⟩
  | true =>
    obtain e | ⟨-, -, h, -⟩ := State.haltWrite_eq (s := s) (on := on) hp hh
    · rwa [e]
    · exact absurd h hr

theorem JudgedAlike.held (h : JudgedAlike p s t) : t.held p = s.held p := by
  have hpwr : rk pgPwr 0x104 ≠ rk p 0x0C := by unfold rk; omega
  unfold State.held State.pwrState
  rw [h.bit hpwr, h.fld hpwr]

theorem JudgedAlike.margin (h : JudgedAlike p s t) : t.margin = s.margin := h.fld (by unfold rk; omega)

/-! ### A block's state changes -/

theorem State.setBlk_ctrlBit {st b : Nat} (hb : b ≠ 0) : (s.setBlk p st).bit (rk p 0x0C) b = s.bit (rk p 0x0C) b := by
  have hset : (s.setFld (rk p 0x10) 3 0 st).bit (rk p 0x0C) b = s.bit (rk p 0x0C) b := State.bit_congr (State.rd_setFld_ne _ _ _ _ (by simp)) _
  unfold State.setBlk
  dsimp only
  split
  · rfl
  · rw [State.log_bit]
    split
    · rw [State.bit_setBit _ _ _ _ _ _ (by decide), if_neg (fun h => hb h.2), hset]
    · exact hset

/-- A block that becomes IDLE is not enabled. -/
theorem State.setBlk_idle (h : s.enabled p = false ∨ s.blk p ≠ stIdle) : (s.setBlk p stIdle).enabled p = false := by
  unfold State.setBlk
  dsimp only
  split
  next he => exact h.resolve_right (fun hn => hn he)
  next =>
    unfold State.enabled
    rw [State.log_bit, if_pos (by decide), State.bit_setBit _ _ _ _ _ _ (by decide), if_pos ⟨rfl, rfl⟩]

theorem State.setBlk_result {st : Nat} : (s.setBlk p st).fld (rk p 0x10) 5 4 = s.fld (rk p 0x10) 5 4 := by
  have hset : (s.setFld (rk p 0x10) 3 0 st).fld (rk p 0x10) 5 4 = s.fld (rk p 0x10) 5 4 :=
    State.fld_setFld_ne _ _ _ _ _ _ _ _ (by decide) (by decide) (Or.inr (Or.inr (by decide)))
  unfold State.setBlk
  dsimp only
  split
  · rfl
  · rw [State.log_fld]
    split
    · rw [State.fld_congr (State.rd_setBit_ne _ _ _ (by simp)), hset]
    · exact hset

end
end Sys2Proof.Machine
end
-- ==== Sys2Proof/Proofs/BlockStates.lean ====
section
/-! A block's states (R33, R416, R456, R457, R470, R475 to R478). Settles O41. -/

namespace Sys2Proof.Machine
section
variable {s t : State} {p : Nat} {on : Bool}

/-! ### ENABLE -/

theorem CountsKept.counted (hc : CountsKept s t) (h : Fin 2) :
    (t.bump (rk (pgPort h) 0x48)).rd64 (rk (pgPort h) 0x48) = (s.rd64 (rk (pgPort h) 0x48) + 1) % 2 ^ 64 := by
  rw [State.rd64_bump_self, hc.count]

theorem CountsKept.entered (hc : CountsKept s t) : CountsKept s (t.entered p) :=
  (CountsKept.setBit (hc.setBlk (p := p))).same State.entered_regs

theorem CountsKept.cfgIgnored (hc : CountsKept s t) : CountsKept s (t.cfgIgnored p) := hc.kept (Kept.refl p t).event

theorem CountsKept.enableWrite (hc : CountsKept s t) (hp : p < 64) : CountsKept s (t.enableWrite p) := by
  cases hh : t.held p with
  | true =>
    rw [State.enableWrite_held hh]
    exact hc.cfgIgnored
  | false =>
    have hj : CountsKept s (t.enableJudge p).1 := hc.kept ((Kept.refl p t).enableJudge hp)
    rw [State.enableWrite_judged hh]
    split
    · exact hj.entered.kept ((Kept.refl p _).startHook hp)
    · exact hj

theorem State.enterRunning_runs (hp : p < 64) (hs : p ≠ pgSys) : (s.enterRunning p).blk p = stRunning ∧ (s.enterRunning p).enabled p = true := by
  have hk : Kept p (s.entered p) (s.enterRunning p) := (Kept.refl p _).startHook hp
  exact ⟨(hk.blk hs).trans (State.entered_blk hs), hk.enabled.trans State.entered_enabled⟩

/-- A block that PWR does not hold and its chapter lets run enters RUNNING. -/
theorem State.enableWrite_runs (hp : p < 64) (hs : p ≠ pgSys) (hh : s.held p = false) (hj : (s.enableJudge p).2 = true) :
    (s.enableWrite p).blk p = stRunning ∧ (s.enableWrite p).enabled p = true := by
  rw [State.enableWrite_judged hh, if_pos hj]
  exact State.enterRunning_runs hp hs

/-- A block that its chapter refuses stays as it is. -/
theorem State.enableWrite_refused (hp : p < 64) (hh : s.held p = false) (hj : (s.enableJudge p).2 = false) :
    Kept p s (s.enableWrite p) ∧ sameBytes s (s.enableWrite p) := by
  rw [State.enableWrite_judged hh, if_neg (by simp [hj])]
  exact ⟨(Kept.refl p s).enableJudge hp, (sameBytes.refl s).enableJudge⟩

/-! ### Leaving RUNNING -/

/-- A block that stops, before it is IDLE. -/
def State.stopped (s : State) (p : Nat) : State := ((s.setBlk p stStopping).setBit (rk p 0x0C) 0 false).stopHook p

theorem State.disableWrite_eq : s.disableWrite p =
    if p = pgMem && memMasters.any (fun q => s.blk q != stOff && s.blk q != stIdle) then s.cfgIgnored p
    else if p = pgFab then s.stopped p else (s.stopped p).setBlk p stIdle := rfl

theorem State.stopped_stops (hp : p < 64) (hs : p ≠ pgSys) : (s.stopped p).blk p = stStopping ∧ (s.stopped p).enabled p = false := by
  have hk : Kept p ((s.setBlk p stStopping).setBit (rk p 0x0C) 0 false) (s.stopped p) := (Kept.refl p _).stopHook hp
  refine ⟨(hk.blk hs).trans ?_, hk.enabled.trans ?_⟩
  · rw [State.blk_congr hs (State.rd_setBit_ne _ _ _ (by simp)), State.blk_setBlk _ _ _ hs (by decide)]
  · unfold State.enabled
    rw [State.bit_setBit _ _ _ _ _ _ (by decide), if_pos ⟨rfl, rfl⟩]

theorem CountsKept.disableWrite (hc : CountsKept s t) (hp : p < 64) : CountsKept s (t.disableWrite p) := by
  have hst : CountsKept s (t.stopped p) := CountsKept.kept (CountsKept.setBit (hc.setBlk (p := p))) ((Kept.refl p _).stopHook hp)
  rw [State.disableWrite_eq]
  split
  · exact hc.cfgIgnored
  · split
    · exact hst
    · exact hst.setBlk

/-- A block that takes ENABLE 0 is IDLE and not enabled; FAB is STOPPING. -/
theorem State.disableWrite_stops (hp : p < 64) (hs : p ≠ pgSys)
    (hm : p = pgMem → memMasters.any (fun q => s.blk q != stOff && s.blk q != stIdle) = false) :
    (s.disableWrite p).enabled p = false ∧ (s.disableWrite p).blk p = if p = pgFab then stStopping else stIdle := by
  obtain ⟨hblk, hen⟩ := State.stopped_stops (s := s) hp hs
  rw [State.disableWrite_eq, if_neg]
  · split
    · exact ⟨hen, hblk⟩
    · exact ⟨State.setBlk_idle (Or.inl hen), State.blk_setBlk _ _ _ hs (by decide)⟩
  · simp only [Bool.and_eq_true, decide_eq_true_eq, not_and]
    intro h
    simp [hm h]

/-! ### TEST -/

/-- A block under test: its work is discarded as by a DISMISS. -/
def State.underTest (s : State) (p : Nat) : State :=
  (((s.setBlk p stTesting).setBit (rk p 0x0C) 2 true).dismissHook p).cmdDone p resDismissed

/-- When TEST starts a self-test. -/
def State.mayTest (s : State) (p : Nat) : Prop :=
  (pageKind p).any pageTest = true ∧ s.blk p = stIdle ∧ s.enabled p = false ∧ s.held p = false ∧ ¬ ((p = pgEng 4 ∨ p = pgEng 5) ∧ s.margin ≠ 0)

theorem State.testWrite_mayTest (h : s.mayTest p) : s.testWrite p false = s.underTest p := by
  obtain ⟨hk, hst, hen, hh, hm⟩ := h
  unfold State.testWrite
  cases hpk : pageKind p with
  | none => simp [hpk] at hk
  | some k =>
    rw [hpk, Option.any_some] at hk
    refine if_pos ?_
    simp only [hk, hst, hen, hh, decide_true, Bool.not_false, Bool.and_true, Bool.true_and]
    simpa [← not_or, ← imp_iff_not_or] using hm

theorem State.testWrite_ignored (h : ¬ s.mayTest p) : s.testWrite p (s.enabled p) = s.cfgIgnored p := by
  unfold State.testWrite
  cases hpk : pageKind p with
  | none => exact if_neg (by simp)
  | some k =>
    refine if_neg (fun hc => h ?_)
    simp only [Bool.and_eq_true, decide_eq_true_eq, Bool.not_eq_true'] at hc
    obtain ⟨⟨⟨⟨⟨hk, hst⟩, hen⟩, -⟩, hh⟩, hm⟩ := hc
    refine ⟨by rw [hpk]; exact hk, hst, hen, hh, ?_⟩
    simpa using hm

theorem State.underTest_tests (hp : p < 64) (hs : p ≠ pgSys) :
    (s.underTest p).blk p = stTesting ∧ (s.underTest p).bit (rk p 0x0C) 2 = true ∧ (s.underTest p).busy p = false := by
  have hk : Kept p ((s.setBlk p stTesting).setBit (rk p 0x0C) 2 true) (s.underTest p) := ((Kept.refl p _).dismissHook hp).cmdDone
  refine ⟨(hk.blk hs).trans ?_, (hk.ctrlBit 2).trans ?_, State.busy_cmdDone ..⟩
  · rw [State.blk_congr hs (State.rd_setBit_ne _ _ _ (by simp)), State.blk_setBlk _ _ _ hs (by decide)]
  · rw [State.bit_setBit _ _ _ _ _ _ (by decide), if_pos ⟨rfl, rfl⟩]

theorem CountsKept.testWrite {en : Bool} (hc : CountsKept s t) (hp : p < 64) : CountsKept s (t.testWrite p en) := by
  have hu : CountsKept s (t.underTest p) :=
    CountsKept.kept (CountsKept.setBit (hc.setBlk (p := p))) ((Kept.refl p _).dismissHook hp).cmdDone
  unfold State.testWrite
  extract_lets
  split
  · exact hu
  · exact hc.cfgIgnored

/-- A test that has ended, before what its result means to its block. -/
def State.testOver (s : State) (p : Nat) (passed : Bool) : State :=
  ((s.setBit (rk p 0x0C) 2 false).setFld (rk p 0x10) 5 4 (if passed then 1 else 2)).setBlk p stIdle

/-- What a test's result means to its block. -/
def State.testMeans (s : State) (p : Nat) (passed : Bool) : State :=
  match pageKind p with
  | some .trk => s.trkTested passed
  | some .fab => if passed then { s with safe := { s.safe with fabTested := true } } else s
  | some .eng0 | some .eng | some .eng4 =>
    if passed then s.setWin (p - 0x12) { s.winOf (p - 0x12) with testedSince := true } else s
  | _ => s

theorem State.testEnd_eq {passed : Bool} (h : s.blk p = stTesting) : s.testEnd p passed = (s.testOver p passed).testMeans p passed := by
  unfold State.testEnd
  rewrite [if_neg (by simp [h])]
  rfl

theorem State.testMeans_kept {passed : Bool} : Kept p s (s.testMeans p passed) ∧ sameBytes s (s.testMeans p passed) := by
  have hk := Kept.refl p s
  have hb := sameBytes.refl s
  unfold State.testMeans
  split
  · exact ⟨hk.trkTested, hb.trkTested⟩
  · exact ⟨.ite hk.withSafe hk, .ite hb.withSafe hb⟩
  · exact ⟨.ite hk.withTt hk, .ite hb.withTt hb⟩
  · exact ⟨.ite hk.withTt hk, .ite hb.withTt hb⟩
  · exact ⟨.ite hk.withTt hk, .ite hb.withTt hb⟩
  · exact ⟨hk, hb⟩

theorem State.testOver_byte {passed : Bool} : sameBytes s (s.testOver p passed) := sameBytes.setBlk (sameBytes.setFld (sameBytes.refl s).setBit)

theorem State.testOver_shows {passed : Bool} (hs : p ≠ pgSys) (h : s.blk p = stTesting) :
    (s.testOver p passed).blk p = stIdle ∧ (s.testOver p passed).bit (rk p 0x0C) 2 = false ∧ (s.testOver p passed).enabled p = false ∧
      (s.testOver p passed).fld (rk p 0x10) 5 4 = if passed then 1 else 2 := by
  unfold State.testOver
  refine ⟨State.blk_setBlk _ _ _ hs (by decide), ?_, State.setBlk_idle (Or.inr ?_), ?_⟩
  · rw [State.setBlk_ctrlBit (by decide), State.bit_congr (State.rd_setFld_ne _ _ _ _ (by simp)), State.bit_setBit _ _ _ _ _ _ (by decide),
      if_pos ⟨rfl, rfl⟩]
  · unfold State.blk
    rw [if_neg hs, State.fld_setFld_ne _ _ _ _ _ _ _ _ (by decide) (by decide) (Or.inr (Or.inl (by decide))),
      State.fld_congr (State.rd_setBit_ne _ _ _ (by simp))]
    unfold State.blk at h
    rw [if_neg hs] at h
    rw [h]
    decide
  · rw [State.setBlk_result, State.fld_setFld_self _ _ _ _ _ (by decide) (by decide)]
    split <;> rfl

end

section
variable {s t u : State} {p : Nat} {h : Fin 2}

/-! ### The owner's writes -/

/-- A write that takes effect acts, and is counted. -/
theorem State.blkWrite_eq (hr : s.reaches h = true) (hk : (pageKind p).isSome = true) (hp : p ≠ pgPort (1 - h))
    (ho : s.isOwner h = true ∨ p = pgPort h) (takes : Bool) (f : State → State) :
    s.hostWrite h (fun s => s.ownerWrite h p takes f) = (f (s.reply h .done)).bump (rk (pgPort h) 0x48) := by
  rw [State.hostWrite_eq hr, State.ownerWrite_owner hp hk (ho.symm.imp id (fun ho => (State.reply_isOwner ..).trans ho))]

theorem State.counted_rd {o : Nat} (ho : o < 0x48) : (t.bump (rk (pgPort h) 0x48)).rd (rk p o) = t.rd (rk p o) :=
  State.rd_bump_ne _ _ (by unfold rk pgPort; omega) (by unfold rk pgPort; omega)

theorem State.counted_blk (hs : p ≠ pgSys) : (t.bump (rk (pgPort h) 0x48)).blk p = t.blk p := State.blk_congr hs (State.counted_rd (by decide))
theorem State.counted_ctrlBit (b : Nat) : (t.bump (rk (pgPort h) 0x48)).bit (rk p 0x0C) b = t.bit (rk p 0x0C) b :=
  State.bit_congr (State.counted_rd (by decide)) b
theorem State.counted_enabled : (t.bump (rk (pgPort h) 0x48)).enabled p = t.enabled p := State.counted_ctrlBit 0

/-- A change that is ignored: the block is as it was, and CFG_IGNORED is set. -/
def ChangeIgnored (p : Nat) (s t : State) : Prop :=
  t.blk p = s.blk p ∧ t.enabled p = s.enabled p ∧ t.bit (rk p 0x14) 0 = true ∧ sameBytes s t

theorem HaltKept.reply (h : Fin 2) : HaltKept p s (s.reply h .done) where
  status := State.reply_rd ..
  enabled := State.enabled_eq (State.reply_regs ..)
  counts := fun _ _ => State.reply_rd ..
  bytes := fun _ => State.reply_byte ..

theorem HaltKept.trans (h1 : HaltKept p s t) (h2 : HaltKept p t u) : HaltKept p s u where
  status := h2.status.trans h1.status
  enabled := h2.enabled.trans h1.enabled
  counts := fun j hj => (h2.counts j hj).trans (h1.counts j hj)
  bytes := h1.bytes.trans h2.bytes

theorem HaltKept.blk (hk : HaltKept p s t) (hs : p ≠ pgSys) : t.blk p = s.blk p := State.blk_congr hs hk.status

theorem HaltKept.ignored (hk : HaltKept p s t) (hs : p ≠ pgSys) : ChangeIgnored p s ((t.cfgIgnored p).bump (rk (pgPort h) 0x48)) := by
  have hc : Kept p t (t.cfgIgnored p) := (Kept.refl p t).event
  refine ⟨?_, ?_, ?_, fun a => ?_⟩
  · rw [State.counted_blk hs, hc.blk hs, hk.blk hs]
  · rw [State.counted_enabled, hc.enabled, hk.enabled]
  · rw [State.bit_congr (State.counted_rd (by decide))]
    exact State.bit_event_self _ _ _ (by decide)
  · rw [State.bump_byte, State.cfgIgnored_byte, hk.bytes a]

theorem JudgedAlike.reply (h : Fin 2) : JudgedAlike p s (s.reply h .done) :=
  ⟨fun _ _ => State.reply_rd .., State.reply_chain .., State.reply_mem .., fun _ => State.reply_byte ..⟩

theorem JudgedAlike.trans (h1 : JudgedAlike p s t) (h2 : JudgedAlike p t u) : JudgedAlike p s u :=
  ⟨fun j hj => (h2.rd j hj).trans (h1.rd j hj), h2.chain.trans h1.chain, h2.mem.trans h1.mem, fun a => (h2.byte a).trans (h1.byte a)⟩

/-- The state in which ENABLE or TEST acts: HALT is stored. -/
def State.haltTaken (s : State) (h : Fin 2) (p : Nat) : State := (s.reply h .done).haltWrite p ((s.reply h .done).halted p)

theorem State.haltTaken_kept (hs : p ≠ pgSys) : HaltKept p s (s.haltTaken h p) := (HaltKept.reply h).trans (State.haltWrite_kept hs)

theorem State.haltTaken_judged (hs : p ≠ pgSys) (hr : s.blk p ≠ stRunning) : JudgedAlike p s (s.haltTaken h p) :=
  (JudgedAlike.reply h).trans (State.haltWrite_judged hs (by rwa [State.blk_eq (State.reply_regs ..)]))

/-- A halt of MEM changes no block's state. -/
theorem State.haltTaken_memBlk {q : Nat} (hq : q ≠ pgSys) : (s.haltTaken h pgMem).blk q = s.blk q := by
  have hreply : (s.reply h .done).blk q = s.blk q := State.blk_eq (State.reply_regs ..) q
  unfold State.haltTaken
  obtain e | ⟨h1, -⟩ := State.haltWrite_eq (s := s.reply h .done) (p := pgMem) (on := (s.reply h .done).halted pgMem) (by decide) (by decide)
  · rw [e, State.haltStored_blk hq, hreply]
  · exact absurd h1 (by decide)

section
variable (hr : s.reaches h = true) (ho : s.isOwner h = true) (hk : (pageKind p).isSome = true) (hs : p ≠ pgSys) (hq : p ≠ pgPort (1 - h))
include hr ho hk hs hq

theorem State.ownerEnable_eq (hen : s.enabled p = false) :
    s.hostWrite h (fun s => s.ownerWrite h p (p != pgSys) (fun s => s.ctrlBits p true (s.halted p) false)) =
      (if s.blk p = stIdle then (s.haltTaken h p).enableWrite p else if s.blk p = stRunning then (s.haltTaken h p).disableWrite p
        else (s.haltTaken h p).cfgIgnored p).bump (rk (pgPort h) 0x48) := by
  have hregs : (s.reply h .done).regs = s.regs := State.reply_regs ..
  rw [State.blkWrite_eq hr hk hq (Or.inl ho), State.ctrlBits_enable hs hk, State.enabled_eq hregs, hen, if_neg (by decide), State.blk_eq hregs]
  rfl

theorem State.ownerDisable_eq (hen : s.enabled p = true) (hst : s.blk p = stRunning) :
    s.hostWrite h (fun s => s.ownerWrite h p (p != pgSys) (fun s => s.ctrlBits p false (s.halted p) false)) =
      ((s.haltTaken h p).disableWrite p).bump (rk (pgPort h) 0x48) := by
  have hregs : (s.reply h .done).regs = s.regs := State.reply_regs ..
  rw [State.blkWrite_eq hr hk hq (Or.inl ho), State.ctrlBits_enable hs hk, State.enabled_eq hregs, hen, if_neg (by decide), State.blk_eq hregs, hst,
    if_neg (by decide), if_pos rfl]
  rfl

theorem State.ownerTest_eq :
    s.hostWrite h (fun s => s.ownerWrite h p (p != pgSys) (fun s => s.ctrlBits p (s.enabled p) (s.halted p) true)) =
      ((s.haltTaken h p).testWrite p (s.enabled p)).bump (rk (pgPort h) 0x48) := by
  have hregs : (s.reply h .done).regs = s.regs := State.reply_regs ..
  rw [State.blkWrite_eq hr hk hq (Or.inl ho), State.ctrlBits_test hs hk, State.enabled_eq hregs]
  rfl

theorem State.ownerEnable_shows (hp : p < 64) (hen : s.enabled p = false) : ∃ t,
    s.hostWrite h (fun s => s.ownerWrite h p (p != pgSys) (fun s => s.ctrlBits p true (s.halted p) false)) = t ∧
      t.rd64 (rk (pgPort h) 0x48) = (s.rd64 (rk (pgPort h) 0x48) + 1) % 2 ^ 64 ∧
      (s.blk p = stIdle → s.held p = false → (s.enableJudge p).2 = true → t.blk p = stRunning ∧ t.enabled p = true) ∧
      (s.blk p = stIdle → s.held p = false → (s.enableJudge p).2 = false → t.blk p = stIdle ∧ t.enabled p = false ∧ sameBytes s t) ∧
      (s.blk p = stIdle → s.held p = true → ChangeIgnored p s t) ∧
      (s.blk p ≠ stIdle → s.blk p ≠ stRunning → ChangeIgnored p s t) := by
  have hw := State.haltTaken_kept (s := s) (h := h) hs
  have hj (hidle : s.blk p = stIdle) := State.haltTaken_judged (s := s) (h := h) hs (by rw [hidle]; decide)
  refine ⟨_, State.ownerEnable_eq hr ho hk hs hq hen, ?_, fun hidle hheld hok => ?_, fun hidle hheld hno => ?_, fun hidle hheld => ?_, fun h1 h2 => ?_⟩
  · refine CountsKept.counted ?_ h
    split
    · exact hw.counts.enableWrite hp
    · split
      · exact hw.counts.disableWrite hp
      · exact hw.counts.cfgIgnored
  · obtain ⟨hblk, hon⟩ := State.enableWrite_runs hp hs ((hj hidle).held.trans hheld) ((State.enableJudge_congr (hj hidle) hp).trans hok)
    rw [if_pos hidle, State.counted_blk hs, State.counted_enabled]
    exact ⟨hblk, hon⟩
  · obtain ⟨hkept, hbytes⟩ := State.enableWrite_refused hp ((hj hidle).held.trans hheld) ((State.enableJudge_congr (hj hidle) hp).trans hno)
    rw [if_pos hidle, State.counted_blk hs, State.counted_enabled, hkept.blk hs, hw.blk hs, hkept.enabled, hw.enabled]
    exact ⟨hidle, hen, sameBytes.bump (hw.bytes.trans hbytes)⟩
  · rw [if_pos hidle, State.enableWrite_held ((hj hidle).held.trans hheld)]
    exact hw.ignored hs
  · rw [if_neg h1, if_neg h2]
    exact hw.ignored hs

theorem State.ownerDisable_shows (hp : p < 64) (hen : s.enabled p = true) (hst : s.blk p = stRunning) : ∃ t,
    s.hostWrite h (fun s => s.ownerWrite h p (p != pgSys) (fun s => s.ctrlBits p false (s.halted p) false)) = t ∧
      t.rd64 (rk (pgPort h) 0x48) = (s.rd64 (rk (pgPort h) 0x48) + 1) % 2 ^ 64 ∧
      (p = pgMem → memMasters.any (fun q => s.blk q != stOff && s.blk q != stIdle) = true → ChangeIgnored p s t) ∧
      (p = pgMem → memMasters.any (fun q => s.blk q != stOff && s.blk q != stIdle) = false → t.blk p = stIdle ∧ t.enabled p = false) ∧
      (p ≠ pgMem → t.enabled p = false ∧ t.blk p = (if p = pgFab then stStopping else stIdle)) := by
  have hw := State.haltTaken_kept (s := s) (h := h) hs
  have hmasters (hm : p = pgMem) : memMasters.any (fun q => (s.haltTaken h p).blk q != stOff && (s.haltTaken h p).blk q != stIdle) =
      memMasters.any (fun q => s.blk q != stOff && s.blk q != stIdle) := by
    have hne : ∀ q ∈ memMasters, q ≠ pgSys := by decide
    rw [Bool.eq_iff_iff, List.any_eq_true, List.any_eq_true]
    exact exists_congr (fun q => and_congr_right (fun hq => by rw [hm, State.haltTaken_memBlk (hne q hq)]))
  have hstops (hm : p = pgMem → memMasters.any (fun q => s.blk q != stOff && s.blk q != stIdle) = false) :=
    State.disableWrite_stops (s := s.haltTaken h p) hp hs (fun e => (hmasters e).trans (hm e))
  refine ⟨_, State.ownerDisable_eq hr ho hk hs hq hen hst, (hw.counts.disableWrite hp).counted h, fun hm hany => ?_, fun hm hnone => ?_, fun hm => ?_⟩
  · rw [State.disableWrite_eq, if_pos (by rw [hmasters hm, hany, Bool.and_true]; exact decide_eq_true hm)]
    exact hw.ignored hs
  · obtain ⟨h1, h2⟩ := hstops (fun _ => hnone)
    rw [State.counted_blk hs, State.counted_enabled, h1, h2, if_neg (by rw [hm]; decide)]
    exact ⟨rfl, rfl⟩
  · obtain ⟨h1, h2⟩ := hstops (fun e => absurd e hm)
    rw [State.counted_blk hs, State.counted_enabled, h1, h2]
    exact ⟨rfl, rfl⟩

theorem State.ownerTest_shows (hp : p < 64) : ∃ t,
    s.hostWrite h (fun s => s.ownerWrite h p (p != pgSys) (fun s => s.ctrlBits p (s.enabled p) (s.halted p) true)) = t ∧
      t.rd64 (rk (pgPort h) 0x48) = (s.rd64 (rk (pgPort h) 0x48) + 1) % 2 ^ 64 ∧
      (s.mayTest p → t.blk p = stTesting ∧ t.bit (rk p 0x0C) 2 = true ∧ t.busy p = false) ∧ (¬ s.mayTest p → ChangeIgnored p s t) := by
  have hw := State.haltTaken_kept (s := s) (h := h) hs
  have hmay : (s.haltTaken h p).mayTest p ↔ s.mayTest p := by
    unfold State.mayTest
    rw [hw.blk hs, hw.enabled]
    refine and_congr_right (fun _ => and_congr_right (fun hidle => ?_))
    have hj := State.haltTaken_judged (s := s) (h := h) hs (by rw [hidle]; decide)
    rw [hj.held, hj.margin]
  refine ⟨_, State.ownerTest_eq hr ho hk hs hq, (hw.counts.testWrite hp).counted h, fun hm => ?_, fun hm => ?_⟩
  · obtain ⟨h1, h2, h3⟩ := State.underTest_tests (s := s.haltTaken h p) hp hs
    rw [hm.2.2.1, State.testWrite_mayTest (hmay.2 hm), State.counted_blk hs, State.counted_ctrlBit]
    exact ⟨h1, h2, (State.bit_congr (State.counted_rd (by decide)) _).trans h3⟩
  · rw [← hw.enabled, State.testWrite_ignored (fun h => hm (hmay.1 h))]
    exact hw.ignored hs

end

/-! ### A write of HALT, and of BLK_EVENTS and BLK_FAULTS -/

section
variable (hr : s.reaches h = true) (ho : s.isOwner h = true ∨ p = pgPort h) (hk : (pageKind p).isSome = true) (hq : p ≠ pgPort (1 - h))
include hr ho hk hq

theorem State.ownerHalt_eq {on : Bool} (hs : p ≠ pgSys) :
    s.hostWrite h (fun s => s.ownerWrite h p (p != pgSys) (fun s => s.ctrlBits p (s.enabled p) on false)) =
      ((s.reply h .done).haltWrite p on).bump (rk (pgPort h) 0x48) := by
  rw [State.blkWrite_eq hr hk hq ho, State.ctrlBits_enable hs hk, if_pos rfl]

theorem State.ownerHalt_shows {on : Bool} (hs : p ≠ pgSys) : ∃ t,
    s.hostWrite h (fun s => s.ownerWrite h p (p != pgSys) (fun s => s.ctrlBits p (s.enabled p) on false)) = t ∧ sameBytes s t ∧ t.blk p = s.blk p ∧
      ((pageKind p).any pageHalt = true → t.halted p = (on || s.bit (rk pgDbg 0x104) 1) ∧
        (p < 0x12 ∨ 0x18 ≤ p → sameRegs s t (rk p 0x0C :: wide (rk (pgPort h) 0x48)))) ∧
      ((pageKind p).any pageHalt = false → sameRegs s t (wide (rk (pgPort h) 0x48))) := by
  have hw : HaltKept p s ((s.reply h .done).haltWrite p on) := (HaltKept.reply h).trans (State.haltWrite_kept hs)
  have hall : (s.reply h .done).bit (rk pgDbg 0x104) 1 = s.bit (rk pgDbg 0x104) 1 := State.reply_bit ..
  have hreply : sameRegs s (s.reply h .done) (wide (rk (pgPort h) 0x48)) := (sameRegs.refl s _).same (State.reply_regs ..)
  refine ⟨_, State.ownerHalt_eq hr ho hk hq hs, sameBytes.bump hw.bytes, (State.counted_blk hs).trans (hw.blk hs), fun hh => ⟨?_, fun hne => ?_⟩, fun hh => ?_⟩
  · refine (State.counted_ctrlBit 1).trans ?_
    obtain e | ⟨-, -, -, e⟩ := State.haltWrite_eq (s := s.reply h .done) (on := on) hs hh
    · rw [e, ← hall]
      exact State.haltStored_halted
    · rw [e, ← hall]
      exact (Kept.refl _ _).engHalted.halted.trans State.haltStored_halted
  · obtain e | ⟨h1, h2, -, -⟩ := State.haltWrite_eq (s := s.reply h .done) (on := on) hs hh
    · rw [e]
      exact ((hreply.mono (List.subset_cons_self ..)).trans (State.haltStored_sameRegs.mono (by simp))).bump (by simp) (by simp [rk_add])
    · omega
  · rw [State.haltWrite_same hh]
    exact hreply.bump (by simp) (by simp [rk_add])

/-- Writing 1 to a flag clears it and no other. -/
theorem State.ownerClear_shows {faults : Bool} {v : Word} : ∃ t,
    s.hostWrite h (fun s => s.ownerWrite h p (v != 0) (fun s => s.eventsClear p faults v)) = t ∧ sameBytes s t ∧
      t.rd (rk p (if faults then 0x1C else 0x14)) = s.rd (rk p (if faults then 0x1C else 0x14)) &&& ~~~v ∧
      sameRegs s t (rk p (if faults then 0x1C else 0x14) :: wide (rk (pgPort h) 0x48)) ∧ t.safe = s.safe := by
  have hclear : (s.reply h .done).eventsClear p faults v =
      (s.reply h .done).wr (rk p (if faults then 0x1C else 0x14)) ((s.reply h .done).rd (rk p (if faults then 0x1C else 0x14)) &&& ~~~v) :=
    if_neg (by simp [Option.isSome_iff_ne_none.1 hk])
  have hoff : (if faults then 0x1C else 0x14) < 0x48 := by split <;> decide
  refine ⟨_, State.blkWrite_eq hr hk hq ho .., ?_, ?_, ?_, ?_⟩
  · rw [hclear]
    exact sameBytes.bump (sameBytes.wr (HaltKept.reply (p := p) h).bytes)
  · rw [State.counted_rd hoff, hclear, State.rd_wr, if_pos rfl, State.reply_rd]
  · rw [hclear]
    exact (((sameRegs.refl s _).same (State.reply_regs ..)).wr List.mem_cons_self).bump (by simp) (by simp [rk_add])
  · rw [State.bump_safe, hclear, State.wr_safe, State.reply_safe]

end
end
end Sys2Proof.Machine

open Sys2Proof Sys2Proof.Machine in
/-- Settles O41: HALT is stored first and changes nothing that ENABLE and TEST look at; what a chapter does on entering and leaving RUNNING keeps the
block's own control words and the ports' counts of writes. -/
theorem blockRunsStopsTestsAndHalts : Obligations.BlockRunsStopsTestsAndHalts := by
  unfold Obligations.BlockRunsStopsTestsAndHalts
  constructor
  · intro s h p passed counts st ignored tests hr ho hk hs hq
    refine ⟨fun hen => ?_, fun hen hst => ?_, ?_, ?_⟩
    · obtain ⟨t, e, ht⟩ := State.ownerEnable_shows hr ho hk hs hq p.isLt hen
      exact ⟨t, congrArg Host.Outcome.next e, ht⟩
    · obtain ⟨t, e, ht⟩ := State.ownerDisable_shows hr ho hk hs hq p.isLt hen hst
      exact ⟨t, congrArg Host.Outcome.next e, ht⟩
    · obtain ⟨t, e, ht⟩ := State.ownerTest_shows hr ho hk hs hq p.isLt
      exact ⟨t, congrArg Host.Outcome.next e, ht⟩
    · by_cases hst : s.blk p = stTesting
      · obtain ⟨hkept, hbytes⟩ := State.testMeans_kept (s := s.testOver p passed) (p := p) (passed := passed)
        obtain ⟨h1, h2, h3, h4⟩ := State.testOver_shows (passed := passed) hs hst
        refine ⟨_, congrArg Host.Outcome.next (State.testEnd_eq hst), State.testOver_byte.trans hbytes, fun hne => absurd hst hne, fun _ => ?_⟩
        exact ⟨(hkept.blk hs).trans h1, (hkept.ctrlBit 2).trans h2, hkept.enabled.trans h3, (hkept.statusFld 5 4).trans h4⟩
      · exact ⟨s, congrArg Host.Outcome.next (if_pos hst), .refl s, fun _ => rfl, fun h => absurd h hst⟩
  · intro s h p on faults v key all hr hk hs hq ho
    refine ⟨?_, ?_⟩
    · obtain ⟨t, e, ht⟩ := State.ownerHalt_shows hr ho hk hq (on := on) hs
      exact ⟨t, congrArg Host.Outcome.next e, ht⟩
    · obtain ⟨t, e, ht⟩ := State.ownerClear_shows hr ho hk hq (faults := faults) (v := v)
      exact ⟨t, congrArg Host.Outcome.next e, ht⟩
end
